-- ==== Sys2Proof/Word.lean ====
section
/-! DEFINITION. The register word and the byte of the NVF1632 (R4: every host-visible register is 32 bits). -/
namespace Sys2Proof

/-- A host-visible register, or an address (R4). -/
abbrev Word := BitVec 32

/-- One byte of a packet, a record or a memory (R3). -/
abbrev Byte := BitVec 8

/-- A channel-mask operand (R313). -/
abbrev Mask := BitVec 16

end Sys2Proof
end

