-- ==== Sys2Proof/Machine/Bits.lean ====
section
/-! DEFINITION. Bit fields, little-endian bytes (R3), saturation and rounding. -/
namespace Sys2Proof.Machine

/-- The value of little-endian bytes (R3). -/
def leNat : List Byte → Nat
  | [] => 0
  | b :: r => b.toNat + 256 * leNat r

/-- The n low bytes of a number, low byte first (R3). -/
def toLE : Nat → Nat → List Byte
  | 0, _ => []
  | n + 1, v => BitVec.ofNat 8 v :: toLE n (v / 256)

/-- The four bytes of a register value. -/
def wordBytes (w : Word) : List Byte := toLE 4 w.toNat

/-- The two bytes of a mask. -/
def maskBytes (m : Mask) : List Byte := toLE 2 m.toNat

/-- The register value of little-endian bytes. -/
def leWord (l : List Byte) : Word := BitVec.ofNat 32 (leNat l)

/-- The signed value of little-endian bytes. -/
def leInt (l : List Byte) : Int :=
  let n := leNat l
  if 2 * n < 256 ^ l.length then n else n - 256 ^ l.length

/-- The n low bytes of a signed number in two's complement. -/
def toLEInt (n : Nat) (v : Int) : List Byte := toLE n (v % (256 ^ n : Int)).toNat

/-- Bytes i to i + n - 1 of a payload or a record. -/
def slice (l : List Byte) (i n : Nat) : List Byte := (l.drop i).take n

/-- The byte at an offset; 0 outside the list. -/
def byteAt (l : List Byte) (i : Nat) : Byte := l.getD i 0

/-- The unsigned field of `len` bits at bit `lo`. -/
def bits (w : Word) (lo len : Nat) : Nat := w.toNat / 2 ^ lo % 2 ^ len

/-- The two's complement field of `len` bits at bit `lo`. -/
def sbits (w : Word) (lo len : Nat) : Int :=
  let n := bits w lo len
  if 2 * n < 2 ^ len then n else n - 2 ^ len

/-- A register value from (lowest bit, field value) pairs; the values must fit their fields. -/
def pack (l : List (Nat × Nat)) : Word := BitVec.ofNat 32 (l.foldl (fun a p => a + p.2 * 2 ^ p.1) 0)

/-- The field value of a signed number in `len` bits. -/
def ufield (len : Nat) (v : Int) : Nat := (v % (2 ^ len : Int)).toNat

/-- 1 for true. -/
def b2n (b : Bool) : Nat := if b then 1 else 0

/-- A signed number as a register value. -/
def wordOfInt (v : Int) : Word := BitVec.ofInt 32 v

/-- Replace the bits of `w` selected by `mask` with those of `v`: a write in which the other bits are reserved or
read-only (R6, R7). -/
def maskWrite (mask w v : Word) : Word := (w &&& ~~~mask) ||| (v &&& mask)

/-- Saturating increment of an unsigned counter with `n` bits. -/
def satInc (n c : Nat) : Nat := if c + 1 < 2 ^ n then c + 1 else 2 ^ n - 1

/-- Saturate to an unsigned field of `n` bits. -/
def satNat (n c : Nat) : Nat := if c < 2 ^ n then c else 2 ^ n - 1

/-- Saturate a signed number to an unsigned field of `n` bits. -/
def satIntNat (n : Nat) (v : Int) : Nat := satNat n v.toNat

/-- Saturate to a range. -/
def clampInt (lo hi v : Int) : Int := if v < lo then lo else if hi < v then hi else v

/-- Saturate to `n` bits of two's complement. -/
def satInt (n : Nat) (v : Int) : Int := clampInt (-(2 ^ (n - 1) : Int)) (2 ^ (n - 1) - 1) v

/-- Saturate to a signed 32-bit number. -/
def sat32 (v : Int) : Int := satInt 32 v

/-- Division rounded to nearest, halves away from zero. -/
def divRound (a : Int) (b : Nat) : Int :=
  if 0 ≤ a then (2 * a + b) / (2 * b) else -((2 * (-a) + b) / (2 * b))

/-- Division towards zero. -/
def divZero (a : Int) (b : Nat) : Int := if 0 ≤ a then a / b else -((-a) / b)

/-- The bit vector with the one bit i set. -/
def bitOf (n i : Nat) : BitVec n := BitVec.ofNat n (2 ^ i)

/-- Set or clear bit i. -/
def putBit {n : Nat} (m : BitVec n) (i : Nat) (b : Bool) : BitVec n :=
  if b then m ||| bitOf n i else m &&& ~~~(bitOf n i)

/-- The numbers of the bits that are set, rising. -/
def bitList {n : Nat} (m : BitVec n) : List (Fin n) := (List.finRange n).filter fun i => m.getLsbD i.val

/-- Replace element i of a vector by its image. -/
def vmod {α : Type} {n : Nat} (v : Vector α n) (i : Fin n) (f : α → α) : Vector α n := v.set i.val (f v[i]) i.isLt

/-- The image of a vector. -/
def vmap {α β : Type} {n : Nat} (v : Vector α n) (f : α → β) : Vector β n := Vector.ofFn fun i => f v[i]

/-- The image of a vector, with the index. -/
def vmapI {α β : Type} {n : Nat} (v : Vector α n) (f : Fin n → α → β) : Vector β n := Vector.ofFn fun i => f i v[i]

/-- Some index satisfies the condition. -/
def anyI (n : Nat) (p : Fin n → Bool) : Bool := (List.finRange n).any p

/-- Every index satisfies the condition. -/
def allI (n : Nat) (p : Fin n → Bool) : Bool := (List.finRange n).all p

/-- The number of indices that satisfy the condition. -/
def countI (n : Nat) (p : Fin n → Bool) : Nat := ((List.finRange n).filter p).length

/-- The bit vector of the indices that satisfy a condition. -/
def maskOf (n : Nat) (p : Fin n → Bool) : BitVec n :=
  (List.finRange n).foldl (fun m i => if p i then m ||| bitOf n i.val else m) 0

end Sys2Proof.Machine
end

