-- ==== Sys2Proof/Machine/Crypto.lean ====
section
/-! DEFINITION. CRC-32C (R294), CRC-16 (R15), SHA-256 (FIPS 180-4, named by R255 to R257, R303 and R330) and HMAC-SHA-256
(RFC 2104, named by R303). PRESUMED for the two standards, log entry 15. -/
namespace Sys2Proof.Machine

/-! ### Cyclic redundancy checks -/

/-- One bit of the reflected CRC-32C. -/
def crcBit (c : Word) : Word := if c.getLsbD 0 then (c >>> 1) ^^^ 0x82f63b78 else c >>> 1

/-- n bits. -/
def crcBits : Nat → Word → Word
  | 0, c => c
  | n + 1, c => crcBits n (crcBit c)

/-- The register after the bytes. -/
def crcFold (c : Word) (l : List Byte) : Word := l.foldl (fun c b => crcBits 8 (c ^^^ b.zeroExtend 32)) c

/-- CRC-32C over bytes (R294). -/
def crc32c (l : List Byte) : Word := crcFold 0xffffffff l ^^^ 0xffffffff

/-- One bit of the CRC-16 with polynomial 0x1021, most significant bit first. -/
def crc16Bit (c : BitVec 16) : BitVec 16 := if c.getLsbD 15 then (c <<< 1) ^^^ 0x1021 else c <<< 1

/-- n bits. -/
def crc16Bits : Nat → BitVec 16 → BitVec 16
  | 0, c => c
  | n + 1, c => crc16Bits n (crc16Bit c)

/-- CRC-16 over bytes with initial value 0xFFFF (R15). -/
def crc16 (l : List Byte) : BitVec 16 :=
  l.foldl (fun c b => crc16Bits 8 (c ^^^ BitVec.shiftLeft (b.zeroExtend 16) 8)) 0xffff

/-! ### SHA-256

The constants are formed as the standard defines them, from roots of primes, and a block is worked off round by round
over a window of the sixteen schedule words to come. -/

/-- The k-th root of n rounded down, from the bits below a given place. -/
def rootBits (k n : Nat) : Nat → Nat → Nat
  | 0, r => r
  | i + 1, r => rootBits k n i (if (r + 2 ^ i) ^ k ≤ n then r + 2 ^ i else r)

/-- The first 32 bits of the fraction of the k-th root of a number below 2^12. -/
def rootFraction (k n : Nat) : Word := BitVec.ofNat 32 (rootBits k (n * 2 ^ (32 * k)) 40 0)

/-- The first 64 primes. -/
def shaPrimes : List Nat := (List.range 312).filter fun n => 1 < n && (List.range n).all fun d => d < 2 || n % d != 0

/-- The eight words that a digest starts from: fractions of square roots. -/
def shaStart : List Word := (shaPrimes.take 8).map (rootFraction 2)

/-- The constant of each round: fractions of cube roots. -/
def shaConstants : List Word := shaPrimes.map (rootFraction 3)

/-- The exclusive or of three rotations to the right. -/
def turned (w : Word) (x y z : Nat) : Word := w.rotateRight x ^^^ w.rotateRight y ^^^ w.rotateRight z

/-- The exclusive or of two rotations and a shift to the right. -/
def mixed (w : Word) (x y z : Nat) : Word := w.rotateRight x ^^^ w.rotateRight y ^^^ (w >>> z)

/-- The schedule window one round on: its first word leaves, and the word of sixteen rounds later joins. -/
def nextWindow (w : List Word) : List Word :=
  w.drop 1 ++ [mixed (w.getD 14 0) 17 19 10 + w.getD 9 0 + mixed (w.getD 1 0) 7 18 3 + w.getD 0 0]

/-- The eight working words after a round that takes the sum of its constant and its schedule word. -/
def nextWork (v : List Word) (kw : Word) : List Word :=
  let x (i : Nat) : Word := v.getD i 0
  let pick := x 6 ^^^ (x 4 &&& (x 5 ^^^ x 6))
  let most := (x 0 &&& (x 1 ||| x 2)) ||| (x 1 &&& x 2)
  let t := kw + x 7 + pick + turned (x 4) 6 11 25
  [t + most + turned (x 0) 2 13 22] ++ v.take 3 ++ [t + x 3] ++ (v.drop 4).take 3

/-- The rounds of a block, one for each constant. -/
def runRounds : List Word → List Word → List Word → List Word
  | [], _, v => v
  | k :: ks, w, v => runRounds ks (nextWindow w) (nextWork v (k + w.headD 0))

/-- The 32-bit words of bytes, most significant byte first. -/
def wordsBE (l : List Byte) (n : Nat) : List Word :=
  (List.range n).map fun i => BitVec.ofNat 32 (leNat (slice l (4 * i) 4).reverse)

/-- A digest after one block of 64 bytes. -/
def absorb (ks h : List Word) (block : List Byte) : List Word :=
  List.zipWith (fun a b => a + b) (runRounds ks (wordsBE block 16) h) h

/-- The message with its end mark, zeros, and its length in bits. -/
def padded (l : List Byte) : List Byte :=
  l ++ 0x80 :: List.replicate ((119 - l.length % 64) % 64) 0 ++ (toLE 8 (8 * l.length)).reverse

/-- SHA-256 of bytes: 32 bytes. -/
def sha256 (l : List Byte) : List Byte :=
  let p := padded l
  let ks := shaConstants
  let d := (List.range (p.length / 64)).foldl (fun h i => absorb ks h (slice p (64 * i) 64)) shaStart
  (List.range 32).map fun i => byteAt (wordBytes (d.getD (i / 4) 0)) (3 - i % 4)

/-- HMAC-SHA-256 for a key of at most 64 bytes. -/
def hmac (key msg : List Byte) : List Byte :=
  let k := key ++ List.replicate (64 - key.length) 0
  let inner := sha256 (k.map (fun b => b ^^^ 0x36) ++ msg)
  sha256 (k.map (fun b => b ^^^ 0x5c) ++ inner)

/-- Bytes combined by exclusive or. -/
def xorBytes (a b : List Byte) : List Byte := List.zipWith (· ^^^ ·) a b

end Sys2Proof.Machine
end

