-- ==== Sys2Proof/Machine/Num.lean ====
section
/-! DEFINITION. Fixed-point numerics: exponential, logarithm, square root and the constants that the manual's formulas
name. DESIGN CHOICE, log entry 14: the manual gives the formulas and not their number format. -/
namespace Sys2Proof.Machine

/-- The fraction bits of the fixed-point numbers. -/
def fxBits : Nat := 48

/-- One in fixed point. -/
def fxOne : Nat := 2 ^ fxBits

/-- Sum of x^k / k! for k below n, from the given term and index. -/
def expTerms (x : Int) : Nat → Nat → Int → Int
  | 0, _, _ => 0
  | n + 1, k, t => t + expTerms x n (k + 1) (divRound (t * x) (fxOne * (k + 1)))

/-- exp(x) for a fixed-point x with |x| at most 1. -/
def fxExp (x : Int) : Int := expTerms x 24 0 fxOne

/-- Sum of y^(2k+1)/(2k+1), from the given power of y and odd index. -/
def atanhTerms (y2 : Int) : Nat → Nat → Int → Int
  | 0, _, _ => 0
  | n + 1, k, t => divRound t k + atanhTerms y2 n (k + 2) (divRound (t * y2) fxOne)

/-- ln(a/b) for positive a and b with a/b between 1/2 and 2. -/
def fxLnNear (a b : Nat) : Int :=
  let y := divRound (((a : Int) - b) * fxOne) (a + b)
  2 * atanhTerms (divRound (y * y) fxOne) 40 1 y

/-- Halve a/b until it is at most 2, counting the halvings. -/
def lnReduce : Nat → Nat → Nat → Nat × Nat
  | 0, _, b => (b, 0)
  | n + 1, a, b => if 2 * b < a then ((lnReduce n a (2 * b)).1, (lnReduce n a (2 * b)).2 + 1) else (b, 0)

/-- ln(a/b) in fixed point, for positive a and b. -/
def fxLn (a b : Nat) : Int :=
  let ln2 := fxLnNear 2 1
  if b ≤ a then
    let r := lnReduce 128 a b
    fxLnNear a r.1 + r.2 * ln2
  else
    let r := lnReduce 128 b a
    Int.neg (fxLnNear b r.1 + r.2 * ln2)

/-- Bits of the integer square root, from high to low. -/
def sqrtBits (v : Nat) : Nat → Nat → Nat
  | 0, r => r
  | k + 1, r => if (r + 2 ^ k) * (r + 2 ^ k) ≤ v then sqrtBits v k (r + 2 ^ k) else sqrtBits v k r

/-- The integer square root of a number below 2^256. -/
def isqrt (v : Nat) : Nat := sqrtBits v 128 0

/-- 2 pi with 48 fraction bits. -/
def fxTwoPi : Int := 1768559438007110

end Sys2Proof.Machine
end

