-- ==== Sys2Proof/Config.lean ====
section
/-! DEFINITION. What the manual leaves to the part or does not state: constants without a body, so that no proof can
see their values. Each is named in the assumption log. -/
namespace Sys2Proof.Config

/-- The 64-bit number fused at manufacture (R315: unique to each device; no value is given). Log entry 3. -/
opaque uid : BitVec 64

/-- The n-th draw of the entropy source: nonces and salts (R255, R257, R304 give no values). Log entry 4. -/
opaque entropy : Nat → BitVec 128

/-- The byte at an SRAM address of the region of checkpoints, input logs, replay store and reply queue, whose layout
the manual does not give (R360), at a stated epoch. Log entry 5. -/
opaque islandByte : Nat → Nat → Byte

/-- The byte at a logical NVM offset of the configuration area outside the recipe headers: the layout of the saved
configuration and of the retirement records is not given (R365, R366). Log entry 6. -/
opaque configByte : Nat → Byte

/-- The value of SAFE_CRC for a list of register values: R259 names a CRC-32C over the configuration and does not give
its byte order. Log entry 7. -/
opaque safeCrc : List Word → Word

/-- The CRC-32C that CFG_SAVE answers for a list of saved words: the byte layout of the copy is not given (R216,
R317). Log entry 6. -/
opaque configCrc : List Word → Word

/-- A value that the manual does not state, drawn by the number of the draw. Log entry 8. -/
opaque freeInt : Nat → Int

end Sys2Proof.Config
end

