-- ==== Sys2Proof/Syntax.lean ====
section
/-! DEFINITION. The commands of the block: one constructor for each row of the table of operations and events.
Host commands carry the fields of their request payload (Command set); device events carry what the hardware
measured or saw when the event happened. -/
namespace Sys2Proof

/-- A sample of the precision output or of the wide output of one channel (R126), before offset, gain and linearity
correction: the TBASE at its end in ns, the sense voltage in nanovolt and the shunt voltage in picovolt, from the units
that serve at that time and from those that served before the last change of unit (R139). -/
structure Sample where
  tb : Nat
  v : Int
  vsh : Int
  vOld : Int
  vshOld : Int
deriving DecidableEq, Repr

/-- What the filter chains gave for one channel over one epoch, before offset, gain and linearity correction (R125,
R126, R139): from the units that serve, the mean sense voltage in 2^-16 microvolt, the mean shunt voltage in picovolt
and their covariance over the epoch in microvolt picovolt; the same from the units that served before; the force-node
voltage in microvolt, and the samples of the precision output that ended in the epoch, at 8 kS/s. -/
structure ChanWord where
  vs16 : Int
  vsh : Int
  cov : Int
  vsOld : Int
  vshOld : Int
  covOld : Int
  vf : Int
  prec : List Sample
deriving DecidableEq, Repr

/-- The measurement words stamped with the new epoch (R97, R129): channels, leg shunt voltages in nanovolt, VLINK in
millivolt, link shunt voltages in nanovolt; for each CE whether the checkpoint it wrote in the epoch that ended reads
back with the CRC of its checker core (R34), and how late it released its references, in 0.1 us (RELMAX). -/
structure EpochWords where
  ch : Vector ChanWord 16
  leg : Vector Int 32
  vlink : Int
  link : Vector Int 4
  ckptOk : BitVec 5
  release : Vector Nat 5
deriving DecidableEq, Repr

/-- What CHECK measures on one channel or gang member (R70): V_S at step 2 and its changes at steps 3 and 4, V_F at
step 6, whether V_F reached V_S + 1 V with less than 50 mA at step 8, O_0 and O_1; voltages in nanovolt, and I_1 in
microampere. -/
structure CheckMeas where
  vs : Int
  dP : Int
  dN : Int
  vf : Int
  noCurrent : Bool
  o0 : Int
  o1 : Int
  i1 : Int
deriving DecidableEq, Repr

/-- What one free spare lane finds of one position that it relieves in a calibration slot (R138 to R142). Differences
and deviations are in 0.1 ppm of full scale: of each cross-check the difference on the input of the position and that
on the calibration source, which counts where the input is over range (R140), and the deviations of lane and converter
if it fails. The outputs at the three points of R141, and the offset and the gain error that the two-point calibration
of the lane gives, are in 10^-9 of full scale and of nominal; so are the gain errors of the two ranges of IM that are
not selected. -/
structure LaneSlot where
  lOff : Int
  lGain : Int
  diff1 : Int
  diff1S : Int
  laneDev1 : Int
  convDev1 : Int
  y0 : Int
  y1 : Int
  y2 : Int
  gB : Int
  gC : Int
  diff2 : Int
  diff2S : Int
  laneDev2 : Int
  convDev2 : Int
deriving DecidableEq, Repr

/-- What one spare lane finds in one calibration slot: the reference differences REFA - REFB and REFX - (REFA +
REFB)/2 before XCAL, in 0.1 ppm (R134), and what it finds of the positions that it relieves, in their order (R138,
R145). -/
structure LaneStart where
  ab : Int
  x : Int
  tries : List LaneSlot
deriving DecidableEq, Repr

/-- One calibration slot: what each spare lane finds, and the deviation of the injection DAC in 0.01 % (R397). -/
structure SlotMeas where
  lane : Vector LaneStart 4
  dacDev : Nat
deriving DecidableEq, Repr

/-- What the pulse evaluator has (R154): the samples of the precision output from 10 ms before the boundary of commit
to the end of the last window, and the samples of the wide output from that boundary to the end of the first window. -/
structure PulseMeas where
  prec : List Sample
  wide : List Sample
deriving DecidableEq, Repr

/-- What the impedance correlator has of one point (R156, R181): the samples of the wide output since its excitation
started. -/
structure EisMeas where
  wide : List Sample
deriving DecidableEq, Repr

/-- What the boot calibration finds of one lane (R147): the outputs at the three points of R141, and the gain errors
of the two other ranges, as in `LaneSlot`. -/
structure CalPoints where
  y0 : Int
  y1 : Int
  y2 : Int
  gB : Int
  gC : Int
deriving DecidableEq, Repr

/-- A trip of a bootstrap undervoltage comparator (R84, R94): the leg, whether a two-step turn-off of it still runs,
and the switching periods since its last trip. -/
structure BootTrip where
  leg : Fin 32
  softOff : Bool
  periods : Nat
deriving DecidableEq, Repr

/-- A source that appears in PARK (R226): the resistor at SRCID in ohm, the lowest VLINK in millivolt since SRCOK
rose, and how long SRCOK has stayed high, in ms. -/
structure WakeSource where
  srcidOhm : Nat
  vlinkMv : Nat
  heldMs : Nat
deriving DecidableEq, Repr

/-- The fields of a received budget message (table Budget payload of Rack bus) that the link manager uses. -/
structure BudgetMsg where
  fmt : Byte
  state : BitVec 3
  code : BitVec 3
  node : BitVec 4
  lnk : BitVec 4
  tseq : Byte
  d : Word
  gc : Word
  gm : Word
  ttick : BitVec 64
deriving DecidableEq, Repr

/-- A frame on the rack bus (table Frame element), as received: identifier, format bits, data bytes, and the TBASE
latched at its start of frame. -/
structure CanFrame where
  id : BitVec 29
  xtd : Bool
  fdf : Bool
  brs : Bool
  esi : Bool
  rtr : Bool
  dlc : BitVec 4
  data : List Byte
  sof : Nat
deriving DecidableEq, Repr

/-- The rack-bus errors that move an error counter (R349, ISO 11898-1): a transmitter's error flag, a missing
acknowledgement, a stuff error of a transmitter in arbitration, a receiver's error, and the dominant bit after a
receiver's error flag. -/
inductive CanErr
  | txError | txNoAck | txStuffArb | rxError | rxDominant
deriving DecidableEq, Repr

/-- What the auxiliary SAR has of one die sensor over an evaluation interval (R274, R284, R285), in 0.01 degrees: the
mean of its conversions, the latest of them, the lowest and the highest. -/
structure DieConv where
  mean : Int
  last : Int
  low : Int
  high : Int
deriving DecidableEq, Repr

/-- What the boot sequence finds on its way to step 13 (R214): its duration in ms, the SRAM rows and spare rows that
fail the memory BIST (step 8), the CEs that fail logic BIST (step 10), the boot calibration (step 11: the 32
converters, then the spare lanes) with its reference check, the legs failing step 12 and the groups whose gate-disable
lines fail there, which stop-input channels are high, whether the stored configuration has a correct CRC, and the
levels of SRCOK and BKOK. -/
structure BootInput where
  ms : Nat
  badRows : List Nat
  badSpares : List Nat
  ceFail : BitVec 5
  cal : Vector CalPoints 36
  refAb : Int
  refX : Int
  legFail : BitVec 32
  gdisFail : BitVec 4
  inputs : BitVec 8
  cfgCrcOk : Bool
  safeCrcOk : Bool
  srcok : Bool
  bkok : Bool
  dacDev : Nat
deriving DecidableEq, Repr

/-- A halt of BOOT (R217): its code, and what the boot sequence found up to it. -/
structure BootStop where
  code : Fin 6
  found : BootInput
deriving DecidableEq, Repr

/-- The setpoint register that a write addresses (R123). -/
inductive SetpointReg
  | iset | vset | iramp | vramp
deriving DecidableEq, Repr

/-- Kinds of a cell-protection trip (CP_TRIP): over-voltage, under-voltage, over-current, over-temperature. -/
inductive CpKind
  | ov | uv | oc | ot
deriving DecidableEq, Repr

/-- One command of the block: a row of the table. -/
inductive Instr
  -- host commands: system group
  | identify
  | status
  | setMode (target flags : Byte)
  | softReset (confirm : Word)
  | wakeCommand
  | cfgSave
  | cfgSaveDone (ok : Bool)
  | timeRead
  | echo (data : List Byte)
  -- register access
  | regRead (addr : Word)
  | captureRead (addr : Word)
  | regWrite (addr value : Word)
  | regReadBlock (addr : Word) (count : BitVec 16)
  | regWriteMulti (pairs : List (Word × Word))
  | foutWrite (fout : BitVec 2)
  | gangWrite (group : Fin 4) (gang : BitVec 3)
  | progBindWrite (ch : Fin 16) (value : Word)
  | coefAccess (ch : Fin 16) (write : Option Word)
  | freezeWrite (ch : Fin 16) (frz : BitVec 4)
  | setpointWrite (ch : Fin 16) (reg : SetpointReg) (value : Word)
  | accClearWrite (ch : Fin 16)
  | logackWrite (ch : Fin 16) (value : Word)
  | bkclrWrite
  | castlePeriodWrite (period : BitVec 16)
  | quadWrite (quad : Bool)
  | testUnretireWrite (value : Word)
  | auxpsPkclrWrite
  -- channel control
  | chArm (mask : Mask)
  | chStop (mask : Mask)
  | chHold (mask : Mask)
  | chResume (mask : Mask)
  | chClear (mask : Mask)
  | chHand (mask : Mask) (enter : Byte)
  | chSetpoint (ch sel : Byte) (iset vset iramp vramp : Word)
  | progStart (mask : Mask)
  | progAbort (mask : Mask)
  | chStatus (ch : Byte)
  -- book
  | bookDir
  | bookHdr (header : List Byte)
  | bookSteps (first count : Byte) (records : List Byte)
  | bookCommit (slot : Byte)
  | bookCommitDone (ok : Bool)
  | bookRead (slot first count : Byte)
  -- measurement
  | calRequestRotation
  | calRequestRefTrim (arg : Byte) (value : Word)
  | calRequestFactory (arg : Byte) (value : Word)
  | calTrimDone (ok : Bool) (deviation : Int)
  | measPulse (ch : Byte) (i1 dur : Word)
  | measEis (ch m : Byte) (freq amp : Word)
  | histRead (ch : Byte) (first count : BitVec 16)
  -- logs
  | logRead (ch count : Byte) (first : Word)
  | logAck (ch : Byte) (seq : Word)
  | logMark (ch : Byte) (data : List Byte)
  | gradeRead (ch age : Byte)
  | linkStatus
  -- safety session
  | safeHello (slot : Byte)
  | safeLogin (slot : Byte) (proof : List Byte)
  | safeLogout
  | safeCommit
  | safeCommitDone (ok : Bool)
  | safePasswd (slot len : Byte) (masked : List Byte)
  | safeLogread (first : Word) (count : Byte)
  | safeAck (flags : Byte) (mask : Mask)
  | safeKey (masked : List Byte)
  -- test
  | testRunMemoryBist (arg : Byte)
  | testRunSpareBist (arg : Byte)
  | testRunLogicBist (arg : Byte)
  | testRunLoopback (arg : Byte)
  | testRunScrub (arg : Byte)
  | testRunLegTest (arg : Byte)
  | legTestDone (failLegs : BitVec 8) (groupOk : Bool) (checks : Nat)
  | serviceTestDone (sigMatch : Bool) (applied : Nat) (badRows : List Nat)
  | testResult (test : Byte)
  | scanRequest (confirm : Word)
  | fuseRepair
  | fuseRepairDone (rows : Nat) (ok : Bool)
  | lifeRead
  -- event queue
  | evtRead (first : Word) (count : Byte)
  | evtAck (seq : Word)
  | evtStatus
  -- host port
  | requestFrame (bytes : List Byte) (partialByte : Bool)
  | replyRead (clocked : Nat)
  | reread (clocked : Nat)
  | attentionBlink
  -- epochs, crossbar, islands
  | epochBoundary (w : EpochWords)
  | stagingAnswer (island : Fin 14)
  | stagingTimeout
  | crossbarTransfer (src dst : Fin 14) (planeB : Bool) (attempts : List (List Byte × BitVec 16))
  | currentReference (iref : Word) (leg tag : Byte) (epoch : BitVec 16)
  | pllLoss (island : Fin 14)
  | islandRestartDone (island : Fin 14)
  | ceLockstepMismatch (ce : Fin 5)
  | castleReplayDone (group : Fin 4)
  | sequencerMismatch
  | seqRecover (epochs : Nat)
  | plannedCastlingDue (crcOk ackInTime : Bool)
  | spareBistDue
  | spareBistDone (ce : Fin 5) (sigMatch stateOk : Bool) (patterns : Nat)
  -- power channels
  | checkDone (ch : Fin 16) (meas : List CheckMeas)
  | shortCheckExpiry (ch : Fin 16)
  | foldbackUpdate (ch : Fin 16) (tdPs : Nat)
  | burstEnter (ch : Fin 16) (tdPs : Nat)
  | burstExit (ch : Fin 16)
  | legImbalance (ch : Fin 16) (positive : Bool)
  | orderlyStopGatesOff (ch : Fin 16)
  | disconnectOpen (ch : Fin 16)
  -- gate drive
  | scTrip (leg : Fin 32) (hard : Bool) (milliamps : Int)
  | scGroup (group : Fin 4) (hard : Bool) (tripped turnedOn : BitVec 8)
  | restartDecayTimeout (group : Fin 4) (above : BitVec 8)
  | restartHoldoffEnd (group : Fin 4) (failStep : Vector Nat 8)
  | bootstrapUv (trip : BootTrip)
  | bootstrapDlimLift (leg : Fin 32)
  | bootstrapRefresh (leg : Fin 32)
  | interlock (leg : Fin 32)
  -- control engines
  | loopSat (ch : Fin 16)
  | implausible (ch : Fin 16) (check : Fin 4)
  -- measurement
  | calSlotStart (m : SlotMeas)
  | refMonitor (a b x : Int)
  | calHoldExpired (lateNs : Nat) (reading : Int)
  | loopbackCheck (plus minus : Int)
  | legOffsetMeasure (leg : Fin 32) (offset : Int)
  | pulseEvalDone (ch : Fin 16) (m : PulseMeas)
  | eisPointDone (ch : Fin 16) (m : EisMeas)
  -- formation service
  | flagFall (ch : Fin 16)
  | chargeCap (ch : Fin 16)
  | periodicRecord (ch : Fin 16)
  -- the fit, the mean and the temperature change of the record are formed from the state: they carry nothing here
  | ocvRecord (ch : Fin 16) (fit mean temp : Unit)
  | tempReduce (ch : Fin 16)
  | tempwinClear (ch : Fin 16)
  -- link power manager
  | linkTick
  | budgetMessage (m : BudgetMsg)
  | peerLost (node : Fin 16)
  | peerDemandDrop (node : Fin 16)
  | srcokChange (level : Bool)
  | sourceLoss
  | bkokChange (level : Bool)
  | handoverTimeout
  | returnQualified
  | backupLost
  | formingToLost
  -- modes and reset
  | powerOnReset (srcidOhm : Nat)
  | auxSoftStart (axinMv : Nat)
  | bootDone (b : BootInput)
  | bootHalt (stop : BootStop)
  | pinReset
  | rstNRelease (srcidOhm : Nat)
  | rstStuck
  | wake (srcidOhm : Nat)
  | linkWake (m : WakeSource)
  -- safety
  | stopInputChange (input : Fin 4) (chanB level : Bool)
  | safeLatchStore
  | discrep (input : Fin 4)
  | cat1TimerExpiry
  | safeEscalate (ch : Fin 16) (milliamps : Nat)
  | offPulseTest (out : Fin 2) (pass : Bool)
  | soOverload (out : Fin 2)
  | sofbFault (out : Fin 2)
  | cpTrip (ch : Fin 16) (kind : CpKind)
  | cpDiag (failed : Mask)
  | refClockLoss
  | safetyOscFail
  | clockRecovered (oscillator : Bool)
  | gateDisableFault (group : Fin 4)
  | safetyCoreDivergence
  | safeCoreRestart (micros : Nat)
  | sessionTimeout
  | slotUnlock (slot : Fin 4)
  | vsoUndervoltage
  -- thermal
  | thermEvaluation (sensor : Fin 20) (conv : DieConv)
  | thermStopEnd (sensor : Fin 20)
  | thermLatch (sensor : Fin 20)
  | thRefresh (input : Fin 24) (x : Nat)
  -- rack bus
  | canBusJoin
  | canEnableWrite (value : Word)
  | canTxaddWrite (value : Word)
  | canTxcancelWrite (value : Word)
  | canRxackWrite (fifo : Fin 2) (value : Word)
  | canFrameReceived (frame : CanFrame)
  | canFrameSent (buffer : Fin 16) (sof : Nat)
  | canBusError (kind : CanErr) (transmitting : Option (Fin 16))
  | canRecovered (ms : Nat)
  | timeReferenceSend
  | timeReferenceMessage (frame : CanFrame)
  | canTimeLost
  | canTimeRole
  | statusMessage
  -- DMA
  | dmaShvWrite (n : Fin 8) (value : Word)
  | dmaAbort (n : Fin 8)
  | dmaDisable (n : Fin 8)
  | dmaBurst
  | dmaDescriptorDone (n : Fin 8)
  -- memory
  | sramEccError (addr : Word) (double : Bool)
  | rowRepairDone (row : Fin 2048)
  | nvmRefreshDue
  | nvmRefreshPage (ok : Bool)
  -- lifetime
  | lifetimeHour
  | eqhMinute (hottest : Int)
  -- supplies
  | auxPhaseOvercurrent (phase : Fin 2)
  | auxLimitPersist (phase : Fin 2)
  | auxSoftstartLimit (phase : Fin 2)
  | auxImbalance (positive : Bool)
  | auxBrake
  | auxBrakeEnd
  | auxVgdOv (millivolts : Nat)
  | supplyLoss
  | railFault
  | sofbChange (out : Fin 2) (level : Bool)
  | vsouvClear
  | vioChange (up : Bool)
  | auxImbalanceClear
  | auxModeChange (buck : Bool)
  | alwaysOnReset
deriving DecidableEq, Repr

end Sys2Proof
end

