-- ==== Sys2Proof/Decode.lean ====
section
/-! DEFINITION. Requests of the host port as bytes (R310 and the twelve opcode tables of Command set): the opcode and
payload of a command, and the command of an opcode and payload. The table of commands gives no row any bits. -/
namespace Sys2Proof

open Sys2Proof.Machine

/-- The command that a word spells by the table's bits: the table gives bits to no row, so none. -/
def decodeTableWord (_nbits _w : Nat) : Option Instr := none

/-- What a payload spells (R310). -/
inductive Decoded
  | ok (i : Instr)
  | badLen
  | badParam
deriving DecidableEq, Repr

/-- A layout of fixed length with reserved bytes at the given offsets (R310). -/
def fixedLayout (n : Nat) (reserved : List Nat) (p : List Byte) (i : Instr) : Decoded :=
  if p.length ≠ n then .badLen
  else if reserved.any fun k => byteAt p k != 0 then .badParam
  else .ok i

/-- The register value at an offset of a payload. -/
def wordAt (p : List Byte) (i : Nat) : Word := leWord (slice p i 4)

/-- The 16-bit value at an offset of a payload. -/
def halfAt (p : List Byte) (i : Nat) : BitVec 16 := BitVec.ofNat 16 (leNat (slice p i 2))

/-- The (ADDR, VALUE) pairs of REG_WRITE_MULTI. -/
def pairsAt : Nat → List Byte → List (Word × Word)
  | 0, _ => []
  | n + 1, p => (wordAt p 0, wordAt p 4) :: pairsAt n (p.drop 8)

/-- The opcodes that Command set defines; every other opcode is reserved or undefined (R337). -/
def opcodes : List Byte :=
  [0x00, 0x01, 0x02, 0x03, 0x04, 0x05, 0x06, 0x07, 0x10, 0x11, 0x12, 0x13, 0x20, 0x21, 0x22, 0x23, 0x24, 0x25, 0x26,
   0x27, 0x28, 0x29, 0x40, 0x41, 0x42, 0x43, 0x44, 0x50, 0x51, 0x52, 0x53, 0x60, 0x61, 0x62, 0x63, 0x70, 0x80, 0x81,
   0x82, 0x83, 0x84, 0x85, 0x86, 0x87, 0x90, 0x91, 0x92, 0x93, 0x94, 0xA0, 0xA1, 0xA2]

/-- The command of a payload of the system and register groups. -/
def decodeSystem (opc : Nat) (p : List Byte) : Decoded :=
  match opc with
  | 0x00 => fixedLayout 0 [] p .identify
  | 0x01 => fixedLayout 0 [] p .status
  | 0x02 => fixedLayout 4 [2, 3] p (.setMode (byteAt p 0) (byteAt p 1))
  | 0x03 => fixedLayout 4 [] p (.softReset (wordAt p 0))
  | 0x04 => fixedLayout 0 [] p .wakeCommand
  | 0x05 => fixedLayout 0 [] p .cfgSave
  | 0x06 => fixedLayout 0 [] p .timeRead
  | 0x07 => if p.length ≤ 4096 then .ok (.echo p) else .badLen
  | 0x10 => fixedLayout 4 [] p (.regRead (wordAt p 0))
  | 0x11 => fixedLayout 8 [] p (.regWrite (wordAt p 0) (wordAt p 4))
  | 0x12 => fixedLayout 8 [6, 7] p (.regReadBlock (wordAt p 0) (halfAt p 4))
  | _ =>
    let n := (halfAt p 0).toNat
    if n < 1 ∨ 256 < n then .badLen
    else fixedLayout (4 + 8 * n) [2, 3] p (.regWriteMulti (pairsAt n (p.drop 4)))

/-- The command of a payload of the channel-control group. -/
def decodeChannel (opc : Nat) (p : List Byte) : Decoded :=
  match opc with
  | 0x20 => fixedLayout 4 [2, 3] p (.chArm (halfAt p 0))
  | 0x21 => fixedLayout 4 [2, 3] p (.chStop (halfAt p 0))
  | 0x22 => fixedLayout 4 [2, 3] p (.chHold (halfAt p 0))
  | 0x23 => fixedLayout 4 [2, 3] p (.chResume (halfAt p 0))
  | 0x24 => fixedLayout 4 [2, 3] p (.chClear (halfAt p 0))
  | 0x25 => fixedLayout 4 [3] p (.chHand (halfAt p 0) (byteAt p 2))
  | 0x26 => fixedLayout 20 [2, 3] p
      (.chSetpoint (byteAt p 0) (byteAt p 1) (wordAt p 4) (wordAt p 8) (wordAt p 12) (wordAt p 16))
  | 0x27 => fixedLayout 4 [2, 3] p (.progStart (halfAt p 0))
  | 0x28 => fixedLayout 4 [2, 3] p (.progAbort (halfAt p 0))
  | _ => fixedLayout 4 [1, 2, 3] p (.chStatus (byteAt p 0))

/-- The command of a payload of the book, measurement, log and link groups. -/
def decodeStore (opc : Nat) (p : List Byte) : Decoded :=
  match opc with
  | 0x40 => fixedLayout 0 [] p .bookDir
  | 0x41 => fixedLayout 32 [] p (.bookHdr p)
  | 0x42 =>
    let n := (byteAt p 1).toNat
    if n < 1 ∨ 63 < n then .badLen
    else fixedLayout (4 + 64 * n) [2, 3] p (.bookSteps (byteAt p 0) (byteAt p 1) (p.drop 4))
  | 0x43 => fixedLayout 4 [1, 2, 3] p (.bookCommit (byteAt p 0))
  | 0x44 => fixedLayout 4 [3] p (.bookRead (byteAt p 0) (byteAt p 1) (byteAt p 2))
  | 0x50 =>
    if p.length ≠ 8 then .badLen
    else if byteAt p 2 ≠ 0 ∨ byteAt p 3 ≠ 0 then .badParam
    else match (byteAt p 0).toNat with
      | 0 => .ok .calRequestRotation
      | 1 => .ok (.calRequestRefTrim (byteAt p 1) (wordAt p 4))
      | 2 => .ok (.calRequestFactory (byteAt p 1) (wordAt p 4))
      | _ => .badParam
  | 0x51 => fixedLayout 12 [1, 2, 3] p (.measPulse (byteAt p 0) (wordAt p 4) (wordAt p 8))
  | 0x52 => fixedLayout 12 [2, 3] p (.measEis (byteAt p 0) (byteAt p 1) (wordAt p 4) (wordAt p 8))
  | 0x53 => fixedLayout 6 [1] p (.histRead (byteAt p 0) (halfAt p 2) (halfAt p 4))
  | 0x60 => fixedLayout 8 [2, 3] p (.logRead (byteAt p 0) (byteAt p 1) (wordAt p 4))
  | 0x61 => fixedLayout 8 [1, 2, 3] p (.logAck (byteAt p 0) (wordAt p 4))
  | 0x62 => fixedLayout 16 [1, 2, 3] p (.logMark (byteAt p 0) (p.drop 4))
  | 0x63 => fixedLayout 4 [2, 3] p (.gradeRead (byteAt p 0) (byteAt p 1))
  | _ => fixedLayout 0 [] p .linkStatus

/-- The command of a payload of the safety, test and event groups. -/
def decodeSafety (opc : Nat) (p : List Byte) : Decoded :=
  match opc with
  | 0x80 => fixedLayout 1 [] p (.safeHello (byteAt p 0))
  | 0x81 => fixedLayout 33 [] p (.safeLogin (byteAt p 0) (p.drop 1))
  | 0x82 => fixedLayout 0 [] p .safeLogout
  | 0x83 => fixedLayout 0 [] p .safeCommit
  | 0x84 => fixedLayout 22 [] p (.safePasswd (byteAt p 0) (byteAt p 1) (p.drop 2))
  | 0x85 => fixedLayout 5 [] p (.safeLogread (wordAt p 0) (byteAt p 4))
  | 0x86 => fixedLayout 3 [] p (.safeAck (byteAt p 0) (halfAt p 1))
  | 0x87 => fixedLayout 32 [] p (.safeKey p)
  | 0x90 =>
    if p.length ≠ 4 then .badLen
    else if byteAt p 2 ≠ 0 ∨ byteAt p 3 ≠ 0 then .badParam
    else match (byteAt p 0).toNat with
      | 0 => .ok (.testRunMemoryBist (byteAt p 1))
      | 1 => .ok (.testRunSpareBist (byteAt p 1))
      | 2 => .ok (.testRunLogicBist (byteAt p 1))
      | 3 => .ok (.testRunLoopback (byteAt p 1))
      | 4 => .ok (.testRunScrub (byteAt p 1))
      | 5 => .ok (.testRunLegTest (byteAt p 1))
      | _ => .badParam
  | 0x91 => fixedLayout 4 [1, 2, 3] p (.testResult (byteAt p 0))
  | 0x92 => fixedLayout 4 [] p (.scanRequest (wordAt p 0))
  | 0x93 => fixedLayout 0 [] p .fuseRepair
  | 0x94 => fixedLayout 0 [] p .lifeRead
  | 0xA0 => fixedLayout 8 [5, 6, 7] p (.evtRead (wordAt p 0) (byteAt p 4))
  | 0xA1 => fixedLayout 4 [] p (.evtAck (wordAt p 0))
  | _ => fixedLayout 0 [] p .evtStatus

/-- The command of a defined opcode and its payload, without the authentication trailer (R310). -/
def decodeRequest (opc : Byte) (p : List Byte) : Decoded :=
  let n := opc.toNat
  if n < 0x20 then decodeSystem n p
  else if n < 0x40 then decodeChannel n p
  else if n < 0x80 then decodeStore n p
  else decodeSafety n p

/-- The base address of an instance of an indexed block (R4). -/
def chBase (n : Fin 16) : Word := BitVec.ofNat 32 (0x10000 + 0x400 * n.val)

/-- A write of one field of a register (R318): the address, the bits of the field, and their value in place. -/
structure FieldWrite where
  addr : Word
  mask : Word
  value : Word
deriving DecidableEq, Repr

/-- A write of a whole register. -/
def FieldWrite.whole (a v : Word) : FieldWrite := { addr := a, mask := 0xFFFFFFFF, value := v }

/-- The field that a special row of the table writes: the row is a REG_WRITE whose value has these bits in the field,
and leaves the other fields of the register as they stand. -/
def fieldWriteOf : Instr → Option FieldWrite
  | .foutWrite f => some { addr := 0x100, mask := 0x3, value := f.zeroExtend 32 }
  | .gangWrite g v =>
    some { addr := chBase ⟨4 * g.val, by omega⟩, mask := 0x70, value := (v.zeroExtend 32) <<< 4 }
  | .progBindWrite c v => some (.whole (chBase c + 0x180) v)
  | .coefAccess c (some v) => some (.whole (chBase c + 0x13C) v)
  | .freezeWrite c f => some { addr := chBase c + 0x100, mask := 0xF, value := f.zeroExtend 32 }
  | .setpointWrite c r v =>
    some (.whole (chBase c + (match r with | .iset => 0x104 | .vset => 0x108 | .iramp => 0x10C | .vramp => 0x110)) v)
  | .accClearWrite c => some (.whole (BitVec.ofNat 32 (0x3012C + 0x40 * c.val)) 1)
  | .logackWrite c v => some (.whole (chBase c + 0x1A4) v)
  | .bkclrWrite => some (.whole 0x50024 1)
  | .castlePeriodWrite p => some { addr := 0x140, mask := 0xFFFF, value := p.zeroExtend 32 }
  | .quadWrite q => some { addr := 0x150, mask := 0x1, value := if q then 1 else 0 }
  | .testUnretireWrite v => some (.whole 0xA003C v)
  | .auxpsPkclrWrite => some (.whole 0xC0028 1)
  | .canEnableWrite v => some (.whole 0x70000 v)
  | .canTxaddWrite v => some (.whole 0x70014 v)
  | .canTxcancelWrite v => some (.whole 0x70018 v)
  | .canRxackWrite f v => some (.whole (BitVec.ofNat 32 (0x7002C + 4 * f.val)) v)
  | .dmaShvWrite n v => some (.whole (BitVec.ofNat 32 (0x80024 + 0x40 * n.val)) v)
  | .dmaAbort n => some { addr := BitVec.ofNat 32 (0x80000 + 0x40 * n.val), mask := 0x2, value := 0x2 }
  | .dmaDisable n => some { addr := BitVec.ofNat 32 (0x80000 + 0x40 * n.val), mask := 0x1, value := 0 }
  | _ => none

/-- The opcode and payload of a host command; none for a row that names one field of a register write, and for a
row that no request carries. -/
def encodeRequest : Instr → Option (Byte × List Byte)
  | .identify => some (0x00, [])
  | .status => some (0x01, [])
  | .setMode t f => some (0x02, [t, f, 0, 0])
  | .softReset w => some (0x03, wordBytes w)
  | .wakeCommand => some (0x04, [])
  | .cfgSave => some (0x05, [])
  | .timeRead => some (0x06, [])
  | .echo d => some (0x07, d)
  | .regRead a => some (0x10, wordBytes a)
  | .captureRead a => some (0x10, wordBytes a)
  | .regWrite a v => some (0x11, wordBytes a ++ wordBytes v)
  | .regReadBlock a n => some (0x12, wordBytes a ++ maskBytes n ++ [0, 0])
  | .regWriteMulti ps =>
    some (0x13, toLE 2 ps.length ++ [0, 0] ++ ps.flatMap fun p => wordBytes p.1 ++ wordBytes p.2)
  | .chArm m => some (0x20, maskBytes m ++ [0, 0])
  | .chStop m => some (0x21, maskBytes m ++ [0, 0])
  | .chHold m => some (0x22, maskBytes m ++ [0, 0])
  | .chResume m => some (0x23, maskBytes m ++ [0, 0])
  | .chClear m => some (0x24, maskBytes m ++ [0, 0])
  | .chHand m e => some (0x25, maskBytes m ++ [e, 0])
  | .chSetpoint c sel i v ir vr =>
    some (0x26, [c, sel, 0, 0] ++ wordBytes i ++ wordBytes v ++ wordBytes ir ++ wordBytes vr)
  | .progStart m => some (0x27, maskBytes m ++ [0, 0])
  | .progAbort m => some (0x28, maskBytes m ++ [0, 0])
  | .chStatus c => some (0x29, [c, 0, 0, 0])
  | .bookDir => some (0x40, [])
  | .bookHdr h => some (0x41, h)
  | .bookSteps f n r => some (0x42, [f, n, 0, 0] ++ r)
  | .bookCommit sl => some (0x43, [sl, 0, 0, 0])
  | .bookRead sl f n => some (0x44, [sl, f, n, 0])
  | .calRequestRotation => some (0x50, [0, 0, 0, 0, 0, 0, 0, 0])
  | .calRequestRefTrim a v => some (0x50, [1, a, 0, 0] ++ wordBytes v)
  | .calRequestFactory a v => some (0x50, [2, a, 0, 0] ++ wordBytes v)
  | .measPulse c i d => some (0x51, [c, 0, 0, 0] ++ wordBytes i ++ wordBytes d)
  | .measEis c m f a => some (0x52, [c, m, 0, 0] ++ wordBytes f ++ wordBytes a)
  | .histRead c f n => some (0x53, [c, 0] ++ maskBytes f ++ maskBytes n)
  | .logRead c n f => some (0x60, [c, n, 0, 0] ++ wordBytes f)
  | .logAck c q => some (0x61, [c, 0, 0, 0] ++ wordBytes q)
  | .logMark c d => some (0x62, [c, 0, 0, 0] ++ d)
  | .gradeRead c a => some (0x63, [c, a, 0, 0])
  | .linkStatus => some (0x70, [])
  | .safeHello sl => some (0x80, [sl])
  | .safeLogin sl p => some (0x81, sl :: p)
  | .safeLogout => some (0x82, [])
  | .safeCommit => some (0x83, [])
  | .safePasswd sl n m => some (0x84, sl :: n :: m)
  | .safeLogread f n => some (0x85, wordBytes f ++ [n])
  | .safeAck f m => some (0x86, f :: maskBytes m)
  | .safeKey k => some (0x87, k)
  | .testRunMemoryBist a => some (0x90, [0, a, 0, 0])
  | .testRunSpareBist a => some (0x90, [1, a, 0, 0])
  | .testRunLogicBist a => some (0x90, [2, a, 0, 0])
  | .testRunLoopback a => some (0x90, [3, a, 0, 0])
  | .testRunScrub a => some (0x90, [4, a, 0, 0])
  | .testRunLegTest a => some (0x90, [5, a, 0, 0])
  | .testResult t => some (0x91, [t, 0, 0, 0])
  | .scanRequest w => some (0x92, wordBytes w)
  | .fuseRepair => some (0x93, [])
  | .lifeRead => some (0x94, [])
  | .evtRead f n => some (0xA0, wordBytes f ++ [n, 0, 0, 0])
  | .evtAck q => some (0xA1, wordBytes q)
  | .evtStatus => some (0xA2, [])
  | .coefAccess c none => some (0x10, wordBytes (chBase c + 0x13C))
  | _ => none

/-- An accepted request is an instance of a row: it decodes to the row's command, to the register read that the row
is, or to a REG_WRITE of the row's field with the row's value. -/
def requestIs (i : Instr) (opc : Byte) (p : List Byte) : Bool :=
  match decodeRequest opc p with
  | .ok j =>
    match i, fieldWriteOf i, j with
    | _, some f, .regWrite a v => a == f.addr && v &&& f.mask == f.value
    | _, some _, _ => false
    | .captureRead a, none, j => j == .regRead a
    | .coefAccess c none, none, j => j == .regRead (chBase c + 0x13C)
    | i, none, j => i == j
  | _ => false

end Sys2Proof
end

