-- ==== Sys2Proof/Machine/Memory.lean ====
section
/-! DEFINITION. The SRAM bytes that commands write: the host window and the receive FIFO elements (R319, R360). A list
of (address, byte) pairs with strictly rising addresses and no byte 0: an unlisted address reads as 0 (R360 states
that reserved SRAM reads as zero; log entry 9 for the rest). -/
namespace Sys2Proof.Machine

/-- What an unlisted address reads as. -/
def memDefault : Byte := 0

/-- The byte at an address. -/
def memRead : List Host.Cell → Nat → Byte
  | [], _ => memDefault
  | (k, b) :: r, a => if a = k then b else if a < k then memDefault else memRead r a

/-- Write one byte, keeping the canonical form. -/
def memWrite : List Host.Cell → Nat → Byte → List Host.Cell
  | [], a, b => if b = memDefault then [] else [(a, b)]
  | (k, c) :: r, a, b =>
    if a < k then if b = memDefault then (k, c) :: r else (a, b) :: (k, c) :: r
    else if a = k then if b = memDefault then r else (a, b) :: r
    else (k, c) :: memWrite r a b

/-- Write bytes at rising addresses. -/
def memWriteList : List Host.Cell → Nat → List Byte → List Host.Cell
  | m, _, [] => m
  | m, a, b :: r => memWriteList (memWrite m a b) (a + 1) r

/-- Read n bytes at rising addresses. -/
def memReadList (m : List Host.Cell) (a : Nat) : Nat → List Byte
  | 0 => []
  | n + 1 => memRead m a :: memReadList m (a + 1) n

/-- The canonical form from an address up. -/
def memWfFrom : Nat → List Host.Cell → Bool
  | _, [] => true
  | n, (k, b) :: r => decide (n ≤ k) && b != memDefault && memWfFrom (k + 1) r

/-- The canonical form: addresses strictly rising, no entry equal to what an unlisted address reads as. -/
def Memory.wf (m : List Host.Cell) : Bool := memWfFrom 0 m

end Sys2Proof.Machine
end

