-- ==== Sys2Proof/Machine/State.lean ====
section
/-! DEFINITION. The state of the block as plain data: every register, queue, counter, mode and pin that the manual
gives the device, the queue of waiting commands, and the state right after power-on reset. -/
namespace Sys2Proof.Machine

/-- The block never faults: a command that the device refuses is answered with a status, and an event that cannot
happen in a state changes nothing. Nobody raises a fault (safe: there is none to raise). -/
inductive Fault
deriving DecidableEq, Repr

/-- Why a command has no meaning. -/
inductive Refusal
  /-- Raised by an arm of `exec` whose command has no meaning yet (safe: nothing is claimed about it). -/
  | notModelled (mnemonic : String)
deriving DecidableEq, Repr

/-- The device modes (R206). -/
inductive Mode
  | boot | configure | idle | form | direct | service | dormant | safe
deriving DecidableEq, Repr

/-- What the always-on island is doing with the device: unpowered (R410), reset held by RST_N (R221), a boot sequence
at a step (R214), halted BOOT (R217), running, DORMANT or PARK (R223), stopped until power-on reset (R281, R418,
R420), the supply-loss shutdown (R426), or test access (R403). -/
inductive Phase
  | unpowered | resetHeld | booting | halted | running | dormant | park | stopped | shutdown | testAccess
deriving DecidableEq, Repr

/-- Causes of a BOOT (SYS_RSTC.CAUSE). -/
inductive BootCause
  | none | powerOn | pin | soft | wakeDormant | wakePark
deriving DecidableEq, Repr

/-- Channel states (R72). -/
inductive ChState
  | off | check | armed | run | hold | fault
deriving DecidableEq, Repr

/-- Sources of targets (R111). -/
inductive Src
  | auto | hand | direct
deriving DecidableEq, Repr

/-- Program states (CHn_PSTAT.PSTATE). -/
inductive PState
  | unbound | ready | run | pause | hold | hand | ended
deriving DecidableEq, Repr

/-- The physical sequence of a channel that is running (R68, R210, R280): none; current to zero with the disconnect
kept closed; orderly opening before and after its gates turn off; forced opening. -/
inductive Opening
  | none | ramp | orderly | gatesOff | forced
deriving DecidableEq, Repr

/-- Roles of an engine (CEk_ROLE.ROLE). -/
inductive CeRole
  | owner | spare | bist | loading | retired
deriving DecidableEq, Repr

/-- Link states (LINK_STATE.STATE). -/
inductive LinkSt
  | source | handover | backup | ret | forming | lost
deriving DecidableEq, Repr

/-- The two words of state of a section (R100): values with 16 fraction bits. -/
structure SecState where
  s1 : Int
  s2 : Int
deriving DecidableEq, Repr

/-- One loop of a channel: its section states, its last output, the held output of a freeze, and whether the freeze is
in effect (R99, R110). -/
structure LoopSt where
  sec : Vector SecState 6
  hold : Int
  frozen : Bool
deriving DecidableEq, Repr

/-- The short check of R71: V_S in microvolt and the charge accumulator when it started. -/
structure ShortCheck where
  vs : Int
  q : Int
deriving DecidableEq, Repr

/-- A recipe: its 32-byte header and its step records of 64 bytes (R160, R164). -/
structure Recipe where
  header : List Byte
  steps : List (List Byte)
deriving DecidableEq, Repr

/-- A step end that has been decided (R171): its reason, the next-step byte it takes, how many boundaries are left
before it commits, and its place in the order of R171: 0 to 3 a condition, 4 the implicit end, 5 the cap, 6 flag fall.
-/
structure StepEnd where
  reason : Nat
  next : Nat
  wait : Nat
  rank : Nat
deriving DecidableEq, Repr

/-- One log record before it is committed: TYPE, RFLAGS, the 12 payload bytes, the epoch that produced it, and the
TBASE of the boundary at which its effect committed, or none where that is the boundary that commits the record. -/
structure RecDraft where
  tbase : Option Nat
  ch : Fin 16
  type : Nat
  rflags : Nat
  payload : List Byte
  epoch : Nat
deriving DecidableEq, Repr

/-- A committed log record: its sequence number and its 32 bytes (R185). -/
structure LogRec where
  seq : Nat
  bytes : List Byte
deriving DecidableEq, Repr

/-- What the grade record gathers during a run (R184), charges and energies in accumulator units. -/
structure GradeAcc where
  tstart : Nat
  qin : Nat
  qout : Nat
  ein : Nat
  eout : Nat
  qpre : Nat
  rdc10 : Option Int
  drift : Option Int
  icpv : Nat
  icph : Nat
  gflags : BitVec 8
  nhold : Nat
deriving DecidableEq, Repr

/-- The incremental-capacity histogram of a channel (R183): bins and totals in 0.1 uAh, the remainder carried, the bin
entered last, and for each condition slot the highest moving sum over QUAL bins with the lower edge of its middle bin
in mV; and the smoothing width with the same values of a step without such a condition. -/
structure Hist where
  bins : List Nat
  below : Nat
  above : Nat
  rem : Nat
  last : Option Nat
  peaks : Vector (Nat × Nat) 4
  width : Nat
  top : Nat × Nat
deriving DecidableEq, Repr

/-- The program of a channel (R176): state, running copy of its recipe, step values, counters and holds. `live` tells
that the program has run since the last boundary opened the present epoch, in step `liveStep`, and `fresh` that a new
step has started since; `perInv` and `perBlend` mark an INVALID and a BLEND word in the interval of the periodic record,
`stepBlend` a BLEND word in the step, and `eisNs` is the time since r_I of an EIS step reached IT (R181). `ocvSum` and
`ocvN` gather the 1 s mean of an OCV step in nV, `ocvT` is the temperature of the measurement island at its start, and
`ocvMeans` are the means of the step with that temperature, the latest first (R182). -/
structure Prog where
  pstate : PState
  recipe : Recipe
  slot : Nat
  step : Nat
  lastR : Nat
  causes : List Nat
  tred : Bool
  stepNs : Nat
  charge : Int
  energy : Int
  derated : Nat
  samples : Nat
  pers : Vector Nat 4
  loops : List (Nat × Nat)
  pend : Option StepEnd
  suspend : Nat
  started : Bool
  v1 : List Int
  v1sum : Int
  v1n : Nat
  v1max : Option Int
  sumV : Int
  sumI : Int
  sumN : Nat
  sumT : Int
  sumTn : Nat
  perBad : Bool
  perDer : Bool
  perNs : Nat
  eisIndex : Nat
  eisNs : Nat
  perInv : Bool
  perBlend : Bool
  stepBlend : Bool
  ocvSum : Int
  ocvN : Nat
  ocvT : Int
  ocvMeans : List (Int × Int)
  live : Bool
  liveStep : Nat
  fresh : Bool
  restart : Bool
  holdCause : Nat
  grade : GradeAcc
deriving DecidableEq, Repr

/-- The identity of an accepted request: its TAG, and 256 times the number of requests accepted up to it (R300). -/
abbrev ReqId := Nat

/-- The TAG of an accepted request. -/
def ReqId.tag (n : ReqId) : Byte := BitVec.ofNat 8 n

/-- A measurement that a host command runs on a channel (R327): a pulse with the time left and the TAG while its result
is awaited, a pulse that has ended before its result, an impedance point with its periods, its frequency in mHz and its
amplitude in uA. -/
inductive HostMeas
  | none
  | pulse (durNs : Nat) (tag : Option ReqId)
  | pulseEnd (tag : ReqId)
  | eis (tag : ReqId) (m freq amp : Nat)
deriving DecidableEq, Repr

set_option maxRecDepth 2000 in
/-- One channel: CH registers, live state of the power path, loops, supervision, accumulators, program and ring. A
field `…New` holds the W1C bits that the device has set in the present epoch (R8); `snap` holds the eight words of
CH_STATUS as they stood after the last boundary (R323); `checkNs` is the time since CHECK was entered (R70), `slow`
marks a HOLD whose current goes to zero at CHn_STOPR.RATE (R238), `faulted` a fault of the present epoch (R74); `negB`
is the direction of the sample before the present one (R192), `pbarSum` gathers |V_S I_P| over the `pbarN` epochs
since the last tick, `plWon` tells that PLOOP has won a sample of them and `plNow` that it has won the present one
(R191). `vFl`, `iFl` and `fFl` are SPARE, BLEND and OVR of the words of V_S, I_P and V_F (R17); `boxV`, `boxI` and
`boxN` gather the boxcar of the user rate in nV and pV, `userAt` is the TBASE of the centre of the window of the last
user-rate result (R126); `pulseArmed` holds the target and the TBASE of commit of an armed pulse evaluator, `pulseT0`
the last t_0 (R154); `dds` is the phase of the excitation in 2^-48 of a turn, `excAmp` its amplitude and `excInc` its
phase step in the epoch, `excMean` its mean over the epoch, `excAt` the TBASE at which the excitation of the present
point started, and `excClamp` marks a point with a clamped amplitude (R155). -/
structure Chan where
  cfg : Word
  fsw : Word
  limit : Word
  chkcfg : Word
  burstReg : Word
  stopr : Word
  faultReg : BitVec 9
  faultNew : BitVec 9
  fswF : Word
  limitF : Word
  stoprF : Word
  st : ChState
  fcode : BitVec 8
  dswnc : Bool
  chkResult : BitVec 8
  rc : Nat
  dsw : Bool
  gates : Bool
  opening : Opening
  checking : Bool
  dir : Bool
  fold : Bool
  burst : Bool
  imbal : Bool
  imbalEpochs : Nat
  feff : Nat
  trim : Int
  foldN : Nat
  burstN : Nat
  burstAbove : Nat
  floorClamp : Bool
  short : Option ShortCheck
  -- loops and targets
  ctl : Word
  iset : Word
  vset : Word
  iramp : Word
  vramp : Word
  tlim : Word
  supcfg : Word
  model0 : Word
  model1 : Word
  lsel : Word
  coef : Vector Word 120
  lcfg : Vector Word 4
  clamp : Vector Word 4
  loops : Vector LoopSt 4
  neg : Bool
  rI : Int
  rV : Int
  remI : Int
  remV : Int
  tgtI : Int
  tgtV : Int
  rateI : Nat
  rateV : Nat
  zeroStart : Bool
  iSel : Int
  win : Fin 4
  ovf : BitVec 4
  ovfNew : BitVec 4
  isat : Bool
  satRun : Nat
  clearRun : Nat
  src : Src
  share : Int
  ipHist : List Int
  plimStep : Option Nat
  -- supervision
  vp : Int
  v0 : Int
  sup : Vector Nat 4
  impl : Bool
  implc : BitVec 3
  sinceZero : Nat
  res : Vector Int 4
  -- measurement words of the channel
  vS : Int
  iP : Int
  pW : Int
  vF : Int
  vInv : Bool
  iInv : Bool
  vFl : BitVec 3
  iFl : BitVec 3
  fFl : BitVec 3
  dswB : Bool
  resid : Vector Int 3
  -- accumulators (32 fraction bits below 1 nAh and 1 uWh) and their committed values
  q : Int
  e : Int
  qC : Int
  eC : Int
  aclr : Bool
  -- MEAS registers of the channel
  mcfg : Word
  mcfgF : Word
  rsh : Word
  tc : Word
  tcF : Word
  esl : Word
  userV : Int
  userI : Int
  userSeq : Nat
  userAt : Nat
  boxV : Int
  boxI : Int
  boxN : Nat
  capI : Int
  capSeq : Nat
  capQ : Int
  capE : Int
  pulseArmed : Option (Int × Nat)
  pulseT0 : Nat
  dds : Nat
  excAmp : Nat
  excInc : Nat
  excMean : Int
  excAt : Option Nat
  excClamp : Bool
  hostMeas : HostMeas
  -- program and log
  progReg : Word
  prog : Prog
  hist : Hist
  rseq : Nat
  logReg : Word
  logF : Bool
  logSeq : Nat
  logAck : Nat
  logBoot : Nat
  drop : Nat
  lost : Nat
  nearFull : Bool
  ring : List LogRec
  grades : List (List Byte)
  -- link power manager
  allow : Nat
  negB : Bool
  pbarSum : Nat
  pbarN : Nat
  plWon : Bool
  plNow : Bool
  entered : Bool
  starting : Bool
  counted : Bool
  snap : List Word
  -- CHECK, holds and faults in progress
  checkNs : Nat
  slow : Bool
  faulted : Bool
deriving DecidableEq, Repr

/-- The kinds of park of a leg (R460). -/
structure Parks where
  boot : Bool
  probe : Bool
  conv : Bool
  test : Bool
deriving DecidableEq, Repr

/-- One leg: LEG registers, reference, short-circuit and bootstrap state; `last` is the reference that was in force
before the present sample (R20, R43), `duty` its duty with the balance trim in 1/65536 (R53), `ovr` OVR of its word
(R17), `exc` its share of the excitation in uA in the switching periods of the epoch (R155). -/
structure Leg where
  drv : Word
  drvF : Word
  dt : Word
  bootReg : Word
  sc : Word
  soft : Word
  gsc : Word
  shunt : Word
  tkind : Nat
  suspect : Bool
  restart : Bool
  dlim : Bool
  buv : Bool
  buvRun : Nat
  stretch : Bool
  park : Parks
  evt : BitVec 8
  evtNew : BitVec 8
  ilk : Nat
  cmpn : Nat
  scn : Nat
  iref : Int
  held : Int
  offset : Int
  lbFail : Nat
  current : Int
  lastSuspect : Option Nat
  last : Int
  duty : Int
  ovr : Bool
  exc : List Int
deriving DecidableEq, Repr

/-- A restart interval of a group (R92): legs concerned and suspect, whether a trip identified no leg, the failures
met, and whether probing has ended. -/
structure Restart where
  legs : BitVec 8
  suspect : BitVec 8
  probed : BitVec 8
  probing : Bool
deriving DecidableEq, Repr

/-- A castling that has not committed (R119 to R122): engines, kind, whether it began as a planned one, whether the
receiver is ready, samples skipped, and whether a boundary has passed since it was staged (R43). -/
structure Castle where
  fromCe : Option (Fin 5)
  toCe : Fin 5
  planned : Bool
  began : Bool
  ready : Bool
  skipped : Nat
  waited : Bool
deriving DecidableEq, Repr

/-- A group: ownership tag and owner, gang arrangement in force, castling, restart interval, gate-disable lines, the
group link current with OVR of its word. -/
structure Group where
  gen : BitVec 5
  owner : Option (Fin 5)
  stale : Nat
  skips : Nat
  gang : BitVec 3
  castle : Option Castle
  restart : Option Restart
  gateDis : Bool
  gdisFault : Bool
  shunt : Word
  current : Int
  ovr : Bool
deriving DecidableEq, Repr

/-- What a checkpoint holds of one channel (R34): loops with frozen outputs, ramps with their targets and rates,
supervision model and counts, selector, sharing, and the accumulators. -/
structure ChanCkpt where
  loops : Vector LoopSt 4
  rI : Int
  rV : Int
  remI : Int
  remV : Int
  tgtI : Int
  tgtV : Int
  rateI : Nat
  rateV : Nat
  neg : Bool
  zeroStart : Bool
  vp : Int
  v0 : Int
  sup : Vector Nat 4
  sinceZero : Nat
  win : Fin 4
  iSel : Int
  isat : Bool
  satRun : Nat
  clearRun : Nat
  floorClamp : Bool
  share : Int
  ipHist : List Int
  q : Int
  e : Int
deriving DecidableEq, Repr

/-- A checkpoint slot of an engine (R34, R36): the epoch whose end it holds, whether it has been verified and not been
found damaged, and what it holds of the channels of the group. -/
structure Ckpt where
  epoch : Nat
  verified : Bool
  chans : List ChanCkpt
deriving DecidableEq, Repr

/-- A control engine; `relmax` holds the release times of the last second that no later one exceeds, with the TBASE of
their boundaries, the latest release first; `ckpt` is CEk_CKPT, `slots` the two checkpoint slots, and `diverged` tells
that the engine has reported a mismatch in the present epoch (R34). -/
structure Ce where
  role : CeRole
  group : Fin 4
  qualified : Bool
  relmax : List (Nat × Nat)
  bist : Nat
  mism : Nat
  ckpt : Nat
  slots : Vector Ckpt 2
  diverged : Bool
  cin : Nat
  cout : Nat
  btimeNs : Nat
  bistAt : Nat
deriving DecidableEq, Repr

/-- What a staged change does when it commits (R24, R28). -/
inductive Change
  | mode (target : Mode) (park discard fromSafe : Bool) (mask : Mask)
  | gang (group : Fin 4) (value : BitVec 3)
  | setpoint (ch : Fin 16) (sel : BitVec 4) (iset vset iramp vramp : Word)
  | pulse (ch : Fin 16) (i1 : Int) (durNs : Nat)
  | arm (mask : Mask)
  | stop (mask : Mask)
  | hold (mask : Mask)
  | resume (mask : Mask)
  | clear (mask : Mask)
  | hand (mask : Mask) (enter : Bool)
  | start (mask : Mask)
  | abort (mask : Mask)
  | mark (ch : Fin 16) (data : List Byte)
  | clearLatch (mask : Mask)
  | source (ch : Fin 16)
  | castle (group : Fin 4)
  | lane (k : Fin 4)
deriving DecidableEq, Repr

/-- A staged change (R24): what it does, the request that staged it, the islands concerned, those whose answer is
missing, those that have answered NAK (R25), and the groups with the engines that have failed after acknowledging it
(R26). -/
structure Staged where
  change : Change
  opc : Byte
  tag : Option ReqId
  islands : BitVec 14
  waiting : BitVec 14
  refused : BitVec 14
  failed : List (Fin 4 × Fin 5)
deriving DecidableEq, Repr

/-- An event before it is committed (R37). -/
structure EvDraft where
  code : Nat
  payload : List Byte
deriving DecidableEq, Repr

/-- An entry of the event queue (R333); `len` is its LEN byte, which an uncorrectable word may have zeroed (R362). -/
structure Ev where
  seq : Nat
  code : Nat
  len : Nat
  payload : List Byte
  tbase : Nat
  read : Bool
deriving DecidableEq, Repr

/-- A reply of the host port (R293); RQ is formed when the header is sent (R307). `own` marks the reply of an accepted
request, whose reading ends that the request is outstanding (R296). -/
structure Reply where
  own : Bool
  tag : Byte
  status : Byte
  evt : Byte
  opc : Byte
  payload : List Byte
deriving DecidableEq, Repr

/-- An accepted request that has not been executed (R296): its identity, opcode and payload, and the row of the table
that it is where the row itself came to the port (log entry 12). -/
structure Request where
  tag : ReqId
  opc : Byte
  payload : List Byte
  row : Option Instr := none
deriving DecidableEq, Repr

/-- An entry of the replay store (R300): TAG, the request it stands for, CRC-32C of the packet, and the reply once it
has been formed. -/
structure Replay where
  tag : Byte
  id : ReqId
  crc : Word
  reply : Option Reply
deriving DecidableEq, Repr

/-- The levels that the device drives on HIO0 to HIO3 during one clock of HCK; a lane whose bit of `on` is 0 is not
driven (R289). -/
structure Lanes where
  on : BitVec 4
  level : BitVec 4
deriving DecidableEq, Repr

/-- The host port (Host port). `accepted` counts the requests accepted since BOOT; `lastRead` is the packet of the
last reply read completely; `driven` the bytes that the last reply frame drove, and `wire` the lanes clock by clock;
`blinkDue` tells that an attention blink waits for the end of a busy period. -/
structure HostPort where
  hcfg : Word
  lanesQuad : Bool
  ltag : Byte
  accepted : Nat
  waiting : List Request
  outstanding : List Byte
  replies : List Reply
  lastRead : List Byte
  driven : List Byte
  wire : List Lanes
  replay : List Replay
  authf : Nat
  crce : Nat
  badfr : Nat
  drop : Nat
  replayN : Nat
  nonce : BitVec 64
  capNonceHi : Word
  hcnt : Nat
  vio : Bool
  blinks : Nat
  blinkDue : Bool
deriving DecidableEq, Repr

/-- The event queue and what becomes visible at the next boundary (R335 to R337). -/
structure EvQ where
  queue : List Ev
  pend : List EvDraft
  bootPend : List EvDraft
  lostTotal : Nat
  lostSince : Nat
  returned : Option Nat
  once : List (Nat × Nat)
  rate : List (Nat × Nat × Nat)
deriving DecidableEq, Repr

/-- Registers and records of the always-on island that survive pin reset, soft reset and wake, and return to their
reset values at power-on reset (R5, R6). -/
structure Sticky where
  safeLatch : Bool
  pinn : Nat
  softn : Nat
  stuck : Bool
  stuckTold : Bool
  wsrc : Nat
  xbarFail : Nat
  xbarRetry : Nat
  seqr : Nat
  ckfb : Nat
  islr : Nat
  castu : Nat
  evSeq : Nat
  cplat : Vector (BitVec 4) 16
  cpdiag : Mask
  haltKept : Nat
  bistRows : List Nat
  bistResult : Option (Nat × Nat × Nat)
  phaseOff : BitVec 2
  vgdLatch : Bool
  routes : List (Nat × Nat × Bool)
deriving DecidableEq, Repr

/-- The safety configuration: every RWL field (R263, R305). -/
structure SafeCfg where
  incfg : Vector Word 4
  socfg : Word
  gcfg : Word
  cpv : Vector Word 16
  cpi : Vector Word 16
  hauth : BitVec 2
deriving DecidableEq, Repr

/-- The stored password of a slot (R255). -/
structure Slot where
  salt : BitVec 128
  hash : Option (BitVec 256)
deriving DecidableEq, Repr

/-- The saved configuration (R216): the RW registers with their addresses, the coefficients, and the SRCID code. -/
structure SavedCfg where
  regs : List (Word × Word)
  coefs : List (List Word)
  code : Nat
deriving DecidableEq, Repr

/-- The NVM operation in progress (R462). -/
inductive NvmOp
  | none
  | cfgSave (cfg : SavedCfg)
  | book (slot : Fin 32) (recipe : Recipe)
  | safe (cfg : SafeCfg)
  | calTrim (kind arg : Nat) (value : Word)
  | fuse
deriving DecidableEq, Repr

/-- The lifetime counters (R405): operating hours, refreshes, thermal cycles of each die sensor, switching periods of
each leg, and the equivalent hours as whole minutes with a fraction of 2^-48. -/
structure Life where
  hours : Nat
  refreshes : Nat
  cycles : Vector Nat 20
  periods : Vector Nat 32
  eqhMinutes : Nat
  eqhFrac : Nat
deriving DecidableEq, Repr

/-- NVM, fuses and retention cells: what survives a power-on reset. `fuses` is the fuse map: row, spare row and whether
the check code of the entry is right (R391). `lifeNvm` holds the lifetime counters as last
written to NVM; `bookCut` names a book commit that a power loss or a reset has ended (R162). -/
structure Nvm where
  book : Vector Recipe 32
  version : Vector Nat 32
  config : Option SavedCfg
  ceRetired : BitVec 5
  convRetired : BitVec 32
  laneRetired : BitVec 4
  safe : Option SafeCfg
  slots : Vector Slot 4
  key : Option (BitVec 256)
  changeLog : List (List Byte)
  logSeq : Nat
  commits : Nat
  latCopy : Bool
  fuses : List (Nat × Nat × Bool)
  life : Life
  lifeNvm : Life
  reloc : Nat
  stopValid : Bool
  stopKind : Nat
  stopVgd : Nat
  stopTold : Bool
  thLatched : Bool
  thSensor : Fin 20
  thTold : Bool
  refTrim : Vector Int 2
  posTrim : List (Nat × Int × Int × Int)
  bookCut : Option (Fin 32)
deriving DecidableEq, Repr

/-- The safety island (Safety functions); `lockAt` is the TBASE at which each slot was locked (R255). -/
structure Safety where
  act : SafeCfg
  sess : SafeCfg
  sessOpen : Bool
  slot : Fin 4
  defaultSess : Bool
  nonce : Option (BitVec 128)
  nonceAt : Nat
  login : BitVec 128
  lastCmd : Nat
  fails : Vector Nat 4
  locked : BitVec 4
  lockAt : Vector Nat 4
  raw : BitVec 8
  filt : BitVec 8
  disc : BitVec 4
  bothLow : BitVec 4
  cause : BitVec 12
  cat : BitVec 2
  timer : Bool
  standstill : Bool
  restarting : Bool
  cfgBad : Bool
  rcf : Bool
  refl : Bool
  gdis : Bool
  soOn : BitVec 2
  sofb : BitVec 2
  soTest : BitVec 2
  soOvl : BitVec 2
  sofbF : BitVec 2
  soSwitch : BitVec 2
  diagRun : Mask
  commitTag : Option ReqId
  applyAt : Bool
  draws : Nat
deriving DecidableEq, Repr

/-- A die sensor and its zone (Thermal management); `word` is its latest conversion, or what replaces it (R129);
`coolAt` is the TBASE since which its readings have been below WARN (R280), `stamp` the epoch of its word (R17). -/
structure Die where
  reading : Int
  fast : Bool
  warn : Bool
  level : Nat
  hot : Nat
  stop : Bool
  broken : Bool
  cause : Nat
  differ : Nat
  diffs : List (Nat × Nat × Int)
  nearAt : Option Nat
  stopDue : Bool
  coolAt : Option Nat
  out : Bool
  cycLow : Int
  cycHigh : Int
  word : Int
  stamp : Nat
deriving DecidableEq, Repr

/-- A TH or AUX input: the temperature of its last refresh in millidegrees, or, where `volt` is set, its voltage in
microvolt with OVR; `otRun` counts its refreshes above the OT limit (R247), `stamp` is the epoch of its word (R17). -/
structure Therm where
  temp : Int
  uv : Nat
  volt : Bool
  ovr : Bool
  broken : Bool
  kind : Nat
  outRun : Nat
  otRun : Nat
  goodNs : Nat
  lastNs : Nat
  filt : Int
  stamp : Nat
deriving DecidableEq, Repr

/-- Thermal supervision; `boot` holds the conversions of the boot-time die-sensor check, which `checked` ends (R285). -/
structure Thermal where
  cfg : Word
  cfgF : Word
  thcfg : Word
  thcfgF : Word
  auxcfg : Vector Word 8
  auxcfgF : Vector Word 8
  boot : Vector (Option DieConv) 20
  checked : Bool
  die : Vector Die 20
  inp : Vector Therm 24
  stopn : Nat
  thrn : Nat
  warnn : Nat
deriving DecidableEq, Repr

/-- A peer on the link (R198), powers in milliwatt; `told` once SRC_MISMATCH has been queued for it. -/
structure Peer where
  present : Bool
  code : Nat
  d : Nat
  gc : Nat
  gm : Nat
  told : Bool
deriving DecidableEq, Repr

/-- The registers of the LINK block that take effect at the next tick (R205). -/
structure LinkRegs where
  cfg : Word
  srclim : Word
  bk : Word
  tret : Word
  vform : Word
  vgrd : Word
  node : Word
  prio : Word
deriving DecidableEq, Repr

/-- The link power manager. `ohm` is the resistor at SRCID as last read. Powers are in milliwatt; kc and kd are
fractions; the guard factors are in 1/65536, those computed and those in force; `pend` is a decided state with its row
and the boundaries left; `claims` are the claims of the allowances in force, `alPend` those of the allowances that
commit at the next boundary, `vTick` their VLINK and `lim` their I_SRC and I_SNK; `tickAt` is one more than the epoch
of the last tick, `inSource` tells that SOURCE was in force in the epoch that ended (R204), and `ovr` is OVR of the word
of VLINK. -/
structure Link where
  reg : LinkRegs
  act : LinkRegs
  code : Nat
  ohm : Nat
  st : LinkSt
  bkf : Bool
  bkclr : Bool
  stale : Bool
  staleN : Nat
  qual : Bool
  qualAt : Nat
  bkok : Bool
  bken : Bool
  srcok : Bool
  lost : Bool
  inSource : Bool
  pend : Option (LinkSt × Nat × Nat)
  peers : Vector Peer 16
  d : Nat
  gc : Nat
  gm : Nat
  di : Nat
  gmi : Nat
  kc : Nat × Nat
  kd : Nat × Nat
  gC : Nat
  gD : Nat
  gCF : Nat
  gDF : Nat
  claims : Vector Nat 16
  alPend : Option (Vector Nat 16)
  vTick : Int
  lim : Nat × Nat
  pause : List (Fin 16)
  zeroTicks : Nat
  tick : Nat
  tickAt : Nat
  vlink : Int
  ovr : Bool
  grd : Nat
  stal : Nat
  retN : Nat
  ho : Nat
  bkFaultTold : Bool
deriving DecidableEq, Repr

/-- Calibration coefficients (R141): offset and second-order term in 10^-9 of full scale, the error of the gain in
10^-9; and whether a calibration has given the offset and the gain on that range. -/
structure Coef where
  o : Int
  g : Int
  k : Int
  oSet : Bool
  gSet : Bool
deriving DecidableEq, Repr

/-- A change of the unit that serves a position (R139): the TBASE of its commit, and the coefficients of the unit that
served before and of the one that serves since. -/
structure Blend where
  at' : Nat
  old : Vector Coef 4
  new : Vector Coef 4
deriving DecidableEq, Repr

/-- The work of a spare lane in a calibration slot (R138): the position, what the lane finds of it and of those that
it relieves after a deferral, how far it has come (0 before step 4, 1 substitution staged, 2 blend-in, 3 calibration,
4 cross-check II, 5 return staged, 6 blend-out, 7 and 8 the measurement of the calibration source after a failed
cross-check I and II), the TBASE of the last commit or of its start, that of the start of the sequence, that at which
the cross-check window or that measurement ends, whether the input was over range in the window (R140), the marks of
R142 and R149, and the coefficients of the unit before the slot (R149). -/
structure LaneWork where
  pos : Fin 32
  m : LaneSlot
  more : List LaneSlot
  phase : Nat
  since : Nat
  start : Nat
  ends : Nat
  clip : Bool
  retire : Bool
  discard : Bool
  old : Vector Coef 4
deriving DecidableEq, Repr

/-- A spare lane (MEAS_LANES): state 0 free, 1 substituting, 2 permanent, 3 retired. -/
structure Lane where
  st : BitVec 2
  pos : Fin 32
deriving DecidableEq, Repr

/-- The measurement island: references, rotation and hold; `slot` counts the slots started in the present rotation;
`refWord` are the last words 0xC0 to 0xC2 with the epoch `refStamp` (R129), `coef` the coefficients of the 32
converters and the spare lanes: as VM, and as IM on each of its ranges (R141). `doomed` marks the positions whose unit
is to be retired at a substitution that was deferred (R142, R145), and `blends` are the changes of unit of each
position, the latest first, as long as a window in progress can reach back (R139). -/
structure Meas where
  refcfg : Word
  xcfg : Word
  ab : Int
  xd : Int
  excluded : BitVec 3
  votes : List (Int × Int)
  agree : Nat
  hold : Nat
  holdx : Bool
  holdAt : Nat
  holdTemp : Int
  holdxEnds : Nat
  slot : Nat
  nextPos : Nat
  rotAt : Nat
  lanes : Vector Lane 4
  work : Vector (Option LaneWork) 4
  suspect : Vector Nat 32
  doomed : BitVec 32
  deferred : List (Fin 32)
  refInit : Bool
  legIdx : Fin 32
  legDone : Nat
  legBad : Nat
  legSlotAt : Nat
  refWord : Vector Int 3
  refStamp : Nat
  coef : Vector (Vector Coef 4) 36
  blends : Vector (List Blend) 32
deriving DecidableEq, Repr

/-- A transmit buffer of the rack bus: the element copied at the request (R344); a cancel of a frame in transmission
(R346); the frames that follow it: a device message formed while an older one is in transmission (R356), and requests
whose older frame a restart of the island sends again (R357). -/
structure TxBuf where
  pend : Bool
  cancel : Bool
  elem : List Byte
  next : List (List Byte)
deriving DecidableEq, Repr

/-- A receive FIFO of the rack bus (R348); `dmaRel` counts the elements that DMA has released since the last checkpoint
(R383), `late` those whose release by the host waits for the end of a burst (R378). -/
structure RxFifo where
  get : Nat
  fill : Nat
  ovr : Bool
  ovrNew : Bool
  lost : Nat
  dmaRel : Nat
  late : Nat
deriving DecidableEq, Repr

/-- What the device messages received since the last checkpoint may have changed, as it stood before the first of them
(R357). -/
structure MsgCkpt where
  role : Bool
  demoted : Bool
  master : Option Nat
  mnode : Nat
  lock : Bool
  lockRun : Nat
  rc : Int
  ofs : Int
  oLast : Int
  latchL : Option (Nat × Nat)
  refAt : Nat
  peers : Vector Peer 16
deriving DecidableEq, Repr

/-- The rack-bus controller: registers, fault confinement (R349), buffers and FIFOs, and the network time service
(R353, R354): role, the identifier of the master followed, lock and its count, rate correction in 10^-15, offsets in
ns, own latch of the last message followed, sequence number and own latch of the last message sent, and whether the
role is newly taken or was lost to another master. `rxNew` and `sentNew` are the frames received and sent since the
last checkpoint (R357), `sentFrame` is the last frame sent. `refAt` is TBASE at the last reference message, `sendAt`
counts the multiples of TPER served, and `statusSent` and `statusAt` are the last status message and its TBASE (R353
to R355). `inTx` is the buffer whose frame is known to be in transmission, `lostTold` tells that the loss of the
reference has been reported, and `msgCk` is what a restart undoes of the device messages (R357). -/
structure Can where
  ctl : Word
  nbt : Word
  dbt : Word
  tdc : Word
  tcfg : Word
  msgcfg : Word
  joined : Bool
  tdcv : Nat
  est : Nat
  tecN : Nat
  recN : Nat
  recov : Bool
  tx : Vector TxBuf 16
  done : Mask
  failed : Mask
  doneNew : Mask
  failedNew : Mask
  rxf : Vector RxFifo 2
  fltid : Vector Word 64
  fltmsk : Vector Word 64
  role : Bool
  demoted : Bool
  master : Option Nat
  mnode : Nat
  lock : Bool
  lockRun : Nat
  rc : Int
  ofs : Int
  oLast : Int
  latchL : Option (Nat × Nat)
  prevM : Option (Nat × Nat)
  newMaster : Bool
  seqOut : Nat
  boffn : Nat
  passn : Nat
  brepl : Nat
  rtrn : Nat
  rxNew : Vector Nat 2
  sentNew : List (Fin 16 × List Byte)
  sentFrame : Option CanFrame
  refAt : Nat
  sendAt : Nat
  statusSent : List Byte
  statusAt : Nat
  inTx : Option (Fin 16)
  lostTold : Bool
  msgCk : Option MsgCkpt
deriving DecidableEq, Repr

/-- What the checkpoint of the DMA island holds of a channel (R34, R383): descriptor in progress, request, ARSEQ and
whether a list was active; and whether the shadow set has been taken since. -/
structure DmaCkpt where
  adesc : Word
  areq : Word
  arseq : Word
  active : Bool
  took : Bool
deriving DecidableEq, Repr

/-- A DMA channel: active and shadow sets, whether a list is active, the fetched descriptor with the bytes moved and its
RESULT (0 while it runs), the last descriptor fetched, the checkpoint, and counters (R380, R383, R385). -/
structure Dma where
  ctl : Word
  adesc : Word
  areq : Word
  arseq : Word
  sdesc : Word
  sreq : Word
  srseq : Word
  shv : Bool
  evt : BitVec 6
  evtNew : BitVec 6
  lbad : Word
  skip : Nat
  donen : Nat
  badn : Nat
  active : Bool
  ran : Word
  ck : DmaCkpt
  desc : Option (List Byte)
  moved : Nat
  result : Nat
deriving DecidableEq, Repr

/-- A test record (R388). -/
structure TestRec where
  runs : Nat
  arg : Nat
  result : Nat
  applied : Nat
  expected : Nat
  tbase : Nat
deriving DecidableEq, Repr

/-- A row of the SRAM that is mapped onto a spare row (R364, R390): whether the fuse map holds it, and whether it has
been mapped since the device left BOOT. -/
structure RowFix where
  row : Nat
  spare : Nat
  fused : Bool
  run : Bool
deriving DecidableEq, Repr

/-- The memory island and self-test; `rows` are the rows mapped, in the order in which they were, `rowCorr` the
corrections of the last 24 h with their TBASE, before 0 where they came before the last start of TBASE; `spareEnds` is
the TBASE at which the run of the spare's logic BIST ends (R394); `pageOp` tells that a page operation of the refresh
runs, `pageAt` when it started or, between two, when the next one may start, and `pageBad` counts the pages that could
not be rewritten (R367, R368); `scrubLeft` is the time that the present word of the scrubber still takes, in ns times
2^19. -/
structure MemIsl where
  corr : Nat
  uncorr : Nat
  eccaddr : Word
  scrub : Word
  passn : Nat
  scrubWord : Nat
  scrubLeft : Nat
  page : Word
  nvmOp : NvmOp
  opTag : Option ReqId
  refreshing : Bool
  pageOp : Bool
  pageAt : Nat
  pagen : Nat
  pageBad : Nat
  rowCorr : List (Nat × Int)
  rows : List RowFix
  copying : List (Nat × Nat)
  badSp : List Nat
  stageHdr : List Byte
  stageSteps : Vector (List Byte) 128
  tests : Vector TestRec 6
  running : BitVec 6
  dacf : Bool
  legLb : BitVec 32
  legF : BitVec 32
  testTag : Option ReqId
  testArg : Nat
  serviceTest : Option Nat
  spareTag : Option ReqId
  spareEnds : Nat
deriving DecidableEq, Repr

/-- The aux converter and the rails (Supplies and the aux converter): measured values as averages and peaks. -/
structure Aux where
  cfg : Word
  state : Nat
  mode : Nat
  brake : Bool
  imb : Bool
  vsouv : Bool
  trim : Int
  vgdMax : Nat
  vgdAvg : Nat
  vgdMin : Nat
  iph : Vector (Nat × Nat) 2
  iout : Nat × Nat
  pwr : Nat × Nat
  temp : Int × Int
  braken : Nat
  limn : Nat
  imbn : Nat
deriving DecidableEq, Repr

/-- What follows once the last reply has been read or its time has passed: BOOT after a soft reset (R220) or a wake
command (R306), PARK after its SET_MODE (R223), test access (R403), a destructive test (R401). -/
inductive Due
  | none | soft | wake | park | scan
  | test (k : Fin 6)
deriving DecidableEq, Repr

/-- The words delivered to the input windows in one epoch, as the input logs in SRAM hold them, and the islands whose
log of that epoch is damaged (R35, R362). -/
structure InLog where
  epoch : Nat
  words : EpochWords
  damaged : BitVec 14
deriving DecidableEq, Repr

/-- The TAP (R403, R404): whether it is held in its reset state, and its instruction register. -/
structure Tap where
  held : Bool
  ir : Byte
deriving DecidableEq, Repr

/-- Device-wide registers and the epoch (SYS block). `dueNs` is the time for which `due` has stood, and `dueLeft` the
replies to be read until its own has been; `lwake` is LWAKE as loaded at BOOT (R227); `wakeHigh` tells that WAKE has
risen. `setl` holds the channels with a physical sequence that a mode commit has started (R212); `inlog` the words of
the last four epochs, the latest first (R35); `islCkpt` the epochs of the last verified checkpoints of sequencer, host
port, rack bus and DMA (R34); `wakeVlost` in mV and `wakeTret` in ms are copied at the entry into PARK, and `srcRise`
tells that SRCOK has risen since (R226). `wakePend` is the resistor at SRCID of a rise of WAKE that met a committed
entry into DORMANT (R213), `closed` the slot of the session that a pin reset has closed (R261). -/
structure Sys where
  fout : BitVec 2
  foutF : BitVec 2
  epoch : BitVec 48
  running : Bool
  tbase : Nat
  tbaseFrac : Int
  capEpochHi : BitVec 16
  capTbaseHi : Word
  refusers : BitVec 14
  islDown : BitVec 14
  recovering : Bool
  castlePen : Bool
  castlePeriod : BitVec 16
  castleNs : Nat
  castleStop : Bool
  bootcfg : Word
  mode : Mode
  phase : Phase
  prev : Mode
  safeFrom : Mode
  setl : Mask
  cause : BootCause
  hcode : Nat
  cfgdef : Bool
  cefail : Bool
  tboot : Nat
  bootStep : Nat
  due : Due
  dueNs : Nat
  dueLeft : Nat
  rstLow : Bool
  wakeHigh : Bool
  lwake : Bool
  inlog : List InLog
  islCkpt : Vector Nat 4
  wakeVlost : Nat
  wakeTret : Nat
  srcRise : Bool
  wakePend : Option Nat
  closed : Option (Fin 4)
  freeDraws : Nat
deriving DecidableEq, Repr

/-- The state of the block: the islands, the memories, and the commands that wait, first in, first out. -/
structure State where
  sys : Sys
  ch : Vector Chan 16
  leg : Vector Leg 32
  grp : Vector Group 4
  ce : Vector Ce 5
  staged : List Staged
  recs : List RecDraft
  evq : EvQ
  port : HostPort
  sticky : Sticky
  nvm : Nvm
  safe : Safety
  therm : Thermal
  link : Link
  meas : Meas
  can : Can
  dma : Vector Dma 8
  dmaLast : Fin 8
  isl : MemIsl
  aux : Aux
  tap : Tap
  mem : List Host.Cell
  pending : List Instr
deriving DecidableEq, Repr

/-! ### Reset -/

/-- A section with empty state (R103). -/
def SecState.zero : SecState := { s1 := 0, s2 := 0 }

/-- A loop with empty state. -/
def LoopSt.reset : LoopSt := { sec := Vector.replicate 6 SecState.zero, hold := 0, frozen := false }

/-- An empty slot of the book: NSTEP is 0 (R160). -/
def Recipe.empty : Recipe := { header := List.replicate 32 0, steps := [] }

/-- A grade accumulator before a run. -/
def GradeAcc.zero : GradeAcc :=
  { tstart := 0, qin := 0, qout := 0, ein := 0, eout := 0, qpre := 0, rdc10 := none, drift := none,
    icpv := 0, icph := 0, gflags := 0, nhold := 0 }

/-- A histogram with nothing in it (R183). -/
def Hist.zero : Hist :=
  { bins := List.replicate 2048 0, below := 0, above := 0, rem := 0, last := none, peaks := Vector.replicate 4 (0, 0),
    width := 1, top := (0, 0) }

/-- A program that is not bound (R188). -/
def Prog.reset : Prog :=
  { pstate := .unbound, recipe := Recipe.empty, slot := 0, step := 0, lastR := 0, causes := [], tred := false,
    stepNs := 0, charge := 0, energy := 0, derated := 0, samples := 0, pers := Vector.replicate 4 0, loops := [],
    pend := none, suspend := 0, started := false, v1 := [], v1sum := 0, v1n := 0, v1max := none,
    sumV := 0, sumI := 0, sumN := 0, sumT := 0, sumTn := 0, perBad := false, perDer := false, perNs := 0,
    eisIndex := 0, eisNs := 0, perInv := false, perBlend := false, stepBlend := false, ocvSum := 0, ocvN := 0, ocvT := 0,
    ocvMeans := [], live := false, liveStep := 0,
    fresh := false, restart := false, holdCause := 0,
    grade := GradeAcc.zero }

/-- The reset coefficients of a channel, in the order loop, section, b0 b1 b2 a1 a2 (R124). -/
def coefReset : Vector Word 120 :=
  Vector.ofFn fun i =>
    if i.val % 30 = 0 then 0x10000000
    else if i.val % 30 = 3 then 0xC0000000
    else if i.val % 5 = 0 then 0x40000000
    else 0

/-- A channel after power-on reset (R75, R123, R124, R158, R188). -/
def Chan.reset : Chan :=
  { cfg := 0x7, fsw := 0x005000C8, limit := 0x01901F40, chkcfg := 0x05DC1414, burstReg := 0x1F4, stopr := 0x50,
    faultReg := 0, faultNew := 0, fswF := 0x005000C8, limitF := 0x01901F40, stoprF := 0x50,
    st := .off, fcode := 0, dswnc := false, chkResult := 0, rc := 0, dsw := false, gates := false,
    opening := .none, checking := false, dir := false, fold := false, burst := false, imbal := false,
    imbalEpochs := 0, feff := 0, trim := 0, foldN := 0, burstN := 0, burstAbove := 0, floorClamp := false,
    short := none,
    ctl := 0x700, iset := 0, vset := 0, iramp := 0x2710, vramp := 0x3E8, tlim := 0x1194, supcfg := 0x14141432,
    model0 := 0x03E803E8, model1 := 0x0A6403E8, lsel := 0, coef := coefReset,
    lcfg := #v[0x1, 0x801, 0x601, 0x401], clamp := Vector.replicate 4 0x1F400000,
    loops := Vector.replicate 4 LoopSt.reset, neg := false, rI := 0, rV := 0, remI := 0, remV := 0,
    tgtI := 0, tgtV := 0, rateI := 0x2710, rateV := 0x3E8, zeroStart := false, iSel := 0,
    win := 0, ovf := 0, ovfNew := 0, isat := false, satRun := 0, clearRun := 0, src := .auto, share := 0, ipHist := [],
    plimStep := none, vp := 0, v0 := 0, sup := Vector.replicate 4 0, impl := false, implc := 0, sinceZero := 0,
    res := Vector.replicate 4 0, vS := 0, iP := 0, pW := 0, vF := 0, vInv := false, iInv := false, vFl := 0,
    iFl := 0, fFl := 0, dswB := false,
    resid := Vector.replicate 3 0, q := 0, e := 0, qC := 0, eC := 0, aclr := false,
    mcfg := 0x31, mcfgF := 0x31, rsh := 0x05F5E100, tc := 0x9C4, tcF := 0x9C4, esl := 0, userV := 0, userI := 0,
    userSeq := 0, userAt := 0, boxV := 0, boxI := 0, boxN := 0, capI := 0, capSeq := 0, capQ := 0, capE := 0,
    pulseArmed := none, pulseT0 := 0, dds := 0, excAmp := 0, excInc := 0, excMean := 0, excAt := none,
    excClamp := false, hostMeas := .none,
    progReg := 0, prog := Prog.reset, hist := Hist.zero, rseq := 0, logReg := 0, logF := false, logSeq := 0,
    logAck := 0, logBoot := 0, drop := 0, lost := 0, nearFull := false, ring := [], grades := [],
    allow := 0, negB := false, pbarSum := 0, pbarN := 0, plWon := false, plNow := false, entered := false,
    starting := false, counted := false, snap := List.replicate 8 0,
    checkNs := 0, slow := false, faulted := false }

/-- A leg after power-on reset (R95); the group threshold stands in the legs 0, 8, 16 and 24. -/
def Leg.reset (l : Fin 32) : Leg :=
  { drv := 0x3333, drvF := 0x3333, dt := 0x1010, bootReg := 0x14, sc := 0x0A78, soft := 0x11,
    gsc := if l.val % 8 = 0 then 0xC8 else 0, shunt := 0x3E8, tkind := 0, suspect := false, restart := false,
    dlim := false, buv := false, buvRun := 0, stretch := false,
    park := { boot := false, probe := false, conv := false, test := false },
    evt := 0, evtNew := 0, ilk := 0, cmpn := 0, scn := 0, iref := 0, held := 0, offset := 0, lbFail := 0, current := 0,
    lastSuspect := none, last := 0, duty := 0, ovr := false, exc := [] }

/-- A group after power-on reset: CE g owns group g with generation 0 (SYS_OWNER, R19). -/
def Group.reset (g : Fin 4) : Group :=
  { gen := 0, owner := some (g.castLE (by decide)), stale := 0, skips := 0, gang := 0, castle := none, restart := none,
    gateDis := false, gdisFault := false, shunt := 0x9C4, current := 0, ovr := false }

/-- An engine after power-on reset: CE4 is the spare (CEk_ROLE). -/
def Ce.reset (k : Fin 5) : Ce :=
  { role := if k.val = 4 then .spare else .owner, group := if h : k.val < 4 then ⟨k.val, h⟩ else 0,
    qualified := decide (k.val = 4), relmax := [], bist := 0, mism := 0, ckpt := 0,
    slots := Vector.replicate 2 { epoch := 0, verified := false, chans := [] }, diverged := false, cin := 0, cout := 0,
    btimeNs := 0, bistAt := 0 }

/-- The reset values of the safety configuration (R263). -/
def SafeCfg.reset : SafeCfg :=
  { incfg := Vector.replicate 4 0x00322861, socfg := 0x00284803, gcfg := 0x0A01,
    cpv := Vector.replicate 16 0x11940000, cpi := Vector.replicate 16 0x000F0258, hauth := 0 }

/-- A password slot without a password (R256). -/
def Slot.empty : Slot := { salt := 0, hash := none }

/-- Lifetime counters of a new device (R405). -/
def Life.zero : Life :=
  { hours := 0, refreshes := 0, cycles := Vector.replicate 20 0, periods := Vector.replicate 32 0, eqhMinutes := 0,
    eqhFrac := 0 }

/-- NVM, fuses and retention cells of a device that nothing has been stored in, but for the safety configuration at
its reset values. DESIGN CHOICE, log entry 10. -/
def Nvm.blank : Nvm :=
  { book := Vector.replicate 32 Recipe.empty, version := Vector.replicate 32 0, config := none,
    ceRetired := 0, convRetired := 0, laneRetired := 0, safe := some SafeCfg.reset,
    slots := Vector.replicate 4 Slot.empty, key := none, changeLog := [], logSeq := 0, commits := 0,
    latCopy := false, fuses := [], life := Life.zero, lifeNvm := Life.zero, reloc := 0, stopValid := false, stopKind := 0,
    stopVgd := 0, stopTold := false, thLatched := false, thSensor := 0, thTold := false,
    refTrim := Vector.replicate 2 0, posTrim := [], bookCut := none }

/-- The sticky records after power-on reset (R44, R153, R227, R335). -/
def Sticky.reset : Sticky :=
  { safeLatch := false, pinn := 0, softn := 0, stuck := false, stuckTold := false, wsrc := 0, xbarFail := 0, xbarRetry := 0, seqr := 0,
    ckfb := 0, islr := 0, castu := 0, evSeq := 0, cplat := Vector.replicate 16 0, cpdiag := 0, haltKept := 0,
    bistRows := [], bistResult := none, phaseOff := 0, vgdLatch := false, routes := [] }

/-- The host port before step 9 of BOOT. -/
def HostPort.reset : HostPort :=
  { hcfg := 0x2, lanesQuad := false, ltag := 0, accepted := 0, waiting := [], outstanding := [], replies := [], lastRead := [],
    driven := [], wire := [], replay := [], authf := 0, crce := 0, badfr := 0, drop := 0, replayN := 0, nonce := 0,
    capNonceHi := 0, hcnt := 0, vio := true, blinks := 0, blinkDue := false }

/-- The event queue, empty (R335). -/
def EvQ.reset : EvQ :=
  { queue := [], pend := [], bootPend := [], lostTotal := 0, lostSince := 0, returned := none, once := [],
    rate := [] }

/-- The safety island after power-on reset (R263). -/
def Safety.reset : Safety :=
  { act := SafeCfg.reset, sess := SafeCfg.reset, sessOpen := false, slot := 0, defaultSess := false, nonce := none,
    nonceAt := 0, login := 0, lastCmd := 0, fails := Vector.replicate 4 0, locked := 0, lockAt := Vector.replicate 4 0,
    raw := 0,
    filt := 0, disc := 0, bothLow := 0, cause := 0, cat := 3, timer := false, standstill := false,
    restarting := false, cfgBad := false, rcf := false, refl := false, gdis := false, soOn := 0, sofb := 0,
    soTest := 0, soOvl := 0, sofbF := 0, soSwitch := 0,
    diagRun := 0, commitTag := none, applyAt := false,
    draws := 0 }

/-- A die sensor before its first evaluation. -/
def Die.reset : Die :=
  { reading := 0, fast := false, warn := false, level := 0, hot := 0, stop := false, broken := false, cause := 0,
    differ := 0, diffs := [], nearAt := none, stopDue := false, coolAt := none, out := false, cycLow := 0, cycHigh := 0,
    word := 0, stamp := 0 }

/-- A thermistor input before its first refresh. -/
def Therm.reset : Therm :=
  { temp := 0, uv := 0, volt := false, ovr := false, broken := false, kind := 0, outRun := 0, otRun := 0, goodNs := 0,
    lastNs := 0, filt := 0, stamp := 0 }

/-- Thermal supervision after power-on reset (R288). -/
def Thermal.reset : Thermal :=
  { cfg := 0x7D73, cfgF := 0x7D73, thcfg := 0x0D6B03E8, thcfgF := 0x0D6B03E8,
    auxcfg := Vector.replicate 8 0x0D6B03E8, auxcfgF := Vector.replicate 8 0x0D6B03E8,
    boot := Vector.replicate 20 none, checked := false, die := Vector.replicate 20 Die.reset,
    inp := Vector.replicate 24 Therm.reset, stopn := 0, thrn := 0, warnn := 0 }

/-- The link registers after power-on reset (R205). -/
def LinkRegs.reset : LinkRegs :=
  { cfg := 0x145F0500, srclim := 0x32, bk := 0x64320000, tret := 0x000A00C8, vform := 0x0A00BB80,
    vgrd := 0x26C1905F, node := 0, prio := 0x55555555 }

/-- A peer that is absent (R198). -/
def Peer.absent : Peer := { present := false, code := 0, d := 0, gc := 0, gm := 0, told := false }

/-- The link manager after power-on reset; BKEN is low, as DESIGN CHOICE of log entry 11. -/
def Link.reset : Link :=
  { reg := LinkRegs.reset, act := LinkRegs.reset, code := 0, ohm := 0, st := .source, bkf := false, bkclr := false,
    stale := false, staleN := 0, qual := false, qualAt := 0, bkok := false, bken := false, srcok := false,
    lost := false, inSource := false,
    pend := none, peers := Vector.replicate 16 Peer.absent, d := 0, gc := 0, gm := 0, di := 0, gmi := 0,
    kc := (0, 1), kd := (0, 1), gC := 65536, gD := 65536, gCF := 65536, gDF := 65536,
    claims := Vector.replicate 16 0, alPend := none, vTick := 0, lim := (0, 0), pause := [], zeroTicks := 0, tick := 0, tickAt := 0,
    vlink := 0, ovr := false, grd := 0, stal := 0, retN := 0, ho := 0, bkFaultTold := false }

/-- Coefficients that no calibration has given yet. -/
def Coef.none : Coef := { o := 0, g := 0, k := 0, oSet := false, gSet := false }

/-- The measurement island after power-on reset (R158). -/
def Meas.reset : Meas :=
  { refcfg := 0, xcfg := 0x8, ab := 0, xd := 0, excluded := 0, votes := [], agree := 0, hold := 0, holdx := false,
    holdAt := 0, holdTemp := 0, holdxEnds := 0, slot := 0, nextPos := 0, rotAt := 0,
    lanes := Vector.replicate 4 { st := 0, pos := 0 }, work := Vector.replicate 4 none,
    suspect := Vector.replicate 32 0, doomed := 0, deferred := [], refInit := false, legIdx := 0, legDone := 0, legBad := 0,
    legSlotAt := 0, refWord := Vector.replicate 3 0, refStamp := 0,
    coef := Vector.replicate 36 (Vector.replicate 4 Coef.none), blends := Vector.replicate 32 [] }

/-- A transmit buffer with nothing in it. -/
def TxBuf.empty : TxBuf := { pend := false, cancel := false, elem := [], next := [] }

/-- A receive FIFO with nothing in it. -/
def RxFifo.empty : RxFifo := { get := 0, fill := 0, ovr := false, ovrNew := false, lost := 0, dmaRel := 0, late := 0 }

/-- The rack-bus controller after power-on reset (R359). -/
def Can.reset : Can :=
  { ctl := 0, nbt := 0x3E007E1F, dbt := 0x07001E07, tdc := 0x00012000, tcfg := 0x000A0000, msgcfg := 0x60000000,
    joined := false, tdcv := 0, est := 0, tecN := 0, recN := 0, recov := false, tx := Vector.replicate 16 TxBuf.empty,
    done := 0, failed := 0, doneNew := 0, failedNew := 0, rxf := Vector.replicate 2 RxFifo.empty, fltid := Vector.replicate 64 0,
    fltmsk := Vector.replicate 64 0, role := false, demoted := false, master := none, mnode := 0, lock := false,
    lockRun := 0, rc := 0, ofs := 0, oLast := 0, latchL := none, prevM := none, newMaster := true, seqOut := 0,
    boffn := 0, passn := 0, brepl := 0, rtrn := 0, rxNew := Vector.replicate 2 0, sentNew := [], sentFrame := none,
    refAt := 0, sendAt := 0, statusSent := [], statusAt := 0, inTx := none, lostTold := false,
    msgCk := none }

/-- A DMA channel after power-on reset (R385). -/
def Dma.reset : Dma :=
  { ctl := 0, adesc := 0, areq := 0, arseq := 0, sdesc := 0, sreq := 0x2000, srseq := 0xFFFFFFFF, shv := false, evt := 0, evtNew := 0,
    lbad := 0, skip := 0, donen := 0, badn := 0, active := false, ran := 0,
    ck := { adesc := 0, areq := 0, arseq := 0, active := false, took := false }, desc := none, moved := 0,
    result := 0 }

/-- A test that has not run (R388). -/
def TestRec.none : TestRec := { runs := 0, arg := 0, result := 0, applied := 0, expected := 0, tbase := 0 }

/-- Memory and self-test after power-on reset (R386, R408). -/
def MemIsl.reset : MemIsl :=
  { corr := 0, uncorr := 0, eccaddr := 0, scrub := 0x3C, passn := 0, scrubWord := 0, scrubLeft := 0, page := 0, nvmOp := .none,
    opTag := none, refreshing := false, pageOp := false, pageAt := 0, pagen := 0, pageBad := 0, rowCorr := [], rows := [], copying := [],
    badSp := [], stageHdr := List.replicate 32 0,
    stageSteps := Vector.replicate 128 (List.replicate 64 0), tests := Vector.replicate 6 TestRec.none, running := 0,
    dacf := false, legLb := 0, legF := 0, testTag := none, testArg := 0, serviceTest := none, spareTag := none, spareEnds := 0 }

/-- The aux converter after power-on reset (R430). -/
def Aux.reset : Aux :=
  { cfg := 0x1, state := 0, mode := 0, brake := false, imb := false, vsouv := false, trim := 0, vgdMax := 0, vgdAvg := 0,
    vgdMin := 0xFFFF, iph := Vector.replicate 2 (0, 0), iout := (0, 0), pwr := (0, 0), temp := (0, 0), braken := 0,
    limn := 0, imbn := 0 }

/-- The TAP after power-on reset: held in its reset state, in which IDCODE is selected (R403, R404). -/
def Tap.reset : Tap := { held := true, ir := 0x02 }

/-- The device-wide registers after power-on reset: BOOT at step 2 (R214) with cause power-on. -/
def Sys.reset : Sys :=
  { fout := 2, foutF := 2, epoch := 0, running := false, tbase := 0, tbaseFrac := 0, capEpochHi := 0, capTbaseHi := 0,
    refusers := 0, islDown := 0, recovering := false, castlePen := true, castlePeriod := 0x258, castleNs := 0, castleStop := false,
    bootcfg := 0x3, mode := .boot, phase := .booting, prev := .boot, safeFrom := .boot, setl := 0,
    cause := .powerOn, hcode := 0, cfgdef := false, cefail := false, tboot := 0, bootStep := 2, due := .none, dueNs := 0, dueLeft := 0,
    rstLow := false, wakeHigh := false, lwake := false, inlog := [], islCkpt := Vector.replicate 4 0,
    wakeVlost := 0, wakeTret := 0, srcRise := false, wakePend := none, closed := none, freeDraws := 0 }

/-- The machine right after power-on reset (R207 row 1, R214): BOOT at step 2, every register at its reset value, memory
with nothing listed, no command waiting. -/
def State.reset : State :=
  { sys := Sys.reset, ch := Vector.replicate 16 Chan.reset, leg := Vector.ofFn Leg.reset, grp := Vector.ofFn Group.reset,
    ce := Vector.ofFn Ce.reset, staged := [], recs := [], evq := EvQ.reset, port := HostPort.reset,
    sticky := Sticky.reset, nvm := Nvm.blank, safe := Safety.reset, therm := Thermal.reset, link := Link.reset,
    meas := Meas.reset, can := Can.reset, dma := Vector.replicate 8 Dma.reset, dmaLast := 7, isl := MemIsl.reset,
    aux := Aux.reset, tap := Tap.reset, mem := [], pending := [] }

end Sys2Proof.Machine
end

