-- ==== Sys2Proof/Machine/Ops.lean ====
section
/-! DEFINITION. The operations that the meanings share: codes, updates of one part of the state, events, replies, host
requests and staged changes. -/
namespace Sys2Proof.Machine

/-! ### Codes of the enumerated fields -/

/-- SYS_MODE.MODE (R206). -/
def Mode.code : Mode → Nat
  | .boot => 0 | .configure => 1 | .idle => 2 | .form => 3 | .direct => 4 | .service => 5 | .dormant => 6 | .safe => 7

/-- The mode of a mode code (R206). -/
def Mode.ofCode? : Nat → Option Mode
  | 0 => some .boot | 1 => some .configure | 2 => some .idle | 3 => some .form | 4 => some .direct
  | 5 => some .service | 6 => some .dormant | 7 => some .safe | _ => none

/-- SYS_RSTC.CAUSE (R227). -/
def BootCause.code : BootCause → Nat
  | .none => 0 | .powerOn => 1 | .pin => 2 | .soft => 3 | .wakeDormant => 4 | .wakePark => 5

/-- CHn_STAT.STATE (R72). -/
def ChState.code : ChState → Nat
  | .off => 0 | .check => 1 | .armed => 2 | .run => 3 | .hold => 4 | .fault => 5

/-- CHn_LSTAT.SRC. -/
def Src.code : Src → Nat
  | .auto => 0 | .hand => 1 | .direct => 2

/-- CHn_PSTAT.PSTATE. -/
def PState.code : PState → Nat
  | .unbound => 0 | .ready => 1 | .run => 2 | .pause => 3 | .hold => 4 | .hand => 5 | .ended => 6

/-- CEk_ROLE.ROLE. -/
def CeRole.code : CeRole → Nat
  | .owner => 0 | .spare => 1 | .bist => 2 | .loading => 3 | .retired => 4

/-- LINK_STATE.STATE (R199). -/
def LinkSt.code : LinkSt → Nat
  | .source => 0 | .handover => 1 | .backup => 2 | .ret => 3 | .forming => 4 | .lost => 5

/-! ### Updates of one part of the state -/

/-- Update channel c. -/
def State.updCh (s : State) (c : Fin 16) (f : Chan → Chan) : State := { s with ch := vmod s.ch c f }

/-- Update leg l. -/
def State.updLeg (s : State) (l : Fin 32) (f : Leg → Leg) : State := { s with leg := vmod s.leg l f }

/-- Update group g. -/
def State.updGrp (s : State) (g : Fin 4) (f : Group → Group) : State := { s with grp := vmod s.grp g f }

/-- Update engine k. -/
def State.updCe (s : State) (k : Fin 5) (f : Ce → Ce) : State := { s with ce := vmod s.ce k f }

/-- Update the program of channel c. -/
def State.updProg (s : State) (c : Fin 16) (f : Prog → Prog) : State :=
  s.updCh c fun ch => { ch with prog := f ch.prog }

/-- Set a bit of CHn_FAULT (R8). -/
def Chan.flagFault (ch : Chan) (i : Nat) : Chan :=
  { ch with faultReg := putBit ch.faultReg i true, faultNew := putBit ch.faultNew i true }

/-- Set a bit of LEGL_EVT (R8). -/
def Leg.flagEvt (l : Leg) (i : Nat) : Leg := { l with evt := putBit l.evt i true, evtNew := putBit l.evtNew i true }

/-- Set a bit of DMAn_EVT (R8). -/
def Dma.flagEvt (d : Dma) (i : Nat) : Dma := { d with evt := putBit d.evt i true, evtNew := putBit d.evtNew i true }

/-- Update DMA channel n. -/
def State.updDma (s : State) (n : Fin 8) (f : Dma → Dma) : State := { s with dma := vmod s.dma n f }

/-- The shadow set is taken when it is valid and the channel enabled and idle (R380). -/
def takeShadow (s : State) (n : Fin 8) : State :=
  let d := s.dma[n]
  if d.shv && d.ctl.getLsbD 0 && !d.active then
    s.updDma n fun d =>
      { d.flagEvt 2 with
        adesc := d.sdesc, areq := d.sreq, arseq := if d.srseq = 0xFFFFFFFF then d.arseq else d.srseq, shv := false,
        active := true, desc := none, moved := 0, result := 0, ck := { d.ck with took := true } }
  else s

/-- The channels 0 to 15. -/
def channels : List (Fin 16) := List.finRange 16

/-- The group of a channel. -/
def groupOf (c : Fin 16) : Fin 4 := ⟨c.val / 4, by omega⟩

/-- The channel of a leg (leg L = 2n + b). -/
def chanOfLeg (l : Fin 32) : Fin 16 := ⟨l.val / 2, by omega⟩

/-- The group of a leg. -/
def groupOfLeg (l : Fin 32) : Fin 4 := ⟨l.val / 8, by omega⟩

/-- Leg A of a channel. -/
def legA (c : Fin 16) : Fin 32 := ⟨2 * c.val, by omega⟩

/-- Leg B of a channel. -/
def legB (c : Fin 16) : Fin 32 := ⟨2 * c.val + 1, by omega⟩

/-- The channels of a group. -/
def chansOf (g : Fin 4) : List (Fin 16) := channels.filter fun c => groupOf c == g

/-- The legs of a group. -/
def legsOf (g : Fin 4) : List (Fin 32) := (List.finRange 32).filter fun l => groupOfLeg l == g

/-! ### Events (R333 to R338) -/

/-- A field of one byte (R334). -/
def p1 (n : Nat) : List Byte := toLE 1 n

/-- A mask of up to 16 bits (R334). -/
def p2 (n : Nat) : List Byte := toLE 2 n

/-- A field of four bytes in two's complement, saturating (R334). -/
def p4 (v : Int) : List Byte := toLEInt 4 (sat32 v)

/-- A mask of 17 to 32 bits or an address (R334). -/
def p4u (n : Nat) : List Byte := toLE 4 n

/-- A field of six bytes in two's complement, saturating (R334). -/
def p6 (v : Int) : List Byte := toLEInt 6 (satInt 48 v)

/-- The entries that the event queue takes; the last of its 1024 places is reserved (R336). -/
def evqRoom : Nat := 1023

/-- Put an event into the queue with the next sequence number, or count it as lost (R335, R336). -/
def commitEvent (s : State) (d : EvDraft) : State :=
  if s.evq.queue.length < evqRoom then
    { s with
      evq := { s.evq with queue := s.evq.queue ++
        [{ seq := s.sticky.evSeq, code := d.code, len := d.payload.length, payload := d.payload
           tbase := s.sys.tbase, read := false }] }
      sticky := { s.sticky with evSeq := (s.sticky.evSeq + 1) % 2 ^ 32 } }
  else
    { s with evq := { s.evq with lostTotal := satInc 16 s.evq.lostTotal, lostSince := s.evq.lostSince + 1 } }

/-- Queue an event: it becomes visible at the next boundary (R37, R335); in BOOT it waits for the first boundary after
BOOT, and in halted BOOT, which has no boundaries, it is visible at once. -/
def queueEvent (s : State) (code : Nat) (payload : List Byte) : State :=
  let d : EvDraft := { code := code, payload := payload }
  if s.sys.running then { s with evq := { s.evq with pend := s.evq.pend ++ [d] } }
  else if s.sys.phase = .halted then commitEvent s d
  else { s with evq := { s.evq with bootPend := s.evq.bootPend ++ [d] } }

/-- Queue an event at most once in the present epoch for an object. -/
def queueOnce (s : State) (code idx : Nat) (payload : List Byte) : State :=
  if s.evq.once.contains (code, idx) then s
  else
    let s := queueEvent s code payload
    { s with evq := { s.evq with once := (code, idx) :: s.evq.once } }

/-- Queue an event at most once in an interval of TBASE for an object. -/
def queueRated (s : State) (code idx interval : Nat) (payload : List Byte) : State :=
  match s.evq.rate.find? fun r => r.1 == code && r.2.1 == idx with
  | some r =>
    if s.sys.tbase < r.2.2 + interval then s
    else
      let s := queueEvent s code payload
      let others := s.evq.rate.filter fun r => !(r.1 == code && r.2.1 == idx)
      { s with evq := { s.evq with rate := (code, idx, s.sys.tbase) :: others } }
  | none =>
    let s := queueEvent s code payload
    { s with evq := { s.evq with rate := (code, idx, s.sys.tbase) :: s.evq.rate } }

/-- The unread events (R336). -/
def unreadCount (s : State) : Nat := (s.evq.queue.filter fun e => !e.read).length

/-! ### Status codes (R314) -/

def stOk : Byte := 0x00
def stDeferred : Byte := 0x01
def stBadCrc : Byte := 0x10
def stBadLen : Byte := 0x11
def stBadOpcode : Byte := 0x12
def stBadParam : Byte := 0x13
def stBadAddr : Byte := 0x14
def stWrongMode : Byte := 0x20
def stBusyRetry : Byte := 0x21
def stLocked : Byte := 0x22
def stModeRefused : Byte := 0x23
def stAborted : Byte := 0x24
def stSafetyDenied : Byte := 0x30
def stAuthFail : Byte := 0x31
def stFaultActive : Byte := 0x40
def stNvmError : Byte := 0x41

/-! ### Replies and requests (R293 to R301, R311, R312) -/

/-- Drop the first element that satisfies a condition. -/
def eraseFirst {α : Type} (p : α → Bool) : List α → List α
  | [] => []
  | a :: r => if p a then r else a :: eraseFirst p r

/-- Drop the first occurrence of a TAG. -/
def dropTag (t : Byte) (l : List Byte) : List Byte := eraseFirst (· == t) l

/-- The places of the reply queue (R296). -/
def replyPlaces : Nat := 12

/-- The outstanding requests whose reply has not been formed: each has its place in the reply queue (R296). -/
def unanswered (s : State) : List Byte :=
  s.port.replies.foldl (fun l r => if r.own then dropTag r.tag l else l) s.port.outstanding

/-- The places of the reply queue that are taken. DESIGN CHOICE, log entry 195. -/
def placesTaken (s : State) : Nat := s.port.replies.length + (unanswered s).length

/-- The port has no reply for a request: it is counted (R296). -/
def dropReply (s : State) : State := { s with port := { s.port with drop := satInc 8 s.port.drop } }

/-- Put a reply into the reply queue, or count it as dropped: the reply of an outstanding request takes the place that
it has, any other a place that is not taken (R296). -/
def enqueueReply (s : State) (r : Reply) : State :=
  if (if r.own then s.port.replies.length else placesTaken s) < replyPlaces then
    { s with port := { s.port with replies := s.port.replies ++ [r] } }
  else dropReply s

/-- Form the reply of an executed request (R293), keep it for replay (R300) and queue it. -/
def reply (s : State) (tag : ReqId) (opc status : Byte) (payload : List Byte) : State :=
  let r : Reply := { own := true, tag := tag.tag, status := status, evt := BitVec.ofNat 8 (satNat 8 (unreadCount s)),
                     opc := opc, payload := payload }
  let store := s.port.replay.map fun x => if x.id = tag ∧ x.reply = none then { x with reply := some r } else x
  enqueueReply { s with port := { s.port with replay := store } } r

/-- A refusal before acceptance (R299): not stored for replay. -/
def refuseFrame (s : State) (tag opc status : Byte) : State :=
  enqueueReply s { own := false, tag := tag, status := status, evt := BitVec.ofNat 8 (satNat 8 (unreadCount s)),
                   opc := opc, payload := [] }

/-- The letters of the column Modes of Command set. -/
inductive Letter
  | b | h | c | i | f | d | s | z | m
deriving DecidableEq, Repr

/-- The letter of the mode in force, if the host port serves commands (R218, R220, R224, R306, R401). -/
def modeLetter (s : State) : Option Letter :=
  if s.sys.due ≠ .none ∨ s.isl.serviceTest ≠ none then none
  else
  match s.sys.phase with
  | .booting => if s.sys.bootStep ≥ 9 then some .b else none
  | .halted => if s.sys.hcode = 4 then none else some .h
  | .dormant => some .m
  | .running =>
    match s.sys.mode with
    | .configure => some .c
    | .idle => some .i
    | .form => some .f
    | .direct => some .d
    | .service => some .s
    | .safe => some .z
    | .dormant => some .m
    | .boot => none
  | _ => none

/-- The modes in which an opcode is served (the tables of Command set). -/
def servedModes (opc : Byte) : List Letter :=
  match opc.toNat with
  | 0x00 | 0x01 => [.b, .h, .c, .i, .f, .d, .s, .z, .m]
  | 0x02 => [.h, .c, .i, .f, .d, .m]
  | 0x03 => [.h, .c, .i, .s, .z]
  | 0x04 => [.m]
  | 0x05 => [.c, .i]
  | 0x06 | 0x07 => [.c, .i, .f, .d, .s, .z]
  | 0x10 => [.b, .h, .c, .i, .f, .d, .s, .z, .m]
  | 0x11 | 0x13 => [.c, .i, .f, .d, .s, .z]
  | 0x12 => [.b, .h, .c, .i, .f, .d, .s, .z]
  | 0x20 => [.i, .f, .d]
  | 0x21 | 0x28 => [.i, .f, .d, .z]
  | 0x22 | 0x23 => [.f, .d]
  | 0x24 | 0x29 => [.c, .i, .f, .d, .s, .z]
  | 0x25 | 0x27 => [.f]
  | 0x26 => [.c, .i, .f, .d, .z]
  | 0x40 | 0x44 => [.c, .i, .f, .d, .s, .z]
  | 0x41 | 0x42 | 0x43 => [.c]
  | 0x50 | 0x53 => [.c, .i, .f, .d, .s, .z]
  | 0x51 | 0x52 => [.f, .d]
  | 0x60 | 0x61 | 0x62 | 0x63 | 0x70 => [.c, .i, .f, .d, .s, .z]
  | 0x80 | 0x81 | 0x82 | 0x83 | 0x84 | 0x87 => [.h, .c, .s, .z]
  | 0x85 => [.h, .c, .i, .f, .d, .s, .z]
  | 0x86 => [.c, .i, .f, .d, .z]
  | 0x90 | 0x91 | 0x94 => [.c, .i, .f, .d, .s, .z]
  | 0x92 | 0x93 => [.s]
  | 0xA0 | 0xA1 | 0xA2 => [.b, .h, .c, .i, .f, .d, .s, .z]
  | _ => []

/-! ### Acceptance and execution of requests (R296 to R301, R306) -/

/-- The low-rate port of DORMANT serves. -/
def lowRate (s : State) : Bool := s.sys.phase == .dormant

/-- A packet: header and payload with their CRC-32C, low byte first (R294). -/
def sealPacket (l : List Byte) : List Byte := l ++ wordBytes (crc32c l)

/-- The entries that remain in the replay store when TAG t is accepted (R300, R306). -/
def replayKeep (s : State) (t : Byte) : List Replay :=
  s.port.replay.filter fun x =>
    x.tag != t && x.tag != t + 128 && (!lowRate s || decide ((t - x.tag).toNat < 16))

/-- The identity of the request that is accepted next under a TAG. -/
def nextId (s : State) (t : Byte) : ReqId := 256 * (s.port.accepted + 1) + t.toNat

/-- The port accepts a request under a TAG: it is outstanding, and the replay store has an entry for its packet, where
the packet is known (R296, R300). -/
def acceptUnder (s : State) (t : Byte) (crc : Option Word) : State :=
  let entry : List Replay := match crc with
    | some x => [{ tag := t, id := nextId s t, crc := x, reply := none }]
    | none => []
  { s with port := { s.port with ltag := t, accepted := s.port.accepted + 1, replay := replayKeep s t ++ entry,
                                 outstanding := s.port.outstanding ++ [t] } }

/-- The CRC-32C of the request packet that a host row is, without a trailer; none for a row that names one field of a
register write (R292). -/
def rowCrc (i : Instr) (t : Byte) : Option Word :=
  (encodeRequest i).map fun e => crc32c ([0xB7] ++ toLE 2 e.2.length ++ [t, e.1, 0, 0, 0] ++ e.2)

/-- The request of a host row that comes to the port itself: it follows the last one accepted under the next TAG (R301).
DESIGN CHOICE, log entry 12. -/
def rowRequest (i : Instr) (s : State) : Request :=
  let e := (encodeRequest i).getD (0x11, [])
  { tag := nextId s (s.port.ltag + 1), opc := e.1, payload := e.2, row := some i }

/-- The port accepts the request of a host row. -/
def admitRow (i : Instr) (s : State) : State := acceptUnder s (s.port.ltag + 1) (rowCrc i (s.port.ltag + 1))

/-- The oldest request leaves the queue of accepted ones; where no other waits, the busy period ends, and with it a
blink that fell due in it is sent (R298). -/
def takeOldest (s : State) : State :=
  let rest := s.port.waiting.drop 1
  let sent := rest.isEmpty && s.port.blinkDue
  { s with port := { s.port with waiting := rest, blinks := s.port.blinks + b2n sent, blinkDue := s.port.blinkDue && !sent } }

/-- The request that a host row executes: the oldest accepted request, or its own where none waits. -/
def takeRequest (i : Instr) (s : State) : Request × State :=
  match s.port.waiting with
  | r :: _ => (r, takeOldest s)
  | [] => (rowRequest i s, admitRow i s)

/-- The port can accept one more request (R296, R299). -/
def canAdmit (s : State) : Bool := decide (s.port.outstanding.length < 8) && decide (placesTaken s < replyPlaces)

/-- The turn of a host row: the oldest accepted request is an instance of it, or none waits and its own request can be
accepted (R296). -/
def itsTurn (i : Instr) (s : State) : Bool :=
  match s.port.waiting with
  | r :: _ => r.row == some i || requestIs i r.opc r.payload
  | [] => canAdmit s

/-- A host row whose turn it is not comes to the port as a request: it waits behind those accepted before it, is refused
with 8 outstanding, or finds every place for a reply taken (R296, R299). -/
def queueRow (i : Instr) (s : State) : State :=
  let r := rowRequest i s
  if 8 ≤ s.port.outstanding.length then refuseFrame s r.tag.tag r.opc stBusyRetry
  else if replyPlaces ≤ placesTaken s then dropReply s
  else
    let s := admitRow i s
    { s with port := { s.port with waiting := s.port.waiting ++ [r] } }

/-- How a command completes: with a status and payload now, or with a reply that comes later (R312). -/
inductive Completion
  | now (status : Byte) (payload : List Byte)
  | later
deriving DecidableEq, Repr

/-- A completion with no payload. -/
def Completion.status (st : Byte) : Completion := .now st []

/-- Execute a host command in its turn (R296, R311): length, mode, then its own checks. -/
def hostCommand (i : Instr) (lenOk : Bool) (s : State) (body : Request → State → State × Completion) : State :=
  match modeLetter s with
  | none => s
  | some l =>
    let q := takeRequest i s
    let r := q.1
    if itsTurn i s = false then queueRow i s
    else if lenOk = false then reply q.2 r.tag r.opc stBadLen []
    else if (servedModes r.opc).contains l = false then reply q.2 r.tag r.opc stWrongMode []
    else
      let b := body r q.2
      match b.2 with
      | .now st p => reply b.1 r.tag r.opc st p
      | .later => b.1

/-- The reply of a longer operation, if a command waits for it. -/
def replyOp (s : State) (opc st : Byte) (p : List Byte) : State :=
  match s.isl.opTag with
  | some t => reply { s with isl := { s.isl with opTag := none } } t opc st p
  | none => s

/-- Something follows the reply that the present command is about to get. -/
def makeDue (s : State) (d : Due) : State :=
  { s with sys := { s.sys with due := d, dueNs := 0, dueLeft := s.port.replies.length + 1 } }

/-! ### Staged changes (R24 to R31) -/

/-- The bit of an island. -/
def islandBit (i : Nat) : BitVec 14 := bitOf 14 i

/-- The islands that have not been retired: a retired CE takes no part in staging (R40). -/
def allIslands (s : State) : BitVec 14 :=
  maskOf 14 fun i => if h : i.val < 5 then decide (s.ce[i.val].role ≠ .retired) else true

/-- The islands that a change of some channels concerns: the owners of their groups, the leg island and the sequencer.
DESIGN CHOICE, log entry 13. -/
def channelIslands (s : State) (cs : List (Fin 16)) : BitVec 14 :=
  cs.foldl (fun m c => match (s.grp[groupOf c]).owner with | some k => m ||| islandBit k.val | none => m)
    (islandBit 6 ||| islandBit 7)

/-- Stage a change for a request (R24). -/
def stage (s : State) (change : Change) (opc : Byte) (tag : Option ReqId) (islands : BitVec 14) : State :=
  { s with staged := s.staged ++
      [{ change := change, opc := opc, tag := tag, islands := islands, waiting := islands, refused := 0, failed := [] }] }

/-- The change is a mode change. -/
def Change.isMode : Change → Bool
  | .mode .. => true
  | _ => false

/-- A mode change is staged, or committed but not yet applied (SYS_STAGE.PEND). -/
def modePending (s : State) : Bool := s.staged.any fun x => x.change.isMode

/-- Draw a free value (Config.freeInt). -/
def drawFree (s : State) : Int × State :=
  (Config.freeInt s.sys.freeDraws, { s with sys := { s.sys with freeDraws := s.sys.freeDraws + 1 } })

/-- The aux converter is stopped, with what shows only while it runs. -/
def Aux.stop (a : Aux) : Aux := { a with state := 0, mode := 0, brake := false, imb := false, trim := 0 }

/-- A leg has had some more periods with a high-side pulse: its lifetime counter (R405). -/
def addPeriods (n : Nat) (l : Fin 32) (s : State) : State :=
  { s with nvm := { s.nvm with life := { s.nvm.life with
      periods := vmod s.nvm.life.periods l fun x => min (2 ^ 64 - 1) (x + n) } } }

/-- The test pulses of one leg's check: how many periods they make is a free value (R398, R405). -/
def testPulses (s : State) (l : Fin 32) : State :=
  let d := drawFree s
  addPeriods d.1.toNat l d.2

/-! ### TBASE (R32, R33) -/

/-- TBASE advances over ns nanoseconds: its rate is corrected by rc in 10^-15, and it counts in steps of 10 ns (R32,
R33). -/
def advanceTime (ns : Nat) (s : State) : State :=
  let t := s.sys.tbaseFrac + (ns : Int) * (1000000000000000 + s.can.rc)
  { s with sys := { s.sys with tbase := (s.sys.tbase + 10 * (t / 10000000000000000).toNat) % 2 ^ 64,
                               tbaseFrac := t % 10000000000000000 } }

/-- TBASE goes on outside the epochs, in BOOT, DORMANT and PARK, for a time that no command tells: a free value (R32,
R224). -/
def lapse (s : State) : State :=
  let d := drawFree s
  advanceTime d.1.toNat d.2

/-- TBASE as a command finds it: as of the last boundary while the epochs run, later than last known where they do
not. -/
def timePasses (s : State) : State := if s.sys.running then s else lapse s

end Sys2Proof.Machine
end

