-- ==== Sys2Proof/Machine/Loops.lean ====
section
/-! DEFINITION. The outer loops of one channel: sections, clamps and selection, ramps, zero start, supervision and the
distribution to the legs (R96 to R117). -/
namespace Sys2Proof.Machine

/-! ### Gangs, limits and temperatures -/

/-- The leader of a position in its group under a gang arrangement (R62). -/
def gangLeader (gang : BitVec 3) (pos : Nat) : Nat :=
  if gang = 4 then 0
  else if gang.getLsbD 0 ∧ pos < 2 then 0
  else if gang.getLsbD 1 ∧ 2 ≤ pos then 2
  else pos

/-- The leader of a channel: itself where it is not in a gang (R64). -/
def leaderOf (s : State) (c : Fin 16) : Fin 16 :=
  let g := groupOf c
  ⟨(4 * g.val + gangLeader s.grp[g].gang (c.val % 4)) % 16, by omega⟩

/-- The members of the gang of a channel, rising; the channel alone where it is not in a gang. -/
def members (s : State) (c : Fin 16) : List (Fin 16) := channels.filter fun d => leaderOf s d == leaderOf s c

/-- The channel is a follower of a gang (R64). -/
def isFollower (s : State) (c : Fin 16) : Bool := leaderOf s c != c

/-- The channel is a member of a gang. -/
def isGanged (s : State) (c : Fin 16) : Bool := decide (1 < (members s c).length)

/-- The leg is parked for some kind (R460). -/
def Leg.parked (l : Leg) : Bool := l.park.boot || l.park.probe || l.park.conv || l.park.test

/-- Leg A of a channel may switch. -/
def legARuns (s : State) (c : Fin 16) : Bool := (s.ch[c]).cfg.getLsbD 0 && !(s.leg[legA c]).parked

/-- Leg B of a channel may switch. -/
def legBRuns (s : State) (c : Fin 16) : Bool := (s.ch[c]).cfg.getLsbD 1 && !(s.leg[legB c]).parked

/-- The legs of a channel that may switch. -/
def runningLegs (s : State) (c : Fin 16) : List (Fin 32) :=
  (if legARuns s c then [legA c] else []) ++ (if legBRuns s c then [legB c] else [])

/-- The leg that burst trickle and the probes of CHECK use: leg A, or leg B where leg A is disabled (R59, R75) or
parked. DESIGN CHOICE for a parked leg A, log entry 209. -/
def soleLeg (s : State) (c : Fin 16) : Option (Fin 32) := (runningLegs s c).head?

/-- CHECK switches a leg of the channel now: in its step 5, and in the steps 8 to 10 of the member (R70). DEDUCED, log
entry 171. -/
def checkSwitches (s : State) (c : Fin 16) : Bool :=
  let t := (s.ch[c]).checkNs
  let from8 := 24000000 + (members s c).idxOf c * 24000000
  (s.ch[c]).checking && ((decide (3000000 ≤ t) && decide (t < 11000000))
    || (decide (from8 ≤ t) && decide (t < from8 + 12000000)))

/-- The switches of a leg work: its channel runs it, it is the one that burst trickle and CHECK use, and it is in no
restart interval. -/
def legSwitching (s : State) (l : Fin 32) : Bool :=
  let c := chanOfLeg l
  let ch := s.ch[c]
  let sole := soleLeg s c == some l
  (if ch.gates then (runningLegs s c).contains l && (!ch.burst || sole) else checkSwitches s c && sole)
    && !(s.leg[l]).restart

/-- The current limit of one channel in uA: ILIM, or half of it where one leg runs (R55). -/
def memberLimit (s : State) (c : Fin 16) : Int :=
  let full : Int := bits (s.ch[c]).limitF 0 13 * 10000
  if (runningLegs s c).length = 1 then full / 2 else full

/-- I_max in uA (R101): of the channel, or the sum of the members' ILIM values for a gang. -/
def iMax (s : State) (c : Fin 16) : Int :=
  if isGanged s c then (members s c).foldl (fun a d => a + bits (s.ch[d]).limitF 0 13 * 10000) 0
  else memberLimit s c

/-- The power limit of CHn_LIMIT in mW: of the channel, or the sum of the members (R64). -/
def pLimReg (s : State) (c : Fin 16) : Nat :=
  (members s c).foldl (fun a d => a + bits (s.ch[d]).limitF 16 9 * 1000) 0

/-- The sign s of a channel: -1 discharges (R98). -/
def Chan.sgn (ch : Chan) : Int := if ch.neg then -1 else 1

/-- P_lim of R96 in mW: the lowest of CHn_LIMIT.PLIM, the allowance, and the power of a CP step (R167). -/
def pLim (s : State) (c : Fin 16) : Nat :=
  let ch := s.ch[c]
  let p := min (pLimReg s c) (ch.allow * 100)
  match ch.plimStep with
  | some q => min p q
  | none => p

/-- The zone temperature of a channel in 0.01 degrees: the reading of DT(5 + n div 2) (R273). -/
def zoneTemp (s : State) (c : Fin 16) : Int := (s.therm.die[5 + c.val / 2]'(by omega)).reading

/-- The cell temperature used by TLOOP in millidegrees, with T_C in 0.01 degrees: T_C + 10 K where the input is broken
(R278). -/
def cellTemp (s : State) (c : Fin 16) (tc : Int) : Int :=
  let t := s.therm.inp[c.val]'(by omega)
  if t.broken then tc * 10 + 10000 else t.temp

/-- The hottest value over the members. -/
def maxOver (l : List (Fin 16)) (f : Fin 16 → Int) : Int :=
  match l with
  | [] => 0
  | a :: r => r.foldl (fun m d => max m (f d)) (f a)

/-- min(T_C - T_cell, T_Z - T_zone) in millidegrees (R96, R278); without the cell term where TCEN is 0. -/
def tempMargin (s : State) (c : Fin 16) : Int :=
  let ch := s.ch[c]
  let ms := members s c
  let tz : Int := bits s.therm.cfgF 8 8 * 100
  let zone := (tz - maxOver ms (zoneTemp s)) * 10
  if ch.tlim.getLsbD 16 then
    let tc : Int := bits ch.tlim 0 16
    min (tc * 10 - maxOver ms fun d => cellTemp s d tc) zone
  else zone

/-- Twice f_OUT in kHz: 5, 10, 20 or 40 (SYS_EPCFG.FOUT in force). -/
def fOut2 (s : State) : Nat := 5 * 2 ^ s.sys.foutF.toNat

/-- The epoch length in ns (R21). -/
def epochNs (s : State) : Nat := 2000000 / fOut2 s

/-! ### Second-order sections (R99, R100) -/

/-- Coefficient i (b0 b1 b2 a1 a2) of section k of loop j. -/
def coefOf (ch : Chan) (j : Fin 4) (k : Fin 6) (i : Fin 5) : Int :=
  (ch.coef[(j.val * 6 + k.val) * 5 + i.val]'(by omega)).toInt

/-- NSEC of loop j. -/
def nSec (ch : Chan) (j : Fin 4) : Nat := bits ch.lcfg[j] 0 3

/-- GSH of loop j. -/
def gShift (ch : Chan) (j : Fin 4) : Int := sbits ch.lcfg[j] 8 6

/-- sat32(e * 2^GSH), a right shift rounding to nearest. -/
def shiftIn (e g : Int) : Int := sat32 (if 0 ≤ g then e * 2 ^ g.toNat else divRound e (2 ^ (-g).toNat))

/-- The output of a section before saturation: rnd(b0 x + s1). -/
def secOut (b0 x : Int) (z : SecState) : Int := divRound (b0 * x + z.s1 * 2 ^ 14) (2 ^ 30)

/-- s1 and s2 of a section before saturation. -/
def secNext (b1 b2 a1 a2 x yu : Int) (z : SecState) : SecState :=
  { s1 := divRound (b1 * x - a1 * yu + z.s2 * 2 ^ 14) (2 ^ 14), s2 := divRound (b2 * x - a2 * yu) (2 ^ 14) }

/-- The states saturated at 48 bits. -/
def SecState.sat (z : SecState) : SecState := { s1 := satInt 48 z.s1, s2 := satInt 48 z.s2 }

/-- What a pass through the sections of a loop carries: the input of the present section, the states, and whether
anything has saturated. -/
structure Pass where
  x : Int
  sec : Vector SecState 6
  ovf : Bool
deriving DecidableEq, Repr

/-- Update section k with input x and tracking value yu (R99). -/
def updSec (ch : Chan) (j : Fin 4) (k : Fin 6) (x yu : Int) (p : Pass) : Pass :=
  let n := secNext (coefOf ch j k 1) (coefOf ch j k 2) (coefOf ch j k 3) (coefOf ch j k 4) x yu p.sec[k]
  { p with sec := p.sec.set k.val n.sat k.isLt, ovf := p.ovf || decide (n ≠ n.sat) }

/-- Run the sections before the last: each output is the next input, and yu is the output (R99). -/
def runInner (ch : Chan) (j : Fin 4) : List (Fin 6) → Pass → Pass
  | [], p => p
  | k :: r, p =>
    let o := secOut (coefOf ch j k 0) p.x p.sec[k]
    let q := updSec ch j k p.x (sat32 o) p
    runInner ch j r { q with x := sat32 o, ovf := q.ovf || decide (o ≠ sat32 o) }

/-- The last section of a loop. -/
def lastSec (ch : Chan) (j : Fin 4) : Fin 6 := ⟨(nSec ch j - 1) % 6, by omega⟩

/-- The sections before the last one. -/
def innerSecs (ch : Chan) (j : Fin 4) : List (Fin 6) := (List.finRange 6).filter fun k => decide (k.val + 1 < nSec ch j)

/-- What one loop gives in one sample: its output, the input of its last section, and its states before tracking. -/
structure LoopOut where
  u : Int
  pass : Pass
  frozen : Bool
deriving DecidableEq, Repr

/-- Evaluate loop j on error e (R99, R110). -/
def evalLoop (ch : Chan) (j : Fin 4) (e : Int) : LoopOut :=
  let l := ch.loops[j]
  if ch.ctl.getLsbD j.val then { u := l.hold, pass := { x := 0, sec := l.sec, ovf := false }, frozen := true }
  else
    let p := runInner ch j (innerSecs ch j) { x := shiftIn e (gShift ch j), sec := l.sec, ovf := false }
    let k := lastSec ch j
    let b0 := coefOf ch j k 0
    let released : SecState := { s1 := divRound (l.hold * 2 ^ 30 - b0 * p.x) (2 ^ 14), s2 := 0 }
    let q : Pass :=
      if l.frozen then
        { p with sec := p.sec.set k.val released.sat k.isLt, ovf := p.ovf || decide (released ≠ released.sat) }
      else p
    let o := secOut b0 q.x q.sec[k]
    { u := sat32 o, pass := { q with ovf := q.ovf || decide (o ≠ sat32 o) }, frozen := false }

/-- The states of loop j after selection (R103): the last section tracks the selected demand. -/
def trackLoop (ch : Chan) (j : Fin 4) (o : LoopOut) (iSel : Int) : LoopSt × Bool :=
  if o.frozen then ({ sec := o.pass.sec, hold := o.u, frozen := true }, false)
  else
    let p := updSec ch j (lastSec ch j) o.pass.x iSel o.pass
    ({ sec := p.sec, hold := o.u, frozen := false }, p.ovf)

/-! ### Ramps and zero start (R107 to R109) -/

/-- One sample of a ramp: position, remainder in 1/(2 f_OUT) parts of a unit, target, rate per ms in units, 2 f_OUT in
kHz. -/
def rampStep (r rem t : Int) (rate f2 : Nat) : Int × Int :=
  if rate = 0 then (t, 0)
  else
    let n := (rate : Int) * 2 + rem
    let st := n / (f2 : Int)
    let rm := n % (f2 : Int)
    if t - r > st then (r + st, rm) else if r - t > st then (r - st, rm) else (t, rm)

/-- Both ramps of a channel in one sample; |r_I| never exceeds I_max. -/
def runRamps (ch : Chan) (imax : Int) (f2 : Nat) : Chan :=
  let a := rampStep ch.rI ch.remI ch.tgtI (ch.rateI * 1000) f2
  let b := rampStep ch.rV ch.remV ch.tgtV ch.rateV f2
  { ch with rI := clampInt (-imax) imax a.1, remI := a.2, rV := b.1, remV := b.2 }

/-- A loop after the update with x = 0 and yu = 0; the held output of a frozen loop is 0 and the loop stays frozen. -/
def zeroLoop (l : LoopSt) : LoopSt := { sec := Vector.replicate 6 SecState.zero, hold := 0, frozen := l.frozen }

/-- The zero start of R109, with the model and the supervision restarted (R116, R117). -/
def zeroStart (ch : Chan) (vs : Int) : Chan :=
  { ch with rI := 0, remI := 0, rV := ch.tgtV, remV := 0, neg := decide (ch.tgtI < 0), loops := vmap ch.loops zeroLoop,
            iSel := 0, share := 0, vp := 0, v0 := vs * 2 ^ fxBits, sup := Vector.replicate 4 0,
            impl := false, implc := 0, sinceZero := 0, floorClamp := false, zeroStart := false }

/-- The direction after the ramp (R98). -/
def direct (ch : Chan) : Chan :=
  if ch.rI = 0 then ch else { ch with neg := decide (ch.rI < 0) }

/-! ### Selection (R101, R102, R104, R106) -/

/-- The clamped magnitude of a loop. -/
def clampMag (clampReg : Word) (imax m : Int) : Int :=
  let clo : Int := bits clampReg 0 16 * 10000
  let chi : Int := bits clampReg 16 16 * 10000
  let a := if m < clo then clo else m
  let b := if a > chi then chi else a
  if b > imax then imax else b

/-- The winner of four magnitudes: ties go to the first in the order TLOOP, PLOOP, VLOOP, ILOOP. -/
def selectWinner (m : Vector Int 4) : Fin 4 :=
  let w : Fin 4 := if m[2] < m[3] then 2 else 3
  let w : Fin 4 := if m[1] < m[w] then 1 else w
  if m[0] < m[w] then 0 else w

/-- The feedback of one sample: I_P and the mean of the excitation in uA, V_S, the cell-side power in uW, P_lim in mW,
the temperature margin in millidegrees, I_max, and BMAX in uA. -/
structure SampleIn where
  ip : Int
  exc : Int
  vs : Int
  pw : Int
  plim : Nat
  tmargin : Int
  imax : Int
  bmax : Int
deriving DecidableEq, Repr

/-- The error of loop j (R96, R155). The manual gives no rounding of the power from uW to the mW of PLOOP: to the
nearest, halves away from zero. DESIGN CHOICE, log entry 183. -/
def loopError (ch : Chan) (i : SampleIn) (ip : Int) (j : Fin 4) : Int :=
  match j with
  | 0 => ch.rI - (ip - i.exc)
  | 1 => ch.rV - i.vs
  | 2 => ch.sgn * divRound ((i.plim : Int) * 1000 - i.pw.natAbs) 1000
  | 3 => ch.sgn * i.tmargin

/-- The mean of the I_P values of the last 10 epochs, fewer only right after BOOT (R106). -/
def meanHist (l : List Int) (x : Int) : Int := if l.isEmpty then x else divRound (l.foldl (· + ·) 0) l.length

/-- What one sample reports beside the new channel: saturation of each loop, and an entry into the zero clamp of burst
trickle (R60). -/
structure SampleOut where
  ch : Chan
  ovf : BitVec 4
  floorEntry : Bool
deriving DecidableEq, Repr

/-- The start of a sample of a channel in RUN: zero start, ramps and direction (R98, R107, R109). -/
def beginSample (ch : Chan) (vs imax : Int) (f2 : Nat) : Chan :=
  direct (runRamps (if ch.zeroStart then zeroStart ch vs else ch) imax f2)

/-- The loops of one sample of a channel in RUN (R96 to R106). -/
def loopSample (ch : Chan) (i : SampleIn) : SampleOut :=
  let ip := if ch.burst then meanHist ch.ipHist i.ip else i.ip
  let o : Vector LoopOut 4 := Vector.ofFn fun j => evalLoop ch j (loopError ch i ip j)
  let m : Vector Int 4 := Vector.ofFn fun j => clampMag ch.clamp[j] i.imax (ch.sgn * o[j].u)
  let w := selectWinner m
  let sel := ch.sgn * m[w]
  let floor := ch.burst && decide (sel < 0)
  let sel := if ch.burst then clampInt 0 i.bmax sel else sel
  let t : Vector (LoopSt × Bool) 4 := Vector.ofFn fun j => trackLoop ch j o[j] sel
  let ovf := maskOf 4 fun j => t[j].2
  let chi : Int := bits ch.clamp[0] 16 16 * 10000
  let bound := (decide (m[0] = chi) || decide (m[0] = i.imax)) && decide (i.ip.natAbs < ch.rI.natAbs)
  let clear := if bound then 0 else min 10 (ch.clearRun + 1)
  { ch := { ch with loops := Vector.ofFn fun j => t[j].1, iSel := sel, win := w, ovf := ch.ovf ||| ovf, ovfNew := ovf,
                    satRun := if bound then min 10 (ch.satRun + 1) else 0, clearRun := clear,
                    isat := ch.isat && decide (clear < 10), floorClamp := floor }
    ovf := ovf
    floorEntry := floor && !ch.floorClamp }

/-- The freezes take effect, or end, at the sample of a channel that evaluates no loop (R110). -/
def freezeFlags (ch : Chan) : Chan := { ch with loops := vmapI ch.loops fun j l => { l with frozen := ch.ctl.getLsbD j.val } }

/-- A sample of a channel in HOLD or in a restart interval: I_sel is 0 and the states stay at zero (R109, R110). -/
def loopIdle (ch : Chan) : Chan := freezeFlags { ch with iSel := 0, share := 0, loops := vmap ch.loops zeroLoop }

/-! ### Supervision (R115, R116) -/

/-- a_p = exp(-1/(f_OUT tau)) in fixed point, tau in ms. -/
def apFactor (f2 tau : Nat) : Int := fxExp (Int.neg (divRound (2 * fxOne) (f2 * max 1 tau)))

/-- One sample of the cell model on V_S and I_P in uV and uA: v_p and V_0 have 48 fraction bits. -/
def cellModel (ch : Chan) (vs ip : Int) (f2 : Nat) : Chan :=
  let ap := apFactor f2 (bits ch.model1 0 16)
  let rp : Int := bits ch.model0 16 16
  let rint : Int := bits ch.model0 0 16
  let vp := divRound (ap * ch.vp) fxOne + divRound (rp * ip * (fxOne - ap)) 1000000
  let tgt := vs * fxOne - divRound (ip * rint * fxOne) 1000000 - vp
  let d := divRound ((tgt - ch.v0) * 20) (max 1 (bits ch.model1 16 8) * f2 * 1000)
  let lim := divRound ((bits ch.model1 24 8 : Int) * 2 * fxOne) f2
  let v0 := ch.v0 + clampInt (-lim) lim d
  { ch with vp := vp, v0 := v0 }

/-- The residual of the cell model in uV. -/
def modelResidual (ch : Chan) (vs ip : Int) : Int :=
  let rint : Int := bits ch.model0 0 16
  divRound ((vs * fxOne - ch.v0 - ch.vp) * 1000000 - ip * rint * fxOne) (1000000 * fxOne)

/-- Count a check in one sample: a suspended check starts again. -/
def superCount (n : Nat) (suspended : Bool) (failed : Bool) : Nat :=
  if suspended then 0 else if failed then min 255 (n + 1) else 0

end Sys2Proof.Machine
end

