-- ==== Sys2Proof/Machine/ProgramOps.lean ====
section
/-! DEFINITION. The formation service's shared operations: recipe fields, log records, holds, step changes, program end
and the grade record (R160 to R187). -/
namespace Sys2Proof.Machine

/-- The channel is bound to a recipe (R176). -/
def Chan.bound (ch : Chan) : Bool := ch.progReg.getLsbD 8

/-! ### Recipe and step fields (R160, R164) -/

/-- NSTEP of a header. -/
def hdrNstep (h : List Byte) : Nat := leNat (slice h 0 2)

/-- VERSION of a header. -/
def hdrVersion (h : List Byte) : Nat := leNat (slice h 2 2)

/-- A temperature bound of the header in 0.01 degrees: index 0 TRL, 1 TRH, 2 TSL, 3 TSH. -/
def hdrBound (h : List Byte) (i : Nat) : Int := leInt (slice h (4 + 2 * i) 2)

/-- RFAC in percent. -/
def hdrRfac (h : List Byte) : Nat := (byteAt h 12).toNat

/-- HFLAGS.WINEN. -/
def hdrWinen (h : List Byte) : Bool := (byteAt h 13).getLsbD 0

/-- HFLAGS.ICIR. -/
def hdrIcir (h : List Byte) : Bool := (byteAt h 13).getLsbD 1

/-- HLO in mV. -/
def hdrHlo (h : List Byte) : Nat := leNat (slice h 14 2)

/-- The CRC of a recipe: over header bytes 0 to 27 and the step records (R160). -/
def recipeCrc (r : Recipe) : Word := crc32c (r.header.take 28 ++ r.steps.flatten)

/-- TYPE of a step. -/
def stType (r : List Byte) : Nat := (byteAt r 0).toNat

/-- A bit of FLAGS: 0 STRETCH, 1 NOWIN, 2 HIST, 3 GRADE. -/
def stFlag (r : List Byte) (i : Nat) : Bool := (byteAt r 1).getLsbD i

/-- The periodic interval in ns; 0 for none. -/
def stLogNs (r : List Byte) : Nat := (byteAt r 2).toNat % 64 * (10000000 * 10 ^ ((byteAt r 2).toNat / 64))

/-- DNEXT. -/
def stDnext (r : List Byte) : Nat := (byteAt r 3).toNat

/-- IT as a signed number. -/
def stIt (r : List Byte) : Int := leInt (slice r 4 4)

/-- VT as a signed number. -/
def stVt (r : List Byte) : Int := leInt (slice r 8 4)

/-- PT as a signed number. -/
def stPt (r : List Byte) : Int := leInt (slice r 12 4)

/-- PT as 32 bits. -/
def stPtN (r : List Byte) : Nat := leNat (slice r 12 4)

/-- IRAMP. -/
def stIramp (r : List Byte) : Nat := leNat (slice r 16 4)

/-- VRAMP. -/
def stVramp (r : List Byte) : Nat := leNat (slice r 20 4)

/-- TMAX in s. -/
def stTmax (r : List Byte) : Nat := leNat (slice r 24 3)

/-- SNEXT. -/
def stSnext (r : List Byte) : Nat := (byteAt r 27).toNat

/-- QCAP in uAh. -/
def stQcap (r : List Byte) : Nat := leNat (slice r 28 4)

/-- The 8 bytes of condition k. -/
def stCond (r : List Byte) (k : Nat) : List Byte := slice r (32 + 8 * k) 8

/-- KIND of a condition. -/
def cdKind (c : List Byte) : Nat := (byteAt c 0).toNat

/-- OPTS.SENSE of a condition. -/
def cdBelow (c : List Byte) : Bool := (byteAt c 1).getLsbD 0

/-- NEXT of a condition. -/
def cdNext (c : List Byte) : Nat := (byteAt c 2).toNat

/-- QUAL of a condition. -/
def cdQual (c : List Byte) : Nat := (byteAt c 3).toNat

/-- VALUE of a condition. -/
def cdValue (c : List Byte) : Int := leInt (slice c 4 4)

/-- The record of step i of a program. -/
def Prog.rec? (p : Prog) (i : Nat) : List Byte := p.recipe.steps.getD i []

/-- The record of the present step. -/
def Prog.cur (p : Prog) : List Byte := p.rec? p.step

/-- A current-carrying step (R166). -/
def currentCarrying (r : List Byte) : Bool :=
  let t := stType r
  (decide (1 ≤ t) && decide (t ≤ 6)) || t == 8 || (t == 9 && stIt r != 0)

/-- The step charges: the sign of its target current or power is s, which a target of zero leaves as it is (R98,
R166). -/
def stepUp (neg : Bool) (r : List Byte) : Bool :=
  let t := if stType r = 6 then stPt r else stIt r
  if t = 0 then !neg else decide (0 < t)

/-- The temperature windows apply to the step: every charge step but PULSE, without NOWIN (R173). -/
def windowsApply (ch : Chan) (r : List Byte) : Bool :=
  hdrWinen ch.prog.recipe.header && currentCarrying r && stType r != 8 && stepUp ch.neg r && !stFlag r 1

/-- The first IC_PEAK condition of a step. -/
def peakSlot (r : List Byte) : Option (Fin 4) := (List.finRange 4).find? fun k => cdKind (stCond r k.val) == 9

/-! ### Units -/

/-- The charge of a current in uA over a time in ns, in 2^-32 nAh (R151). Log entry 16 for the rounding. -/
def chargeOf (ua : Int) (ns : Nat) : Int := divRound (ua * ns * 2 ^ 32) 3600000000

/-- The energy of a power in uW over a time in ns, in 2^-32 uWh (R151). -/
def energyOf (uw : Int) (ns : Nat) : Int := divRound (uw * ns * 2 ^ 32) 3600000000000

/-- Accumulator charge in uAh, towards zero. -/
def toUah (q : Int) : Int := divZero q (1000 * 2 ^ 32)

/-- Accumulator energy in 0.1 mWh, towards zero. -/
def toTenthMwh (e : Int) : Int := divZero e (100 * 2 ^ 32)

/-- The step time in ms. -/
def Prog.stepMs (p : Prog) : Nat := p.stepNs / 1000000

/-- f_D in 0.5 % (R174). -/
def Prog.share (p : Prog) : Nat := if p.samples = 0 then 0 else 200 * p.derated / p.samples

/-! ### Log records (R185 to R187) -/

/-- RFLAGS of a record. -/
def measFlags (s : State) (blend clamp invalid derated : Bool) : Nat :=
  b2n blend + 2 * b2n clamp + 4 * b2n invalid + 16 * b2n s.meas.holdx + 32 * b2n derated

/-- A word of the channel carries BLEND. -/
def Chan.blendWord (ch : Chan) : Bool := ch.vFl.getLsbD 1 || ch.iFl.getLsbD 1

/-- A word of the channel carries INVALID. -/
def Chan.invalid (ch : Chan) : Bool := ch.vInv || ch.iInv

/-- A word of a channel or of a member of its gang is INVALID. -/
def measInvalid (s : State) (c : Fin 16) : Bool := (members s c).any fun d => (s.ch[d]).invalid

/-- RFLAGS of a record with values of the present words. -/
def wordFlags (s : State) (c : Fin 16) : Nat :=
  measFlags s ((members s c).any fun d => (s.ch[d]).blendWord) false (measInvalid s c) false

/-- RFLAGS of a record without a source word. -/
def plainFlags (s : State) : Nat := measFlags s false false false false

/-- The records that a ring holds unacknowledged: U of R186. -/
def ringUsed (ch : Chan) : Nat := (ch.logSeq + 2 ^ 32 - ch.logAck) % 2 ^ 32

/-- The records of a ring. -/
def ringSize : Nat := 6144

/-- The ring is full and does not overwrite (R186, R328). -/
def ringFull (ch : Chan) : Bool := decide (ringSize ≤ ringUsed ch) && !ch.logF

/-- The bytes of a record (R185). -/
def recordBytes (seq tbase epoch type rflags : Nat) (payload : List Byte) : List Byte :=
  toLE 4 seq ++ toLE 8 tbase ++ toLE 6 epoch ++ toLE 1 type ++ toLE 1 rflags ++ payload

/-- Form a record in the present epoch; it is written at the boundary that commits it (R37). -/
def formRecord (s : State) (c : Fin 16) (type rflags : Nat) (payload : List Byte) : State :=
  { s with recs := s.recs ++ [{ tbase := none, ch := c, type := type, rflags := rflags, payload := payload,
                                epoch := s.sys.epoch.toNat }] }

/-- Form a record of an effect that commits at the present boundary. -/
def formRecordAt (s : State) (c : Fin 16) (type rflags : Nat) (payload : List Byte) : State :=
  { s with recs := s.recs ++ [{ tbase := some s.sys.tbase, ch := c, type := type, rflags := rflags, payload := payload,
                                epoch := s.sys.epoch.toNat }] }

/-- The channel with one record appended to its ring. -/
def appendRecord (ch : Chan) (d : RecDraft) (tbase : Nat) : Chan :=
  let r : LogRec := { seq := ch.logSeq, bytes := recordBytes ch.logSeq tbase d.epoch d.type d.rflags d.payload }
  { ch with logSeq := (ch.logSeq + 1) % 2 ^ 32, ring := (ch.ring ++ [r]).drop (ch.ring.length + 1 - ringSize) }

/-- Write a committed record into its ring under the rules of R186. -/
def writeRecord (s : State) (d : RecDraft) : State :=
  let ch := s.ch[d.ch]
  let u := ringUsed ch
  let tb := d.tbase.getD s.sys.tbase
  if ch.logF = false ∧ d.type = 4 ∧ 6128 ≤ u then s.updCh d.ch fun ch => { ch with drop := satInc 16 ch.drop }
  else if ch.logF = false ∧ ringSize ≤ u then s.updCh d.ch fun ch => { ch with lost := satInc 16 ch.lost }
  else
    let s := if ringSize ≤ u then
        s.updCh d.ch fun ch => { ch with logAck := (ch.logAck + 1) % 2 ^ 32, lost := satInc 16 ch.lost }
      else s
    let s := s.updCh d.ch fun ch => appendRecord ch d tb
    let v := ringUsed s.ch[d.ch]
    if 4608 ≤ v ∧ (s.ch[d.ch]).nearFull = false then
      queueEvent (s.updCh d.ch fun ch => { ch with nearFull := true }) 0x0216 (p1 d.ch.val ++ p4 v)
    else s

/-- Set the oldest record that the host needs (R186). -/
def setLogAck (s : State) (c : Fin 16) (v : Word) : State × Byte :=
  let ch := s.ch[c]
  let u := (ch.logSeq + 2 ^ 32 - v.toNat) % 2 ^ 32
  if ringSize < u then (s, stBadParam)
  else
    (s.updCh c fun ch => { ch with logAck := v.toNat, nearFull := ch.nearFull && decide (4096 ≤ u) }, stOk)

/-- The payload of a HOLD record. -/
def holdPayload (ch : Chan) (cause kind : Nat) : List Byte :=
  p1 ch.prog.step ++ p1 cause ++ p1 kind ++ p1 0 ++ toLE 4 (satNat 32 ch.prog.stepMs) ++ p4 ch.vS

/-- The payload of a PROG record. -/
def progPayload (ch : Chan) (kind reason : Nat) : List Byte :=
  p1 kind ++ p1 ch.prog.slot ++ p1 reason ++ p1 ch.prog.step ++ toLE 4 ch.rseq
    ++ toLE 2 (hdrVersion ch.prog.recipe.header) ++ [0, 0]

/-- The payload of a STEP_START record, for a step that starts in HAND or not. -/
def startPayload (ch : Chan) (hand : Bool) : List Byte :=
  p1 ch.prog.step ++ p1 (stType ch.prog.cur) ++ p1 (b2n (hand || ch.src == .hand)) ++ p1 0 ++ p4 ch.vS ++ toLE 4 ch.rseq

/-- The payload of a STEP_END record. -/
def endPayload (ch : Chan) (reason next : Nat) : List Byte :=
  p1 ch.prog.step ++ p1 reason ++ p1 next ++ p1 ch.prog.share ++ toLE 4 (satNat 32 ch.prog.stepMs)
    ++ p4 (toUah ch.prog.charge)

/-- The payload of a STEP_SUM record. -/
def sumPayload (ch : Chan) : List Byte :=
  p1 ch.prog.step ++ [0, 0, 0] ++ p4 (toTenthMwh ch.prog.energy) ++ p4 ch.vS

/-- STEP_END and STEP_SUM. -/
def formEndRecords (s : State) (c : Fin 16) (reason next : Nat) : State :=
  let s := formRecord s c 2 (wordFlags s c) (endPayload s.ch[c] reason next)
  formRecord s c 3 (wordFlags s c) (sumPayload s.ch[c])

/-! ### Grade record (R184) -/

/-- Accumulator charge in uAh, saturating at 32 bits. -/
def gradeUah (q : Nat) : List Byte := toLE 4 (satNat 32 (q / (1000 * 2 ^ 32)))

/-- Accumulator energy in uWh, saturating at 32 bits. -/
def gradeUwh (e : Nat) : List Byte := toLE 4 (satNat 32 (e / 2 ^ 32))

/-- The grade record of a program that ends now. -/
def gradeBytes (s : State) (c : Fin 16) (reason : Nat) : List Byte :=
  let ch := s.ch[c]
  let g := ch.prog.grade
  let b := p1 c.val ++ p1 ch.prog.slot ++ toLE 2 (hdrVersion ch.prog.recipe.header) ++ toLE 4 ch.rseq
    ++ toLE 8 g.tstart ++ toLE 8 s.sys.tbase ++ gradeUah g.qin ++ gradeUah g.qout ++ gradeUwh g.ein ++ gradeUwh g.eout
    ++ gradeUah g.qpre
    ++ (match g.rdc10 with | some r => p4 r | none => toLE 4 0xFFFFFFFF)
    ++ (match g.drift with | some r => p4 r | none => toLE 4 0x80000000)
    ++ toLE 2 g.icpv ++ toLE 2 (satNat 16 g.icph) ++ p1 reason ++ [g.gflags] ++ toLE 2 (satNat 16 g.nhold)
  b ++ wordBytes (crc32c b)

/-- GFLAGS with a bit set. -/
def GradeAcc.flag (g : GradeAcc) (i : Nat) : GradeAcc := { g with gflags := putBit g.gflags i true }

/-- The program of a channel ends: grade record, GRADE and PROG records, events (R178, R184). The order GRADE, PROG is
that of the worked recipe. DEDUCED, log entry 17. -/
def endProgram (s : State) (c : Fin 16) (reason : Nat) (incomplete : Bool) : State :=
  let s := s.updProg c fun p =>
    { p with lastR := reason, pend := none, causes := [], tred := false,
             grade := if incomplete then p.grade.flag 0 else p.grade }
  let g := gradeBytes s c reason
  let ch := s.ch[c]
  let s := formRecord s c 0x0B (plainFlags s) (toLE 4 ch.rseq ++ gradeUah ch.prog.grade.qout ++ g.drop 60)
  let s := formRecord s c 0x0A (plainFlags s) (progPayload ch 2 reason)
  let s := queueEvent s 0x0211 (p1 c.val ++ p1 reason ++ p1 ch.prog.step)
  let s := queueEvent s 0x0218 (p1 c.val ++ p4u ch.rseq)
  s.updCh c fun ch =>
    { ch with grades := (g :: ch.grades).take 8, plimStep := none, pulseArmed := none,
              prog := { ch.prog with pstate := .ended } }

/-- The program is under way (R176). -/
def PState.active : PState → Bool
  | .run | .pause | .hold | .hand => true
  | _ => false

/-- An abnormal end other than IMPLAUSIBLE: STEP_END and STEP_SUM, then the end of the program (R178). -/
def abortProgram (s : State) (c : Fin 16) (reason : Nat) : State :=
  if (s.ch[c]).prog.pstate.active then endProgram (formEndRecords s c reason 0xFE) c reason true else s

/-! ### Targets and steps (R167, R172, R173) -/

/-- The scaled value in the reduce band. -/
def scaleBy (on : Bool) (rfac : Nat) (v : Int) : Int := if on then divRound (v * rfac) 100 else v

/-- The targets of a step record as a setpoint step change (R167, R181, R182). The rates of EIS steps that the rules
do not give: DESIGN CHOICE, log entry 219. -/
def setStepTargets (s : State) (c : Fin 16) : State :=
  let imax := iMax s c
  s.updCh c fun ch =>
    let p := ch.prog
    let r := p.cur
    let rf := hdrRfac p.recipe.header
    let it := scaleBy p.tred rf (stIt r)
    let both (vt : Int) (ri rv : Nat) : Chan :=
      { ch with tgtI := it, tgtV := vt, rateI := ri, rateV := rv, plimStep := none }
    match stType r with
    | 1 => both (if stVt r = 0 then 1500000 else stVt r) (stIramp r) 0
    | 2 | 3 | 4 => both (stVt r) (stIramp r) (stVramp r)
    | 5 => both (stVt r) (stIramp r) 0
    | 6 =>
      let pt := scaleBy p.tred rf (stPt r)
      { ch with tgtI := if pt < 0 then -imax else imax, tgtV := stVt r, rateI := stIramp r, rateV := stVramp r,
                plimStep := some pt.natAbs }
    | 8 => both (stVt r) (stIramp r) 0
    | 9 => if stIt r = 0 then { ch with tgtI := 0, rateI := 10000, plimStep := none } else both (stVt r) 10000 0
    | _ => { ch with tgtI := 0, rateI := stIramp r, plimStep := none }

/-- The step values at the start of a step (R170). -/
def Prog.zeroStep (p : Prog) : Prog :=
  { p with stepNs := 0, charge := 0, energy := 0, derated := 0, samples := 0, pers := Vector.replicate 4 0, v1 := [],
           v1sum := 0, v1n := 0, v1max := none, sumV := 0, sumI := 0, sumN := 0, sumT := 0, sumTn := 0, perBad := false,
           perDer := false, perNs := 0, eisIndex := 0, eisNs := 0, perInv := false, perBlend := false, stepBlend := false,
           ocvSum := 0, ocvN := 0, ocvT := 0, ocvMeans := [],
           suspend := 0, pend := none }

/-- The counts that start again on a return to RUN (R170). -/
def Prog.zeroPers (p : Prog) : Prog := { p with pers := Vector.replicate 4 0, suspend := 0 }

/-- The histogram at the start of a step with HIST (R183). Without an IC_PEAK condition the manual gives no smoothing
width: a free value. -/
def startHist (r : List Byte) (h : Hist) (s : State) : Hist × State :=
  if stFlag r 2 = false then (h, s)
  else if (peakSlot r).isSome then (Hist.zero, s)
  else
    let d := drawFree s
    ({ Hist.zero with width := 1 + 2 * (d.1 % 32).toNat }, d.2)

/-- Start step i of the program of channel c: its values at zero, its record, its targets unless the program is in
HAND, or enters it at this boundary (R167, R170, R173, R179, R180, R183). -/
def startStepIn (hand : Bool) (s : State) (c : Fin 16) (i : Nat) : State :=
  let ch := s.ch[c]
  let leave := ch.prog.tred && !windowsApply ch (ch.prog.rec? i)
  let h := startHist (ch.prog.rec? i) ch.hist s
  let s := h.2.updCh c fun ch =>
    let p := { ch.prog with step := i }.zeroStep
    { ch with
      prog := { p with tred := p.tred && !leave, started := true, fresh := true }
      hist := h.1, dds := 0, excAt := none, excClamp := false
      pulseArmed := if stType p.cur = 8 then some (stIt p.cur, s.sys.tbase) else none }
  let s := if leave then queueEvent s 0x0215 (p1 c.val ++ p1 0) else s
  let s := formRecord s c 1 (wordFlags s c) (startPayload s.ch[c] hand)
  if hand ∨ (s.ch[c]).prog.pstate = .hand then s else setStepTargets s c

/-- Start a step of a program that is not about to enter HAND. -/
def startStep (s : State) (c : Fin 16) (i : Nat) : State := startStepIn false s c i

/-- The step index that a next-step byte names, from step k; none for the end of the program (R165). -/
def nextIndex (k byte : Nat) : Option Nat :=
  if byte = 0xFE then none else if byte = 0xFD then some (k + 1) else some byte

/-- The counter of a LOOP step. -/
def loopCount (p : Prog) (k : Nat) : Nat := ((p.loops.find? fun x => x.1 == k).map (·.2)).getD 0

/-- The program with the counter of a LOOP step set. -/
def setLoop (p : Prog) (k n : Nat) : Prog := { p with loops := (k, n) :: p.loops.filter fun x => x.1 != k }

/-- Run LOOP, GOTO and END from a step index (R172): the step that takes samples, or none at the end. A committed recipe
passes at most 8 of them in a row (R161 check 10). -/
def resolveStep : Nat → Prog → Option Nat → Option Nat × Prog
  | 0, p, _ => (none, p)
  | _ + 1, p, none => (none, p)
  | n + 1, p, some k =>
    let r := p.rec? k
    match stType r with
    | 0x0B =>
      let target := (byteAt r 4).toNat
      let count := leNat (slice r 6 2)
      if loopCount p k < count then resolveStep n (setLoop p k (loopCount p k + 1)) (some target)
      else resolveStep n (setLoop p k 0) (some (k + 1))
    | 0x0C => resolveStep n p (some (byteAt r 4).toNat)
    | 0x0D => (none, p)
    | 0 => (none, p)
    | _ => (some k, p)

/-- Fuel for `resolveStep`. -/
def resolveFuel : Nat := 64

/-! ### Step ends (R171) -/

/-- A step end is decided, with its reason, its next-step byte and its place in the order of R171. It takes effect
after the given number of boundaries: at B(e+2) for the inputs of epoch e (R38). The earlier effect stands, and at one
boundary the first in order. -/
def decideEnd (s : State) (c : Fin 16) (rank wait reason next : Nat) : State :=
  s.updProg c fun p =>
    let x : StepEnd := { reason := reason, next := next, wait := wait, rank := rank }
    match p.pend with
    | none => { p with pend := some x }
    | some y => if wait < y.wait ∨ (wait = y.wait ∧ rank < y.rank) then { p with pend := some x } else p

/-- 10^(n/d) in fixed point, for n / d below 40. -/
def fxPow10 (n d : Nat) : Int :=
  let x := divRound (fxLn 10 1 * (n % d : Nat)) (4 * d)
  let e := fxExp x
  let e2 := divRound (e * e) fxOne
  divRound (e2 * e2) fxOne * 10 ^ (n / d)

/-- f_start of an EIS step in mHz. -/
def eisStart (r : List Byte) : Nat := stIramp r

/-- f_stop of an EIS step. -/
def eisStop (r : List Byte) : Nat := leNat (slice r 20 3)

/-- Points per decade of an EIS step. -/
def eisPoints (r : List Byte) : Nat := (byteAt r 23).toNat / 16

/-- Periods per point of an EIS step. -/
def eisPeriods (r : List Byte) : Nat := (byteAt r 23).toNat % 16 + 1

/-- The frequency of point k of an EIS step in mHz (R181). -/
def eisFreq (r : List Byte) (k : Nat) : Nat :=
  let p := fxPow10 k (max 1 (eisPoints r))
  if eisStart r ≤ eisStop r then (divRound (eisStart r * p) fxOne).toNat
  else (divRound (eisStart r * fxOne) p.toNat).toNat

/-- Point k of an EIS step lies within its sweep, with the tolerance of 0.1 % (R181). -/
def eisIncludes (r : List Byte) (k : Nat) : Bool :=
  let f := eisFreq r k
  if eisStart r ≤ eisStop r then decide (1000 * f ≤ 1001 * eisStop r) else decide (999 * eisStop r ≤ 1000 * f)

/-! ### Holds (R177, R178) -/

/-- The hold causes of R177. -/
def hcHost : Nat := 1
def hcTempwin : Nat := 2
def hcStalemate : Nat := 3
def hcImplausible : Nat := 4
def hcSafety2 : Nat := 5
def hcLogfull : Nat := 6
def hcIsland : Nat := 7
def hcMeas : Nat := 8

/-- Add a hold cause to the program of a channel, and to an unbound channel; the oldest stands first. -/
def addCause (s : State) (c : Fin 16) (cause : Nat) : State :=
  s.updProg c fun p => if p.causes.contains cause then p else { p with causes := p.causes ++ [cause] }

/-- Clear hold causes. -/
def clearCauses (s : State) (c : Fin 16) (l : List Nat) : State :=
  s.updProg c fun p => { p with causes := p.causes.filter fun x => !l.contains x }

/-- A program in RUN enters HOLD: with cause 4, alone or beside others, the step ends with reason IMPLAUSIBLE and the
same step as next step, and the entry is recorded with that cause (R178); PROG_HOLD, a HOLD record of entry, and
NHOLD. -/
def holdProgram (s : State) (c : Fin 16) (cause : Nat) : State :=
  if (s.ch[c]).prog.pstate = .run ∧ (s.ch[c]).prog.started then
    let cause := if (s.ch[c]).prog.causes.contains hcImplausible then hcImplausible else cause
    let s := if cause = hcImplausible then
        (formEndRecords s c 0x22 (s.ch[c]).prog.step).updProg c fun p =>
          { p with lastR := 0x22, pend := none, restart := true }
      else s
    let s := formRecord s c 9 (wordFlags s c) (holdPayload s.ch[c] cause 0)
    let s := queueEvent s 0x0213 (p1 c.val ++ p1 cause)
    s.updProg c fun p =>
      { p with pstate := .hold, holdCause := cause, grade := { p.grade with nhold := p.grade.nhold + 1 } }
  else s

/-- A program in HOLD returns to RUN: a HOLD record of exit and PROG_RESUME; a step that ended with reason IMPLAUSIBLE
starts again from zero (R170, R177, R178). -/
def resumeProgram (s : State) (c : Fin 16) : State :=
  if (s.ch[c]).prog.pstate = .hold then
    let again := (s.ch[c]).prog.restart
    let s := formRecord s c 9 (wordFlags s c) (holdPayload s.ch[c] (s.ch[c]).prog.holdCause 1)
    let s := queueEvent s 0x0214 (p1 c.val)
    let s := s.updProg c fun p => { p.zeroPers with pstate := .run, restart := false }
    if again then startStep s c (s.ch[c]).prog.step else s
  else s

end Sys2Proof.Machine
end

