-- ==== Sys2Proof/Machine/ChannelOps.lean ====
section
/-! DEFINITION. Transitions of the channel state machine with their gates, disconnects, events and program ends
(R66 to R74), for one channel and for all members of its gang. -/
namespace Sys2Proof.Machine

/-! ### Measurements run by host commands (R327) -/

/-- End a measurement that a host command runs: it completes with ABORTED and a pulse target is restored (R327). -/
def abortMeas (s : State) (c : Fin 16) : State :=
  match (s.ch[c]).hostMeas with
  | .none => s
  | .eis t _ _ _ => reply (s.updCh c fun ch => { ch with hostMeas := .none }) t 0x52 stAborted []
  | .pulse _ t =>
    let s := s.updCh c fun ch => { ch with hostMeas := .none, pulseArmed := none, tgtI := ch.iset.toInt }
    match t with
    | some t => reply s t 0x51 stAborted []
    | none => s
  | .pulseEnd t =>
    reply (s.updCh c fun ch => { ch with hostMeas := .none, pulseArmed := none }) t 0x51 stAborted []

/-! ### Sources (R111) -/

/-- Take the targets and rates of the host registers. -/
def Chan.hostTargets (ch : Chan) : Chan :=
  { ch with tgtI := ch.iset.toInt, tgtV := bits ch.vset 0 23, rateI := bits ch.iramp 0 20, rateV := bits ch.vramp 0 24,
            plimStep := none }

/-- Change the source of a channel: its position is kept, the targets of the new source apply, SRC_CHANGE (R111). Every
loop tracked the selected demand in the sample before (R103), so the update of R111 leaves its states as they are. -/
def changeSource (s : State) (c : Fin 16) (n : Src) : State :=
  let o := (s.ch[c]).src
  if o = n then s
  else
    let s := abortMeas s c
    let s := s.updCh c fun ch =>
      let ch := { ch with src := n }
      if n = .auto then ch else ch.hostTargets
    queueEvent s 0x020C (p1 c.val ++ p1 o.code ++ p1 n.code)

/-! ### One channel -/

/-- Change the state of a channel and queue CH_STATE (R72). -/
def moveChannel (s : State) (c : Fin 16) (n : ChState) : State :=
  let o := (s.ch[c]).st
  if o = n then s
  else queueEvent (s.updCh c fun ch => { ch with st := n }) 0x0201 (p1 c.val ++ p1 o.code ++ p1 n.code)

/-- Both switches of both legs off (R68): no switching frequency, no foldback, no burst trickle. -/
def Chan.gatesOff (ch : Chan) : Chan :=
  { ch with gates := false, feff := 0, fold := false, burst := false, burstAbove := 0, trim := 0, imbal := false
            imbalEpochs := 0 }

/-- Forced opening (R68): gates off at once; the disconnect follows. -/
def Chan.forceOpen (ch : Chan) : Chan :=
  { ch.gatesOff with opening := if ch.dsw then .forced else .none, short := none, slow := false }

/-- Orderly opening (R68): the current goes to zero first, that of a probe of CHECK as well (R74), and packets of burst
trickle stop at once (R237); gates that are off already leave only the disconnect. An opening that runs goes on. -/
def Chan.orderlyOpen (ch : Chan) : Chan :=
  let ch := { ch with short := none, slow := false }
  if ch.dsw = false then { ch.gatesOff with opening := .none }
  else if ch.opening = .none ∨ ch.opening = .ramp then
    { (if ch.burst then ch.gatesOff else ch) with opening := if ch.gates || ch.checking then .orderly else .gatesOff }
  else ch

/-- Current to zero with the disconnect kept closed (R210, R280); burst trickle of a HOLD, whose gates are off, ends. -/
def Chan.rampDown (ch : Chan) : Chan :=
  if ch.gates then { ch with opening := .ramp, slow := false } else if ch.burst then ch.gatesOff else ch

/-- A channel changes on its way to an opening; burst trickle that ends by it ends with BURST_EXIT (R61, R68). -/
def openChannel (s : State) (c : Fin 16) (f : Chan → Chan) : State :=
  let burst := (s.ch[c]).burst
  let s := s.updCh c f
  if burst && !(s.ch[c]).burst then queueEvent s 0x0206 (p1 c.val) else s

/-- A leg of a channel that goes to OFF or FAULT leaves the restart interval (R94). R92 queues LEG_RESTART where
channels resume: an interval that no channel is left in ends without it. DESIGN CHOICE, log entry 211. -/
def leaveRestart (s : State) (c : Fin 16) : State :=
  let s := s.updLeg (legA c) fun l => { l with restart := false, suspect := false }
  let s := s.updLeg (legB c) fun l => { l with restart := false, suspect := false }
  s.updGrp (groupOf c) fun g =>
    match g.restart with
    | none => g
    | some r =>
      let keep : BitVec 8 := ~~~(BitVec.ofNat 8 (3 * 4 ^ (c.val % 4)))
      let legs := r.legs &&& keep
      { g with restart := if legs = 0 then none else some { r with legs := legs, suspect := r.suspect &&& keep } }

/-- The program reason of a fault cause (R178). -/
def faultReason (cause : Nat) : Nat := if cause = 5 then 0x20 else if cause ≤ 4 then 0x21 else 0x23

/-- The result of CHECK for a fault cause (CHn_CHKRES.RESULT). -/
def faultResult (cause : Nat) : BitVec 8 := BitVec.ofNat 8 (0x80 + cause)

/-- One channel enters FAULT with a cause: forced opening, CHn_FAULT bit, CH_STATE and CH_FAULT, and the abnormal end
of its program; a CHECK that the fault ends has found no R_c (R66, R70, R72, R178). What CHn_CHKRES.DSWNC reads where
CHECK ends before its step 6 is left open: it keeps its value. DESIGN CHOICE, log entry 172. -/
def faultChannel (s : State) (c : Fin 16) (cause : Nat) : State :=
  if (s.ch[c]).st = .off ∨ (s.ch[c]).st = .fault then s
  else
    let inCheck := (s.ch[c]).checking
    let s := abortMeas s c
    let s := leaveRestart s c
    let s := moveChannel s c .fault
    let s := (openChannel s c Chan.forceOpen).updCh c fun ch =>
      { ch.flagFault (cause - 1) with
        fcode := BitVec.ofNat 8 cause, checking := false, faulted := true
        chkResult := if inCheck then faultResult cause else ch.chkResult, rc := if inCheck then 0xFFFF else ch.rc }
    let s := queueEvent s 0x0202 (p1 c.val ++ p1 cause)
    abortProgram s c (faultReason cause)

/-- CHECK_DONE of one member. -/
def checkDoneEvent (s : State) (d : Fin 16) : State :=
  queueEvent s 0x0203 (p1 d.val ++ p1 (s.ch[d]).chkResult.toNat ++ p4 (s.ch[d]).rc)

/-- Every member of a gang enters FAULT, the members concerned with their own causes, the others with GANG; a CHECK
that runs ends with its event (R66). -/
def faultMembers (s : State) (c : Fin 16) (l : List (Fin 16 × Nat)) : State :=
  (members s c).foldl (fun s d =>
    let inCheck := (s.ch[d]).checking
    let s := faultChannel s d (((l.find? fun y => y.1 == d).map (·.2)).getD 8)
    if inCheck then checkDoneEvent s d else s) s

/-- A fault of one member takes every member of its gang to FAULT; the others record GANG (R66). -/
def faultGang (s : State) (c : Fin 16) (cause : Nat) : State := faultMembers s c [(c, cause)]

/-- Both legs of a channel are parked (R55). A channel with one leg parked and the other disabled in CHn_CFG is not: the
manual names no fault for it, and it goes on without a running leg. DESIGN CHOICE, log entry 208. -/
def bothParked (s : State) (c : Fin 16) : Bool := (s.leg[legA c]).parked && (s.leg[legB c]).parked

/-- The channel fault that both legs parked give (R55). -/
def legsFault (s : State) (c : Fin 16) : State := if bothParked s c then faultGang s c 6 else s

/-- One channel enters CHECK (R70 step 1): parks that CHECK ends are cleared (R460). An opening that still runs goes
on to its end, which opens the disconnect (R68), and CHECK waits for it. -/
def enterCheck (s : State) (c : Fin 16) : State :=
  let clear (l : Leg) : Leg := { l with park := { l.park with boot := false, probe := false }, buvRun := 0 }
  let s := (s.updLeg (legA c) clear).updLeg (legB c) clear
  let s := moveChannel s c .check
  s.updCh c fun ch =>
    { (if ch.opening = .none then { ch.gatesOff with dsw := false } else ch) with checking := true, fcode := 0, checkNs := 0 }

/-- ARM of a channel or gang: every member enters CHECK; those whose legs are still both parked end it in FAULT LEGS
(R66, R460). -/
def armGang (s : State) (c : Fin 16) : State :=
  let ms := members s c
  let s := ms.foldl enterCheck s
  match ms.filter (bothParked s) with
  | [] => s
  | l => faultMembers s c (l.map fun d => (d, 6))

/-- The time from the entry into CHECK to its step 7, and what steps 7 to 10 of one member take, in ns (R70). -/
def checkStep7 : Nat := 12000000

def checkProbe : Nat := 24000000

/-- CHECK goes on by ns nanoseconds once no opening runs: from its step 7 on DSWn of a member is asserted, member
after member (R67, R70). DEDUCED, log entry 171. -/
def advanceCheck (ns : Nat) (s : State) (c : Fin 16) : State :=
  if (s.ch[c]).checking = false ∨ (s.ch[c]).opening ≠ .none then s
  else
    let before := (members s c).idxOf c
    s.updCh c fun ch =>
      let t := ch.checkNs + ns
      { ch with checkNs := t, dsw := ch.dsw || decide (checkStep7 + before * checkProbe ≤ t) }

/-- One channel goes to OFF by orderly opening (R72, R74). -/
def offChannel (s : State) (c : Fin 16) : State :=
  let s := abortMeas s c
  let s := leaveRestart s c
  let s := moveChannel s c .off
  (openChannel s c Chan.orderlyOpen).updCh c fun ch => { ch with checking := false }

/-- One channel goes to OFF by forced opening (category 0). -/
def forceOffChannel (s : State) (c : Fin 16) : State :=
  let s := abortMeas s c
  let s := leaveRestart s c
  let s := moveChannel s c .off
  (openChannel s c Chan.forceOpen).updCh c fun ch => { ch with checking := false }

/-- The channel is in CHECK, ARMED, RUN or HOLD. -/
def ChState.live : ChState → Bool
  | .check | .armed | .run | .hold => true
  | _ => false

/-- A host STOP, an abort, or a program END: every member to OFF by orderly opening (R72), the program ending with the
reason. -/
def stopGang (s : State) (c : Fin 16) (reason : Nat) : State :=
  let s := abortProgram s c reason
  (members s c).foldl (fun s d => if (s.ch[d]).st.live then offChannel s d else s) s

/-- One channel goes from RUN to HOLD: zero reference, or off in the burst region (R72, R109). -/
def holdChannel (s : State) (c : Fin 16) : State :=
  if (s.ch[c]).st = .run then
    let s := abortMeas s c
    let s := moveChannel s c .hold
    s.updCh c fun ch => if ch.burst then loopIdle { ch with gates := false, feff := 0 } else loopIdle ch
  else s

/-- A hold that acts at once: the cause is added, the channel or gang and its program go to HOLD (R72, R177). -/
def holdNow (s : State) (c : Fin 16) (cause : Nat) : State :=
  let l := leaderOf s c
  let s := addCause s l cause
  let s := holdProgram s l cause
  (members s l).foldl holdChannel s

/-- The physical sequence of a channel has ended (R212). -/
def sequenceEnds (s : State) (c : Fin 16) : State := { s with sys := { s.sys with setl := putBit s.sys.setl c.val false } }

/-- One channel enters RUN with a zero start (R72, R109, R196). Switches that were on go on at their frequency (R57). -/
def runChannel (s : State) (c : Fin 16) : State :=
  let s := sequenceEnds (moveChannel s c .run) c
  s.updCh c fun ch =>
    { ch with gates := true, opening := .none, slow := false, zeroStart := true, entered := true, starting := true,
              counted := false, feff := if ch.gates then ch.feff else bits ch.fswF 0 9, fold := ch.gates && ch.fold,
              burstAbove := 0, satRun := 0, clearRun := 0 }

/-- Every member of a gang enters RUN. -/
def runGang (s : State) (c : Fin 16) : State := (members s c).foldl runChannel s

end Sys2Proof.Machine
end

