-- ==== Sys2Proof/Machine/EngineOps.lean ====
section
/-! DEFINITION. Castling: the spare, staging, commit and abort of a castling, and a group that loses its owner
(R40, R119 to R122, R395). -/
namespace Sys2Proof.Machine

/-! ### Islands -/

/-- The island of an engine. -/
def ceIsland (k : Fin 5) : Nat := k.val

/-- The islands other than the engines that write checkpoints: sequencer, host port, rack bus and DMA (R34). -/
def islCkptOf (k : Fin 4) : Nat := if k.val = 0 then 7 else 8 + k.val

/-- The islands that write checkpoints (R34). -/
def ckptIslands : List Nat := [0, 1, 2, 3, 4, 7, 9, 10, 11]

/-- An island is held in reset after the loss of its PLL (R14). -/
def islandDown (s : State) (i : Nat) : Bool := s.sys.islDown.getLsbD i

/-- The group of an engine that owns one. -/
def ownedGroup (s : State) (k : Fin 5) : Option (Fin 4) := (List.finRange 4).find? fun g => (s.grp[g]).owner == some k

/-- A channel does work that an orderly stop of a zone stops (table Die sensors, R273). -/
def inZone (s : State) (k : Fin 20) (c : Fin 16) : Bool :=
  if h : k.val < 5 then (s.grp[groupOf c]).owner == some ⟨k.val, h⟩
  else decide (12 < k.val) || decide (c.val / 2 + 5 = k.val)

/-- The ownership tag of a group (R19, R40): CE index 7 without an owner. -/
def groupTag (gr : Group) : Nat := (match gr.owner with | some k => k.val | none => 7) * 32 + gr.gen.toNat

/-! ### The spare (R279, R280, R395) -/

/-- The engine has no group and is not retired. -/
def ungrouped (s : State) (k : Fin 5) : Bool :=
  match (s.ce[k]).role with
  | .spare | .bist => true
  | _ => false

/-- The zone of the engine lets it receive a castling: its reading is below THROT and it has not handed its group over
at an orderly stop since it last left the warning state. -/
def ceCool (s : State) (k : Fin 5) : Bool :=
  let d := s.therm.die[k.val]'(by omega)
  decide (d.reading < (bits s.therm.cfgF 8 8 : Int) * 100) && !d.out

/-- SYS_CASTLE.SPARE: the qualified engine without a group (R395). -/
def spareOf (s : State) : Option (Fin 5) :=
  (List.finRange 5).find? fun k => ungrouped s k && (s.ce[k]).qualified

/-- The spare that a castling may use. -/
def receiver (s : State) : Option (Fin 5) :=
  match spareOf s with
  | some k => if ceCool s k && !islandDown s k.val then some k else none
  | none => none

/-- TEST_RESk and the bit of TEST_STAT.RUN after a run (R388). -/
def recordTest (s : State) (k : Fin 6) (arg result applied expected : Nat) : State :=
  { s with isl := { s.isl with
      tests := vmod s.isl.tests k fun r =>
        { runs := satInc 16 r.runs, arg := arg, result := result, applied := applied, expected := expected,
          tbase := s.sys.tbase }
      running := putBit s.isl.running k.val false } }

/-- TEST_DONE. -/
def testDone (s : State) (k : Fin 6) (result : Nat) : State := queueEvent s 0x0A01 (p1 k.val ++ p1 result)

/-- The expected count of the logic BIST. -/
def bistPatterns : Nat := 262144

/-- When the next run of the spare's logic BIST is due after one that ends now: 60 s later, or at the next boundary
for a candidate whose run is INCOMPLETE (R394, R395). -/
def nextBist (s : State) (qualified : Bool) (result : Nat) : Nat :=
  if !qualified && result == 3 then s.sys.tbase + 1 else s.sys.tbase + 60000000000

/-- A run of the spare's logic BIST is abandoned: INCOMPLETE, and the last pass stands (R120, R280, R394, R395, R407).
How many patterns were applied is a free value. -/
def abandonBist (s : State) (k : Fin 5) : State :=
  if (s.ce[k]).role = .bist then
    let d := drawFree s
    let s := d.2.updCe k fun c =>
      { c with role := .spare, bist := 3, bistAt := nextBist s c.qualified 3 }
    let s := testDone (recordTest s 1 0 3 ((d.1 % bistPatterns).toNat) bistPatterns) 1 3
    match s.isl.spareTag with
    | some t => reply { s with isl := { s.isl with spareTag := none } } t 0x90 stOk [3, 0, 0, 0]
    | none => s
  else s

/-! ### Checkpoints (R34, R40) -/

/-- What an engine checkpoints of a channel (R34). -/
def Chan.ckpt (ch : Chan) : ChanCkpt :=
  { loops := ch.loops, rI := ch.rI, rV := ch.rV, remI := ch.remI, remV := ch.remV, tgtI := ch.tgtI, tgtV := ch.tgtV
    rateI := ch.rateI, rateV := ch.rateV, neg := ch.neg, zeroStart := ch.zeroStart, vp := ch.vp, v0 := ch.v0, sup := ch.sup
    sinceZero := ch.sinceZero, win := ch.win, iSel := ch.iSel, isat := ch.isat, satRun := ch.satRun, clearRun := ch.clearRun
    floorClamp := ch.floorClamp, share := ch.share, ipHist := ch.ipHist, q := ch.q, e := ch.e }

/-- A channel as an engine loads it from a checkpoint. Targets and rates are those that the sequencer has committed, and
the accumulators go on from their committed values (R37). -/
def Chan.loadCkpt (ch : Chan) (x : ChanCkpt) : Chan :=
  { ch with
    loops := x.loops, rI := x.rI, rV := x.rV, remI := x.remI, remV := x.remV, neg := x.neg, zeroStart := x.zeroStart
    vp := x.vp, v0 := x.v0, sup := x.sup, sinceZero := x.sinceZero, win := x.win, iSel := x.iSel, isat := x.isat
    satRun := x.satRun, clearRun := x.clearRun, floorClamp := x.floorClamp, share := x.share, ipHist := x.ipHist }

/-- The later one of the checkpoints of an engine that are verified and have not been found damaged (R34, R36). -/
def Ce.lastCkpt (c : Ce) : Option Ckpt :=
  let a := c.slots[0]
  let b := c.slots[1]
  if a.verified && (!b.verified || decide (b.epoch ≤ a.epoch)) then some a else if b.verified then some b else none

/-- The checkpoint that the owner of a group wrote in the epoch that has just ended is verified (R34). -/
def groupVerified (s : State) (g : Fin 4) (epoch : Nat) : Bool :=
  match (s.grp[g]).owner with
  | some k => (s.ce[k]).slots.toList.any fun x => x.verified && x.epoch == epoch % 2 ^ 32
  | none => false

/-- The last verified checkpoint of a failed owner is put back: nothing of the epoch in which it failed remains (R37,
R40). No engine computes for the group before one adopts it, so that it loads what stands from here on. DESIGN CHOICE,
log entry 218. -/
def loadGroup (s : State) (g : Fin 4) (k : Fin 5) : State :=
  let l := match (s.ce[k]).lastCkpt with | some x => x.chans | none => []
  ((chansOf g).zipIdx).foldl (fun s c =>
    s.updCh c.1 fun ch =>
      { (match l[c.2]? with | some x => ch.loadCkpt x | none => ch) with q := ch.qC, e := ch.eC }) s

/-! ### Castling -/

/-- The islands in which a castling is staged: the receiving engine and the leg island. DESIGN CHOICE, log entry 13. -/
def castleIslands (toCe : Fin 5) : BitVec 14 := islandBit toCe.val ||| islandBit 6

/-- An island has not acknowledged the castling of a group (R24). -/
def castleUnanswered (s : State) (g : Fin 4) : Bool := s.staged.any fun x => x.change == .castle g && x.waiting != 0

/-- What was staged of the castling of a group goes. -/
def unstageCastle (s : State) (g : Fin 4) : State := { s with staged := s.staged.filter fun x => x.change != .castle g }

/-- A castling of a group that has not committed is dropped; its receiver is the spare again. -/
def dropCastle (s : State) (g : Fin 4) : State :=
  match (s.grp[g]).castle with
  | none => s
  | some x =>
    let s := (unstageCastle s g).updGrp g fun gr => { gr with castle := none }
    s.updCe x.toCe fun c => if c.role = .loading then { c with role := .spare } else c

/-- A planned castling of a group is aborted: CASTLE_ABORT with its reason (R121, R122). -/
def abortCastle (s : State) (g : Fin 4) (reason : Nat) : State :=
  match (s.grp[g]).castle with
  | some x =>
    if x.planned then
      let s := dropCastle s g
      let s := queueEvent s 0x0122 (p1 g.val ++ p1 (match x.fromCe with | some k => k.val | none => 7) ++ p1 x.toCe.val
        ++ p1 reason)
      { s with sys := { s.sys with castleNs := 0 } }
    else s
  | none => s

/-- Every planned castling that has not committed is aborted. -/
def abortPlanned (s : State) (reason : Nat) : State := (List.finRange 4).foldl (fun s g => abortCastle s g reason) s

/-- A castling of a group to an engine is staged in the islands concerned; `acked` where every ACK is known to have
come. -/
def stageCastle (s : State) (g : Fin 4) (fromCe : Option (Fin 5)) (toCe : Fin 5) (planned ready acked : Bool)
    (skipped : Nat) : State :=
  let s := abandonBist s toCe
  let s := s.updGrp g fun gr =>
    { gr with castle := some { fromCe := fromCe, toCe := toCe, planned := planned, began := planned, ready := ready
                               skipped := skipped, waited := false } }
  let s := s.updCe toCe fun c => { c with role := .loading }
  if acked then s else stage s (.castle g) 0 none (castleIslands toCe)

/-- A castling of a group commits (R119 to R121): owner, tag, roles, counters and events. The former owner becomes the
engine without a group; its next logic BIST run follows. -/
def commitCastle (s : State) (g : Fin 4) : State :=
  match (s.grp[g]).castle with
  | none => s
  | some x =>
    let s := (unstageCastle s g).updGrp g fun gr =>
      { gr with castle := none, owner := some x.toCe, gen := gr.gen + 1, skips := 0 }
    let s := s.updCe x.toCe fun c => { c with role := .owner, group := g, cin := satInc 16 c.cin }
    let s := match x.fromCe with
      | some k => s.updCe k fun c => { c with role := .spare, bistAt := 0, cout := satInc 16 c.cout }
      | none => s
    let old := match x.fromCe with | some k => k.val | none => 7
    -- R121: the period starts again after every castling that began as a planned one
    let s := if x.began then { s with sys := { s.sys with castleNs := 0 } } else s
    if x.planned then queueEvent s 0x0121 (p1 g.val ++ p1 old ++ p1 x.toCe.val)
    else
      let s := queueEvent s 0x0120 (p1 g.val ++ p1 old ++ p1 x.toCe.val ++ p4 (min 255 x.skipped))
      { s with sticky := { s.sticky with castu := satInc 8 s.sticky.castu } }

/-- The channels of a group in RUN go to HOLD with cause ISLAND (R40, R41). -/
def holdGroup (s : State) (g : Fin 4) : State :=
  (chansOf g).foldl (fun s c => if (s.ch[c]).st = .run then holdNow s c hcIsland else s) s

/-- A group loses its owner (R40): CE_NOSPARE, what its engine has done since the last verified checkpoint is gone, and
its channels in RUN go to HOLD; the samples skipped so far count on. -/
def loseOwner (s : State) (g : Fin 4) (k : Fin 5) (skipped : Nat) : State :=
  let s := loadGroup (dropCastle s g) g k
  let s := s.updGrp g fun gr => { gr with owner := none, skips := skipped }
  holdGroup (queueEvent s 0x0124 (p1 k.val ++ p1 g.val)) g

/-- The legs of a running channel go on with the reference of the sample before, since that of the present sample has
not been released (R16, R20, R43). -/
def withholdRefs (s : State) (g : Fin 4) : State :=
  (legsOf g).foldl (fun s l =>
    if (s.ch[chanOfLeg l]).st = .run then
      s.updLeg l fun x => if x.parked || x.restart then x else { x with iref := x.last }
    else s) s

/-- Whether the references of the present sample had been released when an engine failed is not an operand: it is a free
value. Where they had not, the sample counts as skipped and the legs keep the references of the sample before
(R16, R43, R120). -/
def missSample (s : State) (g : Fin 4) : Nat × State :=
  let d := drawFree s
  if d.1 % 2 = 0 then (0, d.2) else (1, withholdRefs d.2 g)

/-- A planned castling completes as an unplanned one, from step 4 on (R122). -/
def turnUnplanned (s : State) (g : Fin 4) (skipped : Nat) : State :=
  s.updGrp g fun gr =>
    { gr with castle := gr.castle.map fun x => { x with planned := false, ready := false, skipped := skipped, waited := false } }

/-- The owner of a group has failed: unplanned castling to the spare, or no owner (R40, R120, R122). -/
def unplannedCastle (s : State) (g : Fin 4) (k : Fin 5) : State :=
  match (s.grp[g]).castle with
  | some _ =>
    -- R122: a planned castling that is staged still commits, as an unplanned one
    let d := missSample s g
    turnUnplanned d.2 g d.1
  | none =>
    let s := abortPlanned s 4
    let d := missSample s g
    let s := match receiver s with
      | some r => stageCastle d.2 g (some k) r false false false d.1
      | none => loseOwner d.2 g k d.1
    s.updCe k fun c => { c with role := .spare, bistAt := 0 }

/-- The receiver of a castling has failed (R122): a planned one is aborted; an unplanned one leaves the group without an
owner. A run of the logic BIST of the receiver is due at once. -/
def receiverFails (s : State) (k : Fin 5) : State :=
  let s := s.updCe k fun c => { c with bistAt := 0 }
  (List.finRange 4).foldl (fun s g =>
    match (s.grp[g]).castle with
    | some x =>
      if x.toCe = k then
        if x.planned then abortCastle s g 3 else loseOwner s g (x.fromCe.getD k) x.skipped
      else s
    | none => s) s

/-! ### Faults in overlapping recoveries (R41) -/

/-- An unplanned castling of the group is under way. -/
def recoversGroup (s : State) (g : Fin 4) : Bool :=
  match (s.grp[g]).castle with
  | some x => !x.planned
  | none => false

/-- The groups that a recovery under way concerns: that of each unplanned castling, and all of them while the sequencer
recovers. DEDUCED, log entry 169. -/
def recoveringGroups (s : State) : List (Fin 4) :=
  (List.finRange 4).filter fun g => s.sys.recovering || recoversGroup s g

/-- A fault has met a recovery that ran already: the channels of the islands concerned go to HOLD (R41). -/
def holdRecovering (s : State) : State := (recoveringGroups s).foldl holdGroup s

/-- An owner fails after it has acknowledged a staged change (R26). -/
def markFailed (s : State) (g : Fin 4) (k : Fin 5) : State :=
  { s with staged := s.staged.map fun x =>
      if x.islands.getLsbD k.val && !x.waiting.getLsbD k.val then { x with failed := (g, k) :: x.failed } else x }

/-- The owner of its group, or the receiver of a castling, has failed (R39, R120, R122). -/
def castleFor (s : State) (k : Fin 5) : State :=
  match (s.ce[k]).role with
  | .owner =>
    match ownedGroup s k with
    | some g => unplannedCastle (markFailed s g k) g k
    | none => s
  | .loading => receiverFails s k
  | _ => s

/-- An engine has diverged or lost its PLL: it is no longer qualified, its checkpoint of the epoch will not be
verified, and its group castles; where another recovery runs already, R41 applies (R34, R39, R41, R120, R395). -/
def engineFails (s : State) (k : Fin 5) : State :=
  let busy := !(recoveringGroups s).isEmpty
  let t := castleFor (s.updCe k fun c => { c with qualified := false, diverged := true }) k
  if busy && ((s.ce[k]).role == .owner || (s.ce[k]).role == .loading) then holdRecovering t else t

/-- The lowest-numbered group without an owner that no castling serves is staged for a newly qualified engine (R40). -/
def adoptGroup (s : State) : State :=
  match receiver s, (List.finRange 4).find? fun g => (s.grp[g]).owner == none && (s.grp[g]).castle == none with
  | some r, some g => stageCastle s g none r false true false (s.grp[g]).skips
  | _, _ => s

/-- Retire an engine (R40): kept in NVM; planned castling stops. -/
def retireCe (s : State) (k : Fin 5) : State :=
  let s := s.updCe k fun c => { c with role := .retired, qualified := false }
  let s := queueEvent s 0x0123 (p1 k.val)
  { s with nvm := { s.nvm with ceRetired := putBit s.nvm.ceRetired k.val true }, sys := { s.sys with castleStop := true } }

/-- A castling out of turn of the group of a hot engine becomes due (R279, R287): the receiver has passed its last logic
BIST, and no restart interval runs in the group. Whether the state that the receiver gets has the checksum of the
checkpoint (step 4) is no operand of an evaluation: a free value. -/
def hotCastle (s : State) (k : Fin 5) : State :=
  match ownedGroup s k, receiver s with
  | some g, some r =>
    if (s.grp[g]).castle ≠ none ∨ (s.grp[g]).restart ≠ none ∨ (s.ce[r]).bist ≠ 1
        ∨ (s.ce[r]).role = .bist then s
    else
      let d := drawFree s
      let s := stageCastle d.2 g (some k) r true true false 0
      if d.1 % 2 = 1 then abortCastle s g 1 else s
  | _, _ => s

/-- A castling out of turn waits for the end of a restart interval in its group: a planned one that is due meanwhile is
not made (R287). -/
def hotWaits (s : State) : Bool :=
  anyI 5 fun k =>
    (s.therm.die[k.val]'(by omega)).level == 2 &&
      match ownedGroup s k with
      | some g => (s.grp[g]).restart.isSome && (s.grp[g]).castle.isNone
      | none => false

end Sys2Proof.Machine
end

