-- ==== Sys2Proof/Machine/SafetyOps.lean ====
section
/-! DEFINITION. The safety island's shared operations: change log, session, demands and stop categories, safe outputs,
protection latches, and the conditions of the acknowledged reset (R228 to R263). -/
namespace Sys2Proof.Machine

/-! ### Change log (R262) -/

/-- The entries that the change log holds. -/
def changeLogSize : Nat := 256

/-- The 32 bytes of a change-log entry. -/
def changeEntry (seq tbase slot kind param : Nat) (old new : Word) (commit : Nat) : List Byte :=
  let b := toLE 4 seq ++ toLE 8 tbase ++ toLE 1 slot ++ toLE 1 kind ++ toLE 2 param ++ wordBytes old ++ wordBytes new
    ++ toLE 4 commit
  b ++ wordBytes (crc32c b)

/-- Write a change-log entry; a full log overwrites its oldest entry. -/
def logChange (s : State) (slot kind param : Nat) (old new : Word) (commit : Nat) : State :=
  let s := timePasses s
  let e := changeEntry s.nvm.logSeq s.sys.tbase slot kind param old new commit
  let l := s.nvm.changeLog ++ [e]
  { s with nvm := { s.nvm with changeLog := l.drop (l.length - changeLogSize), logSeq := (s.nvm.logSeq + 1) % 2 ^ 32 } }

/-- The slot of the open session, or 0xFF (R262). -/
def sessionSlot (s : State) : Nat := if s.safe.sessOpen then s.safe.slot.val else 0xFF

/-- The entry at a sequence number; an overwritten one has KIND 0. -/
def changeAt (s : State) (seq : Nat) : List Byte :=
  let first := s.nvm.logSeq - s.nvm.changeLog.length
  if first ≤ seq then s.nvm.changeLog.getD (seq - first) [] else changeEntry seq 0 0 0 0 0 0 0

/-! ### Safety configuration (R258, R259, R263) -/

/-- The registers of the safety configuration with the PARAM of their change-log entries. -/
def SafeCfg.regs (c : SafeCfg) : List (Nat × Word) :=
  ((List.finRange 4).map fun i => (0x10 + 4 * i.val, c.incfg[i])) ++ [(0x24, c.socfg), (0x28, c.gcfg)]
    ++ ((List.finRange 16).flatMap fun n => [(0x100 + 8 * n.val, c.cpv[n]), (0x104 + 8 * n.val, c.cpi[n])])
    ++ [(0x8160, c.hauth.zeroExtend 32)]

/-- SAFE_CRC of a configuration (R259). -/
def SafeCfg.crc (c : SafeCfg) : Word := Config.safeCrc (c.regs.map (·.2))

/-- SAFE_SESS.DIRTY: written values differ from those in force. -/
def sessionDirty (s : State) : Bool := s.safe.sessOpen && s.safe.sess != s.safe.act

/-- Close the session: uncommitted values are discarded, SESSION_CLOSE and the change-log entry (R261). -/
def closeSession (s : State) (reason : Nat) : State :=
  if s.safe.sessOpen then
    let s := logChange s s.safe.slot.val 10 0 0 0 0
    let s := queueEvent s 0x060A (p1 s.safe.slot.val ++ p1 reason)
    { s with safe := { s.safe with sessOpen := false, defaultSess := false, sess := s.safe.act, slot := 0 } }
  else s

/-- A session command or a SAFE write restarts the session timeout (R261). -/
def touchSession (s : State) : State :=
  let s := timePasses s
  { s with safe := { s.safe with lastCmd := s.sys.tbase } }

/-- SAFE_SESS.TLEFT: minutes to the timeout, rounded up. -/
def sessionLeft (s : State) : Nat :=
  if s.safe.sessOpen then
    let limit := bits s.safe.act.gcfg 8 8 * 60000000000
    let used := s.sys.tbase - s.safe.lastCmd
    (limit - used + 59999999999) / 60000000000
  else 0

/-! ### Stop inputs and demands (R231 to R235) -/

/-- EN of an input. -/
def inputEnabled (s : State) (i : Fin 4) : Bool := (s.safe.act.incfg[i]).getLsbD 0

/-- Both filtered channels of an input are high. -/
def inputHealthy (s : State) (i : Fin 4) : Bool := s.safe.filt.getLsbD (2 * i.val) && s.safe.filt.getLsbD (2 * i.val + 1)

/-- The input demands: enabled and not healthy (R231, R234). -/
def inputDemands (s : State) (i : Fin 4) : Bool := inputEnabled s i && !inputHealthy s i

/-- A fault of a safe output is latched (R241 to R243). -/
def outputFault (s : State) : Bool := s.safe.soTest != 0 || s.safe.soOvl != 0 || s.safe.sofbF != 0

/-- A safety demand is active (R234, R235, R251). -/
def demandActive (s : State) : Bool :=
  anyI 4 (inputDemands s) || s.safe.disc != 0 || outputFault s || s.safe.refl || s.safe.rcf || s.safe.cfgBad || s.safe.gdis

/-- SAFE_N is asserted (R245). -/
def safeNAsserted (s : State) : Bool :=
  s.sys.phase != .running || s.sys.mode = .safe || s.sys.mode = .dormant || s.sys.mode = .boot || demandActive s
    || s.safe.restarting

/-! ### Safe outputs (R240 to R243, R412) -/

/-- An output may be on in this mode, without a category 0 action. -/
def outputsPermitted (s : State) : Bool :=
  s.sys.phase = .running &&
    match s.sys.mode with
    | .configure | .idle | .form | .direct | .service => true
    | _ => false

/-- SOxEN. -/
def outputEnabled (s : State) (i : Fin 2) : Bool := s.safe.act.socfg.getLsbD i.val

/-- FBENx. -/
def feedbackEnabled (s : State) (i : Fin 2) : Bool := s.safe.act.socfg.getLsbD (2 + i.val)

/-- Set the safe outputs. A feedback fault clears once SOFBx shows the state that matches its output (R243). -/
def setOutputs (s : State) (on : BitVec 2) : State :=
  { s with safe := { s.safe with soOn := on, sofbF := s.safe.sofbF &&& ~~~(s.safe.sofb ^^^ on) } }

/-- Switch on the outputs that may be on, and off those that are not used (R240, R243, R412). -/
def refreshOutputs (s : State) : State :=
  let on : BitVec 2 := maskOf 2 fun i =>
    outputEnabled s i && (s.safe.soOn.getLsbD i.val ||
      (outputsPermitted s && !(feedbackEnabled s i && !s.safe.sofb.getLsbD i.val) && !s.aux.vsouv
        && !outputFault s))
  setOutputs s on

/-! ### Stop categories (R236 to R239) -/

/-- The program of a channel ends with reason SAFETY. -/
def safetyEnd (s : State) (c : Fin 16) : State := abortProgram s c 0x30

/-- Category 0 on one channel: forced opening, also of an opening that still runs. -/
def category0Channel (s : State) (c : Fin 16) : State :=
  if (s.ch[c]).st.live then forceOffChannel (safetyEnd s c) c
  else if (s.ch[c]).opening ≠ .none then openChannel s c Chan.forceOpen
  else s

/-- Category 0: gate-disable lines asserted, safe outputs off, forced opening of every channel (R236). -/
def category0 (s : State) : State :=
  let s := channels.foldl category0Channel s
  let s := (List.finRange 4).foldl (fun s g => s.updGrp g fun gr => { gr with gateDis := true }) s
  setOutputs { s with safe := { s.safe with timer := false, standstill := false } } 0

/-- Category 1 on one channel: orderly opening. -/
def category1Channel (s : State) (c : Fin 16) : State :=
  if (s.ch[c]).st.live then offChannel (safetyEnd s c) c else s

/-- Category 1: orderly opening of every channel and the timer (R237). -/
def category1 (s : State) : State :=
  let s := channels.foldl category1Channel s
  { s with safe := { s.safe with timer := true, standstill := false } }

/-- Category 2 on one channel: HOLD with cause SAFETY2, the current to zero at CHn_STOPR.RATE; CHECK and ARMED as
category 1 (R238, R239). -/
def category2Channel (s : State) (c : Fin 16) : State :=
  match (s.ch[c]).st with
  | .check | .armed => offChannel (abortProgram s c 0x31) c
  | .run =>
    (members s c).foldl (fun s d => s.updCh d fun ch => { ch with slow := ch.gates }) (holdNow (leaveRestart s c) c hcSafety2)
  | .hold => addCause (leaveRestart s c) (leaderOf s c) hcSafety2
  | _ => s

/-- Category 2: every running channel to HOLD, and the standstill monitor (R238). -/
def category2 (s : State) : State :=
  let s := channels.foldl category2Channel s
  { s with safe := { s.safe with standstill := true } }

/-- The actions of a category. -/
def categoryActions (s : State) (cat : Nat) : State :=
  match cat with
  | 0 => category0 s
  | 1 => category1 s
  | _ => category2 s

/-! ### Conditions of the acknowledged reset (R246) -/

/-- The safety island runs: from step 6 of BOOT on, and not in DORMANT, PARK or a stop (R214, R224). -/
def safetyRuns (s : State) : Bool :=
  match s.sys.phase with
  | .running | .halted | .testAccess => true
  | .booting => decide (6 ≤ s.sys.bootStep)
  | _ => false

/-- The conditions that are not met, as a mask. -/
def ackUnmet (s : State) : Nat :=
  (maskOf 8 fun i =>
    match i.val with
    | 0 => decide (s.sys.mode ≠ .safe)
    | 1 => anyI 4 (inputDemands s)
    | 2 => s.safe.disc != 0
    | 3 => outputFault s || anyI 2 fun k => feedbackEnabled s k && !s.safe.sofb.getLsbD k.val
    | 4 => s.safe.gdis || anyI 4 fun g => (s.grp[g]).gdisFault
    | 5 => s.safe.refl || s.safe.rcf
    | 6 => s.safe.cfgBad
    | _ => s.safe.timer).toNat

/-! ### Cell protection (R247 to R250) -/

/-- The shunt voltage of a channel in nV, from its current and shunt value. -/
def shuntNv (ch : Chan) : Int := divRound (ch.iP * ch.rsh.toNat) 100000000

/-- The quantity that a comparator compares lies beyond its limit (R247, R249). -/
def beyondLimit (s : State) (c : Fin 16) (k : CpKind) : Bool :=
  let v := s.safe.act.cpv[c]
  let i := s.safe.act.cpi[c]
  let ch := s.ch[c]
  let th := s.therm.inp[c.val]'(by omega)
  match k with
  | .ov => decide ((bits v 16 16 : Int) * 1000 < ch.vS)
  | .uv => bits v 0 16 != 0 && decide (ch.vS < (bits v 0 16 : Int) * 1000)
  | .oc => decide ((bits i 12 10 : Int) * 250000 < (shuntNv ch).natAbs)
  | .ot => i.getLsbD 11 && (th.broken || decide ((bits i 0 11 : Int) * 100 < th.temp))

/-- The bit of a kind in SAFE_CPLATx, and its code in CP_TRIP. -/
def cpCode : CpKind → Nat
  | .ov => 0 | .uv => 1 | .oc => 2 | .ot => 3

/-- The channel has a protection latch (R249). -/
def cpLatched (s : State) (c : Fin 16) : Bool := s.sticky.cplat[c] != 0 || s.sticky.cpdiag.getLsbD c.val

/-- The latch of a channel cannot be cleared (R249). -/
def latchStays (s : State) (c : Fin 16) : Bool :=
  let l := s.sticky.cplat[c]
  (l.getLsbD 0 && beyondLimit s c .ov) || (l.getLsbD 1 && beyondLimit s c .uv) || (l.getLsbD 2 && beyondLimit s c .oc)
    || (l.getLsbD 3 && beyondLimit s c .ot) || (s.sticky.cpdiag.getLsbD c.val && !s.safe.diagRun.getLsbD c.val)

/-- The selected channels whose latch cannot be cleared. -/
def latchesStay (s : State) (m : Mask) : Mask := maskOf 16 fun c => m.getLsbD c.val && latchStays s c

/-- Clear the latches of the selected channels. -/
def clearLatches (s : State) (m : Mask) : State :=
  { s with sticky := { s.sticky with cplat := vmapI s.sticky.cplat fun c l => if m.getLsbD c.val then 0 else l,
                                     cpdiag := s.sticky.cpdiag &&& ~~~m } }

/-- A protection trip acts as a category 0 stop on every member of the gang (R248). -/
def protectionTrip (s : State) (c : Fin 16) (code : Nat) : State :=
  let s := queueEvent s 0x0606 (p1 c.val ++ p1 code)
  (members s c).foldl category0Channel s

end Sys2Proof.Machine
end

