-- ==== Sys2Proof/Machine/ModeOps.lean ====
section
/-! DEFINITION. What a mode change does when it commits: the actions of the channels, the mode in force, and the
acknowledged reset of SAFE (R26, R73, R111, R207, R210 to R213, R246). -/
namespace Sys2Proof.Machine

/-! ### Channel actions at a commit (R111, R210, R211) -/

/-- The program of a channel pauses as the device leaves FORM: a program in HAND gives up the source HAND. -/
def pauseProgram (s : State) (c : Fin 16) : State :=
  let p := (s.ch[c]).prog.pstate
  if p = .run ∨ p = .hold ∨ p = .hand then
    let s := formRecord s c 0x0A (plainFlags s) (progPayload s.ch[c] 3 0)
    let s := s.updProg c fun p => { p with pstate := .pause }
    if p = .hand then
      let s := changeSource s c .auto
      if (s.ch[c]).prog.started then setStepTargets s c else s
    else s
  else s

/-- One channel goes to ARMED with its current to zero. -/
def disarmChannel (s : State) (c : Fin 16) : State :=
  let s := moveChannel (abortMeas s c) c .armed
  openChannel s c fun ch => loopIdle ch.rampDown

/-- The engine of a group has failed after acknowledging the change, and its castling has not committed (R26, R211). -/
def partialCe (s : State) (x : Staged) (g : Fin 4) : Option (Fin 5) :=
  match x.failed.find? fun f => f.1 == g with
  | some f => if (s.grp[g]).castle ≠ none ∨ (s.grp[g]).owner = none then some f.2 else none
  | none => none

/-- A leader and its members leave RUN and HOLD for IDLE. -/
def idleChannel (s : State) (x : Staged) (c : Fin 16) : State :=
  let bound := (s.ch[c]).bound
  let stays := bound || (partialCe s x (groupOf c)).isSome
  let s := if bound then pauseProgram s c else s
  (members s c).foldl (fun s d => if stays then disarmChannel s d else offChannel s d) s

/-- The action of a leader at a commit (R210). A channel of a group without an owner, for which no engine can refuse,
takes a state that the new mode permits (R73, R209). DEDUCED, log entry 175. -/
def channelAction (old new : Mode) (x : Staged) (s : State) (c : Fin 16) : State :=
  let st := (s.ch[c]).st
  let moves :=
    if old = .form ∨ old = .direct then st = .armed ∨ st = .run ∨ st = .hold else old = .safe ∧ st = .hold
  let sleeps := new = .configure ∨ new = .service ∨ new = .dormant
  if isFollower s c then s
  else if new = .idle ∧ moves then idleChannel s x c
  else if sleeps ∧ st.live ∧ (s.grp[groupOf c]).owner = none then
    (members s c).foldl (fun s d => if (s.ch[d]).st.live then offChannel s d else s) s
  else s

/-- The source of a channel in a mode (R111). -/
def sourceIn (ch : Chan) (old new : Mode) : Src :=
  match new with
  | .direct => .direct
  | .form => if ch.bound then (if ch.prog.pstate = .hand then .hand else .auto) else .hand
  | _ => if old = .direct then .auto else ch.src

/-- Every channel takes the source of the mode; a follower takes it without an event. -/
def takeSource (old new : Mode) (s : State) (c : Fin 16) : State :=
  let n := sourceIn s.ch[c] old new
  if isFollower s c then s.updCh c fun ch => { ch with src := n } else changeSource s c n

/-- MODE_PARTIAL for each group whose engine failed meanwhile; with a target other than IDLE its running channels go to
HOLD (R26, R211). -/
def partialGroup (target : Mode) (x : Staged) (s : State) (g : Fin 4) : State :=
  match partialCe s x g with
  | none => s
  | some k =>
    holdGroup (queueEvent s 0x0144 (p1 k.val ++ p1 target.code)) g

/-- The channels take the action of the change. -/
def channelActions (s : State) (x : Staged) (target : Mode) : State :=
  let old := s.sys.mode
  let s := channels.foldl leaveRestart s
  let s := channels.foldl (channelAction old target x) s
  let s := channels.foldl (takeSource old target) s
  (List.finRange 4).foldl (partialGroup target x) s

/-- The channels of each engine that has failed after it acknowledged a change go to HOLD (R26). -/
def holdFailed (s : State) (x : Staged) : State :=
  (List.finRange 4).foldl (fun s g => if (partialCe s x g).isSome then holdGroup s g else s) s

/-- What is staged of a lane goes. -/
def unstageLane (s : State) (k : Fin 4) : State := { s with staged := s.staged.filter fun x => x.change != .lane k }

/-- What a lane does after its slot: nothing, or it is retired (R142). -/
def idleLane (s : State) (j : Fin 4) : Lane := { st := if s.nvm.laneRetired.getLsbD j.val then 3 else 0, pos := 0 }

/-- The unit that serves a position outside its calibration: the lane that serves it permanently, or its converter. -/
def unitOf (s : State) (q : Fin 32) : Fin 36 :=
  match (List.finRange 4).find? fun j => (s.meas.lanes[j]).st == 2 && (s.meas.lanes[j]).pos == q with
  | some j => ⟨32 + j.val, by omega⟩
  | none => ⟨q.val, by omega⟩

/-- The slot of a lane ends with the position back at its unit at once, without a blend. -/
def dropSlot (s : State) (j : Fin 4) : State :=
  let x := s.meas.lanes[j]
  let s := unstageLane s j
  let m := { s.meas with work := s.meas.work.set j.val none j.isLt }
  if x.st = 1 then
    { s with meas := { m with lanes := m.lanes.set j.val (idleLane s j) j.isLt, blends := m.blends.set x.pos.val [] x.pos.isLt } }
  else { s with meas := m }

/-- The slot of a lane is abandoned: its position returns at once, to the coefficients from before the slot (R149). -/
def abandonLane (s : State) (j : Fin 4) : State :=
  match s.meas.work[j] with
  | none => s
  | some w =>
    let u := unitOf s w.pos
    let s := if w.phase = 4 ∨ w.phase = 5 ∨ w.phase = 6 ∨ w.phase = 8 then
        { s with meas := { s.meas with coef := s.meas.coef.set u.val w.old u.isLt } }
      else s
    dropSlot s j

/-- The slots in progress are abandoned (R149). -/
def abandonSlot (s : State) : State := (List.finRange 4).foldl abandonLane s

/-! ### Commit (R207, R212, R246) -/

/-- The mode in force changes: PREV, MODE_CHANGE, session, safe outputs; SETL stands until every sequence that a
commit has started has ended (R212, R240, R261). -/
def changeMode (s : State) (x : Staged) (target : Mode) : State :=
  let old := s.sys.mode
  let before := s.ch
  let s := queueEvent s 0x0142 (p1 old.code ++ p1 target.code)
  let s := channelActions s x target
  let moved : Mask := maskOf 16 fun c => (s.ch[c]).opening != .none && (s.ch[c]).opening != (before[c]).opening
  let s := { s with sys := { s.sys with mode := target, prev := old, setl := s.sys.setl ||| moved } }
  let s := if target = .service then s else closeSession s 3
  let s := if target = .service then abandonSlot s else s
  refreshOutputs s

/-- The acknowledged reset clears the SAFE latch and releases the gates, with SAFE_RESET and a change-log entry with the
conditions met (R246, R262). -/
def resetSafe (s : State) (target : Mode) : State :=
  let met : Word := ~~~(BitVec.ofNat 32 (ackUnmet s)) &&& 0xFF
  let s := queueEvent s 0x0607 (p1 target.code)
  let s := logChange s (sessionSlot s) 6 0 0 met 0
  { s with
    sticky := { s.sticky with safeLatch := false }
    nvm := { s.nvm with latCopy := false }
    safe := { s.safe with cat := 3, standstill := false }
    grp := vmap s.grp fun g => { g with gateDis := g.gdisFault } }

/-- The payload of a refused SAFE_ACK (R329). -/
def ackPayload (unmet : Nat) (stay : Mask) : List Byte := toLE 2 unmet ++ maskBytes stay

/-- An acknowledged mode change applies. That of a SAFE_ACK with DEVICE clears the SAFE latch and the protection
latches of its mask, all or nothing; one into BOOT starts a soft reset (R207 rows 17 and 18, R246, R249). -/
def applyMode (s : State) (x : Staged) (target : Mode) (fromSafe : Bool) (mask : Mask) : State :=
  let answer (s : State) (st : Byte) (p : List Byte) : State :=
    match x.tag with | some t => reply s t x.opc st p | none => s
  let stay := latchesStay s mask
  if fromSafe = false then answer (changeMode s x target) stOk []
  else if stay ≠ 0 then answer s stSafetyDenied (ackPayload 0 stay)
  else
    let s := resetSafe (clearLatches s mask) target
    if target = .boot then
      let s := closeSession (answer s stOk (toLE 4 0)) 3
      { s with sys := { s.sys with due := .soft, dueLeft := s.port.replies.length } }
    else answer (changeMode s x target) stOk (toLE 4 0)

end Sys2Proof.Machine
end

