-- ==== Sys2Proof/Machine/Demands.lean ====
section
/-! DEFINITION. Safety demands, with what they abort, NVM operations, everything off, and the safety configuration that
comes into force (R30, R207 row 16, R213, R219, R221, R235, R259, R462). -/
namespace Sys2Proof.Machine

/-! ### Aborting staged changes (R30, R213, R253, R459) -/

/-- The 16 result bytes of a channel-mask command (R313). -/
def maskResults (m : Mask) (st : Byte) : List Byte := channels.map fun c => if m.getLsbD c.val then st else 0xFF

/-- The mask of a staged channel-mask command. -/
def Change.mask? : Change → Option Mask
  | .arm m | .stop m | .hold m | .resume m | .clear m | .start m | .abort m => some m
  | .hand m _ => some m
  | _ => none

/-- One staged change is aborted and its command completes. -/
def abortOne (s : State) (x : Staged) : State :=
  match x.change with
  | .mode target _ _ fromSafe _ =>
    if fromSafe then
      match x.tag with
      | some t => reply s t x.opc stSafetyDenied (toLE 4 (ackUnmet s))
      | none => s
    else
      let s := { s with sys := { s.sys with refusers := islandBit 8 } }
      let s := queueEvent s 0x0143 (p1 target.code ++ p2 (islandBit 8).toNat)
      match x.tag with
      | some t => reply s t x.opc stModeRefused (toLE 2 (islandBit 8).toNat)
      | none => s
  | ch =>
    match x.tag with
    | some t => reply s t x.opc stAborted (match ch.mask? with | some m => maskResults m stAborted | none => [])
    | none => s

/-- An unplanned castling that SAFE has aborted is staged again by the spare (R122). -/
def restageCastle (s : State) (g : Fin 4) : State :=
  match (s.grp[g]).castle with
  | some x => if x.planned then s else stage s (.castle g) 0 none (castleIslands x.toCe)
  | none => s

/-- The substitution or the return of a lane that was aborted is staged again: its slot continues (R149). -/
def restageLane (old : List Staged) (s : State) (j : Fin 4) : State :=
  match old.find? fun x => x.change == .lane j with
  | some x => stage s (.lane j) x.opc x.tag x.islands
  | none => s

/-- Every uncommitted change is aborted in every island without trace (R30), planned castling with it. An unplanned
castling is staged again by the spare, and so is the change of a lane, whose slot continues (R122, R149). -/
def abortStaged (s : State) : State :=
  let old := s.staged
  let s := abortPlanned (old.foldl abortOne { s with staged := [], sys := { s.sys with wakePend := none } }) 5
  (List.finRange 4).foldl (restageLane old) ((List.finRange 4).foldl restageCastle s)

/-! ### Demands (R30, R207 row 16, R219, R235) -/

/-- Enter SAFE with the SAFE latch set. -/
def enterSafe (s : State) : State :=
  { s with
    sys := { s.sys with mode := .safe, safeFrom := s.sys.mode, prev := s.sys.mode }
    safe := { s.safe with cause := 0, cat := 3 }
    sticky := { s.sticky with safeLatch := true } }

/-- The expected count of the leg island test. -/
def legChecks : Nat := 98

/-- A leg island test that runs ends: TEST_RUN completes with ABORTED and the result is INCOMPLETE (R407). How many
checks were made is a free value. -/
def abortLegTest (s : State) : State :=
  match s.isl.testTag with
  | none => s
  | some t =>
    let d := drawFree s
    let s := { d.2 with isl := { d.2.isl with testTag := none } }
    let s := testDone (recordTest s 5 s.isl.testArg 3 ((d.1 % legChecks).toNat) legChecks) 5 3
    reply s t 0x90 stAborted []

/-- The mode change, other than that of a SAFE_ACK, that every island has acknowledged: it is committed, before its
boundary (R213). DEDUCED, log entry 174. -/
def committedMode (s : State) : Option (Staged × Mode) :=
  if s.sys.recovering then none
  else s.staged.findSome? fun x =>
    match x.change with
    | .mode target _ _ false _ => if x.waiting = 0 ∧ x.refused = 0 then some (x, target) else none
    | _ => none

/-- The entry into DORMANT is committed: it completes, and a demand is evaluated at the next BOOT (R213). -/
def dormantCommitted (s : State) : Bool :=
  match committedMode s with
  | some (_, .dormant) => true
  | _ => false

/-- A committed mode change applies before the safety reaction (R213). -/
def applyCommitted (s : State) : State :=
  match committedMode s with
  | some (x, target) => applyMode { s with staged := s.staged.filter fun y => !y.change.isMode } x target false 0
  | none => s

/-- A demand with its cause bit and category; during a restart of the safety island it is served as category 0 (R230).
Outside the running modes it is evaluated when BOOT ends. -/
def demand (s : State) (cause cat : Nat) : State :=
  if s.sys.phase ≠ .running ∨ s.sys.mode = .dormant ∨ dormantCommitted s then s
  else
    let s := applyCommitted s
    let cat := if s.safe.restarting then 0 else cat
    let s := if s.sys.mode = .safe then s else enterSafe s
    let now := s.safe.cat.toNat
    let s := { s with safe := { s.safe with cause := putBit s.safe.cause cause true,
                                            cat := BitVec.ofNat 2 (min now cat) } }
    let s := queueEvent s 0x0601 (p1 cause ++ p1 cat)
    let s := abortLegTest (abortStaged s)
    if cat ≤ now then categoryActions s cat else s

/-- A reaction in progress escalates to category 0 without a new demand (R230, R238). -/
def escalate (s : State) : State := category0 { s with safe := { s.safe with cat := 0 } }

/-! ### NVM operations -/

/-- An NVM operation runs; one runs at a time (R462). Log entry 23. -/
def nvmBusy (s : State) : Bool := s.isl.nvmOp != .none

/-- One of the NVM operations that R462 names and that a command has started runs. -/
def storeBusy (s : State) : Bool :=
  match s.isl.nvmOp with
  | .cfgSave _ | .book _ _ | .safe _ => true
  | _ => false

/-- The least time between the starts of two page operations, in ns (R367). -/
def pageSpacing : Nat := 10000000000

/-- A page operation of the refresh runs (R367). One that has ended is followed by the next no earlier than 10 s after
its own start, and not while another NVM operation runs; whether it has started by now is a free value. -/
def pageRuns (s : State) : Bool × State :=
  if s.isl.refreshing = false then (false, s)
  else if s.isl.pageOp then (true, s)
  else if nvmBusy s ∨ s.sys.running = false ∨ s.sys.tbase < s.isl.pageAt then (false, s)
  else
    let d := drawFree s
    if d.1 % 2 = 1 then (true, { d.2 with isl := { d.2.isl with pageOp := true, pageAt := s.sys.tbase } }) else (false, d.2)

/-- NVM_FAIL of an area; whether programming or verifying failed is not an operand of the event, and is a free value. -/
def nvmFail (s : State) (area : Nat) : State :=
  let d := drawFree s
  queueEvent d.2 0x0906 (p1 area ++ p1 (1 + (d.1 % 2).toNat))

/-- The mappings in force: of the repairs of one row, the last. -/
def inForce : List RowFix → List RowFix
  | [] => []
  | x :: r => if r.any fun y => y.row == x.row then inForce r else x :: inForce r

/-- The soft repairs in force: the rows mapped by the last boot or since, that the fuse map does not hold, in the
order in which the repairs were made (R391). -/
def softRepairs (s : State) : List RowFix := (inForce s.isl.rows).filter fun x => !x.fused

/-- The entries of the fuse map (R391). -/
def fuseMapSize : Nat := 32

/-- The fuse-map entry of a repair, and whether its check code is right. -/
def RowFix.entry (x : RowFix) (good : Bool) : Nat × Nat × Bool := (x.row, x.spare, good)

/-- The first n soft repairs have been entered into the fuse map: they count as fused (R390, R391). -/
def fuseRows (s : State) (n : Nat) : State :=
  let l := (softRepairs s).take (min n (fuseMapSize - s.nvm.fuses.length))
  { s with
    nvm := { s.nvm with fuses := s.nvm.fuses ++ l.map fun x => x.entry true }
    isl := { s.isl with rows := s.isl.rows.map fun x => if l.contains x then { x with fused := true } else x } }

/-- The entry of the next soft repair was begun and not completed: it takes a place, and its check fails (R391). -/
def spoilEntry (s : State) : State :=
  match softRepairs s with
  | x :: _ =>
    if s.nvm.fuses.length < fuseMapSize then { s with nvm := { s.nvm with fuses := s.nvm.fuses ++ [x.entry false] } } else s
  | [] => s

/-- An NVM operation ends as a power loss ends it: of a fusing the entries completed stay, and the one that was being
written fails its check; how many those are, and whether one was being written, are free values (R391, R407). Of a book
commit the previous version stays, which the next BOOT reports (R162, R462). -/
def cutStore (s : State) : State :=
  match s.isl.nvmOp with
  | .fuse =>
    let d := drawFree s
    let w := drawFree (fuseRows d.2 (d.1 % ((softRepairs s).length + 1 : Nat)).toNat)
    if w.1 % 2 = 1 then spoilEntry w.2 else w.2
  | .book k _ => { s with nvm := { s.nvm with bookCut := some k } }
  | _ => s

/-! ### Everything off (R221, R281, R418, R420, R426, R462) -/

/-- Everything off: forced opening of every channel, and safe outputs off. -/
def everythingOff (s : State) : State :=
  let s := channels.foldl (fun s c => s.updCh c fun ch => { ch.forceOpen with checking := false }) s
  setOutputs { s with safe := { s.safe with timer := false, standstill := false } } 0

/-- Everything off, with every island except the always-on island held in reset: the epochs and the host port stop, what
is staged, queued or due after a reply is lost, and an NVM operation ends as a power loss ends it (R307, R462). -/
def holdIslands (s : State) (ph : Phase) : State :=
  let s := cutStore (everythingOff s)
  { s with
    sys := { s.sys with phase := ph, running := false, setl := 0, due := .none, dueNs := 0 }
    port := { HostPort.reset with vio := s.port.vio }
    isl := { s.isl with nvmOp := .none, opTag := none }
    staged := [], recs := [] }

/-! ### Applying a committed configuration (R259, R260) -/

/-- Put the committed configuration in force: a CFG demand ends, and an input that now demands does so. -/
def applySafeCfg (s : State) : State :=
  match s.nvm.safe with
  | none => s
  | some cfg =>
    let before := maskOf 4 fun i => inputDemands s i
    let s := { s with safe := { s.safe with act := cfg, applyAt := false, cfgBad := false } }
    let s := refreshOutputs s
    (List.finRange 4).foldl (fun s i =>
      if inputDemands s i && !before.getLsbD i.val then demand s i.val (bits s.safe.act.incfg[i] 2 2) else s) s

end Sys2Proof.Machine
end

