-- ==== Sys2Proof/WellFormed.lean ====
section
/-! DEFINITION. Commands whose variable parts have the length their layout gives. -/
namespace Sys2Proof

/-- A list of bytes has a length in a range. -/
def lengthIn {α : Type} (lo hi : Nat) (l : List α) : Bool := decide (lo ≤ l.length ∧ l.length ≤ hi)

/-- The command is one that the layouts of Command set and of the tables of events allow. -/
def Instr.wellFormed : Instr → Bool
  | .echo d => lengthIn 0 4096 d
  | .regWriteMulti ps => lengthIn 1 256 ps
  | .bookHdr h => lengthIn 32 32 h
  | .bookSteps _ n r => decide (1 ≤ n.toNat ∧ n.toNat ≤ 63) && decide (r.length = 64 * n.toNat)
  | .logMark _ d => lengthIn 12 12 d
  | .safeLogin _ p => lengthIn 32 32 p
  | .safePasswd _ _ m => lengthIn 20 20 m
  | .safeKey k => lengthIn 32 32 k
  | .checkDone _ m => lengthIn 1 4 m
  | .crossbarTransfer _ _ _ a => lengthIn 1 4 a
  | .currentReference _ leg _ _ => decide (leg.toNat < 32)
  | .thRefresh _ x => decide (x ≤ 157286)
  | .canFrameReceived f => decide (f.data.length ≤ 64)
  | .timeReferenceMessage f => decide (f.data.length ≤ 64)
  | _ => true

end Sys2Proof
end

