-- ==== Sys2Proof/Machine/Book.lean ====
section
/-! DEFINITION. Family book: the checks of a commit and the book commands (R160 to R169, R324, R325). -/
namespace Sys2Proof.Machine

/-! ### Checks at commit (R161) -/

/-- NSTEP as a number and the staged steps that it names. -/
def stagedRecipe (s : State) : Recipe :=
  { header := s.isl.stageHdr, steps := s.isl.stageSteps.toList.take (hdrNstep s.isl.stageHdr) }

/-- Check 1; the reserved bits 7:2 of HFLAGS are taken as a reserved header byte. DESIGN CHOICE, log entry 212. -/
def check1 (h : List Byte) : Bool :=
  decide (hdrNstep h ≤ 128) && decide (hdrHlo h ≤ 3452) && (slice h 24 4).all (· == 0) && byteAt h 13 &&& 0xFC == 0

/-- Check 2. -/
def check2 (h : List Byte) : Bool :=
  !hdrWinen h || (decide (hdrBound h 2 ≤ hdrBound h 0) && decide (hdrBound h 0 < hdrBound h 1)
    && decide (hdrBound h 1 ≤ hdrBound h 3) && decide (1 ≤ hdrRfac h ∧ hdrRfac h ≤ 100))

/-- A step without samples: LOOP, GOTO or END. -/
def controlStep (r : List Byte) : Bool := stType r == 0x0B || stType r == 0x0C || stType r == 0x0D

/-- Check 3. -/
def check3 (r : List Byte) : Bool := decide (1 ≤ stType r ∧ stType r ≤ 0x0D) && byteAt r 1 &&& 0xF0 == 0

/-- A next-step byte of step i of n is valid (R165). -/
def nextValid (n i b : Nat) : Bool := decide (b < n) || b == 0xFE || (b == 0xFD && decide (i + 1 < n))

/-- The target of LOOP and GOTO. -/
def stTarget (r : List Byte) : Nat := (byteAt r 4).toNat

/-- Check 4 of step i. -/
def check4 (n i : Nat) (r : List Byte) : Bool :=
  if stType r = 0x0D then true
  else if controlStep r then decide (stTarget r < n)
  else nextValid n i (stSnext r) && nextValid n i (stDnext r)
    && [0, 1, 2, 3].all fun k => cdKind (stCond r k) == 0 || nextValid n i (cdNext (stCond r k))

/-- The range of a signed field. -/
def within (lo hi v : Int) : Bool := decide (lo ≤ v ∧ v ≤ hi)

/-- A current target in its range (R166). -/
def currentOk (v : Int) : Bool := within (-320000000) 320000000 v

/-- A voltage target in its range (R166). -/
def voltageOk (v : Int) : Bool := within 0 5500000 v

/-- IRAMP in its range. -/
def irampOk (r : List Byte) : Bool := decide (stIramp r ≤ 1000000)

/-- VRAMP in its range. -/
def vrampOk (r : List Byte) : Bool := decide (stVramp r ≤ 10000000)

/-- The amplitude of an EIS step is in its range (R181). -/
def eisAmpOk (r : List Byte) : Bool :=
  let a := stPtN r % 2 ^ 31
  if 2 ^ 31 ≤ stPtN r then decide (1000 ≤ a ∧ a ≤ 320000000) else stIt r != 0 && decide (10 ≤ a ∧ a ≤ 1000)

/-- The fields of a step by its type (R166). -/
def fieldsOk (r : List Byte) : Bool :=
  let pt0 := stPt r == 0
  let vr0 := stVramp r == 0
  match stType r with
  | 0x01 => decide (0 < stIt r) && currentOk (stIt r) && voltageOk (stVt r) && pt0 && irampOk r && vr0
  | 0x02 => decide (0 < stIt r) && currentOk (stIt r) && voltageOk (stVt r) && pt0 && irampOk r && vrampOk r
  | 0x03 | 0x04 => currentOk (stIt r) && voltageOk (stVt r) && pt0 && irampOk r && vrampOk r
  | 0x05 => currentOk (stIt r) && voltageOk (stVt r) && pt0 && irampOk r && vr0
  | 0x06 =>
    stIt r == 0 && voltageOk (stVt r) && stPt r != 0 && within (-1600000) 1600000 (stPt r) && irampOk r && vrampOk r
  | 0x07 => stIt r == 0 && stVt r == 0 && pt0 && irampOk r && vr0
  | 0x08 =>
    stIt r != 0 && currentOk (stIt r) && voltageOk (stVt r) && within 110 60000 (stPt r) && irampOk r && vr0
  | 0x09 =>
    currentOk (stIt r) && voltageOk (stVt r) && eisAmpOk r
      && decide (10 ≤ stIramp r ∧ stIramp r ≤ 5000000) && decide (10 ≤ eisStop r ∧ eisStop r ≤ 5000000)
      && decide (1 ≤ eisPoints r ∧ eisPoints r ≤ 10)
  | 0x0A => within 60 259200 (stIt r) && stVt r == 0 && within 60 (stIt r) (stPt r) && irampOk r && vr0
  | 0x0B => (slice r 8 16).all (· == 0) && byteAt r 5 == 0 && decide (1 ≤ leNat (slice r 6 2))
  | 0x0C => (slice r 5 19).all (· == 0)
  | _ => (slice r 4 20).all (· == 0)

/-- Check 5: the fields of the table Step types and field use. The check names no field of a condition, so that the
ranges of R168 refuse nothing. DEDUCED, log entry 22. -/
def check5 (r : List Byte) : Bool := fieldsOk r

/-- Check 6. -/
def check6 (r : List Byte) : Bool :=
  controlStep r || (decide (1 ≤ stTmax r) && if currentCarrying r then decide (1 ≤ stQcap r) else stQcap r == 0)

/-- The condition kinds that a step permits (R169). -/
def permitted (r : List Byte) : List Nat :=
  match stType r with
  | 0x01 | 0x03 | 0x06 => [1, 3, 4, 5, 6, 7, 8, 9]
  | 0x02 | 0x04 | 0x05 => [1, 2, 3, 4, 5, 6, 7, 8, 9]
  | 0x07 | 0x0A => [1, 3, 6, 8]
  | 0x08 => [1, 3, 8]
  | 0x09 => if stIt r = 0 then [1, 3, 8] else [1, 3, 4, 5, 8]
  | _ => []

/-- Check 7. -/
def check7 (r : List Byte) : Bool :=
  [0, 1, 2, 3].all fun k =>
    let c := stCond r k
    if cdKind c = 0 then c.all (· == 0) else (permitted r).contains (cdKind c) && (cdKind c != 9 || stFlag r 2)

/-- The longest path of LOOP, GOTO and END steps from step i, up to the given bound. -/
def controlRun (steps : List (List Byte)) : Nat → Nat → Nat
  | 0, _ => 0
  | n + 1, i =>
    let r := steps.getD i []
    if controlStep r = false then 0
    else if stType r = 0x0D then 1
    else if stType r = 0x0C then 1 + controlRun steps n (stTarget r)
    else 1 + max (controlRun steps n (stTarget r)) (controlRun steps n (i + 1))

/-- Check 10 of step i: a cycle of such steps is a path without end. -/
def check10 (steps : List (List Byte)) (i : Nat) : Bool := decide (controlRun steps 9 i ≤ 8)

/-- The first step that fails a check. -/
def failsAt (steps : List (List Byte)) (f : Nat → List Byte → Bool) : Option Nat :=
  (List.range steps.length).find? fun i => !f i (steps.getD i [])

/-- The first check of some that fails, with its step. -/
def firstFail : List (Nat × Option Nat) → Option (Nat × Nat)
  | [] => none
  | (k, some i) :: _ => some (i, k)
  | (_, none) :: r => firstFail r

/-- The failing step, 0xFF for the header, and the number of the check; none if the recipe passes (R161). The checks run
in their order. Log entry 22. -/
def recipeFault (x : Recipe) : Option (Nat × Nat) :=
  let n := hdrNstep x.header
  if check1 x.header = false then some (0xFF, 1)
  else if n = 0 then none
  else if check2 x.header = false then some (0xFF, 2)
  else
    firstFail [
      (3, failsAt x.steps fun _ r => check3 r),
      (4, failsAt x.steps fun i r => check4 n i r),
      (5, failsAt x.steps fun _ r => check5 r),
      (6, failsAt x.steps fun _ r => check6 r),
      (7, failsAt x.steps fun _ r => check7 r),
      (8, if stType (x.steps.getD (n - 1) []) = 0x0D ∨ stType (x.steps.getD (n - 1) []) = 0x0C then none else some (n - 1)),
      (9, failsAt x.steps fun i r => stType r != 0x0B || decide (stTarget r ≤ i)),
      (10, failsAt x.steps fun i _ => check10 x.steps i)]

/-! ### Commands (R324, R325) -/

/-- A book commit runs. -/
def bookBusy (s : State) : Bool := match s.isl.nvmOp with | .book .. => true | _ => false

/-- A slot operand. -/
def bookSlot? (b : Byte) : Option (Fin 32) := if h : b.toNat < 32 then some ⟨b.toNat, h⟩ else none

/-- BOOK_HDR. -/
def bookHdrBody (h : List Byte) (s : State) : State × Completion :=
  if bookBusy s then (s, .status stBusyRetry)
  else ({ s with isl := { s.isl with stageHdr := h } }, .status stOk)

/-- Records of 64 bytes. -/
def records64 : Nat → List Byte → List (List Byte)
  | 0, _ => []
  | n + 1, l => l.take 64 :: records64 n (l.drop 64)

/-- BOOK_STEPS. -/
def bookStepsBody (first count : Byte) (recs : List Byte) (s : State) : State × Completion :=
  let f := first.toNat
  let n := count.toNat
  if 127 < f ∨ 128 < f + n then (s, .status stBadParam)
  else if bookBusy s then (s, .status stBusyRetry)
  else
    let rs := records64 n recs
    let steps := vmapI s.isl.stageSteps fun i x => if f ≤ i.val ∧ i.val < f + n then rs.getD (i.val - f) [] else x
    ({ s with isl := { s.isl with stageSteps := steps } }, .status stOk)

/-- A header with VERSION and CRC filled in (R160). -/
def sealHeader (h : List Byte) (version : Nat) (steps : List (List Byte)) : List Byte :=
  let b := h.take 2 ++ toLE 2 version ++ slice h 4 24
  b ++ wordBytes (crc32c (b ++ steps.flatten))

/-- BOOK_COMMIT (R161, R162, R325). -/
def bookCommitBody (slot : Byte) (r : Request) (s : State) : State × Completion :=
  match bookSlot? slot with
  | none => (s, .status stBadParam)
  | some k =>
    if nvmBusy s then (s, .status stBusyRetry)
    else
      let x := stagedRecipe s
      match recipeFault x with
      | some f => (s, .now stBadParam (p1 f.1 ++ p1 f.2))
      | none =>
        let v := (s.nvm.version[k] + 1) % 2 ^ 16
        let rec' : Recipe := { x with header := sealHeader x.header v x.steps }
        ({ s with isl := { s.isl with nvmOp := .book k rec', opTag := some r.tag } }, .later)

/-- The book commit ends (R162, R325). -/
def bookCommitEnd (ok : Bool) (s : State) : State :=
  match s.isl.nvmOp with
  | .book k x =>
    let s := { s with isl := { s.isl with nvmOp := .none } }
    if ok then
      let v := hdrVersion x.header
      let s := { s with nvm := { s.nvm with book := s.nvm.book.set k.val x k.isLt,
                                            version := s.nvm.version.set k.val v k.isLt } }
      replyOp s 0x43 stOk (toLE 2 v ++ [0, 0] ++ slice x.header 28 4)
    else replyOp (nvmFail s 0) 0x43 stNvmError []
  | _ => s

/-- BOOK_READ. -/
def bookReadBody (slot first count : Byte) (s : State) : State × Completion :=
  match bookSlot? slot with
  | none => (s, .status stBadParam)
  | some k =>
    let x := s.nvm.book[k]
    let n := count.toNat
    if n < 1 ∨ 63 < n ∨ hdrNstep x.header < first.toNat + n then (s, .status stBadParam)
    else (s, .now stOk ((x.steps.drop first.toNat).take n).flatten)

/-! ### Meanings -/

/-- BOOK_DIR. -/
def execBookDir (s : State) : Host.Outcome State Fault Refusal :=
  .next (hostCommand .bookDir true s fun _ s => (s, .now stOk (s.nvm.book.toList.flatMap Recipe.header)))

/-- BOOK_HDR. -/
def execBookHdr (header : List Byte) (s : State) : Host.Outcome State Fault Refusal :=
  .next (hostCommand (.bookHdr header) (lengthIn 32 32 header) s fun _ s => bookHdrBody header s)

/-- BOOK_STEPS. -/
def execBookSteps (first count : Byte) (records : List Byte) (s : State) : Host.Outcome State Fault Refusal :=
  .next (hostCommand (.bookSteps first count records) (Instr.bookSteps first count records).wellFormed s
    fun _ s => bookStepsBody first count records s)

/-- BOOK_COMMIT. -/
def execBookCommit (slot : Byte) (s : State) : Host.Outcome State Fault Refusal :=
  .next (hostCommand (.bookCommit slot) true s (bookCommitBody slot))

/-- BOOK_COMMIT_DONE. -/
def execBookCommitDone (ok : Bool) (s : State) : Host.Outcome State Fault Refusal := .next (bookCommitEnd ok s)

/-- BOOK_READ. -/
def execBookRead (slot first count : Byte) (s : State) : Host.Outcome State Fault Refusal :=
  .next (hostCommand (.bookRead slot first count) true s fun _ s => bookReadBody slot first count s)

end Sys2Proof.Machine
end

