-- ==== Sys2Proof/Machine/ChannelCommands.lean ====
section
/-! DEFINITION. Family channel control: the channel-mask commands, CH_HAND and CH_SETPOINT with what their staged changes
do at the boundary of their commit (R72, R111, R163, R177, R210, R313, R321, R322). -/
namespace Sys2Proof.Machine

/-! ### Results per channel (R321) -/

/-- A zone of a member of the gang is in orderly stop (R273, R280). -/
def zoneStopped (s : State) (c : Fin 16) : Bool :=
  (members s c).any fun d => anyI 20 fun k => (s.therm.die[k]).stop && inZone s k d

/-- A protection latch, a missing owner or an orderly stop of the zone prevents ARM, RESUME and program start. -/
def startBlocked (s : State) (c : Fin 16) : Bool :=
  (members s c).any (cpLatched s) || (s.grp[groupOf c]).owner == none || zoneStopped s c

/-- The slot of CHn_PROG. -/
def Chan.recipeSlot (ch : Chan) : Fin 32 := ⟨bits ch.progReg 0 5 % 32, by omega⟩

/-- The recipe of a slot matches the CRC of its header (R163). -/
def recipeIntact (r : Recipe) : Bool := leWord (slice r.header 28 4) == recipeCrc r

/-- The result of CH_ARM for a channel. -/
def armResult (s : State) (c : Fin 16) : Byte :=
  if isFollower s c then stBadParam
  else if startBlocked s c ∨ (s.ch[c]).st = .fault then stFaultActive
  else stOk

/-- The result of CH_STOP, CH_CLEAR and PROG_ABORT for a channel. -/
def plainResult (s : State) (c : Fin 16) : Byte := if isFollower s c then stBadParam else stOk

/-- The result of CH_HOLD for a channel. -/
def holdResult (s : State) (c : Fin 16) : Byte :=
  if isFollower s c then stBadParam
  else if (s.ch[c]).st = .run ∨ (s.ch[c]).st = .hold then stOk
  else stWrongMode

/-- The result of CH_RESUME for a channel. -/
def resumeResult (s : State) (c : Fin 16) : Byte :=
  if isFollower s c then stBadParam
  else if startBlocked s c then stFaultActive
  else if (s.ch[c]).prog.causes.contains hcMeas && measInvalid s c then stFaultActive
  else stOk

/-- The result of CH_HAND for a channel. -/
def handResult (enter : Bool) (s : State) (c : Fin 16) : Byte :=
  let p := (s.ch[c]).prog.pstate
  if isFollower s c ∨ (s.ch[c]).bound = false then stBadParam
  else if enter then if p = .run ∨ p = .hold then stOk else stWrongMode
  else if p = .hand then stOk
  else stWrongMode

/-- The result of PROG_START for a channel. -/
def startResult (s : State) (c : Fin 16) : Byte :=
  let ch := s.ch[c]
  let r := s.nvm.book[ch.recipeSlot]
  if isFollower s c then stBadParam
  else if startBlocked s c then stFaultActive
  else if ch.bound = false ∨ hdrNstep r.header = 0 then stBadParam
  else if ch.st ≠ .off then stWrongMode
  else if recipeIntact r = false then stFaultActive
  else stOk

/-- The result bytes of a command over its mask (R313). -/
def resultBytes (m : Mask) (f : Fin 16 → Byte) : List Byte := channels.map fun c => if m.getLsbD c.val then f c else 0xFF

/-- The result of the lowest-numbered channel that is not OK. -/
def firstRefusal (m : Mask) (f : Fin 16 → Byte) : Option Byte :=
  (channels.find? fun c => m.getLsbD c.val && f c != stOk).map f

/-- The islands that a mask command concerns. -/
def maskIslands (s : State) (m : Mask) : BitVec 14 := channelIslands s (channels.filter fun c => m.getLsbD c.val)

/-- A channel-mask command: all or nothing (R313). -/
def maskCommand (m : Mask) (f : State → Fin 16 → Byte) (change : Change) (r : Request) (s : State) : State × Completion :=
  if m = 0 then (s, .status stBadParam)
  else
    match firstRefusal m (f s) with
    | some st => (s, .now st (resultBytes m (f s)))
    | none => (stage s change r.opc (some r.tag) (maskIslands s m), .later)

/-! ### Commits -/

/-- A program that a channel command resumes from PAUSE; a step that ended with reason IMPLAUSIBLE starts again (R177,
R321). -/
def resumePause (s : State) (c : Fin 16) : State :=
  if (s.ch[c]).prog.pstate = .pause ∧ s.sys.mode = .form then
    let again := (s.ch[c]).prog.restart
    let s := formRecord s c 0x0A (plainFlags s) (progPayload s.ch[c] 4 0)
    let s := queueEvent s 0x0214 (p1 c.val)
    let s := s.updProg c fun p => { p.zeroPers with pstate := .run, restart := false }
    if again then startStep s c (s.ch[c]).prog.step else s
  else s

/-- CH_ARM commits. -/
def commitArm (s : State) (c : Fin 16) : State := if (s.ch[c]).st = .off then armGang s c else s

/-- CH_STOP commits. -/
def commitStop (s : State) (c : Fin 16) : State := if (s.ch[c]).st.live then stopGang s c 0x31 else s

/-- CH_HOLD commits. -/
def commitHold (s : State) (c : Fin 16) : State :=
  match (s.ch[c]).st with
  | .run => holdNow s c hcHost
  | .hold => addCause s c hcHost
  | _ => s

/-- CH_RESUME commits: the causes that the host clears (R177). -/
def commitResume (s : State) (c : Fin 16) : State :=
  let s := clearCauses s c ([hcHost, hcImplausible, hcIsland, hcMeas] ++ if s.sys.mode = .safe then [] else [hcSafety2])
  resumePause s c

/-- CH_CLEAR commits: every member of the gang from FAULT to OFF, but for a fault that arose in the epoch that ends
(R72, R74). -/
def commitClear (s : State) (c : Fin 16) : State :=
  (members s c).foldl (fun s d => if (s.ch[d]).st = .fault ∧ (s.ch[d]).faulted = false then moveChannel s d .off else s) s

/-- CH_HAND commits (R111, R321). -/
def commitHand (enter : Bool) (s : State) (c : Fin 16) : State :=
  let p := (s.ch[c]).prog.pstate
  if enter then
    if p = .run ∨ p = .hold then
      let s := formRecord s c 0x0A (plainFlags s) (progPayload s.ch[c] 5 0)
      let s := s.updProg c fun p => { p with pstate := .hand, grade := p.grade.flag 5 }
      changeSource s c .hand
    else s
  else if p = .hand then
    let s := formRecord s c 0x0A (plainFlags s) (progPayload s.ch[c] 6 0)
    let s := s.updProg c fun p =>
      { p.zeroPers with pstate := if p.causes = [] then .run else .hold, holdCause := (p.causes.headD 0) }
    let s := changeSource s c .auto
    if (s.ch[c]).prog.started then setStepTargets s c else s
  else s

/-- PROG_START commits: RSEQ, running copy, records and CHECK (R163, R184, R321). -/
def commitStart (s : State) (c : Fin 16) : State :=
  let ch := s.ch[c]
  if ch.st ≠ .off ∨ ch.bound = false then s
  else
    let r := s.nvm.book[ch.recipeSlot]
    if recipeIntact r = false ∨ hdrNstep r.header = 0 then s
    else
      let s := (changeSource s c .auto).updCh c fun ch =>
        { ch with rseq := (ch.rseq + 1) % 2 ^ 32, hist := Hist.zero, plimStep := none,
                  prog := { Prog.reset with pstate := .run, recipe := r, slot := ch.recipeSlot.val,
                                            step := bits ch.progReg 16 7, lastR := ch.prog.lastR } }
      let s := formRecord s c 0x0A (plainFlags s) (progPayload s.ch[c] 1 0)
      let s := queueEvent s 0x0210 (p1 c.val ++ p1 ch.recipeSlot.val ++ p4u (s.ch[c]).rseq)
      armGang s c

/-- PROG_ABORT commits. -/
def commitAbort (s : State) (c : Fin 16) : State :=
  if (s.ch[c]).prog.pstate.active then stopGang s c 0x31 else s

/-- The host setpoint registers after a write of the selected fields. -/
def Chan.setRegs (ch : Chan) (sel : BitVec 4) (iset vset iramp vramp : Word) : Chan :=
  { ch with iset := if sel.getLsbD 0 then iset else ch.iset, vset := if sel.getLsbD 1 then vset else ch.vset,
            iramp := if sel.getLsbD 2 then iramp else ch.iramp, vramp := if sel.getLsbD 3 then vramp else ch.vramp }

/-- The channel follows the host registers now: in FORM and DIRECT, and in a HOLD of SAFE that will go on in them
(R123). -/
def followsHost (s : State) (c : Fin 16) : Bool :=
  (s.ch[c]).src != .auto && (s.sys.mode == .form || s.sys.mode == .direct || s.sys.mode == .safe) && !isFollower s c

/-- A setpoint step change commits: the registers, and the targets of R108. A host measurement on the channel
ends (R327). -/
def commitSetpoint (s : State) (c : Fin 16) (sel : BitVec 4) (iset vset iramp vramp : Word) : State :=
  let s := s.updCh c fun ch => ch.setRegs sel iset vset iramp vramp
  if followsHost s c then
    let s := abortMeas s c
    s.updCh c Chan.hostTargets
  else s

/-! ### CH_SETPOINT (R322, R123) -/

/-- The selected values lie in the ranges of their registers. -/
def setpointInRange (sel : BitVec 4) (iset vset iramp vramp : Word) : Bool :=
  (!sel.getLsbD 0 || decide (iset.toInt.natAbs ≤ 320000000)) && (!sel.getLsbD 1 || decide (vset.toNat ≤ 5500000))
    && (!sel.getLsbD 2 || decide (iramp.toNat ≤ 1000000)) && (!sel.getLsbD 3 || decide (vramp.toNat ≤ 10000000))

/-- A channel operand of a command. -/
def chanOf? (b : Byte) : Option (Fin 16) := if h : b.toNat < 16 then some ⟨b.toNat, h⟩ else none

/-- CH_SETPOINT. In SAFE the values are stored and the command completes at once; a channel under HAND or DIRECT takes
them as its targets at the next boundary. DEDUCED, log entry 193. -/
def setpointBody (ch sel : Byte) (iset vset iramp vramp : Word) (r : Request) (s : State) : State × Completion :=
  match chanOf? ch with
  | none => (s, .status stBadParam)
  | some c =>
    let f := sel.truncate 4
    if sel = 0 ∨ 16 ≤ sel.toNat ∨ isFollower s c ∨ setpointInRange f iset vset iramp vramp = false then
      (s, .status stBadParam)
    else if followsHost s c then
      let change : Change := .setpoint c f iset vset iramp vramp
      let islands := channelIslands s [c]
      if s.sys.mode = .safe then
        (stage (s.updCh c fun x => x.setRegs f iset vset iramp vramp) change r.opc none islands, .status stOk)
      else (stage s change r.opc (some r.tag) islands, .later)
    else (s.updCh c fun x => x.setRegs f iset vset iramp vramp, .status stOk)

/-- CH_HAND. -/
def handBody (m : Mask) (enter : Byte) (r : Request) (s : State) : State × Completion :=
  if 1 < enter.toNat then (s, .status stBadParam)
  else maskCommand m (handResult (enter == 1)) (.hand m (enter == 1)) r s

/-- PROG_START: a stored recipe that fails its CRC is reported (R163). -/
def startBody (m : Mask) (r : Request) (s : State) : State × Completion :=
  let bad := channels.filter fun c =>
    m.getLsbD c.val && (s.ch[c]).bound && hdrNstep (s.nvm.book[(s.ch[c]).recipeSlot]).header != 0
      && !recipeIntact (s.nvm.book[(s.ch[c]).recipeSlot]) && !isFollower s c && (s.ch[c]).st == .off
  let s := bad.foldl (fun s c => queueEvent s 0x0130 (p1 (s.ch[c]).recipeSlot.val)) s
  maskCommand m startResult (.start m) r s

/-! ### Meanings -/

/-- CH_ARM. -/
def execChArm (mask : Mask) (s : State) : Host.Outcome State Fault Refusal :=
  .next (hostCommand (.chArm mask) true s (maskCommand mask armResult (.arm mask)))

/-- CH_STOP. -/
def execChStop (mask : Mask) (s : State) : Host.Outcome State Fault Refusal :=
  .next (hostCommand (.chStop mask) true s (maskCommand mask plainResult (.stop mask)))

/-- CH_HOLD. -/
def execChHold (mask : Mask) (s : State) : Host.Outcome State Fault Refusal :=
  .next (hostCommand (.chHold mask) true s (maskCommand mask holdResult (.hold mask)))

/-- CH_RESUME. -/
def execChResume (mask : Mask) (s : State) : Host.Outcome State Fault Refusal :=
  .next (hostCommand (.chResume mask) true s (maskCommand mask resumeResult (.resume mask)))

/-- CH_CLEAR. -/
def execChClear (mask : Mask) (s : State) : Host.Outcome State Fault Refusal :=
  .next (hostCommand (.chClear mask) true s (maskCommand mask plainResult (.clear mask)))

/-- CH_HAND. -/
def execChHand (mask : Mask) (enter : Byte) (s : State) : Host.Outcome State Fault Refusal :=
  .next (hostCommand (.chHand mask enter) true s (handBody mask enter))

/-- CH_SETPOINT. -/
def execChSetpoint (ch sel : Byte) (iset vset iramp vramp : Word) (s : State) : Host.Outcome State Fault Refusal :=
  .next (hostCommand (.chSetpoint ch sel iset vset iramp vramp) true s (setpointBody ch sel iset vset iramp vramp))

/-- PROG_START. -/
def execProgStart (mask : Mask) (s : State) : Host.Outcome State Fault Refusal :=
  .next (hostCommand (.progStart mask) true s (startBody mask))

/-- PROG_ABORT. -/
def execProgAbort (mask : Mask) (s : State) : Host.Outcome State Fault Refusal :=
  .next (hostCommand (.progAbort mask) true s (maskCommand mask plainResult (.abort mask)))

end Sys2Proof.Machine
end

