-- ==== Sys2Proof/Machine/GateDrive.lean ====
section
/-! DEFINITION. Family gate drive: short-circuit trips, the restart interval, bootstrap supervision, the interlock
(R76 to R95), and the two supervision events of the control engines that act on a channel (R104, R117). -/
namespace Sys2Proof.Machine

/-! ### Restart interval (R86 to R93) -/

/-- The leg of group g at index i of its eight legs. -/
def groupLeg (g : Fin 4) (i : Fin 8) : Fin 32 := ⟨8 * g.val + i.val, by omega⟩

/-- The index of a leg in its group. -/
def legIndex (l : Fin 32) : Fin 8 := ⟨l.val % 8, by omega⟩

/-- The legs of some channels, as a mask of the legs of their group. -/
def legMask (cs : List (Fin 16)) : BitVec 8 := cs.foldl (fun m c => m ||| BitVec.ofNat 8 (3 * 4 ^ (c.val % 4))) 0

/-- The leg was suspect in a restart interval that ended within the last second (R93). -/
def recentSuspect (s : State) (l : Fin 32) : Bool :=
  match (s.leg[l]).lastSuspect with
  | some t => decide (s.sys.tbase < t + 1000000000)
  | none => false

/-- A leg whose reference is forced to zero by a trip: accepted references are held (R91). -/
def Leg.trip (l : Leg) (suspect : Bool) : Leg :=
  { l with restart := true, suspect := l.suspect || suspect, held := if l.restart then l.held else l.iref, iref := 0,
           stretch := false }

/-- Join a trip to the restart interval of a group: the legs concerned and the suspect ones (R91, R92). -/
def joinRestart (s : State) (g : Fin 4) (legs suspect : BitVec 8) : State :=
  let s := (bitList legs).foldl (fun s i => s.updLeg (groupLeg g i) fun l => l.trip (suspect.getLsbD i.val)) s
  s.updGrp g fun gr =>
    let old := gr.restart.getD { legs := 0, suspect := 0, probed := 0, probing := false }
    { gr with restart := some { old with legs := old.legs ||| legs, suspect := old.suspect ||| suspect,
                                         probing := false } }

/-- The channel's switches can be on: it switches, or CHECK probes it. -/
def switching (ch : Chan) : Bool := ch.gates || ch.checking

/-- The leg island and its comparators work: they trip in every channel state, with the gates off as well (R86). -/
def comparatorsWork (s : State) : Bool := s.sys.running && s.sys.phase == .running

/-- The members whose stage has failed, with the gangs they are in, go to FAULT: those concerned with STAGE, the
others with GANG (R66, R92, R93). -/
def stageFault (s : State) (cs : List (Fin 16)) : State :=
  cs.foldl (fun s c => faultMembers s c (cs.map fun d => (d, 7))) s

/-- A leg comparator trips (R86, R88, R91, R93). -/
def scTrip (l : Fin 32) (hard : Bool) (milliamps : Int) (s : State) : State :=
  let c := chanOfLeg l
  if !(switching s.ch[c] || comparatorsWork s) then s
  else
    let again := recentSuspect s l
    let s := s.updLeg l fun x =>
      { x.flagEvt (if hard then 4 else 3) with tkind := if hard then 2 else 1, scn := satInc 8 x.scn }
    let s := queueEvent s 0x0302 (p1 l.val ++ p1 (if hard then 2 else 1) ++ p4 milliamps)
    if again then stageFault s [c]
    else joinRestart s (groupOf c) (legMask (members s c)) (bitOf 8 (legIndex l).val)

/-- The legs that a group trip identifies (R87): those whose comparators tripped, or the one leg that had just turned
its high side on. -/
def identifiedLegs (tripped turnedOn : BitVec 8) : BitVec 8 :=
  tripped ||| (if (bitList turnedOn).length = 1 then turnedOn else 0)

/-- A group link comparator trips (R86, R87, R91, R93). LEGL_CNT.SCN and TKIND take it in the suspect legs, not in the
other legs concerned, of which the manual does not say whether a trip involves them. DESIGN CHOICE, log entry 182. -/
def scGroupTrip (g : Fin 4) (hard : Bool) (tripped turnedOn : BitVec 8) (s : State) : State :=
  if !(((chansOf g).any fun c => switching s.ch[c]) || comparatorsWork s) then s
  else
    let ident := identifiedLegs tripped turnedOn
    let suspect := if ident = 0 then 0xFF else ident
    let first := match (bitList ident).head? with | some i => (groupLeg g i).val | none => 0xFF
    let again := (bitList suspect).filter fun i => recentSuspect s (groupLeg g i)
    let kind := if hard then 4 else 3
    let s := (bitList suspect).foldl (fun s i => s.updLeg (groupLeg g i) fun x =>
      { x.flagEvt (if hard then 6 else 5) with tkind := kind, scn := satInc 8 x.scn }) s
    let s := queueEvent s 0x0303 (p1 g.val ++ p1 kind ++ p1 first)
    let s := joinRestart s g 0xFF suspect
    stageFault s (again.map fun i => chanOfLeg (groupLeg g i))

/-- A failure of the restart interval attributed to a leg at a step (R92): event bit, park and PROBE_FAIL. -/
def probeMark (step : Nat) (s : State) (l : Fin 32) : State :=
  let s := s.updLeg l fun x => { x.flagEvt 7 with park := { x.park with probe := true } }
  queueEvent s 0x0309 (p1 l.val ++ p1 step)

/-- Some legs fail a step of the restart interval: each is marked, and their channels or gangs go to FAULT STAGE and
leave the interval. -/
def probeFail (s : State) (ls : List (Fin 32)) (step : Nat) : State :=
  let cs := ls.map chanOfLeg
  let s := stageFault (ls.foldl (probeMark step) s) cs
  cs.foldl leaveRestart s

/-- 900 us after a trip, every leg concerned whose current is still at or above 1 A fails (R92 step 3). -/
def restartDecay (g : Fin 4) (above : BitVec 8) (s : State) : State :=
  match (s.grp[g]).restart with
  | none => s
  | some r => probeFail s ((bitList (above &&& r.legs)).map (groupLeg g)) 3

/-- One suspect leg is probed (R92 steps 5 to 8); a leg of a channel that has already failed is not. -/
def probeLeg (g : Fin 4) (failStep : Vector Nat 8) (s : State) (i : Fin 8) : State :=
  match (s.grp[g]).restart with
  | none => s
  | some r =>
    if r.suspect.getLsbD i.val = false then s
    else
      let s := s.updGrp g fun gr => { gr with restart := gr.restart.map fun r => { r with probed := r.probed ||| bitOf 8 i.val } }
      let f := failStep[i]
      if 5 ≤ f ∧ f ≤ 7 then probeFail s [groupLeg g i] f else s

/-- 1 ms after the latest trip the suspect legs are probed in rising order (R92 steps 4 to 8). -/
def restartHoldoff (g : Fin 4) (failStep : Vector Nat 8) (s : State) : State :=
  match (s.grp[g]).restart with
  | none => s
  | some r =>
    if r.probing then s
    else
      let s := (List.finRange 8).foldl (probeLeg g failStep) s
      s.updGrp g fun gr => { gr with restart := gr.restart.map fun r => { r with suspect := 0, probing := true } }

/-- Step 9 of a restart interval whose probing has ended, at an epoch boundary (R92): references applied again, a zero
start of the channels concerned that are in RUN, LEG_RESTART. -/
def endRestart (s : State) (g : Fin 4) : State :=
  match (s.grp[g]).restart with
  | none => s
  | some r =>
    if r.probing = false then s
    else
      let s := (bitList r.legs).foldl (fun s i =>
        let l := groupLeg g i
        let s := s.updLeg l fun x =>
          { x with restart := false, suspect := false, iref := if x.parked then 0 else x.held,
                   lastSuspect := if x.suspect then some s.sys.tbase else x.lastSuspect }
        s.updCh (chanOfLeg l) fun ch => if ch.st = .run then { ch with zeroStart := true } else ch) s
      let s := queueEvent s 0x0308 (p1 g.val ++ p4u (r.probed.toNat * 2 ^ (8 * g.val)))
      s.updGrp g fun gr => { gr with restart := none }

/-! ### Bootstrap supply and interlock (R82 to R85) -/

/-- Park a leg for three consecutive bootstrap trips (R85). -/
def bootstrapPark (s : State) (l : Fin 32) : State :=
  let s := s.updLeg l fun x =>
    { x.flagEvt 2 with park := { x.park with boot := true }, iref := 0, buvRun := 0 }
  let s := queueEvent s 0x0306 (p1 l.val ++ p1 (chanOfLeg l).val)
  legsFault s (chanOfLeg l)

/-- The run of consecutive switching periods with a trip, after one that comes some periods after the last (R85): a
second trip of the same period does not lengthen it. -/
def nextRun (run periods : Nat) : Nat := if periods = 0 then max 1 run else if periods = 1 then run + 1 else 1

/-- The bootstrap undervoltage comparator trips, some switching periods after its last trip; it is ignored until a
two-step turn-off of the leg has ended (R84, R85, R94). Log entry 18. -/
def bootstrapTrip (l : Fin 32) (softOff : Bool) (periods : Nat) (s : State) : State :=
  if softOff || !(switching s.ch[chanOfLeg l]) || (s.leg[l]).parked then s
  else
    let first := !(s.leg[l]).dlim
    let s := s.updLeg l fun x =>
      { x.flagEvt 1 with buv := true, dlim := true, buvRun := nextRun x.buvRun periods }
    let s := queueOnce s 0x0304 l.val (p1 l.val)
    let s := if first then queueEvent s 0x0305 (p1 l.val) else s
    if 3 ≤ (s.leg[l]).buvRun then bootstrapPark s l else s

/-- 64 periods without a trip: the duty limit is lifted (R84). -/
def bootstrapLift (l : Fin 32) (s : State) : State :=
  s.updLeg l fun x => { x with dlim := false, buv := false, buvRun := 0 }

/-- The next off-time of a leg is stretched to a qualifying refresh (R83). -/
def bootstrapStretch (l : Fin 32) (s : State) : State :=
  if (s.ch[chanOfLeg l]).gates && !(s.leg[l]).parked && !(s.leg[l]).restart then
    s.updLeg l fun x => { x with stretch := true }
  else s

/-- The interlock ignores a command that would put both gates on (R82). -/
def interlockHit (l : Fin 32) (s : State) : State :=
  let s := s.updLeg l fun x => { x.flagEvt 0 with ilk := satInc 16 x.ilk }
  queueOnce s 0x0307 l.val (p1 l.val ++ p4 (s.leg[l]).ilk)

/-! ### Supervision (R104, R117, R131) -/

/-- Park a leg for a leg converter fault (R131, R460). -/
def legConvFault (s : State) (l : Fin 32) : State :=
  let s := s.updLeg l fun x => { x with park := { x.park with conv := true }, iref := 0 }
  let s := queueEvent s 0x040D (p1 l.val)
  legsFault s (chanOfLeg l)

/-- The leg whose converter the leg-sum check accuses: the one that the loop-back has marked, or a free choice where
neither or both are marked (the manual does not say which). Log entry 19. -/
def accusedLeg (s : State) (c : Fin 16) : Fin 32 × State :=
  let a := decide (0 < (s.leg[legA c]).lbFail)
  let b := decide (0 < (s.leg[legB c]).lbFail)
  if a && !b then (legA c, s)
  else if b && !a then (legB c, s)
  else
    let d := drawFree s
    (if d.1 % 2 = 0 then legA c else legB c, d.2)

/-- ILOOP has been bound for 10 samples (R104). -/
def loopSatEvent (c : Fin 16) (s : State) : State :=
  let ch := s.ch[c]
  if 10 ≤ ch.satRun ∧ ch.isat = false then
    queueEvent (s.updCh c fun ch => { ch with isat := true }) 0x020B (p1 c.val)
  else s

/-- The bit of CHn_LSTAT.IMPLC of a check: force against sense and gang sense share one. -/
def implBit (k : Fin 4) : Nat := min k.val 2

/-- A plausibility check has failed in NPERS samples (R115, R117): the leader shows it and the channel goes to HOLD at
the next boundary; a leg-sum failure parks a leg (R131). -/
def implausibleEvent (c : Fin 16) (k : Fin 4) (s : State) : State :=
  let l := leaderOf s c
  let npers := bits (s.ch[l]).supcfg 8 8
  if (s.ch[c]).st ≠ .run ∨ (s.ch[c]).sup[k] < npers ∨ (s.ch[l]).implc.getLsbD (implBit k) then s
  else
    let s := s.updCh l fun ch => { ch with impl := true, implc := putBit ch.implc (implBit k) true }
    let s := queueEvent s 0x020A (p1 c.val ++ p1 k.val ++ p4 ((s.ch[c]).res[k]))
    let s := addCause s l hcImplausible
    if k = 1 then let a := accusedLeg s c; legConvFault a.2 a.1 else s

/-! ### Meanings -/

/-- SC_TRIP. -/
def execScTrip (leg : Fin 32) (hard : Bool) (milliamps : Int) (s : State) : Host.Outcome State Fault Refusal :=
  .next (scTrip leg hard milliamps s)

/-- SC_GROUP. -/
def execScGroup (group : Fin 4) (hard : Bool) (tripped turnedOn : BitVec 8) (s : State) :
    Host.Outcome State Fault Refusal :=
  .next (scGroupTrip group hard tripped turnedOn s)

/-- RESTART_DECAY_TIMEOUT. -/
def execRestartDecayTimeout (group : Fin 4) (above : BitVec 8) (s : State) : Host.Outcome State Fault Refusal :=
  .next (restartDecay group above s)

/-- RESTART_HOLDOFF_END. -/
def execRestartHoldoffEnd (group : Fin 4) (failStep : Vector Nat 8) (s : State) : Host.Outcome State Fault Refusal :=
  .next (restartHoldoff group failStep s)

/-- BOOTSTRAP_UV. -/
def execBootstrapUv (trip : BootTrip) (s : State) : Host.Outcome State Fault Refusal :=
  .next (bootstrapTrip trip.leg trip.softOff trip.periods s)

/-- BOOTSTRAP_DLIM_LIFT. -/
def execBootstrapDlimLift (leg : Fin 32) (s : State) : Host.Outcome State Fault Refusal := .next (bootstrapLift leg s)

/-- BOOTSTRAP_REFRESH. -/
def execBootstrapRefresh (leg : Fin 32) (s : State) : Host.Outcome State Fault Refusal := .next (bootstrapStretch leg s)

/-- INTERLOCK. -/
def execInterlock (leg : Fin 32) (s : State) : Host.Outcome State Fault Refusal := .next (interlockHit leg s)

/-- LOOP_SAT. -/
def execLoopSat (ch : Fin 16) (s : State) : Host.Outcome State Fault Refusal := .next (loopSatEvent ch s)

/-- IMPLAUSIBLE. -/
def execImplausible (ch : Fin 16) (check : Fin 4) (s : State) : Host.Outcome State Fault Refusal :=
  .next (implausibleEvent ch check s)

end Sys2Proof.Machine
end

