-- ==== Sys2Proof/Machine/Calibration.lean ====
section
/-! DEFINITION. The references, the rotating calibration with its coefficients, and calibration hold (R134 to R149). -/
namespace Sys2Proof.Machine

/-! ### Calibration hold (R146) -/

/-- The reading of the measurement island's die sensor, DT13 (R273). -/
def measTemp (s : State) : Int := (s.therm.die[13]).reading

/-- The lanes in calibration when a reference is excluded or hold is entered lose their result (R149). -/
def discardCal (s : State) : State :=
  (List.finRange 4).foldl (fun s j =>
    match s.meas.work[j] with
    | some w =>
      if w.phase = 3 ∧ w.discard = false then
        queueEvent { s with meas := { s.meas with work := s.meas.work.set j.val (some { w with discard := true }) j.isLt } }
          0x040B (p1 w.pos.val)
      else s
    | none => s) s

/-- Enter calibration hold with a cause: 1 mismatch, 2 no vote, 3 no free lane. -/
def enterHold (s : State) (cause : Nat) : State :=
  if s.meas.hold ≠ 0 then s
  else
    let s := { s with meas := { s.meas with hold := cause, holdAt := s.sys.tbase, holdTemp := measTemp s } }
    discardCal (queueEvent s 0x0407 (p1 cause))

/-- Leave calibration hold; HOLDX clears at the end of the first full rotation after it. -/
def leaveHold (s : State) : State :=
  if s.meas.hold = 0 then s
  else
    queueEvent { s with meas := { s.meas with hold := 0, holdxEnds := if s.meas.holdx then 2 else 0 } } 0x0408 []

/-- The hours from the entry into the present hold to a TBASE. -/
def holdHours (s : State) (tb : Nat) : Nat := (tb - s.meas.holdAt) / 3600000000000

/-- The change since that entry to a reading of the die sensor, in 0.01 K. -/
def holdDrift (s : State) (reading : Int) : Int := reading - s.meas.holdTemp

/-- The figures of calibration hold expire, some time after the last boundary and with a reading of the die sensor:
168 h in hold, or 10 K (R146). -/
def holdExpired (lateNs : Nat) (reading : Int) (s : State) : State :=
  let h := holdHours s (s.sys.tbase + lateNs)
  let d := holdDrift s reading
  if s.meas.hold ≠ 0 ∧ s.meas.holdx = false ∧ (168 ≤ h ∨ 1000 < d.natAbs) then
    queueEvent { s with meas := { s.meas with holdx := true } } 0x0409 (p4 h ++ p4 (divRound d 10))
  else s

/-! ### References (R134 to R136) -/

/-- A reference is fitted and not excluded: 0 REFA, 1 REFB, 2 REFX. -/
def inVote (s : State) (r : Fin 3) : Bool :=
  !s.meas.excluded.getLsbD r.val && (r != 2 || s.meas.refcfg.getLsbD 16)

/-- What one reference check shows. -/
inductive RefClass
  | sound | mismatch | noVote | outlier (r : Fin 3) | unclear
deriving DecidableEq, Repr

/-- Twice REFA - REFB, REFA - REFX and REFB - REFX of a check, in 0.1 ppm. -/
def refDiffs (ab x : Int) : Int × Int × Int := (2 * ab, ab - 2 * x, Int.neg ab - 2 * x)

/-- A doubled difference is at most 20 ppm. -/
def agrees (d : Int) : Bool := decide (d.natAbs ≤ 400)

/-- The class of one check among the references in the vote (table Reference voting). With one reference no check is
made: a hold of cause 1 then still lasts for ten checks. DESIGN CHOICE, log entry 185. -/
def refClass (s : State) (ab x : Int) : RefClass :=
  let d := refDiffs ab x
  match inVote s 0, inVote s 1, inVote s 2 with
  | true, true, true =>
    if agrees d.1 && agrees d.2.1 && agrees d.2.2 then .sound
    else if agrees d.2.2 && !agrees d.1 && !agrees d.2.1 then .outlier 0
    else if agrees d.2.1 && !agrees d.1 && !agrees d.2.2 then .outlier 1
    else if agrees d.1 && !agrees d.2.1 && !agrees d.2.2 then .outlier 2
    else if !agrees d.1 && !agrees d.2.1 && !agrees d.2.2 then .noVote
    else .unclear
  | true, true, false => if agrees d.1 then .sound else .mismatch
  | true, false, true => if agrees d.2.1 then .sound else .mismatch
  | false, true, true => if agrees d.2.2 then .sound else .mismatch
  | _, _, _ => .sound

/-- The calibration source: the mean of two references, or one of them. -/
inductive CalSource
  | pair (a b : Fin 3) | one (r : Fin 3) | none
deriving DecidableEq, Repr

/-- The calibration source among the references in the vote: REFX alone where XSRC is 1, the mean of the two internal
ones, the mean of the two that are left, or the last (R134, R135). DEDUCED, log entry 186, for XSRC with two
references left. -/
def calSource (s : State) : CalSource :=
  if inVote s 2 && s.meas.refcfg.getLsbD 17 then .one 2
  else
    match inVote s 0, inVote s 1, inVote s 2 with
    | true, true, _ => .pair 0 1
    | true, false, true => .pair 0 2
    | false, true, true => .pair 1 2
    | true, false, false => .one 0
    | false, true, false => .one 1
    | false, false, true => .one 2
    | false, false, false => .none

/-- Four times the deviation of a reference from (REFA + REFB)/2, in 0.1 ppm. -/
def refAt (ab x : Int) (r : Fin 3) : Int :=
  match r with
  | 0 => 2 * ab
  | 1 => Int.neg (2 * ab)
  | _ => 4 * x

/-- The same of a calibration source. -/
def sourceAt (ab x : Int) : CalSource → Int
  | .pair a b => divRound (refAt ab x a + refAt ab x b) 2
  | .one r => refAt ab x r
  | .none => 0

/-- The words 0xC0 to 0xC2: each reference less the calibration source, in 0.01 ppm (R129). -/
def refWords (s : State) (ab x : Int) : Vector Int 3 :=
  Vector.ofFn fun r =>
    if r = 2 ∧ s.meas.refcfg.getLsbD 16 = false then 0
    else divRound ((refAt ab x r - sourceAt ab x (calSource s)) * 5) 2

/-- The deviation of a reference from the mean of the two others, in 0.1 ppm. -/
def refDeviation (ab x : Int) (r : Fin 3) : Int :=
  match r with
  | 0 => divRound (3 * ab - 2 * x) 4
  | 1 => divRound (Int.neg (3 * ab) - 2 * x) 4
  | _ => x

/-- Exclude a reference until the next power-on reset (R134, R135). -/
def excludeRef (s : State) (r : Fin 3) (dev : Int) : State :=
  if s.meas.excluded.getLsbD r.val then s
  else
    discardCal (queueEvent { s with meas := { s.meas with excluded := putBit s.meas.excluded r.val true, votes := [],
                                                          agree := 0 } }
      0x0404 (p1 r.val ++ p4 dev))

/-- The references enter the state of a cause of calibration hold, with its event (R136). -/
def voteHold (s : State) (cause code : Nat) (payload : List Byte) : State :=
  if s.meas.hold = cause ∨ s.meas.hold = 3 then s
  else
    let s := queueEvent s code payload
    if s.meas.hold = 0 then enterHold s cause else { s with meas := { s.meas with hold := cause } }

/-- A reference check of the differences REFA - REFB and REFX - (REFA + REFB)/2 in 0.1 ppm, the latter before XCAL:
the state over 3 consecutive checks decides; a mismatch ends after 10 sound ones (R134, R136). MEAS_REFDIF.XD shows
the difference as measured, before XCAL is applied. DESIGN CHOICE, log entry 187. -/
def refCheck (s : State) (ab xRaw : Int) : State :=
  let x := if s.meas.refcfg.getLsbD 16 then xRaw - sbits s.meas.refcfg 0 16 else 0
  let c := refClass s ab x
  let votes := ((ab, x) :: s.meas.votes).take 3
  let s := { s with meas := { s.meas with
    ab := ab, xd := if s.meas.refcfg.getLsbD 16 then xRaw else 0, votes := votes
    agree := if c = .sound then s.meas.agree + 1 else 0, refWord := refWords s ab x, refStamp := s.sys.epoch.toNat } }
  let all3 := votes.length = 3 ∧ votes.all (fun v => refClass s v.1 v.2 == c)
  let s := if s.meas.hold = 1 ∧ 10 ≤ s.meas.agree then leaveHold s else s
  if all3 then
    match c with
    | .sound => if s.meas.hold = 2 then leaveHold s else s
    | .mismatch => voteHold s 1 0x0405 (p4 ab)
    | .noVote =>
      let d := refDiffs ab x
      voteHold s 2 0x0406 (p4 ab ++ p4 (divRound d.2.1 2) ++ p4 (divRound d.2.2 2))
    | .outlier r =>
      let s := excludeRef s r (refDeviation ab x r)
      if s.meas.hold = 2 then leaveHold s else s
    | .unclear => s
  else s

/-- The measurement island is powered: in every mode but DORMANT, and in BOOT once the aux converter has started. -/
def measPowered (s : State) : Bool :=
  match s.sys.phase with
  | .running => s.sys.mode != .dormant
  | .halted => true
  | .booting => s.aux.state == 2
  | _ => false

/-- The bandgap monitor: deviations in 0.1 ppm; beyond 0.1 % a reference is excluded at once (R135). -/
def refMonitor (a b x : Int) (s : State) : State :=
  if measPowered s = false then s
  else
    let check (s : State) (r : Fin 3) (d : Int) : State := if inVote s r ∧ 10000 < d.natAbs then excludeRef s r d else s
    let s := check (check s 0 a) 1 b
    if s.meas.refcfg.getLsbD 16 then check s 2 (x - sbits s.meas.refcfg 0 16) else s

/-! ### Coefficients (R141) -/

/-- The place of the coefficients of a position in those of its unit: VM, or IM on the range in force. -/
def coefKind (s : State) (q : Fin 32) : Fin 4 :=
  if q.val % 2 = 0 then 0 else ⟨1 + bits (s.ch[(⟨q.val / 2, by omega⟩ : Fin 16)]).mcfgF 0 2 % 3, by omega⟩

/-- The fit of y = o + g x + k x^2 to the outputs at the three points: 0, -0.75 and +0.75 of full scale for IM, 0 V,
2.5 V and 5.0 V of 6.0 V for VM. Its rounding to 10^-9 is the nearest, halves away from zero. DESIGN CHOICE, log entry
188. -/
def fitCoef (kind : Fin 4) (y0 y1 y2 : Int) : Coef :=
  if kind = 0 then
    { o := y0, g := divRound ((4 * y1 - 3 * y0 - y2) * 6) 5 - 1000000000, k := divRound ((y2 - 2 * y1 + y0) * 72) 25
      oSet := true, gSet := true }
  else
    { o := y0, g := divRound ((y2 - y1) * 2) 3 - 1000000000, k := divRound ((y2 + y1 - 2 * y0) * 8) 9, oSet := true
      gSet := true }

/-- The absolute limits of R141. -/
def Coef.inLimits (c : Coef) : Bool :=
  decide (c.o.natAbs ≤ 200000) && decide (c.g.natAbs ≤ 5000000) && decide (c.k.natAbs ≤ 20000)

/-- The limit of the change of the gain since the calibration before on the same range, where there has been one. -/
def Coef.gainNear (old : Coef) (g : Int) : Bool := !old.gSet || decide ((g - old.g).natAbs ≤ 10000)

/-- The limits of the changes since the calibration before on the same range, where there has been one. -/
def Coef.near (c old : Coef) : Bool := old.gainNear c.g && (!old.oSet || decide ((c.o - old.o).natAbs ≤ 5000))

/-- A gain of a range that is not selected keeps its limits. -/
def gainOk (old : Coef) (g : Int) : Bool := decide (g.natAbs ≤ 5000000) && old.gainNear g

/-- The gain of a range after a calibration. -/
def Coef.withGain (c : Coef) (g : Int) : Coef := { c with g := g, gSet := true }

/-- The two ranges of IM beside the one in force. -/
def otherKinds (kind : Fin 4) : List (Fin 4) := if kind = 0 then [] else [1, 2, 3].filter fun k => k != kind

/-- The coefficients of a unit after a calibration on a kind, with the gains of the other ranges; none outside the
limits. In calibration hold only the offset changes (R146). -/
def calibrated (hold : Bool) (row : Vector Coef 4) (kind : Fin 4) (c : Coef) (gains : List Int) : Option (Vector Coef 4) :=
  let others := (otherKinds kind).zip gains
  if c.inLimits && c.near row[kind] && others.all (fun x => gainOk row[x.1] x.2) then
    if hold then some (vmod row kind fun x => { x with o := c.o, oSet := true })
    else some (others.foldl (fun r x => vmod r x.1 fun y => y.withGain x.2) (vmod row kind fun _ => c))
  else none

/-- Put the coefficients of a unit. -/
def setCoef (s : State) (u : Fin 36) (row : Vector Coef 4) : State :=
  { s with meas := { s.meas with coef := s.meas.coef.set u.val row u.isLt } }

/-! ### Lanes and retirement (R142 to R144, R159) -/

/-- The spare lane serves no position permanently and is not retired. -/
def laneAvailable (s : State) (j : Fin 4) : Bool :=
  ((s.meas.lanes[j]).st == 0 || (s.meas.lanes[j]).st == 1) && !s.nvm.laneRetired.getLsbD j.val

/-- F of R144. -/
def freeLanes (s : State) : Nat := countI 4 (laneAvailable s)

/-- The slots of one rotation; 0 while it is stopped (R144). -/
def rotationSlots (s : State) : Nat := if freeLanes s = 0 then 0 else (32 + freeLanes s - 1) / freeLanes s

/-- No spare lane is left: the rotation stops and calibration hold begins (R144). -/
def checkSpares (s : State) : State :=
  if freeLanes s = 0 then enterHold (queueEvent s 0x040A []) 3 else s

/-- A spare lane counts as retired: cause 1 cross-check, 2 calibration limit, 3 boot calibration. -/
def tellRetired (s : State) (j : Fin 4) (cause : Nat) : State :=
  let s := { s with nvm := { s.nvm with laneRetired := putBit s.nvm.laneRetired j.val true } }
  checkSpares (queueEvent s 0x0402 (p1 j.val ++ p1 cause))

/-- Set the work of a lane. -/
def setWork (s : State) (j : Fin 4) (w : Option LaneWork) : State :=
  { s with meas := { s.meas with work := s.meas.work.set j.val w j.isLt } }

/-- Set what a lane does. -/
def setLane (s : State) (j : Fin 4) (l : Lane) : State :=
  { s with meas := { s.meas with lanes := s.meas.lanes.set j.val l j.isLt } }

/-- A spare lane is retired and works no more. -/
def retireLane (s : State) (j : Fin 4) (cause : Nat) : State :=
  tellRetired (setWork (setLane s j { st := 3, pos := 0 }) j none) j cause

/-- The unit that serves a position is retired, and lane j serves it permanently. The unit is the converter of the
position, or the lane that had served it permanently. -/
def retirePosition (s : State) (q : Fin 32) (j : Fin 4) (cause : Nat) : State :=
  let old := (List.finRange 4).find? fun i => i != j && (s.meas.lanes[i]).st == 2 && (s.meas.lanes[i]).pos == q
  let s := match old with
    | some i =>
      let s := setLane s i { st := 3, pos := 0 }
      { s with nvm := { s.nvm with laneRetired := putBit s.nvm.laneRetired i.val true } }
    | none => { s with nvm := { s.nvm with convRetired := putBit s.nvm.convRetired q.val true } }
  let s := setWork (setLane s j { st := 2, pos := q }) j none
  let s := { s with meas := { s.meas with suspect := s.meas.suspect.set q.val 0 q.isLt
                                          doomed := putBit s.meas.doomed q.val false } }
  checkSpares (queueEvent s 0x0401 (p1 q.val ++ p1 j.val ++ p1 cause))

/-! ### Positions (R129, R137, R139, R145) -/

/-- Entry i of the rotation list (R137). -/
def rotationPos (i : Nat) : Fin 32 := ⟨(8 * (i % 4) + i / 4 % 8) % 32, by omega⟩

/-- The channel of a position. -/
def posChan (q : Fin 32) : Fin 16 := ⟨q.val / 2, by omega⟩

/-- The lane that serves a position: 0 its own converter, 1 to 4 a spare lane. A lane that relieves a permanent one
serves in its place. -/
def laneServing (s : State) (q : Nat) : Nat :=
  let by' (st : BitVec 2) : Option (Fin 4) :=
    (List.finRange 4).find? fun j => (s.meas.lanes[j]).st == st && (s.meas.lanes[j]).pos.val == q
  match by' 1 with
  | some j => j.val + 1
  | none => match by' 2 with
    | some j => j.val + 1
    | none => 0

/-- The duration of a blend, in ns (R139). -/
def blendNs : Nat := 64000000

/-- A window from `lo` to `hi` overlaps a blend on a position (R139, R145). -/
def blendIn (s : State) (q : Fin 32) (lo hi : Nat) : Bool :=
  s.meas.blends[q].any fun b => decide (b.at' < hi) && decide (lo < b.at' + blendNs)

/-- A blend is in progress on a position (R139). -/
def blending (s : State) (q : Fin 32) : Bool := blendIn s q s.sys.tbase (s.sys.tbase + 1)

/-- The positions of VM and IM of a channel. -/
def voltPos (c : Fin 16) : Fin 32 := ⟨2 * c.val, by omega⟩
def ampPos (c : Fin 16) : Fin 32 := ⟨2 * c.val + 1, by omega⟩

/-- SPARE, BLEND and OVR of the word of a position for a window from `lo` to `hi` (R17, R129). -/
def laneFlags (s : State) (q : Fin 32) (lo hi : Nat) (ovr : Bool) : BitVec 3 :=
  BitVec.ofNat 3 (b2n (laneServing s q != 0) + 2 * b2n (blendIn s q lo hi) + 4 * b2n ovr)

/-- The unit that serves a position at present. -/
def servingUnit (s : State) (q : Fin 32) : Fin 36 :=
  match (List.finRange 4).find? fun j => (s.meas.lanes[j]).st == 1 && (s.meas.lanes[j]).pos == q with
  | some j => ⟨32 + j.val, by omega⟩
  | none => unitOf s q

/-- The source of the words of a position has failed and has no replacement (R130). -/
def sourceGone (s : State) (q : Fin 32) : Bool :=
  islandDown s 5 || (laneServing s q == 0 && s.nvm.convRetired.getLsbD q.val)

/-- The coefficients of the unit that served a position before a time and of the one that has served since, and how
much of the blend between them has passed at that time, in ns (R139). -/
def blendAt (s : State) (q : Fin 32) (t : Nat) : Vector Coef 4 × Vector Coef 4 × Nat :=
  let l := s.meas.blends[q]
  match l.find? fun b => decide (b.at' < t) with
  | some b => (b.old, b.new, min blendNs (t - b.at'))
  | none =>
    let row := match l.getLast? with
      | some b => b.old
      | none => s.meas.coef[servingUnit s q]
    (row, row, blendNs)

/-- The mix of what the unit before and the present one give (R139). -/
def blendMix (w : Nat) (old new : Int) : Int := divRound ((blendNs - w : Nat) * old + w * new) blendNs

/-- The input that gives an output y, by the coefficients, with the full scale in the unit of y (R141): the inverse of
y = o + g x + k x^2 to the first order in k. DESIGN CHOICE, log entry 57. -/
def Coef.correct (c : Coef) (fs : Nat) (y : Int) : Int :=
  let x := divRound (y * 1000000000 - c.o * fs) (1000000000 + c.g).toNat
  x - divRound (c.k * x * x) (fs * 1000000000)

/-- The corrected value of a position at a time, through the blend, from the outputs of the unit that serves and of the
one that served before (R126, R139). -/
def formed (s : State) (q : Fin 32) (t fs : Nat) (y yOld : Int) : Int :=
  let b := blendAt s q t
  let kind := coefKind s q
  blendMix b.2.2 ((b.1[kind]).correct fs yOld) ((b.2.1[kind]).correct fs y)

/-- A unit takes over a position at this boundary (R139). Changes that no window can reach back to are forgotten: the
longest takes 1600 s (R156, R181). -/
def startBlend (s : State) (q : Fin 32) (old new : Fin 36) : State :=
  let l := (s.meas.blends[q]).filter fun b => decide (s.sys.tbase ≤ b.at' + 1700000000000)
  let b : Blend := { at' := s.sys.tbase, old := s.meas.coef[old], new := s.meas.coef[new] }
  { s with meas := { s.meas with blends := s.meas.blends.set q.val (b :: l) q.isLt } }

/-- The excitation of an EIS step runs: from 1 s after r_I has reached IT, or from the start of a step on rest, to the
end of its last point (R181). -/
def eisRuns (ch : Chan) : Bool :=
  let p := ch.prog
  p.pstate == .run && p.started && ch.st == .run && stType p.cur == 9
    && (stIt p.cur == 0 || decide (1000000000 ≤ p.eisNs)) && eisIncludes p.cur p.eisIndex

/-- A pulse window, or an impedance window at 1 Hz or more, is open on a channel (R145). -/
def windowOpen (s : State) (c : Fin 16) : Bool :=
  let ch := s.ch[leaderOf s c]
  ch.pulseArmed != none || (match ch.hostMeas with | .eis _ _ f _ => decide (1000 ≤ f) | _ => false)
    || (eisRuns ch && decide (1000 ≤ eisFreq ch.prog.cur ch.prog.eisIndex))

/-- A lane works on a converter of the channel (R137). -/
def relieved (s : State) (c : Fin 16) : Bool :=
  anyI 4 fun j => match s.meas.work[j] with
    | some w => posChan w.pos == c
    | none => false

/-- Put a position aside for a later slot. -/
def putAside (s : State) (q : Fin 32) : State :=
  if s.meas.deferred.contains q then s else { s with meas := { s.meas with deferred := s.meas.deferred ++ [q] } }

/-- The next position for a lane: a deferred one whose window has closed, otherwise the next of the rotation list that
is not deferred; no second converter of a channel on which a lane works (R137, R145). Bounded by the length of the
list. -/
def takePosition : Nat → State → Option (Fin 32) × State
  | 0, s => (none, s)
  | n + 1, s =>
    match s.meas.deferred.find? fun q => !windowOpen s (posChan q) && !relieved s (posChan q) with
    | some q => (some q, { s with meas := { s.meas with deferred := s.meas.deferred.filter fun x => x != q } })
    | none =>
      let q := rotationPos s.meas.nextPos
      let s := { s with meas := { s.meas with nextPos := (s.meas.nextPos + 1) % 32 } }
      if s.meas.deferred.contains q then takePosition n s
      else if relieved s (posChan q) then takePosition n (putAside s q)
      else (some q, s)

/-! ### One slot of a lane (R138 to R145) -/

/-- XTHR in ppm of full scale. -/
def xthr (s : State) : Nat := bits s.meas.xcfg 0 8

/-- A cross-check passes (R140): the difference is in 0.1 ppm. -/
def crossPass (s : State) (d : Int) : Bool := decide (d.natAbs ≤ 10 * xthr s)

/-- A unit is faulty: it deviates by more than half of XTHR (R142). -/
def faultyDev (s : State) (d : Int) : Bool := decide (5 * xthr s < d.natAbs)

/-- XCHECK_FAIL. -/
def crossFail (s : State) (q : Fin 32) (j : Fin 4) (k : Nat) (d : Int) : State :=
  queueEvent s 0x0403 (p1 q.val ++ p1 j.val ++ p1 k ++ p4 d)

/-- The two-point calibration of a lane for the kind and range of a position (R138 step 1). -/
def laneCalibrated (s : State) (j : Fin 4) (q : Fin 32) (m : LaneSlot) : Option (Vector Coef 4) :=
  let row := s.meas.coef[32 + j.val]
  let kind := coefKind s q
  calibrated (s.meas.hold != 0) row kind { (row[kind]) with o := m.lOff, g := m.lGain, oSet := true, gSet := true } []

/-- A lane takes the next position: its own calibration, then the settling and the window of cross-check I; a lane
outside its limits is retired, and no position is taken. A lane that takes a position after a deferral runs the whole
sequence of R138 with it, past the end of its slot, and sits out the next one. DESIGN CHOICE, log entry 213. -/
def startTry (s : State) (j : Fin 4) (tries : List LaneSlot) : State :=
  let s := setWork s j none
  match tries with
  | [] => s
  | m :: more =>
    let t := takePosition 65 s
    match t.1 with
    | none => t.2
    | some q =>
      match laneCalibrated s j q m with
      | none => retireLane s j 2
      | some row =>
        let w : LaneWork :=
          { pos := q, m := m, more := more, phase := 0, since := s.sys.tbase, start := s.sys.tbase
            ends := s.sys.tbase + 560000000, clip := false, retire := s.meas.doomed.getLsbD q.val, discard := false
            old := Vector.replicate 4 Coef.none }
        setWork (setCoef t.2 ⟨32 + j.val, by omega⟩ row) j (some w)

/-- The islands that a lane substitution concerns: the measurement island, the owner and the sequencer. DESIGN CHOICE,
log entry 13. -/
def laneIslands (s : State) (c : Fin 16) : BitVec 14 :=
  let own : BitVec 14 := match (s.grp[groupOf c]).owner with | some k => islandBit k.val | none => 0
  islandBit 5 ||| islandBit 7 ||| own

/-- Stage the substitution or the return of a lane (R24, R138). -/
def stageLane (s : State) (j : Fin 4) (w : LaneWork) : State :=
  stage (setWork s j (some w)) (.lane j) 0 none (laneIslands s (posChan w.pos))

/-- What is staged of a lane, once every island has acknowledged it. -/
def laneAcked (s : State) (j : Fin 4) : Option Staged :=
  s.staged.find? fun x => x.change == .lane j && x.waiting == 0 && x.refused == 0

/-- The unit of a position is to be retired once its substitution has been made (R142). -/
def doom (s : State) (q : Fin 32) : State := { s with meas := { s.meas with doomed := putBit s.meas.doomed q.val true } }

/-- The substitution is staged, unless it is deferred: the lane then relieves the next position (R145), and what
cross-check I has found of the unit stands until the position is taken again. -/
def substitute (s : State) (j : Fin 4) (w : LaneWork) : State :=
  let s := if w.retire then doom s w.pos else s
  if windowOpen s (posChan w.pos) then startTry (putAside s w.pos) j w.more else stageLane s j { w with phase := 1 }

/-- The difference that a cross-check compares: on the calibration source where the input was over range (R140). -/
def crossDiff (w : LaneWork) (onInput onSource : Int) : Int := if w.clip then onSource else onInput

/-- Cross-check I has been made (R142, R143, R145). -/
def crossOne (s : State) (j : Fin 4) (w : LaneWork) : State :=
  let d := crossDiff w w.m.diff1 w.m.diff1S
  if crossPass s d then substitute s j w
  else
    let s := crossFail s w.pos j 1 d
    if w.retire ∨ s.meas.suspect[w.pos] ≠ 0 then substitute s j { w with retire := true }
    else setWork s j (some { w with phase := 7, ends := s.sys.tbase + 100000000 })

/-- The measurement of the calibration source after a failed cross-check I has been made (R142). -/
def judgeOne (s : State) (j : Fin 4) (w : LaneWork) : State :=
  if faultyDev s w.m.laneDev1 then retireLane s j 1
  else if faultyDev s w.m.convDev1 then substitute s j { w with retire := true }
  else substitute { s with meas := { s.meas with suspect := s.meas.suspect.set w.pos.val 11 w.pos.isLt } } j w

/-- The three-point calibration ends: the coefficients of the unit that serves the position otherwise are taken, or it
is retired (R138 step 7, R141, R149). -/
def endCalibration (s : State) (j : Fin 4) (w : LaneWork) : State :=
  let u := unitOf s w.pos
  let row := s.meas.coef[u]
  let kind := coefKind s w.pos
  let next (s : State) : State :=
    setWork s j (some { w with phase := 4, ends := w.since + 1324000000, clip := false, old := row })
  if w.discard then next s
  else
    match calibrated (s.meas.hold != 0) row kind (fitCoef kind w.m.y0 w.m.y1 w.m.y2) [w.m.gB, w.m.gC] with
    | some r => next (setCoef s u r)
    | none => retirePosition s w.pos j 2

/-- Cross-check II has been made (R142, R143). -/
def crossTwo (s : State) (j : Fin 4) (w : LaneWork) : State :=
  let d := crossDiff w w.m.diff2 w.m.diff2S
  if crossPass s d then stageLane s j { w with phase := 5 }
  else
    let s := crossFail s w.pos j 2 d
    if s.meas.suspect[w.pos] ≠ 0 then retirePosition s w.pos j 1
    else setWork s j (some { w with phase := 8, ends := s.sys.tbase + 100000000 })

/-- The measurement of the calibration source after a failed cross-check II has been made: a lane that has become faulty
is retired, once its position has returned (R142). -/
def judgeTwo (s : State) (j : Fin 4) (w : LaneWork) : State :=
  if faultyDev s w.m.laneDev2 then stageLane (tellRetired s j 1) j { w with phase := 5 } else retirePosition s w.pos j 1

/-- The cross-check window of a lane is open: 250 ms before its end (R138). -/
def crossOpen (s : State) (w : LaneWork) : Bool :=
  (w.phase == 0 || w.phase == 4) && decide (w.ends ≤ s.sys.tbase + 250000000)

/-- The word of a position is over range. -/
def posOver (s : State) (q : Fin 32) : Bool :=
  let ch := s.ch[posChan q]
  if q.val % 2 = 0 then ch.vFl.getLsbD 2 else ch.iFl.getLsbD 2

/-- The work of a lane with the input of its position over range in the cross-check window (R140). -/
def LaneWork.clipped (s : State) (w : LaneWork) : LaneWork :=
  { w with clip := w.clip || (crossOpen s w && posOver s w.pos) }

/-- The unit of a lane. -/
def laneUnit (j : Fin 4) : Fin 36 := ⟨32 + j.val, by omega⟩

/-- The work of a lane at an epoch boundary: commits of R28, at which the channels of an engine that has failed after
its ACK hold (R26), then what falls due by TBASE (R138). -/
def laneAdvance (s : State) (j : Fin 4) : State :=
  match s.meas.work[j] with
  | none => s
  | some w0 =>
    let w := w0.clipped s
    let s := setWork s j (some w)
    let el := s.sys.tbase - w.since
    let due := decide (w.ends ≤ s.sys.tbase)
    match w.phase with
    | 0 => if due then crossOne s j w else s
    | 1 =>
      match laneAcked s j with
      | none => s
      | some x =>
        let s := startBlend (holdFailed s x) w.pos (unitOf s w.pos) (laneUnit j)
        setWork (setLane (unstageLane s j) j { st := 1, pos := w.pos }) j (some { w with phase := 2, since := s.sys.tbase })
    | 2 =>
      if el < blendNs then s
      else if w.retire then retirePosition s w.pos j 1
      else setWork s j (some { w with phase := 3 })
    | 3 => if el < 1064000000 then s else endCalibration s j w
    | 4 => if due then crossTwo s j w else s
    | 5 =>
      match laneAcked s j with
      | none => s
      | some x =>
        let s := startBlend (holdFailed s x) w.pos (laneUnit j) (unitOf s w.pos)
        setWork (unstageLane s j) j (some { w with phase := 6, since := s.sys.tbase })
    | 6 => if el < blendNs then s else setWork (setLane s j (idleLane s j)) j none
    | 7 => if due then judgeOne s j w else s
    | _ => if due then judgeTwo s j w else s

/-- IRNG changes on a channel while a cross-check window of its IM converter is open: the window starts again, within
the 51.2 ms that the sequence has to spare in all; otherwise the slot ends with the converter serving (R149). Step 4
comes at the latest 611.2 ms and step 9 at the latest 1935.6 ms after the start of the sequence. -/
def restartWindow (c : Fin 16) (s : State) (j : Fin 4) : State :=
  match s.meas.work[j] with
  | none => s
  | some w =>
    let again := s.sys.tbase + 250000000
    let w' := { w with ends := again, clip := false }
    if w.pos ≠ ampPos c ∨ crossOpen s w = false then s
    else if w.phase = 0 then
      if again ≤ w.start + 611200000 then setWork s j (some w') else setWork s j none
    else if again ≤ w.start + 1935600000 then setWork s j (some w')
    else stageLane s j { w with phase := 5 }

/-! ### Slots (R137, R144) -/

/-- A lane starts a slot. -/
def startLane (m : SlotMeas) (s : State) (j : Fin 4) : State :=
  if (s.meas.lanes[j]).st ≠ 0 ∨ s.meas.work[j] ≠ none then s else startTry s j (m.lane[j]).tries

/-- A rotation has ended: suspect marks count down, and HOLDX may clear (R143, R146). -/
def endRotation (s : State) : State :=
  { s with meas := { s.meas with
      slot := 0, rotAt := s.sys.tbase, suspect := vmap s.meas.suspect fun n => n - 1
      holdx := s.meas.holdx && s.meas.holdxEnds != 1, holdxEnds := s.meas.holdxEnds - 1 } }

/-- The rotation runs: not in BOOT, SERVICE or DORMANT, and with a free lane (R137, R144). -/
def rotationRuns (s : State) : Bool :=
  s.sys.running && s.sys.phase == .running && s.sys.mode != .dormant && s.sys.mode != .service && decide (0 < freeLanes s)

/-- The reference check of a slot: the mean over the lanes that are free, to the nearest 0.1 ppm; none without such a
lane (R134). -/
def slotRefs (m : SlotMeas) (s : State) : State :=
  let l := (List.finRange 4).filter fun j => (s.meas.lanes[j]).st == 0 && s.meas.work[j] == none
  let mean (f : LaneStart → Int) : Int := divRound (l.foldl (fun a j => a + f m.lane[j]) 0) l.length
  if l = [] then s else refCheck s (mean (·.ab)) (mean (·.x))

/-- A calibration slot starts (R134, R137, R138, R397). -/
def slotStart (m : SlotMeas) (s : State) : State :=
  if rotationRuns s = false then s
  else
    let s := if rotationSlots s ≤ s.meas.slot then endRotation s else s
    let s := { s with meas := { s.meas with slot := s.meas.slot + 1 } }
    let s := if s.meas.slot = 1 then { s with isl := { s.isl with dacf := decide (20 < m.dacDev) } } else s
    (List.finRange 4).foldl (startLane m) (slotRefs m s)

/-! ### Meanings -/

/-- CAL_SLOT_START. -/
def execCalSlotStart (m : SlotMeas) (s : State) : Host.Outcome State Fault Refusal := .next (slotStart m s)

/-- REF_MONITOR. -/
def execRefMonitor (a b x : Int) (s : State) : Host.Outcome State Fault Refusal := .next (refMonitor a b x s)

/-- CAL_HOLD_EXPIRED. -/
def execCalHoldExpired (lateNs : Nat) (reading : Int) (s : State) : Host.Outcome State Fault Refusal :=
  .next (holdExpired lateNs reading s)

end Sys2Proof.Machine
end

