-- ==== Sys2Proof/Machine/Correlator.lean ====
section
/-! DEFINITION. The arithmetic of the pulse evaluator and of the impedance correlator over the samples of the filter chains, and
the sine of the excitation (R126, R154 to R156). The manual gives the formulas and not their number format: fixed point with 48
fraction bits, halves away from zero. DESIGN CHOICE, log entry 14. -/
namespace Sys2Proof.Machine

/-! ### Sine and cosine -/

/-- Sum of the alternating series with the terms t, -t x2/((k+1)(k+2)), and so on. -/
def sineTerms (x2 : Int) : Nat → Nat → Int → Int
  | 0, _, _ => 0
  | n + 1, k, t => t + sineTerms x2 n (k + 2) (Int.neg (divRound (t * x2) (fxOne * ((k + 1) * (k + 2)))))

/-- The angle of a fraction of a turn, from -pi to pi. -/
def turnAngle (num den : Nat) : Int :=
  let r : Int := (num % den : Nat)
  divRound (fxTwoPi * (if 2 * r ≤ den then r else r - den)) den

/-- The sine of a fraction of a turn. -/
def fxSin (num den : Nat) : Int :=
  let x := turnAngle num den
  sineTerms (divRound (x * x) fxOne) 24 1 x

/-- The cosine of a fraction of a turn. -/
def fxCos (num den : Nat) : Int :=
  let x := turnAngle num den
  sineTerms (divRound (x * x) fxOne) 24 0 fxOne

/-! ### Pulse (R154) -/

/-- A mean of some samples. -/
def sampleMean (f : Sample → Int) (l : List Sample) : Int := divRound (l.foldl (fun a x => a + f x) 0) (max 1 l.length)

/-- The means of voltage and shunt voltage over the samples that end after `lo` and no later than `hi`; none without
such a sample. -/
def windowMean (l : List Sample) (lo hi : Nat) : Option (Int × Int) :=
  match l.filter fun x => decide (lo < x.tb) && decide (x.tb ≤ hi) with
  | [] => none
  | w => some (sampleMean (·.v) w, sampleMean (·.vsh) w)

/-- The time at which the shunt voltage crosses a level upwards or downwards, interpolated linearly between two
samples. -/
def crossing (level : Int) (up : Bool) : List Sample → Option Nat
  | [] => none
  | [_] => none
  | a :: b :: r =>
    let crosses := if up then decide (a.vsh < level ∧ level ≤ b.vsh) else decide (level < a.vsh ∧ b.vsh ≤ level)
    if crosses then some (a.tb + (divRound ((b.tb - a.tb : Nat) * ((level - a.vsh).natAbs : Int)) (b.vsh - a.vsh).natAbs).toNat)
    else crossing level up (b :: r)

/-- The means around a point of time, over a window of a width in ns. -/
def pointMean (l : List Sample) (at' width : Nat) : Option (Int × Int) := windowMean l (at' - width / 2) (at' + width / 2)

/-! ### Impedance (R156) -/

/-- The periods and the samples of the window of a point: M periods extended to at least 1 s, and the number of wide
samples whose f_E = M 64000/N is nearest to the requested frequency in mHz. -/
def eisWindow (freq m : Nat) : Nat × Nat :=
  let f := max 1 freq
  let m := max m ((f + 999) / 1000)
  let a := m * 64000000
  let n := a / f
  (m, if a * (2 * n + 1) ≤ 2 * f * n * (n + 1) then n else n + 1)

/-- The values less the straight line through their means over the first and the last p of them. -/
def detrend (l : List Int) (p : Nat) : List Int :=
  let n := l.length
  let p := max 1 (min p n)
  let mean (l : List Int) : Int := divRound (l.foldl (· + ·) 0) p
  let m1 := mean (l.take p)
  let m2 := mean (l.drop (n - p))
  l.zipIdx.map fun x =>
    let slope := if n = p then 0 else divRound ((m2 - m1) * (2 * x.2 - (p - 1 : Nat))) (2 * (n - p))
    x.1 - m1 - slope

/-- A list of values less the straight line, for one quantity of a window with m periods in n samples. -/
def windowValues (l : List Sample) (f : Sample → Int) (m n : Nat) : List Int :=
  detrend ((l.take n).map f) ((divRound n m).toNat)

/-- The sums of the correlator over the values of a window with m periods in n samples: v cos and -v sin. -/
def phasor (l : List Int) (m n : Nat) : Int × Int :=
  let re := l.zipIdx.foldl (fun a x => a + x.1 * fxCos (x.2 * m) n) 0
  let im := l.zipIdx.foldl (fun a x => a - x.1 * fxSin (x.2 * m) n) 0
  (divRound re fxOne, divRound im fxOne)

/-- The phasor of one quantity of a window, after removal of the straight line. -/
def correlate (l : List Sample) (f : Sample → Int) (m n : Nat) : Int × Int :=
  phasor (windowValues l f m n) m n

/-- The rms residual of the voltage after removal of the fundamental, as a fraction of the fundamental in 0.01 %; none
without a fundamental. DESIGN CHOICE for the voltage, log entry 14. -/
def residual (l : List Sample) (m n : Nat) : Option Nat :=
  let v := correlate l (·.v) m n
  let p := 2 * (v.1 * v.1 + v.2 * v.2)
  let e := (windowValues l (·.v) m n).foldl (fun a x => a + x * x) 0
  if p = 0 then none else some (isqrt (divRound ((n * e - p) * 100000000) p.toNat).toNat)

/-- The settling time of an impedance point at m/n of the sample rate, in ns: one period, or 100 ms if that is longer
(R181). -/
def settling (m n : Nat) : Nat := max 100000000 ((divRound (n * 15625) (max 1 m)).toNat)

end Sys2Proof.Machine
end

