-- ==== Sys2Proof/Machine/Measurement.lean ====
section
/-! DEFINITION. Family measurement: leg converter checks, pulse and impedance results, calibration requests and the measurement
commands (R131, R150, R154 to R156, R326, R327, R396, R397). -/
namespace Sys2Proof.Machine

/-! ### Leg converters (R131, R396, R397) -/

/-- The end of a loop-back cycle: test 3 is recorded, and the next cycle runs (R388, R397). -/
def endLoopCycle (s : State) : State :=
  let r := if s.meas.legDone < 32 then 3 else if s.meas.legBad = 0 then 1 else 2
  let s := recordTest s 3 0 r s.meas.legDone 32
  let s := if r = 1 then s else testDone s 3 r
  { s with meas := { s.meas with legIdx := 0, legDone := 0, legBad := 0 }
           isl := { s.isl with running := putBit s.isl.running 3 true } }

/-- The next leg of the cycle. -/
def nextLoopLeg (s : State) : State :=
  if h : s.meas.legIdx.val + 1 < 32 then { s with meas := { s.meas with legIdx := ⟨s.meas.legIdx.val + 1, h⟩ } }
  else endLoopCycle s

/-- The time from one loop-back slot to the next, in ns (R396). -/
def loopSlot : Nat := 312500000

/-- The end of the loop-back cycle in progress, when every slot that is left makes its check. -/
def loopCycleEnd (s : State) : Nat := s.meas.legSlotAt + loopSlot * (32 - s.meas.legIdx.val)

/-- The loop-back slot that is due is used. -/
def takeLoopSlot (s : State) : State := { s with meas := { s.meas with legSlotAt := s.meas.legSlotAt + loopSlot } }

/-- One loop-back check in the slot that is due, with the errors of its two conversions, in nV (R396): a leg in a
restart interval waits for the next slot; without the injection DAC no check is made. -/
def loopback (plus minus : Int) (s : State) : State :=
  if s.sys.running = false ∨ s.sys.tbase < s.meas.legSlotAt then s
  else if s.isl.dacf then nextLoopLeg (takeLoopSlot s)
  else
    let s := takeLoopSlot s
    let l := s.meas.legIdx
    if (s.leg[l]).restart then s
    else
      let ok := decide (plus.natAbs ≤ 795000) && decide (minus.natAbs ≤ 795000)
      let s := { s with isl := { s.isl with legLb := putBit s.isl.legLb l.val !ok }
                        meas := { s.meas with legDone := s.meas.legDone + 1, legBad := s.meas.legBad + b2n !ok } }
      let s := s.updLeg l fun x => { x with lbFail := if ok then 0 else x.lbFail + 1 }
      let s := if 2 ≤ (s.leg[l]).lbFail ∧ (s.leg[l]).park.conv = false then legConvFault s l else s
      nextLoopLeg s

/-- The offset of a leg converter is measured again while both switches of the leg are off and the channel carries
less than 10 mA (R131); the offset in nV. -/
def legOffset (l : Fin 32) (offset : Int) (s : State) : State :=
  if !legSwitching s l && decide ((s.ch[chanOfLeg l]).iP.natAbs < 10000) then s.updLeg l fun x => { x with offset := offset }
  else s

/-! ### Shunt value and full scale (R125, R150) -/

/-- MEAS_OVR of a link or AUX input, which belongs to no channel: the channel field is a free value. -/
def overRangeLink (s : State) (conv : Nat) : State :=
  let d := drawFree s
  queueRated d.2 0x040C conv 1000000000 (p1 (d.1 % 256).toNat ++ p1 conv)

/-- The temperature that compensates the shunt, in 2^-16 of a millidegree. -/
def shuntTemp (s : State) (c : Fin 16) : Int :=
  (s.therm.inp[16 + bits (s.ch[c]).mcfgF 9 3]'(by
    have : bits (s.ch[c]).mcfgF 9 3 < 8 := Nat.mod_lt _ (by decide)
    omega)).filt

/-- R_SH with its compensation, in 10 pOhm (R150). The manual gives no rounding: to the nearest 10 pOhm. DESIGN CHOICE,
log entry 214. While the input is in voltage mode no temperature is formed, and the last one stands. DESIGN CHOICE, log
entry 215. -/
def shuntValue (s : State) (c : Fin 16) : Int :=
  let ch := s.ch[c]
  let r : Int := ch.rsh.toNat
  if ch.mcfgF.getLsbD 8 then
    let dt := shuntTemp s c - sbits ch.tcF 0 16 * 655360
    divRound (r * (6553600000000000 + sbits ch.tcF 16 16 * dt)) 6553600000000000
  else r

/-- Full scale of IM in uV: 25, 50 or 100 mV. -/
def fullScaleUv (ch : Chan) : Nat := 25000 * 2 ^ bits ch.mcfgF 0 2

/-- Full scale of the current in uA. -/
def fullScaleUa (s : State) (c : Fin 16) : Int := divRound (fullScaleUv s.ch[c] * 100000000000) (shuntValue s c).toNat

/-! ### Corrected samples (R126, R139, R141) -/

/-- Full scale of VM in nV, and of IM in pV. -/
def fullScaleNv : Nat := 6000000000
def fullScalePv (ch : Chan) : Nat := fullScaleUv ch * 1000000

/-- A sample corrected and through the blend. -/
def formSample (s : State) (c : Fin 16) (x : Sample) : Sample :=
  { x with v := formed s (voltPos c) x.tb fullScaleNv x.v x.vOld
           vsh := formed s (ampPos c) x.tb (fullScalePv s.ch[c]) x.vsh x.vshOld }

/-- A window of a channel overlaps a blend of one of its converters (R145, R154). -/
def chanBlend (s : State) (c : Fin 16) (lo hi : Nat) : Bool := blendIn s (voltPos c) lo hi || blendIn s (ampPos c) lo hi

/-! ### Pulse and impedance results (R154 to R156, R180, R181) -/

/-- R_DC at one point in 0.1 uOhm from means in nV and pV before and at the point; none without a mean, or where the
current step is below 1 % of full scale. -/
def rdcAt (s : State) (c : Fin 16) (pre point : Option (Int × Int)) : Option Int :=
  match pre, point with
  | some a, some b =>
    let di := b.2 - a.2
    if di = 0 ∨ 100 * di.natAbs < fullScaleUv s.ch[c] * 1000000 then none
    else
      let q := divRound ((b.1 - a.1) * shuntValue s c) (10 * di.natAbs)
      some (if di < 0 then Int.neg q else q)
  | _, _ => none

/-- A point of a PULSE record. -/
def rdcBytes (r : Option Int) : List Byte := match r with | some v => p4 v | none => toLE 4 0x80000000

/-- The time t_0 of a pulse with a current target, committed at a TBASE: the wide current crosses half the step, that
of one member of a gang its share of it. DEDUCED, log entry 189. -/
def pulseStart (s : State) (c : Fin 16) (i1 : Int) (pre : Int × Int) (m : PulseMeas) : Option Nat :=
  let goal := divRound (i1 * shuntValue s c) (100000 * (members s c).length)
  crossing (divRound (pre.2 + goal) 2) (decide (pre.2 < goal)) m.wide

/-- The three R_DC values of a pulse: V and I before the commit over 10 ms, then over 125 us of wide samples around
t_0 + 1 ms, 1 ms of precision samples around t_0 + 10 ms and 10 ms of them around t_0 + 100 ms. -/
def pulsePoints (s : State) (c : Fin 16) (at' : Nat) (t0 : Option Nat) (m : PulseMeas) : List (Option Int) :=
  let pre := windowMean m.prec (at' - 10000000) at'
  match t0 with
  | none => [none, none, none]
  | some t =>
    [rdcAt s c pre (pointMean m.wide (t + 1000000) 125000), rdcAt s c pre (pointMean m.prec (t + 10000000) 1000000),
     rdcAt s c pre (pointMean m.prec (t + 100000000) 10000000)]

/-- The window of a point of a pulse overlaps a blend: 125 us at 1 ms, 1 ms at 10 ms and 10 ms at 100 ms (R154). -/
def pulseBlend (s : State) (c : Fin 16) (t0 : Option Nat) : Bool :=
  match t0 with
  | none => false
  | some t =>
    [(1000000, 125000), (10000000, 1000000), (100000000, 10000000)].any fun p =>
      chanBlend s c (t + p.1 - p.2 / 2) (t + p.1 + p.2 / 2)

/-- The pulse evaluator reports (R154): a PULSE record of a program, or the reply of MEAS_PULSE. -/
def pulseDone (c : Fin 16) (raw : PulseMeas) (s : State) : State :=
  match (s.ch[c]).pulseArmed with
  | none => s
  | some (i1, at') =>
    let m : PulseMeas := { prec := raw.prec.map (formSample s c), wide := raw.wide.map (formSample s c) }
    let t0 := (windowMean m.prec (at' - 10000000) at').bind fun pre => pulseStart s c i1 pre m
    let l := pulsePoints s c at' t0 m
    let bytes := l.flatMap rdcBytes
    let s := s.updCh c fun ch => { ch with pulseArmed := none, pulseT0 := t0.getD ch.pulseT0 }
    match (s.ch[c]).hostMeas with
    | .pulse d (some t) => reply (s.updCh c fun ch => { ch with hostMeas := .pulse d none }) t 0x51 stOk bytes
    | .pulseEnd t => reply (s.updCh c fun ch => { ch with hostMeas := .none }) t 0x51 stOk bytes
    | _ =>
      let blend := pulseBlend s c t0
      let s := formRecord s c 5 (measFlags s blend false (measInvalid s c) false) bytes
      let r10 := (l.drop 1).head?.join
      s.updProg c fun p =>
        let g := if blend then p.grade.flag 3 else p.grade
        { p with grade := { g with rdc10 := if stFlag p.cur 3 && r10.isSome then r10 else g.rdc10 } }

/-- The requested frequency of an impedance point in mHz and its periods. -/
def eisPoint (ch : Chan) : Nat × Nat :=
  match ch.hostMeas with
  | .eis _ m f _ => (f, m)
  | _ => (eisFreq ch.prog.cur ch.prog.eisIndex, eisPeriods ch.prog.cur)

/-- What an impedance point reports: f_E in mHz, real and imaginary part in 0.1 uOhm, the achieved current and the DC
current in uA. -/
structure EisPoint where
  fE : Nat
  re : Int
  im : Int
  amp : Nat
  dc : Int
deriving DecidableEq, Repr

/-- The point of a window with m periods in n samples (R156): the voltage phasor in nV by that of the shunt voltage in
pV, with the shunt as R + j w L. Without any current the manual states no impedance: its parts are free values (log
entry 65). -/
def impedance (s : State) (c : Fin 16) (m n : Nat) (e : EisMeas) : EisPoint × State :=
  let r := shuntValue s c
  let a := m * 64000000
  let x := divRound (fxTwoPi * (a * bits (s.ch[c]).esl 0 16 : Nat)) (fxOne * 10000 * n)
  let v := correlate e.wide (·.v) m n
  let i := correlate e.wide (·.vsh) m n
  let re := v.1 * i.1 + v.2 * i.2
  let im := v.2 * i.1 - v.1 * i.2
  let d := (i.1 * i.1 + i.2 * i.2).toNat
  let dc := divRound (sampleMean (·.vsh) (e.wide.take n) * 100000) r.toNat
  let fE := (divRound a n).toNat
  if d = 0 then
    let p := drawFree s
    let q := drawFree p.2
    ({ fE := fE, re := p.1, im := q.1, amp := 0, dc := dc }, q.2)
  else
    ({ fE := fE, re := divRound (re * r - im * x) (d * 10), im := divRound (re * x + im * r) (d * 10),
       amp := isqrt (d * 40000000000 / (n * n * (r * r + x * x).toNat)), dc := dc }, s)

/-- The samples of the window of a point with m periods in n samples: those after the settling time of an excitation
that started at a TBASE; none before the window has ended (R156, R181). -/
def eisSamples (l : List Sample) (at' m n : Nat) : Option (List Sample) :=
  let w := (l.filter fun x => decide (at' + settling m n < x.tb)).take n
  if w.length < n then none else some w

/-- The result of a window that has ended goes to the host, or into EIS records of a program (R156, R181). -/
def eisReport (c : Fin 16) (m n : Nat) (e : EisMeas) (s : State) : State :=
  let z := impedance s c m n e
  let d := match residual e.wide m n with
    | some r => (r, z.2)
    | none => let d := drawFree z.2; (d.1.toNat, d.2)
  let lo := match e.wide with | x :: _ => x.tb - 15625 | [] => 0
  let blend := chanBlend s c lo (lo + n * 15625)
  let clamp := (s.ch[c]).excClamp
  let next (s : State) : State := s.updCh c fun ch => { ch with dds := 0, excAt := none, excClamp := false }
  match (s.ch[c]).hostMeas with
  | .eis t _ _ _ =>
    reply (next (d.2.updCh c fun ch => { ch with hostMeas := .none })) t 0x52 stOk
      (toLE 4 z.1.fE ++ p4 z.1.re ++ p4 z.1.im ++ toLE 4 (satNat 32 z.1.amp) ++ toLE 2 (satNat 16 d.1)
        ++ p1 (b2n blend + 2 * b2n clamp) ++ [0])
  | _ =>
    let s := next d.2
    let p := (s.ch[c]).prog
    let k := p.eisIndex
    let fl := measFlags s blend clamp (measInvalid s c) false
    let s := formRecord s c 6 fl (toLE 4 z.1.fE ++ p4 z.1.re ++ p4 z.1.im)
    let s := formRecord s c 7 fl (p1 k ++ p1 p.step ++ toLE 2 (satNat 16 d.1) ++ toLE 4 (satNat 32 z.1.amp) ++ p4 z.1.dc)
    let s := s.updProg c fun p => { p with eisIndex := k + 1, grade := if blend then p.grade.flag 3 else p.grade }
    if eisIncludes p.cur (k + 1) then s else decideEnd s c 4 2 3 0xFD

/-- A point is being measured on a channel. -/
def eisActive (ch : Chan) : Bool := (match ch.hostMeas with | .eis _ _ _ _ => true | _ => false) || eisRuns ch

/-- An impedance window ends, once its excitation has settled and run for the window (R156, R181). -/
def eisDone (c : Fin 16) (raw : EisMeas) (s : State) : State :=
  let w := eisWindow (eisPoint s.ch[c]).1 (eisPoint s.ch[c]).2
  match (s.ch[c]).excAt with
  | none => s
  | some t =>
    match eisSamples raw.wide t w.1 w.2 with
    | none => s
    | some l => if eisActive s.ch[c] then eisReport c w.1 w.2 { wide := l.map (formSample s c) } s else s

/-! ### Measurement commands (R327) -/

/-- A channel on which a measurement command is served: RUN under HAND or DIRECT, not in burst trickle. -/
def measServed (s : State) (c : Fin 16) : Bool :=
  (s.ch[c]).st == .run && (s.ch[c]).src != .auto && !(s.ch[c]).burst && !isFollower s c

/-- A measurement command runs, or waits for its boundary, on a channel. -/
def measBusy (s : State) (c : Fin 16) : Bool :=
  (s.ch[c]).hostMeas != .none || s.staged.any fun x => match x.change with | .pulse d _ _ => d == c | _ => false

/-- MEAS_PULSE. -/
def measPulseBody (b : Byte) (i1 dur : Word) (r : Request) (s : State) : State × Completion :=
  match chanOf? b with
  | none => (s, .status stBadParam)
  | some c =>
    if dur.toNat < 110 ∨ 60000 < dur.toNat then (s, .status stBadParam)
    else if measServed s c = false then (s, .status stWrongMode)
    else if measBusy s c then (s, .status stBusyRetry)
    else (stage s (.pulse c i1.toInt (dur.toNat * 1000000)) r.opc (some r.tag) (channelIslands s [c]), .later)

/-- The pulse of a MEAS_PULSE begins at its boundary; a channel that no longer serves it gives ABORTED. -/
def commitPulse (s : State) (c : Fin 16) (i1 : Int) (durNs : Nat) (tag : ReqId) : State :=
  if measServed s c then
    s.updCh c fun ch =>
      { ch with hostMeas := .pulse durNs (some tag), pulseArmed := some (i1, s.sys.tbase), tgtI := i1, rateI := bits ch.iramp 0 20 }
  else reply s tag 0x51 stAborted []

/-- The time of a pulse passes by one epoch; at its end the target returns to CHn_ISET. -/
def pulseTick (ch : Chan) (ns : Nat) : Chan :=
  match ch.hostMeas with
  | .pulse d t =>
    if ns < d then { ch with hostMeas := .pulse (d - ns) t }
    else
      { ch with hostMeas := (match t with | some t => .pulseEnd t | none => .none), tgtI := ch.iset.toInt,
                rateI := bits ch.iramp 0 20 }
  | _ => ch

/-- MEAS_EIS. -/
def measEisBody (b m : Byte) (freq amp : Word) (r : Request) (s : State) : State × Completion :=
  match chanOf? b with
  | none => (s, .status stBadParam)
  | some c =>
    if 15 < m.toNat ∨ freq.toNat < 10 ∨ 5000000 < freq.toNat ∨ amp.toNat < 1000 ∨ iMax s c < (amp.toNat : Int) then
      (s, .status stBadParam)
    else if measServed s c = false then (s, .status stWrongMode)
    else if measBusy s c then (s, .status stBusyRetry)
    else
      (s.updCh c fun ch =>
        { ch with hostMeas := .eis r.tag (m.toNat + 1) freq.toNat amp.toNat, dds := 0
                  excAt := none, excClamp := false }, .later)

/-! ### Calibration requests (R148, R326) -/

/-- CAL_REQUEST kind 0. -/
def calRotationBody (s : State) : State × Completion :=
  if s.sys.mode = .service then (s, .status stWrongMode)
  else if freeLanes s = 0 then (s, .status stFaultActive)
  else (s, .now stDeferred (toLE 8 (s.meas.rotAt + rotationSlots s * 2000000000)))

/-- CAL_REQUEST kinds 1 and 2. -/
def calTrimBody (kind limit : Nat) (arg : Byte) (value : Word) (r : Request) (s : State) : State × Completion :=
  if s.sys.mode ≠ .service then (s, .status stWrongMode)
  else if limit < arg.toNat then (s, .status stBadParam)
  else if nvmBusy s then (s, .status stBusyRetry)
  else ({ s with isl := { s.isl with nvmOp := .calTrim kind arg.toNat value, opTag := some r.tag } }, .later)

/-- A trim or factory calibration ends (R326); the deviation found is in 0.01 ppm. The coefficients of a factory trim,
which no operand gives, are free values. DESIGN CHOICE, log entry 8. -/
def calTrimEnd (ok : Bool) (deviation : Int) (s : State) : State :=
  match s.isl.nvmOp with
  | .calTrim kind arg value =>
    let s := { s with isl := { s.isl with nvmOp := .none } }
    if ok = false then replyOp (nvmFail s 1) 0x50 stNvmError []
    else if kind = 1 then
      let t := if arg = 0 then s.nvm.refTrim.set 0 value.toNat else s.nvm.refTrim.set 1 value.toNat
      replyOp { s with nvm := { s.nvm with refTrim := t } } 0x50 stOk (p4 deviation)
    else
      let o := drawFree s
      let g := drawFree o.2
      let k := drawFree g.2
      let s := k.2
      replyOp { s with nvm := { s.nvm with posTrim := (arg, o.1, g.1, k.1) :: s.nvm.posTrim.filter fun x => x.1 != arg } }
        0x50 stOk []
  | _ => s

/-! ### Meanings -/

/-- LOOPBACK_CHECK. -/
def execLoopbackCheck (plus minus : Int) (s : State) : Host.Outcome State Fault Refusal := .next (loopback plus minus s)

/-- LEG_OFFSET_MEASURE. -/
def execLegOffsetMeasure (leg : Fin 32) (offset : Int) (s : State) : Host.Outcome State Fault Refusal :=
  .next (legOffset leg offset s)

/-- PULSE_EVAL_DONE. -/
def execPulseEvalDone (ch : Fin 16) (m : PulseMeas) (s : State) : Host.Outcome State Fault Refusal :=
  .next (pulseDone ch m s)

/-- EIS_POINT_DONE. -/
def execEisPointDone (ch : Fin 16) (m : EisMeas) (s : State) : Host.Outcome State Fault Refusal := .next (eisDone ch m s)

/-- MEAS_PULSE. -/
def execMeasPulse (ch : Byte) (i1 dur : Word) (s : State) : Host.Outcome State Fault Refusal :=
  .next (hostCommand (.measPulse ch i1 dur) true s (measPulseBody ch i1 dur))

/-- MEAS_EIS. -/
def execMeasEis (ch m : Byte) (freq amp : Word) (s : State) : Host.Outcome State Fault Refusal :=
  .next (hostCommand (.measEis ch m freq amp) true s (measEisBody ch m freq amp))

/-- CAL_REQUEST kind 0. -/
def execCalRequestRotation (s : State) : Host.Outcome State Fault Refusal :=
  .next (hostCommand .calRequestRotation true s fun _ s => calRotationBody s)

/-- CAL_REQUEST kind 1. -/
def execCalRequestRefTrim (arg : Byte) (value : Word) (s : State) : Host.Outcome State Fault Refusal :=
  .next (hostCommand (.calRequestRefTrim arg value) true s (calTrimBody 1 1 arg value))

/-- CAL_REQUEST kind 2. -/
def execCalRequestFactory (arg : Byte) (value : Word) (s : State) : Host.Outcome State Fault Refusal :=
  .next (hostCommand (.calRequestFactory arg value) true s (calTrimBody 2 31 arg value))

/-- The end of a trim or factory calibration. -/
def execCalTrimDone (ok : Bool) (deviation : Int) (s : State) : Host.Outcome State Fault Refusal :=
  .next (calTrimEnd ok deviation s)

end Sys2Proof.Machine
end

