-- ==== Sys2Proof/Machine/Formation.lean ====
section
/-! DEFINITION. Family formation service, its events: flag fall, the charge cap, periodic and OCV records, and the end of a
reduce band or of a temperature hold (R173 to R175, R182, R185). -/
namespace Sys2Proof.Machine

/-- The program of a channel runs a step. -/
def stepRuns (ch : Chan) : Bool := ch.prog.pstate == .run && ch.prog.started && ch.st == .run

/-- The derated samples as they extend the timer: at most half of all samples (R174). -/
def stretchShare (p : Prog) : Nat := if stFlag p.cur 0 then min (2 * p.derated) p.samples else 0

/-- Step time has reached k TMAX (R174). -/
def timerEnds (p : Prog) : Bool :=
  if p.samples = 0 then decide (stTmax p.cur * 1000000000 ≤ p.stepNs)
  else decide (stTmax p.cur * 1000000000 * (2 * p.samples + stretchShare p) ≤ 2 * p.samples * p.stepNs)

/-- f_D exceeds 0.10. -/
def Prog.mostlyDerated (p : Prog) : Bool := decide (p.samples < 10 * p.derated)

/-- Flag fall at the end of an epoch e, which the boundary just passed has counted: it takes effect at the next,
B(e+2) (R174). -/
def flagFalls (c : Fin 16) (s : State) : State :=
  let p := (s.ch[c]).prog
  if stepRuns s.ch[c] ∧ 0 < stTmax p.cur ∧ timerEnds p then
    if p.mostlyDerated then decideEnd s c 6 1 0x11 (stDnext p.cur) else decideEnd s c 6 1 0x10 (stSnext p.cur)
  else s

/-- The step charge has reached QCAP (R175). -/
def capReached (p : Prog) : Bool :=
  currentCarrying p.cur && decide (0 < stQcap p.cur)
    && decide (stQcap p.cur * (1000 * 2 ^ 32) ≤ p.charge.natAbs)

/-- The charge cap (R175). -/
def chargeCaps (c : Fin 16) (s : State) : State :=
  let p := (s.ch[c]).prog
  if stepRuns s.ch[c] ∧ capReached p then decideEnd s c 5 2 4 (stSnext p.cur) else s

/-- The mean of a sum, 0 without terms. -/
def meanOf (sum : Int) (n : Nat) : Int := if n = 0 then 0 else divRound sum n

/-- The interval of the periodic record has ended (R185). -/
def periodicRecord (c : Fin 16) (s : State) : State :=
  let p := (s.ch[c]).prog
  let iv := stLogNs p.cur
  if stepRuns s.ch[c] ∧ 0 < iv ∧ iv ≤ p.perNs then
    let temp := if p.perBad then toLE 2 0x8000 else toLEInt 2 (satInt 16 (divRound (meanOf p.sumT p.sumTn) 10))
    let s := formRecordAt s c 4 (measFlags s p.perBlend false (p.perBad || p.perInv) p.perDer)
      (p4 (meanOf p.sumV p.sumN) ++ p4 (meanOf p.sumI p.sumN) ++ temp ++ p1 p.step ++ p1 (s.ch[c]).win.val)
    s.updProg c fun p =>
      { p with sumV := 0, sumI := 0, sumN := 0, sumT := 0, sumTn := 0, perBad := false, perInv := false, perBlend := false,
               perDer := false, perNs := p.perNs - iv }
  else s

/-- The least-squares slope of 1 s means in nV, the latest first, in 0.1 uV/h; none with fewer than two (R182). -/
def ocvSlope (l : List (Int × Int)) : Option Int :=
  let n := l.length
  if n < 2 then none
  else some (divRound (216 * l.zipIdx.foldl (fun a x => a + ((n : Int) - 1 - 2 * x.2) * x.1.1) 0) (n * (n * n - 1)))

/-- The mean of up to 10 of the latest 1 s means in uV; none without one. -/
def ocvMean (l : List (Int × Int)) : Option Int :=
  match l.take 10 with
  | [] => none
  | w => some (divRound (w.foldl (fun a x => a + x.1) 0) (1000 * w.length))

/-- A value, or a free one where the manual states none. -/
def orFree (x : Option Int) (s : State) : Int × State := match x with | some v => (v, s) | none => drawFree s

/-- IT seconds after an OCV step started, its fit over the last PT seconds is recorded once (R182): slope, mean of V_S
over the last 10 s, and the change in temperature of the measurement island over the fit window in 0.01 K. Where the
ramp to zero has left too few means, the manual states no value: a free one. DESIGN CHOICE, log entry 8. -/
def ocvRecord (c : Fin 16) (s : State) : State :=
  let p := (s.ch[c]).prog
  let r := p.cur
  if stepRuns s.ch[c] ∧ stType r = 0x0A ∧ p.eisIndex = 0 ∧ (stIt r).toNat * 1000000000 ≤ p.stepNs then
    let fit := p.ocvMeans.take (stPtN r)
    let slope := orFree (ocvSlope fit) s
    let mean := orFree (ocvMean p.ocvMeans) slope.2
    let dT := orFree (fit.getLast?.map fun x => measTemp s - x.2) mean.2
    let s := formRecord dT.2 c 8 (measFlags s p.stepBlend false (measInvalid s c) false)
      (p4 slope.1 ++ p4 mean.1 ++ toLE 2 (satNat 16 (stPtN r / 60)) ++ toLEInt 2 (satInt 16 dT.1))
    s.updProg c fun p =>
      let g := if p.stepBlend then p.grade.flag 3 else p.grade
      { p with eisIndex := 1, grade := { g with drift := if stFlag r 3 then some (sat32 slope.1) else g.drift } }
  else s

/-! ### Temperature windows (R173) -/

/-- The hottest and the coldest temperature among the members, in millidegrees. -/
def cellSpan (s : State) (c : Fin 16) : Int × Int :=
  let t (d : Fin 16) : Int := (s.therm.inp[d.val]'(by omega)).temp
  (maxOver (members s c) t, Int.neg (maxOver (members s c) fun d => Int.neg (t d)))

/-- A temperature input of a member is broken (R283). -/
def cellBroken (s : State) (c : Fin 16) : Bool := (members s c).any fun d => (s.therm.inp[d.val]'(by omega)).broken

/-- Every member lies inside a band narrowed by a margin, in 0.01 degrees. -/
def cellWithin (s : State) (c : Fin 16) (lo hi margin : Int) : Bool :=
  let t := cellSpan s c
  decide ((lo + margin) * 10 ≤ t.2) && decide (t.1 ≤ (hi - margin) * 10)

/-- The reduce band is left: the temperature has been 1 K inside it for 10 s, and the full target returns. -/
def reduceEnds (c : Fin 16) (s : State) : State :=
  let p := (s.ch[c]).prog
  let h := p.recipe.header
  if p.tred ∧ p.pstate.active ∧ !cellBroken s c ∧ cellWithin s c (hdrBound h 0) (hdrBound h 1) 100 then
    let s := queueEvent (s.updProg c fun p => { p with tred := false }) 0x0215 (p1 c.val ++ p1 0)
    if p.pstate = .hand then s else setStepTargets s c
  else s

/-- The reduce band is entered. -/
def reduceBegins (s : State) (c : Fin 16) : State :=
  let s := queueEvent (s.updProg c fun p => { p with tred := true }) 0x0215 (p1 c.val ++ p1 1)
  if (s.ch[c]).prog.pstate = .hand then s else setStepTargets s c

/-- The hold cause TEMPWIN clears: the temperature has been 2 K inside the suspend window for 10 s. -/
def tempwinEnds (c : Fin 16) (s : State) : State :=
  let p := (s.ch[c]).prog
  let h := p.recipe.header
  if p.causes.contains hcTempwin ∧ !cellBroken s c ∧ cellWithin s c (hdrBound h 2) (hdrBound h 3) 200 then
    (clearCauses s c [hcTempwin]).updProg c fun p => { p with suspend := 0 }
  else s

/-- A TEMP condition is met in this refresh (R168). -/
def tempMet (s : State) (c : Fin 16) (cd : List Byte) : Bool :=
  cellBroken s c ||
    if cdBelow cd then decide ((cellSpan s c).2 < cdValue cd * 10) else decide (cdValue cd * 10 < (cellSpan s c).1)

/-- A refresh of the temperature input of a channel or leader: windows, TEMP conditions, and the mean of the periodic
record (R168, R173, R185). -/
def tempRefresh (s : State) (c : Fin 16) : State :=
  let p := (s.ch[c]).prog
  if stepRuns s.ch[c] = false then s
  else
    let r := p.cur
    let h := p.recipe.header
    let s := s.updProg c fun p =>
      { p with sumT := p.sumT + (s.therm.inp[c.val]'(by omega)).temp, sumTn := p.sumTn + 1,
               perBad := p.perBad || (s.therm.inp[c.val]'(by omega)).broken }
    let s := [0, 1, 2, 3].foldl (fun s k =>
      let cd := stCond r k
      if cdKind cd ≠ 8 then s
      else
        let n := if tempMet s c cd then (s.ch[c]).prog.pers.toList.getD k 0 + 1 else 0
        let s := s.updProg c fun p => { p with pers := p.pers.setIfInBounds k n }
        if 0 < n ∧ cdQual cd ≤ n then decideEnd s c k 2 8 (cdNext cd) else s) s
    if windowsApply s.ch[c] r = false then s
    else
      let out := cellBroken s c || !cellWithin s c (hdrBound h 2) (hdrBound h 3) 0
      let n := if out then p.suspend + 1 else 0
      let s := s.updProg c fun p => { p with suspend := n }
      if 3 ≤ n then addCause s c hcTempwin
      else if !out && !p.tred && !cellWithin s c (hdrBound h 0) (hdrBound h 1) 0 then reduceBegins s c
      else s

/-! ### Meanings -/

/-- FLAG_FALL. -/
def execFlagFall (ch : Fin 16) (s : State) : Host.Outcome State Fault Refusal := .next (flagFalls ch s)

/-- CHARGE_CAP. -/
def execChargeCap (ch : Fin 16) (s : State) : Host.Outcome State Fault Refusal := .next (chargeCaps ch s)

/-- PERIODIC_RECORD. -/
def execPeriodicRecord (ch : Fin 16) (s : State) : Host.Outcome State Fault Refusal := .next (periodicRecord ch s)

/-- OCV_RECORD. -/
def execOcvRecord (ch : Fin 16) (_fit _mean _temp : Unit) (s : State) : Host.Outcome State Fault Refusal :=
  .next (ocvRecord ch s)

/-- TEMP_REDUCE. -/
def execTempReduce (ch : Fin 16) (s : State) : Host.Outcome State Fault Refusal := .next (reduceEnds ch s)

/-- TEMPWIN_CLEAR. -/
def execTempwinClear (ch : Fin 16) (s : State) : Host.Outcome State Fault Refusal := .next (tempwinEnds ch s)

end Sys2Proof.Machine
end

