-- ==== Sys2Proof/Machine/CanOps.lean ====
section
/-! DEFINITION. The rack-bus controller's shared operations: switching on and off, transmit buffers, ranking, device
messages, acceptance filters and receive FIFOs, and the writes of CAN_CTL, CAN_TXADD, CAN_TXCANCEL and CAN_RXACKf
(R339 to R359). -/
namespace Sys2Proof.Machine

/-! ### The controller -/

/-- The controller is enabled: CAN_CTL.EN, from step 13 of BOOT on (R358). -/
def canOn (s : State) : Bool := s.can.ctl.getLsbD 0 && s.sys.running

/-- CAN_CTL.OPM: 0 normal, 1 listen-only, 2 internal loop-back. -/
def canMode (s : State) : Nat := bits s.can.ctl 1 2

/-- The controller takes part in the bus: on, joined, not in bus-off, with VIO present, and its island not in a restart
(R14, R343, R351, R411). -/
def canActive (s : State) : Bool := canOn s && s.can.joined && s.can.est != 2 && s.port.vio && !islandDown s 10

/-- The controller sends frames: active, and not in listen-only. -/
def canSends (s : State) : Bool := canActive s && canMode s != 1

/-- CAN_TCFG.TSEN: start-of-frame timestamps. -/
def timestampsOn (s : State) : Bool := s.can.tcfg.getLsbD 0

/-- The network time service runs: CAN_TCFG.NTEN with the controller on (R353, R355). -/
def timeService (s : State) : Bool := canOn s && s.can.tcfg.getLsbD 1

/-- The status message is enabled (R355). -/
def statusService (s : State) : Bool := canOn s && s.can.msgcfg.getLsbD 29

/-- LINK_NODE.EN in force. -/
def linkNodeOn (s : State) : Bool := s.link.act.node.getLsbD 16

/-- Budget messages are formed, sent and received (R192, R355). -/
def budgetService (s : State) : Bool := canOn s && linkNodeOn s

/-- LINK_NODE.ID in force. -/
def nodeId (s : State) : Nat := bits s.link.act.node 0 4

/-- LINK_NODE.LNK in force. -/
def nodeLnk (s : State) : Nat := bits s.link.act.node 8 4

/-- A transmit buffer is held by a device message (R344). -/
def heldBuffer (s : State) (b : Fin 16) : Bool :=
  match b.val with
  | 13 => timeService s
  | 14 => statusService s
  | 15 => budgetService s
  | _ => false

/-! ### Transmit buffers (R344 to R346) -/

/-- The SRAM address of the element of TBb. -/
def txElement (b : Fin 16) : Nat := 0x103FF000 + 0x50 * b.val

/-- The bytes of an element. -/
def elementSize : Nat := 0x50

/-- The identifier word of an element. -/
def elemId (e : List Byte) : Word := leWord (slice e 0 4)

/-- ONESHOT of an element. -/
def elemOneShot (e : List Byte) : Bool := (byteAt e 5).getLsbD 0

/-- The rank of a frame: the value in identifier bits 28:18, an 11-bit identifier ahead of the 29-bit ones, then the
other bits (R345). -/
def elemRank (e : List Byte) : Nat :=
  let w := elemId e
  if w.getLsbD 29 then bits w 18 11 * 2 ^ 19 + 2 ^ 18 + bits w 0 18 else bits w 0 11 * 2 ^ 19

/-- Update buffer b. -/
def State.updTx (s : State) (b : Fin 16) (f : TxBuf → TxBuf) : State :=
  { s with can := { s.can with tx := vmod s.can.tx b f } }

/-- The pending buffer of highest rank; equal identifiers in increasing buffer number (R345). -/
def topBuffer (s : State) : Option (Fin 16) :=
  channels.foldl (fun best b =>
    if (s.can.tx[b]).pend then
      match best with
      | none => some b
      | some a => if elemRank (s.can.tx[b]).elem < elemRank (s.can.tx[a]).elem then some b else best
    else best) none

/-- Whether the pending buffer of highest rank has begun its transmission by now. No command tells when a frame
starts: it is a free value (log entry 24). -/
def markStarted (s : State) : State :=
  match s.can.inTx, topBuffer s with
  | none, some b =>
    if canSends s then
      let d := drawFree s
      { d.2 with can := { d.2.can with inTx := if d.1 % 2 = 1 then some b else none } }
    else s
  | _, _ => s

/-- The frame of a buffer may be the one that ends on the bus: it is known to be in transmission, or none is, and it
has the highest rank (R345, R350, R351). -/
def mayComplete (s : State) (b : Fin 16) : Bool :=
  (s.can.tx[b]).pend && (match s.can.inTx with | some a => a == b | none => topBuffer s == some b)

/-- No frame is in transmission any more. -/
def endTransmission (s : State) : State := { s with can := { s.can with inTx := none } }

/-- A buffer leaves without having been sent: its FAIL bit is set (R345, R346). -/
def failBuffer (s : State) (b : Fin 16) : State :=
  let s := s.updTx b fun _ => TxBuf.empty
  { s with can := { s.can with failed := putBit s.can.failed b.val true, failedNew := putBit s.can.failedNew b.val true } }

/-- A request for TBb: the element is copied; a pending buffer is not affected (R344). -/
def requestBuffer (s : State) (b : Fin 16) : State :=
  if (s.can.tx[b]).pend then s
  else s.updTx b fun _ =>
    { pend := true, cancel := false, elem := memReadList s.mem (txElement b) elementSize, next := [] }

/-- A write of CAN_TXADD (R344). -/
def canTxAdd (s : State) (v : Word) : State × Byte :=
  let m : Mask := v.truncate 16
  if m = 0 then (s, stOk)
  else if canOn s = false ∨ (bitList m).any (heldBuffer s) then (s, stWrongMode)
  else ((bitList m).foldl requestBuffer (markStarted s), stOk)

/-- Cancel one buffer: a frame in transmission completes or fails without retry, any other pending frame is removed
(R346). -/
def cancelBuffer (s : State) (b : Fin 16) : State :=
  if (s.can.tx[b]).pend then
    if s.can.inTx = some b then s.updTx b fun x => { x with cancel := true } else failBuffer s b
  else s

/-- A write of CAN_TXCANCEL (R346). -/
def canTxCancel (s : State) (v : Word) : State × Byte :=
  ((bitList (v.truncate 16 : Mask)).foldl cancelBuffer (markStarted s), stOk)

/-! ### Receive FIFOs (R348) -/

/-- Update FIFO f. -/
def State.updFifo (s : State) (f : Fin 2) (g : RxFifo → RxFifo) : State :=
  { s with can := { s.can with rxf := vmod s.can.rxf f g } }

/-- The SRAM address of element i of RXFf. -/
def rxElement (f : Fin 2) (i : Nat) : Nat := 0x10330000 + 0xA00 * f.val + 0x50 * i

/-- Release the m oldest elements of a FIFO. -/
def releaseFifo (s : State) (f : Fin 2) (m : Nat) : State :=
  s.updFifo f fun x => { x with get := (x.get + m) % 32, fill := x.fill - m }

/-- A write of CAN_RXACKf (R348): NREL runs from 1 to FILL. -/
def canRxAck (s : State) (f : Fin 2) (v : Word) : State × Byte :=
  let m := bits v 0 6
  if m = 0 ∨ (s.can.rxf[f]).fill < m then (s, stBadParam) else (releaseFifo s f m, stOk)

/-- The payload length of a DLC (ISO 11898-1). -/
def dlcLength (dlc : Nat) (fdf : Bool) : Nat :=
  if dlc ≤ 8 then dlc
  else if fdf then [12, 16, 20, 24, 32, 48, 64].getD (dlc - 9) 64
  else 8

/-- The frame that the bus carries for an element: without FDF, no bit-rate switching and at most 8 bytes (R344). -/
def sentOf (e : List Byte) (sof : Nat) (est : Nat) : CanFrame :=
  let w := elemId e
  let c := leWord (slice e 4 4)
  let fdf := c.getLsbD 4
  let dlc := if fdf then bits c 0 4 else min 8 (bits c 0 4)
  { id := if w.getLsbD 29 then w.truncate 29 else BitVec.ofNat 29 (bits w 0 11), xtd := w.getLsbD 29, fdf := fdf
    brs := fdf && c.getLsbD 5, esi := fdf && est == 1, rtr := false, dlc := BitVec.ofNat 4 dlc
    data := (e.drop 16).take (dlcLength dlc fdf), sof := sof }

/-- The start-of-frame timestamp (R352). -/
def timestamp (s : State) (sof : Nat) : Nat :=
  if timestampsOn s then sof / 2 ^ bits s.can.tcfg 8 6 % 2 ^ 32 else 0

/-- The element of a received frame (table Frame element). -/
def rxBytes (s : State) (f : CanFrame) (k : Fin 64) : List Byte :=
  let n := dlcLength f.dlc.toNat f.fdf
  let id := f.id.toNat % (if f.xtd then 2 ^ 29 else 2 ^ 11) + b2n f.xtd * 2 ^ 29
  let ctrl := f.dlc.toNat + 16 * b2n f.fdf + 32 * b2n f.brs + 64 * b2n f.esi + 65536 * k.val
  let data := f.data.take n
  toLE 4 id ++ toLE 4 ctrl ++ toLE 4 (timestamp s f.sof) ++ toLE 4 0 ++ data ++ List.replicate (64 - data.length) 0

/-- Filter k matches a frame (R347). -/
def filterMatches (s : State) (f : CanFrame) (k : Fin 64) : Bool :=
  let i := s.can.fltid[k]
  let m : BitVec 29 := (s.can.fltmsk[k]).truncate 29
  i.getLsbD 31 && i.getLsbD 30 == f.xtd && (f.id &&& m) == ((i.truncate 29 : BitVec 29) &&& m)

/-- Store a frame in a FIFO, or count it as lost (R348). -/
def storeFrame (s : State) (f : CanFrame) (k : Fin 64) (q : Fin 2) : State :=
  let x := s.can.rxf[q]
  if 32 ≤ x.fill then
    let s := s.updFifo q fun x => { x with ovr := true, ovrNew := true, lost := satInc 8 x.lost }
    queueRated s 0x0804 q.val 1000000000 (p1 q.val ++ p4 (s.can.rxf[q]).lost)
  else
    let s := { s with mem := memWriteList s.mem (rxElement q ((x.get + x.fill) % 32)) (rxBytes s f k) }
    let s := s.updFifo q fun x => { x with fill := x.fill + 1 }
    { s with can := { s.can with rxNew := vmod s.can.rxNew q (· + 1) } }

/-- Offer a frame to the filters: the first that matches decides (R347). -/
def filterFrame (s : State) (f : CanFrame) : State :=
  match (List.finRange 64).find? (filterMatches s f) with
  | none => s
  | some k =>
    match bits s.can.fltmsk[k] 30 2 with
    | 0 => storeFrame s f k 0
    | 1 => storeFrame s f k 1
    | _ => s

/-! ### Device messages (R355, R356) -/

/-- The DLC of the length of a device message: 8, 12 or 24 bytes. -/
def messageDlc (n : Nat) : Nat := if n = 24 then 12 else if n = 12 then 9 else 8

/-- The identifier of a device message, without the prefix. -/
def messageId (s : State) (kind : Nat) : Nat := kind * 0x100 + nodeLnk s * 0x10 + nodeId s

/-- The frame element of a device message. -/
def messageElem (s : State) (kind : Nat) (payload : List Byte) : List Byte :=
  let id := messageId s kind
  let xid := s.can.msgcfg.getLsbD 31
  let w := if xid then bits s.can.msgcfg 0 18 * 2 ^ 11 + id + 2 ^ 29 else id
  toLE 4 w ++ toLE 4 (messageDlc payload.length + 16 + 32 * b2n (s.can.msgcfg.getLsbD 30)) ++ toLE 8 0 ++ payload
    ++ List.replicate (64 - payload.length) 0

/-- The bytes NODE of the device messages. -/
def nodeByte (s : State) : List Byte := p1 (nodeId s + 16 * nodeLnk s)

/-- A pending budget message is replaced unsent. -/
def countReplaced (s : State) (b : Fin 16) : State :=
  if b.val = 15 then { s with can := { s.can with brepl := satInc 8 s.can.brepl } } else s

/-- Offer a device message in its buffer: it replaces a pending one that is not in transmission, and follows one that is
(R356). -/
def offerMessage (s : State) (b : Fin 16) (elem : List Byte) : State :=
  let s := markStarted { s with mem := memWriteList s.mem (txElement b) elem }
  if (s.can.tx[b]).pend then
    if s.can.inTx = some b then
      let s := if (s.can.tx[b]).next ≠ [] then countReplaced s b else s
      s.updTx b fun x => { x with next := [elem] }
    else countReplaced (s.updTx b fun x => { x with elem := elem }) b
  else s.updTx b fun _ => { pend := true, cancel := false, elem := elem, next := [] }

/-- The kind of a device message on the bus: its identifier has the form of R355. -/
def messageKind (s : State) (f : CanFrame) : Option Nat :=
  let xid := s.can.msgcfg.getLsbD 31
  let low := f.id.toNat % 2 ^ 11
  if f.fdf = false ∨ f.xtd ≠ xid then none
  else if xid = true ∧ f.id.toNat / 2 ^ 11 ≠ bits s.can.msgcfg 0 18 then none
  else if low / 0x100 ≤ 2 then some (low / 0x100) else none

/-! ### Switching on and off (R340, R343, R351, R354, R357, R358) -/

/-- CAN_TCFG.TPER in ns. -/
def timePeriod (s : State) : Nat := bits s.can.tcfg 16 7 * 10000000

/-- The multiples of TPER that TBASE has reached (R353). -/
def periodsPassed (s : State) : Nat := s.sys.tbase / max 1 (timePeriod s)

/-- The roles of the time service start: master with ROLE 1, else slave (R354). -/
def startTime (s : State) : State :=
  { s with can := { s.can with role := bits s.can.tcfg 24 2 == 1, demoted := false, master := none, lock := false,
                               lockRun := 0, latchL := none, prevM := none, newMaster := true, refAt := s.sys.tbase
                               lostTold := false, sendAt := periodsPassed s } }

/-- The controller is switched on: error active with both counters at 0, unless bus-off recovery is still to be counted
(R343, R351). -/
def canStart (s : State) : State :=
  let s := if timeService s then startTime s else s
  let s := { s with can := { s.can with statusSent := [], statusAt := s.sys.tbase } }
  if s.can.est = 2 then { s with can := { s.can with joined := false, recov := true } }
  else { s with can := { s.can with joined := false, est := 0, tecN := 0, recN := 0 } }

/-- The controller is switched off: pending buffers are removed with their FAIL bits (R357, R358). -/
def canStop (s : State) : State :=
  let s := channels.foldl (fun s b => if (s.can.tx[b]).pend then failBuffer s b else s) s
  endTransmission { s with can := { s.can with joined := false, recov := false } }

/-- A write of CAN_CTL (R358, R359): in CONFIGURE, IDLE and SERVICE. -/
def canCtlWrite (s : State) (v : Word) : State × Byte :=
  if s.sys.mode ≠ .configure ∧ s.sys.mode ≠ .idle ∧ s.sys.mode ≠ .service then (s, stWrongMode)
  else if bits v 1 2 = 3 then (s, stBadParam)
  else
    let before := canOn s
    let s := { s with can := { s.can with ctl := maskWrite 0x7 s.can.ctl v } }
    (if canOn s = before then s else if before then canStop s else canStart s, stOk)

/-! ### The rack-bus island (R39, R357) -/

/-- What a device message may change, as it stands. -/
def MsgCkpt.of (s : State) : MsgCkpt :=
  { role := s.can.role, demoted := s.can.demoted, master := s.can.master, mnode := s.can.mnode, lock := s.can.lock
    lockRun := s.can.lockRun, rc := s.can.rc, ofs := s.can.ofs, oLast := s.can.oLast, latchL := s.can.latchL
    refAt := s.can.refAt, peers := s.link.peers }

/-- A device message is about to be delivered: what it may change is kept until the next checkpoint (R357). -/
def keepMessage (s : State) : State :=
  { s with can := { s.can with msgCk := some (s.can.msgCk.getD (MsgCkpt.of s)) } }

/-- The device messages since the last checkpoint are not delivered; TBASE stays as it is (R33, R357). DEDUCED, log
entry 225. -/
def undoMessages (s : State) : State :=
  match s.can.msgCk with
  | some x =>
    { s with
      can := { s.can with role := x.role, demoted := x.demoted, master := x.master, mnode := x.mnode, lock := x.lock
                          lockRun := x.lockRun, rc := x.rc, ofs := x.ofs, oLast := x.oLast, latchL := x.latchL
                          refAt := x.refAt, msgCk := none }
      link := { s.link with peers := x.peers } }
  | none => s

/-- A frame that has been sent is sent again, before what its buffer holds since. -/
def sendAgain (s : State) (x : Fin 16 × List Byte) : State :=
  let s := s.updTx x.1 fun t =>
    if t.pend then { t with elem := x.2, next := t.elem :: t.next }
    else { pend := true, cancel := false, elem := x.2, next := [] }
  { s with can := { s.can with done := putBit s.can.done x.1.val false } }

/-- The rack-bus island loses its PLL: the frame on the bus is cut off, frames received since the last checkpoint are
not delivered, and a frame that the checkpoint does not show as sent is sent again (R357). -/
def cutFrames (s : State) : State :=
  let s := (List.finRange 2).foldl (fun s q => s.updFifo q fun x => { x with fill := x.fill - s.can.rxNew[q] }) s
  let s := undoMessages (s.can.sentNew.foldl sendAgain s)
  endTransmission { s with can := { s.can with rxNew := Vector.replicate 2 0, sentNew := [] } }

end Sys2Proof.Machine
end

