-- ==== Sys2Proof/Machine/Link.lean ====
section
/-! DEFINITION. The link power manager: claims, totals, factors and allowances, the voltage guard, peers, link states
and stalemate (R189 to R205). -/
namespace Sys2Proof.Machine

/-! ### Source codes and limits (R189, R190) -/

/-- I_SRC and I_SNK of a source code in 0.1 A (table Source identification codes). -/
def codeLimits (code : Nat) : Nat × Nat :=
  [(50, 0), (200, 0), (400, 0), (800, 0), (400, 400), (800, 800), (1000, 500), (0, 0)].getD code (0, 0)

/-- The windows of the source codes in ohm. -/
def codeWindows : List (Nat × Nat) :=
  [(3000, 3600), (6200, 7400), (11000, 13000), (18400, 21600), (30400, 35600), (51500, 60500), (92000, 108000),
   (166000, 194000)]

/-- The SRCID reading at BOOT: the code, its limits, SRCID_FAULT outside every window, SRCID_READ (R189). -/
def readSrcid (s : State) (ohm : Nat) : State :=
  let found := codeWindows.findIdx? fun w => decide (w.1 ≤ ohm) && decide (ohm ≤ w.2)
  let s := match found with
    | some _ => s
    | none => queueEvent s 0x0503 (p1 (if 194000 < ohm then 0 else if ohm < 3000 then 1 else 2))
  let code := found.getD 0
  let l := codeLimits code
  let s := { s with link := { s.link with code := code, ohm := ohm,
                                          reg := { s.link.reg with srclim := pack [(0, l.1), (16, l.2)] } } }
  queueEvent s 0x0502 (p1 code)

/-- I_SRC and I_SNK in 0.1 A: the device's own limits, lowered to the defaults of every other code that a present peer
sends (R190). -/
def sourceLimits (s : State) : Nat × Nat :=
  let own := (bits s.link.act.srclim 0 16, bits s.link.act.srclim 16 16)
  if linkNodeOn s then
    channels.foldl (fun l n =>
      let p := s.link.peers[n]
      if p.present && p.code != s.link.code then (min l.1 (codeLimits p.code).1, min l.2 (codeLimits p.code).2)
      else l) own
  else own

/-! ### Claims and totals (R191, R192) -/

/-- The mean of |V_S I_P| over the 10 ms that ended, in mW, whatever the channel did in them. -/
def meanPower (ch : Chan) : Nat := (divRound ch.pbarSum (max 1 ch.pbarN * 1000)).toNat

/-- The claim of a channel or gang in mW (R191). -/
def claimOf (s : State) (c : Fin 16) : Nat :=
  let ch := s.ch[c]
  if isFollower s c || ch.st != .run then 0
  else if ch.entered || ch.plWon then pLimReg s c
  else min (pLimReg s c) ((divRound (5 * meanPower ch) 4).toNat + 5000)

/-- A leader in RUN with the direction given. -/
def runsWith (s : State) (neg : Bool) (c : Fin 16) : Bool :=
  !isFollower s c && (s.ch[c]).st == .run && (s.ch[c]).neg == neg

/-- A leader in RUN whose direction in the epoch before the tick was the one given (R192, R194). -/
def ranWith (s : State) (neg : Bool) (c : Fin 16) : Bool :=
  !isFollower s c && (s.ch[c]).st == .run && (s.ch[c]).negB == neg

/-- Charge demand, discharge claim and discharge credit of the device in mW (R192). -/
def ownTotals (s : State) (claims : Vector Nat 16) : Nat × Nat × Nat :=
  let eta := bits s.link.act.cfg 16 8
  let sum (neg : Bool) (f : Fin 16 → Nat) : Nat := channels.foldl (fun a c => if ranWith s neg c then a + f c else a) 0
  ((divRound (sum false (fun c => claims[c]) * 100) (max 1 eta)).toNat,
   (divRound (sum true (fun c => claims[c]) * eta) 100).toNat,
   (divRound (sum true (fun c => meanPower s.ch[c]) * eta) 100).toNat)

/-- D, Gc and Gm of the peers (R193, R198); the device alone where LINK_NODE.EN is 0. -/
def peerTotals (s : State) : Nat × Nat × Nat :=
  if linkNodeOn s then
    channels.foldl (fun t n =>
      let p := s.link.peers[n]
      (t.1 + p.d, t.2.1 + (if p.present then p.gc else 0), t.2.2 + (if p.present then p.gm else 0))) (0, 0, 0)
  else (0, 0, 0)

/-! ### Factors and allowances (R193 to R196) -/

/-- S and K in mW for a link state, a VLINK in mV and the limits I_SRC and I_SNK (table Source power and sink power by
link state). -/
def sourcePower (s : State) (st : LinkSt) (v : Int) (l : Nat × Nat) : Nat × Nat :=
  let m := 100 - bits s.link.act.cfg 8 4
  let p (i : Nat) : Nat := (m * v.toNat * i) / 1000
  let ibk := bits s.link.act.bk 0 16
  match st with
  | .source => (p l.1, p l.2)
  | .handover => (p ibk * bits s.link.act.bk 25 7 / 100, 0)
  | .backup => (p ibk, 0)
  | .ret => (p l.1, 0)
  | .forming => (0, 0)
  | .lost => (0, 0)

/-- kc and kd as fractions, from the sums, the VLINK and the limits of the last tick and the state in force (R193,
R204). -/
def factors (s : State) : (Nat × Nat) × (Nat × Nat) :=
  let d := s.link.d
  let gc := s.link.gc
  let sk := sourcePower s s.link.st s.link.vTick s.link.lim
  let ad := if s.link.st = .forming then gc else min gc (d + sk.2)
  let ac := min d (sk.1 + min s.link.gm ad)
  (if d = 0 then (1, 1) else (ac, d), if gc = 0 then (1, 1) else (ad, gc))

/-- The allowance in 0.1 W of a leader in RUN for a direction, starting or counted (R194, R196, R202). -/
def allowFor (s : State) (c : Fin 16) (neg starting : Bool) : Nat :=
  let k := if neg then s.link.kd else s.link.kc
  let g := if neg then s.link.gDF else s.link.gCF
  if s.link.st = .lost then 0
  else if starting then min (pLimReg s c) (k.1 * (bits s.link.act.cfg 24 8 * 1000) / max 1 k.2) / 100
  else k.1 * s.link.claims[c] * g / (max 1 k.2 * 65536 * 100)

/-- The allowance in force: 0 in a follower and outside RUN. -/
def allowanceOf (s : State) (c : Fin 16) : Nat :=
  let ch := s.ch[c]
  if isFollower s c || ch.st != .run then 0 else allowFor s c ch.neg ch.starting

/-- Every allowance takes the factors, claims and guard factors in force. -/
def refreshAllow (s : State) : State := { s with ch := vmapI s.ch fun c ch => { ch with allow := allowanceOf s c } }

/-- The allowances computed at the last tick commit, with S and K of the state in force (R194, R204); the channels whose
claim they count leave the starting allowance (R196). -/
def commitAllow (s : State) : State :=
  match s.link.alPend with
  | none => s
  | some cl =>
    let f := factors s
    { s with
      link := { s.link with claims := cl, alPend := none, kc := f.1, kd := f.2 }
      ch := vmap s.ch fun ch => if ch.counted then { ch with starting := false, counted := false } else ch }

/-! ### Voltage guard (R197) -/

/-- One update of a guard factor in 1/65536. -/
def guardStep (g : Nat) (beyond inside : Bool) : Nat :=
  if beyond then (if g / 2 < 64 then 0 else g / 2) else if inside then min 65536 (g + 4096) else g

/-- VLO and VHI in mV: of LINK_VGRD, or around VFORM in FORMING. -/
def guardBand (s : State) : Int × Int :=
  if s.link.st = .forming then
    let v : Int := bits s.link.act.vform 0 16
    let b : Int := bits s.link.act.vform 24 8 * 100
    (v - b, v + b)
  else ((bits s.link.act.vgrd 10 10 : Int) * 100, (bits s.link.act.vgrd 20 10 : Int) * 100)

/-- VGUARD on the first halving of a factor after 1.0. -/
def guardTold (s : State) (dir old new : Nat) : State :=
  if old = 65536 ∧ new < old then
    let s := { s with link := { s.link with grd := satInc 8 s.link.grd } }
    queueEvent s 0x050D (p1 dir ++ p4 s.link.vlink)
  else s

/-- The guard factors computed at the last boundary, from the VLINK mean of the epoch before it, come into force
(R38, R195, R197). -/
def commitGuard (s : State) : State := { s with link := { s.link with gCF := s.link.gC, gDF := s.link.gD } }

/-- The guard of one epoch, on the VLINK mean of the epoch that ended: new factors are computed, which commit at the
next boundary (R195, R197). -/
def guardEpoch (s : State) : State :=
  let v := s.link.vlink
  let b := guardBand s
  let oc := s.link.gC
  let od := s.link.gD
  let c := guardStep oc (decide (v < b.1)) (decide (b.1 + 500 ≤ v))
  let d := guardStep od (decide (b.2 < v)) (decide (v ≤ b.2 - 500))
  let s := { s with link := { s.link with gC := c, gD := d } }
  guardTold (guardTold s 0 oc c) 1 od d

/-! ### Link states (R199 to R203) -/

/-- Link states are evaluated: not in BOOT, DORMANT and PARK, or in reset (R201). -/
def linkRuns (s : State) : Bool := s.sys.phase == .running && s.sys.mode != .dormant

/-- A usable backup exists. -/
def backupUsable (s : State) : Bool := s.link.act.cfg.getLsbD 0 && !s.link.bkf

/-- FORMING is permitted and a channel discharges: the conditions of rows 2 and 11. -/
def formingOk (s : State) : Bool := s.link.act.cfg.getLsbD 1 && decide (0 < s.link.gc)

/-- VLINK is at or above VLOST. -/
def linkVoltageOk (s : State) : Bool := decide ((bits s.link.act.vgrd 0 10 : Int) * 100 ≤ s.link.vlink)

/-- The source is healthy: SRCOK high with VLINK at or above VLOST. -/
def sourceGood (s : State) : Bool := s.link.srcok && linkVoltageOk s

/-- Decide a state change; the decision that stands is not replaced (R199, R200). -/
def decideLink (s : State) (dest : LinkSt) (row wait : Nat) : State :=
  if s.link.pend = none then { s with link := { s.link with pend := some (dest, row, wait) } } else s

/-- FORMING or LOST, chosen as in rows 5 and 7, where the backup counts as failed: FORMING under the conditions of row
2. In HANDOVER, SRCOK is ignored, and the source counts as lost (R200). -/
def formingOrLost (s : State) : LinkSt := if (s.link.lost || s.link.st == .handover) && formingOk s then .forming else .lost

/-- Rows 1 to 3: the source is lost in SOURCE. -/
def sourceRows (s : State) (wait : Nat) : State :=
  if backupUsable s then decideLink s .handover 1 wait
  else if formingOk s then decideLink s .forming 2 wait else decideLink s .lost 3 wait

/-- VLOST in mV and TRET in ms, as copied at the entry into PARK (R226). -/
def lostVoltage (s : State) : Nat := bits s.link.act.vgrd 0 10 * 100

def qualTime (s : State) : Nat := bits s.link.act.tret 0 13

/-- Return qualification runs in this state. -/
def qualifies (st : LinkSt) : Bool := st == .backup || st == .forming || st == .lost

/-- Return qualification starts at the present instant. -/
def startQual (s : State) : State := { s with link := { s.link with qual := true, qualAt := s.sys.tbase } }

/-- BKOK high while BKEN is deasserted, outside RETURN: BK_FAULT once per BOOT (R200). -/
def backupFault (s : State) : State :=
  if linkRuns s = true ∧ s.link.bkok = true ∧ s.link.bken = false ∧ s.link.st ≠ .ret ∧ s.link.bkFaultTold = false then
    queueEvent { s with link := { s.link with bkFaultTold := true } } 0x0506 (p1 1)
  else s

/-- The pause order: priority class ascending, then channel number descending (R203). -/
def pauseBefore (s : State) (a b : Fin 16) : Bool :=
  let pa := bits s.link.act.prio (2 * a.val) 2
  let pb := bits s.link.act.prio (2 * b.val) 2
  decide (pa < pb) || (pa == pb && decide (b.val < a.val))

/-- Insert a channel into the pause order. -/
def pauseInsert (s : State) (c : Fin 16) : List (Fin 16) → List (Fin 16)
  | [] => [c]
  | d :: r => if pauseBefore s c d then c :: d :: r else d :: pauseInsert s c r

/-- A stalemate begins with n channels, or n channels join the one that lasts (R203, R204). -/
def staleBegin (s : State) (n : Nat) : State :=
  if s.link.stale then { s with link := { s.link with staleN := s.link.staleN + n } }
  else
    let s := { s with link := { s.link with stale := true, staleN := n, stal := satInc 8 s.link.stal } }
    queueEvent s 0x0508 (p1 1 ++ p4 n)

/-- LOST commits: every charging channel in RUN goes to HOLD in pause order (R203). -/
def stalemate (s : State) : State :=
  let new := channels.foldl (fun l c => if runsWith s false c then pauseInsert s c l else l) []
  let all := s.link.pause.foldl (fun l c => if new.contains c then l else pauseInsert s c l) new
  let s := new.foldl (fun s c => holdNow s c hcStalemate) s
  let s := { s with link := { s.link with pause := all } }
  if new.isEmpty then s else staleBegin s new.length

/-- A channel that would enter RUN charging in LOST pauses at the end of the order (R203). -/
def joinStalemate (s : State) (c : Fin 16) : State :=
  let s := addCause s c hcStalemate
  if s.link.pause.contains c then s
  else staleBegin { s with link := { s.link with pause := s.link.pause ++ [c] } } 1

/-- The direction of a channel in RUN changes in this sample: the starting allowance of the new direction holds
(R196). One that turns to charge in LOST meets the stalemate and pauses (R203). DEDUCED, log entry 179. -/
def turnAllow (s : State) (c : Fin 16) (neg : Bool) : State :=
  let s := s.updCh c fun ch => { ch with starting := true, counted := false }
  let s := s.updCh c fun ch => { ch with allow := if isFollower s c then 0 else allowFor s c neg true }
  if s.link.st = .lost ∧ neg = false then joinStalemate s c else s

/-- The channels still paused: one that was stopped, faulted or moved has left the order (R204). -/
def stillPaused (s : State) (c : Fin 16) : Bool :=
  ((s.ch[c]).st == .hold || (s.ch[c]).st == .run) && (s.ch[c]).prog.causes.contains hcStalemate

/-- The stalemate ends when no channel is left in the order; the event carries the channels it paused (R203).
DEDUCED, log entry 25. -/
def staleEnd (s : State) : State :=
  if s.link.stale = true ∧ s.link.pause = [] then
    let n := s.link.staleN
    queueEvent { s with link := { s.link with stale := false, staleN := 0 } } 0x0508 (p1 0 ++ p4 n)
  else s

/-- Outside LOST a tick clears the cause for one channel, the last paused first (R203). -/
def releasePaused (s : State) : State :=
  let l := s.link.pause.filter (stillPaused s)
  let s := { s with link := { s.link with pause := l } }
  if s.link.st = .lost then staleEnd s
  else
    let s := match l.getLast? with
      | some c => clearCauses { s with link := { s.link with pause := l.dropLast } } c [hcStalemate]
      | none => s
    staleEnd s

/-- A decided state commits: BKEN, BKF, counters, events, and return qualification (R199, R200, R203). -/
def enterLink (s : State) (dest : LinkSt) (row : Nat) : State :=
  let old := s.link.st
  let fails := row = 5 ∨ row = 7
  let s := if row = 5 then queueEvent s 0x0504 (p4 (bits s.link.act.bk 16 9))
    else if row = 7 then queueEvent s 0x0505 (p4 s.link.vlink) else s
  let s := queueEvent s 0x0501 (p1 old.code ++ p1 dest.code ++ p1 row)
  let s := { s with link := { s.link with
    st := dest, pend := none, zeroTicks := 0, qual := false
    bkf := s.link.bkf || decide fails
    bken := if dest = .handover then true else if fails ∨ dest = .ret then false else s.link.bken
    ho := if dest = .handover then satInc 8 s.link.ho else s.link.ho
    retN := if dest = .ret then satInc 8 s.link.retN else s.link.retN } }
  let s := if qualifies dest && s.link.srcok then startQual s else s
  match dest with
  | .source => s
  | .lost => stalemate s
  | .handover => if s.link.bkok then decideLink s .backup 4 2 else s
  | .ret => if s.link.bkok then s else decideLink s .source 8 2
  | _ => s

/-- The link decisions that commit at the present boundary (R38, R199). -/
def commitLink (s : State) : State :=
  match s.link.pend with
  | none => s
  | some (dest, row, wait) =>
    if 1 < wait then { s with link := { s.link with pend := some (dest, row, wait - 1) } } else enterLink s dest row

/-- What a boundary does for the link, on the VLINK mean and the powers of the epoch that ended: the source-loss
condition and return qualification follow VLINK, but for SRCOK in HANDOVER (R200); a source loss that stood in the
first epoch in SOURCE is decided on (R204); the guard, and BK_FAULT. -/
def linkEpoch (s : State) : State :=
  let good := sourceGood s
  let was := s.link.inSource
  let s := { s with link := { s.link with lost := s.link.lost && (!good || s.link.st == .handover)
                                          qual := s.link.qual && linkVoltageOk s, inSource := s.link.st == .source } }
  let s := if was && s.link.st == .source && s.link.lost then sourceRows s 1 else s
  let s := if qualifies s.link.st && good && !s.link.qual then startQual s else s
  backupFault (guardEpoch s)

/-! ### The rows -/

/-- The epochs between two ticks (R192). -/
def tickEpochs (s : State) : Nat := 5 * fOut2 s

/-- A tick falls in the present epoch and has not run. -/
def tickDue (s : State) : Bool :=
  linkRuns s && s.sys.running && s.sys.epoch.toNat % tickEpochs s == 0 && s.link.tickAt != s.sys.epoch.toNat + 1

/-- The payload of a budget message (R192, table Budget payload). -/
def budgetPayload (s : State) (d gc gm : Nat) : List Byte :=
  p1 1 ++ p1 (s.link.st.code + 16 * s.link.code) ++ nodeByte s ++ p1 (s.link.tick % 256) ++ toLE 4 (satNat 32 d)
    ++ toLE 4 (satNat 32 gc) ++ toLE 4 (satNat 32 gm) ++ toLE 8 s.sys.tbase

/-- Rows 10 to 12 at a tick, on the sums of the tick. -/
def tickDecisions (s : State) : State :=
  match s.link.st with
  | .forming =>
    if backupUsable s && s.link.lost then decideLink s .handover 12 1 else s
  | .lost =>
    if backupUsable s && s.link.lost then decideLink s .handover 12 1
    else if formingOk s then decideLink s .forming 11 1 else s
  | _ => s

/-- LINK_TICK (R191 to R194, R203, R205). -/
def linkTick (s : State) : State :=
  if tickDue s then
    let l := s.link
    let s := { s with link := { l with act := l.reg, bkf := l.bkf && !l.bkclr, bkclr := false, tick := l.tick + 1,
                                       tickAt := s.sys.epoch.toNat + 1, vTick := l.vlink } }
    let s := { s with link := { s.link with lim := sourceLimits s } }
    let claims : Vector Nat 16 := Vector.ofFn (claimOf s)
    let own := ownTotals s claims
    let peers := peerTotals s
    let gc := own.2.1 + peers.2.1
    let s := { s with
      link := { s.link with d := own.1 + peers.1, gc := gc, gm := own.2.2 + peers.2.2, di := own.1, gmi := own.2.2,
                            alPend := some claims
                            zeroTicks := if s.link.st = .forming ∧ gc = 0 then s.link.zeroTicks + 1 else 0 }
      ch := vmap s.ch fun ch => { ch with pbarSum := 0, pbarN := 0, plWon := false, entered := false,
                                          counted := ch.st == .run } }
    let s := if budgetService s then
        offerMessage s 15 (messageElem s 2 (budgetPayload s own.1 own.2.1 own.2.2))
      else s
    releasePaused (tickDecisions s)
  else s

/-- SOURCE_LOSS: rows 1 to 3, and row 12 (R199). -/
def sourceLost (s : State) : State :=
  let s := { s with link := { s.link with lost := true } }
  if linkRuns s then
    match s.link.st with
    | .source => sourceRows s 2
    | .forming | .lost => if backupUsable s then decideLink s .handover 12 2 else s
    | _ => s
  else s

/-- SRCOK_CHANGE: an edge starts or ends return qualification, that of PARK as well (R200, R226). -/
def srcokEdge (level : Bool) (s : State) : State :=
  let was := s.link.qual
  let since := s.link.qualAt
  let park := s.sys.phase == .park
  let s := { s with link := { s.link with srcok := level }
                    sys := { s.sys with srcRise := park && level && (s.sys.srcRise || !s.link.srcok) } }
  if linkRuns s = false ∨ qualifies s.link.st = false then s
  else if level then
    if was || !linkVoltageOk s then s else startQual s
  else if was then
    queueRated { s with link := { s.link with qual := false } } 0x0507 0 1000000000
      (p4 ((s.sys.tbase - since) / 1000000 : Nat))
  else s

/-- BKOK_CHANGE: rows 4 and 8, or BK_FAULT (R199, R200). -/
def bkokEdge (level : Bool) (s : State) : State :=
  let s := { s with link := { s.link with bkok := level } }
  if linkRuns s then
    match s.link.st, level with
    | .handover, true => decideLink s .backup 4 2
    | .ret, false => decideLink s .source 8 2
    | _, _ => backupFault s
  else s

/-- HANDOVER_TIMEOUT: row 5, or row 8 with BK_FAULT (R199). -/
def handoverTimeout (s : State) : State :=
  if linkRuns s = true ∧ s.link.pend = none then
    match s.link.st with
    | .handover => decideLink s (formingOrLost s) 5 2
    | .ret => decideLink (queueEvent s 0x0506 (p1 2)) .source 8 2
    | _ => s
  else s

/-- RETURN_QUALIFIED: rows 6 and 9 (R199). -/
def returnQualified (s : State) : State :=
  if linkRuns s = true ∧ s.link.qual = true then
    match s.link.st with
    | .backup => decideLink s .ret 6 2
    | .forming | .lost => decideLink s .source 9 2
    | _ => s
  else s

/-- BACKUP_LOST: row 7 (R199). -/
def backupLost (s : State) : State :=
  if linkRuns s = true ∧ s.link.st = .backup then decideLink s (formingOrLost s) 7 2 else s

/-- FORMING_TO_LOST: row 10, after 10 consecutive ticks without a discharge claim (R199). -/
def formingToLost (s : State) : State :=
  if linkRuns s = true ∧ s.link.st = .forming ∧ 10 ≤ s.link.zeroTicks then decideLink s .lost 10 1 else s

/-! ### Peers (R190, R198) -/

/-- Update peer n. -/
def State.updPeer (s : State) (n : Fin 16) (f : Peer → Peer) : State :=
  { s with link := { s.link with peers := vmod s.link.peers n f } }

/-- A budget message is received (R190, R198, R355). -/
def budgetReceived (m : BudgetMsg) (s : State) : State :=
  let n : Fin 16 := ⟨m.node.toNat, m.node.isLt⟩
  if linkRuns s = false ∨ budgetService s = false ∨ m.fmt ≠ 1 ∨ m.lnk.toNat ≠ nodeLnk s then s
  else if m.node.toNat = nodeId s then queueRated s 0x050B 0 10000000000 (p1 n.val)
  else
    let s := keepMessage s
    let old := s.link.peers[n]
    let s := if old.present then s else queueEvent s 0x0509 (p1 n.val)
    let other := m.code.toNat != s.link.code
    let s := if other && !old.told then queueEvent s 0x050C (p1 n.val ++ p1 m.code.toNat) else s
    s.updPeer n fun p =>
      { present := true, code := m.code.toNat, d := m.d.toNat, gc := m.gc.toNat, gm := m.gm.toNat,
        told := p.told || other }

/-- PEER_LOST: the peer is absent, and its Gc and Gm leave the sums; its D stays (R198). -/
def peerLost (n : Fin 16) (s : State) : State :=
  if (s.link.peers[n]).present then
    queueEvent (s.updPeer n fun p => { p with present := false, gc := 0, gm := 0 }) 0x050A (p1 n.val)
  else s

/-- PEER_DEMAND_DROP: the last demand of an absent peer leaves the sums (R198). -/
def peerDemandDrop (n : Fin 16) (s : State) : State :=
  s.updPeer n fun p => if p.present then p else { p with d := 0 }

/-- The peers that are present. -/
def peersPresent (s : State) : Mask := maskOf 16 fun n => (s.link.peers[n]).present

/-! ### End of BOOT (R201) -/

/-- The link state from the inputs, at the end of BOOT. -/
def linkBoot (s : State) : State :=
  let l := s.link
  let st : LinkSt := if l.srcok then .source else if l.bkok then .backup else .lost
  { s with link := { l with st := st, bken := st == .backup, bkf := false, act := l.reg, pend := none, inSource := false } }

/-! ### The commands -/

/-- LINK_TICK. -/
def execLinkTick (s : State) : Host.Outcome State Fault Refusal := .next (linkTick s)

/-- BUDGET_MESSAGE. -/
def execBudgetMessage (m : BudgetMsg) (s : State) : Host.Outcome State Fault Refusal := .next (budgetReceived m s)

/-- PEER_LOST. -/
def execPeerLost (node : Fin 16) (s : State) : Host.Outcome State Fault Refusal := .next (peerLost node s)

/-- PEER_DEMAND_DROP. -/
def execPeerDemandDrop (node : Fin 16) (s : State) : Host.Outcome State Fault Refusal := .next (peerDemandDrop node s)

/-- SRCOK_CHANGE. -/
def execSrcokChange (level : Bool) (s : State) : Host.Outcome State Fault Refusal := .next (srcokEdge level s)

/-- SOURCE_LOSS. -/
def execSourceLoss (s : State) : Host.Outcome State Fault Refusal := .next (sourceLost s)

/-- BKOK_CHANGE. -/
def execBkokChange (level : Bool) (s : State) : Host.Outcome State Fault Refusal := .next (bkokEdge level s)

/-- HANDOVER_TIMEOUT. -/
def execHandoverTimeout (s : State) : Host.Outcome State Fault Refusal := .next (handoverTimeout s)

/-- RETURN_QUALIFIED. -/
def execReturnQualified (s : State) : Host.Outcome State Fault Refusal := .next (returnQualified s)

/-- BACKUP_LOST. -/
def execBackupLost (s : State) : Host.Outcome State Fault Refusal := .next (backupLost s)

/-- FORMING_TO_LOST. -/
def execFormingToLost (s : State) : Host.Outcome State Fault Refusal := .next (formingToLost s)

end Sys2Proof.Machine
end

