-- ==== Sys2Proof/Machine/Logs.lean ====
section
/-! DEFINITION. Family logs, histogram and event queue: LOG_READ to GRADE_READ, HIST_READ, and EVT_READ to EVT_STATUS
(R183 to R186, R328, R333 to R337). -/
namespace Sys2Proof.Machine

/-- A channel operand of a command that a follower of a gang refuses (R328). -/
def leadOf? (s : State) (b : Byte) : Option (Fin 16) :=
  if h : b.toNat < 16 then if isFollower s ⟨b.toNat, h⟩ then none else some ⟨b.toNat, h⟩ else none

/-- The committed records of a ring with sequence numbers from `first`, at most n. -/
def ringRead (ch : Chan) (first n : Nat) : List Byte :=
  (List.range n).flatMap fun k =>
    match ch.ring.find? fun r => r.seq == (first + k) % 2 ^ 32 with
    | some r => r.bytes
    | none => List.replicate 32 0

/-- LOG_READ (R328). -/
def logReadBody (b count : Byte) (first : Word) (s : State) : State × Completion :=
  match leadOf? s b with
  | none => (s, .status stBadParam)
  | some c =>
    let ch := s.ch[c]
    let off := (first.toNat + 2 ^ 32 - ch.logAck) % 2 ^ 32
    if count = 0 ∨ 127 < count.toNat ∨ ringUsed ch ≤ off then (s, .status stBadParam)
    else
      let n := min count.toNat (ringUsed ch - off)
      (s, .now stOk (p1 n ++ [0, 0, 0] ++ ringRead ch first.toNat n))

/-- The completion with the status that an operation answers. -/
def withStatus (r : State × Byte) : State × Completion := (r.1, .status r.2)

/-- LOG_ACK (R186, R328). -/
def logAckBody (b : Byte) (seq : Word) (s : State) : State × Completion :=
  match leadOf? s b with
  | none => (s, .status stBadParam)
  | some c => withStatus (setLogAck s c seq)

/-- LOG_MARK (R328). -/
def logMarkBody (b : Byte) (data : List Byte) (r : Request) (s : State) : State × Completion :=
  match leadOf? s b with
  | none => (s, .status stBadParam)
  | some c =>
    if ringFull s.ch[c] then (s, .status stFaultActive)
    else (stage s (.mark c data) r.opc (some r.tag) (islandBit 7), .later)

/-- GRADE_READ (R184, R328). -/
def gradeReadBody (b age : Byte) (s : State) : State × Completion :=
  match leadOf? s b with
  | none => (s, .status stBadParam)
  | some c =>
    if 7 < age.toNat then (s, .status stBadParam)
    else
      match (s.ch[c]).grades[age.toNat]? with
      | some g => (s, .now stOk g)
      | none => (s, .status stBadParam)

/-- Word k of a histogram and its totals, in 0.1 uAh (R183). -/
def histWord (h : Hist) (k : Nat) : Nat :=
  if k < 2048 then satNat 32 (h.bins.getD k 0) else if k = 2048 then satNat 32 h.below else satNat 32 h.above

/-- HIST_READ (R183). -/
def histReadBody (b : Byte) (first count : BitVec 16) (s : State) : State × Completion :=
  if h : b.toNat < 16 then
    let f := first.toNat
    let n := count.toNat
    if 2049 < f ∨ n < 1 ∨ 1024 < n ∨ 2050 < f + n then (s, .status stBadParam)
    else (s, .now stOk ((List.range n).flatMap fun k => toLE 4 (histWord (s.ch[b.toNat]).hist (f + k))))
  else (s, .status stBadParam)

/-! ### Event queue -/

/-- The 32 bytes of an event entry (R333). -/
def eventBytes (e : Ev) : List Byte :=
  toLE 4 e.seq ++ toLE 2 e.code ++ p1 e.len ++ [0] ++ toLE 8 e.tbase
    ++ (e.payload ++ List.replicate 16 0).take 16

/-- Sequence number a stands at or before b. -/
def seqLe (a b : Nat) : Bool := decide ((b + 2 ^ 32 - a) % 2 ^ 32 < 2 ^ 31)

/-- Split a queue at the first entry to return. -/
def eventsFrom (s : State) (first : Word) : Option (List Ev) :=
  if first = 0xFFFFFFFF then some (s.evq.queue.dropWhile fun e => e.read)
  else
    match s.evq.queue.dropWhile fun e => e.seq != first.toNat with
    | [] => none
    | l => some l

/-- Mark entries as read. -/
def markRead (s : State) (l : List Ev) : State :=
  let top := (l.getLast?).map (·.seq)
  let ret := match s.evq.returned, top with
    | some a, some b => some (if seqLe a b then b else a)
    | none, b => b
    | a, none => a
  let seqs := l.map (·.seq)
  { s with evq := { s.evq with returned := ret
                               queue := s.evq.queue.map fun e => if seqs.contains e.seq then { e with read := true } else e } }

/-- EVT_READ (R336, R337). -/
def evtReadBody (first : Word) (count : Byte) (s : State) : State × Completion :=
  if count = 0 ∨ 127 < count.toNat then (s, .status stBadParam)
  else
    match eventsFrom s first with
    | none => (s, .status stBadParam)
    | some l =>
      let l := l.take count.toNat
      (markRead s l, .now stOk (p1 l.length ++ [0, 0, 0] ++ l.flatMap eventBytes))

/-- EVT_ACK (R337). -/
def evtAckBody (seq : Word) (s : State) : State × Completion :=
  match s.evq.returned with
  | none => (s, .status stBadParam)
  | some r =>
    if seqLe seq.toNat r then
      ({ s with evq := { s.evq with queue := s.evq.queue.filter fun e => !seqLe e.seq seq.toNat } }, .status stOk)
    else (s, .status stBadParam)

/-- SYS_EVQ. -/
def evqWord (s : State) : Word := pack [(0, s.evq.queue.length), (16, unreadCount s)]

/-- EVT_STATUS; the sequence number of the oldest entry of an empty queue is a free value. -/
def evtStatusBody (s : State) : State × Completion :=
  let head := wordBytes (evqWord s) ++ toLE 4 s.sticky.evSeq ++ toLE 4 s.evq.lostTotal
  match s.evq.queue with
  | e :: _ => (s, .now stOk (head ++ toLE 4 e.seq))
  | [] =>
    let d := drawFree s
    (d.2, .now stOk (head ++ toLEInt 4 d.1))

/-! ### Meanings -/

/-- LOG_READ. -/
def execLogRead (ch count : Byte) (first : Word) (s : State) : Host.Outcome State Fault Refusal :=
  .next (hostCommand (.logRead ch count first) true s fun _ s => logReadBody ch count first s)

/-- LOG_ACK. -/
def execLogAck (ch : Byte) (seq : Word) (s : State) : Host.Outcome State Fault Refusal :=
  .next (hostCommand (.logAck ch seq) true s fun _ s => logAckBody ch seq s)

/-- LOG_MARK. -/
def execLogMark (ch : Byte) (data : List Byte) (s : State) : Host.Outcome State Fault Refusal :=
  .next (hostCommand (.logMark ch data) (lengthIn 12 12 data) s (logMarkBody ch data))

/-- GRADE_READ. -/
def execGradeRead (ch age : Byte) (s : State) : Host.Outcome State Fault Refusal :=
  .next (hostCommand (.gradeRead ch age) true s fun _ s => gradeReadBody ch age s)

/-- HIST_READ. -/
def execHistRead (ch : Byte) (first count : BitVec 16) (s : State) : Host.Outcome State Fault Refusal :=
  .next (hostCommand (.histRead ch first count) true s fun _ s => histReadBody ch first count s)

/-- EVT_READ. -/
def execEvtRead (first : Word) (count : Byte) (s : State) : Host.Outcome State Fault Refusal :=
  .next (hostCommand (.evtRead first count) true s fun _ s => evtReadBody first count s)

/-- EVT_ACK. -/
def execEvtAck (seq : Word) (s : State) : Host.Outcome State Fault Refusal :=
  .next (hostCommand (.evtAck seq) true s fun _ s => evtAckBody seq s)

/-- EVT_STATUS. -/
def execEvtStatus (s : State) : Host.Outcome State Fault Refusal :=
  .next (hostCommand .evtStatus true s fun _ s => evtStatusBody s)

end Sys2Proof.Machine
end

