-- ==== Sys2Proof/Machine/Supplies.lean ====
section
/-! DEFINITION. Family supplies: the aux converter, VIO and VSO, the supply-loss shutdown, and the reset of the always-on
island (R409 to R430). -/
namespace Sys2Proof.Machine

/-- The aux converter runs: in soft start or regulating. -/
def auxRuns (s : State) : Bool := s.aux.state != 0

/-- A phase is latched off. -/
def phaseLatched (s : State) (p : Fin 2) : Bool := s.sticky.phaseOff.getLsbD p.val

/-- Both phases are latched off. -/
def bothLatched (s : State) : Bool := s.sticky.phaseOff == 3

/-- Peaks, minima and AUXPS_CNT start afresh (R430). -/
def clearPeaks (s : State) : State :=
  { s with aux := { s.aux with vgdMax := 0, vgdMin := 0xFFFF, iph := vmap s.aux.iph fun x => (0, x.2),
                               iout := (0, s.aux.iout.2), pwr := (0, s.aux.pwr.2), temp := ((s.therm.die[17]).reading, s.aux.temp.2),
                               braken := 0, limn := 0, imbn := 0 } }

/-- The device stops until a power-on reset, with the stop record (R418, R420, R421). -/
def auxStop (s : State) (kind vgd : Nat) : State :=
  let s := holdIslands s .stopped
  { s with
    nvm := { s.nvm with stopValid := true, stopKind := kind, stopVgd := satNat 16 vgd, stopTold := false }
    aux := s.aux.stop }

/-- A phase latches off with a cause; when both are latched, VGD fails and the device stops. VGD at that moment is no
operand of the command: a free value (log entry 8). -/
def latchPhase (s : State) (p : Fin 2) (cause : Nat) : State :=
  if auxRuns s = false ∨ phaseLatched s p = true then s
  else
    let s := { s with
      sticky := { s.sticky with phaseOff := putBit s.sticky.phaseOff p.val true }
      aux := { s.aux with trim := 0, imb := false } }
    let s := queueEvent s 0x0B01 (p1 p.val ++ p1 cause)
    if bothLatched s then
      let d := drawFree s
      auxStop d.2 2 (d.1 % 65536).toNat
    else s

/-- The converter starts at step 4 of BOOT once AXIN is at least 9.0 V (R416). Between 11.0 V and 11.5 V, where the table
of modes keeps the one that was, it starts in buck-boost. DESIGN CHOICE, log entry 234. -/
def softStart (axinMv : Nat) (s : State) : State :=
  if s.sys.phase = .booting ∧ s.sys.bootStep = 4 ∧ 9000 ≤ axinMv ∧ auxRuns s = false ∧ bothLatched s = false then
    let s := clearPeaks s
    { s with aux := { s.aux with state := 1, mode := if 11500 < axinMv then 1 else 2 } }
  else s

/-- A phase current above 3.0 A (R417). -/
def phaseOvercurrent (p : Fin 2) (s : State) : State := latchPhase s p 1

/-- A run of consecutive periods ended by the cycle-by-cycle limit is counted; the shorter runs, which no row reports, are
counted at a read of AUXPS_CNT. -/
def countLimit (s : State) : State := { s with aux := { s.aux with limn := satInc 8 s.aux.limn } }

/-- The cycle-by-cycle limit has acted in 1 000 consecutive periods, outside soft start (R417). -/
def limitPersists (p : Fin 2) (s : State) : State :=
  if s.aux.state = 2 ∧ phaseLatched s p = false then latchPhase (countLimit s) p 1 else s

/-- The limit has acted in 3 consecutive periods during soft start (R416). -/
def softStartLimit (p : Fin 2) (s : State) : State :=
  if s.aux.state = 1 ∧ phaseLatched s p = false then latchPhase (countLimit s) p 2 else s

/-- The trim has been at its limit for 256 periods (R415). -/
def imbalance (positive : Bool) (s : State) : State :=
  if auxRuns s = false ∨ s.sticky.phaseOff ≠ 0 ∨ s.aux.imb = true then s
  else
    let t : Int := if positive then 500 else -500
    let s := { s with aux := { s.aux with imb := true, trim := t, imbn := satInc 8 s.aux.imbn } }
    queueEvent s 0x0B04 (p4 t)

/-- The trim has been inside its limits for 10 ms (R415); its value is a free value within them. -/
def imbalanceEnds (s : State) : State :=
  if s.aux.imb then
    let d := drawFree s
    { d.2 with aux := { d.2.aux with imb := false, trim := d.1 % 999 - 499 } }
  else s

/-- Body-diode braking starts (R419). -/
def brakeStarts (s : State) : State :=
  if auxRuns s && !s.aux.brake then
    { s with aux := { s.aux with brake := true, braken := satInc 16 s.aux.braken } }
  else s

/-- Normal switching resumes (R419). -/
def brakeEnds (s : State) : State := { s with aux := { s.aux with brake := false } }

/-- VGD over-voltage: low switches latched on, and the device stops (R420). -/
def vgdOver (millivolts : Nat) (s : State) : State :=
  if auxRuns s then
    let s := auxStop s 1 millivolts
    { s with sticky := { s.sticky with vgdLatch := true } }
  else s

/-- The phases in which a supply loss starts the shutdown: outside DORMANT, PARK and the stops of R418 and R420 (R426).
-/
def supplyWatched (s : State) : Bool :=
  match s.sys.phase with
  | .unpowered | .dormant | .park | .shutdown => false
  | .stopped => !(bothLatched s || s.sticky.vgdLatch)
  | _ => true

/-- The internal rails are watched while the aux converter makes them (R422). DEDUCED, log entry 233. -/
def railsWatched (s : State) : Bool := supplyWatched s && auxRuns s

/-- The supply-loss shutdown: gates off, outputs off, forced opening, and at last the discharge of VAON (R426). -/
def supplyShutdown (s : State) : State :=
  if supplyWatched s then
    let s := holdIslands s .shutdown
    { s with aux := s.aux.stop }
  else s

/-- VSO has been above 19.0 V for 10 ms (R412). -/
def vsoGood (s : State) : State := refreshOutputs { s with aux := { s.aux with vsouv := false } }

/-- VIO crosses 1.5 V (R411). -/
def vioEdge (up : Bool) (s : State) : State := { s with port := { s.port with vio := up } }

/-- AXIN moves the converter between buck and buck-boost (R413). -/
def modeEdge (buck : Bool) (s : State) : State :=
  if auxRuns s then { s with aux := { s.aux with mode := if buck then 1 else 2 } } else s

/-- VAON falls below 2.6 V: the device is unpowered (R410). The hardware thermal latch, the over-voltage latch and the
phase latches end; the disconnects, without VGD, are open. -/
def alwaysOnResets (s : State) : State :=
  let s := holdIslands s .unpowered
  { s with
    ch := vmap s.ch fun ch => { ch with dsw := false, opening := .none }
    aux := s.aux.stop
    sticky := { s.sticky with phaseOff := 0, vgdLatch := false } }

/-- A write of AUXPS_PKCLR (R430). -/
def pkclrWrite (s : State) (v : Word) : State × Byte := (if v.getLsbD 0 then clearPeaks s else s, stOk)

/-! ### The commands -/

/-- AUX_PHASE_OVERCURRENT. -/
def execAuxPhaseOvercurrent (phase : Fin 2) (s : State) : Host.Outcome State Fault Refusal :=
  .next (phaseOvercurrent phase s)

/-- AUX_LIMIT_PERSIST. -/
def execAuxLimitPersist (phase : Fin 2) (s : State) : Host.Outcome State Fault Refusal := .next (limitPersists phase s)

/-- AUX_SOFTSTART_LIMIT. -/
def execAuxSoftstartLimit (phase : Fin 2) (s : State) : Host.Outcome State Fault Refusal :=
  .next (softStartLimit phase s)

/-- AUX_IMBALANCE. -/
def execAuxImbalance (positive : Bool) (s : State) : Host.Outcome State Fault Refusal := .next (imbalance positive s)

/-- AUX_BRAKE. -/
def execAuxBrake (s : State) : Host.Outcome State Fault Refusal := .next (brakeStarts s)

/-- AUX_BRAKE_END. -/
def execAuxBrakeEnd (s : State) : Host.Outcome State Fault Refusal := .next (brakeEnds s)

/-- AUX_VGD_OV. -/
def execAuxVgdOv (millivolts : Nat) (s : State) : Host.Outcome State Fault Refusal := .next (vgdOver millivolts s)

/-- SUPPLY_LOSS. -/
def execSupplyLoss (s : State) : Host.Outcome State Fault Refusal := .next (supplyShutdown s)

/-- RAIL_FAULT (R422): the supply-loss shutdown. -/
def execRailFault (s : State) : Host.Outcome State Fault Refusal :=
  .next (if railsWatched s then supplyShutdown s else s)

/-- VSOUV_CLEAR. -/
def execVsouvClear (s : State) : Host.Outcome State Fault Refusal := .next (vsoGood s)

/-- VIO_CHANGE. -/
def execVioChange (up : Bool) (s : State) : Host.Outcome State Fault Refusal := .next (vioEdge up s)

/-- AUX_IMBALANCE_CLEAR. -/
def execAuxImbalanceClear (s : State) : Host.Outcome State Fault Refusal := .next (imbalanceEnds s)

/-- AUX_MODE_CHANGE. -/
def execAuxModeChange (buck : Bool) (s : State) : Host.Outcome State Fault Refusal := .next (modeEdge buck s)

/-- ALWAYS_ON_RESET. -/
def execAlwaysOnReset (s : State) : Host.Outcome State Fault Refusal := .next (alwaysOnResets s)

end Sys2Proof.Machine
end

