-- ==== Sys2Proof/Machine/SafetyEvents.lean ====
section
/-! DEFINITION. Family safety, its events: stop inputs, stop categories, safe outputs, cell protection, clock faults, the
restart of the safety island, and session timers (R228 to R261). -/
namespace Sys2Proof.Machine

/-- The index of a stop-input channel in SAFE_INST. -/
def inputBit (i : Fin 4) (chanB : Bool) : Nat := 2 * i.val + b2n chanB

/-- A latched discrepancy clears after both filtered channels have been low together and then both high (R233). -/
def discProgress (s : State) (i : Fin 4) : State :=
  let a := s.safe.filt.getLsbD (2 * i.val)
  let b := s.safe.filt.getLsbD (2 * i.val + 1)
  if s.safe.disc.getLsbD i.val = false then s
  else if !a && !b then { s with safe := { s.safe with bothLow := putBit s.safe.bothLow i.val true } }
  else if a && b && s.safe.bothLow.getLsbD i.val then
    { s with safe := { s.safe with disc := putBit s.safe.disc i.val false, bothLow := putBit s.safe.bothLow i.val false } }
  else s

/-- A stop-input channel changes its filtered level (R231, R232, R235). -/
def stopInput (i : Fin 4) (chanB level : Bool) (s : State) : State :=
  let before := inputDemands s i
  let k := inputBit i chanB
  let s := { s with safe := { s.safe with raw := putBit s.safe.raw k level, filt := putBit s.safe.filt k level } }
  let s := discProgress s i
  if inputDemands s i && !before then demand s i.val (bits s.safe.act.incfg[i] 2 2) else s

/-- With LATPOR at 1, the SAFE latch is written to NVM (R244). -/
def storeLatch (s : State) : State :=
  if s.sticky.safeLatch && s.safe.act.gcfg.getLsbD 0 then { s with nvm := { s.nvm with latCopy := true } } else s

/-- The two filtered channels of an input have differed for t_DISC (R233, R234). -/
def discrepancy (i : Fin 4) (s : State) : State :=
  if inputEnabled s i && s.safe.filt.getLsbD (2 * i.val) != s.safe.filt.getLsbD (2 * i.val + 1)
      && !s.safe.disc.getLsbD i.val && safetyRuns s then
    let s := { s with safe := { s.safe with disc := putBit s.safe.disc i.val true,
                                            bothLow := putBit s.safe.bothLow i.val false } }
    demand (queueEvent s 0x0602 (p1 i.val)) 4 0
  else s

/-- The category 1 timer expires (R237). -/
def cat1Expiry (s : State) : State := if s.safe.timer then category0 s else s

/-- Standstill is lost under category 2 (R238); what is staged is aborted as on a new demand (R30). -/
def standstillLost (c : Fin 16) (milliamps : Nat) (s : State) : State :=
  if s.sys.mode = .safe ∧ s.safe.cat = 2 ∧ s.safe.standstill ∧ 500 < milliamps then
    escalate (abortStaged (queueEvent s 0x0603 (p1 c.val ++ p4 milliamps)))
  else s

/-- A fault of one output: both outputs turn off, and a category 0 demand follows (R241, R242). -/
def outputFail (s : State) (o : Fin 2) (switch : Nat) : State :=
  let s := setOutputs s 0
  demand (queueEvent s 0x0604 (p1 o.val ++ p1 switch)) 5 0

/-- An off-pulse tests one switch of an output, S1 and S2 in turn (R241). -/
def offPulse (o : Fin 2) (pass : Bool) (s : State) : State :=
  if s.safe.soOn.getLsbD o.val && !s.safe.restarting then
    let sw := s.safe.soSwitch.getLsbD o.val
    let s := { s with safe := { s.safe with soSwitch := putBit s.safe.soSwitch o.val !sw } }
    if pass then s
    else outputFail { s with safe := { s.safe with soTest := putBit s.safe.soTest o.val true } } o (1 + b2n sw)
  else s

/-- An output carries too much current (R242). -/
def overload (o : Fin 2) (s : State) : State :=
  if s.safe.soOn.getLsbD o.val then
    let s := setOutputs { s with safe := { s.safe with soOvl := putBit s.safe.soOvl o.val true } }
      (putBit s.safe.soOn o.val false)
    demand (queueEvent s 0x0604 (p1 o.val ++ p1 3)) 5 0
  else s

/-- The feedback of an output shows the state that matches it: high while the output is off (R243). -/
def feedbackMatches (s : State) (o : Fin 2) : Bool := s.safe.sofb.getLsbD o.val != s.safe.soOn.getLsbD o.val

/-- A feedback mismatch has lasted longer than TFB (R243). -/
def feedbackFault (o : Fin 2) (s : State) : State :=
  if feedbackEnabled s o && !feedbackMatches s o then
    let s := { s with safe := { s.safe with sofbF := putBit s.safe.sofbF o.val true } }
    let s := queueEvent s 0x0605 (p1 o.val ++ p1 (b2n (s.safe.sofb.getLsbD o.val)))
    demand s 6 0
  else s

/-- The feedback input of an output changes (R243). -/
def feedbackChange (o : Fin 2) (level : Bool) (s : State) : State :=
  refreshOutputs (setOutputs { s with safe := { s.safe with sofb := putBit s.safe.sofb o.val level } } s.safe.soOn)

/-- VSO is too low: each output that is on fails its test at once (R412). -/
def vsoLow (s : State) : State :=
  let on := s.safe.soOn
  let s := { s with aux := { s.aux with vsouv := true } }
  (bitList on).foldl (fun s o =>
    outputFail { s with safe := { s.safe with soTest := putBit s.safe.soTest o.val true } } o 4) s

/-- A protection comparator works: while its disconnect is closed, UV with a limit other than 0, and OT with OTEN
(R247). -/
def cpActive (s : State) (c : Fin 16) (k : CpKind) : Bool :=
  (s.ch[c]).dsw &&
    match k with
    | .ov | .oc => true
    | .uv => bits s.safe.act.cpv[c] 0 16 != 0
    | .ot => (s.safe.act.cpi[c]).getLsbD 11

/-- A protection comparator trips (R247, R248). -/
def cpTripped (c : Fin 16) (k : CpKind) (s : State) : State :=
  if cpActive s c k then
    let s := { s with sticky := { s.sticky with cplat := vmod s.sticky.cplat c fun l => putBit l (cpCode k) true } }
    protectionTrip s c (cpCode k)
  else s

/-- The read-back and inversion tests of every comparator run (R250). -/
def cpTests (failed : Mask) (s : State) : State :=
  if safetyRuns s = false then s
  else
  let s := { s with
    safe := { s.safe with diagRun := (s.safe.diagRun ||| ~~~failed) &&& ~~~failed }
    sticky := { s.sticky with cpdiag := s.sticky.cpdiag ||| failed } }
  (bitList failed).foldl (fun s c => protectionTrip s c 4) s

/-- OV or UV of a channel contradicts the mean of an epoch in which its disconnect was closed: the mean lies beyond
the limit by more than 1 % + 10 mV, for UV while the cell discharges, and the comparator has not tripped (R250).
DEDUCED, log entry 194. -/
def cpContradicts (s : State) (c : Fin 16) : Bool :=
  let v := s.safe.act.cpv[c]
  let l := s.sticky.cplat[c]
  let ovMv : Int := bits v 16 16
  let uvMv : Int := bits v 0 16
  (s.ch[c]).dsw && (s.ch[c]).dswB
    && ((!l.getLsbD 0 && decide (ovMv * 1010 + 10000 < (s.ch[c]).vS))
      || (!l.getLsbD 1 && uvMv != 0 && decide ((s.ch[c]).vS < uvMv * 990 - 10000) && decide (shuntNv s.ch[c] < -500000)))

/-- The comparison of OV and UV with the epoch mean (R250). -/
def cpCompare (s : State) (c : Fin 16) : State :=
  if cpContradicts s c ∧ s.sticky.cpdiag.getLsbD c.val = false then
    protectionTrip { s with
      safe := { s.safe with diagRun := putBit s.safe.diagRun c.val false }
      sticky := { s.sticky with cpdiag := putBit s.sticky.cpdiag c.val true } } c 4
  else s

/-- The 25 MHz reference is absent (R251). -/
def refClockLost (s : State) : State :=
  if s.safe.refl then s else demand { s with safe := { s.safe with refl := true } } 7 0

/-- The safety oscillator is out of tolerance (R251). -/
def safetyOscFailed (s : State) : State :=
  if s.safe.rcf then s else demand { s with safe := { s.safe with rcf := true } } 8 0

/-- A lost clock has been good for 1 s (R251). -/
def clockGood (oscillator : Bool) (s : State) : State :=
  if oscillator then { s with safe := { s.safe with rcf := false } } else { s with safe := { s.safe with refl := false } }

/-- A gate-disable line fails its read-back; the demand stays until the next BOOT (R228, R251). -/
def gateDisableFailed (g : Fin 4) (s : State) : State :=
  let s := s.updGrp g fun gr => { gr with gdisFault := true }
  if s.safe.gdis then s else demand { s with safe := { s.safe with gdis := true } } 10 0

/-- The safety island restarts: a demand that is present, and a category 2 hold, become category 0 (R230). -/
def safetyDiverged (s : State) : State :=
  if safetyRuns s = false then s
  else
  let s := { s with safe := { s.safe with restarting := true } }
  if s.sys.mode = .safe ∧ (demandActive s ∨ s.safe.cat = 2) ∧ s.safe.cat ≠ 0 then escalate s else s

/-- The safety island has restarted (R230). -/
def safetyRestarted (micros : Nat) (s : State) : State :=
  if s.safe.restarting then
    queueEvent { s with safe := { s.safe with restarting := false } } 0x0608 (p4 micros)
  else s

/-- A session closes TSESS minutes after its last command or SAFE write (R261). -/
def sessionExpires (s : State) : State :=
  let s := timePasses s
  if s.safe.lastCmd + bits s.safe.act.gcfg 8 8 * 60000000000 ≤ s.sys.tbase then closeSession s 2 else s

/-- A locked slot unlocks after 60 s (R255). -/
def unlockSlot (m : Fin 4) (s : State) : State :=
  let s := timePasses s
  if s.safe.locked.getLsbD m.val ∧ s.safe.lockAt[m] + 60000000000 ≤ s.sys.tbase then
    { s with safe := { s.safe with locked := putBit s.safe.locked m.val false, fails := s.safe.fails.set m.val 0 m.isLt } }
  else s

/-! ### Meanings -/

/-- STOP_INPUT_CHANGE. -/
def execStopInputChange (input : Fin 4) (chanB level : Bool) (s : State) : Host.Outcome State Fault Refusal :=
  .next (stopInput input chanB level s)

/-- SAFE_LATCH_STORE. -/
def execSafeLatchStore (s : State) : Host.Outcome State Fault Refusal := .next (storeLatch s)

/-- DISCREP. -/
def execDiscrep (input : Fin 4) (s : State) : Host.Outcome State Fault Refusal := .next (discrepancy input s)

/-- CAT1_TIMER_EXPIRY. -/
def execCat1TimerExpiry (s : State) : Host.Outcome State Fault Refusal := .next (cat1Expiry s)

/-- SAFE_ESCALATE. -/
def execSafeEscalate (ch : Fin 16) (milliamps : Nat) (s : State) : Host.Outcome State Fault Refusal :=
  .next (standstillLost ch milliamps s)

/-- OFF_PULSE_TEST. -/
def execOffPulseTest (out : Fin 2) (pass : Bool) (s : State) : Host.Outcome State Fault Refusal :=
  .next (offPulse out pass s)

/-- SO_OVERLOAD. -/
def execSoOverload (out : Fin 2) (s : State) : Host.Outcome State Fault Refusal := .next (overload out s)

/-- SOFB_FAULT. -/
def execSofbFault (out : Fin 2) (s : State) : Host.Outcome State Fault Refusal := .next (feedbackFault out s)

/-- SOFB_CHANGE. -/
def execSofbChange (out : Fin 2) (level : Bool) (s : State) : Host.Outcome State Fault Refusal :=
  .next (feedbackChange out level s)

/-- VSO_UNDERVOLTAGE. -/
def execVsoUndervoltage (s : State) : Host.Outcome State Fault Refusal := .next (vsoLow s)

/-- CP_TRIP. -/
def execCpTrip (ch : Fin 16) (kind : CpKind) (s : State) : Host.Outcome State Fault Refusal :=
  .next (cpTripped ch kind s)

/-- CP_DIAG. -/
def execCpDiag (failed : Mask) (s : State) : Host.Outcome State Fault Refusal := .next (cpTests failed s)

/-- REF_CLOCK_LOSS. -/
def execRefClockLoss (s : State) : Host.Outcome State Fault Refusal := .next (refClockLost s)

/-- SAFETY_OSC_FAIL. -/
def execSafetyOscFail (s : State) : Host.Outcome State Fault Refusal := .next (safetyOscFailed s)

/-- CLOCK_RECOVERED. -/
def execClockRecovered (oscillator : Bool) (s : State) : Host.Outcome State Fault Refusal :=
  .next (clockGood oscillator s)

/-- GATE_DISABLE_FAULT. -/
def execGateDisableFault (group : Fin 4) (s : State) : Host.Outcome State Fault Refusal :=
  .next (gateDisableFailed group s)

/-- SAFETY_CORE_DIVERGENCE. -/
def execSafetyCoreDivergence (s : State) : Host.Outcome State Fault Refusal := .next (safetyDiverged s)

/-- SAFE_CORE_RESTART. -/
def execSafeCoreRestart (micros : Nat) (s : State) : Host.Outcome State Fault Refusal :=
  .next (safetyRestarted micros s)

/-- SESSION_TIMEOUT. -/
def execSessionTimeout (s : State) : Host.Outcome State Fault Refusal := .next (sessionExpires s)

/-- SLOT_UNLOCK. -/
def execSlotUnlock (slot : Fin 4) (s : State) : Host.Outcome State Fault Refusal := .next (unlockSlot slot s)

end Sys2Proof.Machine
end

