-- ==== Sys2Proof/Machine/Thermal.lean ====
section
/-! DEFINITION. Family thermal management: die sensors with their thresholds, throttling and orderly stops, the hardware
latch, and the temperature inputs (R273 to R287, R405). -/
namespace Sys2Proof.Machine

/-! ### Die sensors (R273, R284, R286) -/

/-- The neighbours of a die sensor (table Die sensors). -/
def dieNeighbours (k : Fin 20) : List (Fin 20) :=
  match k.val with
  | 0 => [1, 15] | 1 => [0, 2] | 2 => [1, 3] | 3 => [2, 4] | 4 => [3, 15]
  | 5 => [17, 6] | 6 => [5, 7] | 7 => [6, 8] | 8 => [7, 9] | 9 => [8, 10] | 10 => [9, 11] | 11 => [10, 12]
  | 12 => [11, 17] | 13 => [14, 16] | 14 => [13, 15, 16] | 15 => [0, 4, 14] | 16 => [13, 14]
  | 17 => [5, 12] | 18 => [19, 16] | _ => [18, 16]

/-- A privileged sensor is never replaced. -/
def privileged (k : Fin 20) : Bool := decide (17 ≤ k.val)

/-- The readings of the healthy neighbours. -/
def healthyNeighbours (s : State) (k : Fin 20) : List Int :=
  ((dieNeighbours k).filter fun j => !(s.therm.die[j]).broken).map fun j => (s.therm.die[j]).reading

/-- The mean of readings. -/
def meanList (l : List Int) : Int := divRound (l.foldl (· + ·) 0) (max 1 l.length)

/-- Readings agree within 20 K. -/
def agree20 (l : List Int) : Bool := l.all fun a => l.all fun b => decide (a - b ≤ 2000)

/-- The sensor's offset: the mean difference over the last 60 s, limited to 30 K; buckets of one second. -/
def dieOffset (d : Die) : Int :=
  let n := d.diffs.foldl (fun a x => a + x.2.1) 0
  let sum := d.diffs.foldl (fun a x => a + x.2.2) 0
  clampInt (-3000) 3000 (if n = 0 then 0 else divRound sum n)

/-- Add a difference to the bucket of its second, and drop the buckets older than 60 s. -/
def addDiff (l : List (Nat × Nat × Int)) (sec : Nat) (d : Int) : List (Nat × Nat × Int) :=
  let l := match l with
    | x :: r => if x.1 = sec then (sec, x.2.1 + 1, x.2.2 + d) :: r else (sec, 1, d) :: x :: r
    | [] => [(sec, 1, d)]
  l.filter fun x => decide (sec < x.1 + 60)

/-- Update a die sensor. -/
def State.updDie (s : State) (k : Fin 20) (f : Die → Die) : State :=
  { s with therm := { s.therm with die := vmod s.therm.die k f } }

/-- The sensor is found broken: DT_BROKEN with cause 1 range, 2 neighbours, 3 no neighbour. -/
def breakDie (s : State) (k : Fin 20) (cause : Nat) : State :=
  queueEvent (s.updDie k fun d => { d with broken := true, cause := cause }) 0x0705 (p1 k.val ++ p1 cause)

/-- A conversion of the interval lies outside -55 to 175 degrees (R284, R285). -/
def convOutside (x : DieConv) : Bool := decide (x.low < -5500) || decide (17500 < x.high)

/-- Decide whether a healthy sensor is broken by an evaluation: by the range of its conversions, or by their mean
(R284); its difference from its neighbours counts for its offset as long as it is healthy. -/
def judgeDie (s : State) (k : Fin 20) (v : DieConv) : State :=
  let d := s.therm.die[k]
  let x := v.mean
  if d.broken then s
  else if convOutside v then breakDie s k 1
  else
    let nb := healthyNeighbours s k
    if nb.isEmpty then s
    else
      let m := meanList nb
      let far := agree20 nb && decide (2000 < (x - (m + dieOffset d)).natAbs)
      if far && decide (9 ≤ d.differ) then breakDie s k 2
      else
        s.updDie k fun d =>
          { d with differ := if far then d.differ + 1 else 0
                   diffs := addDiff d.diffs (s.sys.tbase / 1000000000) (x - m) }

/-- The reading that an evaluation gives: the mean, the estimate of a broken sensor, or 141 degrees. -/
def usedReading (s : State) (k : Fin 20) (x : Int) : Int :=
  let d := s.therm.die[k]
  if d.broken = false then x
  else if privileged k then 14100
  else
    let nb := healthyNeighbours s k
    if nb.isEmpty then 14100 else meanList nb + dieOffset d

/-- A broken sensor that is left with no healthy neighbour is reported once. -/
def lonelyDie (s : State) (k : Fin 20) : State :=
  let d := s.therm.die[k]
  if d.broken && !privileged k && (healthyNeighbours s k).isEmpty && d.cause != 3 then breakDie s k 3 else s

/-! ### The boot-time die-sensor check (R285) -/

/-- The means of the neighbours of a sensor that have been converted and are not themselves outside the range. -/
def bootNeighbours (l : Vector (Option DieConv) 20) (k : Fin 20) : List Int :=
  (dieNeighbours k).filterMap fun j =>
    match l[j] with
    | some v => if convOutside v then none else some v.mean
    | none => none

/-- The cause for which the check finds a sensor broken: 1 range, 2 more than 10 K from the mean of its neighbours. -/
def bootBroken (l : Vector (Option DieConv) 20) (k : Fin 20) : Option Nat :=
  match l[k] with
  | none => none
  | some v =>
    let nb := bootNeighbours l k
    if convOutside v then some 1 else if !nb.isEmpty && decide (1000 < (v.mean - meanList nb).natAbs) then some 2 else none

/-- The boot-time die-sensor check ends: the sensors that it finds broken are, before their first evaluation. -/
def checkDies (s : State) : State :=
  if s.therm.checked then s
  else
    let l := s.therm.boot
    (List.finRange 20).foldl (fun s k => match bootBroken l k with | some c => breakDie s k c | none => s)
      { s with therm := { s.therm with checked := true } }

/-! ### Thresholds (R276, R280, R405) -/

/-- WARN in 0.01 degrees. -/
def warnAt (s : State) : Int := bits s.therm.cfgF 0 8 * 100

/-- THROT in 0.01 degrees. -/
def throtAt (s : State) : Int := bits s.therm.cfgF 8 8 * 100

/-- The reading lies within 10 K of a threshold of the table Die thresholds. -/
def nearThreshold (s : State) (x : Int) : Bool :=
  [warnAt s, throtAt s, throtAt s + 500, 14000, 15000].any fun t => decide ((x - t).natAbs ≤ 1000)

/-- The 1 ms evaluation starts near a threshold and ends 1 s after the last reading near one (R274). -/
def fastStep (s : State) (k : Fin 20) (x : Int) : State :=
  if nearThreshold s x then s.updDie k fun d => { d with fast := true, nearAt := some s.sys.tbase }
  else
    s.updDie k fun d =>
      match d.nearAt with
      | some t => if t + 1000000000 ≤ s.sys.tbase then { d with fast := false, nearAt := none } else d
      | none => { d with fast := false }

/-- The time since which every reading has been below WARN (R280). -/
def coolStep (s : State) (k : Fin 20) (x : Int) : State :=
  s.updDie k fun d => { d with coolAt := if warnAt s ≤ x then none else some (d.coolAt.getD s.sys.tbase) }

/-- THERM_WARN on entry and exit. -/
def warnStep (s : State) (k : Fin 20) (x : Int) : State :=
  let d := s.therm.die[k]
  if d.warn = false ∧ warnAt s ≤ x then
    let s := s.updDie k fun d => { d with warn := true }
    let s := { s with therm := { s.therm with warnn := satInc 16 s.therm.warnn } }
    queueEvent s 0x0701 (p1 k.val ++ p4 (divRound x 10) ++ p1 1)
  else if d.warn ∧ x < warnAt s - 500 then
    let s := s.updDie k fun d => { d with warn := false, out := false }
    queueEvent s 0x0701 (p1 k.val ++ p4 (divRound x 10) ++ p1 0)
  else s

/-- The throttle level after a reading. -/
def nextLevel (level : Nat) (x throt : Int) : Nat :=
  if throt + 500 ≤ x then 2
  else if level = 2 ∧ throt ≤ x then 2
  else if throt ≤ x then 1
  else if level ≠ 0 ∧ throt - 500 ≤ x then 1
  else 0

/-- THERM_THROTTLE on each change of level. -/
def throttleStep (s : State) (k : Fin 20) (x : Int) : State :=
  let o := (s.therm.die[k]).level
  let n := nextLevel o x (throtAt s)
  if n = o then s
  else
    let s := s.updDie k fun d => { d with level := n }
    let s := if o = 0 then { s with therm := { s.therm with thrn := satInc 8 s.therm.thrn } } else s
    queueEvent s 0x0702 (p1 k.val ++ p1 n)

/-- Thermal cycles of a sensor (R405): risen by 40 K from the lowest, then fallen by 40 K from the highest. -/
def cycleStep (s : State) (k : Fin 20) (x : Int) : State :=
  let d := s.therm.die[k]
  let hi := max d.cycHigh x
  if d.cycLow + 4000 ≤ d.cycHigh ∧ x + 4000 ≤ hi then
    let s := s.updDie k fun d => { d with cycLow := x, cycHigh := x }
    { s with nvm := { s.nvm with life := { s.nvm.life with cycles := vmod s.nvm.life.cycles k (satInc 32) } } }
  else
    let lo := min d.cycLow x
    s.updDie k fun d => { d with cycLow := lo, cycHigh := if d.cycLow + 4000 ≤ d.cycHigh then hi else if x = lo then x else hi }

/-! ### Orderly stop (R279, R280) -/

/-- The channels that an orderly stop of a zone stops. -/
def zoneChannels (s : State) (k : Fin 20) : List (Fin 16) := channels.filter (inZone s k)

/-- An orderly stop reaches a channel at a boundary: RUN and HOLD to HOLD with zero current and the disconnect closed,
CHECK as for a host STOP. While a safety reaction acts, the stop adds nothing (R287). -/
def stopChannel (s : State) (c : Fin 16) : State :=
  if s.sys.mode = .safe then s
  else
    match (s.ch[c]).st with
    | .run =>
      let s := holdNow (leaveRestart s c) c hcIsland
      (members s c).foldl (fun s d => s.updCh d Chan.rampDown) s
    | .hold => (addCause s (leaderOf s c) hcIsland).updCh c Chan.rampDown
    | .check => stopGang s (leaderOf s c) 0x31
    | _ => s

/-- The orderly stops that take effect at a boundary. -/
def applyStops (s : State) : State :=
  (List.finRange 20).foldl (fun s k =>
    if (s.therm.die[k]).stopDue then
      (zoneChannels s k).foldl stopChannel (s.updDie k fun d => { d with stopDue := false })
    else s) s

/-- The group of a hot engine goes to the spare where it can; the engine is then left out. -/
def handHot (s : State) (k : Fin 20) (c : Fin 5) : Option State :=
  match ownedGroup s c with
  | some g =>
    let t := if (s.grp[g]).castle = none then hotCastle s c else s
    if (t.grp[g]).castle ≠ none then some (t.updDie k fun d => { d with out := true }) else none
  | none => none

/-- The channels of a zone stop at the next boundary; the group of a hot engine goes to the spare first where it can,
and then no channel stops (R280). -/
def stopZoneWork (s : State) (k : Fin 20) : State :=
  let due : State := s.updDie k fun d => { d with stopDue := true, out := false }
  if h : k.val < 5 then (handHot s k ⟨k.val, h⟩).getD due else due

/-- An orderly stop of a zone begins. -/
def beginStop (s : State) (k : Fin 20) : State :=
  let s := { s with therm := { s.therm with stopn := satInc 8 s.therm.stopn } }
  stopZoneWork (queueEvent (s.updDie k fun d => { d with stop := true }) 0x0703 (p1 k.val ++ p1 1)) k

/-- The group of a hot engine has not gone to the spare: its castling was aborted (R280). -/
def stranded (s : State) (k : Fin 20) : Bool :=
  if h : k.val < 5 then
    (s.therm.die[k]).out &&
      match ownedGroup s ⟨k.val, h⟩ with
      | some g => (s.grp[g]).castle.isNone
      | none => false
  else false

/-- Two consecutive evaluations at or above 140 degrees start an orderly stop; a spare that has reached 140 degrees
abandons its logic BIST, whether its zone stops already or not. -/
def stopStep (s : State) (k : Fin 20) (x : Int) : State :=
  if x < 14000 then s.updDie k fun d => { d with hot := 0 }
  else
    let n := (s.therm.die[k]).hot + 1
    let s := s.updDie k fun d => { d with hot := n }
    if n < 2 then s
    else
    let s := if h : k.val < 5 then abandonBist s ⟨k.val, h⟩ else s
    if (s.therm.die[k]).stop = false then beginStop s k
    else if stranded s k then stopZoneWork s k
    else s

/-- Thermal supervision evaluates: from step 7 of BOOT on, not in DORMANT or PARK, and with the reference (R274,
R275). -/
def thermRuns (s : State) : Bool :=
  !s.safe.refl &&
    match s.sys.phase with
    | .running => s.sys.mode != .dormant
    | .halted => s.sys.hcode != 4
    | .booting => decide (7 ≤ s.sys.bootStep)
    | _ => false

/-- The thermal registers written since come into force at an evaluation (R288). -/
def takeThermCfg (s : State) : State :=
  { s with therm := { s.therm with cfgF := s.therm.cfg, thcfgF := s.therm.thcfg, auxcfgF := s.therm.auxcfg } }

/-- A reading acts: warning, throttling, the interval, thermal cycles, orderly stop, and the castling of a hot engine
(R274, R276, R279, R280, R405). -/
def actOnReading (s : State) (k : Fin 20) (x : Int) : State :=
  let s := if k = 17 then
      { s with aux := { s.aux with temp := (if s.aux.temp.1 < x then x else s.aux.temp.1, s.aux.temp.2) } }
    else s
  let s := cycleStep (fastStep (throttleStep (warnStep s k x) k x) k x) k x
  let s := stopStep (coolStep s k x) k x
  if h : k.val < 5 then
    if (s.therm.die[k]).level = 2 then hotCastle s ⟨k.val, h⟩ else s
  else s

/-- One evaluation of a die sensor, on the mean of its conversions (R274, R276, R279, R280, R284). -/
def evalDie (s : State) (k : Fin 20) (v : DieConv) : State :=
  let s := lonelyDie (judgeDie (takeThermCfg s) k v) k
  let x := usedReading s k v.mean
  let s := s.updDie k fun d =>
    { d with reading := x, word := if d.broken then x else v.last, stamp := s.sys.epoch.toNat }
  actOnReading s k x

/-- The boot-time check ends, and the first evaluation of every sensor that has been converted follows it. -/
def firstEvals (s : State) : State :=
  let l := s.therm.boot
  if s.therm.checked then s
  else (List.finRange 20).foldl (fun s k => match l[k] with | some v => evalDie s k v | none => s) (checkDies s)

/-- THERM_EVALUATION: until the boot-time check has ended, the conversions count for it; with those of the last sensor
it ends (R274, R285). -/
def thermEval (k : Fin 20) (v : DieConv) (s : State) : State :=
  if thermRuns s = false then s
  else if s.therm.checked then evalDie s k v
  else
    let s := { s with therm := { s.therm with boot := s.therm.boot.set k.val (some v) k.isLt } }
    if s.therm.boot.all (·.isSome) then firstEvals s else s

/-- Every reading of the zone has been below WARN for 10 s: the stop ends (R280, R286). -/
def stopEnds (k : Fin 20) (s : State) : State :=
  let d := s.therm.die[k]
  let cool := match d.coolAt with
    | some t => decide (t + 10000000000 ≤ s.sys.tbase)
    | none => false
  if d.stop && cool && !(privileged k && d.broken) then
    queueEvent (s.updDie k fun d => { d with stop := false, stopDue := false }) 0x0703 (p1 k.val ++ p1 0)
  else s

/-! ### Hardware latch (R281) -/

/-- The hardware latch holds the device stopped: it has tripped since the last BOOT. -/
def latchHolds (s : State) : Bool := s.sys.phase == .stopped && s.nvm.thLatched && !s.nvm.thTold

/-- The hardware latch trips, also where the supplies have stopped the device (R429); the first sensor is recorded. A
latch that acts again after a power-on reset is recorded afresh, and the next BOOT reports it. DEDUCED, log entry 221. -/
def latchTrips (k : Fin 20) (s : State) : State :=
  if s.sys.phase = .unpowered ∨ latchHolds s = true then s
  else
    let s := holdIslands s .stopped
    { s with
      nvm := { s.nvm with thLatched := true, thSensor := k, thTold := false }
      aux := s.aux.stop }

/-! ### TH and AUX inputs (R282, R283) -/

/-- R25 in 10 Ohm and B of an input. -/
def inputCfg (s : State) (i : Fin 24) : Nat × Nat :=
  let w := if h : i.val < 16 then s.therm.thcfgF else s.therm.auxcfgF[i.val - 16]'(by omega)
  (bits w 0 16, if i.val < 16 then bits w 16 16 else bits w 16 15)

/-- The input is a voltage input. -/
def voltageInput (s : State) (i : Fin 24) : Bool :=
  if h : i.val < 16 then false else (s.therm.auxcfgF[i.val - 16]'(by omega)).getLsbD 31

/-- The temperature of a ratio x / 65536 in millidegrees; none where the formula has no value. -/
def thermistor (r25 b x : Nat) : Option Int :=
  if x = 0 ∨ 65536 ≤ x ∨ r25 = 0 then none
  else
    let l := fxLn (1000 * x) ((65536 - x) * r25)
    let den := (100 * b * fxOne : Nat) + 29815 * l
    if den ≤ 0 then none else some (divRound (298150 * (100 * b * fxOne : Nat)) den.toNat - 273150)

/-- Update an input. -/
def State.updInp (s : State) (i : Fin 24) (f : Therm → Therm) : State :=
  { s with therm := { s.therm with inp := vmod s.therm.inp i f } }

/-- The 100 ms filter of the shunt temperature over an interval, with 16 fraction bits (R150). -/
def filterStep (filt temp : Int) (ns : Nat) : Int :=
  let t := temp * 65536
  if 1000000000 ≤ ns then t else t + divRound ((filt - t) * fxExp (Int.neg (divRound (fxOne * ns) 1000000000))) fxOne

/-- The filter over an interval of up to 1 s, in ten parts, so that each exponent is at most 1. -/
def filterOver (filt temp : Int) (ns : Nat) : Int :=
  (List.range 10).foldl (fun f _ => filterStep f temp (min ns 10000000000)) filt

/-- TH_BROKEN. -/
def inputEvent (s : State) (i : Fin 24) (kind entry : Nat) : State :=
  queueEvent s 0x0706 (p1 i.val ++ p1 kind ++ p1 entry)

/-- An NTC input outside the limits, or inside them, in one refresh (R283). -/
def brokenStep (s : State) (i : Fin 24) (x ns : Nat) : State :=
  let hi := decide (985 * 65536 ≤ 1000 * x)
  let lo := decide (1000 * x ≤ 5 * 65536)
  if hi || lo then
    let s := s.updInp i fun t => { t with outRun := t.outRun + 1, goodNs := 0 }
    if 3 ≤ (s.therm.inp[i]).outRun ∧ (s.therm.inp[i]).broken = false then
      let kind := if hi then 1 else 2
      inputEvent (s.updInp i fun t => { t with broken := true, kind := kind }) i kind 1
    else s
  else
    let s := s.updInp i fun t => { t with outRun := 0, goodNs := if t.outRun = 0 then t.goodNs + ns else 0 }
    if (s.therm.inp[i]).broken ∧ 1000000000 ≤ (s.therm.inp[i]).goodNs then
      inputEvent (s.updInp i fun t => { t with broken := false }) i (s.therm.inp[i]).kind 0
    else s

/-- The OT comparator of a channel after a refresh of its THn: it trips when the temperature has been above OT, or the
input broken, in 3 consecutive refreshes (R247). -/
def otCheck (s : State) (c : Fin 16) : State :=
  let i : Fin 24 := ⟨c.val, by omega⟩
  let hot := cpActive s c .ot && beyondLimit s c .ot
  let s := s.updInp i fun t => { t with otRun := if hot then t.otRun + 1 else 0 }
  if 3 ≤ (s.therm.inp[i]).otRun ∧ (s.sticky.cplat[c]).getLsbD 3 = false then cpTripped c .ot s else s

/-- A refresh of a voltage input, x in 1/65536 of 2.5 V: beyond its range the word is saturated, with OVR (R130,
R282). -/
def refreshVolt (s : State) (i : Fin 24) (x : Nat) : State :=
  let high := decide (65536 < x)
  let uv := (divRound (min x 65536 * 2500000 : Nat) 65536).toNat
  let s := s.updInp i fun t => { t with uv := uv, volt := true, ovr := high, broken := false, outRun := 0 }
  if high then overRangeLink s (0x68 + i.val) else s

/-- A refresh of an NTC input. Where the formula has no value, the temperature is a free value. -/
def refreshNtc (s : State) (i : Fin 24) (x ns : Nat) : State :=
  let cfg := inputCfg s i
  let v : Int × State := match thermistor cfg.1 cfg.2 x with
    | some t => (t, s)
    | none => ((drawFree s).1 % 2147483648, (drawFree s).2)
  let s := brokenStep v.2 i x ns
  let s := s.updInp i fun t =>
    { t with temp := v.1, volt := false, ovr := false, filt := if t.broken then t.filt else filterOver t.filt v.1 ns }
  if h : i.val < 16 then tempRefresh (otCheck s ⟨i.val, h⟩) ⟨i.val, h⟩ else s

/-- A new value of an input, x in 1/65536 of 2.5 V (R282, R283). -/
def refreshInput (i : Fin 24) (x : Nat) (s : State) : State :=
  if thermRuns s = false then s
  else
    let now := s.sys.tbase
    let ns := now - (s.therm.inp[i]).lastNs
    let s := s.updInp i fun t => { t with lastNs := now, stamp := s.sys.epoch.toNat }
    if voltageInput s i then refreshVolt s i x else refreshNtc s i x ns

/-! ### Meanings -/

/-- THERM_EVALUATION. -/
def execThermEvaluation (sensor : Fin 20) (conv : DieConv) (s : State) : Host.Outcome State Fault Refusal :=
  .next (thermEval sensor conv s)

/-- THERM_STOP_END. -/
def execThermStopEnd (sensor : Fin 20) (s : State) : Host.Outcome State Fault Refusal := .next (stopEnds sensor s)

/-- THERM_LATCH. -/
def execThermLatch (sensor : Fin 20) (s : State) : Host.Outcome State Fault Refusal := .next (latchTrips sensor s)

/-- TH_REFRESH. -/
def execThRefresh (input : Fin 24) (x : Nat) (s : State) : Host.Outcome State Fault Refusal := .next (refreshInput input x s)

end Sys2Proof.Machine
end

