-- ==== Sys2Proof/Machine/Flags.lean ====
section
/-! DEFINITION. The status words: every register that reports state of the device, composed from the fields that hold it
(the register tables of all chapters), and the output pins that follow from the state. -/
namespace Sys2Proof.Machine

/-! ### SYS -/

/-- The target of the pending mode change. -/
def pendingTarget (s : State) : Nat :=
  match s.staged.find? fun x => x.change.isMode with
  | some x => match x.change with | .mode t _ _ _ _ => t.code | _ => 0
  | none => 0

/-- SYS_MODE (R206 to R219). -/
def sysMode (s : State) : Word :=
  pack [(0, s.sys.mode.code), (4, pendingTarget s), (8, if s.sys.mode = .safe then s.sys.safeFrom.code else 0),
        (12, s.sys.prev.code), (16, b2n (s.sys.setl != 0)), (17, b2n (s.sys.phase == .park || s.sys.due == .park)),
        (18, b2n (s.sys.phase == .halted)), (19, b2n s.sticky.safeLatch)]

/-- SYS_RSTC. -/
def sysRstc (s : State) : Word :=
  pack [(0, s.sys.cause.code), (8, s.sticky.wsrc), (11, b2n s.sticky.stuck), (16, s.sticky.softn), (24, s.sticky.pinn)]

/-- SYS_BOOT. -/
def sysBoot (s : State) : Word :=
  pack [(0, satNat 16 s.sys.tboot), (16, b2n s.sys.cefail), (17, b2n s.sys.cfgdef), (24, s.sys.hcode)]

/-- SYS_OWNER (R19). -/
def sysOwner (s : State) : Word := pack ((List.finRange 4).map fun g => (8 * g.val, groupTag s.grp[g]))

/-- SYS_STALE (R19). -/
def sysStale (s : State) : Word := pack ((List.finRange 4).map fun g => (8 * g.val, satNat 8 (s.grp[g]).stale))

/-- SYS_STAGE (R25, R27). -/
def sysStage (s : State) : Word := pack [(0, s.sys.refusers.toNat), (16, b2n (modePending s))]

/-- SYS_XBAR. -/
def sysXbar (s : State) : Word := pack [(0, s.sticky.xbarRetry), (16, s.sticky.xbarFail)]

/-- SYS_RECOV. -/
def sysRecov (s : State) : Word :=
  pack [(0, s.sticky.castu), (8, s.sticky.islr), (16, s.sticky.ckfb), (24, s.sticky.seqr)]

/-- SYS_CASTLE (R121, R395). -/
def sysCastle (s : State) : Word :=
  pack [(0, s.sys.castlePeriod.toNat), (16, b2n s.sys.castlePen), (17, b2n s.sys.castleStop),
        (20, match spareOf s with | some k => k.val | none => 7)]

/-- SYS_HQ (R296). -/
def sysHq (s : State) : Word :=
  pack [(0, s.port.outstanding.length), (8, s.port.replies.length), (16, s.port.ltag.toNat)]

/-- SYS_HSTAT. -/
def sysHstat (s : State) : Word := pack [(0, s.port.drop), (8, s.port.badfr), (16, s.port.crce), (24, s.port.authf)]

/-- The safety configuration that reads show: the session's values inside a session (R258). -/
def safeView (s : State) : SafeCfg := if s.safe.sessOpen then s.safe.sess else s.safe.act

/-- SYS_HAUTH as read: the session's values inside a session (R258, R305). -/
def sysHauth (s : State) : Word := pack [(0, (safeView s).hauth.toNat), (8, b2n s.nvm.key.isSome)]

/-- The fuse-map entries in use, the rows soft-repaired by the last boot, and those repaired since (R390, R408). -/
def repairCounts (s : State) : Nat × Nat × Nat :=
  let l := softRepairs s
  ((s.isl.rows.filter (·.fused)).length, (l.filter fun x => !x.run).length, (l.filter (·.run)).length)

/-- SYS_ECC (R362, R364, R390). -/
def sysEcc (s : State) : Word :=
  let n := repairCounts s
  pack [(0, n.1 + n.2.1 + n.2.2), (8, s.isl.uncorr), (16, s.isl.corr)]

/-- SYS_SCRPOS (R363). -/
def sysScrpos (s : State) : Word := pack [(0, s.isl.scrubWord % 2 ^ 19), (24, s.isl.passn)]

/-! ### CH and LEG -/

/-- CHn_STAT. -/
def chStat (s : State) (c : Fin 16) : Word :=
  let ch := s.ch[c]
  pack [(0, ch.st.code), (3, b2n ch.dir), (4, b2n (ch.fold && !ch.burst)), (5, b2n ch.burst),
        (6, b2n (s.leg[legA c]).parked), (7, b2n (s.leg[legB c]).parked), (8, b2n ch.dsw), (9, b2n ch.imbal),
        (10, b2n (isGanged s c)), (16, if isGanged s c then (leaderOf s c).val else 0), (24, ch.fcode.toNat)]

/-- CHn_PWM (R51, R53): FEFF is 0 while no leg of the channel switches, as in a restart interval (R75). -/
def chPwm (s : State) (c : Fin 16) : Word :=
  let feff := if (runningLegs s c).any (legSwitching s) then (s.ch[c]).feff else 0
  pack [(0, feff % 512), (16, ufield 10 (s.ch[c]).trim)]

/-- CHn_CHKRES (R70). -/
def chChkres (s : State) (c : Fin 16) : Word :=
  let ch := s.ch[c]
  pack [(0, satNat 16 ch.rc), (16, ch.chkResult.toNat), (24, b2n ch.dswnc)]

/-- CHn_CNT. -/
def chCnt (s : State) (c : Fin 16) : Word := pack [(0, (s.ch[c]).foldN), (16, (s.ch[c]).burstN)]

/-- CHn_LSTAT. -/
def chLstat (s : State) (c : Fin 16) : Word :=
  let ch := s.ch[c]
  pack [(0, ch.win.val), (8, b2n ch.neg), (12, (maskOf 4 fun j => (ch.loops[j]).frozen).toNat), (16, ch.src.code),
        (18, b2n ch.isat), (19, b2n ch.impl), (20, ch.implc.toNat), (28, ch.ovf.toNat)]

/-- CHn_SUPRES: residuals of the leg sum in 10 mA and of the cell model in 10 uV (R115). -/
def chSupres (s : State) (c : Fin 16) : Word :=
  let ch := s.ch[c]
  pack [(0, ufield 16 (satInt 16 (divRound ch.res[0] 10))), (16, ufield 16 (satInt 16 (divRound ch.res[1] 10000)))]

/-- CHn_PSTAT (R176, R177). -/
def chPstat (s : State) (c : Fin 16) : Word :=
  let p := (s.ch[c]).prog
  let active := p.pstate.active
  pack [(0, p.step % 128), (8, if active then stType p.cur else 0), (16, p.pstate.code), (19, b2n p.tred),
        (20, match p.causes with | k :: _ => k % 16 | [] => 0), (24, p.lastR % 256)]

/-- Seconds to flag fall at the present f_D, rounded up; 0 when no timer runs (R174). -/
def flagLeft (ch : Chan) : Nat :=
  let p := ch.prog
  if stepRuns ch ∧ 0 < stTmax p.cur then
    let total := if p.samples = 0 then stTmax p.cur * 1000000000
      else stTmax p.cur * 1000000000 * (2 * p.samples + stretchShare p) / (2 * p.samples)
    satNat 24 ((total - p.stepNs + 999999999) / 1000000000)
  else 0

/-- CHn_PFLAG (R174). -/
def chPflag (s : State) (c : Fin 16) : Word :=
  pack [(0, flagLeft s.ch[c]), (24, (s.ch[c]).prog.share)]

/-- CHn_LOGST (R186). -/
def chLogst (s : State) (c : Fin 16) : Word := pack [(0, (s.ch[c]).drop), (16, (s.ch[c]).lost)]

/-- A dead time applied: the programmed one, or with adaptive dead time a free value from the programmed one up to
250 ns (R78, R79). -/
def deadTime (s : State) (l : Fin 32) (code : Nat) : Nat × State :=
  let base := 8 + 2 * code
  if legSwitching s l = false then (0, s)
  else if (s.leg[l]).dt.getLsbD 16 then
    let d := drawFree s
    (base + (d.1 % (251 - min base 250 : Nat)).toNat, d.2)
  else (base, s)

/-- LEGL_STAT (R85, R92). BUV is the level of the comparator, whose release no command tells: after a trip it is a
free value until 64 periods have passed without one. Log entry 18. -/
def legStat (s : State) (l : Fin 32) : Word × State :=
  let hl := deadTime s l (bits (s.leg[l]).dt 0 7)
  let lh := deadTime hl.2 l (bits (s.leg[l]).dt 8 7)
  let x := s.leg[l]
  let d := drawFree lh.2
  let buv := x.buv && decide (d.1 % 2 = 1)
  (pack [(1, b2n buv), (2, b2n x.dlim), (3, b2n x.park.boot), (4, b2n x.restart), (5, b2n x.suspect), (12, x.tkind % 16),
         (16, satNat 8 hl.1), (24, satNat 8 lh.1)], d.2)

/-- LEGL_CNT. -/
def legCnt (s : State) (l : Fin 32) : Word :=
  pack [(0, (s.leg[l]).scn), (8, (s.leg[l]).cmpn), (16, (s.leg[l]).ilk)]

/-! ### CE and MEAS -/

/-- CEk_ROLE (R40, R395). -/
def ceRole (s : State) (k : Fin 5) : Word :=
  let ce := s.ce[k]
  if ce.role = .owner then
    pack [(0, 0), (4, ce.group.val), (8, groupTag s.grp[ce.group])]
  else pack [(0, ce.role.code)]

/-- CEk_STAT. -/
def ceStat (s : State) (k : Fin 5) : Word :=
  let ce := s.ce[k]
  pack [(0, ce.mism), (8, ce.bist % 16), (24, satNat 8 ((ce.relmax.getLast?.map (·.2)).getD 0))]

/-- CEk_CNT. -/
def ceCnt (s : State) (k : Fin 5) : Word := pack [(0, (s.ce[k]).cout), (16, (s.ce[k]).cin)]

/-- CEk_BTIME in s. -/
def ceBtime (s : State) (k : Fin 5) : Word := BitVec.ofNat 32 (satNat 32 ((s.ce[k]).btimeNs / 1000000000))

/-- MEAS_STAT (R134, R144). -/
def measStat (s : State) : Word :=
  let inV (r : Fin 3) : Nat := b2n (s.meas.refInit && inVote s r)
  let ret := countI 32 (fun q => s.nvm.convRetired.getLsbD q.val) + countI 4 (fun j => s.nvm.laneRetired.getLsbD j.val)
  pack [(0, inV 0), (1, inV 1), (2, inV 2), (8, s.meas.hold % 8), (11, b2n (s.meas.hold != 0)), (12, b2n s.meas.holdx),
        (16, freeLanes s), (24, ret)]

/-- MEAS_REFDIF (R134). -/
def measRefdif (s : State) : Word :=
  pack [(0, ufield 16 (satInt 16 s.meas.ab)),
        (16, if s.meas.refcfg.getLsbD 16 then ufield 16 (satInt 16 s.meas.xd) else 0)]

/-- MEAS_ROT (R137, R144): the period is 0 where the rotation stands still for want of lanes or in SERVICE. -/
def measRot (s : State) : Word :=
  pack [(0, if freeLanes s = 0 ∨ s.sys.mode = .service then 0 else 2 * rotationSlots s), (16, satNat 8 (s.meas.slot - 1))]

/-- MEAS_LANES. -/
def measLanes (s : State) : Word :=
  pack ((List.finRange 4).flatMap fun j =>
    let l := s.meas.lanes[j]
    [(8 * j.val, if l.st = 1 ∨ l.st = 2 then l.pos.val else 0), (8 * j.val + 6, l.st.toNat)])

/-- MEAS_HOLD (R146). -/
def measHold (s : State) : Word :=
  if s.meas.hold = 0 then 0
  else pack [(0, satNat 16 (holdHours s s.sys.tbase)),
             (16, ufield 8 (satInt 8 (divRound (holdDrift s (measTemp s)) 10)))]

/-- MEAS_SRCn. -/
def measSrc (s : State) (c : Fin 16) : Word :=
  pack [(0, laneServing s (2 * c.val)), (8, laneServing s (2 * c.val + 1)), (16, b2n (blending s (voltPos c))),
        (17, b2n (blending s (ampPos c)))]

/-! ### LINK -/

/-- LINK_STATE. -/
def linkState (s : State) : Word :=
  let l := s.link
  pack [(0, l.st.code), (3, b2n l.srcok), (4, b2n l.bken), (5, b2n l.bkok), (6, b2n l.qual), (7, b2n l.stale),
        (8, b2n l.bkf), (16, l.code % 8), (24, countI 16 fun n => (l.peers[n]).present)]

/-- Power in mW as W in 16 bits, rounded to nearest and saturating. -/
def watts (mw : Nat) : Nat := satIntNat 16 (divRound mw 1000)

/-- LINK_PEERS. -/
def linkPeers (s : State) : Word :=
  (peersPresent s ||| (if linkNodeOn s then bitOf 16 (nodeId s) else 0)).zeroExtend 32

/-- LINK_TOT. -/
def linkTot (s : State) : Word := pack [(0, watts s.link.d), (16, watts s.link.gm)]

/-- LINK_DEV. -/
def linkDev (s : State) : Word := pack [(0, watts s.link.di), (16, watts s.link.gmi)]

/-- A factor in 0.01 %, rounded to nearest. -/
def hundredths (k : Nat × Nat) : Nat := (divRound (k.1 * 10000) (max 1 k.2)).toNat

/-- LINK_K. -/
def linkK (s : State) : Word := pack [(0, hundredths s.link.kc), (16, hundredths s.link.kd)]

/-- LINK_GUARD: the factors in force. -/
def linkGuard (s : State) : Word := pack [(0, hundredths (s.link.gCF, 65536)), (16, hundredths (s.link.gDF, 65536))]

/-- LINK_CNT. -/
def linkCnt (s : State) : Word := pack [(0, s.link.ho), (8, s.link.retN), (16, s.link.stal), (24, s.link.grd)]

/-- LINK_ALLOWn. -/
def linkAllow (s : State) (c : Fin 16) : Word :=
  let a := satNat 16 (s.ch[c]).allow
  if (s.ch[c]).neg then pack [(16, a)] else pack [(0, a)]

/-! ### SAFE -/

/-- SAFE_STAT.DEM: the inputs that demand, once the safety island runs. -/
def inputDem (s : State) : BitVec 4 := maskOf 4 fun i => safetyRuns s && inputDemands s i

/-- SAFE_STAT. -/
def safeStat (s : State) : Word :=
  pack [(0, b2n (s.sys.mode == .safe)), (1, b2n (safeNAsserted s)), (2, b2n (ackUnmet s == 0)), (8, b2n s.safe.gdis),
        (9, b2n s.safe.refl), (10, b2n s.safe.rcf), (11, b2n s.safe.cfgBad), (16, b2n s.safe.restarting),
        (17, b2n s.safe.timer), (18, s.safe.cat.toNat), (20, (inputDem s).toNat), (24, s.safe.disc.toNat)]

/-- SAFE_INST. -/
def safeInst (s : State) : Word := pack [(0, s.safe.raw.toNat), (8, s.safe.filt.toNat)]

/-- SAFE_SOSTAT. -/
def safeSostat (s : State) : Word :=
  pack [(0, s.safe.soOn.toNat), (2, s.safe.sofb.toNat), (4, s.safe.soTest.toNat), (6, s.safe.sofbF.toNat),
        (8, s.safe.soOvl.toNat)]

/-- SAFE_SESS. -/
def safeSess (s : State) : Word :=
  pack [(0, if s.safe.sessOpen then s.safe.slot.val else 0), (2, b2n (sessionDirty s)), (3, b2n s.safe.sessOpen),
        (12, s.safe.locked.toNat), (16, satNat 8 (sessionLeft s))]

/-- SAFE_SLOTS. -/
def safeSlots (s : State) : Word := pack [(0, (maskOf 4 fun m => (s.nvm.slots[m]).hash.isSome).toNat)]

/-- SAFE_CPLAT0 and SAFE_CPLAT1. -/
def safeCplat (s : State) (half : Fin 2) : Word :=
  pack ((List.finRange 8).map fun m => (4 * m.val, (s.sticky.cplat[8 * half.val + m.val]'(by omega)).toNat))

/-! ### THERM -/

/-- The hottest die sensor. -/
def hottestDie (s : State) : Fin 20 :=
  (List.finRange 20).foldl (fun b k => if (s.therm.die[b]).reading < (s.therm.die[k]).reading then k else b) 0

/-- THERM_STAT. -/
def thermStat (s : State) : Word :=
  let h := hottestDie s
  let tlvl := (List.finRange 20).foldl (fun m k => max m (s.therm.die[k]).level) 0
  pack [(1, b2n (anyI 20 fun k => (s.therm.die[k]).fast)), (2, b2n (anyI 20 fun k => (s.therm.die[k]).warn)),
        (3, b2n (anyI 20 fun k => (s.therm.die[k]).stop)), (4, tlvl % 4), (8, h.val),
        (16, ufield 16 (satInt 16 (s.therm.die[h]).reading))]

/-- THERM_DTSTAT. -/
def thermDtstat (s : State) : Word := (maskOf 20 fun k => (s.therm.die[k]).broken).zeroExtend 32

/-- THERM_INSTAT. -/
def thermInstat (s : State) : Word := (maskOf 24 fun i => (s.therm.inp[i]).broken).zeroExtend 32

/-- THERM_CNT. -/
def thermCnt (s : State) : Word := pack [(0, s.therm.warnn), (16, s.therm.thrn), (24, s.therm.stopn)]

/-- THERM_LSTAT (R281). -/
def thermLstat (s : State) : Word := pack [(0, s.nvm.thSensor.val), (31, b2n s.nvm.thLatched)]

/-- THERM_DTk. -/
def thermDt (s : State) (k : Fin 20) : Word :=
  let d := s.therm.die[k]
  pack [(0, ufield 16 (satInt 16 d.reading)), (16, b2n d.fast), (17, b2n d.broken)]

/-- THERM_THn and THERM_AUXk: a temperature in 0.01 degrees, or a voltage in 0.1 mV (R282, R288). -/
def thermIn (s : State) (i : Fin 24) : Word :=
  let t := s.therm.inp[i]
  if t.volt then pack [(0, satNat 16 ((t.uv + 50) / 100))]
  else pack [(0, ufield 16 (satInt 16 (divRound t.temp 10))), (16, b2n t.broken)]

/-! ### CAN, DMA, NVM, TEST, AUXPS -/

/-- CAN_STAT (R349). -/
def canStat (s : State) : Word :=
  pack [(0, satNat 8 s.can.tecN), (8, s.can.recN % 128), (15, b2n (decide (128 ≤ s.can.recN))), (16, s.can.est % 4),
        (18, b2n s.can.recov), (24, satNat 7 s.can.tdcv)]

/-- CAN_TXST. -/
def canTxst (s : State) : Word := pack [(0, (maskOf 16 fun b => (s.can.tx[b]).pend).toNat), (16, s.can.done.toNat)]

/-- CAN_RXFf. -/
def canRxf (s : State) (f : Fin 2) : Word :=
  let x := s.can.rxf[f]
  pack [(0, x.fill), (8, x.get % 32), (16, b2n x.ovr), (24, x.lost)]

/-- CAN_TSTAT (R353, R354): the rate correction in 0.01 ppm. -/
def canTstat (s : State) : Word :=
  pack [(0, b2n s.can.role), (2, b2n s.can.lock), (8, s.can.mnode % 256),
    (16, ufield 16 (satInt 16 (divRound s.can.rc 10000000)))]

/-- CAN_TOFS in 10 ns. -/
def canTofs (s : State) : Word := wordOfInt (sat32 (divRound s.can.ofs 10))

/-- CAN_CNT. -/
def canCnt (s : State) : Word := pack [(0, s.can.rtrn), (8, s.can.brepl), (16, s.can.passn), (24, s.can.boffn)]

/-- The pages of the refresh space. -/
def refreshPages : Nat := 44

/-- The pages of the refresh space that an operation takes while it runs: the new step records of a book commit, until
its header has been verified, and the copy of the page that the refresh rewrites (R365, R367). -/
def pagesTaken (s : State) : Nat :=
  (match s.isl.nvmOp with | .book _ r => (r.steps.length + 63) / 64 | _ => 0) + b2n s.isl.pageOp

/-- Free pages in the refresh space (R365, R368). -/
def freePages (s : State) : Nat := refreshPages - s.nvm.reloc - pagesTaken s

/-- The NVM has been read: from step 9 of BOOT on (R214). -/
def nvmKnown (s : State) : Bool := s.sys.phase != .booting || decide (9 ≤ s.sys.bootStep)

/-- NVMW_STAT. BUSY shows a page operation of the refresh too (R367). -/
def nvmwStat (s : State) : Word :=
  if !nvmKnown s then 0 else
  pack [(0, b2n (nvmBusy s || s.isl.pageOp)), (1, b2n s.isl.refreshing), (2, b2n (decide (freePages s < 4))), (16, freePages s),
        (24, satNat 8 s.nvm.reloc)]

/-- NVMW_REFR: operating hours to the next refresh, and the pages done. -/
def nvmwRefr (s : State) : Word :=
  if !nvmKnown s then 0 else
  pack [(0, s.isl.pagen % 128), (16, satNat 16 (8760 - s.nvm.life.hours % 8760))]

/-- TEST_STAT. -/
def testStat (s : State) : Word := pack [(0, s.isl.running.toNat), (8, b2n s.isl.dacf)]

/-- TEST_RESk (R388). -/
def testRes (s : State) (k : Fin 6) : Word :=
  let r := s.isl.tests[k]
  pack [(0, r.result % 4), (8, r.arg % 256), (16, satNat 16 r.runs)]

/-- TEST_REPAIR (R390). -/
def testRepair (s : State) : Word :=
  let n := repairCounts s
  pack [(0, satNat 8 s.isl.badSp.length), (8, satNat 8 n.2.2), (16, satNat 8 n.2.1), (24, satNat 8 n.1)]

/-- TEST_EQH in hours (R406). -/
def testEqh (s : State) : Word := BitVec.ofNat 32 (satNat 32 (s.nvm.life.eqhMinutes / 60))

/-- AUXPS_STAT. -/
def auxStat (s : State) : Word :=
  pack [(0, s.aux.state % 8), (3, b2n s.aux.brake), (4, s.aux.mode % 4), (8, s.sticky.phaseOff.toNat),
        (10, b2n s.aux.imb), (11, b2n s.aux.vsouv)]

/-- AUXPS_CNT. -/
def auxCnt (s : State) : Word := pack [(0, s.aux.imbn), (8, s.aux.limn), (16, s.aux.braken)]

/-- AUXPS_STOP (R421). -/
def auxStopWord (s : State) : Word :=
  pack [(0, satNat 16 s.nvm.stopVgd), (16, s.nvm.stopKind % 4), (31, b2n s.nvm.stopValid)]

/-! ### Output pins -/

/-- The words that CH_STATUS returns, as they stand after a boundary (R323). -/
def takeSnap (s : State) : State :=
  { s with ch := vmapI s.ch fun c ch =>
      { ch with snap := [chStat s c, chLstat s c, chPstat s c, wordOfInt ch.iSel, wordOfInt ch.userV, wordOfInt ch.userI,
                         BitVec.ofNat 32 (satNat 32 ch.prog.stepMs), linkAllow s c] } }

/-- CTX is held recessive (R340, R411). -/
def ctxRecessive (s : State) : Bool := !(canSends s) || canMode s == 2 || s.sys.phase == .stopped

/-- CSTB: transceiver standby (R340). -/
def cstbAsserted (s : State) : Bool :=
  !(canOn s) || s.sys.phase == .dormant || s.sys.phase == .park || s.sys.mode == .dormant

/-- The port receives frames: HRDY is not held low by what keeps the port from serving. What follows a reply keeps it
from serving once the reply has been read, or 1 ms later (R297, R306, R332, R401, R411). -/
def portServes (s : State) : Bool :=
  s.port.vio && !(islandDown s 9) && s.isl.serviceTest.isNone &&
    match s.sys.phase with
    | .booting => decide (9 ≤ s.sys.bootStep)
    | .halted => s.sys.hcode != 4
    | .running | .dormant => true
    | _ => false

end Sys2Proof.Machine
end

