-- ==== Sys2Proof/Machine/Sram.lean ====
section
/-! DEFINITION. The SRAM and the NVM window as the host and the DMA engine read them: each region shows the state of its
owner (R360, R365, R366), and the host window is the memory that commands write. -/
namespace Sys2Proof.Machine

/-- The first SRAM address. -/
def sramBase : Nat := 0x10000000

/-- The address after the SRAM. -/
def sramEnd : Nat := 0x10400000

/-- The regions of the SRAM map, with the channel and the offset in the part of that channel, or the offset in the
region (R360). -/
inductive Region
  | ring (c : Fin 16) (o : Nat)
  | hist (c : Fin 16) (o : Nat)
  | grade (c : Fin 16) (o : Nat)
  | total (c : Fin 16) (o : Nat)
  | header (c : Fin 16) (o : Nat)
  | fifo (o : Nat)
  | events (o : Nat)
  | steps (c : Fin 16) (o : Nat)
  | island
  | window
  | reserved
deriving DecidableEq, Repr

/-- Sixteen equal parts of `size` bytes, one for each channel. -/
def partOf (o size : Nat) : Fin 16 := ⟨o / size % 16, by omega⟩

/-- The region of an address in the SRAM. -/
def regionOf (a : Nat) : Region :=
  if a < 0x10300000 then .ring (partOf (a - 0x10000000) 0x30000) ((a - 0x10000000) % 0x30000)
  else if a < 0x10320000 then .hist (partOf (a - 0x10300000) 0x2000) ((a - 0x10300000) % 0x2000)
  else if a < 0x10322000 then .grade (partOf (a - 0x10320000) 0x200) ((a - 0x10320000) % 0x200)
  else if a < 0x10322080 then .total (partOf (a - 0x10322000) 8) ((a - 0x10322000) % 8)
  else if a < 0x10322800 then .reserved
  else if a < 0x10322A00 then .header (partOf (a - 0x10322800) 32) ((a - 0x10322800) % 32)
  else if a < 0x10330000 then .reserved
  else if a < 0x10331400 then .fifo (a - 0x10330000)
  else if a < 0x10338000 then .reserved
  else if a < 0x10340000 then .events (a - 0x10338000)
  else if a < 0x10360000 then .steps (partOf (a - 0x10340000) 0x2000) ((a - 0x10340000) % 0x2000)
  else if a < 0x103F0000 then .island
  else .window

/-- A byte that the manual does not give: checkpoints, input logs, the replay store and the reply queue, and places of
the other regions in which nothing has been written (R360, R361). -/
def unstatedByte (s : State) (a : Nat) : Byte := Config.islandByte a s.sys.epoch.toNat

/-- The record at a place of a ring: SEQ modulo 6144 (R185). -/
def recordAt (ch : Chan) (place : Nat) : Option LogRec := ch.ring.find? fun r => r.seq % ringSize == place

/-- The event entry at a place of the queue: SEQ modulo 1024. DEDUCED, log entry 93. -/
def eventAt (s : State) (place : Nat) : Option Ev := s.evq.queue.find? fun e => e.seq % 1024 == place

/-- The grade record at a place of a channel: RSEQ modulo 8 (R184). -/
def gradeAt (ch : Chan) (place : Nat) : Option (List Byte) := ch.grades.find? fun g => leNat (slice g 4 4) % 8 == place

/-- One byte of the SRAM. -/
def sramByte (s : State) (a : Nat) : Byte :=
  match regionOf a with
  | .ring c o =>
    match recordAt s.ch[c] (o / 32) with
    | some r => byteAt r.bytes (o % 32)
    | none => unstatedByte s a
  | .hist c o => byteAt (toLE 4 (histWord (s.ch[c]).hist (o / 4))) (o % 4)
  | .grade c o =>
    match gradeAt s.ch[c] (o / 64) with
    | some g => byteAt g (o % 64)
    | none => 0
  | .total c o => byteAt (toLE 4 (histWord (s.ch[c]).hist (2048 + o / 4))) (o % 4)
  | .header c o =>
    if (s.ch[c]).prog.recipe.steps = [] then unstatedByte s a else byteAt (s.ch[c]).prog.recipe.header o
  | .fifo _ | .window => memRead s.mem a
  | .events o =>
    match eventAt s (o / 32) with
    | some e => byteAt (eventBytes e) (o % 32)
    | none => unstatedByte s a
  | .steps c o =>
    match (s.ch[c]).prog.recipe.steps[o / 64]? with
    | some r => byteAt r (o % 64)
    | none => unstatedByte s a
  | .island => unstatedByte s a
  | .reserved => 0

/-- n bytes of the SRAM from an address. -/
def sramBytes (s : State) (a : Nat) : Nat → List Byte
  | 0 => []
  | n + 1 => sramByte s a :: sramBytes s (a + 1) n

/-- A 32-bit word of the SRAM. -/
def sramWord (s : State) (a : Nat) : Word := leWord (sramBytes s a 4)

/-- The host window (R319, R360). -/
def inWindow (a : Nat) : Bool := decide (0x103F0000 ≤ a ∧ a < sramEnd)

/-- The address lies in the SRAM. -/
def inSram (a : Nat) : Bool := decide (sramBase ≤ a ∧ a < sramEnd)

/-- Write bytes into the host window. -/
def windowWrite (s : State) (a : Nat) (l : List Byte) : State := { s with mem := memWriteList s.mem a l }

/-! ### NVM window (R365, R366) -/

/-- The byte at a logical NVM offset of pages 0 to 9: the steps of the book, the recipe headers, and the rest of the
configuration area, whose layout is not given. -/
def nvmByte (s : State) (o : Nat) : Byte :=
  if o < 0x40000 then
    let r : Recipe := s.nvm.book[o / 0x2000 % 32]'(by omega)
    byteAt (r.steps.getD (o % 0x2000 / 64) (List.replicate 64 (Config.configByte o))) (o % 64)
  else if o < 0x40400 then byteAt (s.nvm.book[(o - 0x40000) / 32 % 32]'(by omega)).header (o % 32)
  else Config.configByte o

/-- A word of the NVM window: offset below 0x8000 in the page that NVMW_PAGE selects. -/
def nvmWord (s : State) (o : Nat) : Word :=
  let b := bits s.isl.page 0 4 * 0x8000 + o
  leWord [nvmByte s b, nvmByte s (b + 1), nvmByte s (b + 2), nvmByte s (b + 3)]

end Sys2Proof.Machine
end

