-- ==== Sys2Proof/Machine/Dma.lean ====
section
/-! DEFINITION. Family DMA: descriptors, request sources, bursts, the active and shadow sets, and the writes of
DMAn_CTL, DMAn_SHV and the shadow registers (R369 to R385). -/
namespace Sys2Proof.Machine

/-! ### Descriptor fields (table DMA descriptor) -/

/-- SRC. -/
def dsSrc (d : List Byte) : Nat := leNat (slice d 0 4)

/-- DST. -/
def dsDst (d : List Byte) : Nat := leNat (slice d 4 4)

/-- LEN. -/
def dsLen (d : List Byte) : Nat := leNat (slice d 8 4)

/-- A bit of CTL: 0 LAST, 1 BAR, 2 PACE. -/
def dsCtl (d : List Byte) (i : Nat) : Bool := (byteAt d 12).getLsbD i

/-- NEXT. -/
def dsNext (d : List Byte) : Nat := leNat (slice d 16 4)

/-- DMAn_AREQ.SRC. -/
def reqSrc (d : Dma) : Nat := bits d.areq 0 5

/-- DMAn_AREQ.BURST in beats. -/
def reqBurst (d : Dma) : Nat := bits d.areq 8 6

/-- An address that a descriptor can be fetched from (R370, R385). -/
def descAddrOk (a : Nat) : Bool := decide (a % 32 = 0 ∧ 0x103F0000 ≤ a ∧ a < 0x103FF000)

/-- A bad descriptor (R372). -/
def badDescriptor (d : Dma) (x : List Byte) : Bool :=
  let len := dsLen x
  let elem := if reqSrc d = 17 ∨ reqSrc d = 18 then 80 else 32
  len == 0 || decide (4194304 < len) || decide (8 ≤ leNat (slice x 12 4)) || (slice x 28 4).any (· != 0)
    || (dsCtl x 2 && (reqSrc d == 0 || len % elem != 0))

/-! ### Request sources (R377, R379) -/

/-- The channel of a ring source. -/
def ringSource (d : Dma) : Option (Fin 16) :=
  if h : 1 ≤ reqSrc d ∧ reqSrc d ≤ 16 then some ⟨reqSrc d - 1, by omega⟩ else none

/-- The FIFO of a receive source. -/
def fifoSource (d : Dma) : Option (Fin 2) :=
  if reqSrc d = 17 then some 0 else if reqSrc d = 18 then some 1 else none

/-- The records that a ring holds from the lowest one on: at most 6144, and none from before the last BOOT. -/
def ringHeld (ch : Chan) : Nat := min ringSize ((ch.logSeq + 2 ^ 32 - ch.logBoot) % 2 ^ 32)

/-- How far LOGSEQ is ahead of a sequence number, 0 where it is not. -/
def seqAhead (ch : Chan) (q : Nat) : Nat :=
  let d := (ch.logSeq + 2 ^ 32 - q) % 2 ^ 32
  if d < 2 ^ 31 then d else 0

/-- The paced request of a channel is asserted. -/
def requested (s : State) (d : Dma) : Bool :=
  match ringSource d, fifoSource d with
  | some c, _ => !isFollower s c && decide (0 < seqAhead s.ch[c] d.arseq.toNat)
  | none, some f => decide (0 < (s.can.rxf[f]).fill)
  | none, none => false

/-- ARSEQ below the lowest record that the ring holds is set to it, and the records passed over are counted (R379). -/
def skipRecords (s : State) (n : Fin 8) : State :=
  let d := s.dma[n]
  match ringSource d with
  | none => s
  | some c =>
    let ch := s.ch[c]
    let ahead := seqAhead ch d.arseq.toNat - ringHeld ch
    if ahead = 0 then s
    else s.updDma n fun d =>
      { d.flagEvt 5 with arseq := d.arseq + BitVec.ofNat 32 ahead, skip := satNat 16 (d.skip + ahead) }

/-- The channel has work: a descriptor to fetch, an unpaced descriptor, or a paced one whose request is asserted. -/
def hasWork (s : State) (n : Fin 8) : Bool :=
  let d := s.dma[n]
  d.active && d.result == 0 &&
    match d.desc with
    | none => true
    | some x => !dsCtl x 2 || requested s d

/-- The channel that the engine serves next: the highest priority, in turn from the one served last (R369). -/
def nextChannel (s : State) : Option (Fin 8) :=
  let order : List (Fin 8) := (List.finRange 8).map fun k => ⟨(s.dmaLast.val + 1 + k.val) % 8, by omega⟩
  (order.filter (hasWork s)).foldl (fun b n =>
    match b with
    | none => some n
    | some m => if bits (s.dma[m]).ctl 4 2 < bits (s.dma[n]).ctl 4 2 then some n else b) none

/-- A descriptor with BAR has moved its bytes and waits for its end (R376). -/
def atBarrier (d : Dma) : Bool :=
  d.result != 0 && match d.desc with | some x => dsCtl x 1 | none => false

/-- DMAn_STAT.STATE: 0 idle, 1 moving, 2 waiting for a request, 3 at a barrier. The list that a write aborts ends
within that command, whose burst is over, so that no read sees state 4. DEDUCED, log entry 223. -/
def dmaState (s : State) (n : Fin 8) : Nat :=
  let d := s.dma[n]
  if d.active = false then 0 else if atBarrier d then 3 else if hasWork s n || d.result != 0 then 1 else 2

/-- DMAn_STAT. -/
def dmaStat (s : State) (n : Fin 8) : Word := pack [(0, dmaState s n), (8, (s.dma[n]).badn), (16, (s.dma[n]).donen)]

/-- DMAn_ABYTES. -/
def dmaAbytes (s : State) (n : Fin 8) : Word :=
  let d := s.dma[n]
  BitVec.ofNat 32 (match d.desc with | some x => (dsLen x - d.moved) % 2 ^ 23 | none => 0)

/-! ### Lists (R371, R373, R380, R382) -/

/-- The active list ends; the shadow is then taken. -/
def endList (s : State) (n : Fin 8) : State :=
  takeShadow (s.updDma n fun d => { d with active := false, desc := none, moved := 0, result := 0 }) n

/-- DMA_DESC_BAD. -/
def descBad (s : State) (n : Fin 8) (a : Word) : State := queueEvent s 0x0904 (p1 n.val ++ p4u a.toNat)

/-- A descriptor cannot be fetched: the list ends, and ADESC shows the last one run (R373, R385). -/
def unfetchable (s : State) (n : Fin 8) : State :=
  let a := (s.dma[n]).adesc
  let s := s.updDma n fun d => { d.flagEvt 4 with lbad := a, adesc := d.ran }
  endList (descBad s n a) n

/-- Write STATUS back (R371). -/
def writeStatus (s : State) (n : Fin 8) (result : Nat) : State :=
  let d := s.dma[n]
  windowWrite s (d.adesc.toNat + 20) (toLE 3 d.moved ++ toLE 1 result)

/-- Count a descriptor that has ended. RESULT 2 to 4 are bus errors (R373); DMAn_LBAD holds the last descriptor that
ended badly, a bad descriptor too. -/
def countDescriptor (s : State) (n : Fin 8) (result : Nat) : State :=
  let a := (s.dma[n]).adesc
  if result = 1 then s.updDma n fun d => { d with donen := satInc 16 d.donen }
  else
    let s := s.updDma n fun d => { d with badn := satInc 8 d.badn }
    if result = 5 then s
    else
      let s := s.updDma n fun d => { d with lbad := a }
      if result = 6 then s else descBad (s.updDma n fun d => d.flagEvt 1) n a

/-- A descriptor of channel n has ended: STATUS, counters, and the list moves on (R371, R373). -/
def descriptorDone (n : Fin 8) (s : State) : State :=
  let d := s.dma[n]
  match d.desc with
  | none => s
  | some x =>
    if d.active = false ∨ d.result = 0 then s
    else
      let s := countDescriptor (writeStatus s n d.result) n d.result
      if dsCtl x 0 then endList (s.updDma n fun d => d.flagEvt 0) n
      else s.updDma n fun d => { d with adesc := BitVec.ofNat 32 (dsNext x), desc := none, moved := 0, result := 0 }

/-- The active list ends after the burst in progress; a descriptor in progress gets RESULT 5 (R382). -/
def stopList (s : State) (n : Fin 8) : State :=
  let d := s.dma[n]
  if d.active = false then s
  else
    let s := if d.desc.isSome && d.result == 0 then countDescriptor (writeStatus s n 5) n 5
      else if d.desc.isSome then countDescriptor (writeStatus s n d.result) n d.result
      else s
    endList (s.updDma n fun d => d.flagEvt 3) n

/-! ### Bursts (R373 to R378) -/

/-- The destination of a byte is in the host window and not in an element held by a device message (R344, R373). -/
def writable (s : State) (a : Nat) : Bool :=
  inWindow a && !((List.finRange 16).any fun b =>
    heldBuffer s b && decide (txElement b ≤ a ∧ a < txElement b + elementSize))

/-- The bytes at the head of a range that satisfy a condition. -/
def goodBytes (p : Nat → Bool) (a : Nat) : Nat → Nat
  | 0 => 0
  | n + 1 => if p a then 1 + goodBytes p (a + 1) n else 0

/-- Move n bytes from a list of source bytes, of which the first may end early at a bus error of the source. -/
def moveBytes (s : State) (n : Fin 8) (x : List Byte) (src : List Byte) (want : Nat) : State :=
  let d := s.dma[n]
  let dst := dsDst x + d.moved
  let k := goodBytes (writable s) dst src.length
  let s := windowWrite s dst (src.take k)
  let moved := d.moved + k
  let result := if k < src.length then 3 else if src.length < want then 2 else if moved = dsLen x then 1 else 0
  s.updDma n fun d => { d with moved := moved, result := result }

/-- A descriptor whose destination is a register: CAN_TXADD or CAN_RXACKf with LEN 4 and an aligned source (R374). -/
def registerWrite (s : State) (n : Fin 8) (x : List Byte) : State :=
  let src := dsSrc x
  let a := dsDst x
  let finish (r : State × Byte) : State :=
    if r.2 = stOk then r.1.updDma n fun d => { d with moved := 4, result := 1 }
    else s.updDma n fun d => { d with result := 3 }
  if dsCtl x 2 ∨ dsLen x ≠ 4 ∨ src % 4 ≠ 0 then s.updDma n fun d => { d with result := 3 }
  else if inSram src = false then s.updDma n fun d => { d with result := 2 }
  else
    let v := sramWord s src
    if a = 0x70014 then finish (canTxAdd s v)
    else if a = 0x7002C then finish (canRxAck s 0 v)
    else if a = 0x70030 then finish (canRxAck s 1 v)
    else s.updDma n fun d => { d with result := 3 }

/-- A burst of an unpaced descriptor. -/
def unpacedBurst (s : State) (n : Fin 8) (x : List Byte) : State :=
  let d := s.dma[n]
  if dsDst x < sramBase then registerWrite s n x
  else
    let want := min (8 * reqBurst d) (dsLen x - d.moved)
    let src := dsSrc x + d.moved
    moveBytes s n x (sramBytes s src (goodBytes inSram src want)) want

/-- A burst of a ring (R377): whole records from ARSEQ on. -/
def ringBurst (s : State) (n : Fin 8) (x : List Byte) (c : Fin 16) : State :=
  let d := s.dma[n]
  let ch := s.ch[c]
  let k := min (seqAhead ch d.arseq.toNat) (min (max 1 (reqBurst d / 4)) ((dsLen x - d.moved) / 32))
  let s := moveBytes s n x (ringRead ch d.arseq.toNat k) (32 * k)
  s.updDma n fun e => { e with arseq := e.arseq + BitVec.ofNat 32 ((e.moved - d.moved) / 32) }

/-- What the host has released during a burst leaves the FIFO (R378). -/
def releaseLate (s : State) (f : Fin 2) : State :=
  (releaseFifo s f (s.can.rxf[f]).late).updFifo f fun x => { x with late := 0 }

/-- A burst of a receive FIFO (R377): its oldest element, released at the end of the burst. A release by the host that
came during the burst takes effect then, and the engine's own is void (R378). -/
def fifoBurst (s : State) (n : Fin 8) (x : List Byte) (f : Fin 2) : State :=
  let s := moveBytes s n x (memReadList s.mem (rxElement f (s.can.rxf[f]).get) elementSize) elementSize
  if 0 < (s.can.rxf[f]).late then releaseLate s f
  else (releaseFifo s f 1).updFifo f fun y => { y with dmaRel := y.dmaRel + 1 }

/-- One burst of a fetched descriptor. -/
def burstOf (s : State) (n : Fin 8) (x : List Byte) : State :=
  if dsCtl x 2 then
    match ringSource s.dma[n], fifoSource s.dma[n] with
    | some c, _ => if requested s s.dma[n] then ringBurst s n x c else s
    | none, some f => if requested s s.dma[n] then fifoBurst s n x f else s
    | none, none => s
  else unpacedBurst s n x

/-- Serve channel n: fetch its descriptor if it has none, and move one burst. -/
def serveChannel (s : State) (n : Fin 8) : State :=
  let s := { s with dmaLast := n }
  let d := s.dma[n]
  match d.desc with
  | some x => burstOf (skipRecords s n) n x
  | none =>
    if descAddrOk d.adesc.toNat = false then unfetchable s n
    else
      let x := memReadList s.mem d.adesc.toNat 32
      let s := s.updDma n fun d => { d with desc := some x, ran := d.adesc, moved := 0, result := 0 }
      if badDescriptor d x then s.updDma n fun d => { d with result := 6 } else burstOf (skipRecords s n) n x

/-- The engine runs: in every mode except BOOT, DORMANT and PARK, and not in a restart of its island (R369). -/
def dmaRuns (s : State) : Bool :=
  s.sys.phase == .running && s.sys.mode != .boot && s.sys.mode != .dormant && !islandDown s 11

/-- The channel whose turn it is reads a FIFO: its burst may be in progress. -/
def readsFifo (s : State) (f : Fin 2) : Bool :=
  dmaRuns s && match nextChannel s with
    | some n =>
      let d := s.dma[n]
      (match d.desc with | some x => dsCtl x 2 | none => false) && ringSource d == none && fifoSource d == some f &&
        requested s d
    | none => false

/-- A write of CAN_RXACKf by the host. Whether it comes during a burst that reads the FIFO is a free value; its
release then waits for the end of the burst (R348, R378). DESIGN CHOICE, log entry 227. -/
def hostRxAck (s : State) (f : Fin 2) (v : Word) : State × Byte :=
  let m := bits v 0 6
  let x := s.can.rxf[f]
  if m = 0 ∨ x.fill < x.late + m then (s, stBadParam)
  else if readsFifo s f then
    let d := drawFree s
    if d.1 % 2 = 1 ∨ 0 < x.late then (d.2.updFifo f fun x => { x with late := x.late + m }, stOk)
    else (releaseFifo d.2 f m, stOk)
  else (releaseFifo s f m, stOk)

/-- DMA_BURST. -/
def dmaBurst (s : State) : State :=
  if dmaRuns s then
    match nextChannel s with
    | some n => serveChannel s n
    | none => s
  else s

/-! ### Register writes (R381, R382, R385) -/

/-- A write of DMAn_CTL. -/
def dmaCtlWrite (s : State) (n : Fin 8) (v : Word) : State × Byte :=
  let s := s.updDma n fun d => { d with ctl := maskWrite 0x31 d.ctl v }
  let s := if v.getLsbD 1 || !v.getLsbD 0 then stopList s n else s
  (takeShadow s n, stOk)

/-- A write of DMAn_SHV. -/
def dmaShvWrite (s : State) (n : Fin 8) (v : Word) : State × Byte :=
  (takeShadow (s.updDma n fun d => { d with shv := v.getLsbD 0 }) n, stOk)

/-- A write of DMAn_SDESC. -/
def dmaSdescWrite (s : State) (n : Fin 8) (v : Word) : State × Byte :=
  if descAddrOk v.toNat = false then (s, stBadParam)
  else if (s.dma[n]).shv then (s, stBusyRetry)
  else (s.updDma n fun d => { d with sdesc := v }, stOk)

/-- A write of DMAn_SREQ. -/
def dmaSreqWrite (s : State) (n : Fin 8) (v : Word) : State × Byte :=
  if bits v 8 6 < 1 ∨ 32 < bits v 8 6 ∨ 18 < bits v 0 5 then (s, stBadParam)
  else if (s.dma[n]).shv then (s, stBusyRetry)
  else (s.updDma n fun d => { d with sreq := maskWrite 0x3F1F d.sreq v }, stOk)

/-- A write of DMAn_SRSEQ. -/
def dmaSrseqWrite (s : State) (n : Fin 8) (v : Word) : State × Byte :=
  if (s.dma[n]).shv then (s, stBusyRetry) else (s.updDma n fun d => { d with srseq := v }, stOk)

/-! ### Meanings -/

/-- DMA_BURST. -/
def execDmaBurst (s : State) : Host.Outcome State Fault Refusal := .next (dmaBurst s)

/-- DMA_DESCRIPTOR_DONE. -/
def execDmaDescriptorDone (n : Fin 8) (s : State) : Host.Outcome State Fault Refusal :=
  .next (if dmaRuns s then descriptorDone n s else s)

end Sys2Proof.Machine
end

