-- ==== Sys2Proof/Machine/MemoryEvents.lean ====
section
/-! DEFINITION. Family memory: ECC errors of the SRAM by region, row repair, and the yearly refresh of the NVM
(R362, R364, R367, R368). -/
namespace Sys2Proof.Machine

/-! ### ECC errors (R362) -/

/-- Bytes o to o + 7 of a record are rewritten as zero. -/
def zeroWord (l : List Byte) (o : Nat) : List Byte := l.take o ++ List.replicate 8 0 ++ l.drop (o + 8)

/-- The SRAM is read: the scrubber, the owners and the host work from step 9 of BOOT on, and not in DORMANT or PARK. -/
def sramRead (s : State) : Bool :=
  match s.sys.phase with
  | .running => s.sys.mode != .dormant
  | .halted => true
  | .booting => decide (9 ≤ s.sys.bootStep)
  | _ => false

/-- A row of the SRAM (R364). -/
def rowOf (a : Nat) : Nat := (a - sramBase) / 2048

/-- ECC_UNCORR. -/
def eccUncorr (s : State) (w : Nat) : State := queueEvent s 0x0902 (p4u w)

/-- A record of a ring with an uncorrectable word: the word is zero, SEQ is rebuilt from the ring position, and
RFLAGS.DAMAGED is set. -/
def damageRecord (r : LogRec) (k : Nat) : LogRec :=
  let b := zeroWord r.bytes k
  let b := if k = 0 then toLE 4 r.seq ++ b.drop 4 else b
  { r with bytes := b.set 19 (byteAt b 19 ||| 8) }

/-- An uncorrectable word in a log ring; a place in which no record has been written has none to damage. -/
def damageRing (s : State) (c : Fin 16) (o w : Nat) : State :=
  match recordAt s.ch[c] (o / 32) with
  | none => eccUncorr s w
  | some r =>
    let s := s.updCh c fun ch => { ch with ring := ch.ring.map fun x => if x.seq = r.seq then damageRecord x (o % 32) else x }
    queueEvent s 0x0907 (p1 c.val ++ p4u r.seq)

/-- Two bins of a histogram, or both totals, are zero. -/
def damageHist (h : Hist) (k : Nat) : Hist :=
  if k < 2048 then { h with bins := (h.bins.set k 0).set (k + 1) 0 } else { h with below := 0, above := 0 }

/-- An uncorrectable word in the event queue: SEQ and CODE are rebuilt, LEN, TBASE or payload read as zero. -/
def damageEvent (e : Ev) (k : Nat) : Ev :=
  match k with
  | 0 => { e with len := 0 }
  | 8 => { e with tbase := 0 }
  | _ => { e with payload := zeroWord ((e.payload ++ List.replicate 16 0).take 16) (k - 16) }

/-- An uncorrectable word in a running recipe copy: the copy is reloaded from NVM and checked; BOOK_CRC, in place of
ECC_UNCORR, and HOLD with cause 7 where the check fails: at once in RUN, and otherwise where the channel would start. -/
def reloadCopy (s : State) (c : Fin 16) (w : Nat) : State :=
  let p := (s.ch[c]).prog
  if p.recipe.steps = [] then eccUncorr s w
  else
    let x := s.nvm.book[p.slot % 32]'(by omega)
    let s := s.updProg c fun p => { p with recipe := x }
    if recipeIntact x then eccUncorr s w
    else
      let s := queueEvent s 0x0130 (p1 (p.slot % 32))
      match (s.ch[c]).st with
      | .run => holdNow s c hcIsland
      | _ => if p.pstate.active || p.pstate == .pause then addCause s c hcIsland else s

/-- The later of the verified checkpoints of an engine is damaged: the one before it is loaded from now on, if it is
verified, and CEk_CKPT shows its epoch (R34, R36). -/
def Ce.fallBack (c : Ce) : Ce :=
  match c.lastCkpt with
  | none => c
  | some x =>
    let c := { c with slots := vmap c.slots fun y => if y.epoch = x.epoch then { y with verified := false } else y }
    { c with ckpt := match c.lastCkpt with | some y => y.epoch | none => c.ckpt }

/-- A checkpoint of an island is damaged: CKPT_FALLBACK, and the checkpoint of the epoch before is the one to load
(R36). -/
def damageCheckpoint (s : State) (i : Nat) : State :=
  let s := { s with sticky := { s.sticky with ckfb := satInc 8 s.sticky.ckfb } }
  let s := if h : i < 5 then s.updCe ⟨i, h⟩ Ce.fallBack
    else { s with sys := { s.sys with islCkpt := vmapI s.sys.islCkpt fun k e => if islCkptOf k = i then e - 1 else e } }
  queueEvent s 0x0903 (p1 i)

/-- The word of an input log that is damaged: a replay of its island that needs it cannot rebuild its epoch (R362). -/
def damageLog (s : State) (n i : Nat) : State :=
  match s.sys.inlog with
  | [] => s
  | l =>
    let k := n % l.length
    { s with sys := { s.sys with inlog := l.mapIdx fun j e =>
      if j = k then { e with damaged := putBit e.damaged i true } else e } }

/-- An uncorrectable word in the region of checkpoints, input logs, replay store and reply queue, whose layout the
manual does not give: which of them it hits, and of which island, is a free value. The replay store and the reply
queue are held twice and lose nothing (R36, R362). -/
def damageIsland (s : State) (w : Nat) : State :=
  let d := drawFree s
  let i := drawFree d.2
  let n := drawFree i.2
  match (d.1 % 3).toNat with
  | 0 => eccUncorr n.2 w
  | 1 => eccUncorr (damageLog n.2 n.1.toNat (i.1 % 14).toNat) w
  | _ => damageCheckpoint n.2 (ckptIslands.getD (i.1 % 9).toNat 0)

/-- An uncorrectable word, by region (table Uncorrectable words by region). -/
def damageWord (s : State) (w : Nat) : State :=
  match regionOf w with
  | .ring c o => damageRing s c o w
  | .hist c o => eccUncorr (s.updCh c fun ch => { ch with hist := damageHist ch.hist (o / 4) }) w
  | .total c _ => eccUncorr (s.updCh c fun ch => { ch with hist := damageHist ch.hist 2048 }) w
  | .grade c o =>
    let hit (g : List Byte) : Bool := leNat (slice g 4 4) % 8 == o / 64
    eccUncorr (s.updCh c fun ch =>
      { ch with grades := ch.grades.map fun g => if hit g then zeroWord g (o % 64) else g }) w
  | .header c _ | .steps c _ => reloadCopy s c w
  | .events o =>
    eccUncorr { s with evq := { s.evq with queue := s.evq.queue.map fun e =>
      if e.seq % 1024 = o / 32 then damageEvent e (o % 32) else e } } w
  | .island => damageIsland s w
  | .fifo _ | .window => eccUncorr (windowWrite s w (List.replicate 8 0)) w
  | .reserved => eccUncorr s w

/-! ### A DMA burst that meets the word (R373) -/

/-- The bytes that the next burst of a channel reads before it meets the word, if it meets it. -/
def burstMeets (s : State) (n : Fin 8) (w : Nat) : Option Nat :=
  let d := s.dma[n]
  match d.desc with
  | none => none
  | some x =>
    if d.active = false ∨ d.result ≠ 0 then none
    else if dsCtl x 2 then
      match ringSource d, fifoSource d with
      | some c, _ =>
        let k := min (seqAhead s.ch[c] d.arseq.toNat) (min (max 1 (reqBurst d / 4)) ((dsLen x - d.moved) / 32))
        match regionOf w with
        | .ring b o =>
          let j := (o / 32 + ringSize - d.arseq.toNat % ringSize) % ringSize
          if b = c ∧ j < k then some (32 * j + o % 32) else none
        | _ => none
      | none, some f =>
        let a := rxElement f (s.can.rxf[f]).get
        if 0 < (s.can.rxf[f]).fill ∧ a ≤ w ∧ w < a + elementSize then some (w - a) else none
      | none, none => none
    else
      let a := dsSrc x + d.moved
      if a < w + 8 ∧ w < a + min (8 * reqBurst d) (dsLen x - d.moved) then some (w - a) else none

/-- The bytes that the next burst of a channel reads. -/
def burstSource (s : State) (n : Fin 8) (x : List Byte) (k : Nat) : List Byte :=
  let d := s.dma[n]
  if dsCtl x 2 then
    match ringSource d, fifoSource d with
    | some c, _ => (ringRead s.ch[c] d.arseq.toNat (k / 32 + 1)).take k
    | none, some f => memReadList s.mem (rxElement f (s.can.rxf[f]).get) k
    | none, none => []
  else sramBytes s (dsSrc x + d.moved) k

/-- A channel meets the word: its burst ends with RESULT 4 at the failing beat, or its descriptor cannot be fetched. -/
def dmaMeets (s : State) (n : Fin 8) (w : Nat) : State :=
  let d := s.dma[n]
  match d.desc, burstMeets s n w with
  | some x, some k =>
    let s := moveBytes s n x (burstSource s n x k) k
    s.updDma n fun e =>
      let a := if dsCtl x 2 && (ringSource d).isSome then e.arseq + BitVec.ofNat 32 ((e.moved - d.moved) / 32)
        else e.arseq
      { e with result := if e.result = 3 then 3 else 4, arseq := a }
  | some _, none => s
  | none, _ => unfetchable s n

/-- The channels whose next access may have been the one that met the word. -/
def dmaReaders (s : State) (w : Nat) : List (Fin 8) :=
  (List.finRange 8).filter fun n =>
    let d := s.dma[n]
    (burstMeets s n w).isSome
      || (d.active && d.desc == none && d.result == 0 && decide (d.adesc.toNat ≤ w ∧ w < d.adesc.toNat + 32))

/-- Which access met the word is not an operand of the command: whether it was one of the DMA channels that read there
is a free value. -/
def dmaMayMeet (s : State) (w : Nat) : State :=
  match (if dmaRuns s then dmaReaders s w else []) with
  | [] => s
  | l =>
    let d := drawFree s
    match l[(d.1 % (l.length + 1 : Nat)).toNat]? with
    | some n => dmaMeets d.2 n w
    | none => d.2

/-! ### The scrubber (R363) -/

/-- The 64-bit words of the SRAM. -/
def scrubWords : Nat := 524288

/-- The time that the scrubber spends on one word, in ns times 2^19, with the throttling of the memory island
(R277, R363). -/
def scrubCost (s : State) : Nat := max 1 (bits s.isl.scrub 0 11) * 60000000000 * 2 ^ (min 2 (s.therm.die[14]).level)

/-! ### Row repair (R364) -/

/-- 24 h in nanoseconds. -/
def dayNs : Nat := 86400000000000

/-- A spare row that is free and usable. -/
def freeSpare (s : State) : Option Nat :=
  (List.range 32).find? fun k =>
    !(s.isl.rows.any fun r => r.spare == k) && !(s.isl.copying.any fun r => r.2 == k) && !s.isl.badSp.contains k

/-- The row is copied to a free spare row, if there is one. -/
def startCopy (s : State) (row : Nat) : State :=
  if s.isl.copying.any fun r => r.1 == row then s
  else
    match freeSpare s with
    | some k =>
      let l := s.isl.rowCorr.filter fun x => x.1 != row
      { s with isl := { s.isl with copying := s.isl.copying ++ [(row, k)], rowCorr := l } }
    | none => s

/-- A correction counts for its row: the third within 24 h replaces it. -/
def countRow (s : State) (row : Nat) : State :=
  let l := (row, (s.sys.tbase : Int)) :: s.isl.rowCorr.filter fun x => decide ((s.sys.tbase : Int) < x.2 + dayNs)
  let s := { s with isl := { s.isl with rowCorr := l } }
  if 3 ≤ (l.filter fun x => x.1 == row).length then startCopy s row else s

/-- SRAM_ECC_ERROR. -/
def eccError (addr : Word) (double : Bool) (s : State) : State :=
  let w := addr.toNat / 8 * 8
  if sramRead s = false ∨ inSram w = false then s
  else if double then
    let s := { s with isl := { s.isl with uncorr := satInc 8 s.isl.uncorr, eccaddr := BitVec.ofNat 32 w } }
    let s := dmaMayMeet s w
    startCopy (damageWord s w) (rowOf w)
  else
    let n := satInc 16 s.isl.corr
    let s := { s with isl := { s.isl with corr := n } }
    countRow (queueRated s 0x0901 0 1000000000 (p4u w ++ p4 n)) (rowOf w)

/-- The copy of a row ends: its address switches to the spare row. -/
def rowRepaired (row : Fin 2048) (s : State) : State :=
  match s.isl.copying.find? fun r => r.1 == row.val with
  | some r =>
    if sramRead s then
      let l := s.isl.copying.filter fun x => x.1 != row.val
      let s := { s with isl := { s.isl with
        copying := l, rows := s.isl.rows ++ [{ row := r.1, spare := r.2, fused := false, run := true }] } }
      queueEvent s 0x0908 (p4 r.2)
    else s
  | none => s

/-! ### Yearly refresh of the NVM (R367, R368) -/

/-- The pages of the book, configuration and safety areas. -/
def refreshTotal : Nat := 84

/-- A refresh can run in this mode. -/
def refreshRuns (s : State) : Bool := s.sys.phase == .running && s.sys.mode != .boot && s.sys.mode != .dormant

/-- The operating hours have reached a multiple of 8760 h whose refresh has not run (R367). -/
def refreshOwed (s : State) : Bool := decide (8760 * (s.nvm.life.refreshes + 1) ≤ s.nvm.life.hours)

/-- The refresh starts with its first page, which waits while another NVM operation runs. -/
def refreshDue (s : State) : State :=
  if refreshRuns s && !s.isl.refreshing && refreshOwed s then
    let s := { s with isl := { s.isl with refreshing := true, pagen := 0, pageBad := 0, pageOp := !nvmBusy s,
                                          pageAt := s.sys.tbase } }
    queueEvent s 0x0905 (p1 0 ++ p4 0)
  else s

/-- What one page operation takes at most, in ns (R367). -/
def pageTime : Nat := 150000000

/-- A page operation ends, with the page rewritten or not; the last one ends the refresh, whose end tells the pages
rewritten. One that no command has seen start has started no earlier than it could. -/
def pageDone (ok : Bool) (s : State) : State :=
  let start := if s.isl.pageOp then s.isl.pageAt else max s.isl.pageAt (s.sys.tbase - pageTime)
  let s := { s with isl := { s.isl with pagen := s.isl.pagen + 1, pageBad := s.isl.pageBad + b2n (!ok)
                                        pageOp := false, pageAt := start + pageSpacing } }
  if refreshTotal ≤ s.isl.pagen then
    let done := refreshTotal - s.isl.pageBad
    let s := { s with isl := { s.isl with refreshing := false, pagen := 0, pageBad := 0 },
                      nvm := { s.nvm with life := { s.nvm.life with refreshes := satInc 32 s.nvm.life.refreshes } } }
    queueEvent s 0x0905 (p1 1 ++ p4 done)
  else s

/-- Step 9 of BOOT completes the page whose operation a loss of power, or what acts as one, has cut (R368, R462). -/
def completePage (s : State) : State := if s.isl.refreshing && s.isl.pageOp then pageDone true s else s

/-- A page operation may have run: one runs, or 10 s have passed since the last one started and no other NVM operation
runs. -/
def pageMayRun (s : State) : Bool :=
  s.isl.refreshing && (s.isl.pageOp || (!nvmBusy s && decide (s.isl.pageAt ≤ s.sys.tbase)))

/-- One page operation ends: a page that fails is relocated while the refresh space has at least 4 free pages. -/
def refreshPage (ok : Bool) (s : State) : State :=
  if !refreshRuns s || !pageMayRun s then s
  else if ok then pageDone true s
  else
    let s := queueEvent s 0x0906 (p1 3 ++ p1 2)
    if freePages { s with isl := { s.isl with pageOp := true } } < 4 then pageDone false s
    else pageDone true { s with nvm := { s.nvm with reloc := s.nvm.reloc + 1 } }

/-! ### Meanings -/

/-- SRAM_ECC_ERROR. -/
def execSramEccError (addr : Word) (double : Bool) (s : State) : Host.Outcome State Fault Refusal :=
  .next (eccError addr double s)

/-- ROW_REPAIR_DONE. -/
def execRowRepairDone (row : Fin 2048) (s : State) : Host.Outcome State Fault Refusal := .next (rowRepaired row s)

/-- NVM_REFRESH_DUE. -/
def execNvmRefreshDue (s : State) : Host.Outcome State Fault Refusal := .next (refreshDue s)

/-- NVM_REFRESH_PAGE. -/
def execNvmRefreshPage (ok : Bool) (s : State) : Host.Outcome State Fault Refusal := .next (refreshPage ok s)

end Sys2Proof.Machine
end

