-- ==== Sys2Proof/Machine/SafetySession.lean ====
section
/-! DEFINITION. Family safety session: SAFE_HELLO to SAFE_KEY and the end of a safety commit (R246, R249, R254 to R262,
R329, R330). -/
namespace Sys2Proof.Machine

/-- The 32 bytes of a hash. -/
def hashBytes (h : BitVec 256) : List Byte := toLE 32 h.toNat

/-- A hash from 32 bytes. -/
def hashOf (l : List Byte) : BitVec 256 := BitVec.ofNat 256 (leNat l)

/-- The 16 bytes of a salt or nonce. -/
def nonceBytes (n : BitVec 128) : List Byte := toLE 16 n.toNat

/-- A draw from the entropy source (R255). -/
def drawEntropy (s : State) : BitVec 128 × State :=
  (Config.entropy s.safe.draws, { s with safe := { s.safe with draws := s.safe.draws + 1 } })

/-- The stored hash of the logged-in slot; 32 zero bytes where slot 0 holds no password. Log entry 20. -/
def sessionHash (s : State) : List Byte :=
  match (s.nvm.slots[s.safe.slot]).hash with
  | some h => hashBytes h
  | none => List.replicate 32 0

/-- The mask of a password or key: SHA-256(H_s, nonce of the login, tag byte) (R257, R330). -/
def sessionMask (s : State) (tag : Byte) : List Byte := sha256 (sessionHash s ++ nonceBytes s.safe.login ++ [tag])

/-- A slot operand as a slot, if it is one. -/
def slotOf? (b : Byte) : Option (Fin 4) := if h : b.toNat < 4 then some ⟨b.toNat, h⟩ else none

/-- Any session command restarts the timeout of the open session (R261). -/
def sessionHeard (s : State) : State := if s.safe.sessOpen then touchSession s else s

/-- In the session of slot 0 without a password, every command but the setting of that password is denied (R256). -/
def sessionDenied (s : State) : State × Completion := (s, .status stSafetyDenied)

/-- SAFE_HELLO (R255, R256, R329). -/
def hello (slot : Byte) (s : State) : State × Completion :=
  match slotOf? slot with
  | none => (s, .status stBadParam)
  | some m =>
    if s.safe.defaultSess then sessionDenied s
    else if s.safe.locked.getLsbD m.val then (s, .status stLocked)
    else if s.safe.sessOpen then (s, .status stBusyRetry)
    else if m ≠ 0 ∧ (s.nvm.slots[m]).hash = none then (s, .status stSafetyDenied)
    else
      let d := drawEntropy (timePasses s)
      let salt : BitVec 128 := if (s.nvm.slots[m]).hash = none then 0 else (s.nvm.slots[m]).salt
      ({ d.2 with safe := { d.2.safe with nonce := some d.1, nonceAt := d.2.sys.tbase } },
        .now stOk (nonceBytes salt ++ nonceBytes d.1))

/-- The proof opens a session for the slot (R255, R256). -/
def proofMatches (s : State) (m : Fin 4) (nonce : BitVec 128) (proof : List Byte) : Bool :=
  match (s.nvm.slots[m]).hash with
  | some h => proof == sha256 (hashBytes h ++ nonceBytes nonce ++ [BitVec.ofNat 8 m.val])
  | none =>
    m == 0 && (s.sys.mode == .configure || s.sys.phase == .halted) && proof == List.replicate 32 0

/-- A login fails: consecutive failures, LOGIN_FAIL, change log, and the lock after three (R255). -/
def loginFail (s : State) (m : Fin 4) : State :=
  let n := s.safe.fails[m] + 1
  let s := { s with safe := { s.safe with fails := s.safe.fails.set m.val n m.isLt } }
  let s := queueEvent s 0x060B (p1 m.val ++ p4 n)
  let s := logChange s m.val 4 0 0 0 0
  if 3 ≤ n then
    logChange { s with safe := { s.safe with locked := putBit s.safe.locked m.val true
                                             lockAt := s.safe.lockAt.set m.val s.sys.tbase m.isLt } } m.val 5 0 0 0 0
  else s

/-- A session opens: its values start from those in force, or from the reset values while a CFG demand is active
(R251, R255). -/
def openSession (s : State) (m : Fin 4) (nonce : BitVec 128) : State :=
  let cfg := if s.safe.cfgBad then SafeCfg.reset else s.safe.act
  let s := { s with safe := { s.safe with sessOpen := true, slot := m, sess := cfg, login := nonce,
                                          defaultSess := decide ((s.nvm.slots[m]).hash = none),
                                          fails := s.safe.fails.set m.val 0 m.isLt } }
  let s := queueEvent (touchSession s) 0x0609 (p1 m.val)
  logChange s m.val 9 0 0 0 0

/-- SAFE_LOGIN (R255, R256, R329): the nonce serves one login within 60 s. -/
def login (slot : Byte) (proof : List Byte) (s : State) : State × Completion :=
  match slotOf? slot with
  | none => (s, .status stBadParam)
  | some m =>
    if s.safe.defaultSess then sessionDenied s
    else if s.safe.locked.getLsbD m.val then (s, .status stLocked)
    else if s.safe.sessOpen then (s, .status stBusyRetry)
    else
      match s.safe.nonce with
      | none => (s, .status stBadParam)
      | some n =>
        let s := timePasses s
        let s' := { s with safe := { s.safe with nonce := none } }
        if s.safe.nonceAt + 60000000000 < s.sys.tbase then (s', .status stBadParam)
        else if proofMatches s m n proof then (openSession s' m n, .status stOk)
        else (loginFail s' m, .status stAuthFail)

/-- SAFE_LOGOUT (R256, R261, R329). -/
def logout (s : State) : State × Completion :=
  if s.safe.defaultSess then sessionDenied s else (closeSession s 1, .status stOk)

/-- The first channel whose UV is neither 0 nor at least 100 mV below OV (R259). -/
def badUv (c : SafeCfg) : Option (Fin 16) :=
  channels.find? fun n =>
    let v := c.cpv[n]
    bits v 0 16 != 0 && decide (bits v 16 16 < bits v 0 16 + 100)

/-- SAFE_COMMIT (R259, R260, R329). -/
def safeCommitBody (r : Request) (s : State) : State × Completion :=
  if s.safe.sessOpen = false ∨ s.safe.defaultSess then sessionDenied s
  else
    match badUv s.safe.sess with
    | some c => (s, .now stBadParam (p1 c.val))
    | none =>
      if sessionDirty s = false ∧ s.safe.cfgBad = false then
        (s, .now stOk (wordBytes s.safe.act.crc ++ toLE 4 s.nvm.logSeq ++ toLE 2 0))
      else if nvmBusy s then (s, .status stBusyRetry)
      else
        ({ s with isl := { s.isl with nvmOp := .safe s.safe.sess }
                  safe := { s.safe with commitTag := some r.tag } }, .later)

/-- The registers that a commit changes: PARAM, old and new value. -/
def changedRegs (old new : SafeCfg) : List (Nat × Word × Word) :=
  (List.zipWith (fun a b => (a.1, a.2, b.2)) old.regs new.regs).filter fun x => x.2.1 != x.2.2

/-- The commit ends: verified copies, one change-log entry per changed register, reply; the values apply at the next
boundary, or at once in halted BOOT, which has none (R259). Log entry 21. -/
def safeCommitEnd (ok : Bool) (s : State) : State :=
  match s.isl.nvmOp with
  | .safe cfg =>
    let tag := s.safe.commitTag
    let s := { s with isl := { s.isl with nvmOp := .none }, safe := { s.safe with commitTag := none } }
    if ok then
      let n := s.nvm.commits
      let first := s.nvm.logSeq
      let ch := changedRegs s.safe.act cfg
      let s := ch.foldl (fun s x => logChange s (sessionSlot s) 1 x.1 x.2.1 x.2.2 n) s
      let s := { s with nvm := { s.nvm with safe := some cfg, commits := n + 1 }, safe := { s.safe with applyAt := true } }
      let s := queueEvent s 0x060C (p4 n ++ wordBytes cfg.crc)
      let s := if s.sys.phase = .halted then applySafeCfg s else s
      match tag with
      | some t => reply s t 0x83 stOk (wordBytes cfg.crc ++ toLE 4 first ++ toLE 2 ch.length)
      | none => s
    else
      let s := nvmFail s 2
      match tag with
      | some t => reply s t 0x83 stNvmError []
      | none => s
  | _ => s

/-- A password that SAFE_PASSWD may set: its bytes (R257). -/
def passwordOf (len : Nat) (l : List Byte) : Option (List Byte) :=
  let p := l.take len
  if 8 ≤ len ∧ len ≤ 20 ∧ p.all (fun b => decide (0x21 ≤ b.toNat ∧ b.toNat ≤ 0x7E)) ∧ (l.drop len).all (· == 0) then
    some p
  else none

/-- Store the password record of a slot. -/
def setSlot (s : State) (m : Fin 4) (x : Slot) : State :=
  { s with nvm := { s.nvm with slots := s.nvm.slots.set m.val x m.isLt } }

/-- The session may set or clear the password of a slot (R256). -/
def maySetPassword (s : State) (m : Fin 4) (clear : Bool) : Bool :=
  if s.safe.defaultSess then m == 0
  else if s.safe.slot = 0 then true
  else m == s.safe.slot && !clear

/-- SAFE_PASSWD (R256, R257). -/
def passwd (slot len : Byte) (masked : List Byte) (s : State) : State × Completion :=
  if s.safe.sessOpen = false then (s, .status stSafetyDenied)
  else
    match slotOf? slot with
    | none => (s, .status stBadParam)
    | some m =>
      let clear := decide (len = 0)
      if maySetPassword s m clear = false then (s, .status stSafetyDenied)
      else
        let plain := xorBytes masked ((sessionMask s 0x50).take 20)
        if clear then
          if m = 0 ∨ plain.any (· != 0) then (s, .status stBadParam)
          else (logChange (setSlot s m Slot.empty) s.safe.slot.val 3 m.val 0 0 0, .status stOk)
        else
          match passwordOf len.toNat plain with
          | none => (s, .status stBadParam)
          | some p =>
            let d := drawEntropy s
            let x : Slot := { salt := d.1, hash := some (hashOf (sha256 (nonceBytes d.1 ++ p))) }
            (logChange (setSlot d.2 m x) s.safe.slot.val 2 m.val 0 0 0, .status stOk)

/-- SAFE_LOGREAD (R256, R262). -/
def changeLogRead (first : Word) (count : Byte) (s : State) : State × Completion :=
  let n := count.toNat
  if n < 1 ∨ 7 < n ∨ s.nvm.logSeq < first.toNat + n then (s, .status stBadParam)
  else if s.safe.defaultSess then sessionDenied s
  else (s, .now stOk ((List.range n).flatMap fun k => changeAt s (first.toNat + k)))

/-- SAFE_ACK (R246, R249, R256, R329). -/
def safeAckBody (flags : Byte) (mask : Mask) (r : Request) (s : State) : State × Completion :=
  let device := flags.getLsbD 0
  if flags.toNat ≥ 2 ∨ (device = false ∧ mask = 0) then (s, .status stBadParam)
  else if s.safe.defaultSess then sessionDenied s
  else
    let unmet := if device then ackUnmet s else 0
    let stay := latchesStay s mask
    if unmet ≠ 0 ∨ stay ≠ 0 then (s, .now stSafetyDenied (ackPayload unmet stay))
    else if device then
      if modePending s then (s, .status stBusyRetry)
      else
        let target := if s.sys.safeFrom = .service then Mode.boot else s.sys.safeFrom
        (stage s (.mode target false false true mask) r.opc (some r.tag) (allIslands s), .later)
    else (stage s (.clearLatch mask) r.opc (some r.tag) (islandBit 8), .later)

/-- SAFE_KEY (R305, R330). -/
def safeKeyBody (masked : List Byte) (s : State) : State × Completion :=
  if s.safe.sessOpen = false ∨ s.safe.slot ≠ 0 ∨ s.safe.defaultSess then sessionDenied s
  else
    let key := xorBytes masked (sessionMask s 0x4B)
    if key.all (· == 0) then
      (logChange { s with nvm := { s.nvm with key := none } } 0 3 0xFF 0 0 0, .status stOk)
    else (logChange { s with nvm := { s.nvm with key := some (hashOf key) } } 0 2 0xFF 0 0 0, .status stOk)

/-! ### Meanings -/

/-- SAFE_HELLO. -/
def execSafeHello (slot : Byte) (s : State) : Host.Outcome State Fault Refusal :=
  .next (hostCommand (.safeHello slot) true s fun _ s => hello slot (sessionHeard s))

/-- SAFE_LOGIN. -/
def execSafeLogin (slot : Byte) (proof : List Byte) (s : State) : Host.Outcome State Fault Refusal :=
  .next (hostCommand (.safeLogin slot proof) (lengthIn 32 32 proof) s fun _ s => login slot proof (sessionHeard s))

/-- SAFE_LOGOUT. -/
def execSafeLogout (s : State) : Host.Outcome State Fault Refusal :=
  .next (hostCommand .safeLogout true s fun _ s => logout (sessionHeard s))

/-- SAFE_COMMIT. -/
def execSafeCommit (s : State) : Host.Outcome State Fault Refusal :=
  .next (hostCommand .safeCommit true s fun r s => safeCommitBody r (sessionHeard s))

/-- SAFE_COMMIT_DONE. -/
def execSafeCommitDone (ok : Bool) (s : State) : Host.Outcome State Fault Refusal := .next (safeCommitEnd ok s)

/-- SAFE_PASSWD. -/
def execSafePasswd (slot len : Byte) (masked : List Byte) (s : State) : Host.Outcome State Fault Refusal :=
  .next (hostCommand (.safePasswd slot len masked) (lengthIn 20 20 masked) s fun _ s =>
    passwd slot len masked (sessionHeard s))

/-- SAFE_LOGREAD. -/
def execSafeLogread (first : Word) (count : Byte) (s : State) : Host.Outcome State Fault Refusal :=
  .next (hostCommand (.safeLogread first count) true s fun _ s => changeLogRead first count (sessionHeard s))

/-- SAFE_ACK. -/
def execSafeAck (flags : Byte) (mask : Mask) (s : State) : Host.Outcome State Fault Refusal :=
  .next (hostCommand (.safeAck flags mask) true s fun r s => safeAckBody flags mask r (sessionHeard s))

/-- SAFE_KEY. -/
def execSafeKey (masked : List Byte) (s : State) : Host.Outcome State Fault Refusal :=
  .next (hostCommand (.safeKey masked) (lengthIn 32 32 masked) s fun _ s => safeKeyBody masked (sessionHeard s))

end Sys2Proof.Machine
end

