-- ==== Sys2Proof/Machine/Operands.lean ====
section
/-! DEFINITION. Register and SRAM addresses as operands: the blocks of the address map, and what a read of each register
gives, with the captures that some reads make (R4 to R8, R318, R319). -/
namespace Sys2Proof.Machine

/-! ### Addresses (R4, R319) -/

/-- A block of the table Block bases, with the instance and the offset in it. -/
inductive Place
  | sys (o : Nat)
  | ch (c : Fin 16) (o : Nat)
  | ce (k : Fin 5) (o : Nat)
  | meas (o : Nat)
  | leg (l : Fin 32) (o : Nat)
  | link (o : Nat)
  | safe (o : Nat)
  | can (o : Nat)
  | dma (n : Fin 8) (o : Nat)
  | therm (o : Nat)
  | test (o : Nat)
  | nvmw (o : Nat)
  | aux (o : Nat)
  | sram (a : Nat)
deriving DecidableEq, Repr

/-- The place of an address; none where R319 gives BAD_ADDR. -/
def placeOf (w : Word) : Option Place :=
  let a := w.toNat
  let o := a % 0x10000
  if a % 4 ≠ 0 then none
  else if inSram a then some (.sram a)
  else
    match a / 0x10000 with
    | 0x0 => some (.sys o)
    | 0x1 => if o < 0x4000 then some (.ch ⟨o / 0x400 % 16, by omega⟩ (o % 0x400)) else none
    | 0x2 => if o < 0x5000 then some (.ce ⟨o / 0x1000 % 5, by omega⟩ (o % 0x1000)) else none
    | 0x3 => some (.meas o)
    | 0x4 => if o < 0x2000 then some (.leg ⟨o / 0x100 % 32, by omega⟩ (o % 0x100)) else none
    | 0x5 => some (.link o)
    | 0x6 => some (.safe o)
    | 0x7 => some (.can o)
    | 0x8 => if o < 0x200 then some (.dma ⟨o / 0x40 % 8, by omega⟩ (o % 0x40)) else none
    | 0x9 => some (.therm o)
    | 0xA => some (.test o)
    | 0xB => some (.nvmw o)
    | 0xC => some (.aux o)
    | _ => none

/-- The index of an offset in a row of n registers from `base` on, `step` bytes apart. -/
def indexOf (o base step n : Nat) : Option (Fin n) :=
  if h : base ≤ o ∧ (o - base) % step = 0 ∧ (o - base) / step < n then some ⟨(o - base) / step, h.2.2⟩ else none

/-- A number as a register value, saturating. -/
def wordSat (n : Nat) : Word := BitVec.ofNat 32 (satNat 32 n)

/-! ### SYS -/

/-- A read of the SYS block. -/
def readSys (s : State) (o : Nat) : Word :=
  match o with
  | 0x000 => 0x163200B0
  | 0x010 => sysMode s
  | 0x014 => sysRstc s
  | 0x018 => sysBoot s
  | 0x01C => s.sys.bootcfg
  | 0x100 => s.sys.fout.zeroExtend 32
  | 0x104 => BitVec.ofNat 32 s.sys.epoch.toNat
  | 0x108 => s.sys.capEpochHi.zeroExtend 32
  | 0x110 => BitVec.ofNat 32 s.sys.tbase
  | 0x114 => s.sys.capTbaseHi
  | 0x120 => sysOwner s
  | 0x124 => sysStale s
  | 0x128 => sysStage s
  | 0x130 => sysXbar s
  | 0x134 => sysRecov s
  | 0x140 => sysCastle s
  | 0x150 => s.port.hcfg
  | 0x154 => sysHq s
  | 0x158 => sysHstat s
  | 0x15C => pack [(0, satNat 16 s.port.replayN)]
  | 0x160 => sysHauth s
  | 0x164 => s.port.nonce.truncate 32
  | 0x168 => s.port.capNonceHi
  | 0x16C => BitVec.ofNat 32 s.port.hcnt
  | 0x180 => evqWord s
  | 0x184 => BitVec.ofNat 32 s.sticky.evSeq
  | 0x188 => pack [(0, satNat 16 s.evq.lostTotal)]
  | 0x1A0 => sysEcc s
  | 0x1A4 => s.isl.scrub
  | 0x1A8 => s.isl.eccaddr
  | 0x1AC => sysScrpos s
  | _ => 0

/-- The captures that a read of the SYS block makes. -/
def captureSys (s : State) (o : Nat) : State :=
  match o with
  | 0x104 => { s with sys := { s.sys with capEpochHi := BitVec.ofNat 16 (s.sys.epoch.toNat / 2 ^ 32) } }
  | 0x110 => { s with sys := { s.sys with capTbaseHi := BitVec.ofNat 32 (s.sys.tbase / 2 ^ 32) } }
  | 0x164 => { s with port := { s.port with capNonceHi := BitVec.ofNat 32 (s.port.nonce.toNat / 2 ^ 32) } }
  | _ => s

/-! ### CHn -/

/-- The index of a coefficient (CHn_LSEL): loop, section, b0 b1 b2 a1 a2. -/
def coefIndex (lsel : Word) : Nat := (bits lsel 0 2 * 6 + bits lsel 4 3) * 5 + bits lsel 8 3

/-- The coefficient that CHn_LSEL selects. -/
def coefAt (ch : Chan) : Word := if h : coefIndex ch.lsel < 120 then ch.coef[coefIndex ch.lsel] else 0

/-- CHn_LSEL after an access of CHn_COEF (AINC). -/
def advanceSel (w : Word) : Word :=
  if w.getLsbD 16 then
    let lp := bits w 0 2
    let sec := bits w 4 3
    let co := bits w 8 3
    let n : Nat × Nat × Nat :=
      if co < 4 then (lp, sec, co + 1) else if sec < 5 then (lp, sec + 1, 0) else (lp, 0, 0)
    pack [(0, n.1), (4, n.2.1), (8, n.2.2), (16, 1)]
  else w

/-- A read of a CH block that changes nothing. -/
def readCh (s : State) (c : Fin 16) (o : Nat) : Word :=
  let ch := s.ch[c]
  match o with
  | 0x000 => if c.val % 4 = 0 then ch.cfg ||| pack [(4, (s.grp[groupOf c]).gang.toNat)] else ch.cfg
  | 0x004 => ch.fsw
  | 0x008 => ch.limit
  | 0x00C => chStat s c
  | 0x014 => ch.chkcfg
  | 0x018 => chChkres s c
  | 0x01C => ch.burstReg
  | 0x020 => ch.stopr
  | 0x024 => ch.faultReg.zeroExtend 32
  | 0x028 => chCnt s c
  | 0x100 => ch.ctl
  | 0x104 => ch.iset
  | 0x108 => ch.vset
  | 0x10C => ch.iramp
  | 0x110 => ch.vramp
  | 0x114 => ch.tlim
  | 0x118 => wordOfInt ch.rI
  | 0x11C => BitVec.ofNat 32 (ufield 23 ch.rV)
  | 0x120 => chLstat s c
  | 0x124 => wordOfInt ch.iSel
  | 0x128 => ch.supcfg
  | 0x12C => ch.model0
  | 0x130 => ch.model1
  | 0x134 => chSupres s c
  | 0x138 => ch.lsel
  | 0x13C => coefAt ch
  | 0x140 => ch.lcfg[0]
  | 0x144 => ch.lcfg[1]
  | 0x148 => ch.lcfg[2]
  | 0x14C => ch.lcfg[3]
  | 0x150 => ch.clamp[0]
  | 0x154 => ch.clamp[1]
  | 0x158 => ch.clamp[2]
  | 0x15C => ch.clamp[3]
  | 0x180 => ch.progReg
  | 0x184 => chPstat s c
  | 0x188 => wordSat ch.prog.stepMs
  | 0x18C => wordOfInt (sat32 (toUah ch.prog.charge))
  | 0x190 => wordOfInt (sat32 (toTenthMwh ch.prog.energy))
  | 0x194 => chPflag s c
  | 0x198 => BitVec.ofNat 32 ch.rseq
  | 0x19C => ch.logReg
  | 0x1A0 => BitVec.ofNat 32 ch.logSeq
  | 0x1A4 => BitVec.ofNat 32 ch.logAck
  | 0x1A8 => chLogst s c
  | _ => 0

/-! ### CEk -/

/-- A read of a CE block. -/
def readCe (s : State) (k : Fin 5) (o : Nat) : Word :=
  match o with
  | 0x000 => ceRole s k
  | 0x004 => ceStat s k
  | 0x008 => BitVec.ofNat 32 (s.ce[k]).ckpt
  | 0x00C => ceCnt s k
  | 0x010 => ceBtime s k
  | _ => 0

/-! ### MEAS -/

/-- An accumulator in whole nAh or uWh. -/
def accWhole (v : Int) : Int := v / 2 ^ 32

/-- Bits 31:0 and 63:32 of an accumulator. -/
def accHalf (v : Int) (high : Bool) : Word :=
  let n := ufield 64 (accWhole v)
  BitVec.ofNat 32 (if high then n / 2 ^ 32 else n % 2 ^ 32)

/-- A read of the registers of one channel in the MEAS block. -/
def readMeasCh (s : State) (c : Fin 16) (o : Nat) : Word :=
  let ch := s.ch[c]
  match o with
  | 0x00 => ch.mcfg
  | 0x04 => ch.rsh
  | 0x08 => ch.tc
  | 0x0C => ch.esl
  | 0x10 => wordOfInt ch.userV
  | 0x14 => wordOfInt ch.capI
  | 0x18 => BitVec.ofNat 32 ch.capSeq
  | 0x1C => accHalf ch.qC false
  | 0x20 => accHalf ch.capQ true
  | 0x24 => accHalf ch.capE false
  | 0x28 => accHalf ch.capE true
  | 0x30 => wordOfInt ch.vF
  | 0x34 => measSrc s c
  | _ => 0

/-- A read of the MEAS block. -/
def readMeas (s : State) (o : Nat) : Word :=
  if 0x100 ≤ o ∧ o < 0x500 then readMeasCh s ⟨(o - 0x100) / 0x40 % 16, by omega⟩ ((o - 0x100) % 0x40)
  else
    match indexOf o 0x500 4 32, indexOf o 0x580 4 4, indexOf o 0x5A0 4 4 with
    | some l, _, _ => (s.leg[l]).shunt
    | _, some g, _ => (s.grp[g]).shunt
    | _, _, some g => wordOfInt (s.grp[g]).current
    | none, none, none =>
      match o with
      | 0x00 => measStat s
      | 0x04 => s.meas.refcfg
      | 0x08 => measRefdif s
      | 0x0C => measRot s
      | 0x10 => s.nvm.convRetired
      | 0x14 => measLanes s
      | 0x18 => s.meas.xcfg
      | 0x1C => measHold s
      | 0x590 => wordOfInt s.link.vlink
      | _ => 0

/-- The captures that a read of the MEAS block makes: MEAS_Vn takes current and number of the same result, MEAS_QLOn
takes charge and energy. -/
def captureMeas (s : State) (o : Nat) : State :=
  if 0x100 ≤ o ∧ o < 0x500 then
    s.updCh ⟨(o - 0x100) / 0x40 % 16, by omega⟩ fun ch =>
      match (o - 0x100) % 0x40 with
      | 0x10 => { ch with capI := ch.userI, capSeq := ch.userSeq - 1 }
      | 0x1C => { ch with capQ := ch.qC, capE := ch.eC }
      | _ => ch
  else s

/-! ### LEGL, LINK, SAFE, CAN, DMAn -/

/-- A read of a LEG block, but for LEGL_STAT. -/
def readLeg (s : State) (l : Fin 32) (o : Nat) : Word :=
  let x := s.leg[l]
  match o with
  | 0x00 => x.drv
  | 0x04 => x.dt
  | 0x08 => x.bootReg
  | 0x0C => x.sc
  | 0x10 => x.soft
  | 0x14 => x.gsc
  | 0x1C => x.evt.zeroExtend 32
  | 0x20 => legCnt s l
  | _ => 0

/-- A read of the LINK block. -/
def readLink (s : State) (o : Nat) : Word :=
  match indexOf o 0x100 4 16 with
  | some c => linkAllow s c
  | none =>
    match o with
    | 0x00 => linkState s
    | 0x04 => s.link.reg.cfg
    | 0x08 => s.link.reg.srclim
    | 0x0C => s.link.reg.bk
    | 0x10 => s.link.reg.tret
    | 0x14 => s.link.reg.vform
    | 0x18 => s.link.reg.vgrd
    | 0x1C => s.link.reg.node
    | 0x20 => s.link.reg.prio
    | 0x28 => linkPeers s
    | 0x2C => linkTot s
    | 0x30 => linkDev s
    | 0x34 => linkK s
    | 0x38 => linkGuard s
    | 0x3C => linkCnt s
    | _ => 0

/-- A read of the SAFE block. -/
def readSafe (s : State) (o : Nat) : Word :=
  let v := safeView s
  match indexOf o 0x10 4 4, indexOf o 0x100 8 16, indexOf o 0x104 8 16 with
  | some i, _, _ => v.incfg[i]
  | _, some n, _ => v.cpv[n]
  | _, _, some n => v.cpi[n]
  | none, none, none =>
    match o with
    | 0x00 => safeStat s
    | 0x04 => s.safe.cause.zeroExtend 32
    | 0x20 => safeInst s
    | 0x24 => v.socfg
    | 0x28 => v.gcfg
    | 0x2C => safeSostat s
    | 0x30 => safeSess s
    | 0x34 => BitVec.ofNat 32 s.nvm.logSeq
    | 0x38 => s.safe.act.crc
    | 0x3C => safeSlots s
    | 0x180 => safeCplat s 0
    | 0x184 => safeCplat s 1
    | 0x188 => s.sticky.cpdiag.zeroExtend 32
    | _ => 0

/-- A read of the CAN block. -/
def readCan (s : State) (o : Nat) : Word :=
  match indexOf o 0x100 8 64, indexOf o 0x104 8 64, indexOf o 0x24 4 2 with
  | some k, _, _ => s.can.fltid[k]
  | _, some k, _ => s.can.fltmsk[k]
  | _, _, some f => canRxf s f
  | none, none, none =>
    match o with
    | 0x00 => s.can.ctl
    | 0x04 => s.can.nbt
    | 0x08 => s.can.dbt
    | 0x0C => s.can.tdc
    | 0x10 => canStat s
    | 0x1C => canTxst s
    | 0x20 => s.can.failed.zeroExtend 32
    | 0x34 => s.can.tcfg
    | 0x38 => canTstat s
    | 0x3C => canTofs s
    | 0x40 => s.can.msgcfg
    | 0x44 => canCnt s
    | _ => 0

/-- A read of a DMA block. -/
def readDma (s : State) (n : Fin 8) (o : Nat) : Word :=
  let d := s.dma[n]
  match o with
  | 0x00 => d.ctl
  | 0x04 => dmaStat s n
  | 0x08 => d.adesc
  | 0x0C => d.areq
  | 0x10 => d.arseq
  | 0x14 => dmaAbytes s n
  | 0x18 => d.sdesc
  | 0x1C => d.sreq
  | 0x20 => d.srseq
  | 0x24 => pack [(0, b2n d.shv)]
  | 0x28 => d.evt.zeroExtend 32
  | 0x2C => d.lbad
  | 0x30 => pack [(0, satNat 16 d.skip)]
  | _ => 0

/-! ### THERM, TEST, NVM window, AUXPS -/

/-- A read of the THERM block. -/
def readTherm (s : State) (o : Nat) : Word :=
  match indexOf o 0x20 4 8, indexOf o 0x100 4 20, indexOf o 0x200 4 24 with
  | some k, _, _ => s.therm.auxcfg[k]
  | _, some k, _ => thermDt s k
  | _, _, some i => thermIn s i
  | none, none, none =>
    match o with
    | 0x00 => s.therm.cfg
    | 0x04 => thermStat s
    | 0x08 => thermDtstat s
    | 0x0C => thermInstat s
    | 0x10 => s.therm.thcfg
    | 0x14 => thermCnt s
    | 0x18 => thermLstat s
    | _ => 0

/-- A read of the TEST block. -/
def readTest (s : State) (o : Nat) : Word :=
  match indexOf o 0x10 4 6 with
  | some k => testRes s k
  | none =>
    match o with
    | 0x00 => testStat s
    | 0x30 => s.isl.legLb
    | 0x34 => s.isl.legF
    | 0x38 => testRepair s
    | 0x40 => testEqh s
    | _ => 0

/-- A read of the NVM window. -/
def readNvmw (s : State) (o : Nat) : Word :=
  if o < 0x8000 then nvmWord s o
  else
    match o with
    | 0x8000 => s.isl.page
    | 0x8004 => nvmwStat s
    | 0x8008 => nvmwRefr s
    | _ => 0

/-- A 16-bit free value (log entry 8). -/
def drawHalf (s : State) : Nat × State :=
  let d := drawFree s
  ((d.1 % 65536).toNat, d.2)

/-- A measured average and the peak above it, as free values: a peak never falls (R430). -/
def drawPeak (s : State) (old : Nat × Nat) : (Nat × Nat) × State :=
  let a := drawHalf s
  let p := drawHalf a.2
  ((max old.1 (max a.1 p.1), a.1), p.2)

/-- The measured values of the aux converter at a read: no command carries them (R430). AUXPS_TEMP.PEAK follows the
readings of DT17, and LIMN counts also the runs of limited periods that no row reports. -/
def measureAux (s : State) (o : Nat) : State :=
  match o with
  | 0x08 =>
    let r := drawPeak s (s.aux.vgdMax, s.aux.vgdAvg)
    { r.2 with aux := { r.2.aux with vgdMax := r.1.1, vgdAvg := r.1.2 } }
  | 0x0C =>
    if s.aux.state = 2 then
      let r := drawHalf s
      { r.2 with aux := { r.2.aux with vgdMin := min r.2.aux.vgdMin r.1 } }
    else s
  | 0x10 =>
    let r := drawPeak s s.aux.iph[0]
    { r.2 with aux := { r.2.aux with iph := r.2.aux.iph.set 0 r.1 } }
  | 0x14 =>
    let r := drawPeak s s.aux.iph[1]
    { r.2 with aux := { r.2.aux with iph := r.2.aux.iph.set 1 r.1 } }
  | 0x18 =>
    let r := drawPeak s s.aux.iout
    { r.2 with aux := { r.2.aux with iout := r.1 } }
  | 0x1C =>
    let r := drawPeak s s.aux.pwr
    { r.2 with aux := { r.2.aux with pwr := r.1 } }
  | 0x20 =>
    let r := drawFree s
    { r.2 with aux := { r.2.aux with temp := (r.2.aux.temp.1, satInt 16 r.1) } }
  | 0x24 =>
    if s.aux.state ≠ 0 ∧ s.sticky.phaseOff = 0 ∧ s.aux.imb = false then
      let r := drawFree s
      { r.2 with aux := { r.2.aux with trim := r.1 % 1001 - 500 } }
    else s
  | 0x2C =>
    if s.aux.state ≠ 0 then
      let r := drawFree s
      { r.2 with aux := { r.2.aux with limn := satNat 8 (r.2.aux.limn + (r.1 % 256).toNat) } }
    else s
  | _ => s

/-- A peak in the high half, an average in the low half. -/
def peakWord (p : Nat × Nat) : Word := pack [(0, satNat 16 p.2), (16, satNat 16 p.1)]

/-- A read of the AUXPS block, after `measureAux`. -/
def readAux (s : State) (o : Nat) : Word :=
  match o with
  | 0x00 => auxStat s
  | 0x04 => s.aux.cfg
  | 0x08 => peakWord (s.aux.vgdMax, s.aux.vgdAvg)
  | 0x0C => pack [(0, satNat 16 s.aux.vgdMin)]
  | 0x10 => peakWord s.aux.iph[0]
  | 0x14 => peakWord s.aux.iph[1]
  | 0x18 => peakWord s.aux.iout
  | 0x1C => peakWord s.aux.pwr
  | 0x20 => pack [(0, ufield 16 (satInt 16 s.aux.temp.2)), (16, ufield 16 (satInt 16 s.aux.temp.1))]
  | 0x24 => pack [(0, ufield 10 s.aux.trim)]
  | 0x2C => auxCnt s
  | 0x30 => auxStopWord s
  | _ => 0

/-! ### Reads (R318, R319) -/

/-- A read of one word: its value, and the state with the captures that the read makes. -/
def readPlace (s : State) (p : Place) : Word × State :=
  match p with
  | .sys o => (readSys s o, captureSys s o)
  | .ch c o =>
    if o = 0x10 then (chPwm s c, s)
    else if o = 0x13C then (coefAt s.ch[c], s.updCh c fun ch => { ch with lsel := advanceSel ch.lsel })
    else (readCh s c o, s)
  | .ce k o => (readCe s k o, s)
  | .meas o => (readMeas s o, captureMeas s o)
  | .leg l o => if o = 0x18 then legStat s l else (readLeg s l o, s)
  | .link o => (readLink s o, s)
  | .safe o => (readSafe s o, s)
  | .can o => (readCan s o, s)
  | .dma n o => (readDma s n o, s)
  | .therm o => (readTherm s o, s)
  | .test o => (readTest s o, s)
  | .nvmw o =>
    let s := if o = 0x8004 then (pageRuns s).2 else s
    (readNvmw s o, s)
  | .aux o => (readAux (measureAux s o) o, measureAux s o)
  | .sram a => (sramWord s a, s)

/-- A register read by address: none where R319 gives BAD_ADDR. -/
def readReg (s : State) (a : Word) : Option (Word × State) := (placeOf a).map (readPlace s)

/-- Reads at n consecutive words; none where one of them gives BAD_ADDR (R319). -/
def readBlock (s : State) (a : Word) : Nat → Option (List Byte × State)
  | 0 => some ([], s)
  | n + 1 =>
    match readReg s a with
    | none => none
    | some r =>
      match readBlock r.2 (a + 4) n with
      | none => none
      | some q => some (wordBytes r.1 ++ q.1, q.2)

end Sys2Proof.Machine
end

