-- ==== Sys2Proof/Machine/RegisterWrites.lean ====
section
/-! DEFINITION. What a write of each register does, with the conditions and ranges of its chapter. The checks of one write
come in the order of R311: device mode, session, ranges, state of the objects (R5 to R8, R318, R319). -/
namespace Sys2Proof.Machine

/-- A write of a register is checked and applied: the state after it, and its status. -/
abbrev WriteResult := State × Byte

/-- A write that changes nothing: to RO fields only (R6). -/
def writeNone (s : State) : WriteResult := (s, stOk)

/-- The field at `lo` of `len` bits lies in a range. -/
def inRange (v : Word) (lo len a b : Nat) : Bool := decide (a ≤ bits v lo len ∧ bits v lo len ≤ b)

/-- Apply a write if its range holds. -/
def ifRange (ok : Bool) (s t : State) : WriteResult := if ok then (t, stOk) else (s, stBadParam)

/-- Check mode, then ranges, then the state of the objects. -/
def checked (mode range state : Bool) (s t : State) : WriteResult :=
  if !mode then (s, stWrongMode) else if !range then (s, stBadParam) else if !state then (s, stWrongMode) else (t, stOk)

/-- The device is in CONFIGURE. -/
def inConfigure (s : State) : Bool := s.sys.mode == .configure

/-- The device is in CONFIGURE or IDLE. -/
def inIdle (s : State) : Bool := s.sys.mode == .configure || s.sys.mode == .idle

/-- The channel is in OFF. -/
def isOff (s : State) (c : Fin 16) : Bool := (s.ch[c]).st == .off

/-- Every channel of a group is in OFF. -/
def groupOff (s : State) (g : Fin 4) : Bool := (chansOf g).all (isOff s)

/-- A W1C field after a write of the bits v; bits that the device set in the present epoch stay set (R8). -/
def clearBits {n : Nat} (old new v : BitVec n) : BitVec n := old &&& ~~~(v &&& ~~~new)

/-! ### SYS -/

/-- Update the device-wide registers. -/
def State.updSys (s : State) (f : Sys → Sys) : State := { s with sys := f s.sys }

/-- A write of SYS_EPCFG (R23). -/
def writeEpcfg (s : State) (v : Word) : WriteResult :=
  checked (inConfigure s) true true s (s.updSys fun y => { y with fout := v.truncate 2 })

/-- A write of SYS_CASTLE: the period timer starts again (R121). -/
def writeCastle (s : State) (v : Word) : WriteResult :=
  ifRange (inRange v 0 16 60 65535) s
    (s.updSys fun y => { y with castlePen := v.getLsbD 16, castlePeriod := v.truncate 16, castleNs := 0 })

/-- A write of SYS_HAUTH: in a session, as the SAFE block (R6, R258, R309). -/
def writeHauth (s : State) (v : Word) : WriteResult :=
  if !s.safe.sessOpen || s.safe.defaultSess then (s, stSafetyDenied)
  else
    let s := touchSession s
    ({ s with safe := { s.safe with sess := { s.safe.sess with hauth := v.truncate 2 } } }, stOk)

/-- A write of the SYS block. -/
def writeSys (s : State) (o : Nat) (v : Word) : WriteResult :=
  match o with
  | 0x014 => ({ s with sticky := { s.sticky with stuck := v.getLsbD 11 } }, stOk)
  | 0x01C => checked (inConfigure s) true true s (s.updSys fun y => { y with bootcfg := v &&& 0x3 })
  | 0x100 => writeEpcfg s v
  | 0x140 => writeCastle s v
  | 0x150 => ({ s with port := { s.port with hcfg := v &&& 0x3 } }, stOk)
  | 0x160 => writeHauth s v
  | 0x1A4 => ifRange (inRange v 0 11 1 1440) s { s with isl := { s.isl with scrub := v &&& 0x7FF } }
  | 0x000 | 0x010 | 0x018 | 0x104 | 0x108 | 0x110 | 0x114 | 0x120 | 0x124 | 0x128 | 0x130 | 0x134 | 0x154 | 0x158
  | 0x15C | 0x164 | 0x168 | 0x16C | 0x180 | 0x184 | 0x188 | 0x1A0 | 0x1A8 | 0x1AC => writeNone s
  | _ => (s, stBadAddr)

/-! ### CHn (R63, R75, R114, R123, R186, R188) -/

/-- The arrangement that a group has, or will have once what is staged has committed. -/
def gangAhead (s : State) (g : Fin 4) : BitVec 3 :=
  s.staged.foldl (fun v x => match x.change with | .gang h w => if h = g then w else v | _ => v) (s.grp[g]).gang

/-- The write of CHn_CFG writes GANG: it gives the group another arrangement than it has or will have. One that
repeats it writes the other fields only, which R75 permits in every mode. DEDUCED, log entry 180. -/
def gangChanges (s : State) (c : Fin 16) (v : Word) : Bool :=
  c.val % 4 == 0 && bits v 4 3 != (gangAhead s (groupOf c)).toNat

/-- A write of CHn_CFG: a new GANG value is staged and shows when it commits (R63, R75). -/
def writeCfg (s : State) (c : Fin 16) (v : Word) : WriteResult :=
  let gang := gangChanges s c v
  let t := s.updCh c fun ch => { ch with cfg := v &&& 0x7 }
  let t := if gang then
      stage t (.gang (groupOf c) (BitVec.ofNat 3 (bits v 4 3))) 0x11 none (channelIslands s (chansOf (groupOf c)))
    else t
  checked (!gang || inIdle s) (!gang || decide (bits v 4 3 ≤ 4)) (isOff s c && (!gang || groupOff s (groupOf c))) s t

/-- Setpoint registers: stored under the automatic source, a setpoint step change under HAND or DIRECT (R123). -/
def writeSetpoint (s : State) (c : Fin 16) (r : SetpointReg) (v : Word) : WriteResult :=
  let w : Word := match r with
    | .iset => v | .vset => v &&& 0x7FFFFF | .iramp => v &&& 0xFFFFF | .vramp => v &&& 0xFFFFFF
  let sel : BitVec 4 := match r with | .iset => 1 | .vset => 2 | .iramp => 4 | .vramp => 8
  if setpointInRange sel w w w w = false then (s, stBadParam)
  else if followsHost s c then (stage s (.setpoint c sel w w w w) 0x11 none (channelIslands s [c]), stOk)
  else (s.updCh c fun ch => ch.setRegs sel w w w w, stOk)

/-- A write of CHn_COEF (R112). -/
def writeCoef (s : State) (c : Fin 16) (v : Word) : WriteResult :=
  (s.updCh c fun ch =>
    { ch with coef := if h : coefIndex ch.lsel < 120 then ch.coef.set (coefIndex ch.lsel) v h else ch.coef,
              lsel := advanceSel ch.lsel }, stOk)

/-- A loop after a write of NSEC: sections that are added start with zero states (R114). -/
def growSections (old new : Nat) (l : LoopSt) : LoopSt :=
  { l with sec := vmapI l.sec fun k z => if old ≤ k.val ∧ k.val < new then SecState.zero else z }

/-- A write of CHn_LCFGj. -/
def writeLcfg (s : State) (c : Fin 16) (j : Fin 4) (v : Word) : WriteResult :=
  let ch := s.ch[c]
  let free := (ch.loops[j]).frozen || ch.st == .off || ch.st == .check || ch.st == .armed || ch.st == .fault
  checked true (inRange v 0 3 1 6 && within (-24) 24 (sbits v 8 6)) free s
    (s.updCh c fun ch =>
      { ch with lcfg := ch.lcfg.set j.val (v &&& 0x3F07) j.isLt,
                loops := vmod ch.loops j (growSections (bits ch.lcfg[j] 0 3) (bits v 0 3)) })

/-- A write of CHn_CLAMPj. -/
def writeClamp (s : State) (c : Fin 16) (j : Fin 4) (v : Word) : WriteResult :=
  ifRange (inRange v 16 16 1 32000 && decide (bits v 0 16 ≤ bits v 16 16)) s
    (s.updCh c fun ch => { ch with clamp := ch.clamp.set j.val v j.isLt })

/-- The binding that a write of CHn_PROG names is acceptable: a slot in use, and a first step in it. -/
def bindingOk (s : State) (v : Word) : Bool :=
  let r := s.nvm.book[bits v 0 5 % 32]'(by omega)
  !v.getLsbD 8 || (hdrNstep r.header != 0 && decide (bits v 16 7 < hdrNstep r.header))

/-- A write of CHn_PROG; in FORM a change of BIND changes the source, which is staged (R111, R176, R188). -/
def writeProg (s : State) (c : Fin 16) (v : Word) : WriteResult :=
  if isFollower s c then (s, stBadParam)
  else if isOff s c = false then (s, stWrongMode)
  else if bindingOk s v = false then (s, stBadParam)
  else
    let moves := s.sys.mode == .form && (s.ch[c]).bound != v.getLsbD 8
    let s := s.updCh c fun ch =>
      { ch with progReg := v &&& 0x7F011F, prog := { ch.prog with pstate := if v.getLsbD 8 then .ready else .unbound } }
    (if moves then stage s (.source c) 0x11 none (channelIslands s [c]) else s, stOk)

/-- A write of the registers 0x000 to 0x028 of a CH block. -/
def writeChPower (s : State) (c : Fin 16) (o : Nat) (v : Word) : WriteResult :=
  match o with
  | 0x000 => writeCfg s c v
  | 0x004 =>
    ifRange (inRange v 20 4 1 10 && inRange v 0 9 100 500) s (s.updCh c fun ch => { ch with fsw := v &&& 0xF101FF })
  | 0x008 =>
    ifRange (inRange v 16 9 1 400 && inRange v 0 13 1 8000) s
      (s.updCh c fun ch => { ch with limit := v &&& 0x1FF1FFF })
  | 0x014 =>
    checked true (inRange v 16 12 0 4000 && inRange v 8 8 1 255 && inRange v 0 8 1 255) (isOff s c) s
      (s.updCh c fun ch => { ch with chkcfg := v &&& 0xFFFFFFF })
  | 0x01C =>
    checked true (inRange v 0 12 1 2000) (isOff s c) s (s.updCh c fun ch => { ch with burstReg := v &&& 0xFFF })
  | 0x020 => ifRange (inRange v 0 8 1 255) s (s.updCh c fun ch => { ch with stopr := v &&& 0xFF })
  | 0x024 => (s.updCh c fun ch => { ch with faultReg := clearBits ch.faultReg ch.faultNew (v.truncate 9) }, stOk)
  | 0x00C | 0x010 | 0x018 | 0x028 => writeNone s
  | _ => (s, stBadAddr)

/-- A write of the registers 0x100 to 0x15C of a CH block (R123). -/
def writeChControl (s : State) (c : Fin 16) (o : Nat) (v : Word) : WriteResult :=
  match o with
  | 0x100 => (s.updCh c fun ch => { ch with ctl := v &&& 0x70F }, stOk)
  | 0x104 => writeSetpoint s c .iset v
  | 0x108 => writeSetpoint s c .vset v
  | 0x10C => writeSetpoint s c .iramp v
  | 0x110 => writeSetpoint s c .vramp v
  | 0x114 => ifRange (inRange v 0 16 0 9000) s (s.updCh c fun ch => { ch with tlim := v &&& 0x1FFFF })
  | 0x120 => (s.updCh c fun ch => { ch with ovf := clearBits ch.ovf ch.ovfNew (BitVec.ofNat 4 (bits v 28 4)) }, stOk)
  | 0x128 =>
    ifRange (inRange v 0 8 1 255 && inRange v 8 8 1 255 && inRange v 16 8 1 255 && inRange v 24 8 1 255) s
      (s.updCh c fun ch => { ch with supcfg := v })
  | 0x12C => ifRange (inRange v 0 16 1 65535) s (s.updCh c fun ch => { ch with model0 := v })
  | 0x130 =>
    ifRange (inRange v 0 16 1 65535 && inRange v 16 8 1 255 && inRange v 24 8 1 255) s
      (s.updCh c fun ch => { ch with model1 := v })
  | 0x138 =>
    ifRange (inRange v 8 3 0 4 && inRange v 4 3 0 5) s (s.updCh c fun ch => { ch with lsel := v &&& 0x10773 })
  | 0x13C => writeCoef s c v
  | 0x118 | 0x11C | 0x124 | 0x134 => writeNone s
  | _ =>
    match indexOf o 0x140 4 4, indexOf o 0x150 4 4 with
    | some j, _ => writeLcfg s c j v
    | none, some j => writeClamp s c j v
    | none, none => (s, stBadAddr)

/-- A write of the registers 0x180 to 0x1A8 of a CH block. -/
def writeChProgram (s : State) (c : Fin 16) (o : Nat) (v : Word) : WriteResult :=
  match o with
  | 0x180 => writeProg s c v
  | 0x19C => (s.updCh c fun ch => { ch with logReg := v &&& 0x1 }, stOk)
  | 0x1A4 => setLogAck s c v
  | 0x184 | 0x188 | 0x18C | 0x190 | 0x194 | 0x198 | 0x1A0 | 0x1A8 => writeNone s
  | _ => (s, stBadAddr)

/-- A write of a CH block. -/
def writeCh (s : State) (c : Fin 16) (o : Nat) (v : Word) : WriteResult :=
  if o < 0x100 then writeChPower s c o v
  else if o < 0x180 then writeChControl s c o v
  else writeChProgram s c o v

/-! ### CEk, MEAS, LEGL -/

/-- A write of a CE block: every register is read-only. -/
def writeCe (s : State) (o : Nat) : WriteResult :=
  match o with
  | 0x000 | 0x004 | 0x008 | 0x00C | 0x010 => writeNone s
  | _ => (s, stBadAddr)

/-- The channel is in OFF, ARMED or FAULT. -/
def atRest (s : State) (c : Fin 16) : Bool := isOff s c || (s.ch[c]).st == .armed || (s.ch[c]).st == .fault

/-- A write of the registers of one channel in the MEAS block (R153, R158). -/
def writeMeasCh (s : State) (c : Fin 16) (o : Nat) (v : Word) : WriteResult :=
  match o with
  | 0x00 =>
    checked true (inRange v 4 4 0 12 && inRange v 0 2 0 2) (bits v 0 2 == bits (s.ch[c]).mcfg 0 2 || isOff s c) s
      (s.updCh c fun ch => { ch with mcfg := v &&& 0xFF3 })
  | 0x04 =>
    checked true (decide (10000000 ≤ v.toNat ∧ v.toNat ≤ 4000000000)) (atRest s c) s
      (s.updCh c fun ch => { ch with rsh := v })
  | 0x08 => ifRange (within (-4000) 12500 (sbits v 0 16)) s (s.updCh c fun ch => { ch with tc := v })
  | 0x0C => checked true true (atRest s c) s (s.updCh c fun ch => { ch with esl := v &&& 0xFFFF })
  | 0x2C => (if v.getLsbD 0 then s.updCh c fun ch => { ch with aclr := true } else s, stOk)
  | 0x10 | 0x14 | 0x18 | 0x1C | 0x20 | 0x24 | 0x28 | 0x30 | 0x34 => writeNone s
  | _ => (s, stBadAddr)

/-- A write of the MEAS block. -/
def writeMeas (s : State) (o : Nat) (v : Word) : WriteResult :=
  if 0x100 ≤ o ∧ o < 0x500 then writeMeasCh s ⟨(o - 0x100) / 0x40 % 16, by omega⟩ ((o - 0x100) % 0x40) v
  else
    match indexOf o 0x500 4 32, indexOf o 0x580 4 4, indexOf o 0x5A0 4 4 with
    | some l, _, _ =>
      checked true (inRange v 0 16 100 60000) (isOff s (chanOfLeg l)) s
        (s.updLeg l fun x => { x with shunt := v &&& 0xFFFF })
    | _, some g, _ =>
      checked true (inRange v 0 16 100 65535) (groupOff s g) s (s.updGrp g fun x => { x with shunt := v &&& 0xFFFF })
    | _, _, some _ => writeNone s
    | none, none, none =>
      match o with
      | 0x04 => checked (inConfigure s) true true s { s with meas := { s.meas with refcfg := v &&& 0x3FFFF } }
      | 0x18 =>
        checked (inConfigure s) (inRange v 0 8 2 100) true s { s with meas := { s.meas with xcfg := v &&& 0xFF } }
      | 0x00 | 0x08 | 0x0C | 0x10 | 0x14 | 0x1C | 0x590 => writeNone s
      | _ => (s, stBadAddr)

/-- A write of a LEG block (R95). -/
def writeLeg (s : State) (l : Fin 32) (o : Nat) (v : Word) : WriteResult :=
  let off := isOff s (chanOfLeg l)
  match o with
  | 0x00 => checked true true off s (s.updLeg l fun x => { x with drv := v &&& 0x7777 })
  | 0x04 =>
    checked true (inRange v 0 7 0 121 && inRange v 8 7 0 121) off s (s.updLeg l fun x => { x with dt := v &&& 0x17F7F })
  | 0x08 => checked true (inRange v 0 6 2 50) off s (s.updLeg l fun x => { x with bootReg := v &&& 0x3F })
  | 0x0C =>
    checked true (inRange v 0 7 10 120 && inRange v 8 6 0 45) off s (s.updLeg l fun x => { x with sc := v &&& 0x3F7F })
  | 0x10 => checked true true off s (s.updLeg l fun x => { x with soft := v &&& 0x73 })
  | 0x14 =>
    if l.val % 8 = 0 then
      checked true (inRange v 0 8 10 240) (groupOff s (groupOfLeg l)) s (s.updLeg l fun x => { x with gsc := v &&& 0xFF })
    else checked true true (groupOff s (groupOfLeg l)) s s
  | 0x1C => (s.updLeg l fun x => { x with evt := clearBits x.evt x.evtNew (v.truncate 8) }, stOk)
  | 0x18 | 0x20 => writeNone s
  | _ => (s, stBadAddr)

/-! ### LINK (R205) -/

/-- Update the link registers. -/
def State.updLinkReg (s : State) (f : LinkRegs → LinkRegs) : State :=
  { s with link := { s.link with reg := f s.link.reg } }

/-- VLOST < VLO < VHI, each in its range. -/
def vgrdOk (v : Word) : Bool :=
  inRange v 0 10 90 700 && inRange v 10 10 90 700 && inRange v 20 10 90 700 && decide (bits v 0 10 < bits v 10 10)
    && decide (bits v 10 10 < bits v 20 10)

/-- A write of the LINK block. -/
def writeLink (s : State) (o : Nat) (v : Word) : WriteResult :=
  match o with
  | 0x04 => checked (inIdle s) (inRange v 16 8 80 99) true s (s.updLinkReg fun r => { r with cfg := v &&& 0xFFFF0F03 })
  | 0x08 =>
    checked (inIdle s) (inRange v 16 16 0 2000 && inRange v 0 16 0 2000) true s (s.updLinkReg fun r => { r with srclim := v })
  | 0x0C =>
    checked (inIdle s) (inRange v 25 7 10 100 && inRange v 16 9 5 500 && inRange v 0 16 0 2000) true s
      (s.updLinkReg fun r => { r with bk := v })
  | 0x10 =>
    ifRange (inRange v 16 8 1 100 && inRange v 0 13 20 5000) s (s.updLinkReg fun r => { r with tret := v &&& 0xFF1FFF })
  | 0x14 =>
    checked (inIdle s) (inRange v 24 8 5 50 && inRange v 0 16 24000 60000) true s
      (s.updLinkReg fun r => { r with vform := v &&& 0xFF00FFFF })
  | 0x18 => checked (inIdle s) (vgrdOk v) true s (s.updLinkReg fun r => { r with vgrd := v &&& 0x3FFFFFFF })
  | 0x1C => checked (inIdle s) true true s (s.updLinkReg fun r => { r with node := v &&& 0x10F0F })
  | 0x20 => (s.updLinkReg fun r => { r with prio := v }, stOk)
  | 0x24 => (if v.getLsbD 0 then { s with link := { s.link with bkclr := true } } else s, stOk)
  | 0x00 | 0x28 | 0x2C | 0x30 | 0x34 | 0x38 | 0x3C => writeNone s
  | _ =>
    match indexOf o 0x100 4 16 with
    | some _ => writeNone s
    | none => (s, stBadAddr)

/-! ### SAFE (R6, R256, R258, R261, R263) -/

/-- Write the session value of the safety configuration. -/
def State.updSess (s : State) (f : SafeCfg → SafeCfg) : State := { s with safe := { s.safe with sess := f s.safe.sess } }

/-- The ranges of SAFE_CPVn: UV is 0, or from 500 mV to OV - 100 mV. -/
def cpvOk (v : Word) : Bool :=
  inRange v 16 16 1000 5500 && (bits v 0 16 == 0 || decide (500 ≤ bits v 0 16 ∧ bits v 0 16 + 100 ≤ bits v 16 16))

/-- A write of the SAFE block inside a session. -/
def writeSafeReg (s : State) (o : Nat) (v : Word) : WriteResult :=
  match indexOf o 0x10 4 4, indexOf o 0x100 8 16, indexOf o 0x104 8 16 with
  | some i, _, _ =>
    ifRange (inRange v 16 10 1 1000 && inRange v 10 6 1 50 && inRange v 4 6 1 40 && inRange v 2 2 0 2) s
      (s.updSess fun c => { c with incfg := c.incfg.set i.val (v &&& 0x3FFFFFD) i.isLt })
  | _, some n, _ => ifRange (cpvOk v) s (s.updSess fun c => { c with cpv := c.cpv.set n.val v n.isLt })
  | _, _, some n =>
    ifRange (inRange v 12 10 4 400 && inRange v 0 11 0 1500) s
      (s.updSess fun c => { c with cpi := c.cpi.set n.val (v &&& 0x3FFFFF) n.isLt })
  | none, none, none =>
    match o with
    | 0x24 =>
      ifRange (inRange v 18 6 1 50 && inRange v 13 5 1 20 && inRange v 9 4 0 8) s
        (s.updSess fun c => { c with socfg := v &&& 0xFFFE0F })
    | 0x28 => ifRange (inRange v 8 8 1 60) s (s.updSess fun c => { c with gcfg := v &&& 0xFF01 })
    | 0x00 | 0x04 | 0x20 | 0x2C | 0x30 | 0x34 | 0x38 | 0x3C | 0x180 | 0x184 | 0x188 => writeNone s
    | _ => (s, stBadAddr)

/-- A write of the SAFE block: the whole block accepts no writes outside a session, and none in the default session. -/
def writeSafe (s : State) (o : Nat) (v : Word) : WriteResult :=
  if !s.safe.sessOpen || s.safe.defaultSess then (s, stSafetyDenied) else writeSafeReg (touchSession s) o v

/-! ### CAN (R341, R344 to R348, R359) -/

/-- Update the rack-bus controller. -/
def State.updCan (s : State) (f : Can → Can) : State := { s with can := f s.can }

/-- The quanta of a bit times BRP, in f_CAN clocks: nominal and data phase. -/
def nominalClocks (v : Word) : Nat := (bits v 16 5 + 1) * (3 + bits v 8 8 + bits v 0 7)

/-- The clocks of a data bit. -/
def dataClocks (v : Word) : Nat := (bits v 16 5 + 1) * (3 + bits v 8 5 + bits v 0 4)

/-- Bit timing is accepted: ranges, SJW at most either segment, nominal rate from 125 kb/s to 1 Mb/s, data rate from the
nominal rate to 8 Mb/s (R341). -/
def timingOk (nbt dbt : Word) : Bool :=
  inRange nbt 8 8 1 255 && inRange nbt 0 7 1 127 && decide (bits nbt 25 7 ≤ bits nbt 8 8)
    && decide (bits nbt 25 7 ≤ bits nbt 0 7) && decide (bits dbt 24 4 ≤ bits dbt 8 5)
    && decide (bits dbt 24 4 ≤ bits dbt 0 4) && decide (80 ≤ nominalClocks nbt ∧ nominalClocks nbt ≤ 640)
    && decide (10 ≤ dataClocks dbt ∧ dataClocks dbt ≤ nominalClocks nbt)

/-- A write of the CAN block. -/
def writeCan (s : State) (o : Nat) (v : Word) : WriteResult :=
  let off := !canOn s
  match o with
  | 0x00 => canCtlWrite s v
  | 0x04 => checked true (timingOk v s.can.dbt) off s (s.updCan fun c => { c with nbt := v &&& 0xFE1FFF7F })
  | 0x08 => checked true (timingOk s.can.nbt v) off s (s.updCan fun c => { c with dbt := v &&& 0x0F1F1F0F })
  | 0x0C => checked true true off s (s.updCan fun c => { c with tdc := v &&& 0x17F00 })
  | 0x14 => canTxAdd s v
  | 0x18 => canTxCancel s v
  | 0x1C =>
    (s.updCan fun c => { c with done := clearBits c.done c.doneNew (BitVec.ofNat 16 (bits v 16 16)) }, stOk)
  | 0x20 => (s.updCan fun c => { c with failed := clearBits c.failed c.failedNew (v.truncate 16) }, stOk)
  | 0x34 =>
    checked true (inRange v 24 2 0 2 && inRange v 16 7 1 100 && inRange v 8 6 0 32) off s
      (s.updCan fun c => { c with tcfg := v &&& 0x37F3F03 })
  | 0x40 => checked true true off s (s.updCan fun c => { c with msgcfg := v &&& 0xE003FFFF })
  | 0x10 | 0x38 | 0x3C | 0x44 => writeNone s
  | _ =>
    match indexOf o 0x100 8 64, indexOf o 0x104 8 64, indexOf o 0x24 4 2, indexOf o 0x2C 4 2 with
    | some k, _, _, _ => (s.updCan fun c => { c with fltid := c.fltid.set k.val (v &&& 0xDFFFFFFF) k.isLt }, stOk)
    | _, some k, _, _ =>
      ifRange (inRange v 30 2 0 2) s (s.updCan fun c => { c with fltmsk := c.fltmsk.set k.val (v &&& 0xDFFFFFFF) k.isLt })
    | _, _, some f, _ =>
      (s.updFifo f fun x => { x with ovr := x.ovr && (!v.getLsbD 16 || x.ovrNew) }, stOk)
    | _, _, _, some f => hostRxAck s f v
    | none, none, none, none => (s, stBadAddr)

/-! ### DMAn (R381, R382, R385) -/

/-- A write of a DMA block. -/
def writeDma (s : State) (n : Fin 8) (o : Nat) (v : Word) : WriteResult :=
  match o with
  | 0x00 => dmaCtlWrite s n v
  | 0x18 => dmaSdescWrite s n v
  | 0x1C => dmaSreqWrite s n v
  | 0x20 => dmaSrseqWrite s n v
  | 0x24 => dmaShvWrite s n v
  | 0x28 => (s.updDma n fun d => { d with evt := clearBits d.evt d.evtNew (v.truncate 6) }, stOk)
  | 0x04 | 0x08 | 0x0C | 0x10 | 0x14 | 0x2C | 0x30 => writeNone s
  | _ => (s, stBadAddr)

/-! ### THERM, TEST, NVM window, AUXPS -/

/-- Update thermal supervision. -/
def State.updTherm (s : State) (f : Thermal → Thermal) : State := { s with therm := f s.therm }

/-- A write of the THERM block (R281, R288). -/
def writeTherm (s : State) (o : Nat) (v : Word) : WriteResult :=
  match o with
  | 0x00 =>
    checked (inIdle s) (inRange v 8 8 100 125 && inRange v 0 8 90 115 && decide (bits v 0 8 + 5 ≤ bits v 8 8)) true s
      (s.updTherm fun t => { t with cfg := v &&& 0xFFFF })
  | 0x10 =>
    checked (inIdle s) (inRange v 16 16 1000 10000 && inRange v 0 16 10 50000) true s
      (s.updTherm fun t => { t with thcfg := v })
  | 0x18 => ({ s with nvm := { s.nvm with thLatched := v.getLsbD 31 } }, stOk)
  | 0x04 | 0x08 | 0x0C | 0x14 => writeNone s
  | _ =>
    match indexOf o 0x20 4 8, indexOf o 0x100 4 20, indexOf o 0x200 4 24 with
    | some k, _, _ =>
      checked (inIdle s) (inRange v 16 15 1000 10000 && inRange v 0 16 10 50000) true s
        (s.updTherm fun t => { t with auxcfg := t.auxcfg.set k.val v k.isLt })
    | _, some _, _ => writeNone s
    | _, _, some _ => writeNone s
    | none, none, none => (s, stBadAddr)

/-- A write of TEST_UNRETIRE (R402, R408): the retirement records that it names are cleared in NVM; the units return at
the next BOOT. -/
def unretire (s : State) (v : Word) : WriteResult :=
  let posv := v.getLsbD 21
  let range := (bits v 0 5 != 0 || bits v 8 4 != 0 || posv) && (posv || bits v 16 5 == 0)
  checked (s.sys.mode == .service) range true s
    { s with nvm := { s.nvm with
        ceRetired := s.nvm.ceRetired &&& ~~~(BitVec.ofNat 5 (bits v 0 5))
        laneRetired := s.nvm.laneRetired &&& ~~~(BitVec.ofNat 4 (bits v 8 4))
        convRetired := if posv then putBit s.nvm.convRetired (bits v 16 5) false else s.nvm.convRetired } }

/-- A write of the TEST block. -/
def writeTest (s : State) (o : Nat) (v : Word) : WriteResult :=
  match o with
  | 0x3C => unretire s v
  | 0x00 | 0x30 | 0x34 | 0x38 | 0x40 => writeNone s
  | _ =>
    match indexOf o 0x10 4 6 with
    | some _ => writeNone s
    | none => (s, stBadAddr)

/-- A write of the NVM window (R366, R386). -/
def writeNvmw (s : State) (o : Nat) (v : Word) : WriteResult :=
  match o with
  | 0x8000 => ifRange (inRange v 0 4 0 9) s { s with isl := { s.isl with page := v &&& 0xF } }
  | 0x8004 | 0x8008 => writeNone s
  | _ => (s, stBadAddr)

/-- A write of the AUXPS block (R421, R430). -/
def writeAux (s : State) (o : Nat) (v : Word) : WriteResult :=
  match o with
  | 0x04 => ifRange (inRange v 0 2 0 2) s { s with aux := { s.aux with cfg := v &&& 0x3 } }
  | 0x28 => pkclrWrite s v
  | 0x30 => ({ s with nvm := { s.nvm with stopValid := v.getLsbD 31 } }, stOk)
  | 0x00 | 0x08 | 0x0C | 0x10 | 0x14 | 0x18 | 0x1C | 0x20 | 0x24 | 0x2C => writeNone s
  | _ => (s, stBadAddr)

/-! ### Writes (R318, R319) -/

/-- A write to a place of the address map. -/
def writePlace (s : State) (p : Place) (v : Word) : WriteResult :=
  match p with
  | .sys o => writeSys s o v
  | .ch c o => writeCh s c o v
  | .ce _ o => writeCe s o
  | .meas o => writeMeas s o v
  | .leg l o => writeLeg s l o v
  | .link o => writeLink s o v
  | .safe o => writeSafe s o v
  | .can o => writeCan s o v
  | .dma n o => writeDma s n o v
  | .therm o => writeTherm s o v
  | .test o => writeTest s o v
  | .nvmw o => writeNvmw s o v
  | .aux o => writeAux s o v
  | .sram a => if inWindow a then (windowWrite s a (wordBytes v), stOk) else (s, stBadAddr)

/-- A register write by address. -/
def writeReg (s : State) (a v : Word) : WriteResult :=
  match placeOf a with
  | some p => writePlace s p v
  | none => (s, stBadAddr)

/-- REG_WRITE_MULTI: pairs in order up to the first that is not OK; how many were applied, and the status (R320). -/
def writePairs (s : State) : List (Word × Word) → Nat → State × Nat × Byte
  | [], n => (s, n, stOk)
  | p :: r, n =>
    let w := writeReg s p.1 p.2
    if w.2 = stOk then writePairs w.1 r (n + 1) else (w.1, n, w.2)

end Sys2Proof.Machine
end

