-- ==== Sys2Proof/Machine/SavedConfig.lean ====
section
/-! DEFINITION. The saved configuration: the RW registers of the SYS, CH, LEG, MEAS, LINK, CAN and THERM blocks and the
coefficients, as CFG_SAVE writes them and BOOT loads them (R189, R216, R317). -/
namespace Sys2Proof.Machine

/-- The offsets of the RW registers in a CH block; CHn_COEF stands in the coefficients. -/
def chSaved : List Nat :=
  [0x000, 0x004, 0x008, 0x014, 0x01C, 0x020, 0x100, 0x104, 0x108, 0x10C, 0x110, 0x114, 0x128, 0x12C, 0x130, 0x138,
   0x140, 0x144, 0x148, 0x14C, 0x150, 0x154, 0x158, 0x15C, 0x180, 0x19C, 0x1A4]

/-- The addresses of the RW registers of channel c in the CH and MEAS blocks. -/
def chanSaved (c : Nat) : List Nat :=
  (chSaved.map fun o => 0x10000 + 0x400 * c + o) ++ [0x0, 0x4, 0x8, 0xC].map fun o => 0x30100 + 0x40 * c + o

/-- The addresses of the RW registers of leg l. -/
def legSaved (l : Nat) : List Nat :=
  ([0x00, 0x04, 0x08, 0x0C, 0x10] ++ if l % 8 = 0 then [0x14] else []).map (fun o => 0x40000 + 0x100 * l + o)
    ++ [0x30500 + 4 * l]

/-- The addresses of the saved registers; CAN_CTL comes last, so that the controller starts with its configuration. -/
def savedAddresses : List Nat :=
  [0x01C, 0x100, 0x140, 0x150, 0x1A4] ++ (List.range 16).flatMap chanSaved ++ (List.range 32).flatMap legSaved
    ++ [0x30004, 0x30018] ++ ((List.range 4).map fun g => 0x30580 + 4 * g)
    ++ [0x04, 0x08, 0x0C, 0x10, 0x14, 0x18, 0x1C, 0x20].map (fun o => 0x50000 + o)
    ++ [0x90000, 0x90010] ++ ((List.range 8).map fun k => 0x90020 + 4 * k)
    ++ [0x70004, 0x70008, 0x7000C, 0x70034, 0x70040]
    ++ ((List.range 64).flatMap fun k => [0x70100 + 8 * k, 0x70104 + 8 * k]) ++ [0x70000]

/-- The value of a saved register: its RW fields, without SYS_HCFG.QUAD (R290). -/
def savedValue (s : State) (a : Nat) : Word :=
  match readReg s (BitVec.ofNat 32 a) with
  | some r => if a = 0x140 then r.1 &&& 0x1FFFF else if a = 0x150 then r.1 &&& 0x2 else r.1
  | none => 0

/-- The configuration that CFG_SAVE writes. -/
def takeConfig (s : State) : SavedCfg :=
  { regs := savedAddresses.map fun a => (BitVec.ofNat 32 a, savedValue s a)
    coefs := channels.map fun c => (s.ch[c]).coef.toList
    code := s.link.code }

/-- The CRC-32C of a saved copy (R317). -/
def SavedCfg.crc (c : SavedCfg) : Word := Config.configCrc (c.regs.map (·.2) ++ c.coefs.flatten)

/-- Load one register; all are as they left the reset, and the values passed their checks when they were written. The
registers whose write depends on others, or is staged, are set directly; CHn_LOGACK is set by BOOT itself (R187). -/
def loadRegister (s : State) (a : Nat) (v : Word) : State :=
  match placeOf (BitVec.ofNat 32 a) with
  | some (.ch c 0x000) =>
    let s := s.updCh c fun ch => { ch with cfg := v &&& 0x7 }
    if c.val % 4 = 0 then s.updGrp (groupOf c) fun g => { g with gang := BitVec.ofNat 3 (bits v 4 3) } else s
  | some (.ch c 0x180) =>
    s.updCh c fun ch =>
      { ch with progReg := v &&& 0x7F011F, prog := { ch.prog with pstate := if v.getLsbD 8 then .ready else .unbound } }
  | some (.ch _ 0x1A4) => s
  | some (.can 0x04) => s.updCan fun x => { x with nbt := v &&& 0xFE1FFF7F }
  | some (.can 0x08) => s.updCan fun x => { x with dbt := v &&& 0x0F1F1F0F }
  | some p => (writePlace s p v).1
  | none => s

/-- Load the saved configuration at step 9 of BOOT; LINK_SRCLIM only where the source code is the saved one (R189). -/
def loadConfig (s : State) (x : SavedCfg) : State :=
  let lim := s.link.reg.srclim
  let m := s.sys.mode
  let t := x.regs.foldl (fun s p => loadRegister s p.1.toNat p.2) { s with sys := { s.sys with mode := .configure } }
  let t := { t with sys := { t.sys with mode := m } }
  let t := if x.code = s.link.code then t else t.updLinkReg fun r => { r with srclim := lim }
  { t with ch := vmapI t.ch fun c ch =>
      match x.coefs[c.val]? with
      | some l => { ch with coef := Vector.ofFn fun i => l.getD i.val coefReset[i] }
      | none => ch }

/-- Loaded values are in force when BOOT ends. -/
def settleConfig (s : State) : State :=
  { s with
    sys := { s.sys with foutF := s.sys.fout, lwake := s.sys.bootcfg.getLsbD 1 }
    ch := vmap s.ch fun ch =>
      { ch with fswF := ch.fsw, limitF := ch.limit, stoprF := ch.stopr, mcfgF := ch.mcfg, tcF := ch.tc,
                logF := ch.logReg.getLsbD 0 }
    leg := vmap s.leg fun l => { l with drvF := l.drv }
    therm := { s.therm with cfgF := s.therm.cfg, thcfgF := s.therm.thcfg, auxcfgF := s.therm.auxcfg }
    link := { s.link with act := s.link.reg } }

end Sys2Proof.Machine
end

