-- ==== Sys2Proof/Machine/BootOps.lean ====
section
/-! DEFINITION. Starting and ending BOOT: what a reset keeps, the steps of the boot sequence, halted BOOT, and leaving
BOOT (R5, R6, R44, R187, R201, R207, R214 to R222, R251, R285, R361, R390, R393, R399). -/
namespace Sys2Proof.Machine

/-! ### Starting BOOT (R5, R6, R44, R153, R187, R223, R382) -/

/-- What a channel keeps: accumulators, log and run numbers, which a power-on reset clears. A disconnect that is still
closed opens by a forced opening, which goes on into BOOT (R68). -/
def keptChan (por : Bool) (ch : Chan) : Chan :=
  if por then Chan.reset
  else { Chan.reset with q := ch.q, e := ch.e, qC := ch.qC, eC := ch.eC, logSeq := ch.logSeq, rseq := ch.rseq,
                         dsw := ch.dsw, opening := ch.forceOpen.opening }

/-- What an engine keeps: its counters of mismatches and castlings. -/
def keptCe (por : Bool) (k : Fin 5) (c : Ce) : Ce :=
  if por then Ce.reset k else { Ce.reset k with mism := c.mism, cin := c.cin, cout := c.cout }

/-- What the safety island keeps: the configuration in force, lockouts, pin levels, the state of its oscillator, the
count of values drawn, the tests of the comparators that have passed since their trips (R249), and the faults that clear
only once its inputs show what ends them (R233, R243); every output is off. -/
def keptSafety (por zero : Bool) (x : Safety) : Safety :=
  { Safety.reset with
    act := if por then SafeCfg.reset else x.act, sess := if por then SafeCfg.reset else x.act, draws := x.draws
    fails := if por then Safety.reset.fails else x.fails, locked := if por then 0 else x.locked
    lockAt := if zero then Safety.reset.lockAt else x.lockAt
    raw := x.raw, filt := x.filt, sofb := x.sofb, rcf := !por && x.rcf, soSwitch := if por then 0 else x.soSwitch
    diagRun := if por then 0 else x.diagRun
    disc := if por then 0 else x.disc, bothLow := if por then 0 else x.bothLow
    sofbF := if por then 0 else x.sofbF &&& ~~~x.sofb }

/-- What a die sensor keeps: the extremes since its last counted cycle (R405). -/
def keptDie (por : Bool) (d : Die) : Die :=
  if por then Die.reset else { Die.reset with cycLow := d.cycLow, cycHigh := d.cycHigh }

/-- LATPOR of the safety configuration that NVM holds (R244). -/
def latPor (n : Nvm) : Bool := (n.safe.getD SafeCfg.reset).gcfg.getLsbD 0

/-- NVM after a power-on reset: the lifetime counters as last written (R405), and with LATPOR at 0 no SAFE latch (R244).
-/
def keptNvm (por : Bool) (n : Nvm) : Nvm := if por then { n with life := n.lifeNvm, latCopy := n.latCopy && latPor n } else n

/-- The sticky records after a reset. A power-on reset clears the counts, latches and marks that last until then, and
the SAFE latch unless LATPOR has stored it (R6, R44, R153, R244, R249, R335); what a chapter keeps in the sticky
records for the next BOOT stands: STUCK and WSRC, a halt without the host port, and what a test in SERVICE has found
(R217, R222, R227, R392, R401). The mark of a failed route, whose life R15 leaves open, stands until the next power-on
reset. DESIGN CHOICE, log entry 181. -/
def keptSticky (por : Bool) (latched : Bool) (k : Sticky) : Sticky :=
  if por then
    { Sticky.reset with
      safeLatch := latched, stuck := k.stuck, stuckTold := k.stuckTold, wsrc := k.wsrc, haltKept := k.haltKept
      bistRows := k.bistRows, bistResult := k.bistResult }
  else k

/-- What the memory island keeps: the yearly refresh, the rows repaired at run time that the fuse map does not hold,
which the next BOOT counts among its own, and the corrections of the last 24 h (R364, R367; log entry 222); over a
soft reset also an operation that R462 lets run on. -/
def keptMem (cause : BootCause) (s : State) : MemIsl :=
  let x := s.isl
  let zero := cause == .powerOn || cause == .pin
  let x' := { MemIsl.reset with
    refreshing := x.refreshing, pagen := x.pagen, pageOp := x.pageOp, pageBad := x.pageBad
    pageAt := if zero then 0 else x.pageAt
    nvmOp := if cause == .soft && storeBusy s then x.nvmOp else .none }
  if cause == .powerOn then x'
  else
    { x' with rows := ((softRepairs s).filter (·.run)).map fun r => { r with run := false }
              rowCorr := if cause == .pin then x.rowCorr.map fun r => (r.1, r.2 - s.sys.tbase) else x.rowCorr }

/-- The device-wide registers: TBASE starts at 0 at power-on and pin reset (R32). -/
def keptSys (cause : BootCause) (step : Nat) (y : Sys) : Sys :=
  let zero := cause == .powerOn || cause == .pin
  { Sys.reset with
    tbase := if zero then 0 else y.tbase, tbaseFrac := if zero then 0 else y.tbaseFrac
    prev := if cause == .powerOn then .boot else y.mode, cause := cause, bootStep := step, rstLow := y.rstLow
    wakeHigh := y.wakeHigh, freeDraws := y.freeDraws }

/-- BOOT starts at a step: everything that is not kept has its reset value (R5, R6, R361, R382). -/
def restart (s : State) (cause : BootCause) (step : Nat) : State :=
  let por := cause == .powerOn
  { State.reset with
    sys := keptSys cause step s.sys
    ch := vmap s.ch (keptChan por)
    grp := vmapI s.grp fun g x => if por then Group.reset g else { Group.reset g with stale := x.stale }
    ce := vmapI s.ce (keptCe por)
    port := { HostPort.reset with vio := s.port.vio }
    sticky := keptSticky por (s.nvm.latCopy && latPor s.nvm) s.sticky
    nvm := keptNvm por s.nvm
    safe := keptSafety por (cause == .powerOn || cause == .pin) s.safe
    therm := { Thermal.reset with die := vmap s.therm.die (keptDie por) }
    link := { Link.reset with code := s.link.code, ohm := s.link.ohm, bken := s.link.bken
                              bkok := s.link.bkok, srcok := s.link.srcok }
    meas := { Meas.reset with excluded := if por then 0 else s.meas.excluded }
    isl := keptMem cause s
    aux := if por then Aux.reset else { s.aux with cfg := Aux.reset.cfg }
    pending := s.pending }

/-- NONCE of a BOOT is drawn (R304). -/
def drawNonce (s : State) : State :=
  let d := drawEntropy s
  { d.2 with port := { d.2.port with nonce := d.1.truncate 64 } }

/-- A reset of the device: an open session closes with reason 4, or a pin reset has closed it, and its event becomes
visible after the BOOT (R261). A soft reset ends none of the operations of R462. -/
def bootFrom (s : State) (cause : BootCause) (step : Nat) : State :=
  let slot := if s.safe.sessOpen then some s.safe.slot else s.sys.closed
  let s := if cause == .soft && storeBusy s then s else cutStore s
  let t := restart (closeSession s 4) cause step
  drawNonce (match slot with
    | some m => queueEvent t 0x060A (p1 m.val ++ p1 4)
    | none => t)

/-- Steps 2 and 3 of BOOT: the source resistor is read, and BOOT waits at step 4 for the aux converter. -/
def bootWith (s : State) (cause : BootCause) (ohm : Nat) : State := readSrcid (bootFrom s cause 4) ohm

/-- A soft reset starts BOOT; the resistor at SRCID is the one last read. -/
def softBoot (s : State) : State :=
  let t := bootWith s .soft s.link.ohm
  { t with sticky := { t.sticky with softn := satInc 8 t.sticky.softn } }

/-- A wake starts BOOT at step 3, with its source (R225, R226). -/
def wakeBoot (s : State) (source ohm : Nat) : State :=
  let t := bootWith (lapse s) (if s.sys.phase = .park then .wakePark else .wakeDormant) ohm
  { t with sticky := { t.sticky with wsrc := source } }

/-- Test access begins: everything off, the islands in test mode, and the TAP leaves its reset state with IDCODE
selected (R403, R404). -/
def enterTestAccess (s : State) : State :=
  let s := holdIslands s .testAccess
  { s with sys := { s.sys with due := .none }, tap := { held := false, ir := 0x02 } }

/-- What was due after a reply happens (R220, R223, R306, R401, R403). -/
def settleDue (s : State) : State :=
  match s.sys.due with
  | .none => s
  | .soft => softBoot s
  | .wake => wakeBoot s 2 s.link.ohm
  | .park =>
    { s with
      sys := { s.sys with due := .none, phase := .park, srcRise := false }
      port := { HostPort.reset with vio := s.port.vio } }
  | .scan => enterTestAccess s
  | .test k =>
    { s with sys := { s.sys with due := .none }
             isl := { s.isl with serviceTest := some k.val, running := putBit s.isl.running k.val true } }

/-! ### The steps of BOOT (R214) -/

/-- BOOT can end: the aux converter has started (step 4). -/
def bootRuns (s : State) : Bool := s.sys.phase == .booting && decide (4 ≤ s.sys.bootStep) && auxRuns s

/-- Step 6: the safety configuration is loaded; where both copies fail, the reset values hold and a CFG demand stands.
-/
def loadSafety (s : State) (ok : Bool) : State :=
  match ok, s.nvm.safe with
  | true, some c => { s with safe := { s.safe with act := c, sess := c, cfgBad := false } }
  | _, _ =>
    logChange { s with safe := { s.safe with act := SafeCfg.reset, sess := SafeCfg.reset, cfgBad := true } } 0xFF 7 0 0 0 0

/-- One step of BOOT passes with nothing to report: VGD is in regulation at step 5, the safety configuration is loaded
at step 6, and the host port is ready at step 9. -/
def bootAdvance (s : State) : State :=
  if bootRuns s && decide (s.sys.bootStep < 12) then
    let s := { s with sys := { s.sys with bootStep := s.sys.bootStep + 1 }
                      aux := if s.sys.bootStep = 4 then { s.aux with state := 2 } else s.aux }
    if s.sys.bootStep = 6 ∧ s.nvm.safe.isSome then loadSafety s true else s
  else s

/-- A row is served by a spare row that has passed. -/
def rowServed (s : State) (row : Nat) : Bool :=
  (inForce s.isl.rows).any fun x => x.row == row && !s.isl.badSp.contains x.spare

/-- A row that fails the memory BIST and that no good spare row serves is mapped onto a free spare row; whether one
was left for every such row so far (R390). -/
def repairRow (a : State × Bool) (row : Nat) : State × Bool :=
  let s := a.1
  if rowServed s row then a
  else
    match freeSpare s with
    | none => (s, false)
    | some k =>
      (queueEvent { s with isl := { s.isl with
          rows := s.isl.rows ++ [{ row := row, spare := k, fused := false, run := false }] } }
        0x0908 (p4 k), a.2)

/-- The repairs that the fuse map gives: its entries whose check is right (R391). -/
def fusedRows (n : Nvm) : List RowFix :=
  (n.fuses.filter (·.2.2)).map fun f => { row := f.1, spare := f.2.1, fused := true, run := false }

/-- Step 8: fused repairs and those kept since run time, rows kept from the extended BIST, rows whose spare row fails,
then the rows that fail; whether the SRAM could be repaired (R364, R390, R391, R392). -/
def repairSram (s : State) (rows spares : List Nat) : State × Bool :=
  let s := { s with isl := { s.isl with rows := fusedRows s.nvm ++ s.isl.rows, badSp := spares } }
  let lost := ((inForce s.isl.rows).filter fun x => spares.contains x.spare).map (·.row)
  let a := (s.sticky.bistRows ++ lost ++ rows).foldl repairRow (s, true)
  ({ a.1 with sticky := { a.1.sticky with bistRows := [] } }, a.2)

/-- A test record of BOOT: RUNS counts from 0 when the device leaves BOOT (R388, R408). -/
def bootRecord (s : State) (k : Fin 6) (arg result applied expected : Nat) : State :=
  { s with isl := { s.isl with
      tests := s.isl.tests.set k.val
        { runs := 0, arg := arg, result := result, applied := applied, expected := expected, tbase := s.sys.tbase } k.isLt } }

/-- The operations of the standard memory BIST and of the extended one. -/
def marchOps (extended : Bool) : Nat := if extended then 8519680 else 5324800

/-- A run of step 8 or 10 is recorded with ARG 0, unless a result of SERVICE is kept; TEST_DONE tells a result other
than PASS (R388, R401). -/
def bootTest (s : State) (k : Fin 6) (pass : Bool) (expected : Nat) : State :=
  let s := if s.sticky.bistResult.isSome then s else bootRecord s k 0 (if pass then 1 else 2) expected expected
  if pass then s else testDone s k 2

/-- Step 10: engines that fail logic BIST are retired, and those that remain own the groups in order; the run of each
that passes qualifies it (R214, R393, R395). -/
def assignEngines (s : State) (fail : BitVec 5) : State :=
  let new := fail &&& ~~~s.nvm.ceRetired
  let gone := s.nvm.ceRetired ||| fail
  let s := (bitList new).foldl (fun s k => queueEvent s 0x0123 (p1 k.val)) s
  let left := (List.finRange 5).filter fun k => !gone.getLsbD k.val
  { s with
    nvm := { s.nvm with ceRetired := gone }
    sys := { s.sys with cefail := fail != 0, castleStop := gone != 0 }
    grp := vmapI s.grp fun g x => { x with owner := left[g.val]? }
    ce := vmapI s.ce fun k c =>
      match left.findIdx? (· == k) with
      | none => { c with role := .retired, qualified := false, bist := 2 }
      | some i =>
        if h : i < 4 then { c with role := .owner, group := ⟨i, h⟩, qualified := true, bist := 1 }
        else { c with role := .spare, group := 0, qualified := true, bist := 1 } }

/-- The lowest spare lane that serves no position. -/
def nextLane (s : State) : Option (Fin 4) := (List.finRange 4).find? fun j => (s.meas.lanes[j]).st == 0

/-- A converter retired before is served by a spare lane again; whether every one so far could be. -/
def serveRetired (a : State × Bool) (q : Fin 32) : State × Bool :=
  match nextLane a.1 with
  | none => (a.1, false)
  | some j => (setLane a.1 j { st := 2, pos := q }, a.2)

/-- A converter found outside its limits is retired, and replaced where a lane is free. -/
def replaceConverter (a : State × Bool) (q : Fin 32) : State × Bool :=
  match nextLane a.1 with
  | none => ({ a.1 with nvm := { a.1.nvm with convRetired := putBit a.1.nvm.convRetired q.val true } }, false)
  | some j => (retirePosition a.1 q j 3, a.2)

/-- The kind that a unit calibrates at BOOT: a converter its own, a spare lane that of VM. DEDUCED, log entry 188. -/
def bootKind (s : State) (u : Fin 36) : Fin 4 := if h : u.val < 32 then coefKind s ⟨u.val, h⟩ else 0

/-- The boot calibration of a unit with the absolute limits of R141; its coefficients, or none outside them (R147). No
coefficients of a calibration before the BOOT are kept, so that no change is limited. DESIGN CHOICE, log entry 216. -/
def bootCoef (s : State) (u : Fin 36) (p : CalPoints) : Option (Vector Coef 4) :=
  let kind := bootKind s u
  let c := fitCoef kind p.y0 p.y1 p.y2
  let row := s.meas.coef[u]
  let others := (otherKinds kind).zip [p.gB, p.gC]
  if c.inLimits && others.all (fun x => decide (x.2.natAbs ≤ 5000000)) then
    some (others.foldl (fun r x => vmod r x.1 fun y => y.withGain x.2) (vmod row kind fun _ => c))
  else none

/-- The units whose boot calibration lies outside the limits, and the coefficients of the others. -/
def bootUnit (cal : Vector CalPoints 36) (a : State × BitVec 36) (u : Fin 36) : State × BitVec 36 :=
  match bootCoef a.1 u cal[u] with
  | some r => (setCoef a.1 u r, a.2)
  | none => (a.1, putBit a.2 u.val true)

/-- The lanes as NVM records their retirements. -/
def recordedLanes (s : State) : State :=
  { s with meas := { s.meas with lanes := vmapI s.meas.lanes fun j _ =>
    { st := if s.nvm.laneRetired.getLsbD j.val then 3 else 0, pos := 0 } } }

/-- The retirements that NVM records are restored: lanes, and converters that a lane serves (R159). -/
def restoreLanes (s : State) : State := ((bitList s.nvm.convRetired).foldl serveRetired (recordedLanes s, true)).1

/-- Step 11: the injection DAC is measured, and the 36 lanes calibrate with a reference check; retirements that NVM
records, then those of the calibration; whether every converter can be served (R144, R147, R159, R397). -/
def calibrateLanes (b : BootInput) (s : State) : State × Bool :=
  let s := { s with isl := { s.isl with dacf := decide (20 < b.dacDev) } }
  let c := (List.finRange 36).foldl (bootUnit b.cal) (s, 0)
  let s := refCheck { c.1 with meas := { c.1.meas with refInit := true } } b.refAb b.refX
  let gone := s.nvm.laneRetired
  let s := recordedLanes s
  let lanes := (List.finRange 4).filter fun j => c.2.getLsbD (32 + j.val) && !gone.getLsbD j.val
  let old := s.nvm.convRetired
  let a := (bitList old).foldl serveRetired (lanes.foldl (fun s j => retireLane s j 3) s, true)
  let conv := (List.finRange 32).filter fun q => c.2.getLsbD q.val && !old.getLsbD q.val
  let a := conv.foldl replaceConverter a
  (if a.1.meas.hold = 3 then a.1 else checkSpares a.1, a.2)

/-- Step 12: legs that fail a check are parked until the next BOOT; a gate-disable line that fails parks the legs of its
group and raises a demand (R251, R399). -/
def checkLegs (s : State) (legs : BitVec 32) (lines : BitVec 4) : State :=
  let bad (l : Fin 32) : Bool := legs.getLsbD l.val || lines.getLsbD (groupOfLeg l).val
  { s with
    isl := { s.isl with legF := maskOf 32 bad }
    leg := vmapI s.leg fun l x => { x with park := { x.park with test := bad l } }
    grp := vmapI s.grp fun g x => { x with gdisFault := lines.getLsbD g.val }
    safe := { s.safe with gdis := lines != 0 } }

/-! ### Leaving BOOT (R207, R215) -/

/-- Every ring is emptied and marked with a PROG record of kind 7; CHn_LOGACK is set to NEXT (R187). -/
def markRing (s : State) (c : Fin 16) : State :=
  let s := s.updCh c fun ch =>
    { ch with ring := [], logAck := ch.logSeq, logBoot := ch.logSeq, drop := 0, lost := 0, nearFull := false }
  writeRecord s { tbase := none, ch := c, type := 0x0A, rflags := 0, payload := progPayload s.ch[c] 7 0, epoch := 0 }

/-- The link state is set from its inputs (R201). -/
def setLink (s : State) : State :=
  let st : LinkSt := if s.link.srcok then .source else if s.link.bkok then .backup else .lost
  { s with link := { s.link with st := st, bken := st == .backup, bkf := false } }

/-- What counts from 0 each time the device leaves BOOT (R75, R81, R309, R336, R359, R385, R386, R288 and CEk_BTIME). -/
def zeroCounts (s : State) : State :=
  { s with
    ch := vmap s.ch fun ch => { ch with foldN := 0, burstN := 0, userSeq := 0 }
    leg := vmap s.leg fun l => { l with scn := 0, cmpn := 0, ilk := 0 }
    ce := vmap s.ce fun c => { c with btimeNs := 0 }
    port := { s.port with authf := 0, crce := 0, badfr := 0, drop := 0, replayN := 0 }
    evq := { s.evq with lostTotal := 0 }
    therm := { s.therm with stopn := 0, thrn := 0, warnn := 0 }
    can := { s.can with boffn := 0, passn := 0, brepl := 0, rtrn := 0 }
    dma := vmap s.dma fun d => { d with donen := 0, badn := 0, skip := 0 }
    isl := { s.isl with corr := 0, uncorr := 0, passn := 0, tests := vmap s.isl.tests fun r => { r with runs := 0 } } }

/-- A channel as the device leaves BOOT: its forced opening has long ended (R68, R214). -/
def Chan.opened (ch : Chan) : Chan := { ch with dsw := false, opening := .none }

/-- Steps 1 to 3 of R215: the epoch generator starts with epoch 0 and tags of generation 0, the rings are marked, and
the link state is set; a rack-bus controller that the loaded configuration holds on is enabled (R358). -/
def startEpochs (s : State) : State :=
  let s := { s with sys := { s.sys with epoch := 0, running := true, phase := .running, bootStep := 13 }
                    meas := { s.meas with rotAt := s.sys.tbase, legSlotAt := s.sys.tbase }
                    isl := { s.isl with running := putBit (putBit s.isl.running 3 true) 4 true, scrubLeft := scrubCost s }
                    ch := vmap s.ch Chan.opened }
  let s := setLink (channels.foldl markRing (zeroCounts s))
  if canOn s then canStart s else s

/-- The demands that are active when BOOT ends act, in the order of their cause bits (R207 row 4, R251). -/
def bootDemands (s : State) : State :=
  let before := s
  let s := (List.finRange 4).foldl (fun s i =>
    if inputDemands before i then demand s i.val (bits before.safe.act.incfg[i] 2 2) else s) s
  let s := if before.safe.disc != 0 then demand s 4 0 else s
  let s := if before.safe.sofbF != 0 then demand s 6 0 else s
  let s := if before.safe.refl then demand s 7 0 else s
  let s := if before.safe.rcf then demand s 8 0 else s
  let s := if before.safe.cfgBad then demand s 9 0 else s
  if before.safe.gdis then demand s 10 0 else s

/-- The mode that rows 2 and 3 of R207 give. -/
def naturalMode (s : State) : Mode := if s.sys.cfgdef || !s.sys.bootcfg.getLsbD 0 then .configure else .idle

/-- The mode is entered under rows 2 to 4 of R207; a latch restored is a cause of its own (R263). -/
def enterFromBoot (s : State) : State :=
  let m := naturalMode s
  let latch := s.sticky.safeLatch
  let s := bootDemands { s with sys := { s.sys with mode := m } }
  let s := if s.sys.mode ≠ .safe ∧ latch then
      { s with sys := { s.sys with mode := .safe, safeFrom := m }, safe := { s.safe with cause := 0, cat := 3 } }
    else s
  let s := if latch then { s with safe := { s.safe with cause := putBit s.safe.cause 11 true } } else s
  refreshOutputs { s with sys := { s.sys with prev := .boot } }

/-- The events of the sticky records that are the first ones after a reset (R217, R222): RST_STUCK and a halt kept. -/
def stickyEvents (s : State) : List EvDraft :=
  (if s.sticky.stuck && !s.sticky.stuckTold then [{ code := 0x0145, payload := [] }] else [])
    ++ (if s.sticky.haltKept ≠ 0 then [{ code := 0x0141, payload := p1 s.sticky.haltKept }] else [])

/-- The events of the stop record, the thermal latch, a kept self-test and a book commit that a reset has ended,
queued with the boot events (R162, R281, R401, R421). -/
def keptEvents (s : State) : List EvDraft :=
  (if s.nvm.stopValid && !s.nvm.stopTold then
    [if s.nvm.stopKind = 1 then { code := 0x0B02, payload := p4 s.nvm.stopVgd } else { code := 0x0B03, payload := [] }]
   else [])
    ++ (if s.nvm.thLatched && !s.nvm.thTold then [{ code := 0x0704, payload := p1 s.nvm.thSensor.val }] else [])
    ++ (match s.sticky.bistResult with
      | some r => [{ code := 0x0A01, payload := p1 r.1 ++ p1 r.2.1 }]
      | none => [])
    ++ (match s.nvm.bookCut with
      | some k => [{ code := 0x0131, payload := p1 k.val ++ p4 s.nvm.version[k] }]
      | none => [])

/-- The kept records have been reported; a kept self-test stands in TEST_RESk with ARG 1 (R401). -/
def recordsTold (s : State) : State :=
  let s := match s.sticky.bistResult with
    | some r => bootRecord s (if r.1 = 0 then 0 else 2) 1 r.2.1 r.2.2 (if r.1 = 0 then marchOps true else bistPatterns)
    | none => s
  { s with
    sticky := { s.sticky with stuckTold := s.sticky.stuckTold || s.sticky.stuck, haltKept := 0, bistResult := none }
    nvm := { s.nvm with stopTold := true, thTold := true, bookCut := none } }

/-- The events that come first in the queue after a reset. -/
def firstEvents (s : State) (own : List EvDraft) : State :=
  let l := stickyEvents s ++ own ++ keptEvents s
  recordsTold { s with evq := { s.evq with bootPend := l ++ s.evq.bootPend } }

/-- Step 9: a page operation that was cut is completed, and the configuration is loaded, or CFG_DEFAULT tells why not:
0 absent, 1 CRC failed (R216, R368). -/
def bootConfig (s : State) (crcOk : Bool) : State × List EvDraft :=
  let s := completePage s
  match s.nvm.config with
  | some x =>
    if crcOk then (loadConfig s x, [])
    else ({ s with sys := { s.sys with cfgdef := true } }, [{ code := 0x0146, payload := p1 1 }])
  | none => ({ s with sys := { s.sys with cfgdef := true } }, [{ code := 0x0146, payload := p1 0 }])

/-- BOOT halts with a code (R217), with events of its own: with code 4 the host port does not run, and the reason is
kept. A run of step 8 or 10 that halts is recorded also where a result of SERVICE is kept (R401). -/
def haltAt (code : Nat) (own : List EvDraft) (s : State) : State :=
  if code = 4 then
    { s with sys := { s.sys with phase := .halted, hcode := 4 }, sticky := { s.sticky with haltKept := 4 } }
  else
    let s := if code = 1 then testDone s 0 2 else if code = 3 then testDone s 2 2 else s
    let s := firstEvents s (own ++ [{ code := 0x0141, payload := p1 code }])
    let s := if code = 1 then bootRecord s 0 0 2 (marchOps false) (marchOps false)
      else if code = 3 then bootRecord s 2 0 2 bistPatterns bistPatterns else s
    let events := s.evq.bootPend
    let s := { s with sys := { s.sys with phase := .halted, hcode := code }, evq := { s.evq with bootPend := [] } }
    events.foldl commitEvent s

/-- What BOOT reads of its inputs: VGD regulates, the stop inputs with what they show of a latched discrepancy (R233),
and the levels of SRCOK and BKOK. -/
def bootInputs (b : BootInput) (s : State) : State :=
  let s := { s with
    aux := { s.aux with state := 2 }
    safe := { s.safe with raw := b.inputs, filt := b.inputs }
    link := { s.link with srcok := b.srcok, bkok := b.bkok } }
  (List.finRange 4).foldl discProgress s

/-- What BOOT finds in steps 6 to 12 is applied, up to the halt that it meets: the one given (0 for none), code 1
where the SRAM cannot be repaired, or 5 where a converter cannot be replaced; with the code and the events of step 9.
-/
def bootFindings (halt : Nat) (b : BootInput) (s : State) : State × Nat × List EvDraft :=
  let s := bootInputs b s
  if halt = 4 then (s, 4, [])
  else
    let m := repairSram (firstEvals (loadSafety s b.safeCrcOk)) b.badRows b.badSpares
    if halt = 1 ∨ m.2 = false then (m.1, 1, [])
    else
      let s := bootTest m.1 0 (b.badRows.isEmpty && b.badSpares.isEmpty) (marchOps false)
      if halt = 2 then (s, 2, [])
      else
        let c := bootConfig s b.cfgCrcOk
        let s := assignEngines (restoreLanes (settleConfig c.1)) b.ceFail
        if halt = 3 then (s, 3, c.2)
        else
          let k := calibrateLanes b (bootTest s 2 (b.ceFail == 0) bistPatterns)
          if halt = 5 ∨ k.2 = false then (k.1, 5, c.2) else (checkLegs k.1 b.legFail b.gdisFail, 0, c.2)

/-- BOOT halts of itself, with what it has found up to there. -/
def bootHalts (code : Nat) (b : BootInput) (s : State) : State :=
  if bootRuns s = false ∨ code = 0 then s
  else
    let f := bootFindings code b (advanceTime (b.ms * 1000000) s)
    haltAt f.2.1 f.2.2 f.1

/-- BOOT ends (R214 step 13, R215). -/
def bootEnds (b : BootInput) (s : State) : State :=
  if bootRuns s = false then s
  else
    let f := bootFindings 0 b (advanceTime (b.ms * 1000000) s)
    if f.2.1 ≠ 0 then haltAt f.2.1 f.2.2 f.1
    else
      let s := { f.1 with sys := { f.1.sys with tboot := b.ms } }
      let waiting := s.evq.bootPend
      let s := enterFromBoot (startEpochs { s with evq := { s.evq with bootPend := [] } })
      let s := { s with evq := { s.evq with bootPend := waiting } }
      let report := p1 s.sys.cause.code ++ p1 s.sys.mode.code ++ p4 b.ms
      takeSnap (firstEvents s (f.2.2 ++ [{ code := 0x0140, payload := report }]))

/-! ### Resets (R221, R222) -/

/-- RST_N is heeded: powered, not stopped, shutting down or in test access. -/
def resetHeeded (s : State) : Bool :=
  match s.sys.phase with
  | .unpowered | .stopped | .shutdown | .testAccess => false
  | _ => true

/-- RST_N has been low for 2 us (R221): everything off, every island but the always-on island held in reset. -/
def pinResets (s : State) : State :=
  let s := settleDue s
  let s := { s with sys := { s.sys with rstLow := true } }
  if !resetHeeded s || s.sys.phase == .resetHeld || (s.sys.phase == .booting && s.sys.bootStep == 2) then s
  else
    let open' := s.safe.sessOpen
    let slot := s.safe.slot
    let s := holdIslands (closeSession s 4) .resetHeld
    { s with
      sys := { s.sys with closed := if open' then some slot else s.sys.closed }
      aux := s.aux.stop
      sticky := { s.sticky with pinn := satInc 8 s.sticky.pinn } }

/-- RST_N has been high for 2 us: BOOT starts with cause pin reset, or a BOOT that waits at step 2 goes on. -/
def resetReleased (ohm : Nat) (s : State) : State :=
  let s := { s with sys := { s.sys with rstLow := false } }
  match s.sys.phase with
  | .resetHeld => bootWith s .pin ohm
  | .booting =>
    if s.sys.bootStep = 2 then readSrcid (drawNonce { s with sys := { s.sys with bootStep := 4 } }) ohm else s
  | _ => s

/-- RST_N has been low for 2 s (R222). -/
def resetStuck (s : State) : State :=
  if s.sys.rstLow && (s.sys.phase == .resetHeld || (s.sys.phase == .booting && s.sys.bootStep == 2)) then
    { s with sticky := { s.sticky with stuck := true, stuckTold := false } }
  else s

/-- VAON rises above 2.7 V: BOOT starts at step 1; with RST_N low it waits at step 2 (R214, R222). -/
def powerOn (ohm : Nat) (s : State) : State :=
  let t := bootFrom s .powerOn 2
  if s.sys.rstLow then t else readSrcid { t with sys := { t.sys with bootStep := 4 } } ohm

/-! ### Wake (R225, R226) -/

/-- WAKE rises: it ends DORMANT or PARK, also once a committed entry into them has completed (R213), and is ignored in
every other mode. -/
def wakeRises (ohm : Nat) (s : State) : State :=
  let s := settleDue s
  let s := { s with sys := { s.sys with wakeHigh := true } }
  if s.sys.phase = .dormant ∨ s.sys.phase = .park then wakeBoot s 1 ohm
  else if s.sys.phase = .running ∧ dormantCommitted s then { s with sys := { s.sys with wakePend := some ohm } }
  else s

/-- A source that has risen since the entry into PARK and has stayed, with VLINK at VLOST or above, for TRET ends PARK
where LWAKE is 1 (R226). -/
def linkWakes (m : WakeSource) (s : State) : State :=
  let s := settleDue s
  if s.sys.phase = .park ∧ s.sys.lwake ∧ s.sys.srcRise ∧ s.sys.wakeVlost ≤ m.vlinkMv ∧ s.sys.wakeTret ≤ m.heldMs then
    wakeBoot s 3 m.srcidOhm
  else s

/-! ### Meanings -/

/-- POWER_ON_RESET. -/
def execPowerOnReset (srcidOhm : Nat) (s : State) : Host.Outcome State Fault Refusal := .next (powerOn srcidOhm s)

/-- AUX_SOFT_START. -/
def execAuxSoftStart (axinMv : Nat) (s : State) : Host.Outcome State Fault Refusal :=
  .next (softStart axinMv (settleDue s))

/-- BOOT_DONE. -/
def execBootDone (b : BootInput) (s : State) : Host.Outcome State Fault Refusal := .next (bootEnds b (settleDue s))

/-- BOOT_HALT. -/
def execBootHalt (stop : BootStop) (s : State) : Host.Outcome State Fault Refusal :=
  .next (bootHalts stop.code.val stop.found (settleDue s))

/-- PIN_RESET. -/
def execPinReset (s : State) : Host.Outcome State Fault Refusal := .next (pinResets s)

/-- RST_N_RELEASE. -/
def execRstNRelease (srcidOhm : Nat) (s : State) : Host.Outcome State Fault Refusal := .next (resetReleased srcidOhm s)

/-- RST_STUCK. -/
def execRstStuck (s : State) : Host.Outcome State Fault Refusal := .next (resetStuck s)

/-- WAKE. -/
def execWake (srcidOhm : Nat) (s : State) : Host.Outcome State Fault Refusal := .next (wakeRises srcidOhm s)

/-- LINK_WAKE. -/
def execLinkWake (m : WakeSource) (s : State) : Host.Outcome State Fault Refusal := .next (linkWakes m s)

end Sys2Proof.Machine
end

