-- ==== Sys2Proof/Machine/Engines.lean ====
section
/-! DEFINITION. Family engines, crossbar and islands: lockstep mismatches, PLL losses, castling, the spare's logic BIST,
crossbar transfers and current references (R14, R15, R18, R19, R31, R38 to R41, R119 to R122, R394, R395). -/
namespace Sys2Proof.Machine

/-- The epoch generator runs, so that engines and islands work. -/
def epochsRun (s : State) : Bool := s.sys.running && s.sys.phase == .running

/-! ### Faults of engines and islands -/

/-- The two cores of an engine diverge (R39, R120). -/
def lockstepMismatch (k : Fin 5) (s : State) : State :=
  if !epochsRun s || (s.ce[k]).role == .retired || islandDown s k.val then s
  else
    let s := s.updCe k fun c => { c with mism := satInc 8 c.mism }
    engineFails (abandonBist s k) k

/-- The island has a standby PLL: measurement, leg, sequencer and memory (table Islands). -/
def hasStandby (i : Fin 14) : Bool := i == 5 || i == 6 || i == 7 || i == 12

/-- The island has a PLL of its own: not the safety and the always-on island. -/
def hasPll (i : Fin 14) : Bool := i != 8 && i != 13

/-- An island PLL loses lock (R14, R39): standby PLL, restart from checkpoint, or castling. -/
def pllLost (i : Fin 14) (s : State) : State :=
  if !epochsRun s || !hasPll i || islandDown s i.val then s
  else if hasStandby i then queueEvent s 0x0104 (p1 i.val ++ p1 1)
  else
    let s := { s with sys := { s.sys with islDown := putBit s.sys.islDown i.val true } }
    if h : i.val < 5 then
      let k : Fin 5 := ⟨i.val, h⟩
      let owns := (s.ce[k]).role == .owner
      let s := queueEvent s 0x0104 (p1 i.val ++ p1 (if owns then 3 else 2))
      engineFails (abandonBist s k) k
    else queueEvent (if i = 10 then cutFrames s else s) 0x0104 (p1 i.val ++ p1 2)

/-- A DMA channel as its checkpoint holds it: the descriptor that was in progress starts again from its first byte,
and a shadow set taken since is valid again. -/
def Dma.reload (d : Dma) : Dma :=
  { d with adesc := d.ck.adesc, areq := d.ck.areq, arseq := d.ck.arseq, active := d.ck.active, shv := d.shv || d.ck.took
           desc := if d.ck.took || d.adesc != d.ck.adesc then none else d.desc, moved := 0, result := 0
           ck := { d.ck with took := false } }

/-- The DMA island restarts from its checkpoint (R383): channels, ARSEQ and the releases of receive FIFOs go back to
it; a shadow set that an idle channel had taken since is taken again. -/
def restartDma (s : State) : State :=
  (List.finRange 8).foldl takeShadow { s with
    dma := vmap s.dma Dma.reload
    can := { s.can with rxf := vmap s.can.rxf fun x =>
      { x with get := (x.get + 32 - x.dmaRel % 32) % 32, fill := min 32 (x.fill + x.dmaRel), dmaRel := 0 } } }

/-- An island has restarted from its checkpoint (R14, R39): a DMA descriptor in progress is fetched and run again. -/
def islandRestarted (i : Fin 14) (s : State) : State :=
  if islandDown s i.val then
    let s := { s with sys := { s.sys with islDown := putBit s.sys.islDown i.val false }
                      sticky := { s.sticky with islr := satInc 8 s.sticky.islr } }
    if i = 11 then restartDma s else s
  else s

/-- The checkpoint that a replay of an island starts from: that of an engine, or of the sequencer (R34). -/
def replayFrom (s : State) (i : Nat) : Option Nat :=
  if h : i < 5 then (s.ce[i]).lastCkpt.map (·.epoch) else some s.sys.islCkpt[0]

/-- The input log of an island is damaged in an epoch after its checkpoint, so that a replay cannot rebuild it (R35,
R362). -/
def logDamaged (s : State) (i : Nat) : Bool :=
  s.sys.inlog.any fun e =>
    e.damaged.getLsbD i &&
      match replayFrom s i with
      | some k => let n := (e.epoch + 2 ^ 32 - k) % 2 ^ 32; decide (0 < n ∧ n < 2 ^ 31)
      | none => true

/-- The spare has loaded the checkpoint and replayed the inputs: the castling is ready to commit (R120 step 4). Where
the input log of the former owner is damaged, its group holds (R41, R362). -/
def replayDone (g : Fin 4) (s : State) : State :=
  let t := s.updGrp g fun gr => { gr with castle := gr.castle.map fun x => { x with ready := true } }
  match (s.grp[g]).castle with
  | some x =>
    match x.fromCe with
    | some k => if !x.planned && logDamaged s k.val then holdGroup t g else t
    | none => t
  | none => t

/-- The sequencer diverges: checkpoint reload, and the coordinator commits nothing until it has recovered (R31, R38). A
divergence that meets another recovery, or a damaged input log, is a second fault (R41, R362). -/
def sequencerDiverges (s : State) : State :=
  if epochsRun s then
    let second := !(recoveringGroups s).isEmpty || logDamaged s 7
    let t := { s with sys := { s.sys with recovering := true }, sticky := { s.sticky with seqr := satInc 8 s.sticky.seqr } }
    if second then holdRecovering t else t
  else s

/-- The sequencer has replayed its inputs (R38). -/
def sequencerRecovered (epochs : Nat) (s : State) : State :=
  if s.sys.recovering then queueEvent { s with sys := { s.sys with recovering := false } } 0x0103 (p4 epochs) else s

/-! ### Planned castling (R121) -/

/-- CEk_BTIME: seconds since the last logic BIST pass. -/
def Ce.btime (c : Ce) : Nat := c.btimeNs / 1000000000

/-- The owner with the longest time since its last logic BIST pass, as CEk_BTIME gives it; the lowest index on ties. -/
def longestOwner (s : State) : Option (Fin 5) :=
  (List.finRange 5).foldl (fun b k =>
    if (s.ce[k]).role = .owner then
      match b with
      | none => some k
      | some j => if (s.ce[j]).btime < (s.ce[k]).btime then some k else b
    else b) none

/-- Planned castling may start: PEN, no retired engine, not in BOOT, SERVICE or DORMANT, the period over. -/
def castlingDue (s : State) : Bool :=
  s.sys.castlePen && !s.sys.castleStop && epochsRun s && s.sys.mode != .boot && s.sys.mode != .service
    && s.sys.mode != .dormant && decide (s.sys.castlePeriod.toNat * 1000000000 ≤ s.sys.castleNs)

/-- A planned castling is due: the group of the chosen engine passes to the spare; a checkpoint mismatch or a late ACK
aborts it. While a restart interval runs in the group, or the spare's BIST runs, it waits; so it does while the
spare's last result is not PASS, which the manual only makes a condition. DESIGN CHOICE, log entry 170. One out of turn
that waits takes its place (R287). -/
def plannedCastling (crcOk ackInTime : Bool) (s : State) : State :=
  if castlingDue s = false ∨ hotWaits s then s
  else
    match longestOwner s, receiver s with
    | some k, some r =>
      match ownedGroup s k with
      | none => s
      | some g =>
        if (s.grp[g]).restart ≠ none ∨ (s.ce[r]).role = .bist ∨ (s.ce[r]).bist ≠ 1
            ∨ (List.finRange 4).any (fun h => (s.grp[h]).castle != none) then s
        else
          let s := stageCastle s g (some k) r true true true 0
          if !crcOk then abortCastle s g 1 else if !ackInTime then abortCastle s g 2 else s
    | _, _ => s

/-! ### Logic BIST of the spare (R394, R395) -/

/-- A run of the spare's logic BIST is due: the engine became spare, or its last run ended 60 s ago (R394). -/
def bistDue (s : State) : Bool :=
  epochsRun s && (List.finRange 5).any fun k => (s.ce[k]).role == .spare && decide ((s.ce[k]).bistAt ≤ s.sys.tbase)

/-- What a run of the spare's logic BIST takes, in ns, at the throttle level of its engine; pauses are excluded
(R394). -/
def bistTime (s : State) (k : Fin 5) : Nat :=
  (if (s.therm.die[k.val]'(by omega)).level = 2 then 118000000 else 29500000) + 6000

/-- A run of the spare's logic BIST starts on the engine without a group. -/
def startBist (s : State) : State :=
  match (List.finRange 5).find? fun k => (s.ce[k]).role == .spare && !islandDown s k.val with
  | some k =>
    let s := s.updCe k fun c => { c with role := .bist }
    { s with isl := { s.isl with running := putBit s.isl.running 1 true, spareEnds := s.sys.tbase + bistTime s k } }
  | none => s

/-- The result of a logic BIST run: 1 PASS, 2 MISMATCH, 3 INCOMPLETE (R387, R394). -/
def bistResult (sigMatch stateOk : Bool) (patterns : Nat) : Nat :=
  if !stateOk then 2 else if patterns < bistPatterns then 3 else if sigMatch && patterns = bistPatterns then 1 else 2

/-- The logic BIST of a spare is paused while its zone is at throttle level 1 (R277). -/
def bistPaused (s : State) (k : Fin 5) : Bool := (s.therm.die[k.val]'(by omega)).level == 1

/-- A run of the spare's logic BIST ends (R388, R394, R395). -/
def bistDone (k : Fin 5) (sigMatch stateOk : Bool) (patterns : Nat) (s : State) : State :=
  if (s.ce[k]).role ≠ .bist ∨ bistPaused s k then s
  else
    let r := bistResult sigMatch stateOk patterns
    let was := (s.ce[k]).qualified
    let s := s.updCe k fun c =>
      { c with role := .spare, bist := r, qualified := c.qualified || r == 1,
               btimeNs := if r = 1 then 0 else c.btimeNs, bistAt := nextBist s (c.qualified || r == 1) r }
    let s := recordTest s 1 0 r patterns bistPatterns
    let asked := s.isl.spareTag
    let s := if r ≠ 1 ∨ asked ≠ none ∨ was = false then testDone s 1 r else s
    let s := match asked with
      | some t => reply { s with isl := { s.isl with spareTag := none } } t 0x90 stOk [BitVec.ofNat 8 r, 0, 0, 0]
      | none => s
    if r = 2 then retireCe s k else if r = 1 then adoptGroup s else s

/-! ### Crossbar (R15, R41) -/

/-- The plane that has failed on a route, if one has. -/
def failedPlane (s : State) (src dst : Fin 14) : Option Bool :=
  (s.sticky.routes.find? fun r => r.1 == src.val && r.2.1 == dst.val).map (·.2.2)

/-- The failing attempts at the head of a list of at most four. -/
def failedAttempts : List (List Byte × BitVec 16) → Nat
  | [] => 0
  | x :: r => if crc16 x.1 = x.2 then 0 else 1 + failedAttempts r

/-- The group that a route serves: that of an engine at one of its ends; all groups where neither end is an engine. -/
def routeGroups (s : State) (src dst : Fin 14) : List (Fin 4) :=
  let own (i : Fin 14) : List (Fin 4) :=
    if h : i.val < 5 then (match ownedGroup s ⟨i.val, h⟩ with | some g => [g] | none => []) else []
  if src.val < 5 ∨ dst.val < 5 then own src ++ own dst else List.finRange 4

/-- Both planes of a route have failed: the channels that it serves go to HOLD (R41). -/
def routeLost (s : State) (src dst : Fin 14) : State := (routeGroups s src dst).foldl holdGroup s

/-- A crossbar transfer with the attempts that were made (R15). -/
def crossbar (src dst : Fin 14) (planeB : Bool) (attempts : List (List Byte × BitVec 16)) (s : State) : State :=
  let l := attempts.take 4
  let n := failedAttempts l
  let again := if n < l.length then n else l.length - 1
  let s := { s with sticky := { s.sticky with xbarRetry := satNat 16 (s.sticky.xbarRetry + again) } }
  let s := if 0 < again then queueRated s 0x0105 (src.val * 14 + dst.val) 1000000000 (p1 src.val ++ p1 dst.val) else s
  if n < 4 then s
  else
    match failedPlane s src dst with
    | some _ => routeLost s src dst
    | none =>
      let s := { s with sticky := { s.sticky with xbarFail := satInc 8 s.sticky.xbarFail,
                                                  routes := (src.val, dst.val, planeB) :: s.sticky.routes } }
      queueEvent s 0x0101 (p1 src.val ++ p1 dst.val ++ p1 (b2n planeB))

/-! ### Current references (R18 to R20, R91) -/

/-- A reference is accepted: it takes effect, or is held while the leg is in a restart interval; a parked leg stays at
zero. -/
def Leg.accept (l : Leg) (iref : Int) : Leg :=
  if l.parked then l else if l.restart then { l with held := iref } else { l with iref := iref }

/-- The leg island brings the current of a channel to zero on its own and ignores the references of its owner: in an
opening or a ramp, and in the HOLD of a category 2 stop (R211, R237, R238). -/
def Chan.rampsAlone (ch : Chan) : Bool := ch.opening != .none || ch.slow

/-- A current reference word arrives at the leg island (R19): accepted under the tag of the group, otherwise discarded
and counted. An accepted reference stays in force should the owner fail later in the epoch. -/
def currentRef (iref : Word) (leg tag : Byte) (s : State) : State :=
  if h : leg.toNat < 32 then
    let l : Fin 32 := ⟨leg.toNat, h⟩
    let g := groupOfLeg l
    if tag.toNat = groupTag s.grp[g] then
      if (s.ch[chanOfLeg l]).rampsAlone then s
      else s.updLeg l fun x => { x.accept iref.toInt with last := (x.accept iref.toInt).iref }
    else
      let s := s.updGrp g fun gr => { gr with stale := satInc 8 gr.stale }
      queueOnce s 0x0301 g.val (p1 g.val ++ [tag] ++ p1 (groupTag s.grp[g]))
  else s

/-! ### Meanings -/

/-- CE_LOCKSTEP_MISMATCH. -/
def execCeLockstepMismatch (ce : Fin 5) (s : State) : Host.Outcome State Fault Refusal := .next (lockstepMismatch ce s)

/-- PLL_LOSS. -/
def execPllLoss (island : Fin 14) (s : State) : Host.Outcome State Fault Refusal := .next (pllLost island s)

/-- ISLAND_RESTART_DONE. -/
def execIslandRestartDone (island : Fin 14) (s : State) : Host.Outcome State Fault Refusal :=
  .next (islandRestarted island s)

/-- CASTLE_REPLAY_DONE. -/
def execCastleReplayDone (group : Fin 4) (s : State) : Host.Outcome State Fault Refusal := .next (replayDone group s)

/-- SEQUENCER_MISMATCH. -/
def execSequencerMismatch (s : State) : Host.Outcome State Fault Refusal := .next (sequencerDiverges s)

/-- SEQ_RECOVER. -/
def execSeqRecover (epochs : Nat) (s : State) : Host.Outcome State Fault Refusal := .next (sequencerRecovered epochs s)

/-- PLANNED_CASTLING_DUE. -/
def execPlannedCastlingDue (crcOk ackInTime : Bool) (s : State) : Host.Outcome State Fault Refusal :=
  .next (plannedCastling crcOk ackInTime s)

/-- SPARE_BIST_DUE. -/
def execSpareBistDue (s : State) : Host.Outcome State Fault Refusal :=
  .next (if bistDue s then startBist s else s)

/-- SPARE_BIST_DONE. -/
def execSpareBistDone (ce : Fin 5) (sigMatch stateOk : Bool) (patterns : Nat) (s : State) :
    Host.Outcome State Fault Refusal :=
  .next (bistDone ce sigMatch stateOk patterns s)

/-- CROSSBAR_TRANSFER. -/
def execCrossbarTransfer (src dst : Fin 14) (planeB : Bool) (attempts : List (List Byte × BitVec 16)) (s : State) :
    Host.Outcome State Fault Refusal :=
  .next (crossbar src dst planeB attempts s)

/-- CURRENT_REFERENCE. The epoch of the word is not compared: acceptance rests on the tag alone (R19). -/
def execCurrentReference (iref : Word) (leg tag : Byte) (_epoch : BitVec 16) (s : State) :
    Host.Outcome State Fault Refusal :=
  .next (currentRef iref leg tag s)

end Sys2Proof.Machine
end

