-- ==== Sys2Proof/Machine/HostPort.lean ====
section
/-! DEFINITION. Family host port: request frames and their checks, the replay store, command authentication, reply reads
and rereads, and attention blinks (R291 to R307). -/
namespace Sys2Proof.Machine

/-- Update the host port. -/
def State.updPort (s : State) (f : HostPort → HostPort) : State := { s with port := f s.port }

/-! ### Frames (R289 to R295) -/

/-- A frame begins: a value of SYS_HCFG.QUAD written before applies from now on (R290); the low-rate port has one lane
(R306). -/
def beginFrame (s : State) : State :=
  s.updPort fun p => { p with lanesQuad := p.hcfg.getLsbD 0 && s.sys.phase != .dormant }

/-- A reply packet with the number of replies that wait after it (R293). -/
def replyPacket (r : Reply) (rq : Nat) : List Byte :=
  sealPacket ([0x7B] ++ toLE 2 r.payload.length ++ [r.tag, r.status, r.evt, r.opc] ++ toLE 1 rq ++ r.payload)

/-- The null reply (R293). EVT counts the unread events. -/
def nullPacket (s : State) : List Byte :=
  sealPacket ([0x7B, 0xFF, 0xFF, 0x00, 0x00] ++ toLE 1 (satNat 8 (unreadCount s)) ++ [0xFF, 0x00])

/-- The bytes that a frame clocks out of a packet: after its CRC the device drives 0xFF (R295). -/
def clockOut (l : List Byte) (n : Nat) : List Byte := l.take n ++ List.replicate (n - l.length) 0xFF

/-- The lanes while the device sends a byte, msb first: one lane takes 8 clocks on HIO1, four lanes take 2 with bits 7:4
first (R289). -/
def byteLanes (quad : Bool) (b : Byte) : List Lanes :=
  if quad then [{ on := 0xF, level := b.extractLsb' 4 4 }, { on := 0xF, level := b.extractLsb' 0 4 }]
  else (List.range 8).map fun i => { on := 0x2, level := if b.getLsbD (7 - i) then 0x2 else 0x0 }

/-- The device drives bytes in a reply frame (R289, R295). -/
def driveBytes (l : List Byte) (p : HostPort) : HostPort :=
  { p with driven := l, wire := l.flatMap (byteLanes p.lanesQuad) }

/-- A reply has been read: what was due after it happens (R220, R306, R332, R401). -/
def replyGone (s : State) : State :=
  if s.sys.due = .none then s
  else if s.sys.dueLeft ≤ 1 then settleDue s
  else { s with sys := { s.sys with dueLeft := s.sys.dueLeft - 1 } }

/-- A reply read (R291, R295): a reply read to its end leaves the queue and is no longer outstanding. -/
def readReply (clocked : Nat) (s : State) : State :=
  if portServes s = false then s
  else
    let s := beginFrame s
    match s.port.replies with
    | [] => s.updPort (driveBytes (clockOut (nullPacket s) clocked))
    | r :: rest =>
      let l := replyPacket r rest.length
      let s := s.updPort (driveBytes (clockOut l clocked))
      if clocked < l.length then s
      else
        let s := s.updPort fun p =>
          { p with replies := rest, lastRead := l, outstanding := if r.own then dropTag r.tag p.outstanding else p.outstanding }
        replyGone s

/-- A reread: the last reply that was read completely, or a null reply (R291, R307). -/
def rereadReply (clocked : Nat) (s : State) : State :=
  if portServes s = false then s
  else
    let s := beginFrame s
    let l := if s.port.lastRead = [] then nullPacket s else s.port.lastRead
    s.updPort (driveBytes (clockOut l clocked))

/-! ### Request frames (R292, R299 to R306) -/

/-- The highest LEN (R292, R306). -/
def maxLen (s : State) : Nat := if lowRate s then 64 else 4096

/-- LEN of a frame. -/
def frameLen (b : List Byte) : Nat := leNat (slice b 1 2)

/-- FLAGS.AUTH. -/
def frameAuth (b : List Byte) : Bool := (byteAt b 5).getLsbD 0

/-- Check 2 of R299: LEN, and the end of the frame. -/
def lengthOk (s : State) (b : List Byte) (partialByte : Bool) : Bool :=
  !partialByte && decide (12 ≤ b.length) && decide (frameLen b ≤ maxLen s) && decide (b.length = 12 + frameLen b)

/-- Check 3: the CRC of the packet. -/
def frameCrc (b : List Byte) : Word := leWord (b.drop (b.length - 4))

/-- The packet without its CRC. -/
def frameBody (b : List Byte) : List Byte := b.take (b.length - 4)

/-- Check 4: reserved header bits and FLAGS bits are zero. -/
def reservedOk (b : List Byte) : Bool := decide ((byteAt b 5).toNat ≤ 1) && byteAt b 6 == 0 && byteAt b 7 == 0

/-- The entry of the replay store that the frame repeats (R300). -/
def repeatOf (s : State) (b : List Byte) : Option Replay :=
  s.port.replay.find? fun x => x.tag == byteAt b 3 && x.crc == frameCrc b

/-- The opcode needs a trailer (R302, R325, R330). -/
def authNeeded (s : State) (opc : Nat) : Bool :=
  s.nvm.key.isSome &&
    ((s.safe.act.hauth.getLsbD 0 && opc == 0x43)
      || (s.safe.act.hauth.getLsbD 1 && decide (0x80 ≤ opc ∧ opc ≤ 0x87) && opc != 0x85))

/-- CNT of the trailer. -/
def trailerCnt (b : List Byte) : Nat := leNat (slice b (b.length - 24) 4)

/-- The MAC of the trailer matches (R303). -/
def macOk (s : State) (b : List Byte) : Bool :=
  match s.nvm.key with
  | some k =>
    slice b (b.length - 20) 16
      == (hmac (hashBytes k) (toLE 8 s.port.nonce.toNat ++ b.take (b.length - 20))).take 16
  | none => false

/-- Check 7: a trailer, where there is one, must be right, and a protected opcode needs one. -/
def authOk (s : State) (b : List Byte) : Bool :=
  if frameAuth b then decide (20 ≤ frameLen b) && macOk s b && decide (s.port.hcnt < trailerCnt b)
  else !authNeeded s (byteAt b 4).toNat

/-- The opcode is defined (R310 to R337). -/
def opcodeDefined (opc : Byte) : Bool := servedModes opc != []

/-- Check 9: the request is accepted; its payload goes to the command interpreter without the trailer. -/
def acceptFrame (s : State) (b : List Byte) : State :=
  let t := byteAt b 3
  let body := (frameBody b).drop 8
  let payload := if frameAuth b then body.take (body.length - 20) else body
  let r : Request := { tag := nextId s t, opc := byteAt b 4, payload := payload }
  (acceptUnder s t (some (frameCrc b))).updPort fun p =>
    { p with hcnt := if frameAuth b then trailerCnt b else p.hcnt, waiting := p.waiting ++ [r] }

/-- Count a frame that is refused for its length or CRC. -/
def countCrce (s : State) : State := s.updPort fun p => { p with crce := satInc 8 p.crce }

/-- A repeat: the stored reply is queued again, or the original's single reply answers both (R300). -/
def answerRepeat (s : State) (x : Replay) : State :=
  match x.reply with
  | some r => enqueueReply (s.updPort fun p => { p with replayN := satInc 16 p.replayN }) { r with own := false }
  | none => s

/-- The checks of R299, in their order. -/
def checkFrame (b : List Byte) (partialByte : Bool) (s : State) : State :=
  let t := byteAt b 3
  let opc := byteAt b 4
  if byteAt b 0 ≠ 0xB7 then s.updPort fun p => { p with badfr := satInc 8 p.badfr }
  else if lengthOk s b partialByte = false then refuseFrame (countCrce s) t opc stBadLen
  else if crc32c (frameBody b) ≠ frameCrc b then refuseFrame (countCrce s) t opc stBadCrc
  else if reservedOk b = false then refuseFrame s t opc stBadParam
  else
    match repeatOf s b with
    | some x => answerRepeat s x
    | none =>
      if opcodeDefined opc = false then refuseFrame s t opc stBadOpcode
      else if lowRate s && !(servedModes opc).contains .m then refuseFrame s t opc stWrongMode
      else if authOk s b = false then
        refuseFrame (s.updPort fun p => { p with authf := satInc 8 p.authf }) t opc stAuthFail
      else if 8 ≤ s.port.outstanding.length then refuseFrame s t opc stBusyRetry
      else if replyPlaces ≤ placesTaken s then dropReply s
      else acceptFrame s b

/-- A request frame: received while the port serves (R297). A frame without a byte is none, and a frame that begins as a
reply read or reread carries no request. -/
def requestFrame (b : List Byte) (partialByte : Bool) (s : State) : State :=
  if portServes s = false ∨ b = [] ∨ byteAt b 0 = 0x3C ∨ byteAt b 0 = 0x3D then s
  else checkFrame b partialByte (beginFrame s)

/-- HRDY is high: the port serves and no accepted request waits for its execution (R297). -/
def hrdy (s : State) : Bool := portServes s && s.port.waiting.isEmpty

/-- An attention blink falls due: with unread events and SYS_HCFG.BLINK, and not in DORMANT, it is sent, or waits for
the end of the busy period (R298, R307). -/
def blink (s : State) : State :=
  if portServes s && !lowRate s && s.port.hcfg.getLsbD 1 && decide (0 < unreadCount s) then
    if hrdy s then s.updPort fun p => { p with blinks := p.blinks + 1 }
    else s.updPort fun p => { p with blinkDue := true }
  else s

/-! ### Meanings -/

/-- REQUEST_FRAME. -/
def execRequestFrame (bytes : List Byte) (partialByte : Bool) (s : State) : Host.Outcome State Fault Refusal :=
  .next (requestFrame bytes partialByte s)

/-- REPLY_READ. -/
def execReplyRead (clocked : Nat) (s : State) : Host.Outcome State Fault Refusal := .next (readReply clocked s)

/-- REREAD. -/
def execReread (clocked : Nat) (s : State) : Host.Outcome State Fault Refusal := .next (rereadReply clocked s)

/-- ATTENTION_BLINK. -/
def execAttentionBlink (s : State) : Host.Outcome State Fault Refusal := .next (blink s)

end Sys2Proof.Machine
end

