-- ==== Sys2Proof/Machine/SelfTest.lean ====
section
/-! DEFINITION. Family test and lifetime: TEST_RUN and the ends of its runs, test results, scan access, fuse repair, and the
lifetime counters (R331, R332, R387, R388, R391, R398 to R408). -/
namespace Sys2Proof.Machine

/-! ### Results (R387) -/

/-- The result of a run from its verdict and its count: 1 PASS, 2 MISMATCH, 3 INCOMPLETE. -/
def runResult (verdict : Bool) (applied expected : Nat) : Nat :=
  if applied < expected then 3 else if verdict && applied == expected then 1 else 2

/-- The payload of a DEFERRED reply: the expected completion (R312). -/
def deferredUntil (t : Nat) : Completion := .now stDeferred (toLE 8 t)

/-- The payload of a TEST_RUN that has a result. -/
def resultPayload (r : Nat) : List Byte := [BitVec.ofNat 8 r, 0, 0, 0]

/-- The device is in SERVICE. -/
def inService (s : State) : Bool := s.sys.phase == .running && s.sys.mode == .service

/-! ### TEST_RUN (R400, R401) -/

/-- Tests 0 and 2: only in SERVICE; RESULT 0 at once, and then the test, while the host port does not serve (R401). -/
def runDestructive (k : Fin 6) (arg : Byte) (s : State) : State × Completion :=
  if inService s = false then (s, .status stWrongMode)
  else if arg ≠ 0 then (s, .status stBadParam)
  else
    (makeDue s (.test k), .now stOk (resultPayload 0))

/-- Test 1: the spare's logic BIST; the end of a run in progress is expected at the pace at which it started. DEDUCED,
log entry 119. -/
def runSpareBist (arg : Byte) (r : Request) (s : State) : State × Completion :=
  if arg ≠ 0 then (s, .status stBadParam)
  else if s.isl.running.getLsbD 1 then (s, deferredUntil s.isl.spareEnds)
  else
    let t := startBist s
    if t.isl.running.getLsbD 1 then ({ t with isl := { t.isl with spareTag := some r.tag } }, .later)
    else (s, .status stFaultActive)

/-- Test 3: the end of the loop-back cycle in progress (R396). -/
def runLoopback (arg : Byte) (s : State) : State × Completion :=
  if arg ≠ 0 then (s, .status stBadParam) else (s, deferredUntil (loopCycleEnd s))

/-- Test 4: the end of the scrub pass in progress at its present pace. -/
def runScrub (arg : Byte) (s : State) : State × Completion :=
  if arg ≠ 0 then (s, .status stBadParam)
  else
    let left := (scrubWords - 1 - s.isl.scrubWord % scrubWords) * scrubCost s + s.isl.scrubLeft
    (s, deferredUntil (s.sys.tbase + (left + scrubWords - 1) / scrubWords))

/-- Test 5: one group in SERVICE; a second run waits for the first. -/
def runLegTest (arg : Byte) (r : Request) (s : State) : State × Completion :=
  if inService s = false then (s, .status stWrongMode)
  else if 4 ≤ arg.toNat then (s, .status stBadParam)
  else if s.isl.testTag ≠ none then (s, .status stBusyRetry)
  else
    ({ s with isl := { s.isl with testTag := some r.tag, testArg := arg.toNat, running := putBit s.isl.running 5 true } },
     .later)

/-! ### Ends of runs (R388, R398, R399, R401) -/

/-- The leg island test ends: legs that failed a check are parked until the next BOOT. -/
def legTestEnds (failLegs : BitVec 8) (groupOk : Bool) (checks : Nat) (s : State) : State :=
  match s.isl.testTag with
  | none => s
  | some t =>
    let g := s.isl.testArg
    let bad (l : Fin 32) : Bool := l.val / 8 == g && failLegs.getLsbD (l.val % 8)
    let r := runResult (failLegs == 0 && groupOk) checks legChecks
    let s := ((List.finRange 32).filter fun l => l.val / 8 == g).foldl testPulses s
    let s := { s with
      isl := { s.isl with testTag := none, legF := s.isl.legF ||| maskOf 32 bad }
      leg := vmapI s.leg fun l x => if bad l then { x with park := { x.park with test := true } } else x }
    reply (testDone (recordTest s 5 g r checks legChecks) 5 r) t 0x90 stOk (resultPayload r)

/-- The count of a destructive test. -/
def serviceCount (k : Nat) : Nat := if k = 0 then marchOps true else bistPatterns

/-- A destructive test ends: its result and the faulty rows are kept in the sticky records, and BOOT starts. -/
def serviceTestEnds (sigMatch : Bool) (applied : Nat) (badRows : List Nat) (s : State) : State :=
  match s.isl.serviceTest with
  | none => s
  | some k =>
    let r := runResult sigMatch applied (serviceCount k)
    softBoot { s with sticky := { s.sticky with bistResult := some (k, r, applied),
                                                bistRows := if k = 0 then badRows else s.sticky.bistRows } }

/-- TEST_RESULT. -/
def testResultBody (test : Byte) (s : State) : State × Completion :=
  if h : test.toNat < 6 then
    let r := s.isl.tests[test.toNat]
    (s, .now stOk (p1 r.result ++ p1 r.arg ++ [0, 0] ++ toLE 4 r.applied ++ toLE 4 r.expected ++ toLE 8 r.tbase))
  else (s, .status stBadParam)

/-! ### Scan access (R332, R403) -/

/-- Every password hash and the command key are cleared. -/
def clearSecrets (n : Nvm) : Nvm := { n with slots := Vector.replicate 4 Slot.empty, key := none }

/-- SCAN_REQUEST. -/
def scanBody (confirm : Word) (s : State) : State × Completion :=
  if s.safe.sessOpen = false ∨ s.safe.slot ≠ 0 ∨ s.safe.defaultSess then (s, .status stSafetyDenied)
  else if confirm ≠ 0x5A5AA5A5 then (s, .status stBadParam)
  else
    let s := logChange { s with nvm := clearSecrets s.nvm } 0 8 0 0 0 0
    let s := queueEvent s 0x0A03 []
    (makeDue s .scan, .status stOk)

/-! ### Fuse repair (R391) -/

/-- FUSE_REPAIR. -/
def fuseBody (r : Request) (s : State) : State × Completion :=
  if nvmBusy s then (s, .status stBusyRetry)
  else ({ s with isl := { s.isl with nvmOp := .fuse, opTag := some r.tag } }, .later)

/-- Fusing ends: every soft repair in force where it succeeds; the given number of rows where it fails, and an entry
whose check fails for the next one. DEDUCED, log entry 220. -/
def fuseEnds (rows : Nat) (ok : Bool) (s : State) : State :=
  if s.isl.nvmOp = .fuse then
    let t := fuseRows s (if ok then (softRepairs s).length else rows)
    let n := t.nvm.fuses.length - s.nvm.fuses.length
    let t := if ok then t else spoilEntry t
    let t := queueEvent { t with isl := { t.isl with nvmOp := .none } } 0x0A02 (p4 n)
    if ok then replyOp t 0x93 stOk (toLE 2 n ++ [0, 0]) else replyOp t 0x93 stNvmError []
  else s

/-! ### The TAP (R403, R404) -/

/-- The instructions of the TAP. -/
inductive TapInstr
  | extest | sample | idcode | instr | bypass
deriving DecidableEq, Repr

/-- The instruction that a code of the instruction register selects; every code without one acts as BYPASS. -/
def tapInstr (code : Byte) : TapInstr :=
  match code.toNat with
  | 0x00 => .extest
  | 0x01 => .sample
  | 0x02 => .idcode
  | 0x10 => .instr
  | _ => .bypass

/-- What IDCODE reads. -/
def tapId : Word := 0xB1632A5F

/-- The data registers of the TAP: the boundary-scan cells, whose order the BSDL file gives, the identity, the
instrument access with its 64 bits, and one bit of bypass. -/
inductive TapData
  | boundary
  | identity (w : Word)
  | instrument (bits : Nat)
  | bypass (bits : Nat)
deriving DecidableEq, Repr

/-- The data register that an instruction selects. -/
def TapInstr.data : TapInstr → TapData
  | .extest | .sample => .boundary
  | .idcode => .identity tapId
  | .instr => .instrument 64
  | .bypass => .bypass 1

/-- The data register between TDI and TDO; none while the TAP is held in its reset state, with TDO at high impedance. -/
def Tap.selected (t : Tap) : Option TapData := if t.held then none else some (tapInstr t.ir).data

/-- Update-IR: a code shifted into the instruction register takes effect. The table of commands has no row for the
clock of the TAP, so that no command applies this; log entry 130. -/
def Tap.load (t : Tap) (code : Byte) : Tap := if t.held then t else { t with ir := code }

/-- TAP reset, by TRST_N or TMS, selects IDCODE. -/
def Tap.resets (t : Tap) : Tap := { t with ir := 0x02 }

/-- The pins whose boundary-scan cells only observe, as they stand in test access: DSWn, SO0, SO1, SAFE_N asserted,
BKEN. -/
def tapObserved (s : State) : List Bool :=
  (channels.map fun c => (s.ch[c]).dsw) ++ [s.safe.soOn.getLsbD 0, s.safe.soOn.getLsbD 1, safeNAsserted s, s.link.bken]

/-! ### Lifetime counters (R405, R406) -/

/-- LIFE_READ. -/
def lifeBytes (l : Life) : List Byte :=
  toLE 4 l.hours ++ toLE 4 l.refreshes ++ l.cycles.toList.flatMap (toLE 4) ++ l.periods.toList.flatMap (toLE 8)

/-- An operating hour; the counters are written to NVM every 8 hours. -/
def hourPassed (s : State) : State :=
  if s.sys.phase = .unpowered then s
  else
    let l := { s.nvm.life with hours := satInc 32 s.nvm.life.hours }
    { s with nvm := { s.nvm with life := l, lifeNvm := if l.hours % 8 = 0 then l else s.nvm.lifeNvm } }

/-- The acceleration factor in fixed point, for a temperature in 0.01 degrees: the exponent is taken in eight equal
parts (R406). -/
def accelFactor (hottest : Int) : Nat :=
  let t := max 1 (hottest + 27315).toNat
  let e := fxExp (divRound (812300 * ((t : Int) - 37815) * fxOne) (37815 * t * 8))
  let e2 := divRound (e * e) fxOne
  let e4 := divRound (e2 * e2) fxOne
  (divRound (e4 * e4) fxOne).toNat

/-- A minute at the mean temperature of the hottest healthy die sensor. -/
def minutePassed (hottest : Int) (s : State) : State :=
  if s.sys.phase = .unpowered then s
  else
    let l := s.nvm.life
    let f := l.eqhFrac + accelFactor hottest
    { s with nvm := { s.nvm with life := { l with eqhMinutes := l.eqhMinutes + f / fxOne, eqhFrac := f % fxOne } } }

/-! ### Meanings -/

/-- TEST_RUN, test 0. -/
def execTestRunMemoryBist (arg : Byte) (s : State) : Host.Outcome State Fault Refusal :=
  .next (hostCommand (.testRunMemoryBist arg) true s fun _ s => runDestructive 0 arg s)

/-- TEST_RUN, test 1. -/
def execTestRunSpareBist (arg : Byte) (s : State) : Host.Outcome State Fault Refusal :=
  .next (hostCommand (.testRunSpareBist arg) true s (runSpareBist arg))

/-- TEST_RUN, test 2. -/
def execTestRunLogicBist (arg : Byte) (s : State) : Host.Outcome State Fault Refusal :=
  .next (hostCommand (.testRunLogicBist arg) true s fun _ s => runDestructive 2 arg s)

/-- TEST_RUN, test 3. -/
def execTestRunLoopback (arg : Byte) (s : State) : Host.Outcome State Fault Refusal :=
  .next (hostCommand (.testRunLoopback arg) true s fun _ s => runLoopback arg s)

/-- TEST_RUN, test 4. -/
def execTestRunScrub (arg : Byte) (s : State) : Host.Outcome State Fault Refusal :=
  .next (hostCommand (.testRunScrub arg) true s fun _ s => runScrub arg s)

/-- TEST_RUN, test 5. -/
def execTestRunLegTest (arg : Byte) (s : State) : Host.Outcome State Fault Refusal :=
  .next (hostCommand (.testRunLegTest arg) true s (runLegTest arg))

/-- LEG_TEST_DONE. -/
def execLegTestDone (failLegs : BitVec 8) (groupOk : Bool) (checks : Nat) (s : State) :
    Host.Outcome State Fault Refusal :=
  .next (legTestEnds failLegs groupOk checks s)

/-- SERVICE_TEST_DONE. -/
def execServiceTestDone (sigMatch : Bool) (applied : Nat) (badRows : List Nat) (s : State) :
    Host.Outcome State Fault Refusal :=
  .next (serviceTestEnds sigMatch applied badRows s)

/-- TEST_RESULT. -/
def execTestResult (test : Byte) (s : State) : Host.Outcome State Fault Refusal :=
  .next (hostCommand (.testResult test) true s fun _ s => testResultBody test s)

/-- SCAN_REQUEST. -/
def execScanRequest (confirm : Word) (s : State) : Host.Outcome State Fault Refusal :=
  .next (hostCommand (.scanRequest confirm) true s fun _ s => scanBody confirm s)

/-- FUSE_REPAIR. -/
def execFuseRepair (s : State) : Host.Outcome State Fault Refusal :=
  .next (hostCommand .fuseRepair true s fuseBody)

/-- FUSE_REPAIR_DONE. -/
def execFuseRepairDone (rows : Nat) (ok : Bool) (s : State) : Host.Outcome State Fault Refusal :=
  .next (fuseEnds rows ok s)

/-- LIFE_READ. -/
def execLifeRead (s : State) : Host.Outcome State Fault Refusal :=
  .next (hostCommand .lifeRead true s fun _ s => (s, .now stOk (lifeBytes s.nvm.life)))

/-- LIFETIME_HOUR. -/
def execLifetimeHour (s : State) : Host.Outcome State Fault Refusal := .next (hourPassed s)

/-- EQH_MINUTE. -/
def execEqhMinute (hottest : Int) (s : State) : Host.Outcome State Fault Refusal := .next (minutePassed hottest s)

end Sys2Proof.Machine
end

