-- ==== Sys2Proof/Machine/Modes.lean ====
section
/-! DEFINITION. Family device modes: SET_MODE, the answers of the islands, the commit of a mode change with its channel
actions, entry into DORMANT, soft reset and the wake command (R24 to R27, R207 to R213, R220, R223, R246, R306, R316). -/
namespace Sys2Proof.Machine

/-! ### Refusal (R25, R209) -/

/-- An owner refuses a target without running channels while one of its group runs. -/
def ownerRefuses (s : State) (k : Fin 5) (target : Mode) : Bool :=
  (target == .configure || target == .service || target == .dormant) &&
    match ownedGroup s k with
    | some g => (chansOf g).any fun c => (s.ch[c]).st.live
    | none => false

/-- The sequencer refuses. -/
def sequencerRefuses (s : State) (target : Mode) (discard : Bool) : Bool :=
  let prog (p : PState) : Bool := p == .run || p == .hold || p == .hand
  (s.sys.mode == .configure && bookBusy s)
    || (s.sys.mode == .form && target == .direct && anyI 16 fun c => prog (s.ch[c]).prog.pstate)
    || (s.sys.mode == .direct && target == .form && anyI 16 fun c =>
          (s.ch[c]).bound && ((s.ch[c]).st == .run || (s.ch[c]).st == .hold))
    || (target == .dormant && !discard && anyI 16 fun c => decide (0 < ringUsed s.ch[c]))

/-- The safety island refuses. -/
def safetyRefuses (s : State) (target : Mode) : Bool :=
  ((target == .form || target == .direct || s.sys.mode == .safe) && demandActive s)
    || (target == .service && !s.safe.sessOpen)

/-- The memory island refuses while an NVM operation or a page operation of the refresh runs (R209, R367). -/
def memoryRefuses (s : State) (target : Mode) : Bool × State :=
  if target == .service || target == .dormant then
    if nvmBusy s then (true, s) else pageRuns s
  else (false, s)

/-- An island refuses the staging of a mode change (R209). After a rise of WAKE its level is not an operand of any row:
whether the always-on island still finds it high is a free value. -/
def islandRefuses (s : State) (i : Fin 14) (target : Mode) (discard : Bool) : Bool × State :=
  if h : i.val < 5 then (ownerRefuses s ⟨i.val, h⟩ target, s)
  else
    match i.val with
    | 7 => (sequencerRefuses s target discard, s)
    | 8 => (safetyRefuses s target, s)
    | 12 => memoryRefuses s target
    | 13 =>
      if target == .dormant && s.sys.wakeHigh then
        let d := drawFree s
        (decide (d.1 % 2 = 1), d.2)
      else (false, s)
    | _ => (false, s)

/-- A mode change is refused: SYS_STAGE.REFUSERS, MODE_REFUSED_EVT, and the reply with the refusers (R25). -/
def refuseMode (s : State) (target : Mode) (x : Staged) (refusers : BitVec 14) : State :=
  let s := { s with sys := { s.sys with refusers := refusers }, staged := s.staged.filter fun y => !y.change.isMode }
  let s := queueEvent s 0x0143 (p1 target.code ++ p2 refusers.toNat)
  match x.tag with
  | some t => reply s t x.opc stModeRefused (toLE 2 refusers.toNat)
  | none => s

/-- The oldest staged change with a missing answer that satisfies a condition. -/
def firstWaiting (s : State) (p : BitVec 14 → Bool) : Option Staged := s.staged.find? fun x => p x.waiting

/-- An island answers the oldest staged change that waits for it. -/
def answerOldest (i : Nat) (nak : Bool) : List Staged → List Staged
  | [] => []
  | x :: r =>
    if x.waiting.getLsbD i then
      { x with waiting := putBit x.waiting i false, refused := if nak then putBit x.refused i true else x.refused } :: r
    else x :: answerOldest i nak r

/-- A mode change that every island has answered is aborted where one of them has refused it; the reply names every
refuser (R25). -/
def settleRefusal (s : State) : State :=
  match s.staged.find? fun x => x.change.isMode with
  | some x =>
    match x.change with
    | .mode target _ _ _ _ => if x.waiting = 0 ∧ x.refused ≠ 0 then refuseMode s target x x.refused else s
    | _ => s
  | none => s

/-- STAGING_ANSWER: an island refuses a mode change in the cases of R209, and no other change. -/
def stagingAnswer (i : Fin 14) (s : State) : State :=
  match firstWaiting s fun w => w.getLsbD i.val with
  | none => s
  | some x =>
    match x.change with
    | .mode target _ discard _ _ =>
      let a := islandRefuses s i target discard
      settleRefusal { a.2 with staged := answerOldest i.val a.1 a.2.staged }
    | _ => { s with staged := answerOldest i.val false s.staged }

/-- Drop the oldest staged change with a missing answer. -/
def dropWaiting (s : State) : State := { s with staged := eraseFirst (fun x => x.waiting != 0) s.staged }

/-- The staging of an unplanned castling has not been answered: a second fault in its recovery, so that the channels
hold, and the spare stages it again, because it is touch-move (R41, R120). DESIGN CHOICE, log entry 176. -/
def restaged (s : State) (g : Fin 4) : State := holdGroup (restageCastle (unstageCastle s g) g) g

/-- STAGING_TIMEOUT: every island that has not answered is a refuser, and the oldest change with a missing answer is
aborted: a planned castling with CASTLE_ABORT, a command that is no mode change with ABORTED (R25, R121). The slot of
a lane whose substitution or return is not answered ends with its position back at its unit. DESIGN CHOICE, log entry
177. -/
def stagingTimeout (s : State) : State :=
  match firstWaiting s fun w => w != 0 with
  | none => s
  | some x =>
    let no := x.waiting ||| x.refused
    match x.change with
    | .mode target _ _ _ _ => refuseMode s target x no
    | ch =>
      let s := { s with sys := { s.sys with refusers := no } }
      match ch with
      | .castle g => if recoversGroup s g then restaged s g else abortCastle s g 2
      | .lane k => dropSlot s k
      | _ =>
        match x.tag with
        | some t => reply (dropWaiting s) t x.opc stAborted
            (match ch.mask? with | some m => maskResults m stAborted | none => [])
        | none => dropWaiting s

/-! ### Commit (R207, R212, R223, R246) -/

/-- Entry into DORMANT: the islands other than the always-on island lose power, and with it the SRAM and what it holds;
the lifetime counters are written to NVM (R223, R224, R306, R405). -/
def enterDormant (s : State) (park : Bool) : State :=
  let s := everythingOff (canStop s)
  let s := { s with sys := { s.sys with inlog := [], srcRise := false, wakeVlost := lostVoltage s, wakeTret := qualTime s } }
  { s with
    sys := { s.sys with phase := .dormant, running := false, setl := 0
                        due := if park then .park else .none, dueLeft := s.port.replies.length + 1 }
    can := { s.can with ctl := putBit s.can.ctl 0 false }
    ch := vmap s.ch fun ch => { ch with ring := [], grades := [], hist := Hist.zero }
    evq := EvQ.reset
    staged := [], recs := [], mem := []
    port := { s.port with replay := s.port.replay.filter fun x => decide ((s.port.ltag - x.tag).toNat < 16) }
    nvm := { s.nvm with lifeNvm := s.nvm.life }
    aux := s.aux.stop }

/-- An acknowledged mode change commits. A rise of WAKE that met the committed entry into DORMANT wakes the device once
the entry has completed (R213). -/
def commitMode (s : State) (x : Staged) (target : Mode) (park fromSafe : Bool) (mask : Mask) : State :=
  let s := applyMode s x target fromSafe mask
  if s.sys.mode = .dormant then
    match s.sys.wakePend with
    | some ohm => wakeBoot (enterDormant s park) 1 ohm
    | none => enterDormant s park
  else s

/-! ### SET_MODE (R208, R316) -/

/-- The modes that SET_MODE reaches from a mode (R207). -/
def reachable (m : Mode) : List Mode :=
  match m with
  | .configure => [.idle, .service, .dormant]
  | .idle => [.configure, .form, .direct, .dormant]
  | .form => [.idle, .direct]
  | .direct => [.idle, .form]
  | _ => []

/-- SERVICE from halted BOOT, which has no boundaries: it commits at once, and the epochs start; a demand that is active
acts as BOOT ends. -/
def serviceFromHalt (s : State) : State :=
  let s := startEpochs (lapse s)
  let s := queueEvent s 0x0142 (p1 Mode.boot.code ++ p1 Mode.service.code)
  takeSnap (bootDemands (refreshOutputs { s with sys := { s.sys with mode := .service, prev := .boot } }))

/-- SET_MODE in halted BOOT. -/
def setModeHalted (target : Mode) (r : Request) (s : State) : State × Completion :=
  if target ≠ .service then (s, .status stWrongMode)
  else
    let m := memoryRefuses s .service
    let s := m.2
    let no : BitVec 14 := (if safetyRefuses s .service then islandBit 8 else 0) ||| (if m.1 then islandBit 12 else 0)
    if no ≠ 0 then
      (refuseMode s .service { change := .mode .service false false false 0, opc := r.opc, tag := some r.tag, islands := 0,
                               waiting := 0, refused := no, failed := [] } no, .later)
    else (serviceFromHalt s, .status stOk)

/-- SET_MODE. -/
def setModeBody (target flags : Byte) (r : Request) (s : State) : State × Completion :=
  let park := flags.getLsbD 0
  if s.sys.phase = .dormant ∧ ¬(target = 6 ∧ park) then (s, .status stWrongMode)
  else if 4 ≤ flags.toNat then (s, .status stBadParam)
  else
    match Mode.ofCode? target.toNat with
    | none => (s, .status stBadParam)
    | some t =>
      if s.sys.phase = .dormant then (makeDue s .park, .status stOk)
      else if s.sys.phase = .halted then setModeHalted t r s
      else if t = s.sys.mode then (s, .status stOk)
      else if (reachable s.sys.mode).contains t = false then (s, .status stWrongMode)
      else if modePending s then (s, .status stBusyRetry)
      else (stage s (.mode t park (flags.getLsbD 1) false 0) r.opc (some r.tag) (allIslands s), .later)

/-! ### Soft reset and wake (R220, R225, R306) -/

/-- SOFT_RESET; BUSY_RETRY while an operation of R462 runs, which a trim and a fusing are not. -/
def softResetBody (confirm : Word) (s : State) : State × Completion :=
  if confirm ≠ 0xA5A55A5A then (s, .status stBadParam)
  else if s.sys.phase = .running ∧ s.sys.mode = .idle ∧
      anyI 16 (fun c => (s.ch[c]).st != .off && (s.ch[c]).st != .fault) then (s, .status stWrongMode)
  else if modePending s ∨ storeBusy s then (s, .status stBusyRetry)
  else
    let m := pageRuns s
    if m.1 then (m.2, .status stBusyRetry) else (makeDue m.2 .soft, .status stOk)

/-- WAKE. -/
def wakeBody (s : State) : State × Completion := (makeDue s .wake, .status stOk)

/-! ### Meanings -/

/-- SET_MODE. -/
def execSetMode (target flags : Byte) (s : State) : Host.Outcome State Fault Refusal :=
  .next (hostCommand (.setMode target flags) true s (setModeBody target flags))

/-- SOFT_RESET. -/
def execSoftReset (confirm : Word) (s : State) : Host.Outcome State Fault Refusal :=
  .next (hostCommand (.softReset confirm) true s fun _ s => softResetBody confirm s)

/-- WAKE_COMMAND. -/
def execWakeCommand (s : State) : Host.Outcome State Fault Refusal :=
  .next (hostCommand .wakeCommand true s fun _ s => wakeBody s)

/-- STAGING_ANSWER. -/
def execStagingAnswer (island : Fin 14) (s : State) : Host.Outcome State Fault Refusal := .next (stagingAnswer island s)

/-- STAGING_TIMEOUT. -/
def execStagingTimeout (s : State) : Host.Outcome State Fault Refusal := .next (stagingTimeout s)

end Sys2Proof.Machine
end

