-- ==== Sys2Proof/Machine/Words.lean ====
section
/-! DEFINITION. The measurement words of a boundary: scaling with the carried residual, over range, INVALID words, leg and
link words, and the accumulators (R47, R127, R129 to R132, R150 to R152). -/
namespace Sys2Proof.Machine

/-- A mean in units of 1/den, with the residual carried from the mean before in 2^-32 units, rounded to a word; and
the residual that it leaves (R127). A half way mean goes away from zero, and the residual is held to 2^-32 unit.
DESIGN CHOICE, log entry 190. -/
def carryRound (num : Int) (den : Nat) (resid : Int) : Int × Int :=
  let x := divRound (num * 2 ^ 32) (max 1 den) + resid
  let y := divRound x (2 ^ 32)
  (y, x - y * 2 ^ 32)

/-- MEAS_OVR of a channel, at most once per second (R130). -/
def overRange (s : State) (c : Fin 16) (conv : Nat) : State :=
  queueRated s 0x040C c.val 1000000000 (p1 c.val ++ p1 conv)

/-- The measured direction: the sign of the mean current, kept where it is zero (R47). -/
def measuredDir (old : Bool) (i : Int) : Bool := if i = 0 then old else decide (i < 0)

/-- An INVALID word of a channel in RUN: its leader goes to HOLD at the next boundary with cause MEAS (R130). -/
def invalidWord (s : State) (c : Fin 16) : State :=
  if ((s.ch[c]).vInv ∨ (s.ch[c]).iInv) ∧ (s.ch[c]).st = .run then addCause s (leaderOf s c) hcMeas else s

/-! ### The user-rate result (R126, R128) -/

/-- The samples of the precision output in one user-rate result: 8 kS/s divided by the rate of MEAS_CFGn.RATE. -/
def boxcarLength (rate : Nat) : Nat :=
  ([8000, 4000, 1600, 800, 400, 160, 80, 40, 16, 8, 4, 2, 1].getD rate 1 : Nat)

/-- The limits of the corrected shunt voltage in pV: 1.02 times full scale (R130). -/
def shuntLimit (ch : Chan) : Int := fullScaleUv ch * 1020000

/-- One corrected sample of the precision output enters the boxcar, saturated at the ends of the input ranges, as a
voltage in nV and as a current in 2^-16 uA by the shunt value of the moment; when the window is full its mean is the
user-rate result, with the TBASE of its centre. The unit of the result is that of the words. -/
def boxcar (r : Nat) (ch : Chan) (x : Sample) : Chan :=
  let lim := shuntLimit ch
  let n := boxcarLength (bits ch.mcfgF 4 4)
  let v := ch.boxV + clampInt (-500000000) 6000000000 x.v
  let i := ch.boxI + divRound (clampInt (Int.neg lim) lim x.vsh * 6553600000) (max 1 r)
  if ch.boxN + 1 < n then { ch with boxV := v, boxI := i, boxN := ch.boxN + 1 }
  else
    { ch with
      boxV := 0, boxI := 0, boxN := 0
      userV := divRound v (1000 * n)
      userI := divRound i (65536 * n)
      userSeq := ch.userSeq + 1
      userAt := x.tb - n * 62500 }

/-! ### The words of a boundary -/

/-- One corrected sample of the precision output enters the 1 s mean of an OCV step, once the current has come to zero
(R182). -/
def ocvSample (temp : Int) (ch : Chan) (x : Sample) : Chan :=
  let p := ch.prog
  if p.pstate ≠ .run ∨ p.started = false ∨ ch.st ≠ .run ∨ stType p.cur ≠ 0x0A ∨ ch.rI ≠ 0 then ch
  else
    let t := if p.ocvN = 0 then temp else p.ocvT
    let sum := p.ocvSum + x.v
    if p.ocvN + 1 < 8000 then { ch with prog := { p with ocvSum := sum, ocvN := p.ocvN + 1, ocvT := t } }
    else { ch with prog := { p with ocvSum := 0, ocvN := 0, ocvT := t, ocvMeans := (divRound sum 8000, t) :: p.ocvMeans } }

/-- The window of the words that a boundary delivers after an epoch of ns nanoseconds (R126). -/
def wordWindow (s : State) (ns : Nat) : Nat × Nat := (s.sys.tbase - ns - 1750, s.sys.tbase - 1750)

/-- The corrected means of V_S in 2^-16 uV and of the shunt voltage in pV, and their covariance in uV pV, through the
blend at the middle of the window. DESIGN CHOICE, log entry 57. -/
def channelMeans (x : ChanWord) (s : State) (c : Fin 16) (mid : Nat) : Int × Int × Int :=
  (formed s (voltPos c) mid (6000000 * 65536) x.vs16 x.vsOld, formed s (ampPos c) mid (fullScalePv s.ch[c]) x.vsh x.vshOld,
   blendMix (min (blendAt s (voltPos c) mid).2.2 (blendAt s (ampPos c) mid).2.2) x.covOld x.cov)

/-- The words of one channel: V_S, I_P and their product with the carried residuals, V_F, their flags, and the
user-rate results. The product is that of the saturated means with the covariance. DESIGN CHOICE, log entry 217. -/
def channelWord (w : EpochWords) (ns : Nat) (s : State) (c : Fin 16) : State :=
  let x := w.ch[c]
  let lim := shuntLimit s.ch[c]
  let r := (shuntValue s c).toNat
  let t := wordWindow s ns
  let m := channelMeans x s c ((t.1 + t.2) / 2)
  let v := clampInt (-32768000000) 393216000000 m.1
  let i := clampInt (Int.neg lim) lim m.2.1
  let f := clampInt 0 6000000 x.vf
  let vFl := laneFlags s (voltPos c) t.1 t.2 (decide (v ≠ m.1))
  let iFl := laneFlags s (ampPos c) t.1 t.2 (decide (i ≠ m.2.1))
  let vInv := sourceGone s (voltPos c)
  let iInv := sourceGone s (ampPos c)
  let form := formSample s c
  let temp := measTemp s
  let s := s.updCh c fun ch =>
    let a := carryRound v 65536 ch.resid[0]
    let b := carryRound (i * 100000) r ch.resid[1]
    let p := carryRound (v * i + 65536 * m.2.2) (655360 * r) ch.resid[2]
    { ch with vS := a.1, iP := b.1, pW := p.1, resid := #v[a.2, b.2, p.2], vF := f, vInv := vInv, iInv := iInv, vFl := vFl
              iFl := iFl, fFl := BitVec.ofNat 3 (4 * b2n (decide (f ≠ x.vf))), dir := measuredDir ch.dir b.1 }
  let s := s.updCh c fun ch => (x.prec.map form).foldl (fun ch y => ocvSample temp (boxcar r ch y) y) ch
  let s := if v = m.1 then s else overRange s c c.val
  let s := if i = m.2.1 then s else overRange s c (0x10 + c.val)
  if f = x.vf then s else overRange s c (0x58 + c.val)

/-- The word of a leg: its shunt voltage less the offset, saturated at the end of its range, by the leg shunt, in mA
(R130, R131). -/
def legWord (w : EpochWords) (s : State) (l : Fin 32) : State :=
  let raw := w.leg[l]
  let v := clampInt (-60000000) 60000000 raw
  let ovr := decide (v ≠ raw)
  let y := if ovr then v else clampInt (-60000000) 60000000 (raw - (s.leg[l]).offset)
  let s := s.updLeg l fun x => { x with current := divRound y (max 1 (bits x.shunt 0 16)), ovr := ovr }
  if ovr then overRange s (chanOfLeg l) (0x30 + l.val) else s

/-- The word of a link shunt: the group link current in mA (R132). -/
def groupWord (w : EpochWords) (s : State) (g : Fin 4) : State :=
  let v := clampInt (-125000000) 125000000 w.link[g]
  let ovr := decide (v ≠ w.link[g])
  let s := s.updGrp g fun x => { x with current := divRound (v * 10) (max 1 (bits x.shunt 0 16)), ovr := ovr }
  if ovr then overRangeLink s (0x51 + g.val) else s

/-- The word of VLINK, in mV. -/
def linkWord (w : EpochWords) (s : State) : State :=
  let v := clampInt 0 80000 w.vlink
  let ovr := decide (v ≠ w.vlink)
  let s := { s with link := { s.link with vlink := v, ovr := ovr } }
  if ovr then overRangeLink s 0x50 else s

/-- The accumulators of a channel over an epoch that opened with its disconnect closed; without an owner they do not
change (R40, R151, R456). -/
def accumulate (ns : Nat) (s : State) (c : Fin 16) : State :=
  if (s.ch[c]).dswB ∧ (s.grp[groupOf c]).owner ≠ none then
    s.updCh c fun ch => { ch with q := ch.q + chargeOf ch.iP ns, e := ch.e + energyOf ch.pW ns }
  else s

/-- The words that a boundary delivers, for an epoch of ns nanoseconds. -/
def deliverWords (w : EpochWords) (ns : Nat) (s : State) : State :=
  let s := channels.foldl (channelWord w ns) s
  let s := (List.finRange 32).foldl (legWord w) s
  let s := (List.finRange 4).foldl (groupWord w) s
  channels.foldl (accumulate ns) (linkWord w s)

/-! ### The layout of a word (R17, R129) -/

/-- A measurement word: VALUE, CONV, SIDX 0, FLAGS, and the 48 bits of its epoch. A value beyond 32 bits is saturated.
DESIGN CHOICE, log entry 191. -/
def wordLayout (value : Int) (conv : Nat) (flags : Nat) (epoch : Nat) : List Byte :=
  p4 value ++ p1 conv ++ [0] ++ p1 flags ++ [0] ++ toLE 6 epoch ++ [0, 0]

/-- The value of a TH or AUX input: a voltage in 1 uV, or a temperature in 1/1000 of a degree (R282). -/
def inputValue (s : State) (i : Fin 24) : Int :=
  let t := s.therm.inp[i]
  if t.volt then t.uv else t.temp

/-- The last word of a logical converter; none for a reserved code. The word of a product has the flags of both its
factors, and a die sensor without a replacement, an excluded reference and the converter of a parked leg give INVALID.
DEDUCED, log entry 191. -/
def measWord (s : State) (conv : Fin 256) : Option (List Byte) :=
  let n := conv.val
  let now := s.sys.epoch.toNat
  let ch : Chan := s.ch[(⟨n % 16, by omega⟩ : Fin 16)]
  let word (value : Int) (fl : BitVec 3) (invalid : Bool) (at' : Nat) : Option (List Byte) :=
    some (wordLayout value n (fl.toNat + 8 * b2n invalid) at')
  let ovr (b : Bool) : BitVec 3 := BitVec.ofNat 3 (4 * b2n b)
  let input (i : Fin 24) := word (inputValue s i) (ovr (s.therm.inp[i]).ovr) (s.therm.inp[i]).broken (s.therm.inp[i]).stamp
  if n < 0x10 then word ch.vS ch.vFl ch.vInv now
  else if n < 0x20 then word ch.iP ch.iFl ch.iInv now
  else if n < 0x30 then word ch.pW (ch.vFl ||| ch.iFl) ch.invalid now
  else if h : n < 0x50 ∧ 0x30 ≤ n then
    let l := s.leg[n - 0x30]
    word l.current (ovr l.ovr) l.park.conv now
  else if n = 0x50 then word s.link.vlink (ovr s.link.ovr) false now
  else if h : n < 0x55 ∧ 0x51 ≤ n then
    let g := s.grp[n - 0x51]
    word g.current (ovr g.ovr) false now
  else if n < 0x58 then none
  else if n < 0x68 then
    word (s.ch[(⟨(n - 0x58) % 16, by omega⟩ : Fin 16)]).vF (s.ch[(⟨(n - 0x58) % 16, by omega⟩ : Fin 16)]).fFl false now
  else if h : n < 0x80 then input ⟨n - 0x68, by omega⟩
  else if h : n < 0x94 ∧ 0x80 ≤ n then
    let d := s.therm.die[n - 0x80]
    word (d.word * 10) 0 (d.broken && (privileged (⟨n - 0x80, by omega⟩ : Fin 20) || d.cause == 3)) d.stamp
  else if h : n < 0xC3 ∧ 0xC0 ≤ n then word s.meas.refWord[n - 0xC0] 0 s.meas.excluded[n - 0xC0] s.meas.refStamp
  else none

end Sys2Proof.Machine
end

