-- ==== Sys2Proof/Machine/Programs.lean ====
section
/-! DEFINITION. Programs at a boundary: the ends that take effect, the counted epoch, the histogram, the conditions and the
implicit ends (R165 to R172, R178 to R184). -/
namespace Sys2Proof.Machine

/-! ### Step ends that take effect (R171, R172, R174) -/

/-- Flag fall is reported with the end, and marks the grade record of a step with GRADE (R174, R184). -/
def flagFallTold (s : State) (c : Fin 16) (reason : Nat) : State :=
  if reason = 0x10 ∨ reason = 0x11 then
    let s := queueEvent s 0x0212 (p1 c.val ++ p1 (s.ch[c]).prog.step ++ p1 reason)
    if stFlag (s.ch[c]).prog.cur 3 then
      s.updProg c fun p =>
        let g := p.grade.flag 2
        { p with grade := if reason = 0x11 then g.flag 1 else g }
    else s
  else s

/-- CH_HAND commits at this boundary for a channel: it has been acknowledged, and no mode change comes before it. -/
def handDue (s : State) (c : Fin 16) : Bool :=
  !s.sys.recovering && (committedMode s).isNone && s.staged.any fun x =>
    x.waiting == 0 && match x.change with | .hand m true => m.getLsbD c.val | _ => false

/-- A decided end takes effect: its records, then the next step, which starts in HAND where CH_HAND commits at the
same boundary (R179), or the end of the program. The channels whose program has ended are collected. -/
def applyEnd (x : StepEnd) (s : State) (c : Fin 16) : State × Bool :=
  let p := (s.ch[c]).prog
  let r := resolveStep resolveFuel p (nextIndex p.step x.next)
  let s := flagFallTold s c x.reason
  let s := formEndRecords s c x.reason (r.1.getD 0xFE)
  let s := s.updProg c fun p => { p with loops := r.2.loops, lastR := x.reason, pend := none }
  match r.1 with
  | some i => (startStepIn (handDue s c) s c i, false)
  | none => (endProgram s c x.reason false, true)

/-- The end of one program comes one boundary closer, or takes effect. -/
def stepEndDue (a : State × List (Fin 16)) (c : Fin 16) : State × List (Fin 16) :=
  match (a.1.ch[c]).prog.pend with
  | none => a
  | some x =>
    if (a.1.ch[c]).prog.pstate.active = false then (a.1.updProg c fun p => { p with pend := none }, a.2)
    else if 1 < x.wait then (a.1.updProg c fun p => { p with pend := some { x with wait := x.wait - 1 } }, a.2)
    else
      let b := applyEnd x a.1 c
      (b.1, if b.2 then a.2 ++ [c] else a.2)

/-- The ends that take effect at this boundary, with the channels whose program has ended. -/
def stepEndsDue (s : State) : State × List (Fin 16) := channels.foldl stepEndDue (s, [])

/-! ### Histogram (R183) -/

/-- One unit of the histogram, 0.1 uAh, in uA ns. -/
def histUnit : Nat := 360000000000

/-- Add charge in uA ns to the bin or the total that holds a position in uV above HLO. -/
def histAdd (h : Hist) (pos : Int) (amount : Nat) : Hist :=
  let t := h.rem + amount
  let u := t / histUnit
  let h := { h with rem := t % histUnit }
  if pos < 0 then { h with below := h.below + u }
  else
    let b := (pos / 1000).toNat
    if 2048 ≤ b then { h with above := h.above + u } else { h with bins := h.bins.set b (h.bins.getD b 0 + u) }

/-- The bin that a position enters, if it is a new one in the direction of travel. -/
def newBin (h : Hist) (pos : Int) (down : Bool) : Option Nat :=
  let b := (pos / 1000).toNat
  if pos < 0 ∨ 2048 ≤ b then none
  else
    match h.last with
    | none => some b
    | some a => if (if down then decide (b < a) else decide (a < b)) then some b else none

/-- The moving sum over q bins that ends at bin b. -/
def movingSum (h : Hist) (b q : Nat) (down : Bool) : Nat :=
  (List.range q).foldl (fun a k => a + if down then h.bins.getD (b + k) 0 else if k ≤ b then h.bins.getD (b - k) 0 else 0) 0

/-- The lower edge of the bin in the middle of a moving sum, in mV. -/
def middleEdge (hlo b q : Nat) (down : Bool) : Nat := if down then hlo + b + (q - 1) / 2 else hlo + b - (q - 1) / 2

/-- The higher of a peak and the moving sum over q bins that ends at bin b, with the lower edge of its middle bin. -/
def higherPeak (h : Hist) (hlo b q : Nat) (down : Bool) (p : Nat × Nat) : Nat × Nat :=
  let n := movingSum h b q down
  if p.1 < n then (n, middleEdge hlo b q down) else p

/-- The histogram after a new bin: its last bin, the highest sum of each IC_PEAK condition, and that of a step without
one. -/
def histEnter (h : Hist) (r : List Byte) (hlo b : Nat) (down : Bool) : Hist :=
  { h with
    last := some b
    peaks := vmapI h.peaks fun k p =>
      let c := stCond r k.val
      if cdKind c = 9 then higherPeak h hlo b (cdQual c) down p else p
    top := higherPeak h hlo b h.width down h.top }

/-- ICPV and ICPH of the grade record: the smoothed value is the sum over the bins divided by their number, here in
uAh per mV. The first IC_PEAK condition gives them where the step has one (R183, R184). -/
def gradePeak (g : GradeAcc) (h : Hist) (r : List Byte) : GradeAcc :=
  match peakSlot r with
  | some k => { g with icpv := h.peaks[k].2, icph := h.peaks[k].1 / (10 * max 1 (cdQual (stCond r k.val))) }
  | none => { g with icpv := h.top.2, icph := h.top.1 / (10 * max 1 h.width) }

/-- The voltage that the histogram uses, in uV: V_S, or V_S less the drop over R_int. -/
def histVolt (ch : Chan) (ip : Int) : Int :=
  if hdrIcir ch.prog.recipe.header then ch.vS - divRound (ip * bits ch.model0 0 16) 1000000 else ch.vS

/-- One counted epoch of a step with HIST; the new bin that was entered, if any. -/
def histEpoch (s : State) (c : Fin 16) (ip : Int) (ns : Nat) : State × Option Nat :=
  let ch := s.ch[c]
  let r := ch.prog.cur
  if stFlag r 2 then
    let hlo := hdrHlo ch.prog.recipe.header
    let pos := histVolt ch ip - (hlo : Int) * 1000
    let h := histAdd ch.hist pos (ip.natAbs * ns)
    let b := newBin ch.hist pos ch.neg
    let h := match b with | some b => histEnter h r hlo b ch.neg | none => h
    (s.updCh c fun ch => { ch with hist := h, prog := { ch.prog with grade := gradePeak ch.prog.grade h r } }, b)
  else (s, none)

/-! ### The counted epoch (R170, R174, R184, R185) -/

/-- A sum over the members of a gang. -/
def gangSum (s : State) (c : Fin 16) (f : Chan → Int) : Int := (members s c).foldl (fun a d => a + f s.ch[d]) 0

/-- The charges and energies of the grade record, for an epoch of a step. -/
def gradeEpoch (r : List Byte) (dq de : Int) (g : GradeAcc) : GradeAcc :=
  let g := if stFlag r 3 then
      { g with qin := g.qin + dq.toNat, qout := g.qout + (Int.neg dq).toNat, ein := g.ein + de.toNat,
               eout := g.eout + (Int.neg de).toNat }
    else g
  if stType r = 2 then { g with qpre := g.qpre + dq.toNat } else g

/-- The 1 s means of V_S: a mean is formed when a second of step time has passed. -/
def secondMean (p : Prog) (vs : Int) (ns : Nat) : Prog × Bool :=
  let p := { p with v1sum := p.v1sum + vs, v1n := p.v1n + 1 }
  if p.stepNs / 1000000000 = (p.stepNs - ns) / 1000000000 then (p, false)
  else
    let m := meanOf p.v1sum p.v1n
    ({ p with v1 := (m :: p.v1).take 256, v1sum := 0, v1n := 0,
              v1max := some (match p.v1max with | some x => max x m | none => m) }, true)

/-- The step values after one counted epoch. -/
def countStep (ch : Chan) (p : Prog) (ip dq de : Int) (bad blend reached : Bool) (ns : Nat) : Prog :=
  let der := ch.win == 3 || p.tred
  { p with stepNs := p.stepNs + ns, samples := p.samples + 1, derated := p.derated + b2n der, charge := p.charge + dq,
           energy := p.energy + de, sumV := p.sumV + ch.vS, sumI := p.sumI + ip, sumN := p.sumN + 1,
           perNs := p.perNs + ns, perDer := p.perDer || der, perInv := p.perInv || bad, perBlend := p.perBlend || blend,
           stepBlend := p.stepBlend || blend, eisNs := if reached then p.eisNs + ns else 0 }

/-! ### Conditions and implicit ends (R166, R168) -/

/-- What one epoch shows to the conditions: the total current, whether a second has ended, and the new bin. -/
structure EpochSeen where
  ip : Int
  second : Bool
  bin : Option Nat
deriving DecidableEq, Repr

/-- The count of a condition after the epoch, and whether it is met (table Termination conditions). -/
def condition (ch : Chan) (x : EpochSeen) (k : Fin 4) : Nat × Bool :=
  let p := ch.prog
  let c := stCond p.cur k.val
  let v := cdValue c
  let q := cdQual c
  let n := p.pers[k]
  let persist (ok : Bool) : Nat × Bool := if ok then (n + 1, decide (q ≤ n + 1)) else (0, false)
  match cdKind c with
  | 1 => persist (if cdBelow c then decide (ch.vS < v) else decide (v < ch.vS))
  | 2 => persist (ch.win == 1 && decide ((x.ip.natAbs : Int) ≤ v))
  | 3 => (n, decide (v * 1000000 ≤ p.stepNs))
  | 4 => (n, decide (v * (1000 * 2 ^ 32) ≤ p.charge.natAbs))
  | 5 => (n, decide (v * (1000 * 2 ^ 32) ≤ p.energy.natAbs))
  | 6 =>
    if x.second ∧ q < p.v1.length then
      let d := p.v1.getD 0 0 - p.v1.getD q 0
      (n, if cdBelow c then decide (d < v * q) else decide (v * q < d))
    else (n, false)
  | 7 =>
    if x.second = false then (n, false)
    else if ch.neg ∨ p.stepNs / 1000000000 ≤ 30 then (0, false)
    else persist (decide (p.v1.getD 0 0 + v ≤ p.v1max.getD 0))
  | 9 =>
    match x.bin with
    | some b =>
      let top := ch.hist.peaks[k].1
      (n, decide (v * q < top) && decide (10 * movingSum ch.hist b q ch.neg ≤ 9 * top))
    | none => (n, false)
  | _ => (n, false)

/-- One condition is evaluated. -/
def condEpoch (x : EpochSeen) (c : Fin 16) (s : State) (k : Fin 4) : State :=
  let r := condition s.ch[c] x k
  let cd := stCond (s.ch[c]).prog.cur k.val
  let s := s.updProg c fun p => { p with pers := p.pers.set k.val r.1 k.isLt }
  if r.2 then decideEnd s c k.val 2 (cdKind cd) (cdNext cd) else s

/-- The implicit end of a step is met, with its reason. -/
def implicitEnd (ch : Chan) : Option Nat :=
  let p := ch.prog
  let r := p.cur
  let volt (up : Bool) : Option Nat :=
    if (if up then decide (stVt r ≤ ch.vS) else decide (ch.vS ≤ stVt r)) then some 1 else none
  match stType r with
  | 1 => if (if stVt r = 0 then 1500000 else stVt r) ≤ ch.vS then some 1 else none
  | 3 | 6 => volt (stepUp ch.neg r)
  | 8 => if stPtN r * 1000000 ≤ p.stepNs then some 3 else none
  | 0x0A => if (stIt r).toNat * 1000000000 ≤ p.stepNs then some 3 else none
  | _ => none

/-- The ends of one epoch, in the order of R171. -/
def decideEpoch (x : EpochSeen) (s : State) (c : Fin 16) : State :=
  let s := (List.finRange 4).foldl (condEpoch x c) s
  match implicitEnd s.ch[c] with
  | some reason => decideEnd s c 4 2 reason 0xFD
  | none => s

/-! ### One program at a boundary -/

/-- The epoch that ended is counted where the program was in RUN throughout it; an epoch in which a step was already
left counts for its grade charges only. -/
def countEpoch (ns : Nat) (s : State) (c : Fin 16) : State :=
  let ch := s.ch[c]
  let p := ch.prog
  let s := if p.pstate.active && s.meas.holdx then s.updProg c fun p => { p with grade := p.grade.flag 4 } else s
  if !p.live || stepRuns ch = false then s
  else
    let ip := gangSum s c fun d => d.iP
    let dq := gangSum s c fun d => chargeOf d.iP ns
    let de := gangSum s c fun d => energyOf d.pW ns
    let s := s.updProg c fun p => { p with grade := gradeEpoch (p.rec? p.liveStep) dq de p.grade }
    if p.fresh then s
    else
      let blend := (members s c).any fun d => (s.ch[d]).blendWord
      let reached := decide (ch.rI = clampInt (Int.neg (iMax s c)) (iMax s c) ch.tgtI)
      let s := s.updProg c fun p => countStep ch p ip dq de (measInvalid s c) blend reached ns
      let m := secondMean (s.ch[c]).prog ch.vS ns
      let h := histEpoch (s.updProg c fun _ => m.1) c ip ns
      decideEpoch { ip := ip, second := m.2, bin := h.2 } h.1 c

/-- The program runs from this boundary on, or not. -/
def markLive (s : State) (c : Fin 16) : State :=
  s.updCh c fun ch => { ch with prog := { ch.prog with live := stepRuns ch, liveStep := ch.prog.step, fresh := false } }

/-! ### Ring capacity (R186) -/

/-- The ring of a channel with an active program reaches its reserve, or is below it again. -/
def ringCheck (s : State) (c : Fin 16) : State :=
  let ch := s.ch[c]
  let held := ch.prog.causes.contains hcLogfull
  if held then if ch.logF || decide (ringUsed ch < 6128) then clearCauses s c [hcLogfull] else s
  else if ch.prog.pstate.active && !ch.logF && decide (6136 ≤ ringUsed ch) then
    queueEvent (addCause s c hcLogfull) 0x0217 (p1 c.val)
  else s

end Sys2Proof.Machine
end

