-- ==== Sys2Proof/Machine/ChannelEvents.lean ====
section
/-! DEFINITION. Family power channels, its events: the end of CHECK, the short check, foldback, burst trickle, leg
imbalance and the end of an opening (R53 to R74). -/
namespace Sys2Proof.Machine

/-! ### CHECK (R66, R70) -/

/-- The sense lead VSPn is open: V_S rose by more than 100 mV. -/
def checkOpenP (m : CheckMeas) : Bool := decide (100000000 < m.dP)

/-- The sense lead VSNn is open: V_S fell by more than 100 mV. -/
def checkOpenN (m : CheckMeas) : Bool := decide (m.dN < -100000000)

/-- V_S exceeds 0.5 V, so that step 6 is made. -/
def checkCompares (m : CheckMeas) : Bool := decide (500000000 < m.vs)

/-- R_c in units of 10 uOhm, saturating; 0xFFFF where no current flowed. The manual gives no rounding: to the nearest
unit, halves away from zero, and step 10 compares the stored value with RCMAX. DESIGN CHOICE, log entry 173. -/
def checkRc (m : CheckMeas) : Nat :=
  if m.noCurrent ∨ m.i1 ≤ 0 then 0xFFFF else satIntNat 16 (divRound ((m.o1 - m.o0) * 100) m.i1.toNat)

/-- What step 2 finds. -/
def polarityFail (m : CheckMeas) : Bool := decide (m.vs < -20000000)

/-- What step 6 finds. -/
def disconnectFail (m : CheckMeas) : Bool := (checkCompares m) && decide ((m.vf - m.vs).natAbs < 20000000)

/-- What steps 8 and 10 find. -/
def contactFail (s : State) (d : Fin 16) (m : CheckMeas) : Bool :=
  m.noCurrent || decide (100 * bits (s.ch[d]).chkcfg 0 8 < (checkRc m))

/-- The outcome of CHECK over the members: passed, no cell, or the members that fail with their causes. -/
inductive CheckEnd
  | pass
  | noCell
  | fail (l : List (Fin 16 × Nat))
deriving DecidableEq, Repr

/-- The steps of CHECK over the members: 1 to 6 on all together, 7 to 10 member after member (R66, R70). -/
def checkOutcome (s : State) (l : List (Fin 16 × CheckMeas)) : CheckEnd :=
  let pol := l.filter fun x => polarityFail x.2
  if pol ≠ [] then .fail (pol.map fun x => (x.1, 1))
  else if l.all fun x => (checkOpenP x.2) && (checkOpenN x.2) then .noCell
  else
    let opn := l.filter fun x => (checkOpenP x.2) || (checkOpenN x.2)
    if opn ≠ [] then .fail (opn.map fun x => (x.1, 2))
    else
      let dis := l.filter fun x => disconnectFail x.2
      if dis ≠ [] then .fail (dis.map fun x => (x.1, 3))
      else
        match l.find? fun x => contactFail s x.1 x.2 with
        | some x => .fail [(x.1, 4)]
        | none => .pass

/-- The members whose R_c CHECK measured, in order, up to the first that fails. -/
def measuredUpTo (s : State) : List (Fin 16 × CheckMeas) → List (Fin 16 × CheckMeas)
  | [] => []
  | x :: r => if contactFail s x.1 x.2 then [x] else x :: measuredUpTo s r

/-- A member passes CHECK. -/
def passMember (s : State) (x : Fin 16 × CheckMeas) : State :=
  let s := moveChannel s x.1 .armed
  let s := s.updCh x.1 fun ch =>
    { ch with checking := false, dsw := true, chkResult := 1, rc := (checkRc x.2), dswnc := !(checkCompares x.2) }
  checkDoneEvent s x.1

/-- A member ends CHECK without a cell. -/
def noCellMember (s : State) (x : Fin 16 × CheckMeas) : State :=
  let s := moveChannel s x.1 .off
  let s := s.updCh x.1 fun ch =>
    { ch.flagFault 8 with checking := false, chkResult := 2, rc := 0xFFFF }
  checkDoneEvent s x.1

/-- CHECK fails: every member goes to FAULT, the failing ones with their own causes, the others with GANG; the members
whose R_c was measured had DSWn asserted. DSWNC changes only where step 6 was reached; before it, it keeps its value.
DESIGN CHOICE, log entry 172. -/
def failMembers (s : State) (l : List (Fin 16 × CheckMeas)) (f : List (Fin 16 × Nat)) : State :=
  let measured := if f.all fun x => x.2 == 4 then measuredUpTo s l else []
  l.foldl (fun s x =>
    let cause := ((f.find? fun y => y.1 == x.1).map (·.2)).getD 8
    let probed := measured.any fun y => y.1 == x.1
    let s := faultChannel (s.updCh x.1 fun ch => { ch with dsw := ch.dsw || probed }) x.1 cause
    let rc := if probed then (checkRc x.2) else 0xFFFF
    let s := s.updCh x.1 fun ch =>
      { ch with rc := rc, dswnc := if f.all (fun y => 3 ≤ y.2) then !(checkCompares x.2) else ch.dswnc }
    checkDoneEvent s x.1) s

/-- A program whose channel reaches ARMED after the device has left FORM pauses (R176, R210). -/
def pauseAfterCheck (s : State) (c : Fin 16) : State :=
  if (s.ch[c]).prog.pstate = .run ∧ s.sys.mode ≠ .form then
    let s := formRecord s c 0x0A (plainFlags s) (progPayload s.ch[c] 3 0)
    s.updProg c fun p => { p with pstate := .pause }
  else s

/-- The CHECK sequence of a channel or gang ends (R66, R70). -/
def checkEnds (c : Fin 16) (meas : List CheckMeas) (s : State) : State :=
  let ms := members s c
  if ms.length ≠ meas.length ∨ ms.any (fun d => !(s.ch[d]).checking || (s.ch[d]).opening != .none) then s
  else
    let l := List.zip ms meas
    match checkOutcome s l with
    | .pass => pauseAfterCheck (l.foldl passMember s) (leaderOf s c)
    | .noCell =>
      let s := abortProgram s (leaderOf s c) 0x21
      l.foldl noCellMember s
    | .fail f => failMembers s l f

/-! ### Short check (R71) -/

/-- The charge QSC has entered the cell without the required rise of V_S (R71). -/
def shortCheck (c : Fin 16) (s : State) : State :=
  match (s.ch[c]).short with
  | none => s
  | some x =>
    let ch := s.ch[c]
    if x.vs + 20000 < ch.vS then s.updCh c fun ch => { ch with short := none }
    else if (bits ch.chkcfg 8 8 : Int) * 100000 * 2 ^ 32 ≤ ch.q - x.q then faultGang s c 5
    else s

/-! ### Foldback and burst trickle (R57, R58) -/

/-- The lowest switching frequency of foldback, in kHz. -/
def foldFloor : Nat := 40

/-- f_eff after one update, from the averaged on-time in ps (R57). -/
def foldNext (f fsw tdPs : Nat) : Nat :=
  if tdPs < 70000 then max foldFloor (f * tdPs / 80000)
  else if 120000 < tdPs ∧ f < fsw then min fsw (f * tdPs / 100000)
  else f

/-- FOLD changes from 0 to 1: counted, and queued once per channel and epoch. -/
def foldEntry (s : State) (c : Fin 16) : State :=
  let s := s.updCh c fun ch => { ch with fold := true, foldN := satInc 16 ch.foldN }
  queueOnce s 0x0204 c.val (p1 c.val ++ p4 (s.ch[c]).feff)

/-- The leg controller changes f_eff from the averaged on-time (R57). -/
def foldUpdate (c : Fin 16) (tdPs : Nat) (s : State) : State :=
  let ch := s.ch[c]
  if !ch.gates || ch.burst then s
  else
    let fsw := bits ch.fswF 0 9
    let f := foldNext ch.feff fsw tdPs
    let s := s.updCh c fun ch => { ch with feff := f }
    if f < fsw then if ch.fold then s else foldEntry s c
    else s.updCh c fun ch => { ch with fold := false }

/-- A channel enters burst trickle (R58). -/
def burstStart (s : State) (c : Fin 16) : State :=
  let s := s.updCh c fun ch =>
    { ch with burst := true, fold := false, feff := foldFloor, burstN := satInc 16 ch.burstN, burstAbove := 0,
              floorClamp := false }
  queueEvent s 0x0205 (p1 c.val)

/-- At the 40 kHz floor the averaged on-time has stayed below 60 ns while charging (R58). -/
def burstEntry (c : Fin 16) (tdPs : Nat) (s : State) : State :=
  let ch := s.ch[c]
  if ch.st = .run ∧ ch.gates ∧ ch.burst = false ∧ ch.neg = false ∧ ch.feff = foldFloor ∧ tdPs < 60000 then burstStart s c
  else s

/-- V_cell has been above the exit voltage for 10 epochs: continuous regulation at the floor, an entry into foldback
(R57, R58); a HOLD with its gates off stays so. -/
def burstLeave (c : Fin 16) (s : State) : State :=
  let ch := s.ch[c]
  if ch.burst ∧ 10 ≤ ch.burstAbove then
    let s := s.updCh c fun ch =>
      { ch with burst := false, feff := if ch.gates then foldFloor else 0, burstAbove := 0 }
    let s := queueEvent s 0x0206 (p1 c.val)
    if ch.gates then foldEntry s c else s
  else s

/-- The balance trim has been at its limit for 64 periods (R53, R54). -/
def legImbalanced (c : Fin 16) (positive : Bool) (s : State) : State :=
  let ch := s.ch[c]
  if ch.gates ∧ ch.cfg.getLsbD 2 ∧ ch.burst = false ∧ (runningLegs s c).length = 2 then
    let t : Int := if positive then 300 else -300
    let told := ch.imbal
    let s := s.updCh c fun ch => { ch with trim := t, imbal := true, imbalEpochs := 0 }
    if told then s else queueEvent s 0x0207 (p1 c.val ++ p4 t)
  else s

/-! ### Openings (R68) -/

/-- The precision current has stayed below 200 mA for 1 ms: all switches off (R68, R210). -/
def orderlyGatesOff (c : Fin 16) (s : State) : State :=
  match (s.ch[c]).opening with
  | .orderly => openChannel s c fun ch => { ch.gatesOff with opening := .gatesOff }
  | .ramp => sequenceEnds (openChannel s c fun ch => { ch.gatesOff with opening := .none }) c
  | _ => s

/-- DSWn is deasserted (R68). -/
def disconnectOpens (c : Fin 16) (s : State) : State :=
  match (s.ch[c]).opening with
  | .gatesOff | .forced => sequenceEnds (s.updCh c fun ch => { ch with opening := .none, dsw := false }) c
  | _ => s

/-! ### Meanings -/

/-- CHECK_DONE. -/
def execCheckDone (ch : Fin 16) (meas : List CheckMeas) (s : State) : Host.Outcome State Fault Refusal :=
  .next (checkEnds ch meas s)

/-- SHORT_CHECK_EXPIRY. -/
def execShortCheckExpiry (ch : Fin 16) (s : State) : Host.Outcome State Fault Refusal := .next (shortCheck ch s)

/-- FOLDBACK_UPDATE. -/
def execFoldbackUpdate (ch : Fin 16) (tdPs : Nat) (s : State) : Host.Outcome State Fault Refusal :=
  .next (foldUpdate ch tdPs s)

/-- BURST_ENTER. -/
def execBurstEnter (ch : Fin 16) (tdPs : Nat) (s : State) : Host.Outcome State Fault Refusal :=
  .next (burstEntry ch tdPs s)

/-- BURST_EXIT. -/
def execBurstExit (ch : Fin 16) (s : State) : Host.Outcome State Fault Refusal := .next (burstLeave ch s)

/-- LEG_IMBALANCE. -/
def execLegImbalance (ch : Fin 16) (positive : Bool) (s : State) : Host.Outcome State Fault Refusal :=
  .next (legImbalanced ch positive s)

/-- ORDERLY_STOP_GATES_OFF. -/
def execOrderlyStopGatesOff (ch : Fin 16) (s : State) : Host.Outcome State Fault Refusal := .next (orderlyGatesOff ch s)

/-- DISCONNECT_OPEN. -/
def execDisconnectOpen (ch : Fin 16) (s : State) : Host.Outcome State Fault Refusal := .next (disconnectOpens ch s)

end Sys2Proof.Machine
end

