-- ==== Sys2Proof/Machine/Samples.lean ====
section
/-! DEFINITION. The outer-loop sample of an epoch: loops, short checks, distribution to the legs and supervision of every
channel that an owner drives (R71, R96 to R106, R115 to R117, R155). -/
namespace Sys2Proof.Machine

/-! ### Feedback (R96, R97, R105, R155) -/

/-- The amplitude of the excitation of an EIS step, in uA (R181). -/
def stepAmplitude (r : List Byte) : Nat :=
  if 2 ^ 31 ≤ stPtN r then stPtN r - 2 ^ 31 else (stIt r).natAbs * stPtN r / 10000

/-- The amplitude of the excitation that runs on a leader: of MEAS_EIS, or of an EIS step (R155, R181). -/
def excitationAmp (ch : Chan) : Nat :=
  if ch.burst then 0
  else
    match ch.hostMeas with
    | .eis _ _ _ a => a
    | _ => if eisRuns ch then stepAmplitude ch.prog.cur else 0

/-- The phase step of the excitation over ns nanoseconds at f_E, in 2^-48 of a turn (R155, R156). -/
def ddsStep (ch : Chan) (ns : Nat) : Nat :=
  let w := eisWindow (eisPoint ch).1 (eisPoint ch).2
  (divRound (2 ^ 48 * 64 * w.1 * ns : Nat) (max 1 (1000000 * w.2))).toNat

/-- What the loops of a leader see: gang sums of current and power, the sense voltage of the leader (R105). -/
def sampleIn (s : State) (c : Fin 16) (exc : Int) : SampleIn :=
  { ip := gangSum s c fun d => d.iP, exc := exc, vs := (s.ch[c]).vS, pw := gangSum s c fun d => d.pW, plim := pLim s c,
    tmargin := tempMargin s c, imax := iMax s c, bmax := bits (s.ch[c]).burstReg 0 12 * 1000 }

/-! ### Charging starts (R71) -/

/-- The arming voltage of the short check in uV. -/
def armingVoltage (ch : Chan) : Int :=
  let r := ch.prog.cur
  if ch.src = .auto ∧ ch.prog.pstate = .run ∧ stType r = 1 then if stVt r = 0 then 1500000 else stVt r
  else bits ch.chkcfg 16 12 * 1000

/-- The short check of a channel after the start of a sample: it ends in discharge and once V_S has risen by more than
20 mV; at a charging start below the arming voltage it begins. -/
def shortStart (ch : Chan) (charging : Bool) : Chan :=
  match ch.short with
  | some x => if ch.neg ∨ x.vs + 20000 < ch.vS then { ch with short := none } else ch
  | none =>
    if charging && !ch.neg && decide (ch.vS < armingVoltage ch) then { ch with short := some { vs := ch.vS, q := ch.q } }
    else ch

/-- The start of a sample of a leader: ramps, direction, the allowance of a new direction (R196), and the short check.
-/
def openSample (s : State) (c : Fin 16) : State :=
  let old := s.ch[c]
  let s := s.updCh c fun ch => beginSample ch ch.vS (iMax s c) (fOut2 s)
  let neg := (s.ch[c]).neg
  let s := if neg = old.neg then s.updCh c fun ch => { ch with allow := allowanceOf s c } else turnAllow s c neg
  let s := (members s c).foldl (fun s d =>
    s.updCh d fun ch => { ch with neg := neg, negB := if old.zeroStart then neg else ch.negB
                                  sup := if old.zeroStart then Vector.replicate 4 0 else ch.sup,
                                  share := if old.zeroStart then 0 else ch.share, zeroStart := false }) s
  s.updCh c fun ch => shortStart ch (old.zeroStart || old.neg)

/-! ### Distribution (R20, R64, R105, R106) -/

/-- Release a reference to a leg (R19, R20); not while the group is waiting for an unplanned castling (R120). -/
def releaseRef (s : State) (l : Fin 32) (iref : Int) : State :=
  if recoversGroup s (groupOfLeg l) then s else s.updLeg l fun x => x.accept iref

/-- The reference of one channel divided over its running legs; in burst trickle one leg takes the whole of it, at zero
or above (R60). The manual gives no rounding of I_sel/2: to the nearest uA, halves away from zero. DESIGN CHOICE, log
entry 184. -/
def releaseChannel (s : State) (c : Fin 16) (iref : Int) : State :=
  match runningLegs s c with
  | [a, b] =>
    if (s.ch[c]).burst then releaseRef (releaseRef s a (max 0 iref)) b 0
    else releaseRef (releaseRef s a (divRound iref 2)) b (divRound iref 2)
  | [a] => releaseRef s a (if (s.ch[c]).burst then max 0 iref else iref)
  | _ => s

/-- The share trim of a member after one sample; the 3 % limit and the step are rounded to the nearest uA. DESIGN
CHOICE, log entry 184. -/
def trimShare (share base ip : Int) : Int :=
  let lim := divRound (base.natAbs * 3 : Nat) 100
  clampInt (Int.neg lim) lim (share + divRound (base - ip) 16)

/-- A follower in burst trickle whose reference is below zero enters the clamp of R60, with DISCHG_FLOOR at the entry.
-/
def followerFloor (iref : Int) (s : State) (d : Fin 16) : State :=
  let ch := s.ch[d]
  let floor := ch.burst && decide (iref < 0)
  let s := s.updCh d fun ch => { ch with floorClamp := floor }
  if floor && !ch.floorClamp then queueEvent s 0x0208 (p1 d.val) else s

/-- The references of a leader and its members; I_sel/N is rounded to the nearest uA. DESIGN CHOICE, log entry 184. -/
def distribute (s : State) (c : Fin 16) : State :=
  let ms := members s c
  let sel := (s.ch[c]).iSel
  if ms.length = 1 then releaseChannel s c sel
  else
    let base := divRound sel ms.length
    ms.foldl (fun s d =>
      let s := s.updCh d fun ch => { ch with share := trimShare ch.share base ch.iP, iSel := if d = c then sel else ch.iSel }
      let iref := base + (s.ch[d]).share
      releaseChannel (if d = c then s else followerFloor iref s d) d iref) s

/-- The switching periods of an epoch at the frequency in force; the first begins at the boundary. DESIGN CHOICE, log
entry 141. -/
def excitePeriods (s : State) (c : Fin 16) : Nat := max 1 ((s.ch[c]).feff * epochNs s / 1000000)

/-- I_E sin(phi) in each switching period of an epoch, in uA (R155). -/
def exciteWave (amp dds inc n : Nat) : List Int :=
  (List.range n).map fun k => divRound (amp * fxSin ((dds + inc * k / n) % 2 ^ 48) (2 ^ 48)) fxOne

/-- The excitation of one channel, divided over its running legs as its reference is. -/
def exciteChannel (x : List Int) (s : State) (c : Fin 16) : State :=
  let l := runningLegs s c
  l.foldl (fun s l' => s.updLeg l' fun y => { y with exc := x.map fun v => divRound v l.length }) s

/-- The excitation of the new epoch is added to the references of the running legs, evaluated once per switching period;
its epoch mean stays with the leader (R155). -/
def exciteLegs (s : State) (c : Fin 16) (amp inc : Nat) : State :=
  let x := exciteWave amp (s.ch[c]).dds inc (excitePeriods s c)
  let ms := members s c
  let s := ms.foldl (exciteChannel (x.map fun v => divRound v ms.length)) s
  s.updCh c fun ch => { ch with excMean := divRound (x.foldl (· + ·) 0) (max 1 x.length) }

/-- No excitation on the legs of a leader and its members in the new epoch. -/
def exciteNone (s : State) (c : Fin 16) : State :=
  let s := (members s c).foldl (exciteChannel []) s
  s.updCh c fun ch => { ch with excAmp := 0, excMean := 0, dds := 0 }

/-- The excitation of a leader for the new epoch, with |I_sel| + I_E within I_max. One that ends goes on to its next
zero of phase, but for burst trickle (R155, R327). The settling of a point counts from its first epoch (R181). -/
def excite (s : State) (c : Fin 16) : State :=
  let s := s.updCh c fun ch =>
    { ch with excAt := if eisActive ch then (match ch.excAt with | some t => some t | none => some s.sys.tbase) else none }
  let ch := s.ch[c]
  let want := excitationAmp ch
  let room := (iMax s c - ch.iSel.natAbs).toNat
  if 0 < want then
    let step := ddsStep ch (epochNs s)
    (exciteLegs s c (min want room) step).updCh c fun ch =>
      { ch with excAmp := min want room, excClamp := ch.excClamp || decide (room < want), excInc := step
                dds := (ch.dds + step) % 2 ^ 48 }
  else if ch.burst || ch.dds = 0 then exciteNone s c
  else
    let a := min ch.excAmp room
    (exciteLegs s c a ch.excInc).updCh c fun ch =>
      { ch with excAmp := a, dds := if 2 ^ 48 ≤ ch.dds + ch.excInc then 0 else ch.dds + ch.excInc }

/-! ### Supervision (R115, R116, R117) -/

/-- SUPEN bit of a leader: 0 cell model, 1 leg sum, 2 force against sense. -/
def supEnabled (ch : Chan) (i : Nat) : Bool := ch.ctl.getLsbD (8 + i)

/-- Put the residual of a check, and count it against its threshold. -/
def Chan.judge (ch : Chan) (k : Fin 4) (r : Int) (suspended failed : Bool) : Chan :=
  { ch with res := ch.res.set k.val r k.isLt, sup := ch.sup.set k.val (superCount ch.sup[k] suspended failed) k.isLt }

/-- The cell model of a leader on the gang quantities. -/
def superviseModel (s : State) (c : Fin 16) (ip : Int) : State :=
  let bad := measInvalid s c
  s.updCh c fun ch =>
    let ch := cellModel { ch with sinceZero := min 255 (ch.sinceZero + 1) } ch.vS ip (fOut2 s)
    let r := modelResidual ch ch.vS ip
    ch.judge 0 r (!supEnabled ch 0 || decide (ch.sinceZero ≤ 16) || ch.burst || bad)
      (decide ((bits ch.supcfg 0 8 : Nat) * 1000 < r.natAbs))

/-- The leg sum, force against sense and gang sense of one member. -/
def superviseMember (c : Fin 16) (s : State) (d : Fin 16) : State :=
  let l := s.ch[c]
  let m := s.ch[d]
  let early := decide (l.sinceZero ≤ 16)
  let margin := bits l.supcfg 24 8 * 1000
  let legs := ((s.leg[legA d]).current + (s.leg[legB d]).current) * 1000
  let sum := legs - m.iP
  let force := m.vF - m.vS - divRound (m.iP * m.rc) 100000
  let gang := m.vS - l.vS
  let s := s.updCh d fun ch =>
    ch.judge 1 sum (!supEnabled l 1 || l.burst || m.invalid)
      (decide (bits l.supcfg 16 8 * memberLimit s d + 50000000 < (sum.natAbs : Int) * 1000))
  let s := s.updCh d fun ch =>
    ch.judge 2 force (!supEnabled l 2 || early || m.invalid) (decide (margin < force.natAbs))
  if d = c then s
  else
    s.updCh d fun ch => ch.judge 3 gang (!supEnabled l 2 || early || m.invalid || l.invalid) (decide (margin < gang.natAbs))

/-- The checks of a leader and its members. -/
def supervise (s : State) (c : Fin 16) (ip : Int) : State :=
  (members s c).foldl (superviseMember c) (superviseModel s c ip)

/-! ### The sample -/

/-- What the sample of a leader reports: LOOP_OVF for each loop that saturated, DISCHG_FLOOR, and whether PLOOP won
(R60, R100, R191). -/
def reportSample (s : State) (c : Fin 16) (o : SampleOut) : State :=
  let s := (List.finRange 4).foldl (fun s j =>
    if o.ovf.getLsbD j.val then queueOnce s 0x020D (4 * c.val + j.val) (p1 c.val ++ p1 j.val) else s) s
  let s := if o.floorEntry then queueEvent s 0x0208 (p1 c.val) else s
  s.updCh c fun ch => { ch with plNow := decide (ch.win = 2) }

/-- The burst exit counts of a channel: V_cell above the lower of 0.0035 V_LINK and 0.150 V (R58). -/
def countBurst (s : State) (c : Fin 16) : State :=
  let above := decide (min (7 * s.link.vlink) 300000 < 2 * (s.ch[leaderOf s c]).vS)
  s.updCh c fun ch => if ch.burst then { ch with burstAbove := if above then min 10 (ch.burstAbove + 1) else 0 } else ch

/-- The sample of a leader in RUN. -/
def runSample (s : State) (c : Fin 16) : State :=
  let s := openSample s c
  let i := sampleIn s c (s.ch[c]).excMean
  let o := loopSample s.ch[c] i
  let s := reportSample (s.updCh c fun _ => o.ch) c o
  supervise (excite (distribute s c) c) c i.ip

/-- The legs of a channel whose current is brought to zero: by STOPR.RATE in an opening, at a mode change and in the
HOLD of a category 2 stop, at once in any other HOLD and with the gates off (R68, R109, R210, R238). -/
def idleLegs (s : State) (c : Fin 16) : State :=
  let ch := s.ch[c]
  let n : Int := max 1 (runningLegs s c).length
  let step : Int := divRound ((bits ch.stoprF 0 8 * epochNs s : Nat) : Int) n.toNat
  let f (l : Leg) : Leg :=
    if ch.gates && (ch.opening == .orderly || ch.opening == .ramp || ch.slow) then
      { l with iref := if step < l.iref then l.iref - step else if l.iref < Int.neg step then l.iref + step else 0 }
    else { l with iref := 0 }
  (s.updLeg (legA c) f).updLeg (legB c) f

/-- A channel in a restart interval. -/
def inRestart (s : State) (c : Fin 16) : Bool := (s.leg[legA c]).restart || (s.leg[legB c]).restart

/-- A leader in RUN whose current is held at zero by a restart interval of a leg of the gang: its checks go on (R115).
-/
def sampleIdle (s : State) (c : Fin 16) : State :=
  let s := (members s c).foldl (fun s d =>
    let s := s.updCh d loopIdle
    (s.updLeg (legA d) fun l => l.accept 0).updLeg (legB d) fun l => l.accept 0) s
  supervise s c (gangSum s c fun d => d.iP)

/-- The sample of one leader. -/
def sampleLeader (s : State) (c : Fin 16) : State :=
  if isFollower s c ∨ (s.grp[groupOf c]).owner = none then s
  else
    match (s.ch[c]).st with
    | .run =>
      if (members s c).any (inRestart s) then sampleIdle ((exciteNone s c).updCh c fun ch => { ch with excAt := none }) c
      else runSample s c
    | .hold => (members s c).foldl (fun s d => s.updCh d loopIdle) s
    | _ => s

/-- The samples of an epoch. -/
def samples (s : State) : State :=
  let s := channels.foldl countBurst (channels.foldl sampleLeader s)
  channels.foldl (fun s c => if (s.ch[c]).st = .run then s
    else (idleLegs (exciteNone s c) c).updCh c freezeFlags) s

end Sys2Proof.Machine
end

