-- ==== Sys2Proof/Machine/Commits.lean ====
section
/-! DEFINITION. What commits at a boundary: castlings, lane substitutions, mode, gang and setpoint changes and channel
commands in the order of R28, and the channels that start, hold and resume there (R24, R28, R58, R72, R177, R203). -/
namespace Sys2Proof.Machine

/-! ### Starts (R58, R72, R203) -/

/-- A channel that enters RUN charging with V_cell / V_LINK below 0.0025 starts in burst trickle; one that is in burst
trickle stays there (R58). -/
def startBurst (vs : Int) (s : State) (c : Fin 16) : State :=
  if (s.ch[c]).burst then s.updCh c fun ch => { ch with feff := foldFloor }
  else if 0 ≤ (s.ch[c]).tgtI ∧ 2 * vs < 5 * s.link.vlink then burstStart s c
  else s

/-- A leader and its members go from ARMED to HOLD, with the gates off as they are in ARMED. -/
def holdArmed (s : State) (c : Fin 16) (cause : Nat) : State :=
  (members s c).foldl (fun s d => (moveChannel s d .hold).updCh d loopIdle) (holdProgram s c cause)

/-- A leader and its members enter RUN; in LOST a charging channel goes to HOLD with cause STALEMATE instead (R203): its
gates stay as they are in ARMED, off, until it runs. DESIGN CHOICE, log entry 210. A program whose running copy has been
lost holds with cause 7 (R362). -/
def startRun (s : State) (c : Fin 16) : State :=
  let ms := members s c
  if s.link.st = .lost ∧ 0 ≤ (s.ch[c]).tgtI then
    holdArmed (joinStalemate s c) c hcStalemate
  else if (s.ch[c]).prog.causes.contains hcIsland then holdArmed s c hcIsland
  else
    let s := ms.foldl (fun s d => s.updCh d fun ch => { ch with tgtI := (s.ch[c]).tgtI }) s
    ms.foldl (startBurst (s.ch[c]).vS) (runGang s c)

/-- An ARMED channel that follows the host registers starts with a setpoint (R72). -/
def startHost (s : State) (c : Fin 16) : State :=
  if followsHost s c ∧ (s.ch[c]).st = .armed ∧ (s.grp[groupOf c]).owner ≠ none ∧ !(members s c).any (cpLatched s) then
    startRun s c
  else s

/-- An ARMED channel whose program is in RUN starts, in FORM: its first step, or the step at which it paused (R163,
R177). -/
def startProgram (s : State) (c : Fin 16) : State :=
  let p := (s.ch[c]).prog
  if isFollower s c ∨ (s.ch[c]).st ≠ .armed ∨ p.pstate ≠ .run ∨ s.sys.mode ≠ .form ∨ (s.grp[groupOf c]).owner = none
      ∨ startBlocked s c then s
  else if p.started then startRun (setStepTargets s c) c
  else
    let r := resolveStep resolveFuel p (some p.step)
    let s := s.updProg c fun p => { p with loops := r.2.loops, grade := { p.grade with tstart := s.sys.tbase } }
    match r.1 with
    | some i => startRun (startStep s c i) c
    | none => stopGang (endProgram s c 0 false) c 0

/-! ### Holds (R177, R203) -/

/-- A leader in RUN with a hold cause goes to HOLD. -/
def holdDue (s : State) (c : Fin 16) : State :=
  let causes := (s.ch[c]).prog.causes
  if isFollower s c ∨ (s.ch[c]).st ≠ .run ∨ causes = [] then s
  else (members s c).foldl holdChannel (holdProgram s c (causes.headD 0))

/-- A leader in HOLD without a cause goes back to RUN, in FORM and DIRECT; its program, unless it is in HAND, resumes.
-/
def resumeDue (s : State) (c : Fin 16) : State :=
  let ch := s.ch[c]
  if isFollower s c ∨ ch.st ≠ .hold ∨ ch.prog.causes ≠ [] ∨ (s.sys.mode ≠ .form ∧ s.sys.mode ≠ .direct)
      ∨ (s.grp[groupOf c]).owner = none then s
  else if s.link.st = .lost ∧ 0 ≤ ch.tgtI then joinStalemate s c
  else
    match ch.prog.pstate with
    | .hold => startRun (resumeProgram s c) c
    | .pause => s
    | _ => startRun s c

/-! ### Staged changes (R24, R28) -/

/-- The letter of a mode in the tables of Command set. -/
def Mode.letter : Mode → Letter
  | .boot => .b | .configure => .c | .idle => .i | .form => .f | .direct => .d | .service => .s | .dormant => .m
  | .safe => .z

/-- The reply of a staged change. -/
def replyChange (s : State) (x : Staged) (st : Byte) (payload : List Byte) : State :=
  match x.tag with
  | some t => reply s t x.opc st payload
  | none => s

/-- Apply the effect of a command to each selected channel, rising. -/
def overMask (s : State) (m : Mask) (f : State → Fin 16 → State) : State :=
  (channels.filter fun c => m.getLsbD c.val).foldl f s

/-- A channel-mask command commits. -/
def commitMask (s : State) (x : Staged) (m : Mask) (f : State → Fin 16 → State) : State :=
  replyChange (overMask s m f) x stOk (maskResults m stOk)

/-- ARM, PROG_START or RESUME commits; where one of the selected channels may no longer start, nothing does, and the
reply tells which (R40, R249, R280, R313). -/
def commitStarts (s : State) (x : Staged) (m : Mask) (f : State → Fin 16 → State) : State :=
  let now (c : Fin 16) : Byte := if startBlocked s c then stFaultActive else stOk
  match firstRefusal m now with
  | some st => replyChange s x st (resultBytes m now)
  | none => commitMask s x m f

/-- A gang arrangement commits where the conditions of its write still hold (R63). -/
def commitGang (s : State) (g : Fin 4) (v : BitVec 3) : State :=
  if (s.sys.mode = .configure ∨ s.sys.mode = .idle) ∧ (chansOf g).all (fun c => (s.ch[c]).st == .off) then
    queueEvent (s.updGrp g fun gr => { gr with gang := v }) 0x0209 (p1 g.val ++ p1 v.toNat)
  else s

/-- A setpoint step change commits, and an ARMED channel starts. -/
def commitSet (s : State) (x : Staged) (c : Fin 16) (sel : BitVec 4) (iset vset iramp vramp : Word) : State :=
  replyChange (startHost (commitSetpoint s c sel iset vset iramp vramp) c) x stOk []

/-- A MARK record is written at the boundary, unless the ring is full there (R328); the epoch that it carries is the one
that ends there. -/
def commitMark (s : State) (x : Staged) (c : Fin 16) (data : List Byte) : State :=
  let d : RecDraft := { tbase := none, ch := c, type := 0x0C, rflags := plainFlags s, payload := data,
                        epoch := (s.sys.epoch.toNat + 2 ^ 48 - 1) % 2 ^ 48 }
  if ringFull s.ch[c] then replyChange s x stFaultActive [] else replyChange (writeRecord s d) x stOk []

/-- The protection latches of a SAFE_ACK are cleared, all of them or none (R246, R249). -/
def commitClearLatch (s : State) (x : Staged) (m : Mask) : State :=
  let stay := latchesStay s m
  if stay ≠ 0 then replyChange s x stSafetyDenied (ackPayload 0 stay)
  else replyChange (clearLatches s m) x stOk (toLE 4 0)

/-- The effect of a staged change that is no mode or gang change. -/
def applyChange (s : State) (x : Staged) : State :=
  match x.change with
  | .mode .. => s
  | .gang .. => s
  | .setpoint c sel iset vset iramp vramp => commitSet s x c sel iset vset iramp vramp
  | .pulse c i1 durNs => match x.tag with | some t => commitPulse s c i1 durNs t | none => s
  | .arm m => commitStarts s x m commitArm
  | .stop m => commitMask s x m commitStop
  | .hold m => commitMask s x m commitHold
  | .resume m => commitStarts s x m commitResume
  | .clear m => commitMask s x m commitClear
  | .hand m enter => commitMask s x m (commitHand enter)
  | .start m => commitStarts s x m commitStart
  | .abort m => commitMask s x m commitAbort
  | .mark c data => commitMark s x c data
  | .clearLatch m => commitClearLatch s x m
  | .source c => takeSource s.sys.mode s.sys.mode s c
  | .castle _ => s
  | .lane _ => s

/-- A staged change that the new mode does not serve completes with WRONG_MODE (R28, R213). -/
def refuseChange (s : State) (x : Staged) : State :=
  replyChange s x stWrongMode (match x.change.mask? with | some m => maskResults m stWrongMode | none => [])

/-- A staged change of a later kind commits, unless the new mode does not serve it; the channels of an engine that
failed meanwhile hold (R26, R28). -/
def commitLater (s : State) (x : Staged) : State :=
  if (servedModes x.opc).contains s.sys.mode.letter then holdFailed (applyChange s x) x else refuseChange s x

/-- A mode change commits, if the change is one. -/
def commitIfMode (s : State) (x : Staged) : State :=
  match x.change with
  | .mode target park _ fromSafe mask => commitMode s x target park fromSafe mask
  | _ => s

/-- A gang change commits, if the change is one. -/
def commitIfGang (s : State) (x : Staged) : State :=
  match x.change with
  | .gang g v => holdFailed (commitGang s g v) x
  | _ => s

/-- The boundary goes on only where the device still runs its epochs. -/
def whileRunning (s : State) (f : State → State) : State := if epochsRun s then f s else s

/-- The change is a request of its own: neither a castling nor the work of a lane, which commit before (R28). -/
def Change.isRequest : Change → Bool
  | .castle _ | .lane _ => false
  | _ => true

/-- The acknowledged changes take effect, kind by kind, in staging order within a kind; while the sequencer recovers
nothing commits (R24, R28, R31). R28 does not list arm, stop, hold, resume, clear, hand, start, abort, pulse, mark and
latch clear: they commit with the setpoint step changes, in staging order. DESIGN CHOICE, log entry 178. Where the
entry into DORMANT commits, everything else that is staged completes with WRONG_MODE (R213). -/
def commitStaged (s : State) : State :=
  let ready := s.staged.filter fun x => x.waiting == 0 && x.change.isRequest
  let later := ready.filter fun x => !x.change.isMode
  let s := { s with staged := s.staged.filter fun x => !(x.waiting == 0 && x.change.isRequest) }
  let rest := s.staged
  let s := ready.foldl commitIfMode s
  if s.sys.mode = .dormant then (later ++ rest).foldl refuseChange s
  else whileRunning s fun s => later.foldl commitLater (ready.foldl commitIfGang s)

/-! ### Castlings and lanes (R40, R120, R121) -/

/-- One more sample of a group is skipped, because its castling or its adoption waits (R40, R43). -/
def castleWait (s : State) (g : Fin 4) : State :=
  s.updGrp g fun gr =>
    match gr.castle with
    | some x => if x.planned then gr else { gr with castle := some { x with skipped := x.skipped + 1, waited := true } }
    | none => if gr.owner = none then { gr with skips := gr.skips + 1 } else gr

/-- The castling of a group commits if every island has acknowledged it and its receiver is ready. A replay takes 40
us at most, so the receiver is ready at the second boundary at the latest (R38, R43, R120). A planned castling whose
last ACK is late is aborted (R121), and one whose checkpoint is not verified goes on as an unplanned one (R122); an
unplanned one that an island has not acknowledged by its second boundary has met a second fault (R41). -/
def castleDue (s : State) (g : Fin 4) : State :=
  match (s.grp[g]).castle with
  | some x =>
    if castleUnanswered s g then
      if x.planned then abortCastle s g 2
      else if x.waited then holdGroup (castleWait s g) g
      else castleWait s g
    else if x.planned then
      -- R122: the state received is used only if the checkpoint of the epoch is verified
      if groupVerified s g (s.sys.epoch.toNat + 2 ^ 48 - 1) then commitCastle s g else castleWait (turnUnplanned s g 0) g
    else if x.ready || x.waited then commitCastle s g
    else castleWait s g
  | none => castleWait s g

/-- A candidate whose last run was INCOMPLETE runs its logic BIST again at the next boundary (R395). -/
def rerunCandidate (s : State) : State :=
  if (List.finRange 5).any fun k => (s.ce[k]).role == .spare && !(s.ce[k]).qualified && (s.ce[k]).bist == 3 then
    startBist s
  else s

/-- What the coordinator commits, unless the sequencer recovers (R28, R31). -/
def commitAll (s : State) : State :=
  if s.sys.recovering then (List.finRange 4).foldl castleWait s
  else commitStaged ((List.finRange 4).foldl laneAdvance (adoptGroup ((List.finRange 4).foldl castleDue s)))

/-- Everything that commits at a boundary before the channels start and hold: link decisions and allowances keep their
boundary through a recovery, and guard factors as well (R38, R197, R204). -/
def commits (s : State) : State := whileRunning (commitAll s) fun s => commitAllow (commitGuard (commitLink s))

/-- The channels hold, resume and start at a boundary. -/
def channelsDue (s : State) : State :=
  let s := (List.finRange 4).foldl endRestart (refreshAllow s)
  let s := channels.foldl ringCheck (rerunCandidate (applyStops s))
  let s := channels.foldl holdDue s
  let s := channels.foldl resumeDue s
  channels.foldl startProgram s

end Sys2Proof.Machine
end

