-- ==== Sys2Proof/Machine/Boundary.lean ====
section
/-! DEFINITION. EPOCH_BOUNDARY: the epoch that ends is closed, its records and events become visible, the measurement words
arrive, staged changes commit, and the samples of the new epoch run (R21 to R38, table Work within one epoch). -/
namespace Sys2Proof.Machine

/-! ### The epoch that ends -/

/-- The largest switching frequency, with spread, in kHz (R49, R52). -/
def maxSwitching : Nat := 525

/-- The switching periods of a leg in the epoch (R405). Their number is exact where the leg switches at one frequency
whose periods fill the epoch; otherwise it is a free value within the bounds of the epoch. -/
def periodsOf (ns : Nat) (s : State) (l : Fin 32) : Nat × State :=
  let c := chanOfLeg l
  let ch := s.ch[c]
  if !ch.gates && !ch.checking then (0, s)
  else if !(runningLegs s c).contains l || ((ch.burst || ch.checking) && soleLeg s c != some l) then (0, s)
  else
    let steady := ch.gates && !ch.checking && !ch.fold && !ch.burst && !(s.leg[l]).restart && !ch.fswF.getLsbD 16
    if steady && ch.feff * ns % 1000000 == 0 then (ch.feff * ns / 1000000, s)
    else
      let d := drawFree s
      ((d.1 % (maxSwitching * ns / 1000000 + 2 : Nat)).toNat, d.2)

/-- What the periods of a leg in the epoch count: the lifetime counter, and the compare mismatches, at most one for
each of the four edges of a period, which are a free value (R81, R405). -/
def countPeriods (ns : Nat) (s : State) (l : Fin 32) : State :=
  let n := periodsOf ns s l
  let s := n.2
  if n.1 = 0 then s
  else
    let d := drawFree s
    addPeriods n.1 l (d.2.updLeg l fun x => { x with cmpn := satNat 8 (x.cmpn + (d.1 % (4 * n.1 + 1 : Nat)).toNat) })

/-- The release times of an engine over the last second, none of which a later one exceeds. -/
def pushRelease (l : List (Nat × Nat)) (t v : Nat) : List (Nat × Nat) :=
  (t, v) :: l.filter fun x => decide (t < x.1 + 1000000000) && decide (v < x.2)

/-- The checkpoint of an owner for the end of the present epoch: it is verified where the checksum read back is that
of the checker core and the engine has not diverged in the epoch (R34). -/
def checkpointOf (w : EpochWords) (s : State) (k : Fin 5) : Ckpt :=
  { epoch := s.sys.epoch.toNat % 2 ^ 32, verified := w.ckptOk.getLsbD k.val && !(s.ce[k]).diverged
    chans := (chansOf (s.ce[k]).group).map fun c => (s.ch[c]).ckpt }

/-- What one engine leaves of the epoch: its BIST time, its checkpoint in one of two slots, used alternately, its
release time (R34, R121, R394). -/
def closeEngine (w : EpochWords) (ns : Nat) (s : State) (k : Fin 5) : State :=
  let x := checkpointOf w s k
  s.updCe k fun c =>
    let owner := c.role == .owner
    { c with
      btimeNs := if c.role = .retired then c.btimeNs else c.btimeNs + ns
      slots := if owner then vmod c.slots ⟨x.epoch % 2, by omega⟩ fun _ => x else c.slots
      ckpt := if owner && x.verified then x.epoch else c.ckpt
      diverged := false
      relmax := if owner then pushRelease c.relmax s.sys.tbase w.release[k]
                else c.relmax.filter fun x => decide (s.sys.tbase < x.1 + 1000000000) }

/-- The other islands that write checkpoints have verified that of the epoch, but for one held in reset and a
sequencer that recovers (R34). -/
def closeIslands (s : State) : State :=
  let e := s.sys.epoch.toNat % 2 ^ 32
  let stays (k : Fin 4) : Bool := islandDown s (islCkptOf k) || (k == 0 && s.sys.recovering)
  { s with sys := { s.sys with islCkpt := vmapI s.sys.islCkpt fun k x => if stays k then x else e } }

/-- The scrubber goes on, each word at the PASS and the throttling with which it started (R363, R386); at the end of a
pass its record is written and the next pass runs (R399). -/
def advanceScrub (ns : Nat) (s : State) : State :=
  let time := ns * scrubWords
  let left := s.isl.scrubLeft
  let cost := scrubCost s
  let pos := if time < left then s.isl.scrubWord else s.isl.scrubWord + 1 + (time - left) / cost
  let left := if time < left then left - time else cost - (time - left) % cost
  let s := { s with isl := { s.isl with scrubLeft := left, scrubWord := pos % scrubWords } }
  if pos < scrubWords then s
  else
    let s := recordTest { s with isl := { s.isl with passn := satInc 8 s.isl.passn } } 4 0 1 scrubWords scrubWords
    { s with isl := { s.isl with running := putBit s.isl.running 4 true } }

/-- n periods of a first-order approach with a time constant of 32 periods, from t to goal. -/
def approach (goal t : Int) (n : Nat) : Int := goal + divRound ((t - goal) * (31 ^ n : Nat)) (32 ^ n)

/-- The balance trim works: both legs of the channel switch as a pair (R53). -/
def balanced (s : State) (c : Fin 16) : Bool :=
  let ch := s.ch[c]
  ch.gates && !ch.burst && ch.cfg.getLsbD 2 && (runningLegs s c).length == 2 &&
    !(s.leg[legA c]).restart && !(s.leg[legB c]).restart

/-- The trim that a channel has at the end of an epoch; IMBAL clears after a full epoch inside the limits (R54). -/
def Chan.setTrim (ch : Chan) (t : Int) : Chan :=
  if ch.imbal = false then { ch with trim := t }
  else if 300 ≤ t.natAbs then { ch with trim := t, imbalEpochs := 0 }
  else if ch.imbalEpochs = 0 then { ch with trim := t, imbalEpochs := 1 }
  else { ch with trim := t, imbal := false, imbalEpochs := 0 }

/-- How far the leg currents of a channel are from the difference of their references, in uA:
(IREF_A - IREF_B) - (I_A - I_B) (R53). -/
def balanceError (s : State) (c : Fin 16) : Int :=
  let a := s.leg[legA c]
  let b := s.leg[legB c]
  (a.iref - b.iref) - (a.current - b.current) * 1000

/-- The duty of a leg in 1/65536: at most 97 % while its duty limit is in force (R84). -/
def Leg.limitDuty (l : Leg) (d : Int) : Leg := { l with duty := clampInt 0 (if l.dlim then 63569 else 65536) d }

/-- The balance trim over an epoch, in 0.01 % (R53, R54). It drives I_A - I_B towards IREF_A - IREF_B: the trim at which
they would meet lies above the present one where I_A - I_B is too low, and below it where it is too high; how far, and
the common duty D, in 1/65536, depend on the stage and are free values. The trim moves there with its time constant,
within 3 %, and the legs work at D (1 + t) and D (1 - t). Log entry 101. -/
def closeBalance (ns : Nat) (s : State) (c : Fin 16) : State :=
  if balanced s c = false then s.updCh c fun ch => ch.setTrim 0
  else
    let far := drawFree s
    let duty := drawFree far.2
    let s := duty.2
    let ch := s.ch[c]
    let goal := ch.trim + (balanceError s c).sign * (1 + far.1 % 1000)
    let t := clampInt (-300) 300 (approach goal ch.trim (ch.feff * ns / 1000000))
    let d := duty.1 % 65536
    let s := (s.updLeg (legA c) fun l => l.limitDuty (divRound (d * (10000 + t)) 10000)).updLeg (legB c) fun l =>
      l.limitDuty (divRound (d * (10000 - t)) 10000)
    s.updCh c fun ch => ch.setTrim t

/-- The epoch that ends leaves its counts. -/
def closeEpoch (w : EpochWords) (ns : Nat) (s : State) : State :=
  let s := advanceTime ns s
  let s := (List.finRange 32).foldl (countPeriods ns) s
  let s := closeIslands ((List.finRange 5).foldl (closeEngine w ns) s)
  let s := channels.foldl (advanceCheck ns) (channels.foldl (closeBalance ns) (advanceScrub ns s))
  { s with
    ch := vmap s.ch fun ch => pulseTick ch ns
    leg := vmap s.leg fun l => { l with stretch := false }
    sys := { s.sys with castleNs := if s.sys.mode = .service then 0 else s.sys.castleNs + ns } }

/-! ### Events and records become visible (R37, R335 to R337) -/

/-- The events of the epoch that ends become visible; EVQ_OVERFLOW comes first where events were lost and a place is
free. While the sequencer recovers, its epoch is not verified, and they wait (R37). -/
def flushEvents (s : State) : State :=
  if s.sys.recovering then s
  else
  let s := if 0 < s.evq.lostSince ∧ s.evq.queue.length < evqRoom then
      let n := s.evq.lostSince
      commitEvent { s with evq := { s.evq with lostSince := 0 } } { code := 0x0106, payload := p4 n }
    else s
  let l := s.evq.bootPend ++ s.evq.pend
  l.foldl commitEvent { s with evq := { s.evq with bootPend := [], pend := [] } }

/-- The records of the epoch that ends are written into their rings; they wait while the sequencer recovers (R37). -/
def flushRecords (s : State) : State := if s.sys.recovering then s else s.recs.foldl writeRecord { s with recs := [] }

/-- Set the events that wait aside while f runs; they follow those of f. -/
def eventsFirst (f : State → State) (s : State) : State :=
  let l := s.evq.pend
  let t := f { s with evq := { s.evq with pend := [] } }
  { t with evq := { t.evq with pend := t.evq.pend ++ l } }

/-! ### The new epoch opens -/

/-- The accumulators of a channel are committed: the checkpoint of the epoch that ends is verified, and no other
engine is taking the group over (R37). -/
def accumulatorsVerified (s : State) (c : Fin 16) : Bool :=
  groupVerified s (groupOf c) s.sys.epoch.toNat && !recoversGroup s (groupOf c)

/-- What the checkpoint of the DMA island holds of a channel (R34). -/
def Dma.ckpt (d : Dma) : DmaCkpt :=
  { adesc := d.adesc, areq := d.areq, arseq := d.arseq, active := d.active, took := false }

/-- The epoch number, and what starts afresh in each epoch: the W1C bits set in it (R8), the once-per-epoch events,
and the values that the boundary verifies (R37). The checkpoints of an island held in reset stay. -/
def openEpoch (s : State) : State :=
  let ok : Mask := maskOf 16 (accumulatorsVerified s)
  { s with
    sys := { s.sys with epoch := s.sys.epoch + 1 }
    evq := { s.evq with once := [] }
    ch := vmapI s.ch fun c ch =>
      let ch := { ch with faultNew := 0, ovfNew := 0 }
      if ok.getLsbD c.val then { ch with qC := ch.q, eC := ch.e } else ch
    leg := vmap s.leg fun l => { l with evtNew := 0 }
    dma := vmap s.dma fun d => { d with evtNew := 0, ck := if islandDown s 11 then d.ck else d.ckpt }
    can := { s.can with
      doneNew := 0, failedNew := 0
      rxf := vmap s.can.rxf fun x => { x with
        get := (x.get + x.late) % 32, fill := x.fill - x.late, late := 0, ovrNew := false
        dmaRel := if islandDown s 11 then x.dmaRel else 0 }
      rxNew := if islandDown s 10 then s.can.rxNew else Vector.replicate 2 0
      sentNew := if islandDown s 10 then s.can.sentNew else []
      msgCk := if islandDown s 10 then s.can.msgCk else none } }

/-- The switching frequency of a channel whose CHn_FSW comes into force (R49, R57). -/
def newFsw (ch : Chan) : Chan :=
  let f := bits ch.fsw 0 9
  if ch.gates = false ∨ ch.burst then ch
  else if ch.fold = false then { ch with feff := f }
  else if f ≤ ch.feff then { ch with feff := f, fold := false }
  else ch

/-- MEAS_CFGn comes into force on a channel (R149, R158): a new IRNG restarts the cross-check windows of its IM
converter, and a new RATE starts a new averaging window. DESIGN CHOICE, log entry 192, for the latter. -/
def measInForce (s : State) (c : Fin 16) : State :=
  let old := (s.ch[c]).mcfgF
  let new := (s.ch[c]).mcfg
  let s := s.updCh c fun ch =>
    if bits new 4 4 = bits old 4 4 then { ch with mcfgF := new } else { ch with mcfgF := new, boxV := 0, boxI := 0, boxN := 0 }
  if bits new 0 2 = bits old 0 2 then s else (List.finRange 4).foldl (restartWindow c) s

/-- The registers that take effect at a boundary (R23, R75, R80, R123, R158). -/
def registersInForce (s : State) : State :=
  let s := channels.foldl measInForce s
  { s with
    sys := { s.sys with foutF := s.sys.fout }
    ch := vmap s.ch fun ch =>
      { (if ch.fsw = ch.fswF then ch else newFsw ch) with
        fswF := ch.fsw, limitF := ch.limit, stoprF := ch.stopr, tcF := ch.tc
        logF := ch.logReg.getLsbD 0 }
    leg := vmap s.leg fun l => { l with drvF := l.drv } }

/-- The accumulators that a write of CLR clears, with ACC_CLEAR (R153); a short check goes on from the charge that it
has counted (R71). -/
def clearAccumulators (s : State) (c : Fin 16) : State :=
  let ch := s.ch[c]
  if ch.aclr then
    let s := queueEvent s 0x040E (p1 c.val ++ p6 (ch.q / 2 ^ 32) ++ p6 (ch.e / 2 ^ 32))
    s.updCh c fun ch =>
      { ch with aclr := false, q := 0, e := 0, qC := 0, eC := 0
                short := ch.short.map fun x => { x with q := x.q - ch.q } }
  else s

/-- Records formed by what commits here carry the TBASE of this boundary (R185). -/
def stampRecords (s : State) : State :=
  { s with recs := s.recs.map fun d => { d with tbase := some (d.tbase.getD s.sys.tbase) } }

/-- The words delivered to the input windows are copied into the input logs, which keep four epochs (R35). -/
def logWords (w : EpochWords) (s : State) : State :=
  let x : InLog := { epoch := s.sys.epoch.toNat, words := w, damaged := 0 }
  { s with sys := { s.sys with inlog := (x :: s.sys.inlog).take 4 } }

/-- The power of a leader over the epoch that ended, and whether PLOOP won its sample, for the claim of the next tick;
its current for the mean of burst trickle (R106, R191). -/
def gatherClaim (s : State) (c : Fin 16) : State :=
  let p := (gangSum s c fun d => d.pW).natAbs
  let i := gangSum s c fun d => d.iP
  s.updCh c fun ch =>
    { ch with plWon := ch.plWon || ch.plNow, plNow := false, pbarSum := ch.pbarSum + p, pbarN := ch.pbarN + 1,
              ipHist := (i :: ch.ipHist).take 10 }

/-- The words arrive, the epoch that ended is counted, and the protection comparators are compared with the means; the
events follow those of the commits. -/
def deliver (w : EpochWords) (ns : Nat) (s : State) : State :=
  let s := logWords w (channels.foldl clearAccumulators (flushRecords s))
  channels.foldl cpCompare (channels.foldl (countEpoch ns) (channels.foldl gatherClaim (deliverWords w ns s)))

/-- The programs that ended stop their channels (R172). -/
def stopEnded (l : List (Fin 16)) (s : State) : State :=
  l.foldl (fun s c => stopGang s c (s.ch[c]).prog.lastR) s

/-- The changes of a boundary, and the channels that start, hold and resume at it; the events of the staged changes come
first (R335). -/
def change (ends : List (Fin 16)) (s : State) : State :=
  let s := stopEnded ends (registersInForce s)
  let s := if s.safe.applyAt then applySafeCfg s else s
  let l := s.evq.pend
  let s := commits { s with evq := { s.evq with pend := [] } }
  whileRunning s fun s => stampRecords (channelsDue { s with evq := { s.evq with pend := s.evq.pend ++ l } })

/-- The samples of the new epoch, and what they leave for the next boundary. -/
def work (s : State) : State :=
  let s := { s with leg := vmap s.leg fun l => { l with last := l.iref, exc := [] }
                    ch := vmap s.ch fun ch => { ch with negB := ch.neg } }
  let s := refreshAllow (linkEpoch (samples s))
  let s := { s with ch := vmap s.ch fun ch => { ch with dswB := ch.dsw, faulted := false } }
  takeSnap (channels.foldl invalidWord (channels.foldl markLive s))

/-- A boundary of a running device, after an epoch of ns nanoseconds. -/
def runBoundary (w : EpochWords) (ns : Nat) (s : State) : State :=
  let r := stepEndsDue (closeEpoch w ns s)
  let s := deliver w ns (openEpoch (flushEvents r.1))
  whileRunning (eventsFirst (change r.2) s) work

/-- EPOCH_BOUNDARY. What is due after a reply has been read happens at the latest 1 ms after it. -/
def boundary (w : EpochWords) (s : State) : State :=
  if epochsRun s = false then s
  else
    let ns := epochNs s
    let t := if s.sys.due = .none then 0 else s.sys.dueNs + ns
    let s := { s with sys := { s.sys with dueNs := t } }
    if 1000000 ≤ t then settleDue { s with sys := { s.sys with dueNs := 0 } } else runBoundary w ns s

/-! ### Meaning -/

/-- EPOCH_BOUNDARY. -/
def execEpochBoundary (w : EpochWords) (s : State) : Host.Outcome State Fault Refusal := .next (boundary w s)

end Sys2Proof.Machine
end

