-- ==== Sys2Proof/Machine/Rackbus.lean ====
section
/-! DEFINITION. Family rack bus: joining, frames received and sent, bus errors, the network time service and the status
message, and the loss of the rack-bus island (R343 to R358). -/
namespace Sys2Proof.Machine

/-! ### Fault confinement (R349, R351) -/

/-- The error state that the counters give, with CAN_PASSIVE on each entry into error passive and CAN_BUS_OFF on each
entry into bus-off (R349). -/
def confine (s : State) : State :=
  if 255 < s.can.tecN then
    let s := { s with can := { s.can with est := 2, joined := false, recov := true, boffn := satInc 8 s.can.boffn } }
    queueEvent s 0x0802 (p1 (satNat 8 s.can.tecN))
  else if 128 ≤ s.can.tecN ∨ 128 ≤ s.can.recN then
    if s.can.est = 1 then s
    else
      let s := { s with can := { s.can with est := 1, passn := satInc 8 s.can.passn } }
      queueEvent s 0x0801 (p1 (satNat 8 s.can.tecN) ++ p1 (satNat 8 s.can.recN))
  else { s with can := { s.can with est := 0 } }

/-- The error counters after a bus error (ISO 11898-1, PRESUMED, log entry 78). -/
def countError (kind : CanErr) (s : State) : State :=
  let tec (n : Nat) : State := { s with can := { s.can with tecN := s.can.tecN + n } }
  let rec' (n : Nat) : State := { s with can := { s.can with recN := satNat 8 (s.can.recN + n) } }
  match kind with
  | .txError => tec 8
  | .txNoAck => if s.can.est = 1 then s else tec 8
  | .txStuffArb => s
  | .rxError => rec' 1
  | .rxDominant => rec' 8

/-- The frame of a buffer has failed: cancelled or one-shot frames leave with their FAIL bits, a newer device message
takes the place of the old one, and any other frame is retried (R345, R346, R356). -/
def frameFails (s : State) (b : Fin 16) : State :=
  let t := s.can.tx[b]
  match t.next with
  | e :: r =>
    let next (s : State) : State := s.updTx b fun _ => { pend := true, cancel := false, elem := e, next := r }
    if t.cancel || elemOneShot t.elem then next (failBuffer s b)
    else if heldBuffer s b then next (countReplaced s b) else s
  | [] => if t.cancel || elemOneShot t.elem then failBuffer s b else s

/-- Another node's frame holds the bus: a frame of this device that had begun has lost arbitration (R345). -/
def lostArbitration (s : State) : State :=
  let s := markStarted s
  match s.can.inTx with
  | some b => endTransmission (if (s.can.tx[b]).pend then frameFails s b else s)
  | none => s

/-- The frame is one in which the transmitter measures its loop delay (R342). -/
def measuresDelay (s : State) (e : List Byte) : Bool :=
  let c := byteAt e 4
  c.getLsbD 4 && c.getLsbD 5 && s.can.tdc.getLsbD 16

/-- A loop delay up to a largest value is measured: the delay itself is a free value. -/
def delayUpTo (s : State) (most : Nat) : State :=
  let d := drawFree s
  let s := d.2
  { s with can := { s.can with tdcv := (d.1 % (most + 1 : Nat)).toNat } }

/-- The loop delay of a frame whose data phase was sent without error: TDCV + TDCO is at most 127 quanta, since a
larger sum is a bit error (R342). -/
def measureDelay (s : State) (e : List Byte) : State :=
  if measuresDelay s e then delayUpTo s (127 - bits s.can.tdc 8 7) else s

/-- The loop delay of a frame that ended in an error of its transmitter: with a bit error, whether it was measured
before is a free value, and any value of the field can be the cause; without an acknowledge it was sent to its end
(R342). -/
def delayOnError (kind : CanErr) (s : State) (e : List Byte) : State :=
  match kind with
  | .txNoAck => measureDelay s e
  | .txError =>
    if measuresDelay s e then
      let d := drawFree s
      if d.1 % 2 = 1 then delayUpTo d.2 127 else d.2
    else s
  | _ => s

/-- A bus error, with the buffer whose frame was in transmission (R345, R349). -/
def busError (kind : CanErr) (b : Option (Fin 16)) (s : State) : State :=
  if canActive s then
    let s := match b with
      | some b => if mayComplete s b then endTransmission (frameFails (delayOnError kind s (s.can.tx[b]).elem) b) else s
      | none => lostArbitration s
    confine (countError kind s)
  else s

/-- A nominal bit in quanta of f_CAN (R341). -/
def nominalBit (s : State) : Nat := (bits s.can.nbt 16 5 + 1) * (3 + bits s.can.nbt 8 8 + bits s.can.nbt 0 7)

/-- A time in bus-off in ms that holds the 128 sequences of 11 recessive bits (R351). -/
def recoveryTime (s : State) (ms : Nat) : Bool := decide (128 * 11 * nominalBit s < (ms + 1) * 80000)

/-- Bus-off has been recovered from (R351). -/
def busRecovered (ms : Nat) (s : State) : State :=
  if s.can.est = 2 ∧ canOn s = true ∧ recoveryTime s ms = true then
    let s := { s with can := { s.can with est := 0, tecN := 0, recN := 0, recov := false, joined := true } }
    queueEvent s 0x0803 (p4 ms)
  else s

/-- The controller has seen 11 recessive bits (R343). -/
def busJoin (s : State) : State :=
  if canOn s = true ∧ s.can.est ≠ 2 then { s with can := { s.can with joined := true } } else s

/-! ### Frames -/

/-- The receive error counter after a frame received without error (ISO 11898-1): above 127 it takes a value from 119 to
127, which is a free value. -/
def receiveSuccess (s : State) : State :=
  if 127 < s.can.recN then
    let d := drawFree s
    let s := d.2
    confine { s with can := { s.can with recN := 119 + (d.1 % 9).toNat } }
  else confine { s with can := { s.can with recN := s.can.recN - 1 } }

/-- The budget message in a frame (table Budget payload). -/
def budgetOf (f : CanFrame) : BudgetMsg :=
  let d := f.data
  { fmt := byteAt d 0, state := (byteAt d 1).truncate 3, code := (byteAt d 1 >>> 4).truncate 3,
    node := (byteAt d 2).truncate 4, lnk := (byteAt d 2 >>> 4).truncate 4, tseq := byteAt d 3, d := leWord (slice d 4 4),
    gc := leWord (slice d 8 4), gm := leWord (slice d 12 4), ttick := BitVec.ofNat 64 (leNat (slice d 16 8)) }

/-- A TBASE step of the network time service: TBASE and the latch of the message move together, in steps of 10 ns and
modulo 2^64 (R32, R33, R353). DEDUCED, log entry 80. -/
def stepTbase (s : State) (o : Int) : State :=
  let s := queueEvent s 0x0102 (p4 o)
  let move (t : Nat) : Nat := (t + 10 * (o.toNat / 10)) % 2 ^ 64
  { s with
    sys := { s.sys with tbase := move s.sys.tbase }
    can := { s.can with latchL := s.can.latchL.map fun l => (l.1, move l.2) } }

/-- The largest rate correction: 200 ppm in 10^-15. -/
def rcMax : Int := 200000000000

/-- One measured offset O in ns: step, rate correction and lock (R353). -/
def applyOffset (s : State) (o : Int) : State :=
  let tper : Nat := bits s.can.tcfg 16 7 * 10000000
  let far := decide (20000 < o.natAbs)
  let near := decide (o.natAbs ≤ 2000)
  let run := if near then min 3 (s.can.lockRun + 1) else 0
  let lock := !far && (s.can.lock || decide (3 ≤ run))
  let s := { s with can := { s.can with ofs := o, lock := lock, lockRun := run } }
  let s := if 1000000 < o then stepTbase s o else s
  let e := if 1000000 < o then 0 else o
  let rc := s.can.rc + divRound (((e - s.can.oLast) * 4 + e) * 1000000000000000) (8 * max 1 tper)
  { s with can := { s.can with rc := clampInt (-rcMax) rcMax rc, oLast := e } }

/-- A slave follows a message of its master (R353, R354): `id` is the sender's identifier, `n` its sequence number and
`m` the master's latch of the message before. -/
def followReference (s : State) (id n m sof : Nat) : State :=
  let latch (s : State) : State := { s with can := { s.can with latchL := some (n, sof) } }
  if s.can.master = some id then
    match s.can.latchL with
    | some (k, l) =>
      if (k + 1) % 256 = n ∧ m ≠ 2 ^ 64 - 1 then applyOffset (latch s) ((m : Int) - l) else latch s
    | none => latch s
  else latch { s with can := { s.can with master := some id, mnode := id % 256 } }

/-- A time reference message is received (R353 to R355). -/
def timeReference (f : CanFrame) (s : State) : State :=
  if canActive s = false ∨ timeService s = false ∨ messageKind s f ≠ some 0 ∨ byteAt f.data 0 ≠ 1 then s
  else
    let s := keepMessage s
    let id := f.id.toNat % 2 ^ 11
    let n := (byteAt f.data 1).toNat
    let m := leNat (slice f.data 4 8)
    let s :=
      if s.can.role then
        if id < messageId s 0 then
          let s := { s with can := { s.can with role := false, demoted := true, master := none, latchL := none } }
          followReference (queueEvent s 0x0806 (p1 0)) id n m f.sof
        else s
      else
        match s.can.master with
        | some a => if a < id then s else followReference s id n m f.sof
        | none => followReference s id n m f.sof
    { s with can := { s.can with refAt := s.sys.tbase, lostTold := false } }

/-- The device messages in a received frame (R347, R355). -/
def deviceMessage (f : CanFrame) (s : State) : State :=
  match messageKind s f with
  | some 0 => timeReference f s
  | some 2 => budgetReceived (budgetOf f) s
  | _ => s

/-- The receive path: device messages first, then the filters (R347). Remote frames are discarded. -/
def receivePath (f : CanFrame) (s : State) : State :=
  if f.rtr then { s with can := { s.can with rtrn := satInc 8 s.can.rtrn } } else filterFrame (deviceMessage f s) f

/-- A frame of another node is received without error (R347); in internal loop-back the bus is not received. -/
def frameReceived (f : CanFrame) (s : State) : State :=
  if canActive s = true ∧ canMode s ≠ 2 then receivePath f (receiveSuccess (lostArbitration s)) else s

/-- MPREV of the message that follows a reference message, once that has been sent (R353). -/
def fillMprev (n sof : Nat) (e : List Byte) : List Byte :=
  if (byteAt e 17).toNat = (n + 1) % 256 then e.take 20 ++ toLE 8 sof ++ e.drop 28 else e

/-- The sequence number of the reference message in an element. -/
def elemSeq (e : List Byte) : Nat := (byteAt e 17).toNat

/-- The time master has sent a reference message: its latch goes into the next one (R353). -/
def latchSent (b : Fin 16) (e : List Byte) (sof : Nat) (s : State) : State :=
  if b = 13 then
    let s := s.updTx b fun t => if t.pend then { t with elem := fillMprev (elemSeq e) sof t.elem } else t
    { s with can := { s.can with prevM := some (elemSeq e, sof) } }
  else s

/-- In internal loop-back, the frame sent goes to the device's own receive path and to no other (R339, R340, R355). -/
def loopBack (f : CanFrame) (s : State) : State := if canMode s = 2 then receivePath f s else s

/-- The frame of a buffer completes (R345, R353, R356). -/
def frameSent (b : Fin 16) (sof : Nat) (s : State) : State :=
  if canSends s = true ∧ mayComplete s b = true then
    let e := (s.can.tx[b]).elem
    let f := sentOf e sof s.can.est
    let s := s.updTx b fun t =>
      match t.next with
      | e :: r => { pend := true, cancel := false, elem := e, next := r }
      | [] => TxBuf.empty
    let s := endTransmission { s with can := { s.can with
      done := putBit s.can.done b.val true, doneNew := putBit s.can.doneNew b.val true, tecN := s.can.tecN - 1
      sentNew := (b, e) :: s.can.sentNew
      sentFrame := some f } }
    loopBack f (confine (measureDelay (latchSent b e sof s) e))
  else s

/-! ### Time service and status message (R353 to R355) -/

/-- The time master queues a time reference message at each TPER multiple of TBASE. MPREV of a message whose
predecessor has not been sent yet is a free value until that has been sent. DESIGN CHOICE, log entry 81. -/
def sendReference (s : State) : State :=
  if timeService s && s.can.role && decide (s.can.sendAt < periodsPassed s) then
    let n := s.can.seqOut
    let m : Int × State := match s.can.newMaster, s.can.prevM with
      | true, _ => (-1, s)
      | false, some (k, l) => if (k + 1) % 256 = n then (l, s) else drawFree s
      | false, none => drawFree s
    let s := m.2
    let s := { s with can := { s.can with seqOut := (n + 1) % 256, newMaster := false, sendAt := periodsPassed s } }
    offerMessage s 13 (messageElem s 0 (p1 1 ++ p1 n ++ nodeByte s ++ p1 0 ++ toLEInt 8 m.1))
  else s

/-- No reference message for a number of periods (R354). -/
def noReference (s : State) (n : Nat) : Bool := decide (s.can.refAt + n * timePeriod s ≤ s.sys.tbase)

/-- No reference for four periods (R354). The event names the master that was followed; where none was, its byte is a
free value. DESIGN CHOICE, log entry 226. -/
def referenceLost (s : State) : State :=
  if timeService s && !s.can.role && !s.can.lostTold && noReference s 4 then
    let m : Int × State := match s.can.master with
      | some id => ((id % 16 : Nat), s)
      | none => drawFree s
    let s := m.2
    let s := { s with can := { s.can with lock := false, lockRun := 0, master := none, latchL := none, lostTold := true } }
    queueEvent s 0x0805 (toLEInt 1 m.1)
  else s

/-- A backup, or a master that had lost the role, takes it after (4 + node ID) periods without a reference (R354). -/
def takeRole (s : State) : State :=
  if timeService s && !s.can.role && noReference s (4 + nodeId s) && (s.can.demoted || bits s.can.tcfg 24 2 == 2) then
    let s := { s with can := { s.can with role := true, master := none, latchL := none, lock := false, lockRun := 0,
                                          prevM := none, newMaster := true, sendAt := periodsPassed s } }
    queueEvent s 0x0806 (p1 1)
  else s

/-- The payload of the status message (table Status payload). -/
def statusPayload (s : State) : List Byte :=
  let ss := safeStat s
  let ts := thermStat s
  p1 1 ++ p1 (s.sys.mode.code + 16 * b2n s.sticky.safeLatch) ++ nodeByte s
    ++ p1 (bits ss 18 2 + 4 * bits ss 0 1 + 8 * bits ss 1 1) ++ p1 (bits ss 20 4 + 16 * bits ss 24 4)
    ++ p1 (bits ts 4 2 + 4 * bits ts 3 1) ++ maskBytes (maskOf 16 fun c => (s.ch[c]).st == .fault)

/-- The status message is formed when its content has changed, and every 100 ms (R355). -/
def formStatus (s : State) : State :=
  let p := statusPayload s
  if statusService s && (s.can.statusSent != p || decide (s.can.statusAt + 100000000 ≤ s.sys.tbase)) then
    offerMessage { s with can := { s.can with statusSent := p, statusAt := s.sys.tbase } } 14 (messageElem s 1 p)
  else s

/-! ### Meanings -/

/-- CAN_BUS_JOIN. -/
def execCanBusJoin (s : State) : Host.Outcome State Fault Refusal := .next (busJoin s)

/-- CAN_FRAME_RECEIVED. -/
def execCanFrameReceived (frame : CanFrame) (s : State) : Host.Outcome State Fault Refusal :=
  .next (frameReceived frame s)

/-- CAN_FRAME_SENT. -/
def execCanFrameSent (buffer : Fin 16) (sof : Nat) (s : State) : Host.Outcome State Fault Refusal :=
  .next (frameSent buffer sof s)

/-- CAN_BUS_ERROR. -/
def execCanBusError (kind : CanErr) (transmitting : Option (Fin 16)) (s : State) : Host.Outcome State Fault Refusal :=
  .next (busError kind transmitting s)

/-- CAN_RECOVERED. -/
def execCanRecovered (ms : Nat) (s : State) : Host.Outcome State Fault Refusal := .next (busRecovered ms s)

/-- TIME_REFERENCE_SEND. -/
def execTimeReferenceSend (s : State) : Host.Outcome State Fault Refusal := .next (sendReference s)

/-- TIME_REFERENCE_MESSAGE. -/
def execTimeReferenceMessage (frame : CanFrame) (s : State) : Host.Outcome State Fault Refusal :=
  .next (timeReference frame s)

/-- CAN_TIME_LOST. -/
def execCanTimeLost (s : State) : Host.Outcome State Fault Refusal := .next (referenceLost s)

/-- CAN_TIME_ROLE. -/
def execCanTimeRole (s : State) : Host.Outcome State Fault Refusal := .next (takeRole s)

/-- STATUS_MESSAGE. -/
def execStatusMessage (s : State) : Host.Outcome State Fault Refusal := .next (formStatus s)

end Sys2Proof.Machine
end

