-- ==== Sys2Proof/Machine/SystemCommands.lean ====
section
/-! DEFINITION. Family system commands, with the status commands of channels and link: identity, status, configuration save,
time and echo (R314 to R317, R323, R193). -/
namespace Sys2Proof.Machine

/-! ### Identity and status (R315) -/

/-- PROTO. -/
def protocolVersion : Nat := 0x0100

/-- The payload of IDENTIFY. -/
def identityBytes (s : State) : List Byte :=
  wordBytes (readSys s 0x000) ++ toLE 8 Config.uid.toNat ++ toLE 2 protocolVersion ++ [0, 0]

/-- The states of the channels, 4 bits each. -/
def stateNibbles (s : State) : List Byte :=
  (List.finRange 8).map fun k =>
    BitVec.ofNat 8 ((s.ch[2 * k.val]'(by omega)).st.code + 16 * (s.ch[2 * k.val + 1]'(by omega)).st.code)

/-- The sequencer has started: the epochs run, or have run since BOOT (R215). -/
def sequencerRuns (s : State) : Bool := s.sys.phase != .dormant && s.sys.phase != .booting && s.sys.phase != .halted

/-- The payload of STATUS: fields of islands that are powered down or not yet running read as 0. The safety island and
the thermal monitors run before the port serves, the sequencer from the end of BOOT. DEDUCED, log entry 224. -/
def statusBytes (s : State) : List Byte :=
  let field (on : Bool) (l : List Byte) : List Byte := if on then l else List.replicate l.length 0
  let powered := s.sys.phase != .dormant
  wordBytes (sysMode s) ++ field powered (wordBytes (safeStat s)) ++ field powered (wordBytes (thermStat s))
    ++ field (sequencerRuns s) (wordBytes (linkState s)) ++ field (sequencerRuns s) (stateNibbles s)
    ++ toLE 2 (unreadCount s) ++ toLE 2 s.evq.queue.length

/-- The payload of TIME_READ: TBASE and epoch number at one instant. -/
def timeBytes (s : State) : List Byte := toLE 8 s.sys.tbase ++ toLE 6 s.sys.epoch.toNat ++ [0, 0]

/-! ### Configuration save (R216, R317, R462) -/

/-- CFG_SAVE. -/
def cfgSaveBody (r : Request) (s : State) : State × Completion :=
  if nvmBusy s then (s, .status stBusyRetry)
  else ({ s with isl := { s.isl with nvmOp := .cfgSave (takeConfig s), opTag := some r.tag } }, .later)

/-- The save ends: the verified copy is in force, or the previous one stays. -/
def cfgSaveEnds (ok : Bool) (s : State) : State :=
  match s.isl.nvmOp with
  | .cfgSave x =>
    let s := { s with isl := { s.isl with nvmOp := .none } }
    if ok then replyOp { s with nvm := { s.nvm with config := some x } } 0x05 stOk (wordBytes x.crc)
    else replyOp (nvmFail s 1) 0x05 stNvmError []
  | _ => s

/-! ### Channel and link status (R193, R323) -/

/-- CH_STATUS; a follower of a gang is addressed through its leader (R64, R323). -/
def chStatusBody (ch : Byte) (s : State) : State × Completion :=
  match chanOf? ch with
  | some c => if isFollower s c then (s, .status stBadParam) else (s, .now stOk ((s.ch[c]).snap.flatMap wordBytes))
  | none => (s, .status stBadParam)

/-- The payload of LINK_STATUS. -/
def linkStatusBytes (s : State) : List Byte :=
  ([linkState s, linkTot s, linkDev s, linkK s, linkGuard s, linkPeers s] ++ channels.map (linkAllow s)).flatMap wordBytes

/-! ### Meanings -/

/-- IDENTIFY. -/
def execIdentify (s : State) : Host.Outcome State Fault Refusal :=
  .next (hostCommand .identify true s fun _ s => (s, .now stOk (identityBytes s)))

/-- STATUS. -/
def execStatus (s : State) : Host.Outcome State Fault Refusal :=
  .next (hostCommand .status true s fun _ s => (s, .now stOk (statusBytes s)))

/-- CFG_SAVE. -/
def execCfgSave (s : State) : Host.Outcome State Fault Refusal := .next (hostCommand .cfgSave true s cfgSaveBody)

/-- CFG_SAVE_DONE. -/
def execCfgSaveDone (ok : Bool) (s : State) : Host.Outcome State Fault Refusal := .next (cfgSaveEnds ok s)

/-- TIME_READ. -/
def execTimeRead (s : State) : Host.Outcome State Fault Refusal :=
  .next (hostCommand .timeRead true s fun _ s => (s, .now stOk (timeBytes s)))

/-- ECHO. -/
def execEcho (data : List Byte) (s : State) : Host.Outcome State Fault Refusal :=
  .next (hostCommand (.echo data) (lengthIn 0 4096 data) s fun _ s => (s, .now stOk data))

/-- CH_STATUS. -/
def execChStatus (ch : Byte) (s : State) : Host.Outcome State Fault Refusal :=
  .next (hostCommand (.chStatus ch) true s fun _ s => chStatusBody ch s)

/-- LINK_STATUS. -/
def execLinkStatus (s : State) : Host.Outcome State Fault Refusal :=
  .next (hostCommand .linkStatus true s fun _ s => (s, .now stOk (linkStatusBytes s)))

end Sys2Proof.Machine
end

