-- ==== Sys2Proof/Machine/RegisterCommands.lean ====
section
/-! DEFINITION. Family register access: REG_READ, REG_WRITE, their block forms, and the rows that name one register write
(R318 to R320). -/
namespace Sys2Proof.Machine

/-! ### Reads -/

/-- The low-rate port reads SYS offsets 0x0000 to 0x00FF only (R224, R319). -/
def lowRateAddr (a : Word) : Bool := decide (a.toNat < 0x100)

/-- A read of one word. -/
def readBody (a : Word) (s : State) : State × Completion :=
  if lowRate s && !lowRateAddr a then (s, .status stWrongMode)
  else
    let s := timePasses s
    match readReg s a with
    | some r => (r.2, .now stOk (wordBytes r.1))
    | none => (s, .status stBadAddr)

/-- REG_READ_BLOCK. -/
def blockBody (a : Word) (count : BitVec 16) (s : State) : State × Completion :=
  let n := count.toNat
  if n < 1 ∨ 1024 < n then (s, .status stBadParam)
  else
    let s := timePasses s
    match readBlock s a n with
    | some r => (r.2, .now stOk r.1)
    | none => (s, .status stBadAddr)

/-! ### Writes -/

/-- A write of one register. -/
def writeBody (a v : Word) (s : State) : State × Completion :=
  let w := writeReg s a v
  (w.1, .status w.2)

/-- REG_WRITE_MULTI: the payload tells how many pairs were applied, also where one fails (R320). -/
def multiBody (pairs : List (Word × Word)) (s : State) : State × Completion :=
  let w := writePairs s pairs 0
  (w.1, .now w.2.2 (toLE 2 w.2.1 ++ [w.2.2, 0]))

/-- The value that a row of one field writes: that of its request where it has the row's value in the field, or the
register as it stands with the field replaced. -/
def fieldValue (f : FieldWrite) (r : Request) (s : State) : Word :=
  if r.payload ≠ [] ∧ wordAt r.payload 4 &&& f.mask = f.value then wordAt r.payload 4
  else maskWrite f.mask (match readReg s f.addr with | some x => x.1 | none => 0) f.value

/-- A row that names one register write: a REG_WRITE. -/
def fieldWrite (i : Instr) (s : State) : State :=
  match fieldWriteOf i with
  | some f => hostCommand i true s fun r s => writeBody f.addr (fieldValue f r s) s
  | none => s

/-! ### Meanings -/

/-- REG_READ. -/
def execRegRead (addr : Word) (s : State) : Host.Outcome State Fault Refusal :=
  .next (hostCommand (.regRead addr) true s fun _ s => readBody addr s)

/-- CAPTURE_READ. -/
def execCaptureRead (addr : Word) (s : State) : Host.Outcome State Fault Refusal :=
  .next (hostCommand (.captureRead addr) true s fun _ s => readBody addr s)

/-- REG_WRITE. -/
def execRegWrite (addr value : Word) (s : State) : Host.Outcome State Fault Refusal :=
  .next (hostCommand (.regWrite addr value) true s fun _ s => writeBody addr value s)

/-- REG_READ_BLOCK. -/
def execRegReadBlock (addr : Word) (count : BitVec 16) (s : State) : Host.Outcome State Fault Refusal :=
  .next (hostCommand (.regReadBlock addr count) true s fun _ s => blockBody addr count s)

/-- REG_WRITE_MULTI. -/
def execRegWriteMulti (pairs : List (Word × Word)) (s : State) : Host.Outcome State Fault Refusal :=
  .next (hostCommand (.regWriteMulti pairs) (lengthIn 1 256 pairs) s fun _ s => multiBody pairs s)

/-- FOUT_WRITE. -/
def execFoutWrite (fout : BitVec 2) (s : State) : Host.Outcome State Fault Refusal := .next (fieldWrite (.foutWrite fout) s)

/-- GANG_WRITE. -/
def execGangWrite (group : Fin 4) (gang : BitVec 3) (s : State) : Host.Outcome State Fault Refusal :=
  .next (fieldWrite (.gangWrite group gang) s)

/-- PROG_BIND_WRITE. -/
def execProgBindWrite (ch : Fin 16) (value : Word) (s : State) : Host.Outcome State Fault Refusal :=
  .next (fieldWrite (.progBindWrite ch value) s)

/-- COEF_ACCESS: a write, or a read where there is no value. -/
def execCoefAccess (ch : Fin 16) (write : Option Word) (s : State) : Host.Outcome State Fault Refusal :=
  match write with
  | some v => .next (fieldWrite (.coefAccess ch (some v)) s)
  | none => .next (hostCommand (.coefAccess ch none) true s fun _ s => readBody (chBase ch + 0x13C) s)

/-- FREEZE_WRITE. -/
def execFreezeWrite (ch : Fin 16) (frz : BitVec 4) (s : State) : Host.Outcome State Fault Refusal :=
  .next (fieldWrite (.freezeWrite ch frz) s)

/-- SETPOINT_WRITE. -/
def execSetpointWrite (ch : Fin 16) (reg : SetpointReg) (value : Word) (s : State) : Host.Outcome State Fault Refusal :=
  .next (fieldWrite (.setpointWrite ch reg value) s)

/-- ACC_CLEAR_WRITE. -/
def execAccClearWrite (ch : Fin 16) (s : State) : Host.Outcome State Fault Refusal :=
  .next (fieldWrite (.accClearWrite ch) s)

/-- LOGACK_WRITE. -/
def execLogackWrite (ch : Fin 16) (value : Word) (s : State) : Host.Outcome State Fault Refusal :=
  .next (fieldWrite (.logackWrite ch value) s)

/-- BKCLR_WRITE. -/
def execBkclrWrite (s : State) : Host.Outcome State Fault Refusal := .next (fieldWrite .bkclrWrite s)

/-- CASTLE_PERIOD_WRITE. -/
def execCastlePeriodWrite (period : BitVec 16) (s : State) : Host.Outcome State Fault Refusal :=
  .next (fieldWrite (.castlePeriodWrite period) s)

/-- QUAD_WRITE. -/
def execQuadWrite (quad : Bool) (s : State) : Host.Outcome State Fault Refusal := .next (fieldWrite (.quadWrite quad) s)

/-- TEST_UNRETIRE_WRITE. -/
def execTestUnretireWrite (value : Word) (s : State) : Host.Outcome State Fault Refusal :=
  .next (fieldWrite (.testUnretireWrite value) s)

/-- AUXPS_PKCLR_WRITE. -/
def execAuxpsPkclrWrite (s : State) : Host.Outcome State Fault Refusal := .next (fieldWrite .auxpsPkclrWrite s)

/-- CAN_ENABLE_WRITE. -/
def execCanEnableWrite (value : Word) (s : State) : Host.Outcome State Fault Refusal :=
  .next (fieldWrite (.canEnableWrite value) s)

/-- CAN_TXADD_WRITE. -/
def execCanTxaddWrite (value : Word) (s : State) : Host.Outcome State Fault Refusal :=
  .next (fieldWrite (.canTxaddWrite value) s)

/-- CAN_TXCANCEL_WRITE. -/
def execCanTxcancelWrite (value : Word) (s : State) : Host.Outcome State Fault Refusal :=
  .next (fieldWrite (.canTxcancelWrite value) s)

/-- CAN_RXACK_WRITE. -/
def execCanRxackWrite (fifo : Fin 2) (value : Word) (s : State) : Host.Outcome State Fault Refusal :=
  .next (fieldWrite (.canRxackWrite fifo value) s)

/-- DMA_SHV_WRITE. -/
def execDmaShvWrite (n : Fin 8) (value : Word) (s : State) : Host.Outcome State Fault Refusal :=
  .next (fieldWrite (.dmaShvWrite n value) s)

/-- DMA_ABORT. -/
def execDmaAbort (n : Fin 8) (s : State) : Host.Outcome State Fault Refusal := .next (fieldWrite (.dmaAbort n) s)

/-- DMA_DISABLE. -/
def execDmaDisable (n : Fin 8) (s : State) : Host.Outcome State Fault Refusal := .next (fieldWrite (.dmaDisable n) s)

end Sys2Proof.Machine
end

