-- ==== Sys2Proof/Machine/Dispatch.lean ====
section
/-! DEFINITION. One arm for each command: its meaning, on everything but the queue. -/
namespace Sys2Proof.Machine

def exec (i : Instr) (s : State) : Host.Outcome State Fault Refusal :=
  match i with
  | .identify => Sys2Proof.Machine.execIdentify s
  | .status => Sys2Proof.Machine.execStatus s
  | .setMode target flags => Sys2Proof.Machine.execSetMode target flags s
  | .softReset confirm => Sys2Proof.Machine.execSoftReset confirm s
  | .wakeCommand => Sys2Proof.Machine.execWakeCommand s
  | .cfgSave => Sys2Proof.Machine.execCfgSave s
  | .cfgSaveDone ok => Sys2Proof.Machine.execCfgSaveDone ok s
  | .timeRead => Sys2Proof.Machine.execTimeRead s
  | .echo data => Sys2Proof.Machine.execEcho data s
  | .regRead addr => Sys2Proof.Machine.execRegRead addr s
  | .captureRead addr => Sys2Proof.Machine.execCaptureRead addr s
  | .regWrite addr value => Sys2Proof.Machine.execRegWrite addr value s
  | .regReadBlock addr count => Sys2Proof.Machine.execRegReadBlock addr count s
  | .regWriteMulti pairs => Sys2Proof.Machine.execRegWriteMulti pairs s
  | .foutWrite fout => Sys2Proof.Machine.execFoutWrite fout s
  | .gangWrite group gang => Sys2Proof.Machine.execGangWrite group gang s
  | .progBindWrite ch value => Sys2Proof.Machine.execProgBindWrite ch value s
  | .coefAccess ch write => Sys2Proof.Machine.execCoefAccess ch write s
  | .freezeWrite ch frz => Sys2Proof.Machine.execFreezeWrite ch frz s
  | .setpointWrite ch reg value => Sys2Proof.Machine.execSetpointWrite ch reg value s
  | .accClearWrite ch => Sys2Proof.Machine.execAccClearWrite ch s
  | .logackWrite ch value => Sys2Proof.Machine.execLogackWrite ch value s
  | .bkclrWrite => Sys2Proof.Machine.execBkclrWrite s
  | .castlePeriodWrite period => Sys2Proof.Machine.execCastlePeriodWrite period s
  | .quadWrite quad => Sys2Proof.Machine.execQuadWrite quad s
  | .testUnretireWrite value => Sys2Proof.Machine.execTestUnretireWrite value s
  | .auxpsPkclrWrite => Sys2Proof.Machine.execAuxpsPkclrWrite s
  | .chArm mask => Sys2Proof.Machine.execChArm mask s
  | .chStop mask => Sys2Proof.Machine.execChStop mask s
  | .chHold mask => Sys2Proof.Machine.execChHold mask s
  | .chResume mask => Sys2Proof.Machine.execChResume mask s
  | .chClear mask => Sys2Proof.Machine.execChClear mask s
  | .chHand mask enter => Sys2Proof.Machine.execChHand mask enter s
  | .chSetpoint ch sel iset vset iramp vramp => Sys2Proof.Machine.execChSetpoint ch sel iset vset iramp vramp s
  | .progStart mask => Sys2Proof.Machine.execProgStart mask s
  | .progAbort mask => Sys2Proof.Machine.execProgAbort mask s
  | .chStatus ch => Sys2Proof.Machine.execChStatus ch s
  | .bookDir => Sys2Proof.Machine.execBookDir s
  | .bookHdr header => Sys2Proof.Machine.execBookHdr header s
  | .bookSteps first count records => Sys2Proof.Machine.execBookSteps first count records s
  | .bookCommit slot => Sys2Proof.Machine.execBookCommit slot s
  | .bookCommitDone ok => Sys2Proof.Machine.execBookCommitDone ok s
  | .bookRead slot first count => Sys2Proof.Machine.execBookRead slot first count s
  | .calRequestRotation => Sys2Proof.Machine.execCalRequestRotation s
  | .calRequestRefTrim arg value => Sys2Proof.Machine.execCalRequestRefTrim arg value s
  | .calRequestFactory arg value => Sys2Proof.Machine.execCalRequestFactory arg value s
  | .calTrimDone ok deviation => Sys2Proof.Machine.execCalTrimDone ok deviation s
  | .measPulse ch i1 dur => Sys2Proof.Machine.execMeasPulse ch i1 dur s
  | .measEis ch m freq amp => Sys2Proof.Machine.execMeasEis ch m freq amp s
  | .histRead ch first count => Sys2Proof.Machine.execHistRead ch first count s
  | .logRead ch count first => Sys2Proof.Machine.execLogRead ch count first s
  | .logAck ch seq => Sys2Proof.Machine.execLogAck ch seq s
  | .logMark ch data => Sys2Proof.Machine.execLogMark ch data s
  | .gradeRead ch age => Sys2Proof.Machine.execGradeRead ch age s
  | .linkStatus => Sys2Proof.Machine.execLinkStatus s
  | .safeHello slot => Sys2Proof.Machine.execSafeHello slot s
  | .safeLogin slot proof => Sys2Proof.Machine.execSafeLogin slot proof s
  | .safeLogout => Sys2Proof.Machine.execSafeLogout s
  | .safeCommit => Sys2Proof.Machine.execSafeCommit s
  | .safeCommitDone ok => Sys2Proof.Machine.execSafeCommitDone ok s
  | .safePasswd slot len masked => Sys2Proof.Machine.execSafePasswd slot len masked s
  | .safeLogread first count => Sys2Proof.Machine.execSafeLogread first count s
  | .safeAck flags mask => Sys2Proof.Machine.execSafeAck flags mask s
  | .safeKey masked => Sys2Proof.Machine.execSafeKey masked s
  | .testRunMemoryBist arg => Sys2Proof.Machine.execTestRunMemoryBist arg s
  | .testRunSpareBist arg => Sys2Proof.Machine.execTestRunSpareBist arg s
  | .testRunLogicBist arg => Sys2Proof.Machine.execTestRunLogicBist arg s
  | .testRunLoopback arg => Sys2Proof.Machine.execTestRunLoopback arg s
  | .testRunScrub arg => Sys2Proof.Machine.execTestRunScrub arg s
  | .testRunLegTest arg => Sys2Proof.Machine.execTestRunLegTest arg s
  | .legTestDone failLegs groupOk checks => Sys2Proof.Machine.execLegTestDone failLegs groupOk checks s
  | .serviceTestDone sigMatch applied badRows => Sys2Proof.Machine.execServiceTestDone sigMatch applied badRows s
  | .testResult test => Sys2Proof.Machine.execTestResult test s
  | .scanRequest confirm => Sys2Proof.Machine.execScanRequest confirm s
  | .fuseRepair => Sys2Proof.Machine.execFuseRepair s
  | .fuseRepairDone rows ok => Sys2Proof.Machine.execFuseRepairDone rows ok s
  | .lifeRead => Sys2Proof.Machine.execLifeRead s
  | .evtRead first count => Sys2Proof.Machine.execEvtRead first count s
  | .evtAck seq => Sys2Proof.Machine.execEvtAck seq s
  | .evtStatus => Sys2Proof.Machine.execEvtStatus s
  | .requestFrame bytes partialByte => Sys2Proof.Machine.execRequestFrame bytes partialByte s
  | .replyRead clocked => Sys2Proof.Machine.execReplyRead clocked s
  | .reread clocked => Sys2Proof.Machine.execReread clocked s
  | .attentionBlink => Sys2Proof.Machine.execAttentionBlink s
  | .epochBoundary w => Sys2Proof.Machine.execEpochBoundary w s
  | .stagingAnswer island => Sys2Proof.Machine.execStagingAnswer island s
  | .stagingTimeout => Sys2Proof.Machine.execStagingTimeout s
  | .crossbarTransfer src dst planeB attempts => Sys2Proof.Machine.execCrossbarTransfer src dst planeB attempts s
  | .currentReference iref leg tag epoch => Sys2Proof.Machine.execCurrentReference iref leg tag epoch s
  | .pllLoss island => Sys2Proof.Machine.execPllLoss island s
  | .islandRestartDone island => Sys2Proof.Machine.execIslandRestartDone island s
  | .ceLockstepMismatch ce => Sys2Proof.Machine.execCeLockstepMismatch ce s
  | .castleReplayDone group => Sys2Proof.Machine.execCastleReplayDone group s
  | .sequencerMismatch => Sys2Proof.Machine.execSequencerMismatch s
  | .seqRecover epochs => Sys2Proof.Machine.execSeqRecover epochs s
  | .plannedCastlingDue crcOk ackInTime => Sys2Proof.Machine.execPlannedCastlingDue crcOk ackInTime s
  | .spareBistDue => Sys2Proof.Machine.execSpareBistDue s
  | .spareBistDone ce sigMatch stateOk patterns => Sys2Proof.Machine.execSpareBistDone ce sigMatch stateOk patterns s
  | .checkDone ch meas => Sys2Proof.Machine.execCheckDone ch meas s
  | .shortCheckExpiry ch => Sys2Proof.Machine.execShortCheckExpiry ch s
  | .foldbackUpdate ch tdPs => Sys2Proof.Machine.execFoldbackUpdate ch tdPs s
  | .burstEnter ch tdPs => Sys2Proof.Machine.execBurstEnter ch tdPs s
  | .burstExit ch => Sys2Proof.Machine.execBurstExit ch s
  | .legImbalance ch positive => Sys2Proof.Machine.execLegImbalance ch positive s
  | .orderlyStopGatesOff ch => Sys2Proof.Machine.execOrderlyStopGatesOff ch s
  | .disconnectOpen ch => Sys2Proof.Machine.execDisconnectOpen ch s
  | .scTrip leg hard milliamps => Sys2Proof.Machine.execScTrip leg hard milliamps s
  | .scGroup group hard tripped turnedOn => Sys2Proof.Machine.execScGroup group hard tripped turnedOn s
  | .restartDecayTimeout group above => Sys2Proof.Machine.execRestartDecayTimeout group above s
  | .restartHoldoffEnd group failStep => Sys2Proof.Machine.execRestartHoldoffEnd group failStep s
  | .bootstrapUv trip => Sys2Proof.Machine.execBootstrapUv trip s
  | .bootstrapDlimLift leg => Sys2Proof.Machine.execBootstrapDlimLift leg s
  | .bootstrapRefresh leg => Sys2Proof.Machine.execBootstrapRefresh leg s
  | .interlock leg => Sys2Proof.Machine.execInterlock leg s
  | .loopSat ch => Sys2Proof.Machine.execLoopSat ch s
  | .implausible ch check => Sys2Proof.Machine.execImplausible ch check s
  | .calSlotStart m => Sys2Proof.Machine.execCalSlotStart m s
  | .refMonitor a b x => Sys2Proof.Machine.execRefMonitor a b x s
  | .calHoldExpired lateNs reading => Sys2Proof.Machine.execCalHoldExpired lateNs reading s
  | .loopbackCheck plus minus => Sys2Proof.Machine.execLoopbackCheck plus minus s
  | .legOffsetMeasure leg offset => Sys2Proof.Machine.execLegOffsetMeasure leg offset s
  | .pulseEvalDone ch m => Sys2Proof.Machine.execPulseEvalDone ch m s
  | .eisPointDone ch m => Sys2Proof.Machine.execEisPointDone ch m s
  | .flagFall ch => Sys2Proof.Machine.execFlagFall ch s
  | .chargeCap ch => Sys2Proof.Machine.execChargeCap ch s
  | .periodicRecord ch => Sys2Proof.Machine.execPeriodicRecord ch s
  | .ocvRecord ch fit mean temp => Sys2Proof.Machine.execOcvRecord ch fit mean temp s
  | .tempReduce ch => Sys2Proof.Machine.execTempReduce ch s
  | .tempwinClear ch => Sys2Proof.Machine.execTempwinClear ch s
  | .linkTick => Sys2Proof.Machine.execLinkTick s
  | .budgetMessage m => Sys2Proof.Machine.execBudgetMessage m s
  | .peerLost node => Sys2Proof.Machine.execPeerLost node s
  | .peerDemandDrop node => Sys2Proof.Machine.execPeerDemandDrop node s
  | .srcokChange level => Sys2Proof.Machine.execSrcokChange level s
  | .sourceLoss => Sys2Proof.Machine.execSourceLoss s
  | .bkokChange level => Sys2Proof.Machine.execBkokChange level s
  | .handoverTimeout => Sys2Proof.Machine.execHandoverTimeout s
  | .returnQualified => Sys2Proof.Machine.execReturnQualified s
  | .backupLost => Sys2Proof.Machine.execBackupLost s
  | .formingToLost => Sys2Proof.Machine.execFormingToLost s
  | .powerOnReset srcidOhm => Sys2Proof.Machine.execPowerOnReset srcidOhm s
  | .auxSoftStart axinMv => Sys2Proof.Machine.execAuxSoftStart axinMv s
  | .bootDone b => Sys2Proof.Machine.execBootDone b s
  | .bootHalt stop => Sys2Proof.Machine.execBootHalt stop s
  | .pinReset => Sys2Proof.Machine.execPinReset s
  | .rstNRelease srcidOhm => Sys2Proof.Machine.execRstNRelease srcidOhm s
  | .rstStuck => Sys2Proof.Machine.execRstStuck s
  | .wake srcidOhm => Sys2Proof.Machine.execWake srcidOhm s
  | .linkWake m => Sys2Proof.Machine.execLinkWake m s
  | .stopInputChange input chanB level => Sys2Proof.Machine.execStopInputChange input chanB level s
  | .safeLatchStore => Sys2Proof.Machine.execSafeLatchStore s
  | .discrep input => Sys2Proof.Machine.execDiscrep input s
  | .cat1TimerExpiry => Sys2Proof.Machine.execCat1TimerExpiry s
  | .safeEscalate ch milliamps => Sys2Proof.Machine.execSafeEscalate ch milliamps s
  | .offPulseTest out pass => Sys2Proof.Machine.execOffPulseTest out pass s
  | .soOverload out => Sys2Proof.Machine.execSoOverload out s
  | .sofbFault out => Sys2Proof.Machine.execSofbFault out s
  | .cpTrip ch kind => Sys2Proof.Machine.execCpTrip ch kind s
  | .cpDiag failed => Sys2Proof.Machine.execCpDiag failed s
  | .refClockLoss => Sys2Proof.Machine.execRefClockLoss s
  | .safetyOscFail => Sys2Proof.Machine.execSafetyOscFail s
  | .clockRecovered oscillator => Sys2Proof.Machine.execClockRecovered oscillator s
  | .gateDisableFault group => Sys2Proof.Machine.execGateDisableFault group s
  | .safetyCoreDivergence => Sys2Proof.Machine.execSafetyCoreDivergence s
  | .safeCoreRestart micros => Sys2Proof.Machine.execSafeCoreRestart micros s
  | .sessionTimeout => Sys2Proof.Machine.execSessionTimeout s
  | .slotUnlock slot => Sys2Proof.Machine.execSlotUnlock slot s
  | .vsoUndervoltage => Sys2Proof.Machine.execVsoUndervoltage s
  | .thermEvaluation sensor conv => Sys2Proof.Machine.execThermEvaluation sensor conv s
  | .thermStopEnd sensor => Sys2Proof.Machine.execThermStopEnd sensor s
  | .thermLatch sensor => Sys2Proof.Machine.execThermLatch sensor s
  | .thRefresh input x => Sys2Proof.Machine.execThRefresh input x s
  | .canBusJoin => Sys2Proof.Machine.execCanBusJoin s
  | .canEnableWrite value => Sys2Proof.Machine.execCanEnableWrite value s
  | .canTxaddWrite value => Sys2Proof.Machine.execCanTxaddWrite value s
  | .canTxcancelWrite value => Sys2Proof.Machine.execCanTxcancelWrite value s
  | .canRxackWrite fifo value => Sys2Proof.Machine.execCanRxackWrite fifo value s
  | .canFrameReceived frame => Sys2Proof.Machine.execCanFrameReceived frame s
  | .canFrameSent buffer sof => Sys2Proof.Machine.execCanFrameSent buffer sof s
  | .canBusError kind transmitting => Sys2Proof.Machine.execCanBusError kind transmitting s
  | .canRecovered ms => Sys2Proof.Machine.execCanRecovered ms s
  | .timeReferenceSend => Sys2Proof.Machine.execTimeReferenceSend s
  | .timeReferenceMessage frame => Sys2Proof.Machine.execTimeReferenceMessage frame s
  | .canTimeLost => Sys2Proof.Machine.execCanTimeLost s
  | .canTimeRole => Sys2Proof.Machine.execCanTimeRole s
  | .statusMessage => Sys2Proof.Machine.execStatusMessage s
  | .dmaShvWrite n value => Sys2Proof.Machine.execDmaShvWrite n value s
  | .dmaAbort n => Sys2Proof.Machine.execDmaAbort n s
  | .dmaDisable n => Sys2Proof.Machine.execDmaDisable n s
  | .dmaBurst => Sys2Proof.Machine.execDmaBurst s
  | .dmaDescriptorDone n => Sys2Proof.Machine.execDmaDescriptorDone n s
  | .sramEccError addr double => Sys2Proof.Machine.execSramEccError addr double s
  | .rowRepairDone row => Sys2Proof.Machine.execRowRepairDone row s
  | .nvmRefreshDue => Sys2Proof.Machine.execNvmRefreshDue s
  | .nvmRefreshPage ok => Sys2Proof.Machine.execNvmRefreshPage ok s
  | .lifetimeHour => Sys2Proof.Machine.execLifetimeHour s
  | .eqhMinute hottest => Sys2Proof.Machine.execEqhMinute hottest s
  | .auxPhaseOvercurrent phase => Sys2Proof.Machine.execAuxPhaseOvercurrent phase s
  | .auxLimitPersist phase => Sys2Proof.Machine.execAuxLimitPersist phase s
  | .auxSoftstartLimit phase => Sys2Proof.Machine.execAuxSoftstartLimit phase s
  | .auxImbalance positive => Sys2Proof.Machine.execAuxImbalance positive s
  | .auxBrake => Sys2Proof.Machine.execAuxBrake s
  | .auxBrakeEnd => Sys2Proof.Machine.execAuxBrakeEnd s
  | .auxVgdOv millivolts => Sys2Proof.Machine.execAuxVgdOv millivolts s
  | .supplyLoss => Sys2Proof.Machine.execSupplyLoss s
  | .railFault => Sys2Proof.Machine.execRailFault s
  | .sofbChange out level => Sys2Proof.Machine.execSofbChange out level s
  | .vsouvClear => Sys2Proof.Machine.execVsouvClear s
  | .vioChange up => Sys2Proof.Machine.execVioChange up s
  | .auxImbalanceClear => Sys2Proof.Machine.execAuxImbalanceClear s
  | .auxModeChange buck => Sys2Proof.Machine.execAuxModeChange buck s
  | .alwaysOnReset => Sys2Proof.Machine.execAlwaysOnReset s

end Sys2Proof.Machine
end

