-- ==== Sys2Proof/Machine/Interpreter.lean ====
section
/-! DEFINITION. What the block does of its own when no command waits: what a reply has made due, the oldest accepted request,
a step of BOOT, or nothing. -/
namespace Sys2Proof.Machine

/-- The oldest accepted request is refused for its payload: length before mode, mode before parameters (R311). -/
def refuseRequest (s : State) (r : Request) (length : Bool) : State :=
  let s := takeOldest s
  match modeLetter s with
  | none => s
  | some l =>
    if length then reply s r.tag r.opc stBadLen []
    else if (servedModes r.opc).contains l = false then reply s r.tag r.opc stWrongMode []
    else reply s r.tag r.opc stBadParam []

/-- The command that an accepted request spells. -/
def requestRow (r : Request) : Decoded :=
  match r.row with
  | some i => .ok i
  | none => decodeRequest r.opc r.payload

/-- The command interpreter executes the oldest accepted request (R296, R311). -/
def interpret (r : Request) (s : State) : Host.Outcome State Fault Refusal :=
  match requestRow r with
  | .ok i => exec i s
  | .badLen => .next (refuseRequest s r true)
  | .badParam => .next (refuseRequest s r false)

/-- An accepted request waits while the port serves commands. -/
def requestDue (s : State) : Option Request := if (modeLetter s).isSome then s.port.waiting.head? else none

/-- What the block does with an empty queue. DESIGN CHOICE, log entry 1. -/
def idle (s : State) : Host.Outcome State Fault Refusal :=
  if s.sys.due ≠ .none then .next (settleDue s)
  else
    match requestDue s with
    | some r => interpret r s
    | none => .next (bootAdvance s)

end Sys2Proof.Machine
end

