-- ==== Sys2Proof/Safety.lean ====
section
/-! DEFINITION. What counts as a safe run, in the terms that the claims use: the invariant of the memory and of the queues,
and what every command keeps. -/
namespace Sys2Proof.Safety

open Sys2Proof.Machine

/-- The places of the fuse map (R391). -/
def fusePlaces : Nat := 32

/-- The SRAM cells are in canonical form, the reply queue holds at most 12 replies (R296), the event queue at most 1 023
events beside its reserved place (R336), and the fuse map at most 32 entries (R391). -/
structure Inv (s : State) : Prop where
  memory : Memory.wf s.mem = true
  replies : s.port.replies.length ≤ replyPlaces
  events : s.evq.queue.length ≤ evqRoom
  fuses : s.nvm.fuses.length ≤ fusePlaces

/-- What a command keeps on its way from one state to another: the queue of waiting commands, every part of the
invariant, and the fuses that are blown (R391). -/
structure Keeps (s t : State) : Prop where
  pending : t.pending = s.pending
  memory : Memory.wf s.mem = true → Memory.wf t.mem = true
  replies : s.port.replies.length ≤ replyPlaces → t.port.replies.length ≤ replyPlaces
  events : s.evq.queue.length ≤ evqRoom → t.evq.queue.length ≤ evqRoom
  fuses : s.nvm.fuses <+: t.nvm.fuses
  fuseRoom : s.nvm.fuses.length ≤ fusePlaces → t.nvm.fuses.length ≤ fusePlaces

/-! ### Host commands, as the claims name them -/

/-- The command that a request spells: CAPTURE_READ and a read of CHn_COEF are register reads. -/
def requested : Instr → Instr
  | .captureRead a => .regRead a
  | .coefAccess c none => .regRead (chBase c + 0x13C)
  | i => i

/-- The request that a host command executes. -/
def req (i : Instr) (s : State) : Request := (takeRequest i s).1

/-- The state once the request of a host command has been taken from the port. -/
def taken (i : Instr) (s : State) : State := (takeRequest i s).2

/-- It is the turn of the command's request (R296), and the host port runs and serves it in the mode in force (R311). -/
def Served (i : Instr) (s : State) : Prop :=
  itsTurn i s = true ∧ ∃ l, modeLetter s = some l ∧ (servedModes (req i s).opc).contains l = true

/-- The state u with the reply of the command's request (R293). -/
def replied (i : Instr) (s u : State) (status : Byte) (payload : List Byte) : State :=
  reply u (req i s).tag (req i s).opc status payload

/-- The state u with a change staged for the command's request (R24). -/
def staged (i : Instr) (s u : State) (change : Change) (islands : BitVec 14) : State :=
  stage u change (req i s).opc (some (req i s).tag) islands

/-- The word that a row of one register write writes (R318). -/
def written (i : Instr) (f : FieldWrite) (s : State) : Word := fieldValue f (req i s) (taken i s)

/-- The word of a host setpoint register: its field of a value (R123). -/
def setpointWord (r : SetpointReg) (v : Word) : Word :=
  match r with
  | .iset => v
  | .vset => v &&& 0x7FFFFF
  | .iramp => v &&& 0xFFFFF
  | .vramp => v &&& 0xFFFFFF

/-- The range of a host setpoint register (R123). -/
def setpointFits (r : SetpointReg) (v : Word) : Prop :=
  match r with
  | .iset => v.toInt.natAbs ≤ 320000000
  | .vset => (v &&& 0x7FFFFF).toNat ≤ 5500000
  | .iramp => (v &&& 0xFFFFF).toNat ≤ 1000000
  | .vramp => (v &&& 0xFFFFFF).toNat ≤ 10000000

/-- A channel with one host setpoint register written. -/
def setpointStored (r : SetpointReg) (v : Word) (ch : Chan) : Chan :=
  match r with
  | .iset => { ch with iset := v }
  | .vset => { ch with vset := v }
  | .iramp => { ch with iramp := v }
  | .vramp => { ch with vramp := v }

/-- The selection that names one host setpoint register. -/
def setpointSel (r : SetpointReg) : BitVec 4 :=
  match r with
  | .iset => 1
  | .vset => 2
  | .iramp => 4
  | .vramp => 8

/-! ### Parts of the state -/

/-- The parts of the state, without the queue of waiting commands. -/
inductive Part
  | sys | ch | leg | grp | ce | staged | recs | evq | port | sticky | nvm
  | safe | therm | link | meas | can | dma | dmaLast | isl | aux | tap | mem
deriving DecidableEq, Repr

/-- All parts. -/
def allParts : List Part :=
  [.sys, .ch, .leg, .grp, .ce, .staged, .recs, .evq, .port, .sticky, .nvm, .safe, .therm,
   .link, .meas, .can, .dma, .dmaLast, .isl, .aux, .tap, .mem]

/-- The parts that a command may change: rows of one register write, resets and wakes, the ends of BOOT, what follows
a reply, and an epoch boundary may change any. -/
def changes (i : Instr) : List Part :=
  match i with
  | .auxBrake | .auxBrakeEnd | .auxModeChange .. => [.aux]
  | .canBusJoin => [.can]
  | .flagFall .. | .chargeCap .. | .tempwinClear .. => [.ch]
  | .bootstrapDlimLift .. | .bootstrapRefresh .. | .legOffsetMeasure .. => [.leg]
  | .peerDemandDrop .. | .sourceLoss | .returnQualified | .backupLost | .formingToLost => [.link]
  | .safeLatchStore | .lifetimeHour | .eqhMinute .. => [.nvm]
  | .identify | .status | .timeRead | .echo .. | .chStatus .. | .bookDir | .bookRead .. | .calRequestRotation
  | .histRead .. | .logRead .. | .gradeRead .. | .linkStatus | .testRunLoopback .. | .testRunScrub ..
  | .testResult .. | .lifeRead | .requestFrame .. | .reread .. | .attentionBlink | .vioChange .. => [.port]
  | .clockRecovered .. | .sofbChange .. => [.safe]
  | .rstStuck => [.sticky]
  | .spareBistDue => [.ce, .isl]
  | .measEis .. | .logAck .. => [.ch, .port]
  | .periodicRecord .. => [.ch, .recs]
  | .evtRead .. | .evtAck .. => [.evq, .port]
  | .bookHdr .. | .bookSteps .. | .bookCommit .. | .calRequestRefTrim .. | .calRequestFactory ..
  | .testRunLegTest .. | .fuseRepair => [.port, .isl]
  | .vsouvClear => [.safe, .aux]
  | .chArm .. | .chStop .. | .chHold .. | .chResume .. | .chClear .. | .chHand .. | .progAbort ..
  | .measPulse .. | .logMark .. => [.staged, .port]
  | .auxImbalanceClear => [.sys, .aux]
  | .disconnectOpen .. => [.sys, .ch]
  | .wakeCommand | .testRunMemoryBist .. | .testRunLogicBist .. | .evtStatus => [.sys, .port]
  | .slotUnlock .. => [.sys, .safe]
  | .testRunSpareBist .. => [.ce, .port, .isl]
  | .foldbackUpdate .. | .burstEnter .. | .burstExit .. | .legImbalance .. | .loopSat .. | .tempReduce .. =>
    [.ch, .evq, .sticky]
  | .pulseEvalDone .. => [.ch, .recs, .port]
  | .chSetpoint .. => [.ch, .staged, .port]
  | .auxImbalance .. => [.evq, .sticky, .aux]
  | .canRecovered .. | .canTimeRole => [.evq, .sticky, .can]
  | .rowRepairDone .. | .nvmRefreshDue => [.evq, .sticky, .isl]
  | .peerLost .. | .bkokChange .. | .handoverTimeout => [.evq, .sticky, .link]
  | .refMonitor .. | .calHoldExpired .. => [.evq, .sticky, .meas]
  | .safeCoreRestart .. => [.evq, .sticky, .safe]
  | .thermStopEnd .. => [.evq, .sticky, .therm]
  | .interlock .. => [.leg, .evq, .sticky]
  | .timeReferenceSend | .statusMessage => [.sys, .can, .mem]
  | .ocvRecord .. => [.sys, .ch, .recs]
  | .seqRecover .. => [.sys, .evq, .sticky]
  | .softReset .. => [.sys, .port, .isl]
  | .safeHello .. | .safeLogread .. => [.sys, .port, .safe]
  | .dmaDescriptorDone .. => [.evq, .sticky, .dma, .mem]
  | .budgetMessage .. => [.evq, .sticky, .link, .can]
  | .nvmRefreshPage .. => [.evq, .sticky, .nvm, .isl]
  | .currentReference .. => [.leg, .grp, .evq, .sticky]
  | .progStart .. => [.staged, .evq, .port, .sticky]
  | .orderlyStopGatesOff .. => [.sys, .ch, .evq, .sticky]
  | .eisPointDone .. => [.sys, .ch, .recs, .port]
  | .canBusError .. | .timeReferenceMessage .. | .canTimeLost => [.sys, .evq, .sticky, .can]
  | .srcokChange .. => [.sys, .evq, .sticky, .link]
  | .safePasswd .. | .safeKey .. => [.sys, .port, .nvm, .safe]
  | .safeCommit => [.sys, .port, .safe, .isl]
  | .safeAck .. => [.sys, .staged, .port, .safe]
  | .islandRestartDone .. => [.sys, .sticky, .can, .dma]
  | .crossbarTransfer .. => [.ch, .recs, .evq, .port, .sticky]
  | .fuseRepairDone .. => [.evq, .port, .sticky, .nvm, .isl]
  | .calSlotStart .. => [.evq, .sticky, .nvm, .meas, .isl]
  | .cfgSave | .regRead .. | .captureRead .. | .regReadBlock .. => [.sys, .ch, .port, .isl, .aux]
  | .scanRequest .. => [.sys, .evq, .port, .sticky, .nvm]
  | .sessionTimeout => [.sys, .evq, .sticky, .nvm, .safe]
  | .castleReplayDone .. => [.ch, .grp, .recs, .evq, .port, .sticky]
  | .sequencerMismatch => [.sys, .ch, .recs, .evq, .port, .sticky]
  | .cfgSaveDone .. | .bookCommitDone .. | .calTrimDone .. => [.sys, .evq, .port, .sticky, .nvm, .isl]
  | .safeLogin .. | .safeLogout => [.sys, .evq, .port, .sticky, .nvm, .safe]
  | .canFrameReceived .. | .canFrameSent .. => [.sys, .evq, .sticky, .link, .can, .mem]
  | .stagingAnswer .. => [.sys, .staged, .evq, .port, .sticky, .isl]
  | .checkDone .. | .shortCheckExpiry .. | .scTrip .. | .scGroup .. | .restartDecayTimeout ..
  | .restartHoldoffEnd .. | .bootstrapUv .. | .cpTrip .. => [.ch, .leg, .grp, .recs, .evq, .port, .sticky]
  | .linkTick => [.sys, .ch, .evq, .sticky, .link, .can, .mem]
  | .dmaBurst => [.sys, .evq, .sticky, .can, .dma, .dmaLast, .mem]
  | .legTestDone .. => [.sys, .leg, .evq, .port, .sticky, .nvm, .isl]
  | .cat1TimerExpiry | .cpDiag .. | .safetyCoreDivergence => [.ch, .leg, .grp, .recs, .evq, .port, .sticky, .safe]
  | .implausible .. => [.sys, .ch, .leg, .grp, .recs, .evq, .port, .sticky]
  | .plannedCastlingDue .. => [.sys, .grp, .ce, .staged, .evq, .port, .sticky, .isl]
  | .loopbackCheck .. => [.ch, .leg, .grp, .recs, .evq, .port, .sticky, .meas, .isl]
  | .thRefresh .. => [.sys, .ch, .leg, .grp, .recs, .evq, .port, .sticky, .therm]
  | .thermLatch .. | .supplyLoss | .railFault => [.sys, .ch, .staged, .recs, .port, .nvm, .safe, .isl, .aux]
  | .spareBistDone .. => [.sys, .grp, .ce, .staged, .evq, .port, .sticky, .nvm, .isl]
  | .sramEccError .. => [.sys, .ch, .ce, .recs, .evq, .port, .sticky, .dma, .isl, .mem]
  | .stagingTimeout => [.sys, .ch, .grp, .ce, .staged, .recs, .evq, .port, .sticky, .meas]
  | .auxVgdOv .. | .alwaysOnReset => [.sys, .ch, .staged, .recs, .port, .sticky, .nvm, .safe, .isl, .aux]
  | .ceLockstepMismatch .. => [.sys, .ch, .leg, .grp, .ce, .staged, .recs, .evq, .port, .sticky, .isl]
  | .safeEscalate .. => [.sys, .ch, .leg, .grp, .ce, .staged, .recs, .evq, .port, .sticky, .safe]
  | .auxPhaseOvercurrent .. | .auxLimitPersist .. | .auxSoftstartLimit .. =>
    [.sys, .ch, .staged, .recs, .evq, .port, .sticky, .nvm, .safe, .isl, .aux]
  | .thermEvaluation .. => [.sys, .grp, .ce, .staged, .evq, .port, .sticky, .nvm, .therm, .isl, .aux]
  | .pllLoss .. => [.sys, .ch, .leg, .grp, .ce, .staged, .recs, .evq, .port, .sticky, .link, .can, .isl]
  | .safeCommitDone .. | .stopInputChange .. | .discrep .. | .offPulseTest .. | .soOverload ..
  | .sofbFault .. | .refClockLoss | .safetyOscFail | .gateDisableFault .. =>
    [.sys, .ch, .leg, .grp, .ce, .staged, .recs, .evq, .port, .sticky, .nvm, .safe, .meas, .isl]
  | .vsoUndervoltage => [.sys, .ch, .leg, .grp, .ce, .staged, .recs, .evq, .port, .sticky, .nvm, .safe, .meas, .isl, .aux]
  | .setMode .. | .regWrite .. | .regWriteMulti .. | .foutWrite .. | .gangWrite .. | .progBindWrite ..
  | .coefAccess .. | .freezeWrite .. | .setpointWrite .. | .accClearWrite .. | .logackWrite .. | .bkclrWrite
  | .castlePeriodWrite .. | .quadWrite .. | .testUnretireWrite .. | .auxpsPkclrWrite | .serviceTestDone ..
  | .replyRead .. | .epochBoundary .. | .powerOnReset .. | .auxSoftStart .. | .bootDone .. | .bootHalt ..
  | .pinReset | .rstNRelease .. | .wake .. | .linkWake .. | .canEnableWrite .. | .canTxaddWrite ..
  | .canTxcancelWrite .. | .canRxackWrite .. | .dmaShvWrite .. | .dmaAbort .. | .dmaDisable .. => allParts

/-- The parts outside a list are the same in two states. -/
structure Frame (l : List Part) (s t : State) : Prop where
  sys : Part.sys ∉ l → t.sys = s.sys
  ch : Part.ch ∉ l → t.ch = s.ch
  leg : Part.leg ∉ l → t.leg = s.leg
  grp : Part.grp ∉ l → t.grp = s.grp
  ce : Part.ce ∉ l → t.ce = s.ce
  staged : Part.staged ∉ l → t.staged = s.staged
  recs : Part.recs ∉ l → t.recs = s.recs
  evq : Part.evq ∉ l → t.evq = s.evq
  port : Part.port ∉ l → t.port = s.port
  sticky : Part.sticky ∉ l → t.sticky = s.sticky
  nvm : Part.nvm ∉ l → t.nvm = s.nvm
  safe : Part.safe ∉ l → t.safe = s.safe
  therm : Part.therm ∉ l → t.therm = s.therm
  link : Part.link ∉ l → t.link = s.link
  meas : Part.meas ∉ l → t.meas = s.meas
  can : Part.can ∉ l → t.can = s.can
  dma : Part.dma ∉ l → t.dma = s.dma
  dmaLast : Part.dmaLast ∉ l → t.dmaLast = s.dmaLast
  isl : Part.isl ∉ l → t.isl = s.isl
  aux : Part.aux ∉ l → t.aux = s.aux
  tap : Part.tap ∉ l → t.tap = s.tap
  mem : Part.mem ∉ l → t.mem = s.mem

end Sys2Proof.Safety
end

