-- ==== Sys2Proof/Certificates/Slice0/Obligations.lean ====
section
/-! DEFINITION. The statements for the provers: the machine, requests, each family of commands, and the invariants. -/
open Sys2Proof Sys2Proof.Machine Sys2Proof.Safety

/-! ### The machine -/

/-- A step takes the command at the front of the queue and executes it on the state with the queue's rest. -/
def Obligations.StepRunsFront : Prop :=
  ∀ (c : Instr) (rest : List Instr) (s : State),
    step { s with pending := c :: rest } = exec c { s with pending := rest }

/-- On an empty queue the block does what is due after a reply, then the oldest accepted request that the port serves,
then a step of BOOT that has nothing to report (the model's choice, log entry 1). -/
def Obligations.EmptyQueueIdles : Prop :=
  ∀ s : State, s.pending = [] →
    (s.sys.due ≠ .none → step s = .next (settleDue s)) ∧
    (∀ r rest i, s.sys.due = .none → modeLetter s ≠ none → s.port.waiting = r :: rest →
      requestRow r = .ok i → step s = exec i s) ∧
    (s.sys.due = .none → s.port.waiting = [] → bootRuns s = false → step s = .next s)

/-- Every command of the table answers a next state, from every state: no command faults or is refused. -/
def Obligations.EveryCommandCompletes : Prop := ∀ (i : Instr) (s : State), ∃ t, exec i s = .next t

/-- Right after reset the invariant of the memory and of the queues holds, no command waits, the block is in BOOT, every
channel is in OFF with its disconnect open, and the queues of requests, replies, events and staged changes are empty. -/
def Obligations.InvariantAtReset : Prop :=
  Inv State.reset ∧ State.reset.pending = [] ∧ State.reset.sys.phase = .booting ∧ State.reset.sys.mode = .boot ∧
  State.reset.mem = [] ∧ State.reset.staged = [] ∧ State.reset.evq.queue = [] ∧ State.reset.port.replies = [] ∧
  State.reset.port.waiting = [] ∧ State.reset.sys.tbase = 0 ∧ State.reset.sticky.evSeq = 0 ∧
  ∀ c : Fin 16, (State.reset.ch[c]).st = .off ∧ (State.reset.ch[c]).dsw = false ∧ (State.reset.ch[c]).gates = false

/-- Every step keeps the canonical form of the SRAM cells, the 12 places of the reply queue (R296), the 1 023 places of
the event queue (R336), and the 32 entries of the fuse map (R391). -/
def Obligations.StepKeepsInvariant : Prop := ∀ s t : State, Inv s → step s = .next t → Inv t

/-- No command touches the queue of waiting commands, and a blown fuse stays blown: the fuse map only grows at its end
(R391). -/
def Obligations.CommandsKeepQueueAndFuses : Prop :=
  ∀ (i : Instr) (s t : State), exec i s = .next t → t.pending = s.pending ∧ s.nvm.fuses <+: t.nvm.fuses

/-- A command changes no part of the state but those that its row of the table `changes` names; where it does not name
the SRAM cells, every byte of memory reads as before. -/
def Obligations.CommandFrames : Prop :=
  ∀ (i : Instr) (s t : State), exec i s = .next t →
    Frame (changes i) s t ∧ (Part.mem ∉ changes i → ∀ a, memRead t.mem a = memRead s.mem a)

/-! ### Requests -/

/-- Encoding a well-formed host command and decoding its opcode and payload gives the command that its request spells,
for every command that a request carries and every value of its operands (R310). -/
def Obligations.RequestRoundTrip : Prop :=
  ∀ (i : Instr) (opc : Byte) (p : List Byte), i.wellFormed = true → encodeRequest i = some (opc, p) →
    decodeRequest opc p = .ok (requested i)

/-- The rows of one register write: a REG_WRITE whose word has the row's value in the row's field is an instance of
the row, the word that a row writes has that value in that field, and a row that the port serves completes as the
REG_WRITE of that word, with its effect and its status (R318). -/
def Obligations.FieldRowRequests : Prop :=
  ∀ (i : Instr) (f : FieldWrite) (v : Word) (s : State), fieldWriteOf i = some f →
    (v &&& f.mask = f.value → requestIs i 0x11 (wordBytes f.addr ++ wordBytes v) = true) ∧
    written i f s &&& f.mask = f.value ∧
    (Served i s → exec i s = .next (replied i s (writeReg (taken i s) f.addr (written i f s)).1
      (writeReg (taken i s) f.addr (written i f s)).2 []))

/-- Opcodes and payloads written out from the tables of Command set spell the commands they stand for. -/
def Obligations.RequestWords : Prop :=
  decodeRequest 0x00 [] = .ok .identify ∧
  decodeRequest 0x02 [0x06, 0x01, 0x00, 0x00] = .ok (.setMode 0x06 0x01) ∧
  decodeRequest 0x11 [0x40, 0x01, 0x00, 0x00, 0x3C, 0x00, 0x01, 0x00] = .ok (.regWrite 0x140 0x1003C) ∧
  decodeRequest 0x20 [0x03, 0x80, 0x00, 0x00] = .ok (.chArm 0x8003) ∧
  decodeRequest 0x44 [0x1F, 0x02, 0x3F, 0x00] = .ok (.bookRead 0x1F 0x02 0x3F) ∧
  decodeRequest 0x86 [0x01, 0x34, 0x12] = .ok (.safeAck 0x01 0x1234) ∧
  decodeRequest 0xA0 [0xFF, 0xFF, 0xFF, 0xFF, 0x7F, 0x00, 0x00, 0x00] = .ok (.evtRead 0xFFFFFFFF 0x7F) ∧
  decodeRequest 0x10 [0x00, 0x00, 0x00] = .badLen ∧
  decodeRequest 0x20 [0x03, 0x80, 0x01, 0x00] = .badParam

/-! ### Host commands: what every one of them does -/

/-- A host command in a mode that does not serve its opcode completes with WRONG_MODE and does nothing else, and one
whose variable part has a wrong length completes with BAD_LEN before the mode is looked at; one whose turn has not
come waits behind the requests accepted before it, with 8 outstanding it is refused, and where no place is left for a
reply it is not accepted and is counted (R296, R299, R310, R311). -/
def Obligations.RequestsRefused : Prop :=
  ∀ (i : Instr) (lenOk : Bool) (s : State) (l : Letter) (body : Request → State → State × Completion),
    modeLetter s = some l →
    (itsTurn i s = true → lenOk = false → hostCommand i lenOk s body = replied i s (taken i s) stBadLen []) ∧
    (itsTurn i s = true → lenOk = true → (servedModes (req i s).opc).contains l = false →
      hostCommand i lenOk s body = replied i s (taken i s) stWrongMode []) ∧
    (itsTurn i s = false → 8 ≤ s.port.outstanding.length →
      hostCommand i lenOk s body = refuseFrame s (s.port.ltag + 1) (rowRequest i s).opc stBusyRetry) ∧
    (itsTurn i s = false → s.port.outstanding.length < 8 → placesTaken s < 12 →
      ∃ t, hostCommand i lenOk s body = { s with port := t.port } ∧ t = hostCommand i lenOk s body ∧
        t.port.waiting = s.port.waiting ++ [rowRequest i s] ∧ t.port.replies = s.port.replies ∧
        t.port.outstanding = s.port.outstanding ++ [s.port.ltag + 1]) ∧
    (itsTurn i s = false → s.port.outstanding.length < 8 → 12 ≤ placesTaken s →
      hostCommand i lenOk s body = { s with port := { s.port with drop := satInc 8 s.port.drop } })

/-- Forming the reply of a request changes the host port only: with fewer than 12 replies waiting the new one is the
last of the queue, with 12 it is dropped and counted; EVT counts the unread events. A refusal takes a place that
neither a reply nor an outstanding request has, and where all 12 are taken it is counted as dropped (R293, R296). -/
def Obligations.ReplyQueues : Prop :=
  ∀ (s : State) (tag : ReqId) (t8 opc st : Byte) (p : List Byte),
    (placesTaken s < 12 → (refuseFrame s t8 opc st).port.replies = s.port.replies ++
      [{ own := false, tag := t8, status := st, evt := BitVec.ofNat 8 (satNat 8 (unreadCount s)), opc := opc, payload := [] }]) ∧
    (12 ≤ placesTaken s → refuseFrame s t8 opc st = { s with port := { s.port with drop := satInc 8 s.port.drop } }) ∧
    ∃ t, reply s tag opc st p = { s with port := t.port } ∧ t = reply s tag opc st p ∧
      (s.port.replies.length < 12 → t.port.drop = s.port.drop ∧ t.port.replies = s.port.replies ++
        [{ own := true, tag := BitVec.ofNat 8 tag, status := st, evt := BitVec.ofNat 8 (satNat 8 (unreadCount s)), opc := opc, payload := p }]) ∧
      (12 ≤ s.port.replies.length → t.port.replies = s.port.replies ∧ t.port.drop = satInc 8 s.port.drop)

/-- Status reads: each completes with OK and its payload, CH_STATUS of a follower with BAD_PARAM, and changes nothing
but the host port (R64, R193, R315, R317, R323, R332). -/
def Obligations.StatusReadsComplete : Prop :=
  ∀ s : State,
    (Served .identify s → exec .identify s = .next (replied .identify s (taken .identify s) stOk
      (wordBytes 0x163200B0 ++ toLE 8 Config.uid.toNat ++ [0x00, 0x01] ++ [0, 0]))) ∧
    (Served .status s → exec .status s = .next (replied .status s (taken .status s) stOk
      (wordBytes (sysMode s)
        ++ (if s.sys.phase = .dormant then List.replicate 20 0
            else wordBytes (safeStat s) ++ wordBytes (thermStat s) ++
              (if s.sys.phase = .booting ∨ s.sys.phase = .halted then List.replicate 12 0
               else wordBytes (linkState s) ++ stateNibbles s))
        ++ toLE 2 (unreadCount s) ++ toLE 2 s.evq.queue.length))) ∧
    (Served .timeRead s → exec .timeRead s = .next (replied .timeRead s (taken .timeRead s) stOk
      (toLE 8 s.sys.tbase ++ toLE 6 s.sys.epoch.toNat ++ [0, 0]))) ∧
    (∀ d, d.length ≤ 4096 → Served (.echo d) s →
      exec (.echo d) s = .next (replied (.echo d) s (taken (.echo d) s) stOk d)) ∧
    (∀ (b : Byte) (h : b.toNat < 16), Served (.chStatus b) s →
      (isFollower s ⟨b.toNat, h⟩ = false → exec (.chStatus b) s = .next (replied (.chStatus b) s (taken (.chStatus b) s) stOk
        ((s.ch[b.toNat]).snap.flatMap wordBytes))) ∧
      (isFollower s ⟨b.toNat, h⟩ = true →
        exec (.chStatus b) s = .next (replied (.chStatus b) s (taken (.chStatus b) s) stBadParam []))) ∧
    (Served .linkStatus s → exec .linkStatus s = .next (replied .linkStatus s (taken .linkStatus s) stOk
      (([linkState s, linkTot s, linkDev s, linkK s, linkGuard s, linkPeers s]
        ++ channels.map (linkAllow s)).flatMap wordBytes))) ∧
    (∀ (b : Byte) (h : b.toNat < 6), Served (.testResult b) s →
      exec (.testResult b) s = .next (replied (.testResult b) s (taken (.testResult b) s) stOk
        (p1 (s.isl.tests[b.toNat]).result ++ p1 (s.isl.tests[b.toNat]).arg ++ [0, 0] ++ toLE 4 (s.isl.tests[b.toNat]).applied
          ++ toLE 4 (s.isl.tests[b.toNat]).expected ++ toLE 8 (s.isl.tests[b.toNat]).tbase))) ∧
    (Served .lifeRead s → exec .lifeRead s = .next (replied .lifeRead s (taken .lifeRead s) stOk
      (toLE 4 s.nvm.life.hours ++ toLE 4 s.nvm.life.refreshes ++ s.nvm.life.cycles.toList.flatMap (toLE 4)
        ++ s.nvm.life.periods.toList.flatMap (toLE 8))))

/-- Reads of the recipe book, the rings, the grades, the histogram and the change log: with operands in their ranges
each completes with OK and its payload, and changes nothing but the host port and, with a session open, its timeout
(R183, R256, R261, R324, R328). -/
def Obligations.StoreReadsComplete : Prop :=
  ∀ s : State,
    (Served .bookDir s → exec .bookDir s = .next (replied .bookDir s (taken .bookDir s) stOk
      (s.nvm.book.toList.flatMap Recipe.header))) ∧
    (∀ (k first n : Byte) (h : k.toNat < 32), 1 ≤ n.toNat → n.toNat ≤ 63 →
      first.toNat + n.toNat ≤ hdrNstep (s.nvm.book[k.toNat]).header → Served (.bookRead k first n) s →
      exec (.bookRead k first n) s = .next (replied (.bookRead k first n) s (taken (.bookRead k first n) s) stOk
        (((s.nvm.book[k.toNat]).steps.drop first.toNat).take n.toNat).flatten)) ∧
    (∀ (b : Byte) (f n : BitVec 16) (h : b.toNat < 16), 1 ≤ n.toNat → n.toNat ≤ 1024 → f.toNat ≤ 2049 →
      f.toNat + n.toNat ≤ 2050 → Served (.histRead b f n) s →
      exec (.histRead b f n) s = .next (replied (.histRead b f n) s (taken (.histRead b f n) s) stOk
        ((List.range n.toNat).flatMap fun k => toLE 4 (histWord (s.ch[b.toNat]).hist (f.toNat + k))))) ∧
    (∀ (b n : Byte) (first : Word) (h : b.toNat < 16), isFollower s ⟨b.toNat, h⟩ = false → 1 ≤ n.toNat → n.toNat ≤ 127 →
      (first.toNat + 2 ^ 32 - (s.ch[b.toNat]).logAck) % 2 ^ 32 < ringUsed s.ch[b.toNat] → Served (.logRead b n first) s →
      exec (.logRead b n first) s = .next (replied (.logRead b n first) s (taken (.logRead b n first) s) stOk
        (p1 (min n.toNat (ringUsed s.ch[b.toNat] - (first.toNat + 2 ^ 32 - (s.ch[b.toNat]).logAck) % 2 ^ 32)) ++ [0, 0, 0]
          ++ ringRead s.ch[b.toNat] first.toNat
            (min n.toNat (ringUsed s.ch[b.toNat] - (first.toNat + 2 ^ 32 - (s.ch[b.toNat]).logAck) % 2 ^ 32))))) ∧
    (∀ (b age : Byte) (h : b.toNat < 16) (g : List Byte), isFollower s ⟨b.toNat, h⟩ = false → age.toNat ≤ 7 →
      (s.ch[b.toNat]).grades[age.toNat]? = some g → Served (.gradeRead b age) s →
      exec (.gradeRead b age) s = .next (replied (.gradeRead b age) s (taken (.gradeRead b age) s) stOk g)) ∧
    (∀ (first : Word) (n : Byte), 1 ≤ n.toNat → n.toNat ≤ 7 → first.toNat + n.toNat ≤ s.nvm.logSeq →
      s.safe.defaultSess = false → Served (.safeLogread first n) s →
      exec (.safeLogread first n) s = .next (replied (.safeLogread first n) s (sessionHeard (taken (.safeLogread first n) s)) stOk
        ((List.range n.toNat).flatMap fun k => changeAt s (first.toNat + k))))

/-- The event queue and the log acknowledgement: EVT_READ returns entries and marks them read, EVT_ACK releases those
it has been shown, EVT_STATUS counts, and LOG_ACK moves CHn_LOGACK within the ring (R186, R328, R336, R337). -/
def Obligations.QueueCommandsComplete : Prop :=
  ∀ s : State,
    (∀ (first : Word) (n : Byte) (l : List Ev), 1 ≤ n.toNat → n.toNat ≤ 127 → eventsFrom s first = some l →
      Served (.evtRead first n) s →
      exec (.evtRead first n) s = .next (replied (.evtRead first n) s
        (markRead (taken (.evtRead first n) s) (l.take n.toNat)) stOk
        (p1 (l.take n.toNat).length ++ [0, 0, 0] ++ (l.take n.toNat).flatMap eventBytes))) ∧
    (∀ (seq : Word) (r : Nat), s.evq.returned = some r → seqLe seq.toNat r = true → Served (.evtAck seq) s →
      exec (.evtAck seq) s = .next (replied (.evtAck seq) s
        { taken (.evtAck seq) s with evq := { s.evq with queue := s.evq.queue.filter fun e => !seqLe e.seq seq.toNat } }
        stOk [])) ∧
    (∀ e rest, s.evq.queue = e :: rest → Served .evtStatus s →
      exec .evtStatus s = .next (replied .evtStatus s (taken .evtStatus s) stOk
        (wordBytes (evqWord s) ++ toLE 4 s.sticky.evSeq ++ toLE 4 s.evq.lostTotal ++ toLE 4 e.seq))) ∧
    (∀ (b : Byte) (v : Word) (h : b.toNat < 16), isFollower s ⟨b.toNat, h⟩ = false →
      ((s.ch[b.toNat]).logSeq + 2 ^ 32 - v.toNat) % 2 ^ 32 ≤ ringSize → Served (.logAck b v) s →
      exec (.logAck b v) s = .next (replied (.logAck b v) s
        ((taken (.logAck b v) s).updCh ⟨b.toNat, h⟩ fun ch => { ch with
          logAck := v.toNat
          nearFull := ch.nearFull && decide (4096 ≤ (ch.logSeq + 2 ^ 32 - v.toNat) % 2 ^ 32) }) stOk []))

/-! ### Modes, staging and configuration -/

/-- SET_MODE stages a mode change for every island that is not retired, completes at once for the mode in force, and
in DORMANT with PARK makes PARK due; SOFT_RESET with its confirmation, while no page operation of the refresh runs,
and WAKE make what they ask for due after their reply; CFG_SAVE starts the NVM operation with the values of the save
(R207, R208, R216, R220, R306, R316, R317). -/
def Obligations.ModeCommandsComplete : Prop :=
  ∀ s : State,
    (∀ (b f : Byte) (t : Mode), s.sys.phase = .running → f.toNat < 4 → Mode.ofCode? b.toNat = some t → t ≠ s.sys.mode →
      (reachable s.sys.mode).contains t = true → modePending s = false → Served (.setMode b f) s →
      exec (.setMode b f) s = .next (staged (.setMode b f) s (taken (.setMode b f) s)
        (.mode t (f.getLsbD 0) (f.getLsbD 1) false 0) (allIslands s))) ∧
    (∀ (b f : Byte), s.sys.phase = .running → f.toNat < 4 → Mode.ofCode? b.toNat = some s.sys.mode → Served (.setMode b f) s →
      exec (.setMode b f) s = .next (replied (.setMode b f) s (taken (.setMode b f) s) stOk [])) ∧
    (∀ f : Byte, s.sys.phase = .dormant → f.toNat < 4 → f.getLsbD 0 = true → Served (.setMode 6 f) s →
      exec (.setMode 6 f) s = .next (replied (.setMode 6 f) s
        (makeDue (taken (.setMode 6 f) s) .park) stOk [])) ∧
    ((s.sys.mode = .idle → allI 16 (fun c => (s.ch[c]).st == .off || (s.ch[c]).st == .fault) = true) →
      modePending s = false → storeBusy s = false → Served (.softReset 0xA5A55A5A) s →
      ∀ u, u = pageRuns (taken (.softReset 0xA5A55A5A) s) →
        (u.1 = false → exec (.softReset 0xA5A55A5A) s = .next (replied (.softReset 0xA5A55A5A) s
          (makeDue u.2 .soft) stOk [])) ∧
        (u.1 = true → exec (.softReset 0xA5A55A5A) s = .next (replied (.softReset 0xA5A55A5A) s u.2 stBusyRetry []))) ∧
    (Served .wakeCommand s → exec .wakeCommand s = .next (replied .wakeCommand s
      (makeDue (taken .wakeCommand s) .wake) stOk [])) ∧
    (∀ d, (makeDue s d).sys.due = d ∧ (makeDue s d).sys.dueNs = 0 ∧ (makeDue s d).sys.dueLeft = s.port.replies.length + 1) ∧
    (nvmBusy s = false → Served .cfgSave s → exec .cfgSave s = .next { taken .cfgSave s with
      isl := { s.isl with nvmOp := .cfgSave (takeConfig (taken .cfgSave s)), opTag := some (req .cfgSave s).tag } })

/-- SET_MODE to a mode that is not reachable completes with WRONG_MODE and stages nothing, to the mode in force with
OK and no effect, and while another mode change is pending with BUSY_RETRY (R208). -/
def Obligations.SetModeAnswers : Prop :=
  ∀ (s : State) (b f : Byte) (t : Mode), f.toNat < 4 → Mode.ofCode? b.toNat = some t → Served (.setMode b f) s →
    (s.sys.phase = .running → t ≠ s.sys.mode → (reachable s.sys.mode).contains t = false →
      exec (.setMode b f) s = .next (replied (.setMode b f) s (taken (.setMode b f) s) stWrongMode [])) ∧
    (s.sys.phase = .running → t = s.sys.mode →
      exec (.setMode b f) s = .next (replied (.setMode b f) s (taken (.setMode b f) s) stOk [])) ∧
    (s.sys.phase = .running → t ≠ s.sys.mode → (reachable s.sys.mode).contains t = true → modePending s = true →
      exec (.setMode b f) s = .next (replied (.setMode b f) s (taken (.setMode b f) s) stBusyRetry [])) ∧
    (s.sys.phase = .dormant → ¬ (b = 6 ∧ f.getLsbD 0 = true) →
      exec (.setMode b f) s = .next (replied (.setMode b f) s (taken (.setMode b f) s) stWrongMode [])) ∧
    (∀ u status payload, (replied (.setMode b f) s u status payload).staged = u.staged) ∧
    (taken (.setMode b f) s).staged = s.staged

/-- A staged change: an answer clears the island's bit in the oldest change that waits for it, and a refusal of a mode
change is noted with it; a mode change that every island has answered, and one of them refused, ends with MODE_REFUSED
and names every refuser; where an island never answers a mode change ends the same way, a command with ABORTED, a
planned castling with its abort and the slot of a lane with its position back at its unit (R24, R25, R121, R209; the
lane is the model's choice, log entry 177). -/
def Obligations.StagingCompletes : Prop :=
  ∀ (s : State) (x : Staged) (i : Fin 14) (target : Mode) (park discard fromSafe : Bool) (m : Mask),
    (firstWaiting s (fun w => w.getLsbD i.val) = some x → x.change.isMode = false →
      exec (.stagingAnswer i) s = .next { s with staged := answerOldest i.val false s.staged }) ∧
    (firstWaiting s (fun w => w.getLsbD i.val) = some x → x.change = .mode target park discard fromSafe m →
      exec (.stagingAnswer i) s = .next (settleRefusal { (islandRefuses s i target discard).2 with
        staged := answerOldest i.val (islandRefuses s i target discard).1 (islandRefuses s i target discard).2.staged })) ∧
    (s.staged.find? (fun y => y.change.isMode) = some x → x.change = .mode target park discard fromSafe m →
      (x.waiting = 0 → x.refused ≠ 0 → settleRefusal s = refuseMode s target x x.refused) ∧
      (x.waiting ≠ 0 ∨ x.refused = 0 → settleRefusal s = s)) ∧
    (firstWaiting s (fun w => w != 0) = some x → x.change = .mode target park discard fromSafe m →
      exec .stagingTimeout s = .next (refuseMode s target x (x.waiting ||| x.refused))) ∧
    (∀ u, u = { s with sys := { s.sys with refusers := x.waiting ||| x.refused } } →
      firstWaiting s (fun w => w != 0) = some x →
      (∀ tag k, x.change.isMode = false → x.tag = some tag → x.change.mask? = some k →
        exec .stagingTimeout s = .next (reply { u with staged := eraseFirst (fun y => y.waiting != 0) s.staged }
          tag x.opc stAborted (maskResults k stAborted))) ∧
      (∀ g, x.change = .castle g → recoversGroup s g = false → exec .stagingTimeout s = .next (abortCastle u g 2)) ∧
      (∀ g, x.change = .castle g → recoversGroup s g = true → exec .stagingTimeout s = .next (restaged u g)) ∧
      (∀ k, x.change = .lane k → exec .stagingTimeout s = .next (dropSlot u k)))

/-- An NVM operation ends: a verified configuration, recipe or safety configuration replaces the stored one and the
command completes with OK; one that does not verify leaves it, NVM_FAIL names its area, and the command completes with
NVM_ERROR (R162, R216, R259, R325, R462). -/
def Obligations.NvmOperationsEnd : Prop :=
  ∀ s : State,
    (∀ x, s.isl.nvmOp = .cfgSave x →
      exec (.cfgSaveDone true) s = .next (replyOp
        { s with isl := { s.isl with nvmOp := .none }, nvm := { s.nvm with config := some x } } 0x05 stOk (wordBytes x.crc)) ∧
      exec (.cfgSaveDone false) s = .next (replyOp
        (nvmFail { s with isl := { s.isl with nvmOp := .none } } 1) 0x05 stNvmError [])) ∧
    (∀ k x, s.isl.nvmOp = .book k x →
      exec (.bookCommitDone true) s = .next (replyOp
        { s with isl := { s.isl with nvmOp := .none }
                 nvm := { s.nvm with book := s.nvm.book.set k.val x k.isLt
                                     version := s.nvm.version.set k.val (hdrVersion x.header) k.isLt } }
        0x43 stOk (toLE 2 (hdrVersion x.header) ++ [0, 0] ++ slice x.header 28 4)) ∧
      exec (.bookCommitDone false) s = .next (replyOp
        (nvmFail { s with isl := { s.isl with nvmOp := .none } } 0) 0x43 stNvmError [])) ∧
    (∀ x tag, s.isl.nvmOp = .safe x → s.safe.commitTag = some tag →
      exec (.safeCommitDone false) s = .next (reply
        (nvmFail { s with isl := { s.isl with nvmOp := .none }, safe := { s.safe with commitTag := none } } 2)
        tag 0x83 stNvmError []) ∧
      (s.sys.phase = .running → ∃ t, exec (.safeCommitDone true) s = .next t ∧ t.nvm.safe = some x ∧
        t.nvm.commits = s.nvm.commits + 1 ∧ t.safe.applyAt = true ∧ t.safe.act = s.safe.act ∧ t.isl.nvmOp = .none))

/-- The recipe book: BOOK_HDR and BOOK_STEPS fill the staging image while no commit runs, and BOOK_COMMIT of an image
that passes every check starts the NVM operation with the next version of its slot (R160, R161, R324, R325). -/
def Obligations.BookCommandsComplete : Prop :=
  ∀ s : State,
    (∀ h : List Byte, h.length = 32 → bookBusy s = false → Served (.bookHdr h) s →
      exec (.bookHdr h) s = .next (replied (.bookHdr h) s
        { taken (.bookHdr h) s with isl := { s.isl with stageHdr := h } } stOk [])) ∧
    (∀ (f n : Byte) (r : List Byte), 1 ≤ n.toNat → n.toNat ≤ 63 → r.length = 64 * n.toNat → f.toNat + n.toNat ≤ 128 →
      bookBusy s = false → Served (.bookSteps f n r) s →
      exec (.bookSteps f n r) s = .next (replied (.bookSteps f n r) s
        { taken (.bookSteps f n r) s with isl := { s.isl with
            stageSteps := vmapI s.isl.stageSteps fun i x =>
              if f.toNat ≤ i.val ∧ i.val < f.toNat + n.toNat then (records64 n.toNat r).getD (i.val - f.toNat) [] else x } }
        stOk [])) ∧
    (∀ (b : Byte) (h : b.toNat < 32) (x : Recipe), x = stagedRecipe s → nvmBusy s = false → recipeFault x = none →
      Served (.bookCommit b) s →
      exec (.bookCommit b) s = .next { taken (.bookCommit b) s with isl := { s.isl with
        nvmOp := .book ⟨b.toNat, h⟩
          { x with header := sealHeader x.header ((s.nvm.version[b.toNat] + 1) % 2 ^ 16) x.steps }
        opTag := some (req (.bookCommit b) s).tag } }) ∧
    (∀ (b : Byte) (f : Nat × Nat), b.toNat < 32 → nvmBusy s = false → recipeFault (stagedRecipe s) = some f →
      Served (.bookCommit b) s →
      exec (.bookCommit b) s = .next (replied (.bookCommit b) s (taken (.bookCommit b) s) stBadParam (p1 f.1 ++ p1 f.2)))

/-! ### Register access -/

/-- Register reads: REG_READ and CAPTURE_READ at an address of the map answer the register and make its capture, with
TBASE advanced where no epoch runs; a block read and a series of writes do as many of them, and REG_WRITE answers the
status of the write (R311, R318, R320). -/
def Obligations.RegisterAccessCompletes : Prop :=
  ∀ s : State,
    (∀ (a : Word) (p : Place), (s.sys.phase = .dormant → a.toNat < 0x100) → placeOf a = some p → Served (.regRead a) s →
      exec (.regRead a) s = .next (replied (.regRead a) s (readPlace (timePasses (taken (.regRead a) s)) p).2 stOk
        (wordBytes (readPlace (timePasses (taken (.regRead a) s)) p).1))) ∧
    (∀ (a : Word) (p : Place), (s.sys.phase = .dormant → a.toNat < 0x100) → placeOf a = some p → Served (.captureRead a) s →
      exec (.captureRead a) s = .next (replied (.captureRead a) s (readPlace (timePasses (taken (.captureRead a) s)) p).2 stOk
        (wordBytes (readPlace (timePasses (taken (.captureRead a) s)) p).1))) ∧
    (∀ (a v : Word), Served (.regWrite a v) s →
      exec (.regWrite a v) s = .next (replied (.regWrite a v) s (writeReg (taken (.regWrite a v) s) a v).1
        (writeReg (taken (.regWrite a v) s) a v).2 [])) ∧
    (∀ (a : Word) (n : BitVec 16) (r : List Byte × State), 1 ≤ n.toNat → n.toNat ≤ 1024 →
      readBlock (timePasses (taken (.regReadBlock a n) s)) a n.toNat = some r → Served (.regReadBlock a n) s →
      exec (.regReadBlock a n) s = .next (replied (.regReadBlock a n) s r.2 stOk r.1)) ∧
    (∀ ps : List (Word × Word), 1 ≤ ps.length → ps.length ≤ 256 → Served (.regWriteMulti ps) s →
      exec (.regWriteMulti ps) s = .next (replied (.regWriteMulti ps) s
        (writePairs (taken (.regWriteMulti ps) s) ps 0).1 (writePairs (taken (.regWriteMulti ps) s) ps 0).2.2
        (toLE 2 (writePairs (taken (.regWriteMulti ps) s) ps 0).2.1
          ++ [(writePairs (taken (.regWriteMulti ps) s) ps 0).2.2, 0])))

/-- REG_WRITE_MULTI applies its pairs in order, each as a REG_WRITE, and stops at the first pair that does not give
OK; the pairs already applied stay applied, DONE counts them, and STATUS is that of the failed pair (R320). -/
def Obligations.WritePairsInOrder : Prop :=
  ∀ (s : State) (p : Word × Word) (r : List (Word × Word)) (n : Nat),
    writePairs s [] n = (s, n, stOk) ∧
    ((writeReg s p.1 p.2).2 = stOk → writePairs s (p :: r) n = writePairs (writeReg s p.1 p.2).1 r (n + 1)) ∧
    ((writeReg s p.1 p.2).2 ≠ stOk → writePairs s (p :: r) n = ((writeReg s p.1 p.2).1, n, (writeReg s p.1 p.2).2)) ∧
    (∀ (ps : List (Word × Word)) (w : State × Nat × Byte), 1 ≤ ps.length → ps.length ≤ 256 → Served (.regWriteMulti ps) s →
      w = writePairs (taken (.regWriteMulti ps) s) ps 0 →
      exec (.regWriteMulti ps) s = .next (replied (.regWriteMulti ps) s w.1 w.2.2 (toLE 2 w.2.1 ++ [w.2.2, 0])))

/-- An address is a multiple of 4 in a block of the table or in SRAM; a write to any other gives BAD_ADDR and changes
nothing, and a read of it has no result. Outside the host window a write to SRAM gives BAD_ADDR; in it the four bytes
are written low byte first, every other byte of memory stays, and nothing but the memory changes (R319, R360). -/
def Obligations.AddressRules : Prop :=
  ∀ (s : State) (a v : Word),
    (placeOf a = none → readReg s a = none ∧ writeReg s a v = (s, stBadAddr)) ∧
    (a.toNat % 4 ≠ 0 → placeOf a = none) ∧
    (0x10400000 ≤ a.toNat → placeOf a = none) ∧
    (0xD0000 ≤ a.toNat → a.toNat < 0x10000000 → placeOf a = none) ∧
    (a.toNat % 4 = 0 → 0x10000000 ≤ a.toNat → a.toNat < 0x10400000 → placeOf a = some (.sram a.toNat)) ∧
    (a.toNat % 4 = 0 → 0x10000000 ≤ a.toNat → a.toNat < 0x103F0000 → writeReg s a v = (s, stBadAddr)) ∧
    (a.toNat % 4 = 0 → 0x103F0000 ≤ a.toNat → a.toNat < 0x10400000 → Memory.wf s.mem = true →
      ∃ m, writeReg s a v = ({ s with mem := m }, stOk) ∧
        (∀ k, k < 4 → memRead m (a.toNat + k) = BitVec.ofNat 8 (v.toNat / 256 ^ k)) ∧
        (∀ b, (b < a.toNat ∨ a.toNat + 4 ≤ b) → memRead m b = memRead s.mem b))

/-- A capture register holds the high part of its value for the next read: SYS_EPOCH_LO, SYS_TBASE_LO, SYS_HNONCE_LO,
MEAS_Vn and MEAS_QLOn capture, and no other state changes (R18, R32, R153, R318). -/
def Obligations.CapturesHold : Prop :=
  ∀ s : State,
    readReg s 0x104 = some (BitVec.ofNat 32 s.sys.epoch.toNat,
      { s with sys := { s.sys with capEpochHi := BitVec.ofNat 16 (s.sys.epoch.toNat / 2 ^ 32) } }) ∧
    readReg s 0x110 = some (BitVec.ofNat 32 s.sys.tbase,
      { s with sys := { s.sys with capTbaseHi := BitVec.ofNat 32 (s.sys.tbase / 2 ^ 32) } }) ∧
    readReg s 0x164 = some (s.port.nonce.truncate 32,
      { s with port := { s.port with capNonceHi := BitVec.ofNat 32 (s.port.nonce.toNat / 2 ^ 32) } }) ∧
    (∀ c : Fin 16, ∃ w t, readReg s (BitVec.ofNat 32 (0x3011C + 0x40 * c.val)) = some (w, t) ∧
      t = s.updCh c fun ch => { ch with capQ := ch.qC, capE := ch.eC }) ∧
    (∀ c : Fin 16, ∃ w t, readReg s (BitVec.ofNat 32 (0x30110 + 0x40 * c.val)) = some (w, t) ∧
      t = s.updCh c fun ch => { ch with capI := ch.userI, capSeq := ch.userSeq - 1 })

/-- The rows that write one register of the SYS, CH, MEAS, LINK, TEST and AUXPS blocks, other than the setpoints, and
the read of CHn_COEF: under the conditions of the register's chapter each completes with OK, with exactly this effect
(R23, R63, R75, R105, R110 to R112, R121, R123, R153, R176, R186, R188, R205, R290, R402, R408, R430). -/
def Obligations.FieldWritesComplete : Prop :=
  ∀ s : State,
    (∀ f : BitVec 2, s.sys.mode = .configure → Served (.foutWrite f) s →
      exec (.foutWrite f) s = .next (replied (.foutWrite f) s
        { taken (.foutWrite f) s with sys := { s.sys with fout := f } } stOk [])) ∧
    (∀ (g : Fin 4) (n : BitVec 3) (i : Instr) (f : FieldWrite) (c : Fin 16) (t : State), i = .gangWrite g n →
      fieldWriteOf i = some f → c.val = 4 * g.val → Served i s → groupOff s g = true →
      t = (taken i s).updCh c (fun ch => { ch with cfg := written i f s &&& 0x7 }) →
      (s.sys.mode = .configure ∨ s.sys.mode = .idle → n.toNat ≤ 4 → n ≠ gangAhead s g →
        exec i s = .next (replied i s (stage t (.gang g n) 0x11 none (channelIslands s (chansOf g))) stOk [])) ∧
      (n = gangAhead s g → exec i s = .next (replied i s t stOk []))) ∧
    (∀ (c : Fin 16) (v : Word) (i : Instr) (t : State), i = .progBindWrite c v → isFollower s c = false →
      (s.ch[c]).st = .off → bindingOk s v = true → Served i s →
      t = (taken i s).updCh c (fun ch => { ch with
        progReg := v &&& 0x7F011F
        prog := { ch.prog with pstate := if v.getLsbD 8 then .ready else .unbound } }) →
      (s.sys.mode ≠ .form ∨ (s.ch[c]).bound = v.getLsbD 8 → exec i s = .next (replied i s t stOk [])) ∧
      (s.sys.mode = .form → (s.ch[c]).bound ≠ v.getLsbD 8 →
        exec i s = .next (replied i s (stage t (.source c) 0x11 none (channelIslands t [c])) stOk []))) ∧
    (∀ (c : Fin 16) (v : Word), Served (.coefAccess c (some v)) s →
      exec (.coefAccess c (some v)) s = .next (replied (.coefAccess c (some v)) s
        ((taken (.coefAccess c (some v)) s).updCh c fun ch => { ch with
          coef := if h : coefIndex ch.lsel < 120 then ch.coef.set (coefIndex ch.lsel) v h else ch.coef
          lsel := advanceSel ch.lsel }) stOk [])) ∧
    (∀ c : Fin 16, s.sys.phase ≠ .dormant → Served (.coefAccess c none) s →
      exec (.coefAccess c none) s = .next (replied (.coefAccess c none) s
        ((timePasses (taken (.coefAccess c none) s)).updCh c fun ch => { ch with lsel := advanceSel ch.lsel }) stOk
        (wordBytes (coefAt s.ch[c])))) ∧
    (∀ (c : Fin 16) (z : BitVec 4) (i : Instr) (f : FieldWrite), i = .freezeWrite c z → fieldWriteOf i = some f →
      Served i s → (written i f s).truncate 4 = z ∧ exec i s = .next (replied i s
        ((taken i s).updCh c fun ch => { ch with ctl := written i f s &&& 0x70F }) stOk [])) ∧
    (∀ c : Fin 16, Served (.accClearWrite c) s →
      exec (.accClearWrite c) s = .next (replied (.accClearWrite c) s
        ((taken (.accClearWrite c) s).updCh c fun ch => { ch with aclr := true }) stOk [])) ∧
    (∀ (c : Fin 16) (v : Word), ((s.ch[c]).logSeq + 2 ^ 32 - v.toNat) % 2 ^ 32 ≤ ringSize → Served (.logackWrite c v) s →
      exec (.logackWrite c v) s = .next (replied (.logackWrite c v) s
        ((taken (.logackWrite c v) s).updCh c fun ch => { ch with
          logAck := v.toNat
          nearFull := ch.nearFull && decide (4096 ≤ (ch.logSeq + 2 ^ 32 - v.toNat) % 2 ^ 32) }) stOk [])) ∧
    (Served .bkclrWrite s → exec .bkclrWrite s = .next (replied .bkclrWrite s
      { taken .bkclrWrite s with link := { s.link with bkclr := true } } stOk [])) ∧
    (∀ (p : BitVec 16) (i : Instr) (f : FieldWrite), i = .castlePeriodWrite p → fieldWriteOf i = some f →
      60 ≤ p.toNat → Served i s → exec i s = .next (replied i s
        { taken i s with sys := { s.sys with
          castlePen := (written i f s).getLsbD 16, castlePeriod := p, castleNs := 0 } } stOk [])) ∧
    (∀ (q : Bool) (i : Instr) (f : FieldWrite), i = .quadWrite q → fieldWriteOf i = some f → Served i s →
      (written i f s).getLsbD 0 = q ∧ exec i s = .next (replied i s
        { taken i s with port := { (taken i s).port with hcfg := written i f s &&& 0x3 } } stOk [])) ∧
    (∀ v : Word, s.sys.mode = .service → (bits v 0 5 ≠ 0 ∨ bits v 8 4 ≠ 0 ∨ v.getLsbD 21 = true) →
      (v.getLsbD 21 = true ∨ bits v 16 5 = 0) → Served (.testUnretireWrite v) s →
      exec (.testUnretireWrite v) s = .next (replied (.testUnretireWrite v) s
        { taken (.testUnretireWrite v) s with nvm := { s.nvm with
            ceRetired := s.nvm.ceRetired &&& ~~~(BitVec.ofNat 5 (bits v 0 5))
            laneRetired := s.nvm.laneRetired &&& ~~~(BitVec.ofNat 4 (bits v 8 4))
            convRetired := if v.getLsbD 21 then putBit s.nvm.convRetired (bits v 16 5) false
              else s.nvm.convRetired } } stOk [])) ∧
    (Served .auxpsPkclrWrite s → exec .auxpsPkclrWrite s = .next (replied .auxpsPkclrWrite s
      (clearPeaks (taken .auxpsPkclrWrite s)) stOk []))

/-- SETPOINT_WRITE, for each of its four registers: a value in its range is stored under the automatic source and
becomes a setpoint step change, staged for the channel, under HAND and DIRECT; a value outside its range changes
nothing and completes with BAD_PARAM (R108, R123). -/
def Obligations.SetpointWriteCompletes : Prop :=
  ∀ (s : State) (c : Fin 16) (r : SetpointReg) (v w : Word), w = setpointWord r v → Served (.setpointWrite c r v) s →
    (setpointFits r v → followsHost s c = false →
      exec (.setpointWrite c r v) s = .next (replied (.setpointWrite c r v) s
        ((taken (.setpointWrite c r v) s).updCh c (setpointStored r w)) stOk [])) ∧
    (setpointFits r v → followsHost s c = true →
      exec (.setpointWrite c r v) s = .next (replied (.setpointWrite c r v) s
        (stage (taken (.setpointWrite c r v) s) (.setpoint c (setpointSel r) w w w w) 0x11 none (channelIslands s [c]))
        stOk [])) ∧
    (¬ setpointFits r v →
      exec (.setpointWrite c r v) s = .next (replied (.setpointWrite c r v) s
        (taken (.setpointWrite c r v) s) stBadParam []))

/-! ### Channel commands -/

/-- A command that carries a channel mask acts on all of the selected channels or on none: an empty mask is BAD_PARAM,
and where a selected channel refuses, the command completes with the status of the lowest-numbered one and 16 result
bytes, 0xFF for the channels that are not selected (R313). -/
def Obligations.MaskCommandsAllOrNothing : Prop :=
  ∀ (s : State) (m : Mask) (f : State → Fin 16 → Byte) (x : Change) (r : Request),
    maskCommand 0 f x r s = (s, .status stBadParam) ∧
    (∀ c : Fin 16, m.getLsbD c.val = true → f s c ≠ stOk →
      (∀ d : Fin 16, d < c → m.getLsbD d.val = true → f s d = stOk) →
      ∃ l : List Byte, maskCommand m f x r s = (s, .now (f s c) l) ∧ l.length = 16 ∧
        ∀ d : Fin 16, l[d.val]? = some (if m.getLsbD d.val then f s d else 0xFF)) ∧
    (m ≠ 0 → (∀ c : Fin 16, m.getLsbD c.val = true → f s c = stOk) →
      maskCommand m f x r s = (stage s x r.opc (some r.tag) (maskIslands s m), .later) ∧
      ∃ y, (stage s x r.opc (some r.tag) (maskIslands s m)).staged = s.staged ++ [y] ∧ y.change = x)

/-- The channel-mask commands, on leaders in the states that their table gives: each stages its change for the islands
concerned, and changes nothing else but the host port (R321, R24). -/
def Obligations.MaskCommandsComplete : Prop :=
  ∀ (s : State) (m : Mask), m ≠ 0 → (∀ c : Fin 16, m.getLsbD c.val = true → isFollower s c = false) →
    ((∀ c : Fin 16, m.getLsbD c.val = true → startBlocked s c = false ∧ (s.ch[c]).st ≠ .fault) → Served (.chArm m) s →
      exec (.chArm m) s = .next (staged (.chArm m) s (taken (.chArm m) s) (.arm m) (maskIslands s m))) ∧
    (Served (.chStop m) s →
      exec (.chStop m) s = .next (staged (.chStop m) s (taken (.chStop m) s) (.stop m) (maskIslands s m))) ∧
    ((∀ c : Fin 16, m.getLsbD c.val = true → (s.ch[c]).st = .run ∨ (s.ch[c]).st = .hold) → Served (.chHold m) s →
      exec (.chHold m) s = .next (staged (.chHold m) s (taken (.chHold m) s) (.hold m) (maskIslands s m))) ∧
    ((∀ c : Fin 16, m.getLsbD c.val = true → startBlocked s c = false ∧
        ((s.ch[c]).prog.causes.contains hcMeas = true → measInvalid s c = false)) → Served (.chResume m) s →
      exec (.chResume m) s = .next (staged (.chResume m) s (taken (.chResume m) s) (.resume m) (maskIslands s m))) ∧
    (Served (.chClear m) s →
      exec (.chClear m) s = .next (staged (.chClear m) s (taken (.chClear m) s) (.clear m) (maskIslands s m))) ∧
    (Served (.progAbort m) s →
      exec (.progAbort m) s = .next (staged (.progAbort m) s (taken (.progAbort m) s) (.abort m) (maskIslands s m))) ∧
    ((∀ c : Fin 16, m.getLsbD c.val = true → (s.ch[c]).bound = true ∧ (s.ch[c]).st = .off ∧ startBlocked s c = false ∧
        recipeIntact s.nvm.book[(s.ch[c]).recipeSlot] = true ∧
        hdrNstep (s.nvm.book[(s.ch[c]).recipeSlot]).header ≠ 0) → Served (.progStart m) s →
      exec (.progStart m) s = .next (staged (.progStart m) s (taken (.progStart m) s) (.start m) (maskIslands s m))) ∧
    ((∀ c : Fin 16, m.getLsbD c.val = true → (s.ch[c]).bound = true ∧
        ((s.ch[c]).prog.pstate = .run ∨ (s.ch[c]).prog.pstate = .hold)) → Served (.chHand m 1) s →
      exec (.chHand m 1) s = .next (staged (.chHand m 1) s (taken (.chHand m 1) s) (.hand m true) (maskIslands s m))) ∧
    ((∀ c : Fin 16, m.getLsbD c.val = true → (s.ch[c]).bound = true ∧ (s.ch[c]).prog.pstate = .hand) →
      Served (.chHand m 0) s →
      exec (.chHand m 0) s = .next (staged (.chHand m 0) s (taken (.chHand m 0) s) (.hand m false) (maskIslands s m)))

/-- CH_SETPOINT with a selection, a leader and values in their ranges: stored under the automatic source, a staged
setpoint step change of one sample under HAND and DIRECT, and in SAFE both, with the reply at once (R108, R123, R322;
for SAFE log entry 193). -/
def Obligations.SetpointCommandCompletes : Prop :=
  ∀ (s : State) (b sel : Byte) (i v ir vr : Word) (h : b.toNat < 16), 1 ≤ sel.toNat → sel.toNat < 16 →
    isFollower s ⟨b.toNat, h⟩ = false → (sel.getLsbD 0 = true → i.toInt.natAbs ≤ 320000000) →
    (sel.getLsbD 1 = true → v.toNat ≤ 5500000) → (sel.getLsbD 2 = true → ir.toNat ≤ 1000000) →
    (sel.getLsbD 3 = true → vr.toNat ≤ 10000000) → Served (.chSetpoint b sel i v ir vr) s →
    (followsHost s ⟨b.toNat, h⟩ = false → exec (.chSetpoint b sel i v ir vr) s = .next (replied (.chSetpoint b sel i v ir vr) s
      ((taken (.chSetpoint b sel i v ir vr) s).updCh ⟨b.toNat, h⟩ fun ch => { ch with
        iset := if sel.getLsbD 0 then i else ch.iset
        vset := if sel.getLsbD 1 then v else ch.vset
        iramp := if sel.getLsbD 2 then ir else ch.iramp
        vramp := if sel.getLsbD 3 then vr else ch.vramp }) stOk [])) ∧
    (followsHost s ⟨b.toNat, h⟩ = true → s.sys.mode ≠ .safe →
      exec (.chSetpoint b sel i v ir vr) s = .next (staged (.chSetpoint b sel i v ir vr) s
        (taken (.chSetpoint b sel i v ir vr) s) (.setpoint ⟨b.toNat, h⟩ (sel.truncate 4) i v ir vr)
        (channelIslands s [⟨b.toNat, h⟩]))) ∧
    (followsHost s ⟨b.toNat, h⟩ = true → s.sys.mode = .safe →
      exec (.chSetpoint b sel i v ir vr) s = .next (replied (.chSetpoint b sel i v ir vr) s
        (stage ((taken (.chSetpoint b sel i v ir vr) s).updCh ⟨b.toNat, h⟩ fun ch => { ch with
          iset := if sel.getLsbD 0 then i else ch.iset
          vset := if sel.getLsbD 1 then v else ch.vset
          iramp := if sel.getLsbD 2 then ir else ch.iramp
          vramp := if sel.getLsbD 3 then vr else ch.vramp })
          (.setpoint ⟨b.toNat, h⟩ (sel.truncate 4) i v ir vr) (req (.chSetpoint b sel i v ir vr) s).opc none
          (channelIslands s [⟨b.toNat, h⟩])) stOk []))

/-! ### Channels: the state machine and its openings -/

/-- What the transitions do to one channel, and to no other channel: forced opening takes the gates off at once and
leaves the disconnect to follow; orderly opening keeps the gates of a switching channel, but for the packets of burst
trickle, until its current is zero, and leaves an opening that runs alone; FAULT records its cause and its CHn_FAULT
bit and ends the short check (R66, R68, R72). -/
def Obligations.ChannelTransitions : Prop :=
  ∀ (s : State) (c : Fin 16),
    (((forceOffChannel s c).ch[c]).st = .off ∧ ((forceOffChannel s c).ch[c]).gates = false ∧
      ((forceOffChannel s c).ch[c]).opening = (if (s.ch[c]).dsw then .forced else .none) ∧
      ((forceOffChannel s c).ch[c]).dsw = (s.ch[c]).dsw) ∧
    (((offChannel s c).ch[c]).st = .off ∧ ((offChannel s c).ch[c]).dsw = (s.ch[c]).dsw ∧
      ((s.ch[c]).dsw = true → (s.ch[c]).opening = .none ∨ (s.ch[c]).opening = .ramp →
        ((offChannel s c).ch[c]).gates = ((s.ch[c]).gates && !(s.ch[c]).burst) ∧
        ((offChannel s c).ch[c]).opening = (if (s.ch[c]).gates || (s.ch[c]).checking then .orderly else .gatesOff)) ∧
      ((s.ch[c]).dsw = true → (s.ch[c]).opening ≠ .none → (s.ch[c]).opening ≠ .ramp →
        ((offChannel s c).ch[c]).opening = (s.ch[c]).opening) ∧
      ((s.ch[c]).dsw = false → ((offChannel s c).ch[c]).gates = false ∧ ((offChannel s c).ch[c]).opening = .none)) ∧
    (∀ cause, 1 ≤ cause → cause ≤ 9 → (s.ch[c]).st ≠ .off → (s.ch[c]).st ≠ .fault →
      ((faultChannel s c cause).ch[c]).st = .fault ∧ ((faultChannel s c cause).ch[c]).gates = false ∧
      ((faultChannel s c cause).ch[c]).fcode = BitVec.ofNat 8 cause ∧
      ((faultChannel s c cause).ch[c]).faultReg.getLsbD (cause - 1) = true ∧
      ((faultChannel s c cause).ch[c]).short = none) ∧
    (∀ (d : Fin 16) (n : ChState), d ≠ c → (forceOffChannel s c).ch[d] = s.ch[d] ∧ (offChannel s c).ch[d] = s.ch[d] ∧
      (moveChannel s c n).ch[d] = s.ch[d] ∧ (runChannel s c).ch[d] = s.ch[d])

/-- The events of the power channels, each in the situation that its rule names: an open sense pair without a cell,
the short check, foldback, burst trickle, the balance trim, and the two ends of an opening (R54, R57, R58, R68, R70,
R71). -/
def Obligations.ChannelEventsComplete : Prop :=
  ∀ (s : State) (c : Fin 16),
    (∀ m : List CheckMeas, (members s c).length = m.length →
      (∀ d ∈ members s c, (s.ch[d]).checking = true ∧ (s.ch[d]).opening = .none) →
      (∀ x ∈ m, 0 ≤ x.vs ∧ -100000000 ≤ x.dN ∧ x.dP ≤ 100000000 ∧ (500000000 < x.vs → 20000000 ≤ (x.vf - x.vs).natAbs)) →
      (∀ x ∈ List.zip (members s c) m, contactFail s x.1 x.2 = false) →
      exec (.checkDone c m) s = .next (pauseAfterCheck ((List.zip (members s c) m).foldl passMember s) (leaderOf s c))) ∧
    (∀ m : List CheckMeas, (members s c).length = m.length →
      (∀ d ∈ members s c, (s.ch[d]).checking = true ∧ (s.ch[d]).opening = .none) →
      (∀ x ∈ m, 0 ≤ x.vs ∧ x.dN < -100000000 ∧ 100000000 < x.dP) →
      exec (.checkDone c m) s = .next
        ((List.zip (members s c) m).foldl noCellMember (abortProgram s (leaderOf s c) 0x21))) ∧
    (∀ (m : List CheckMeas) f, (members s c).length = m.length →
      (∀ d ∈ members s c, (s.ch[d]).checking = true ∧ (s.ch[d]).opening = .none) →
      checkOutcome s (List.zip (members s c) m) = .fail f →
      exec (.checkDone c m) s = .next (failMembers s (List.zip (members s c) m) f)) ∧
    (∀ x, (s.ch[c]).short = some x →
      (x.vs + 20000 < (s.ch[c]).vS → exec (.shortCheckExpiry c) s = .next (s.updCh c fun ch => { ch with short := none })) ∧
      ((s.ch[c]).vS ≤ x.vs + 20000 → (bits (s.ch[c]).chkcfg 8 8 : Int) * 100000 * 2 ^ 32 ≤ (s.ch[c]).q - x.q →
        exec (.shortCheckExpiry c) s = .next (faultGang s c 5))) ∧
    (∀ td f, (s.ch[c]).gates = true → (s.ch[c]).burst = false → f = foldNext (s.ch[c]).feff (bits (s.ch[c]).fswF 0 9) td →
      (f < bits (s.ch[c]).fswF 0 9 → (s.ch[c]).fold = true →
        exec (.foldbackUpdate c td) s = .next (s.updCh c fun ch => { ch with feff := f })) ∧
      (f < bits (s.ch[c]).fswF 0 9 → (s.ch[c]).fold = false →
        exec (.foldbackUpdate c td) s = .next (foldEntry (s.updCh c fun ch => { ch with feff := f }) c)) ∧
      (bits (s.ch[c]).fswF 0 9 ≤ f →
        exec (.foldbackUpdate c td) s = .next ((s.updCh c fun ch => { ch with feff := f }).updCh c
          fun ch => { ch with fold := false }))) ∧
    (∀ td, (s.ch[c]).st = .run → (s.ch[c]).gates = true → (s.ch[c]).burst = false → (s.ch[c]).neg = false →
      (s.ch[c]).feff = 40 → td < 60000 → exec (.burstEnter c td) s = .next (queueEvent
        (s.updCh c fun ch => { ch with burst := true, fold := false, feff := 40, burstN := satInc 16 ch.burstN,
                                       burstAbove := 0, floorClamp := false }) 0x0205 (p1 c.val))) ∧
    ((s.ch[c]).burst = true → 10 ≤ (s.ch[c]).burstAbove →
      ((s.ch[c]).gates = true → exec (.burstExit c) s = .next (foldEntry (queueEvent
        (s.updCh c fun ch => { ch with burst := false, feff := 40, burstAbove := 0 }) 0x0206 (p1 c.val)) c)) ∧
      ((s.ch[c]).gates = false → exec (.burstExit c) s = .next (queueEvent
        (s.updCh c fun ch => { ch with burst := false, feff := 0, burstAbove := 0 }) 0x0206 (p1 c.val)))) ∧
    (∀ pos, (s.ch[c]).gates = true → (s.ch[c]).cfg.getLsbD 2 = true → (s.ch[c]).burst = false →
      (runningLegs s c).length = 2 → ∀ t, t = s.updCh c (fun ch =>
        { ch with trim := if pos then 300 else -300, imbal := true, imbalEpochs := 0 }) →
      exec (.legImbalance c pos) s = .next (if (s.ch[c]).imbal then t
        else queueEvent t 0x0207 (p1 c.val ++ p4 (if pos then 300 else -300)))) ∧
    (∀ o u, u = (s.updCh c fun ch => { ch.gatesOff with opening := o }) →
      ∀ v, v = (if (s.ch[c]).burst = true then queueEvent u 0x0206 (p1 c.val) else u) →
      ((s.ch[c]).opening = .orderly → o = .gatesOff → exec (.orderlyStopGatesOff c) s = .next v) ∧
      ((s.ch[c]).opening = .ramp → o = .none → exec (.orderlyStopGatesOff c) s = .next (sequenceEnds v c))) ∧
    ((s.ch[c]).opening = .gatesOff ∨ (s.ch[c]).opening = .forced → exec (.disconnectOpen c) s = .next
      (sequenceEnds (s.updCh c fun ch => { ch with opening := .none, dsw := false }) c))

/-! ### Gate drive -/

/-- Short-circuit trips and the restart interval: a trip of a leg, in every channel state while the epochs run, sets
its event bit and queues SC_TRIP, and begins or joins the restart interval of its group, or takes the channel to FAULT
STAGE where the leg was suspect within the last second; a group trip does the same for the legs it identifies; at the
end of the decay time each leg that still carries current fails at step 3, is parked and told, before their channels
go to FAULT STAGE and leave the interval; at the end of the hold-off the suspect legs are probed (R86 to R88, R91 to
R93). -/
def Obligations.TripsComplete : Prop :=
  ∀ (s : State),
    (∀ (l : Fin 32) (hard : Bool) (mA : Int) (t : State),
      switching s.ch[chanOfLeg l] = true ∨ comparatorsWork s = true →
      t = queueEvent (s.updLeg l fun x =>
        { x.flagEvt (if hard then 4 else 3) with tkind := if hard then 2 else 1, scn := satInc 8 x.scn })
        0x0302 (p1 l.val ++ p1 (if hard then 2 else 1) ++ p4 mA) →
      (recentSuspect s l = false → exec (.scTrip l hard mA) s = .next
        (joinRestart t (groupOf (chanOfLeg l)) (legMask (members t (chanOfLeg l))) (bitOf 8 (legIndex l).val))) ∧
      (recentSuspect s l = true → exec (.scTrip l hard mA) s = .next (stageFault t [chanOfLeg l]))) ∧
    (∀ (g : Fin 4) (hard : Bool) (tripped on ident suspect : BitVec 8),
      (chansOf g).any (fun c => switching s.ch[c]) = true ∨ comparatorsWork s = true →
      ident = identifiedLegs tripped on → suspect = (if ident = 0 then 0xFF else ident) →
      exec (.scGroup g hard tripped on) s = .next (stageFault (joinRestart (queueEvent
        ((bitList suspect).foldl (fun s i => s.updLeg (groupLeg g i) fun x =>
          { x.flagEvt (if hard then 6 else 5) with tkind := if hard then 4 else 3, scn := satInc 8 x.scn }) s)
        0x0303 (p1 g.val ++ p1 (if hard then 4 else 3)
          ++ p1 (match (bitList ident).head? with | some i => (groupLeg g i).val | none => 0xFF))) g 0xFF suspect)
        (((bitList suspect).filter fun i => recentSuspect s (groupLeg g i)).map fun i => chanOfLeg (groupLeg g i)))) ∧
    (∀ (g : Fin 4) (above : BitVec 8) (r : Restart), (s.grp[g]).restart = some r →
      exec (.restartDecayTimeout g above) s = .next (probeFail s ((bitList (above &&& r.legs)).map (groupLeg g)) 3)) ∧
    (∀ ls : List (Fin 32), probeFail s ls 3 = (ls.map chanOfLeg).foldl leaveRestart (stageFault
      (ls.foldl (fun u l => queueEvent
        (u.updLeg l fun x => { x.flagEvt 7 with park := { x.park with probe := true } }) 0x0309 (p1 l.val ++ p1 3)) s)
      (ls.map chanOfLeg))) ∧
    (∀ (g : Fin 4) (f : Vector Nat 8) (r : Restart), (s.grp[g]).restart = some r → r.probing = false →
      exec (.restartHoldoffEnd g f) s = .next (((List.finRange 8).foldl (probeLeg g f) s).updGrp g fun gr =>
        { gr with restart := gr.restart.map fun r => { r with suspect := 0, probing := true } }))

/-- The bootstrap supply, the interlock and the two supervision events: a trip, after the two-step turn-off of its
leg, limits the duty and counts while the periods follow each other, a second one of the same period not, a third one
in succession parks the leg, the lift ends the limit, a refresh stretches an off-time, an ignored command counts, and
a bound ILOOP and an implausible channel are flagged with their events (R82 to R85, R94, R104, R115, R117). -/
def Obligations.LegSupervisionCompletes : Prop :=
  ∀ (s : State) (l : Fin 32) (c : Fin 16),
    (∀ (soft : Bool) (n : Nat), (switching s.ch[chanOfLeg l]) = true → (s.leg[l]).parked = false →
      (soft = true → exec (.bootstrapUv ⟨l, soft, n⟩) s = .next s) ∧
      ∀ r u t, r = (if n = 0 then max 1 (s.leg[l]).buvRun else if n = 1 then (s.leg[l]).buvRun + 1 else 1) →
        u = queueOnce (s.updLeg l fun x => { x.flagEvt 1 with buv := true, dlim := true, buvRun := r }) 0x0304 l.val (p1 l.val) →
        t = (if (s.leg[l]).dlim then u else queueEvent u 0x0305 (p1 l.val)) → soft = false →
        (r < 3 → exec (.bootstrapUv ⟨l, soft, n⟩) s = .next t) ∧
        (3 ≤ r → exec (.bootstrapUv ⟨l, soft, n⟩) s = .next (bootstrapPark t l))) ∧
    (exec (.bootstrapDlimLift l) s = .next (s.updLeg l fun x => { x with dlim := false, buv := false, buvRun := 0 })) ∧
    ((s.ch[chanOfLeg l]).gates = true → (s.leg[l]).restart = false → (s.leg[l]).parked = false →
      exec (.bootstrapRefresh l) s = .next (s.updLeg l fun x => { x with stretch := true })) ∧
    (exec (.interlock l) s = .next (queueOnce (s.updLeg l fun x => { x.flagEvt 0 with ilk := satInc 16 x.ilk })
      0x0307 l.val (p1 l.val ++ p4 (satInc 16 (s.leg[l]).ilk)))) ∧
    (10 ≤ (s.ch[c]).satRun → (s.ch[c]).isat = false → exec (.loopSat c) s = .next
      (queueEvent (s.updCh c fun ch => { ch with isat := true }) 0x020B (p1 c.val))) ∧
    (∀ (k : Fin 4) (d : Fin 16) (u : State), d = leaderOf s c → (s.ch[c]).st = .run →
      bits (s.ch[d]).supcfg 8 8 ≤ (s.ch[c]).sup[k] → (s.ch[d]).implc.getLsbD (implBit k) = false →
      u = addCause (queueEvent (s.updCh d fun ch => { ch with impl := true, implc := putBit ch.implc (implBit k) true })
        0x020A (p1 c.val ++ p1 k.val ++ p4 ((s.ch[c]).res[k]))) d hcImplausible →
      exec (.implausible c k) s = .next (if k = 1 then legConvFault (accusedLeg u c).2 (accusedLeg u c).1 else u))

/-! ### Engines, islands, crossbar -/

/-- Engine and island events: a lockstep mismatch counts and the engine fails; the loss of an island PLL switches to
the standby PLL, restarts the island, or castles the group of an engine; an island that has restarted counts; a
replayed castling is ready; a diverged sequencer counts and commits nothing until it has recovered; where another
recovery runs, or the input log is damaged, the channels of the recoveries hold as well (R14, R38, R39, R41, R120,
R362; which groups a recovery concerns is read by inference, log entry 169). -/
def Obligations.IslandEventsComplete : Prop :=
  ∀ (s : State),
    (epochsRun s = true →
      (∀ k : Fin 5, (s.ce[k]).role ≠ .retired → islandDown s k.val = false →
        exec (.ceLockstepMismatch k) s = .next
          (engineFails (abandonBist (s.updCe k fun c => { c with mism := satInc 8 c.mism }) k) k)) ∧
      (∀ i : Fin 14, i ∈ [5, 6, 7, 12] → islandDown s i.val = false →
        exec (.pllLoss i) s = .next (queueEvent s 0x0104 (p1 i.val ++ p1 1))) ∧
      (∀ (i : Fin 14) (h : i.val < 5) (d : State), islandDown s i.val = false →
        d = queueEvent { s with sys := { s.sys with islDown := putBit s.sys.islDown i.val true } } 0x0104
          (p1 i.val ++ p1 (if (s.ce[(⟨i.val, h⟩ : Fin 5)]).role = .owner then 3 else 2)) →
        exec (.pllLoss i) s = .next (engineFails (abandonBist d ⟨i.val, h⟩) ⟨i.val, h⟩)) ∧
      (∀ i : Fin 14, i ∈ [9, 11] → islandDown s i.val = false → exec (.pllLoss i) s = .next (queueEvent
        { s with sys := { s.sys with islDown := putBit s.sys.islDown i.val true } } 0x0104 (p1 i.val ++ p1 2))) ∧
      (islandDown s 10 = false → exec (.pllLoss 10) s = .next (queueEvent (cutFrames
        { s with sys := { s.sys with islDown := putBit s.sys.islDown 10 true } }) 0x0104 (p1 10 ++ p1 2))) ∧
      ∀ t, t = { s with sys := { s.sys with recovering := true }, sticky := { s.sticky with seqr := satInc 8 s.sticky.seqr } } →
        (recoveringGroups s = [] → logDamaged s 7 = false → exec .sequencerMismatch s = .next t) ∧
        (recoveringGroups s ≠ [] ∨ logDamaged s 7 = true →
          exec .sequencerMismatch s = .next ((recoveringGroups t).foldl holdGroup t))) ∧
    (∀ i : Fin 14, i ≠ 11 → islandDown s i.val = true → exec (.islandRestartDone i) s = .next
      { s with sys := { s.sys with islDown := putBit s.sys.islDown i.val false }
               sticky := { s.sticky with islr := satInc 8 s.sticky.islr } }) ∧
    (islandDown s 11 = true → exec (.islandRestartDone 11) s = .next (restartDma
      { s with sys := { s.sys with islDown := putBit s.sys.islDown 11 false }
               sticky := { s.sticky with islr := satInc 8 s.sticky.islr } })) ∧
    (∀ (g : Fin 4) (x : Castle) (t : State), (s.grp[g]).castle = some x →
      t = (s.updGrp g fun gr => { gr with castle := gr.castle.map fun y => { y with ready := true } }) →
      ((x.planned = true ∨ ∀ k, x.fromCe = some k → logDamaged s k.val = false) → exec (.castleReplayDone g) s = .next t) ∧
      (∀ k, x.planned = false → x.fromCe = some k → logDamaged s k.val = true →
        exec (.castleReplayDone g) s = .next (holdGroup t g))) ∧
    (∀ n : Nat, s.sys.recovering = true → exec (.seqRecover n) s = .next
      (queueEvent { s with sys := { s.sys with recovering := false } } 0x0103 (p4 n)))

/-- Castling: a due planned castling stages the group of the owner with the longest time since its logic BIST on the
engine without a group, where no castling out of turn waits for one, and a checkpoint mismatch or a late ACK aborts
it; the logic BIST of the spare starts and ends with its result, retires a failed engine and lets a passed one adopt a
group; a castling that commits gives the group its new owner and generation, and counts for both engines (R40, R119,
R121, R394, R395). -/
def Obligations.CastlingCompletes : Prop :=
  ∀ (s : State) (k r : Fin 5) (g : Fin 4),
    (∀ crcOk ackInTime : Bool, castlingDue s = true → hotWaits s = false → longestOwner s = some k → receiver s = some r →
      ownedGroup s k = some g → (s.grp[g]).restart = none → (s.ce[r]).role = .spare → (s.ce[r]).bist = 1 →
      (∀ h : Fin 4, (s.grp[h]).castle = none) →
      exec (.plannedCastlingDue crcOk ackInTime) s = .next
        (if crcOk = true ∧ ackInTime = true then stageCastle s g (some k) r true true true 0
         else abortCastle (stageCastle s g (some k) r true true true 0) g (if crcOk then 2 else 1))) ∧
    (epochsRun s = true → (s.ce[k]).role = .spare → (s.ce[k]).bistAt ≤ s.sys.tbase → islandDown s k.val = false →
      (∀ j : Fin 5, j < k → (s.ce[j]).role ≠ .spare ∨ islandDown s j.val = true) →
      exec .spareBistDue s = .next { (s.updCe k fun c => { c with role := .bist }) with
        isl := { s.isl with running := putBit s.isl.running 1 true, spareEnds := s.sys.tbase + bistTime s k } }) ∧
    (∀ (sigMatch stateOk : Bool) (n res : Nat) (t : State), (s.ce[k]).role = .bist → bistPaused s k = false →
      s.isl.spareTag = none → (s.ce[k]).qualified = true → res = bistResult sigMatch stateOk n →
      t = recordTest (s.updCe k fun c => { c with
        role := .spare, bist := res, qualified := true, btimeNs := if res = 1 then 0 else c.btimeNs,
        bistAt := s.sys.tbase + 60000000000 })
        1 0 res n bistPatterns →
      exec (.spareBistDone k sigMatch stateOk n) s = .next
        (if res = 1 then adoptGroup t else if res = 2 then retireCe (testDone t 1 2) k else testDone t 1 3)) ∧
    (∀ x : Castle, (s.grp[g]).castle = some x →
      (commitCastle s g).grp[g] = { s.grp[g] with castle := none, owner := some x.toCe, gen := (s.grp[g]).gen + 1, skips := 0 } ∧
      (x.fromCe ≠ some x.toCe →
        (commitCastle s g).ce[x.toCe] = { s.ce[x.toCe] with role := .owner, group := g, cin := satInc 16 (s.ce[x.toCe]).cin }))

/-- The crossbar: a transfer that succeeds changes the retry counter alone, up to four attempts are made, the fourth
failure gives up the plane of the route, and its failure on the second plane sends the channels that it serves to HOLD
(R15, R41). -/
def Obligations.CrossbarTransfers : Prop :=
  ∀ (s t : State) (src dst : Fin 14) (planeB : Bool) (a : List (List Byte × BitVec 16)) (x : List Byte × BitVec 16),
    (crc16 x.1 = x.2 → exec (.crossbarTransfer src dst planeB (x :: a)) s = .next
      { s with sticky := { s.sticky with xbarRetry := satNat 16 (s.sticky.xbarRetry + 0) } }) ∧
    (4 ≤ a.length → (∀ y ∈ a.take 4, crc16 y.1 ≠ y.2) →
      t = queueRated { s with sticky := { s.sticky with xbarRetry := satNat 16 (s.sticky.xbarRetry + 3) } } 0x0105
        (src.val * 14 + dst.val) 1000000000 (p1 src.val ++ p1 dst.val) →
      (failedPlane t src dst = none → exec (.crossbarTransfer src dst planeB a) s = .next
        (queueEvent { t with sticky := { t.sticky with xbarFail := satInc 8 t.sticky.xbarFail,
                                                       routes := (src.val, dst.val, planeB) :: t.sticky.routes } }
          0x0101 (p1 src.val ++ p1 dst.val ++ p1 (b2n planeB)))) ∧
      (∀ p, failedPlane t src dst = some p → exec (.crossbarTransfer src dst planeB a) s = .next (routeLost t src dst)))

/-- A current reference word is accepted where its tag is the ownership tag of its group: it is the reference of the
leg, or is held while the leg is in a restart interval, and a parked leg keeps its reference; while the leg island
brings the current to zero on its own, it takes none; with another tag the leg discards it, and the stale counter of
the group counts it (R19, R20, R211, R237). -/
def Obligations.ReferenceWords : Prop :=
  ∀ (s : State) (iref : Word) (l : Fin 32) (leg tag : Byte) (e : BitVec 16), leg.toNat = l.val →
    (tag.toNat = groupTag s.grp[groupOfLeg l] → (s.ch[chanOfLeg l]).rampsAlone = true →
      exec (.currentReference iref leg tag e) s = .next s) ∧
    (tag.toNat = groupTag s.grp[groupOfLeg l] → (s.ch[chanOfLeg l]).rampsAlone = false →
      ((s.leg[l]).parked = false → (s.leg[l]).restart = false → exec (.currentReference iref leg tag e) s = .next
        (s.updLeg l fun x => { x with iref := iref.toInt, last := iref.toInt })) ∧
      ((s.leg[l]).parked = false → (s.leg[l]).restart = true → exec (.currentReference iref leg tag e) s = .next
        (s.updLeg l fun x => { x with held := iref.toInt, last := x.iref })) ∧
      ((s.leg[l]).parked = true → exec (.currentReference iref leg tag e) s = .next
        (s.updLeg l fun x => { x with last := x.iref }))) ∧
    (tag.toNat ≠ groupTag s.grp[groupOfLeg l] → ∃ t, exec (.currentReference iref leg tag e) s = .next t ∧ t.leg = s.leg ∧
      ((t.grp[groupOfLeg l]).stale = satInc 8 (s.grp[groupOfLeg l]).stale) ∧
      (t.grp[groupOfLeg l]).owner = (s.grp[groupOfLeg l]).owner ∧ (t.grp[groupOfLeg l]).gen = (s.grp[groupOfLeg l]).gen)

/-! ### Measurement and calibration -/

/-- MEAS_PULSE stages its pulse and MEAS_EIS takes its operands on a served channel with no other measurement; a
rotation request is DEFERRED to the end of the rotation; trims start in SERVICE, and end with the deviation, with the
coefficients of the position (free values, log entry 8), or with NVM_ERROR; LOG_MARK stages a record of its 12 bytes
(R148, R326 to R328). -/
def Obligations.MeasurementCommandsComplete : Prop :=
  ∀ (s : State) (b : Byte) (h : b.toNat < 16),
    (∀ i1 dur : Word, 110 ≤ dur.toNat → dur.toNat ≤ 60000 → measServed s ⟨b.toNat, h⟩ = true →
      measBusy s ⟨b.toNat, h⟩ = false → Served (.measPulse b i1 dur) s →
      exec (.measPulse b i1 dur) s = .next (staged (.measPulse b i1 dur) s (taken (.measPulse b i1 dur) s)
        (.pulse ⟨b.toNat, h⟩ i1.toInt (dur.toNat * 1000000)) (channelIslands s [⟨b.toNat, h⟩]))) ∧
    (∀ (m : Byte) (f a : Word), m.toNat ≤ 15 → 10 ≤ f.toNat → f.toNat ≤ 5000000 → 1000 ≤ a.toNat →
      (a.toNat : Int) ≤ iMax s ⟨b.toNat, h⟩ → measServed s ⟨b.toNat, h⟩ = true → measBusy s ⟨b.toNat, h⟩ = false →
      Served (.measEis b m f a) s →
      exec (.measEis b m f a) s = .next ((taken (.measEis b m f a) s).updCh ⟨b.toNat, h⟩ fun ch =>
        { ch with hostMeas := .eis (req (.measEis b m f a) s).tag (m.toNat + 1) f.toNat a.toNat, dds := 0
                  excAt := none, excClamp := false })) ∧
    (s.sys.mode ≠ .service → freeLanes s ≠ 0 → Served .calRequestRotation s →
      exec .calRequestRotation s = .next (replied .calRequestRotation s (taken .calRequestRotation s) stDeferred
        (toLE 8 (s.meas.rotAt + rotationSlots s * 2000000000)))) ∧
    (∀ (a : Byte) (v : Word), s.sys.mode = .service → nvmBusy s = false →
      (a.toNat ≤ 1 → Served (.calRequestRefTrim a v) s →
        exec (.calRequestRefTrim a v) s = .next { taken (.calRequestRefTrim a v) s with
          isl := { s.isl with nvmOp := .calTrim 1 a.toNat v, opTag := some (req (.calRequestRefTrim a v) s).tag } }) ∧
      (a.toNat ≤ 31 → Served (.calRequestFactory a v) s →
        exec (.calRequestFactory a v) s = .next { taken (.calRequestFactory a v) s with
          isl := { s.isl with nvmOp := .calTrim 2 a.toNat v, opTag := some (req (.calRequestFactory a v) s).tag } })) ∧
    (∀ (k a : Nat) (v : Word) (d : Int), s.isl.nvmOp = .calTrim k a v →
      (exec (.calTrimDone false d) s = .next
        (replyOp (nvmFail { s with isl := { s.isl with nvmOp := .none } } 1) 0x50 stNvmError [])) ∧
      (k = 2 → ∃ (o g x : Int) (t : State), exec (.calTrimDone true d) s = .next (replyOp t 0x50 stOk []) ∧
        t.nvm = { s.nvm with posTrim := (a, o, g, x) :: s.nvm.posTrim.filter fun y => y.1 != a } ∧
        t.isl = { s.isl with nvmOp := .none }) ∧
      (k = 1 → exec (.calTrimDone true d) s = .next (replyOp { s with
        isl := { s.isl with nvmOp := .none }
        nvm := { s.nvm with refTrim := if a = 0 then s.nvm.refTrim.set 0 v.toNat else s.nvm.refTrim.set 1 v.toNat } }
        0x50 stOk (p4 d)))) ∧
    (∀ (d : List Byte) (c : Fin 16), leadOf? s b = some c → d.length = 12 →
      (ringUsed s.ch[c] < ringSize ∨ (s.ch[c]).logF = true) → Served (.logMark b d) s →
      exec (.logMark b d) s = .next (staged (.logMark b d) s (taken (.logMark b d) s) (.mark c d) (islandBit 7)))

/-- The calibration and the references: a slot checks the references by the mean of its free lanes and starts each of
them; a reference beyond 0.1 % of the bandgap monitor is excluded at once; the figures of calibration hold expire
after 168 h or 10 K; a loop-back check counts, marks the leg and parks it at the second failure in succession; the
offset of a leg converter is taken while its switches are off (R131, R134, R135, R137, R146, R396). -/
def Obligations.CalibrationEventsComplete : Prop :=
  ∀ (s : State),
    (∀ (m : SlotMeas), rotationRuns s = true → 0 < s.meas.slot → s.meas.slot < rotationSlots s →
      exec (.calSlotStart m) s = .next ((List.finRange 4).foldl (startLane m)
        (slotRefs m { s with meas := { s.meas with slot := s.meas.slot + 1 } }))) ∧
    (∀ (m : SlotMeas) (t : State), rotationRuns s = true → rotationSlots s ≤ s.meas.slot → t = endRotation s →
      exec (.calSlotStart m) s = .next ((List.finRange 4).foldl (startLane m)
        (slotRefs m
          { t with meas := { t.meas with slot := 1 }, isl := { t.isl with dacf := decide (20 < m.dacDev) } }))) ∧
    (∀ a b x : Int, measPowered s = true →
      (a.natAbs ≤ 10000 → b.natAbs ≤ 10000 → s.meas.refcfg.getLsbD 16 = false → exec (.refMonitor a b x) s = .next s) ∧
      (10000 < a.natAbs → inVote s 0 = true → b.natAbs ≤ 10000 → s.meas.refcfg.getLsbD 16 = false →
        exec (.refMonitor a b x) s = .next (excludeRef s 0 a)) ∧
      (a.natAbs ≤ 10000 → 10000 < b.natAbs → inVote s 1 = true → s.meas.refcfg.getLsbD 16 = false →
        exec (.refMonitor a b x) s = .next (excludeRef s 1 b)) ∧
      (a.natAbs ≤ 10000 → b.natAbs ≤ 10000 → inVote s 2 = true → s.meas.refcfg.getLsbD 16 = true →
        10000 < (x - sbits s.meas.refcfg 0 16).natAbs →
        exec (.refMonitor a b x) s = .next (excludeRef s 2 (x - sbits s.meas.refcfg 0 16)))) ∧
    (∀ (late : Nat) (x : Int) (h : Nat) (d : Int), h = (s.sys.tbase + late - s.meas.holdAt) / 3600000000000 →
      d = x - s.meas.holdTemp → s.meas.hold ≠ 0 → s.meas.holdx = false → (168 ≤ h ∨ 1000 < d.natAbs) →
      exec (.calHoldExpired late x) s = .next (queueEvent { s with meas := { s.meas with holdx := true } } 0x0409
        (p4 h ++ p4 (divRound d 10)))) ∧
    (∀ (p m : Int) (l : Fin 32) (t : State), s.sys.running = true → s.isl.dacf = false → l = s.meas.legIdx →
      s.meas.legSlotAt ≤ s.sys.tbase → (s.leg[l]).restart = false →
      (p.natAbs ≤ 795000 → m.natAbs ≤ 795000 → exec (.loopbackCheck p m) s = .next (nextLoopLeg
        (State.updLeg { s with isl := { s.isl with legLb := putBit s.isl.legLb l.val false }
                               meas := { s.meas with legDone := s.meas.legDone + 1, legSlotAt := s.meas.legSlotAt + 312500000 } } l
          fun x => { x with lbFail := 0 }))) ∧
      ((795000 < p.natAbs ∨ 795000 < m.natAbs) → (s.leg[l]).park.conv = false →
        t = State.updLeg { s with isl := { s.isl with legLb := putBit s.isl.legLb l.val true }
                                  meas := { s.meas with
                                    legDone := s.meas.legDone + 1, legBad := s.meas.legBad + 1
                                    legSlotAt := s.meas.legSlotAt + 312500000 } } l
          (fun x => { x with lbFail := x.lbFail + 1 }) →
        exec (.loopbackCheck p m) s = .next (nextLoopLeg (if (s.leg[l]).lbFail = 0 then t else legConvFault t l)))) ∧
    (∀ (l : Fin 32) (o : Int), legSwitching s l = false →
      (s.ch[chanOfLeg l]).iP.natAbs < 10000 →
      exec (.legOffsetMeasure l o) s = .next (s.updLeg l fun x => { x with offset := o }))

/-- Pulse and impedance results: for a host command they are its reply; for a program they are a PULSE record, or an
EIS and an EISX record, after which the next point runs or the step ends. The samples are corrected and blended first,
the result is flagged where its window overlaps a blend, and a window that has not run to its end reports nothing
(R139, R145, R154, R156, R180, R181, R327). -/
def Obligations.MeasurementResultsComplete : Prop :=
  ∀ (s t : State) (c : Fin 16),
    (∀ (raw m : PulseMeas) (i1 : Int) (at' : Nat) (t0 : Option Nat) (bytes : List Byte) (blend : Bool) (r10 : Option Int),
      (s.ch[c]).pulseArmed = some (i1, at') →
      m = { prec := raw.prec.map (formSample s c), wide := raw.wide.map (formSample s c) } →
      t0 = (windowMean m.prec (at' - 10000000) at').bind (fun pre => pulseStart s c i1 pre m) →
      bytes = (pulsePoints s c at' t0 m).flatMap rdcBytes → r10 = ((pulsePoints s c at' t0 m).drop 1).head?.join →
      t = s.updCh c (fun ch => { ch with pulseArmed := none, pulseT0 := t0.getD ch.pulseT0 }) → blend = pulseBlend t c t0 →
      (∀ d tag, (s.ch[c]).hostMeas = .pulse d (some tag) → exec (.pulseEvalDone c raw) s = .next
        (reply (t.updCh c fun ch => { ch with hostMeas := .pulse d none }) tag 0x51 stOk bytes)) ∧
      (∀ tag, (s.ch[c]).hostMeas = .pulseEnd tag → exec (.pulseEvalDone c raw) s = .next
        (reply (t.updCh c fun ch => { ch with hostMeas := .none }) tag 0x51 stOk bytes)) ∧
      ((s.ch[c]).hostMeas = .none → exec (.pulseEvalDone c raw) s = .next
        ((formRecord t c 5 (measFlags t blend false (measInvalid t c) false) bytes).updProg c fun p =>
          { p with grade := { (if blend then p.grade.flag 3 else p.grade) with
              rdc10 := if stFlag p.cur 3 && r10.isSome then r10 else (if blend then p.grade.flag 3 else p.grade).rdc10 } }))) ∧
    (∀ (raw m : EisMeas) (w : Nat × Nat) (z : EisPoint × State) (l : List Sample) (t0 lo : Nat) (d : Nat × State)
        (blend clamp : Bool), w = eisWindow (eisPoint s.ch[c]).1 (eisPoint s.ch[c]).2 →
      (s.ch[c]).excAt = some t0 → eisSamples raw.wide t0 w.1 w.2 = some l → m = { wide := l.map (formSample s c) } →
      z = impedance s c w.1 w.2 m →
      d = (match residual m.wide w.1 w.2 with
        | some r => (r, z.2)
        | none => ((drawFree z.2).1.toNat, (drawFree z.2).2)) →
      lo = (match m.wide with | x :: _ => x.tb - 15625 | [] => 0) → blend = chanBlend s c lo (lo + w.2 * 15625) →
      clamp = (s.ch[c]).excClamp →
      (∀ tag n f a, (s.ch[c]).hostMeas = .eis tag n f a → exec (.eisPointDone c raw) s = .next
        (reply ((d.2.updCh c fun ch => { ch with hostMeas := .none }).updCh c fun ch =>
            { ch with dds := 0, excAt := none, excClamp := false }) tag 0x52 stOk
          (toLE 4 z.1.fE ++ p4 z.1.re ++ p4 z.1.im ++ toLE 4 (satNat 32 z.1.amp) ++ toLE 2 (satNat 16 d.1)
            ++ p1 (b2n blend + 2 * b2n clamp) ++ [0]))) ∧
      (∀ (u : State) (fl : Nat), (s.ch[c]).hostMeas = .none → eisRuns s.ch[c] = true →
        u = d.2.updCh c (fun ch => { ch with dds := 0, excAt := none, excClamp := false }) →
        fl = measFlags u blend clamp (measInvalid u c) false →
        t = (formRecord (formRecord u c 6 fl (toLE 4 z.1.fE ++ p4 z.1.re ++ p4 z.1.im)) c 7 fl
              (p1 (u.ch[c]).prog.eisIndex ++ p1 (u.ch[c]).prog.step ++ toLE 2 (satNat 16 d.1)
                ++ toLE 4 (satNat 32 z.1.amp) ++ p4 z.1.dc)).updProg c
            (fun p => { p with
              eisIndex := (u.ch[c]).prog.eisIndex + 1, grade := if blend then p.grade.flag 3 else p.grade }) →
        exec (.eisPointDone c raw) s = .next
          (if eisIncludes (u.ch[c]).prog.cur ((u.ch[c]).prog.eisIndex + 1) = true then t
           else decideEnd t c 4 2 3 0xFD))) ∧
    (∀ (raw : EisMeas) (w : Nat × Nat), w = eisWindow (eisPoint s.ch[c]).1 (eisPoint s.ch[c]).2 →
      ((s.ch[c]).excAt = none ∨ ∃ t0, (s.ch[c]).excAt = some t0 ∧ eisSamples raw.wide t0 w.1 w.2 = none) →
      exec (.eisPointDone c raw) s = .next s)

/-! ### Formation -/

/-- Flag fall and the charge cap end a step with their reasons, at B(e+2) for the inputs of epoch e, the cap before a
flag fall of the same inputs; the periodic and the OCV record are formed, and their sums start afresh (an OCV record
that has too few means carries free values, log entry 8); the reduce band and the temperature hold end (R171, R173 to
R175, R182, R185). -/
def Obligations.FormationEventsComplete : Prop :=
  ∀ (s : State) (c : Fin 16) (p : Prog), p = (s.ch[c]).prog →
    (stepRuns s.ch[c] = true → 0 < stTmax p.cur → timerEnds p = true → exec (.flagFall c) s = .next
      (if p.mostlyDerated then decideEnd s c 6 1 0x11 (stDnext p.cur) else decideEnd s c 6 1 0x10 (stSnext p.cur))) ∧
    (stepRuns s.ch[c] = true → capReached p = true →
      exec (.chargeCap c) s = .next (decideEnd s c 5 2 4 (stSnext p.cur))) ∧
    (∀ (rank wait reason next : Nat), (p.pend = none ∨
        ∃ x, p.pend = some x ∧ (wait < x.wait ∨ (wait = x.wait ∧ rank < x.rank))) →
      ((decideEnd s c rank wait reason next).ch[c]).prog.pend =
        some { reason := reason, next := next, wait := wait, rank := rank }) ∧
    (∀ (rank wait reason next : Nat) (x : StepEnd), p.pend = some x →
      ¬(wait < x.wait ∨ (wait = x.wait ∧ rank < x.rank)) →
      ((decideEnd s c rank wait reason next).ch[c]).prog.pend = some x) ∧
    (stepRuns s.ch[c] = true → 0 < stLogNs p.cur → stLogNs p.cur ≤ p.perNs → exec (.periodicRecord c) s = .next
      ((formRecordAt s c 4 (measFlags s p.perBlend false (p.perBad || p.perInv) p.perDer)
        (p4 (meanOf p.sumV p.sumN) ++ p4 (meanOf p.sumI p.sumN)
          ++ (if p.perBad then toLE 2 0x8000 else toLEInt 2 (satInt 16 (divRound (meanOf p.sumT p.sumTn) 10)))
          ++ p1 p.step ++ p1 (s.ch[c]).win.val)).updProg c fun p =>
        { p with
          sumV := 0, sumI := 0, sumN := 0, sumT := 0, sumTn := 0, perBad := false, perInv := false, perBlend := false
          perDer := false, perNs := p.perNs - stLogNs p.cur })) ∧
    (∀ (fit : List (Int × Int)) (slope mean dT : Int × State), stepRuns s.ch[c] = true → stType p.cur = 0x0A →
      p.eisIndex = 0 → (stIt p.cur).toNat * 1000000000 ≤ p.stepNs → fit = p.ocvMeans.take (stPtN p.cur) →
      slope = orFree (ocvSlope fit) s → mean = orFree (ocvMean p.ocvMeans) slope.2 →
      dT = orFree (fit.getLast?.map fun x => measTemp s - x.2) mean.2 → exec (.ocvRecord c () () ()) s = .next
        ((formRecord dT.2 c 8 (measFlags s p.stepBlend false (measInvalid s c) false)
          (p4 slope.1 ++ p4 mean.1 ++ toLE 2 (satNat 16 (stPtN p.cur / 60)) ++ toLEInt 2 (satInt 16 dT.1))).updProg c
          fun q => { q with
            eisIndex := 1
            grade := { (if q.stepBlend then q.grade.flag 3 else q.grade) with
              drift := if stFlag p.cur 3 then some (sat32 slope.1)
                       else (if q.stepBlend then q.grade.flag 3 else q.grade).drift } })) ∧
    (∀ (x : Int) (u : State), orFree (some x) u = (x, u)) ∧
    (∀ t, p.tred = true → p.pstate.active = true → cellBroken s c = false →
      cellWithin s c (hdrBound p.recipe.header 0) (hdrBound p.recipe.header 1) 100 = true →
      t = queueEvent (s.updProg c fun q => { q with tred := false }) 0x0215 (p1 c.val ++ p1 0) →
      exec (.tempReduce c) s = .next (if p.pstate = .hand then t else setStepTargets t c)) ∧
    (p.causes.contains hcTempwin = true → cellBroken s c = false →
      cellWithin s c (hdrBound p.recipe.header 2) (hdrBound p.recipe.header 3) 200 = true →
      exec (.tempwinClear c) s = .next ((clearCauses s c [hcTempwin]).updProg c fun q => { q with suspend := 0 }))

/-! ### Thermal management -/

/-- One evaluation of a die sensor, once the boot-time check has ended: its reading is the mean of its conversions, or
for a broken sensor the estimate or 141 degrees; the warning is entered at WARN and left 5 K below it; the throttle
level follows THROT and THROT + 5 K with their hystereses; and the second evaluation in succession at or above 140
degrees stops the zone. Until the check has ended, conversions count for it, and those of the last sensor end it, with
the first evaluations after it (R274, R276, R279, R280, R284, R285). -/
def Obligations.DieEvaluation : Prop :=
  ∀ (s u : State) (k : Fin 20) (v : DieConv) (x : Int), thermRuns s = true →
    (s.therm.checked = true → u = lonelyDie (judgeDie { s with therm := { s.therm with
        cfgF := s.therm.cfg, thcfgF := s.therm.thcfg, auxcfgF := s.therm.auxcfg } } k v) k →
      x = usedReading u k v.mean →
      ∃ t, exec (.thermEvaluation k v) s = .next t ∧ (t.therm.die[k]).reading = x ∧
        ((t.therm.die[k]).broken = false → x = v.mean) ∧
        (t.therm.die[k]).level = nextLevel (s.therm.die[k]).level x (bits s.therm.cfg 8 8 * 100) ∧
        (t.therm.die[k]).warn = (if (s.therm.die[k]).warn = true then decide ((bits s.therm.cfg 0 8 : Int) * 100 - 500 ≤ x)
          else decide ((bits s.therm.cfg 0 8 : Int) * 100 ≤ x)) ∧
        (14000 ≤ x → 1 ≤ (s.therm.die[k]).hot → (t.therm.die[k]).stop = true)) ∧
    (s.therm.checked = false →
      u = { s with therm := { s.therm with boot := s.therm.boot.set k.val (some v) k.isLt } } →
      ((∃ j : Fin 20, j ≠ k ∧ s.therm.boot[j] = none) → exec (.thermEvaluation k v) s = .next u) ∧
      ((∀ j : Fin 20, j ≠ k → s.therm.boot[j] ≠ none) → exec (.thermEvaluation k v) s = .next (firstEvals u))) ∧
    (convOutside v = true → bootBroken (s.therm.boot.set k.val (some v) k.isLt) k = some 1)

/-- The end of an orderly stop, the hardware latch, and the temperature inputs: a zone below WARN for 10 s ends its
stop, the latch turns everything off and records the sensor, a voltage input takes its voltage, saturated at 2.5 V,
and an NTC input takes the temperature of the formula (a free value where it has none), which for a channel input also
serves OT, its windows and conditions (R130, R150, R168, R173, R247, R280 to R283). -/
def Obligations.ThermalEventsComplete : Prop :=
  ∀ (s : State) (k : Fin 20) (i : Fin 24) (x : Nat),
    (∀ t0, (s.therm.die[k]).stop = true → (s.therm.die[k]).coolAt = some t0 → t0 + 10000000000 ≤ s.sys.tbase →
      (k.val < 17 ∨ (s.therm.die[k]).broken = false) → exec (.thermStopEnd k) s = .next
        (queueEvent (s.updDie k fun d => { d with stop := false, stopDue := false }) 0x0703 (p1 k.val ++ p1 0))) ∧
    (∀ t, s.sys.phase ≠ .unpowered → latchHolds s = false → t = holdIslands s .stopped →
      exec (.thermLatch k) s = .next { t with
        nvm := { t.nvm with thLatched := true, thSensor := k, thTold := false }
        aux := { t.aux with state := 0, mode := 0, brake := false, imb := false, trim := 0 } }) ∧
    (thermRuns s = true → ∀ (u v : State) (ns : Nat) (d : Int × State), ns = s.sys.tbase - (s.therm.inp[i]).lastNs →
      u = s.updInp i (fun t => { t with lastNs := s.sys.tbase, stamp := s.sys.epoch.toNat }) →
      (voltageInput s i = true →
        (x ≤ 65536 → exec (.thRefresh i x) s = .next (u.updInp i fun t => { t with
          uv := (divRound (x * 2500000 : Nat) 65536).toNat, volt := true, ovr := false, broken := false, outRun := 0 })) ∧
        (65536 < x → exec (.thRefresh i x) s = .next (overRangeLink (u.updInp i fun t => { t with
          uv := 2500000, volt := true, ovr := true, broken := false, outRun := 0 }) (0x68 + i.val)))) ∧
      (voltageInput s i = false →
        d = (match thermistor (inputCfg s i).1 (inputCfg s i).2 x with
          | some temp => (temp, u)
          | none => ((drawFree u).1 % 2147483648, (drawFree u).2)) →
        v = (brokenStep d.2 i x ns).updInp i (fun t => { t with
          temp := d.1, volt := false, ovr := false, filt := if t.broken then t.filt else filterOver t.filt d.1 ns }) →
        (16 ≤ i.val → exec (.thRefresh i x) s = .next v) ∧
        (∀ h : i.val < 16, exec (.thRefresh i x) s = .next (tempRefresh (otCheck v ⟨i.val, h⟩) ⟨i.val, h⟩))))

/-! ### Link power management -/

/-- The decisions of the link state machine (rows 1 to 10 and 12 of its table): each input decides the next state with
its row and the boundaries until it commits, where no decision stands (R199, R200). -/
def Obligations.LinkDecisions : Prop :=
  ∀ (s : State), linkRuns s = true → s.link.pend = none →
    ∀ decide' : State → LinkSt → Nat → Nat → State,
      decide' = (fun t dest row wait => { t with link := { t.link with pend := some (dest, row, wait) } }) →
    (∀ t, t = { s with link := { s.link with lost := true } } →
      (s.link.st = .source → backupUsable s = true → exec .sourceLoss s = .next (decide' t .handover 1 2)) ∧
      (s.link.st = .source → backupUsable s = false → formingOk s = true →
        exec .sourceLoss s = .next (decide' t .forming 2 2)) ∧
      (s.link.st = .source → backupUsable s = false → formingOk s = false →
        exec .sourceLoss s = .next (decide' t .lost 3 2)) ∧
      (s.link.st = .forming ∨ s.link.st = .lost → backupUsable s = true →
        exec .sourceLoss s = .next (decide' t .handover 12 2))) ∧
    (s.link.st = .handover →
      exec (.bkokChange true) s = .next (decide' { s with link := { s.link with bkok := true } } .backup 4 2) ∧
      exec .handoverTimeout s = .next (decide' s (formingOrLost s) 5 2)) ∧
    (s.link.st = .ret →
      exec (.bkokChange false) s = .next (decide' { s with link := { s.link with bkok := false } } .source 8 2) ∧
      exec .handoverTimeout s = .next (decideLink (queueEvent s 0x0506 (p1 2)) .source 8 2)) ∧
    (s.link.st = .backup →
      exec .backupLost s = .next (decide' s (formingOrLost s) 7 2) ∧
      (s.link.qual = true → exec .returnQualified s = .next (decide' s .ret 6 2))) ∧
    (s.link.st = .forming ∨ s.link.st = .lost → s.link.qual = true →
      exec .returnQualified s = .next (decide' s .source 9 2)) ∧
    (s.link.st = .forming → 10 ≤ s.link.zeroTicks → exec .formingToLost s = .next (decide' s .lost 10 1))

/-- A tick takes the configuration in force and the claims, forms the sums of the device and its peers, and counts;
peers and source levels: a budget message is stored for its node, a silent peer leaves the sums and later its demand,
and a SRCOK edge starts or ends return qualification, and in PARK a rise is kept (R190 to R193, R198, R200,
R226). -/
def Obligations.LinkEventsComplete : Prop :=
  ∀ (s u v : State) (n : Fin 16),
    (tickDue s = true →
      u = { s with link := { s.link with
        act := s.link.reg, bkf := s.link.bkf && !s.link.bkclr, bkclr := false, tick := s.link.tick + 1
        tickAt := s.sys.epoch.toNat + 1, vTick := s.link.vlink } } →
      v = { u with link := { u.link with lim := sourceLimits u } } →
      ∃ t, exec .linkTick s = .next t ∧ t.link.act = s.link.reg ∧ t.link.tick = s.link.tick + 1 ∧
        t.link.alPend = some (Vector.ofFn (claimOf v)) ∧
        t.link.d = (ownTotals v (Vector.ofFn (claimOf v))).1 + (peerTotals v).1 ∧
        t.link.gc = (ownTotals v (Vector.ofFn (claimOf v))).2.1 + (peerTotals v).2.1 ∧
        t.link.gm = (ownTotals v (Vector.ofFn (claimOf v))).2.2 + (peerTotals v).2.2 ∧ t.link.st = s.link.st) ∧
    (∀ m : BudgetMsg, linkRuns s = true → budgetService s = true → m.fmt = 1 → m.lnk.toNat = nodeLnk s →
      m.node.toNat = n.val →
      (n.val = nodeId s → exec (.budgetMessage m) s = .next (queueRated s 0x050B 0 10000000000 (p1 n.val))) ∧
      (n.val ≠ nodeId s → (s.link.peers[n]).present = true → m.code.toNat = s.link.code →
        exec (.budgetMessage m) s = .next ((keepMessage s).updPeer n fun p =>
          { present := true, code := m.code.toNat, d := m.d.toNat, gc := m.gc.toNat, gm := m.gm.toNat, told := p.told })) ∧
      (n.val ≠ nodeId s → (s.link.peers[n]).present = false → (s.link.peers[n]).told = false → m.code.toNat ≠ s.link.code →
        exec (.budgetMessage m) s = .next
          ((queueEvent (queueEvent (keepMessage s) 0x0509 (p1 n.val)) 0x050C (p1 n.val ++ p1 m.code.toNat)).updPeer n fun _ =>
            { present := true, code := m.code.toNat, d := m.d.toNat, gc := m.gc.toNat, gm := m.gm.toNat, told := true }))) ∧
    ((s.link.peers[n]).present = true → exec (.peerLost n) s = .next
      (queueEvent (s.updPeer n fun p => { p with present := false, gc := 0, gm := 0 }) 0x050A (p1 n.val))) ∧
    ((s.link.peers[n]).present = false → exec (.peerDemandDrop n) s = .next (s.updPeer n fun p => { p with d := 0 })) ∧
    (linkRuns s = true → qualifies s.link.st = true →
      (s.link.qual = false → linkVoltageOk s = true → exec (.srcokChange true) s = .next
        { s with link := { s.link with srcok := true, qual := true, qualAt := s.sys.tbase }
                 sys := { s.sys with srcRise := false } }) ∧
      (s.link.qual = true → exec (.srcokChange false) s = .next
        (queueRated { s with link := { s.link with srcok := false, qual := false }
                             sys := { s.sys with srcRise := false } } 0x0507 0 1000000000
          (p4 ((s.sys.tbase - s.link.qualAt) / 1000000 : Nat))))) ∧
    (∀ b : Bool, linkRuns s = false ∨ qualifies s.link.st = false →
      exec (.srcokChange b) s = .next { s with
        link := { s.link with srcok := b }
        sys := { s.sys with srcRise := s.sys.phase == .park && b && (s.sys.srcRise || !s.link.srcok) } })

/-! ### Safety -/

/-- A new demand in a running mode, after a mode change that every island has acknowledged has applied: SAFE is
entered with its latch, cause and category; what is staged is aborted, and only the changes of the rotation and the
unplanned castlings are staged again, with no answer yet, and the actions of the category reach every channel: forced
opening with outputs and gates off under category 0, orderly opening with the timer under category 1, and under
category 2 the standstill monitor, with CHECK and ARMED ended. Where an entry into DORMANT is committed, it completes
first (R30, R122, R149, R207, R213, R219, R235 to R239). -/
def Obligations.DemandActs : Prop :=
  ∀ (s t u : State) (cause cat : Nat),
    (dormantCommitted s = true → demand s cause cat = s) ∧
    (committedMode s = none → applyCommitted s = s) ∧
    (s.sys.phase = .running → s.sys.mode ≠ .dormant → dormantCommitted s = false → u = applyCommitted s →
      u.sys.mode ≠ .safe → u.safe.restarting = false → cat ≤ 2 → t = demand s cause cat →
      t.sys.mode = .safe ∧ t.sys.safeFrom = u.sys.mode ∧ t.sticky.safeLatch = true ∧ t.safe.cat.toNat = cat ∧
      t.safe.cause = putBit 0 cause true ∧
      (∀ x ∈ t.staged, ((∃ j, x.change = .lane j) ∨ ∃ g, x.change = .castle g) ∧ x.waiting = x.islands) ∧
      (cat = 0 → t.safe.soOn = 0 ∧ t.safe.timer = false ∧ (∀ g : Fin 4, (t.grp[g]).gateDis = true) ∧
        ∀ c : Fin 16, (t.ch[c]).st.live = false ∧ ((u.ch[c]).st.live = true → (t.ch[c]).st = .off ∧
          (t.ch[c]).gates = false ∧ (t.ch[c]).opening = if (t.ch[c]).dsw then .forced else .none)) ∧
      (cat = 1 → t.safe.timer = true ∧ t.safe.soOn = u.safe.soOn ∧
        ∀ c : Fin 16, (t.ch[c]).st.live = false ∧ ((u.ch[c]).st.live = true → (t.ch[c]).st = .off)) ∧
      (cat = 2 → t.safe.standstill = true ∧ t.safe.soOn = u.safe.soOn ∧
        ∀ c : Fin 16, (u.ch[c]).st = .check ∨ (u.ch[c]).st = .armed → (t.ch[c]).st = .off))

/-- Where a demand comes from: a stop input that is enabled and leaves its healthy state demands in its own category; a
discrepancy, a fault of a safe output or of its feedback, a lost clock, a safety oscillator out of tolerance and a
gate-disable line demand in category 0, each after it has been recorded (R231 to R235, R241 to R243, R251, R412). -/
def Obligations.DemandSources : Prop :=
  ∀ (s t : State) (i g : Fin 4) (o : Fin 2) (b level : Bool),
    (t = discProgress { s with safe := { s.safe with
        raw := putBit s.safe.raw (inputBit i b) level, filt := putBit s.safe.filt (inputBit i b) level } } i →
      ((inputDemands t i = false ∨ inputDemands s i = true) → exec (.stopInputChange i b level) s = .next t) ∧
      (inputDemands t i = true → inputDemands s i = false →
        exec (.stopInputChange i b level) s = .next (demand t i.val (bits t.safe.act.incfg[i] 2 2)))) ∧
    (inputEnabled s i = true → s.safe.filt.getLsbD (2 * i.val) ≠ s.safe.filt.getLsbD (2 * i.val + 1) →
      s.safe.disc.getLsbD i.val = false → safetyRuns s = true → exec (.discrep i) s = .next
        (demand (queueEvent { s with safe := { s.safe with
          disc := putBit s.safe.disc i.val true, bothLow := putBit s.safe.bothLow i.val false } } 0x0602 (p1 i.val)) 4 0)) ∧
    (s.safe.soOn.getLsbD o.val = true → s.safe.restarting = false →
      t = { s with safe := { s.safe with soSwitch := putBit s.safe.soSwitch o.val !s.safe.soSwitch.getLsbD o.val } } →
      exec (.offPulseTest o true) s = .next t ∧
      exec (.offPulseTest o false) s = .next
        (outputFail { t with safe := { t.safe with soTest := putBit s.safe.soTest o.val true } } o
          (1 + b2n (s.safe.soSwitch.getLsbD o.val)))) ∧
    (s.safe.soOn.getLsbD o.val = true → exec (.soOverload o) s = .next
      (demand (queueEvent (setOutputs { s with safe := { s.safe with soOvl := putBit s.safe.soOvl o.val true } }
        (putBit s.safe.soOn o.val false)) 0x0604 (p1 o.val ++ p1 3)) 5 0)) ∧
    (feedbackEnabled s o = true → feedbackMatches s o = false → exec (.sofbFault o) s = .next
      (demand (queueEvent { s with safe := { s.safe with sofbF := putBit s.safe.sofbF o.val true } } 0x0605
        (p1 o.val ++ p1 (b2n (s.safe.sofb.getLsbD o.val)))) 6 0)) ∧
    (exec .vsoUndervoltage s = .next ((bitList s.safe.soOn).foldl (fun s o =>
      outputFail { s with safe := { s.safe with soTest := putBit s.safe.soTest o.val true } } o 4)
      { s with aux := { s.aux with vsouv := true } })) ∧
    (s.safe.refl = false → exec .refClockLoss s = .next (demand { s with safe := { s.safe with refl := true } } 7 0)) ∧
    (s.safe.rcf = false → exec .safetyOscFail s = .next (demand { s with safe := { s.safe with rcf := true } } 8 0)) ∧
    (s.safe.gdis = false → t = s.updGrp g (fun gr => { gr with gdisFault := true }) → exec (.gateDisableFault g) s = .next
      (demand { t with safe := { t.safe with gdis := true } } 10 0))

/-- The other events of the safety island: the category 1 timer and a lost standstill end in category 0, a protection
trip opens every member of the gang by force and latches, the tests of the comparators are recorded, a clock recovers,
the island restarts with a demand that is present as category 0, a session times out, a locked slot unlocks, the latch
is stored, a feedback input changes, and VSO recovers (R230, R237, R238, R243, R244, R247 to R251, R255, R261, R412).
-/
def Obligations.SafetyEventsComplete : Prop :=
  ∀ (s t u : State) (c : Fin 16) (o : Fin 2) (m : Fin 4),
    (s.safe.timer = true → exec .cat1TimerExpiry s = .next (category0 s)) ∧
    (∀ mA : Nat, s.sys.mode = .safe → s.safe.cat = 2 → s.safe.standstill = true → 500 < mA →
      exec (.safeEscalate c mA) s = .next (escalate (abortStaged (queueEvent s 0x0603 (p1 c.val ++ p4 mA))))) ∧
    (∀ k : CpKind, cpActive s c k = true → exec (.cpTrip c k) s = .next (protectionTrip { s with
      sticky := { s.sticky with cplat := vmod s.sticky.cplat c fun l => putBit l (cpCode k) true } } c (cpCode k))) ∧
    (∀ f : Mask, safetyRuns s = true → exec (.cpDiag f) s = .next ((bitList f).foldl (fun s c => protectionTrip s c 4)
      { s with safe := { s.safe with diagRun := (s.safe.diagRun ||| ~~~f) &&& ~~~f }
               sticky := { s.sticky with cpdiag := s.sticky.cpdiag ||| f } })) ∧
    (exec (.clockRecovered true) s = .next { s with safe := { s.safe with rcf := false } }) ∧
    (exec (.clockRecovered false) s = .next { s with safe := { s.safe with refl := false } }) ∧
    (safetyRuns s = true → t = { s with safe := { s.safe with restarting := true } } →
      (s.sys.mode = .safe → demandActive s = true ∨ s.safe.cat = 2 → s.safe.cat ≠ 0 → exec .safetyCoreDivergence s = .next (escalate t)) ∧
      (s.sys.mode ≠ .safe → exec .safetyCoreDivergence s = .next t)) ∧
    (∀ us : Nat, s.safe.restarting = true → exec (.safeCoreRestart us) s = .next
      (queueEvent { s with safe := { s.safe with restarting := false } } 0x0608 (p4 us))) ∧
    (s.safe.sessOpen = true → u = timePasses s →
      s.safe.lastCmd + bits s.safe.act.gcfg 8 8 * 60000000000 ≤ u.sys.tbase →
      t = queueEvent (logChange u s.safe.slot.val 10 0 0 0 0) 0x060A (p1 s.safe.slot.val ++ p1 2) →
      exec .sessionTimeout s = .next
        { t with safe := { t.safe with sessOpen := false, defaultSess := false, sess := s.safe.act, slot := 0 } }) ∧
    (s.safe.locked.getLsbD m.val = true → u = timePasses s → s.safe.lockAt[m] + 60000000000 ≤ u.sys.tbase →
      exec (.slotUnlock m) s = .next { u with safe := { s.safe with
      locked := putBit s.safe.locked m.val false, fails := s.safe.fails.set m.val 0 m.isLt } }) ∧
    (s.sticky.safeLatch = true → s.safe.act.gcfg.getLsbD 0 = true →
      exec .safeLatchStore s = .next { s with nvm := { s.nvm with latCopy := true } }) ∧
    (∀ level : Bool, exec (.sofbChange o level) s = .next (refreshOutputs (setOutputs
      { s with safe := { s.safe with sofb := putBit s.safe.sofb o.val level } } s.safe.soOn))) ∧
    (exec .vsouvClear s = .next (refreshOutputs { s with aux := { s.aux with vsouv := false } }))

/-! ### Safety session -/

/-- The session: SAFE_HELLO draws a nonce, SAFE_LOGIN with the right proof opens a session and with a wrong one counts
a failure, SAFE_LOGOUT closes it, and in the session of slot 0 without a password each of them is denied; inside a
session SAFE_COMMIT starts its NVM operation, SAFE_PASSWD and SAFE_KEY store what the masked bytes spell; SAFE_ACK
stages the acknowledged reset with the latches of its mask, all of its conditions met, and tells the conditions
otherwise (R246, R249, R255 to R261, R305, R329, R330). -/
def Obligations.SessionCommandsComplete : Prop :=
  ∀ (s u : State) (b : Byte) (m : Fin 4), slotOf? b = some m →
    (∀ i, i = Instr.safeHello b → u = timePasses (taken i s) → Served i s → s.safe.locked.getLsbD m.val = false →
      s.safe.sessOpen = false → s.safe.defaultSess = false → (m = 0 ∨ (s.nvm.slots[m]).hash ≠ none) →
      exec i s = .next (replied i s { (drawEntropy u).2 with
          safe := { (drawEntropy u).2.safe with nonce := some (drawEntropy u).1, nonceAt := u.sys.tbase } } stOk
        (nonceBytes (if (s.nvm.slots[m]).hash = none then 0 else (s.nvm.slots[m]).salt) ++ nonceBytes (drawEntropy u).1))) ∧
    (∀ (p : List Byte) (n : BitVec 128) (v : State) (i : Instr), i = .safeLogin b p → p.length = 32 → Served i s →
      s.safe.locked.getLsbD m.val = false → s.safe.sessOpen = false → s.safe.defaultSess = false → s.safe.nonce = some n →
      u = timePasses (taken i s) → u.sys.tbase ≤ s.safe.nonceAt + 60000000000 → v = { u with safe := { u.safe with nonce := none } } →
      (proofMatches s m n p = true → exec i s = .next (replied i s (openSession v m n) stOk [])) ∧
      (proofMatches s m n p = false → exec i s = .next (replied i s (loginFail v m) stAuthFail []))) ∧
    (Served .safeLogout s → s.safe.defaultSess = false →
      exec .safeLogout s = .next (replied .safeLogout s (closeSession (sessionHeard (taken .safeLogout s)) 1) stOk [])) ∧
    (∀ (i : Instr) (p : List Byte), i = .safeHello b ∨ i = .safeLogin b p ∨ i = .safeLogout → p.length = 32 → Served i s →
      s.safe.defaultSess = true → exec i s = .next (replied i s (sessionHeard (taken i s)) stSafetyDenied [])) ∧
    (Served .safeCommit s → s.safe.sessOpen = true → s.safe.defaultSess = false → badUv s.safe.sess = none →
      sessionDirty s = true → nvmBusy s = false → u = touchSession (taken .safeCommit s) →
      exec .safeCommit s = .next { u with
        isl := { u.isl with nvmOp := .safe s.safe.sess }
        safe := { u.safe with commitTag := some (req .safeCommit s).tag } }) ∧
    (∀ (len : Byte) (x plain p : List Byte) (i : Instr), i = .safePasswd b len x → x.length = 20 → Served i s →
      s.safe.sessOpen = true → u = touchSession (taken i s) → plain = xorBytes x ((sessionMask s 0x50).take 20) →
      (len ≠ 0 → maySetPassword s m false = true → passwordOf len.toNat plain = some p → exec i s = .next (replied i s
        (logChange (setSlot (drawEntropy u).2 m
          { salt := (drawEntropy u).1, hash := some (hashOf (sha256 (nonceBytes (drawEntropy u).1 ++ p))) })
          s.safe.slot.val 2 m.val 0 0 0) stOk [])) ∧
      (len = 0 → maySetPassword s m true = true → m ≠ 0 → plain.any (· != 0) = false → exec i s = .next (replied i s
        (logChange (setSlot u m Slot.empty) s.safe.slot.val 3 m.val 0 0 0) stOk []))) ∧
    (∀ (f : Byte) (k : Mask) (i : Instr), i = .safeAck f k → Served i s → f.toNat < 2 → s.safe.defaultSess = false →
      u = sessionHeard (taken i s) →
      (f = 1 → ackUnmet u = 0 → latchesStay u k = 0 → modePending s = false → exec i s = .next (staged i s u
        (.mode (if s.sys.safeFrom = .service then .boot else s.sys.safeFrom) false false true k) (allIslands s))) ∧
      (f = 0 → k ≠ 0 → latchesStay u k = 0 → exec i s = .next (staged i s u (.clearLatch k) (islandBit 8))) ∧
      (f = 1 → ackUnmet u ≠ 0 → exec i s = .next (replied i s u stSafetyDenied
        (ackPayload (ackUnmet u) (latchesStay u k))))) ∧
    (∀ (x key : List Byte) (i : Instr), i = .safeKey x → x.length = 32 → Served i s → s.safe.sessOpen = true →
      s.safe.slot = 0 → s.safe.defaultSess = false → u = touchSession (taken i s) →
      key = xorBytes x (sessionMask s 0x4B) →
      exec i s = .next (replied i s (if key.all (· == 0) = true
        then logChange { u with nvm := { u.nvm with key := none } } 0 3 0xFF 0 0 0
        else logChange { u with nvm := { u.nvm with key := some (hashOf key) } } 0 2 0xFF 0 0 0) stOk []))

/-! ### Boot, resets, wake and supplies -/

/-- What a reset keeps, for each command that starts BOOT: over every BOOT that is not a power-on reset the sticky
records, the NVM and the accumulators and sequence numbers of the channels stand, and TBASE runs on unless the reset
pin caused it; a power-on reset clears the accumulators and the sticky records, but for what a chapter keeps in them
for the next BOOT, and keeps a SAFE latch only with LATPOR at 1, with the lifetime counters as last written (R5, R6,
R32, R44, R153, R217, R222, R227, R244, R405). -/
def Obligations.ResetKeepsRecords : Prop :=
  ∀ (s : State) (cause : BootCause) (n ohm : Nat) (c : Fin 16),
    (cause ≠ .powerOn → (restart s cause n).sticky = s.sticky ∧ (restart s cause n).nvm = s.nvm ∧
      ((restart s cause n).ch[c]).q = (s.ch[c]).q ∧ ((restart s cause n).ch[c]).e = (s.ch[c]).e ∧
      ((restart s cause n).ch[c]).logSeq = (s.ch[c]).logSeq ∧ ((restart s cause n).ch[c]).rseq = (s.ch[c]).rseq ∧
      (cause ≠ .pin → (restart s cause n).sys.tbase = s.sys.tbase) ∧ (cause = .pin → (restart s cause n).sys.tbase = 0)) ∧
    (cause = .powerOn → (restart s cause n).sticky = { Sticky.reset with
        safeLatch := s.nvm.latCopy && (s.nvm.safe.getD SafeCfg.reset).gcfg.getLsbD 0
        stuck := s.sticky.stuck, stuckTold := s.sticky.stuckTold, wsrc := s.sticky.wsrc, haltKept := s.sticky.haltKept
        bistRows := s.sticky.bistRows, bistResult := s.sticky.bistResult } ∧
      ((restart s cause n).ch[c]).q = 0 ∧ ((restart s cause n).ch[c]).e = 0 ∧ (restart s cause n).sys.tbase = 0 ∧
      (restart s cause n).nvm = { s.nvm with
        life := s.nvm.lifeNvm, latCopy := s.nvm.latCopy && (s.nvm.safe.getD SafeCfg.reset).gcfg.getLsbD 0 }) ∧
    (restart s cause n).pending = s.pending ∧ (restart s cause n).sys.phase = .booting ∧
    (restart s cause n).sys.mode = .boot ∧ (restart s cause n).sys.cause = cause ∧
    (restart s cause n).sys.bootStep = n ∧ (restart s cause n).sys.due = .none ∧
    (restart s cause n).evq.queue = [] ∧ (restart s cause n).staged = [] ∧
    (∀ (t : State) (m : Option (Fin 4)), m = (if s.safe.sessOpen then some s.safe.slot else s.sys.closed) →
      t = restart (closeSession (if cause = .soft ∧ storeBusy s = true then s else cutStore s) 4) cause n →
      (m = none → bootFrom s cause n = drawNonce t) ∧
      (∀ k, m = some k → bootFrom s cause n = drawNonce (queueEvent t 0x060A (p1 k.val ++ p1 4)))) ∧
    (s.sys.rstLow = true → exec (.powerOnReset ohm) s = .next (bootFrom s .powerOn 2)) ∧
    (s.sys.phase = .resetHeld → exec (.rstNRelease ohm) s = .next
      (readSrcid (bootFrom { s with sys := { s.sys with rstLow := false } } .pin 4) ohm)) ∧
    (s.sys.due = .none → s.sys.phase = .dormant → exec (.wake ohm) s = .next
      (wakeBoot { s with sys := { s.sys with wakeHigh := true } } 1 ohm)) ∧
    (∀ (src : Nat) (t : State), t = readSrcid (bootFrom (lapse s) (if s.sys.phase = .park then .wakePark else .wakeDormant) 4) ohm →
      wakeBoot s src ohm = { t with sticky := { t.sticky with wsrc := src } })

/-- The start and the end of BOOT. Power-on starts BOOT at step 1, which waits at step 2 while RST_N is low and
otherwise reads SRCID and waits at step 4; the aux converter starts there with AXIN at 9.0 V; BOOT_DONE with no
halting finding starts epoch 0 in SAFE where a demand or the SAFE latch stands, and otherwise in CONFIGURE or IDLE by
the configuration, with BOOT as the first event of its own; BOOT_HALT halts with its code, or with code 1 where the
SRAM cannot be repaired before it; the reset pin holds the device, is released into BOOT, and is recorded when it is
stuck; WAKE and a link wake leave DORMANT and PARK. What was due after a reply happens first (R207, R213 to R217, R220
to R222, R225, R226, R416). -/
def Obligations.BootEventsComplete : Prop :=
  ∀ (s u : State) (ohm : Nat), u = settleDue s → (s.sys.due = .none → u = s) ∧
    (s.sys.rstLow = false → ∀ t, t = bootFrom s .powerOn 2 →
      exec (.powerOnReset ohm) s = .next (readSrcid { t with sys := { t.sys with bootStep := 4 } } ohm)) ∧
    (s.sys.rstLow = true → exec (.powerOnReset ohm) s = .next (bootFrom s .powerOn 2)) ∧
    (∀ mV : Nat, u.sys.phase = .booting → u.sys.bootStep = 4 → 9000 ≤ mV → auxRuns u = false → bothLatched u = false →
      exec (.auxSoftStart mV) s = .next { clearPeaks u with
        aux := { (clearPeaks u).aux with state := 1, mode := if 11500 < mV then 1 else 2 } }) ∧
    (∀ (b : BootInput) (f : State × Nat × List EvDraft), bootRuns u = true →
      f = bootFindings 0 b (advanceTime (b.ms * 1000000) u) → f.2.1 = 0 →
      ∃ t, exec (.bootDone b) s = .next t ∧ t.sys.phase = .running ∧ t.sys.epoch = 0 ∧ t.sys.running = true ∧
        t.sys.bootStep = 13 ∧ t.sys.tboot = b.ms ∧ t.sys.prev = .boot ∧
        (f.1.staged = [] → t.sys.mode =
          if (∃ i : Fin 4, inputDemands f.1 i = true) ∨ f.1.safe.disc ≠ 0 ∨ f.1.safe.sofbF ≠ 0 ∨ f.1.safe.refl = true ∨
              f.1.safe.rcf = true ∨ f.1.safe.cfgBad = true ∨ f.1.safe.gdis = true ∨ f.1.sticky.safeLatch = true then .safe
          else if f.1.sys.cfgdef = true ∨ f.1.sys.bootcfg.getLsbD 0 = false then .configure else .idle) ∧
        ∃ r, t.evq.bootPend = stickyEvents f.1 ++ f.2.2 ++
          [{ code := 0x0140, payload := p1 f.1.sys.cause.code ++ p1 t.sys.mode.code ++ p4 b.ms }] ++ r) ∧
    (∀ (k : Fin 6) (b : BootInput) (f : State × Nat × List EvDraft) (v : State × Bool), k ≠ 0 → bootRuns u = true →
      f = bootFindings k.val b (advanceTime (b.ms * 1000000) u) →
      v = repairSram (firstEvals (loadSafety (bootInputs b (advanceTime (b.ms * 1000000) u)) b.safeCrcOk)) b.badRows b.badSpares →
      ∃ t, exec (.bootHalt ⟨k, b⟩) s = .next t ∧ t = haltAt f.2.1 f.2.2 f.1 ∧ t.sys.phase = .halted ∧ t.sys.hcode = f.2.1 ∧
        (k = 1 ∨ k = 4 ∨ v.2 = true → f.2.1 = k.val) ∧ (k ≠ 4 → v.2 = false → f.2.1 = 1) ∧
        (k = 4 → t.sticky.haltKept = 4)) ∧
    (resetHeeded u = true → u.sys.phase ≠ .resetHeld → ¬ (u.sys.phase = .booting ∧ u.sys.bootStep = 2) →
      ∃ t, exec .pinReset s = .next t ∧ t.sys.phase = .resetHeld ∧ t.sys.running = false ∧ t.sys.rstLow = true ∧
        t.sticky.pinn = satInc 8 u.sticky.pinn ∧ t.safe.soOn = 0 ∧ t.staged = [] ∧
        t.sys.closed = (if u.safe.sessOpen then some u.safe.slot else u.sys.closed) ∧
        ∀ c : Fin 16, (t.ch[c]).gates = false ∧ (t.ch[c]).opening = if (u.ch[c]).dsw then .forced else .none) ∧
    (resetHeeded u = false ∨ u.sys.phase = .resetHeld ∨ (u.sys.phase = .booting ∧ u.sys.bootStep = 2) →
      exec .pinReset s = .next { u with sys := { u.sys with rstLow := true } }) ∧
    (∀ t, t = { s with sys := { s.sys with rstLow := false } } →
      (s.sys.phase = .resetHeld → exec (.rstNRelease ohm) s = .next (readSrcid (bootFrom t .pin 4) ohm)) ∧
      (s.sys.phase = .booting → s.sys.bootStep = 2 → exec (.rstNRelease ohm) s = .next
        (readSrcid (drawNonce { t with sys := { t.sys with bootStep := 4 } }) ohm)) ∧
      (s.sys.phase ≠ .resetHeld → ¬ (s.sys.phase = .booting ∧ s.sys.bootStep = 2) →
        exec (.rstNRelease ohm) s = .next t)) ∧
    (s.sys.rstLow = true → s.sys.phase = .resetHeld ∨ (s.sys.phase = .booting ∧ s.sys.bootStep = 2) →
      exec .rstStuck s = .next { s with sticky := { s.sticky with stuck := true, stuckTold := false } }) ∧
    (∀ t, t = { u with sys := { u.sys with wakeHigh := true } } →
      (u.sys.phase = .dormant ∨ u.sys.phase = .park → exec (.wake ohm) s = .next (wakeBoot t 1 ohm)) ∧
      (u.sys.phase = .running → dormantCommitted u = true → exec (.wake ohm) s = .next
        { t with sys := { t.sys with wakePend := some ohm } }) ∧
      (u.sys.phase ≠ .dormant → u.sys.phase ≠ .park → ¬ (u.sys.phase = .running ∧ dormantCommitted u = true) →
        exec (.wake ohm) s = .next t)) ∧
    (∀ mV ms : Nat, u.sys.phase = .park → u.sys.lwake = true → u.sys.srcRise = true → u.sys.wakeVlost ≤ mV →
      u.sys.wakeTret ≤ ms → exec (.linkWake ⟨ohm, mV, ms⟩) s = .next (wakeBoot u 3 ohm))

/-- The supplies: a phase fault latches its phase off, the second one stops the device with its record, as a VGD
over-voltage does; imbalance, braking and the converter mode are recorded; a supply loss and a rail fault shut down; VIO
moves, and without VAON the device is unpowered (R410, R411, R413, R415 to R422, R426). -/
def Obligations.SupplyEventsComplete : Prop :=
  ∀ (s : State) (p : Fin 2) (t u : State),
    (auxRuns s = true → phaseLatched s p = false → t = { s with
        sticky := { s.sticky with phaseOff := putBit s.sticky.phaseOff p.val true }
        aux := { s.aux with trim := 0, imb := false } } →
      (bothLatched t = false → exec (.auxPhaseOvercurrent p) s = .next (queueEvent t 0x0B01 (p1 p.val ++ p1 1))) ∧
      (bothLatched t = true → ∃ x, exec (.auxPhaseOvercurrent p) s = .next x ∧ x.sys.phase = .stopped ∧
        x.nvm.stopValid = true ∧ x.nvm.stopKind = 2 ∧ ∀ c : Fin 16, (x.ch[c]).gates = false)) ∧
    (phaseLatched s p = false → u = { s with aux := { s.aux with limn := satInc 8 s.aux.limn } } →
      (s.aux.state = 2 → exec (.auxLimitPersist p) s = .next (latchPhase u p 1)) ∧
      (s.aux.state = 1 → exec (.auxSoftstartLimit p) s = .next (latchPhase u p 2))) ∧
    (∀ positive : Bool, auxRuns s = true → s.sticky.phaseOff = 0 → s.aux.imb = false →
      exec (.auxImbalance positive) s = .next (queueEvent { s with aux := { s.aux with
        imb := true, trim := if positive then 500 else -500, imbn := satInc 8 s.aux.imbn } } 0x0B04
        (p4 (if positive then 500 else -500)))) ∧
    (s.aux.imb = true → ∃ x, exec .auxImbalanceClear s = .next x ∧ x.aux.imb = false ∧ x.aux.trim.natAbs ≤ 499) ∧
    (auxRuns s = true → s.aux.brake = false → exec .auxBrake s = .next
      { s with aux := { s.aux with brake := true, braken := satInc 16 s.aux.braken } }) ∧
    (exec .auxBrakeEnd s = .next { s with aux := { s.aux with brake := false } }) ∧
    (∀ mV : Nat, auxRuns s = true → t = auxStop s 1 mV →
      exec (.auxVgdOv mV) s = .next { t with sticky := { t.sticky with vgdLatch := true } }) ∧
    (∀ buck : Bool, auxRuns s = true → exec (.auxModeChange buck) s = .next
      { s with aux := { s.aux with mode := if buck then 1 else 2 } }) ∧
    (∀ i ∈ [Instr.supplyLoss, .railFault], supplyWatched s = true → (i = .railFault → auxRuns s = true) →
      t = holdIslands s .shutdown → exec i s = .next
      { t with aux := { t.aux with state := 0, mode := 0, brake := false, imb := false, trim := 0 } }) ∧
    (∀ up : Bool, exec (.vioChange up) s = .next { s with port := { s.port with vio := up } }) ∧
    (∃ x, exec .alwaysOnReset s = .next x ∧ x.sys.phase = .unpowered ∧ x.sticky.phaseOff = 0 ∧ x.sticky.vgdLatch = false ∧
      ∀ c : Fin 16, (x.ch[c]).dsw = false ∧ (x.ch[c]).gates = false)

/-! ### Self-test and lifetime -/

/-- TEST_RUN and the ends of its runs: the destructive tests reply at once and run in SERVICE once the reply has been
read, the spare's logic BIST and the leg island test reply at their end, the periodic ones and a BIST in progress are
DEFERRED to the end of the run (at the pace at which it goes, log entry 119); an ended leg test counts its pulses and
parks the legs that failed, an ended destructive test keeps its result and boots; scan access needs a session of slot
0 and its confirmation and clears the secrets; once its reply has been read, it frees the TAP, whose instructions
select their data registers, every other code BYPASS, while a TAP that is held selects nothing; fuse repair enters the
soft repairs, and where it fails those it reached and one entry whose check fails (log entry 220); hours and minutes
are counted (R331, R332, R387, R391, R398 to R406). -/
def Obligations.SelfTestCompletes : Prop :=
  ∀ (s u v : State),
    (∀ (i : Instr) (k : Fin 6), (i = .testRunMemoryBist 0 ∧ k = 0) ∨ (i = .testRunLogicBist 0 ∧ k = 2) → Served i s →
      inService s = true → exec i s = .next (replied i s (makeDue (taken i s) (.test k)) stOk (resultPayload 0)) ∧
      ∀ x : State, x.sys.due = .test k → settleDue x = { x with
        sys := { x.sys with due := .none }
        isl := { x.isl with serviceTest := some k.val, running := putBit x.isl.running k.val true } }) ∧
    (Served (.testRunSpareBist 0) s → s.isl.running.getLsbD 1 = true → exec (.testRunSpareBist 0) s = .next
      (replied (.testRunSpareBist 0) s (taken (.testRunSpareBist 0) s) stDeferred (toLE 8 s.isl.spareEnds))) ∧
    (Served (.testRunSpareBist 0) s → s.isl.running.getLsbD 1 = false → u = startBist (taken (.testRunSpareBist 0) s) →
      u.isl.running.getLsbD 1 = true → exec (.testRunSpareBist 0) s = .next
        { u with isl := { u.isl with spareTag := some (req (.testRunSpareBist 0) s).tag } }) ∧
    (Served (.testRunLoopback 0) s → exec (.testRunLoopback 0) s = .next
      (replied (.testRunLoopback 0) s (taken (.testRunLoopback 0) s) stDeferred
        (toLE 8 (s.meas.legSlotAt + 312500000 * (32 - s.meas.legIdx.val))))) ∧
    (∀ x : Nat, Served (.testRunScrub 0) s →
      x = (scrubWords - 1 - s.isl.scrubWord % scrubWords) * scrubCost s + s.isl.scrubLeft →
      exec (.testRunScrub 0) s = .next (replied (.testRunScrub 0) s (taken (.testRunScrub 0) s) stDeferred
        (toLE 8 (s.sys.tbase + (x + scrubWords - 1) / scrubWords)))) ∧
    (∀ a : Byte, a.toNat < 4 → inService s = true → s.isl.testTag = none → Served (.testRunLegTest a) s →
      exec (.testRunLegTest a) s = .next { taken (.testRunLegTest a) s with isl := { s.isl with
        testTag := some (req (.testRunLegTest a) s).tag, testArg := a.toNat, running := putBit s.isl.running 5 true } }) ∧
    (∀ (f : BitVec 8) (ok : Bool) (n r : Nat) (tag : ReqId) (bad : Fin 32 → Bool), s.isl.testTag = some tag →
      bad = (fun l => l.val / 8 == s.isl.testArg && f.getLsbD (l.val % 8)) → r = runResult (f == 0 && ok) n legChecks →
      v = ((List.finRange 32).filter fun l => l.val / 8 == s.isl.testArg).foldl testPulses s →
      u = { v with isl := { v.isl with testTag := none, legF := v.isl.legF ||| maskOf 32 bad }
                   leg := vmapI v.leg fun l x => if bad l then { x with park := { x.park with test := true } } else x } →
      exec (.legTestDone f ok n) s = .next
        (reply (testDone (recordTest u 5 s.isl.testArg r n legChecks) 5 r) tag 0x90 stOk (resultPayload r))) ∧
    (∀ (m : Bool) (n k : Nat) (rows : List Nat), s.isl.serviceTest = some k →
      exec (.serviceTestDone m n rows) s = .next (softBoot { s with sticky := { s.sticky with
        bistResult := some (k, runResult m n (serviceCount k), n)
        bistRows := if k = 0 then rows else s.sticky.bistRows } })) ∧
    (Served (.scanRequest 0x5A5AA5A5) s → s.safe.sessOpen = true → s.safe.slot = 0 → s.safe.defaultSess = false →
      ∃ x, exec (.scanRequest 0x5A5AA5A5) s = .next x ∧ x.sys.due = .scan ∧
        x.nvm.key = none ∧ ∀ m : Fin 4, (x.nvm.slots[m]).hash = none) ∧
    (Served .fuseRepair s → nvmBusy s = false → exec .fuseRepair s = .next { taken .fuseRepair s with
      isl := { s.isl with nvmOp := .fuse, opTag := some (req .fuseRepair s).tag } }) ∧
    (s.isl.nvmOp = .fuse → u = fuseRows s (softRepairs s).length → exec (.fuseRepairDone 0 true) s = .next
      (replyOp (queueEvent { u with isl := { u.isl with nvmOp := .none } } 0x0A02
          (p4 (u.nvm.fuses.length - s.nvm.fuses.length : Nat))) 0x93 stOk
        (toLE 2 (u.nvm.fuses.length - s.nvm.fuses.length) ++ [0, 0]))) ∧
    (∀ k : Nat, s.isl.nvmOp = .fuse → u = fuseRows s k → v = spoilEntry u → exec (.fuseRepairDone k false) s = .next
      (replyOp (queueEvent { v with isl := { v.isl with nvmOp := .none } } 0x0A02
        (p4 (u.nvm.fuses.length - s.nvm.fuses.length : Nat))) 0x93 stNvmError [])) ∧
    (s.sys.phase ≠ .unpowered → ∃ x, exec .lifetimeHour s = .next x ∧
      x.nvm.life.hours = satInc 32 s.nvm.life.hours ∧ (x.nvm.life.hours % 8 = 0 → x.nvm.lifeNvm = x.nvm.life)) ∧
    (∀ h : Int, s.sys.phase ≠ .unpowered → ∃ x, exec (.eqhMinute h) s = .next x ∧
      x.nvm.life.eqhMinutes * fxOne + x.nvm.life.eqhFrac
        = s.nvm.life.eqhMinutes * fxOne + s.nvm.life.eqhFrac + accelFactor h) ∧
    (∀ t : Tap, t.held = true → t.selected = none ∧ ∀ c, (t.load c).selected = none) ∧
    (∀ (t : Tap) (c : Byte), t.held = false → (t.load c).selected = some (
      if c = 0x00 ∨ c = 0x01 then .boundary else if c = 0x02 then .identity 0xB1632A5F
      else if c = 0x10 then .instrument 64 else .bypass 1) ∧ t.resets.selected = some (.identity 0xB1632A5F)) ∧
    (∀ (r : Reply) (n : Nat), portServes s = true → s.port.replies = [r] → s.sys.due = .scan → s.sys.dueLeft ≤ 1 →
      (replyPacket r 0).length ≤ n → ∃ t, exec (.replyRead n) s = .next t ∧ t.sys.phase = .testAccess ∧
        t.tap.selected = some (.identity 0xB1632A5F) ∧ t.safe.soOn = 0 ∧ t.link.bken = s.link.bken ∧
        ∀ c : Fin 16, (t.ch[c]).gates = false ∧ (t.ch[c]).st = (s.ch[c]).st)

/-! ### Host port -/

/-- The checks of a request frame in their order (R299): the first that fails gives the reply and its counter, a
repeat is answered from the replay store, and a frame that passes all of them is accepted. -/
def Obligations.FrameChecks : Prop :=
  ∀ (s u : State) (b : List Byte) (part : Bool), portServes s = true → b ≠ [] → u = beginFrame s →
    (byteAt b 0 ≠ 0xB7 → byteAt b 0 ≠ 0x3C → byteAt b 0 ≠ 0x3D →
      exec (.requestFrame b part) s = .next (u.updPort fun p => { p with badfr := satInc 8 p.badfr })) ∧
    (∀ (v : State) (tag opc st : Byte), (refuseFrame v tag opc st).port.replay = v.port.replay ∧
      (refuseFrame v tag opc st).port.hcnt = v.port.hcnt ∧ (placesTaken v < replyPlaces → ∃ r,
        (refuseFrame v tag opc st).port.replies = v.port.replies ++ [r] ∧ r.tag = tag ∧ r.status = st ∧ r.payload = [])) ∧
    (byteAt b 0 = 0xB7 → lengthOk u b part = false →
      exec (.requestFrame b part) s = .next (refuseFrame (countCrce u) (byteAt b 3) (byteAt b 4) stBadLen)) ∧
    (byteAt b 0 = 0xB7 → lengthOk u b part = true →
      (crc32c (frameBody b) ≠ frameCrc b →
        exec (.requestFrame b part) s = .next (refuseFrame (countCrce u) (byteAt b 3) (byteAt b 4) stBadCrc)) ∧
      (crc32c (frameBody b) = frameCrc b →
        (reservedOk b = false → exec (.requestFrame b part) s = .next (refuseFrame u (byteAt b 3) (byteAt b 4) stBadParam)) ∧
        (reservedOk b = true →
          (∀ x, repeatOf u b = some x → exec (.requestFrame b part) s = .next (answerRepeat u x) ∧
            (∀ r, x.reply = some r → answerRepeat u x = enqueueReply
              (u.updPort fun p => { p with replayN := satInc 16 p.replayN }) { r with own := false })) ∧
          (repeatOf u b = none →
            (opcodeDefined (byteAt b 4) = false →
              exec (.requestFrame b part) s = .next (refuseFrame u (byteAt b 3) (byteAt b 4) stBadOpcode)) ∧
            (opcodeDefined (byteAt b 4) = true → lowRate u = true → (servedModes (byteAt b 4)).contains .m = false →
              exec (.requestFrame b part) s = .next (refuseFrame u (byteAt b 3) (byteAt b 4) stWrongMode)) ∧
            (opcodeDefined (byteAt b 4) = true → (lowRate u = true → (servedModes (byteAt b 4)).contains .m = true) →
              (authOk u b = false → exec (.requestFrame b part) s = .next (refuseFrame
                (u.updPort fun p => { p with authf := satInc 8 p.authf }) (byteAt b 3) (byteAt b 4) stAuthFail)) ∧
              (authOk u b = true → (8 ≤ u.port.outstanding.length → exec (.requestFrame b part) s = .next
                (refuseFrame u (byteAt b 3) (byteAt b 4) stBusyRetry)) ∧
                (u.port.outstanding.length < 8 → placesTaken u < replyPlaces →
                  exec (.requestFrame b part) s = .next (acceptFrame u b) ∧
                  (acceptFrame u b).port.outstanding = u.port.outstanding ++ [byteAt b 3] ∧
                  ∃ r, (acceptFrame u b).port.waiting = u.port.waiting ++ [r] ∧ r.opc = byteAt b 4)))))))

/-- Reply reads, rereads and blinks: a reply read to its end leaves the queue and is no longer outstanding, and what
was due after it happens; one that is cut short stays, an empty queue gives the null reply, a reread gives the last
reply again, the bytes leave msb first on one lane or on four, and attention blinks for unread events, after a busy
period where it falls into one. A request that passes the checks and finds no place for its reply is counted and
dropped, and one on which the original still works is answered by that reply (the model's reading, log entry 195)
(R289, R291, R293, R295, R296, R298, R300, R307). -/
def Obligations.ReplyReadsComplete : Prop :=
  ∀ (s u v : State) (n : Nat), u = beginFrame s →
    (portServes s = true →
      (s.port.replies = [] → exec (.replyRead n) s = .next (u.updPort (driveBytes (clockOut (nullPacket u) n)))) ∧
      (∀ (r : Reply) (rest : List Reply) (l : List Byte), s.port.replies = r :: rest → l = replyPacket r rest.length →
        v = u.updPort (driveBytes (clockOut l n)) →
        (n < l.length → exec (.replyRead n) s = .next v) ∧
        (l.length ≤ n → exec (.replyRead n) s = .next (replyGone (v.updPort fun p => { p with
          replies := rest, lastRead := l
          outstanding := if r.own then dropTag r.tag p.outstanding else p.outstanding })))) ∧
      (exec (.reread n) s = .next (u.updPort
        (driveBytes (clockOut (if s.port.lastRead = [] then nullPacket u else s.port.lastRead) n)))) ∧
      (s.sys.phase ≠ .dormant → s.port.hcfg.getLsbD 1 = true → 0 < unreadCount s →
        (s.port.waiting = [] → exec .attentionBlink s = .next (s.updPort fun p => { p with blinks := p.blinks + 1 })) ∧
        (s.port.waiting ≠ [] → exec .attentionBlink s = .next (s.updPort fun p => { p with blinkDue := true }) ∧
          ∀ r, s.port.waiting = [r] → s.port.blinkDue = true → (takeOldest s).port.blinks = s.port.blinks + 1)) ∧
      (∀ b : List Byte, byteAt b 0 = 0xB7 → lengthOk u b false = true → crc32c (frameBody b) = frameCrc b →
        reservedOk b = true →
        (repeatOf u b = none → opcodeDefined (byteAt b 4) = true →
          (lowRate u = true → (servedModes (byteAt b 4)).contains .m = true) → authOk u b = true →
          u.port.outstanding.length < 8 → replyPlaces ≤ placesTaken u →
          exec (.requestFrame b false) s = .next (dropReply u)) ∧
        (∀ x, repeatOf u b = some x → x.reply = none → exec (.requestFrame b false) s = .next u))) ∧
    (portServes s = false → ∀ (b : List Byte) (part : Bool) (i : Instr),
      i ∈ [.replyRead n, .reread n, .requestFrame b part, .attentionBlink] → exec i s = .next s) ∧
    (s.sys.due = .none → replyGone s = s) ∧
    (s.sys.due ≠ .none → s.sys.dueLeft ≤ 1 → replyGone s = settleDue s) ∧
    (s.sys.due ≠ .none → 1 < s.sys.dueLeft →
      replyGone s = { s with sys := { s.sys with dueLeft := s.sys.dueLeft - 1 } }) ∧
    (∀ (p : HostPort) (l : List Byte), (driveBytes l p).driven = l ∧ (driveBytes l p).wire = l.flatMap (byteLanes p.lanesQuad)) ∧
    (∀ b : Byte, byteLanes true b = [⟨0xF, b.extractLsb' 4 4⟩, ⟨0xF, b.extractLsb' 0 4⟩] ∧ (byteLanes false b).length = 8 ∧
      ∀ k (h : k < (byteLanes false b).length), ((byteLanes false b)[k]).on = 2 ∧
        ((byteLanes false b)[k]).level = if b.getLsbD (7 - k) then 2 else 0)

/-! ### Epoch boundaries -/

/-- An epoch boundary of a running device closes the epoch and runs the next one, and 1 ms after a reply was due at
the latest what follows it happens; the events of the epoch that ends take consecutive sequence numbers in their
order, and are counted as lost where 1 023 are held; every boundary counts the epoch, and while the sequencer recovers
the coordinator commits nothing, the events wait for the verified epoch, and only the references that a castling
misses are counted (R22, R31, R37, R40, R335, R336). -/
def Obligations.EpochBoundaries : Prop :=
  ∀ (s : State) (w : EpochWords), epochsRun s = true →
    (s.sys.due = .none → exec (.epochBoundary w) s = .next
      (runBoundary w (epochNs s) { s with sys := { s.sys with dueNs := 0 } })) ∧
    (s.sys.due ≠ .none → s.sys.dueNs + epochNs s < 1000000 → exec (.epochBoundary w) s = .next
      (runBoundary w (epochNs s) { s with sys := { s.sys with dueNs := s.sys.dueNs + epochNs s } })) ∧
    (s.sys.due ≠ .none → 1000000 ≤ s.sys.dueNs + epochNs s → exec (.epochBoundary w) s = .next
      (settleDue { s with sys := { s.sys with dueNs := 0 } })) ∧
    (openEpoch s).sys.epoch = s.sys.epoch + 1 ∧
    (s.sys.recovering = true → commitAll s = (List.finRange 4).foldl castleWait s ∧
      ((∀ g : Fin 4, (s.grp[g]).castle = none ∧ (s.grp[g]).owner ≠ none) → commitAll s = s)) ∧
    (s.sys.recovering = true → flushEvents s = s) ∧
    (s.sys.recovering = false → s.evq.lostSince = 0 → s.evq.queue.length + s.evq.bootPend.length + s.evq.pend.length ≤ evqRoom →
      (flushEvents s).evq.pend = [] ∧ (flushEvents s).evq.bootPend = [] ∧
      (flushEvents s).evq.queue = s.evq.queue ++ (s.evq.bootPend ++ s.evq.pend).mapIdx fun k d =>
        { seq := if k = 0 then s.sticky.evSeq else (s.sticky.evSeq + k) % 2 ^ 32, code := d.code
          len := d.payload.length, payload := d.payload, tbase := s.sys.tbase, read := false }) ∧
    (∀ d : EvDraft, s.evq.queue.length = evqRoom → (commitEvent s d).evq.queue = s.evq.queue ∧
      (commitEvent s d).evq.lostTotal = satInc 16 s.evq.lostTotal ∧
      (commitEvent s d).evq.lostSince = s.evq.lostSince + 1)

/-! ### Rack bus -/

/-- The controller: a write of CAN_CTL switches it on and off, CAN_TXADD requests the buffers that it names,
CAN_TXCANCEL removes a pending buffer that is not in transmission and marks one that is, CAN_RXACK releases elements;
joining, bus errors, lost arbitration and the recovery from bus-off move the error state and the buffers. When a frame
starts is a free value (log entry 24), as is whether a release falls into a burst that reads the FIFO (log entry 227)
(R342 to R346, R348 to R351, R378). -/
def Obligations.CanControllerCompletes : Prop :=
  ∀ (s : State) (v : Word),
    (∀ (i : Instr) (t : State), i = .canEnableWrite v → Served i s → s.sys.mode = .configure ∨ s.sys.mode = .idle ∨ s.sys.mode = .service →
      bits v 1 2 ≠ 3 → t = { taken i s with can := { s.can with ctl := maskWrite 0x7 s.can.ctl v } } →
      (v.getLsbD 0 = canOn s → exec i s = .next (replied i s t stOk [])) ∧
      (v.getLsbD 0 = true → canOn s = false → s.sys.running = true → exec i s = .next (replied i s (canStart t) stOk [])) ∧
      (v.getLsbD 0 = false → canOn s = true → exec i s = .next (replied i s (canStop t) stOk []))) ∧
    (∀ i, i = Instr.canTxaddWrite v → Served i s → (v.truncate 16 : Mask) ≠ 0 → canOn s = true →
      (∀ b : Fin 16, v.getLsbD b.val = true → heldBuffer s b = false) →
      exec i s = .next (replied i s ((bitList (v.truncate 16 : Mask)).foldl requestBuffer (markStarted (taken i s))) stOk [])) ∧
    (∀ i, i = Instr.canTxcancelWrite v → Served i s →
      exec i s = .next (replied i s ((bitList (v.truncate 16 : Mask)).foldl cancelBuffer (markStarted (taken i s))) stOk [])) ∧
    ((s.can.inTx ≠ none ∨ topBuffer s = none ∨ canSends s = false → markStarted s = s) ∧
      (∀ b, s.can.inTx = none → topBuffer s = some b → canSends s = true →
        ∃ d, ((markStarted s).can.inTx = none ∨ (markStarted s).can.inTx = some b) ∧
          markStarted s = { (drawFree s).2 with can := { (drawFree s).2.can with inTx := d } })) ∧
    (∀ b : Fin 16, (s.can.tx[b]).pend = true →
      (s.can.inTx ≠ some b → cancelBuffer s b = failBuffer s b) ∧
      (s.can.inTx = some b → cancelBuffer s b = s.updTx b fun x => { x with cancel := true }) ∧
      ((s.can.tx[b]).cancel = true → (s.can.tx[b]).next = [] → frameFails s b = failBuffer s b) ∧
      ((s.can.tx[b]).cancel = false → elemOneShot (s.can.tx[b]).elem = false → (s.can.tx[b]).next = [] → frameFails s b = s)) ∧
    (∀ (f : Fin 2) (i : Instr) (t : State), i = .canRxackWrite f v → Served i s → 1 ≤ bits v 0 6 →
      (s.can.rxf[f]).late + bits v 0 6 ≤ (s.can.rxf[f]).fill → t = taken i s →
      (readsFifo s f = false → exec i s = .next (replied i s (t.updFifo f fun x =>
        { x with get := (x.get + bits v 0 6) % 32, fill := x.fill - bits v 0 6 }) stOk [])) ∧
      (readsFifo s f = true →
        exec i s = .next (replied i s ((drawFree t).2.updFifo f fun x => { x with late := x.late + bits v 0 6 }) stOk []) ∨
        ((s.can.rxf[f]).late = 0 ∧ exec i s = .next (replied i s ((drawFree t).2.updFifo f fun x =>
          { x with get := (x.get + bits v 0 6) % 32, fill := x.fill - bits v 0 6 }) stOk [])))) ∧
    (canOn s = true → s.can.est ≠ 2 → exec .canBusJoin s = .next { s with can := { s.can with joined := true } }) ∧
    (∀ ms : Nat, s.can.est = 2 → canOn s = true →
      128 * 11 * nominalBit s < (ms + 1) * 80000 → exec (.canRecovered ms) s = .next (queueEvent { s with can := { s.can with
      est := 0, tecN := 0, recN := 0, recov := false, joined := true } } 0x0803 (p4 ms))) ∧
    (∀ (k : CanErr) (t : State), canActive s = true →
      (exec (.canBusError k none) s = .next (confine (countError k (lostArbitration s)))) ∧
      (∀ b : Fin 16, mayComplete s b = true → t = frameFails (delayOnError k s (s.can.tx[b]).elem) b →
        exec (.canBusError k (some b)) s = .next (confine (countError k { t with can := { t.can with inTx := none } }))) ∧
      (∀ b : Fin 16, mayComplete s b = false → exec (.canBusError k (some b)) s = .next (confine (countError k s)))) ∧
    (∀ (b : Fin 16) (t : State), s.can.inTx = some b → (s.can.tx[b]).pend = true → t = frameFails s b →
      lostArbitration s = { t with can := { t.can with inTx := none } })

/-- The traffic: a received data frame ends what this device had begun to send, serves the device messages and then
the first filter that matches, which stores it in its FIFO or counts it as lost; the frame sent is the one known to be
on the bus or the pending one of highest rank, and is done; in internal loop-back it goes to the device's own receive
path instead; the time service sends, follows, loses its reference and takes its role, and the status message is
offered. MPREV of a message whose predecessor has not been sent (log entry 81) and the byte of CAN_TIME_LOST where no
master was followed (log entry 226) are free values (R339, R345, R347, R348, R353 to R356). -/
def Obligations.CanTrafficCompletes : Prop :=
  ∀ (s t : State) (f : CanFrame),
    (canActive s = true → canMode s ≠ 2 → t = receiveSuccess (lostArbitration s) →
      (f.rtr = false → exec (.canFrameReceived f) s = .next (filterFrame (deviceMessage f t) f)) ∧
      (f.rtr = true → exec (.canFrameReceived f) s = .next { t with can := { t.can with rtrn := satInc 8 t.can.rtrn } })) ∧
    (canActive s = false ∨ canMode s = 2 → exec (.canFrameReceived f) s = .next s) ∧
    (∀ (k : Fin 64) (q : Fin 2), filterMatches s f k = true → (∀ j : Fin 64, j < k → filterMatches s f j = false) →
      bits s.can.fltmsk[k] 30 2 = q.val →
      ((s.can.rxf[q]).fill < 32 → (filterFrame s f).mem
          = memWriteList s.mem (rxElement q (((s.can.rxf[q]).get + (s.can.rxf[q]).fill) % 32)) (rxBytes s f k) ∧
        ((filterFrame s f).can.rxf[q]).fill = (s.can.rxf[q]).fill + 1) ∧
      (32 ≤ (s.can.rxf[q]).fill → (filterFrame s f).mem = s.mem ∧
        ((filterFrame s f).can.rxf[q]).lost = satInc 8 (s.can.rxf[q]).lost ∧ ((filterFrame s f).can.rxf[q]).ovr = true)) ∧
    (∀ (b : Fin 16) (sof : Nat), canSends s = true → canMode s ≠ 2 → mayComplete s b = true →
      ∃ x, exec (.canFrameSent b sof) s = .next x ∧ x.can.done.getLsbD b.val = true ∧ x.can.inTx = none ∧
        x.can.tecN = s.can.tecN - 1 ∧ x.can.sentFrame = some (sentOf (s.can.tx[b]).elem sof s.can.est) ∧
        ((s.can.tx[b]).next = [] → (x.can.tx[b]).pend = false)) ∧
    (∀ (b : Fin 16) (sof : Nat), canSends s = true → canMode s = 2 → mayComplete s b = true → b ≠ 13 →
      measuresDelay s (s.can.tx[b]).elem = false → (s.can.tx[b]).next = [] →
      t = (s.updTx b fun _ => TxBuf.empty) →
      exec (.canFrameSent b sof) s = .next (receivePath (sentOf (s.can.tx[b]).elem sof s.can.est)
        (confine { t with can := { t.can with
          done := putBit s.can.done b.val true, doneNew := putBit s.can.doneNew b.val true, tecN := s.can.tecN - 1
          sentNew := (b, (s.can.tx[b]).elem) :: s.can.sentNew, inTx := none
          sentFrame := some (sentOf (s.can.tx[b]).elem sof s.can.est) } }))) ∧
    (∀ b : Fin 16, s.can.inTx = none → mayComplete s b = true → ∀ a : Fin 16, (s.can.tx[a]).pend = true →
      elemRank (s.can.tx[b]).elem ≤ elemRank (s.can.tx[a]).elem) ∧
    (timeService s = true → s.can.role = true → s.can.sendAt < periodsPassed s →
      ∃ (m : Int) (u : State), (s.can.newMaster = true → m = -1 ∧ u = s) ∧
        (∀ l : Nat × Nat, s.can.newMaster = false → s.can.prevM = some (l.1, l.2) → (l.1 + 1) % 256 = s.can.seqOut → m = l.2 ∧ u = s) ∧
        (u = s ∨ u = (drawFree s).2) ∧
        (t = { u with can := { u.can with
            seqOut := (s.can.seqOut + 1) % 256, newMaster := false, sendAt := periodsPassed s } } →
          exec .timeReferenceSend s = .next (offerMessage t 13 (messageElem t 0
            (p1 1 ++ p1 s.can.seqOut ++ nodeByte t ++ p1 0 ++ toLEInt 8 m))))) ∧
    (canActive s = true → timeService s = true → messageKind s f = some 0 → byteAt f.data 0 = 1 → s.can.role = false →
      t = keepMessage s →
      (s.can.master = none → exec (.timeReferenceMessage f) s = .next { t with can := { t.can with
        master := some (f.id.toNat % 2 ^ 11), mnode := f.id.toNat % 2 ^ 11 % 256
        latchL := some ((byteAt f.data 1).toNat, f.sof), refAt := s.sys.tbase, lostTold := false } }) ∧
      (∀ (n l : Nat) (u : State), s.can.master = some (f.id.toNat % 2 ^ 11) → s.can.latchL = some (n, l) →
        (n + 1) % 256 = (byteAt f.data 1).toNat → leNat (slice f.data 4 8) ≠ 2 ^ 64 - 1 →
        u = applyOffset { t with can := { t.can with latchL := some ((byteAt f.data 1).toNat, f.sof) } }
          ((leNat (slice f.data 4 8) : Int) - l) →
        exec (.timeReferenceMessage f) s = .next { u with can := { u.can with refAt := u.sys.tbase, lostTold := false } })) ∧
    (timeService s = true → s.can.role = false → s.can.lostTold = false → s.can.refAt + 4 * timePeriod s ≤ s.sys.tbase →
      ∃ (b : Int) (u : State), (∀ id, s.can.master = some id → b = (id % 16 : Nat) ∧ u = s) ∧ (u = s ∨ u = (drawFree s).2) ∧
        exec .canTimeLost s = .next (queueEvent { u with can := { u.can with
          lock := false, lockRun := 0, master := none, latchL := none, lostTold := true } } 0x0805 (toLEInt 1 b))) ∧
    (timeService s = true → s.can.role = false → s.can.demoted = true ∨ bits s.can.tcfg 24 2 = 2 →
      s.can.refAt + (4 + nodeId s) * timePeriod s ≤ s.sys.tbase → exec .canTimeRole s = .next (queueEvent { s with can := { s.can with
        role := true, master := none, latchL := none, lock := false, lockRun := 0, prevM := none, newMaster := true,
        sendAt := periodsPassed s } } 0x0806 (p1 1))) ∧
    (statusService s = true → s.can.statusSent ≠ statusPayload s ∨ s.can.statusAt + 100000000 ≤ s.sys.tbase →
      exec .statusMessage s = .next (offerMessage { s with can := { s.can with
        statusSent := statusPayload s, statusAt := s.sys.tbase } } 14 (messageElem s 1 (statusPayload s))))

/-! ### DMA -/

/-- The DMA channels: a valid shadow set is taken by an idle channel, ABORT and a cleared EN end the active list, a
burst serves the channel that arbitration names, a descriptor that has ended writes its STATUS back and moves the list
on; a bad descriptor moves nothing and ends with RESULT 6, an address from which none can be fetched ends the list,
with the last descriptor run in ADESC; and elements that the host has released during a burst leave the FIFO at its
end, in place of the engine's own release (R369 to R373, R378, R380, R382, R385). -/
def Obligations.DmaCompletes : Prop :=
  ∀ (s t : State) (n : Fin 8),
    (∀ (v : Word) (i : Instr), i = .dmaShvWrite n v → Served i s → exec i s = .next (replied i s
      (takeShadow ((taken i s).updDma n fun d => { d with shv := v.getLsbD 0 }) n) stOk [])) ∧
    ((s.dma[n]).shv = true → (s.dma[n]).ctl.getLsbD 0 = true → (s.dma[n]).active = false →
      ((takeShadow s n).dma[n]).active = true ∧ ((takeShadow s n).dma[n]).adesc = (s.dma[n]).sdesc ∧
      ((takeShadow s n).dma[n]).areq = (s.dma[n]).sreq ∧ ((takeShadow s n).dma[n]).shv = false) ∧
    (∀ (i : Instr) (f : FieldWrite) (v : Word), i = .dmaAbort n ∨ i = .dmaDisable n → fieldWriteOf i = some f →
      v = written i f s → Served i s →
      (i = .dmaAbort n → v.getLsbD 1 = true) ∧ (i = .dmaDisable n → v.getLsbD 0 = false) ∧
      exec i s = .next (replied i s
        (takeShadow (stopList ((taken i s).updDma n fun d => { d with ctl := maskWrite 0x31 d.ctl v }) n) n) stOk [])) ∧
    ((s.dma[n]).active = true → (s.dma[n]).shv = false → ((stopList s n).dma[n]).active = false ∧
      ((stopList s n).dma[n]).desc = none) ∧
    (dmaRuns s = true →
      (nextChannel s = some n → exec .dmaBurst s = .next (serveChannel s n)) ∧
      (nextChannel s = none → exec .dmaBurst s = .next s)) ∧
    (∀ x : List Byte, (s.dma[n]).desc = none → descAddrOk (s.dma[n]).adesc.toNat = true →
      x = memReadList s.mem (s.dma[n]).adesc.toNat 32 →
      dsLen x = 0 ∨ 4194304 < dsLen x ∨ (slice x 28 4).any (· != 0) = true ∨ 8 ≤ leNat (slice x 12 4) ∨
        (dsCtl x 2 = true ∧ (reqSrc s.dma[n] = 0 ∨ dsLen x % (if 17 ≤ reqSrc s.dma[n] ∧ reqSrc s.dma[n] ≤ 18 then 80 else 32) ≠ 0)) →
      (serveChannel s n).mem = s.mem ∧ ((serveChannel s n).dma[n]).result = 6 ∧ ((serveChannel s n).dma[n]).moved = 0) ∧
    ((s.dma[n]).desc = none → descAddrOk (s.dma[n]).adesc.toNat = false →
      serveChannel s n = unfetchable { s with dmaLast := n } n ∧ ((s.dma[n]).shv = false →
        ((unfetchable s n).dma[n]).adesc = (s.dma[n]).ran ∧ ((unfetchable s n).dma[n]).lbad = (s.dma[n]).adesc ∧
        ((unfetchable s n).dma[n]).active = false)) ∧
    (∀ (x : List Byte) (f : Fin 2), t = moveBytes s n x (memReadList s.mem (rxElement f (s.can.rxf[f]).get) 80) 80 →
      (0 < (t.can.rxf[f]).late → fifoBurst s n x f = releaseLate t f ∧
        ((releaseLate t f).can.rxf[f]).fill = (t.can.rxf[f]).fill - (t.can.rxf[f]).late ∧
        ((releaseLate t f).can.rxf[f]).late = 0) ∧
      ((t.can.rxf[f]).late = 0 → ((fifoBurst s n x f).can.rxf[f]).fill = (t.can.rxf[f]).fill - 1)) ∧
    (∀ x : List Byte, dmaRuns s = true → (s.dma[n]).desc = some x → (s.dma[n]).active = true → (s.dma[n]).result ≠ 0 →
      t = countDescriptor (writeStatus s n (s.dma[n]).result) n (s.dma[n]).result →
      (dsCtl x 0 = true → exec (.dmaDescriptorDone n) s = .next (endList (t.updDma n fun d => d.flagEvt 0) n)) ∧
      (dsCtl x 0 = false → exec (.dmaDescriptorDone n) s = .next (t.updDma n fun d => { d with
        adesc := BitVec.ofNat 32 (dsNext x), desc := none, moved := 0, result := 0 })))

/-! ### Memory -/

/-- ECC errors and the NVM refresh: a corrected word counts for the device and its row, an uncorrectable word in the
host window reads as zero with its event, and in a log ring marks the record; a copied row takes its spare; a refresh
starts, counts its pages and ends after the last (R362, R364, R367, R368). -/
def Obligations.MemoryEventsComplete : Prop :=
  ∀ (s u : State) (a : Word) (w : Nat), w = a.toNat / 8 * 8 →
    (sramRead s = true → inSram w = true → exec (.sramEccError a false) s = .next (countRow (queueRated
      { s with isl := { s.isl with corr := satInc 16 s.isl.corr } } 0x0901 0 1000000000 (p4u w ++ p4 (satInc 16 s.isl.corr)))
      (rowOf w))) ∧
    (sramRead s = true → inSram w = true → u = dmaMayMeet { s with isl := { s.isl with
        uncorr := satInc 8 s.isl.uncorr, eccaddr := BitVec.ofNat 32 w } } w →
      exec (.sramEccError a true) s = .next (startCopy (damageWord u w) (rowOf w))) ∧
    (regionOf w = .window → Memory.wf s.mem = true → (∀ k, k < 8 → memRead (damageWord s w).mem (w + k) = 0) ∧
      ∀ b, (b < w ∨ w + 8 ≤ b) → memRead (damageWord s w).mem b = memRead s.mem b) ∧
    (∀ (c : Fin 16) (o : Nat) (r : LogRec), regionOf w = .ring c o → recordAt s.ch[c] (o / 32) = some r →
      damageWord s w = queueEvent (s.updCh c fun ch => { ch with
        ring := ch.ring.map fun x => if x.seq = r.seq then damageRecord x (o % 32) else x }) 0x0907 (p1 c.val ++ p4u r.seq)) ∧
    (∀ (row : Fin 2048) (k : Nat), s.isl.copying.find? (fun r => r.1 == row.val) = some (row.val, k) → sramRead s = true →
      exec (.rowRepairDone row) s = .next (queueEvent { s with isl := { s.isl with
        copying := s.isl.copying.filter fun x => x.1 != row.val
        rows := s.isl.rows ++ [{ row := row.val, spare := k, fused := false, run := true }] } } 0x0908 (p4 k))) ∧
    (refreshRuns s = true →
      (s.isl.refreshing = false → 8760 * (s.nvm.life.refreshes + 1) ≤ s.nvm.life.hours → exec .nvmRefreshDue s = .next
        (queueEvent { s with isl := { s.isl with refreshing := true, pagen := 0, pageBad := 0, pageOp := !nvmBusy s
                                                 pageAt := s.sys.tbase } } 0x0905 (p1 0 ++ p4 0))) ∧
      (∀ x : Nat, s.isl.refreshing = true →
        s.isl.pageOp = true ∨ (nvmBusy s = false ∧ s.isl.pageAt ≤ s.sys.tbase) →
        x = (if s.isl.pageOp then s.isl.pageAt else max s.isl.pageAt (s.sys.tbase - pageTime)) + pageSpacing →
        (s.isl.pagen + 1 < refreshTotal → exec (.nvmRefreshPage true) s = .next { s with isl := { s.isl with
          pagen := s.isl.pagen + 1, pageOp := false, pageAt := x } }) ∧
        (refreshTotal ≤ s.isl.pagen + 1 → exec (.nvmRefreshPage true) s = .next (queueEvent { s with
          isl := { s.isl with refreshing := false, pagen := 0, pageBad := 0, pageOp := false, pageAt := x }
          nvm := { s.nvm with life := { s.nvm.life with refreshes := satInc 32 s.nvm.life.refreshes } } } 0x0905
          (p1 1 ++ p4 (refreshTotal - s.isl.pageBad : Nat)))) ∧
        (∀ y : State, s.isl.pagen + 1 < refreshTotal → y = queueEvent s 0x0906 (p1 3 ++ p1 2) →
          (4 ≤ freePages { y with isl := { y.isl with pageOp := true } } → exec (.nvmRefreshPage false) s = .next { y with
            nvm := { y.nvm with reloc := y.nvm.reloc + 1 }
            isl := { y.isl with pagen := s.isl.pagen + 1, pageOp := false, pageAt := x } }) ∧
          (freePages { y with isl := { y.isl with pageOp := true } } < 4 → exec (.nvmRefreshPage false) s = .next { y with
            isl := { y.isl with pagen := s.isl.pagen + 1, pageBad := s.isl.pageBad + 1, pageOp := false, pageAt := x } }))))
end

