-- ==== Sys2Proof/Laws/Memory.lean ====
section
/-! SUPPORT. The SRAM cells: every operation keeps the canonical form, a read after a write gives the byte written, and a
write leaves every other address alone. -/
namespace Sys2Proof.Machine

theorem memWfFrom_mono {m : List Host.Cell} {a b : Nat} (h : b ≤ a) (w : memWfFrom a m = true) : memWfFrom b m = true := by
  cases m with
  | nil => rfl
  | cons c r =>
    simp only [memWfFrom, Bool.and_eq_true, decide_eq_true_eq] at w ⊢
    exact ⟨⟨Nat.le_trans h w.1.1, w.1.2⟩, w.2⟩

theorem memWrite_wfFrom {m : List Host.Cell} {n a : Nat} {b : Byte} (h : n ≤ a) (w : memWfFrom n m = true) :
    memWfFrom n (memWrite m a b) = true := by
  induction m generalizing n with
  | nil =>
    unfold memWrite
    split <;> simp_all [memWfFrom]
  | cons c r ih =>
    obtain ⟨k, d⟩ := c
    simp only [memWfFrom, Bool.and_eq_true, decide_eq_true_eq] at w
    unfold memWrite
    by_cases h1 : a < k
    · by_cases h2 : b = memDefault
      · simp [h1, h2, memWfFrom, w]
      · have h3 : a + 1 ≤ k := h1
        simp [h1, h2, memWfFrom, w, h, h3]
    · by_cases h2 : a = k
      · by_cases h3 : b = memDefault
        · simp only [h2, Nat.lt_irrefl, if_false, h3, if_true]
          exact memWfFrom_mono (Nat.le_succ_of_le w.1.1) w.2
        · subst h2
          simp [h3, memWfFrom, w, h]
      · have h4 : k + 1 ≤ a := by omega
        simp [h1, h2, memWfFrom, w, ih h4 w.2]

theorem memWrite_wf {m : List Host.Cell} {a : Nat} {b : Byte} (w : Memory.wf m = true) : Memory.wf (memWrite m a b) = true :=
  memWrite_wfFrom (Nat.zero_le a) w

theorem memWriteList_wf {l : List Byte} {m : List Host.Cell} {a : Nat} (w : Memory.wf m = true) :
    Memory.wf (memWriteList m a l) = true := by
  induction l generalizing m a with
  | nil => exact w
  | cons b r ih => exact ih (memWrite_wf w)

theorem memRead_below {m : List Host.Cell} {n a : Nat} (w : memWfFrom n m = true) (h : a < n) : memRead m a = memDefault := by
  cases m with
  | nil => rfl
  | cons c r =>
    obtain ⟨k, d⟩ := c
    simp only [memWfFrom, Bool.and_eq_true, decide_eq_true_eq] at w
    have h1 : a ≠ k := by omega
    have h2 : a < k := by omega
    simp [memRead, h1, h2]

theorem memRead_memWrite_same {m : List Host.Cell} {n a : Nat} {b : Byte} (w : memWfFrom n m = true) :
    memRead (memWrite m a b) a = b := by
  induction m generalizing n with
  | nil =>
    unfold memWrite
    split <;> simp_all [memRead]
  | cons c r ih =>
    obtain ⟨k, d⟩ := c
    simp only [memWfFrom, Bool.and_eq_true, decide_eq_true_eq] at w
    unfold memWrite
    by_cases h1 : a < k
    · have h2 : a ≠ k := by omega
      by_cases h3 : b = memDefault <;> simp [h1, h2, h3, memRead]
    · by_cases h2 : a = k
      · subst h2
        by_cases h3 : b = memDefault
        · simp only [Nat.lt_irrefl, if_false, h3, if_true]
          exact memRead_below w.2 (Nat.lt_succ_self _)
        · simp [h3, memRead]
      · simp [h1, h2, memRead, ih w.2]

theorem memRead_memWrite_other {m : List Host.Cell} {n a x : Nat} {b : Byte} (w : memWfFrom n m = true) (h : x ≠ a) :
    memRead (memWrite m a b) x = memRead m x := by
  induction m generalizing n with
  | nil =>
    unfold memWrite
    split <;> simp [memRead, h]
  | cons c r ih =>
    obtain ⟨k, d⟩ := c
    simp only [memWfFrom, Bool.and_eq_true, decide_eq_true_eq] at w
    unfold memWrite
    by_cases h1 : a < k
    · by_cases h3 : b = memDefault
      · simp [h1, h3]
      · by_cases h4 : x < a
        · have h5 : x ≠ k := by omega
          have h6 : x < k := by omega
          simp [h1, h3, memRead, h, h4, h5, h6]
        · simp [h1, h3, memRead, h, h4]
    · by_cases h2 : a = k
      · subst h2
        by_cases h3 : b = memDefault
        · by_cases h4 : x < a
          · simp [h3, memRead, h, h4, memRead_below w.2 (show x < a + 1 by omega)]
          · simp [h3, memRead, h, h4]
        · simp [h3, memRead, h]
      · simp [h1, h2, memRead, ih w.2]

end Sys2Proof.Machine
end

