-- ==== Sys2Proof/Laws/Keeps.lean ====
section
/-! SUPPORT. The relation `Safety.Keeps`: reflexive, transitive, and kept by an update that leaves the queues, the memory and
the fuses alone. -/
namespace Sys2Proof.Safety

open Sys2Proof.Machine

theorem Keeps.refl (s : State) : Keeps s s := ⟨rfl, id, id, id, List.prefix_refl _, id⟩

theorem Keeps.trans {s t u : State} (h : Keeps s t) (k : Keeps t u) : Keeps s u :=
  ⟨k.pending.trans h.pending, fun x => k.memory (h.memory x), fun x => k.replies (h.replies x),
   fun x => k.events (h.events x), h.fuses.trans k.fuses, fun x => k.fuseRoom (h.fuseRoom x)⟩

/-- An update of the other parts of the state. -/
theorem Keeps.upd {s u : State} (h : Keeps s u) {sys ch leg grp ce staged recs evq port sticky nvm safe therm link meas can
    dma dmaLast isl aux tap} (hp : port.replies = u.port.replies) (he : evq.queue = u.evq.queue)
    (hf : nvm.fuses = u.nvm.fuses) :
    Keeps s ⟨sys, ch, leg, grp, ce, staged, recs, evq, port, sticky, nvm, safe, therm, link, meas, can, dma, dmaLast, isl,
      aux, tap, u.mem, u.pending⟩ :=
  ⟨h.pending, h.memory, fun x => by rw [hp]; exact h.replies x, fun x => by rw [he]; exact h.events x,
   by rw [hf]; exact h.fuses, fun x => by rw [hf]; exact h.fuseRoom x⟩

/-- The same with bytes of the SRAM written. -/
theorem Keeps.updMem {s u : State} (h : Keeps s u) {a l sys ch leg grp ce staged recs evq port sticky nvm safe therm link
    meas can dma dmaLast isl aux tap} (hp : port.replies = u.port.replies) (he : evq.queue = u.evq.queue)
    (hf : nvm.fuses = u.nvm.fuses) :
    Keeps s ⟨sys, ch, leg, grp, ce, staged, recs, evq, port, sticky, nvm, safe, therm, link, meas, can, dma, dmaLast, isl,
      aux, tap, memWriteList u.mem a l, u.pending⟩ :=
  ⟨h.pending, fun x => memWriteList_wf (h.memory x), fun x => by rw [hp]; exact h.replies x,
   fun x => by rw [he]; exact h.events x, by rw [hf]; exact h.fuses, fun x => by rw [hf]; exact h.fuseRoom x⟩

/-- The same with the host port reset. -/
theorem Keeps.updPort {s u : State} (h : Keeps s u) {sys ch leg grp ce staged recs evq port sticky nvm safe therm link
    meas can dma dmaLast isl aux tap} (hp : port.replies = []) (he : evq.queue = u.evq.queue)
    (hf : nvm.fuses = u.nvm.fuses) :
    Keeps s ⟨sys, ch, leg, grp, ce, staged, recs, evq, port, sticky, nvm, safe, therm, link, meas, can, dma, dmaLast, isl,
      aux, tap, u.mem, u.pending⟩ :=
  ⟨h.pending, h.memory, fun _ => by rw [hp]; exact Nat.zero_le _,
   fun x => by rw [he]; exact h.events x, by rw [hf]; exact h.fuses, fun x => by rw [hf]; exact h.fuseRoom x⟩

/-- The same with an event queue that is not longer. -/
theorem Keeps.updQueue {s u : State} (h : Keeps s u) {sys ch leg grp ce staged recs evq port sticky nvm safe therm link
    meas can dma dmaLast isl aux tap} (hp : port.replies = u.port.replies) (he : evq.queue.length ≤ u.evq.queue.length)
    (hf : nvm.fuses = u.nvm.fuses) :
    Keeps s ⟨sys, ch, leg, grp, ce, staged, recs, evq, port, sticky, nvm, safe, therm, link, meas, can, dma, dmaLast, isl,
      aux, tap, u.mem, u.pending⟩ :=
  ⟨h.pending, h.memory, fun x => by rw [hp]; exact h.replies x,
   fun x => Nat.le_trans he (h.events x), by rw [hf]; exact h.fuses, fun x => by rw [hf]; exact h.fuseRoom x⟩

theorem Keeps.ite {s a b : State} {c : Prop} [Decidable c] (ha : Keeps s a) (hb : Keeps s b) :
    Keeps s (if c then a else b) := by split <;> assumption

theorem Keeps.iteFst {α : Type} {s : State} {a b : State × α} {c : Prop} [Decidable c] (ha : Keeps s a.1)
    (hb : Keeps s b.1) : Keeps s (if c then a else b).1 := by split <;> assumption

theorem Keeps.iteSnd {α : Type} {s : State} {a b : α × State} {c : Prop} [Decidable c] (ha : Keeps s a.2)
    (hb : Keeps s b.2) : Keeps s (if c then a else b).2 := by split <;> assumption

theorem Keeps.foldl {α : Type} {s a : State} {f : State → α → State} {l : List α} (ha : Keeps s a)
    (hf : ∀ t x, Keeps s t → Keeps s (f t x)) : Keeps s (l.foldl f a) := by
  induction l generalizing a with
  | nil => exact ha
  | cons x r ih => exact ih (hf a x ha)

/-- The same for a fold that carries something beside the state. -/
theorem Keeps.foldlFst {α β : Type} {s : State} {a : State × β} {f : State × β → α → State × β} {l : List α}
    (ha : Keeps s a.1) (hf : ∀ t x, Keeps s t.1 → Keeps s (f t x).1) : Keeps s (l.foldl f a).1 := by
  induction l generalizing a with
  | nil => exact ha
  | cons x r ih => exact ih (hf a x ha)

theorem Keeps.inv {s t : State} (h : Keeps s t) (i : Inv s) : Inv t :=
  ⟨h.memory i.memory, h.replies i.replies, h.events i.events, h.fuseRoom i.fuses⟩

end Sys2Proof.Safety
end

