-- ==== Sys2Proof/Laws/KeepsOps.lean ====
section
/-! SUPPORT. What the operations of Machine/Ops.lean keep. -/
namespace Sys2Proof.Safety

open Sys2Proof.Machine

set_option simprocs false

theorem updCh_keeps {z : State} {s : State} {c : Fin 16} {f : Chan → Chan} (hz : Keeps z s) : Keeps z
    (State.updCh s c f) := by
  unfold State.updCh
  repeat' first
    | with_reducible assumption | split | dsimp only | with_reducible refine Keeps.upd ?_ rfl rfl rfl

theorem updLeg_keeps {z : State} {s : State} {l : Fin 32} {f : Leg → Leg} (hz : Keeps z s) : Keeps z
    (State.updLeg s l f) := by
  unfold State.updLeg
  repeat' first
    | with_reducible assumption | split | dsimp only | with_reducible refine Keeps.upd ?_ rfl rfl rfl

theorem updGrp_keeps {z : State} {s : State} {g : Fin 4} {f : Group → Group} (hz : Keeps z s) : Keeps z
    (State.updGrp s g f) := by
  unfold State.updGrp
  repeat' first
    | with_reducible assumption | split | dsimp only | with_reducible refine Keeps.upd ?_ rfl rfl rfl

theorem updCe_keeps {z : State} {s : State} {k : Fin 5} {f : Ce → Ce} (hz : Keeps z s) : Keeps z
    (State.updCe s k f) := by
  unfold State.updCe
  repeat' first
    | with_reducible assumption | split | dsimp only | with_reducible refine Keeps.upd ?_ rfl rfl rfl

theorem updProg_keeps {z : State} {s : State} {c : Fin 16} {f : Prog → Prog} (hz : Keeps z s) : Keeps z
    (State.updProg s c f) := by
  unfold State.updProg
  repeat' first
    | with_reducible assumption | with_reducible apply updCh_keeps | split | dsimp only
    | with_reducible refine Keeps.upd ?_ rfl rfl rfl

theorem updDma_keeps {z : State} {s : State} {n : Fin 8} {f : Dma → Dma} (hz : Keeps z s) : Keeps z
    (State.updDma s n f) := by
  unfold State.updDma
  repeat' first
    | with_reducible assumption | split | dsimp only | with_reducible refine Keeps.upd ?_ rfl rfl rfl

theorem takeShadow_keeps {z : State} {s : State} {n : Fin 8} (hz : Keeps z s) : Keeps z (takeShadow s n) := by
  unfold takeShadow
  repeat' first
    | with_reducible assumption | with_reducible apply updDma_keeps | with_reducible apply Keeps.ite | split
    | dsimp only | with_reducible refine Keeps.upd ?_ rfl rfl rfl

theorem commitEvent_keeps {o s : State} {d : EvDraft} (h : Keeps o s) : Keeps o (commitEvent s d) := by
  refine h.trans ?_
  unfold commitEvent
  split
  · rename_i h
    refine ⟨rfl, id, id, fun _ => ?_, List.prefix_refl _, id⟩
    simp only [List.length_append, List.length_singleton]
    exact h
  · exact Keeps.upd (Keeps.refl _) rfl rfl rfl

theorem queueEvent_keeps {z : State} {s : State} {code : Nat} {payload : List Byte} (hz : Keeps z s) : Keeps z
    (queueEvent s code payload) := by
  unfold queueEvent
  repeat' first
    | with_reducible assumption | with_reducible apply commitEvent_keeps | with_reducible apply Keeps.ite | split
    | dsimp only | with_reducible refine Keeps.upd ?_ rfl rfl rfl

theorem queueOnce_keeps {z : State} {s : State} {code idx : Nat} {payload : List Byte} (hz : Keeps z s) : Keeps z
    (queueOnce s code idx payload) := by
  unfold queueOnce
  repeat' first
    | with_reducible assumption | with_reducible apply queueEvent_keeps | with_reducible apply Keeps.ite | split
    | dsimp only | with_reducible refine Keeps.upd ?_ rfl rfl rfl

theorem queueRated_keeps {z : State} {s : State} {code idx interval : Nat} {payload : List Byte}
    (hz : Keeps z s) : Keeps z (queueRated s code idx interval payload) := by
  unfold queueRated
  repeat' first
    | with_reducible assumption | with_reducible apply queueEvent_keeps | with_reducible apply Keeps.ite | split
    | dsimp only | with_reducible refine Keeps.upd ?_ rfl rfl rfl

theorem dropReply_keeps {z : State} {s : State} (hz : Keeps z s) : Keeps z (dropReply s) := by
  unfold dropReply
  repeat' first
    | with_reducible assumption | split | dsimp only | with_reducible refine Keeps.upd ?_ rfl rfl rfl

theorem enqueueReply_keeps {o s : State} {r : Reply} (h : Keeps o s) : Keeps o (enqueueReply s r) := by
  refine h.trans ?_
  unfold enqueueReply
  by_cases hb : (if r.own then s.port.replies.length else placesTaken s) < replyPlaces
  · rw [if_pos hb]
    refine ⟨rfl, id, fun _ => ?_, id, List.prefix_refl _, id⟩
    simp only [List.length_append, List.length_singleton]
    unfold placesTaken at hb
    split at hb <;> omega
  · rw [if_neg hb]
    exact Keeps.upd (Keeps.refl _) rfl rfl rfl

theorem reply_keeps {z : State} {s : State} {tag : ReqId} {opc status : Byte} {payload : List Byte}
    (hz : Keeps z s) : Keeps z (reply s tag opc status payload) := by
  unfold reply
  repeat' first
    | with_reducible assumption | with_reducible apply enqueueReply_keeps | with_reducible apply Keeps.ite | split
    | dsimp only | with_reducible refine Keeps.upd ?_ rfl rfl rfl

theorem refuseFrame_keeps {z : State} {s : State} {tag opc status : Byte} (hz : Keeps z s) : Keeps z
    (refuseFrame s tag opc status) := by
  unfold refuseFrame
  repeat' first
    | with_reducible assumption | with_reducible apply enqueueReply_keeps | split | dsimp only

theorem acceptUnder_keeps {z : State} {s : State} {t : Byte} {crc : Option Word} (hz : Keeps z s) : Keeps z
    (acceptUnder s t crc) := by
  unfold acceptUnder
  repeat' first
    | with_reducible assumption | with_reducible apply reply_keeps | split | dsimp only
    | with_reducible refine Keeps.upd ?_ rfl rfl rfl

theorem admitRow_keeps {z : State} {i : Instr} {s : State} (hz : Keeps z s) : Keeps z (admitRow i s) := by
  unfold admitRow
  repeat' first
    | with_reducible assumption | with_reducible apply acceptUnder_keeps | split | dsimp only

theorem takeOldest_keeps {z : State} {s : State} (hz : Keeps z s) : Keeps z (takeOldest s) := by
  unfold takeOldest
  repeat' first
    | with_reducible assumption | split | dsimp only | with_reducible refine Keeps.upd ?_ rfl rfl rfl

theorem takeRequest_keeps {z : State} {i : Instr} {s : State} (hz : Keeps z s) : Keeps z (takeRequest i s).2 := by
  unfold takeRequest
  repeat' first
    | with_reducible assumption | with_reducible apply admitRow_keeps | with_reducible apply takeOldest_keeps | split
    | dsimp only

theorem queueRow_keeps {z : State} {i : Instr} {s : State} (hz : Keeps z s) : Keeps z (queueRow i s) := by
  unfold queueRow
  repeat' first
    | with_reducible assumption | with_reducible apply dropReply_keeps | with_reducible apply refuseFrame_keeps
    | with_reducible apply admitRow_keeps | with_reducible apply Keeps.ite | split | dsimp only
    | with_reducible refine Keeps.upd ?_ rfl rfl rfl

theorem hostCommand_keeps {o : State} {i : Instr} {lenOk : Bool} {s : State}
    {body : Request → State → State × Completion} (h : Keeps o s) (hb : ∀ r t, Keeps o t → Keeps o (body r t).1) :
    Keeps o (hostCommand i lenOk s body) := by
  unfold hostCommand
  split
  · exact h
  · have ht := takeRequest_keeps (i := i) h
    dsimp only
    split
    · exact queueRow_keeps h
    · split
      · exact reply_keeps ht
      · split
        · exact reply_keeps ht
        · have hk := hb (takeRequest i s).1 (takeRequest i s).2 ht
          split
          · exact reply_keeps hk
          · exact hk

theorem replyOp_keeps {z : State} {s : State} {opc st : Byte} {p : List Byte} (hz : Keeps z s) : Keeps z
    (replyOp s opc st p) := by
  unfold replyOp
  repeat' first
    | with_reducible assumption | with_reducible apply reply_keeps | split | dsimp only
    | with_reducible refine Keeps.upd ?_ rfl rfl rfl

theorem makeDue_keeps {z : State} {s : State} {d : Due} (hz : Keeps z s) : Keeps z (makeDue s d) := by
  unfold makeDue
  repeat' first
    | with_reducible assumption | split | dsimp only | with_reducible refine Keeps.upd ?_ rfl rfl rfl

theorem stage_keeps {z : State} {s : State} {change : Change} {opc : Byte} {tag : Option ReqId} {islands : BitVec 14}
    (hz : Keeps z s) : Keeps z (stage s change opc tag islands) := by
  unfold stage
  repeat' first
    | with_reducible assumption | split | dsimp only | with_reducible refine Keeps.upd ?_ rfl rfl rfl

theorem drawFree_keeps {z : State} {s : State} (hz : Keeps z s) : Keeps z (drawFree s).2 := by
  unfold drawFree
  repeat' first
    | with_reducible assumption | split | dsimp only | with_reducible refine Keeps.upd ?_ rfl rfl rfl

theorem addPeriods_keeps {z : State} {n : Nat} {l : Fin 32} {s : State} (hz : Keeps z s) : Keeps z
    (addPeriods n l s) := by
  unfold addPeriods
  repeat' first
    | with_reducible assumption | split | dsimp only | with_reducible refine Keeps.upd ?_ rfl rfl rfl

theorem testPulses_keeps {z : State} {s : State} {l : Fin 32} (hz : Keeps z s) : Keeps z (testPulses s l) := by
  unfold testPulses
  repeat' first
    | with_reducible assumption | with_reducible apply drawFree_keeps | with_reducible apply addPeriods_keeps | split
    | dsimp only

theorem advanceTime_keeps {z : State} {ns : Nat} {s : State} (hz : Keeps z s) : Keeps z (advanceTime ns s) := by
  unfold advanceTime
  repeat' first
    | with_reducible assumption | split | dsimp only | with_reducible refine Keeps.upd ?_ rfl rfl rfl

theorem lapse_keeps {z : State} {s : State} (hz : Keeps z s) : Keeps z (lapse s) := by
  unfold lapse
  repeat' first
    | with_reducible assumption | with_reducible apply drawFree_keeps | with_reducible apply advanceTime_keeps | split
    | dsimp only

theorem timePasses_keeps {z : State} {s : State} (hz : Keeps z s) : Keeps z (timePasses s) := by
  unfold timePasses
  repeat' first
    | with_reducible assumption | with_reducible apply lapse_keeps | with_reducible apply Keeps.ite | split
    | dsimp only

end Sys2Proof.Safety
end

