-- ==== Sys2Proof/Laws/KeepsProgramOps.lean ====
section
/-! SUPPORT. What the operations of Machine/ProgramOps.lean keep. -/
namespace Sys2Proof.Safety

open Sys2Proof.Machine

set_option simprocs false

theorem formRecord_keeps {z : State} {s : State} {c : Fin 16} {type rflags : Nat} {payload : List Byte}
    (hz : Keeps z s) : Keeps z (formRecord s c type rflags payload) := by
  unfold formRecord
  repeat' first
    | with_reducible assumption | split | dsimp only | with_reducible refine Keeps.upd ?_ rfl rfl rfl

theorem formRecordAt_keeps {z : State} {s : State} {c : Fin 16} {type rflags : Nat} {payload : List Byte}
    (hz : Keeps z s) : Keeps z (formRecordAt s c type rflags payload) := by
  unfold formRecordAt
  repeat' first
    | with_reducible assumption | split | dsimp only | with_reducible refine Keeps.upd ?_ rfl rfl rfl

theorem writeRecord_keeps {z : State} {s : State} {d : RecDraft} (hz : Keeps z s) : Keeps z (writeRecord s d) := by
  unfold writeRecord
  repeat' first
    | with_reducible assumption | with_reducible apply updCh_keeps | with_reducible apply queueEvent_keeps
    | with_reducible apply Keeps.ite | split | dsimp only | with_reducible refine Keeps.upd ?_ rfl rfl rfl

theorem setLogAck_keeps {z : State} {s : State} {c : Fin 16} {v : Word} (hz : Keeps z s) : Keeps z
    (setLogAck s c v).1 := by
  unfold setLogAck
  repeat' first
    | with_reducible assumption | with_reducible apply updCh_keeps | with_reducible apply Keeps.ite
    | with_reducible apply Keeps.iteFst | split | dsimp only | with_reducible refine Keeps.upd ?_ rfl rfl rfl

theorem formEndRecords_keeps {z : State} {s : State} {c : Fin 16} {reason next : Nat} (hz : Keeps z s) : Keeps z
    (formEndRecords s c reason next) := by
  unfold formEndRecords
  repeat' first
    | with_reducible assumption | with_reducible apply formRecord_keeps | split | dsimp only

theorem endProgram_keeps {z : State} {s : State} {c : Fin 16} {reason : Nat} {incomplete : Bool}
    (hz : Keeps z s) : Keeps z (endProgram s c reason incomplete) := by
  unfold endProgram
  repeat' first
    | with_reducible assumption | with_reducible apply updCh_keeps | with_reducible apply updProg_keeps
    | with_reducible apply queueEvent_keeps | with_reducible apply formRecord_keeps | with_reducible apply Keeps.ite
    | split | dsimp only | with_reducible refine Keeps.upd ?_ rfl rfl rfl

theorem abortProgram_keeps {z : State} {s : State} {c : Fin 16} {reason : Nat} (hz : Keeps z s) : Keeps z
    (abortProgram s c reason) := by
  unfold abortProgram
  repeat' first
    | with_reducible assumption | with_reducible apply formEndRecords_keeps | with_reducible apply endProgram_keeps
    | with_reducible apply Keeps.ite | split | dsimp only

theorem setStepTargets_keeps {z : State} {s : State} {c : Fin 16} (hz : Keeps z s) : Keeps z (setStepTargets s c) := by
  unfold setStepTargets
  repeat' first
    | with_reducible assumption | with_reducible apply updCh_keeps | with_reducible apply Keeps.ite | split
    | dsimp only | with_reducible refine Keeps.upd ?_ rfl rfl rfl

theorem startHist_keeps {z : State} {r : List Byte} {h : Hist} {s : State} (hz : Keeps z s) : Keeps z
    (startHist r h s).2 := by
  unfold startHist
  repeat' first
    | with_reducible assumption | with_reducible apply drawFree_keeps | with_reducible apply Keeps.ite
    | with_reducible apply Keeps.iteSnd | split | dsimp only | with_reducible refine Keeps.upd ?_ rfl rfl rfl

theorem startStepIn_keeps {z : State} {hand : Bool} {s : State} {c : Fin 16} {i : Nat} (hz : Keeps z s) : Keeps z
    (startStepIn hand s c i) := by
  unfold startStepIn
  repeat' first
    | with_reducible assumption | with_reducible apply updCh_keeps | with_reducible apply queueEvent_keeps
    | with_reducible apply formRecord_keeps | with_reducible apply setStepTargets_keeps
    | with_reducible apply startHist_keeps | with_reducible apply Keeps.ite | split | dsimp only
    | with_reducible refine Keeps.upd ?_ rfl rfl rfl

theorem startStep_keeps {z : State} {s : State} {c : Fin 16} {i : Nat} (hz : Keeps z s) : Keeps z
    (startStep s c i) := by
  unfold startStep
  repeat' first
    | with_reducible assumption | with_reducible apply startStepIn_keeps | split | dsimp only

theorem decideEnd_keeps {z : State} {s : State} {c : Fin 16} {rank wait reason next : Nat} (hz : Keeps z s) : Keeps z
    (decideEnd s c rank wait reason next) := by
  unfold decideEnd
  repeat' first
    | with_reducible assumption | with_reducible apply updProg_keeps | with_reducible apply Keeps.ite | split
    | dsimp only | with_reducible refine Keeps.upd ?_ rfl rfl rfl

theorem addCause_keeps {z : State} {s : State} {c : Fin 16} {cause : Nat} (hz : Keeps z s) : Keeps z
    (addCause s c cause) := by
  unfold addCause
  repeat' first
    | with_reducible assumption | with_reducible apply updProg_keeps | with_reducible apply Keeps.ite | split
    | dsimp only | with_reducible refine Keeps.upd ?_ rfl rfl rfl

theorem clearCauses_keeps {z : State} {s : State} {c : Fin 16} {l : List Nat} (hz : Keeps z s) : Keeps z
    (clearCauses s c l) := by
  unfold clearCauses
  repeat' first
    | with_reducible assumption | with_reducible apply updProg_keeps | split | dsimp only
    | with_reducible refine Keeps.upd ?_ rfl rfl rfl

theorem holdProgram_keeps {z : State} {s : State} {c : Fin 16} {cause : Nat} (hz : Keeps z s) : Keeps z
    (holdProgram s c cause) := by
  unfold holdProgram
  repeat' first
    | with_reducible assumption | with_reducible apply updProg_keeps | with_reducible apply queueEvent_keeps
    | with_reducible apply formRecord_keeps | with_reducible apply formEndRecords_keeps
    | with_reducible apply Keeps.ite | split | dsimp only | with_reducible refine Keeps.upd ?_ rfl rfl rfl

theorem resumeProgram_keeps {z : State} {s : State} {c : Fin 16} (hz : Keeps z s) : Keeps z (resumeProgram s c) := by
  unfold resumeProgram
  repeat' first
    | with_reducible assumption | with_reducible apply updProg_keeps | with_reducible apply queueEvent_keeps
    | with_reducible apply formRecord_keeps | with_reducible apply startStep_keeps | with_reducible apply Keeps.ite
    | split | dsimp only | with_reducible refine Keeps.upd ?_ rfl rfl rfl

end Sys2Proof.Safety
end

