-- ==== Sys2Proof/Laws/KeepsChannelOps.lean ====
section
/-! SUPPORT. What the operations of Machine/ChannelOps.lean keep. -/
namespace Sys2Proof.Safety

open Sys2Proof.Machine

set_option simprocs false

theorem abortMeas_keeps {z : State} {s : State} {c : Fin 16} (hz : Keeps z s) : Keeps z (abortMeas s c) := by
  unfold abortMeas
  repeat' first
    | with_reducible assumption | with_reducible apply updCh_keeps | with_reducible apply reply_keeps | split
    | dsimp only | with_reducible refine Keeps.upd ?_ rfl rfl rfl

theorem changeSource_keeps {z : State} {s : State} {c : Fin 16} {n : Src} (hz : Keeps z s) : Keeps z
    (changeSource s c n) := by
  unfold changeSource
  repeat' first
    | with_reducible assumption | with_reducible apply updCh_keeps | with_reducible apply queueEvent_keeps
    | with_reducible apply abortMeas_keeps | with_reducible apply Keeps.ite | split | dsimp only
    | with_reducible refine Keeps.upd ?_ rfl rfl rfl

theorem moveChannel_keeps {z : State} {s : State} {c : Fin 16} {n : ChState} (hz : Keeps z s) : Keeps z
    (moveChannel s c n) := by
  unfold moveChannel
  repeat' first
    | with_reducible assumption | with_reducible apply updCh_keeps | with_reducible apply queueEvent_keeps
    | with_reducible apply Keeps.ite | split | dsimp only | with_reducible refine Keeps.upd ?_ rfl rfl rfl

theorem openChannel_keeps {z : State} {s : State} {c : Fin 16} {f : Chan → Chan} (hz : Keeps z s) : Keeps z
    (openChannel s c f) := by
  unfold openChannel
  repeat' first
    | with_reducible assumption | with_reducible apply updCh_keeps | with_reducible apply queueEvent_keeps
    | with_reducible apply Keeps.ite | split | dsimp only

theorem leaveRestart_keeps {z : State} {s : State} {c : Fin 16} (hz : Keeps z s) : Keeps z (leaveRestart s c) := by
  unfold leaveRestart
  repeat' first
    | with_reducible assumption | with_reducible apply updLeg_keeps | with_reducible apply updGrp_keeps
    | with_reducible apply Keeps.ite | split | dsimp only | with_reducible refine Keeps.upd ?_ rfl rfl rfl

theorem faultChannel_keeps {z : State} {s : State} {c : Fin 16} {cause : Nat} (hz : Keeps z s) : Keeps z
    (faultChannel s c cause) := by
  unfold faultChannel
  repeat' first
    | with_reducible assumption | with_reducible apply updCh_keeps | with_reducible apply queueEvent_keeps
    | with_reducible apply abortProgram_keeps | with_reducible apply abortMeas_keeps
    | with_reducible apply moveChannel_keeps | with_reducible apply openChannel_keeps
    | with_reducible apply leaveRestart_keeps | with_reducible apply Keeps.ite | split | dsimp only

theorem checkDoneEvent_keeps {z : State} {s : State} {d : Fin 16} (hz : Keeps z s) : Keeps z (checkDoneEvent s d) := by
  unfold checkDoneEvent
  repeat' first
    | with_reducible assumption | with_reducible apply queueEvent_keeps | split | dsimp only

theorem faultMembers_keeps {z : State} {s : State} {c : Fin 16} {l : List (Fin 16 × Nat)} (hz : Keeps z s) : Keeps z
    (faultMembers s c l) := by
  unfold faultMembers
  repeat' first
    | with_reducible assumption | (with_reducible apply Keeps.foldl; rotate_left; intro _ _ _)
    | with_reducible apply faultChannel_keeps | with_reducible apply checkDoneEvent_keeps
    | with_reducible apply Keeps.ite | split | dsimp only

theorem faultGang_keeps {z : State} {s : State} {c : Fin 16} {cause : Nat} (hz : Keeps z s) : Keeps z
    (faultGang s c cause) := by
  unfold faultGang
  repeat' first
    | with_reducible assumption | with_reducible apply faultMembers_keeps | split | dsimp only

theorem legsFault_keeps {z : State} {s : State} {c : Fin 16} (hz : Keeps z s) : Keeps z (legsFault s c) := by
  unfold legsFault
  repeat' first
    | with_reducible assumption | with_reducible apply faultGang_keeps | with_reducible apply Keeps.ite | split
    | dsimp only

theorem enterCheck_keeps {z : State} {s : State} {c : Fin 16} (hz : Keeps z s) : Keeps z (enterCheck s c) := by
  unfold enterCheck
  repeat' first
    | with_reducible assumption | with_reducible apply updCh_keeps | with_reducible apply updLeg_keeps
    | with_reducible apply moveChannel_keeps | with_reducible apply Keeps.ite | split | dsimp only
    | with_reducible refine Keeps.upd ?_ rfl rfl rfl

theorem armGang_keeps {z : State} {s : State} {c : Fin 16} (hz : Keeps z s) : Keeps z (armGang s c) := by
  unfold armGang
  repeat' first
    | with_reducible assumption | (with_reducible apply Keeps.foldl; rotate_left; intro _ _ _)
    | with_reducible apply faultMembers_keeps | with_reducible apply enterCheck_keeps | split | dsimp only

theorem advanceCheck_keeps {z : State} {ns : Nat} {s : State} {c : Fin 16} (hz : Keeps z s) : Keeps z
    (advanceCheck ns s c) := by
  unfold advanceCheck
  repeat' first
    | with_reducible assumption | with_reducible apply updCh_keeps | with_reducible apply Keeps.ite | split
    | dsimp only | with_reducible refine Keeps.upd ?_ rfl rfl rfl

theorem offChannel_keeps {z : State} {s : State} {c : Fin 16} (hz : Keeps z s) : Keeps z (offChannel s c) := by
  unfold offChannel
  repeat' first
    | with_reducible assumption | with_reducible apply updCh_keeps | with_reducible apply abortMeas_keeps
    | with_reducible apply moveChannel_keeps | with_reducible apply openChannel_keeps
    | with_reducible apply leaveRestart_keeps | split | dsimp only | with_reducible refine Keeps.upd ?_ rfl rfl rfl

theorem forceOffChannel_keeps {z : State} {s : State} {c : Fin 16} (hz : Keeps z s) : Keeps z
    (forceOffChannel s c) := by
  unfold forceOffChannel
  repeat' first
    | with_reducible assumption | with_reducible apply updCh_keeps | with_reducible apply abortMeas_keeps
    | with_reducible apply moveChannel_keeps | with_reducible apply openChannel_keeps
    | with_reducible apply leaveRestart_keeps | split | dsimp only | with_reducible refine Keeps.upd ?_ rfl rfl rfl

theorem stopGang_keeps {z : State} {s : State} {c : Fin 16} {reason : Nat} (hz : Keeps z s) : Keeps z
    (stopGang s c reason) := by
  unfold stopGang
  repeat' first
    | with_reducible assumption | (with_reducible apply Keeps.foldl; rotate_left; intro _ _ _)
    | with_reducible apply abortProgram_keeps | with_reducible apply offChannel_keeps | with_reducible apply Keeps.ite
    | split | dsimp only

theorem holdChannel_keeps {z : State} {s : State} {c : Fin 16} (hz : Keeps z s) : Keeps z (holdChannel s c) := by
  unfold holdChannel
  repeat' first
    | with_reducible assumption | with_reducible apply updCh_keeps | with_reducible apply abortMeas_keeps
    | with_reducible apply moveChannel_keeps | with_reducible apply Keeps.ite | split | dsimp only
    | with_reducible refine Keeps.upd ?_ rfl rfl rfl

theorem holdNow_keeps {z : State} {s : State} {c : Fin 16} {cause : Nat} (hz : Keeps z s) : Keeps z
    (holdNow s c cause) := by
  unfold holdNow
  repeat' first
    | with_reducible assumption | (with_reducible apply Keeps.foldl; rotate_left; intro _ _ _)
    | with_reducible apply addCause_keeps | with_reducible apply holdProgram_keeps
    | with_reducible apply holdChannel_keeps | split | dsimp only

theorem sequenceEnds_keeps {z : State} {s : State} {c : Fin 16} (hz : Keeps z s) : Keeps z (sequenceEnds s c) := by
  unfold sequenceEnds
  repeat' first
    | with_reducible assumption | split | dsimp only | with_reducible refine Keeps.upd ?_ rfl rfl rfl

theorem runChannel_keeps {z : State} {s : State} {c : Fin 16} (hz : Keeps z s) : Keeps z (runChannel s c) := by
  unfold runChannel
  repeat' first
    | with_reducible assumption | with_reducible apply updCh_keeps | with_reducible apply moveChannel_keeps
    | with_reducible apply sequenceEnds_keeps | with_reducible apply Keeps.ite | split | dsimp only
    | with_reducible refine Keeps.upd ?_ rfl rfl rfl

theorem runGang_keeps {z : State} {s : State} {c : Fin 16} (hz : Keeps z s) : Keeps z (runGang s c) := by
  unfold runGang
  repeat' first
    | with_reducible assumption | (with_reducible apply Keeps.foldl; rotate_left; intro _ _ _)
    | with_reducible apply runChannel_keeps | split | dsimp only

end Sys2Proof.Safety
end

