-- ==== Sys2Proof/Laws/KeepsEngineOps.lean ====
section
/-! SUPPORT. What the operations of Machine/EngineOps.lean keep. -/
namespace Sys2Proof.Safety

open Sys2Proof.Machine

set_option simprocs false

theorem recordTest_keeps {z : State} {s : State} {k : Fin 6} {arg result applied expected : Nat}
    (hz : Keeps z s) : Keeps z (recordTest s k arg result applied expected) := by
  unfold recordTest
  repeat' first
    | with_reducible assumption | split | dsimp only | with_reducible refine Keeps.upd ?_ rfl rfl rfl

theorem testDone_keeps {z : State} {s : State} {k : Fin 6} {result : Nat} (hz : Keeps z s) : Keeps z
    (testDone s k result) := by
  unfold testDone
  repeat' first
    | with_reducible assumption | with_reducible apply queueEvent_keeps | split | dsimp only

theorem abandonBist_keeps {z : State} {s : State} {k : Fin 5} (hz : Keeps z s) : Keeps z (abandonBist s k) := by
  unfold abandonBist
  repeat' first
    | with_reducible assumption | with_reducible apply updCe_keeps | with_reducible apply reply_keeps
    | with_reducible apply drawFree_keeps | with_reducible apply recordTest_keeps
    | with_reducible apply testDone_keeps | with_reducible apply Keeps.ite | split | dsimp only
    | with_reducible refine Keeps.upd ?_ rfl rfl rfl

theorem loadGroup_keeps {z : State} {s : State} {g : Fin 4} {k : Fin 5} (hz : Keeps z s) : Keeps z
    (loadGroup s g k) := by
  unfold loadGroup
  repeat' first
    | with_reducible assumption | (with_reducible apply Keeps.foldl; rotate_left; intro _ _ _)
    | with_reducible apply updCh_keeps | split | dsimp only | with_reducible refine Keeps.upd ?_ rfl rfl rfl

theorem unstageCastle_keeps {z : State} {s : State} {g : Fin 4} (hz : Keeps z s) : Keeps z (unstageCastle s g) := by
  unfold unstageCastle
  repeat' first
    | with_reducible assumption | split | dsimp only | with_reducible refine Keeps.upd ?_ rfl rfl rfl

theorem dropCastle_keeps {z : State} {s : State} {g : Fin 4} (hz : Keeps z s) : Keeps z (dropCastle s g) := by
  unfold dropCastle
  repeat' first
    | with_reducible assumption | with_reducible apply updGrp_keeps | with_reducible apply updCe_keeps
    | with_reducible apply unstageCastle_keeps | with_reducible apply Keeps.ite | split | dsimp only
    | with_reducible refine Keeps.upd ?_ rfl rfl rfl

theorem abortCastle_keeps {z : State} {s : State} {g : Fin 4} {reason : Nat} (hz : Keeps z s) : Keeps z
    (abortCastle s g reason) := by
  unfold abortCastle
  repeat' first
    | with_reducible assumption | with_reducible apply queueEvent_keeps | with_reducible apply dropCastle_keeps
    | with_reducible apply Keeps.ite | split | dsimp only | with_reducible refine Keeps.upd ?_ rfl rfl rfl

theorem abortPlanned_keeps {z : State} {s : State} {reason : Nat} (hz : Keeps z s) : Keeps z
    (abortPlanned s reason) := by
  unfold abortPlanned
  repeat' first
    | with_reducible assumption | (with_reducible apply Keeps.foldl; rotate_left; intro _ _ _)
    | with_reducible apply abortCastle_keeps | split | dsimp only

theorem stageCastle_keeps {z : State} {s : State} {g : Fin 4} {fromCe : Option (Fin 5)} {toCe : Fin 5}
    {planned ready acked : Bool}
    {skipped : Nat} (hz : Keeps z s) : Keeps z (stageCastle s g fromCe toCe planned ready acked skipped) := by
  unfold stageCastle
  repeat' first
    | with_reducible assumption | with_reducible apply updGrp_keeps | with_reducible apply updCe_keeps
    | with_reducible apply stage_keeps | with_reducible apply abandonBist_keeps | with_reducible apply Keeps.ite
    | split | dsimp only | with_reducible refine Keeps.upd ?_ rfl rfl rfl

theorem commitCastle_keeps {z : State} {s : State} {g : Fin 4} (hz : Keeps z s) : Keeps z (commitCastle s g) := by
  unfold commitCastle
  repeat' first
    | with_reducible assumption | with_reducible apply updGrp_keeps | with_reducible apply updCe_keeps
    | with_reducible apply queueEvent_keeps | with_reducible apply unstageCastle_keeps
    | with_reducible apply Keeps.ite | split | dsimp only | with_reducible refine Keeps.upd ?_ rfl rfl rfl

theorem holdGroup_keeps {z : State} {s : State} {g : Fin 4} (hz : Keeps z s) : Keeps z (holdGroup s g) := by
  unfold holdGroup
  repeat' first
    | with_reducible assumption | (with_reducible apply Keeps.foldl; rotate_left; intro _ _ _)
    | with_reducible apply holdNow_keeps | with_reducible apply Keeps.ite | split | dsimp only

theorem loseOwner_keeps {z : State} {s : State} {g : Fin 4} {k : Fin 5} {skipped : Nat} (hz : Keeps z s) : Keeps z
    (loseOwner s g k skipped) := by
  unfold loseOwner
  repeat' first
    | with_reducible assumption | with_reducible apply updGrp_keeps | with_reducible apply queueEvent_keeps
    | with_reducible apply loadGroup_keeps | with_reducible apply dropCastle_keeps
    | with_reducible apply holdGroup_keeps | split | dsimp only | with_reducible refine Keeps.upd ?_ rfl rfl rfl

theorem withholdRefs_keeps {z : State} {s : State} {g : Fin 4} (hz : Keeps z s) : Keeps z (withholdRefs s g) := by
  unfold withholdRefs
  repeat' first
    | with_reducible assumption | (with_reducible apply Keeps.foldl; rotate_left; intro _ _ _)
    | with_reducible apply updLeg_keeps | with_reducible apply Keeps.ite | split | dsimp only
    | with_reducible refine Keeps.upd ?_ rfl rfl rfl

theorem missSample_keeps {z : State} {s : State} {g : Fin 4} (hz : Keeps z s) : Keeps z (missSample s g).2 := by
  unfold missSample
  repeat' first
    | with_reducible assumption | with_reducible apply drawFree_keeps | with_reducible apply withholdRefs_keeps
    | with_reducible apply Keeps.ite | with_reducible apply Keeps.iteSnd | split | dsimp only

theorem turnUnplanned_keeps {z : State} {s : State} {g : Fin 4} {skipped : Nat} (hz : Keeps z s) : Keeps z
    (turnUnplanned s g skipped) := by
  unfold turnUnplanned
  repeat' first
    | with_reducible assumption | with_reducible apply updGrp_keeps | split | dsimp only
    | with_reducible refine Keeps.upd ?_ rfl rfl rfl

theorem unplannedCastle_keeps {z : State} {s : State} {g : Fin 4} {k : Fin 5} (hz : Keeps z s) : Keeps z
    (unplannedCastle s g k) := by
  unfold unplannedCastle
  repeat' first
    | with_reducible assumption | with_reducible apply updCe_keeps | with_reducible apply abortPlanned_keeps
    | with_reducible apply stageCastle_keeps | with_reducible apply loseOwner_keeps
    | with_reducible apply missSample_keeps | with_reducible apply turnUnplanned_keeps | split | dsimp only
    | with_reducible refine Keeps.upd ?_ rfl rfl rfl

theorem receiverFails_keeps {z : State} {s : State} {k : Fin 5} (hz : Keeps z s) : Keeps z (receiverFails s k) := by
  unfold receiverFails
  repeat' first
    | with_reducible assumption | (with_reducible apply Keeps.foldl; rotate_left; intro _ _ _)
    | with_reducible apply updCe_keeps | with_reducible apply abortCastle_keeps | with_reducible apply loseOwner_keeps
    | with_reducible apply Keeps.ite | split | dsimp only | with_reducible refine Keeps.upd ?_ rfl rfl rfl

theorem holdRecovering_keeps {z : State} {s : State} (hz : Keeps z s) : Keeps z (holdRecovering s) := by
  unfold holdRecovering
  repeat' first
    | with_reducible assumption | (with_reducible apply Keeps.foldl; rotate_left; intro _ _ _)
    | with_reducible apply holdGroup_keeps | split | dsimp only

theorem markFailed_keeps {z : State} {s : State} {g : Fin 4} {k : Fin 5} (hz : Keeps z s) : Keeps z
    (markFailed s g k) := by
  unfold markFailed
  repeat' first
    | with_reducible assumption | with_reducible apply Keeps.ite | split | dsimp only
    | with_reducible refine Keeps.upd ?_ rfl rfl rfl

theorem castleFor_keeps {z : State} {s : State} {k : Fin 5} (hz : Keeps z s) : Keeps z (castleFor s k) := by
  unfold castleFor
  repeat' first
    | with_reducible assumption | with_reducible apply unplannedCastle_keeps
    | with_reducible apply receiverFails_keeps | with_reducible apply markFailed_keeps | split | dsimp only

theorem engineFails_keeps {z : State} {s : State} {k : Fin 5} (hz : Keeps z s) : Keeps z (engineFails s k) := by
  unfold engineFails
  repeat' first
    | with_reducible assumption | with_reducible apply updCe_keeps | with_reducible apply holdRecovering_keeps
    | with_reducible apply castleFor_keeps | with_reducible apply Keeps.ite | split | dsimp only
    | with_reducible refine Keeps.upd ?_ rfl rfl rfl

theorem adoptGroup_keeps {z : State} {s : State} (hz : Keeps z s) : Keeps z (adoptGroup s) := by
  unfold adoptGroup
  repeat' first
    | with_reducible assumption | with_reducible apply stageCastle_keeps | split | dsimp only

theorem retireCe_keeps {z : State} {s : State} {k : Fin 5} (hz : Keeps z s) : Keeps z (retireCe s k) := by
  unfold retireCe
  repeat' first
    | with_reducible assumption | with_reducible apply updCe_keeps | with_reducible apply queueEvent_keeps | split
    | dsimp only | with_reducible refine Keeps.upd ?_ rfl rfl rfl

theorem hotCastle_keeps {z : State} {s : State} {k : Fin 5} (hz : Keeps z s) : Keeps z (hotCastle s k) := by
  unfold hotCastle
  repeat' first
    | with_reducible assumption | with_reducible apply drawFree_keeps | with_reducible apply abortCastle_keeps
    | with_reducible apply stageCastle_keeps | with_reducible apply Keeps.ite | split | dsimp only

end Sys2Proof.Safety
end

