-- ==== Sys2Proof/Laws/KeepsSafetyOps.lean ====
section
/-! SUPPORT. What the operations of Machine/SafetyOps.lean keep. -/
namespace Sys2Proof.Safety

open Sys2Proof.Machine

set_option simprocs false

theorem logChange_keeps {z : State} {s : State} {slot kind param : Nat} {old new : Word} {commit : Nat}
    (hz : Keeps z s) : Keeps z (logChange s slot kind param old new commit) := by
  unfold logChange
  repeat' first
    | with_reducible assumption | with_reducible apply timePasses_keeps | split | dsimp only
    | with_reducible refine Keeps.upd ?_ rfl rfl rfl

theorem closeSession_keeps {z : State} {s : State} {reason : Nat} (hz : Keeps z s) : Keeps z
    (closeSession s reason) := by
  unfold closeSession
  repeat' first
    | with_reducible assumption | with_reducible apply queueEvent_keeps | with_reducible apply logChange_keeps
    | with_reducible apply Keeps.ite | split | dsimp only | with_reducible refine Keeps.upd ?_ rfl rfl rfl

theorem touchSession_keeps {z : State} {s : State} (hz : Keeps z s) : Keeps z (touchSession s) := by
  unfold touchSession
  repeat' first
    | with_reducible assumption | with_reducible apply timePasses_keeps | split | dsimp only
    | with_reducible refine Keeps.upd ?_ rfl rfl rfl

theorem setOutputs_keeps {z : State} {s : State} {on : BitVec 2} (hz : Keeps z s) : Keeps z (setOutputs s on) := by
  unfold setOutputs
  repeat' first
    | with_reducible assumption | split | dsimp only | with_reducible refine Keeps.upd ?_ rfl rfl rfl

theorem refreshOutputs_keeps {z : State} {s : State} (hz : Keeps z s) : Keeps z (refreshOutputs s) := by
  unfold refreshOutputs
  repeat' first
    | with_reducible assumption | with_reducible apply setOutputs_keeps | split | dsimp only

theorem safetyEnd_keeps {z : State} {s : State} {c : Fin 16} (hz : Keeps z s) : Keeps z (safetyEnd s c) := by
  unfold safetyEnd
  repeat' first
    | with_reducible assumption | with_reducible apply abortProgram_keeps | split | dsimp only

theorem category0Channel_keeps {z : State} {s : State} {c : Fin 16} (hz : Keeps z s) : Keeps z
    (category0Channel s c) := by
  unfold category0Channel
  repeat' first
    | with_reducible assumption | with_reducible apply openChannel_keeps | with_reducible apply forceOffChannel_keeps
    | with_reducible apply safetyEnd_keeps | with_reducible apply Keeps.ite | split | dsimp only

theorem category0_keeps {z : State} {s : State} (hz : Keeps z s) : Keeps z (category0 s) := by
  unfold category0
  repeat' first
    | with_reducible assumption | (with_reducible apply Keeps.foldl; rotate_left; intro _ _ _)
    | with_reducible apply updGrp_keeps | with_reducible apply setOutputs_keeps
    | with_reducible apply category0Channel_keeps | split | dsimp only
    | with_reducible refine Keeps.upd ?_ rfl rfl rfl

theorem category1Channel_keeps {z : State} {s : State} {c : Fin 16} (hz : Keeps z s) : Keeps z
    (category1Channel s c) := by
  unfold category1Channel
  repeat' first
    | with_reducible assumption | with_reducible apply offChannel_keeps | with_reducible apply safetyEnd_keeps
    | with_reducible apply Keeps.ite | split | dsimp only

theorem category1_keeps {z : State} {s : State} (hz : Keeps z s) : Keeps z (category1 s) := by
  unfold category1
  repeat' first
    | with_reducible assumption | (with_reducible apply Keeps.foldl; rotate_left; intro _ _ _)
    | with_reducible apply category1Channel_keeps | split | dsimp only
    | with_reducible refine Keeps.upd ?_ rfl rfl rfl

theorem category2Channel_keeps {z : State} {s : State} {c : Fin 16} (hz : Keeps z s) : Keeps z
    (category2Channel s c) := by
  unfold category2Channel
  repeat' first
    | with_reducible assumption | (with_reducible apply Keeps.foldl; rotate_left; intro _ _ _)
    | with_reducible apply updCh_keeps | with_reducible apply abortProgram_keeps | with_reducible apply addCause_keeps
    | with_reducible apply leaveRestart_keeps | with_reducible apply offChannel_keeps
    | with_reducible apply holdNow_keeps | split | dsimp only | with_reducible refine Keeps.upd ?_ rfl rfl rfl

theorem category2_keeps {z : State} {s : State} (hz : Keeps z s) : Keeps z (category2 s) := by
  unfold category2
  repeat' first
    | with_reducible assumption | (with_reducible apply Keeps.foldl; rotate_left; intro _ _ _)
    | with_reducible apply category2Channel_keeps | split | dsimp only
    | with_reducible refine Keeps.upd ?_ rfl rfl rfl

theorem categoryActions_keeps {z : State} {s : State} {cat : Nat} (hz : Keeps z s) : Keeps z
    (categoryActions s cat) := by
  unfold categoryActions
  repeat' first
    | with_reducible assumption | with_reducible apply category0_keeps | with_reducible apply category1_keeps
    | with_reducible apply category2_keeps | split | dsimp only

theorem clearLatches_keeps {z : State} {s : State} {m : Mask} (hz : Keeps z s) : Keeps z (clearLatches s m) := by
  unfold clearLatches
  repeat' first
    | with_reducible assumption | with_reducible apply Keeps.ite | split | dsimp only
    | with_reducible refine Keeps.upd ?_ rfl rfl rfl

theorem protectionTrip_keeps {z : State} {s : State} {c : Fin 16} {code : Nat} (hz : Keeps z s) : Keeps z
    (protectionTrip s c code) := by
  unfold protectionTrip
  repeat' first
    | with_reducible assumption | (with_reducible apply Keeps.foldl; rotate_left; intro _ _ _)
    | with_reducible apply queueEvent_keeps | with_reducible apply category0Channel_keeps | split | dsimp only

end Sys2Proof.Safety
end

