-- ==== Sys2Proof/Laws/KeepsModeOps.lean ====
section
/-! SUPPORT. What the operations of Machine/ModeOps.lean keep. -/
namespace Sys2Proof.Safety

open Sys2Proof.Machine

set_option simprocs false

theorem pauseProgram_keeps {z : State} {s : State} {c : Fin 16} (hz : Keeps z s) : Keeps z (pauseProgram s c) := by
  unfold pauseProgram
  repeat' first
    | with_reducible assumption | with_reducible apply updProg_keeps | with_reducible apply formRecord_keeps
    | with_reducible apply setStepTargets_keeps | with_reducible apply changeSource_keeps
    | with_reducible apply Keeps.ite | split | dsimp only | with_reducible refine Keeps.upd ?_ rfl rfl rfl

theorem disarmChannel_keeps {z : State} {s : State} {c : Fin 16} (hz : Keeps z s) : Keeps z (disarmChannel s c) := by
  unfold disarmChannel
  repeat' first
    | with_reducible assumption | with_reducible apply abortMeas_keeps | with_reducible apply moveChannel_keeps
    | with_reducible apply openChannel_keeps | split | dsimp only

theorem idleChannel_keeps {z : State} {s : State} {x : Staged} {c : Fin 16} (hz : Keeps z s) : Keeps z
    (idleChannel s x c) := by
  unfold idleChannel
  repeat' first
    | with_reducible assumption | (with_reducible apply Keeps.foldl; rotate_left; intro _ _ _)
    | with_reducible apply offChannel_keeps | with_reducible apply pauseProgram_keeps
    | with_reducible apply disarmChannel_keeps | with_reducible apply Keeps.ite | split | dsimp only

theorem channelAction_keeps {z : State} {old new : Mode} {x : Staged} {s : State} {c : Fin 16}
    (hz : Keeps z s) : Keeps z (channelAction old new x s c) := by
  unfold channelAction
  repeat' first
    | with_reducible assumption | (with_reducible apply Keeps.foldl; rotate_left; intro _ _ _)
    | with_reducible apply offChannel_keeps | with_reducible apply idleChannel_keeps | with_reducible apply Keeps.ite
    | split | dsimp only

theorem takeSource_keeps {z : State} {old new : Mode} {s : State} {c : Fin 16} (hz : Keeps z s) : Keeps z
    (takeSource old new s c) := by
  unfold takeSource
  repeat' first
    | with_reducible assumption | with_reducible apply updCh_keeps | with_reducible apply changeSource_keeps
    | with_reducible apply Keeps.ite | split | dsimp only | with_reducible refine Keeps.upd ?_ rfl rfl rfl

theorem partialGroup_keeps {z : State} {target : Mode} {x : Staged} {s : State} {g : Fin 4} (hz : Keeps z s) : Keeps z
    (partialGroup target x s g) := by
  unfold partialGroup
  repeat' first
    | with_reducible assumption | with_reducible apply queueEvent_keeps | with_reducible apply holdGroup_keeps | split
    | dsimp only

theorem channelActions_keeps {z : State} {s : State} {x : Staged} {target : Mode} (hz : Keeps z s) : Keeps z
    (channelActions s x target) := by
  unfold channelActions
  repeat' first
    | with_reducible assumption | (with_reducible apply Keeps.foldl; rotate_left; intro _ _ _)
    | with_reducible apply leaveRestart_keeps | with_reducible apply channelAction_keeps
    | with_reducible apply takeSource_keeps | with_reducible apply partialGroup_keeps | split | dsimp only

theorem holdFailed_keeps {z : State} {s : State} {x : Staged} (hz : Keeps z s) : Keeps z (holdFailed s x) := by
  unfold holdFailed
  repeat' first
    | with_reducible assumption | (with_reducible apply Keeps.foldl; rotate_left; intro _ _ _)
    | with_reducible apply holdGroup_keeps | with_reducible apply Keeps.ite | split | dsimp only

theorem unstageLane_keeps {z : State} {s : State} {k : Fin 4} (hz : Keeps z s) : Keeps z (unstageLane s k) := by
  unfold unstageLane
  repeat' first
    | with_reducible assumption | split | dsimp only | with_reducible refine Keeps.upd ?_ rfl rfl rfl

theorem dropSlot_keeps {z : State} {s : State} {j : Fin 4} (hz : Keeps z s) : Keeps z (dropSlot s j) := by
  unfold dropSlot
  repeat' first
    | with_reducible assumption | with_reducible apply unstageLane_keeps | with_reducible apply Keeps.ite | split
    | dsimp only | with_reducible refine Keeps.upd ?_ rfl rfl rfl

theorem abandonLane_keeps {z : State} {s : State} {j : Fin 4} (hz : Keeps z s) : Keeps z (abandonLane s j) := by
  unfold abandonLane
  repeat' first
    | with_reducible assumption | with_reducible apply dropSlot_keeps | with_reducible apply Keeps.ite | split
    | dsimp only | with_reducible refine Keeps.upd ?_ rfl rfl rfl

theorem abandonSlot_keeps {z : State} {s : State} (hz : Keeps z s) : Keeps z (abandonSlot s) := by
  unfold abandonSlot
  repeat' first
    | with_reducible assumption | (with_reducible apply Keeps.foldl; rotate_left; intro _ _ _)
    | with_reducible apply abandonLane_keeps | split | dsimp only

theorem changeMode_keeps {z : State} {s : State} {x : Staged} {target : Mode} (hz : Keeps z s) : Keeps z
    (changeMode s x target) := by
  unfold changeMode
  repeat' first
    | with_reducible assumption | with_reducible apply queueEvent_keeps | with_reducible apply closeSession_keeps
    | with_reducible apply refreshOutputs_keeps | with_reducible apply channelActions_keeps
    | with_reducible apply abandonSlot_keeps | with_reducible apply Keeps.ite | split | dsimp only
    | with_reducible refine Keeps.upd ?_ rfl rfl rfl

theorem resetSafe_keeps {z : State} {s : State} {target : Mode} (hz : Keeps z s) : Keeps z (resetSafe s target) := by
  unfold resetSafe
  repeat' first
    | with_reducible assumption | with_reducible apply queueEvent_keeps | with_reducible apply logChange_keeps | split
    | dsimp only | with_reducible refine Keeps.upd ?_ rfl rfl rfl

theorem applyMode_keeps {z : State} {s : State} {x : Staged} {target : Mode} {fromSafe : Bool} {mask : Mask}
    (hz : Keeps z s) : Keeps z (applyMode s x target fromSafe mask) := by
  unfold applyMode
  repeat' first
    | with_reducible assumption | with_reducible apply reply_keeps | with_reducible apply closeSession_keeps
    | with_reducible apply clearLatches_keeps | with_reducible apply changeMode_keeps
    | with_reducible apply resetSafe_keeps | with_reducible apply Keeps.ite | split | dsimp only
    | with_reducible refine Keeps.upd ?_ rfl rfl rfl

end Sys2Proof.Safety
end

