-- ==== Sys2Proof/Laws/KeepsDemands.lean ====
section
/-! SUPPORT. What the operations of Machine/Demands.lean keep. -/
namespace Sys2Proof.Safety

open Sys2Proof.Machine

set_option simprocs false

theorem abortOne_keeps {z : State} {s : State} {x : Staged} (hz : Keeps z s) : Keeps z (abortOne s x) := by
  unfold abortOne
  repeat' first
    | with_reducible assumption | with_reducible apply queueEvent_keeps | with_reducible apply reply_keeps
    | with_reducible apply Keeps.ite | split | dsimp only | with_reducible refine Keeps.upd ?_ rfl rfl rfl

theorem restageCastle_keeps {z : State} {s : State} {g : Fin 4} (hz : Keeps z s) : Keeps z (restageCastle s g) := by
  unfold restageCastle
  repeat' first
    | with_reducible assumption | with_reducible apply stage_keeps | with_reducible apply Keeps.ite | split
    | dsimp only

theorem restageLane_keeps {z : State} {old : List Staged} {s : State} {j : Fin 4} (hz : Keeps z s) : Keeps z
    (restageLane old s j) := by
  unfold restageLane
  repeat' first
    | with_reducible assumption | with_reducible apply stage_keeps | split | dsimp only

theorem abortStaged_keeps {z : State} {s : State} (hz : Keeps z s) : Keeps z (abortStaged s) := by
  unfold abortStaged
  repeat' first
    | with_reducible assumption | (with_reducible apply Keeps.foldl; rotate_left; intro _ _ _)
    | with_reducible apply abortPlanned_keeps | with_reducible apply abortOne_keeps
    | with_reducible apply restageCastle_keeps | with_reducible apply restageLane_keeps | split | dsimp only
    | with_reducible refine Keeps.upd ?_ rfl rfl rfl

theorem enterSafe_keeps {z : State} {s : State} (hz : Keeps z s) : Keeps z (enterSafe s) := by
  unfold enterSafe
  repeat' first
    | with_reducible assumption | split | dsimp only | with_reducible refine Keeps.upd ?_ rfl rfl rfl

theorem abortLegTest_keeps {z : State} {s : State} (hz : Keeps z s) : Keeps z (abortLegTest s) := by
  unfold abortLegTest
  repeat' first
    | with_reducible assumption | with_reducible apply reply_keeps | with_reducible apply drawFree_keeps
    | with_reducible apply recordTest_keeps | with_reducible apply testDone_keeps | split | dsimp only
    | with_reducible refine Keeps.upd ?_ rfl rfl rfl

theorem applyCommitted_keeps {z : State} {s : State} (hz : Keeps z s) : Keeps z (applyCommitted s) := by
  unfold applyCommitted
  repeat' first
    | with_reducible assumption | with_reducible apply applyMode_keeps | split | dsimp only
    | with_reducible refine Keeps.upd ?_ rfl rfl rfl

theorem demand_keeps {z : State} {s : State} {cause cat : Nat} (hz : Keeps z s) : Keeps z (demand s cause cat) := by
  unfold demand
  repeat' first
    | with_reducible assumption | with_reducible apply queueEvent_keeps | with_reducible apply categoryActions_keeps
    | with_reducible apply abortStaged_keeps | with_reducible apply enterSafe_keeps
    | with_reducible apply abortLegTest_keeps | with_reducible apply applyCommitted_keeps
    | with_reducible apply Keeps.ite | split | dsimp only | with_reducible refine Keeps.upd ?_ rfl rfl rfl

theorem escalate_keeps {z : State} {s : State} (hz : Keeps z s) : Keeps z (escalate s) := by
  unfold escalate
  repeat' first
    | with_reducible assumption | with_reducible apply category0_keeps | split | dsimp only
    | with_reducible refine Keeps.upd ?_ rfl rfl rfl

theorem pageRuns_keeps {z : State} {s : State} (hz : Keeps z s) : Keeps z (pageRuns s).2 := by
  unfold pageRuns
  repeat' first
    | with_reducible assumption | with_reducible apply drawFree_keeps | with_reducible apply Keeps.ite
    | with_reducible apply Keeps.iteSnd | split | dsimp only | with_reducible refine Keeps.upd ?_ rfl rfl rfl

theorem nvmFail_keeps {z : State} {s : State} {area : Nat} (hz : Keeps z s) : Keeps z (nvmFail s area) := by
  unfold nvmFail
  repeat' first
    | with_reducible assumption | with_reducible apply queueEvent_keeps | with_reducible apply drawFree_keeps | split
    | dsimp only

theorem fuseRows_keeps {o s : State} {n : Nat} (h : Keeps o s) : Keeps o (fuseRows s n) := by
  refine h.trans ?_
  refine ⟨rfl, id, id, id, List.prefix_append _ _, fun hr => ?_⟩
  simp only [fuseRows, List.length_append, List.length_map, List.length_take, fuseMapSize, fusePlaces] at *
  omega

theorem spoilEntry_keeps {o s : State} (h : Keeps o s) : Keeps o (spoilEntry s) := by
  refine h.trans ?_
  unfold spoilEntry
  split
  · split
    · rename_i hr
      refine ⟨rfl, id, id, id, List.prefix_append _ _, fun _ => ?_⟩
      simp only [List.length_append, List.length_singleton, fuseMapSize, fusePlaces] at *
      omega
    · exact Keeps.refl _
  · exact Keeps.refl _

theorem cutStore_keeps {z : State} {s : State} (hz : Keeps z s) : Keeps z (cutStore s) := by
  unfold cutStore
  repeat' first
    | with_reducible assumption | with_reducible apply drawFree_keeps | with_reducible apply fuseRows_keeps
    | with_reducible apply spoilEntry_keeps | with_reducible apply Keeps.ite | split | dsimp only
    | with_reducible refine Keeps.upd ?_ rfl rfl rfl

theorem everythingOff_keeps {z : State} {s : State} (hz : Keeps z s) : Keeps z (everythingOff s) := by
  unfold everythingOff
  repeat' first
    | with_reducible assumption | (with_reducible apply Keeps.foldl; rotate_left; intro _ _ _)
    | with_reducible apply updCh_keeps | with_reducible apply setOutputs_keeps | split | dsimp only
    | with_reducible refine Keeps.upd ?_ rfl rfl rfl

theorem holdIslands_keeps {o s : State} {ph : Phase} (h : Keeps o s) : Keeps o (holdIslands s ph) := by
  have hk := cutStore_keeps (everythingOff_keeps h)
  exact ⟨hk.pending, hk.memory, fun _ => Nat.zero_le _, hk.events, hk.fuses, hk.fuseRoom⟩

theorem applySafeCfg_keeps {z : State} {s : State} (hz : Keeps z s) : Keeps z (applySafeCfg s) := by
  unfold applySafeCfg
  repeat' first
    | with_reducible assumption | (with_reducible apply Keeps.foldl; rotate_left; intro _ _ _)
    | with_reducible apply refreshOutputs_keeps | with_reducible apply demand_keeps | with_reducible apply Keeps.ite
    | split | dsimp only | with_reducible refine Keeps.upd ?_ rfl rfl rfl

end Sys2Proof.Safety
end

