-- ==== Sys2Proof/Laws/KeepsCanOps.lean ====
section
/-! SUPPORT. What the operations of Machine/CanOps.lean keep. -/
namespace Sys2Proof.Safety

open Sys2Proof.Machine

set_option simprocs false

theorem updTx_keeps {z : State} {s : State} {b : Fin 16} {f : TxBuf → TxBuf} (hz : Keeps z s) : Keeps z
    (State.updTx s b f) := by
  unfold State.updTx
  repeat' first
    | with_reducible assumption | split | dsimp only | with_reducible refine Keeps.upd ?_ rfl rfl rfl

theorem markStarted_keeps {z : State} {s : State} (hz : Keeps z s) : Keeps z (markStarted s) := by
  unfold markStarted
  repeat' first
    | with_reducible assumption | with_reducible apply drawFree_keeps | with_reducible apply Keeps.ite | split
    | dsimp only | with_reducible refine Keeps.upd ?_ rfl rfl rfl

theorem endTransmission_keeps {z : State} {s : State} (hz : Keeps z s) : Keeps z (endTransmission s) := by
  unfold endTransmission
  repeat' first
    | with_reducible assumption | split | dsimp only | with_reducible refine Keeps.upd ?_ rfl rfl rfl

theorem failBuffer_keeps {z : State} {s : State} {b : Fin 16} (hz : Keeps z s) : Keeps z (failBuffer s b) := by
  unfold failBuffer
  repeat' first
    | with_reducible assumption | with_reducible apply updTx_keeps | split | dsimp only
    | with_reducible refine Keeps.upd ?_ rfl rfl rfl

theorem requestBuffer_keeps {z : State} {s : State} {b : Fin 16} (hz : Keeps z s) : Keeps z (requestBuffer s b) := by
  unfold requestBuffer
  repeat' first
    | with_reducible assumption | with_reducible apply updTx_keeps | with_reducible apply Keeps.ite | split
    | dsimp only

theorem canTxAdd_keeps {z : State} {s : State} {v : Word} (hz : Keeps z s) : Keeps z (canTxAdd s v).1 := by
  unfold canTxAdd
  repeat' first
    | with_reducible assumption | (with_reducible apply Keeps.foldl; rotate_left; intro _ _ _)
    | with_reducible apply markStarted_keeps | with_reducible apply requestBuffer_keeps
    | with_reducible apply Keeps.ite | with_reducible apply Keeps.iteFst | split | dsimp only

theorem cancelBuffer_keeps {z : State} {s : State} {b : Fin 16} (hz : Keeps z s) : Keeps z (cancelBuffer s b) := by
  unfold cancelBuffer
  repeat' first
    | with_reducible assumption | with_reducible apply updTx_keeps | with_reducible apply failBuffer_keeps
    | with_reducible apply Keeps.ite | split | dsimp only | with_reducible refine Keeps.upd ?_ rfl rfl rfl

theorem canTxCancel_keeps {z : State} {s : State} {v : Word} (hz : Keeps z s) : Keeps z (canTxCancel s v).1 := by
  unfold canTxCancel
  repeat' first
    | with_reducible assumption | (with_reducible apply Keeps.foldl; rotate_left; intro _ _ _)
    | with_reducible apply markStarted_keeps | with_reducible apply cancelBuffer_keeps | split | dsimp only

theorem updFifo_keeps {z : State} {s : State} {f : Fin 2} {g : RxFifo → RxFifo} (hz : Keeps z s) : Keeps z
    (State.updFifo s f g) := by
  unfold State.updFifo
  repeat' first
    | with_reducible assumption | split | dsimp only | with_reducible refine Keeps.upd ?_ rfl rfl rfl

theorem releaseFifo_keeps {z : State} {s : State} {f : Fin 2} {m : Nat} (hz : Keeps z s) : Keeps z
    (releaseFifo s f m) := by
  unfold releaseFifo
  repeat' first
    | with_reducible assumption | with_reducible apply updFifo_keeps | split | dsimp only
    | with_reducible refine Keeps.upd ?_ rfl rfl rfl

theorem canRxAck_keeps {z : State} {s : State} {f : Fin 2} {v : Word} (hz : Keeps z s) : Keeps z
    (canRxAck s f v).1 := by
  unfold canRxAck
  repeat' first
    | with_reducible assumption | with_reducible apply releaseFifo_keeps | with_reducible apply Keeps.ite
    | with_reducible apply Keeps.iteFst | split | dsimp only

theorem storeFrame_keeps {z : State} {s : State} {f : CanFrame} {k : Fin 64} {q : Fin 2} (hz : Keeps z s) : Keeps z
    (storeFrame s f k q) := by
  unfold storeFrame
  repeat' first
    | with_reducible assumption | with_reducible apply queueRated_keeps | with_reducible apply updFifo_keeps
    | with_reducible apply Keeps.ite | split | dsimp only | with_reducible refine Keeps.upd ?_ rfl rfl rfl
    | with_reducible refine Keeps.updMem ?_ rfl rfl rfl

theorem filterFrame_keeps {z : State} {s : State} {f : CanFrame} (hz : Keeps z s) : Keeps z (filterFrame s f) := by
  unfold filterFrame
  repeat' first
    | with_reducible assumption | with_reducible apply storeFrame_keeps | split | dsimp only

theorem countReplaced_keeps {z : State} {s : State} {b : Fin 16} (hz : Keeps z s) : Keeps z (countReplaced s b) := by
  unfold countReplaced
  repeat' first
    | with_reducible assumption | with_reducible apply Keeps.ite | split | dsimp only
    | with_reducible refine Keeps.upd ?_ rfl rfl rfl

theorem offerMessage_keeps {z : State} {s : State} {b : Fin 16} {elem : List Byte} (hz : Keeps z s) : Keeps z
    (offerMessage s b elem) := by
  unfold offerMessage
  repeat' first
    | with_reducible assumption | with_reducible apply updTx_keeps | with_reducible apply markStarted_keeps
    | with_reducible apply countReplaced_keeps | with_reducible apply Keeps.ite | split | dsimp only
    | with_reducible refine Keeps.upd ?_ rfl rfl rfl | with_reducible refine Keeps.updMem ?_ rfl rfl rfl

theorem startTime_keeps {z : State} {s : State} (hz : Keeps z s) : Keeps z (startTime s) := by
  unfold startTime
  repeat' first
    | with_reducible assumption | split | dsimp only | with_reducible refine Keeps.upd ?_ rfl rfl rfl

theorem canStart_keeps {z : State} {s : State} (hz : Keeps z s) : Keeps z (canStart s) := by
  unfold canStart
  repeat' first
    | with_reducible assumption | with_reducible apply startTime_keeps | with_reducible apply Keeps.ite | split
    | dsimp only | with_reducible refine Keeps.upd ?_ rfl rfl rfl

theorem canStop_keeps {z : State} {s : State} (hz : Keeps z s) : Keeps z (canStop s) := by
  unfold canStop
  repeat' first
    | with_reducible assumption | (with_reducible apply Keeps.foldl; rotate_left; intro _ _ _)
    | with_reducible apply endTransmission_keeps | with_reducible apply failBuffer_keeps
    | with_reducible apply Keeps.ite | split | dsimp only | with_reducible refine Keeps.upd ?_ rfl rfl rfl

theorem canCtlWrite_keeps {z : State} {s : State} {v : Word} (hz : Keeps z s) : Keeps z (canCtlWrite s v).1 := by
  unfold canCtlWrite
  repeat' first
    | with_reducible assumption | with_reducible apply canStart_keeps | with_reducible apply canStop_keeps
    | with_reducible apply Keeps.ite | with_reducible apply Keeps.iteFst | split | dsimp only
    | with_reducible refine Keeps.upd ?_ rfl rfl rfl

theorem keepMessage_keeps {z : State} {s : State} (hz : Keeps z s) : Keeps z (keepMessage s) := by
  unfold keepMessage
  repeat' first
    | with_reducible assumption | split | dsimp only | with_reducible refine Keeps.upd ?_ rfl rfl rfl

theorem undoMessages_keeps {z : State} {s : State} (hz : Keeps z s) : Keeps z (undoMessages s) := by
  unfold undoMessages
  repeat' first
    | with_reducible assumption | split | dsimp only | with_reducible refine Keeps.upd ?_ rfl rfl rfl

theorem sendAgain_keeps {z : State} {s : State} {x : Fin 16 × List Byte} (hz : Keeps z s) : Keeps z
    (sendAgain s x) := by
  unfold sendAgain
  repeat' first
    | with_reducible assumption | with_reducible apply updTx_keeps | with_reducible apply Keeps.ite | split
    | dsimp only | with_reducible refine Keeps.upd ?_ rfl rfl rfl

theorem cutFrames_keeps {z : State} {s : State} (hz : Keeps z s) : Keeps z (cutFrames s) := by
  unfold cutFrames
  repeat' first
    | with_reducible assumption | (with_reducible apply Keeps.foldl; rotate_left; intro _ _ _)
    | with_reducible apply endTransmission_keeps | with_reducible apply updFifo_keeps
    | with_reducible apply undoMessages_keeps | with_reducible apply sendAgain_keeps | split | dsimp only
    | with_reducible refine Keeps.upd ?_ rfl rfl rfl

end Sys2Proof.Safety
end

