-- ==== Sys2Proof/Laws/KeepsGateDrive.lean ====
section
/-! SUPPORT. What the operations of Machine/GateDrive.lean keep. -/
namespace Sys2Proof.Safety

open Sys2Proof.Machine

set_option simprocs false

theorem joinRestart_keeps {z : State} {s : State} {g : Fin 4} {legs suspect : BitVec 8} (hz : Keeps z s) : Keeps z
    (joinRestart s g legs suspect) := by
  unfold joinRestart
  repeat' first
    | with_reducible assumption | (with_reducible apply Keeps.foldl; rotate_left; intro _ _ _)
    | with_reducible apply updLeg_keeps | with_reducible apply updGrp_keeps | split | dsimp only
    | with_reducible refine Keeps.upd ?_ rfl rfl rfl

theorem stageFault_keeps {z : State} {s : State} {cs : List (Fin 16)} (hz : Keeps z s) : Keeps z (stageFault s cs) := by
  unfold stageFault
  repeat' first
    | with_reducible assumption | (with_reducible apply Keeps.foldl; rotate_left; intro _ _ _)
    | with_reducible apply faultMembers_keeps | split | dsimp only

theorem scTrip_keeps {z : State} {l : Fin 32} {hard : Bool} {milliamps : Int} {s : State} (hz : Keeps z s) : Keeps z
    (scTrip l hard milliamps s) := by
  unfold scTrip
  repeat' first
    | with_reducible assumption | with_reducible apply updLeg_keeps | with_reducible apply queueEvent_keeps
    | with_reducible apply joinRestart_keeps | with_reducible apply stageFault_keeps | with_reducible apply Keeps.ite
    | split | dsimp only | with_reducible refine Keeps.upd ?_ rfl rfl rfl

theorem scGroupTrip_keeps {z : State} {g : Fin 4} {hard : Bool} {tripped turnedOn : BitVec 8} {s : State}
    (hz : Keeps z s) : Keeps z (scGroupTrip g hard tripped turnedOn s) := by
  unfold scGroupTrip
  repeat' first
    | with_reducible assumption | (with_reducible apply Keeps.foldl; rotate_left; intro _ _ _)
    | with_reducible apply updLeg_keeps | with_reducible apply queueEvent_keeps
    | with_reducible apply joinRestart_keeps | with_reducible apply stageFault_keeps | with_reducible apply Keeps.ite
    | split | dsimp only | with_reducible refine Keeps.upd ?_ rfl rfl rfl

theorem probeMark_keeps {z : State} {step : Nat} {s : State} {l : Fin 32} (hz : Keeps z s) : Keeps z
    (probeMark step s l) := by
  unfold probeMark
  repeat' first
    | with_reducible assumption | with_reducible apply updLeg_keeps | with_reducible apply queueEvent_keeps | split
    | dsimp only | with_reducible refine Keeps.upd ?_ rfl rfl rfl

theorem probeFail_keeps {z : State} {s : State} {ls : List (Fin 32)} {step : Nat} (hz : Keeps z s) : Keeps z
    (probeFail s ls step) := by
  unfold probeFail
  repeat' first
    | with_reducible assumption | (with_reducible apply Keeps.foldl; rotate_left; intro _ _ _)
    | with_reducible apply leaveRestart_keeps | with_reducible apply stageFault_keeps
    | with_reducible apply probeMark_keeps | split | dsimp only

theorem restartDecay_keeps {z : State} {g : Fin 4} {above : BitVec 8} {s : State} (hz : Keeps z s) : Keeps z
    (restartDecay g above s) := by
  unfold restartDecay
  repeat' first
    | with_reducible assumption | with_reducible apply probeFail_keeps | split | dsimp only

theorem probeLeg_keeps {z : State} {g : Fin 4} {failStep : Vector Nat 8} {s : State} {i : Fin 8}
    (hz : Keeps z s) : Keeps z (probeLeg g failStep s i) := by
  unfold probeLeg
  repeat' first
    | with_reducible assumption | with_reducible apply updGrp_keeps | with_reducible apply probeFail_keeps
    | with_reducible apply Keeps.ite | split | dsimp only | with_reducible refine Keeps.upd ?_ rfl rfl rfl

theorem restartHoldoff_keeps {z : State} {g : Fin 4} {failStep : Vector Nat 8} {s : State} (hz : Keeps z s) : Keeps z
    (restartHoldoff g failStep s) := by
  unfold restartHoldoff
  repeat' first
    | with_reducible assumption | (with_reducible apply Keeps.foldl; rotate_left; intro _ _ _)
    | with_reducible apply updGrp_keeps | with_reducible apply probeLeg_keeps | with_reducible apply Keeps.ite | split
    | dsimp only | with_reducible refine Keeps.upd ?_ rfl rfl rfl

theorem endRestart_keeps {z : State} {s : State} {g : Fin 4} (hz : Keeps z s) : Keeps z (endRestart s g) := by
  unfold endRestart
  repeat' first
    | with_reducible assumption | (with_reducible apply Keeps.foldl; rotate_left; intro _ _ _)
    | with_reducible apply updCh_keeps | with_reducible apply updLeg_keeps | with_reducible apply updGrp_keeps
    | with_reducible apply queueEvent_keeps | with_reducible apply Keeps.ite | split | dsimp only
    | with_reducible refine Keeps.upd ?_ rfl rfl rfl

theorem bootstrapPark_keeps {z : State} {s : State} {l : Fin 32} (hz : Keeps z s) : Keeps z (bootstrapPark s l) := by
  unfold bootstrapPark
  repeat' first
    | with_reducible assumption | with_reducible apply updLeg_keeps | with_reducible apply queueEvent_keeps
    | with_reducible apply legsFault_keeps | split | dsimp only | with_reducible refine Keeps.upd ?_ rfl rfl rfl

theorem bootstrapTrip_keeps {z : State} {l : Fin 32} {softOff : Bool} {periods : Nat} {s : State}
    (hz : Keeps z s) : Keeps z (bootstrapTrip l softOff periods s) := by
  unfold bootstrapTrip
  repeat' first
    | with_reducible assumption | with_reducible apply updLeg_keeps | with_reducible apply queueEvent_keeps
    | with_reducible apply queueOnce_keeps | with_reducible apply bootstrapPark_keeps | with_reducible apply Keeps.ite
    | split | dsimp only | with_reducible refine Keeps.upd ?_ rfl rfl rfl

theorem bootstrapLift_keeps {z : State} {l : Fin 32} {s : State} (hz : Keeps z s) : Keeps z (bootstrapLift l s) := by
  unfold bootstrapLift
  repeat' first
    | with_reducible assumption | with_reducible apply updLeg_keeps | split | dsimp only
    | with_reducible refine Keeps.upd ?_ rfl rfl rfl

theorem bootstrapStretch_keeps {z : State} {l : Fin 32} {s : State} (hz : Keeps z s) : Keeps z
    (bootstrapStretch l s) := by
  unfold bootstrapStretch
  repeat' first
    | with_reducible assumption | with_reducible apply updLeg_keeps | with_reducible apply Keeps.ite | split
    | dsimp only | with_reducible refine Keeps.upd ?_ rfl rfl rfl

theorem interlockHit_keeps {z : State} {l : Fin 32} {s : State} (hz : Keeps z s) : Keeps z (interlockHit l s) := by
  unfold interlockHit
  repeat' first
    | with_reducible assumption | with_reducible apply updLeg_keeps | with_reducible apply queueOnce_keeps | split
    | dsimp only | with_reducible refine Keeps.upd ?_ rfl rfl rfl

theorem legConvFault_keeps {z : State} {s : State} {l : Fin 32} (hz : Keeps z s) : Keeps z (legConvFault s l) := by
  unfold legConvFault
  repeat' first
    | with_reducible assumption | with_reducible apply updLeg_keeps | with_reducible apply queueEvent_keeps
    | with_reducible apply legsFault_keeps | split | dsimp only | with_reducible refine Keeps.upd ?_ rfl rfl rfl

theorem accusedLeg_keeps {z : State} {s : State} {c : Fin 16} (hz : Keeps z s) : Keeps z (accusedLeg s c).2 := by
  unfold accusedLeg
  repeat' first
    | with_reducible assumption | with_reducible apply drawFree_keeps | with_reducible apply Keeps.ite
    | with_reducible apply Keeps.iteSnd | split | dsimp only

theorem loopSatEvent_keeps {z : State} {c : Fin 16} {s : State} (hz : Keeps z s) : Keeps z (loopSatEvent c s) := by
  unfold loopSatEvent
  repeat' first
    | with_reducible assumption | with_reducible apply updCh_keeps | with_reducible apply queueEvent_keeps
    | with_reducible apply Keeps.ite | split | dsimp only | with_reducible refine Keeps.upd ?_ rfl rfl rfl

theorem implausibleEvent_keeps {z : State} {c : Fin 16} {k : Fin 4} {s : State} (hz : Keeps z s) : Keeps z
    (implausibleEvent c k s) := by
  unfold implausibleEvent
  repeat' first
    | with_reducible assumption | with_reducible apply updCh_keeps | with_reducible apply queueEvent_keeps
    | with_reducible apply addCause_keeps | with_reducible apply legConvFault_keeps
    | with_reducible apply accusedLeg_keeps | with_reducible apply Keeps.ite | split | dsimp only
    | with_reducible refine Keeps.upd ?_ rfl rfl rfl

theorem execScTrip_keeps {leg : Fin 32} {hard : Bool} {milliamps : Int} {s : State} {t : State}
    (hz : execScTrip leg hard milliamps s = .next t) : Keeps s t := by
  unfold execScTrip at hz
  obtain rfl := Host.Outcome.next.inj hz
  clear hz
  have hz := Keeps.refl s
  repeat' first
    | with_reducible assumption | with_reducible apply scTrip_keeps | with_reducible apply Keeps.ite
    | with_reducible apply Keeps.iteFst | with_reducible intro _ _ _ | split | dsimp only

theorem execScGroup_keeps {group : Fin 4} {hard : Bool} {tripped turnedOn : BitVec 8} {s : State} {t : State}
    (hz : execScGroup group hard tripped turnedOn s = .next t) : Keeps s t := by
  unfold execScGroup at hz
  obtain rfl := Host.Outcome.next.inj hz
  clear hz
  have hz := Keeps.refl s
  repeat' first
    | with_reducible assumption | with_reducible apply scGroupTrip_keeps | with_reducible apply Keeps.ite
    | with_reducible apply Keeps.iteFst | with_reducible intro _ _ _ | split | dsimp only

theorem execRestartDecayTimeout_keeps {group : Fin 4} {above : BitVec 8} {s : State} {t : State}
    (hz : execRestartDecayTimeout group above s = .next t) : Keeps s t := by
  unfold execRestartDecayTimeout at hz
  obtain rfl := Host.Outcome.next.inj hz
  clear hz
  have hz := Keeps.refl s
  repeat' first
    | with_reducible assumption | with_reducible apply restartDecay_keeps | with_reducible apply Keeps.ite
    | with_reducible apply Keeps.iteFst | with_reducible intro _ _ _ | split | dsimp only

theorem execRestartHoldoffEnd_keeps {group : Fin 4} {failStep : Vector Nat 8} {s : State} {t : State}
    (hz : execRestartHoldoffEnd group failStep s = .next t) : Keeps s t := by
  unfold execRestartHoldoffEnd at hz
  obtain rfl := Host.Outcome.next.inj hz
  clear hz
  have hz := Keeps.refl s
  repeat' first
    | with_reducible assumption | with_reducible apply restartHoldoff_keeps | with_reducible apply Keeps.ite
    | with_reducible apply Keeps.iteFst | with_reducible intro _ _ _ | split | dsimp only

theorem execBootstrapUv_keeps {trip : BootTrip} {s : State} {t : State}
    (hz : execBootstrapUv trip s = .next t) : Keeps s t := by
  unfold execBootstrapUv at hz
  obtain rfl := Host.Outcome.next.inj hz
  clear hz
  have hz := Keeps.refl s
  repeat' first
    | with_reducible assumption | with_reducible apply bootstrapTrip_keeps | with_reducible apply Keeps.ite
    | with_reducible apply Keeps.iteFst | with_reducible intro _ _ _ | split | dsimp only

theorem execBootstrapDlimLift_keeps {leg : Fin 32} {s : State} {t : State}
    (hz : execBootstrapDlimLift leg s = .next t) : Keeps s t := by
  unfold execBootstrapDlimLift at hz
  obtain rfl := Host.Outcome.next.inj hz
  clear hz
  have hz := Keeps.refl s
  repeat' first
    | with_reducible assumption | with_reducible apply bootstrapLift_keeps | with_reducible apply Keeps.ite
    | with_reducible apply Keeps.iteFst | with_reducible intro _ _ _ | split | dsimp only

theorem execBootstrapRefresh_keeps {leg : Fin 32} {s : State} {t : State}
    (hz : execBootstrapRefresh leg s = .next t) : Keeps s t := by
  unfold execBootstrapRefresh at hz
  obtain rfl := Host.Outcome.next.inj hz
  clear hz
  have hz := Keeps.refl s
  repeat' first
    | with_reducible assumption | with_reducible apply bootstrapStretch_keeps | with_reducible apply Keeps.ite
    | with_reducible apply Keeps.iteFst | with_reducible intro _ _ _ | split | dsimp only

theorem execInterlock_keeps {leg : Fin 32} {s : State} {t : State}
    (hz : execInterlock leg s = .next t) : Keeps s t := by
  unfold execInterlock at hz
  obtain rfl := Host.Outcome.next.inj hz
  clear hz
  have hz := Keeps.refl s
  repeat' first
    | with_reducible assumption | with_reducible apply interlockHit_keeps | with_reducible apply Keeps.ite
    | with_reducible apply Keeps.iteFst | with_reducible intro _ _ _ | split | dsimp only

theorem execLoopSat_keeps {ch : Fin 16} {s : State} {t : State} (hz : execLoopSat ch s = .next t) : Keeps s t := by
  unfold execLoopSat at hz
  obtain rfl := Host.Outcome.next.inj hz
  clear hz
  have hz := Keeps.refl s
  repeat' first
    | with_reducible assumption | with_reducible apply loopSatEvent_keeps | with_reducible apply Keeps.ite
    | with_reducible apply Keeps.iteFst | with_reducible intro _ _ _ | split | dsimp only

theorem execImplausible_keeps {ch : Fin 16} {check : Fin 4} {s : State} {t : State}
    (hz : execImplausible ch check s = .next t) : Keeps s t := by
  unfold execImplausible at hz
  obtain rfl := Host.Outcome.next.inj hz
  clear hz
  have hz := Keeps.refl s
  repeat' first
    | with_reducible assumption | with_reducible apply implausibleEvent_keeps | with_reducible apply Keeps.ite
    | with_reducible apply Keeps.iteFst | with_reducible intro _ _ _ | split | dsimp only

end Sys2Proof.Safety
end

