-- ==== Sys2Proof/Laws/KeepsSafetyEvents.lean ====
section
/-! SUPPORT. What the operations of Machine/SafetyEvents.lean keep. -/
namespace Sys2Proof.Safety

open Sys2Proof.Machine

set_option simprocs false

theorem discProgress_keeps {z : State} {s : State} {i : Fin 4} (hz : Keeps z s) : Keeps z (discProgress s i) := by
  unfold discProgress
  repeat' first
    | with_reducible assumption | with_reducible apply Keeps.ite | split | dsimp only
    | with_reducible refine Keeps.upd ?_ rfl rfl rfl

theorem stopInput_keeps {z : State} {i : Fin 4} {chanB level : Bool} {s : State} (hz : Keeps z s) : Keeps z
    (stopInput i chanB level s) := by
  unfold stopInput
  repeat' first
    | with_reducible assumption | with_reducible apply demand_keeps | with_reducible apply discProgress_keeps
    | with_reducible apply Keeps.ite | split | dsimp only | with_reducible refine Keeps.upd ?_ rfl rfl rfl

theorem storeLatch_keeps {z : State} {s : State} (hz : Keeps z s) : Keeps z (storeLatch s) := by
  unfold storeLatch
  repeat' first
    | with_reducible assumption | with_reducible apply Keeps.ite | split | dsimp only
    | with_reducible refine Keeps.upd ?_ rfl rfl rfl

theorem discrepancy_keeps {z : State} {i : Fin 4} {s : State} (hz : Keeps z s) : Keeps z (discrepancy i s) := by
  unfold discrepancy
  repeat' first
    | with_reducible assumption | with_reducible apply queueEvent_keeps | with_reducible apply demand_keeps
    | with_reducible apply Keeps.ite | split | dsimp only | with_reducible refine Keeps.upd ?_ rfl rfl rfl

theorem cat1Expiry_keeps {z : State} {s : State} (hz : Keeps z s) : Keeps z (cat1Expiry s) := by
  unfold cat1Expiry
  repeat' first
    | with_reducible assumption | with_reducible apply category0_keeps | with_reducible apply Keeps.ite | split
    | dsimp only

theorem standstillLost_keeps {z : State} {c : Fin 16} {milliamps : Nat} {s : State} (hz : Keeps z s) : Keeps z
    (standstillLost c milliamps s) := by
  unfold standstillLost
  repeat' first
    | with_reducible assumption | with_reducible apply queueEvent_keeps | with_reducible apply abortStaged_keeps
    | with_reducible apply escalate_keeps | with_reducible apply Keeps.ite | split | dsimp only

theorem outputFail_keeps {z : State} {s : State} {o : Fin 2} {switch : Nat} (hz : Keeps z s) : Keeps z
    (outputFail s o switch) := by
  unfold outputFail
  repeat' first
    | with_reducible assumption | with_reducible apply queueEvent_keeps | with_reducible apply setOutputs_keeps
    | with_reducible apply demand_keeps | split | dsimp only

theorem offPulse_keeps {z : State} {o : Fin 2} {pass : Bool} {s : State} (hz : Keeps z s) : Keeps z
    (offPulse o pass s) := by
  unfold offPulse
  repeat' first
    | with_reducible assumption | with_reducible apply outputFail_keeps | with_reducible apply Keeps.ite | split
    | dsimp only | with_reducible refine Keeps.upd ?_ rfl rfl rfl

theorem overload_keeps {z : State} {o : Fin 2} {s : State} (hz : Keeps z s) : Keeps z (overload o s) := by
  unfold overload
  repeat' first
    | with_reducible assumption | with_reducible apply queueEvent_keeps | with_reducible apply setOutputs_keeps
    | with_reducible apply demand_keeps | with_reducible apply Keeps.ite | split | dsimp only
    | with_reducible refine Keeps.upd ?_ rfl rfl rfl

theorem feedbackFault_keeps {z : State} {o : Fin 2} {s : State} (hz : Keeps z s) : Keeps z (feedbackFault o s) := by
  unfold feedbackFault
  repeat' first
    | with_reducible assumption | with_reducible apply queueEvent_keeps | with_reducible apply demand_keeps
    | with_reducible apply Keeps.ite | split | dsimp only | with_reducible refine Keeps.upd ?_ rfl rfl rfl

theorem feedbackChange_keeps {z : State} {o : Fin 2} {level : Bool} {s : State} (hz : Keeps z s) : Keeps z
    (feedbackChange o level s) := by
  unfold feedbackChange
  repeat' first
    | with_reducible assumption | with_reducible apply setOutputs_keeps | with_reducible apply refreshOutputs_keeps
    | split | dsimp only | with_reducible refine Keeps.upd ?_ rfl rfl rfl

theorem vsoLow_keeps {z : State} {s : State} (hz : Keeps z s) : Keeps z (vsoLow s) := by
  unfold vsoLow
  repeat' first
    | with_reducible assumption | (with_reducible apply Keeps.foldl; rotate_left; intro _ _ _)
    | with_reducible apply outputFail_keeps | split | dsimp only | with_reducible refine Keeps.upd ?_ rfl rfl rfl

theorem cpTripped_keeps {z : State} {c : Fin 16} {k : CpKind} {s : State} (hz : Keeps z s) : Keeps z
    (cpTripped c k s) := by
  unfold cpTripped
  repeat' first
    | with_reducible assumption | with_reducible apply protectionTrip_keeps | with_reducible apply Keeps.ite | split
    | dsimp only | with_reducible refine Keeps.upd ?_ rfl rfl rfl

theorem cpTests_keeps {z : State} {failed : Mask} {s : State} (hz : Keeps z s) : Keeps z (cpTests failed s) := by
  unfold cpTests
  repeat' first
    | with_reducible assumption | (with_reducible apply Keeps.foldl; rotate_left; intro _ _ _)
    | with_reducible apply protectionTrip_keeps | with_reducible apply Keeps.ite | split | dsimp only
    | with_reducible refine Keeps.upd ?_ rfl rfl rfl

theorem cpCompare_keeps {z : State} {s : State} {c : Fin 16} (hz : Keeps z s) : Keeps z (cpCompare s c) := by
  unfold cpCompare
  repeat' first
    | with_reducible assumption | with_reducible apply protectionTrip_keeps | with_reducible apply Keeps.ite | split
    | dsimp only | with_reducible refine Keeps.upd ?_ rfl rfl rfl

theorem refClockLost_keeps {z : State} {s : State} (hz : Keeps z s) : Keeps z (refClockLost s) := by
  unfold refClockLost
  repeat' first
    | with_reducible assumption | with_reducible apply demand_keeps | with_reducible apply Keeps.ite | split
    | dsimp only | with_reducible refine Keeps.upd ?_ rfl rfl rfl

theorem safetyOscFailed_keeps {z : State} {s : State} (hz : Keeps z s) : Keeps z (safetyOscFailed s) := by
  unfold safetyOscFailed
  repeat' first
    | with_reducible assumption | with_reducible apply demand_keeps | with_reducible apply Keeps.ite | split
    | dsimp only | with_reducible refine Keeps.upd ?_ rfl rfl rfl

theorem clockGood_keeps {z : State} {oscillator : Bool} {s : State} (hz : Keeps z s) : Keeps z
    (clockGood oscillator s) := by
  unfold clockGood
  repeat' first
    | with_reducible assumption | with_reducible apply Keeps.ite | split | dsimp only
    | with_reducible refine Keeps.upd ?_ rfl rfl rfl

theorem gateDisableFailed_keeps {z : State} {g : Fin 4} {s : State} (hz : Keeps z s) : Keeps z
    (gateDisableFailed g s) := by
  unfold gateDisableFailed
  repeat' first
    | with_reducible assumption | with_reducible apply updGrp_keeps | with_reducible apply demand_keeps
    | with_reducible apply Keeps.ite | split | dsimp only | with_reducible refine Keeps.upd ?_ rfl rfl rfl

theorem safetyDiverged_keeps {z : State} {s : State} (hz : Keeps z s) : Keeps z (safetyDiverged s) := by
  unfold safetyDiverged
  repeat' first
    | with_reducible assumption | with_reducible apply escalate_keeps | with_reducible apply Keeps.ite | split
    | dsimp only | with_reducible refine Keeps.upd ?_ rfl rfl rfl

theorem safetyRestarted_keeps {z : State} {micros : Nat} {s : State} (hz : Keeps z s) : Keeps z
    (safetyRestarted micros s) := by
  unfold safetyRestarted
  repeat' first
    | with_reducible assumption | with_reducible apply queueEvent_keeps | with_reducible apply Keeps.ite | split
    | dsimp only | with_reducible refine Keeps.upd ?_ rfl rfl rfl

theorem sessionExpires_keeps {z : State} {s : State} (hz : Keeps z s) : Keeps z (sessionExpires s) := by
  unfold sessionExpires
  repeat' first
    | with_reducible assumption | with_reducible apply timePasses_keeps | with_reducible apply closeSession_keeps
    | with_reducible apply Keeps.ite | split | dsimp only

theorem unlockSlot_keeps {z : State} {m : Fin 4} {s : State} (hz : Keeps z s) : Keeps z (unlockSlot m s) := by
  unfold unlockSlot
  repeat' first
    | with_reducible assumption | with_reducible apply timePasses_keeps | with_reducible apply Keeps.ite | split
    | dsimp only | with_reducible refine Keeps.upd ?_ rfl rfl rfl

theorem execStopInputChange_keeps {input : Fin 4} {chanB level : Bool} {s : State} {t : State}
    (hz : execStopInputChange input chanB level s = .next t) : Keeps s t := by
  unfold execStopInputChange at hz
  obtain rfl := Host.Outcome.next.inj hz
  clear hz
  have hz := Keeps.refl s
  repeat' first
    | with_reducible assumption | with_reducible apply stopInput_keeps | with_reducible apply Keeps.ite
    | with_reducible apply Keeps.iteFst | with_reducible intro _ _ _ | split | dsimp only

theorem execSafeLatchStore_keeps {s : State} {t : State} (hz : execSafeLatchStore s = .next t) : Keeps s t := by
  unfold execSafeLatchStore at hz
  obtain rfl := Host.Outcome.next.inj hz
  clear hz
  have hz := Keeps.refl s
  repeat' first
    | with_reducible assumption | with_reducible apply storeLatch_keeps | with_reducible apply Keeps.ite
    | with_reducible apply Keeps.iteFst | with_reducible intro _ _ _ | split | dsimp only

theorem execDiscrep_keeps {input : Fin 4} {s : State} {t : State} (hz : execDiscrep input s = .next t) : Keeps s t := by
  unfold execDiscrep at hz
  obtain rfl := Host.Outcome.next.inj hz
  clear hz
  have hz := Keeps.refl s
  repeat' first
    | with_reducible assumption | with_reducible apply discrepancy_keeps | with_reducible apply Keeps.ite
    | with_reducible apply Keeps.iteFst | with_reducible intro _ _ _ | split | dsimp only

theorem execCat1TimerExpiry_keeps {s : State} {t : State} (hz : execCat1TimerExpiry s = .next t) : Keeps s t := by
  unfold execCat1TimerExpiry at hz
  obtain rfl := Host.Outcome.next.inj hz
  clear hz
  have hz := Keeps.refl s
  repeat' first
    | with_reducible assumption | with_reducible apply cat1Expiry_keeps | with_reducible apply Keeps.ite
    | with_reducible apply Keeps.iteFst | with_reducible intro _ _ _ | split | dsimp only

theorem execSafeEscalate_keeps {ch : Fin 16} {milliamps : Nat} {s : State} {t : State}
    (hz : execSafeEscalate ch milliamps s = .next t) : Keeps s t := by
  unfold execSafeEscalate at hz
  obtain rfl := Host.Outcome.next.inj hz
  clear hz
  have hz := Keeps.refl s
  repeat' first
    | with_reducible assumption | with_reducible apply standstillLost_keeps | with_reducible apply Keeps.ite
    | with_reducible apply Keeps.iteFst | with_reducible intro _ _ _ | split | dsimp only

theorem execOffPulseTest_keeps {out : Fin 2} {pass : Bool} {s : State} {t : State}
    (hz : execOffPulseTest out pass s = .next t) : Keeps s t := by
  unfold execOffPulseTest at hz
  obtain rfl := Host.Outcome.next.inj hz
  clear hz
  have hz := Keeps.refl s
  repeat' first
    | with_reducible assumption | with_reducible apply offPulse_keeps | with_reducible apply Keeps.ite
    | with_reducible apply Keeps.iteFst | with_reducible intro _ _ _ | split | dsimp only

theorem execSoOverload_keeps {out : Fin 2} {s : State} {t : State}
    (hz : execSoOverload out s = .next t) : Keeps s t := by
  unfold execSoOverload at hz
  obtain rfl := Host.Outcome.next.inj hz
  clear hz
  have hz := Keeps.refl s
  repeat' first
    | with_reducible assumption | with_reducible apply overload_keeps | with_reducible apply Keeps.ite
    | with_reducible apply Keeps.iteFst | with_reducible intro _ _ _ | split | dsimp only

theorem execSofbFault_keeps {out : Fin 2} {s : State} {t : State} (hz : execSofbFault out s = .next t) : Keeps s t := by
  unfold execSofbFault at hz
  obtain rfl := Host.Outcome.next.inj hz
  clear hz
  have hz := Keeps.refl s
  repeat' first
    | with_reducible assumption | with_reducible apply feedbackFault_keeps | with_reducible apply Keeps.ite
    | with_reducible apply Keeps.iteFst | with_reducible intro _ _ _ | split | dsimp only

theorem execSofbChange_keeps {out : Fin 2} {level : Bool} {s : State} {t : State}
    (hz : execSofbChange out level s = .next t) : Keeps s t := by
  unfold execSofbChange at hz
  obtain rfl := Host.Outcome.next.inj hz
  clear hz
  have hz := Keeps.refl s
  repeat' first
    | with_reducible assumption | with_reducible apply feedbackChange_keeps | with_reducible apply Keeps.ite
    | with_reducible apply Keeps.iteFst | with_reducible intro _ _ _ | split | dsimp only

theorem execVsoUndervoltage_keeps {s : State} {t : State} (hz : execVsoUndervoltage s = .next t) : Keeps s t := by
  unfold execVsoUndervoltage at hz
  obtain rfl := Host.Outcome.next.inj hz
  clear hz
  have hz := Keeps.refl s
  repeat' first
    | with_reducible assumption | with_reducible apply vsoLow_keeps | with_reducible apply Keeps.ite
    | with_reducible apply Keeps.iteFst | with_reducible intro _ _ _ | split | dsimp only

theorem execCpTrip_keeps {ch : Fin 16} {kind : CpKind} {s : State} {t : State}
    (hz : execCpTrip ch kind s = .next t) : Keeps s t := by
  unfold execCpTrip at hz
  obtain rfl := Host.Outcome.next.inj hz
  clear hz
  have hz := Keeps.refl s
  repeat' first
    | with_reducible assumption | with_reducible apply cpTripped_keeps | with_reducible apply Keeps.ite
    | with_reducible apply Keeps.iteFst | with_reducible intro _ _ _ | split | dsimp only

theorem execCpDiag_keeps {failed : Mask} {s : State} {t : State} (hz : execCpDiag failed s = .next t) : Keeps s t := by
  unfold execCpDiag at hz
  obtain rfl := Host.Outcome.next.inj hz
  clear hz
  have hz := Keeps.refl s
  repeat' first
    | with_reducible assumption | with_reducible apply cpTests_keeps | with_reducible apply Keeps.ite
    | with_reducible apply Keeps.iteFst | with_reducible intro _ _ _ | split | dsimp only

theorem execRefClockLoss_keeps {s : State} {t : State} (hz : execRefClockLoss s = .next t) : Keeps s t := by
  unfold execRefClockLoss at hz
  obtain rfl := Host.Outcome.next.inj hz
  clear hz
  have hz := Keeps.refl s
  repeat' first
    | with_reducible assumption | with_reducible apply refClockLost_keeps | with_reducible apply Keeps.ite
    | with_reducible apply Keeps.iteFst | with_reducible intro _ _ _ | split | dsimp only

theorem execSafetyOscFail_keeps {s : State} {t : State} (hz : execSafetyOscFail s = .next t) : Keeps s t := by
  unfold execSafetyOscFail at hz
  obtain rfl := Host.Outcome.next.inj hz
  clear hz
  have hz := Keeps.refl s
  repeat' first
    | with_reducible assumption | with_reducible apply safetyOscFailed_keeps | with_reducible apply Keeps.ite
    | with_reducible apply Keeps.iteFst | with_reducible intro _ _ _ | split | dsimp only

theorem execClockRecovered_keeps {oscillator : Bool} {s : State} {t : State}
    (hz : execClockRecovered oscillator s = .next t) : Keeps s t := by
  unfold execClockRecovered at hz
  obtain rfl := Host.Outcome.next.inj hz
  clear hz
  have hz := Keeps.refl s
  repeat' first
    | with_reducible assumption | with_reducible apply clockGood_keeps | with_reducible apply Keeps.ite
    | with_reducible apply Keeps.iteFst | with_reducible intro _ _ _ | split | dsimp only

theorem execGateDisableFault_keeps {group : Fin 4} {s : State} {t : State}
    (hz : execGateDisableFault group s = .next t) : Keeps s t := by
  unfold execGateDisableFault at hz
  obtain rfl := Host.Outcome.next.inj hz
  clear hz
  have hz := Keeps.refl s
  repeat' first
    | with_reducible assumption | with_reducible apply gateDisableFailed_keeps | with_reducible apply Keeps.ite
    | with_reducible apply Keeps.iteFst | with_reducible intro _ _ _ | split | dsimp only

theorem execSafetyCoreDivergence_keeps {s : State} {t : State}
    (hz : execSafetyCoreDivergence s = .next t) : Keeps s t := by
  unfold execSafetyCoreDivergence at hz
  obtain rfl := Host.Outcome.next.inj hz
  clear hz
  have hz := Keeps.refl s
  repeat' first
    | with_reducible assumption | with_reducible apply safetyDiverged_keeps | with_reducible apply Keeps.ite
    | with_reducible apply Keeps.iteFst | with_reducible intro _ _ _ | split | dsimp only

theorem execSafeCoreRestart_keeps {micros : Nat} {s : State} {t : State}
    (hz : execSafeCoreRestart micros s = .next t) : Keeps s t := by
  unfold execSafeCoreRestart at hz
  obtain rfl := Host.Outcome.next.inj hz
  clear hz
  have hz := Keeps.refl s
  repeat' first
    | with_reducible assumption | with_reducible apply safetyRestarted_keeps | with_reducible apply Keeps.ite
    | with_reducible apply Keeps.iteFst | with_reducible intro _ _ _ | split | dsimp only

theorem execSessionTimeout_keeps {s : State} {t : State} (hz : execSessionTimeout s = .next t) : Keeps s t := by
  unfold execSessionTimeout at hz
  obtain rfl := Host.Outcome.next.inj hz
  clear hz
  have hz := Keeps.refl s
  repeat' first
    | with_reducible assumption | with_reducible apply sessionExpires_keeps | with_reducible apply Keeps.ite
    | with_reducible apply Keeps.iteFst | with_reducible intro _ _ _ | split | dsimp only

theorem execSlotUnlock_keeps {slot : Fin 4} {s : State} {t : State}
    (hz : execSlotUnlock slot s = .next t) : Keeps s t := by
  unfold execSlotUnlock at hz
  obtain rfl := Host.Outcome.next.inj hz
  clear hz
  have hz := Keeps.refl s
  repeat' first
    | with_reducible assumption | with_reducible apply unlockSlot_keeps | with_reducible apply Keeps.ite
    | with_reducible apply Keeps.iteFst | with_reducible intro _ _ _ | split | dsimp only

end Sys2Proof.Safety
end

