-- ==== Sys2Proof/Laws/KeepsSafetySession.lean ====
section
/-! SUPPORT. What the operations of Machine/SafetySession.lean keep. -/
namespace Sys2Proof.Safety

open Sys2Proof.Machine

set_option simprocs false

theorem drawEntropy_keeps {z : State} {s : State} (hz : Keeps z s) : Keeps z (drawEntropy s).2 := by
  unfold drawEntropy
  repeat' first
    | with_reducible assumption | split | dsimp only | with_reducible refine Keeps.upd ?_ rfl rfl rfl

theorem sessionHeard_keeps {z : State} {s : State} (hz : Keeps z s) : Keeps z (sessionHeard s) := by
  unfold sessionHeard
  repeat' first
    | with_reducible assumption | with_reducible apply touchSession_keeps | with_reducible apply Keeps.ite | split
    | dsimp only

theorem sessionDenied_keeps {z : State} {s : State} (hz : Keeps z s) : Keeps z (sessionDenied s).1 := by
  unfold sessionDenied
  repeat' first
    | with_reducible assumption | split | dsimp only

theorem hello_keeps {z : State} {slot : Byte} {s : State} (hz : Keeps z s) : Keeps z (hello slot s).1 := by
  unfold hello
  repeat' first
    | with_reducible assumption | with_reducible apply timePasses_keeps | with_reducible apply drawEntropy_keeps
    | with_reducible apply sessionDenied_keeps | with_reducible apply Keeps.ite | with_reducible apply Keeps.iteFst
    | split | dsimp only | with_reducible refine Keeps.upd ?_ rfl rfl rfl

theorem loginFail_keeps {z : State} {s : State} {m : Fin 4} (hz : Keeps z s) : Keeps z (loginFail s m) := by
  unfold loginFail
  repeat' first
    | with_reducible assumption | with_reducible apply queueEvent_keeps | with_reducible apply logChange_keeps
    | with_reducible apply Keeps.ite | split | dsimp only | with_reducible refine Keeps.upd ?_ rfl rfl rfl

theorem openSession_keeps {z : State} {s : State} {m : Fin 4} {nonce : BitVec 128} (hz : Keeps z s) : Keeps z
    (openSession s m nonce) := by
  unfold openSession
  repeat' first
    | with_reducible assumption | with_reducible apply queueEvent_keeps | with_reducible apply logChange_keeps
    | with_reducible apply touchSession_keeps | with_reducible apply Keeps.ite | split | dsimp only
    | with_reducible refine Keeps.upd ?_ rfl rfl rfl

theorem login_keeps {z : State} {slot : Byte} {proof : List Byte} {s : State} (hz : Keeps z s) : Keeps z
    (login slot proof s).1 := by
  unfold login
  repeat' first
    | with_reducible assumption | with_reducible apply timePasses_keeps | with_reducible apply sessionDenied_keeps
    | with_reducible apply loginFail_keeps | with_reducible apply openSession_keeps | with_reducible apply Keeps.ite
    | with_reducible apply Keeps.iteFst | split | dsimp only | with_reducible refine Keeps.upd ?_ rfl rfl rfl

theorem logout_keeps {z : State} {s : State} (hz : Keeps z s) : Keeps z (logout s).1 := by
  unfold logout
  repeat' first
    | with_reducible assumption | with_reducible apply closeSession_keeps | with_reducible apply sessionDenied_keeps
    | with_reducible apply Keeps.ite | with_reducible apply Keeps.iteFst | split | dsimp only

theorem safeCommitBody_keeps {z : State} {r : Request} {s : State} (hz : Keeps z s) : Keeps z
    (safeCommitBody r s).1 := by
  unfold safeCommitBody
  repeat' first
    | with_reducible assumption | with_reducible apply sessionDenied_keeps | with_reducible apply Keeps.ite
    | with_reducible apply Keeps.iteFst | split | dsimp only | with_reducible refine Keeps.upd ?_ rfl rfl rfl

theorem safeCommitEnd_keeps {z : State} {ok : Bool} {s : State} (hz : Keeps z s) : Keeps z (safeCommitEnd ok s) := by
  unfold safeCommitEnd
  repeat' first
    | with_reducible assumption | (with_reducible apply Keeps.foldl; rotate_left; intro _ _ _)
    | with_reducible apply queueEvent_keeps | with_reducible apply reply_keeps | with_reducible apply logChange_keeps
    | with_reducible apply nvmFail_keeps | with_reducible apply applySafeCfg_keeps | with_reducible apply Keeps.ite
    | split | dsimp only | with_reducible refine Keeps.upd ?_ rfl rfl rfl

theorem setSlot_keeps {z : State} {s : State} {m : Fin 4} {x : Slot} (hz : Keeps z s) : Keeps z (setSlot s m x) := by
  unfold setSlot
  repeat' first
    | with_reducible assumption | split | dsimp only | with_reducible refine Keeps.upd ?_ rfl rfl rfl

theorem passwd_keeps {z : State} {slot len : Byte} {masked : List Byte} {s : State} (hz : Keeps z s) : Keeps z
    (passwd slot len masked s).1 := by
  unfold passwd
  repeat' first
    | with_reducible assumption | with_reducible apply logChange_keeps | with_reducible apply drawEntropy_keeps
    | with_reducible apply setSlot_keeps | with_reducible apply Keeps.ite | with_reducible apply Keeps.iteFst | split
    | dsimp only

theorem changeLogRead_keeps {z : State} {first : Word} {count : Byte} {s : State} (hz : Keeps z s) : Keeps z
    (changeLogRead first count s).1 := by
  unfold changeLogRead
  repeat' first
    | with_reducible assumption | with_reducible apply sessionDenied_keeps | with_reducible apply Keeps.ite
    | with_reducible apply Keeps.iteFst | split | dsimp only

theorem safeAckBody_keeps {z : State} {flags : Byte} {mask : Mask} {r : Request} {s : State}
    (hz : Keeps z s) : Keeps z (safeAckBody flags mask r s).1 := by
  unfold safeAckBody
  repeat' first
    | with_reducible assumption | with_reducible apply stage_keeps | with_reducible apply sessionDenied_keeps
    | with_reducible apply Keeps.ite | with_reducible apply Keeps.iteFst | split | dsimp only

theorem safeKeyBody_keeps {z : State} {masked : List Byte} {s : State} (hz : Keeps z s) : Keeps z
    (safeKeyBody masked s).1 := by
  unfold safeKeyBody
  repeat' first
    | with_reducible assumption | with_reducible apply logChange_keeps | with_reducible apply sessionDenied_keeps
    | with_reducible apply Keeps.ite | with_reducible apply Keeps.iteFst | split | dsimp only
    | with_reducible refine Keeps.upd ?_ rfl rfl rfl

theorem execSafeHello_keeps {slot : Byte} {s : State} {t : State}
    (hz : execSafeHello slot s = .next t) : Keeps s t := by
  unfold execSafeHello at hz
  obtain rfl := Host.Outcome.next.inj hz
  clear hz
  have hz := Keeps.refl s
  repeat' first
    | with_reducible assumption | with_reducible apply hostCommand_keeps | with_reducible apply sessionHeard_keeps
    | with_reducible apply hello_keeps | with_reducible apply Keeps.ite | with_reducible apply Keeps.iteFst
    | with_reducible intro _ _ _ | split | dsimp only

theorem execSafeLogin_keeps {slot : Byte} {proof : List Byte} {s : State} {t : State}
    (hz : execSafeLogin slot proof s = .next t) : Keeps s t := by
  unfold execSafeLogin at hz
  obtain rfl := Host.Outcome.next.inj hz
  clear hz
  have hz := Keeps.refl s
  repeat' first
    | with_reducible assumption | with_reducible apply hostCommand_keeps | with_reducible apply sessionHeard_keeps
    | with_reducible apply login_keeps | with_reducible apply Keeps.ite | with_reducible apply Keeps.iteFst
    | with_reducible intro _ _ _ | split | dsimp only

theorem execSafeLogout_keeps {s : State} {t : State} (hz : execSafeLogout s = .next t) : Keeps s t := by
  unfold execSafeLogout at hz
  obtain rfl := Host.Outcome.next.inj hz
  clear hz
  have hz := Keeps.refl s
  repeat' first
    | with_reducible assumption | with_reducible apply hostCommand_keeps | with_reducible apply sessionHeard_keeps
    | with_reducible apply logout_keeps | with_reducible apply Keeps.ite | with_reducible apply Keeps.iteFst
    | with_reducible intro _ _ _ | split | dsimp only

theorem execSafeCommit_keeps {s : State} {t : State} (hz : execSafeCommit s = .next t) : Keeps s t := by
  unfold execSafeCommit at hz
  obtain rfl := Host.Outcome.next.inj hz
  clear hz
  have hz := Keeps.refl s
  repeat' first
    | with_reducible assumption | with_reducible apply hostCommand_keeps | with_reducible apply sessionHeard_keeps
    | with_reducible apply safeCommitBody_keeps | with_reducible apply Keeps.ite | with_reducible apply Keeps.iteFst
    | with_reducible intro _ _ _ | split | dsimp only

theorem execSafeCommitDone_keeps {ok : Bool} {s : State} {t : State}
    (hz : execSafeCommitDone ok s = .next t) : Keeps s t := by
  unfold execSafeCommitDone at hz
  obtain rfl := Host.Outcome.next.inj hz
  clear hz
  have hz := Keeps.refl s
  repeat' first
    | with_reducible assumption | with_reducible apply safeCommitEnd_keeps | with_reducible apply Keeps.ite
    | with_reducible apply Keeps.iteFst | with_reducible intro _ _ _ | split | dsimp only

theorem execSafePasswd_keeps {slot len : Byte} {masked : List Byte} {s : State} {t : State}
    (hz : execSafePasswd slot len masked s = .next t) : Keeps s t := by
  unfold execSafePasswd at hz
  obtain rfl := Host.Outcome.next.inj hz
  clear hz
  have hz := Keeps.refl s
  repeat' first
    | with_reducible assumption | with_reducible apply hostCommand_keeps | with_reducible apply sessionHeard_keeps
    | with_reducible apply passwd_keeps | with_reducible apply Keeps.ite | with_reducible apply Keeps.iteFst
    | with_reducible intro _ _ _ | split | dsimp only

theorem execSafeLogread_keeps {first : Word} {count : Byte} {s : State} {t : State}
    (hz : execSafeLogread first count s = .next t) : Keeps s t := by
  unfold execSafeLogread at hz
  obtain rfl := Host.Outcome.next.inj hz
  clear hz
  have hz := Keeps.refl s
  repeat' first
    | with_reducible assumption | with_reducible apply hostCommand_keeps | with_reducible apply sessionHeard_keeps
    | with_reducible apply changeLogRead_keeps | with_reducible apply Keeps.ite | with_reducible apply Keeps.iteFst
    | with_reducible intro _ _ _ | split | dsimp only

theorem execSafeAck_keeps {flags : Byte} {mask : Mask} {s : State} {t : State}
    (hz : execSafeAck flags mask s = .next t) : Keeps s t := by
  unfold execSafeAck at hz
  obtain rfl := Host.Outcome.next.inj hz
  clear hz
  have hz := Keeps.refl s
  repeat' first
    | with_reducible assumption | with_reducible apply hostCommand_keeps | with_reducible apply sessionHeard_keeps
    | with_reducible apply safeAckBody_keeps | with_reducible apply Keeps.ite | with_reducible apply Keeps.iteFst
    | with_reducible intro _ _ _ | split | dsimp only

theorem execSafeKey_keeps {masked : List Byte} {s : State} {t : State}
    (hz : execSafeKey masked s = .next t) : Keeps s t := by
  unfold execSafeKey at hz
  obtain rfl := Host.Outcome.next.inj hz
  clear hz
  have hz := Keeps.refl s
  repeat' first
    | with_reducible assumption | with_reducible apply hostCommand_keeps | with_reducible apply sessionHeard_keeps
    | with_reducible apply safeKeyBody_keeps | with_reducible apply Keeps.ite | with_reducible apply Keeps.iteFst
    | with_reducible intro _ _ _ | split | dsimp only

end Sys2Proof.Safety
end

