-- ==== Sys2Proof/Laws/KeepsChannelEvents.lean ====
section
/-! SUPPORT. What the operations of Machine/ChannelEvents.lean keep. -/
namespace Sys2Proof.Safety

open Sys2Proof.Machine

set_option simprocs false

theorem passMember_keeps {z : State} {s : State} {x : Fin 16 × CheckMeas} (hz : Keeps z s) : Keeps z
    (passMember s x) := by
  unfold passMember
  repeat' first
    | with_reducible assumption | with_reducible apply updCh_keeps | with_reducible apply moveChannel_keeps
    | with_reducible apply checkDoneEvent_keeps | split | dsimp only | with_reducible refine Keeps.upd ?_ rfl rfl rfl

theorem noCellMember_keeps {z : State} {s : State} {x : Fin 16 × CheckMeas} (hz : Keeps z s) : Keeps z
    (noCellMember s x) := by
  unfold noCellMember
  repeat' first
    | with_reducible assumption | with_reducible apply updCh_keeps | with_reducible apply moveChannel_keeps
    | with_reducible apply checkDoneEvent_keeps | split | dsimp only | with_reducible refine Keeps.upd ?_ rfl rfl rfl

theorem failMembers_keeps {z : State} {s : State} {l : List (Fin 16 × CheckMeas)} {f : List (Fin 16 × Nat)}
    (hz : Keeps z s) : Keeps z (failMembers s l f) := by
  unfold failMembers
  repeat' first
    | with_reducible assumption | (with_reducible apply Keeps.foldl; rotate_left; intro _ _ _)
    | with_reducible apply updCh_keeps | with_reducible apply faultChannel_keeps
    | with_reducible apply checkDoneEvent_keeps | with_reducible apply Keeps.ite | split | dsimp only
    | with_reducible refine Keeps.upd ?_ rfl rfl rfl

theorem pauseAfterCheck_keeps {z : State} {s : State} {c : Fin 16} (hz : Keeps z s) : Keeps z
    (pauseAfterCheck s c) := by
  unfold pauseAfterCheck
  repeat' first
    | with_reducible assumption | with_reducible apply updProg_keeps | with_reducible apply formRecord_keeps
    | with_reducible apply Keeps.ite | split | dsimp only | with_reducible refine Keeps.upd ?_ rfl rfl rfl

theorem checkEnds_keeps {z : State} {c : Fin 16} {meas : List CheckMeas} {s : State} (hz : Keeps z s) : Keeps z
    (checkEnds c meas s) := by
  unfold checkEnds
  repeat' first
    | with_reducible assumption | (with_reducible apply Keeps.foldl; rotate_left; intro _ _ _)
    | with_reducible apply abortProgram_keeps | with_reducible apply passMember_keeps
    | with_reducible apply noCellMember_keeps | with_reducible apply failMembers_keeps
    | with_reducible apply pauseAfterCheck_keeps | with_reducible apply Keeps.ite | split | dsimp only

theorem shortCheck_keeps {z : State} {c : Fin 16} {s : State} (hz : Keeps z s) : Keeps z (shortCheck c s) := by
  unfold shortCheck
  repeat' first
    | with_reducible assumption | with_reducible apply updCh_keeps | with_reducible apply faultGang_keeps
    | with_reducible apply Keeps.ite | split | dsimp only | with_reducible refine Keeps.upd ?_ rfl rfl rfl

theorem foldEntry_keeps {z : State} {s : State} {c : Fin 16} (hz : Keeps z s) : Keeps z (foldEntry s c) := by
  unfold foldEntry
  repeat' first
    | with_reducible assumption | with_reducible apply updCh_keeps | with_reducible apply queueOnce_keeps | split
    | dsimp only | with_reducible refine Keeps.upd ?_ rfl rfl rfl

theorem foldUpdate_keeps {z : State} {c : Fin 16} {tdPs : Nat} {s : State} (hz : Keeps z s) : Keeps z
    (foldUpdate c tdPs s) := by
  unfold foldUpdate
  repeat' first
    | with_reducible assumption | with_reducible apply updCh_keeps | with_reducible apply foldEntry_keeps
    | with_reducible apply Keeps.ite | split | dsimp only | with_reducible refine Keeps.upd ?_ rfl rfl rfl

theorem burstStart_keeps {z : State} {s : State} {c : Fin 16} (hz : Keeps z s) : Keeps z (burstStart s c) := by
  unfold burstStart
  repeat' first
    | with_reducible assumption | with_reducible apply updCh_keeps | with_reducible apply queueEvent_keeps | split
    | dsimp only | with_reducible refine Keeps.upd ?_ rfl rfl rfl

theorem burstEntry_keeps {z : State} {c : Fin 16} {tdPs : Nat} {s : State} (hz : Keeps z s) : Keeps z
    (burstEntry c tdPs s) := by
  unfold burstEntry
  repeat' first
    | with_reducible assumption | with_reducible apply burstStart_keeps | with_reducible apply Keeps.ite | split
    | dsimp only

theorem burstLeave_keeps {z : State} {c : Fin 16} {s : State} (hz : Keeps z s) : Keeps z (burstLeave c s) := by
  unfold burstLeave
  repeat' first
    | with_reducible assumption | with_reducible apply updCh_keeps | with_reducible apply queueEvent_keeps
    | with_reducible apply foldEntry_keeps | with_reducible apply Keeps.ite | split | dsimp only
    | with_reducible refine Keeps.upd ?_ rfl rfl rfl

theorem legImbalanced_keeps {z : State} {c : Fin 16} {positive : Bool} {s : State} (hz : Keeps z s) : Keeps z
    (legImbalanced c positive s) := by
  unfold legImbalanced
  repeat' first
    | with_reducible assumption | with_reducible apply updCh_keeps | with_reducible apply queueEvent_keeps
    | with_reducible apply Keeps.ite | split | dsimp only | with_reducible refine Keeps.upd ?_ rfl rfl rfl

theorem orderlyGatesOff_keeps {z : State} {c : Fin 16} {s : State} (hz : Keeps z s) : Keeps z
    (orderlyGatesOff c s) := by
  unfold orderlyGatesOff
  repeat' first
    | with_reducible assumption | with_reducible apply openChannel_keeps | with_reducible apply sequenceEnds_keeps
    | split | dsimp only | with_reducible refine Keeps.upd ?_ rfl rfl rfl

theorem disconnectOpens_keeps {z : State} {c : Fin 16} {s : State} (hz : Keeps z s) : Keeps z
    (disconnectOpens c s) := by
  unfold disconnectOpens
  repeat' first
    | with_reducible assumption | with_reducible apply updCh_keeps | with_reducible apply sequenceEnds_keeps | split
    | dsimp only | with_reducible refine Keeps.upd ?_ rfl rfl rfl

theorem execCheckDone_keeps {ch : Fin 16} {meas : List CheckMeas} {s : State} {t : State}
    (hz : execCheckDone ch meas s = .next t) : Keeps s t := by
  unfold execCheckDone at hz
  obtain rfl := Host.Outcome.next.inj hz
  clear hz
  have hz := Keeps.refl s
  repeat' first
    | with_reducible assumption | with_reducible apply checkEnds_keeps | with_reducible apply Keeps.ite
    | with_reducible apply Keeps.iteFst | with_reducible intro _ _ _ | split | dsimp only

theorem execShortCheckExpiry_keeps {ch : Fin 16} {s : State} {t : State}
    (hz : execShortCheckExpiry ch s = .next t) : Keeps s t := by
  unfold execShortCheckExpiry at hz
  obtain rfl := Host.Outcome.next.inj hz
  clear hz
  have hz := Keeps.refl s
  repeat' first
    | with_reducible assumption | with_reducible apply shortCheck_keeps | with_reducible apply Keeps.ite
    | with_reducible apply Keeps.iteFst | with_reducible intro _ _ _ | split | dsimp only

theorem execFoldbackUpdate_keeps {ch : Fin 16} {tdPs : Nat} {s : State} {t : State}
    (hz : execFoldbackUpdate ch tdPs s = .next t) : Keeps s t := by
  unfold execFoldbackUpdate at hz
  obtain rfl := Host.Outcome.next.inj hz
  clear hz
  have hz := Keeps.refl s
  repeat' first
    | with_reducible assumption | with_reducible apply foldUpdate_keeps | with_reducible apply Keeps.ite
    | with_reducible apply Keeps.iteFst | with_reducible intro _ _ _ | split | dsimp only

theorem execBurstEnter_keeps {ch : Fin 16} {tdPs : Nat} {s : State} {t : State}
    (hz : execBurstEnter ch tdPs s = .next t) : Keeps s t := by
  unfold execBurstEnter at hz
  obtain rfl := Host.Outcome.next.inj hz
  clear hz
  have hz := Keeps.refl s
  repeat' first
    | with_reducible assumption | with_reducible apply burstEntry_keeps | with_reducible apply Keeps.ite
    | with_reducible apply Keeps.iteFst | with_reducible intro _ _ _ | split | dsimp only

theorem execBurstExit_keeps {ch : Fin 16} {s : State} {t : State} (hz : execBurstExit ch s = .next t) : Keeps s t := by
  unfold execBurstExit at hz
  obtain rfl := Host.Outcome.next.inj hz
  clear hz
  have hz := Keeps.refl s
  repeat' first
    | with_reducible assumption | with_reducible apply burstLeave_keeps | with_reducible apply Keeps.ite
    | with_reducible apply Keeps.iteFst | with_reducible intro _ _ _ | split | dsimp only

theorem execLegImbalance_keeps {ch : Fin 16} {positive : Bool} {s : State} {t : State}
    (hz : execLegImbalance ch positive s = .next t) : Keeps s t := by
  unfold execLegImbalance at hz
  obtain rfl := Host.Outcome.next.inj hz
  clear hz
  have hz := Keeps.refl s
  repeat' first
    | with_reducible assumption | with_reducible apply legImbalanced_keeps | with_reducible apply Keeps.ite
    | with_reducible apply Keeps.iteFst | with_reducible intro _ _ _ | split | dsimp only

theorem execOrderlyStopGatesOff_keeps {ch : Fin 16} {s : State} {t : State}
    (hz : execOrderlyStopGatesOff ch s = .next t) : Keeps s t := by
  unfold execOrderlyStopGatesOff at hz
  obtain rfl := Host.Outcome.next.inj hz
  clear hz
  have hz := Keeps.refl s
  repeat' first
    | with_reducible assumption | with_reducible apply orderlyGatesOff_keeps | with_reducible apply Keeps.ite
    | with_reducible apply Keeps.iteFst | with_reducible intro _ _ _ | split | dsimp only

theorem execDisconnectOpen_keeps {ch : Fin 16} {s : State} {t : State}
    (hz : execDisconnectOpen ch s = .next t) : Keeps s t := by
  unfold execDisconnectOpen at hz
  obtain rfl := Host.Outcome.next.inj hz
  clear hz
  have hz := Keeps.refl s
  repeat' first
    | with_reducible assumption | with_reducible apply disconnectOpens_keeps | with_reducible apply Keeps.ite
    | with_reducible apply Keeps.iteFst | with_reducible intro _ _ _ | split | dsimp only

end Sys2Proof.Safety
end

