-- ==== Sys2Proof/Laws/KeepsChannelCommands.lean ====
section
/-! SUPPORT. What the operations of Machine/ChannelCommands.lean keep. -/
namespace Sys2Proof.Safety

open Sys2Proof.Machine

set_option simprocs false

theorem maskCommand_keeps {z : State} {m : Mask} {f : State → Fin 16 → Byte} {change : Change} {r : Request} {s : State}
    (h : Keeps z s) : Keeps z (maskCommand m f change r s).1 := by
  unfold maskCommand
  split
  · exact h
  · split
    · exact h
    · exact stage_keeps h

theorem resumePause_keeps {z : State} {s : State} {c : Fin 16} (hz : Keeps z s) : Keeps z (resumePause s c) := by
  unfold resumePause
  repeat' first
    | with_reducible assumption | with_reducible apply updProg_keeps | with_reducible apply queueEvent_keeps
    | with_reducible apply formRecord_keeps | with_reducible apply startStep_keeps | with_reducible apply Keeps.ite
    | split | dsimp only | with_reducible refine Keeps.upd ?_ rfl rfl rfl

theorem commitArm_keeps {z : State} {s : State} {c : Fin 16} (hz : Keeps z s) : Keeps z (commitArm s c) := by
  unfold commitArm
  repeat' first
    | with_reducible assumption | with_reducible apply armGang_keeps | with_reducible apply Keeps.ite | split
    | dsimp only

theorem commitStop_keeps {z : State} {s : State} {c : Fin 16} (hz : Keeps z s) : Keeps z (commitStop s c) := by
  unfold commitStop
  repeat' first
    | with_reducible assumption | with_reducible apply stopGang_keeps | with_reducible apply Keeps.ite | split
    | dsimp only

theorem commitHold_keeps {z : State} {s : State} {c : Fin 16} (hz : Keeps z s) : Keeps z (commitHold s c) := by
  unfold commitHold
  repeat' first
    | with_reducible assumption | with_reducible apply addCause_keeps | with_reducible apply holdNow_keeps | split
    | dsimp only

theorem commitResume_keeps {z : State} {s : State} {c : Fin 16} (hz : Keeps z s) : Keeps z (commitResume s c) := by
  unfold commitResume
  repeat' first
    | with_reducible assumption | with_reducible apply clearCauses_keeps | with_reducible apply resumePause_keeps
    | with_reducible apply Keeps.ite | split | dsimp only

theorem commitClear_keeps {z : State} {s : State} {c : Fin 16} (hz : Keeps z s) : Keeps z (commitClear s c) := by
  unfold commitClear
  repeat' first
    | with_reducible assumption | (with_reducible apply Keeps.foldl; rotate_left; intro _ _ _)
    | with_reducible apply moveChannel_keeps | with_reducible apply Keeps.ite | split | dsimp only

theorem commitHand_keeps {z : State} {enter : Bool} {s : State} {c : Fin 16} (hz : Keeps z s) : Keeps z
    (commitHand enter s c) := by
  unfold commitHand
  repeat' first
    | with_reducible assumption | with_reducible apply updProg_keeps | with_reducible apply formRecord_keeps
    | with_reducible apply setStepTargets_keeps | with_reducible apply changeSource_keeps
    | with_reducible apply Keeps.ite | split | dsimp only | with_reducible refine Keeps.upd ?_ rfl rfl rfl

theorem commitStart_keeps {z : State} {s : State} {c : Fin 16} (hz : Keeps z s) : Keeps z (commitStart s c) := by
  unfold commitStart
  repeat' first
    | with_reducible assumption | with_reducible apply updCh_keeps | with_reducible apply queueEvent_keeps
    | with_reducible apply formRecord_keeps | with_reducible apply changeSource_keeps
    | with_reducible apply armGang_keeps | with_reducible apply Keeps.ite | split | dsimp only
    | with_reducible refine Keeps.upd ?_ rfl rfl rfl

theorem commitAbort_keeps {z : State} {s : State} {c : Fin 16} (hz : Keeps z s) : Keeps z (commitAbort s c) := by
  unfold commitAbort
  repeat' first
    | with_reducible assumption | with_reducible apply stopGang_keeps | with_reducible apply Keeps.ite | split
    | dsimp only

theorem commitSetpoint_keeps {z : State} {s : State} {c : Fin 16} {sel : BitVec 4} {iset vset iramp vramp : Word}
    (hz : Keeps z s) : Keeps z (commitSetpoint s c sel iset vset iramp vramp) := by
  unfold commitSetpoint
  repeat' first
    | with_reducible assumption | with_reducible apply updCh_keeps | with_reducible apply abortMeas_keeps
    | with_reducible apply Keeps.ite | split | dsimp only

theorem setpointBody_keeps {z : State} {ch sel : Byte} {iset vset iramp vramp : Word} {r : Request} {s : State}
    (hz : Keeps z s) : Keeps z (setpointBody ch sel iset vset iramp vramp r s).1 := by
  unfold setpointBody
  repeat' first
    | with_reducible assumption | with_reducible apply updCh_keeps | with_reducible apply stage_keeps
    | with_reducible apply Keeps.ite | with_reducible apply Keeps.iteFst | split | dsimp only

theorem handBody_keeps {z : State} {m : Mask} {enter : Byte} {r : Request} {s : State} (hz : Keeps z s) : Keeps z
    (handBody m enter r s).1 := by
  unfold handBody
  repeat' first
    | with_reducible assumption | with_reducible apply maskCommand_keeps | with_reducible apply Keeps.ite
    | with_reducible apply Keeps.iteFst | split | dsimp only

theorem startBody_keeps {z : State} {m : Mask} {r : Request} {s : State} (hz : Keeps z s) : Keeps z
    (startBody m r s).1 := by
  unfold startBody
  repeat' first
    | with_reducible assumption | (with_reducible apply Keeps.foldl; rotate_left; intro _ _ _)
    | with_reducible apply queueEvent_keeps | with_reducible apply maskCommand_keeps | split | dsimp only

theorem execChArm_keeps {mask : Mask} {s : State} {t : State} (hz : execChArm mask s = .next t) : Keeps s t := by
  unfold execChArm at hz
  obtain rfl := Host.Outcome.next.inj hz
  clear hz
  have hz := Keeps.refl s
  repeat' first
    | with_reducible assumption | with_reducible apply hostCommand_keeps | with_reducible apply maskCommand_keeps
    | with_reducible apply Keeps.ite | with_reducible apply Keeps.iteFst | with_reducible intro _ _ _ | split
    | dsimp only

theorem execChStop_keeps {mask : Mask} {s : State} {t : State} (hz : execChStop mask s = .next t) : Keeps s t := by
  unfold execChStop at hz
  obtain rfl := Host.Outcome.next.inj hz
  clear hz
  have hz := Keeps.refl s
  repeat' first
    | with_reducible assumption | with_reducible apply hostCommand_keeps | with_reducible apply maskCommand_keeps
    | with_reducible apply Keeps.ite | with_reducible apply Keeps.iteFst | with_reducible intro _ _ _ | split
    | dsimp only

theorem execChHold_keeps {mask : Mask} {s : State} {t : State} (hz : execChHold mask s = .next t) : Keeps s t := by
  unfold execChHold at hz
  obtain rfl := Host.Outcome.next.inj hz
  clear hz
  have hz := Keeps.refl s
  repeat' first
    | with_reducible assumption | with_reducible apply hostCommand_keeps | with_reducible apply maskCommand_keeps
    | with_reducible apply Keeps.ite | with_reducible apply Keeps.iteFst | with_reducible intro _ _ _ | split
    | dsimp only

theorem execChResume_keeps {mask : Mask} {s : State} {t : State} (hz : execChResume mask s = .next t) : Keeps s t := by
  unfold execChResume at hz
  obtain rfl := Host.Outcome.next.inj hz
  clear hz
  have hz := Keeps.refl s
  repeat' first
    | with_reducible assumption | with_reducible apply hostCommand_keeps | with_reducible apply maskCommand_keeps
    | with_reducible apply Keeps.ite | with_reducible apply Keeps.iteFst | with_reducible intro _ _ _ | split
    | dsimp only

theorem execChClear_keeps {mask : Mask} {s : State} {t : State} (hz : execChClear mask s = .next t) : Keeps s t := by
  unfold execChClear at hz
  obtain rfl := Host.Outcome.next.inj hz
  clear hz
  have hz := Keeps.refl s
  repeat' first
    | with_reducible assumption | with_reducible apply hostCommand_keeps | with_reducible apply maskCommand_keeps
    | with_reducible apply Keeps.ite | with_reducible apply Keeps.iteFst | with_reducible intro _ _ _ | split
    | dsimp only

theorem execChHand_keeps {mask : Mask} {enter : Byte} {s : State} {t : State}
    (hz : execChHand mask enter s = .next t) : Keeps s t := by
  unfold execChHand at hz
  obtain rfl := Host.Outcome.next.inj hz
  clear hz
  have hz := Keeps.refl s
  repeat' first
    | with_reducible assumption | with_reducible apply hostCommand_keeps | with_reducible apply handBody_keeps
    | with_reducible apply Keeps.ite | with_reducible apply Keeps.iteFst | with_reducible intro _ _ _ | split
    | dsimp only

theorem execChSetpoint_keeps {ch sel : Byte} {iset vset iramp vramp : Word} {s : State} {t : State}
    (hz : execChSetpoint ch sel iset vset iramp vramp s = .next t) : Keeps s t := by
  unfold execChSetpoint at hz
  obtain rfl := Host.Outcome.next.inj hz
  clear hz
  have hz := Keeps.refl s
  repeat' first
    | with_reducible assumption | with_reducible apply hostCommand_keeps | with_reducible apply setpointBody_keeps
    | with_reducible apply Keeps.ite | with_reducible apply Keeps.iteFst | with_reducible intro _ _ _ | split
    | dsimp only

theorem execProgStart_keeps {mask : Mask} {s : State} {t : State}
    (hz : execProgStart mask s = .next t) : Keeps s t := by
  unfold execProgStart at hz
  obtain rfl := Host.Outcome.next.inj hz
  clear hz
  have hz := Keeps.refl s
  repeat' first
    | with_reducible assumption | with_reducible apply hostCommand_keeps | with_reducible apply startBody_keeps
    | with_reducible apply Keeps.ite | with_reducible apply Keeps.iteFst | with_reducible intro _ _ _ | split
    | dsimp only

theorem execProgAbort_keeps {mask : Mask} {s : State} {t : State}
    (hz : execProgAbort mask s = .next t) : Keeps s t := by
  unfold execProgAbort at hz
  obtain rfl := Host.Outcome.next.inj hz
  clear hz
  have hz := Keeps.refl s
  repeat' first
    | with_reducible assumption | with_reducible apply hostCommand_keeps | with_reducible apply maskCommand_keeps
    | with_reducible apply Keeps.ite | with_reducible apply Keeps.iteFst | with_reducible intro _ _ _ | split
    | dsimp only

end Sys2Proof.Safety
end

