-- ==== Sys2Proof/Laws/KeepsBook.lean ====
section
/-! SUPPORT. What the operations of Machine/Book.lean keep. -/
namespace Sys2Proof.Safety

open Sys2Proof.Machine

set_option simprocs false

theorem bookHdrBody_keeps {z : State} {h : List Byte} {s : State} (hz : Keeps z s) : Keeps z (bookHdrBody h s).1 := by
  unfold bookHdrBody
  repeat' first
    | with_reducible assumption | with_reducible apply Keeps.ite | with_reducible apply Keeps.iteFst | split
    | dsimp only | with_reducible refine Keeps.upd ?_ rfl rfl rfl

theorem bookStepsBody_keeps {z : State} {first count : Byte} {recs : List Byte} {s : State} (hz : Keeps z s) : Keeps z
    (bookStepsBody first count recs s).1 := by
  unfold bookStepsBody
  repeat' first
    | with_reducible assumption | with_reducible apply Keeps.ite | with_reducible apply Keeps.iteFst | split
    | dsimp only | with_reducible refine Keeps.upd ?_ rfl rfl rfl

theorem bookCommitBody_keeps {z : State} {slot : Byte} {r : Request} {s : State} (hz : Keeps z s) : Keeps z
    (bookCommitBody slot r s).1 := by
  unfold bookCommitBody
  repeat' first
    | with_reducible assumption | with_reducible apply Keeps.ite | with_reducible apply Keeps.iteFst | split
    | dsimp only | with_reducible refine Keeps.upd ?_ rfl rfl rfl

theorem bookCommitEnd_keeps {z : State} {ok : Bool} {s : State} (hz : Keeps z s) : Keeps z (bookCommitEnd ok s) := by
  unfold bookCommitEnd
  repeat' first
    | with_reducible assumption | with_reducible apply replyOp_keeps | with_reducible apply nvmFail_keeps
    | with_reducible apply Keeps.ite | split | dsimp only | with_reducible refine Keeps.upd ?_ rfl rfl rfl

theorem bookReadBody_keeps {z : State} {slot first count : Byte} {s : State} (hz : Keeps z s) : Keeps z
    (bookReadBody slot first count s).1 := by
  unfold bookReadBody
  repeat' first
    | with_reducible assumption | with_reducible apply Keeps.ite | with_reducible apply Keeps.iteFst | split
    | dsimp only

theorem execBookDir_keeps {s : State} {t : State} (hz : execBookDir s = .next t) : Keeps s t := by
  unfold execBookDir at hz
  obtain rfl := Host.Outcome.next.inj hz
  clear hz
  have hz := Keeps.refl s
  repeat' first
    | with_reducible assumption | with_reducible apply hostCommand_keeps | with_reducible apply Keeps.ite
    | with_reducible apply Keeps.iteFst | with_reducible intro _ _ _ | split | dsimp only

theorem execBookHdr_keeps {header : List Byte} {s : State} {t : State}
    (hz : execBookHdr header s = .next t) : Keeps s t := by
  unfold execBookHdr at hz
  obtain rfl := Host.Outcome.next.inj hz
  clear hz
  have hz := Keeps.refl s
  repeat' first
    | with_reducible assumption | with_reducible apply hostCommand_keeps | with_reducible apply bookHdrBody_keeps
    | with_reducible apply Keeps.ite | with_reducible apply Keeps.iteFst | with_reducible intro _ _ _ | split
    | dsimp only

theorem execBookSteps_keeps {first count : Byte} {records : List Byte} {s : State} {t : State}
    (hz : execBookSteps first count records s = .next t) : Keeps s t := by
  unfold execBookSteps at hz
  obtain rfl := Host.Outcome.next.inj hz
  clear hz
  have hz := Keeps.refl s
  repeat' first
    | with_reducible assumption | with_reducible apply hostCommand_keeps | with_reducible apply bookStepsBody_keeps
    | with_reducible apply Keeps.ite | with_reducible apply Keeps.iteFst | with_reducible intro _ _ _ | split
    | dsimp only

theorem execBookCommit_keeps {slot : Byte} {s : State} {t : State}
    (hz : execBookCommit slot s = .next t) : Keeps s t := by
  unfold execBookCommit at hz
  obtain rfl := Host.Outcome.next.inj hz
  clear hz
  have hz := Keeps.refl s
  repeat' first
    | with_reducible assumption | with_reducible apply hostCommand_keeps | with_reducible apply bookCommitBody_keeps
    | with_reducible apply Keeps.ite | with_reducible apply Keeps.iteFst | with_reducible intro _ _ _ | split
    | dsimp only

theorem execBookCommitDone_keeps {ok : Bool} {s : State} {t : State}
    (hz : execBookCommitDone ok s = .next t) : Keeps s t := by
  unfold execBookCommitDone at hz
  obtain rfl := Host.Outcome.next.inj hz
  clear hz
  have hz := Keeps.refl s
  repeat' first
    | with_reducible assumption | with_reducible apply bookCommitEnd_keeps | with_reducible apply Keeps.ite
    | with_reducible apply Keeps.iteFst | with_reducible intro _ _ _ | split | dsimp only

theorem execBookRead_keeps {slot first count : Byte} {s : State} {t : State}
    (hz : execBookRead slot first count s = .next t) : Keeps s t := by
  unfold execBookRead at hz
  obtain rfl := Host.Outcome.next.inj hz
  clear hz
  have hz := Keeps.refl s
  repeat' first
    | with_reducible assumption | with_reducible apply hostCommand_keeps | with_reducible apply bookReadBody_keeps
    | with_reducible apply Keeps.ite | with_reducible apply Keeps.iteFst | with_reducible intro _ _ _ | split
    | dsimp only

end Sys2Proof.Safety
end

