-- ==== Sys2Proof/Laws/KeepsLogs.lean ====
section
/-! SUPPORT. What the operations of Machine/Logs.lean keep. -/
namespace Sys2Proof.Safety

open Sys2Proof.Machine

set_option simprocs false

theorem logReadBody_keeps {z : State} {b count : Byte} {first : Word} {s : State} (hz : Keeps z s) : Keeps z
    (logReadBody b count first s).1 := by
  unfold logReadBody
  repeat' first
    | with_reducible assumption | with_reducible apply Keeps.ite | with_reducible apply Keeps.iteFst | split
    | dsimp only

theorem withStatus_keeps {z : State} {r : State × Byte} (hz : Keeps z r.1) : Keeps z (withStatus r).1 := hz

theorem logAckBody_keeps {z : State} {b : Byte} {seq : Word} {s : State} (hz : Keeps z s) :
    Keeps z (logAckBody b seq s).1 := by
  unfold logAckBody
  split
  · exact hz
  · exact withStatus_keeps (setLogAck_keeps hz)

theorem logMarkBody_keeps {z : State} {b : Byte} {data : List Byte} {r : Request} {s : State}
    (hz : Keeps z s) : Keeps z (logMarkBody b data r s).1 := by
  unfold logMarkBody
  repeat' first
    | with_reducible assumption | with_reducible apply stage_keeps | with_reducible apply Keeps.ite
    | with_reducible apply Keeps.iteFst | split | dsimp only

theorem gradeReadBody_keeps {z : State} {b age : Byte} {s : State} (hz : Keeps z s) : Keeps z
    (gradeReadBody b age s).1 := by
  unfold gradeReadBody
  repeat' first
    | with_reducible assumption | with_reducible apply Keeps.ite | with_reducible apply Keeps.iteFst | split
    | dsimp only

theorem histReadBody_keeps {z : State} {b : Byte} {first count : BitVec 16} {s : State} (hz : Keeps z s) : Keeps z
    (histReadBody b first count s).1 := by
  unfold histReadBody
  repeat' first
    | with_reducible assumption | with_reducible apply Keeps.ite | with_reducible apply Keeps.iteFst | split
    | dsimp only

theorem markRead_keeps {z s : State} {l : List Ev} (hz : Keeps z s) : Keeps z (markRead s l) :=
  Keeps.updQueue hz rfl (Nat.le_of_eq (List.length_map _)) rfl

theorem evtReadBody_keeps {z : State} {first : Word} {count : Byte} {s : State} (hz : Keeps z s) : Keeps z
    (evtReadBody first count s).1 := by
  unfold evtReadBody
  repeat' first
    | with_reducible assumption | with_reducible apply markRead_keeps | with_reducible apply Keeps.ite
    | with_reducible apply Keeps.iteFst | split | dsimp only

theorem evtAckBody_keeps {z : State} {seq : Word} {s : State} (hz : Keeps z s) : Keeps z (evtAckBody seq s).1 := by
  unfold evtAckBody
  split
  · exact hz
  · split
    · exact Keeps.updQueue hz rfl (List.length_filter_le _ _) rfl
    · exact hz

theorem evtStatusBody_keeps {z : State} {s : State} (hz : Keeps z s) : Keeps z (evtStatusBody s).1 := by
  unfold evtStatusBody
  repeat' first
    | with_reducible assumption | with_reducible apply drawFree_keeps | split | dsimp only

theorem execLogRead_keeps {ch count : Byte} {first : Word} {s : State} {t : State}
    (hz : execLogRead ch count first s = .next t) : Keeps s t := by
  unfold execLogRead at hz
  obtain rfl := Host.Outcome.next.inj hz
  clear hz
  have hz := Keeps.refl s
  repeat' first
    | with_reducible assumption | with_reducible apply hostCommand_keeps | with_reducible apply logReadBody_keeps
    | with_reducible apply Keeps.ite | with_reducible apply Keeps.iteFst | with_reducible intro _ _ _ | split
    | dsimp only

theorem execLogAck_keeps {ch : Byte} {seq : Word} {s : State} {t : State}
    (hz : execLogAck ch seq s = .next t) : Keeps s t := by
  unfold execLogAck at hz
  obtain rfl := Host.Outcome.next.inj hz
  clear hz
  have hz := Keeps.refl s
  repeat' first
    | with_reducible assumption | with_reducible apply hostCommand_keeps | with_reducible apply logAckBody_keeps
    | with_reducible apply Keeps.ite | with_reducible apply Keeps.iteFst | with_reducible intro _ _ _ | split
    | dsimp only

theorem execLogMark_keeps {ch : Byte} {data : List Byte} {s : State} {t : State}
    (hz : execLogMark ch data s = .next t) : Keeps s t := by
  unfold execLogMark at hz
  obtain rfl := Host.Outcome.next.inj hz
  clear hz
  have hz := Keeps.refl s
  repeat' first
    | with_reducible assumption | with_reducible apply hostCommand_keeps | with_reducible apply logMarkBody_keeps
    | with_reducible apply Keeps.ite | with_reducible apply Keeps.iteFst | with_reducible intro _ _ _ | split
    | dsimp only

theorem execGradeRead_keeps {ch age : Byte} {s : State} {t : State}
    (hz : execGradeRead ch age s = .next t) : Keeps s t := by
  unfold execGradeRead at hz
  obtain rfl := Host.Outcome.next.inj hz
  clear hz
  have hz := Keeps.refl s
  repeat' first
    | with_reducible assumption | with_reducible apply hostCommand_keeps | with_reducible apply gradeReadBody_keeps
    | with_reducible apply Keeps.ite | with_reducible apply Keeps.iteFst | with_reducible intro _ _ _ | split
    | dsimp only

theorem execHistRead_keeps {ch : Byte} {first count : BitVec 16} {s : State} {t : State}
    (hz : execHistRead ch first count s = .next t) : Keeps s t := by
  unfold execHistRead at hz
  obtain rfl := Host.Outcome.next.inj hz
  clear hz
  have hz := Keeps.refl s
  repeat' first
    | with_reducible assumption | with_reducible apply hostCommand_keeps | with_reducible apply histReadBody_keeps
    | with_reducible apply Keeps.ite | with_reducible apply Keeps.iteFst | with_reducible intro _ _ _ | split
    | dsimp only

theorem execEvtRead_keeps {first : Word} {count : Byte} {s : State} {t : State}
    (hz : execEvtRead first count s = .next t) : Keeps s t := by
  unfold execEvtRead at hz
  obtain rfl := Host.Outcome.next.inj hz
  clear hz
  have hz := Keeps.refl s
  repeat' first
    | with_reducible assumption | with_reducible apply hostCommand_keeps | with_reducible apply evtReadBody_keeps
    | with_reducible apply Keeps.ite | with_reducible apply Keeps.iteFst | with_reducible intro _ _ _ | split
    | dsimp only

theorem execEvtAck_keeps {seq : Word} {s : State} {t : State} (hz : execEvtAck seq s = .next t) : Keeps s t := by
  unfold execEvtAck at hz
  obtain rfl := Host.Outcome.next.inj hz
  clear hz
  have hz := Keeps.refl s
  repeat' first
    | with_reducible assumption | with_reducible apply hostCommand_keeps | with_reducible apply evtAckBody_keeps
    | with_reducible apply Keeps.ite | with_reducible apply Keeps.iteFst | with_reducible intro _ _ _ | split
    | dsimp only

theorem execEvtStatus_keeps {s : State} {t : State} (hz : execEvtStatus s = .next t) : Keeps s t := by
  unfold execEvtStatus at hz
  obtain rfl := Host.Outcome.next.inj hz
  clear hz
  have hz := Keeps.refl s
  repeat' first
    | with_reducible assumption | with_reducible apply hostCommand_keeps | with_reducible apply evtStatusBody_keeps
    | with_reducible apply Keeps.ite | with_reducible apply Keeps.iteFst | with_reducible intro _ _ _ | split
    | dsimp only

end Sys2Proof.Safety
end

