-- ==== Sys2Proof/Laws/KeepsEngines.lean ====
section
/-! SUPPORT. What the operations of Machine/Engines.lean keep. -/
namespace Sys2Proof.Safety

open Sys2Proof.Machine

set_option simprocs false

theorem lockstepMismatch_keeps {z : State} {k : Fin 5} {s : State} (hz : Keeps z s) : Keeps z
    (lockstepMismatch k s) := by
  unfold lockstepMismatch
  repeat' first
    | with_reducible assumption | with_reducible apply updCe_keeps | with_reducible apply abandonBist_keeps
    | with_reducible apply engineFails_keeps | with_reducible apply Keeps.ite | split | dsimp only
    | with_reducible refine Keeps.upd ?_ rfl rfl rfl

theorem pllLost_keeps {z : State} {i : Fin 14} {s : State} (hz : Keeps z s) : Keeps z (pllLost i s) := by
  unfold pllLost
  repeat' first
    | with_reducible assumption | with_reducible apply queueEvent_keeps | with_reducible apply abandonBist_keeps
    | with_reducible apply engineFails_keeps | with_reducible apply cutFrames_keeps | with_reducible apply Keeps.ite
    | split | dsimp only | with_reducible refine Keeps.upd ?_ rfl rfl rfl

theorem restartDma_keeps {z : State} {s : State} (hz : Keeps z s) : Keeps z (restartDma s) := by
  unfold restartDma
  repeat' first
    | with_reducible assumption | (with_reducible apply Keeps.foldl; rotate_left; intro _ _ _)
    | with_reducible apply takeShadow_keeps | split | dsimp only | with_reducible refine Keeps.upd ?_ rfl rfl rfl

theorem islandRestarted_keeps {z : State} {i : Fin 14} {s : State} (hz : Keeps z s) : Keeps z
    (islandRestarted i s) := by
  unfold islandRestarted
  repeat' first
    | with_reducible assumption | with_reducible apply restartDma_keeps | with_reducible apply Keeps.ite | split
    | dsimp only | with_reducible refine Keeps.upd ?_ rfl rfl rfl

theorem replayDone_keeps {z : State} {g : Fin 4} {s : State} (hz : Keeps z s) : Keeps z (replayDone g s) := by
  unfold replayDone
  repeat' first
    | with_reducible assumption | with_reducible apply updGrp_keeps | with_reducible apply holdGroup_keeps
    | with_reducible apply Keeps.ite | split | dsimp only | with_reducible refine Keeps.upd ?_ rfl rfl rfl

theorem sequencerDiverges_keeps {z : State} {s : State} (hz : Keeps z s) : Keeps z (sequencerDiverges s) := by
  unfold sequencerDiverges
  repeat' first
    | with_reducible assumption | with_reducible apply holdRecovering_keeps | with_reducible apply Keeps.ite | split
    | dsimp only | with_reducible refine Keeps.upd ?_ rfl rfl rfl

theorem sequencerRecovered_keeps {z : State} {epochs : Nat} {s : State} (hz : Keeps z s) : Keeps z
    (sequencerRecovered epochs s) := by
  unfold sequencerRecovered
  repeat' first
    | with_reducible assumption | with_reducible apply queueEvent_keeps | with_reducible apply Keeps.ite | split
    | dsimp only | with_reducible refine Keeps.upd ?_ rfl rfl rfl

theorem plannedCastling_keeps {z : State} {crcOk ackInTime : Bool} {s : State} (hz : Keeps z s) : Keeps z
    (plannedCastling crcOk ackInTime s) := by
  unfold plannedCastling
  repeat' first
    | with_reducible assumption | with_reducible apply abortCastle_keeps | with_reducible apply stageCastle_keeps
    | with_reducible apply Keeps.ite | split | dsimp only

theorem startBist_keeps {z : State} {s : State} (hz : Keeps z s) : Keeps z (startBist s) := by
  unfold startBist
  repeat' first
    | with_reducible assumption | with_reducible apply updCe_keeps | split | dsimp only
    | with_reducible refine Keeps.upd ?_ rfl rfl rfl

theorem bistDone_keeps {z : State} {k : Fin 5} {sigMatch stateOk : Bool} {patterns : Nat} {s : State}
    (hz : Keeps z s) : Keeps z (bistDone k sigMatch stateOk patterns s) := by
  unfold bistDone
  repeat' first
    | with_reducible assumption | with_reducible apply updCe_keeps | with_reducible apply reply_keeps
    | with_reducible apply recordTest_keeps | with_reducible apply testDone_keeps
    | with_reducible apply adoptGroup_keeps | with_reducible apply retireCe_keeps | with_reducible apply Keeps.ite
    | split | dsimp only | with_reducible refine Keeps.upd ?_ rfl rfl rfl

theorem routeLost_keeps {z : State} {s : State} {src dst : Fin 14} (hz : Keeps z s) : Keeps z
    (routeLost s src dst) := by
  unfold routeLost
  repeat' first
    | with_reducible assumption | (with_reducible apply Keeps.foldl; rotate_left; intro _ _ _)
    | with_reducible apply holdGroup_keeps | split | dsimp only

theorem crossbar_keeps {z : State} {src dst : Fin 14} {planeB : Bool} {attempts : List (List Byte × BitVec 16)}
    {s : State} (hz : Keeps z s) : Keeps z (crossbar src dst planeB attempts s) := by
  unfold crossbar
  repeat' first
    | with_reducible assumption | with_reducible apply queueEvent_keeps | with_reducible apply queueRated_keeps
    | with_reducible apply routeLost_keeps | with_reducible apply Keeps.ite | split | dsimp only
    | with_reducible refine Keeps.upd ?_ rfl rfl rfl

theorem currentRef_keeps {z : State} {iref : Word} {leg tag : Byte} {s : State} (hz : Keeps z s) : Keeps z
    (currentRef iref leg tag s) := by
  unfold currentRef
  repeat' first
    | with_reducible assumption | with_reducible apply updLeg_keeps | with_reducible apply updGrp_keeps
    | with_reducible apply queueOnce_keeps | with_reducible apply Keeps.ite | split | dsimp only
    | with_reducible refine Keeps.upd ?_ rfl rfl rfl

theorem execCeLockstepMismatch_keeps {ce : Fin 5} {s : State} {t : State}
    (hz : execCeLockstepMismatch ce s = .next t) : Keeps s t := by
  unfold execCeLockstepMismatch at hz
  obtain rfl := Host.Outcome.next.inj hz
  clear hz
  have hz := Keeps.refl s
  repeat' first
    | with_reducible assumption | with_reducible apply lockstepMismatch_keeps | with_reducible apply Keeps.ite
    | with_reducible apply Keeps.iteFst | with_reducible intro _ _ _ | split | dsimp only

theorem execPllLoss_keeps {island : Fin 14} {s : State} {t : State}
    (hz : execPllLoss island s = .next t) : Keeps s t := by
  unfold execPllLoss at hz
  obtain rfl := Host.Outcome.next.inj hz
  clear hz
  have hz := Keeps.refl s
  repeat' first
    | with_reducible assumption | with_reducible apply pllLost_keeps | with_reducible apply Keeps.ite
    | with_reducible apply Keeps.iteFst | with_reducible intro _ _ _ | split | dsimp only

theorem execIslandRestartDone_keeps {island : Fin 14} {s : State} {t : State}
    (hz : execIslandRestartDone island s = .next t) : Keeps s t := by
  unfold execIslandRestartDone at hz
  obtain rfl := Host.Outcome.next.inj hz
  clear hz
  have hz := Keeps.refl s
  repeat' first
    | with_reducible assumption | with_reducible apply islandRestarted_keeps | with_reducible apply Keeps.ite
    | with_reducible apply Keeps.iteFst | with_reducible intro _ _ _ | split | dsimp only

theorem execCastleReplayDone_keeps {group : Fin 4} {s : State} {t : State}
    (hz : execCastleReplayDone group s = .next t) : Keeps s t := by
  unfold execCastleReplayDone at hz
  obtain rfl := Host.Outcome.next.inj hz
  clear hz
  have hz := Keeps.refl s
  repeat' first
    | with_reducible assumption | with_reducible apply replayDone_keeps | with_reducible apply Keeps.ite
    | with_reducible apply Keeps.iteFst | with_reducible intro _ _ _ | split | dsimp only

theorem execSequencerMismatch_keeps {s : State} {t : State} (hz : execSequencerMismatch s = .next t) : Keeps s t := by
  unfold execSequencerMismatch at hz
  obtain rfl := Host.Outcome.next.inj hz
  clear hz
  have hz := Keeps.refl s
  repeat' first
    | with_reducible assumption | with_reducible apply sequencerDiverges_keeps | with_reducible apply Keeps.ite
    | with_reducible apply Keeps.iteFst | with_reducible intro _ _ _ | split | dsimp only

theorem execSeqRecover_keeps {epochs : Nat} {s : State} {t : State}
    (hz : execSeqRecover epochs s = .next t) : Keeps s t := by
  unfold execSeqRecover at hz
  obtain rfl := Host.Outcome.next.inj hz
  clear hz
  have hz := Keeps.refl s
  repeat' first
    | with_reducible assumption | with_reducible apply sequencerRecovered_keeps | with_reducible apply Keeps.ite
    | with_reducible apply Keeps.iteFst | with_reducible intro _ _ _ | split | dsimp only

theorem execPlannedCastlingDue_keeps {crcOk ackInTime : Bool} {s : State} {t : State}
    (hz : execPlannedCastlingDue crcOk ackInTime s = .next t) : Keeps s t := by
  unfold execPlannedCastlingDue at hz
  obtain rfl := Host.Outcome.next.inj hz
  clear hz
  have hz := Keeps.refl s
  repeat' first
    | with_reducible assumption | with_reducible apply plannedCastling_keeps | with_reducible apply Keeps.ite
    | with_reducible apply Keeps.iteFst | with_reducible intro _ _ _ | split | dsimp only

theorem execSpareBistDue_keeps {s : State} {t : State} (hz : execSpareBistDue s = .next t) : Keeps s t := by
  unfold execSpareBistDue at hz
  obtain rfl := Host.Outcome.next.inj hz
  clear hz
  have hz := Keeps.refl s
  repeat' first
    | with_reducible assumption | with_reducible apply startBist_keeps | with_reducible apply Keeps.ite
    | with_reducible apply Keeps.iteFst | with_reducible intro _ _ _ | split | dsimp only

theorem execSpareBistDone_keeps {ce : Fin 5} {sigMatch stateOk : Bool} {patterns : Nat} {s : State} {t : State}
    (hz : execSpareBistDone ce sigMatch stateOk patterns s = .next t) : Keeps s t := by
  unfold execSpareBistDone at hz
  obtain rfl := Host.Outcome.next.inj hz
  clear hz
  have hz := Keeps.refl s
  repeat' first
    | with_reducible assumption | with_reducible apply bistDone_keeps | with_reducible apply Keeps.ite
    | with_reducible apply Keeps.iteFst | with_reducible intro _ _ _ | split | dsimp only

theorem execCrossbarTransfer_keeps {src dst : Fin 14} {planeB : Bool} {attempts : List (List Byte × BitVec 16)}
    {s : State} {t : State} (hz : execCrossbarTransfer src dst planeB attempts s = .next t) : Keeps s t := by
  unfold execCrossbarTransfer at hz
  obtain rfl := Host.Outcome.next.inj hz
  clear hz
  have hz := Keeps.refl s
  repeat' first
    | with_reducible assumption | with_reducible apply crossbar_keeps | with_reducible apply Keeps.ite
    | with_reducible apply Keeps.iteFst | with_reducible intro _ _ _ | split | dsimp only

theorem execCurrentReference_keeps {iref : Word} {leg tag : Byte} (_epoch : BitVec 16) {s : State} {t : State}
    (hz : execCurrentReference iref leg tag _epoch s = .next t) : Keeps s t := by
  unfold execCurrentReference at hz
  obtain rfl := Host.Outcome.next.inj hz
  clear hz
  have hz := Keeps.refl s
  repeat' first
    | with_reducible assumption | with_reducible apply currentRef_keeps | with_reducible apply Keeps.ite
    | with_reducible apply Keeps.iteFst | with_reducible intro _ _ _ | split | dsimp only

end Sys2Proof.Safety
end

