-- ==== Sys2Proof/Laws/KeepsCalibration.lean ====
section
/-! SUPPORT. What the operations of Machine/Calibration.lean keep. -/
namespace Sys2Proof.Safety

open Sys2Proof.Machine

set_option simprocs false

theorem discardCal_keeps {z : State} {s : State} (hz : Keeps z s) : Keeps z (discardCal s) := by
  unfold discardCal
  repeat' first
    | with_reducible assumption | (with_reducible apply Keeps.foldl; rotate_left; intro _ _ _)
    | with_reducible apply queueEvent_keeps | with_reducible apply Keeps.ite | split | dsimp only
    | with_reducible refine Keeps.upd ?_ rfl rfl rfl

theorem enterHold_keeps {z : State} {s : State} {cause : Nat} (hz : Keeps z s) : Keeps z (enterHold s cause) := by
  unfold enterHold
  repeat' first
    | with_reducible assumption | with_reducible apply queueEvent_keeps | with_reducible apply discardCal_keeps
    | with_reducible apply Keeps.ite | split | dsimp only | with_reducible refine Keeps.upd ?_ rfl rfl rfl

theorem leaveHold_keeps {z : State} {s : State} (hz : Keeps z s) : Keeps z (leaveHold s) := by
  unfold leaveHold
  repeat' first
    | with_reducible assumption | with_reducible apply queueEvent_keeps | with_reducible apply Keeps.ite | split
    | dsimp only | with_reducible refine Keeps.upd ?_ rfl rfl rfl

theorem holdExpired_keeps {z : State} {lateNs : Nat} {reading : Int} {s : State} (hz : Keeps z s) : Keeps z
    (holdExpired lateNs reading s) := by
  unfold holdExpired
  repeat' first
    | with_reducible assumption | with_reducible apply queueEvent_keeps | with_reducible apply Keeps.ite | split
    | dsimp only | with_reducible refine Keeps.upd ?_ rfl rfl rfl

theorem excludeRef_keeps {z : State} {s : State} {r : Fin 3} {dev : Int} (hz : Keeps z s) : Keeps z
    (excludeRef s r dev) := by
  unfold excludeRef
  repeat' first
    | with_reducible assumption | with_reducible apply queueEvent_keeps | with_reducible apply discardCal_keeps
    | with_reducible apply Keeps.ite | split | dsimp only | with_reducible refine Keeps.upd ?_ rfl rfl rfl

theorem voteHold_keeps {z : State} {s : State} {cause code : Nat} {payload : List Byte} (hz : Keeps z s) : Keeps z
    (voteHold s cause code payload) := by
  unfold voteHold
  repeat' first
    | with_reducible assumption | with_reducible apply queueEvent_keeps | with_reducible apply enterHold_keeps
    | with_reducible apply Keeps.ite | split | dsimp only | with_reducible refine Keeps.upd ?_ rfl rfl rfl

theorem refCheck_keeps {z : State} {s : State} {ab xRaw : Int} (hz : Keeps z s) : Keeps z (refCheck s ab xRaw) := by
  unfold refCheck
  repeat' first
    | with_reducible assumption | with_reducible apply leaveHold_keeps | with_reducible apply excludeRef_keeps
    | with_reducible apply voteHold_keeps | with_reducible apply Keeps.ite | split | dsimp only
    | with_reducible refine Keeps.upd ?_ rfl rfl rfl

theorem refMonitor_keeps {z : State} {a b x : Int} {s : State} (hz : Keeps z s) : Keeps z (refMonitor a b x s) := by
  unfold refMonitor
  repeat' first
    | with_reducible assumption | with_reducible apply excludeRef_keeps | with_reducible apply Keeps.ite | split
    | dsimp only

theorem setCoef_keeps {z : State} {s : State} {u : Fin 36} {row : Vector Coef 4} (hz : Keeps z s) : Keeps z
    (setCoef s u row) := by
  unfold setCoef
  repeat' first
    | with_reducible assumption | split | dsimp only | with_reducible refine Keeps.upd ?_ rfl rfl rfl

theorem checkSpares_keeps {z : State} {s : State} (hz : Keeps z s) : Keeps z (checkSpares s) := by
  unfold checkSpares
  repeat' first
    | with_reducible assumption | with_reducible apply queueEvent_keeps | with_reducible apply enterHold_keeps
    | with_reducible apply Keeps.ite | split | dsimp only

theorem tellRetired_keeps {z : State} {s : State} {j : Fin 4} {cause : Nat} (hz : Keeps z s) : Keeps z
    (tellRetired s j cause) := by
  unfold tellRetired
  repeat' first
    | with_reducible assumption | with_reducible apply queueEvent_keeps | with_reducible apply checkSpares_keeps
    | split | dsimp only | with_reducible refine Keeps.upd ?_ rfl rfl rfl

theorem setWork_keeps {z : State} {s : State} {j : Fin 4} {w : Option LaneWork} (hz : Keeps z s) : Keeps z
    (setWork s j w) := by
  unfold setWork
  repeat' first
    | with_reducible assumption | split | dsimp only | with_reducible refine Keeps.upd ?_ rfl rfl rfl

theorem setLane_keeps {z : State} {s : State} {j : Fin 4} {l : Lane} (hz : Keeps z s) : Keeps z (setLane s j l) := by
  unfold setLane
  repeat' first
    | with_reducible assumption | split | dsimp only | with_reducible refine Keeps.upd ?_ rfl rfl rfl

theorem retireLane_keeps {z : State} {s : State} {j : Fin 4} {cause : Nat} (hz : Keeps z s) : Keeps z
    (retireLane s j cause) := by
  unfold retireLane
  repeat' first
    | with_reducible assumption | with_reducible apply tellRetired_keeps | with_reducible apply setWork_keeps
    | with_reducible apply setLane_keeps | split | dsimp only

theorem retirePosition_keeps {z : State} {s : State} {q : Fin 32} {j : Fin 4} {cause : Nat} (hz : Keeps z s) : Keeps z
    (retirePosition s q j cause) := by
  unfold retirePosition
  repeat' first
    | with_reducible assumption | with_reducible apply queueEvent_keeps | with_reducible apply checkSpares_keeps
    | with_reducible apply setWork_keeps | with_reducible apply setLane_keeps | split | dsimp only
    | with_reducible refine Keeps.upd ?_ rfl rfl rfl

theorem startBlend_keeps {z : State} {s : State} {q : Fin 32} {old new : Fin 36} (hz : Keeps z s) : Keeps z
    (startBlend s q old new) := by
  unfold startBlend
  repeat' first
    | with_reducible assumption | split | dsimp only | with_reducible refine Keeps.upd ?_ rfl rfl rfl

theorem putAside_keeps {z : State} {s : State} {q : Fin 32} (hz : Keeps z s) : Keeps z (putAside s q) := by
  unfold putAside
  repeat' first
    | with_reducible assumption | with_reducible apply Keeps.ite | split | dsimp only
    | with_reducible refine Keeps.upd ?_ rfl rfl rfl

theorem takePosition_keeps {z : State} {n : Nat} {s : State} (hz : Keeps z s) : Keeps z (takePosition n s).2 := by
  induction n generalizing s with
  | zero => exact hz
  | succ n ih =>
    unfold takePosition
    split
    · with_reducible refine Keeps.upd ?_ rfl rfl rfl
      exact hz
    · have hu : ∀ x : Meas, Keeps z { s with meas := x } := fun _ => Keeps.upd hz rfl rfl rfl
      dsimp only
      split
      · exact ih (hu _)
      · split
        · exact ih (putAside_keeps (hu _))
        · exact hu _

theorem crossFail_keeps {z : State} {s : State} {q : Fin 32} {j : Fin 4} {k : Nat} {d : Int}
    (hz : Keeps z s) : Keeps z (crossFail s q j k d) := by
  unfold crossFail
  repeat' first
    | with_reducible assumption | with_reducible apply queueEvent_keeps | split | dsimp only

theorem startTry_keeps {z : State} {s : State} {j : Fin 4} {tries : List LaneSlot} (hz : Keeps z s) : Keeps z
    (startTry s j tries) := by
  unfold startTry
  repeat' first
    | with_reducible assumption | with_reducible apply setCoef_keeps | with_reducible apply setWork_keeps
    | with_reducible apply retireLane_keeps | with_reducible apply takePosition_keeps | split | dsimp only

theorem stageLane_keeps {z : State} {s : State} {j : Fin 4} {w : LaneWork} (hz : Keeps z s) : Keeps z
    (stageLane s j w) := by
  unfold stageLane
  repeat' first
    | with_reducible assumption | with_reducible apply stage_keeps | with_reducible apply setWork_keeps | split
    | dsimp only

theorem doom_keeps {z : State} {s : State} {q : Fin 32} (hz : Keeps z s) : Keeps z (doom s q) := by
  unfold doom
  repeat' first
    | with_reducible assumption | split | dsimp only | with_reducible refine Keeps.upd ?_ rfl rfl rfl

theorem substitute_keeps {z : State} {s : State} {j : Fin 4} {w : LaneWork} (hz : Keeps z s) : Keeps z
    (substitute s j w) := by
  unfold substitute
  repeat' first
    | with_reducible assumption | with_reducible apply putAside_keeps | with_reducible apply startTry_keeps
    | with_reducible apply stageLane_keeps | with_reducible apply doom_keeps | with_reducible apply Keeps.ite | split
    | dsimp only | with_reducible refine Keeps.upd ?_ rfl rfl rfl

theorem crossOne_keeps {z : State} {s : State} {j : Fin 4} {w : LaneWork} (hz : Keeps z s) : Keeps z
    (crossOne s j w) := by
  unfold crossOne
  repeat' first
    | with_reducible assumption | with_reducible apply setWork_keeps | with_reducible apply crossFail_keeps
    | with_reducible apply substitute_keeps | with_reducible apply Keeps.ite | split | dsimp only
    | with_reducible refine Keeps.upd ?_ rfl rfl rfl

theorem judgeOne_keeps {z : State} {s : State} {j : Fin 4} {w : LaneWork} (hz : Keeps z s) : Keeps z
    (judgeOne s j w) := by
  unfold judgeOne
  repeat' first
    | with_reducible assumption | with_reducible apply retireLane_keeps | with_reducible apply substitute_keeps
    | with_reducible apply Keeps.ite | split | dsimp only | with_reducible refine Keeps.upd ?_ rfl rfl rfl

theorem endCalibration_keeps {z : State} {s : State} {j : Fin 4} {w : LaneWork} (hz : Keeps z s) : Keeps z
    (endCalibration s j w) := by
  unfold endCalibration
  repeat' first
    | with_reducible assumption | with_reducible apply setCoef_keeps | with_reducible apply setWork_keeps
    | with_reducible apply retirePosition_keeps | with_reducible apply Keeps.ite | split | dsimp only
    | with_reducible refine Keeps.upd ?_ rfl rfl rfl

theorem crossTwo_keeps {z : State} {s : State} {j : Fin 4} {w : LaneWork} (hz : Keeps z s) : Keeps z
    (crossTwo s j w) := by
  unfold crossTwo
  repeat' first
    | with_reducible assumption | with_reducible apply setWork_keeps | with_reducible apply retirePosition_keeps
    | with_reducible apply crossFail_keeps | with_reducible apply stageLane_keeps | with_reducible apply Keeps.ite
    | split | dsimp only | with_reducible refine Keeps.upd ?_ rfl rfl rfl

theorem judgeTwo_keeps {z : State} {s : State} {j : Fin 4} {w : LaneWork} (hz : Keeps z s) : Keeps z
    (judgeTwo s j w) := by
  unfold judgeTwo
  repeat' first
    | with_reducible assumption | with_reducible apply tellRetired_keeps | with_reducible apply retirePosition_keeps
    | with_reducible apply stageLane_keeps | with_reducible apply Keeps.ite | split | dsimp only
    | with_reducible refine Keeps.upd ?_ rfl rfl rfl

theorem laneAdvance_keeps {z : State} {s : State} {j : Fin 4} (hz : Keeps z s) : Keeps z (laneAdvance s j) := by
  unfold laneAdvance
  repeat' first
    | with_reducible assumption | with_reducible apply holdFailed_keeps | with_reducible apply unstageLane_keeps
    | with_reducible apply setWork_keeps | with_reducible apply setLane_keeps
    | with_reducible apply retirePosition_keeps | with_reducible apply startBlend_keeps
    | with_reducible apply crossOne_keeps | with_reducible apply judgeOne_keeps
    | with_reducible apply endCalibration_keeps | with_reducible apply crossTwo_keeps
    | with_reducible apply judgeTwo_keeps | with_reducible apply Keeps.ite | split | dsimp only
    | with_reducible refine Keeps.upd ?_ rfl rfl rfl

theorem restartWindow_keeps {z : State} {c : Fin 16} {s : State} {j : Fin 4} (hz : Keeps z s) : Keeps z
    (restartWindow c s j) := by
  unfold restartWindow
  repeat' first
    | with_reducible assumption | with_reducible apply setWork_keeps | with_reducible apply stageLane_keeps
    | with_reducible apply Keeps.ite | split | dsimp only | with_reducible refine Keeps.upd ?_ rfl rfl rfl

theorem startLane_keeps {z : State} {m : SlotMeas} {s : State} {j : Fin 4} (hz : Keeps z s) : Keeps z
    (startLane m s j) := by
  unfold startLane
  repeat' first
    | with_reducible assumption | with_reducible apply startTry_keeps | with_reducible apply Keeps.ite | split
    | dsimp only

theorem endRotation_keeps {z : State} {s : State} (hz : Keeps z s) : Keeps z (endRotation s) := by
  unfold endRotation
  repeat' first
    | with_reducible assumption | split | dsimp only | with_reducible refine Keeps.upd ?_ rfl rfl rfl

theorem slotRefs_keeps {z : State} {m : SlotMeas} {s : State} (hz : Keeps z s) : Keeps z (slotRefs m s) := by
  unfold slotRefs
  repeat' first
    | with_reducible assumption | (with_reducible apply Keeps.foldl; rotate_left; intro _ _ _)
    | with_reducible apply refCheck_keeps | with_reducible apply Keeps.ite | split | dsimp only

theorem slotStart_keeps {z : State} {m : SlotMeas} {s : State} (hz : Keeps z s) : Keeps z (slotStart m s) := by
  unfold slotStart
  repeat' first
    | with_reducible assumption | (with_reducible apply Keeps.foldl; rotate_left; intro _ _ _)
    | with_reducible apply startLane_keeps | with_reducible apply endRotation_keeps
    | with_reducible apply slotRefs_keeps | with_reducible apply Keeps.ite | split | dsimp only
    | with_reducible refine Keeps.upd ?_ rfl rfl rfl

theorem execCalSlotStart_keeps {m : SlotMeas} {s : State} {t : State}
    (hz : execCalSlotStart m s = .next t) : Keeps s t := by
  unfold execCalSlotStart at hz
  obtain rfl := Host.Outcome.next.inj hz
  clear hz
  have hz := Keeps.refl s
  repeat' first
    | with_reducible assumption | with_reducible apply slotStart_keeps | with_reducible apply Keeps.ite
    | with_reducible apply Keeps.iteFst | with_reducible intro _ _ _ | split | dsimp only

theorem execRefMonitor_keeps {a b x : Int} {s : State} {t : State}
    (hz : execRefMonitor a b x s = .next t) : Keeps s t := by
  unfold execRefMonitor at hz
  obtain rfl := Host.Outcome.next.inj hz
  clear hz
  have hz := Keeps.refl s
  repeat' first
    | with_reducible assumption | with_reducible apply refMonitor_keeps | with_reducible apply Keeps.ite
    | with_reducible apply Keeps.iteFst | with_reducible intro _ _ _ | split | dsimp only

theorem execCalHoldExpired_keeps {lateNs : Nat} {reading : Int} {s : State} {t : State}
    (hz : execCalHoldExpired lateNs reading s = .next t) : Keeps s t := by
  unfold execCalHoldExpired at hz
  obtain rfl := Host.Outcome.next.inj hz
  clear hz
  have hz := Keeps.refl s
  repeat' first
    | with_reducible assumption | with_reducible apply holdExpired_keeps | with_reducible apply Keeps.ite
    | with_reducible apply Keeps.iteFst | with_reducible intro _ _ _ | split | dsimp only

end Sys2Proof.Safety
end

