-- ==== Sys2Proof/Laws/KeepsMeasurement.lean ====
section
/-! SUPPORT. What the operations of Machine/Measurement.lean keep. -/
namespace Sys2Proof.Safety

open Sys2Proof.Machine

set_option simprocs false

theorem endLoopCycle_keeps {z : State} {s : State} (hz : Keeps z s) : Keeps z (endLoopCycle s) := by
  unfold endLoopCycle
  repeat' first
    | with_reducible assumption | with_reducible apply recordTest_keeps | with_reducible apply testDone_keeps
    | with_reducible apply Keeps.ite | split | dsimp only | with_reducible refine Keeps.upd ?_ rfl rfl rfl

theorem nextLoopLeg_keeps {z : State} {s : State} (hz : Keeps z s) : Keeps z (nextLoopLeg s) := by
  unfold nextLoopLeg
  repeat' first
    | with_reducible assumption | with_reducible apply endLoopCycle_keeps | with_reducible apply Keeps.ite | split
    | dsimp only | with_reducible refine Keeps.upd ?_ rfl rfl rfl

theorem takeLoopSlot_keeps {z : State} {s : State} (hz : Keeps z s) : Keeps z (takeLoopSlot s) := by
  unfold takeLoopSlot
  repeat' first
    | with_reducible assumption | split | dsimp only | with_reducible refine Keeps.upd ?_ rfl rfl rfl

theorem loopback_keeps {z : State} {plus minus : Int} {s : State} (hz : Keeps z s) : Keeps z
    (loopback plus minus s) := by
  unfold loopback
  repeat' first
    | with_reducible assumption | with_reducible apply updLeg_keeps | with_reducible apply legConvFault_keeps
    | with_reducible apply nextLoopLeg_keeps | with_reducible apply takeLoopSlot_keeps
    | with_reducible apply Keeps.ite | split | dsimp only | with_reducible refine Keeps.upd ?_ rfl rfl rfl

theorem legOffset_keeps {z : State} {l : Fin 32} {offset : Int} {s : State} (hz : Keeps z s) : Keeps z
    (legOffset l offset s) := by
  unfold legOffset
  repeat' first
    | with_reducible assumption | with_reducible apply updLeg_keeps | with_reducible apply Keeps.ite | split
    | dsimp only | with_reducible refine Keeps.upd ?_ rfl rfl rfl

theorem overRangeLink_keeps {z : State} {s : State} {conv : Nat} (hz : Keeps z s) : Keeps z (overRangeLink s conv) := by
  unfold overRangeLink
  repeat' first
    | with_reducible assumption | with_reducible apply queueRated_keeps | with_reducible apply drawFree_keeps | split
    | dsimp only

theorem pulseDone_keeps {z : State} {c : Fin 16} {raw : PulseMeas} {s : State} (hz : Keeps z s) : Keeps z
    (pulseDone c raw s) := by
  unfold pulseDone
  repeat' first
    | with_reducible assumption | with_reducible apply updCh_keeps | with_reducible apply updProg_keeps
    | with_reducible apply reply_keeps | with_reducible apply formRecord_keeps | with_reducible apply Keeps.ite
    | split | dsimp only | with_reducible refine Keeps.upd ?_ rfl rfl rfl

theorem impedance_keeps {z : State} {s : State} {c : Fin 16} {m n : Nat} {e : EisMeas} (hz : Keeps z s) : Keeps z
    (impedance s c m n e).2 := by
  unfold impedance
  repeat' first
    | with_reducible assumption | with_reducible apply drawFree_keeps | with_reducible apply Keeps.ite
    | with_reducible apply Keeps.iteSnd | split | dsimp only

theorem eisReport_keeps {z : State} {c : Fin 16} {m n : Nat} {e : EisMeas} {s : State} (hz : Keeps z s) : Keeps z
    (eisReport c m n e s) := by
  unfold eisReport
  repeat' first
    | with_reducible assumption | with_reducible apply updCh_keeps | with_reducible apply updProg_keeps
    | with_reducible apply reply_keeps | with_reducible apply drawFree_keeps | with_reducible apply formRecord_keeps
    | with_reducible apply decideEnd_keeps | with_reducible apply impedance_keeps | with_reducible apply Keeps.ite
    | split | dsimp only | with_reducible refine Keeps.upd ?_ rfl rfl rfl

theorem eisDone_keeps {z : State} {c : Fin 16} {raw : EisMeas} {s : State} (hz : Keeps z s) : Keeps z
    (eisDone c raw s) := by
  unfold eisDone
  repeat' first
    | with_reducible assumption | with_reducible apply eisReport_keeps | with_reducible apply Keeps.ite | split
    | dsimp only

theorem measPulseBody_keeps {z : State} {b : Byte} {i1 dur : Word} {r : Request} {s : State}
    (hz : Keeps z s) : Keeps z (measPulseBody b i1 dur r s).1 := by
  unfold measPulseBody
  repeat' first
    | with_reducible assumption | with_reducible apply stage_keeps | with_reducible apply Keeps.ite
    | with_reducible apply Keeps.iteFst | split | dsimp only

theorem commitPulse_keeps {z : State} {s : State} {c : Fin 16} {i1 : Int} {durNs : Nat} {tag : ReqId}
    (hz : Keeps z s) : Keeps z (commitPulse s c i1 durNs tag) := by
  unfold commitPulse
  repeat' first
    | with_reducible assumption | with_reducible apply updCh_keeps | with_reducible apply reply_keeps
    | with_reducible apply Keeps.ite | split | dsimp only | with_reducible refine Keeps.upd ?_ rfl rfl rfl

theorem measEisBody_keeps {z : State} {b m : Byte} {freq amp : Word} {r : Request} {s : State}
    (hz : Keeps z s) : Keeps z (measEisBody b m freq amp r s).1 := by
  unfold measEisBody
  repeat' first
    | with_reducible assumption | with_reducible apply updCh_keeps | with_reducible apply Keeps.ite
    | with_reducible apply Keeps.iteFst | split | dsimp only | with_reducible refine Keeps.upd ?_ rfl rfl rfl

theorem calRotationBody_keeps {z : State} {s : State} (hz : Keeps z s) : Keeps z (calRotationBody s).1 := by
  unfold calRotationBody
  repeat' first
    | with_reducible assumption | with_reducible apply Keeps.ite | with_reducible apply Keeps.iteFst | split
    | dsimp only

theorem calTrimBody_keeps {z : State} {kind limit : Nat} {arg : Byte} {value : Word} {r : Request} {s : State}
    (hz : Keeps z s) : Keeps z (calTrimBody kind limit arg value r s).1 := by
  unfold calTrimBody
  repeat' first
    | with_reducible assumption | with_reducible apply Keeps.ite | with_reducible apply Keeps.iteFst | split
    | dsimp only | with_reducible refine Keeps.upd ?_ rfl rfl rfl

theorem calTrimEnd_keeps {z : State} {ok : Bool} {deviation : Int} {s : State} (hz : Keeps z s) : Keeps z
    (calTrimEnd ok deviation s) := by
  unfold calTrimEnd
  repeat' first
    | with_reducible assumption | with_reducible apply replyOp_keeps | with_reducible apply drawFree_keeps
    | with_reducible apply nvmFail_keeps | with_reducible apply Keeps.ite | split | dsimp only
    | with_reducible refine Keeps.upd ?_ rfl rfl rfl

theorem execLoopbackCheck_keeps {plus minus : Int} {s : State} {t : State}
    (hz : execLoopbackCheck plus minus s = .next t) : Keeps s t := by
  unfold execLoopbackCheck at hz
  obtain rfl := Host.Outcome.next.inj hz
  clear hz
  have hz := Keeps.refl s
  repeat' first
    | with_reducible assumption | with_reducible apply loopback_keeps | with_reducible apply Keeps.ite
    | with_reducible apply Keeps.iteFst | with_reducible intro _ _ _ | split | dsimp only

theorem execLegOffsetMeasure_keeps {leg : Fin 32} {offset : Int} {s : State} {t : State}
    (hz : execLegOffsetMeasure leg offset s = .next t) : Keeps s t := by
  unfold execLegOffsetMeasure at hz
  obtain rfl := Host.Outcome.next.inj hz
  clear hz
  have hz := Keeps.refl s
  repeat' first
    | with_reducible assumption | with_reducible apply legOffset_keeps | with_reducible apply Keeps.ite
    | with_reducible apply Keeps.iteFst | with_reducible intro _ _ _ | split | dsimp only

theorem execPulseEvalDone_keeps {ch : Fin 16} {m : PulseMeas} {s : State} {t : State}
    (hz : execPulseEvalDone ch m s = .next t) : Keeps s t := by
  unfold execPulseEvalDone at hz
  obtain rfl := Host.Outcome.next.inj hz
  clear hz
  have hz := Keeps.refl s
  repeat' first
    | with_reducible assumption | with_reducible apply pulseDone_keeps | with_reducible apply Keeps.ite
    | with_reducible apply Keeps.iteFst | with_reducible intro _ _ _ | split | dsimp only

theorem execEisPointDone_keeps {ch : Fin 16} {m : EisMeas} {s : State} {t : State}
    (hz : execEisPointDone ch m s = .next t) : Keeps s t := by
  unfold execEisPointDone at hz
  obtain rfl := Host.Outcome.next.inj hz
  clear hz
  have hz := Keeps.refl s
  repeat' first
    | with_reducible assumption | with_reducible apply eisDone_keeps | with_reducible apply Keeps.ite
    | with_reducible apply Keeps.iteFst | with_reducible intro _ _ _ | split | dsimp only

theorem execMeasPulse_keeps {ch : Byte} {i1 dur : Word} {s : State} {t : State}
    (hz : execMeasPulse ch i1 dur s = .next t) : Keeps s t := by
  unfold execMeasPulse at hz
  obtain rfl := Host.Outcome.next.inj hz
  clear hz
  have hz := Keeps.refl s
  repeat' first
    | with_reducible assumption | with_reducible apply hostCommand_keeps | with_reducible apply measPulseBody_keeps
    | with_reducible apply Keeps.ite | with_reducible apply Keeps.iteFst | with_reducible intro _ _ _ | split
    | dsimp only

theorem execMeasEis_keeps {ch m : Byte} {freq amp : Word} {s : State} {t : State}
    (hz : execMeasEis ch m freq amp s = .next t) : Keeps s t := by
  unfold execMeasEis at hz
  obtain rfl := Host.Outcome.next.inj hz
  clear hz
  have hz := Keeps.refl s
  repeat' first
    | with_reducible assumption | with_reducible apply hostCommand_keeps | with_reducible apply measEisBody_keeps
    | with_reducible apply Keeps.ite | with_reducible apply Keeps.iteFst | with_reducible intro _ _ _ | split
    | dsimp only

theorem execCalRequestRotation_keeps {s : State} {t : State} (hz : execCalRequestRotation s = .next t) : Keeps s t := by
  unfold execCalRequestRotation at hz
  obtain rfl := Host.Outcome.next.inj hz
  clear hz
  have hz := Keeps.refl s
  repeat' first
    | with_reducible assumption | with_reducible apply hostCommand_keeps | with_reducible apply calRotationBody_keeps
    | with_reducible apply Keeps.ite | with_reducible apply Keeps.iteFst | with_reducible intro _ _ _ | split
    | dsimp only

theorem execCalRequestRefTrim_keeps {arg : Byte} {value : Word} {s : State} {t : State}
    (hz : execCalRequestRefTrim arg value s = .next t) : Keeps s t := by
  unfold execCalRequestRefTrim at hz
  obtain rfl := Host.Outcome.next.inj hz
  clear hz
  have hz := Keeps.refl s
  repeat' first
    | with_reducible assumption | with_reducible apply hostCommand_keeps | with_reducible apply calTrimBody_keeps
    | with_reducible apply Keeps.ite | with_reducible apply Keeps.iteFst | with_reducible intro _ _ _ | split
    | dsimp only

theorem execCalRequestFactory_keeps {arg : Byte} {value : Word} {s : State} {t : State}
    (hz : execCalRequestFactory arg value s = .next t) : Keeps s t := by
  unfold execCalRequestFactory at hz
  obtain rfl := Host.Outcome.next.inj hz
  clear hz
  have hz := Keeps.refl s
  repeat' first
    | with_reducible assumption | with_reducible apply hostCommand_keeps | with_reducible apply calTrimBody_keeps
    | with_reducible apply Keeps.ite | with_reducible apply Keeps.iteFst | with_reducible intro _ _ _ | split
    | dsimp only

theorem execCalTrimDone_keeps {ok : Bool} {deviation : Int} {s : State} {t : State}
    (hz : execCalTrimDone ok deviation s = .next t) : Keeps s t := by
  unfold execCalTrimDone at hz
  obtain rfl := Host.Outcome.next.inj hz
  clear hz
  have hz := Keeps.refl s
  repeat' first
    | with_reducible assumption | with_reducible apply calTrimEnd_keeps | with_reducible apply Keeps.ite
    | with_reducible apply Keeps.iteFst | with_reducible intro _ _ _ | split | dsimp only

end Sys2Proof.Safety
end

