-- ==== Sys2Proof/Laws/KeepsFormation.lean ====
section
/-! SUPPORT. What the operations of Machine/Formation.lean keep. -/
namespace Sys2Proof.Safety

open Sys2Proof.Machine

set_option simprocs false

theorem flagFalls_keeps {z : State} {c : Fin 16} {s : State} (hz : Keeps z s) : Keeps z (flagFalls c s) := by
  unfold flagFalls
  repeat' first
    | with_reducible assumption | with_reducible apply decideEnd_keeps | with_reducible apply Keeps.ite | split
    | dsimp only

theorem chargeCaps_keeps {z : State} {c : Fin 16} {s : State} (hz : Keeps z s) : Keeps z (chargeCaps c s) := by
  unfold chargeCaps
  repeat' first
    | with_reducible assumption | with_reducible apply decideEnd_keeps | with_reducible apply Keeps.ite | split
    | dsimp only

theorem periodicRecord_keeps {z : State} {c : Fin 16} {s : State} (hz : Keeps z s) : Keeps z (periodicRecord c s) := by
  unfold periodicRecord
  repeat' first
    | with_reducible assumption | with_reducible apply updProg_keeps | with_reducible apply formRecordAt_keeps
    | with_reducible apply Keeps.ite | split | dsimp only | with_reducible refine Keeps.upd ?_ rfl rfl rfl

theorem orFree_keeps {z : State} {x : Option Int} {s : State} (hz : Keeps z s) : Keeps z (orFree x s).2 := by
  unfold orFree
  repeat' first
    | with_reducible assumption | with_reducible apply drawFree_keeps | split | dsimp only
    | with_reducible refine Keeps.upd ?_ rfl rfl rfl

theorem ocvRecord_keeps {z : State} {c : Fin 16} {s : State} (hz : Keeps z s) : Keeps z (ocvRecord c s) := by
  unfold ocvRecord
  repeat' first
    | with_reducible assumption | with_reducible apply updProg_keeps | with_reducible apply formRecord_keeps
    | with_reducible apply orFree_keeps | with_reducible apply Keeps.ite | split | dsimp only
    | with_reducible refine Keeps.upd ?_ rfl rfl rfl

theorem reduceEnds_keeps {z : State} {c : Fin 16} {s : State} (hz : Keeps z s) : Keeps z (reduceEnds c s) := by
  unfold reduceEnds
  repeat' first
    | with_reducible assumption | with_reducible apply updProg_keeps | with_reducible apply queueEvent_keeps
    | with_reducible apply setStepTargets_keeps | with_reducible apply Keeps.ite | split | dsimp only
    | with_reducible refine Keeps.upd ?_ rfl rfl rfl

theorem reduceBegins_keeps {z : State} {s : State} {c : Fin 16} (hz : Keeps z s) : Keeps z (reduceBegins s c) := by
  unfold reduceBegins
  repeat' first
    | with_reducible assumption | with_reducible apply updProg_keeps | with_reducible apply queueEvent_keeps
    | with_reducible apply setStepTargets_keeps | with_reducible apply Keeps.ite | split | dsimp only
    | with_reducible refine Keeps.upd ?_ rfl rfl rfl

theorem tempwinEnds_keeps {z : State} {c : Fin 16} {s : State} (hz : Keeps z s) : Keeps z (tempwinEnds c s) := by
  unfold tempwinEnds
  repeat' first
    | with_reducible assumption | with_reducible apply updProg_keeps | with_reducible apply clearCauses_keeps
    | with_reducible apply Keeps.ite | split | dsimp only | with_reducible refine Keeps.upd ?_ rfl rfl rfl

theorem tempRefresh_keeps {z : State} {s : State} {c : Fin 16} (hz : Keeps z s) : Keeps z (tempRefresh s c) := by
  unfold tempRefresh
  repeat' first
    | with_reducible assumption | (with_reducible apply Keeps.foldl; rotate_left; intro _ _ _)
    | with_reducible apply updProg_keeps | with_reducible apply decideEnd_keeps | with_reducible apply addCause_keeps
    | with_reducible apply reduceBegins_keeps | with_reducible apply Keeps.ite | split | dsimp only
    | with_reducible refine Keeps.upd ?_ rfl rfl rfl

theorem execFlagFall_keeps {ch : Fin 16} {s : State} {t : State} (hz : execFlagFall ch s = .next t) : Keeps s t := by
  unfold execFlagFall at hz
  obtain rfl := Host.Outcome.next.inj hz
  clear hz
  have hz := Keeps.refl s
  repeat' first
    | with_reducible assumption | with_reducible apply flagFalls_keeps | with_reducible apply Keeps.ite
    | with_reducible apply Keeps.iteFst | with_reducible intro _ _ _ | split | dsimp only

theorem execChargeCap_keeps {ch : Fin 16} {s : State} {t : State} (hz : execChargeCap ch s = .next t) : Keeps s t := by
  unfold execChargeCap at hz
  obtain rfl := Host.Outcome.next.inj hz
  clear hz
  have hz := Keeps.refl s
  repeat' first
    | with_reducible assumption | with_reducible apply chargeCaps_keeps | with_reducible apply Keeps.ite
    | with_reducible apply Keeps.iteFst | with_reducible intro _ _ _ | split | dsimp only

theorem execPeriodicRecord_keeps {ch : Fin 16} {s : State} {t : State}
    (hz : execPeriodicRecord ch s = .next t) : Keeps s t := by
  unfold execPeriodicRecord at hz
  obtain rfl := Host.Outcome.next.inj hz
  clear hz
  have hz := Keeps.refl s
  repeat' first
    | with_reducible assumption | with_reducible apply periodicRecord_keeps | with_reducible apply Keeps.ite
    | with_reducible apply Keeps.iteFst | with_reducible intro _ _ _ | split | dsimp only

theorem execOcvRecord_keeps {ch : Fin 16} {a b c : Unit} {s : State} {t : State} (hz : execOcvRecord ch a b c s = .next t) : Keeps s t := by
  unfold execOcvRecord at hz
  obtain rfl := Host.Outcome.next.inj hz
  clear hz
  have hz := Keeps.refl s
  repeat' first
    | with_reducible assumption | with_reducible apply ocvRecord_keeps | with_reducible apply Keeps.ite
    | with_reducible apply Keeps.iteFst | with_reducible intro _ _ _ | split | dsimp only

theorem execTempReduce_keeps {ch : Fin 16} {s : State} {t : State}
    (hz : execTempReduce ch s = .next t) : Keeps s t := by
  unfold execTempReduce at hz
  obtain rfl := Host.Outcome.next.inj hz
  clear hz
  have hz := Keeps.refl s
  repeat' first
    | with_reducible assumption | with_reducible apply reduceEnds_keeps | with_reducible apply Keeps.ite
    | with_reducible apply Keeps.iteFst | with_reducible intro _ _ _ | split | dsimp only

theorem execTempwinClear_keeps {ch : Fin 16} {s : State} {t : State}
    (hz : execTempwinClear ch s = .next t) : Keeps s t := by
  unfold execTempwinClear at hz
  obtain rfl := Host.Outcome.next.inj hz
  clear hz
  have hz := Keeps.refl s
  repeat' first
    | with_reducible assumption | with_reducible apply tempwinEnds_keeps | with_reducible apply Keeps.ite
    | with_reducible apply Keeps.iteFst | with_reducible intro _ _ _ | split | dsimp only

end Sys2Proof.Safety
end

