-- ==== Sys2Proof/Laws/KeepsThermal.lean ====
section
/-! SUPPORT. What the operations of Machine/Thermal.lean keep. -/
namespace Sys2Proof.Safety

open Sys2Proof.Machine

set_option simprocs false

theorem updDie_keeps {z : State} {s : State} {k : Fin 20} {f : Die → Die} (hz : Keeps z s) : Keeps z
    (State.updDie s k f) := by
  unfold State.updDie
  repeat' first
    | with_reducible assumption | split | dsimp only | with_reducible refine Keeps.upd ?_ rfl rfl rfl

theorem breakDie_keeps {z : State} {s : State} {k : Fin 20} {cause : Nat} (hz : Keeps z s) : Keeps z
    (breakDie s k cause) := by
  unfold breakDie
  repeat' first
    | with_reducible assumption | with_reducible apply queueEvent_keeps | with_reducible apply updDie_keeps | split
    | dsimp only | with_reducible refine Keeps.upd ?_ rfl rfl rfl

theorem judgeDie_keeps {z : State} {s : State} {k : Fin 20} {v : DieConv} (hz : Keeps z s) : Keeps z
    (judgeDie s k v) := by
  unfold judgeDie
  repeat' first
    | with_reducible assumption | with_reducible apply updDie_keeps | with_reducible apply breakDie_keeps
    | with_reducible apply Keeps.ite | split | dsimp only | with_reducible refine Keeps.upd ?_ rfl rfl rfl

theorem lonelyDie_keeps {z : State} {s : State} {k : Fin 20} (hz : Keeps z s) : Keeps z (lonelyDie s k) := by
  unfold lonelyDie
  repeat' first
    | with_reducible assumption | with_reducible apply breakDie_keeps | with_reducible apply Keeps.ite | split
    | dsimp only

theorem checkDies_keeps {z : State} {s : State} (hz : Keeps z s) : Keeps z (checkDies s) := by
  unfold checkDies
  repeat' first
    | with_reducible assumption | (with_reducible apply Keeps.foldl; rotate_left; intro _ _ _)
    | with_reducible apply breakDie_keeps | with_reducible apply Keeps.ite | split | dsimp only
    | with_reducible refine Keeps.upd ?_ rfl rfl rfl

theorem fastStep_keeps {z : State} {s : State} {k : Fin 20} {x : Int} (hz : Keeps z s) : Keeps z (fastStep s k x) := by
  unfold fastStep
  repeat' first
    | with_reducible assumption | with_reducible apply updDie_keeps | with_reducible apply Keeps.ite | split
    | dsimp only | with_reducible refine Keeps.upd ?_ rfl rfl rfl

theorem coolStep_keeps {z : State} {s : State} {k : Fin 20} {x : Int} (hz : Keeps z s) : Keeps z (coolStep s k x) := by
  unfold coolStep
  repeat' first
    | with_reducible assumption | with_reducible apply updDie_keeps | with_reducible apply Keeps.ite | split
    | dsimp only | with_reducible refine Keeps.upd ?_ rfl rfl rfl

theorem warnStep_keeps {z : State} {s : State} {k : Fin 20} {x : Int} (hz : Keeps z s) : Keeps z (warnStep s k x) := by
  unfold warnStep
  repeat' first
    | with_reducible assumption | with_reducible apply queueEvent_keeps | with_reducible apply updDie_keeps
    | with_reducible apply Keeps.ite | split | dsimp only | with_reducible refine Keeps.upd ?_ rfl rfl rfl

theorem throttleStep_keeps {z : State} {s : State} {k : Fin 20} {x : Int} (hz : Keeps z s) : Keeps z
    (throttleStep s k x) := by
  unfold throttleStep
  repeat' first
    | with_reducible assumption | with_reducible apply queueEvent_keeps | with_reducible apply updDie_keeps
    | with_reducible apply Keeps.ite | split | dsimp only | with_reducible refine Keeps.upd ?_ rfl rfl rfl

theorem cycleStep_keeps {z : State} {s : State} {k : Fin 20} {x : Int} (hz : Keeps z s) : Keeps z
    (cycleStep s k x) := by
  unfold cycleStep
  repeat' first
    | with_reducible assumption | with_reducible apply updDie_keeps | with_reducible apply Keeps.ite | split
    | dsimp only | with_reducible refine Keeps.upd ?_ rfl rfl rfl

theorem stopChannel_keeps {z : State} {s : State} {c : Fin 16} (hz : Keeps z s) : Keeps z (stopChannel s c) := by
  unfold stopChannel
  repeat' first
    | with_reducible assumption | (with_reducible apply Keeps.foldl; rotate_left; intro _ _ _)
    | with_reducible apply updCh_keeps | with_reducible apply addCause_keeps | with_reducible apply leaveRestart_keeps
    | with_reducible apply stopGang_keeps | with_reducible apply holdNow_keeps | with_reducible apply Keeps.ite
    | split | dsimp only

theorem applyStops_keeps {z : State} {s : State} (hz : Keeps z s) : Keeps z (applyStops s) := by
  unfold applyStops
  repeat' first
    | with_reducible assumption | (with_reducible apply Keeps.foldl; rotate_left; intro _ _ _)
    | with_reducible apply updDie_keeps | with_reducible apply stopChannel_keeps | with_reducible apply Keeps.ite
    | split | dsimp only | with_reducible refine Keeps.upd ?_ rfl rfl rfl

theorem handHot_keeps {z : State} {s : State} {k : Fin 20} {c : Fin 5} {u : State} (hu : handHot s k c = some u)
    (hz : Keeps z s) : Keeps z u := by
  unfold handHot at hu
  split at hu
  · rename_i g _
    have ht : Keeps z (if (s.grp[g]).castle = none then hotCastle s c else s) := Keeps.ite (hotCastle_keeps hz) hz
    dsimp only at hu
    generalize (if (s.grp[g]).castle = none then hotCastle s c else s) = t at hu ht
    split at hu
    · obtain rfl := Option.some.inj hu
      exact updDie_keeps ht
    · cases hu
  · cases hu

theorem stopZoneWork_keeps {z : State} {s : State} {k : Fin 20} (hz : Keeps z s) : Keeps z (stopZoneWork s k) := by
  unfold stopZoneWork
  dsimp only
  split
  · rename_i h
    cases hu : handHot s k ⟨k.val, h⟩ with
    | none => exact updDie_keeps hz
    | some u => exact handHot_keeps hu hz
  · exact updDie_keeps hz

theorem beginStop_keeps {z : State} {s : State} {k : Fin 20} (hz : Keeps z s) : Keeps z (beginStop s k) := by
  unfold beginStop
  repeat' first
    | with_reducible assumption | with_reducible apply queueEvent_keeps | with_reducible apply updDie_keeps
    | with_reducible apply stopZoneWork_keeps | split | dsimp only | with_reducible refine Keeps.upd ?_ rfl rfl rfl

theorem stopStep_keeps {z : State} {s : State} {k : Fin 20} {x : Int} (hz : Keeps z s) : Keeps z (stopStep s k x) := by
  unfold stopStep
  repeat' first
    | with_reducible assumption | with_reducible apply abandonBist_keeps | with_reducible apply updDie_keeps
    | with_reducible apply stopZoneWork_keeps | with_reducible apply beginStop_keeps | with_reducible apply Keeps.ite
    | split | dsimp only | with_reducible refine Keeps.upd ?_ rfl rfl rfl

theorem takeThermCfg_keeps {z : State} {s : State} (hz : Keeps z s) : Keeps z (takeThermCfg s) := by
  unfold takeThermCfg
  repeat' first
    | with_reducible assumption | split | dsimp only | with_reducible refine Keeps.upd ?_ rfl rfl rfl

theorem actOnReading_keeps {z : State} {s : State} {k : Fin 20} {x : Int} (hz : Keeps z s) : Keeps z
    (actOnReading s k x) := by
  unfold actOnReading
  repeat' first
    | with_reducible assumption | with_reducible apply hotCastle_keeps | with_reducible apply fastStep_keeps
    | with_reducible apply coolStep_keeps | with_reducible apply warnStep_keeps
    | with_reducible apply throttleStep_keeps | with_reducible apply cycleStep_keeps
    | with_reducible apply stopStep_keeps | with_reducible apply Keeps.ite | split | dsimp only
    | with_reducible refine Keeps.upd ?_ rfl rfl rfl

theorem evalDie_keeps {z : State} {s : State} {k : Fin 20} {v : DieConv} (hz : Keeps z s) : Keeps z
    (evalDie s k v) := by
  unfold evalDie
  repeat' first
    | with_reducible assumption | with_reducible apply updDie_keeps | with_reducible apply judgeDie_keeps
    | with_reducible apply lonelyDie_keeps | with_reducible apply takeThermCfg_keeps
    | with_reducible apply actOnReading_keeps | with_reducible apply Keeps.ite | split | dsimp only
    | with_reducible refine Keeps.upd ?_ rfl rfl rfl

theorem firstEvals_keeps {z : State} {s : State} (hz : Keeps z s) : Keeps z (firstEvals s) := by
  unfold firstEvals
  repeat' first
    | with_reducible assumption | (with_reducible apply Keeps.foldl; rotate_left; intro _ _ _)
    | with_reducible apply checkDies_keeps | with_reducible apply evalDie_keeps | with_reducible apply Keeps.ite
    | split | dsimp only | with_reducible refine Keeps.upd ?_ rfl rfl rfl

theorem thermEval_keeps {z : State} {k : Fin 20} {v : DieConv} {s : State} (hz : Keeps z s) : Keeps z
    (thermEval k v s) := by
  unfold thermEval
  repeat' first
    | with_reducible assumption | with_reducible apply evalDie_keeps | with_reducible apply firstEvals_keeps
    | with_reducible apply Keeps.ite | split | dsimp only | with_reducible refine Keeps.upd ?_ rfl rfl rfl

theorem stopEnds_keeps {z : State} {k : Fin 20} {s : State} (hz : Keeps z s) : Keeps z (stopEnds k s) := by
  unfold stopEnds
  repeat' first
    | with_reducible assumption | with_reducible apply queueEvent_keeps | with_reducible apply updDie_keeps
    | with_reducible apply Keeps.ite | split | dsimp only | with_reducible refine Keeps.upd ?_ rfl rfl rfl

theorem latchTrips_keeps {z : State} {k : Fin 20} {s : State} (hz : Keeps z s) : Keeps z (latchTrips k s) := by
  unfold latchTrips
  repeat' first
    | with_reducible assumption | with_reducible apply holdIslands_keeps | with_reducible apply Keeps.ite | split
    | dsimp only | with_reducible refine Keeps.upd ?_ rfl rfl rfl

theorem updInp_keeps {z : State} {s : State} {i : Fin 24} {f : Therm → Therm} (hz : Keeps z s) : Keeps z
    (State.updInp s i f) := by
  unfold State.updInp
  repeat' first
    | with_reducible assumption | split | dsimp only | with_reducible refine Keeps.upd ?_ rfl rfl rfl

theorem inputEvent_keeps {z : State} {s : State} {i : Fin 24} {kind entry : Nat} (hz : Keeps z s) : Keeps z
    (inputEvent s i kind entry) := by
  unfold inputEvent
  repeat' first
    | with_reducible assumption | with_reducible apply queueEvent_keeps | split | dsimp only

theorem brokenStep_keeps {z : State} {s : State} {i : Fin 24} {x ns : Nat} (hz : Keeps z s) : Keeps z
    (brokenStep s i x ns) := by
  unfold brokenStep
  repeat' first
    | with_reducible assumption | with_reducible apply updInp_keeps | with_reducible apply inputEvent_keeps
    | with_reducible apply Keeps.ite | split | dsimp only | with_reducible refine Keeps.upd ?_ rfl rfl rfl

theorem otCheck_keeps {z : State} {s : State} {c : Fin 16} (hz : Keeps z s) : Keeps z (otCheck s c) := by
  unfold otCheck
  repeat' first
    | with_reducible assumption | with_reducible apply cpTripped_keeps | with_reducible apply updInp_keeps
    | with_reducible apply Keeps.ite | split | dsimp only | with_reducible refine Keeps.upd ?_ rfl rfl rfl

theorem refreshVolt_keeps {z : State} {s : State} {i : Fin 24} {x : Nat} (hz : Keeps z s) : Keeps z
    (refreshVolt s i x) := by
  unfold refreshVolt
  repeat' first
    | with_reducible assumption | with_reducible apply overRangeLink_keeps | with_reducible apply updInp_keeps
    | with_reducible apply Keeps.ite | split | dsimp only | with_reducible refine Keeps.upd ?_ rfl rfl rfl

theorem refreshNtc_keeps {z : State} {s : State} {i : Fin 24} {x ns : Nat} (hz : Keeps z s) : Keeps z
    (refreshNtc s i x ns) := by
  unfold refreshNtc
  repeat' first
    | with_reducible assumption | with_reducible apply drawFree_keeps | with_reducible apply tempRefresh_keeps
    | with_reducible apply updInp_keeps | with_reducible apply brokenStep_keeps | with_reducible apply otCheck_keeps
    | with_reducible apply Keeps.ite | split | dsimp only | with_reducible refine Keeps.upd ?_ rfl rfl rfl

theorem refreshInput_keeps {z : State} {i : Fin 24} {x : Nat} {s : State} (hz : Keeps z s) : Keeps z
    (refreshInput i x s) := by
  unfold refreshInput
  repeat' first
    | with_reducible assumption | with_reducible apply updInp_keeps | with_reducible apply refreshVolt_keeps
    | with_reducible apply refreshNtc_keeps | with_reducible apply Keeps.ite | split | dsimp only
    | with_reducible refine Keeps.upd ?_ rfl rfl rfl

theorem execThermEvaluation_keeps {sensor : Fin 20} {conv : DieConv} {s : State} {t : State}
    (hz : execThermEvaluation sensor conv s = .next t) : Keeps s t := by
  unfold execThermEvaluation at hz
  obtain rfl := Host.Outcome.next.inj hz
  clear hz
  have hz := Keeps.refl s
  repeat' first
    | with_reducible assumption | with_reducible apply thermEval_keeps | with_reducible apply Keeps.ite
    | with_reducible apply Keeps.iteFst | with_reducible intro _ _ _ | split | dsimp only

theorem execThermStopEnd_keeps {sensor : Fin 20} {s : State} {t : State}
    (hz : execThermStopEnd sensor s = .next t) : Keeps s t := by
  unfold execThermStopEnd at hz
  obtain rfl := Host.Outcome.next.inj hz
  clear hz
  have hz := Keeps.refl s
  repeat' first
    | with_reducible assumption | with_reducible apply stopEnds_keeps | with_reducible apply Keeps.ite
    | with_reducible apply Keeps.iteFst | with_reducible intro _ _ _ | split | dsimp only

theorem execThermLatch_keeps {sensor : Fin 20} {s : State} {t : State}
    (hz : execThermLatch sensor s = .next t) : Keeps s t := by
  unfold execThermLatch at hz
  obtain rfl := Host.Outcome.next.inj hz
  clear hz
  have hz := Keeps.refl s
  repeat' first
    | with_reducible assumption | with_reducible apply latchTrips_keeps | with_reducible apply Keeps.ite
    | with_reducible apply Keeps.iteFst | with_reducible intro _ _ _ | split | dsimp only

theorem execThRefresh_keeps {input : Fin 24} {x : Nat} {s : State} {t : State}
    (hz : execThRefresh input x s = .next t) : Keeps s t := by
  unfold execThRefresh at hz
  obtain rfl := Host.Outcome.next.inj hz
  clear hz
  have hz := Keeps.refl s
  repeat' first
    | with_reducible assumption | with_reducible apply refreshInput_keeps | with_reducible apply Keeps.ite
    | with_reducible apply Keeps.iteFst | with_reducible intro _ _ _ | split | dsimp only

end Sys2Proof.Safety
end

