-- ==== Sys2Proof/Laws/KeepsLink.lean ====
section
/-! SUPPORT. What the operations of Machine/Link.lean keep. -/
namespace Sys2Proof.Safety

open Sys2Proof.Machine

set_option simprocs false

theorem readSrcid_keeps {z : State} {s : State} {ohm : Nat} (hz : Keeps z s) : Keeps z (readSrcid s ohm) := by
  unfold readSrcid
  repeat' first
    | with_reducible assumption | with_reducible apply queueEvent_keeps | with_reducible apply Keeps.ite | split
    | dsimp only | with_reducible refine Keeps.upd ?_ rfl rfl rfl

theorem refreshAllow_keeps {z : State} {s : State} (hz : Keeps z s) : Keeps z (refreshAllow s) := by
  unfold refreshAllow
  repeat' first
    | with_reducible assumption | split | dsimp only | with_reducible refine Keeps.upd ?_ rfl rfl rfl

theorem commitAllow_keeps {z : State} {s : State} (hz : Keeps z s) : Keeps z (commitAllow s) := by
  unfold commitAllow
  repeat' first
    | with_reducible assumption | with_reducible apply Keeps.ite | split | dsimp only
    | with_reducible refine Keeps.upd ?_ rfl rfl rfl

theorem guardTold_keeps {z : State} {s : State} {dir old new : Nat} (hz : Keeps z s) : Keeps z
    (guardTold s dir old new) := by
  unfold guardTold
  repeat' first
    | with_reducible assumption | with_reducible apply queueEvent_keeps | with_reducible apply Keeps.ite | split
    | dsimp only | with_reducible refine Keeps.upd ?_ rfl rfl rfl

theorem commitGuard_keeps {z : State} {s : State} (hz : Keeps z s) : Keeps z (commitGuard s) := by
  unfold commitGuard
  repeat' first
    | with_reducible assumption | split | dsimp only | with_reducible refine Keeps.upd ?_ rfl rfl rfl

theorem guardEpoch_keeps {z : State} {s : State} (hz : Keeps z s) : Keeps z (guardEpoch s) := by
  unfold guardEpoch
  repeat' first
    | with_reducible assumption | with_reducible apply guardTold_keeps | split | dsimp only
    | with_reducible refine Keeps.upd ?_ rfl rfl rfl

theorem decideLink_keeps {z : State} {s : State} {dest : LinkSt} {row wait : Nat} (hz : Keeps z s) : Keeps z
    (decideLink s dest row wait) := by
  unfold decideLink
  repeat' first
    | with_reducible assumption | with_reducible apply Keeps.ite | split | dsimp only
    | with_reducible refine Keeps.upd ?_ rfl rfl rfl

theorem sourceRows_keeps {z : State} {s : State} {wait : Nat} (hz : Keeps z s) : Keeps z (sourceRows s wait) := by
  unfold sourceRows
  repeat' first
    | with_reducible assumption | with_reducible apply decideLink_keeps | with_reducible apply Keeps.ite | split
    | dsimp only

theorem startQual_keeps {z : State} {s : State} (hz : Keeps z s) : Keeps z (startQual s) := by
  unfold startQual
  repeat' first
    | with_reducible assumption | split | dsimp only | with_reducible refine Keeps.upd ?_ rfl rfl rfl

theorem backupFault_keeps {z : State} {s : State} (hz : Keeps z s) : Keeps z (backupFault s) := by
  unfold backupFault
  repeat' first
    | with_reducible assumption | with_reducible apply queueEvent_keeps | with_reducible apply Keeps.ite | split
    | dsimp only | with_reducible refine Keeps.upd ?_ rfl rfl rfl

theorem staleBegin_keeps {z : State} {s : State} {n : Nat} (hz : Keeps z s) : Keeps z (staleBegin s n) := by
  unfold staleBegin
  repeat' first
    | with_reducible assumption | with_reducible apply queueEvent_keeps | with_reducible apply Keeps.ite | split
    | dsimp only | with_reducible refine Keeps.upd ?_ rfl rfl rfl

theorem stalemate_keeps {z : State} {s : State} (hz : Keeps z s) : Keeps z (stalemate s) := by
  unfold stalemate
  repeat' first
    | with_reducible assumption | (with_reducible apply Keeps.foldl; rotate_left; intro _ _ _)
    | with_reducible apply holdNow_keeps | with_reducible apply staleBegin_keeps | with_reducible apply Keeps.ite
    | split | dsimp only | with_reducible refine Keeps.upd ?_ rfl rfl rfl

theorem joinStalemate_keeps {z : State} {s : State} {c : Fin 16} (hz : Keeps z s) : Keeps z (joinStalemate s c) := by
  unfold joinStalemate
  repeat' first
    | with_reducible assumption | with_reducible apply addCause_keeps | with_reducible apply staleBegin_keeps
    | with_reducible apply Keeps.ite | split | dsimp only | with_reducible refine Keeps.upd ?_ rfl rfl rfl

theorem turnAllow_keeps {z : State} {s : State} {c : Fin 16} {neg : Bool} (hz : Keeps z s) : Keeps z
    (turnAllow s c neg) := by
  unfold turnAllow
  repeat' first
    | with_reducible assumption | with_reducible apply updCh_keeps | with_reducible apply joinStalemate_keeps
    | with_reducible apply Keeps.ite | split | dsimp only | with_reducible refine Keeps.upd ?_ rfl rfl rfl

theorem staleEnd_keeps {z : State} {s : State} (hz : Keeps z s) : Keeps z (staleEnd s) := by
  unfold staleEnd
  repeat' first
    | with_reducible assumption | with_reducible apply queueEvent_keeps | with_reducible apply Keeps.ite | split
    | dsimp only | with_reducible refine Keeps.upd ?_ rfl rfl rfl

theorem releasePaused_keeps {z : State} {s : State} (hz : Keeps z s) : Keeps z (releasePaused s) := by
  unfold releasePaused
  repeat' first
    | with_reducible assumption | with_reducible apply clearCauses_keeps | with_reducible apply staleEnd_keeps
    | with_reducible apply Keeps.ite | split | dsimp only | with_reducible refine Keeps.upd ?_ rfl rfl rfl

theorem enterLink_keeps {z : State} {s : State} {dest : LinkSt} {row : Nat} (hz : Keeps z s) : Keeps z
    (enterLink s dest row) := by
  unfold enterLink
  repeat' first
    | with_reducible assumption | with_reducible apply queueEvent_keeps | with_reducible apply decideLink_keeps
    | with_reducible apply startQual_keeps | with_reducible apply stalemate_keeps | with_reducible apply Keeps.ite
    | split | dsimp only | with_reducible refine Keeps.upd ?_ rfl rfl rfl

theorem commitLink_keeps {z : State} {s : State} (hz : Keeps z s) : Keeps z (commitLink s) := by
  unfold commitLink
  repeat' first
    | with_reducible assumption | with_reducible apply enterLink_keeps | with_reducible apply Keeps.ite | split
    | dsimp only | with_reducible refine Keeps.upd ?_ rfl rfl rfl

theorem linkEpoch_keeps {z : State} {s : State} (hz : Keeps z s) : Keeps z (linkEpoch s) := by
  unfold linkEpoch
  repeat' first
    | with_reducible assumption | with_reducible apply guardEpoch_keeps | with_reducible apply sourceRows_keeps
    | with_reducible apply startQual_keeps | with_reducible apply backupFault_keeps | with_reducible apply Keeps.ite
    | split | dsimp only | with_reducible refine Keeps.upd ?_ rfl rfl rfl

theorem tickDecisions_keeps {z : State} {s : State} (hz : Keeps z s) : Keeps z (tickDecisions s) := by
  unfold tickDecisions
  repeat' first
    | with_reducible assumption | with_reducible apply decideLink_keeps | with_reducible apply Keeps.ite | split
    | dsimp only

theorem linkTick_keeps {z : State} {s : State} (hz : Keeps z s) : Keeps z (linkTick s) := by
  unfold linkTick
  repeat' first
    | with_reducible assumption | with_reducible apply offerMessage_keeps | with_reducible apply releasePaused_keeps
    | with_reducible apply tickDecisions_keeps | with_reducible apply Keeps.ite | split | dsimp only
    | with_reducible refine Keeps.upd ?_ rfl rfl rfl

theorem sourceLost_keeps {z : State} {s : State} (hz : Keeps z s) : Keeps z (sourceLost s) := by
  unfold sourceLost
  repeat' first
    | with_reducible assumption | with_reducible apply decideLink_keeps | with_reducible apply sourceRows_keeps
    | with_reducible apply Keeps.ite | split | dsimp only | with_reducible refine Keeps.upd ?_ rfl rfl rfl

theorem srcokEdge_keeps {z : State} {level : Bool} {s : State} (hz : Keeps z s) : Keeps z (srcokEdge level s) := by
  unfold srcokEdge
  repeat' first
    | with_reducible assumption | with_reducible apply queueRated_keeps | with_reducible apply startQual_keeps
    | with_reducible apply Keeps.ite | split | dsimp only | with_reducible refine Keeps.upd ?_ rfl rfl rfl

theorem bkokEdge_keeps {z : State} {level : Bool} {s : State} (hz : Keeps z s) : Keeps z (bkokEdge level s) := by
  unfold bkokEdge
  repeat' first
    | with_reducible assumption | with_reducible apply decideLink_keeps | with_reducible apply backupFault_keeps
    | with_reducible apply Keeps.ite | split | dsimp only | with_reducible refine Keeps.upd ?_ rfl rfl rfl

theorem handoverTimeout_keeps {z : State} {s : State} (hz : Keeps z s) : Keeps z (handoverTimeout s) := by
  unfold handoverTimeout
  repeat' first
    | with_reducible assumption | with_reducible apply queueEvent_keeps | with_reducible apply decideLink_keeps
    | with_reducible apply Keeps.ite | split | dsimp only

theorem returnQualified_keeps {z : State} {s : State} (hz : Keeps z s) : Keeps z (returnQualified s) := by
  unfold returnQualified
  repeat' first
    | with_reducible assumption | with_reducible apply decideLink_keeps | with_reducible apply Keeps.ite | split
    | dsimp only

theorem backupLost_keeps {z : State} {s : State} (hz : Keeps z s) : Keeps z (backupLost s) := by
  unfold backupLost
  repeat' first
    | with_reducible assumption | with_reducible apply decideLink_keeps | with_reducible apply Keeps.ite | split
    | dsimp only

theorem formingToLost_keeps {z : State} {s : State} (hz : Keeps z s) : Keeps z (formingToLost s) := by
  unfold formingToLost
  repeat' first
    | with_reducible assumption | with_reducible apply decideLink_keeps | with_reducible apply Keeps.ite | split
    | dsimp only

theorem updPeer_keeps {z : State} {s : State} {n : Fin 16} {f : Peer → Peer} (hz : Keeps z s) : Keeps z
    (State.updPeer s n f) := by
  unfold State.updPeer
  repeat' first
    | with_reducible assumption | split | dsimp only | with_reducible refine Keeps.upd ?_ rfl rfl rfl

theorem budgetReceived_keeps {z : State} {m : BudgetMsg} {s : State} (hz : Keeps z s) : Keeps z
    (budgetReceived m s) := by
  unfold budgetReceived
  repeat' first
    | with_reducible assumption | with_reducible apply queueEvent_keeps | with_reducible apply queueRated_keeps
    | with_reducible apply keepMessage_keeps | with_reducible apply updPeer_keeps | with_reducible apply Keeps.ite
    | split | dsimp only

theorem peerLost_keeps {z : State} {n : Fin 16} {s : State} (hz : Keeps z s) : Keeps z (peerLost n s) := by
  unfold peerLost
  repeat' first
    | with_reducible assumption | with_reducible apply queueEvent_keeps | with_reducible apply updPeer_keeps
    | with_reducible apply Keeps.ite | split | dsimp only | with_reducible refine Keeps.upd ?_ rfl rfl rfl

theorem peerDemandDrop_keeps {z : State} {n : Fin 16} {s : State} (hz : Keeps z s) : Keeps z (peerDemandDrop n s) := by
  unfold peerDemandDrop
  repeat' first
    | with_reducible assumption | with_reducible apply updPeer_keeps | with_reducible apply Keeps.ite | split
    | dsimp only | with_reducible refine Keeps.upd ?_ rfl rfl rfl

theorem linkBoot_keeps {z : State} {s : State} (hz : Keeps z s) : Keeps z (linkBoot s) := by
  unfold linkBoot
  repeat' first
    | with_reducible assumption | with_reducible apply Keeps.ite | split | dsimp only
    | with_reducible refine Keeps.upd ?_ rfl rfl rfl

theorem execLinkTick_keeps {s : State} {t : State} (hz : execLinkTick s = .next t) : Keeps s t := by
  unfold execLinkTick at hz
  obtain rfl := Host.Outcome.next.inj hz
  clear hz
  have hz := Keeps.refl s
  repeat' first
    | with_reducible assumption | with_reducible apply linkTick_keeps | with_reducible apply Keeps.ite
    | with_reducible apply Keeps.iteFst | with_reducible intro _ _ _ | split | dsimp only

theorem execBudgetMessage_keeps {m : BudgetMsg} {s : State} {t : State}
    (hz : execBudgetMessage m s = .next t) : Keeps s t := by
  unfold execBudgetMessage at hz
  obtain rfl := Host.Outcome.next.inj hz
  clear hz
  have hz := Keeps.refl s
  repeat' first
    | with_reducible assumption | with_reducible apply budgetReceived_keeps | with_reducible apply Keeps.ite
    | with_reducible apply Keeps.iteFst | with_reducible intro _ _ _ | split | dsimp only

theorem execPeerLost_keeps {node : Fin 16} {s : State} {t : State}
    (hz : execPeerLost node s = .next t) : Keeps s t := by
  unfold execPeerLost at hz
  obtain rfl := Host.Outcome.next.inj hz
  clear hz
  have hz := Keeps.refl s
  repeat' first
    | with_reducible assumption | with_reducible apply peerLost_keeps | with_reducible apply Keeps.ite
    | with_reducible apply Keeps.iteFst | with_reducible intro _ _ _ | split | dsimp only

theorem execPeerDemandDrop_keeps {node : Fin 16} {s : State} {t : State}
    (hz : execPeerDemandDrop node s = .next t) : Keeps s t := by
  unfold execPeerDemandDrop at hz
  obtain rfl := Host.Outcome.next.inj hz
  clear hz
  have hz := Keeps.refl s
  repeat' first
    | with_reducible assumption | with_reducible apply peerDemandDrop_keeps | with_reducible apply Keeps.ite
    | with_reducible apply Keeps.iteFst | with_reducible intro _ _ _ | split | dsimp only

theorem execSrcokChange_keeps {level : Bool} {s : State} {t : State}
    (hz : execSrcokChange level s = .next t) : Keeps s t := by
  unfold execSrcokChange at hz
  obtain rfl := Host.Outcome.next.inj hz
  clear hz
  have hz := Keeps.refl s
  repeat' first
    | with_reducible assumption | with_reducible apply srcokEdge_keeps | with_reducible apply Keeps.ite
    | with_reducible apply Keeps.iteFst | with_reducible intro _ _ _ | split | dsimp only

theorem execSourceLoss_keeps {s : State} {t : State} (hz : execSourceLoss s = .next t) : Keeps s t := by
  unfold execSourceLoss at hz
  obtain rfl := Host.Outcome.next.inj hz
  clear hz
  have hz := Keeps.refl s
  repeat' first
    | with_reducible assumption | with_reducible apply sourceLost_keeps | with_reducible apply Keeps.ite
    | with_reducible apply Keeps.iteFst | with_reducible intro _ _ _ | split | dsimp only

theorem execBkokChange_keeps {level : Bool} {s : State} {t : State}
    (hz : execBkokChange level s = .next t) : Keeps s t := by
  unfold execBkokChange at hz
  obtain rfl := Host.Outcome.next.inj hz
  clear hz
  have hz := Keeps.refl s
  repeat' first
    | with_reducible assumption | with_reducible apply bkokEdge_keeps | with_reducible apply Keeps.ite
    | with_reducible apply Keeps.iteFst | with_reducible intro _ _ _ | split | dsimp only

theorem execHandoverTimeout_keeps {s : State} {t : State} (hz : execHandoverTimeout s = .next t) : Keeps s t := by
  unfold execHandoverTimeout at hz
  obtain rfl := Host.Outcome.next.inj hz
  clear hz
  have hz := Keeps.refl s
  repeat' first
    | with_reducible assumption | with_reducible apply handoverTimeout_keeps | with_reducible apply Keeps.ite
    | with_reducible apply Keeps.iteFst | with_reducible intro _ _ _ | split | dsimp only

theorem execReturnQualified_keeps {s : State} {t : State} (hz : execReturnQualified s = .next t) : Keeps s t := by
  unfold execReturnQualified at hz
  obtain rfl := Host.Outcome.next.inj hz
  clear hz
  have hz := Keeps.refl s
  repeat' first
    | with_reducible assumption | with_reducible apply returnQualified_keeps | with_reducible apply Keeps.ite
    | with_reducible apply Keeps.iteFst | with_reducible intro _ _ _ | split | dsimp only

theorem execBackupLost_keeps {s : State} {t : State} (hz : execBackupLost s = .next t) : Keeps s t := by
  unfold execBackupLost at hz
  obtain rfl := Host.Outcome.next.inj hz
  clear hz
  have hz := Keeps.refl s
  repeat' first
    | with_reducible assumption | with_reducible apply backupLost_keeps | with_reducible apply Keeps.ite
    | with_reducible apply Keeps.iteFst | with_reducible intro _ _ _ | split | dsimp only

theorem execFormingToLost_keeps {s : State} {t : State} (hz : execFormingToLost s = .next t) : Keeps s t := by
  unfold execFormingToLost at hz
  obtain rfl := Host.Outcome.next.inj hz
  clear hz
  have hz := Keeps.refl s
  repeat' first
    | with_reducible assumption | with_reducible apply formingToLost_keeps | with_reducible apply Keeps.ite
    | with_reducible apply Keeps.iteFst | with_reducible intro _ _ _ | split | dsimp only

end Sys2Proof.Safety
end

