-- ==== Sys2Proof/Laws/KeepsSupplies.lean ====
section
/-! SUPPORT. What the operations of Machine/Supplies.lean keep. -/
namespace Sys2Proof.Safety

open Sys2Proof.Machine

set_option simprocs false

theorem clearPeaks_keeps {z : State} {s : State} (hz : Keeps z s) : Keeps z (clearPeaks s) := by
  unfold clearPeaks
  repeat' first
    | with_reducible assumption | split | dsimp only | with_reducible refine Keeps.upd ?_ rfl rfl rfl

theorem auxStop_keeps {z : State} {s : State} {kind vgd : Nat} (hz : Keeps z s) : Keeps z (auxStop s kind vgd) := by
  unfold auxStop
  repeat' first
    | with_reducible assumption | with_reducible apply holdIslands_keeps | split | dsimp only
    | with_reducible refine Keeps.upd ?_ rfl rfl rfl

theorem latchPhase_keeps {z : State} {s : State} {p : Fin 2} {cause : Nat} (hz : Keeps z s) : Keeps z
    (latchPhase s p cause) := by
  unfold latchPhase
  repeat' first
    | with_reducible assumption | with_reducible apply queueEvent_keeps | with_reducible apply drawFree_keeps
    | with_reducible apply auxStop_keeps | with_reducible apply Keeps.ite | split | dsimp only
    | with_reducible refine Keeps.upd ?_ rfl rfl rfl

theorem softStart_keeps {z : State} {axinMv : Nat} {s : State} (hz : Keeps z s) : Keeps z (softStart axinMv s) := by
  unfold softStart
  repeat' first
    | with_reducible assumption | with_reducible apply clearPeaks_keeps | with_reducible apply Keeps.ite | split
    | dsimp only | with_reducible refine Keeps.upd ?_ rfl rfl rfl

theorem phaseOvercurrent_keeps {z : State} {p : Fin 2} {s : State} (hz : Keeps z s) : Keeps z
    (phaseOvercurrent p s) := by
  unfold phaseOvercurrent
  repeat' first
    | with_reducible assumption | with_reducible apply latchPhase_keeps | split | dsimp only

theorem countLimit_keeps {z : State} {s : State} (hz : Keeps z s) : Keeps z (countLimit s) := by
  unfold countLimit
  repeat' first
    | with_reducible assumption | split | dsimp only | with_reducible refine Keeps.upd ?_ rfl rfl rfl

theorem limitPersists_keeps {z : State} {p : Fin 2} {s : State} (hz : Keeps z s) : Keeps z (limitPersists p s) := by
  unfold limitPersists
  repeat' first
    | with_reducible assumption | with_reducible apply latchPhase_keeps | with_reducible apply countLimit_keeps
    | with_reducible apply Keeps.ite | split | dsimp only

theorem softStartLimit_keeps {z : State} {p : Fin 2} {s : State} (hz : Keeps z s) : Keeps z (softStartLimit p s) := by
  unfold softStartLimit
  repeat' first
    | with_reducible assumption | with_reducible apply latchPhase_keeps | with_reducible apply countLimit_keeps
    | with_reducible apply Keeps.ite | split | dsimp only

theorem imbalance_keeps {z : State} {positive : Bool} {s : State} (hz : Keeps z s) : Keeps z
    (imbalance positive s) := by
  unfold imbalance
  repeat' first
    | with_reducible assumption | with_reducible apply queueEvent_keeps | with_reducible apply Keeps.ite | split
    | dsimp only | with_reducible refine Keeps.upd ?_ rfl rfl rfl

theorem imbalanceEnds_keeps {z : State} {s : State} (hz : Keeps z s) : Keeps z (imbalanceEnds s) := by
  unfold imbalanceEnds
  repeat' first
    | with_reducible assumption | with_reducible apply drawFree_keeps | with_reducible apply Keeps.ite | split
    | dsimp only | with_reducible refine Keeps.upd ?_ rfl rfl rfl

theorem brakeStarts_keeps {z : State} {s : State} (hz : Keeps z s) : Keeps z (brakeStarts s) := by
  unfold brakeStarts
  repeat' first
    | with_reducible assumption | with_reducible apply Keeps.ite | split | dsimp only
    | with_reducible refine Keeps.upd ?_ rfl rfl rfl

theorem brakeEnds_keeps {z : State} {s : State} (hz : Keeps z s) : Keeps z (brakeEnds s) := by
  unfold brakeEnds
  repeat' first
    | with_reducible assumption | split | dsimp only | with_reducible refine Keeps.upd ?_ rfl rfl rfl

theorem vgdOver_keeps {z : State} {millivolts : Nat} {s : State} (hz : Keeps z s) : Keeps z (vgdOver millivolts s) := by
  unfold vgdOver
  repeat' first
    | with_reducible assumption | with_reducible apply auxStop_keeps | with_reducible apply Keeps.ite | split
    | dsimp only | with_reducible refine Keeps.upd ?_ rfl rfl rfl

theorem supplyShutdown_keeps {z : State} {s : State} (hz : Keeps z s) : Keeps z (supplyShutdown s) := by
  unfold supplyShutdown
  repeat' first
    | with_reducible assumption | with_reducible apply holdIslands_keeps | with_reducible apply Keeps.ite | split
    | dsimp only | with_reducible refine Keeps.upd ?_ rfl rfl rfl

theorem vsoGood_keeps {z : State} {s : State} (hz : Keeps z s) : Keeps z (vsoGood s) := by
  unfold vsoGood
  repeat' first
    | with_reducible assumption | with_reducible apply refreshOutputs_keeps | split | dsimp only
    | with_reducible refine Keeps.upd ?_ rfl rfl rfl

theorem vioEdge_keeps {z : State} {up : Bool} {s : State} (hz : Keeps z s) : Keeps z (vioEdge up s) := by
  unfold vioEdge
  repeat' first
    | with_reducible assumption | split | dsimp only | with_reducible refine Keeps.upd ?_ rfl rfl rfl

theorem modeEdge_keeps {z : State} {buck : Bool} {s : State} (hz : Keeps z s) : Keeps z (modeEdge buck s) := by
  unfold modeEdge
  repeat' first
    | with_reducible assumption | with_reducible apply Keeps.ite | split | dsimp only
    | with_reducible refine Keeps.upd ?_ rfl rfl rfl

theorem alwaysOnResets_keeps {z : State} {s : State} (hz : Keeps z s) : Keeps z (alwaysOnResets s) := by
  unfold alwaysOnResets
  repeat' first
    | with_reducible assumption | with_reducible apply holdIslands_keeps | split | dsimp only
    | with_reducible refine Keeps.upd ?_ rfl rfl rfl

theorem pkclrWrite_keeps {z : State} {s : State} {v : Word} (hz : Keeps z s) : Keeps z (pkclrWrite s v).1 := by
  unfold pkclrWrite
  repeat' first
    | with_reducible assumption | with_reducible apply clearPeaks_keeps | with_reducible apply Keeps.ite
    | with_reducible apply Keeps.iteFst | split | dsimp only

theorem execAuxPhaseOvercurrent_keeps {phase : Fin 2} {s : State} {t : State}
    (hz : execAuxPhaseOvercurrent phase s = .next t) : Keeps s t := by
  unfold execAuxPhaseOvercurrent at hz
  obtain rfl := Host.Outcome.next.inj hz
  clear hz
  have hz := Keeps.refl s
  repeat' first
    | with_reducible assumption | with_reducible apply phaseOvercurrent_keeps | with_reducible apply Keeps.ite
    | with_reducible apply Keeps.iteFst | with_reducible intro _ _ _ | split | dsimp only

theorem execAuxLimitPersist_keeps {phase : Fin 2} {s : State} {t : State}
    (hz : execAuxLimitPersist phase s = .next t) : Keeps s t := by
  unfold execAuxLimitPersist at hz
  obtain rfl := Host.Outcome.next.inj hz
  clear hz
  have hz := Keeps.refl s
  repeat' first
    | with_reducible assumption | with_reducible apply limitPersists_keeps | with_reducible apply Keeps.ite
    | with_reducible apply Keeps.iteFst | with_reducible intro _ _ _ | split | dsimp only

theorem execAuxSoftstartLimit_keeps {phase : Fin 2} {s : State} {t : State}
    (hz : execAuxSoftstartLimit phase s = .next t) : Keeps s t := by
  unfold execAuxSoftstartLimit at hz
  obtain rfl := Host.Outcome.next.inj hz
  clear hz
  have hz := Keeps.refl s
  repeat' first
    | with_reducible assumption | with_reducible apply softStartLimit_keeps | with_reducible apply Keeps.ite
    | with_reducible apply Keeps.iteFst | with_reducible intro _ _ _ | split | dsimp only

theorem execAuxImbalance_keeps {positive : Bool} {s : State} {t : State}
    (hz : execAuxImbalance positive s = .next t) : Keeps s t := by
  unfold execAuxImbalance at hz
  obtain rfl := Host.Outcome.next.inj hz
  clear hz
  have hz := Keeps.refl s
  repeat' first
    | with_reducible assumption | with_reducible apply imbalance_keeps | with_reducible apply Keeps.ite
    | with_reducible apply Keeps.iteFst | with_reducible intro _ _ _ | split | dsimp only

theorem execAuxBrake_keeps {s : State} {t : State} (hz : execAuxBrake s = .next t) : Keeps s t := by
  unfold execAuxBrake at hz
  obtain rfl := Host.Outcome.next.inj hz
  clear hz
  have hz := Keeps.refl s
  repeat' first
    | with_reducible assumption | with_reducible apply brakeStarts_keeps | with_reducible apply Keeps.ite
    | with_reducible apply Keeps.iteFst | with_reducible intro _ _ _ | split | dsimp only

theorem execAuxBrakeEnd_keeps {s : State} {t : State} (hz : execAuxBrakeEnd s = .next t) : Keeps s t := by
  unfold execAuxBrakeEnd at hz
  obtain rfl := Host.Outcome.next.inj hz
  clear hz
  have hz := Keeps.refl s
  repeat' first
    | with_reducible assumption | with_reducible apply brakeEnds_keeps | with_reducible apply Keeps.ite
    | with_reducible apply Keeps.iteFst | with_reducible intro _ _ _ | split | dsimp only

theorem execAuxVgdOv_keeps {millivolts : Nat} {s : State} {t : State}
    (hz : execAuxVgdOv millivolts s = .next t) : Keeps s t := by
  unfold execAuxVgdOv at hz
  obtain rfl := Host.Outcome.next.inj hz
  clear hz
  have hz := Keeps.refl s
  repeat' first
    | with_reducible assumption | with_reducible apply vgdOver_keeps | with_reducible apply Keeps.ite
    | with_reducible apply Keeps.iteFst | with_reducible intro _ _ _ | split | dsimp only

theorem execSupplyLoss_keeps {s : State} {t : State} (hz : execSupplyLoss s = .next t) : Keeps s t := by
  unfold execSupplyLoss at hz
  obtain rfl := Host.Outcome.next.inj hz
  clear hz
  have hz := Keeps.refl s
  repeat' first
    | with_reducible assumption | with_reducible apply supplyShutdown_keeps | with_reducible apply Keeps.ite
    | with_reducible apply Keeps.iteFst | with_reducible intro _ _ _ | split | dsimp only

theorem execRailFault_keeps {s : State} {t : State} (hz : execRailFault s = .next t) : Keeps s t := by
  unfold execRailFault at hz
  obtain rfl := Host.Outcome.next.inj hz
  clear hz
  have hz := Keeps.refl s
  repeat' first
    | with_reducible assumption | with_reducible apply supplyShutdown_keeps | with_reducible apply Keeps.ite
    | with_reducible apply Keeps.iteFst | with_reducible intro _ _ _ | split | dsimp only

theorem execVsouvClear_keeps {s : State} {t : State} (hz : execVsouvClear s = .next t) : Keeps s t := by
  unfold execVsouvClear at hz
  obtain rfl := Host.Outcome.next.inj hz
  clear hz
  have hz := Keeps.refl s
  repeat' first
    | with_reducible assumption | with_reducible apply vsoGood_keeps | with_reducible apply Keeps.ite
    | with_reducible apply Keeps.iteFst | with_reducible intro _ _ _ | split | dsimp only

theorem execVioChange_keeps {up : Bool} {s : State} {t : State} (hz : execVioChange up s = .next t) : Keeps s t := by
  unfold execVioChange at hz
  obtain rfl := Host.Outcome.next.inj hz
  clear hz
  have hz := Keeps.refl s
  repeat' first
    | with_reducible assumption | with_reducible apply vioEdge_keeps | with_reducible apply Keeps.ite
    | with_reducible apply Keeps.iteFst | with_reducible intro _ _ _ | split | dsimp only

theorem execAuxImbalanceClear_keeps {s : State} {t : State} (hz : execAuxImbalanceClear s = .next t) : Keeps s t := by
  unfold execAuxImbalanceClear at hz
  obtain rfl := Host.Outcome.next.inj hz
  clear hz
  have hz := Keeps.refl s
  repeat' first
    | with_reducible assumption | with_reducible apply imbalanceEnds_keeps | with_reducible apply Keeps.ite
    | with_reducible apply Keeps.iteFst | with_reducible intro _ _ _ | split | dsimp only

theorem execAuxModeChange_keeps {buck : Bool} {s : State} {t : State}
    (hz : execAuxModeChange buck s = .next t) : Keeps s t := by
  unfold execAuxModeChange at hz
  obtain rfl := Host.Outcome.next.inj hz
  clear hz
  have hz := Keeps.refl s
  repeat' first
    | with_reducible assumption | with_reducible apply modeEdge_keeps | with_reducible apply Keeps.ite
    | with_reducible apply Keeps.iteFst | with_reducible intro _ _ _ | split | dsimp only

theorem execAlwaysOnReset_keeps {s : State} {t : State} (hz : execAlwaysOnReset s = .next t) : Keeps s t := by
  unfold execAlwaysOnReset at hz
  obtain rfl := Host.Outcome.next.inj hz
  clear hz
  have hz := Keeps.refl s
  repeat' first
    | with_reducible assumption | with_reducible apply alwaysOnResets_keeps | with_reducible apply Keeps.ite
    | with_reducible apply Keeps.iteFst | with_reducible intro _ _ _ | split | dsimp only

end Sys2Proof.Safety
end

