-- ==== Sys2Proof/Laws/KeepsFlags.lean ====
section
/-! SUPPORT. What the operations of Machine/Flags.lean keep. -/
namespace Sys2Proof.Safety

open Sys2Proof.Machine

set_option simprocs false

theorem deadTime_keeps {z : State} {s : State} {l : Fin 32} {code : Nat} (hz : Keeps z s) : Keeps z
    (deadTime s l code).2 := by
  unfold deadTime
  repeat' first
    | with_reducible assumption | with_reducible apply drawFree_keeps | with_reducible apply Keeps.ite
    | with_reducible apply Keeps.iteSnd | split | dsimp only

theorem legStat_keeps {z : State} {s : State} {l : Fin 32} (hz : Keeps z s) : Keeps z (legStat s l).2 := by
  unfold legStat
  repeat' first
    | with_reducible assumption | with_reducible apply drawFree_keeps | with_reducible apply deadTime_keeps | split
    | dsimp only

theorem takeSnap_keeps {z : State} {s : State} (hz : Keeps z s) : Keeps z (takeSnap s) := by
  unfold takeSnap
  repeat' first
    | with_reducible assumption | split | dsimp only | with_reducible refine Keeps.upd ?_ rfl rfl rfl

end Sys2Proof.Safety
end

