-- ==== Sys2Proof/Laws/KeepsRackbus.lean ====
section
/-! SUPPORT. What the operations of Machine/Rackbus.lean keep. -/
namespace Sys2Proof.Safety

open Sys2Proof.Machine

set_option simprocs false

theorem confine_keeps {z : State} {s : State} (hz : Keeps z s) : Keeps z (confine s) := by
  unfold confine
  repeat' first
    | with_reducible assumption | with_reducible apply queueEvent_keeps | with_reducible apply Keeps.ite | split
    | dsimp only | with_reducible refine Keeps.upd ?_ rfl rfl rfl

theorem countError_keeps {z : State} {kind : CanErr} {s : State} (hz : Keeps z s) : Keeps z (countError kind s) := by
  unfold countError
  repeat' first
    | with_reducible assumption | with_reducible apply Keeps.ite | split | dsimp only
    | with_reducible refine Keeps.upd ?_ rfl rfl rfl

theorem frameFails_keeps {z : State} {s : State} {b : Fin 16} (hz : Keeps z s) : Keeps z (frameFails s b) := by
  unfold frameFails
  repeat' first
    | with_reducible assumption | with_reducible apply updTx_keeps | with_reducible apply failBuffer_keeps
    | with_reducible apply countReplaced_keeps | with_reducible apply Keeps.ite | split | dsimp only

theorem lostArbitration_keeps {z : State} {s : State} (hz : Keeps z s) : Keeps z (lostArbitration s) := by
  unfold lostArbitration
  repeat' first
    | with_reducible assumption | with_reducible apply markStarted_keeps | with_reducible apply endTransmission_keeps
    | with_reducible apply frameFails_keeps | with_reducible apply Keeps.ite | split | dsimp only

theorem delayUpTo_keeps {z : State} {s : State} {most : Nat} (hz : Keeps z s) : Keeps z (delayUpTo s most) := by
  unfold delayUpTo
  repeat' first
    | with_reducible assumption | with_reducible apply drawFree_keeps | split | dsimp only
    | with_reducible refine Keeps.upd ?_ rfl rfl rfl

theorem measureDelay_keeps {z : State} {s : State} {e : List Byte} (hz : Keeps z s) : Keeps z (measureDelay s e) := by
  unfold measureDelay
  repeat' first
    | with_reducible assumption | with_reducible apply delayUpTo_keeps | with_reducible apply Keeps.ite | split
    | dsimp only

theorem delayOnError_keeps {z : State} {kind : CanErr} {s : State} {e : List Byte} (hz : Keeps z s) : Keeps z
    (delayOnError kind s e) := by
  unfold delayOnError
  repeat' first
    | with_reducible assumption | with_reducible apply drawFree_keeps | with_reducible apply delayUpTo_keeps
    | with_reducible apply measureDelay_keeps | with_reducible apply Keeps.ite | split | dsimp only

theorem busError_keeps {z : State} {kind : CanErr} {b : Option (Fin 16)} {s : State} (hz : Keeps z s) : Keeps z
    (busError kind b s) := by
  unfold busError
  repeat' first
    | with_reducible assumption | with_reducible apply endTransmission_keeps | with_reducible apply confine_keeps
    | with_reducible apply countError_keeps | with_reducible apply frameFails_keeps
    | with_reducible apply lostArbitration_keeps | with_reducible apply delayOnError_keeps
    | with_reducible apply Keeps.ite | split | dsimp only

theorem busRecovered_keeps {z : State} {ms : Nat} {s : State} (hz : Keeps z s) : Keeps z (busRecovered ms s) := by
  unfold busRecovered
  repeat' first
    | with_reducible assumption | with_reducible apply queueEvent_keeps | with_reducible apply Keeps.ite | split
    | dsimp only | with_reducible refine Keeps.upd ?_ rfl rfl rfl

theorem busJoin_keeps {z : State} {s : State} (hz : Keeps z s) : Keeps z (busJoin s) := by
  unfold busJoin
  repeat' first
    | with_reducible assumption | with_reducible apply Keeps.ite | split | dsimp only
    | with_reducible refine Keeps.upd ?_ rfl rfl rfl

theorem receiveSuccess_keeps {z : State} {s : State} (hz : Keeps z s) : Keeps z (receiveSuccess s) := by
  unfold receiveSuccess
  repeat' first
    | with_reducible assumption | with_reducible apply drawFree_keeps | with_reducible apply confine_keeps
    | with_reducible apply Keeps.ite | split | dsimp only | with_reducible refine Keeps.upd ?_ rfl rfl rfl

theorem stepTbase_keeps {z : State} {s : State} {o : Int} (hz : Keeps z s) : Keeps z (stepTbase s o) := by
  unfold stepTbase
  repeat' first
    | with_reducible assumption | with_reducible apply queueEvent_keeps | split | dsimp only
    | with_reducible refine Keeps.upd ?_ rfl rfl rfl

theorem applyOffset_keeps {z : State} {s : State} {o : Int} (hz : Keeps z s) : Keeps z (applyOffset s o) := by
  unfold applyOffset
  repeat' first
    | with_reducible assumption | with_reducible apply stepTbase_keeps | with_reducible apply Keeps.ite | split
    | dsimp only | with_reducible refine Keeps.upd ?_ rfl rfl rfl

theorem followReference_keeps {z : State} {s : State} {id n m sof : Nat} (hz : Keeps z s) : Keeps z
    (followReference s id n m sof) := by
  unfold followReference
  repeat' first
    | with_reducible assumption | with_reducible apply applyOffset_keeps | with_reducible apply Keeps.ite | split
    | dsimp only | with_reducible refine Keeps.upd ?_ rfl rfl rfl

theorem timeReference_keeps {z : State} {f : CanFrame} {s : State} (hz : Keeps z s) : Keeps z (timeReference f s) := by
  unfold timeReference
  repeat' first
    | with_reducible assumption | with_reducible apply queueEvent_keeps | with_reducible apply keepMessage_keeps
    | with_reducible apply followReference_keeps | with_reducible apply Keeps.ite | split | dsimp only
    | with_reducible refine Keeps.upd ?_ rfl rfl rfl

theorem deviceMessage_keeps {z : State} {f : CanFrame} {s : State} (hz : Keeps z s) : Keeps z (deviceMessage f s) := by
  unfold deviceMessage
  repeat' first
    | with_reducible assumption | with_reducible apply budgetReceived_keeps | with_reducible apply timeReference_keeps
    | split | dsimp only

theorem receivePath_keeps {z : State} {f : CanFrame} {s : State} (hz : Keeps z s) : Keeps z (receivePath f s) := by
  unfold receivePath
  repeat' first
    | with_reducible assumption | with_reducible apply filterFrame_keeps | with_reducible apply deviceMessage_keeps
    | with_reducible apply Keeps.ite | split | dsimp only | with_reducible refine Keeps.upd ?_ rfl rfl rfl

theorem frameReceived_keeps {z : State} {f : CanFrame} {s : State} (hz : Keeps z s) : Keeps z (frameReceived f s) := by
  unfold frameReceived
  repeat' first
    | with_reducible assumption | with_reducible apply lostArbitration_keeps
    | with_reducible apply receiveSuccess_keeps | with_reducible apply receivePath_keeps
    | with_reducible apply Keeps.ite | split | dsimp only

theorem latchSent_keeps {z : State} {b : Fin 16} {e : List Byte} {sof : Nat} {s : State} (hz : Keeps z s) : Keeps z
    (latchSent b e sof s) := by
  unfold latchSent
  repeat' first
    | with_reducible assumption | with_reducible apply updTx_keeps | with_reducible apply Keeps.ite | split
    | dsimp only | with_reducible refine Keeps.upd ?_ rfl rfl rfl

theorem loopBack_keeps {z : State} {f : CanFrame} {s : State} (hz : Keeps z s) : Keeps z (loopBack f s) := by
  unfold loopBack
  repeat' first
    | with_reducible assumption | with_reducible apply receivePath_keeps | with_reducible apply Keeps.ite | split
    | dsimp only

theorem frameSent_keeps {z : State} {b : Fin 16} {sof : Nat} {s : State} (hz : Keeps z s) : Keeps z
    (frameSent b sof s) := by
  unfold frameSent
  repeat' first
    | with_reducible assumption | with_reducible apply updTx_keeps | with_reducible apply endTransmission_keeps
    | with_reducible apply confine_keeps | with_reducible apply measureDelay_keeps
    | with_reducible apply latchSent_keeps | with_reducible apply loopBack_keeps | with_reducible apply Keeps.ite
    | split | dsimp only | with_reducible refine Keeps.upd ?_ rfl rfl rfl

theorem sendReference_keeps {z : State} {s : State} (hz : Keeps z s) : Keeps z (sendReference s) := by
  unfold sendReference
  repeat' first
    | with_reducible assumption | with_reducible apply drawFree_keeps | with_reducible apply offerMessage_keeps
    | with_reducible apply Keeps.ite | split | dsimp only | with_reducible refine Keeps.upd ?_ rfl rfl rfl

theorem referenceLost_keeps {z : State} {s : State} (hz : Keeps z s) : Keeps z (referenceLost s) := by
  unfold referenceLost
  repeat' first
    | with_reducible assumption | with_reducible apply queueEvent_keeps | with_reducible apply drawFree_keeps
    | with_reducible apply Keeps.ite | split | dsimp only | with_reducible refine Keeps.upd ?_ rfl rfl rfl

theorem takeRole_keeps {z : State} {s : State} (hz : Keeps z s) : Keeps z (takeRole s) := by
  unfold takeRole
  repeat' first
    | with_reducible assumption | with_reducible apply queueEvent_keeps | with_reducible apply Keeps.ite | split
    | dsimp only | with_reducible refine Keeps.upd ?_ rfl rfl rfl

theorem formStatus_keeps {z : State} {s : State} (hz : Keeps z s) : Keeps z (formStatus s) := by
  unfold formStatus
  repeat' first
    | with_reducible assumption | with_reducible apply offerMessage_keeps | with_reducible apply Keeps.ite | split
    | dsimp only | with_reducible refine Keeps.upd ?_ rfl rfl rfl

theorem execCanBusJoin_keeps {s : State} {t : State} (hz : execCanBusJoin s = .next t) : Keeps s t := by
  unfold execCanBusJoin at hz
  obtain rfl := Host.Outcome.next.inj hz
  clear hz
  have hz := Keeps.refl s
  repeat' first
    | with_reducible assumption | with_reducible apply busJoin_keeps | with_reducible apply Keeps.ite
    | with_reducible apply Keeps.iteFst | with_reducible intro _ _ _ | split | dsimp only

theorem execCanFrameReceived_keeps {frame : CanFrame} {s : State} {t : State}
    (hz : execCanFrameReceived frame s = .next t) : Keeps s t := by
  unfold execCanFrameReceived at hz
  obtain rfl := Host.Outcome.next.inj hz
  clear hz
  have hz := Keeps.refl s
  repeat' first
    | with_reducible assumption | with_reducible apply frameReceived_keeps | with_reducible apply Keeps.ite
    | with_reducible apply Keeps.iteFst | with_reducible intro _ _ _ | split | dsimp only

theorem execCanFrameSent_keeps {buffer : Fin 16} {sof : Nat} {s : State} {t : State}
    (hz : execCanFrameSent buffer sof s = .next t) : Keeps s t := by
  unfold execCanFrameSent at hz
  obtain rfl := Host.Outcome.next.inj hz
  clear hz
  have hz := Keeps.refl s
  repeat' first
    | with_reducible assumption | with_reducible apply frameSent_keeps | with_reducible apply Keeps.ite
    | with_reducible apply Keeps.iteFst | with_reducible intro _ _ _ | split | dsimp only

theorem execCanBusError_keeps {kind : CanErr} {transmitting : Option (Fin 16)} {s : State} {t : State}
    (hz : execCanBusError kind transmitting s = .next t) : Keeps s t := by
  unfold execCanBusError at hz
  obtain rfl := Host.Outcome.next.inj hz
  clear hz
  have hz := Keeps.refl s
  repeat' first
    | with_reducible assumption | with_reducible apply busError_keeps | with_reducible apply Keeps.ite
    | with_reducible apply Keeps.iteFst | with_reducible intro _ _ _ | split | dsimp only

theorem execCanRecovered_keeps {ms : Nat} {s : State} {t : State}
    (hz : execCanRecovered ms s = .next t) : Keeps s t := by
  unfold execCanRecovered at hz
  obtain rfl := Host.Outcome.next.inj hz
  clear hz
  have hz := Keeps.refl s
  repeat' first
    | with_reducible assumption | with_reducible apply busRecovered_keeps | with_reducible apply Keeps.ite
    | with_reducible apply Keeps.iteFst | with_reducible intro _ _ _ | split | dsimp only

theorem execTimeReferenceSend_keeps {s : State} {t : State} (hz : execTimeReferenceSend s = .next t) : Keeps s t := by
  unfold execTimeReferenceSend at hz
  obtain rfl := Host.Outcome.next.inj hz
  clear hz
  have hz := Keeps.refl s
  repeat' first
    | with_reducible assumption | with_reducible apply sendReference_keeps | with_reducible apply Keeps.ite
    | with_reducible apply Keeps.iteFst | with_reducible intro _ _ _ | split | dsimp only

theorem execTimeReferenceMessage_keeps {frame : CanFrame} {s : State} {t : State}
    (hz : execTimeReferenceMessage frame s = .next t) : Keeps s t := by
  unfold execTimeReferenceMessage at hz
  obtain rfl := Host.Outcome.next.inj hz
  clear hz
  have hz := Keeps.refl s
  repeat' first
    | with_reducible assumption | with_reducible apply timeReference_keeps | with_reducible apply Keeps.ite
    | with_reducible apply Keeps.iteFst | with_reducible intro _ _ _ | split | dsimp only

theorem execCanTimeLost_keeps {s : State} {t : State} (hz : execCanTimeLost s = .next t) : Keeps s t := by
  unfold execCanTimeLost at hz
  obtain rfl := Host.Outcome.next.inj hz
  clear hz
  have hz := Keeps.refl s
  repeat' first
    | with_reducible assumption | with_reducible apply referenceLost_keeps | with_reducible apply Keeps.ite
    | with_reducible apply Keeps.iteFst | with_reducible intro _ _ _ | split | dsimp only

theorem execCanTimeRole_keeps {s : State} {t : State} (hz : execCanTimeRole s = .next t) : Keeps s t := by
  unfold execCanTimeRole at hz
  obtain rfl := Host.Outcome.next.inj hz
  clear hz
  have hz := Keeps.refl s
  repeat' first
    | with_reducible assumption | with_reducible apply takeRole_keeps | with_reducible apply Keeps.ite
    | with_reducible apply Keeps.iteFst | with_reducible intro _ _ _ | split | dsimp only

theorem execStatusMessage_keeps {s : State} {t : State} (hz : execStatusMessage s = .next t) : Keeps s t := by
  unfold execStatusMessage at hz
  obtain rfl := Host.Outcome.next.inj hz
  clear hz
  have hz := Keeps.refl s
  repeat' first
    | with_reducible assumption | with_reducible apply formStatus_keeps | with_reducible apply Keeps.ite
    | with_reducible apply Keeps.iteFst | with_reducible intro _ _ _ | split | dsimp only

end Sys2Proof.Safety
end

