-- ==== Sys2Proof/Laws/KeepsSram.lean ====
section
/-! SUPPORT. What the operations of Machine/Sram.lean keep. -/
namespace Sys2Proof.Safety

open Sys2Proof.Machine

set_option simprocs false

theorem windowWrite_keeps {z : State} {s : State} {a : Nat} {l : List Byte} (hz : Keeps z s) : Keeps z
    (windowWrite s a l) := by
  unfold windowWrite
  repeat' first
    | with_reducible assumption | split | dsimp only | with_reducible refine Keeps.upd ?_ rfl rfl rfl
    | with_reducible refine Keeps.updMem ?_ rfl rfl rfl

end Sys2Proof.Safety
end

