-- ==== Sys2Proof/Laws/KeepsDma.lean ====
section
/-! SUPPORT. What the operations of Machine/Dma.lean keep. -/
namespace Sys2Proof.Safety

open Sys2Proof.Machine

set_option simprocs false

theorem skipRecords_keeps {z : State} {s : State} {n : Fin 8} (hz : Keeps z s) : Keeps z (skipRecords s n) := by
  unfold skipRecords
  repeat' first
    | with_reducible assumption | with_reducible apply updDma_keeps | with_reducible apply Keeps.ite | split
    | dsimp only | with_reducible refine Keeps.upd ?_ rfl rfl rfl

theorem endList_keeps {z : State} {s : State} {n : Fin 8} (hz : Keeps z s) : Keeps z (endList s n) := by
  unfold endList
  repeat' first
    | with_reducible assumption | with_reducible apply updDma_keeps | with_reducible apply takeShadow_keeps | split
    | dsimp only | with_reducible refine Keeps.upd ?_ rfl rfl rfl

theorem descBad_keeps {z : State} {s : State} {n : Fin 8} {a : Word} (hz : Keeps z s) : Keeps z (descBad s n a) := by
  unfold descBad
  repeat' first
    | with_reducible assumption | with_reducible apply queueEvent_keeps | split | dsimp only

theorem unfetchable_keeps {z : State} {s : State} {n : Fin 8} (hz : Keeps z s) : Keeps z (unfetchable s n) := by
  unfold unfetchable
  repeat' first
    | with_reducible assumption | with_reducible apply updDma_keeps | with_reducible apply endList_keeps
    | with_reducible apply descBad_keeps | split | dsimp only | with_reducible refine Keeps.upd ?_ rfl rfl rfl

theorem writeStatus_keeps {z : State} {s : State} {n : Fin 8} {result : Nat} (hz : Keeps z s) : Keeps z
    (writeStatus s n result) := by
  unfold writeStatus
  repeat' first
    | with_reducible assumption | with_reducible apply windowWrite_keeps | split | dsimp only

theorem countDescriptor_keeps {z : State} {s : State} {n : Fin 8} {result : Nat} (hz : Keeps z s) : Keeps z
    (countDescriptor s n result) := by
  unfold countDescriptor
  repeat' first
    | with_reducible assumption | with_reducible apply updDma_keeps | with_reducible apply descBad_keeps
    | with_reducible apply Keeps.ite | split | dsimp only | with_reducible refine Keeps.upd ?_ rfl rfl rfl

theorem descriptorDone_keeps {z : State} {n : Fin 8} {s : State} (hz : Keeps z s) : Keeps z (descriptorDone n s) := by
  unfold descriptorDone
  repeat' first
    | with_reducible assumption | with_reducible apply updDma_keeps | with_reducible apply endList_keeps
    | with_reducible apply writeStatus_keeps | with_reducible apply countDescriptor_keeps
    | with_reducible apply Keeps.ite | split | dsimp only | with_reducible refine Keeps.upd ?_ rfl rfl rfl

theorem stopList_keeps {z : State} {s : State} {n : Fin 8} (hz : Keeps z s) : Keeps z (stopList s n) := by
  unfold stopList
  repeat' first
    | with_reducible assumption | with_reducible apply updDma_keeps | with_reducible apply endList_keeps
    | with_reducible apply writeStatus_keeps | with_reducible apply countDescriptor_keeps
    | with_reducible apply Keeps.ite | split | dsimp only

theorem moveBytes_keeps {z : State} {s : State} {n : Fin 8} {x : List Byte} {src : List Byte} {want : Nat}
    (hz : Keeps z s) : Keeps z (moveBytes s n x src want) := by
  unfold moveBytes
  repeat' first
    | with_reducible assumption | with_reducible apply updDma_keeps | with_reducible apply windowWrite_keeps
    | with_reducible apply Keeps.ite | split | dsimp only | with_reducible refine Keeps.upd ?_ rfl rfl rfl

theorem registerWrite_keeps {z : State} {s : State} {n : Fin 8} {x : List Byte} (hz : Keeps z s) : Keeps z
    (registerWrite s n x) := by
  unfold registerWrite
  repeat' first
    | with_reducible assumption | with_reducible apply updDma_keeps | with_reducible apply canTxAdd_keeps
    | with_reducible apply canRxAck_keeps | with_reducible apply Keeps.ite | split | dsimp only
    | with_reducible refine Keeps.upd ?_ rfl rfl rfl

theorem unpacedBurst_keeps {z : State} {s : State} {n : Fin 8} {x : List Byte} (hz : Keeps z s) : Keeps z
    (unpacedBurst s n x) := by
  unfold unpacedBurst
  repeat' first
    | with_reducible assumption | with_reducible apply moveBytes_keeps | with_reducible apply registerWrite_keeps
    | with_reducible apply Keeps.ite | split | dsimp only

theorem ringBurst_keeps {z : State} {s : State} {n : Fin 8} {x : List Byte} {c : Fin 16} (hz : Keeps z s) : Keeps z
    (ringBurst s n x c) := by
  unfold ringBurst
  repeat' first
    | with_reducible assumption | with_reducible apply updDma_keeps | with_reducible apply moveBytes_keeps | split
    | dsimp only | with_reducible refine Keeps.upd ?_ rfl rfl rfl

theorem releaseLate_keeps {z : State} {s : State} {f : Fin 2} (hz : Keeps z s) : Keeps z (releaseLate s f) := by
  unfold releaseLate
  repeat' first
    | with_reducible assumption | with_reducible apply updFifo_keeps | with_reducible apply releaseFifo_keeps | split
    | dsimp only | with_reducible refine Keeps.upd ?_ rfl rfl rfl

theorem fifoBurst_keeps {z : State} {s : State} {n : Fin 8} {x : List Byte} {f : Fin 2} (hz : Keeps z s) : Keeps z
    (fifoBurst s n x f) := by
  unfold fifoBurst
  repeat' first
    | with_reducible assumption | with_reducible apply updFifo_keeps | with_reducible apply releaseFifo_keeps
    | with_reducible apply moveBytes_keeps | with_reducible apply releaseLate_keeps | with_reducible apply Keeps.ite
    | split | dsimp only | with_reducible refine Keeps.upd ?_ rfl rfl rfl

theorem burstOf_keeps {z : State} {s : State} {n : Fin 8} {x : List Byte} (hz : Keeps z s) : Keeps z
    (burstOf s n x) := by
  unfold burstOf
  repeat' first
    | with_reducible assumption | with_reducible apply unpacedBurst_keeps | with_reducible apply ringBurst_keeps
    | with_reducible apply fifoBurst_keeps | with_reducible apply Keeps.ite | split | dsimp only

theorem serveChannel_keeps {z : State} {s : State} {n : Fin 8} (hz : Keeps z s) : Keeps z (serveChannel s n) := by
  unfold serveChannel
  repeat' first
    | with_reducible assumption | with_reducible apply updDma_keeps | with_reducible apply skipRecords_keeps
    | with_reducible apply unfetchable_keeps | with_reducible apply burstOf_keeps | with_reducible apply Keeps.ite
    | split | dsimp only | with_reducible refine Keeps.upd ?_ rfl rfl rfl

theorem hostRxAck_keeps {z : State} {s : State} {f : Fin 2} {v : Word} (hz : Keeps z s) : Keeps z
    (hostRxAck s f v).1 := by
  unfold hostRxAck
  repeat' first
    | with_reducible assumption | with_reducible apply drawFree_keeps | with_reducible apply updFifo_keeps
    | with_reducible apply releaseFifo_keeps | with_reducible apply Keeps.ite | with_reducible apply Keeps.iteFst
    | split | dsimp only | with_reducible refine Keeps.upd ?_ rfl rfl rfl

theorem dmaBurst_keeps {z : State} {s : State} (hz : Keeps z s) : Keeps z (dmaBurst s) := by
  unfold dmaBurst
  repeat' first
    | with_reducible assumption | with_reducible apply serveChannel_keeps | with_reducible apply Keeps.ite | split
    | dsimp only

theorem dmaCtlWrite_keeps {z : State} {s : State} {n : Fin 8} {v : Word} (hz : Keeps z s) : Keeps z
    (dmaCtlWrite s n v).1 := by
  unfold dmaCtlWrite
  repeat' first
    | with_reducible assumption | with_reducible apply updDma_keeps | with_reducible apply takeShadow_keeps
    | with_reducible apply stopList_keeps | with_reducible apply Keeps.ite | with_reducible apply Keeps.iteFst | split
    | dsimp only | with_reducible refine Keeps.upd ?_ rfl rfl rfl

theorem dmaShvWrite_keeps {z : State} {s : State} {n : Fin 8} {v : Word} (hz : Keeps z s) : Keeps z
    (dmaShvWrite s n v).1 := by
  unfold dmaShvWrite
  repeat' first
    | with_reducible assumption | with_reducible apply updDma_keeps | with_reducible apply takeShadow_keeps | split
    | dsimp only | with_reducible refine Keeps.upd ?_ rfl rfl rfl

theorem dmaSdescWrite_keeps {z : State} {s : State} {n : Fin 8} {v : Word} (hz : Keeps z s) : Keeps z
    (dmaSdescWrite s n v).1 := by
  unfold dmaSdescWrite
  repeat' first
    | with_reducible assumption | with_reducible apply updDma_keeps | with_reducible apply Keeps.ite
    | with_reducible apply Keeps.iteFst | split | dsimp only | with_reducible refine Keeps.upd ?_ rfl rfl rfl

theorem dmaSreqWrite_keeps {z : State} {s : State} {n : Fin 8} {v : Word} (hz : Keeps z s) : Keeps z
    (dmaSreqWrite s n v).1 := by
  unfold dmaSreqWrite
  repeat' first
    | with_reducible assumption | with_reducible apply updDma_keeps | with_reducible apply Keeps.ite
    | with_reducible apply Keeps.iteFst | split | dsimp only | with_reducible refine Keeps.upd ?_ rfl rfl rfl

theorem dmaSrseqWrite_keeps {z : State} {s : State} {n : Fin 8} {v : Word} (hz : Keeps z s) : Keeps z
    (dmaSrseqWrite s n v).1 := by
  unfold dmaSrseqWrite
  repeat' first
    | with_reducible assumption | with_reducible apply updDma_keeps | with_reducible apply Keeps.ite
    | with_reducible apply Keeps.iteFst | split | dsimp only | with_reducible refine Keeps.upd ?_ rfl rfl rfl

theorem execDmaBurst_keeps {s : State} {t : State} (hz : execDmaBurst s = .next t) : Keeps s t := by
  unfold execDmaBurst at hz
  obtain rfl := Host.Outcome.next.inj hz
  clear hz
  have hz := Keeps.refl s
  repeat' first
    | with_reducible assumption | with_reducible apply dmaBurst_keeps | with_reducible apply Keeps.ite
    | with_reducible apply Keeps.iteFst | with_reducible intro _ _ _ | split | dsimp only

theorem execDmaDescriptorDone_keeps {n : Fin 8} {s : State} {t : State}
    (hz : execDmaDescriptorDone n s = .next t) : Keeps s t := by
  unfold execDmaDescriptorDone at hz
  obtain rfl := Host.Outcome.next.inj hz
  clear hz
  have hz := Keeps.refl s
  repeat' first
    | with_reducible assumption | with_reducible apply descriptorDone_keeps | with_reducible apply Keeps.ite
    | with_reducible apply Keeps.iteFst | with_reducible intro _ _ _ | split | dsimp only

end Sys2Proof.Safety
end

