-- ==== Sys2Proof/Laws/KeepsOperands.lean ====
section
/-! SUPPORT. What the operations of Machine/Operands.lean keep. -/
namespace Sys2Proof.Safety

open Sys2Proof.Machine

set_option simprocs false

theorem captureSys_keeps {z : State} {s : State} {o : Nat} (hz : Keeps z s) : Keeps z (captureSys s o) := by
  unfold captureSys
  repeat' first
    | with_reducible assumption | split | dsimp only | with_reducible refine Keeps.upd ?_ rfl rfl rfl

theorem captureMeas_keeps {z : State} {s : State} {o : Nat} (hz : Keeps z s) : Keeps z (captureMeas s o) := by
  unfold captureMeas
  repeat' first
    | with_reducible assumption | with_reducible apply updCh_keeps | with_reducible apply Keeps.ite | split
    | dsimp only | with_reducible refine Keeps.upd ?_ rfl rfl rfl

theorem drawHalf_keeps {z : State} {s : State} (hz : Keeps z s) : Keeps z (drawHalf s).2 := by
  unfold drawHalf
  repeat' first
    | with_reducible assumption | with_reducible apply drawFree_keeps | split | dsimp only

theorem drawPeak_keeps {z : State} {s : State} {old : Nat × Nat} (hz : Keeps z s) : Keeps z (drawPeak s old).2 := by
  unfold drawPeak
  repeat' first
    | with_reducible assumption | with_reducible apply drawHalf_keeps | split | dsimp only

theorem measureAux_keeps {z : State} {s : State} {o : Nat} (hz : Keeps z s) : Keeps z (measureAux s o) := by
  unfold measureAux
  repeat' first
    | with_reducible assumption | with_reducible apply drawFree_keeps | with_reducible apply drawHalf_keeps
    | with_reducible apply drawPeak_keeps | with_reducible apply Keeps.ite | split | dsimp only
    | with_reducible refine Keeps.upd ?_ rfl rfl rfl

theorem readPlace_keeps {z : State} {s : State} {p : Place} (hz : Keeps z s) : Keeps z (readPlace s p).2 := by
  unfold readPlace
  repeat' first
    | with_reducible assumption | with_reducible apply updCh_keeps | with_reducible apply pageRuns_keeps
    | with_reducible apply legStat_keeps | with_reducible apply captureSys_keeps
    | with_reducible apply captureMeas_keeps | with_reducible apply measureAux_keeps | with_reducible apply Keeps.ite
    | with_reducible apply Keeps.iteSnd | split | dsimp only | with_reducible refine Keeps.upd ?_ rfl rfl rfl

theorem readReg_keeps {z s : State} {a : Word} {r : Word × State} (hr : readReg s a = some r) (hz : Keeps z s) :
    Keeps z r.2 := by
  unfold readReg at hr
  cases hp : placeOf a with
  | none => rw [hp] at hr; cases hr
  | some p =>
    rw [hp] at hr
    obtain rfl := Option.some.inj hr
    exact readPlace_keeps hz

theorem readBlock_keeps {z : State} {n : Nat} {s : State} {a : Word} {r : List Byte × State}
    (hr : readBlock s a n = some r) (hz : Keeps z s) : Keeps z r.2 := by
  induction n generalizing s a r with
  | zero =>
    obtain rfl := Option.some.inj hr
    exact hz
  | succ n ih =>
    unfold readBlock at hr
    split at hr
    · cases hr
    · rename_i q hq
      split at hr
      · cases hr
      · rename_i p hp
        obtain rfl := Option.some.inj hr
        have hk := ih hp (readReg_keeps hq hz)
        exact hk

end Sys2Proof.Safety
end

