-- ==== Sys2Proof/Laws/KeepsRegisterWrites.lean ====
section
/-! SUPPORT. What the operations of Machine/RegisterWrites.lean keep. -/
namespace Sys2Proof.Safety

open Sys2Proof.Machine

set_option simprocs false

theorem writeNone_keeps {z : State} {s : State} (hz : Keeps z s) : Keeps z (writeNone s).1 := by
  unfold writeNone
  repeat' first
    | with_reducible assumption | split | dsimp only

theorem ifRange_keeps {z s t : State} {ok : Bool} (hs : Keeps z s) (ht : Keeps z t) : Keeps z (ifRange ok s t).1 := by
  unfold ifRange
  split <;> assumption

theorem checked_keeps {z s t : State} {a b c : Bool} (hs : Keeps z s) (ht : Keeps z t) :
    Keeps z (checked a b c s t).1 := by
  unfold checked
  split
  · exact hs
  · split
    · exact hs
    · split <;> assumption

theorem updSys_keeps {z : State} {s : State} {f : Sys → Sys} (hz : Keeps z s) : Keeps z (State.updSys s f) := by
  unfold State.updSys
  repeat' first
    | with_reducible assumption | split | dsimp only | with_reducible refine Keeps.upd ?_ rfl rfl rfl

theorem writeEpcfg_keeps {z : State} {s : State} {v : Word} (hz : Keeps z s) : Keeps z (writeEpcfg s v).1 := by
  unfold writeEpcfg
  repeat' first
    | with_reducible assumption | with_reducible apply checked_keeps | with_reducible apply updSys_keeps | split
    | dsimp only | with_reducible refine Keeps.upd ?_ rfl rfl rfl

theorem writeCastle_keeps {z : State} {s : State} {v : Word} (hz : Keeps z s) : Keeps z (writeCastle s v).1 := by
  unfold writeCastle
  repeat' first
    | with_reducible assumption | with_reducible apply ifRange_keeps | with_reducible apply updSys_keeps | split
    | dsimp only | with_reducible refine Keeps.upd ?_ rfl rfl rfl

theorem writeHauth_keeps {z : State} {s : State} {v : Word} (hz : Keeps z s) : Keeps z (writeHauth s v).1 := by
  unfold writeHauth
  repeat' first
    | with_reducible assumption | with_reducible apply touchSession_keeps | with_reducible apply Keeps.ite
    | with_reducible apply Keeps.iteFst | split | dsimp only | with_reducible refine Keeps.upd ?_ rfl rfl rfl

theorem writeSys_keeps {z : State} {s : State} {o : Nat} {v : Word} (hz : Keeps z s) : Keeps z (writeSys s o v).1 := by
  unfold writeSys
  repeat' first
    | with_reducible assumption | with_reducible apply writeNone_keeps | with_reducible apply ifRange_keeps
    | with_reducible apply checked_keeps | with_reducible apply updSys_keeps | with_reducible apply writeEpcfg_keeps
    | with_reducible apply writeCastle_keeps | with_reducible apply writeHauth_keeps | split | dsimp only
    | with_reducible refine Keeps.upd ?_ rfl rfl rfl

theorem writeCfg_keeps {z : State} {s : State} {c : Fin 16} {v : Word} (hz : Keeps z s) : Keeps z
    (writeCfg s c v).1 := by
  unfold writeCfg
  repeat' first
    | with_reducible assumption | with_reducible apply updCh_keeps | with_reducible apply stage_keeps
    | with_reducible apply checked_keeps | with_reducible apply Keeps.ite | with_reducible apply Keeps.iteFst | split
    | dsimp only | with_reducible refine Keeps.upd ?_ rfl rfl rfl

theorem writeSetpoint_keeps {z : State} {s : State} {c : Fin 16} {r : SetpointReg} {v : Word}
    (hz : Keeps z s) : Keeps z (writeSetpoint s c r v).1 := by
  unfold writeSetpoint
  repeat' first
    | with_reducible assumption | with_reducible apply updCh_keeps | with_reducible apply stage_keeps
    | with_reducible apply Keeps.ite | with_reducible apply Keeps.iteFst | split | dsimp only
    | with_reducible refine Keeps.upd ?_ rfl rfl rfl

theorem writeCoef_keeps {z : State} {s : State} {c : Fin 16} {v : Word} (hz : Keeps z s) : Keeps z
    (writeCoef s c v).1 := by
  unfold writeCoef
  repeat' first
    | with_reducible assumption | with_reducible apply updCh_keeps | with_reducible apply Keeps.ite
    | with_reducible apply Keeps.iteFst | split | dsimp only | with_reducible refine Keeps.upd ?_ rfl rfl rfl

theorem writeLcfg_keeps {z : State} {s : State} {c : Fin 16} {j : Fin 4} {v : Word} (hz : Keeps z s) : Keeps z
    (writeLcfg s c j v).1 := by
  unfold writeLcfg
  repeat' first
    | with_reducible assumption | with_reducible apply updCh_keeps | with_reducible apply checked_keeps | split
    | dsimp only | with_reducible refine Keeps.upd ?_ rfl rfl rfl

theorem writeClamp_keeps {z : State} {s : State} {c : Fin 16} {j : Fin 4} {v : Word} (hz : Keeps z s) : Keeps z
    (writeClamp s c j v).1 := by
  unfold writeClamp
  repeat' first
    | with_reducible assumption | with_reducible apply updCh_keeps | with_reducible apply ifRange_keeps | split
    | dsimp only | with_reducible refine Keeps.upd ?_ rfl rfl rfl

theorem writeProg_keeps {z : State} {s : State} {c : Fin 16} {v : Word} (hz : Keeps z s) : Keeps z
    (writeProg s c v).1 := by
  unfold writeProg
  repeat' first
    | with_reducible assumption | with_reducible apply updCh_keeps | with_reducible apply stage_keeps
    | with_reducible apply Keeps.ite | with_reducible apply Keeps.iteFst | split | dsimp only
    | with_reducible refine Keeps.upd ?_ rfl rfl rfl

theorem writeChPower_keeps {z : State} {s : State} {c : Fin 16} {o : Nat} {v : Word} (hz : Keeps z s) : Keeps z
    (writeChPower s c o v).1 := by
  unfold writeChPower
  repeat' first
    | with_reducible assumption | with_reducible apply updCh_keeps | with_reducible apply writeNone_keeps
    | with_reducible apply ifRange_keeps | with_reducible apply checked_keeps | with_reducible apply writeCfg_keeps
    | split | dsimp only | with_reducible refine Keeps.upd ?_ rfl rfl rfl

theorem writeChControl_keeps {z : State} {s : State} {c : Fin 16} {o : Nat} {v : Word} (hz : Keeps z s) : Keeps z
    (writeChControl s c o v).1 := by
  unfold writeChControl
  repeat' first
    | with_reducible assumption | with_reducible apply updCh_keeps | with_reducible apply writeNone_keeps
    | with_reducible apply ifRange_keeps | with_reducible apply writeSetpoint_keeps
    | with_reducible apply writeCoef_keeps | with_reducible apply writeLcfg_keeps
    | with_reducible apply writeClamp_keeps | split | dsimp only | with_reducible refine Keeps.upd ?_ rfl rfl rfl

theorem writeChProgram_keeps {z : State} {s : State} {c : Fin 16} {o : Nat} {v : Word} (hz : Keeps z s) : Keeps z
    (writeChProgram s c o v).1 := by
  unfold writeChProgram
  repeat' first
    | with_reducible assumption | with_reducible apply updCh_keeps | with_reducible apply setLogAck_keeps
    | with_reducible apply writeNone_keeps | with_reducible apply writeProg_keeps | split | dsimp only
    | with_reducible refine Keeps.upd ?_ rfl rfl rfl

theorem writeCh_keeps {z : State} {s : State} {c : Fin 16} {o : Nat} {v : Word} (hz : Keeps z s) : Keeps z
    (writeCh s c o v).1 := by
  unfold writeCh
  repeat' first
    | with_reducible assumption | with_reducible apply writeChPower_keeps | with_reducible apply writeChControl_keeps
    | with_reducible apply writeChProgram_keeps | with_reducible apply Keeps.ite | with_reducible apply Keeps.iteFst
    | split | dsimp only

theorem writeCe_keeps {z : State} {s : State} {o : Nat} (hz : Keeps z s) : Keeps z (writeCe s o).1 := by
  unfold writeCe
  repeat' first
    | with_reducible assumption | with_reducible apply writeNone_keeps | split | dsimp only

theorem writeMeasCh_keeps {z : State} {s : State} {c : Fin 16} {o : Nat} {v : Word} (hz : Keeps z s) : Keeps z
    (writeMeasCh s c o v).1 := by
  unfold writeMeasCh
  repeat' first
    | with_reducible assumption | with_reducible apply updCh_keeps | with_reducible apply writeNone_keeps
    | with_reducible apply ifRange_keeps | with_reducible apply checked_keeps | with_reducible apply Keeps.ite
    | with_reducible apply Keeps.iteFst | split | dsimp only | with_reducible refine Keeps.upd ?_ rfl rfl rfl

theorem writeMeas_keeps {z : State} {s : State} {o : Nat} {v : Word} (hz : Keeps z s) : Keeps z
    (writeMeas s o v).1 := by
  unfold writeMeas
  repeat' first
    | with_reducible assumption | with_reducible apply updLeg_keeps | with_reducible apply updGrp_keeps
    | with_reducible apply writeNone_keeps | with_reducible apply checked_keeps
    | with_reducible apply writeMeasCh_keeps | with_reducible apply Keeps.ite | with_reducible apply Keeps.iteFst
    | split | dsimp only | with_reducible refine Keeps.upd ?_ rfl rfl rfl

theorem writeLeg_keeps {z : State} {s : State} {l : Fin 32} {o : Nat} {v : Word} (hz : Keeps z s) : Keeps z
    (writeLeg s l o v).1 := by
  unfold writeLeg
  repeat' first
    | with_reducible assumption | with_reducible apply updLeg_keeps | with_reducible apply writeNone_keeps
    | with_reducible apply checked_keeps | with_reducible apply Keeps.ite | with_reducible apply Keeps.iteFst | split
    | dsimp only | with_reducible refine Keeps.upd ?_ rfl rfl rfl

theorem updLinkReg_keeps {z : State} {s : State} {f : LinkRegs → LinkRegs} (hz : Keeps z s) : Keeps z
    (State.updLinkReg s f) := by
  unfold State.updLinkReg
  repeat' first
    | with_reducible assumption | split | dsimp only | with_reducible refine Keeps.upd ?_ rfl rfl rfl

theorem writeLink_keeps {z : State} {s : State} {o : Nat} {v : Word} (hz : Keeps z s) : Keeps z
    (writeLink s o v).1 := by
  unfold writeLink
  repeat' first
    | with_reducible assumption | with_reducible apply writeNone_keeps | with_reducible apply ifRange_keeps
    | with_reducible apply checked_keeps | with_reducible apply updLinkReg_keeps | with_reducible apply Keeps.ite
    | with_reducible apply Keeps.iteFst | split | dsimp only | with_reducible refine Keeps.upd ?_ rfl rfl rfl

theorem updSess_keeps {z : State} {s : State} {f : SafeCfg → SafeCfg} (hz : Keeps z s) : Keeps z
    (State.updSess s f) := by
  unfold State.updSess
  repeat' first
    | with_reducible assumption | split | dsimp only | with_reducible refine Keeps.upd ?_ rfl rfl rfl

theorem writeSafeReg_keeps {z : State} {s : State} {o : Nat} {v : Word} (hz : Keeps z s) : Keeps z
    (writeSafeReg s o v).1 := by
  unfold writeSafeReg
  repeat' first
    | with_reducible assumption | with_reducible apply writeNone_keeps | with_reducible apply ifRange_keeps
    | with_reducible apply updSess_keeps | split | dsimp only | with_reducible refine Keeps.upd ?_ rfl rfl rfl

theorem writeSafe_keeps {z : State} {s : State} {o : Nat} {v : Word} (hz : Keeps z s) : Keeps z
    (writeSafe s o v).1 := by
  unfold writeSafe
  repeat' first
    | with_reducible assumption | with_reducible apply touchSession_keeps | with_reducible apply writeSafeReg_keeps
    | with_reducible apply Keeps.ite | with_reducible apply Keeps.iteFst | split | dsimp only

theorem updCan_keeps {z : State} {s : State} {f : Can → Can} (hz : Keeps z s) : Keeps z (State.updCan s f) := by
  unfold State.updCan
  repeat' first
    | with_reducible assumption | split | dsimp only | with_reducible refine Keeps.upd ?_ rfl rfl rfl

theorem writeCan_keeps {z : State} {s : State} {o : Nat} {v : Word} (hz : Keeps z s) : Keeps z (writeCan s o v).1 := by
  unfold writeCan
  repeat' first
    | with_reducible assumption | with_reducible apply canTxAdd_keeps | with_reducible apply canTxCancel_keeps
    | with_reducible apply updFifo_keeps | with_reducible apply canCtlWrite_keeps
    | with_reducible apply hostRxAck_keeps | with_reducible apply writeNone_keeps | with_reducible apply ifRange_keeps
    | with_reducible apply checked_keeps | with_reducible apply updCan_keeps | split | dsimp only
    | with_reducible refine Keeps.upd ?_ rfl rfl rfl

theorem writeDma_keeps {z : State} {s : State} {n : Fin 8} {o : Nat} {v : Word} (hz : Keeps z s) : Keeps z
    (writeDma s n o v).1 := by
  unfold writeDma
  repeat' first
    | with_reducible assumption | with_reducible apply updDma_keeps | with_reducible apply dmaCtlWrite_keeps
    | with_reducible apply dmaShvWrite_keeps | with_reducible apply dmaSdescWrite_keeps
    | with_reducible apply dmaSreqWrite_keeps | with_reducible apply dmaSrseqWrite_keeps
    | with_reducible apply writeNone_keeps | split | dsimp only | with_reducible refine Keeps.upd ?_ rfl rfl rfl

theorem updTherm_keeps {z : State} {s : State} {f : Thermal → Thermal} (hz : Keeps z s) : Keeps z
    (State.updTherm s f) := by
  unfold State.updTherm
  repeat' first
    | with_reducible assumption | split | dsimp only | with_reducible refine Keeps.upd ?_ rfl rfl rfl

theorem writeTherm_keeps {z : State} {s : State} {o : Nat} {v : Word} (hz : Keeps z s) : Keeps z
    (writeTherm s o v).1 := by
  unfold writeTherm
  repeat' first
    | with_reducible assumption | with_reducible apply writeNone_keeps | with_reducible apply checked_keeps
    | with_reducible apply updTherm_keeps | split | dsimp only | with_reducible refine Keeps.upd ?_ rfl rfl rfl

theorem unretire_keeps {z : State} {s : State} {v : Word} (hz : Keeps z s) : Keeps z (unretire s v).1 := by
  unfold unretire
  repeat' first
    | with_reducible assumption | with_reducible apply checked_keeps | with_reducible apply Keeps.ite
    | with_reducible apply Keeps.iteFst | split | dsimp only | with_reducible refine Keeps.upd ?_ rfl rfl rfl

theorem writeTest_keeps {z : State} {s : State} {o : Nat} {v : Word} (hz : Keeps z s) : Keeps z
    (writeTest s o v).1 := by
  unfold writeTest
  repeat' first
    | with_reducible assumption | with_reducible apply writeNone_keeps | with_reducible apply unretire_keeps | split
    | dsimp only

theorem writeNvmw_keeps {z : State} {s : State} {o : Nat} {v : Word} (hz : Keeps z s) : Keeps z
    (writeNvmw s o v).1 := by
  unfold writeNvmw
  repeat' first
    | with_reducible assumption | with_reducible apply writeNone_keeps | with_reducible apply ifRange_keeps | split
    | dsimp only | with_reducible refine Keeps.upd ?_ rfl rfl rfl

theorem writeAux_keeps {z : State} {s : State} {o : Nat} {v : Word} (hz : Keeps z s) : Keeps z (writeAux s o v).1 := by
  unfold writeAux
  repeat' first
    | with_reducible assumption | with_reducible apply pkclrWrite_keeps | with_reducible apply writeNone_keeps
    | with_reducible apply ifRange_keeps | split | dsimp only | with_reducible refine Keeps.upd ?_ rfl rfl rfl

theorem writePlace_keeps {z : State} {s : State} {p : Place} {v : Word} (hz : Keeps z s) : Keeps z
    (writePlace s p v).1 := by
  unfold writePlace
  repeat' first
    | with_reducible assumption | with_reducible apply windowWrite_keeps | with_reducible apply writeSys_keeps
    | with_reducible apply writeCh_keeps | with_reducible apply writeCe_keeps | with_reducible apply writeMeas_keeps
    | with_reducible apply writeLeg_keeps | with_reducible apply writeLink_keeps
    | with_reducible apply writeSafe_keeps | with_reducible apply writeCan_keeps | with_reducible apply writeDma_keeps
    | with_reducible apply writeTherm_keeps | with_reducible apply writeTest_keeps
    | with_reducible apply writeNvmw_keeps | with_reducible apply writeAux_keeps | with_reducible apply Keeps.ite
    | with_reducible apply Keeps.iteFst | split | dsimp only

theorem writeReg_keeps {z : State} {s : State} {a v : Word} (hz : Keeps z s) : Keeps z (writeReg s a v).1 := by
  unfold writeReg
  repeat' first
    | with_reducible assumption | with_reducible apply writePlace_keeps | split | dsimp only

theorem writePairs_keeps {z : State} {l : List (Word × Word)} {s : State} {n : Nat} (hz : Keeps z s) :
    Keeps z (writePairs s l n).1 := by
  induction l generalizing s n with
  | nil => exact hz
  | cons p r ih =>
    unfold writePairs
    dsimp only
    with_reducible apply Keeps.iteFst
    · exact ih (writeReg_keeps hz)
    · exact writeReg_keeps hz

end Sys2Proof.Safety
end

