-- ==== Sys2Proof/Laws/KeepsMemoryEvents.lean ====
section
/-! SUPPORT. What the operations of Machine/MemoryEvents.lean keep. -/
namespace Sys2Proof.Safety

open Sys2Proof.Machine

set_option simprocs false

theorem eccUncorr_keeps {z : State} {s : State} {w : Nat} (hz : Keeps z s) : Keeps z (eccUncorr s w) := by
  unfold eccUncorr
  repeat' first
    | with_reducible assumption | with_reducible apply queueEvent_keeps | split | dsimp only

theorem damageRing_keeps {z : State} {s : State} {c : Fin 16} {o w : Nat} (hz : Keeps z s) : Keeps z
    (damageRing s c o w) := by
  unfold damageRing
  repeat' first
    | with_reducible assumption | with_reducible apply updCh_keeps | with_reducible apply queueEvent_keeps
    | with_reducible apply eccUncorr_keeps | with_reducible apply Keeps.ite | split | dsimp only
    | with_reducible refine Keeps.upd ?_ rfl rfl rfl

theorem reloadCopy_keeps {z : State} {s : State} {c : Fin 16} {w : Nat} (hz : Keeps z s) : Keeps z
    (reloadCopy s c w) := by
  unfold reloadCopy
  repeat' first
    | with_reducible assumption | with_reducible apply updProg_keeps | with_reducible apply queueEvent_keeps
    | with_reducible apply addCause_keeps | with_reducible apply holdNow_keeps | with_reducible apply eccUncorr_keeps
    | with_reducible apply Keeps.ite | split | dsimp only | with_reducible refine Keeps.upd ?_ rfl rfl rfl

theorem damageCheckpoint_keeps {z : State} {s : State} {i : Nat} (hz : Keeps z s) : Keeps z (damageCheckpoint s i) := by
  unfold damageCheckpoint
  repeat' first
    | with_reducible assumption | with_reducible apply updCe_keeps | with_reducible apply queueEvent_keeps
    | with_reducible apply Keeps.ite | split | dsimp only | with_reducible refine Keeps.upd ?_ rfl rfl rfl

theorem damageLog_keeps {z : State} {s : State} {n i : Nat} (hz : Keeps z s) : Keeps z (damageLog s n i) := by
  unfold damageLog
  repeat' first
    | with_reducible assumption | with_reducible apply Keeps.ite | split | dsimp only
    | with_reducible refine Keeps.upd ?_ rfl rfl rfl

theorem damageIsland_keeps {z : State} {s : State} {w : Nat} (hz : Keeps z s) : Keeps z (damageIsland s w) := by
  unfold damageIsland
  repeat' first
    | with_reducible assumption | with_reducible apply drawFree_keeps | with_reducible apply eccUncorr_keeps
    | with_reducible apply damageCheckpoint_keeps | with_reducible apply damageLog_keeps | split | dsimp only

theorem damageWord_keeps {z : State} {s : State} {w : Nat} (hz : Keeps z s) : Keeps z (damageWord s w) := by
  unfold damageWord
  repeat' first
    | with_reducible assumption | with_reducible apply updCh_keeps | with_reducible apply windowWrite_keeps
    | with_reducible apply eccUncorr_keeps | with_reducible apply damageRing_keeps
    | with_reducible apply reloadCopy_keeps | with_reducible apply damageIsland_keeps | with_reducible apply Keeps.ite
    | split | dsimp only | with_reducible refine Keeps.upd ?_ rfl rfl rfl
    | with_reducible refine Keeps.updQueue ?_ rfl (Nat.le_of_eq (List.length_map _)) rfl

theorem dmaMeets_keeps {z : State} {s : State} {n : Fin 8} {w : Nat} (hz : Keeps z s) : Keeps z (dmaMeets s n w) := by
  unfold dmaMeets
  repeat' first
    | with_reducible assumption | with_reducible apply updDma_keeps | with_reducible apply unfetchable_keeps
    | with_reducible apply moveBytes_keeps | with_reducible apply Keeps.ite | split | dsimp only
    | with_reducible refine Keeps.upd ?_ rfl rfl rfl

theorem dmaMayMeet_keeps {z : State} {s : State} {w : Nat} (hz : Keeps z s) : Keeps z (dmaMayMeet s w) := by
  unfold dmaMayMeet
  repeat' first
    | with_reducible assumption | with_reducible apply drawFree_keeps | with_reducible apply dmaMeets_keeps
    | with_reducible apply Keeps.ite | split | dsimp only

theorem startCopy_keeps {z : State} {s : State} {row : Nat} (hz : Keeps z s) : Keeps z (startCopy s row) := by
  unfold startCopy
  repeat' first
    | with_reducible assumption | with_reducible apply Keeps.ite | split | dsimp only
    | with_reducible refine Keeps.upd ?_ rfl rfl rfl

theorem countRow_keeps {z : State} {s : State} {row : Nat} (hz : Keeps z s) : Keeps z (countRow s row) := by
  unfold countRow
  repeat' first
    | with_reducible assumption | with_reducible apply startCopy_keeps | with_reducible apply Keeps.ite | split
    | dsimp only | with_reducible refine Keeps.upd ?_ rfl rfl rfl

theorem eccError_keeps {z : State} {addr : Word} {double : Bool} {s : State} (hz : Keeps z s) : Keeps z
    (eccError addr double s) := by
  unfold eccError
  repeat' first
    | with_reducible assumption | with_reducible apply queueRated_keeps | with_reducible apply damageWord_keeps
    | with_reducible apply dmaMayMeet_keeps | with_reducible apply startCopy_keeps
    | with_reducible apply countRow_keeps | with_reducible apply Keeps.ite | split | dsimp only
    | with_reducible refine Keeps.upd ?_ rfl rfl rfl

theorem rowRepaired_keeps {z : State} {row : Fin 2048} {s : State} (hz : Keeps z s) : Keeps z (rowRepaired row s) := by
  unfold rowRepaired
  repeat' first
    | with_reducible assumption | with_reducible apply queueEvent_keeps | with_reducible apply Keeps.ite | split
    | dsimp only | with_reducible refine Keeps.upd ?_ rfl rfl rfl

theorem refreshDue_keeps {z : State} {s : State} (hz : Keeps z s) : Keeps z (refreshDue s) := by
  unfold refreshDue
  repeat' first
    | with_reducible assumption | with_reducible apply queueEvent_keeps | with_reducible apply Keeps.ite | split
    | dsimp only | with_reducible refine Keeps.upd ?_ rfl rfl rfl

theorem pageDone_keeps {z : State} {ok : Bool} {s : State} (hz : Keeps z s) : Keeps z (pageDone ok s) := by
  unfold pageDone
  repeat' first
    | with_reducible assumption | with_reducible apply queueEvent_keeps | with_reducible apply Keeps.ite | split
    | dsimp only | with_reducible refine Keeps.upd ?_ rfl rfl rfl

theorem completePage_keeps {z : State} {s : State} (hz : Keeps z s) : Keeps z (completePage s) := by
  unfold completePage
  repeat' first
    | with_reducible assumption | with_reducible apply pageDone_keeps | with_reducible apply Keeps.ite | split
    | dsimp only

theorem refreshPage_keeps {z : State} {ok : Bool} {s : State} (hz : Keeps z s) : Keeps z (refreshPage ok s) := by
  unfold refreshPage
  repeat' first
    | with_reducible assumption | with_reducible apply queueEvent_keeps | with_reducible apply pageDone_keeps
    | with_reducible apply Keeps.ite | split | dsimp only | with_reducible refine Keeps.upd ?_ rfl rfl rfl

theorem execSramEccError_keeps {addr : Word} {double : Bool} {s : State} {t : State}
    (hz : execSramEccError addr double s = .next t) : Keeps s t := by
  unfold execSramEccError at hz
  obtain rfl := Host.Outcome.next.inj hz
  clear hz
  have hz := Keeps.refl s
  repeat' first
    | with_reducible assumption | with_reducible apply eccError_keeps | with_reducible apply Keeps.ite
    | with_reducible apply Keeps.iteFst | with_reducible intro _ _ _ | split | dsimp only

theorem execRowRepairDone_keeps {row : Fin 2048} {s : State} {t : State}
    (hz : execRowRepairDone row s = .next t) : Keeps s t := by
  unfold execRowRepairDone at hz
  obtain rfl := Host.Outcome.next.inj hz
  clear hz
  have hz := Keeps.refl s
  repeat' first
    | with_reducible assumption | with_reducible apply rowRepaired_keeps | with_reducible apply Keeps.ite
    | with_reducible apply Keeps.iteFst | with_reducible intro _ _ _ | split | dsimp only

theorem execNvmRefreshDue_keeps {s : State} {t : State} (hz : execNvmRefreshDue s = .next t) : Keeps s t := by
  unfold execNvmRefreshDue at hz
  obtain rfl := Host.Outcome.next.inj hz
  clear hz
  have hz := Keeps.refl s
  repeat' first
    | with_reducible assumption | with_reducible apply refreshDue_keeps | with_reducible apply Keeps.ite
    | with_reducible apply Keeps.iteFst | with_reducible intro _ _ _ | split | dsimp only

theorem execNvmRefreshPage_keeps {ok : Bool} {s : State} {t : State}
    (hz : execNvmRefreshPage ok s = .next t) : Keeps s t := by
  unfold execNvmRefreshPage at hz
  obtain rfl := Host.Outcome.next.inj hz
  clear hz
  have hz := Keeps.refl s
  repeat' first
    | with_reducible assumption | with_reducible apply refreshPage_keeps | with_reducible apply Keeps.ite
    | with_reducible apply Keeps.iteFst | with_reducible intro _ _ _ | split | dsimp only

end Sys2Proof.Safety
end

