-- ==== Sys2Proof/Laws/KeepsSavedConfig.lean ====
section
/-! SUPPORT. What the operations of Machine/SavedConfig.lean keep. -/
namespace Sys2Proof.Safety

open Sys2Proof.Machine

set_option simprocs false

theorem loadRegister_keeps {z : State} {s : State} {a : Nat} {v : Word} (hz : Keeps z s) : Keeps z
    (loadRegister s a v) := by
  unfold loadRegister
  repeat' first
    | with_reducible assumption | with_reducible apply updCh_keeps | with_reducible apply updGrp_keeps
    | with_reducible apply updCan_keeps | with_reducible apply writePlace_keeps | with_reducible apply Keeps.ite
    | split | dsimp only | with_reducible refine Keeps.upd ?_ rfl rfl rfl

theorem loadConfig_keeps {z : State} {s : State} {x : SavedCfg} (hz : Keeps z s) : Keeps z (loadConfig s x) := by
  unfold loadConfig
  repeat' first
    | with_reducible assumption | (with_reducible apply Keeps.foldl; rotate_left; intro _ _ _)
    | with_reducible apply updLinkReg_keeps | with_reducible apply loadRegister_keeps | with_reducible apply Keeps.ite
    | split | dsimp only | with_reducible refine Keeps.upd ?_ rfl rfl rfl

theorem settleConfig_keeps {z : State} {s : State} (hz : Keeps z s) : Keeps z (settleConfig s) := by
  unfold settleConfig
  repeat' first
    | with_reducible assumption | split | dsimp only | with_reducible refine Keeps.upd ?_ rfl rfl rfl

end Sys2Proof.Safety
end

