-- ==== Sys2Proof/Laws/KeepsBootOps.lean ====
section
/-! SUPPORT. What the operations of Machine/BootOps.lean keep. -/
namespace Sys2Proof.Safety

open Sys2Proof.Machine

set_option simprocs false

theorem restart_keeps {z s : State} {cause : BootCause} {step : Nat} (hz : Keeps z s) :
    Keeps z (restart s cause step) := by
  refine hz.trans ?_
  have hn : (keptNvm (cause == .powerOn) s.nvm).fuses = s.nvm.fuses := by unfold keptNvm; split <;> rfl
  exact ⟨rfl, fun _ => rfl, fun _ => Nat.zero_le _, fun _ => Nat.zero_le _, hn ▸ List.prefix_refl _,
    fun x => Nat.le_trans (Nat.le_of_eq (congrArg List.length hn)) x⟩

theorem drawNonce_keeps {z : State} {s : State} (hz : Keeps z s) : Keeps z (drawNonce s) := by
  unfold drawNonce
  repeat' first
    | with_reducible assumption | with_reducible apply drawEntropy_keeps | split | dsimp only
    | with_reducible refine Keeps.upd ?_ rfl rfl rfl

theorem bootFrom_keeps {z : State} {s : State} {cause : BootCause} {step : Nat} (hz : Keeps z s) : Keeps z
    (bootFrom s cause step) := by
  unfold bootFrom
  repeat' first
    | with_reducible assumption | with_reducible apply queueEvent_keeps | with_reducible apply closeSession_keeps
    | with_reducible apply cutStore_keeps | with_reducible apply restart_keeps | with_reducible apply drawNonce_keeps
    | with_reducible apply Keeps.ite | split | dsimp only

theorem bootWith_keeps {z : State} {s : State} {cause : BootCause} {ohm : Nat} (hz : Keeps z s) : Keeps z
    (bootWith s cause ohm) := by
  unfold bootWith
  repeat' first
    | with_reducible assumption | with_reducible apply readSrcid_keeps | with_reducible apply bootFrom_keeps | split
    | dsimp only

theorem softBoot_keeps {z : State} {s : State} (hz : Keeps z s) : Keeps z (softBoot s) := by
  unfold softBoot
  repeat' first
    | with_reducible assumption | with_reducible apply bootWith_keeps | split | dsimp only
    | with_reducible refine Keeps.upd ?_ rfl rfl rfl

theorem wakeBoot_keeps {z : State} {s : State} {source ohm : Nat} (hz : Keeps z s) : Keeps z
    (wakeBoot s source ohm) := by
  unfold wakeBoot
  repeat' first
    | with_reducible assumption | with_reducible apply lapse_keeps | with_reducible apply bootWith_keeps
    | with_reducible apply Keeps.ite | split | dsimp only | with_reducible refine Keeps.upd ?_ rfl rfl rfl

theorem enterTestAccess_keeps {z : State} {s : State} (hz : Keeps z s) : Keeps z (enterTestAccess s) := by
  unfold enterTestAccess
  repeat' first
    | with_reducible assumption | with_reducible apply holdIslands_keeps | split | dsimp only
    | with_reducible refine Keeps.upd ?_ rfl rfl rfl

theorem settleDue_keeps {z : State} {s : State} (hz : Keeps z s) : Keeps z (settleDue s) := by
  unfold settleDue
  repeat' first
    | with_reducible assumption | with_reducible apply softBoot_keeps | with_reducible apply wakeBoot_keeps
    | with_reducible apply enterTestAccess_keeps | split | dsimp only | with_reducible refine Keeps.upd ?_ rfl rfl rfl
    | refine Keeps.updPort ?_ rfl rfl rfl

theorem loadSafety_keeps {z : State} {s : State} {ok : Bool} (hz : Keeps z s) : Keeps z (loadSafety s ok) := by
  unfold loadSafety
  repeat' first
    | with_reducible assumption | with_reducible apply logChange_keeps | split | dsimp only
    | with_reducible refine Keeps.upd ?_ rfl rfl rfl

theorem bootAdvance_keeps {z : State} {s : State} (hz : Keeps z s) : Keeps z (bootAdvance s) := by
  unfold bootAdvance
  repeat' first
    | with_reducible assumption | with_reducible apply loadSafety_keeps | with_reducible apply Keeps.ite | split
    | dsimp only | with_reducible refine Keeps.upd ?_ rfl rfl rfl

theorem repairRow_keeps {z : State} {a : State × Bool} {row : Nat} (hz : Keeps z a.1) : Keeps z
    (repairRow a row).1 := by
  unfold repairRow
  dsimp only
  split
  · exact hz
  · split
    · exact hz
    · apply queueEvent_keeps
      with_reducible refine Keeps.upd ?_ rfl rfl rfl
      exact hz

theorem repairSram_keeps {z : State} {s : State} {rows spares : List Nat} (hz : Keeps z s) :
    Keeps z (repairSram s rows spares).1 := by
  unfold repairSram
  extract_lets _ t lost a
  have ha : Keeps z a.1 := Keeps.foldlFst (Keeps.upd hz rfl rfl rfl) fun _ _ h => repairRow_keeps h
  exact Keeps.upd ha rfl rfl rfl

theorem bootRecord_keeps {z : State} {s : State} {k : Fin 6} {arg result applied expected : Nat}
    (hz : Keeps z s) : Keeps z (bootRecord s k arg result applied expected) := by
  unfold bootRecord
  repeat' first
    | with_reducible assumption | split | dsimp only | with_reducible refine Keeps.upd ?_ rfl rfl rfl

theorem bootTest_keeps {z : State} {s : State} {k : Fin 6} {pass : Bool} {expected : Nat} (hz : Keeps z s) : Keeps z
    (bootTest s k pass expected) := by
  unfold bootTest
  repeat' first
    | with_reducible assumption | with_reducible apply testDone_keeps | with_reducible apply bootRecord_keeps
    | with_reducible apply Keeps.ite | split | dsimp only

theorem assignEngines_keeps {z : State} {s : State} {fail : BitVec 5} (hz : Keeps z s) : Keeps z
    (assignEngines s fail) := by
  unfold assignEngines
  repeat' first
    | with_reducible assumption | (with_reducible apply Keeps.foldl; rotate_left; intro _ _ _)
    | with_reducible apply queueEvent_keeps | with_reducible apply Keeps.ite | split | dsimp only
    | with_reducible refine Keeps.upd ?_ rfl rfl rfl

theorem serveRetired_keeps {z : State} {a : State × Bool} {q : Fin 32} (hz : Keeps z a.1) :
    Keeps z (serveRetired a q).1 := by
  unfold serveRetired
  split
  · exact hz
  · exact setLane_keeps hz

theorem replaceConverter_keeps {z : State} {a : State × Bool} {q : Fin 32} (hz : Keeps z a.1) :
    Keeps z (replaceConverter a q).1 := by
  unfold replaceConverter
  split
  · dsimp only
    with_reducible refine Keeps.upd ?_ rfl rfl rfl
    exact hz
  · exact retirePosition_keeps hz

theorem bootUnit_keeps {z : State} {cal : Vector CalPoints 36} {a : State × BitVec 36} {u : Fin 36} (hz : Keeps z a.1) :
    Keeps z (bootUnit cal a u).1 := by
  unfold bootUnit
  split
  · exact setCoef_keeps hz
  · exact hz

theorem recordedLanes_keeps {z : State} {s : State} (hz : Keeps z s) : Keeps z (recordedLanes s) := by
  unfold recordedLanes
  repeat' first
    | with_reducible assumption | with_reducible apply Keeps.ite | split | dsimp only
    | with_reducible refine Keeps.upd ?_ rfl rfl rfl

theorem restoreLanes_keeps {z : State} {s : State} (hz : Keeps z s) : Keeps z (restoreLanes s) := by
  unfold restoreLanes
  exact Keeps.foldlFst (recordedLanes_keeps hz) fun _ _ h => serveRetired_keeps h

theorem calibrateLanes_keeps {z : State} {b : BootInput} {s : State} (hz : Keeps z s) :
    Keeps z (calibrateLanes b s).1 := by
  unfold calibrateLanes
  extract_lets m u c w x r gone t lanes old p conv q
  have hu : Keeps z u := Keeps.upd hz rfl rfl rfl
  have hc : Keeps z c.1 := Keeps.foldlFst hu fun _ _ h => bootUnit_keeps h
  clear_value c
  have hr : Keeps z r := refCheck_keeps (Keeps.upd hc rfl rfl rfl)
  clear_value r
  have ht : Keeps z t := recordedLanes_keeps hr
  clear_value t
  have hp : Keeps z p.1 := Keeps.foldlFst (Keeps.foldl ht fun _ _ h => retireLane_keeps h) fun _ _ h => serveRetired_keeps h
  have hq : Keeps z q.1 := Keeps.foldlFst hp fun _ _ h => replaceConverter_keeps h
  exact Keeps.ite hq (checkSpares_keeps hq)

theorem checkLegs_keeps {z : State} {s : State} {legs : BitVec 32} {lines : BitVec 4} (hz : Keeps z s) : Keeps z
    (checkLegs s legs lines) := by
  unfold checkLegs
  repeat' first
    | with_reducible assumption | (with_reducible apply Keeps.foldl; rotate_left; intro _ _ _)
    | with_reducible apply testPulses_keeps | split | dsimp only | with_reducible refine Keeps.upd ?_ rfl rfl rfl

theorem markRing_keeps {z : State} {s : State} {c : Fin 16} (hz : Keeps z s) : Keeps z (markRing s c) := by
  unfold markRing
  repeat' first
    | with_reducible assumption | with_reducible apply updCh_keeps | with_reducible apply writeRecord_keeps | split
    | dsimp only | with_reducible refine Keeps.upd ?_ rfl rfl rfl

theorem setLink_keeps {z : State} {s : State} (hz : Keeps z s) : Keeps z (setLink s) := by
  unfold setLink
  repeat' first
    | with_reducible assumption | with_reducible apply Keeps.ite | split | dsimp only
    | with_reducible refine Keeps.upd ?_ rfl rfl rfl

theorem zeroCounts_keeps {z : State} {s : State} (hz : Keeps z s) : Keeps z (zeroCounts s) := by
  unfold zeroCounts
  repeat' first
    | with_reducible assumption | split | dsimp only | with_reducible refine Keeps.upd ?_ rfl rfl rfl

theorem startEpochs_keeps {z : State} {s : State} (hz : Keeps z s) : Keeps z (startEpochs s) := by
  unfold startEpochs
  repeat' first
    | with_reducible assumption | (with_reducible apply Keeps.foldl; rotate_left; intro _ _ _)
    | with_reducible apply canStart_keeps | with_reducible apply markRing_keeps | with_reducible apply setLink_keeps
    | with_reducible apply zeroCounts_keeps | with_reducible apply Keeps.ite | split | dsimp only
    | with_reducible refine Keeps.upd ?_ rfl rfl rfl

theorem bootDemands_keeps {z : State} {s : State} (hz : Keeps z s) : Keeps z (bootDemands s) := by
  unfold bootDemands
  repeat' first
    | with_reducible assumption | (with_reducible apply Keeps.foldl; rotate_left; intro _ _ _)
    | with_reducible apply demand_keeps | with_reducible apply Keeps.ite | split | dsimp only

theorem enterFromBoot_keeps {z : State} {s : State} (hz : Keeps z s) : Keeps z (enterFromBoot s) := by
  unfold enterFromBoot
  repeat' first
    | with_reducible assumption | with_reducible apply refreshOutputs_keeps | with_reducible apply bootDemands_keeps
    | with_reducible apply Keeps.ite | split | dsimp only | with_reducible refine Keeps.upd ?_ rfl rfl rfl

theorem recordsTold_keeps {z : State} {s : State} (hz : Keeps z s) : Keeps z (recordsTold s) := by
  unfold recordsTold
  repeat' first
    | with_reducible assumption | with_reducible apply bootRecord_keeps | with_reducible apply Keeps.ite | split
    | dsimp only | with_reducible refine Keeps.upd ?_ rfl rfl rfl

theorem firstEvents_keeps {z : State} {s : State} {own : List EvDraft} (hz : Keeps z s) : Keeps z
    (firstEvents s own) := by
  unfold firstEvents
  repeat' first
    | with_reducible assumption | with_reducible apply recordsTold_keeps | split | dsimp only
    | with_reducible refine Keeps.upd ?_ rfl rfl rfl

theorem bootConfig_keeps {z : State} {s : State} {crcOk : Bool} (hz : Keeps z s) : Keeps z (bootConfig s crcOk).1 := by
  unfold bootConfig
  repeat' first
    | with_reducible assumption | with_reducible apply completePage_keeps | with_reducible apply loadConfig_keeps
    | with_reducible apply Keeps.ite | with_reducible apply Keeps.iteFst | split | dsimp only
    | with_reducible refine Keeps.upd ?_ rfl rfl rfl

theorem haltAt_keeps {z : State} {code : Nat} {own : List EvDraft} {s : State} (hz : Keeps z s) : Keeps z
    (haltAt code own s) := by
  unfold haltAt
  repeat' first
    | with_reducible assumption | (with_reducible apply Keeps.foldl; rotate_left; intro _ _ _)
    | with_reducible apply commitEvent_keeps | with_reducible apply testDone_keeps
    | with_reducible apply bootRecord_keeps | with_reducible apply firstEvents_keeps | with_reducible apply Keeps.ite
    | split | dsimp only | with_reducible refine Keeps.upd ?_ rfl rfl rfl

theorem bootInputs_keeps {z : State} {b : BootInput} {s : State} (hz : Keeps z s) : Keeps z (bootInputs b s) := by
  unfold bootInputs
  repeat' first
    | with_reducible assumption | (with_reducible apply Keeps.foldl; rotate_left; intro _ _ _)
    | with_reducible apply discProgress_keeps | split | dsimp only | with_reducible refine Keeps.upd ?_ rfl rfl rfl

theorem bootFindings_keeps {z : State} {halt : Nat} {b : BootInput} {s : State} (hz : Keeps z s) :
    Keeps z (bootFindings halt b s).1 := by
  unfold bootFindings
  extract_lets t m v c w k
  have ht : Keeps z t := bootInputs_keeps hz
  clear_value t
  have hm : Keeps z m.1 := repairSram_keeps (firstEvals_keeps (loadSafety_keeps ht))
  clear_value m
  have hv : Keeps z v := bootTest_keeps hm
  clear_value v
  have hc : Keeps z c.1 := bootConfig_keeps hv
  clear_value c
  have hw : Keeps z w := assignEngines_keeps (restoreLanes_keeps (settleConfig_keeps hc))
  clear_value w
  have hk : Keeps z k.1 := calibrateLanes_keeps (bootTest_keeps hw)
  clear_value k
  exact Keeps.iteFst ht (Keeps.iteFst hm (Keeps.iteFst hv (Keeps.iteFst hw (Keeps.iteFst hk (checkLegs_keeps hk)))))

theorem bootHalts_keeps {z : State} {code : Nat} {b : BootInput} {s : State} (hz : Keeps z s) : Keeps z
    (bootHalts code b s) := by
  unfold bootHalts
  repeat' first
    | with_reducible assumption | with_reducible apply advanceTime_keeps | with_reducible apply haltAt_keeps
    | with_reducible apply bootFindings_keeps | with_reducible apply Keeps.ite | split | dsimp only

theorem bootEnds_keeps {z : State} {b : BootInput} {s : State} (hz : Keeps z s) : Keeps z (bootEnds b s) := by
  unfold bootEnds
  repeat' first
    | with_reducible assumption | with_reducible apply advanceTime_keeps | with_reducible apply takeSnap_keeps
    | with_reducible apply startEpochs_keeps | with_reducible apply enterFromBoot_keeps
    | with_reducible apply firstEvents_keeps | with_reducible apply haltAt_keeps
    | with_reducible apply bootFindings_keeps | with_reducible apply Keeps.ite | split | dsimp only
    | with_reducible refine Keeps.upd ?_ rfl rfl rfl

theorem pinResets_keeps {z : State} {s : State} (hz : Keeps z s) : Keeps z (pinResets s) := by
  unfold pinResets
  repeat' first
    | with_reducible assumption | with_reducible apply closeSession_keeps | with_reducible apply holdIslands_keeps
    | with_reducible apply settleDue_keeps | with_reducible apply Keeps.ite | split | dsimp only
    | with_reducible refine Keeps.upd ?_ rfl rfl rfl

theorem resetReleased_keeps {z : State} {ohm : Nat} {s : State} (hz : Keeps z s) : Keeps z (resetReleased ohm s) := by
  unfold resetReleased
  repeat' first
    | with_reducible assumption | with_reducible apply readSrcid_keeps | with_reducible apply drawNonce_keeps
    | with_reducible apply bootWith_keeps | with_reducible apply Keeps.ite | split | dsimp only
    | with_reducible refine Keeps.upd ?_ rfl rfl rfl

theorem resetStuck_keeps {z : State} {s : State} (hz : Keeps z s) : Keeps z (resetStuck s) := by
  unfold resetStuck
  repeat' first
    | with_reducible assumption | with_reducible apply Keeps.ite | split | dsimp only
    | with_reducible refine Keeps.upd ?_ rfl rfl rfl

theorem powerOn_keeps {z : State} {ohm : Nat} {s : State} (hz : Keeps z s) : Keeps z (powerOn ohm s) := by
  unfold powerOn
  repeat' first
    | with_reducible assumption | with_reducible apply readSrcid_keeps | with_reducible apply bootFrom_keeps
    | with_reducible apply Keeps.ite | split | dsimp only | with_reducible refine Keeps.upd ?_ rfl rfl rfl

theorem wakeRises_keeps {z : State} {ohm : Nat} {s : State} (hz : Keeps z s) : Keeps z (wakeRises ohm s) := by
  unfold wakeRises
  repeat' first
    | with_reducible assumption | with_reducible apply wakeBoot_keeps | with_reducible apply settleDue_keeps
    | with_reducible apply Keeps.ite | split | dsimp only | with_reducible refine Keeps.upd ?_ rfl rfl rfl

theorem linkWakes_keeps {z : State} {m : WakeSource} {s : State} (hz : Keeps z s) : Keeps z (linkWakes m s) := by
  unfold linkWakes
  repeat' first
    | with_reducible assumption | with_reducible apply wakeBoot_keeps | with_reducible apply settleDue_keeps
    | with_reducible apply Keeps.ite | split | dsimp only

theorem execPowerOnReset_keeps {srcidOhm : Nat} {s : State} {t : State}
    (hz : execPowerOnReset srcidOhm s = .next t) : Keeps s t := by
  unfold execPowerOnReset at hz
  obtain rfl := Host.Outcome.next.inj hz
  clear hz
  have hz := Keeps.refl s
  repeat' first
    | with_reducible assumption | with_reducible apply powerOn_keeps | with_reducible apply Keeps.ite
    | with_reducible apply Keeps.iteFst | with_reducible intro _ _ _ | split | dsimp only

theorem execAuxSoftStart_keeps {axinMv : Nat} {s : State} {t : State}
    (hz : execAuxSoftStart axinMv s = .next t) : Keeps s t := by
  unfold execAuxSoftStart at hz
  obtain rfl := Host.Outcome.next.inj hz
  clear hz
  have hz := Keeps.refl s
  repeat' first
    | with_reducible assumption | with_reducible apply softStart_keeps | with_reducible apply settleDue_keeps
    | with_reducible apply Keeps.ite | with_reducible apply Keeps.iteFst | with_reducible intro _ _ _ | split
    | dsimp only

theorem execBootDone_keeps {b : BootInput} {s : State} {t : State} (hz : execBootDone b s = .next t) : Keeps s t := by
  unfold execBootDone at hz
  obtain rfl := Host.Outcome.next.inj hz
  clear hz
  have hz := Keeps.refl s
  repeat' first
    | with_reducible assumption | with_reducible apply settleDue_keeps | with_reducible apply bootEnds_keeps
    | with_reducible apply Keeps.ite | with_reducible apply Keeps.iteFst | with_reducible intro _ _ _ | split
    | dsimp only

theorem execBootHalt_keeps {stop : BootStop} {s : State} {t : State}
    (hz : execBootHalt stop s = .next t) : Keeps s t := by
  unfold execBootHalt at hz
  obtain rfl := Host.Outcome.next.inj hz
  clear hz
  have hz := Keeps.refl s
  repeat' first
    | with_reducible assumption | with_reducible apply settleDue_keeps | with_reducible apply bootHalts_keeps
    | with_reducible apply Keeps.ite | with_reducible apply Keeps.iteFst | with_reducible intro _ _ _ | split
    | dsimp only

theorem execPinReset_keeps {s : State} {t : State} (hz : execPinReset s = .next t) : Keeps s t := by
  unfold execPinReset at hz
  obtain rfl := Host.Outcome.next.inj hz
  clear hz
  have hz := Keeps.refl s
  repeat' first
    | with_reducible assumption | with_reducible apply pinResets_keeps | with_reducible apply Keeps.ite
    | with_reducible apply Keeps.iteFst | with_reducible intro _ _ _ | split | dsimp only

theorem execRstNRelease_keeps {srcidOhm : Nat} {s : State} {t : State}
    (hz : execRstNRelease srcidOhm s = .next t) : Keeps s t := by
  unfold execRstNRelease at hz
  obtain rfl := Host.Outcome.next.inj hz
  clear hz
  have hz := Keeps.refl s
  repeat' first
    | with_reducible assumption | with_reducible apply resetReleased_keeps | with_reducible apply Keeps.ite
    | with_reducible apply Keeps.iteFst | with_reducible intro _ _ _ | split | dsimp only

theorem execRstStuck_keeps {s : State} {t : State} (hz : execRstStuck s = .next t) : Keeps s t := by
  unfold execRstStuck at hz
  obtain rfl := Host.Outcome.next.inj hz
  clear hz
  have hz := Keeps.refl s
  repeat' first
    | with_reducible assumption | with_reducible apply resetStuck_keeps | with_reducible apply Keeps.ite
    | with_reducible apply Keeps.iteFst | with_reducible intro _ _ _ | split | dsimp only

theorem execWake_keeps {srcidOhm : Nat} {s : State} {t : State} (hz : execWake srcidOhm s = .next t) : Keeps s t := by
  unfold execWake at hz
  obtain rfl := Host.Outcome.next.inj hz
  clear hz
  have hz := Keeps.refl s
  repeat' first
    | with_reducible assumption | with_reducible apply wakeRises_keeps | with_reducible apply Keeps.ite
    | with_reducible apply Keeps.iteFst | with_reducible intro _ _ _ | split | dsimp only

theorem execLinkWake_keeps {m : WakeSource} {s : State} {t : State} (hz : execLinkWake m s = .next t) : Keeps s t := by
  unfold execLinkWake at hz
  obtain rfl := Host.Outcome.next.inj hz
  clear hz
  have hz := Keeps.refl s
  repeat' first
    | with_reducible assumption | with_reducible apply linkWakes_keeps | with_reducible apply Keeps.ite
    | with_reducible apply Keeps.iteFst | with_reducible intro _ _ _ | split | dsimp only

end Sys2Proof.Safety
end

