-- ==== Sys2Proof/Laws/KeepsHostPort.lean ====
section
/-! SUPPORT. What the operations of Machine/HostPort.lean keep. -/
namespace Sys2Proof.Safety

open Sys2Proof.Machine

set_option simprocs false

theorem updPort_keeps {z : State} {s : State} {f : HostPort → HostPort} (hf : (f s.port).replies = s.port.replies)
    (hz : Keeps z s) : Keeps z (State.updPort s f) := Keeps.upd hz hf rfl rfl

theorem beginFrame_keeps {z : State} {s : State} (hz : Keeps z s) : Keeps z (beginFrame s) := by
  unfold beginFrame
  repeat' first
    | with_reducible assumption | with_reducible apply updPort_keeps
    | exact (rfl : HostPort.replies _ = HostPort.replies _) | split | dsimp only
    | with_reducible refine Keeps.upd ?_ rfl rfl rfl

theorem replyGone_keeps {z : State} {s : State} (hz : Keeps z s) : Keeps z (replyGone s) := by
  unfold replyGone
  repeat' first
    | with_reducible assumption | with_reducible apply settleDue_keeps | with_reducible apply Keeps.ite | split
    | dsimp only | with_reducible refine Keeps.upd ?_ rfl rfl rfl

theorem readReply_keeps {z : State} {clocked : Nat} {s : State} (hz : Keeps z s) : Keeps z (readReply clocked s) := by
  unfold readReply
  split
  · exact hz
  · have hb : Keeps z (beginFrame s) := beginFrame_keeps hz
    generalize beginFrame s = t at hb
    dsimp only
    split
    · exact updPort_keeps rfl hb
    · rename_i r rest hr
      have ht : ∀ l, Keeps z (t.updPort (driveBytes l)) := fun l => updPort_keeps rfl hb
      have hu : ∀ (l : List Byte) (f : HostPort → HostPort), (∀ p, (f p).replies = rest) →
          Keeps z ((t.updPort (driveBytes l)).updPort f) := by
        intro l f hf
        have hk := ht l
        refine ⟨hk.pending, hk.memory, fun x => ?_, hk.events, hk.fuses, hk.fuseRoom⟩
        have hl := hk.replies x
        have hr' : (t.updPort (driveBytes l)).port.replies = r :: rest := hr
        rw [hr', List.length_cons] at hl
        show (f _).replies.length ≤ _
        rw [hf]
        exact Nat.le_of_succ_le hl
      with_reducible apply Keeps.ite
      · exact ht _
      · exact replyGone_keeps (hu _ _ fun _ => rfl)

theorem rereadReply_keeps {z : State} {clocked : Nat} {s : State} (hz : Keeps z s) : Keeps z
    (rereadReply clocked s) := by
  unfold rereadReply
  repeat' first
    | with_reducible assumption | with_reducible apply updPort_keeps | with_reducible apply beginFrame_keeps
    | with_reducible apply Keeps.ite | exact (rfl : HostPort.replies _ = HostPort.replies _) | split | dsimp only

theorem acceptFrame_keeps {z : State} {s : State} {b : List Byte} (hz : Keeps z s) : Keeps z (acceptFrame s b) := by
  unfold acceptFrame
  repeat' first
    | with_reducible assumption | with_reducible apply acceptUnder_keeps | with_reducible apply updPort_keeps
    | with_reducible apply Keeps.ite | exact (rfl : HostPort.replies _ = HostPort.replies _) | split | dsimp only
    | with_reducible refine Keeps.upd ?_ rfl rfl rfl

theorem countCrce_keeps {z : State} {s : State} (hz : Keeps z s) : Keeps z (countCrce s) := by
  unfold countCrce
  repeat' first
    | with_reducible assumption | with_reducible apply updPort_keeps
    | exact (rfl : HostPort.replies _ = HostPort.replies _) | split | dsimp only
    | with_reducible refine Keeps.upd ?_ rfl rfl rfl

theorem answerRepeat_keeps {z : State} {s : State} {x : Replay} (hz : Keeps z s) : Keeps z (answerRepeat s x) := by
  unfold answerRepeat
  repeat' first
    | with_reducible assumption | with_reducible apply enqueueReply_keeps | with_reducible apply reply_keeps
    | with_reducible apply updPort_keeps | exact (rfl : HostPort.replies _ = HostPort.replies _) | split | dsimp only
    | with_reducible refine Keeps.upd ?_ rfl rfl rfl

theorem checkFrame_keeps {z : State} {b : List Byte} {partialByte : Bool} {s : State} (hz : Keeps z s) : Keeps z
    (checkFrame b partialByte s) := by
  unfold checkFrame
  repeat' first
    | with_reducible assumption | with_reducible apply dropReply_keeps | with_reducible apply refuseFrame_keeps
    | with_reducible apply updPort_keeps | with_reducible apply acceptFrame_keeps
    | with_reducible apply countCrce_keeps | with_reducible apply answerRepeat_keeps | with_reducible apply Keeps.ite
    | exact (rfl : HostPort.replies _ = HostPort.replies _) | split | dsimp only
    | with_reducible refine Keeps.upd ?_ rfl rfl rfl

theorem requestFrame_keeps {z : State} {b : List Byte} {partialByte : Bool} {s : State} (hz : Keeps z s) : Keeps z
    (requestFrame b partialByte s) := by
  unfold requestFrame
  repeat' first
    | with_reducible assumption | with_reducible apply beginFrame_keeps | with_reducible apply checkFrame_keeps
    | with_reducible apply Keeps.ite | split | dsimp only

theorem blink_keeps {z : State} {s : State} (hz : Keeps z s) : Keeps z (blink s) := by
  unfold blink
  repeat' first
    | with_reducible assumption | with_reducible apply updPort_keeps | with_reducible apply Keeps.ite
    | exact (rfl : HostPort.replies _ = HostPort.replies _) | split | dsimp only
    | with_reducible refine Keeps.upd ?_ rfl rfl rfl

theorem execRequestFrame_keeps {bytes : List Byte} {partialByte : Bool} {s : State} {t : State}
    (hz : execRequestFrame bytes partialByte s = .next t) : Keeps s t := by
  unfold execRequestFrame at hz
  obtain rfl := Host.Outcome.next.inj hz
  clear hz
  have hz := Keeps.refl s
  repeat' first
    | with_reducible assumption | with_reducible apply requestFrame_keeps | with_reducible apply Keeps.ite
    | with_reducible apply Keeps.iteFst | with_reducible intro _ _ _ | split | dsimp only

theorem execReplyRead_keeps {clocked : Nat} {s : State} {t : State}
    (hz : execReplyRead clocked s = .next t) : Keeps s t := by
  unfold execReplyRead at hz
  obtain rfl := Host.Outcome.next.inj hz
  clear hz
  have hz := Keeps.refl s
  repeat' first
    | with_reducible assumption | with_reducible apply readReply_keeps | with_reducible apply Keeps.ite
    | with_reducible apply Keeps.iteFst | with_reducible intro _ _ _ | split | dsimp only

theorem execReread_keeps {clocked : Nat} {s : State} {t : State} (hz : execReread clocked s = .next t) : Keeps s t := by
  unfold execReread at hz
  obtain rfl := Host.Outcome.next.inj hz
  clear hz
  have hz := Keeps.refl s
  repeat' first
    | with_reducible assumption | with_reducible apply rereadReply_keeps | with_reducible apply Keeps.ite
    | with_reducible apply Keeps.iteFst | with_reducible intro _ _ _ | split | dsimp only

theorem execAttentionBlink_keeps {s : State} {t : State} (hz : execAttentionBlink s = .next t) : Keeps s t := by
  unfold execAttentionBlink at hz
  obtain rfl := Host.Outcome.next.inj hz
  clear hz
  have hz := Keeps.refl s
  repeat' first
    | with_reducible assumption | with_reducible apply blink_keeps | with_reducible apply Keeps.ite
    | with_reducible apply Keeps.iteFst | with_reducible intro _ _ _ | split | dsimp only

end Sys2Proof.Safety
end

