-- ==== Sys2Proof/Laws/KeepsSelfTest.lean ====
section
/-! SUPPORT. What the operations of Machine/SelfTest.lean keep. -/
namespace Sys2Proof.Safety

open Sys2Proof.Machine

set_option simprocs false

theorem runDestructive_keeps {z : State} {k : Fin 6} {arg : Byte} {s : State} (hz : Keeps z s) : Keeps z
    (runDestructive k arg s).1 := by
  unfold runDestructive
  repeat' first
    | with_reducible assumption | with_reducible apply makeDue_keeps | with_reducible apply Keeps.ite
    | with_reducible apply Keeps.iteFst | split | dsimp only

theorem runSpareBist_keeps {z : State} {arg : Byte} {r : Request} {s : State} (hz : Keeps z s) : Keeps z
    (runSpareBist arg r s).1 := by
  unfold runSpareBist
  repeat' first
    | with_reducible assumption | with_reducible apply startBist_keeps | with_reducible apply Keeps.ite
    | with_reducible apply Keeps.iteFst | split | dsimp only | with_reducible refine Keeps.upd ?_ rfl rfl rfl

theorem runLoopback_keeps {z : State} {arg : Byte} {s : State} (hz : Keeps z s) : Keeps z (runLoopback arg s).1 := by
  unfold runLoopback
  repeat' first
    | with_reducible assumption | with_reducible apply Keeps.ite | with_reducible apply Keeps.iteFst | split
    | dsimp only

theorem runScrub_keeps {z : State} {arg : Byte} {s : State} (hz : Keeps z s) : Keeps z (runScrub arg s).1 := by
  unfold runScrub
  repeat' first
    | with_reducible assumption | with_reducible apply Keeps.ite | with_reducible apply Keeps.iteFst | split
    | dsimp only

theorem runLegTest_keeps {z : State} {arg : Byte} {r : Request} {s : State} (hz : Keeps z s) : Keeps z
    (runLegTest arg r s).1 := by
  unfold runLegTest
  repeat' first
    | with_reducible assumption | with_reducible apply Keeps.ite | with_reducible apply Keeps.iteFst | split
    | dsimp only | with_reducible refine Keeps.upd ?_ rfl rfl rfl

theorem legTestEnds_keeps {z : State} {failLegs : BitVec 8} {groupOk : Bool} {checks : Nat} {s : State}
    (hz : Keeps z s) : Keeps z (legTestEnds failLegs groupOk checks s) := by
  unfold legTestEnds
  repeat' first
    | with_reducible assumption | (with_reducible apply Keeps.foldl; rotate_left; intro _ _ _)
    | with_reducible apply reply_keeps | with_reducible apply testPulses_keeps | with_reducible apply recordTest_keeps
    | with_reducible apply testDone_keeps | with_reducible apply Keeps.ite | split | dsimp only
    | with_reducible refine Keeps.upd ?_ rfl rfl rfl

theorem serviceTestEnds_keeps {z : State} {sigMatch : Bool} {applied : Nat} {badRows : List Nat} {s : State}
    (hz : Keeps z s) : Keeps z (serviceTestEnds sigMatch applied badRows s) := by
  unfold serviceTestEnds
  repeat' first
    | with_reducible assumption | with_reducible apply softBoot_keeps | with_reducible apply Keeps.ite | split
    | dsimp only | with_reducible refine Keeps.upd ?_ rfl rfl rfl

theorem testResultBody_keeps {z : State} {test : Byte} {s : State} (hz : Keeps z s) : Keeps z
    (testResultBody test s).1 := by
  unfold testResultBody
  repeat' first
    | with_reducible assumption | with_reducible apply Keeps.ite | with_reducible apply Keeps.iteFst | split
    | dsimp only

theorem scanBody_keeps {z : State} {confirm : Word} {s : State} (hz : Keeps z s) : Keeps z (scanBody confirm s).1 := by
  unfold scanBody
  repeat' first
    | with_reducible assumption | with_reducible apply queueEvent_keeps | with_reducible apply makeDue_keeps
    | with_reducible apply logChange_keeps | with_reducible apply Keeps.ite | with_reducible apply Keeps.iteFst
    | split | dsimp only | with_reducible refine Keeps.upd ?_ rfl rfl rfl

theorem fuseBody_keeps {z : State} {r : Request} {s : State} (hz : Keeps z s) : Keeps z (fuseBody r s).1 := by
  unfold fuseBody
  repeat' first
    | with_reducible assumption | with_reducible apply Keeps.ite | with_reducible apply Keeps.iteFst | split
    | dsimp only | with_reducible refine Keeps.upd ?_ rfl rfl rfl

theorem fuseEnds_keeps {z : State} {rows : Nat} {ok : Bool} {s : State} (hz : Keeps z s) : Keeps z
    (fuseEnds rows ok s) := by
  unfold fuseEnds
  repeat' first
    | with_reducible assumption | with_reducible apply queueEvent_keeps | with_reducible apply replyOp_keeps
    | with_reducible apply fuseRows_keeps | with_reducible apply spoilEntry_keeps | with_reducible apply Keeps.ite
    | split | dsimp only | with_reducible refine Keeps.upd ?_ rfl rfl rfl

theorem hourPassed_keeps {z : State} {s : State} (hz : Keeps z s) : Keeps z (hourPassed s) := by
  unfold hourPassed
  repeat' first
    | with_reducible assumption | with_reducible apply Keeps.ite | split | dsimp only
    | with_reducible refine Keeps.upd ?_ rfl rfl rfl

theorem minutePassed_keeps {z : State} {hottest : Int} {s : State} (hz : Keeps z s) : Keeps z
    (minutePassed hottest s) := by
  unfold minutePassed
  repeat' first
    | with_reducible assumption | with_reducible apply Keeps.ite | split | dsimp only
    | with_reducible refine Keeps.upd ?_ rfl rfl rfl

theorem execTestRunMemoryBist_keeps {arg : Byte} {s : State} {t : State}
    (hz : execTestRunMemoryBist arg s = .next t) : Keeps s t := by
  unfold execTestRunMemoryBist at hz
  obtain rfl := Host.Outcome.next.inj hz
  clear hz
  have hz := Keeps.refl s
  repeat' first
    | with_reducible assumption | with_reducible apply hostCommand_keeps | with_reducible apply runDestructive_keeps
    | with_reducible apply Keeps.ite | with_reducible apply Keeps.iteFst | with_reducible intro _ _ _ | split
    | dsimp only

theorem execTestRunSpareBist_keeps {arg : Byte} {s : State} {t : State}
    (hz : execTestRunSpareBist arg s = .next t) : Keeps s t := by
  unfold execTestRunSpareBist at hz
  obtain rfl := Host.Outcome.next.inj hz
  clear hz
  have hz := Keeps.refl s
  repeat' first
    | with_reducible assumption | with_reducible apply hostCommand_keeps | with_reducible apply runSpareBist_keeps
    | with_reducible apply Keeps.ite | with_reducible apply Keeps.iteFst | with_reducible intro _ _ _ | split
    | dsimp only

theorem execTestRunLogicBist_keeps {arg : Byte} {s : State} {t : State}
    (hz : execTestRunLogicBist arg s = .next t) : Keeps s t := by
  unfold execTestRunLogicBist at hz
  obtain rfl := Host.Outcome.next.inj hz
  clear hz
  have hz := Keeps.refl s
  repeat' first
    | with_reducible assumption | with_reducible apply hostCommand_keeps | with_reducible apply runDestructive_keeps
    | with_reducible apply Keeps.ite | with_reducible apply Keeps.iteFst | with_reducible intro _ _ _ | split
    | dsimp only

theorem execTestRunLoopback_keeps {arg : Byte} {s : State} {t : State}
    (hz : execTestRunLoopback arg s = .next t) : Keeps s t := by
  unfold execTestRunLoopback at hz
  obtain rfl := Host.Outcome.next.inj hz
  clear hz
  have hz := Keeps.refl s
  repeat' first
    | with_reducible assumption | with_reducible apply hostCommand_keeps | with_reducible apply runLoopback_keeps
    | with_reducible apply Keeps.ite | with_reducible apply Keeps.iteFst | with_reducible intro _ _ _ | split
    | dsimp only

theorem execTestRunScrub_keeps {arg : Byte} {s : State} {t : State}
    (hz : execTestRunScrub arg s = .next t) : Keeps s t := by
  unfold execTestRunScrub at hz
  obtain rfl := Host.Outcome.next.inj hz
  clear hz
  have hz := Keeps.refl s
  repeat' first
    | with_reducible assumption | with_reducible apply hostCommand_keeps | with_reducible apply runScrub_keeps
    | with_reducible apply Keeps.ite | with_reducible apply Keeps.iteFst | with_reducible intro _ _ _ | split
    | dsimp only

theorem execTestRunLegTest_keeps {arg : Byte} {s : State} {t : State}
    (hz : execTestRunLegTest arg s = .next t) : Keeps s t := by
  unfold execTestRunLegTest at hz
  obtain rfl := Host.Outcome.next.inj hz
  clear hz
  have hz := Keeps.refl s
  repeat' first
    | with_reducible assumption | with_reducible apply hostCommand_keeps | with_reducible apply runLegTest_keeps
    | with_reducible apply Keeps.ite | with_reducible apply Keeps.iteFst | with_reducible intro _ _ _ | split
    | dsimp only

theorem execLegTestDone_keeps {failLegs : BitVec 8} {groupOk : Bool} {checks : Nat} {s : State} {t : State}
    (hz : execLegTestDone failLegs groupOk checks s = .next t) : Keeps s t := by
  unfold execLegTestDone at hz
  obtain rfl := Host.Outcome.next.inj hz
  clear hz
  have hz := Keeps.refl s
  repeat' first
    | with_reducible assumption | with_reducible apply legTestEnds_keeps | with_reducible apply Keeps.ite
    | with_reducible apply Keeps.iteFst | with_reducible intro _ _ _ | split | dsimp only

theorem execServiceTestDone_keeps {sigMatch : Bool} {applied : Nat} {badRows : List Nat} {s : State} {t : State}
    (hz : execServiceTestDone sigMatch applied badRows s = .next t) : Keeps s t := by
  unfold execServiceTestDone at hz
  obtain rfl := Host.Outcome.next.inj hz
  clear hz
  have hz := Keeps.refl s
  repeat' first
    | with_reducible assumption | with_reducible apply serviceTestEnds_keeps | with_reducible apply Keeps.ite
    | with_reducible apply Keeps.iteFst | with_reducible intro _ _ _ | split | dsimp only

theorem execTestResult_keeps {test : Byte} {s : State} {t : State}
    (hz : execTestResult test s = .next t) : Keeps s t := by
  unfold execTestResult at hz
  obtain rfl := Host.Outcome.next.inj hz
  clear hz
  have hz := Keeps.refl s
  repeat' first
    | with_reducible assumption | with_reducible apply hostCommand_keeps | with_reducible apply testResultBody_keeps
    | with_reducible apply Keeps.ite | with_reducible apply Keeps.iteFst | with_reducible intro _ _ _ | split
    | dsimp only

theorem execScanRequest_keeps {confirm : Word} {s : State} {t : State}
    (hz : execScanRequest confirm s = .next t) : Keeps s t := by
  unfold execScanRequest at hz
  obtain rfl := Host.Outcome.next.inj hz
  clear hz
  have hz := Keeps.refl s
  repeat' first
    | with_reducible assumption | with_reducible apply hostCommand_keeps | with_reducible apply scanBody_keeps
    | with_reducible apply Keeps.ite | with_reducible apply Keeps.iteFst | with_reducible intro _ _ _ | split
    | dsimp only

theorem execFuseRepair_keeps {s : State} {t : State} (hz : execFuseRepair s = .next t) : Keeps s t := by
  unfold execFuseRepair at hz
  obtain rfl := Host.Outcome.next.inj hz
  clear hz
  have hz := Keeps.refl s
  repeat' first
    | with_reducible assumption | with_reducible apply hostCommand_keeps | with_reducible apply fuseBody_keeps
    | with_reducible apply Keeps.ite | with_reducible apply Keeps.iteFst | with_reducible intro _ _ _ | split
    | dsimp only

theorem execFuseRepairDone_keeps {rows : Nat} {ok : Bool} {s : State} {t : State}
    (hz : execFuseRepairDone rows ok s = .next t) : Keeps s t := by
  unfold execFuseRepairDone at hz
  obtain rfl := Host.Outcome.next.inj hz
  clear hz
  have hz := Keeps.refl s
  repeat' first
    | with_reducible assumption | with_reducible apply fuseEnds_keeps | with_reducible apply Keeps.ite
    | with_reducible apply Keeps.iteFst | with_reducible intro _ _ _ | split | dsimp only

theorem execLifeRead_keeps {s : State} {t : State} (hz : execLifeRead s = .next t) : Keeps s t := by
  unfold execLifeRead at hz
  obtain rfl := Host.Outcome.next.inj hz
  clear hz
  have hz := Keeps.refl s
  repeat' first
    | with_reducible assumption | with_reducible apply hostCommand_keeps | with_reducible apply Keeps.ite
    | with_reducible apply Keeps.iteFst | with_reducible intro _ _ _ | split | dsimp only

theorem execLifetimeHour_keeps {s : State} {t : State} (hz : execLifetimeHour s = .next t) : Keeps s t := by
  unfold execLifetimeHour at hz
  obtain rfl := Host.Outcome.next.inj hz
  clear hz
  have hz := Keeps.refl s
  repeat' first
    | with_reducible assumption | with_reducible apply hourPassed_keeps | with_reducible apply Keeps.ite
    | with_reducible apply Keeps.iteFst | with_reducible intro _ _ _ | split | dsimp only

theorem execEqhMinute_keeps {hottest : Int} {s : State} {t : State}
    (hz : execEqhMinute hottest s = .next t) : Keeps s t := by
  unfold execEqhMinute at hz
  obtain rfl := Host.Outcome.next.inj hz
  clear hz
  have hz := Keeps.refl s
  repeat' first
    | with_reducible assumption | with_reducible apply minutePassed_keeps | with_reducible apply Keeps.ite
    | with_reducible apply Keeps.iteFst | with_reducible intro _ _ _ | split | dsimp only

end Sys2Proof.Safety
end

