-- ==== Sys2Proof/Laws/KeepsModes.lean ====
section
/-! SUPPORT. What the operations of Machine/Modes.lean keep. -/
namespace Sys2Proof.Safety

open Sys2Proof.Machine

set_option simprocs false

theorem memoryRefuses_keeps {z : State} {s : State} {target : Mode} (hz : Keeps z s) : Keeps z
    (memoryRefuses s target).2 := by
  unfold memoryRefuses
  repeat' first
    | with_reducible assumption | with_reducible apply pageRuns_keeps | with_reducible apply Keeps.ite
    | with_reducible apply Keeps.iteSnd | split | dsimp only

theorem islandRefuses_keeps {z : State} {s : State} {i : Fin 14} {target : Mode} {discard : Bool}
    (hz : Keeps z s) : Keeps z (islandRefuses s i target discard).2 := by
  unfold islandRefuses
  repeat' first
    | with_reducible assumption | with_reducible apply drawFree_keeps | with_reducible apply memoryRefuses_keeps
    | with_reducible apply Keeps.ite | with_reducible apply Keeps.iteSnd | split | dsimp only

theorem refuseMode_keeps {z : State} {s : State} {target : Mode} {x : Staged} {refusers : BitVec 14}
    (hz : Keeps z s) : Keeps z (refuseMode s target x refusers) := by
  unfold refuseMode
  repeat' first
    | with_reducible assumption | with_reducible apply queueEvent_keeps | with_reducible apply reply_keeps | split
    | dsimp only | with_reducible refine Keeps.upd ?_ rfl rfl rfl

theorem settleRefusal_keeps {z : State} {s : State} (hz : Keeps z s) : Keeps z (settleRefusal s) := by
  unfold settleRefusal
  repeat' first
    | with_reducible assumption | with_reducible apply refuseMode_keeps | with_reducible apply Keeps.ite | split
    | dsimp only

theorem stagingAnswer_keeps {z : State} {i : Fin 14} {s : State} (hz : Keeps z s) : Keeps z (stagingAnswer i s) := by
  unfold stagingAnswer
  repeat' first
    | with_reducible assumption | with_reducible apply islandRefuses_keeps | with_reducible apply settleRefusal_keeps
    | split | dsimp only | with_reducible refine Keeps.upd ?_ rfl rfl rfl

theorem dropWaiting_keeps {z : State} {s : State} (hz : Keeps z s) : Keeps z (dropWaiting s) := by
  unfold dropWaiting
  repeat' first
    | with_reducible assumption | split | dsimp only | with_reducible refine Keeps.upd ?_ rfl rfl rfl

theorem restaged_keeps {z : State} {s : State} {g : Fin 4} (hz : Keeps z s) : Keeps z (restaged s g) := by
  unfold restaged
  repeat' first
    | with_reducible assumption | with_reducible apply unstageCastle_keeps | with_reducible apply holdGroup_keeps
    | with_reducible apply restageCastle_keeps | split | dsimp only

theorem stagingTimeout_keeps {z : State} {s : State} (hz : Keeps z s) : Keeps z (stagingTimeout s) := by
  unfold stagingTimeout
  repeat' first
    | with_reducible assumption | with_reducible apply reply_keeps | with_reducible apply abortCastle_keeps
    | with_reducible apply dropSlot_keeps | with_reducible apply refuseMode_keeps
    | with_reducible apply dropWaiting_keeps | with_reducible apply restaged_keeps | with_reducible apply Keeps.ite
    | split | dsimp only | with_reducible refine Keeps.upd ?_ rfl rfl rfl

theorem enterDormant_keeps {z : State} {s : State} {park : Bool} (hz : Keeps z s) : Keeps z (enterDormant s park) := by
  have hk : Keeps z (everythingOff (canStop s)) := everythingOff_keeps (canStop_keeps hz)
  unfold enterDormant
  generalize everythingOff (canStop s) = t at hk ⊢
  exact ⟨hk.pending, fun _ => rfl, hk.replies, fun _ => Nat.zero_le _, hk.fuses, hk.fuseRoom⟩

theorem commitMode_keeps {z : State} {s : State} {x : Staged} {target : Mode} {park fromSafe : Bool} {mask : Mask}
    (hz : Keeps z s) : Keeps z (commitMode s x target park fromSafe mask) := by
  unfold commitMode
  repeat' first
    | with_reducible assumption | with_reducible apply applyMode_keeps | with_reducible apply wakeBoot_keeps
    | with_reducible apply enterDormant_keeps | with_reducible apply Keeps.ite | split | dsimp only

theorem serviceFromHalt_keeps {z : State} {s : State} (hz : Keeps z s) : Keeps z (serviceFromHalt s) := by
  unfold serviceFromHalt
  repeat' first
    | with_reducible assumption | with_reducible apply queueEvent_keeps | with_reducible apply lapse_keeps
    | with_reducible apply refreshOutputs_keeps | with_reducible apply takeSnap_keeps
    | with_reducible apply startEpochs_keeps | with_reducible apply bootDemands_keeps | split | dsimp only
    | with_reducible refine Keeps.upd ?_ rfl rfl rfl

theorem setModeHalted_keeps {z : State} {target : Mode} {r : Request} {s : State} (hz : Keeps z s) : Keeps z
    (setModeHalted target r s).1 := by
  unfold setModeHalted
  repeat' first
    | with_reducible assumption | with_reducible apply memoryRefuses_keeps | with_reducible apply refuseMode_keeps
    | with_reducible apply serviceFromHalt_keeps | with_reducible apply Keeps.ite | with_reducible apply Keeps.iteFst
    | split | dsimp only

theorem setModeBody_keeps {z : State} {target flags : Byte} {r : Request} {s : State} (hz : Keeps z s) : Keeps z
    (setModeBody target flags r s).1 := by
  unfold setModeBody
  repeat' first
    | with_reducible assumption | with_reducible apply makeDue_keeps | with_reducible apply stage_keeps
    | with_reducible apply setModeHalted_keeps | with_reducible apply Keeps.ite | with_reducible apply Keeps.iteFst
    | split | dsimp only

theorem softResetBody_keeps {z : State} {confirm : Word} {s : State} (hz : Keeps z s) : Keeps z
    (softResetBody confirm s).1 := by
  unfold softResetBody
  repeat' first
    | with_reducible assumption | with_reducible apply makeDue_keeps | with_reducible apply pageRuns_keeps
    | with_reducible apply Keeps.ite | with_reducible apply Keeps.iteFst | split | dsimp only

theorem wakeBody_keeps {z : State} {s : State} (hz : Keeps z s) : Keeps z (wakeBody s).1 := by
  unfold wakeBody
  repeat' first
    | with_reducible assumption | with_reducible apply makeDue_keeps | split | dsimp only

theorem execSetMode_keeps {target flags : Byte} {s : State} {t : State}
    (hz : execSetMode target flags s = .next t) : Keeps s t := by
  unfold execSetMode at hz
  obtain rfl := Host.Outcome.next.inj hz
  clear hz
  have hz := Keeps.refl s
  repeat' first
    | with_reducible assumption | with_reducible apply hostCommand_keeps | with_reducible apply setModeBody_keeps
    | with_reducible apply Keeps.ite | with_reducible apply Keeps.iteFst | with_reducible intro _ _ _ | split
    | dsimp only

theorem execSoftReset_keeps {confirm : Word} {s : State} {t : State}
    (hz : execSoftReset confirm s = .next t) : Keeps s t := by
  unfold execSoftReset at hz
  obtain rfl := Host.Outcome.next.inj hz
  clear hz
  have hz := Keeps.refl s
  repeat' first
    | with_reducible assumption | with_reducible apply hostCommand_keeps | with_reducible apply softResetBody_keeps
    | with_reducible apply Keeps.ite | with_reducible apply Keeps.iteFst | with_reducible intro _ _ _ | split
    | dsimp only

theorem execWakeCommand_keeps {s : State} {t : State} (hz : execWakeCommand s = .next t) : Keeps s t := by
  unfold execWakeCommand at hz
  obtain rfl := Host.Outcome.next.inj hz
  clear hz
  have hz := Keeps.refl s
  repeat' first
    | with_reducible assumption | with_reducible apply hostCommand_keeps | with_reducible apply wakeBody_keeps
    | with_reducible apply Keeps.ite | with_reducible apply Keeps.iteFst | with_reducible intro _ _ _ | split
    | dsimp only

theorem execStagingAnswer_keeps {island : Fin 14} {s : State} {t : State}
    (hz : execStagingAnswer island s = .next t) : Keeps s t := by
  unfold execStagingAnswer at hz
  obtain rfl := Host.Outcome.next.inj hz
  clear hz
  have hz := Keeps.refl s
  repeat' first
    | with_reducible assumption | with_reducible apply stagingAnswer_keeps | with_reducible apply Keeps.ite
    | with_reducible apply Keeps.iteFst | with_reducible intro _ _ _ | split | dsimp only

theorem execStagingTimeout_keeps {s : State} {t : State} (hz : execStagingTimeout s = .next t) : Keeps s t := by
  unfold execStagingTimeout at hz
  obtain rfl := Host.Outcome.next.inj hz
  clear hz
  have hz := Keeps.refl s
  repeat' first
    | with_reducible assumption | with_reducible apply stagingTimeout_keeps | with_reducible apply Keeps.ite
    | with_reducible apply Keeps.iteFst | with_reducible intro _ _ _ | split | dsimp only

end Sys2Proof.Safety
end

