-- ==== Sys2Proof/Laws/KeepsSystemCommands.lean ====
section
/-! SUPPORT. What the operations of Machine/SystemCommands.lean keep. -/
namespace Sys2Proof.Safety

open Sys2Proof.Machine

set_option simprocs false

theorem cfgSaveBody_keeps {z : State} {r : Request} {s : State} (hz : Keeps z s) : Keeps z (cfgSaveBody r s).1 := by
  unfold cfgSaveBody
  repeat' first
    | with_reducible assumption | with_reducible apply Keeps.ite | with_reducible apply Keeps.iteFst | split
    | dsimp only | with_reducible refine Keeps.upd ?_ rfl rfl rfl

theorem cfgSaveEnds_keeps {z : State} {ok : Bool} {s : State} (hz : Keeps z s) : Keeps z (cfgSaveEnds ok s) := by
  unfold cfgSaveEnds
  repeat' first
    | with_reducible assumption | with_reducible apply replyOp_keeps | with_reducible apply nvmFail_keeps
    | with_reducible apply Keeps.ite | split | dsimp only | with_reducible refine Keeps.upd ?_ rfl rfl rfl

theorem chStatusBody_keeps {z : State} {ch : Byte} {s : State} (hz : Keeps z s) : Keeps z (chStatusBody ch s).1 := by
  unfold chStatusBody
  repeat' first
    | with_reducible assumption | with_reducible apply Keeps.ite | with_reducible apply Keeps.iteFst | split
    | dsimp only

theorem execIdentify_keeps {s : State} {t : State} (hz : execIdentify s = .next t) : Keeps s t := by
  unfold execIdentify at hz
  obtain rfl := Host.Outcome.next.inj hz
  clear hz
  have hz := Keeps.refl s
  repeat' first
    | with_reducible assumption | with_reducible apply hostCommand_keeps | with_reducible apply Keeps.ite
    | with_reducible apply Keeps.iteFst | with_reducible intro _ _ _ | split | dsimp only

theorem execStatus_keeps {s : State} {t : State} (hz : execStatus s = .next t) : Keeps s t := by
  unfold execStatus at hz
  obtain rfl := Host.Outcome.next.inj hz
  clear hz
  have hz := Keeps.refl s
  repeat' first
    | with_reducible assumption | with_reducible apply hostCommand_keeps | with_reducible apply Keeps.ite
    | with_reducible apply Keeps.iteFst | with_reducible intro _ _ _ | split | dsimp only

theorem execCfgSave_keeps {s : State} {t : State} (hz : execCfgSave s = .next t) : Keeps s t := by
  unfold execCfgSave at hz
  obtain rfl := Host.Outcome.next.inj hz
  clear hz
  have hz := Keeps.refl s
  repeat' first
    | with_reducible assumption | with_reducible apply hostCommand_keeps | with_reducible apply cfgSaveBody_keeps
    | with_reducible apply Keeps.ite | with_reducible apply Keeps.iteFst | with_reducible intro _ _ _ | split
    | dsimp only

theorem execCfgSaveDone_keeps {ok : Bool} {s : State} {t : State}
    (hz : execCfgSaveDone ok s = .next t) : Keeps s t := by
  unfold execCfgSaveDone at hz
  obtain rfl := Host.Outcome.next.inj hz
  clear hz
  have hz := Keeps.refl s
  repeat' first
    | with_reducible assumption | with_reducible apply cfgSaveEnds_keeps | with_reducible apply Keeps.ite
    | with_reducible apply Keeps.iteFst | with_reducible intro _ _ _ | split | dsimp only

theorem execTimeRead_keeps {s : State} {t : State} (hz : execTimeRead s = .next t) : Keeps s t := by
  unfold execTimeRead at hz
  obtain rfl := Host.Outcome.next.inj hz
  clear hz
  have hz := Keeps.refl s
  repeat' first
    | with_reducible assumption | with_reducible apply hostCommand_keeps | with_reducible apply Keeps.ite
    | with_reducible apply Keeps.iteFst | with_reducible intro _ _ _ | split | dsimp only

theorem execEcho_keeps {data : List Byte} {s : State} {t : State} (hz : execEcho data s = .next t) : Keeps s t := by
  unfold execEcho at hz
  obtain rfl := Host.Outcome.next.inj hz
  clear hz
  have hz := Keeps.refl s
  repeat' first
    | with_reducible assumption | with_reducible apply hostCommand_keeps | with_reducible apply Keeps.ite
    | with_reducible apply Keeps.iteFst | with_reducible intro _ _ _ | split | dsimp only

theorem execChStatus_keeps {ch : Byte} {s : State} {t : State} (hz : execChStatus ch s = .next t) : Keeps s t := by
  unfold execChStatus at hz
  obtain rfl := Host.Outcome.next.inj hz
  clear hz
  have hz := Keeps.refl s
  repeat' first
    | with_reducible assumption | with_reducible apply hostCommand_keeps | with_reducible apply chStatusBody_keeps
    | with_reducible apply Keeps.ite | with_reducible apply Keeps.iteFst | with_reducible intro _ _ _ | split
    | dsimp only

theorem execLinkStatus_keeps {s : State} {t : State} (hz : execLinkStatus s = .next t) : Keeps s t := by
  unfold execLinkStatus at hz
  obtain rfl := Host.Outcome.next.inj hz
  clear hz
  have hz := Keeps.refl s
  repeat' first
    | with_reducible assumption | with_reducible apply hostCommand_keeps | with_reducible apply Keeps.ite
    | with_reducible apply Keeps.iteFst | with_reducible intro _ _ _ | split | dsimp only

end Sys2Proof.Safety
end

