-- ==== Sys2Proof/Laws/KeepsRegisterCommands.lean ====
section
/-! SUPPORT. What the operations of Machine/RegisterCommands.lean keep. -/
namespace Sys2Proof.Safety

open Sys2Proof.Machine

set_option simprocs false

theorem readBody_keeps {z : State} {a : Word} {s : State} (hz : Keeps z s) : Keeps z (readBody a s).1 := by
  unfold readBody
  repeat' first
    | with_reducible assumption | with_reducible apply timePasses_keeps | with_reducible apply readReg_keeps
    | with_reducible apply Keeps.ite | with_reducible apply Keeps.iteFst | split | dsimp only

theorem blockBody_keeps {z : State} {a : Word} {count : BitVec 16} {s : State} (hz : Keeps z s) : Keeps z
    (blockBody a count s).1 := by
  unfold blockBody
  repeat' first
    | with_reducible assumption | with_reducible apply timePasses_keeps | with_reducible apply readBlock_keeps
    | with_reducible apply Keeps.ite | with_reducible apply Keeps.iteFst | split | dsimp only

theorem writeBody_keeps {z : State} {a v : Word} {s : State} (hz : Keeps z s) : Keeps z (writeBody a v s).1 := by
  unfold writeBody
  repeat' first
    | with_reducible assumption | with_reducible apply writeReg_keeps | split | dsimp only

theorem multiBody_keeps {z : State} {pairs : List (Word × Word)} {s : State} (hz : Keeps z s) : Keeps z
    (multiBody pairs s).1 := by
  unfold multiBody
  repeat' first
    | with_reducible assumption | with_reducible apply writePairs_keeps | split | dsimp only

theorem fieldWrite_keeps {z : State} {i : Instr} {s : State} (hz : Keeps z s) : Keeps z (fieldWrite i s) := by
  unfold fieldWrite
  repeat' first
    | with_reducible assumption | with_reducible apply hostCommand_keeps | with_reducible apply writeBody_keeps
    | with_reducible intro _ _ _ | split | dsimp only

theorem execRegRead_keeps {addr : Word} {s : State} {t : State} (hz : execRegRead addr s = .next t) : Keeps s t := by
  unfold execRegRead at hz
  obtain rfl := Host.Outcome.next.inj hz
  clear hz
  have hz := Keeps.refl s
  repeat' first
    | with_reducible assumption | with_reducible apply hostCommand_keeps | with_reducible apply readBody_keeps
    | with_reducible apply Keeps.ite | with_reducible apply Keeps.iteFst | with_reducible intro _ _ _ | split
    | dsimp only

theorem execCaptureRead_keeps {addr : Word} {s : State} {t : State}
    (hz : execCaptureRead addr s = .next t) : Keeps s t := by
  unfold execCaptureRead at hz
  obtain rfl := Host.Outcome.next.inj hz
  clear hz
  have hz := Keeps.refl s
  repeat' first
    | with_reducible assumption | with_reducible apply hostCommand_keeps | with_reducible apply readBody_keeps
    | with_reducible apply Keeps.ite | with_reducible apply Keeps.iteFst | with_reducible intro _ _ _ | split
    | dsimp only

theorem execRegWrite_keeps {addr value : Word} {s : State} {t : State}
    (hz : execRegWrite addr value s = .next t) : Keeps s t := by
  unfold execRegWrite at hz
  obtain rfl := Host.Outcome.next.inj hz
  clear hz
  have hz := Keeps.refl s
  repeat' first
    | with_reducible assumption | with_reducible apply hostCommand_keeps | with_reducible apply writeBody_keeps
    | with_reducible apply Keeps.ite | with_reducible apply Keeps.iteFst | with_reducible intro _ _ _ | split
    | dsimp only

theorem execRegReadBlock_keeps {addr : Word} {count : BitVec 16} {s : State} {t : State}
    (hz : execRegReadBlock addr count s = .next t) : Keeps s t := by
  unfold execRegReadBlock at hz
  obtain rfl := Host.Outcome.next.inj hz
  clear hz
  have hz := Keeps.refl s
  repeat' first
    | with_reducible assumption | with_reducible apply hostCommand_keeps | with_reducible apply blockBody_keeps
    | with_reducible apply Keeps.ite | with_reducible apply Keeps.iteFst | with_reducible intro _ _ _ | split
    | dsimp only

theorem execRegWriteMulti_keeps {pairs : List (Word × Word)} {s : State} {t : State}
    (hz : execRegWriteMulti pairs s = .next t) : Keeps s t := by
  unfold execRegWriteMulti at hz
  obtain rfl := Host.Outcome.next.inj hz
  clear hz
  have hz := Keeps.refl s
  repeat' first
    | with_reducible assumption | with_reducible apply hostCommand_keeps | with_reducible apply multiBody_keeps
    | with_reducible apply Keeps.ite | with_reducible apply Keeps.iteFst | with_reducible intro _ _ _ | split
    | dsimp only

theorem execFoutWrite_keeps {fout : BitVec 2} {s : State} {t : State}
    (hz : execFoutWrite fout s = .next t) : Keeps s t := by
  unfold execFoutWrite at hz
  obtain rfl := Host.Outcome.next.inj hz
  clear hz
  have hz := Keeps.refl s
  repeat' first
    | with_reducible assumption | with_reducible apply fieldWrite_keeps | with_reducible apply Keeps.ite
    | with_reducible apply Keeps.iteFst | with_reducible intro _ _ _ | split | dsimp only

theorem execGangWrite_keeps {group : Fin 4} {gang : BitVec 3} {s : State} {t : State}
    (hz : execGangWrite group gang s = .next t) : Keeps s t := by
  unfold execGangWrite at hz
  obtain rfl := Host.Outcome.next.inj hz
  clear hz
  have hz := Keeps.refl s
  repeat' first
    | with_reducible assumption | with_reducible apply fieldWrite_keeps | with_reducible apply Keeps.ite
    | with_reducible apply Keeps.iteFst | with_reducible intro _ _ _ | split | dsimp only

theorem execProgBindWrite_keeps {ch : Fin 16} {value : Word} {s : State} {t : State}
    (hz : execProgBindWrite ch value s = .next t) : Keeps s t := by
  unfold execProgBindWrite at hz
  obtain rfl := Host.Outcome.next.inj hz
  clear hz
  have hz := Keeps.refl s
  repeat' first
    | with_reducible assumption | with_reducible apply fieldWrite_keeps | with_reducible apply Keeps.ite
    | with_reducible apply Keeps.iteFst | with_reducible intro _ _ _ | split | dsimp only

theorem execCoefAccess_keeps {ch : Fin 16} {write : Option Word} {s : State} {t : State}
    (hz : execCoefAccess ch write s = .next t) : Keeps s t := by
  unfold execCoefAccess at hz
  split at hz <;> (obtain rfl := Host.Outcome.next.inj hz; clear hz; have hz := Keeps.refl s)
  all_goals
    repeat' first
      | with_reducible assumption | with_reducible apply hostCommand_keeps | with_reducible apply readBody_keeps
      | with_reducible apply fieldWrite_keeps | with_reducible apply Keeps.ite | with_reducible apply Keeps.iteFst
      | with_reducible intro _ _ _ | split | dsimp only

theorem execFreezeWrite_keeps {ch : Fin 16} {frz : BitVec 4} {s : State} {t : State}
    (hz : execFreezeWrite ch frz s = .next t) : Keeps s t := by
  unfold execFreezeWrite at hz
  obtain rfl := Host.Outcome.next.inj hz
  clear hz
  have hz := Keeps.refl s
  repeat' first
    | with_reducible assumption | with_reducible apply fieldWrite_keeps | with_reducible apply Keeps.ite
    | with_reducible apply Keeps.iteFst | with_reducible intro _ _ _ | split | dsimp only

theorem execSetpointWrite_keeps {ch : Fin 16} {reg : SetpointReg} {value : Word} {s : State} {t : State}
    (hz : execSetpointWrite ch reg value s = .next t) : Keeps s t := by
  unfold execSetpointWrite at hz
  obtain rfl := Host.Outcome.next.inj hz
  clear hz
  have hz := Keeps.refl s
  repeat' first
    | with_reducible assumption | with_reducible apply fieldWrite_keeps | with_reducible apply Keeps.ite
    | with_reducible apply Keeps.iteFst | with_reducible intro _ _ _ | split | dsimp only

theorem execAccClearWrite_keeps {ch : Fin 16} {s : State} {t : State}
    (hz : execAccClearWrite ch s = .next t) : Keeps s t := by
  unfold execAccClearWrite at hz
  obtain rfl := Host.Outcome.next.inj hz
  clear hz
  have hz := Keeps.refl s
  repeat' first
    | with_reducible assumption | with_reducible apply fieldWrite_keeps | with_reducible apply Keeps.ite
    | with_reducible apply Keeps.iteFst | with_reducible intro _ _ _ | split | dsimp only

theorem execLogackWrite_keeps {ch : Fin 16} {value : Word} {s : State} {t : State}
    (hz : execLogackWrite ch value s = .next t) : Keeps s t := by
  unfold execLogackWrite at hz
  obtain rfl := Host.Outcome.next.inj hz
  clear hz
  have hz := Keeps.refl s
  repeat' first
    | with_reducible assumption | with_reducible apply fieldWrite_keeps | with_reducible apply Keeps.ite
    | with_reducible apply Keeps.iteFst | with_reducible intro _ _ _ | split | dsimp only

theorem execBkclrWrite_keeps {s : State} {t : State} (hz : execBkclrWrite s = .next t) : Keeps s t := by
  unfold execBkclrWrite at hz
  obtain rfl := Host.Outcome.next.inj hz
  clear hz
  have hz := Keeps.refl s
  repeat' first
    | with_reducible assumption | with_reducible apply fieldWrite_keeps | with_reducible apply Keeps.ite
    | with_reducible apply Keeps.iteFst | with_reducible intro _ _ _ | split | dsimp only

theorem execCastlePeriodWrite_keeps {period : BitVec 16} {s : State} {t : State}
    (hz : execCastlePeriodWrite period s = .next t) : Keeps s t := by
  unfold execCastlePeriodWrite at hz
  obtain rfl := Host.Outcome.next.inj hz
  clear hz
  have hz := Keeps.refl s
  repeat' first
    | with_reducible assumption | with_reducible apply fieldWrite_keeps | with_reducible apply Keeps.ite
    | with_reducible apply Keeps.iteFst | with_reducible intro _ _ _ | split | dsimp only

theorem execQuadWrite_keeps {quad : Bool} {s : State} {t : State}
    (hz : execQuadWrite quad s = .next t) : Keeps s t := by
  unfold execQuadWrite at hz
  obtain rfl := Host.Outcome.next.inj hz
  clear hz
  have hz := Keeps.refl s
  repeat' first
    | with_reducible assumption | with_reducible apply fieldWrite_keeps | with_reducible apply Keeps.ite
    | with_reducible apply Keeps.iteFst | with_reducible intro _ _ _ | split | dsimp only

theorem execTestUnretireWrite_keeps {value : Word} {s : State} {t : State}
    (hz : execTestUnretireWrite value s = .next t) : Keeps s t := by
  unfold execTestUnretireWrite at hz
  obtain rfl := Host.Outcome.next.inj hz
  clear hz
  have hz := Keeps.refl s
  repeat' first
    | with_reducible assumption | with_reducible apply fieldWrite_keeps | with_reducible apply Keeps.ite
    | with_reducible apply Keeps.iteFst | with_reducible intro _ _ _ | split | dsimp only

theorem execAuxpsPkclrWrite_keeps {s : State} {t : State} (hz : execAuxpsPkclrWrite s = .next t) : Keeps s t := by
  unfold execAuxpsPkclrWrite at hz
  obtain rfl := Host.Outcome.next.inj hz
  clear hz
  have hz := Keeps.refl s
  repeat' first
    | with_reducible assumption | with_reducible apply fieldWrite_keeps | with_reducible apply Keeps.ite
    | with_reducible apply Keeps.iteFst | with_reducible intro _ _ _ | split | dsimp only

theorem execCanEnableWrite_keeps {value : Word} {s : State} {t : State}
    (hz : execCanEnableWrite value s = .next t) : Keeps s t := by
  unfold execCanEnableWrite at hz
  obtain rfl := Host.Outcome.next.inj hz
  clear hz
  have hz := Keeps.refl s
  repeat' first
    | with_reducible assumption | with_reducible apply fieldWrite_keeps | with_reducible apply Keeps.ite
    | with_reducible apply Keeps.iteFst | with_reducible intro _ _ _ | split | dsimp only

theorem execCanTxaddWrite_keeps {value : Word} {s : State} {t : State}
    (hz : execCanTxaddWrite value s = .next t) : Keeps s t := by
  unfold execCanTxaddWrite at hz
  obtain rfl := Host.Outcome.next.inj hz
  clear hz
  have hz := Keeps.refl s
  repeat' first
    | with_reducible assumption | with_reducible apply fieldWrite_keeps | with_reducible apply Keeps.ite
    | with_reducible apply Keeps.iteFst | with_reducible intro _ _ _ | split | dsimp only

theorem execCanTxcancelWrite_keeps {value : Word} {s : State} {t : State}
    (hz : execCanTxcancelWrite value s = .next t) : Keeps s t := by
  unfold execCanTxcancelWrite at hz
  obtain rfl := Host.Outcome.next.inj hz
  clear hz
  have hz := Keeps.refl s
  repeat' first
    | with_reducible assumption | with_reducible apply fieldWrite_keeps | with_reducible apply Keeps.ite
    | with_reducible apply Keeps.iteFst | with_reducible intro _ _ _ | split | dsimp only

theorem execCanRxackWrite_keeps {fifo : Fin 2} {value : Word} {s : State} {t : State}
    (hz : execCanRxackWrite fifo value s = .next t) : Keeps s t := by
  unfold execCanRxackWrite at hz
  obtain rfl := Host.Outcome.next.inj hz
  clear hz
  have hz := Keeps.refl s
  repeat' first
    | with_reducible assumption | with_reducible apply fieldWrite_keeps | with_reducible apply Keeps.ite
    | with_reducible apply Keeps.iteFst | with_reducible intro _ _ _ | split | dsimp only

theorem execDmaShvWrite_keeps {n : Fin 8} {value : Word} {s : State} {t : State}
    (hz : execDmaShvWrite n value s = .next t) : Keeps s t := by
  unfold execDmaShvWrite at hz
  obtain rfl := Host.Outcome.next.inj hz
  clear hz
  have hz := Keeps.refl s
  repeat' first
    | with_reducible assumption | with_reducible apply dmaShvWrite_keeps | with_reducible apply fieldWrite_keeps
    | with_reducible apply Keeps.ite | with_reducible apply Keeps.iteFst | with_reducible intro _ _ _ | split
    | dsimp only

theorem execDmaAbort_keeps {n : Fin 8} {s : State} {t : State} (hz : execDmaAbort n s = .next t) : Keeps s t := by
  unfold execDmaAbort at hz
  obtain rfl := Host.Outcome.next.inj hz
  clear hz
  have hz := Keeps.refl s
  repeat' first
    | with_reducible assumption | with_reducible apply fieldWrite_keeps | with_reducible apply Keeps.ite
    | with_reducible apply Keeps.iteFst | with_reducible intro _ _ _ | split | dsimp only

theorem execDmaDisable_keeps {n : Fin 8} {s : State} {t : State} (hz : execDmaDisable n s = .next t) : Keeps s t := by
  unfold execDmaDisable at hz
  obtain rfl := Host.Outcome.next.inj hz
  clear hz
  have hz := Keeps.refl s
  repeat' first
    | with_reducible assumption | with_reducible apply fieldWrite_keeps | with_reducible apply Keeps.ite
    | with_reducible apply Keeps.iteFst | with_reducible intro _ _ _ | split | dsimp only

end Sys2Proof.Safety
end

