-- ==== Sys2Proof/Laws/KeepsWords.lean ====
section
/-! SUPPORT. What the operations of Machine/Words.lean keep. -/
namespace Sys2Proof.Safety

open Sys2Proof.Machine

set_option simprocs false

theorem overRange_keeps {z : State} {s : State} {c : Fin 16} {conv : Nat} (hz : Keeps z s) : Keeps z
    (overRange s c conv) := by
  unfold overRange
  repeat' first
    | with_reducible assumption | with_reducible apply queueRated_keeps | split | dsimp only

theorem invalidWord_keeps {z : State} {s : State} {c : Fin 16} (hz : Keeps z s) : Keeps z (invalidWord s c) := by
  unfold invalidWord
  repeat' first
    | with_reducible assumption | with_reducible apply addCause_keeps | with_reducible apply Keeps.ite | split
    | dsimp only

theorem channelWord_keeps {z : State} {w : EpochWords} {ns : Nat} {s : State} {c : Fin 16} (hz : Keeps z s) : Keeps z
    (channelWord w ns s c) := by
  unfold channelWord
  repeat' first
    | with_reducible assumption | (with_reducible apply Keeps.foldl; rotate_left; intro _ _ _)
    | with_reducible apply updCh_keeps | with_reducible apply overRange_keeps | with_reducible apply Keeps.ite | split
    | dsimp only | with_reducible refine Keeps.upd ?_ rfl rfl rfl

theorem legWord_keeps {z : State} {w : EpochWords} {s : State} {l : Fin 32} (hz : Keeps z s) : Keeps z
    (legWord w s l) := by
  unfold legWord
  repeat' first
    | with_reducible assumption | with_reducible apply updLeg_keeps | with_reducible apply overRange_keeps
    | with_reducible apply Keeps.ite | split | dsimp only | with_reducible refine Keeps.upd ?_ rfl rfl rfl

theorem groupWord_keeps {z : State} {w : EpochWords} {s : State} {g : Fin 4} (hz : Keeps z s) : Keeps z
    (groupWord w s g) := by
  unfold groupWord
  repeat' first
    | with_reducible assumption | with_reducible apply updGrp_keeps | with_reducible apply overRangeLink_keeps
    | with_reducible apply Keeps.ite | split | dsimp only | with_reducible refine Keeps.upd ?_ rfl rfl rfl

theorem linkWord_keeps {z : State} {w : EpochWords} {s : State} (hz : Keeps z s) : Keeps z (linkWord w s) := by
  unfold linkWord
  repeat' first
    | with_reducible assumption | with_reducible apply overRangeLink_keeps | with_reducible apply Keeps.ite | split
    | dsimp only | with_reducible refine Keeps.upd ?_ rfl rfl rfl

theorem accumulate_keeps {z : State} {ns : Nat} {s : State} {c : Fin 16} (hz : Keeps z s) : Keeps z
    (accumulate ns s c) := by
  unfold accumulate
  repeat' first
    | with_reducible assumption | with_reducible apply updCh_keeps | with_reducible apply Keeps.ite | split
    | dsimp only | with_reducible refine Keeps.upd ?_ rfl rfl rfl

theorem deliverWords_keeps {z : State} {w : EpochWords} {ns : Nat} {s : State} (hz : Keeps z s) : Keeps z
    (deliverWords w ns s) := by
  unfold deliverWords
  repeat' first
    | with_reducible assumption | (with_reducible apply Keeps.foldl; rotate_left; intro _ _ _)
    | with_reducible apply channelWord_keeps | with_reducible apply legWord_keeps
    | with_reducible apply groupWord_keeps | with_reducible apply linkWord_keeps
    | with_reducible apply accumulate_keeps | split | dsimp only

end Sys2Proof.Safety
end

