-- ==== Sys2Proof/Laws/KeepsPrograms.lean ====
section
/-! SUPPORT. What the operations of Machine/Programs.lean keep. -/
namespace Sys2Proof.Safety

open Sys2Proof.Machine

set_option simprocs false

theorem flagFallTold_keeps {z : State} {s : State} {c : Fin 16} {reason : Nat} (hz : Keeps z s) : Keeps z
    (flagFallTold s c reason) := by
  unfold flagFallTold
  repeat' first
    | with_reducible assumption | with_reducible apply updProg_keeps | with_reducible apply queueEvent_keeps
    | with_reducible apply Keeps.ite | split | dsimp only | with_reducible refine Keeps.upd ?_ rfl rfl rfl

theorem applyEnd_keeps {z : State} {x : StepEnd} {s : State} {c : Fin 16} (hz : Keeps z s) : Keeps z
    (applyEnd x s c).1 := by
  unfold applyEnd
  repeat' first
    | with_reducible assumption | with_reducible apply updProg_keeps | with_reducible apply formEndRecords_keeps
    | with_reducible apply endProgram_keeps | with_reducible apply startStepIn_keeps
    | with_reducible apply flagFallTold_keeps | split | dsimp only | with_reducible refine Keeps.upd ?_ rfl rfl rfl

theorem stepEndDue_keeps {z : State} {a : State × List (Fin 16)} {c : Fin 16} (hz : Keeps z a.1) :
    Keeps z (stepEndDue a c).1 := by
  unfold stepEndDue
  split
  · exact hz
  · dsimp only
    split
    · dsimp only
      exact updProg_keeps hz
    · split
      · dsimp only
        exact updProg_keeps hz
      · exact applyEnd_keeps hz

theorem stepEndsDue_keeps {z : State} {s : State} (hz : Keeps z s) : Keeps z (stepEndsDue s).1 :=
  Keeps.foldlFst hz fun _ _ h => stepEndDue_keeps h

theorem histEpoch_keeps {z : State} {s : State} {c : Fin 16} {ip : Int} {ns : Nat} (hz : Keeps z s) : Keeps z
    (histEpoch s c ip ns).1 := by
  unfold histEpoch
  repeat' first
    | with_reducible assumption | with_reducible apply updCh_keeps | with_reducible apply Keeps.ite
    | with_reducible apply Keeps.iteFst | split | dsimp only | with_reducible refine Keeps.upd ?_ rfl rfl rfl

theorem condEpoch_keeps {z : State} {x : EpochSeen} {c : Fin 16} {s : State} {k : Fin 4} (hz : Keeps z s) : Keeps z
    (condEpoch x c s k) := by
  unfold condEpoch
  repeat' first
    | with_reducible assumption | with_reducible apply updProg_keeps | with_reducible apply decideEnd_keeps
    | with_reducible apply Keeps.ite | split | dsimp only | with_reducible refine Keeps.upd ?_ rfl rfl rfl

theorem decideEpoch_keeps {z : State} {x : EpochSeen} {s : State} {c : Fin 16} (hz : Keeps z s) : Keeps z
    (decideEpoch x s c) := by
  unfold decideEpoch
  repeat' first
    | with_reducible assumption | (with_reducible apply Keeps.foldl; rotate_left; intro _ _ _)
    | with_reducible apply decideEnd_keeps | with_reducible apply condEpoch_keeps | split | dsimp only

theorem countEpoch_keeps {z : State} {ns : Nat} {s : State} {c : Fin 16} (hz : Keeps z s) : Keeps z
    (countEpoch ns s c) := by
  unfold countEpoch
  repeat' first
    | with_reducible assumption | with_reducible apply updProg_keeps | with_reducible apply histEpoch_keeps
    | with_reducible apply decideEpoch_keeps | with_reducible apply Keeps.ite | split | dsimp only
    | with_reducible refine Keeps.upd ?_ rfl rfl rfl

theorem markLive_keeps {z : State} {s : State} {c : Fin 16} (hz : Keeps z s) : Keeps z (markLive s c) := by
  unfold markLive
  repeat' first
    | with_reducible assumption | with_reducible apply updCh_keeps | split | dsimp only
    | with_reducible refine Keeps.upd ?_ rfl rfl rfl

theorem ringCheck_keeps {z : State} {s : State} {c : Fin 16} (hz : Keeps z s) : Keeps z (ringCheck s c) := by
  unfold ringCheck
  repeat' first
    | with_reducible assumption | with_reducible apply queueEvent_keeps | with_reducible apply addCause_keeps
    | with_reducible apply clearCauses_keeps | with_reducible apply Keeps.ite | split | dsimp only

end Sys2Proof.Safety
end

