-- ==== Sys2Proof/Laws/KeepsSamples.lean ====
section
/-! SUPPORT. What the operations of Machine/Samples.lean keep. -/
namespace Sys2Proof.Safety

open Sys2Proof.Machine

set_option simprocs false

theorem openSample_keeps {z : State} {s : State} {c : Fin 16} (hz : Keeps z s) : Keeps z (openSample s c) := by
  unfold openSample
  repeat' first
    | with_reducible assumption | (with_reducible apply Keeps.foldl; rotate_left; intro _ _ _)
    | with_reducible apply updCh_keeps | with_reducible apply turnAllow_keeps | with_reducible apply Keeps.ite | split
    | dsimp only | with_reducible refine Keeps.upd ?_ rfl rfl rfl

theorem releaseRef_keeps {z : State} {s : State} {l : Fin 32} {iref : Int} (hz : Keeps z s) : Keeps z
    (releaseRef s l iref) := by
  unfold releaseRef
  repeat' first
    | with_reducible assumption | with_reducible apply updLeg_keeps | with_reducible apply Keeps.ite | split
    | dsimp only

theorem releaseChannel_keeps {z : State} {s : State} {c : Fin 16} {iref : Int} (hz : Keeps z s) : Keeps z
    (releaseChannel s c iref) := by
  unfold releaseChannel
  repeat' first
    | with_reducible assumption | with_reducible apply releaseRef_keeps | with_reducible apply Keeps.ite | split
    | dsimp only

theorem followerFloor_keeps {z : State} {iref : Int} {s : State} {d : Fin 16} (hz : Keeps z s) : Keeps z
    (followerFloor iref s d) := by
  unfold followerFloor
  repeat' first
    | with_reducible assumption | with_reducible apply updCh_keeps | with_reducible apply queueEvent_keeps
    | with_reducible apply Keeps.ite | split | dsimp only | with_reducible refine Keeps.upd ?_ rfl rfl rfl

theorem distribute_keeps {z : State} {s : State} {c : Fin 16} (hz : Keeps z s) : Keeps z (distribute s c) := by
  unfold distribute
  repeat' first
    | with_reducible assumption | (with_reducible apply Keeps.foldl; rotate_left; intro _ _ _)
    | with_reducible apply updCh_keeps | with_reducible apply releaseChannel_keeps
    | with_reducible apply followerFloor_keeps | with_reducible apply Keeps.ite | split | dsimp only
    | with_reducible refine Keeps.upd ?_ rfl rfl rfl

theorem exciteChannel_keeps {z : State} {x : List Int} {s : State} {c : Fin 16} (hz : Keeps z s) : Keeps z
    (exciteChannel x s c) := by
  unfold exciteChannel
  repeat' first
    | with_reducible assumption | (with_reducible apply Keeps.foldl; rotate_left; intro _ _ _)
    | with_reducible apply updLeg_keeps | split | dsimp only | with_reducible refine Keeps.upd ?_ rfl rfl rfl

theorem exciteLegs_keeps {z : State} {s : State} {c : Fin 16} {amp inc : Nat} (hz : Keeps z s) : Keeps z
    (exciteLegs s c amp inc) := by
  unfold exciteLegs
  repeat' first
    | with_reducible assumption | (with_reducible apply Keeps.foldl; rotate_left; intro _ _ _)
    | with_reducible apply updCh_keeps | with_reducible apply exciteChannel_keeps | split | dsimp only
    | with_reducible refine Keeps.upd ?_ rfl rfl rfl

theorem exciteNone_keeps {z : State} {s : State} {c : Fin 16} (hz : Keeps z s) : Keeps z (exciteNone s c) := by
  unfold exciteNone
  repeat' first
    | with_reducible assumption | (with_reducible apply Keeps.foldl; rotate_left; intro _ _ _)
    | with_reducible apply updCh_keeps | with_reducible apply exciteChannel_keeps | split | dsimp only
    | with_reducible refine Keeps.upd ?_ rfl rfl rfl

theorem excite_keeps {z : State} {s : State} {c : Fin 16} (hz : Keeps z s) : Keeps z (excite s c) := by
  unfold excite
  repeat' first
    | with_reducible assumption | with_reducible apply updCh_keeps | with_reducible apply exciteLegs_keeps
    | with_reducible apply exciteNone_keeps | with_reducible apply Keeps.ite | split | dsimp only
    | with_reducible refine Keeps.upd ?_ rfl rfl rfl

theorem superviseModel_keeps {z : State} {s : State} {c : Fin 16} {ip : Int} (hz : Keeps z s) : Keeps z
    (superviseModel s c ip) := by
  unfold superviseModel
  repeat' first
    | with_reducible assumption | with_reducible apply updCh_keeps | split | dsimp only
    | with_reducible refine Keeps.upd ?_ rfl rfl rfl

theorem superviseMember_keeps {z : State} {c : Fin 16} {s : State} {d : Fin 16} (hz : Keeps z s) : Keeps z
    (superviseMember c s d) := by
  unfold superviseMember
  repeat' first
    | with_reducible assumption | with_reducible apply updCh_keeps | with_reducible apply Keeps.ite | split
    | dsimp only

theorem supervise_keeps {z : State} {s : State} {c : Fin 16} {ip : Int} (hz : Keeps z s) : Keeps z
    (supervise s c ip) := by
  unfold supervise
  repeat' first
    | with_reducible assumption | (with_reducible apply Keeps.foldl; rotate_left; intro _ _ _)
    | with_reducible apply superviseModel_keeps | with_reducible apply superviseMember_keeps | split | dsimp only

theorem reportSample_keeps {z : State} {s : State} {c : Fin 16} {o : SampleOut} (hz : Keeps z s) : Keeps z
    (reportSample s c o) := by
  unfold reportSample
  repeat' first
    | with_reducible assumption | (with_reducible apply Keeps.foldl; rotate_left; intro _ _ _)
    | with_reducible apply updCh_keeps | with_reducible apply queueEvent_keeps | with_reducible apply queueOnce_keeps
    | with_reducible apply Keeps.ite | split | dsimp only | with_reducible refine Keeps.upd ?_ rfl rfl rfl

theorem countBurst_keeps {z : State} {s : State} {c : Fin 16} (hz : Keeps z s) : Keeps z (countBurst s c) := by
  unfold countBurst
  repeat' first
    | with_reducible assumption | with_reducible apply updCh_keeps | with_reducible apply Keeps.ite | split
    | dsimp only | with_reducible refine Keeps.upd ?_ rfl rfl rfl

theorem runSample_keeps {z : State} {s : State} {c : Fin 16} (hz : Keeps z s) : Keeps z (runSample s c) := by
  unfold runSample
  repeat' first
    | with_reducible assumption | with_reducible apply updCh_keeps | with_reducible apply openSample_keeps
    | with_reducible apply distribute_keeps | with_reducible apply excite_keeps | with_reducible apply supervise_keeps
    | with_reducible apply reportSample_keeps | split | dsimp only

theorem idleLegs_keeps {z : State} {s : State} {c : Fin 16} (hz : Keeps z s) : Keeps z (idleLegs s c) := by
  unfold idleLegs
  repeat' first
    | with_reducible assumption | with_reducible apply updLeg_keeps | with_reducible apply Keeps.ite | split
    | dsimp only | with_reducible refine Keeps.upd ?_ rfl rfl rfl

theorem sampleIdle_keeps {z : State} {s : State} {c : Fin 16} (hz : Keeps z s) : Keeps z (sampleIdle s c) := by
  unfold sampleIdle
  repeat' first
    | with_reducible assumption | (with_reducible apply Keeps.foldl; rotate_left; intro _ _ _)
    | with_reducible apply updCh_keeps | with_reducible apply updLeg_keeps | with_reducible apply supervise_keeps
    | split | dsimp only

theorem sampleLeader_keeps {z : State} {s : State} {c : Fin 16} (hz : Keeps z s) : Keeps z (sampleLeader s c) := by
  unfold sampleLeader
  repeat' first
    | with_reducible assumption | (with_reducible apply Keeps.foldl; rotate_left; intro _ _ _)
    | with_reducible apply updCh_keeps | with_reducible apply exciteNone_keeps | with_reducible apply runSample_keeps
    | with_reducible apply sampleIdle_keeps | with_reducible apply Keeps.ite | split | dsimp only
    | with_reducible refine Keeps.upd ?_ rfl rfl rfl

theorem samples_keeps {z : State} {s : State} (hz : Keeps z s) : Keeps z (samples s) := by
  unfold samples
  repeat' first
    | with_reducible assumption | (with_reducible apply Keeps.foldl; rotate_left; intro _ _ _)
    | with_reducible apply updCh_keeps | with_reducible apply exciteNone_keeps | with_reducible apply countBurst_keeps
    | with_reducible apply idleLegs_keeps | with_reducible apply sampleLeader_keeps | with_reducible apply Keeps.ite
    | split | dsimp only

end Sys2Proof.Safety
end

