-- ==== Sys2Proof/Laws/KeepsCommits.lean ====
section
/-! SUPPORT. What the operations of Machine/Commits.lean keep. -/
namespace Sys2Proof.Safety

open Sys2Proof.Machine

set_option simprocs false

theorem startBurst_keeps {z : State} {vs : Int} {s : State} {c : Fin 16} (hz : Keeps z s) : Keeps z
    (startBurst vs s c) := by
  unfold startBurst
  repeat' first
    | with_reducible assumption | with_reducible apply updCh_keeps | with_reducible apply burstStart_keeps
    | with_reducible apply Keeps.ite | split | dsimp only | with_reducible refine Keeps.upd ?_ rfl rfl rfl

theorem holdArmed_keeps {z : State} {s : State} {c : Fin 16} {cause : Nat} (hz : Keeps z s) : Keeps z
    (holdArmed s c cause) := by
  unfold holdArmed
  repeat' first
    | with_reducible assumption | (with_reducible apply Keeps.foldl; rotate_left; intro _ _ _)
    | with_reducible apply updCh_keeps | with_reducible apply holdProgram_keeps
    | with_reducible apply moveChannel_keeps | split | dsimp only

theorem startRun_keeps {z : State} {s : State} {c : Fin 16} (hz : Keeps z s) : Keeps z (startRun s c) := by
  unfold startRun
  repeat' first
    | with_reducible assumption | (with_reducible apply Keeps.foldl; rotate_left; intro _ _ _)
    | with_reducible apply updCh_keeps | with_reducible apply runGang_keeps | with_reducible apply joinStalemate_keeps
    | with_reducible apply startBurst_keeps | with_reducible apply holdArmed_keeps | with_reducible apply Keeps.ite
    | split | dsimp only | with_reducible refine Keeps.upd ?_ rfl rfl rfl

theorem startHost_keeps {z : State} {s : State} {c : Fin 16} (hz : Keeps z s) : Keeps z (startHost s c) := by
  unfold startHost
  repeat' first
    | with_reducible assumption | with_reducible apply startRun_keeps | with_reducible apply Keeps.ite | split
    | dsimp only

theorem startProgram_keeps {z : State} {s : State} {c : Fin 16} (hz : Keeps z s) : Keeps z (startProgram s c) := by
  unfold startProgram
  repeat' first
    | with_reducible assumption | with_reducible apply updProg_keeps | with_reducible apply endProgram_keeps
    | with_reducible apply setStepTargets_keeps | with_reducible apply startStep_keeps
    | with_reducible apply stopGang_keeps | with_reducible apply startRun_keeps | with_reducible apply Keeps.ite
    | split | dsimp only | with_reducible refine Keeps.upd ?_ rfl rfl rfl

theorem holdDue_keeps {z : State} {s : State} {c : Fin 16} (hz : Keeps z s) : Keeps z (holdDue s c) := by
  unfold holdDue
  repeat' first
    | with_reducible assumption | (with_reducible apply Keeps.foldl; rotate_left; intro _ _ _)
    | with_reducible apply holdProgram_keeps | with_reducible apply holdChannel_keeps | with_reducible apply Keeps.ite
    | split | dsimp only

theorem resumeDue_keeps {z : State} {s : State} {c : Fin 16} (hz : Keeps z s) : Keeps z (resumeDue s c) := by
  unfold resumeDue
  repeat' first
    | with_reducible assumption | with_reducible apply resumeProgram_keeps | with_reducible apply joinStalemate_keeps
    | with_reducible apply startRun_keeps | with_reducible apply Keeps.ite | split | dsimp only

theorem replyChange_keeps {z : State} {s : State} {x : Staged} {st : Byte} {payload : List Byte}
    (hz : Keeps z s) : Keeps z (replyChange s x st payload) := by
  unfold replyChange
  repeat' first
    | with_reducible assumption | with_reducible apply reply_keeps | split | dsimp only

theorem overMask_keeps {z s : State} {m : Mask} {f : State → Fin 16 → State} (hz : Keeps z s)
    (hf : ∀ t c, Keeps z t → Keeps z (f t c)) : Keeps z (overMask s m f) := Keeps.foldl hz hf

theorem commitMask_keeps {z s : State} {x : Staged} {m : Mask} {f : State → Fin 16 → State} (hz : Keeps z s)
    (hf : ∀ t c, Keeps z t → Keeps z (f t c)) : Keeps z (commitMask s x m f) := replyChange_keeps (overMask_keeps hz hf)

theorem commitStarts_keeps {z s : State} {x : Staged} {m : Mask} {f : State → Fin 16 → State} (hz : Keeps z s)
    (hf : ∀ t c, Keeps z t → Keeps z (f t c)) : Keeps z (commitStarts s x m f) := by
  unfold commitStarts
  dsimp only
  split
  · exact replyChange_keeps hz
  · exact commitMask_keeps hz hf

theorem commitGang_keeps {z : State} {s : State} {g : Fin 4} {v : BitVec 3} (hz : Keeps z s) : Keeps z
    (commitGang s g v) := by
  unfold commitGang
  repeat' first
    | with_reducible assumption | with_reducible apply updGrp_keeps | with_reducible apply queueEvent_keeps
    | with_reducible apply Keeps.ite | split | dsimp only | with_reducible refine Keeps.upd ?_ rfl rfl rfl

theorem commitSet_keeps {z : State} {s : State} {x : Staged} {c : Fin 16} {sel : BitVec 4}
    {iset vset iramp vramp : Word} (hz : Keeps z s) : Keeps z (commitSet s x c sel iset vset iramp vramp) := by
  unfold commitSet
  repeat' first
    | with_reducible assumption | with_reducible apply commitSetpoint_keeps | with_reducible apply startHost_keeps
    | with_reducible apply replyChange_keeps | split | dsimp only

theorem commitMark_keeps {z : State} {s : State} {x : Staged} {c : Fin 16} {data : List Byte}
    (hz : Keeps z s) : Keeps z (commitMark s x c data) := by
  unfold commitMark
  repeat' first
    | with_reducible assumption | with_reducible apply writeRecord_keeps | with_reducible apply replyChange_keeps
    | with_reducible apply Keeps.ite | split | dsimp only

theorem commitClearLatch_keeps {z : State} {s : State} {x : Staged} {m : Mask} (hz : Keeps z s) : Keeps z
    (commitClearLatch s x m) := by
  unfold commitClearLatch
  repeat' first
    | with_reducible assumption | with_reducible apply clearLatches_keeps | with_reducible apply replyChange_keeps
    | with_reducible apply Keeps.ite | split | dsimp only

theorem applyChange_keeps {z s : State} {x : Staged} (hz : Keeps z s) : Keeps z (applyChange s x) := by
  unfold applyChange
  split
  · exact hz
  · exact hz
  · exact commitSet_keeps hz
  · split
    · exact commitPulse_keeps hz
    · exact hz
  · exact commitStarts_keeps hz fun _ _ h => commitArm_keeps h
  · exact commitMask_keeps hz fun _ _ h => commitStop_keeps h
  · exact commitMask_keeps hz fun _ _ h => commitHold_keeps h
  · exact commitStarts_keeps hz fun _ _ h => commitResume_keeps h
  · exact commitMask_keeps hz fun _ _ h => commitClear_keeps h
  · exact commitMask_keeps hz fun _ _ h => commitHand_keeps h
  · exact commitStarts_keeps hz fun _ _ h => commitStart_keeps h
  · exact commitMask_keeps hz fun _ _ h => commitAbort_keeps h
  · exact commitMark_keeps hz
  · exact commitClearLatch_keeps hz
  · exact takeSource_keeps hz
  · exact hz
  · exact hz

theorem refuseChange_keeps {z : State} {s : State} {x : Staged} (hz : Keeps z s) : Keeps z (refuseChange s x) := by
  unfold refuseChange
  repeat' first
    | with_reducible assumption | with_reducible apply replyChange_keeps | split | dsimp only
    | with_reducible refine Keeps.upd ?_ rfl rfl rfl

theorem commitLater_keeps {z : State} {s : State} {x : Staged} (hz : Keeps z s) : Keeps z (commitLater s x) := by
  unfold commitLater
  repeat' first
    | with_reducible assumption | with_reducible apply holdFailed_keeps | with_reducible apply applyChange_keeps
    | with_reducible apply refuseChange_keeps | with_reducible apply Keeps.ite | split | dsimp only

theorem commitIfMode_keeps {z : State} {s : State} {x : Staged} (hz : Keeps z s) : Keeps z (commitIfMode s x) := by
  unfold commitIfMode
  repeat' first
    | with_reducible assumption | with_reducible apply commitMode_keeps | split | dsimp only

theorem commitIfGang_keeps {z : State} {s : State} {x : Staged} (hz : Keeps z s) : Keeps z (commitIfGang s x) := by
  unfold commitIfGang
  repeat' first
    | with_reducible assumption | with_reducible apply holdFailed_keeps | with_reducible apply commitGang_keeps
    | split | dsimp only

theorem whileRunning_keeps {z s : State} {f : State → State} (hz : Keeps z s)
    (hf : ∀ t, Keeps z t → Keeps z (f t)) : Keeps z (whileRunning s f) := by
  unfold whileRunning
  split
  · exact hf s hz
  · exact hz

theorem commitStaged_keeps {z s : State} (hz : Keeps z s) : Keeps z (commitStaged s) := by
  unfold commitStaged
  extract_lets ready later t rest u
  have ht : Keeps z t := Keeps.upd hz rfl rfl rfl
  have hu : Keeps z u := Keeps.foldl ht fun _ _ h => commitIfMode_keeps h
  exact Keeps.ite (Keeps.foldl hu fun _ _ h => refuseChange_keeps h)
    (whileRunning_keeps hu fun t ht =>
      Keeps.foldl (Keeps.foldl ht fun _ _ h => commitIfGang_keeps h) fun _ _ h => commitLater_keeps h)

theorem castleWait_keeps {z : State} {s : State} {g : Fin 4} (hz : Keeps z s) : Keeps z (castleWait s g) := by
  unfold castleWait
  repeat' first
    | with_reducible assumption | with_reducible apply updGrp_keeps | with_reducible apply Keeps.ite | split
    | dsimp only | with_reducible refine Keeps.upd ?_ rfl rfl rfl

theorem castleDue_keeps {z : State} {s : State} {g : Fin 4} (hz : Keeps z s) : Keeps z (castleDue s g) := by
  unfold castleDue
  repeat' first
    | with_reducible assumption | with_reducible apply abortCastle_keeps | with_reducible apply commitCastle_keeps
    | with_reducible apply holdGroup_keeps | with_reducible apply turnUnplanned_keeps
    | with_reducible apply castleWait_keeps | with_reducible apply Keeps.ite | split | dsimp only

theorem rerunCandidate_keeps {z : State} {s : State} (hz : Keeps z s) : Keeps z (rerunCandidate s) := by
  unfold rerunCandidate
  repeat' first
    | with_reducible assumption | with_reducible apply startBist_keeps | with_reducible apply Keeps.ite | split
    | dsimp only

theorem commitAll_keeps {z : State} {s : State} (hz : Keeps z s) : Keeps z (commitAll s) := by
  unfold commitAll
  repeat' first
    | with_reducible assumption | (with_reducible apply Keeps.foldl; rotate_left; intro _ _ _)
    | with_reducible apply adoptGroup_keeps | with_reducible apply laneAdvance_keeps
    | with_reducible apply commitStaged_keeps | with_reducible apply castleWait_keeps
    | with_reducible apply castleDue_keeps | with_reducible apply Keeps.ite | split | dsimp only

theorem commits_keeps {z s : State} (hz : Keeps z s) : Keeps z (commits s) :=
  whileRunning_keeps (commitAll_keeps hz) fun _ h => commitAllow_keeps (commitGuard_keeps (commitLink_keeps h))

theorem channelsDue_keeps {z : State} {s : State} (hz : Keeps z s) : Keeps z (channelsDue s) := by
  unfold channelsDue
  repeat' first
    | with_reducible assumption | (with_reducible apply Keeps.foldl; rotate_left; intro _ _ _)
    | with_reducible apply endRestart_keeps | with_reducible apply applyStops_keeps
    | with_reducible apply refreshAllow_keeps | with_reducible apply ringCheck_keeps
    | with_reducible apply startProgram_keeps | with_reducible apply holdDue_keeps
    | with_reducible apply resumeDue_keeps | with_reducible apply rerunCandidate_keeps | split | dsimp only

end Sys2Proof.Safety
end

