-- ==== Sys2Proof/Laws/KeepsBoundary.lean ====
section
/-! SUPPORT. What the operations of Machine/Boundary.lean keep. -/
namespace Sys2Proof.Safety

open Sys2Proof.Machine

set_option simprocs false

theorem periodsOf_keeps {z : State} {ns : Nat} {s : State} {l : Fin 32} (hz : Keeps z s) : Keeps z
    (periodsOf ns s l).2 := by
  unfold periodsOf
  repeat' first
    | with_reducible assumption | with_reducible apply drawFree_keeps | with_reducible apply restart_keeps
    | with_reducible apply Keeps.ite | with_reducible apply Keeps.iteSnd | split | dsimp only

theorem countPeriods_keeps {z : State} {ns : Nat} {s : State} {l : Fin 32} (hz : Keeps z s) : Keeps z
    (countPeriods ns s l) := by
  unfold countPeriods
  repeat' first
    | with_reducible assumption | with_reducible apply updLeg_keeps | with_reducible apply drawFree_keeps
    | with_reducible apply addPeriods_keeps | with_reducible apply periodsOf_keeps | with_reducible apply Keeps.ite
    | split | dsimp only | with_reducible refine Keeps.upd ?_ rfl rfl rfl

theorem closeEngine_keeps {z : State} {w : EpochWords} {ns : Nat} {s : State} {k : Fin 5} (hz : Keeps z s) : Keeps z
    (closeEngine w ns s k) := by
  unfold closeEngine
  repeat' first
    | with_reducible assumption | with_reducible apply updCe_keeps | with_reducible apply Keeps.ite | split
    | dsimp only

theorem closeIslands_keeps {z : State} {s : State} (hz : Keeps z s) : Keeps z (closeIslands s) := by
  unfold closeIslands
  repeat' first
    | with_reducible assumption | with_reducible apply Keeps.ite | split | dsimp only
    | with_reducible refine Keeps.upd ?_ rfl rfl rfl

theorem advanceScrub_keeps {z s : State} {ns : Nat} (hz : Keeps z s) : Keeps z (advanceScrub ns s) := by
  unfold advanceScrub
  generalize scrubWords = n
  extract_lets _ _ _ _ _ _ t _ u
  have ht : Keeps z t := Keeps.upd hz rfl rfl rfl
  have hu : Keeps z u := recordTest_keeps (Keeps.upd ht rfl rfl rfl)
  clear_value t u
  exact Keeps.ite ht (Keeps.upd hu rfl rfl rfl)

theorem closeBalance_keeps {z : State} {ns : Nat} {s : State} {c : Fin 16} (hz : Keeps z s) : Keeps z
    (closeBalance ns s c) := by
  unfold closeBalance
  repeat' first
    | with_reducible assumption | with_reducible apply updCh_keeps | with_reducible apply updLeg_keeps
    | with_reducible apply drawFree_keeps | with_reducible apply Keeps.ite | split | dsimp only

theorem closeEpoch_keeps {z : State} {w : EpochWords} {ns : Nat} {s : State} (hz : Keeps z s) : Keeps z
    (closeEpoch w ns s) := by
  unfold closeEpoch
  repeat' first
    | with_reducible assumption | (with_reducible apply Keeps.foldl; rotate_left; intro _ _ _)
    | with_reducible apply advanceTime_keeps | with_reducible apply advanceCheck_keeps
    | with_reducible apply countPeriods_keeps | with_reducible apply closeEngine_keeps
    | with_reducible apply closeIslands_keeps | with_reducible apply advanceScrub_keeps
    | with_reducible apply closeBalance_keeps | with_reducible apply Keeps.ite | split | dsimp only
    | with_reducible refine Keeps.upd ?_ rfl rfl rfl

theorem flushEvents_keeps {z : State} {s : State} (hz : Keeps z s) : Keeps z (flushEvents s) := by
  unfold flushEvents
  repeat' first
    | with_reducible assumption | (with_reducible apply Keeps.foldl; rotate_left; intro _ _ _)
    | with_reducible apply commitEvent_keeps | with_reducible apply Keeps.ite | split | dsimp only
    | with_reducible refine Keeps.upd ?_ rfl rfl rfl

theorem flushRecords_keeps {z : State} {s : State} (hz : Keeps z s) : Keeps z (flushRecords s) := by
  unfold flushRecords
  repeat' first
    | with_reducible assumption | (with_reducible apply Keeps.foldl; rotate_left; intro _ _ _)
    | with_reducible apply writeRecord_keeps | with_reducible apply Keeps.ite | split | dsimp only
    | with_reducible refine Keeps.upd ?_ rfl rfl rfl

theorem eventsFirst_keeps {z s : State} {f : State → State} (hz : Keeps z s)
    (hf : ∀ t, Keeps z t → Keeps z (f t)) : Keeps z (eventsFirst f s) := by
  have hk := hf _ (Keeps.upd hz rfl rfl rfl : Keeps z { s with evq := { s.evq with pend := [] } })
  unfold eventsFirst
  generalize f { s with evq := { s.evq with pend := [] } } = t at hk
  exact Keeps.upd hk rfl rfl rfl

theorem openEpoch_keeps {z : State} {s : State} (hz : Keeps z s) : Keeps z (openEpoch s) := by
  unfold openEpoch
  repeat' first
    | with_reducible assumption | with_reducible apply Keeps.ite | split | dsimp only
    | with_reducible refine Keeps.upd ?_ rfl rfl rfl

theorem measInForce_keeps {z : State} {s : State} {c : Fin 16} (hz : Keeps z s) : Keeps z (measInForce s c) := by
  unfold measInForce
  repeat' first
    | with_reducible assumption | (with_reducible apply Keeps.foldl; rotate_left; intro _ _ _)
    | with_reducible apply updCh_keeps | with_reducible apply restartWindow_keeps | with_reducible apply Keeps.ite
    | split | dsimp only | with_reducible refine Keeps.upd ?_ rfl rfl rfl

theorem registersInForce_keeps {z : State} {s : State} (hz : Keeps z s) : Keeps z (registersInForce s) := by
  unfold registersInForce
  repeat' first
    | with_reducible assumption | (with_reducible apply Keeps.foldl; rotate_left; intro _ _ _)
    | with_reducible apply measInForce_keeps | with_reducible apply Keeps.ite | split | dsimp only
    | with_reducible refine Keeps.upd ?_ rfl rfl rfl

theorem clearAccumulators_keeps {z : State} {s : State} {c : Fin 16} (hz : Keeps z s) : Keeps z
    (clearAccumulators s c) := by
  unfold clearAccumulators
  repeat' first
    | with_reducible assumption | with_reducible apply updCh_keeps | with_reducible apply queueEvent_keeps
    | with_reducible apply Keeps.ite | split | dsimp only | with_reducible refine Keeps.upd ?_ rfl rfl rfl

theorem stampRecords_keeps {z : State} {s : State} (hz : Keeps z s) : Keeps z (stampRecords s) := by
  unfold stampRecords
  repeat' first
    | with_reducible assumption | split | dsimp only | with_reducible refine Keeps.upd ?_ rfl rfl rfl

theorem logWords_keeps {z : State} {w : EpochWords} {s : State} (hz : Keeps z s) : Keeps z (logWords w s) := by
  unfold logWords
  repeat' first
    | with_reducible assumption | split | dsimp only | with_reducible refine Keeps.upd ?_ rfl rfl rfl

theorem gatherClaim_keeps {z : State} {s : State} {c : Fin 16} (hz : Keeps z s) : Keeps z (gatherClaim s c) := by
  unfold gatherClaim
  repeat' first
    | with_reducible assumption | with_reducible apply updCh_keeps | split | dsimp only
    | with_reducible refine Keeps.upd ?_ rfl rfl rfl

theorem deliver_keeps {z : State} {w : EpochWords} {ns : Nat} {s : State} (hz : Keeps z s) : Keeps z
    (deliver w ns s) := by
  unfold deliver
  repeat' first
    | with_reducible assumption | (with_reducible apply Keeps.foldl; rotate_left; intro _ _ _)
    | with_reducible apply cpCompare_keeps | with_reducible apply deliverWords_keeps
    | with_reducible apply countEpoch_keeps | with_reducible apply flushRecords_keeps
    | with_reducible apply clearAccumulators_keeps | with_reducible apply logWords_keeps
    | with_reducible apply gatherClaim_keeps | split | dsimp only

theorem stopEnded_keeps {z : State} {l : List (Fin 16)} {s : State} (hz : Keeps z s) : Keeps z (stopEnded l s) := by
  unfold stopEnded
  repeat' first
    | with_reducible assumption | (with_reducible apply Keeps.foldl; rotate_left; intro _ _ _)
    | with_reducible apply stopGang_keeps | split | dsimp only

theorem change_keeps {z s : State} {l : List (Fin 16)} (hz : Keeps z s) : Keeps z (change l s) := by
  unfold change
  extract_lets u v e _ w
  have hu : Keeps z u := stopEnded_keeps (registersInForce_keeps hz)
  clear_value u
  have hv : Keeps z v := Keeps.ite (applySafeCfg_keeps hu) hu
  clear_value v
  have hw : Keeps z w := commits_keeps (Keeps.upd hv rfl rfl rfl)
  clear_value w
  exact whileRunning_keeps hw fun _ h => stampRecords_keeps (channelsDue_keeps (Keeps.upd h rfl rfl rfl))

theorem work_keeps {z : State} {s : State} (hz : Keeps z s) : Keeps z (work s) := by
  unfold work
  repeat' first
    | with_reducible assumption | (with_reducible apply Keeps.foldl; rotate_left; intro _ _ _)
    | with_reducible apply refreshAllow_keeps | with_reducible apply linkEpoch_keeps
    | with_reducible apply takeSnap_keeps | with_reducible apply invalidWord_keeps
    | with_reducible apply markLive_keeps | with_reducible apply samples_keeps | split | dsimp only
    | with_reducible refine Keeps.upd ?_ rfl rfl rfl

theorem runBoundary_keeps {z s : State} {w : EpochWords} {ns : Nat} (hz : Keeps z s) : Keeps z (runBoundary w ns s) :=
  whileRunning_keeps
    (eventsFirst_keeps (deliver_keeps (openEpoch_keeps (flushEvents_keeps (stepEndsDue_keeps (closeEpoch_keeps hz)))))
      fun _ h => change_keeps h)
    fun _ h => work_keeps h

theorem boundary_keeps {z : State} {w : EpochWords} {s : State} (hz : Keeps z s) : Keeps z (boundary w s) := by
  unfold boundary
  repeat' first
    | with_reducible assumption | with_reducible apply settleDue_keeps | with_reducible apply runBoundary_keeps
    | with_reducible apply Keeps.ite | split | dsimp only | with_reducible refine Keeps.upd ?_ rfl rfl rfl

theorem execEpochBoundary_keeps {w : EpochWords} {s : State} {t : State}
    (hz : execEpochBoundary w s = .next t) : Keeps s t := by
  unfold execEpochBoundary at hz
  obtain rfl := Host.Outcome.next.inj hz
  clear hz
  have hz := Keeps.refl s
  repeat' first
    | with_reducible assumption | with_reducible apply boundary_keeps | with_reducible apply Keeps.ite
    | with_reducible apply Keeps.iteFst | with_reducible intro _ _ _ | split | dsimp only

end Sys2Proof.Safety
end

