-- ==== Sys2Proof/Laws/KeepsInterpreter.lean ====
section
/-! SUPPORT. What the operations of Machine/Interpreter.lean keep. -/
namespace Sys2Proof.Safety

open Sys2Proof.Machine

set_option simprocs false

theorem refuseRequest_keeps {z : State} {s : State} {r : Request} {length : Bool} (hz : Keeps z s) : Keeps z
    (refuseRequest s r length) := by
  unfold refuseRequest
  repeat' first
    | with_reducible assumption | with_reducible apply reply_keeps | with_reducible apply takeOldest_keeps
    | with_reducible apply Keeps.ite | split | dsimp only

end Sys2Proof.Safety
end

