-- ==== Sys2Proof/Laws/State.lean ====
section
/-! SUPPORT. What an update of one part of the state leaves as it was: one lemma for each field and each update. -/
namespace Sys2Proof.Machine

@[simp] theorem State.updCh_sys (s : State) (c : Fin 16) (f : Chan → Chan) : (s.updCh c f).sys = s.sys := rfl
@[simp] theorem State.updCh_ch (s : State) (c : Fin 16) (f : Chan → Chan) : (s.updCh c f).ch = vmod s.ch c f := rfl
@[simp] theorem State.updCh_leg (s : State) (c : Fin 16) (f : Chan → Chan) : (s.updCh c f).leg = s.leg := rfl
@[simp] theorem State.updCh_grp (s : State) (c : Fin 16) (f : Chan → Chan) : (s.updCh c f).grp = s.grp := rfl
@[simp] theorem State.updCh_ce (s : State) (c : Fin 16) (f : Chan → Chan) : (s.updCh c f).ce = s.ce := rfl
@[simp] theorem State.updCh_staged (s : State) (c : Fin 16) (f : Chan → Chan) : (s.updCh c f).staged = s.staged := rfl
@[simp] theorem State.updCh_recs (s : State) (c : Fin 16) (f : Chan → Chan) : (s.updCh c f).recs = s.recs := rfl
@[simp] theorem State.updCh_evq (s : State) (c : Fin 16) (f : Chan → Chan) : (s.updCh c f).evq = s.evq := rfl
@[simp] theorem State.updCh_port (s : State) (c : Fin 16) (f : Chan → Chan) : (s.updCh c f).port = s.port := rfl
@[simp] theorem State.updCh_sticky (s : State) (c : Fin 16) (f : Chan → Chan) : (s.updCh c f).sticky = s.sticky := rfl
@[simp] theorem State.updCh_nvm (s : State) (c : Fin 16) (f : Chan → Chan) : (s.updCh c f).nvm = s.nvm := rfl
@[simp] theorem State.updCh_safe (s : State) (c : Fin 16) (f : Chan → Chan) : (s.updCh c f).safe = s.safe := rfl
@[simp] theorem State.updCh_therm (s : State) (c : Fin 16) (f : Chan → Chan) : (s.updCh c f).therm = s.therm := rfl
@[simp] theorem State.updCh_link (s : State) (c : Fin 16) (f : Chan → Chan) : (s.updCh c f).link = s.link := rfl
@[simp] theorem State.updCh_meas (s : State) (c : Fin 16) (f : Chan → Chan) : (s.updCh c f).meas = s.meas := rfl
@[simp] theorem State.updCh_can (s : State) (c : Fin 16) (f : Chan → Chan) : (s.updCh c f).can = s.can := rfl
@[simp] theorem State.updCh_dma (s : State) (c : Fin 16) (f : Chan → Chan) : (s.updCh c f).dma = s.dma := rfl
@[simp] theorem State.updCh_dmaLast (s : State) (c : Fin 16) (f : Chan → Chan) : (s.updCh c f).dmaLast = s.dmaLast := rfl
@[simp] theorem State.updCh_isl (s : State) (c : Fin 16) (f : Chan → Chan) : (s.updCh c f).isl = s.isl := rfl
@[simp] theorem State.updCh_aux (s : State) (c : Fin 16) (f : Chan → Chan) : (s.updCh c f).aux = s.aux := rfl
@[simp] theorem State.updCh_tap (s : State) (c : Fin 16) (f : Chan → Chan) : (s.updCh c f).tap = s.tap := rfl
@[simp] theorem State.updCh_mem (s : State) (c : Fin 16) (f : Chan → Chan) : (s.updCh c f).mem = s.mem := rfl
@[simp] theorem State.updCh_pending (s : State) (c : Fin 16) (f : Chan → Chan) : (s.updCh c f).pending = s.pending := rfl

@[simp] theorem State.updLeg_sys (s : State) (l : Fin 32) (f : Leg → Leg) : (s.updLeg l f).sys = s.sys := rfl
@[simp] theorem State.updLeg_ch (s : State) (l : Fin 32) (f : Leg → Leg) : (s.updLeg l f).ch = s.ch := rfl
@[simp] theorem State.updLeg_leg (s : State) (l : Fin 32) (f : Leg → Leg) : (s.updLeg l f).leg = vmod s.leg l f := rfl
@[simp] theorem State.updLeg_grp (s : State) (l : Fin 32) (f : Leg → Leg) : (s.updLeg l f).grp = s.grp := rfl
@[simp] theorem State.updLeg_ce (s : State) (l : Fin 32) (f : Leg → Leg) : (s.updLeg l f).ce = s.ce := rfl
@[simp] theorem State.updLeg_staged (s : State) (l : Fin 32) (f : Leg → Leg) : (s.updLeg l f).staged = s.staged := rfl
@[simp] theorem State.updLeg_recs (s : State) (l : Fin 32) (f : Leg → Leg) : (s.updLeg l f).recs = s.recs := rfl
@[simp] theorem State.updLeg_evq (s : State) (l : Fin 32) (f : Leg → Leg) : (s.updLeg l f).evq = s.evq := rfl
@[simp] theorem State.updLeg_port (s : State) (l : Fin 32) (f : Leg → Leg) : (s.updLeg l f).port = s.port := rfl
@[simp] theorem State.updLeg_sticky (s : State) (l : Fin 32) (f : Leg → Leg) : (s.updLeg l f).sticky = s.sticky := rfl
@[simp] theorem State.updLeg_nvm (s : State) (l : Fin 32) (f : Leg → Leg) : (s.updLeg l f).nvm = s.nvm := rfl
@[simp] theorem State.updLeg_safe (s : State) (l : Fin 32) (f : Leg → Leg) : (s.updLeg l f).safe = s.safe := rfl
@[simp] theorem State.updLeg_therm (s : State) (l : Fin 32) (f : Leg → Leg) : (s.updLeg l f).therm = s.therm := rfl
@[simp] theorem State.updLeg_link (s : State) (l : Fin 32) (f : Leg → Leg) : (s.updLeg l f).link = s.link := rfl
@[simp] theorem State.updLeg_meas (s : State) (l : Fin 32) (f : Leg → Leg) : (s.updLeg l f).meas = s.meas := rfl
@[simp] theorem State.updLeg_can (s : State) (l : Fin 32) (f : Leg → Leg) : (s.updLeg l f).can = s.can := rfl
@[simp] theorem State.updLeg_dma (s : State) (l : Fin 32) (f : Leg → Leg) : (s.updLeg l f).dma = s.dma := rfl
@[simp] theorem State.updLeg_dmaLast (s : State) (l : Fin 32) (f : Leg → Leg) : (s.updLeg l f).dmaLast = s.dmaLast := rfl
@[simp] theorem State.updLeg_isl (s : State) (l : Fin 32) (f : Leg → Leg) : (s.updLeg l f).isl = s.isl := rfl
@[simp] theorem State.updLeg_aux (s : State) (l : Fin 32) (f : Leg → Leg) : (s.updLeg l f).aux = s.aux := rfl
@[simp] theorem State.updLeg_tap (s : State) (l : Fin 32) (f : Leg → Leg) : (s.updLeg l f).tap = s.tap := rfl
@[simp] theorem State.updLeg_mem (s : State) (l : Fin 32) (f : Leg → Leg) : (s.updLeg l f).mem = s.mem := rfl
@[simp] theorem State.updLeg_pending (s : State) (l : Fin 32) (f : Leg → Leg) : (s.updLeg l f).pending = s.pending := rfl

@[simp] theorem State.updGrp_sys (s : State) (g : Fin 4) (f : Group → Group) : (s.updGrp g f).sys = s.sys := rfl
@[simp] theorem State.updGrp_ch (s : State) (g : Fin 4) (f : Group → Group) : (s.updGrp g f).ch = s.ch := rfl
@[simp] theorem State.updGrp_leg (s : State) (g : Fin 4) (f : Group → Group) : (s.updGrp g f).leg = s.leg := rfl
@[simp] theorem State.updGrp_grp (s : State) (g : Fin 4) (f : Group → Group) : (s.updGrp g f).grp = vmod s.grp g f := rfl
@[simp] theorem State.updGrp_ce (s : State) (g : Fin 4) (f : Group → Group) : (s.updGrp g f).ce = s.ce := rfl
@[simp] theorem State.updGrp_staged (s : State) (g : Fin 4) (f : Group → Group) : (s.updGrp g f).staged = s.staged := rfl
@[simp] theorem State.updGrp_recs (s : State) (g : Fin 4) (f : Group → Group) : (s.updGrp g f).recs = s.recs := rfl
@[simp] theorem State.updGrp_evq (s : State) (g : Fin 4) (f : Group → Group) : (s.updGrp g f).evq = s.evq := rfl
@[simp] theorem State.updGrp_port (s : State) (g : Fin 4) (f : Group → Group) : (s.updGrp g f).port = s.port := rfl
@[simp] theorem State.updGrp_sticky (s : State) (g : Fin 4) (f : Group → Group) : (s.updGrp g f).sticky = s.sticky := rfl
@[simp] theorem State.updGrp_nvm (s : State) (g : Fin 4) (f : Group → Group) : (s.updGrp g f).nvm = s.nvm := rfl
@[simp] theorem State.updGrp_safe (s : State) (g : Fin 4) (f : Group → Group) : (s.updGrp g f).safe = s.safe := rfl
@[simp] theorem State.updGrp_therm (s : State) (g : Fin 4) (f : Group → Group) : (s.updGrp g f).therm = s.therm := rfl
@[simp] theorem State.updGrp_link (s : State) (g : Fin 4) (f : Group → Group) : (s.updGrp g f).link = s.link := rfl
@[simp] theorem State.updGrp_meas (s : State) (g : Fin 4) (f : Group → Group) : (s.updGrp g f).meas = s.meas := rfl
@[simp] theorem State.updGrp_can (s : State) (g : Fin 4) (f : Group → Group) : (s.updGrp g f).can = s.can := rfl
@[simp] theorem State.updGrp_dma (s : State) (g : Fin 4) (f : Group → Group) : (s.updGrp g f).dma = s.dma := rfl
@[simp] theorem State.updGrp_dmaLast (s : State) (g : Fin 4) (f : Group → Group) : (s.updGrp g f).dmaLast = s.dmaLast := rfl
@[simp] theorem State.updGrp_isl (s : State) (g : Fin 4) (f : Group → Group) : (s.updGrp g f).isl = s.isl := rfl
@[simp] theorem State.updGrp_aux (s : State) (g : Fin 4) (f : Group → Group) : (s.updGrp g f).aux = s.aux := rfl
@[simp] theorem State.updGrp_tap (s : State) (g : Fin 4) (f : Group → Group) : (s.updGrp g f).tap = s.tap := rfl
@[simp] theorem State.updGrp_mem (s : State) (g : Fin 4) (f : Group → Group) : (s.updGrp g f).mem = s.mem := rfl
@[simp] theorem State.updGrp_pending (s : State) (g : Fin 4) (f : Group → Group) : (s.updGrp g f).pending = s.pending := rfl

@[simp] theorem State.updCe_sys (s : State) (k : Fin 5) (f : Ce → Ce) : (s.updCe k f).sys = s.sys := rfl
@[simp] theorem State.updCe_ch (s : State) (k : Fin 5) (f : Ce → Ce) : (s.updCe k f).ch = s.ch := rfl
@[simp] theorem State.updCe_leg (s : State) (k : Fin 5) (f : Ce → Ce) : (s.updCe k f).leg = s.leg := rfl
@[simp] theorem State.updCe_grp (s : State) (k : Fin 5) (f : Ce → Ce) : (s.updCe k f).grp = s.grp := rfl
@[simp] theorem State.updCe_ce (s : State) (k : Fin 5) (f : Ce → Ce) : (s.updCe k f).ce = vmod s.ce k f := rfl
@[simp] theorem State.updCe_staged (s : State) (k : Fin 5) (f : Ce → Ce) : (s.updCe k f).staged = s.staged := rfl
@[simp] theorem State.updCe_recs (s : State) (k : Fin 5) (f : Ce → Ce) : (s.updCe k f).recs = s.recs := rfl
@[simp] theorem State.updCe_evq (s : State) (k : Fin 5) (f : Ce → Ce) : (s.updCe k f).evq = s.evq := rfl
@[simp] theorem State.updCe_port (s : State) (k : Fin 5) (f : Ce → Ce) : (s.updCe k f).port = s.port := rfl
@[simp] theorem State.updCe_sticky (s : State) (k : Fin 5) (f : Ce → Ce) : (s.updCe k f).sticky = s.sticky := rfl
@[simp] theorem State.updCe_nvm (s : State) (k : Fin 5) (f : Ce → Ce) : (s.updCe k f).nvm = s.nvm := rfl
@[simp] theorem State.updCe_safe (s : State) (k : Fin 5) (f : Ce → Ce) : (s.updCe k f).safe = s.safe := rfl
@[simp] theorem State.updCe_therm (s : State) (k : Fin 5) (f : Ce → Ce) : (s.updCe k f).therm = s.therm := rfl
@[simp] theorem State.updCe_link (s : State) (k : Fin 5) (f : Ce → Ce) : (s.updCe k f).link = s.link := rfl
@[simp] theorem State.updCe_meas (s : State) (k : Fin 5) (f : Ce → Ce) : (s.updCe k f).meas = s.meas := rfl
@[simp] theorem State.updCe_can (s : State) (k : Fin 5) (f : Ce → Ce) : (s.updCe k f).can = s.can := rfl
@[simp] theorem State.updCe_dma (s : State) (k : Fin 5) (f : Ce → Ce) : (s.updCe k f).dma = s.dma := rfl
@[simp] theorem State.updCe_dmaLast (s : State) (k : Fin 5) (f : Ce → Ce) : (s.updCe k f).dmaLast = s.dmaLast := rfl
@[simp] theorem State.updCe_isl (s : State) (k : Fin 5) (f : Ce → Ce) : (s.updCe k f).isl = s.isl := rfl
@[simp] theorem State.updCe_aux (s : State) (k : Fin 5) (f : Ce → Ce) : (s.updCe k f).aux = s.aux := rfl
@[simp] theorem State.updCe_tap (s : State) (k : Fin 5) (f : Ce → Ce) : (s.updCe k f).tap = s.tap := rfl
@[simp] theorem State.updCe_mem (s : State) (k : Fin 5) (f : Ce → Ce) : (s.updCe k f).mem = s.mem := rfl
@[simp] theorem State.updCe_pending (s : State) (k : Fin 5) (f : Ce → Ce) : (s.updCe k f).pending = s.pending := rfl

@[simp] theorem State.updProg_sys (s : State) (c : Fin 16) (f : Prog → Prog) :
    (s.updProg c f).sys = s.sys := rfl
@[simp] theorem State.updProg_ch (s : State) (c : Fin 16) (f : Prog → Prog) :
    (s.updProg c f).ch = vmod s.ch c fun ch => { ch with prog := f ch.prog } := rfl
@[simp] theorem State.updProg_leg (s : State) (c : Fin 16) (f : Prog → Prog) :
    (s.updProg c f).leg = s.leg := rfl
@[simp] theorem State.updProg_grp (s : State) (c : Fin 16) (f : Prog → Prog) :
    (s.updProg c f).grp = s.grp := rfl
@[simp] theorem State.updProg_ce (s : State) (c : Fin 16) (f : Prog → Prog) :
    (s.updProg c f).ce = s.ce := rfl
@[simp] theorem State.updProg_staged (s : State) (c : Fin 16) (f : Prog → Prog) :
    (s.updProg c f).staged = s.staged := rfl
@[simp] theorem State.updProg_recs (s : State) (c : Fin 16) (f : Prog → Prog) :
    (s.updProg c f).recs = s.recs := rfl
@[simp] theorem State.updProg_evq (s : State) (c : Fin 16) (f : Prog → Prog) :
    (s.updProg c f).evq = s.evq := rfl
@[simp] theorem State.updProg_port (s : State) (c : Fin 16) (f : Prog → Prog) :
    (s.updProg c f).port = s.port := rfl
@[simp] theorem State.updProg_sticky (s : State) (c : Fin 16) (f : Prog → Prog) :
    (s.updProg c f).sticky = s.sticky := rfl
@[simp] theorem State.updProg_nvm (s : State) (c : Fin 16) (f : Prog → Prog) :
    (s.updProg c f).nvm = s.nvm := rfl
@[simp] theorem State.updProg_safe (s : State) (c : Fin 16) (f : Prog → Prog) :
    (s.updProg c f).safe = s.safe := rfl
@[simp] theorem State.updProg_therm (s : State) (c : Fin 16) (f : Prog → Prog) :
    (s.updProg c f).therm = s.therm := rfl
@[simp] theorem State.updProg_link (s : State) (c : Fin 16) (f : Prog → Prog) :
    (s.updProg c f).link = s.link := rfl
@[simp] theorem State.updProg_meas (s : State) (c : Fin 16) (f : Prog → Prog) :
    (s.updProg c f).meas = s.meas := rfl
@[simp] theorem State.updProg_can (s : State) (c : Fin 16) (f : Prog → Prog) :
    (s.updProg c f).can = s.can := rfl
@[simp] theorem State.updProg_dma (s : State) (c : Fin 16) (f : Prog → Prog) :
    (s.updProg c f).dma = s.dma := rfl
@[simp] theorem State.updProg_dmaLast (s : State) (c : Fin 16) (f : Prog → Prog) :
    (s.updProg c f).dmaLast = s.dmaLast := rfl
@[simp] theorem State.updProg_isl (s : State) (c : Fin 16) (f : Prog → Prog) :
    (s.updProg c f).isl = s.isl := rfl
@[simp] theorem State.updProg_aux (s : State) (c : Fin 16) (f : Prog → Prog) :
    (s.updProg c f).aux = s.aux := rfl
@[simp] theorem State.updProg_tap (s : State) (c : Fin 16) (f : Prog → Prog) :
    (s.updProg c f).tap = s.tap := rfl
@[simp] theorem State.updProg_mem (s : State) (c : Fin 16) (f : Prog → Prog) :
    (s.updProg c f).mem = s.mem := rfl
@[simp] theorem State.updProg_pending (s : State) (c : Fin 16) (f : Prog → Prog) :
    (s.updProg c f).pending = s.pending := rfl

end Sys2Proof.Machine
end

