-- ==== Sys2Proof/Laws/Ops.lean ====
section
/-! SUPPORT. What the shared operations do to each field of the state, and element laws of the indexed updates. -/
namespace Sys2Proof.Machine

@[simp] theorem vmod_same {α : Type} {n : Nat} (v : Vector α n) (i : Fin n) (f : α → α) : (vmod v i f)[i] = f v[i] := by
  simp [vmod]

@[simp] theorem vmod_same_val {α : Type} {n : Nat} (v : Vector α n) (i : Fin n) (f : α → α) :
    (vmod v i f)[i.val] = f v[i.val] := by
  simp [vmod]

theorem vmod_other {α : Type} {n : Nat} (v : Vector α n) {i j : Fin n} (f : α → α) (h : i ≠ j) :
    (vmod v i f)[j] = v[j] := by
  have hv : i.val ≠ j.val := fun e => h (Fin.ext e)
  simp [vmod, hv]

@[simp] theorem reply_sys (s : State) (t : ReqId) (o st : Byte) (p : List Byte) :
    (reply s t o st p).sys = s.sys := by unfold reply enqueueReply dropReply; dsimp only; (repeat' split) <;> rfl
@[simp] theorem reply_ch (s : State) (t : ReqId) (o st : Byte) (p : List Byte) :
    (reply s t o st p).ch = s.ch := by unfold reply enqueueReply dropReply; dsimp only; (repeat' split) <;> rfl
@[simp] theorem reply_leg (s : State) (t : ReqId) (o st : Byte) (p : List Byte) :
    (reply s t o st p).leg = s.leg := by unfold reply enqueueReply dropReply; dsimp only; (repeat' split) <;> rfl
@[simp] theorem reply_grp (s : State) (t : ReqId) (o st : Byte) (p : List Byte) :
    (reply s t o st p).grp = s.grp := by unfold reply enqueueReply dropReply; dsimp only; (repeat' split) <;> rfl
@[simp] theorem reply_ce (s : State) (t : ReqId) (o st : Byte) (p : List Byte) :
    (reply s t o st p).ce = s.ce := by unfold reply enqueueReply dropReply; dsimp only; (repeat' split) <;> rfl
@[simp] theorem reply_staged (s : State) (t : ReqId) (o st : Byte) (p : List Byte) :
    (reply s t o st p).staged = s.staged := by unfold reply enqueueReply dropReply; dsimp only; (repeat' split) <;> rfl
@[simp] theorem reply_recs (s : State) (t : ReqId) (o st : Byte) (p : List Byte) :
    (reply s t o st p).recs = s.recs := by unfold reply enqueueReply dropReply; dsimp only; (repeat' split) <;> rfl
@[simp] theorem reply_evq (s : State) (t : ReqId) (o st : Byte) (p : List Byte) :
    (reply s t o st p).evq = s.evq := by unfold reply enqueueReply dropReply; dsimp only; (repeat' split) <;> rfl
@[simp] theorem reply_sticky (s : State) (t : ReqId) (o st : Byte) (p : List Byte) :
    (reply s t o st p).sticky = s.sticky := by unfold reply enqueueReply dropReply; dsimp only; (repeat' split) <;> rfl
@[simp] theorem reply_nvm (s : State) (t : ReqId) (o st : Byte) (p : List Byte) :
    (reply s t o st p).nvm = s.nvm := by unfold reply enqueueReply dropReply; dsimp only; (repeat' split) <;> rfl
@[simp] theorem reply_safe (s : State) (t : ReqId) (o st : Byte) (p : List Byte) :
    (reply s t o st p).safe = s.safe := by unfold reply enqueueReply dropReply; dsimp only; (repeat' split) <;> rfl
@[simp] theorem reply_therm (s : State) (t : ReqId) (o st : Byte) (p : List Byte) :
    (reply s t o st p).therm = s.therm := by unfold reply enqueueReply dropReply; dsimp only; (repeat' split) <;> rfl
@[simp] theorem reply_link (s : State) (t : ReqId) (o st : Byte) (p : List Byte) :
    (reply s t o st p).link = s.link := by unfold reply enqueueReply dropReply; dsimp only; (repeat' split) <;> rfl
@[simp] theorem reply_meas (s : State) (t : ReqId) (o st : Byte) (p : List Byte) :
    (reply s t o st p).meas = s.meas := by unfold reply enqueueReply dropReply; dsimp only; (repeat' split) <;> rfl
@[simp] theorem reply_can (s : State) (t : ReqId) (o st : Byte) (p : List Byte) :
    (reply s t o st p).can = s.can := by unfold reply enqueueReply dropReply; dsimp only; (repeat' split) <;> rfl
@[simp] theorem reply_dma (s : State) (t : ReqId) (o st : Byte) (p : List Byte) :
    (reply s t o st p).dma = s.dma := by unfold reply enqueueReply dropReply; dsimp only; (repeat' split) <;> rfl
@[simp] theorem reply_dmaLast (s : State) (t : ReqId) (o st : Byte) (p : List Byte) :
    (reply s t o st p).dmaLast = s.dmaLast := by unfold reply enqueueReply dropReply; dsimp only; (repeat' split) <;> rfl
@[simp] theorem reply_isl (s : State) (t : ReqId) (o st : Byte) (p : List Byte) :
    (reply s t o st p).isl = s.isl := by unfold reply enqueueReply dropReply; dsimp only; (repeat' split) <;> rfl
@[simp] theorem reply_aux (s : State) (t : ReqId) (o st : Byte) (p : List Byte) :
    (reply s t o st p).aux = s.aux := by unfold reply enqueueReply dropReply; dsimp only; (repeat' split) <;> rfl
@[simp] theorem reply_tap (s : State) (t : ReqId) (o st : Byte) (p : List Byte) :
    (reply s t o st p).tap = s.tap := by unfold reply enqueueReply dropReply; dsimp only; (repeat' split) <;> rfl
@[simp] theorem reply_mem (s : State) (t : ReqId) (o st : Byte) (p : List Byte) :
    (reply s t o st p).mem = s.mem := by unfold reply enqueueReply dropReply; dsimp only; (repeat' split) <;> rfl
@[simp] theorem reply_pending (s : State) (t : ReqId) (o st : Byte) (p : List Byte) :
    (reply s t o st p).pending = s.pending := by unfold reply enqueueReply dropReply; dsimp only; (repeat' split) <;> rfl

@[simp] theorem takeRequest_sys (i : Instr) (s : State) :
    (takeRequest i s).2.sys = s.sys := by unfold takeRequest; split <;> rfl
@[simp] theorem takeRequest_ch (i : Instr) (s : State) :
    (takeRequest i s).2.ch = s.ch := by unfold takeRequest; split <;> rfl
@[simp] theorem takeRequest_leg (i : Instr) (s : State) :
    (takeRequest i s).2.leg = s.leg := by unfold takeRequest; split <;> rfl
@[simp] theorem takeRequest_grp (i : Instr) (s : State) :
    (takeRequest i s).2.grp = s.grp := by unfold takeRequest; split <;> rfl
@[simp] theorem takeRequest_ce (i : Instr) (s : State) :
    (takeRequest i s).2.ce = s.ce := by unfold takeRequest; split <;> rfl
@[simp] theorem takeRequest_staged (i : Instr) (s : State) :
    (takeRequest i s).2.staged = s.staged := by unfold takeRequest; split <;> rfl
@[simp] theorem takeRequest_recs (i : Instr) (s : State) :
    (takeRequest i s).2.recs = s.recs := by unfold takeRequest; split <;> rfl
@[simp] theorem takeRequest_evq (i : Instr) (s : State) :
    (takeRequest i s).2.evq = s.evq := by unfold takeRequest; split <;> rfl
@[simp] theorem takeRequest_sticky (i : Instr) (s : State) :
    (takeRequest i s).2.sticky = s.sticky := by unfold takeRequest; split <;> rfl
@[simp] theorem takeRequest_nvm (i : Instr) (s : State) :
    (takeRequest i s).2.nvm = s.nvm := by unfold takeRequest; split <;> rfl
@[simp] theorem takeRequest_safe (i : Instr) (s : State) :
    (takeRequest i s).2.safe = s.safe := by unfold takeRequest; split <;> rfl
@[simp] theorem takeRequest_therm (i : Instr) (s : State) :
    (takeRequest i s).2.therm = s.therm := by unfold takeRequest; split <;> rfl
@[simp] theorem takeRequest_link (i : Instr) (s : State) :
    (takeRequest i s).2.link = s.link := by unfold takeRequest; split <;> rfl
@[simp] theorem takeRequest_meas (i : Instr) (s : State) :
    (takeRequest i s).2.meas = s.meas := by unfold takeRequest; split <;> rfl
@[simp] theorem takeRequest_can (i : Instr) (s : State) :
    (takeRequest i s).2.can = s.can := by unfold takeRequest; split <;> rfl
@[simp] theorem takeRequest_dma (i : Instr) (s : State) :
    (takeRequest i s).2.dma = s.dma := by unfold takeRequest; split <;> rfl
@[simp] theorem takeRequest_dmaLast (i : Instr) (s : State) :
    (takeRequest i s).2.dmaLast = s.dmaLast := by unfold takeRequest; split <;> rfl
@[simp] theorem takeRequest_isl (i : Instr) (s : State) :
    (takeRequest i s).2.isl = s.isl := by unfold takeRequest; split <;> rfl
@[simp] theorem takeRequest_aux (i : Instr) (s : State) :
    (takeRequest i s).2.aux = s.aux := by unfold takeRequest; split <;> rfl
@[simp] theorem takeRequest_tap (i : Instr) (s : State) :
    (takeRequest i s).2.tap = s.tap := by unfold takeRequest; split <;> rfl
@[simp] theorem takeRequest_mem (i : Instr) (s : State) :
    (takeRequest i s).2.mem = s.mem := by unfold takeRequest; split <;> rfl
@[simp] theorem takeRequest_pending (i : Instr) (s : State) :
    (takeRequest i s).2.pending = s.pending := by unfold takeRequest; split <;> rfl

@[simp] theorem commitEvent_sys (s : State) (d : EvDraft) :
    (commitEvent s d).sys = s.sys := by unfold commitEvent; split <;> rfl
@[simp] theorem commitEvent_ch (s : State) (d : EvDraft) :
    (commitEvent s d).ch = s.ch := by unfold commitEvent; split <;> rfl
@[simp] theorem commitEvent_leg (s : State) (d : EvDraft) :
    (commitEvent s d).leg = s.leg := by unfold commitEvent; split <;> rfl
@[simp] theorem commitEvent_grp (s : State) (d : EvDraft) :
    (commitEvent s d).grp = s.grp := by unfold commitEvent; split <;> rfl
@[simp] theorem commitEvent_ce (s : State) (d : EvDraft) :
    (commitEvent s d).ce = s.ce := by unfold commitEvent; split <;> rfl
@[simp] theorem commitEvent_staged (s : State) (d : EvDraft) :
    (commitEvent s d).staged = s.staged := by unfold commitEvent; split <;> rfl
@[simp] theorem commitEvent_recs (s : State) (d : EvDraft) :
    (commitEvent s d).recs = s.recs := by unfold commitEvent; split <;> rfl
@[simp] theorem commitEvent_port (s : State) (d : EvDraft) :
    (commitEvent s d).port = s.port := by unfold commitEvent; split <;> rfl
@[simp] theorem commitEvent_nvm (s : State) (d : EvDraft) :
    (commitEvent s d).nvm = s.nvm := by unfold commitEvent; split <;> rfl
@[simp] theorem commitEvent_safe (s : State) (d : EvDraft) :
    (commitEvent s d).safe = s.safe := by unfold commitEvent; split <;> rfl
@[simp] theorem commitEvent_therm (s : State) (d : EvDraft) :
    (commitEvent s d).therm = s.therm := by unfold commitEvent; split <;> rfl
@[simp] theorem commitEvent_link (s : State) (d : EvDraft) :
    (commitEvent s d).link = s.link := by unfold commitEvent; split <;> rfl
@[simp] theorem commitEvent_meas (s : State) (d : EvDraft) :
    (commitEvent s d).meas = s.meas := by unfold commitEvent; split <;> rfl
@[simp] theorem commitEvent_can (s : State) (d : EvDraft) :
    (commitEvent s d).can = s.can := by unfold commitEvent; split <;> rfl
@[simp] theorem commitEvent_dma (s : State) (d : EvDraft) :
    (commitEvent s d).dma = s.dma := by unfold commitEvent; split <;> rfl
@[simp] theorem commitEvent_dmaLast (s : State) (d : EvDraft) :
    (commitEvent s d).dmaLast = s.dmaLast := by unfold commitEvent; split <;> rfl
@[simp] theorem commitEvent_isl (s : State) (d : EvDraft) :
    (commitEvent s d).isl = s.isl := by unfold commitEvent; split <;> rfl
@[simp] theorem commitEvent_aux (s : State) (d : EvDraft) :
    (commitEvent s d).aux = s.aux := by unfold commitEvent; split <;> rfl
@[simp] theorem commitEvent_tap (s : State) (d : EvDraft) :
    (commitEvent s d).tap = s.tap := by unfold commitEvent; split <;> rfl
@[simp] theorem commitEvent_mem (s : State) (d : EvDraft) :
    (commitEvent s d).mem = s.mem := by unfold commitEvent; split <;> rfl
@[simp] theorem commitEvent_pending (s : State) (d : EvDraft) :
    (commitEvent s d).pending = s.pending := by unfold commitEvent; split <;> rfl

@[simp] theorem queueEvent_sys (s : State) (n : Nat) (p : List Byte) :
    (queueEvent s n p).sys = s.sys := by
  unfold queueEvent; dsimp only; split
  · rfl
  · split <;> simp
@[simp] theorem queueEvent_ch (s : State) (n : Nat) (p : List Byte) :
    (queueEvent s n p).ch = s.ch := by
  unfold queueEvent; dsimp only; split
  · rfl
  · split <;> simp
@[simp] theorem queueEvent_leg (s : State) (n : Nat) (p : List Byte) :
    (queueEvent s n p).leg = s.leg := by
  unfold queueEvent; dsimp only; split
  · rfl
  · split <;> simp
@[simp] theorem queueEvent_grp (s : State) (n : Nat) (p : List Byte) :
    (queueEvent s n p).grp = s.grp := by
  unfold queueEvent; dsimp only; split
  · rfl
  · split <;> simp
@[simp] theorem queueEvent_ce (s : State) (n : Nat) (p : List Byte) :
    (queueEvent s n p).ce = s.ce := by
  unfold queueEvent; dsimp only; split
  · rfl
  · split <;> simp
@[simp] theorem queueEvent_staged (s : State) (n : Nat) (p : List Byte) :
    (queueEvent s n p).staged = s.staged := by
  unfold queueEvent; dsimp only; split
  · rfl
  · split <;> simp
@[simp] theorem queueEvent_recs (s : State) (n : Nat) (p : List Byte) :
    (queueEvent s n p).recs = s.recs := by
  unfold queueEvent; dsimp only; split
  · rfl
  · split <;> simp
@[simp] theorem queueEvent_port (s : State) (n : Nat) (p : List Byte) :
    (queueEvent s n p).port = s.port := by
  unfold queueEvent; dsimp only; split
  · rfl
  · split <;> simp
@[simp] theorem queueEvent_nvm (s : State) (n : Nat) (p : List Byte) :
    (queueEvent s n p).nvm = s.nvm := by
  unfold queueEvent; dsimp only; split
  · rfl
  · split <;> simp
@[simp] theorem queueEvent_safe (s : State) (n : Nat) (p : List Byte) :
    (queueEvent s n p).safe = s.safe := by
  unfold queueEvent; dsimp only; split
  · rfl
  · split <;> simp
@[simp] theorem queueEvent_therm (s : State) (n : Nat) (p : List Byte) :
    (queueEvent s n p).therm = s.therm := by
  unfold queueEvent; dsimp only; split
  · rfl
  · split <;> simp
@[simp] theorem queueEvent_link (s : State) (n : Nat) (p : List Byte) :
    (queueEvent s n p).link = s.link := by
  unfold queueEvent; dsimp only; split
  · rfl
  · split <;> simp
@[simp] theorem queueEvent_meas (s : State) (n : Nat) (p : List Byte) :
    (queueEvent s n p).meas = s.meas := by
  unfold queueEvent; dsimp only; split
  · rfl
  · split <;> simp
@[simp] theorem queueEvent_can (s : State) (n : Nat) (p : List Byte) :
    (queueEvent s n p).can = s.can := by
  unfold queueEvent; dsimp only; split
  · rfl
  · split <;> simp
@[simp] theorem queueEvent_dma (s : State) (n : Nat) (p : List Byte) :
    (queueEvent s n p).dma = s.dma := by
  unfold queueEvent; dsimp only; split
  · rfl
  · split <;> simp
@[simp] theorem queueEvent_dmaLast (s : State) (n : Nat) (p : List Byte) :
    (queueEvent s n p).dmaLast = s.dmaLast := by
  unfold queueEvent; dsimp only; split
  · rfl
  · split <;> simp
@[simp] theorem queueEvent_isl (s : State) (n : Nat) (p : List Byte) :
    (queueEvent s n p).isl = s.isl := by
  unfold queueEvent; dsimp only; split
  · rfl
  · split <;> simp
@[simp] theorem queueEvent_aux (s : State) (n : Nat) (p : List Byte) :
    (queueEvent s n p).aux = s.aux := by
  unfold queueEvent; dsimp only; split
  · rfl
  · split <;> simp
@[simp] theorem queueEvent_tap (s : State) (n : Nat) (p : List Byte) :
    (queueEvent s n p).tap = s.tap := by
  unfold queueEvent; dsimp only; split
  · rfl
  · split <;> simp
@[simp] theorem queueEvent_mem (s : State) (n : Nat) (p : List Byte) :
    (queueEvent s n p).mem = s.mem := by
  unfold queueEvent; dsimp only; split
  · rfl
  · split <;> simp
@[simp] theorem queueEvent_pending (s : State) (n : Nat) (p : List Byte) :
    (queueEvent s n p).pending = s.pending := by
  unfold queueEvent; dsimp only; split
  · rfl
  · split <;> simp

@[simp] theorem stage_sys (s : State) (x : Change) (o : Byte) (t : Option ReqId) (m : BitVec 14) :
    (stage s x o t m).sys = s.sys := by rfl
@[simp] theorem stage_ch (s : State) (x : Change) (o : Byte) (t : Option ReqId) (m : BitVec 14) :
    (stage s x o t m).ch = s.ch := by rfl
@[simp] theorem stage_leg (s : State) (x : Change) (o : Byte) (t : Option ReqId) (m : BitVec 14) :
    (stage s x o t m).leg = s.leg := by rfl
@[simp] theorem stage_grp (s : State) (x : Change) (o : Byte) (t : Option ReqId) (m : BitVec 14) :
    (stage s x o t m).grp = s.grp := by rfl
@[simp] theorem stage_ce (s : State) (x : Change) (o : Byte) (t : Option ReqId) (m : BitVec 14) :
    (stage s x o t m).ce = s.ce := by rfl
@[simp] theorem stage_recs (s : State) (x : Change) (o : Byte) (t : Option ReqId) (m : BitVec 14) :
    (stage s x o t m).recs = s.recs := by rfl
@[simp] theorem stage_evq (s : State) (x : Change) (o : Byte) (t : Option ReqId) (m : BitVec 14) :
    (stage s x o t m).evq = s.evq := by rfl
@[simp] theorem stage_port (s : State) (x : Change) (o : Byte) (t : Option ReqId) (m : BitVec 14) :
    (stage s x o t m).port = s.port := by rfl
@[simp] theorem stage_sticky (s : State) (x : Change) (o : Byte) (t : Option ReqId) (m : BitVec 14) :
    (stage s x o t m).sticky = s.sticky := by rfl
@[simp] theorem stage_nvm (s : State) (x : Change) (o : Byte) (t : Option ReqId) (m : BitVec 14) :
    (stage s x o t m).nvm = s.nvm := by rfl
@[simp] theorem stage_safe (s : State) (x : Change) (o : Byte) (t : Option ReqId) (m : BitVec 14) :
    (stage s x o t m).safe = s.safe := by rfl
@[simp] theorem stage_therm (s : State) (x : Change) (o : Byte) (t : Option ReqId) (m : BitVec 14) :
    (stage s x o t m).therm = s.therm := by rfl
@[simp] theorem stage_link (s : State) (x : Change) (o : Byte) (t : Option ReqId) (m : BitVec 14) :
    (stage s x o t m).link = s.link := by rfl
@[simp] theorem stage_meas (s : State) (x : Change) (o : Byte) (t : Option ReqId) (m : BitVec 14) :
    (stage s x o t m).meas = s.meas := by rfl
@[simp] theorem stage_can (s : State) (x : Change) (o : Byte) (t : Option ReqId) (m : BitVec 14) :
    (stage s x o t m).can = s.can := by rfl
@[simp] theorem stage_dma (s : State) (x : Change) (o : Byte) (t : Option ReqId) (m : BitVec 14) :
    (stage s x o t m).dma = s.dma := by rfl
@[simp] theorem stage_dmaLast (s : State) (x : Change) (o : Byte) (t : Option ReqId) (m : BitVec 14) :
    (stage s x o t m).dmaLast = s.dmaLast := by rfl
@[simp] theorem stage_isl (s : State) (x : Change) (o : Byte) (t : Option ReqId) (m : BitVec 14) :
    (stage s x o t m).isl = s.isl := by rfl
@[simp] theorem stage_aux (s : State) (x : Change) (o : Byte) (t : Option ReqId) (m : BitVec 14) :
    (stage s x o t m).aux = s.aux := by rfl
@[simp] theorem stage_tap (s : State) (x : Change) (o : Byte) (t : Option ReqId) (m : BitVec 14) :
    (stage s x o t m).tap = s.tap := by rfl
@[simp] theorem stage_mem (s : State) (x : Change) (o : Byte) (t : Option ReqId) (m : BitVec 14) :
    (stage s x o t m).mem = s.mem := by rfl
@[simp] theorem stage_pending (s : State) (x : Change) (o : Byte) (t : Option ReqId) (m : BitVec 14) :
    (stage s x o t m).pending = s.pending := by rfl

@[simp] theorem drawFree_ch (s : State) :
    (drawFree s).2.ch = s.ch := by rfl
@[simp] theorem drawFree_leg (s : State) :
    (drawFree s).2.leg = s.leg := by rfl
@[simp] theorem drawFree_grp (s : State) :
    (drawFree s).2.grp = s.grp := by rfl
@[simp] theorem drawFree_ce (s : State) :
    (drawFree s).2.ce = s.ce := by rfl
@[simp] theorem drawFree_staged (s : State) :
    (drawFree s).2.staged = s.staged := by rfl
@[simp] theorem drawFree_recs (s : State) :
    (drawFree s).2.recs = s.recs := by rfl
@[simp] theorem drawFree_evq (s : State) :
    (drawFree s).2.evq = s.evq := by rfl
@[simp] theorem drawFree_port (s : State) :
    (drawFree s).2.port = s.port := by rfl
@[simp] theorem drawFree_sticky (s : State) :
    (drawFree s).2.sticky = s.sticky := by rfl
@[simp] theorem drawFree_nvm (s : State) :
    (drawFree s).2.nvm = s.nvm := by rfl
@[simp] theorem drawFree_safe (s : State) :
    (drawFree s).2.safe = s.safe := by rfl
@[simp] theorem drawFree_therm (s : State) :
    (drawFree s).2.therm = s.therm := by rfl
@[simp] theorem drawFree_link (s : State) :
    (drawFree s).2.link = s.link := by rfl
@[simp] theorem drawFree_meas (s : State) :
    (drawFree s).2.meas = s.meas := by rfl
@[simp] theorem drawFree_can (s : State) :
    (drawFree s).2.can = s.can := by rfl
@[simp] theorem drawFree_dma (s : State) :
    (drawFree s).2.dma = s.dma := by rfl
@[simp] theorem drawFree_dmaLast (s : State) :
    (drawFree s).2.dmaLast = s.dmaLast := by rfl
@[simp] theorem drawFree_isl (s : State) :
    (drawFree s).2.isl = s.isl := by rfl
@[simp] theorem drawFree_aux (s : State) :
    (drawFree s).2.aux = s.aux := by rfl
@[simp] theorem drawFree_tap (s : State) :
    (drawFree s).2.tap = s.tap := by rfl
@[simp] theorem drawFree_mem (s : State) :
    (drawFree s).2.mem = s.mem := by rfl
@[simp] theorem drawFree_pending (s : State) :
    (drawFree s).2.pending = s.pending := by rfl

/-- An event of a running device waits for the next boundary (R37, R335). -/
theorem queueEvent_running {s : State} (h : s.sys.running = true) (n : Nat) (p : List Byte) :
    queueEvent s n p = { s with evq := { s.evq with pend := s.evq.pend ++ [{ code := n, payload := p }] } } := by
  unfold queueEvent
  simp [h]

/-- A reply that finds a place (R296). -/
theorem reply_room {s : State} (h : s.port.replies.length < replyPlaces) (t : ReqId) (o st : Byte) (p : List Byte) :
    (reply s t o st p).port.replies = s.port.replies ++
      [{ own := true, tag := t.tag, status := st, evt := BitVec.ofNat 8 (satNat 8 (unreadCount s)), opc := o, payload := p }] := by
  unfold reply enqueueReply
  simp [h]

end Sys2Proof.Machine
end

