-- ==== Sys2Proof/Laws/Same.lean ====
section
/-! SUPPORT. The relation `Same`: the parts of the state outside a mask are the same. One lemma per operation says which
parts it leaves alone. -/
namespace Sys2Proof.Safety

open Sys2Proof.Machine

/-- The mask m covers the mask a. -/
def covers (m a : Nat) : Prop := m &&& a = a

theorem covers.le {m a b : Nat} (h : covers m a) (k : a &&& b = b) : covers m b := by
  unfold covers at *
  rw [← k, ← Nat.and_assoc, h]

theorem covers.bit {m a i : Nat} (h : covers m a) (k : a.testBit i = true) : m.testBit i = true := by
  unfold covers at h
  rw [← h, Nat.testBit_and] at k
  exact (Bool.and_eq_true_iff.mp k).1

/-- The parts whose bits are 0 in m are the same. -/
structure Same (m : Nat) (s t : State) : Prop where
  sys : m.testBit 0 = true ∨ t.sys = s.sys
  ch : m.testBit 1 = true ∨ t.ch = s.ch
  leg : m.testBit 2 = true ∨ t.leg = s.leg
  grp : m.testBit 3 = true ∨ t.grp = s.grp
  ce : m.testBit 4 = true ∨ t.ce = s.ce
  staged : m.testBit 5 = true ∨ t.staged = s.staged
  recs : m.testBit 6 = true ∨ t.recs = s.recs
  evq : m.testBit 7 = true ∨ t.evq = s.evq
  port : m.testBit 8 = true ∨ t.port = s.port
  sticky : m.testBit 9 = true ∨ t.sticky = s.sticky
  nvm : m.testBit 10 = true ∨ t.nvm = s.nvm
  safe : m.testBit 11 = true ∨ t.safe = s.safe
  therm : m.testBit 12 = true ∨ t.therm = s.therm
  link : m.testBit 13 = true ∨ t.link = s.link
  meas : m.testBit 14 = true ∨ t.meas = s.meas
  can : m.testBit 15 = true ∨ t.can = s.can
  dma : m.testBit 16 = true ∨ t.dma = s.dma
  dmaLast : m.testBit 17 = true ∨ t.dmaLast = s.dmaLast
  isl : m.testBit 18 = true ∨ t.isl = s.isl
  aux : m.testBit 19 = true ∨ t.aux = s.aux
  tap : m.testBit 20 = true ∨ t.tap = s.tap
  mem : m.testBit 21 = true ∨ t.mem = s.mem
  pending : t.pending = s.pending

theorem Same.refl (m : Nat) (s : State) : Same m s s :=
  ⟨.inr rfl, .inr rfl, .inr rfl, .inr rfl, .inr rfl, .inr rfl, .inr rfl, .inr rfl, .inr rfl, .inr rfl,
   .inr rfl, .inr rfl, .inr rfl, .inr rfl, .inr rfl, .inr rfl, .inr rfl, .inr rfl, .inr rfl, .inr rfl, .inr rfl, .inr rfl, rfl⟩

theorem Same.step {m : Nat} {z s t : State} (h : Same m z s) (hp : t.pending = s.pending)
    (h0 : m.testBit 0 = true ∨ t.sys = s.sys)
    (h1 : m.testBit 1 = true ∨ t.ch = s.ch)
    (h2 : m.testBit 2 = true ∨ t.leg = s.leg)
    (h3 : m.testBit 3 = true ∨ t.grp = s.grp)
    (h4 : m.testBit 4 = true ∨ t.ce = s.ce)
    (h5 : m.testBit 5 = true ∨ t.staged = s.staged)
    (h6 : m.testBit 6 = true ∨ t.recs = s.recs)
    (h7 : m.testBit 7 = true ∨ t.evq = s.evq)
    (h8 : m.testBit 8 = true ∨ t.port = s.port)
    (h9 : m.testBit 9 = true ∨ t.sticky = s.sticky)
    (h10 : m.testBit 10 = true ∨ t.nvm = s.nvm)
    (h11 : m.testBit 11 = true ∨ t.safe = s.safe)
    (h12 : m.testBit 12 = true ∨ t.therm = s.therm)
    (h13 : m.testBit 13 = true ∨ t.link = s.link)
    (h14 : m.testBit 14 = true ∨ t.meas = s.meas)
    (h15 : m.testBit 15 = true ∨ t.can = s.can)
    (h16 : m.testBit 16 = true ∨ t.dma = s.dma)
    (h17 : m.testBit 17 = true ∨ t.dmaLast = s.dmaLast)
    (h18 : m.testBit 18 = true ∨ t.isl = s.isl)
    (h19 : m.testBit 19 = true ∨ t.aux = s.aux)
    (h20 : m.testBit 20 = true ∨ t.tap = s.tap)
    (h21 : m.testBit 21 = true ∨ t.mem = s.mem) : Same m z t :=
  have j : ∀ {α : Type} {b : Prop} {x y w : α}, (b ∨ y = x) → (b ∨ w = y) → b ∨ w = x := fun h k =>
    k.elim .inl fun e => h.elim .inl fun d => .inr (e.trans d)
  ⟨j h.sys h0, j h.ch h1, j h.leg h2, j h.grp h3, j h.ce h4, j h.staged h5, j h.recs h6, j h.evq h7,
   j h.port h8, j h.sticky h9, j h.nvm h10, j h.safe h11, j h.therm h12, j h.link h13, j h.meas h14, j h.can h15,
   j h.dma h16, j h.dmaLast h17, j h.isl h18, j h.aux h19, j h.tap h20, j h.mem h21, hp.trans h.pending⟩

/-- An update of some parts. -/
theorem Same.upd {m : Nat} {z s : State} (h : Same m z s) {sys ch leg grp ce staged recs evq port sticky nvm safe therm
    link meas can dma dmaLast isl aux tap mem}
    (h0 : m.testBit 0 = true ∨ sys = s.sys)
    (h1 : m.testBit 1 = true ∨ ch = s.ch)
    (h2 : m.testBit 2 = true ∨ leg = s.leg)
    (h3 : m.testBit 3 = true ∨ grp = s.grp)
    (h4 : m.testBit 4 = true ∨ ce = s.ce)
    (h5 : m.testBit 5 = true ∨ staged = s.staged)
    (h6 : m.testBit 6 = true ∨ recs = s.recs)
    (h7 : m.testBit 7 = true ∨ evq = s.evq)
    (h8 : m.testBit 8 = true ∨ port = s.port)
    (h9 : m.testBit 9 = true ∨ sticky = s.sticky)
    (h10 : m.testBit 10 = true ∨ nvm = s.nvm)
    (h11 : m.testBit 11 = true ∨ safe = s.safe)
    (h12 : m.testBit 12 = true ∨ therm = s.therm)
    (h13 : m.testBit 13 = true ∨ link = s.link)
    (h14 : m.testBit 14 = true ∨ meas = s.meas)
    (h15 : m.testBit 15 = true ∨ can = s.can)
    (h16 : m.testBit 16 = true ∨ dma = s.dma)
    (h17 : m.testBit 17 = true ∨ dmaLast = s.dmaLast)
    (h18 : m.testBit 18 = true ∨ isl = s.isl)
    (h19 : m.testBit 19 = true ∨ aux = s.aux)
    (h20 : m.testBit 20 = true ∨ tap = s.tap)
    (h21 : m.testBit 21 = true ∨ mem = s.mem) :
    Same m z ⟨sys, ch, leg, grp, ce, staged, recs, evq, port, sticky, nvm, safe, therm, link, meas, can, dma, dmaLast,
      isl, aux, tap, mem, s.pending⟩ :=
  h.step rfl h0 h1 h2 h3 h4 h5 h6 h7 h8 h9 h10 h11 h12 h13 h14 h15 h16 h17 h18 h19 h20 h21

theorem Same.trans {m : Nat} {s t u : State} (h : Same m s t) (k : Same m t u) : Same m s u :=
  h.step k.pending k.sys k.ch k.leg k.grp k.ce k.staged k.recs k.evq k.port k.sticky k.nvm k.safe
    k.therm k.link k.meas k.can k.dma k.dmaLast k.isl k.aux k.tap k.mem

theorem Same.ite {m : Nat} {s a b : State} {c : Prop} [Decidable c] (ha : Same m s a) (hb : Same m s b) :
    Same m s (if c then a else b) := by split <;> assumption

theorem Same.iteFst {m : Nat} {α : Type} {s : State} {a b : State × α} {c : Prop} [Decidable c] (ha : Same m s a.1)
    (hb : Same m s b.1) : Same m s (if c then a else b).1 := by split <;> assumption

theorem Same.iteSnd {m : Nat} {α : Type} {s : State} {a b : α × State} {c : Prop} [Decidable c] (ha : Same m s a.2)
    (hb : Same m s b.2) : Same m s (if c then a else b).2 := by split <;> assumption

theorem Same.foldl {m : Nat} {α : Type} {s a : State} {f : State → α → State} {l : List α} (ha : Same m s a)
    (hf : ∀ t x, Same m s t → Same m s (f t x)) : Same m s (l.foldl f a) := by
  induction l generalizing a with
  | nil => exact ha
  | cons x r ih => exact ih (hf a x ha)


/-- The bit of a part. -/
def Part.ix : Part → Nat
  | .sys => 0
  | .ch => 1
  | .leg => 2
  | .grp => 3
  | .ce => 4
  | .staged => 5
  | .recs => 6
  | .evq => 7
  | .port => 8
  | .sticky => 9
  | .nvm => 10
  | .safe => 11
  | .therm => 12
  | .link => 13
  | .meas => 14
  | .can => 15
  | .dma => 16
  | .dmaLast => 17
  | .isl => 18
  | .aux => 19
  | .tap => 20
  | .mem => 21

/-- What `Same` says in terms of a list of parts. -/
theorem frame_of {l : List Part} {m : Nat} {s t : State} (h : Same m s t)
    (hd : allParts.all (fun p => decide (p ∈ l) || !m.testBit p.ix) = true) : Frame l s t := by
  have k : ∀ p : Part, p ∉ l → m.testBit p.ix = false := by
    intro p hp
    have := List.all_eq_true.mp hd p (by cases p <;> decide)
    simpa [hp] using this
  have r : ∀ (p : Part) {a : Prop}, m.testBit p.ix = true ∨ a → p ∉ l → a := fun p _ h hp =>
    h.resolve_left (by rw [k p hp]; simp)
  exact ⟨r .sys h.sys, r .ch h.ch, r .leg h.leg, r .grp h.grp, r .ce h.ce, r .staged h.staged, r .recs h.recs, r .evq h.evq,
    r .port h.port, r .sticky h.sticky, r .nvm h.nvm, r .safe h.safe, r .therm h.therm, r .link h.link, r .meas h.meas,
    r .can h.can, r .dma h.dma, r .dmaLast h.dmaLast, r .isl h.isl, r .aux h.aux, r .tap h.tap, r .mem h.mem⟩

theorem frame_all (s t : State) : Frame allParts s t := by
  constructor <;> (intro h; exact absurd (by decide) h)

end Sys2Proof.Safety
end

