-- ==== Sys2Proof/Laws/SameOps.lean ====
section
/-! SUPPORT. The parts of the state that the operations of Machine/Ops.lean leave alone. -/
namespace Sys2Proof.Safety

open Sys2Proof.Machine

set_option simprocs false

theorem updCh_same {pm : Nat} {z : State} {s : State} {c : Fin 16} {f : Chan → Chan} (hm : covers pm 2)
    (hz : Same pm z s) :
    Same pm z (State.updCh s c f) := by
  have b1 : pm.testBit 1 = true := hm.bit rfl
  unfold State.updCh
  repeat' first
    | with_reducible assumption | split | dsimp only
    | with_reducible
      refine Same.upd ?_ (.inr rfl) (.inl b1) (.inr rfl) (.inr rfl) (.inr rfl) (.inr rfl) (.inr rfl) (.inr rfl)
        (.inr rfl) (.inr rfl) (.inr rfl) (.inr rfl) (.inr rfl) (.inr rfl) (.inr rfl) (.inr rfl) (.inr rfl) (.inr rfl)
        (.inr rfl) (.inr rfl) (.inr rfl) (.inr rfl)

theorem updLeg_same {pm : Nat} {z : State} {s : State} {l : Fin 32} {f : Leg → Leg} (hm : covers pm 4)
    (hz : Same pm z s) :
    Same pm z (State.updLeg s l f) := by
  have b2 : pm.testBit 2 = true := hm.bit rfl
  unfold State.updLeg
  repeat' first
    | with_reducible assumption | split | dsimp only
    | with_reducible
      refine Same.upd ?_ (.inr rfl) (.inr rfl) (.inl b2) (.inr rfl) (.inr rfl) (.inr rfl) (.inr rfl) (.inr rfl)
        (.inr rfl) (.inr rfl) (.inr rfl) (.inr rfl) (.inr rfl) (.inr rfl) (.inr rfl) (.inr rfl) (.inr rfl) (.inr rfl)
        (.inr rfl) (.inr rfl) (.inr rfl) (.inr rfl)

theorem updGrp_same {pm : Nat} {z : State} {s : State} {g : Fin 4} {f : Group → Group} (hm : covers pm 8)
    (hz : Same pm z s) :
    Same pm z (State.updGrp s g f) := by
  have b3 : pm.testBit 3 = true := hm.bit rfl
  unfold State.updGrp
  repeat' first
    | with_reducible assumption | split | dsimp only
    | with_reducible
      refine Same.upd ?_ (.inr rfl) (.inr rfl) (.inr rfl) (.inl b3) (.inr rfl) (.inr rfl) (.inr rfl) (.inr rfl)
        (.inr rfl) (.inr rfl) (.inr rfl) (.inr rfl) (.inr rfl) (.inr rfl) (.inr rfl) (.inr rfl) (.inr rfl) (.inr rfl)
        (.inr rfl) (.inr rfl) (.inr rfl) (.inr rfl)

theorem updCe_same {pm : Nat} {z : State} {s : State} {k : Fin 5} {f : Ce → Ce} (hm : covers pm 16) (hz : Same pm z s) :
    Same pm z (State.updCe s k f) := by
  have b4 : pm.testBit 4 = true := hm.bit rfl
  unfold State.updCe
  repeat' first
    | with_reducible assumption | split | dsimp only
    | with_reducible
      refine Same.upd ?_ (.inr rfl) (.inr rfl) (.inr rfl) (.inr rfl) (.inl b4) (.inr rfl) (.inr rfl) (.inr rfl)
        (.inr rfl) (.inr rfl) (.inr rfl) (.inr rfl) (.inr rfl) (.inr rfl) (.inr rfl) (.inr rfl) (.inr rfl) (.inr rfl)
        (.inr rfl) (.inr rfl) (.inr rfl) (.inr rfl)

theorem updProg_same {pm : Nat} {z : State} {s : State} {c : Fin 16} {f : Prog → Prog} (hm : covers pm 2)
    (hz : Same pm z s) :
    Same pm z (State.updProg s c f) := by
  have h2 : covers pm 2 := hm.le rfl
  unfold State.updProg
  repeat' first
    | with_reducible assumption | with_reducible apply updCh_same h2 | split | dsimp only
    | with_reducible
      refine Same.upd ?_ (.inr rfl) (.inr rfl) (.inr rfl) (.inr rfl) (.inr rfl) (.inr rfl) (.inr rfl) (.inr rfl)
        (.inr rfl) (.inr rfl) (.inr rfl) (.inr rfl) (.inr rfl) (.inr rfl) (.inr rfl) (.inr rfl) (.inr rfl) (.inr rfl)
        (.inr rfl) (.inr rfl) (.inr rfl) (.inr rfl)

theorem updDma_same {pm : Nat} {z : State} {s : State} {n : Fin 8} {f : Dma → Dma} (hm : covers pm 65536)
    (hz : Same pm z s) :
    Same pm z (State.updDma s n f) := by
  have b16 : pm.testBit 16 = true := hm.bit rfl
  unfold State.updDma
  repeat' first
    | with_reducible assumption | split | dsimp only
    | with_reducible
      refine Same.upd ?_ (.inr rfl) (.inr rfl) (.inr rfl) (.inr rfl) (.inr rfl) (.inr rfl) (.inr rfl) (.inr rfl)
        (.inr rfl) (.inr rfl) (.inr rfl) (.inr rfl) (.inr rfl) (.inr rfl) (.inr rfl) (.inr rfl) (.inl b16) (.inr rfl)
        (.inr rfl) (.inr rfl) (.inr rfl) (.inr rfl)

theorem takeShadow_same {pm : Nat} {z : State} {s : State} {n : Fin 8} (hm : covers pm 65536) (hz : Same pm z s) :
    Same pm z (takeShadow s n) := by
  have h65536 : covers pm 65536 := hm.le rfl
  unfold takeShadow
  repeat' first
    | with_reducible assumption | with_reducible apply updDma_same h65536 | with_reducible apply Same.ite | split
    | dsimp only
    | with_reducible
      refine Same.upd ?_ (.inr rfl) (.inr rfl) (.inr rfl) (.inr rfl) (.inr rfl) (.inr rfl) (.inr rfl) (.inr rfl)
        (.inr rfl) (.inr rfl) (.inr rfl) (.inr rfl) (.inr rfl) (.inr rfl) (.inr rfl) (.inr rfl) (.inr rfl) (.inr rfl)
        (.inr rfl) (.inr rfl) (.inr rfl) (.inr rfl)

theorem commitEvent_same {pm : Nat} {z : State} {s : State} {d : EvDraft} (hm : covers pm 640) (hz : Same pm z s) :
    Same pm z (commitEvent s d) := by
  have b7 : pm.testBit 7 = true := hm.bit rfl
  have b9 : pm.testBit 9 = true := hm.bit rfl
  unfold commitEvent
  repeat' first
    | with_reducible assumption | with_reducible apply Same.ite | split | dsimp only
    | with_reducible
      refine Same.upd ?_ (.inr rfl) (.inr rfl) (.inr rfl) (.inr rfl) (.inr rfl) (.inr rfl) (.inr rfl) (.inl b7)
        (.inr rfl) (.inl b9) (.inr rfl) (.inr rfl) (.inr rfl) (.inr rfl) (.inr rfl) (.inr rfl) (.inr rfl) (.inr rfl)
        (.inr rfl) (.inr rfl) (.inr rfl) (.inr rfl)

theorem queueEvent_same {pm : Nat} {z : State} {s : State} {code : Nat} {payload : List Byte} (hm : covers pm 640)
    (hz : Same pm z s) :
    Same pm z (queueEvent s code payload) := by
  have h640 : covers pm 640 := hm.le rfl
  have b7 : pm.testBit 7 = true := hm.bit rfl
  unfold queueEvent
  repeat' first
    | with_reducible assumption | with_reducible apply commitEvent_same h640 | with_reducible apply Same.ite | split
    | dsimp only
    | with_reducible
      refine Same.upd ?_ (.inr rfl) (.inr rfl) (.inr rfl) (.inr rfl) (.inr rfl) (.inr rfl) (.inr rfl) (.inl b7)
        (.inr rfl) (.inr rfl) (.inr rfl) (.inr rfl) (.inr rfl) (.inr rfl) (.inr rfl) (.inr rfl) (.inr rfl) (.inr rfl)
        (.inr rfl) (.inr rfl) (.inr rfl) (.inr rfl)

theorem queueOnce_same {pm : Nat} {z : State} {s : State} {code idx : Nat} {payload : List Byte} (hm : covers pm 640)
    (hz : Same pm z s) :
    Same pm z (queueOnce s code idx payload) := by
  have h640 : covers pm 640 := hm.le rfl
  have b7 : pm.testBit 7 = true := hm.bit rfl
  unfold queueOnce
  repeat' first
    | with_reducible assumption | with_reducible apply queueEvent_same h640 | with_reducible apply Same.ite | split
    | dsimp only
    | with_reducible
      refine Same.upd ?_ (.inr rfl) (.inr rfl) (.inr rfl) (.inr rfl) (.inr rfl) (.inr rfl) (.inr rfl) (.inl b7)
        (.inr rfl) (.inr rfl) (.inr rfl) (.inr rfl) (.inr rfl) (.inr rfl) (.inr rfl) (.inr rfl) (.inr rfl) (.inr rfl)
        (.inr rfl) (.inr rfl) (.inr rfl) (.inr rfl)

theorem queueRated_same {pm : Nat} {z : State} {s : State} {code idx interval : Nat} {payload : List Byte}
    (hm : covers pm 640) (hz : Same pm z s) :
    Same pm z (queueRated s code idx interval payload) := by
  have h640 : covers pm 640 := hm.le rfl
  have b7 : pm.testBit 7 = true := hm.bit rfl
  unfold queueRated
  repeat' first
    | with_reducible assumption | with_reducible apply queueEvent_same h640 | with_reducible apply Same.ite | split
    | dsimp only
    | with_reducible
      refine Same.upd ?_ (.inr rfl) (.inr rfl) (.inr rfl) (.inr rfl) (.inr rfl) (.inr rfl) (.inr rfl) (.inl b7)
        (.inr rfl) (.inr rfl) (.inr rfl) (.inr rfl) (.inr rfl) (.inr rfl) (.inr rfl) (.inr rfl) (.inr rfl) (.inr rfl)
        (.inr rfl) (.inr rfl) (.inr rfl) (.inr rfl)

theorem dropReply_same {pm : Nat} {z : State} {s : State} (hm : covers pm 256) (hz : Same pm z s) :
    Same pm z (dropReply s) := by
  have b8 : pm.testBit 8 = true := hm.bit rfl
  unfold dropReply
  repeat' first
    | with_reducible assumption | split | dsimp only
    | with_reducible
      refine Same.upd ?_ (.inr rfl) (.inr rfl) (.inr rfl) (.inr rfl) (.inr rfl) (.inr rfl) (.inr rfl) (.inr rfl)
        (.inl b8) (.inr rfl) (.inr rfl) (.inr rfl) (.inr rfl) (.inr rfl) (.inr rfl) (.inr rfl) (.inr rfl) (.inr rfl)
        (.inr rfl) (.inr rfl) (.inr rfl) (.inr rfl)

theorem enqueueReply_same {pm : Nat} {z : State} {s : State} {r : Reply} (hm : covers pm 256) (hz : Same pm z s) :
    Same pm z (enqueueReply s r) := by
  have h256 : covers pm 256 := hm.le rfl
  have b8 : pm.testBit 8 = true := hm.bit rfl
  unfold enqueueReply
  repeat' first
    | with_reducible assumption | with_reducible apply dropReply_same h256 | with_reducible apply Same.ite | split
    | dsimp only
    | with_reducible
      refine Same.upd ?_ (.inr rfl) (.inr rfl) (.inr rfl) (.inr rfl) (.inr rfl) (.inr rfl) (.inr rfl) (.inr rfl)
        (.inl b8) (.inr rfl) (.inr rfl) (.inr rfl) (.inr rfl) (.inr rfl) (.inr rfl) (.inr rfl) (.inr rfl) (.inr rfl)
        (.inr rfl) (.inr rfl) (.inr rfl) (.inr rfl)

theorem reply_same {pm : Nat} {z : State} {s : State} {tag : ReqId} {opc status : Byte} {payload : List Byte}
    (hm : covers pm 256) (hz : Same pm z s) :
    Same pm z (reply s tag opc status payload) := by
  have h256 : covers pm 256 := hm.le rfl
  have b8 : pm.testBit 8 = true := hm.bit rfl
  unfold reply
  repeat' first
    | with_reducible assumption | with_reducible apply enqueueReply_same h256 | with_reducible apply Same.ite | split
    | dsimp only
    | with_reducible
      refine Same.upd ?_ (.inr rfl) (.inr rfl) (.inr rfl) (.inr rfl) (.inr rfl) (.inr rfl) (.inr rfl) (.inr rfl)
        (.inl b8) (.inr rfl) (.inr rfl) (.inr rfl) (.inr rfl) (.inr rfl) (.inr rfl) (.inr rfl) (.inr rfl) (.inr rfl)
        (.inr rfl) (.inr rfl) (.inr rfl) (.inr rfl)

theorem refuseFrame_same {pm : Nat} {z : State} {s : State} {tag opc status : Byte} (hm : covers pm 256)
    (hz : Same pm z s) :
    Same pm z (refuseFrame s tag opc status) := by
  have h256 : covers pm 256 := hm.le rfl
  unfold refuseFrame
  repeat' first
    | with_reducible assumption | with_reducible apply enqueueReply_same h256 | split | dsimp only

theorem acceptUnder_same {pm : Nat} {z : State} {s : State} {t : Byte} {crc : Option Word} (hm : covers pm 256)
    (hz : Same pm z s) :
    Same pm z (acceptUnder s t crc) := by
  have h256 : covers pm 256 := hm.le rfl
  have b8 : pm.testBit 8 = true := hm.bit rfl
  unfold acceptUnder
  repeat' first
    | with_reducible assumption | with_reducible apply reply_same h256 | split | dsimp only
    | with_reducible
      refine Same.upd ?_ (.inr rfl) (.inr rfl) (.inr rfl) (.inr rfl) (.inr rfl) (.inr rfl) (.inr rfl) (.inr rfl)
        (.inl b8) (.inr rfl) (.inr rfl) (.inr rfl) (.inr rfl) (.inr rfl) (.inr rfl) (.inr rfl) (.inr rfl) (.inr rfl)
        (.inr rfl) (.inr rfl) (.inr rfl) (.inr rfl)

theorem admitRow_same {pm : Nat} {z : State} {i : Instr} {s : State} (hm : covers pm 256) (hz : Same pm z s) :
    Same pm z (admitRow i s) := by
  have h256 : covers pm 256 := hm.le rfl
  unfold admitRow
  repeat' first
    | with_reducible assumption | with_reducible apply acceptUnder_same h256 | split | dsimp only

theorem takeOldest_same {pm : Nat} {z : State} {s : State} (hm : covers pm 256) (hz : Same pm z s) :
    Same pm z (takeOldest s) := by
  have b8 : pm.testBit 8 = true := hm.bit rfl
  unfold takeOldest
  repeat' first
    | with_reducible assumption | split | dsimp only
    | with_reducible
      refine Same.upd ?_ (.inr rfl) (.inr rfl) (.inr rfl) (.inr rfl) (.inr rfl) (.inr rfl) (.inr rfl) (.inr rfl)
        (.inl b8) (.inr rfl) (.inr rfl) (.inr rfl) (.inr rfl) (.inr rfl) (.inr rfl) (.inr rfl) (.inr rfl) (.inr rfl)
        (.inr rfl) (.inr rfl) (.inr rfl) (.inr rfl)

theorem takeRequest_same {pm : Nat} {z : State} {i : Instr} {s : State} (hm : covers pm 256) (hz : Same pm z s) :
    Same pm z (takeRequest i s).2 := by
  have h256 : covers pm 256 := hm.le rfl
  unfold takeRequest
  repeat' first
    | with_reducible assumption | with_reducible apply admitRow_same h256 | with_reducible apply takeOldest_same h256
    | split | dsimp only
    | with_reducible
      refine Same.upd ?_ (.inr rfl) (.inr rfl) (.inr rfl) (.inr rfl) (.inr rfl) (.inr rfl) (.inr rfl) (.inr rfl)
        (.inr rfl) (.inr rfl) (.inr rfl) (.inr rfl) (.inr rfl) (.inr rfl) (.inr rfl) (.inr rfl) (.inr rfl) (.inr rfl)
        (.inr rfl) (.inr rfl) (.inr rfl) (.inr rfl)

theorem queueRow_same {pm : Nat} {z : State} {i : Instr} {s : State} (hm : covers pm 256) (hz : Same pm z s) :
    Same pm z (queueRow i s) := by
  have h256 : covers pm 256 := hm.le rfl
  have b8 : pm.testBit 8 = true := hm.bit rfl
  unfold queueRow
  repeat' first
    | with_reducible assumption | with_reducible apply dropReply_same h256
    | with_reducible apply refuseFrame_same h256 | with_reducible apply admitRow_same h256
    | with_reducible apply Same.ite | split | dsimp only
    | with_reducible
      refine Same.upd ?_ (.inr rfl) (.inr rfl) (.inr rfl) (.inr rfl) (.inr rfl) (.inr rfl) (.inr rfl) (.inr rfl)
        (.inl b8) (.inr rfl) (.inr rfl) (.inr rfl) (.inr rfl) (.inr rfl) (.inr rfl) (.inr rfl) (.inr rfl) (.inr rfl)
        (.inr rfl) (.inr rfl) (.inr rfl) (.inr rfl)

theorem hostCommand_same {pm : Nat} {o : State} {i : Instr} {lenOk : Bool} {s : State}
    {body : Request → State → State × Completion} (hm : covers pm 256) (h : Same pm o s)
    (hb : ∀ r t, Same pm o t → Same pm o (body r t).1) : Same pm o (hostCommand i lenOk s body) := by
  unfold hostCommand
  split
  · exact h
  · have ht := takeRequest_same (i := i) hm h
    dsimp only
    split
    · exact queueRow_same hm h
    · split
      · exact reply_same hm ht
      · split
        · exact reply_same hm ht
        · have hk := hb (takeRequest i s).1 (takeRequest i s).2 ht
          split
          · exact reply_same hm hk
          · exact hk

theorem replyOp_same {pm : Nat} {z : State} {s : State} {opc st : Byte} {p : List Byte} (hm : covers pm 262400)
    (hz : Same pm z s) :
    Same pm z (replyOp s opc st p) := by
  have h256 : covers pm 256 := hm.le rfl
  have b18 : pm.testBit 18 = true := hm.bit rfl
  unfold replyOp
  repeat' first
    | with_reducible assumption | with_reducible apply reply_same h256 | split | dsimp only
    | with_reducible
      refine Same.upd ?_ (.inr rfl) (.inr rfl) (.inr rfl) (.inr rfl) (.inr rfl) (.inr rfl) (.inr rfl) (.inr rfl)
        (.inr rfl) (.inr rfl) (.inr rfl) (.inr rfl) (.inr rfl) (.inr rfl) (.inr rfl) (.inr rfl) (.inr rfl) (.inr rfl)
        (.inl b18) (.inr rfl) (.inr rfl) (.inr rfl)

theorem makeDue_same {pm : Nat} {z : State} {s : State} {d : Due} (hm : covers pm 1) (hz : Same pm z s) :
    Same pm z (makeDue s d) := by
  have b0 : pm.testBit 0 = true := hm.bit rfl
  unfold makeDue
  repeat' first
    | with_reducible assumption | split | dsimp only
    | with_reducible
      refine Same.upd ?_ (.inl b0) (.inr rfl) (.inr rfl) (.inr rfl) (.inr rfl) (.inr rfl) (.inr rfl) (.inr rfl)
        (.inr rfl) (.inr rfl) (.inr rfl) (.inr rfl) (.inr rfl) (.inr rfl) (.inr rfl) (.inr rfl) (.inr rfl) (.inr rfl)
        (.inr rfl) (.inr rfl) (.inr rfl) (.inr rfl)

theorem stage_same {pm : Nat} {z : State} {s : State} {change : Change} {opc : Byte} {tag : Option ReqId}
    {islands : BitVec 14} (hm : covers pm 32) (hz : Same pm z s) :
    Same pm z (stage s change opc tag islands) := by
  have b5 : pm.testBit 5 = true := hm.bit rfl
  unfold stage
  repeat' first
    | with_reducible assumption | split | dsimp only
    | with_reducible
      refine Same.upd ?_ (.inr rfl) (.inr rfl) (.inr rfl) (.inr rfl) (.inr rfl) (.inl b5) (.inr rfl) (.inr rfl)
        (.inr rfl) (.inr rfl) (.inr rfl) (.inr rfl) (.inr rfl) (.inr rfl) (.inr rfl) (.inr rfl) (.inr rfl) (.inr rfl)
        (.inr rfl) (.inr rfl) (.inr rfl) (.inr rfl)

theorem drawFree_same {pm : Nat} {z : State} {s : State} (hm : covers pm 1) (hz : Same pm z s) :
    Same pm z (drawFree s).2 := by
  have b0 : pm.testBit 0 = true := hm.bit rfl
  unfold drawFree
  repeat' first
    | with_reducible assumption | split | dsimp only
    | with_reducible
      refine Same.upd ?_ (.inl b0) (.inr rfl) (.inr rfl) (.inr rfl) (.inr rfl) (.inr rfl) (.inr rfl) (.inr rfl)
        (.inr rfl) (.inr rfl) (.inr rfl) (.inr rfl) (.inr rfl) (.inr rfl) (.inr rfl) (.inr rfl) (.inr rfl) (.inr rfl)
        (.inr rfl) (.inr rfl) (.inr rfl) (.inr rfl)

theorem addPeriods_same {pm : Nat} {z : State} {n : Nat} {l : Fin 32} {s : State} (hm : covers pm 1024)
    (hz : Same pm z s) :
    Same pm z (addPeriods n l s) := by
  have b10 : pm.testBit 10 = true := hm.bit rfl
  unfold addPeriods
  repeat' first
    | with_reducible assumption | split | dsimp only
    | with_reducible
      refine Same.upd ?_ (.inr rfl) (.inr rfl) (.inr rfl) (.inr rfl) (.inr rfl) (.inr rfl) (.inr rfl) (.inr rfl)
        (.inr rfl) (.inr rfl) (.inl b10) (.inr rfl) (.inr rfl) (.inr rfl) (.inr rfl) (.inr rfl) (.inr rfl) (.inr rfl)
        (.inr rfl) (.inr rfl) (.inr rfl) (.inr rfl)

theorem testPulses_same {pm : Nat} {z : State} {s : State} {l : Fin 32} (hm : covers pm 1025) (hz : Same pm z s) :
    Same pm z (testPulses s l) := by
  have h1 : covers pm 1 := hm.le rfl
  have h1024 : covers pm 1024 := hm.le rfl
  unfold testPulses
  repeat' first
    | with_reducible assumption | with_reducible apply drawFree_same h1 | with_reducible apply addPeriods_same h1024
    | split | dsimp only

theorem advanceTime_same {pm : Nat} {z : State} {ns : Nat} {s : State} (hm : covers pm 1) (hz : Same pm z s) :
    Same pm z (advanceTime ns s) := by
  have b0 : pm.testBit 0 = true := hm.bit rfl
  unfold advanceTime
  repeat' first
    | with_reducible assumption | split | dsimp only
    | with_reducible
      refine Same.upd ?_ (.inl b0) (.inr rfl) (.inr rfl) (.inr rfl) (.inr rfl) (.inr rfl) (.inr rfl) (.inr rfl)
        (.inr rfl) (.inr rfl) (.inr rfl) (.inr rfl) (.inr rfl) (.inr rfl) (.inr rfl) (.inr rfl) (.inr rfl) (.inr rfl)
        (.inr rfl) (.inr rfl) (.inr rfl) (.inr rfl)

theorem lapse_same {pm : Nat} {z : State} {s : State} (hm : covers pm 1) (hz : Same pm z s) :
    Same pm z (lapse s) := by
  have h1 : covers pm 1 := hm.le rfl
  unfold lapse
  repeat' first
    | with_reducible assumption | with_reducible apply drawFree_same h1 | with_reducible apply advanceTime_same h1
    | split | dsimp only

theorem timePasses_same {pm : Nat} {z : State} {s : State} (hm : covers pm 1) (hz : Same pm z s) :
    Same pm z (timePasses s) := by
  have h1 : covers pm 1 := hm.le rfl
  unfold timePasses
  repeat' first
    | with_reducible assumption | with_reducible apply lapse_same h1 | with_reducible apply Same.ite | split
    | dsimp only

end Sys2Proof.Safety
end

