-- ==== Sys2Proof/Laws/SameProgramOps.lean ====
section
/-! SUPPORT. The parts of the state that the operations of Machine/ProgramOps.lean leave alone. -/
namespace Sys2Proof.Safety

open Sys2Proof.Machine

set_option simprocs false

theorem formRecord_same {pm : Nat} {z : State} {s : State} {c : Fin 16} {type rflags : Nat} {payload : List Byte}
    (hm : covers pm 66) (hz : Same pm z s) :
    Same pm z (formRecord s c type rflags payload) := by
  have b1 : pm.testBit 1 = true := hm.bit rfl
  have b6 : pm.testBit 6 = true := hm.bit rfl
  unfold formRecord
  repeat' first
    | with_reducible assumption | split | dsimp only
    | with_reducible
      refine Same.upd ?_ (.inr rfl) (.inl b1) (.inr rfl) (.inr rfl) (.inr rfl) (.inr rfl) (.inl b6) (.inr rfl)
        (.inr rfl) (.inr rfl) (.inr rfl) (.inr rfl) (.inr rfl) (.inr rfl) (.inr rfl) (.inr rfl) (.inr rfl) (.inr rfl)
        (.inr rfl) (.inr rfl) (.inr rfl) (.inr rfl)

theorem formRecordAt_same {pm : Nat} {z : State} {s : State} {c : Fin 16} {type rflags : Nat} {payload : List Byte}
    (hm : covers pm 66) (hz : Same pm z s) :
    Same pm z (formRecordAt s c type rflags payload) := by
  have b1 : pm.testBit 1 = true := hm.bit rfl
  have b6 : pm.testBit 6 = true := hm.bit rfl
  unfold formRecordAt
  repeat' first
    | with_reducible assumption | split | dsimp only
    | with_reducible
      refine Same.upd ?_ (.inr rfl) (.inl b1) (.inr rfl) (.inr rfl) (.inr rfl) (.inr rfl) (.inl b6) (.inr rfl)
        (.inr rfl) (.inr rfl) (.inr rfl) (.inr rfl) (.inr rfl) (.inr rfl) (.inr rfl) (.inr rfl) (.inr rfl) (.inr rfl)
        (.inr rfl) (.inr rfl) (.inr rfl) (.inr rfl)

theorem setLogAck_same {pm : Nat} {z : State} {s : State} {c : Fin 16} {v : Word} (hm : covers pm 2)
    (hz : Same pm z s) :
    Same pm z (setLogAck s c v).1 := by
  have h2 : covers pm 2 := hm.le rfl
  unfold setLogAck
  repeat' first
    | with_reducible assumption | with_reducible apply updCh_same h2 | with_reducible apply Same.ite
    | with_reducible apply Same.iteFst | split | dsimp only
    | with_reducible
      refine Same.upd ?_ (.inr rfl) (.inr rfl) (.inr rfl) (.inr rfl) (.inr rfl) (.inr rfl) (.inr rfl) (.inr rfl)
        (.inr rfl) (.inr rfl) (.inr rfl) (.inr rfl) (.inr rfl) (.inr rfl) (.inr rfl) (.inr rfl) (.inr rfl) (.inr rfl)
        (.inr rfl) (.inr rfl) (.inr rfl) (.inr rfl)

theorem formEndRecords_same {pm : Nat} {z : State} {s : State} {c : Fin 16} {reason next : Nat} (hm : covers pm 66)
    (hz : Same pm z s) :
    Same pm z (formEndRecords s c reason next) := by
  have h66 : covers pm 66 := hm.le rfl
  unfold formEndRecords
  repeat' first
    | with_reducible assumption | with_reducible apply formRecord_same h66 | split | dsimp only

theorem endProgram_same {pm : Nat} {z : State} {s : State} {c : Fin 16} {reason : Nat} {incomplete : Bool}
    (hm : covers pm 706) (hz : Same pm z s) :
    Same pm z (endProgram s c reason incomplete) := by
  have h2 : covers pm 2 := hm.le rfl
  have h66 : covers pm 66 := hm.le rfl
  have h640 : covers pm 640 := hm.le rfl
  unfold endProgram
  repeat' first
    | with_reducible assumption | with_reducible apply updCh_same h2 | with_reducible apply updProg_same h2
    | with_reducible apply queueEvent_same h640 | with_reducible apply formRecord_same h66
    | with_reducible apply Same.ite | split | dsimp only
    | with_reducible
      refine Same.upd ?_ (.inr rfl) (.inr rfl) (.inr rfl) (.inr rfl) (.inr rfl) (.inr rfl) (.inr rfl) (.inr rfl)
        (.inr rfl) (.inr rfl) (.inr rfl) (.inr rfl) (.inr rfl) (.inr rfl) (.inr rfl) (.inr rfl) (.inr rfl) (.inr rfl)
        (.inr rfl) (.inr rfl) (.inr rfl) (.inr rfl)

theorem abortProgram_same {pm : Nat} {z : State} {s : State} {c : Fin 16} {reason : Nat} (hm : covers pm 706)
    (hz : Same pm z s) :
    Same pm z (abortProgram s c reason) := by
  have h66 : covers pm 66 := hm.le rfl
  have h706 : covers pm 706 := hm.le rfl
  unfold abortProgram
  repeat' first
    | with_reducible assumption | with_reducible apply formEndRecords_same h66
    | with_reducible apply endProgram_same h706 | with_reducible apply Same.ite | split | dsimp only

theorem setStepTargets_same {pm : Nat} {z : State} {s : State} {c : Fin 16} (hm : covers pm 2) (hz : Same pm z s) :
    Same pm z (setStepTargets s c) := by
  have h2 : covers pm 2 := hm.le rfl
  unfold setStepTargets
  repeat' first
    | with_reducible assumption | with_reducible apply updCh_same h2 | with_reducible apply Same.ite | split
    | dsimp only
    | with_reducible
      refine Same.upd ?_ (.inr rfl) (.inr rfl) (.inr rfl) (.inr rfl) (.inr rfl) (.inr rfl) (.inr rfl) (.inr rfl)
        (.inr rfl) (.inr rfl) (.inr rfl) (.inr rfl) (.inr rfl) (.inr rfl) (.inr rfl) (.inr rfl) (.inr rfl) (.inr rfl)
        (.inr rfl) (.inr rfl) (.inr rfl) (.inr rfl)

theorem decideEnd_same {pm : Nat} {z : State} {s : State} {c : Fin 16} {rank wait reason next : Nat}
    (hm : covers pm 2) (hz : Same pm z s) :
    Same pm z (decideEnd s c rank wait reason next) := by
  have h2 : covers pm 2 := hm.le rfl
  unfold decideEnd
  repeat' first
    | with_reducible assumption | with_reducible apply updProg_same h2 | with_reducible apply Same.ite | split
    | dsimp only
    | with_reducible
      refine Same.upd ?_ (.inr rfl) (.inr rfl) (.inr rfl) (.inr rfl) (.inr rfl) (.inr rfl) (.inr rfl) (.inr rfl)
        (.inr rfl) (.inr rfl) (.inr rfl) (.inr rfl) (.inr rfl) (.inr rfl) (.inr rfl) (.inr rfl) (.inr rfl) (.inr rfl)
        (.inr rfl) (.inr rfl) (.inr rfl) (.inr rfl)

theorem addCause_same {pm : Nat} {z : State} {s : State} {c : Fin 16} {cause : Nat} (hm : covers pm 2)
    (hz : Same pm z s) :
    Same pm z (addCause s c cause) := by
  have h2 : covers pm 2 := hm.le rfl
  unfold addCause
  repeat' first
    | with_reducible assumption | with_reducible apply updProg_same h2 | with_reducible apply Same.ite | split
    | dsimp only
    | with_reducible
      refine Same.upd ?_ (.inr rfl) (.inr rfl) (.inr rfl) (.inr rfl) (.inr rfl) (.inr rfl) (.inr rfl) (.inr rfl)
        (.inr rfl) (.inr rfl) (.inr rfl) (.inr rfl) (.inr rfl) (.inr rfl) (.inr rfl) (.inr rfl) (.inr rfl) (.inr rfl)
        (.inr rfl) (.inr rfl) (.inr rfl) (.inr rfl)

theorem clearCauses_same {pm : Nat} {z : State} {s : State} {c : Fin 16} {l : List Nat} (hm : covers pm 2)
    (hz : Same pm z s) :
    Same pm z (clearCauses s c l) := by
  have h2 : covers pm 2 := hm.le rfl
  unfold clearCauses
  repeat' first
    | with_reducible assumption | with_reducible apply updProg_same h2 | split | dsimp only
    | with_reducible
      refine Same.upd ?_ (.inr rfl) (.inr rfl) (.inr rfl) (.inr rfl) (.inr rfl) (.inr rfl) (.inr rfl) (.inr rfl)
        (.inr rfl) (.inr rfl) (.inr rfl) (.inr rfl) (.inr rfl) (.inr rfl) (.inr rfl) (.inr rfl) (.inr rfl) (.inr rfl)
        (.inr rfl) (.inr rfl) (.inr rfl) (.inr rfl)

theorem holdProgram_same {pm : Nat} {z : State} {s : State} {c : Fin 16} {cause : Nat} (hm : covers pm 706)
    (hz : Same pm z s) :
    Same pm z (holdProgram s c cause) := by
  have h2 : covers pm 2 := hm.le rfl
  have h66 : covers pm 66 := hm.le rfl
  have h640 : covers pm 640 := hm.le rfl
  unfold holdProgram
  repeat' first
    | with_reducible assumption | with_reducible apply updProg_same h2 | with_reducible apply queueEvent_same h640
    | with_reducible apply formRecord_same h66 | with_reducible apply formEndRecords_same h66
    | with_reducible apply Same.ite | split | dsimp only
    | with_reducible
      refine Same.upd ?_ (.inr rfl) (.inr rfl) (.inr rfl) (.inr rfl) (.inr rfl) (.inr rfl) (.inr rfl) (.inr rfl)
        (.inr rfl) (.inr rfl) (.inr rfl) (.inr rfl) (.inr rfl) (.inr rfl) (.inr rfl) (.inr rfl) (.inr rfl) (.inr rfl)
        (.inr rfl) (.inr rfl) (.inr rfl) (.inr rfl)

end Sys2Proof.Safety
end

