-- ==== Sys2Proof/Laws/SameChannelOps.lean ====
section
/-! SUPPORT. The parts of the state that the operations of Machine/ChannelOps.lean leave alone. -/
namespace Sys2Proof.Safety

open Sys2Proof.Machine

set_option simprocs false

theorem abortMeas_same {pm : Nat} {z : State} {s : State} {c : Fin 16} (hm : covers pm 258) (hz : Same pm z s) :
    Same pm z (abortMeas s c) := by
  have h2 : covers pm 2 := hm.le rfl
  have h256 : covers pm 256 := hm.le rfl
  unfold abortMeas
  repeat' first
    | with_reducible assumption | with_reducible apply updCh_same h2 | with_reducible apply reply_same h256 | split
    | dsimp only
    | with_reducible
      refine Same.upd ?_ (.inr rfl) (.inr rfl) (.inr rfl) (.inr rfl) (.inr rfl) (.inr rfl) (.inr rfl) (.inr rfl)
        (.inr rfl) (.inr rfl) (.inr rfl) (.inr rfl) (.inr rfl) (.inr rfl) (.inr rfl) (.inr rfl) (.inr rfl) (.inr rfl)
        (.inr rfl) (.inr rfl) (.inr rfl) (.inr rfl)

theorem changeSource_same {pm : Nat} {z : State} {s : State} {c : Fin 16} {n : Src} (hm : covers pm 898)
    (hz : Same pm z s) :
    Same pm z (changeSource s c n) := by
  have h2 : covers pm 2 := hm.le rfl
  have h258 : covers pm 258 := hm.le rfl
  have h640 : covers pm 640 := hm.le rfl
  unfold changeSource
  repeat' first
    | with_reducible assumption | with_reducible apply updCh_same h2 | with_reducible apply queueEvent_same h640
    | with_reducible apply abortMeas_same h258 | with_reducible apply Same.ite | split | dsimp only
    | with_reducible
      refine Same.upd ?_ (.inr rfl) (.inr rfl) (.inr rfl) (.inr rfl) (.inr rfl) (.inr rfl) (.inr rfl) (.inr rfl)
        (.inr rfl) (.inr rfl) (.inr rfl) (.inr rfl) (.inr rfl) (.inr rfl) (.inr rfl) (.inr rfl) (.inr rfl) (.inr rfl)
        (.inr rfl) (.inr rfl) (.inr rfl) (.inr rfl)

theorem moveChannel_same {pm : Nat} {z : State} {s : State} {c : Fin 16} {n : ChState} (hm : covers pm 642)
    (hz : Same pm z s) :
    Same pm z (moveChannel s c n) := by
  have h2 : covers pm 2 := hm.le rfl
  have h640 : covers pm 640 := hm.le rfl
  unfold moveChannel
  repeat' first
    | with_reducible assumption | with_reducible apply updCh_same h2 | with_reducible apply queueEvent_same h640
    | with_reducible apply Same.ite | split | dsimp only
    | with_reducible
      refine Same.upd ?_ (.inr rfl) (.inr rfl) (.inr rfl) (.inr rfl) (.inr rfl) (.inr rfl) (.inr rfl) (.inr rfl)
        (.inr rfl) (.inr rfl) (.inr rfl) (.inr rfl) (.inr rfl) (.inr rfl) (.inr rfl) (.inr rfl) (.inr rfl) (.inr rfl)
        (.inr rfl) (.inr rfl) (.inr rfl) (.inr rfl)

theorem openChannel_same {pm : Nat} {z : State} {s : State} {c : Fin 16} {f : Chan → Chan} (hm : covers pm 642)
    (hz : Same pm z s) :
    Same pm z (openChannel s c f) := by
  have h2 : covers pm 2 := hm.le rfl
  have h640 : covers pm 640 := hm.le rfl
  unfold openChannel
  repeat' first
    | with_reducible assumption | with_reducible apply updCh_same h2 | with_reducible apply queueEvent_same h640
    | with_reducible apply Same.ite | split | dsimp only

theorem leaveRestart_same {pm : Nat} {z : State} {s : State} {c : Fin 16} (hm : covers pm 12) (hz : Same pm z s) :
    Same pm z (leaveRestart s c) := by
  have h4 : covers pm 4 := hm.le rfl
  have h8 : covers pm 8 := hm.le rfl
  unfold leaveRestart
  repeat' first
    | with_reducible assumption | with_reducible apply updLeg_same h4 | with_reducible apply updGrp_same h8
    | with_reducible apply Same.ite | split | dsimp only
    | with_reducible
      refine Same.upd ?_ (.inr rfl) (.inr rfl) (.inr rfl) (.inr rfl) (.inr rfl) (.inr rfl) (.inr rfl) (.inr rfl)
        (.inr rfl) (.inr rfl) (.inr rfl) (.inr rfl) (.inr rfl) (.inr rfl) (.inr rfl) (.inr rfl) (.inr rfl) (.inr rfl)
        (.inr rfl) (.inr rfl) (.inr rfl) (.inr rfl)

theorem faultChannel_same {pm : Nat} {z : State} {s : State} {c : Fin 16} {cause : Nat} (hm : covers pm 974)
    (hz : Same pm z s) :
    Same pm z (faultChannel s c cause) := by
  have h2 : covers pm 2 := hm.le rfl
  have h12 : covers pm 12 := hm.le rfl
  have h258 : covers pm 258 := hm.le rfl
  have h640 : covers pm 640 := hm.le rfl
  have h642 : covers pm 642 := hm.le rfl
  have h706 : covers pm 706 := hm.le rfl
  unfold faultChannel
  repeat' first
    | with_reducible assumption | with_reducible apply updCh_same h2 | with_reducible apply queueEvent_same h640
    | with_reducible apply abortProgram_same h706 | with_reducible apply abortMeas_same h258
    | with_reducible apply moveChannel_same h642 | with_reducible apply openChannel_same h642
    | with_reducible apply leaveRestart_same h12 | with_reducible apply Same.ite | split | dsimp only
    | with_reducible
      refine Same.upd ?_ (.inr rfl) (.inr rfl) (.inr rfl) (.inr rfl) (.inr rfl) (.inr rfl) (.inr rfl) (.inr rfl)
        (.inr rfl) (.inr rfl) (.inr rfl) (.inr rfl) (.inr rfl) (.inr rfl) (.inr rfl) (.inr rfl) (.inr rfl) (.inr rfl)
        (.inr rfl) (.inr rfl) (.inr rfl) (.inr rfl)

theorem checkDoneEvent_same {pm : Nat} {z : State} {s : State} {d : Fin 16} (hm : covers pm 640) (hz : Same pm z s) :
    Same pm z (checkDoneEvent s d) := by
  have h640 : covers pm 640 := hm.le rfl
  unfold checkDoneEvent
  repeat' first
    | with_reducible assumption | with_reducible apply queueEvent_same h640 | split | dsimp only

theorem faultMembers_same {pm : Nat} {z : State} {s : State} {c : Fin 16} {l : List (Fin 16 × Nat)}
    (hm : covers pm 974) (hz : Same pm z s) :
    Same pm z (faultMembers s c l) := by
  have h640 : covers pm 640 := hm.le rfl
  have h974 : covers pm 974 := hm.le rfl
  unfold faultMembers
  repeat' first
    | with_reducible assumption | (with_reducible apply Same.foldl; rotate_left; intro _ _ _)
    | with_reducible apply faultChannel_same h974 | with_reducible apply checkDoneEvent_same h640
    | with_reducible apply Same.ite | split | dsimp only

theorem faultGang_same {pm : Nat} {z : State} {s : State} {c : Fin 16} {cause : Nat} (hm : covers pm 974)
    (hz : Same pm z s) :
    Same pm z (faultGang s c cause) := by
  have h974 : covers pm 974 := hm.le rfl
  unfold faultGang
  repeat' first
    | with_reducible assumption | with_reducible apply faultMembers_same h974 | split | dsimp only

theorem legsFault_same {pm : Nat} {z : State} {s : State} {c : Fin 16} (hm : covers pm 974) (hz : Same pm z s) :
    Same pm z (legsFault s c) := by
  have h974 : covers pm 974 := hm.le rfl
  unfold legsFault
  repeat' first
    | with_reducible assumption | with_reducible apply faultGang_same h974 | with_reducible apply Same.ite | split
    | dsimp only

theorem offChannel_same {pm : Nat} {z : State} {s : State} {c : Fin 16} (hm : covers pm 910) (hz : Same pm z s) :
    Same pm z (offChannel s c) := by
  have h2 : covers pm 2 := hm.le rfl
  have h12 : covers pm 12 := hm.le rfl
  have h258 : covers pm 258 := hm.le rfl
  have h642 : covers pm 642 := hm.le rfl
  unfold offChannel
  repeat' first
    | with_reducible assumption | with_reducible apply updCh_same h2 | with_reducible apply abortMeas_same h258
    | with_reducible apply moveChannel_same h642 | with_reducible apply openChannel_same h642
    | with_reducible apply leaveRestart_same h12 | split | dsimp only
    | with_reducible
      refine Same.upd ?_ (.inr rfl) (.inr rfl) (.inr rfl) (.inr rfl) (.inr rfl) (.inr rfl) (.inr rfl) (.inr rfl)
        (.inr rfl) (.inr rfl) (.inr rfl) (.inr rfl) (.inr rfl) (.inr rfl) (.inr rfl) (.inr rfl) (.inr rfl) (.inr rfl)
        (.inr rfl) (.inr rfl) (.inr rfl) (.inr rfl)

theorem forceOffChannel_same {pm : Nat} {z : State} {s : State} {c : Fin 16} (hm : covers pm 910) (hz : Same pm z s) :
    Same pm z (forceOffChannel s c) := by
  have h2 : covers pm 2 := hm.le rfl
  have h12 : covers pm 12 := hm.le rfl
  have h258 : covers pm 258 := hm.le rfl
  have h642 : covers pm 642 := hm.le rfl
  unfold forceOffChannel
  repeat' first
    | with_reducible assumption | with_reducible apply updCh_same h2 | with_reducible apply abortMeas_same h258
    | with_reducible apply moveChannel_same h642 | with_reducible apply openChannel_same h642
    | with_reducible apply leaveRestart_same h12 | split | dsimp only
    | with_reducible
      refine Same.upd ?_ (.inr rfl) (.inr rfl) (.inr rfl) (.inr rfl) (.inr rfl) (.inr rfl) (.inr rfl) (.inr rfl)
        (.inr rfl) (.inr rfl) (.inr rfl) (.inr rfl) (.inr rfl) (.inr rfl) (.inr rfl) (.inr rfl) (.inr rfl) (.inr rfl)
        (.inr rfl) (.inr rfl) (.inr rfl) (.inr rfl)

theorem holdChannel_same {pm : Nat} {z : State} {s : State} {c : Fin 16} (hm : covers pm 898) (hz : Same pm z s) :
    Same pm z (holdChannel s c) := by
  have h2 : covers pm 2 := hm.le rfl
  have h258 : covers pm 258 := hm.le rfl
  have h642 : covers pm 642 := hm.le rfl
  unfold holdChannel
  repeat' first
    | with_reducible assumption | with_reducible apply updCh_same h2 | with_reducible apply abortMeas_same h258
    | with_reducible apply moveChannel_same h642 | with_reducible apply Same.ite | split | dsimp only
    | with_reducible
      refine Same.upd ?_ (.inr rfl) (.inr rfl) (.inr rfl) (.inr rfl) (.inr rfl) (.inr rfl) (.inr rfl) (.inr rfl)
        (.inr rfl) (.inr rfl) (.inr rfl) (.inr rfl) (.inr rfl) (.inr rfl) (.inr rfl) (.inr rfl) (.inr rfl) (.inr rfl)
        (.inr rfl) (.inr rfl) (.inr rfl) (.inr rfl)

theorem holdNow_same {pm : Nat} {z : State} {s : State} {c : Fin 16} {cause : Nat} (hm : covers pm 962)
    (hz : Same pm z s) :
    Same pm z (holdNow s c cause) := by
  have h2 : covers pm 2 := hm.le rfl
  have h706 : covers pm 706 := hm.le rfl
  have h898 : covers pm 898 := hm.le rfl
  unfold holdNow
  repeat' first
    | with_reducible assumption | (with_reducible apply Same.foldl; rotate_left; intro _ _ _)
    | with_reducible apply addCause_same h2 | with_reducible apply holdProgram_same h706
    | with_reducible apply holdChannel_same h898 | split | dsimp only

theorem sequenceEnds_same {pm : Nat} {z : State} {s : State} {c : Fin 16} (hm : covers pm 1) (hz : Same pm z s) :
    Same pm z (sequenceEnds s c) := by
  have b0 : pm.testBit 0 = true := hm.bit rfl
  unfold sequenceEnds
  repeat' first
    | with_reducible assumption | split | dsimp only
    | with_reducible
      refine Same.upd ?_ (.inl b0) (.inr rfl) (.inr rfl) (.inr rfl) (.inr rfl) (.inr rfl) (.inr rfl) (.inr rfl)
        (.inr rfl) (.inr rfl) (.inr rfl) (.inr rfl) (.inr rfl) (.inr rfl) (.inr rfl) (.inr rfl) (.inr rfl) (.inr rfl)
        (.inr rfl) (.inr rfl) (.inr rfl) (.inr rfl)

end Sys2Proof.Safety
end

