-- ==== Sys2Proof/Laws/SameEngineOps.lean ====
section
/-! SUPPORT. The parts of the state that the operations of Machine/EngineOps.lean leave alone. -/
namespace Sys2Proof.Safety

open Sys2Proof.Machine

set_option simprocs false

theorem recordTest_same {pm : Nat} {z : State} {s : State} {k : Fin 6} {arg result applied expected : Nat}
    (hm : covers pm 262144) (hz : Same pm z s) :
    Same pm z (recordTest s k arg result applied expected) := by
  have b18 : pm.testBit 18 = true := hm.bit rfl
  unfold recordTest
  repeat' first
    | with_reducible assumption | split | dsimp only
    | with_reducible
      refine Same.upd ?_ (.inr rfl) (.inr rfl) (.inr rfl) (.inr rfl) (.inr rfl) (.inr rfl) (.inr rfl) (.inr rfl)
        (.inr rfl) (.inr rfl) (.inr rfl) (.inr rfl) (.inr rfl) (.inr rfl) (.inr rfl) (.inr rfl) (.inr rfl) (.inr rfl)
        (.inl b18) (.inr rfl) (.inr rfl) (.inr rfl)

theorem testDone_same {pm : Nat} {z : State} {s : State} {k : Fin 6} {result : Nat} (hm : covers pm 640)
    (hz : Same pm z s) :
    Same pm z (testDone s k result) := by
  have h640 : covers pm 640 := hm.le rfl
  unfold testDone
  repeat' first
    | with_reducible assumption | with_reducible apply queueEvent_same h640 | split | dsimp only

theorem abandonBist_same {pm : Nat} {z : State} {s : State} {k : Fin 5} (hm : covers pm 263057) (hz : Same pm z s) :
    Same pm z (abandonBist s k) := by
  have h1 : covers pm 1 := hm.le rfl
  have h16 : covers pm 16 := hm.le rfl
  have h256 : covers pm 256 := hm.le rfl
  have h640 : covers pm 640 := hm.le rfl
  have h262144 : covers pm 262144 := hm.le rfl
  have b18 : pm.testBit 18 = true := hm.bit rfl
  unfold abandonBist
  repeat' first
    | with_reducible assumption | with_reducible apply updCe_same h16 | with_reducible apply reply_same h256
    | with_reducible apply drawFree_same h1 | with_reducible apply recordTest_same h262144
    | with_reducible apply testDone_same h640 | with_reducible apply Same.ite | split | dsimp only
    | with_reducible
      refine Same.upd ?_ (.inr rfl) (.inr rfl) (.inr rfl) (.inr rfl) (.inr rfl) (.inr rfl) (.inr rfl) (.inr rfl)
        (.inr rfl) (.inr rfl) (.inr rfl) (.inr rfl) (.inr rfl) (.inr rfl) (.inr rfl) (.inr rfl) (.inr rfl) (.inr rfl)
        (.inl b18) (.inr rfl) (.inr rfl) (.inr rfl)

theorem loadGroup_same {pm : Nat} {z : State} {s : State} {g : Fin 4} {k : Fin 5} (hm : covers pm 2)
    (hz : Same pm z s) :
    Same pm z (loadGroup s g k) := by
  have h2 : covers pm 2 := hm.le rfl
  unfold loadGroup
  repeat' first
    | with_reducible assumption | (with_reducible apply Same.foldl; rotate_left; intro _ _ _)
    | with_reducible apply updCh_same h2 | split | dsimp only
    | with_reducible
      refine Same.upd ?_ (.inr rfl) (.inr rfl) (.inr rfl) (.inr rfl) (.inr rfl) (.inr rfl) (.inr rfl) (.inr rfl)
        (.inr rfl) (.inr rfl) (.inr rfl) (.inr rfl) (.inr rfl) (.inr rfl) (.inr rfl) (.inr rfl) (.inr rfl) (.inr rfl)
        (.inr rfl) (.inr rfl) (.inr rfl) (.inr rfl)

theorem unstageCastle_same {pm : Nat} {z : State} {s : State} {g : Fin 4} (hm : covers pm 32) (hz : Same pm z s) :
    Same pm z (unstageCastle s g) := by
  have b5 : pm.testBit 5 = true := hm.bit rfl
  unfold unstageCastle
  repeat' first
    | with_reducible assumption | split | dsimp only
    | with_reducible
      refine Same.upd ?_ (.inr rfl) (.inr rfl) (.inr rfl) (.inr rfl) (.inr rfl) (.inl b5) (.inr rfl) (.inr rfl)
        (.inr rfl) (.inr rfl) (.inr rfl) (.inr rfl) (.inr rfl) (.inr rfl) (.inr rfl) (.inr rfl) (.inr rfl) (.inr rfl)
        (.inr rfl) (.inr rfl) (.inr rfl) (.inr rfl)

theorem dropCastle_same {pm : Nat} {z : State} {s : State} {g : Fin 4} (hm : covers pm 56) (hz : Same pm z s) :
    Same pm z (dropCastle s g) := by
  have h8 : covers pm 8 := hm.le rfl
  have h16 : covers pm 16 := hm.le rfl
  have h32 : covers pm 32 := hm.le rfl
  unfold dropCastle
  repeat' first
    | with_reducible assumption | with_reducible apply updGrp_same h8 | with_reducible apply updCe_same h16
    | with_reducible apply unstageCastle_same h32 | with_reducible apply Same.ite | split | dsimp only
    | with_reducible
      refine Same.upd ?_ (.inr rfl) (.inr rfl) (.inr rfl) (.inr rfl) (.inr rfl) (.inr rfl) (.inr rfl) (.inr rfl)
        (.inr rfl) (.inr rfl) (.inr rfl) (.inr rfl) (.inr rfl) (.inr rfl) (.inr rfl) (.inr rfl) (.inr rfl) (.inr rfl)
        (.inr rfl) (.inr rfl) (.inr rfl) (.inr rfl)

theorem abortCastle_same {pm : Nat} {z : State} {s : State} {g : Fin 4} {reason : Nat} (hm : covers pm 697)
    (hz : Same pm z s) :
    Same pm z (abortCastle s g reason) := by
  have h56 : covers pm 56 := hm.le rfl
  have h640 : covers pm 640 := hm.le rfl
  have b0 : pm.testBit 0 = true := hm.bit rfl
  unfold abortCastle
  repeat' first
    | with_reducible assumption | with_reducible apply queueEvent_same h640 | with_reducible apply dropCastle_same h56
    | with_reducible apply Same.ite | split | dsimp only
    | with_reducible
      refine Same.upd ?_ (.inl b0) (.inr rfl) (.inr rfl) (.inr rfl) (.inr rfl) (.inr rfl) (.inr rfl) (.inr rfl)
        (.inr rfl) (.inr rfl) (.inr rfl) (.inr rfl) (.inr rfl) (.inr rfl) (.inr rfl) (.inr rfl) (.inr rfl) (.inr rfl)
        (.inr rfl) (.inr rfl) (.inr rfl) (.inr rfl)

theorem abortPlanned_same {pm : Nat} {z : State} {s : State} {reason : Nat} (hm : covers pm 697) (hz : Same pm z s) :
    Same pm z (abortPlanned s reason) := by
  have h697 : covers pm 697 := hm.le rfl
  unfold abortPlanned
  repeat' first
    | with_reducible assumption | (with_reducible apply Same.foldl; rotate_left; intro _ _ _)
    | with_reducible apply abortCastle_same h697 | split | dsimp only

theorem stageCastle_same {pm : Nat} {z : State} {s : State} {g : Fin 4} {fromCe : Option (Fin 5)} {toCe : Fin 5}
    {planned ready acked : Bool}
    {skipped : Nat} (hm : covers pm 263097) (hz : Same pm z s) :
    Same pm z (stageCastle s g fromCe toCe planned ready acked skipped) := by
  have h8 : covers pm 8 := hm.le rfl
  have h16 : covers pm 16 := hm.le rfl
  have h32 : covers pm 32 := hm.le rfl
  have h263057 : covers pm 263057 := hm.le rfl
  unfold stageCastle
  repeat' first
    | with_reducible assumption | with_reducible apply updGrp_same h8 | with_reducible apply updCe_same h16
    | with_reducible apply stage_same h32 | with_reducible apply abandonBist_same h263057
    | with_reducible apply Same.ite | split | dsimp only
    | with_reducible
      refine Same.upd ?_ (.inr rfl) (.inr rfl) (.inr rfl) (.inr rfl) (.inr rfl) (.inr rfl) (.inr rfl) (.inr rfl)
        (.inr rfl) (.inr rfl) (.inr rfl) (.inr rfl) (.inr rfl) (.inr rfl) (.inr rfl) (.inr rfl) (.inr rfl) (.inr rfl)
        (.inr rfl) (.inr rfl) (.inr rfl) (.inr rfl)

theorem holdGroup_same {pm : Nat} {z : State} {s : State} {g : Fin 4} (hm : covers pm 962) (hz : Same pm z s) :
    Same pm z (holdGroup s g) := by
  have h962 : covers pm 962 := hm.le rfl
  unfold holdGroup
  repeat' first
    | with_reducible assumption | (with_reducible apply Same.foldl; rotate_left; intro _ _ _)
    | with_reducible apply holdNow_same h962 | with_reducible apply Same.ite | split | dsimp only

theorem loseOwner_same {pm : Nat} {z : State} {s : State} {g : Fin 4} {k : Fin 5} {skipped : Nat}
    (hm : covers pm 1018) (hz : Same pm z s) :
    Same pm z (loseOwner s g k skipped) := by
  have h2 : covers pm 2 := hm.le rfl
  have h8 : covers pm 8 := hm.le rfl
  have h56 : covers pm 56 := hm.le rfl
  have h640 : covers pm 640 := hm.le rfl
  have h962 : covers pm 962 := hm.le rfl
  unfold loseOwner
  repeat' first
    | with_reducible assumption | with_reducible apply updGrp_same h8 | with_reducible apply queueEvent_same h640
    | with_reducible apply loadGroup_same h2 | with_reducible apply dropCastle_same h56
    | with_reducible apply holdGroup_same h962 | split | dsimp only
    | with_reducible
      refine Same.upd ?_ (.inr rfl) (.inr rfl) (.inr rfl) (.inr rfl) (.inr rfl) (.inr rfl) (.inr rfl) (.inr rfl)
        (.inr rfl) (.inr rfl) (.inr rfl) (.inr rfl) (.inr rfl) (.inr rfl) (.inr rfl) (.inr rfl) (.inr rfl) (.inr rfl)
        (.inr rfl) (.inr rfl) (.inr rfl) (.inr rfl)

theorem withholdRefs_same {pm : Nat} {z : State} {s : State} {g : Fin 4} (hm : covers pm 4) (hz : Same pm z s) :
    Same pm z (withholdRefs s g) := by
  have h4 : covers pm 4 := hm.le rfl
  unfold withholdRefs
  repeat' first
    | with_reducible assumption | (with_reducible apply Same.foldl; rotate_left; intro _ _ _)
    | with_reducible apply updLeg_same h4 | with_reducible apply Same.ite | split | dsimp only
    | with_reducible
      refine Same.upd ?_ (.inr rfl) (.inr rfl) (.inr rfl) (.inr rfl) (.inr rfl) (.inr rfl) (.inr rfl) (.inr rfl)
        (.inr rfl) (.inr rfl) (.inr rfl) (.inr rfl) (.inr rfl) (.inr rfl) (.inr rfl) (.inr rfl) (.inr rfl) (.inr rfl)
        (.inr rfl) (.inr rfl) (.inr rfl) (.inr rfl)

theorem missSample_same {pm : Nat} {z : State} {s : State} {g : Fin 4} (hm : covers pm 5) (hz : Same pm z s) :
    Same pm z (missSample s g).2 := by
  have h1 : covers pm 1 := hm.le rfl
  have h4 : covers pm 4 := hm.le rfl
  unfold missSample
  repeat' first
    | with_reducible assumption | with_reducible apply drawFree_same h1 | with_reducible apply withholdRefs_same h4
    | with_reducible apply Same.ite | with_reducible apply Same.iteSnd | split | dsimp only
    | with_reducible
      refine Same.upd ?_ (.inr rfl) (.inr rfl) (.inr rfl) (.inr rfl) (.inr rfl) (.inr rfl) (.inr rfl) (.inr rfl)
        (.inr rfl) (.inr rfl) (.inr rfl) (.inr rfl) (.inr rfl) (.inr rfl) (.inr rfl) (.inr rfl) (.inr rfl) (.inr rfl)
        (.inr rfl) (.inr rfl) (.inr rfl) (.inr rfl)

theorem turnUnplanned_same {pm : Nat} {z : State} {s : State} {g : Fin 4} {skipped : Nat} (hm : covers pm 8)
    (hz : Same pm z s) :
    Same pm z (turnUnplanned s g skipped) := by
  have h8 : covers pm 8 := hm.le rfl
  unfold turnUnplanned
  repeat' first
    | with_reducible assumption | with_reducible apply updGrp_same h8 | split | dsimp only
    | with_reducible
      refine Same.upd ?_ (.inr rfl) (.inr rfl) (.inr rfl) (.inr rfl) (.inr rfl) (.inr rfl) (.inr rfl) (.inr rfl)
        (.inr rfl) (.inr rfl) (.inr rfl) (.inr rfl) (.inr rfl) (.inr rfl) (.inr rfl) (.inr rfl) (.inr rfl) (.inr rfl)
        (.inr rfl) (.inr rfl) (.inr rfl) (.inr rfl)

theorem unplannedCastle_same {pm : Nat} {z : State} {s : State} {g : Fin 4} {k : Fin 5} (hm : covers pm 263167)
    (hz : Same pm z s) :
    Same pm z (unplannedCastle s g k) := by
  have h5 : covers pm 5 := hm.le rfl
  have h8 : covers pm 8 := hm.le rfl
  have h16 : covers pm 16 := hm.le rfl
  have h697 : covers pm 697 := hm.le rfl
  have h1018 : covers pm 1018 := hm.le rfl
  have h263097 : covers pm 263097 := hm.le rfl
  unfold unplannedCastle
  repeat' first
    | with_reducible assumption | with_reducible apply updCe_same h16 | with_reducible apply abortPlanned_same h697
    | with_reducible apply stageCastle_same h263097 | with_reducible apply loseOwner_same h1018
    | with_reducible apply missSample_same h5 | with_reducible apply turnUnplanned_same h8 | split | dsimp only
    | with_reducible
      refine Same.upd ?_ (.inr rfl) (.inr rfl) (.inr rfl) (.inr rfl) (.inr rfl) (.inr rfl) (.inr rfl) (.inr rfl)
        (.inr rfl) (.inr rfl) (.inr rfl) (.inr rfl) (.inr rfl) (.inr rfl) (.inr rfl) (.inr rfl) (.inr rfl) (.inr rfl)
        (.inr rfl) (.inr rfl) (.inr rfl) (.inr rfl)

theorem receiverFails_same {pm : Nat} {z : State} {s : State} {k : Fin 5} (hm : covers pm 1019) (hz : Same pm z s) :
    Same pm z (receiverFails s k) := by
  have h16 : covers pm 16 := hm.le rfl
  have h697 : covers pm 697 := hm.le rfl
  have h1018 : covers pm 1018 := hm.le rfl
  unfold receiverFails
  repeat' first
    | with_reducible assumption | (with_reducible apply Same.foldl; rotate_left; intro _ _ _)
    | with_reducible apply updCe_same h16 | with_reducible apply abortCastle_same h697
    | with_reducible apply loseOwner_same h1018 | with_reducible apply Same.ite | split | dsimp only
    | with_reducible
      refine Same.upd ?_ (.inr rfl) (.inr rfl) (.inr rfl) (.inr rfl) (.inr rfl) (.inr rfl) (.inr rfl) (.inr rfl)
        (.inr rfl) (.inr rfl) (.inr rfl) (.inr rfl) (.inr rfl) (.inr rfl) (.inr rfl) (.inr rfl) (.inr rfl) (.inr rfl)
        (.inr rfl) (.inr rfl) (.inr rfl) (.inr rfl)

theorem holdRecovering_same {pm : Nat} {z : State} {s : State} (hm : covers pm 962) (hz : Same pm z s) :
    Same pm z (holdRecovering s) := by
  have h962 : covers pm 962 := hm.le rfl
  unfold holdRecovering
  repeat' first
    | with_reducible assumption | (with_reducible apply Same.foldl; rotate_left; intro _ _ _)
    | with_reducible apply holdGroup_same h962 | split | dsimp only

theorem markFailed_same {pm : Nat} {z : State} {s : State} {g : Fin 4} {k : Fin 5} (hm : covers pm 32)
    (hz : Same pm z s) :
    Same pm z (markFailed s g k) := by
  have b5 : pm.testBit 5 = true := hm.bit rfl
  unfold markFailed
  repeat' first
    | with_reducible assumption | with_reducible apply Same.ite | split | dsimp only
    | with_reducible
      refine Same.upd ?_ (.inr rfl) (.inr rfl) (.inr rfl) (.inr rfl) (.inr rfl) (.inl b5) (.inr rfl) (.inr rfl)
        (.inr rfl) (.inr rfl) (.inr rfl) (.inr rfl) (.inr rfl) (.inr rfl) (.inr rfl) (.inr rfl) (.inr rfl) (.inr rfl)
        (.inr rfl) (.inr rfl) (.inr rfl) (.inr rfl)

theorem castleFor_same {pm : Nat} {z : State} {s : State} {k : Fin 5} (hm : covers pm 263167) (hz : Same pm z s) :
    Same pm z (castleFor s k) := by
  have h32 : covers pm 32 := hm.le rfl
  have h1019 : covers pm 1019 := hm.le rfl
  have h263167 : covers pm 263167 := hm.le rfl
  unfold castleFor
  repeat' first
    | with_reducible assumption | with_reducible apply unplannedCastle_same h263167
    | with_reducible apply receiverFails_same h1019 | with_reducible apply markFailed_same h32 | split | dsimp only
    | with_reducible
      refine Same.upd ?_ (.inr rfl) (.inr rfl) (.inr rfl) (.inr rfl) (.inr rfl) (.inr rfl) (.inr rfl) (.inr rfl)
        (.inr rfl) (.inr rfl) (.inr rfl) (.inr rfl) (.inr rfl) (.inr rfl) (.inr rfl) (.inr rfl) (.inr rfl) (.inr rfl)
        (.inr rfl) (.inr rfl) (.inr rfl) (.inr rfl)

theorem engineFails_same {pm : Nat} {z : State} {s : State} {k : Fin 5} (hm : covers pm 263167) (hz : Same pm z s) :
    Same pm z (engineFails s k) := by
  have h16 : covers pm 16 := hm.le rfl
  have h962 : covers pm 962 := hm.le rfl
  have h263167 : covers pm 263167 := hm.le rfl
  unfold engineFails
  repeat' first
    | with_reducible assumption | with_reducible apply updCe_same h16 | with_reducible apply holdRecovering_same h962
    | with_reducible apply castleFor_same h263167 | with_reducible apply Same.ite | split | dsimp only
    | with_reducible
      refine Same.upd ?_ (.inr rfl) (.inr rfl) (.inr rfl) (.inr rfl) (.inr rfl) (.inr rfl) (.inr rfl) (.inr rfl)
        (.inr rfl) (.inr rfl) (.inr rfl) (.inr rfl) (.inr rfl) (.inr rfl) (.inr rfl) (.inr rfl) (.inr rfl) (.inr rfl)
        (.inr rfl) (.inr rfl) (.inr rfl) (.inr rfl)

theorem adoptGroup_same {pm : Nat} {z : State} {s : State} (hm : covers pm 263097) (hz : Same pm z s) :
    Same pm z (adoptGroup s) := by
  have h263097 : covers pm 263097 := hm.le rfl
  unfold adoptGroup
  repeat' first
    | with_reducible assumption | with_reducible apply stageCastle_same h263097 | split | dsimp only
    | with_reducible
      refine Same.upd ?_ (.inr rfl) (.inr rfl) (.inr rfl) (.inr rfl) (.inr rfl) (.inr rfl) (.inr rfl) (.inr rfl)
        (.inr rfl) (.inr rfl) (.inr rfl) (.inr rfl) (.inr rfl) (.inr rfl) (.inr rfl) (.inr rfl) (.inr rfl) (.inr rfl)
        (.inr rfl) (.inr rfl) (.inr rfl) (.inr rfl)

theorem retireCe_same {pm : Nat} {z : State} {s : State} {k : Fin 5} (hm : covers pm 1681) (hz : Same pm z s) :
    Same pm z (retireCe s k) := by
  have h16 : covers pm 16 := hm.le rfl
  have h640 : covers pm 640 := hm.le rfl
  have b0 : pm.testBit 0 = true := hm.bit rfl
  have b10 : pm.testBit 10 = true := hm.bit rfl
  unfold retireCe
  repeat' first
    | with_reducible assumption | with_reducible apply updCe_same h16 | with_reducible apply queueEvent_same h640
    | split | dsimp only
    | with_reducible
      refine Same.upd ?_ (.inl b0) (.inr rfl) (.inr rfl) (.inr rfl) (.inr rfl) (.inr rfl) (.inr rfl) (.inr rfl)
        (.inr rfl) (.inr rfl) (.inl b10) (.inr rfl) (.inr rfl) (.inr rfl) (.inr rfl) (.inr rfl) (.inr rfl) (.inr rfl)
        (.inr rfl) (.inr rfl) (.inr rfl) (.inr rfl)

theorem hotCastle_same {pm : Nat} {z : State} {s : State} {k : Fin 5} (hm : covers pm 263097) (hz : Same pm z s) :
    Same pm z (hotCastle s k) := by
  have h1 : covers pm 1 := hm.le rfl
  have h697 : covers pm 697 := hm.le rfl
  have h263097 : covers pm 263097 := hm.le rfl
  unfold hotCastle
  repeat' first
    | with_reducible assumption | with_reducible apply drawFree_same h1 | with_reducible apply abortCastle_same h697
    | with_reducible apply stageCastle_same h263097 | with_reducible apply Same.ite | split | dsimp only
    | with_reducible
      refine Same.upd ?_ (.inr rfl) (.inr rfl) (.inr rfl) (.inr rfl) (.inr rfl) (.inr rfl) (.inr rfl) (.inr rfl)
        (.inr rfl) (.inr rfl) (.inr rfl) (.inr rfl) (.inr rfl) (.inr rfl) (.inr rfl) (.inr rfl) (.inr rfl) (.inr rfl)
        (.inr rfl) (.inr rfl) (.inr rfl) (.inr rfl)

end Sys2Proof.Safety
end

