-- ==== Sys2Proof/Laws/SameSafetyOps.lean ====
section
/-! SUPPORT. The parts of the state that the operations of Machine/SafetyOps.lean leave alone. -/
namespace Sys2Proof.Safety

open Sys2Proof.Machine

set_option simprocs false

theorem logChange_same {pm : Nat} {z : State} {s : State} {slot kind param : Nat} {old new : Word} {commit : Nat}
    (hm : covers pm 1025) (hz : Same pm z s) :
    Same pm z (logChange s slot kind param old new commit) := by
  have h1 : covers pm 1 := hm.le rfl
  have b10 : pm.testBit 10 = true := hm.bit rfl
  unfold logChange
  repeat' first
    | with_reducible assumption | with_reducible apply timePasses_same h1 | split | dsimp only
    | with_reducible
      refine Same.upd ?_ (.inr rfl) (.inr rfl) (.inr rfl) (.inr rfl) (.inr rfl) (.inr rfl) (.inr rfl) (.inr rfl)
        (.inr rfl) (.inr rfl) (.inl b10) (.inr rfl) (.inr rfl) (.inr rfl) (.inr rfl) (.inr rfl) (.inr rfl) (.inr rfl)
        (.inr rfl) (.inr rfl) (.inr rfl) (.inr rfl)

theorem closeSession_same {pm : Nat} {z : State} {s : State} {reason : Nat} (hm : covers pm 3713) (hz : Same pm z s) :
    Same pm z (closeSession s reason) := by
  have h640 : covers pm 640 := hm.le rfl
  have h1025 : covers pm 1025 := hm.le rfl
  have b11 : pm.testBit 11 = true := hm.bit rfl
  unfold closeSession
  repeat' first
    | with_reducible assumption | with_reducible apply queueEvent_same h640
    | with_reducible apply logChange_same h1025 | with_reducible apply Same.ite | split | dsimp only
    | with_reducible
      refine Same.upd ?_ (.inr rfl) (.inr rfl) (.inr rfl) (.inr rfl) (.inr rfl) (.inr rfl) (.inr rfl) (.inr rfl)
        (.inr rfl) (.inr rfl) (.inr rfl) (.inl b11) (.inr rfl) (.inr rfl) (.inr rfl) (.inr rfl) (.inr rfl) (.inr rfl)
        (.inr rfl) (.inr rfl) (.inr rfl) (.inr rfl)

theorem touchSession_same {pm : Nat} {z : State} {s : State} (hm : covers pm 2049) (hz : Same pm z s) :
    Same pm z (touchSession s) := by
  have h1 : covers pm 1 := hm.le rfl
  have b11 : pm.testBit 11 = true := hm.bit rfl
  unfold touchSession
  repeat' first
    | with_reducible assumption | with_reducible apply timePasses_same h1 | split | dsimp only
    | with_reducible
      refine Same.upd ?_ (.inr rfl) (.inr rfl) (.inr rfl) (.inr rfl) (.inr rfl) (.inr rfl) (.inr rfl) (.inr rfl)
        (.inr rfl) (.inr rfl) (.inr rfl) (.inl b11) (.inr rfl) (.inr rfl) (.inr rfl) (.inr rfl) (.inr rfl) (.inr rfl)
        (.inr rfl) (.inr rfl) (.inr rfl) (.inr rfl)

theorem setOutputs_same {pm : Nat} {z : State} {s : State} {on : BitVec 2} (hm : covers pm 2048) (hz : Same pm z s) :
    Same pm z (setOutputs s on) := by
  have b11 : pm.testBit 11 = true := hm.bit rfl
  unfold setOutputs
  repeat' first
    | with_reducible assumption | split | dsimp only
    | with_reducible
      refine Same.upd ?_ (.inr rfl) (.inr rfl) (.inr rfl) (.inr rfl) (.inr rfl) (.inr rfl) (.inr rfl) (.inr rfl)
        (.inr rfl) (.inr rfl) (.inr rfl) (.inl b11) (.inr rfl) (.inr rfl) (.inr rfl) (.inr rfl) (.inr rfl) (.inr rfl)
        (.inr rfl) (.inr rfl) (.inr rfl) (.inr rfl)

theorem refreshOutputs_same {pm : Nat} {z : State} {s : State} (hm : covers pm 2048) (hz : Same pm z s) :
    Same pm z (refreshOutputs s) := by
  have h2048 : covers pm 2048 := hm.le rfl
  unfold refreshOutputs
  repeat' first
    | with_reducible assumption | with_reducible apply setOutputs_same h2048 | split | dsimp only

theorem safetyEnd_same {pm : Nat} {z : State} {s : State} {c : Fin 16} (hm : covers pm 706) (hz : Same pm z s) :
    Same pm z (safetyEnd s c) := by
  have h706 : covers pm 706 := hm.le rfl
  unfold safetyEnd
  repeat' first
    | with_reducible assumption | with_reducible apply abortProgram_same h706 | split | dsimp only

theorem category0Channel_same {pm : Nat} {z : State} {s : State} {c : Fin 16} (hm : covers pm 974) (hz : Same pm z s) :
    Same pm z (category0Channel s c) := by
  have h642 : covers pm 642 := hm.le rfl
  have h706 : covers pm 706 := hm.le rfl
  have h910 : covers pm 910 := hm.le rfl
  unfold category0Channel
  repeat' first
    | with_reducible assumption | with_reducible apply openChannel_same h642
    | with_reducible apply forceOffChannel_same h910 | with_reducible apply safetyEnd_same h706
    | with_reducible apply Same.ite | split | dsimp only

theorem category0_same {pm : Nat} {z : State} {s : State} (hm : covers pm 3022) (hz : Same pm z s) :
    Same pm z (category0 s) := by
  have h8 : covers pm 8 := hm.le rfl
  have h974 : covers pm 974 := hm.le rfl
  have h2048 : covers pm 2048 := hm.le rfl
  have b11 : pm.testBit 11 = true := hm.bit rfl
  unfold category0
  repeat' first
    | with_reducible assumption | (with_reducible apply Same.foldl; rotate_left; intro _ _ _)
    | with_reducible apply updGrp_same h8 | with_reducible apply setOutputs_same h2048
    | with_reducible apply category0Channel_same h974 | split | dsimp only
    | with_reducible
      refine Same.upd ?_ (.inr rfl) (.inr rfl) (.inr rfl) (.inr rfl) (.inr rfl) (.inr rfl) (.inr rfl) (.inr rfl)
        (.inr rfl) (.inr rfl) (.inr rfl) (.inl b11) (.inr rfl) (.inr rfl) (.inr rfl) (.inr rfl) (.inr rfl) (.inr rfl)
        (.inr rfl) (.inr rfl) (.inr rfl) (.inr rfl)

theorem category1Channel_same {pm : Nat} {z : State} {s : State} {c : Fin 16} (hm : covers pm 974) (hz : Same pm z s) :
    Same pm z (category1Channel s c) := by
  have h706 : covers pm 706 := hm.le rfl
  have h910 : covers pm 910 := hm.le rfl
  unfold category1Channel
  repeat' first
    | with_reducible assumption | with_reducible apply offChannel_same h910 | with_reducible apply safetyEnd_same h706
    | with_reducible apply Same.ite | split | dsimp only

theorem category1_same {pm : Nat} {z : State} {s : State} (hm : covers pm 3022) (hz : Same pm z s) :
    Same pm z (category1 s) := by
  have h974 : covers pm 974 := hm.le rfl
  have b11 : pm.testBit 11 = true := hm.bit rfl
  unfold category1
  repeat' first
    | with_reducible assumption | (with_reducible apply Same.foldl; rotate_left; intro _ _ _)
    | with_reducible apply category1Channel_same h974 | split | dsimp only
    | with_reducible
      refine Same.upd ?_ (.inr rfl) (.inr rfl) (.inr rfl) (.inr rfl) (.inr rfl) (.inr rfl) (.inr rfl) (.inr rfl)
        (.inr rfl) (.inr rfl) (.inr rfl) (.inl b11) (.inr rfl) (.inr rfl) (.inr rfl) (.inr rfl) (.inr rfl) (.inr rfl)
        (.inr rfl) (.inr rfl) (.inr rfl) (.inr rfl)

theorem category2Channel_same {pm : Nat} {z : State} {s : State} {c : Fin 16} (hm : covers pm 974) (hz : Same pm z s) :
    Same pm z (category2Channel s c) := by
  have h2 : covers pm 2 := hm.le rfl
  have h12 : covers pm 12 := hm.le rfl
  have h706 : covers pm 706 := hm.le rfl
  have h910 : covers pm 910 := hm.le rfl
  have h962 : covers pm 962 := hm.le rfl
  unfold category2Channel
  repeat' first
    | with_reducible assumption | (with_reducible apply Same.foldl; rotate_left; intro _ _ _)
    | with_reducible apply updCh_same h2 | with_reducible apply abortProgram_same h706
    | with_reducible apply addCause_same h2 | with_reducible apply leaveRestart_same h12
    | with_reducible apply offChannel_same h910 | with_reducible apply holdNow_same h962 | split | dsimp only
    | with_reducible
      refine Same.upd ?_ (.inr rfl) (.inr rfl) (.inr rfl) (.inr rfl) (.inr rfl) (.inr rfl) (.inr rfl) (.inr rfl)
        (.inr rfl) (.inr rfl) (.inr rfl) (.inr rfl) (.inr rfl) (.inr rfl) (.inr rfl) (.inr rfl) (.inr rfl) (.inr rfl)
        (.inr rfl) (.inr rfl) (.inr rfl) (.inr rfl)

theorem category2_same {pm : Nat} {z : State} {s : State} (hm : covers pm 3022) (hz : Same pm z s) :
    Same pm z (category2 s) := by
  have h974 : covers pm 974 := hm.le rfl
  have b11 : pm.testBit 11 = true := hm.bit rfl
  unfold category2
  repeat' first
    | with_reducible assumption | (with_reducible apply Same.foldl; rotate_left; intro _ _ _)
    | with_reducible apply category2Channel_same h974 | split | dsimp only
    | with_reducible
      refine Same.upd ?_ (.inr rfl) (.inr rfl) (.inr rfl) (.inr rfl) (.inr rfl) (.inr rfl) (.inr rfl) (.inr rfl)
        (.inr rfl) (.inr rfl) (.inr rfl) (.inl b11) (.inr rfl) (.inr rfl) (.inr rfl) (.inr rfl) (.inr rfl) (.inr rfl)
        (.inr rfl) (.inr rfl) (.inr rfl) (.inr rfl)

theorem categoryActions_same {pm : Nat} {z : State} {s : State} {cat : Nat} (hm : covers pm 3022) (hz : Same pm z s) :
    Same pm z (categoryActions s cat) := by
  have h3022 : covers pm 3022 := hm.le rfl
  unfold categoryActions
  repeat' first
    | with_reducible assumption | with_reducible apply category0_same h3022
    | with_reducible apply category1_same h3022 | with_reducible apply category2_same h3022 | split | dsimp only
    | with_reducible
      refine Same.upd ?_ (.inr rfl) (.inr rfl) (.inr rfl) (.inr rfl) (.inr rfl) (.inr rfl) (.inr rfl) (.inr rfl)
        (.inr rfl) (.inr rfl) (.inr rfl) (.inr rfl) (.inr rfl) (.inr rfl) (.inr rfl) (.inr rfl) (.inr rfl) (.inr rfl)
        (.inr rfl) (.inr rfl) (.inr rfl) (.inr rfl)

theorem clearLatches_same {pm : Nat} {z : State} {s : State} {m : Mask} (hm : covers pm 512) (hz : Same pm z s) :
    Same pm z (clearLatches s m) := by
  have b9 : pm.testBit 9 = true := hm.bit rfl
  unfold clearLatches
  repeat' first
    | with_reducible assumption | with_reducible apply Same.ite | split | dsimp only
    | with_reducible
      refine Same.upd ?_ (.inr rfl) (.inr rfl) (.inr rfl) (.inr rfl) (.inr rfl) (.inr rfl) (.inr rfl) (.inr rfl)
        (.inr rfl) (.inl b9) (.inr rfl) (.inr rfl) (.inr rfl) (.inr rfl) (.inr rfl) (.inr rfl) (.inr rfl) (.inr rfl)
        (.inr rfl) (.inr rfl) (.inr rfl) (.inr rfl)

theorem protectionTrip_same {pm : Nat} {z : State} {s : State} {c : Fin 16} {code : Nat} (hm : covers pm 974)
    (hz : Same pm z s) :
    Same pm z (protectionTrip s c code) := by
  have h640 : covers pm 640 := hm.le rfl
  have h974 : covers pm 974 := hm.le rfl
  unfold protectionTrip
  repeat' first
    | with_reducible assumption | (with_reducible apply Same.foldl; rotate_left; intro _ _ _)
    | with_reducible apply queueEvent_same h640 | with_reducible apply category0Channel_same h974 | split | dsimp only

end Sys2Proof.Safety
end

