-- ==== Sys2Proof/Laws/SameModeOps.lean ====
section
/-! SUPPORT. The parts of the state that the operations of Machine/ModeOps.lean leave alone. -/
namespace Sys2Proof.Safety

open Sys2Proof.Machine

set_option simprocs false

theorem pauseProgram_same {pm : Nat} {z : State} {s : State} {c : Fin 16} (hm : covers pm 962) (hz : Same pm z s) :
    Same pm z (pauseProgram s c) := by
  have h2 : covers pm 2 := hm.le rfl
  have h66 : covers pm 66 := hm.le rfl
  have h898 : covers pm 898 := hm.le rfl
  unfold pauseProgram
  repeat' first
    | with_reducible assumption | with_reducible apply updProg_same h2 | with_reducible apply formRecord_same h66
    | with_reducible apply setStepTargets_same h2 | with_reducible apply changeSource_same h898
    | with_reducible apply Same.ite | split | dsimp only
    | with_reducible
      refine Same.upd ?_ (.inr rfl) (.inr rfl) (.inr rfl) (.inr rfl) (.inr rfl) (.inr rfl) (.inr rfl) (.inr rfl)
        (.inr rfl) (.inr rfl) (.inr rfl) (.inr rfl) (.inr rfl) (.inr rfl) (.inr rfl) (.inr rfl) (.inr rfl) (.inr rfl)
        (.inr rfl) (.inr rfl) (.inr rfl) (.inr rfl)

theorem disarmChannel_same {pm : Nat} {z : State} {s : State} {c : Fin 16} (hm : covers pm 898) (hz : Same pm z s) :
    Same pm z (disarmChannel s c) := by
  have h258 : covers pm 258 := hm.le rfl
  have h642 : covers pm 642 := hm.le rfl
  unfold disarmChannel
  repeat' first
    | with_reducible assumption | with_reducible apply abortMeas_same h258
    | with_reducible apply moveChannel_same h642 | with_reducible apply openChannel_same h642 | split | dsimp only

theorem idleChannel_same {pm : Nat} {z : State} {s : State} {x : Staged} {c : Fin 16} (hm : covers pm 974)
    (hz : Same pm z s) :
    Same pm z (idleChannel s x c) := by
  have h898 : covers pm 898 := hm.le rfl
  have h910 : covers pm 910 := hm.le rfl
  have h962 : covers pm 962 := hm.le rfl
  unfold idleChannel
  repeat' first
    | with_reducible assumption | (with_reducible apply Same.foldl; rotate_left; intro _ _ _)
    | with_reducible apply offChannel_same h910 | with_reducible apply pauseProgram_same h962
    | with_reducible apply disarmChannel_same h898 | with_reducible apply Same.ite | split | dsimp only

theorem channelAction_same {pm : Nat} {z : State} {old new : Mode} {x : Staged} {s : State} {c : Fin 16}
    (hm : covers pm 974) (hz : Same pm z s) :
    Same pm z (channelAction old new x s c) := by
  have h910 : covers pm 910 := hm.le rfl
  have h974 : covers pm 974 := hm.le rfl
  unfold channelAction
  repeat' first
    | with_reducible assumption | (with_reducible apply Same.foldl; rotate_left; intro _ _ _)
    | with_reducible apply offChannel_same h910 | with_reducible apply idleChannel_same h974
    | with_reducible apply Same.ite | split | dsimp only

theorem takeSource_same {pm : Nat} {z : State} {old new : Mode} {s : State} {c : Fin 16} (hm : covers pm 898)
    (hz : Same pm z s) :
    Same pm z (takeSource old new s c) := by
  have h2 : covers pm 2 := hm.le rfl
  have h898 : covers pm 898 := hm.le rfl
  unfold takeSource
  repeat' first
    | with_reducible assumption | with_reducible apply updCh_same h2 | with_reducible apply changeSource_same h898
    | with_reducible apply Same.ite | split | dsimp only
    | with_reducible
      refine Same.upd ?_ (.inr rfl) (.inr rfl) (.inr rfl) (.inr rfl) (.inr rfl) (.inr rfl) (.inr rfl) (.inr rfl)
        (.inr rfl) (.inr rfl) (.inr rfl) (.inr rfl) (.inr rfl) (.inr rfl) (.inr rfl) (.inr rfl) (.inr rfl) (.inr rfl)
        (.inr rfl) (.inr rfl) (.inr rfl) (.inr rfl)

theorem partialGroup_same {pm : Nat} {z : State} {target : Mode} {x : Staged} {s : State} {g : Fin 4}
    (hm : covers pm 962) (hz : Same pm z s) :
    Same pm z (partialGroup target x s g) := by
  have h640 : covers pm 640 := hm.le rfl
  have h962 : covers pm 962 := hm.le rfl
  unfold partialGroup
  repeat' first
    | with_reducible assumption | with_reducible apply queueEvent_same h640 | with_reducible apply holdGroup_same h962
    | split | dsimp only
    | with_reducible
      refine Same.upd ?_ (.inr rfl) (.inr rfl) (.inr rfl) (.inr rfl) (.inr rfl) (.inr rfl) (.inr rfl) (.inr rfl)
        (.inr rfl) (.inr rfl) (.inr rfl) (.inr rfl) (.inr rfl) (.inr rfl) (.inr rfl) (.inr rfl) (.inr rfl) (.inr rfl)
        (.inr rfl) (.inr rfl) (.inr rfl) (.inr rfl)

theorem channelActions_same {pm : Nat} {z : State} {s : State} {x : Staged} {target : Mode} (hm : covers pm 974)
    (hz : Same pm z s) :
    Same pm z (channelActions s x target) := by
  have h12 : covers pm 12 := hm.le rfl
  have h898 : covers pm 898 := hm.le rfl
  have h962 : covers pm 962 := hm.le rfl
  have h974 : covers pm 974 := hm.le rfl
  unfold channelActions
  repeat' first
    | with_reducible assumption | (with_reducible apply Same.foldl; rotate_left; intro _ _ _)
    | with_reducible apply leaveRestart_same h12 | with_reducible apply channelAction_same h974
    | with_reducible apply takeSource_same h898 | with_reducible apply partialGroup_same h962 | split | dsimp only

theorem unstageLane_same {pm : Nat} {z : State} {s : State} {k : Fin 4} (hm : covers pm 32) (hz : Same pm z s) :
    Same pm z (unstageLane s k) := by
  have b5 : pm.testBit 5 = true := hm.bit rfl
  unfold unstageLane
  repeat' first
    | with_reducible assumption | split | dsimp only
    | with_reducible
      refine Same.upd ?_ (.inr rfl) (.inr rfl) (.inr rfl) (.inr rfl) (.inr rfl) (.inl b5) (.inr rfl) (.inr rfl)
        (.inr rfl) (.inr rfl) (.inr rfl) (.inr rfl) (.inr rfl) (.inr rfl) (.inr rfl) (.inr rfl) (.inr rfl) (.inr rfl)
        (.inr rfl) (.inr rfl) (.inr rfl) (.inr rfl)

theorem dropSlot_same {pm : Nat} {z : State} {s : State} {j : Fin 4} (hm : covers pm 16416) (hz : Same pm z s) :
    Same pm z (dropSlot s j) := by
  have h32 : covers pm 32 := hm.le rfl
  have b14 : pm.testBit 14 = true := hm.bit rfl
  unfold dropSlot
  repeat' first
    | with_reducible assumption | with_reducible apply unstageLane_same h32 | with_reducible apply Same.ite | split
    | dsimp only
    | with_reducible
      refine Same.upd ?_ (.inr rfl) (.inr rfl) (.inr rfl) (.inr rfl) (.inr rfl) (.inr rfl) (.inr rfl) (.inr rfl)
        (.inr rfl) (.inr rfl) (.inr rfl) (.inr rfl) (.inr rfl) (.inr rfl) (.inl b14) (.inr rfl) (.inr rfl) (.inr rfl)
        (.inr rfl) (.inr rfl) (.inr rfl) (.inr rfl)

theorem abandonLane_same {pm : Nat} {z : State} {s : State} {j : Fin 4} (hm : covers pm 16416) (hz : Same pm z s) :
    Same pm z (abandonLane s j) := by
  have h16416 : covers pm 16416 := hm.le rfl
  have b14 : pm.testBit 14 = true := hm.bit rfl
  unfold abandonLane
  repeat' first
    | with_reducible assumption | with_reducible apply dropSlot_same h16416 | with_reducible apply Same.ite | split
    | dsimp only
    | with_reducible
      refine Same.upd ?_ (.inr rfl) (.inr rfl) (.inr rfl) (.inr rfl) (.inr rfl) (.inr rfl) (.inr rfl) (.inr rfl)
        (.inr rfl) (.inr rfl) (.inr rfl) (.inr rfl) (.inr rfl) (.inr rfl) (.inl b14) (.inr rfl) (.inr rfl) (.inr rfl)
        (.inr rfl) (.inr rfl) (.inr rfl) (.inr rfl)

theorem abandonSlot_same {pm : Nat} {z : State} {s : State} (hm : covers pm 16416) (hz : Same pm z s) :
    Same pm z (abandonSlot s) := by
  have h16416 : covers pm 16416 := hm.le rfl
  unfold abandonSlot
  repeat' first
    | with_reducible assumption | (with_reducible apply Same.foldl; rotate_left; intro _ _ _)
    | with_reducible apply abandonLane_same h16416 | split | dsimp only

theorem changeMode_same {pm : Nat} {z : State} {s : State} {x : Staged} {target : Mode} (hm : covers pm 20463)
    (hz : Same pm z s) :
    Same pm z (changeMode s x target) := by
  have h640 : covers pm 640 := hm.le rfl
  have h974 : covers pm 974 := hm.le rfl
  have h2048 : covers pm 2048 := hm.le rfl
  have h3713 : covers pm 3713 := hm.le rfl
  have h16416 : covers pm 16416 := hm.le rfl
  have b0 : pm.testBit 0 = true := hm.bit rfl
  unfold changeMode
  repeat' first
    | with_reducible assumption | with_reducible apply queueEvent_same h640
    | with_reducible apply closeSession_same h3713 | with_reducible apply refreshOutputs_same h2048
    | with_reducible apply channelActions_same h974 | with_reducible apply abandonSlot_same h16416
    | with_reducible apply Same.ite | split | dsimp only
    | with_reducible
      refine Same.upd ?_ (.inl b0) (.inr rfl) (.inr rfl) (.inr rfl) (.inr rfl) (.inr rfl) (.inr rfl) (.inr rfl)
        (.inr rfl) (.inr rfl) (.inr rfl) (.inr rfl) (.inr rfl) (.inr rfl) (.inr rfl) (.inr rfl) (.inr rfl) (.inr rfl)
        (.inr rfl) (.inr rfl) (.inr rfl) (.inr rfl)

theorem resetSafe_same {pm : Nat} {z : State} {s : State} {target : Mode} (hm : covers pm 3721) (hz : Same pm z s) :
    Same pm z (resetSafe s target) := by
  have h640 : covers pm 640 := hm.le rfl
  have h1025 : covers pm 1025 := hm.le rfl
  have b3 : pm.testBit 3 = true := hm.bit rfl
  have b9 : pm.testBit 9 = true := hm.bit rfl
  have b10 : pm.testBit 10 = true := hm.bit rfl
  have b11 : pm.testBit 11 = true := hm.bit rfl
  unfold resetSafe
  repeat' first
    | with_reducible assumption | with_reducible apply queueEvent_same h640
    | with_reducible apply logChange_same h1025 | split | dsimp only
    | with_reducible
      refine Same.upd ?_ (.inr rfl) (.inr rfl) (.inr rfl) (.inl b3) (.inr rfl) (.inr rfl) (.inr rfl) (.inr rfl)
        (.inr rfl) (.inl b9) (.inl b10) (.inl b11) (.inr rfl) (.inr rfl) (.inr rfl) (.inr rfl) (.inr rfl) (.inr rfl)
        (.inr rfl) (.inr rfl) (.inr rfl) (.inr rfl)

theorem applyMode_same {pm : Nat} {z : State} {s : State} {x : Staged} {target : Mode} {fromSafe : Bool} {mask : Mask}
    (hm : covers pm 20463) (hz : Same pm z s) :
    Same pm z (applyMode s x target fromSafe mask) := by
  have h256 : covers pm 256 := hm.le rfl
  have h512 : covers pm 512 := hm.le rfl
  have h3713 : covers pm 3713 := hm.le rfl
  have h3721 : covers pm 3721 := hm.le rfl
  have h20463 : covers pm 20463 := hm.le rfl
  have b0 : pm.testBit 0 = true := hm.bit rfl
  unfold applyMode
  repeat' first
    | with_reducible assumption | with_reducible apply reply_same h256 | with_reducible apply closeSession_same h3713
    | with_reducible apply clearLatches_same h512 | with_reducible apply changeMode_same h20463
    | with_reducible apply resetSafe_same h3721 | with_reducible apply Same.ite | split | dsimp only
    | with_reducible
      refine Same.upd ?_ (.inl b0) (.inr rfl) (.inr rfl) (.inr rfl) (.inr rfl) (.inr rfl) (.inr rfl) (.inr rfl)
        (.inr rfl) (.inr rfl) (.inr rfl) (.inr rfl) (.inr rfl) (.inr rfl) (.inr rfl) (.inr rfl) (.inr rfl) (.inr rfl)
        (.inr rfl) (.inr rfl) (.inr rfl) (.inr rfl)

end Sys2Proof.Safety
end

