-- ==== Sys2Proof/Laws/SameDemands.lean ====
section
/-! SUPPORT. The parts of the state that the operations of Machine/Demands.lean leave alone. -/
namespace Sys2Proof.Safety

open Sys2Proof.Machine

set_option simprocs false

theorem abortOne_same {pm : Nat} {z : State} {s : State} {x : Staged} (hm : covers pm 897) (hz : Same pm z s) :
    Same pm z (abortOne s x) := by
  have h256 : covers pm 256 := hm.le rfl
  have h640 : covers pm 640 := hm.le rfl
  have b0 : pm.testBit 0 = true := hm.bit rfl
  unfold abortOne
  repeat' first
    | with_reducible assumption | with_reducible apply queueEvent_same h640 | with_reducible apply reply_same h256
    | with_reducible apply Same.ite | split | dsimp only
    | with_reducible
      refine Same.upd ?_ (.inl b0) (.inr rfl) (.inr rfl) (.inr rfl) (.inr rfl) (.inr rfl) (.inr rfl) (.inr rfl)
        (.inr rfl) (.inr rfl) (.inr rfl) (.inr rfl) (.inr rfl) (.inr rfl) (.inr rfl) (.inr rfl) (.inr rfl) (.inr rfl)
        (.inr rfl) (.inr rfl) (.inr rfl) (.inr rfl)

theorem restageCastle_same {pm : Nat} {z : State} {s : State} {g : Fin 4} (hm : covers pm 32) (hz : Same pm z s) :
    Same pm z (restageCastle s g) := by
  have h32 : covers pm 32 := hm.le rfl
  unfold restageCastle
  repeat' first
    | with_reducible assumption | with_reducible apply stage_same h32 | with_reducible apply Same.ite | split
    | dsimp only
    | with_reducible
      refine Same.upd ?_ (.inr rfl) (.inr rfl) (.inr rfl) (.inr rfl) (.inr rfl) (.inr rfl) (.inr rfl) (.inr rfl)
        (.inr rfl) (.inr rfl) (.inr rfl) (.inr rfl) (.inr rfl) (.inr rfl) (.inr rfl) (.inr rfl) (.inr rfl) (.inr rfl)
        (.inr rfl) (.inr rfl) (.inr rfl) (.inr rfl)

theorem restageLane_same {pm : Nat} {z : State} {old : List Staged} {s : State} {j : Fin 4} (hm : covers pm 32)
    (hz : Same pm z s) :
    Same pm z (restageLane old s j) := by
  have h32 : covers pm 32 := hm.le rfl
  unfold restageLane
  repeat' first
    | with_reducible assumption | with_reducible apply stage_same h32 | split | dsimp only
    | with_reducible
      refine Same.upd ?_ (.inr rfl) (.inr rfl) (.inr rfl) (.inr rfl) (.inr rfl) (.inr rfl) (.inr rfl) (.inr rfl)
        (.inr rfl) (.inr rfl) (.inr rfl) (.inr rfl) (.inr rfl) (.inr rfl) (.inr rfl) (.inr rfl) (.inr rfl) (.inr rfl)
        (.inr rfl) (.inr rfl) (.inr rfl) (.inr rfl)

theorem abortStaged_same {pm : Nat} {z : State} {s : State} (hm : covers pm 953) (hz : Same pm z s) :
    Same pm z (abortStaged s) := by
  have h32 : covers pm 32 := hm.le rfl
  have h697 : covers pm 697 := hm.le rfl
  have h897 : covers pm 897 := hm.le rfl
  have b0 : pm.testBit 0 = true := hm.bit rfl
  have b5 : pm.testBit 5 = true := hm.bit rfl
  unfold abortStaged
  repeat' first
    | with_reducible assumption | (with_reducible apply Same.foldl; rotate_left; intro _ _ _)
    | with_reducible apply abortPlanned_same h697 | with_reducible apply abortOne_same h897
    | with_reducible apply restageCastle_same h32 | with_reducible apply restageLane_same h32 | split | dsimp only
    | with_reducible
      refine Same.upd ?_ (.inl b0) (.inr rfl) (.inr rfl) (.inr rfl) (.inr rfl) (.inl b5) (.inr rfl) (.inr rfl)
        (.inr rfl) (.inr rfl) (.inr rfl) (.inr rfl) (.inr rfl) (.inr rfl) (.inr rfl) (.inr rfl) (.inr rfl) (.inr rfl)
        (.inr rfl) (.inr rfl) (.inr rfl) (.inr rfl)

theorem enterSafe_same {pm : Nat} {z : State} {s : State} (hm : covers pm 2561) (hz : Same pm z s) :
    Same pm z (enterSafe s) := by
  have b0 : pm.testBit 0 = true := hm.bit rfl
  have b9 : pm.testBit 9 = true := hm.bit rfl
  have b11 : pm.testBit 11 = true := hm.bit rfl
  unfold enterSafe
  repeat' first
    | with_reducible assumption | split | dsimp only
    | with_reducible
      refine Same.upd ?_ (.inl b0) (.inr rfl) (.inr rfl) (.inr rfl) (.inr rfl) (.inr rfl) (.inr rfl) (.inr rfl)
        (.inr rfl) (.inl b9) (.inr rfl) (.inl b11) (.inr rfl) (.inr rfl) (.inr rfl) (.inr rfl) (.inr rfl) (.inr rfl)
        (.inr rfl) (.inr rfl) (.inr rfl) (.inr rfl)

theorem abortLegTest_same {pm : Nat} {z : State} {s : State} (hm : covers pm 263041) (hz : Same pm z s) :
    Same pm z (abortLegTest s) := by
  have h1 : covers pm 1 := hm.le rfl
  have h256 : covers pm 256 := hm.le rfl
  have h640 : covers pm 640 := hm.le rfl
  have h262144 : covers pm 262144 := hm.le rfl
  have b18 : pm.testBit 18 = true := hm.bit rfl
  unfold abortLegTest
  repeat' first
    | with_reducible assumption | with_reducible apply reply_same h256 | with_reducible apply drawFree_same h1
    | with_reducible apply recordTest_same h262144 | with_reducible apply testDone_same h640 | split | dsimp only
    | with_reducible
      refine Same.upd ?_ (.inr rfl) (.inr rfl) (.inr rfl) (.inr rfl) (.inr rfl) (.inr rfl) (.inr rfl) (.inr rfl)
        (.inr rfl) (.inr rfl) (.inr rfl) (.inr rfl) (.inr rfl) (.inr rfl) (.inr rfl) (.inr rfl) (.inr rfl) (.inr rfl)
        (.inl b18) (.inr rfl) (.inr rfl) (.inr rfl)

theorem applyCommitted_same {pm : Nat} {z : State} {s : State} (hm : covers pm 20463) (hz : Same pm z s) :
    Same pm z (applyCommitted s) := by
  have h20463 : covers pm 20463 := hm.le rfl
  have b5 : pm.testBit 5 = true := hm.bit rfl
  unfold applyCommitted
  repeat' first
    | with_reducible assumption | with_reducible apply applyMode_same h20463 | split | dsimp only
    | with_reducible
      refine Same.upd ?_ (.inr rfl) (.inr rfl) (.inr rfl) (.inr rfl) (.inr rfl) (.inl b5) (.inr rfl) (.inr rfl)
        (.inr rfl) (.inr rfl) (.inr rfl) (.inr rfl) (.inr rfl) (.inr rfl) (.inr rfl) (.inr rfl) (.inr rfl) (.inr rfl)
        (.inr rfl) (.inr rfl) (.inr rfl) (.inr rfl)

theorem demand_same {pm : Nat} {z : State} {s : State} {cause cat : Nat} (hm : covers pm 282623) (hz : Same pm z s) :
    Same pm z (demand s cause cat) := by
  have h640 : covers pm 640 := hm.le rfl
  have h953 : covers pm 953 := hm.le rfl
  have h2561 : covers pm 2561 := hm.le rfl
  have h3022 : covers pm 3022 := hm.le rfl
  have h20463 : covers pm 20463 := hm.le rfl
  have h263041 : covers pm 263041 := hm.le rfl
  have b11 : pm.testBit 11 = true := hm.bit rfl
  unfold demand
  repeat' first
    | with_reducible assumption | with_reducible apply queueEvent_same h640
    | with_reducible apply categoryActions_same h3022 | with_reducible apply abortStaged_same h953
    | with_reducible apply enterSafe_same h2561 | with_reducible apply abortLegTest_same h263041
    | with_reducible apply applyCommitted_same h20463 | with_reducible apply Same.ite | split | dsimp only
    | with_reducible
      refine Same.upd ?_ (.inr rfl) (.inr rfl) (.inr rfl) (.inr rfl) (.inr rfl) (.inr rfl) (.inr rfl) (.inr rfl)
        (.inr rfl) (.inr rfl) (.inr rfl) (.inl b11) (.inr rfl) (.inr rfl) (.inr rfl) (.inr rfl) (.inr rfl) (.inr rfl)
        (.inr rfl) (.inr rfl) (.inr rfl) (.inr rfl)

theorem escalate_same {pm : Nat} {z : State} {s : State} (hm : covers pm 3022) (hz : Same pm z s) :
    Same pm z (escalate s) := by
  have h3022 : covers pm 3022 := hm.le rfl
  have b11 : pm.testBit 11 = true := hm.bit rfl
  unfold escalate
  repeat' first
    | with_reducible assumption | with_reducible apply category0_same h3022 | split | dsimp only
    | with_reducible
      refine Same.upd ?_ (.inr rfl) (.inr rfl) (.inr rfl) (.inr rfl) (.inr rfl) (.inr rfl) (.inr rfl) (.inr rfl)
        (.inr rfl) (.inr rfl) (.inr rfl) (.inl b11) (.inr rfl) (.inr rfl) (.inr rfl) (.inr rfl) (.inr rfl) (.inr rfl)
        (.inr rfl) (.inr rfl) (.inr rfl) (.inr rfl)

theorem pageRuns_same {pm : Nat} {z : State} {s : State} (hm : covers pm 262145) (hz : Same pm z s) :
    Same pm z (pageRuns s).2 := by
  have h1 : covers pm 1 := hm.le rfl
  have b18 : pm.testBit 18 = true := hm.bit rfl
  unfold pageRuns
  repeat' first
    | with_reducible assumption | with_reducible apply drawFree_same h1 | with_reducible apply Same.ite
    | with_reducible apply Same.iteSnd | split | dsimp only
    | with_reducible
      refine Same.upd ?_ (.inr rfl) (.inr rfl) (.inr rfl) (.inr rfl) (.inr rfl) (.inr rfl) (.inr rfl) (.inr rfl)
        (.inr rfl) (.inr rfl) (.inr rfl) (.inr rfl) (.inr rfl) (.inr rfl) (.inr rfl) (.inr rfl) (.inr rfl) (.inr rfl)
        (.inl b18) (.inr rfl) (.inr rfl) (.inr rfl)

theorem nvmFail_same {pm : Nat} {z : State} {s : State} {area : Nat} (hm : covers pm 641) (hz : Same pm z s) :
    Same pm z (nvmFail s area) := by
  have h1 : covers pm 1 := hm.le rfl
  have h640 : covers pm 640 := hm.le rfl
  unfold nvmFail
  repeat' first
    | with_reducible assumption | with_reducible apply queueEvent_same h640 | with_reducible apply drawFree_same h1
    | split | dsimp only

theorem fuseRows_same {pm : Nat} {z : State} {s : State} {n : Nat} (hm : covers pm 263168) (hz : Same pm z s) :
    Same pm z (fuseRows s n) := by
  have b10 : pm.testBit 10 = true := hm.bit rfl
  have b18 : pm.testBit 18 = true := hm.bit rfl
  unfold fuseRows
  repeat' first
    | with_reducible assumption | with_reducible apply Same.ite | split | dsimp only
    | with_reducible
      refine Same.upd ?_ (.inr rfl) (.inr rfl) (.inr rfl) (.inr rfl) (.inr rfl) (.inr rfl) (.inr rfl) (.inr rfl)
        (.inr rfl) (.inr rfl) (.inl b10) (.inr rfl) (.inr rfl) (.inr rfl) (.inr rfl) (.inr rfl) (.inr rfl) (.inr rfl)
        (.inl b18) (.inr rfl) (.inr rfl) (.inr rfl)

theorem spoilEntry_same {pm : Nat} {z : State} {s : State} (hm : covers pm 1024) (hz : Same pm z s) :
    Same pm z (spoilEntry s) := by
  have b10 : pm.testBit 10 = true := hm.bit rfl
  unfold spoilEntry
  repeat' first
    | with_reducible assumption | with_reducible apply Same.ite | split | dsimp only
    | with_reducible
      refine Same.upd ?_ (.inr rfl) (.inr rfl) (.inr rfl) (.inr rfl) (.inr rfl) (.inr rfl) (.inr rfl) (.inr rfl)
        (.inr rfl) (.inr rfl) (.inl b10) (.inr rfl) (.inr rfl) (.inr rfl) (.inr rfl) (.inr rfl) (.inr rfl) (.inr rfl)
        (.inr rfl) (.inr rfl) (.inr rfl) (.inr rfl)

theorem cutStore_same {pm : Nat} {z : State} {s : State} (hm : covers pm 263169) (hz : Same pm z s) :
    Same pm z (cutStore s) := by
  have h1 : covers pm 1 := hm.le rfl
  have h1024 : covers pm 1024 := hm.le rfl
  have h263168 : covers pm 263168 := hm.le rfl
  have b10 : pm.testBit 10 = true := hm.bit rfl
  unfold cutStore
  repeat' first
    | with_reducible assumption | with_reducible apply drawFree_same h1 | with_reducible apply fuseRows_same h263168
    | with_reducible apply spoilEntry_same h1024 | with_reducible apply Same.ite | split | dsimp only
    | with_reducible
      refine Same.upd ?_ (.inr rfl) (.inr rfl) (.inr rfl) (.inr rfl) (.inr rfl) (.inr rfl) (.inr rfl) (.inr rfl)
        (.inr rfl) (.inr rfl) (.inl b10) (.inr rfl) (.inr rfl) (.inr rfl) (.inr rfl) (.inr rfl) (.inr rfl) (.inr rfl)
        (.inr rfl) (.inr rfl) (.inr rfl) (.inr rfl)

theorem everythingOff_same {pm : Nat} {z : State} {s : State} (hm : covers pm 2050) (hz : Same pm z s) :
    Same pm z (everythingOff s) := by
  have h2 : covers pm 2 := hm.le rfl
  have h2048 : covers pm 2048 := hm.le rfl
  have b11 : pm.testBit 11 = true := hm.bit rfl
  unfold everythingOff
  repeat' first
    | with_reducible assumption | (with_reducible apply Same.foldl; rotate_left; intro _ _ _)
    | with_reducible apply updCh_same h2 | with_reducible apply setOutputs_same h2048 | split | dsimp only
    | with_reducible
      refine Same.upd ?_ (.inr rfl) (.inr rfl) (.inr rfl) (.inr rfl) (.inr rfl) (.inr rfl) (.inr rfl) (.inr rfl)
        (.inr rfl) (.inr rfl) (.inr rfl) (.inl b11) (.inr rfl) (.inr rfl) (.inr rfl) (.inr rfl) (.inr rfl) (.inr rfl)
        (.inr rfl) (.inr rfl) (.inr rfl) (.inr rfl)

theorem holdIslands_same {pm : Nat} {z : State} {s : State} {ph : Phase} (hm : covers pm 265571) (hz : Same pm z s) :
    Same pm z (holdIslands s ph) := by
  have h2050 : covers pm 2050 := hm.le rfl
  have h263169 : covers pm 263169 := hm.le rfl
  have b0 : pm.testBit 0 = true := hm.bit rfl
  have b5 : pm.testBit 5 = true := hm.bit rfl
  have b6 : pm.testBit 6 = true := hm.bit rfl
  have b8 : pm.testBit 8 = true := hm.bit rfl
  have b18 : pm.testBit 18 = true := hm.bit rfl
  unfold holdIslands
  repeat' first
    | with_reducible assumption | with_reducible apply cutStore_same h263169
    | with_reducible apply everythingOff_same h2050 | split | dsimp only
    | with_reducible
      refine Same.upd ?_ (.inl b0) (.inr rfl) (.inr rfl) (.inr rfl) (.inr rfl) (.inl b5) (.inl b6) (.inr rfl)
        (.inl b8) (.inr rfl) (.inr rfl) (.inr rfl) (.inr rfl) (.inr rfl) (.inr rfl) (.inr rfl) (.inr rfl) (.inr rfl)
        (.inl b18) (.inr rfl) (.inr rfl) (.inr rfl)

theorem applySafeCfg_same {pm : Nat} {z : State} {s : State} (hm : covers pm 282623) (hz : Same pm z s) :
    Same pm z (applySafeCfg s) := by
  have h2048 : covers pm 2048 := hm.le rfl
  have h282623 : covers pm 282623 := hm.le rfl
  have b11 : pm.testBit 11 = true := hm.bit rfl
  unfold applySafeCfg
  repeat' first
    | with_reducible assumption | (with_reducible apply Same.foldl; rotate_left; intro _ _ _)
    | with_reducible apply refreshOutputs_same h2048 | with_reducible apply demand_same h282623
    | with_reducible apply Same.ite | split | dsimp only
    | with_reducible
      refine Same.upd ?_ (.inr rfl) (.inr rfl) (.inr rfl) (.inr rfl) (.inr rfl) (.inr rfl) (.inr rfl) (.inr rfl)
        (.inr rfl) (.inr rfl) (.inr rfl) (.inl b11) (.inr rfl) (.inr rfl) (.inr rfl) (.inr rfl) (.inr rfl) (.inr rfl)
        (.inr rfl) (.inr rfl) (.inr rfl) (.inr rfl)

end Sys2Proof.Safety
end

