-- ==== Sys2Proof/Laws/SameCanOps.lean ====
section
/-! SUPPORT. The parts of the state that the operations of Machine/CanOps.lean leave alone. -/
namespace Sys2Proof.Safety

open Sys2Proof.Machine

set_option simprocs false

theorem updTx_same {pm : Nat} {z : State} {s : State} {b : Fin 16} {f : TxBuf → TxBuf} (hm : covers pm 32768)
    (hz : Same pm z s) :
    Same pm z (State.updTx s b f) := by
  have b15 : pm.testBit 15 = true := hm.bit rfl
  unfold State.updTx
  repeat' first
    | with_reducible assumption | split | dsimp only
    | with_reducible
      refine Same.upd ?_ (.inr rfl) (.inr rfl) (.inr rfl) (.inr rfl) (.inr rfl) (.inr rfl) (.inr rfl) (.inr rfl)
        (.inr rfl) (.inr rfl) (.inr rfl) (.inr rfl) (.inr rfl) (.inr rfl) (.inr rfl) (.inl b15) (.inr rfl) (.inr rfl)
        (.inr rfl) (.inr rfl) (.inr rfl) (.inr rfl)

theorem markStarted_same {pm : Nat} {z : State} {s : State} (hm : covers pm 32769) (hz : Same pm z s) :
    Same pm z (markStarted s) := by
  have h1 : covers pm 1 := hm.le rfl
  have b15 : pm.testBit 15 = true := hm.bit rfl
  unfold markStarted
  repeat' first
    | with_reducible assumption | with_reducible apply drawFree_same h1 | with_reducible apply Same.ite | split
    | dsimp only
    | with_reducible
      refine Same.upd ?_ (.inr rfl) (.inr rfl) (.inr rfl) (.inr rfl) (.inr rfl) (.inr rfl) (.inr rfl) (.inr rfl)
        (.inr rfl) (.inr rfl) (.inr rfl) (.inr rfl) (.inr rfl) (.inr rfl) (.inr rfl) (.inl b15) (.inr rfl) (.inr rfl)
        (.inr rfl) (.inr rfl) (.inr rfl) (.inr rfl)

theorem endTransmission_same {pm : Nat} {z : State} {s : State} (hm : covers pm 32768) (hz : Same pm z s) :
    Same pm z (endTransmission s) := by
  have b15 : pm.testBit 15 = true := hm.bit rfl
  unfold endTransmission
  repeat' first
    | with_reducible assumption | split | dsimp only
    | with_reducible
      refine Same.upd ?_ (.inr rfl) (.inr rfl) (.inr rfl) (.inr rfl) (.inr rfl) (.inr rfl) (.inr rfl) (.inr rfl)
        (.inr rfl) (.inr rfl) (.inr rfl) (.inr rfl) (.inr rfl) (.inr rfl) (.inr rfl) (.inl b15) (.inr rfl) (.inr rfl)
        (.inr rfl) (.inr rfl) (.inr rfl) (.inr rfl)

theorem failBuffer_same {pm : Nat} {z : State} {s : State} {b : Fin 16} (hm : covers pm 32768) (hz : Same pm z s) :
    Same pm z (failBuffer s b) := by
  have h32768 : covers pm 32768 := hm.le rfl
  have b15 : pm.testBit 15 = true := hm.bit rfl
  unfold failBuffer
  repeat' first
    | with_reducible assumption | with_reducible apply updTx_same h32768 | split | dsimp only
    | with_reducible
      refine Same.upd ?_ (.inr rfl) (.inr rfl) (.inr rfl) (.inr rfl) (.inr rfl) (.inr rfl) (.inr rfl) (.inr rfl)
        (.inr rfl) (.inr rfl) (.inr rfl) (.inr rfl) (.inr rfl) (.inr rfl) (.inr rfl) (.inl b15) (.inr rfl) (.inr rfl)
        (.inr rfl) (.inr rfl) (.inr rfl) (.inr rfl)

theorem requestBuffer_same {pm : Nat} {z : State} {s : State} {b : Fin 16} (hm : covers pm 32768) (hz : Same pm z s) :
    Same pm z (requestBuffer s b) := by
  have h32768 : covers pm 32768 := hm.le rfl
  unfold requestBuffer
  repeat' first
    | with_reducible assumption | with_reducible apply updTx_same h32768 | with_reducible apply Same.ite | split
    | dsimp only

theorem canTxAdd_same {pm : Nat} {z : State} {s : State} {v : Word} (hm : covers pm 32769) (hz : Same pm z s) :
    Same pm z (canTxAdd s v).1 := by
  have h32768 : covers pm 32768 := hm.le rfl
  have h32769 : covers pm 32769 := hm.le rfl
  unfold canTxAdd
  repeat' first
    | with_reducible assumption | (with_reducible apply Same.foldl; rotate_left; intro _ _ _)
    | with_reducible apply markStarted_same h32769 | with_reducible apply requestBuffer_same h32768
    | with_reducible apply Same.ite | with_reducible apply Same.iteFst | split | dsimp only

theorem updFifo_same {pm : Nat} {z : State} {s : State} {f : Fin 2} {g : RxFifo → RxFifo} (hm : covers pm 32768)
    (hz : Same pm z s) :
    Same pm z (State.updFifo s f g) := by
  have b15 : pm.testBit 15 = true := hm.bit rfl
  unfold State.updFifo
  repeat' first
    | with_reducible assumption | split | dsimp only
    | with_reducible
      refine Same.upd ?_ (.inr rfl) (.inr rfl) (.inr rfl) (.inr rfl) (.inr rfl) (.inr rfl) (.inr rfl) (.inr rfl)
        (.inr rfl) (.inr rfl) (.inr rfl) (.inr rfl) (.inr rfl) (.inr rfl) (.inr rfl) (.inl b15) (.inr rfl) (.inr rfl)
        (.inr rfl) (.inr rfl) (.inr rfl) (.inr rfl)

theorem releaseFifo_same {pm : Nat} {z : State} {s : State} {f : Fin 2} {m : Nat} (hm : covers pm 32768)
    (hz : Same pm z s) :
    Same pm z (releaseFifo s f m) := by
  have h32768 : covers pm 32768 := hm.le rfl
  unfold releaseFifo
  repeat' first
    | with_reducible assumption | with_reducible apply updFifo_same h32768 | split | dsimp only
    | with_reducible
      refine Same.upd ?_ (.inr rfl) (.inr rfl) (.inr rfl) (.inr rfl) (.inr rfl) (.inr rfl) (.inr rfl) (.inr rfl)
        (.inr rfl) (.inr rfl) (.inr rfl) (.inr rfl) (.inr rfl) (.inr rfl) (.inr rfl) (.inr rfl) (.inr rfl) (.inr rfl)
        (.inr rfl) (.inr rfl) (.inr rfl) (.inr rfl)

theorem canRxAck_same {pm : Nat} {z : State} {s : State} {f : Fin 2} {v : Word} (hm : covers pm 32768)
    (hz : Same pm z s) :
    Same pm z (canRxAck s f v).1 := by
  have h32768 : covers pm 32768 := hm.le rfl
  unfold canRxAck
  repeat' first
    | with_reducible assumption | with_reducible apply releaseFifo_same h32768 | with_reducible apply Same.ite
    | with_reducible apply Same.iteFst | split | dsimp only

theorem storeFrame_same {pm : Nat} {z : State} {s : State} {f : CanFrame} {k : Fin 64} {q : Fin 2}
    (hm : covers pm 2130560) (hz : Same pm z s) :
    Same pm z (storeFrame s f k q) := by
  have h640 : covers pm 640 := hm.le rfl
  have h32768 : covers pm 32768 := hm.le rfl
  have b15 : pm.testBit 15 = true := hm.bit rfl
  have b21 : pm.testBit 21 = true := hm.bit rfl
  unfold storeFrame
  repeat' first
    | with_reducible assumption | with_reducible apply queueRated_same h640 | with_reducible apply updFifo_same h32768
    | with_reducible apply Same.ite | split | dsimp only
    | with_reducible
      refine Same.upd ?_ (.inr rfl) (.inr rfl) (.inr rfl) (.inr rfl) (.inr rfl) (.inr rfl) (.inr rfl) (.inr rfl)
        (.inr rfl) (.inr rfl) (.inr rfl) (.inr rfl) (.inr rfl) (.inr rfl) (.inr rfl) (.inl b15) (.inr rfl) (.inr rfl)
        (.inr rfl) (.inr rfl) (.inr rfl) (.inl b21)

theorem filterFrame_same {pm : Nat} {z : State} {s : State} {f : CanFrame} (hm : covers pm 2130560) (hz : Same pm z s) :
    Same pm z (filterFrame s f) := by
  have h2130560 : covers pm 2130560 := hm.le rfl
  unfold filterFrame
  repeat' first
    | with_reducible assumption | with_reducible apply storeFrame_same h2130560 | split | dsimp only
    | with_reducible
      refine Same.upd ?_ (.inr rfl) (.inr rfl) (.inr rfl) (.inr rfl) (.inr rfl) (.inr rfl) (.inr rfl) (.inr rfl)
        (.inr rfl) (.inr rfl) (.inr rfl) (.inr rfl) (.inr rfl) (.inr rfl) (.inr rfl) (.inr rfl) (.inr rfl) (.inr rfl)
        (.inr rfl) (.inr rfl) (.inr rfl) (.inr rfl)

theorem countReplaced_same {pm : Nat} {z : State} {s : State} {b : Fin 16} (hm : covers pm 32768) (hz : Same pm z s) :
    Same pm z (countReplaced s b) := by
  have b15 : pm.testBit 15 = true := hm.bit rfl
  unfold countReplaced
  repeat' first
    | with_reducible assumption | with_reducible apply Same.ite | split | dsimp only
    | with_reducible
      refine Same.upd ?_ (.inr rfl) (.inr rfl) (.inr rfl) (.inr rfl) (.inr rfl) (.inr rfl) (.inr rfl) (.inr rfl)
        (.inr rfl) (.inr rfl) (.inr rfl) (.inr rfl) (.inr rfl) (.inr rfl) (.inr rfl) (.inl b15) (.inr rfl) (.inr rfl)
        (.inr rfl) (.inr rfl) (.inr rfl) (.inr rfl)

theorem offerMessage_same {pm : Nat} {z : State} {s : State} {b : Fin 16} {elem : List Byte} (hm : covers pm 2129921)
    (hz : Same pm z s) :
    Same pm z (offerMessage s b elem) := by
  have h32768 : covers pm 32768 := hm.le rfl
  have h32769 : covers pm 32769 := hm.le rfl
  have b21 : pm.testBit 21 = true := hm.bit rfl
  unfold offerMessage
  repeat' first
    | with_reducible assumption | with_reducible apply updTx_same h32768
    | with_reducible apply markStarted_same h32769 | with_reducible apply countReplaced_same h32768
    | with_reducible apply Same.ite | split | dsimp only
    | with_reducible
      refine Same.upd ?_ (.inr rfl) (.inr rfl) (.inr rfl) (.inr rfl) (.inr rfl) (.inr rfl) (.inr rfl) (.inr rfl)
        (.inr rfl) (.inr rfl) (.inr rfl) (.inr rfl) (.inr rfl) (.inr rfl) (.inr rfl) (.inr rfl) (.inr rfl) (.inr rfl)
        (.inr rfl) (.inr rfl) (.inr rfl) (.inl b21)

theorem keepMessage_same {pm : Nat} {z : State} {s : State} (hm : covers pm 32768) (hz : Same pm z s) :
    Same pm z (keepMessage s) := by
  have b15 : pm.testBit 15 = true := hm.bit rfl
  unfold keepMessage
  repeat' first
    | with_reducible assumption | split | dsimp only
    | with_reducible
      refine Same.upd ?_ (.inr rfl) (.inr rfl) (.inr rfl) (.inr rfl) (.inr rfl) (.inr rfl) (.inr rfl) (.inr rfl)
        (.inr rfl) (.inr rfl) (.inr rfl) (.inr rfl) (.inr rfl) (.inr rfl) (.inr rfl) (.inl b15) (.inr rfl) (.inr rfl)
        (.inr rfl) (.inr rfl) (.inr rfl) (.inr rfl)

theorem undoMessages_same {pm : Nat} {z : State} {s : State} (hm : covers pm 40960) (hz : Same pm z s) :
    Same pm z (undoMessages s) := by
  have b13 : pm.testBit 13 = true := hm.bit rfl
  have b15 : pm.testBit 15 = true := hm.bit rfl
  unfold undoMessages
  repeat' first
    | with_reducible assumption | split | dsimp only
    | with_reducible
      refine Same.upd ?_ (.inr rfl) (.inr rfl) (.inr rfl) (.inr rfl) (.inr rfl) (.inr rfl) (.inr rfl) (.inr rfl)
        (.inr rfl) (.inr rfl) (.inr rfl) (.inr rfl) (.inr rfl) (.inl b13) (.inr rfl) (.inl b15) (.inr rfl) (.inr rfl)
        (.inr rfl) (.inr rfl) (.inr rfl) (.inr rfl)

theorem sendAgain_same {pm : Nat} {z : State} {s : State} {x : Fin 16 × List Byte} (hm : covers pm 32768)
    (hz : Same pm z s) :
    Same pm z (sendAgain s x) := by
  have h32768 : covers pm 32768 := hm.le rfl
  have b15 : pm.testBit 15 = true := hm.bit rfl
  unfold sendAgain
  repeat' first
    | with_reducible assumption | with_reducible apply updTx_same h32768 | with_reducible apply Same.ite | split
    | dsimp only
    | with_reducible
      refine Same.upd ?_ (.inr rfl) (.inr rfl) (.inr rfl) (.inr rfl) (.inr rfl) (.inr rfl) (.inr rfl) (.inr rfl)
        (.inr rfl) (.inr rfl) (.inr rfl) (.inr rfl) (.inr rfl) (.inr rfl) (.inr rfl) (.inl b15) (.inr rfl) (.inr rfl)
        (.inr rfl) (.inr rfl) (.inr rfl) (.inr rfl)

theorem cutFrames_same {pm : Nat} {z : State} {s : State} (hm : covers pm 40960) (hz : Same pm z s) :
    Same pm z (cutFrames s) := by
  have h32768 : covers pm 32768 := hm.le rfl
  have h40960 : covers pm 40960 := hm.le rfl
  have b15 : pm.testBit 15 = true := hm.bit rfl
  unfold cutFrames
  repeat' first
    | with_reducible assumption | (with_reducible apply Same.foldl; rotate_left; intro _ _ _)
    | with_reducible apply endTransmission_same h32768 | with_reducible apply updFifo_same h32768
    | with_reducible apply undoMessages_same h40960 | with_reducible apply sendAgain_same h32768 | split | dsimp only
    | with_reducible
      refine Same.upd ?_ (.inr rfl) (.inr rfl) (.inr rfl) (.inr rfl) (.inr rfl) (.inr rfl) (.inr rfl) (.inr rfl)
        (.inr rfl) (.inr rfl) (.inr rfl) (.inr rfl) (.inr rfl) (.inr rfl) (.inr rfl) (.inl b15) (.inr rfl) (.inr rfl)
        (.inr rfl) (.inr rfl) (.inr rfl) (.inr rfl)

end Sys2Proof.Safety
end

