-- ==== Sys2Proof/Laws/SameGateDrive.lean ====
section
/-! SUPPORT. The parts of the state that the operations of Machine/GateDrive.lean leave alone. -/
namespace Sys2Proof.Safety

open Sys2Proof.Machine

set_option simprocs false

theorem joinRestart_same {pm : Nat} {z : State} {s : State} {g : Fin 4} {legs suspect : BitVec 8} (hm : covers pm 12)
    (hz : Same pm z s) :
    Same pm z (joinRestart s g legs suspect) := by
  have h4 : covers pm 4 := hm.le rfl
  have h8 : covers pm 8 := hm.le rfl
  unfold joinRestart
  repeat' first
    | with_reducible assumption | (with_reducible apply Same.foldl; rotate_left; intro _ _ _)
    | with_reducible apply updLeg_same h4 | with_reducible apply updGrp_same h8 | split | dsimp only
    | with_reducible
      refine Same.upd ?_ (.inr rfl) (.inr rfl) (.inr rfl) (.inr rfl) (.inr rfl) (.inr rfl) (.inr rfl) (.inr rfl)
        (.inr rfl) (.inr rfl) (.inr rfl) (.inr rfl) (.inr rfl) (.inr rfl) (.inr rfl) (.inr rfl) (.inr rfl) (.inr rfl)
        (.inr rfl) (.inr rfl) (.inr rfl) (.inr rfl)

theorem stageFault_same {pm : Nat} {z : State} {s : State} {cs : List (Fin 16)} (hm : covers pm 974)
    (hz : Same pm z s) :
    Same pm z (stageFault s cs) := by
  have h974 : covers pm 974 := hm.le rfl
  unfold stageFault
  repeat' first
    | with_reducible assumption | (with_reducible apply Same.foldl; rotate_left; intro _ _ _)
    | with_reducible apply faultMembers_same h974 | split | dsimp only

theorem scTrip_same {pm : Nat} {z : State} {l : Fin 32} {hard : Bool} {milliamps : Int} {s : State}
    (hm : covers pm 974) (hz : Same pm z s) :
    Same pm z (scTrip l hard milliamps s) := by
  have h4 : covers pm 4 := hm.le rfl
  have h12 : covers pm 12 := hm.le rfl
  have h640 : covers pm 640 := hm.le rfl
  have h974 : covers pm 974 := hm.le rfl
  unfold scTrip
  repeat' first
    | with_reducible assumption | with_reducible apply updLeg_same h4 | with_reducible apply queueEvent_same h640
    | with_reducible apply joinRestart_same h12 | with_reducible apply stageFault_same h974
    | with_reducible apply Same.ite | split | dsimp only
    | with_reducible
      refine Same.upd ?_ (.inr rfl) (.inr rfl) (.inr rfl) (.inr rfl) (.inr rfl) (.inr rfl) (.inr rfl) (.inr rfl)
        (.inr rfl) (.inr rfl) (.inr rfl) (.inr rfl) (.inr rfl) (.inr rfl) (.inr rfl) (.inr rfl) (.inr rfl) (.inr rfl)
        (.inr rfl) (.inr rfl) (.inr rfl) (.inr rfl)

theorem scGroupTrip_same {pm : Nat} {z : State} {g : Fin 4} {hard : Bool} {tripped turnedOn : BitVec 8} {s : State}
    (hm : covers pm 974) (hz : Same pm z s) :
    Same pm z (scGroupTrip g hard tripped turnedOn s) := by
  have h4 : covers pm 4 := hm.le rfl
  have h12 : covers pm 12 := hm.le rfl
  have h640 : covers pm 640 := hm.le rfl
  have h974 : covers pm 974 := hm.le rfl
  unfold scGroupTrip
  repeat' first
    | with_reducible assumption | (with_reducible apply Same.foldl; rotate_left; intro _ _ _)
    | with_reducible apply updLeg_same h4 | with_reducible apply queueEvent_same h640
    | with_reducible apply joinRestart_same h12 | with_reducible apply stageFault_same h974
    | with_reducible apply Same.ite | split | dsimp only
    | with_reducible
      refine Same.upd ?_ (.inr rfl) (.inr rfl) (.inr rfl) (.inr rfl) (.inr rfl) (.inr rfl) (.inr rfl) (.inr rfl)
        (.inr rfl) (.inr rfl) (.inr rfl) (.inr rfl) (.inr rfl) (.inr rfl) (.inr rfl) (.inr rfl) (.inr rfl) (.inr rfl)
        (.inr rfl) (.inr rfl) (.inr rfl) (.inr rfl)

theorem probeMark_same {pm : Nat} {z : State} {step : Nat} {s : State} {l : Fin 32} (hm : covers pm 644)
    (hz : Same pm z s) :
    Same pm z (probeMark step s l) := by
  have h4 : covers pm 4 := hm.le rfl
  have h640 : covers pm 640 := hm.le rfl
  unfold probeMark
  repeat' first
    | with_reducible assumption | with_reducible apply updLeg_same h4 | with_reducible apply queueEvent_same h640
    | split | dsimp only
    | with_reducible
      refine Same.upd ?_ (.inr rfl) (.inr rfl) (.inr rfl) (.inr rfl) (.inr rfl) (.inr rfl) (.inr rfl) (.inr rfl)
        (.inr rfl) (.inr rfl) (.inr rfl) (.inr rfl) (.inr rfl) (.inr rfl) (.inr rfl) (.inr rfl) (.inr rfl) (.inr rfl)
        (.inr rfl) (.inr rfl) (.inr rfl) (.inr rfl)

theorem probeFail_same {pm : Nat} {z : State} {s : State} {ls : List (Fin 32)} {step : Nat} (hm : covers pm 974)
    (hz : Same pm z s) :
    Same pm z (probeFail s ls step) := by
  have h12 : covers pm 12 := hm.le rfl
  have h644 : covers pm 644 := hm.le rfl
  have h974 : covers pm 974 := hm.le rfl
  unfold probeFail
  repeat' first
    | with_reducible assumption | (with_reducible apply Same.foldl; rotate_left; intro _ _ _)
    | with_reducible apply leaveRestart_same h12 | with_reducible apply stageFault_same h974
    | with_reducible apply probeMark_same h644 | split | dsimp only

theorem restartDecay_same {pm : Nat} {z : State} {g : Fin 4} {above : BitVec 8} {s : State} (hm : covers pm 974)
    (hz : Same pm z s) :
    Same pm z (restartDecay g above s) := by
  have h974 : covers pm 974 := hm.le rfl
  unfold restartDecay
  repeat' first
    | with_reducible assumption | with_reducible apply probeFail_same h974 | split | dsimp only
    | with_reducible
      refine Same.upd ?_ (.inr rfl) (.inr rfl) (.inr rfl) (.inr rfl) (.inr rfl) (.inr rfl) (.inr rfl) (.inr rfl)
        (.inr rfl) (.inr rfl) (.inr rfl) (.inr rfl) (.inr rfl) (.inr rfl) (.inr rfl) (.inr rfl) (.inr rfl) (.inr rfl)
        (.inr rfl) (.inr rfl) (.inr rfl) (.inr rfl)

theorem probeLeg_same {pm : Nat} {z : State} {g : Fin 4} {failStep : Vector Nat 8} {s : State} {i : Fin 8}
    (hm : covers pm 974) (hz : Same pm z s) :
    Same pm z (probeLeg g failStep s i) := by
  have h8 : covers pm 8 := hm.le rfl
  have h974 : covers pm 974 := hm.le rfl
  unfold probeLeg
  repeat' first
    | with_reducible assumption | with_reducible apply updGrp_same h8 | with_reducible apply probeFail_same h974
    | with_reducible apply Same.ite | split | dsimp only
    | with_reducible
      refine Same.upd ?_ (.inr rfl) (.inr rfl) (.inr rfl) (.inr rfl) (.inr rfl) (.inr rfl) (.inr rfl) (.inr rfl)
        (.inr rfl) (.inr rfl) (.inr rfl) (.inr rfl) (.inr rfl) (.inr rfl) (.inr rfl) (.inr rfl) (.inr rfl) (.inr rfl)
        (.inr rfl) (.inr rfl) (.inr rfl) (.inr rfl)

theorem restartHoldoff_same {pm : Nat} {z : State} {g : Fin 4} {failStep : Vector Nat 8} {s : State}
    (hm : covers pm 974) (hz : Same pm z s) :
    Same pm z (restartHoldoff g failStep s) := by
  have h8 : covers pm 8 := hm.le rfl
  have h974 : covers pm 974 := hm.le rfl
  unfold restartHoldoff
  repeat' first
    | with_reducible assumption | (with_reducible apply Same.foldl; rotate_left; intro _ _ _)
    | with_reducible apply updGrp_same h8 | with_reducible apply probeLeg_same h974 | with_reducible apply Same.ite
    | split | dsimp only
    | with_reducible
      refine Same.upd ?_ (.inr rfl) (.inr rfl) (.inr rfl) (.inr rfl) (.inr rfl) (.inr rfl) (.inr rfl) (.inr rfl)
        (.inr rfl) (.inr rfl) (.inr rfl) (.inr rfl) (.inr rfl) (.inr rfl) (.inr rfl) (.inr rfl) (.inr rfl) (.inr rfl)
        (.inr rfl) (.inr rfl) (.inr rfl) (.inr rfl)

theorem bootstrapPark_same {pm : Nat} {z : State} {s : State} {l : Fin 32} (hm : covers pm 974) (hz : Same pm z s) :
    Same pm z (bootstrapPark s l) := by
  have h4 : covers pm 4 := hm.le rfl
  have h640 : covers pm 640 := hm.le rfl
  have h974 : covers pm 974 := hm.le rfl
  unfold bootstrapPark
  repeat' first
    | with_reducible assumption | with_reducible apply updLeg_same h4 | with_reducible apply queueEvent_same h640
    | with_reducible apply legsFault_same h974 | split | dsimp only
    | with_reducible
      refine Same.upd ?_ (.inr rfl) (.inr rfl) (.inr rfl) (.inr rfl) (.inr rfl) (.inr rfl) (.inr rfl) (.inr rfl)
        (.inr rfl) (.inr rfl) (.inr rfl) (.inr rfl) (.inr rfl) (.inr rfl) (.inr rfl) (.inr rfl) (.inr rfl) (.inr rfl)
        (.inr rfl) (.inr rfl) (.inr rfl) (.inr rfl)

theorem bootstrapTrip_same {pm : Nat} {z : State} {l : Fin 32} {softOff : Bool} {periods : Nat} {s : State}
    (hm : covers pm 974) (hz : Same pm z s) :
    Same pm z (bootstrapTrip l softOff periods s) := by
  have h4 : covers pm 4 := hm.le rfl
  have h640 : covers pm 640 := hm.le rfl
  have h974 : covers pm 974 := hm.le rfl
  unfold bootstrapTrip
  repeat' first
    | with_reducible assumption | with_reducible apply updLeg_same h4 | with_reducible apply queueEvent_same h640
    | with_reducible apply queueOnce_same h640 | with_reducible apply bootstrapPark_same h974
    | with_reducible apply Same.ite | split | dsimp only
    | with_reducible
      refine Same.upd ?_ (.inr rfl) (.inr rfl) (.inr rfl) (.inr rfl) (.inr rfl) (.inr rfl) (.inr rfl) (.inr rfl)
        (.inr rfl) (.inr rfl) (.inr rfl) (.inr rfl) (.inr rfl) (.inr rfl) (.inr rfl) (.inr rfl) (.inr rfl) (.inr rfl)
        (.inr rfl) (.inr rfl) (.inr rfl) (.inr rfl)

theorem bootstrapLift_same {pm : Nat} {z : State} {l : Fin 32} {s : State} (hm : covers pm 4) (hz : Same pm z s) :
    Same pm z (bootstrapLift l s) := by
  have h4 : covers pm 4 := hm.le rfl
  unfold bootstrapLift
  repeat' first
    | with_reducible assumption | with_reducible apply updLeg_same h4 | split | dsimp only
    | with_reducible
      refine Same.upd ?_ (.inr rfl) (.inr rfl) (.inr rfl) (.inr rfl) (.inr rfl) (.inr rfl) (.inr rfl) (.inr rfl)
        (.inr rfl) (.inr rfl) (.inr rfl) (.inr rfl) (.inr rfl) (.inr rfl) (.inr rfl) (.inr rfl) (.inr rfl) (.inr rfl)
        (.inr rfl) (.inr rfl) (.inr rfl) (.inr rfl)

theorem bootstrapStretch_same {pm : Nat} {z : State} {l : Fin 32} {s : State} (hm : covers pm 4) (hz : Same pm z s) :
    Same pm z (bootstrapStretch l s) := by
  have h4 : covers pm 4 := hm.le rfl
  unfold bootstrapStretch
  repeat' first
    | with_reducible assumption | with_reducible apply updLeg_same h4 | with_reducible apply Same.ite | split
    | dsimp only
    | with_reducible
      refine Same.upd ?_ (.inr rfl) (.inr rfl) (.inr rfl) (.inr rfl) (.inr rfl) (.inr rfl) (.inr rfl) (.inr rfl)
        (.inr rfl) (.inr rfl) (.inr rfl) (.inr rfl) (.inr rfl) (.inr rfl) (.inr rfl) (.inr rfl) (.inr rfl) (.inr rfl)
        (.inr rfl) (.inr rfl) (.inr rfl) (.inr rfl)

theorem interlockHit_same {pm : Nat} {z : State} {l : Fin 32} {s : State} (hm : covers pm 644) (hz : Same pm z s) :
    Same pm z (interlockHit l s) := by
  have h4 : covers pm 4 := hm.le rfl
  have h640 : covers pm 640 := hm.le rfl
  unfold interlockHit
  repeat' first
    | with_reducible assumption | with_reducible apply updLeg_same h4 | with_reducible apply queueOnce_same h640
    | split | dsimp only
    | with_reducible
      refine Same.upd ?_ (.inr rfl) (.inr rfl) (.inr rfl) (.inr rfl) (.inr rfl) (.inr rfl) (.inr rfl) (.inr rfl)
        (.inr rfl) (.inr rfl) (.inr rfl) (.inr rfl) (.inr rfl) (.inr rfl) (.inr rfl) (.inr rfl) (.inr rfl) (.inr rfl)
        (.inr rfl) (.inr rfl) (.inr rfl) (.inr rfl)

theorem legConvFault_same {pm : Nat} {z : State} {s : State} {l : Fin 32} (hm : covers pm 974) (hz : Same pm z s) :
    Same pm z (legConvFault s l) := by
  have h4 : covers pm 4 := hm.le rfl
  have h640 : covers pm 640 := hm.le rfl
  have h974 : covers pm 974 := hm.le rfl
  unfold legConvFault
  repeat' first
    | with_reducible assumption | with_reducible apply updLeg_same h4 | with_reducible apply queueEvent_same h640
    | with_reducible apply legsFault_same h974 | split | dsimp only
    | with_reducible
      refine Same.upd ?_ (.inr rfl) (.inr rfl) (.inr rfl) (.inr rfl) (.inr rfl) (.inr rfl) (.inr rfl) (.inr rfl)
        (.inr rfl) (.inr rfl) (.inr rfl) (.inr rfl) (.inr rfl) (.inr rfl) (.inr rfl) (.inr rfl) (.inr rfl) (.inr rfl)
        (.inr rfl) (.inr rfl) (.inr rfl) (.inr rfl)

theorem accusedLeg_same {pm : Nat} {z : State} {s : State} {c : Fin 16} (hm : covers pm 1) (hz : Same pm z s) :
    Same pm z (accusedLeg s c).2 := by
  have h1 : covers pm 1 := hm.le rfl
  unfold accusedLeg
  repeat' first
    | with_reducible assumption | with_reducible apply drawFree_same h1 | with_reducible apply Same.ite
    | with_reducible apply Same.iteSnd | split | dsimp only

theorem loopSatEvent_same {pm : Nat} {z : State} {c : Fin 16} {s : State} (hm : covers pm 642) (hz : Same pm z s) :
    Same pm z (loopSatEvent c s) := by
  have h2 : covers pm 2 := hm.le rfl
  have h640 : covers pm 640 := hm.le rfl
  unfold loopSatEvent
  repeat' first
    | with_reducible assumption | with_reducible apply updCh_same h2 | with_reducible apply queueEvent_same h640
    | with_reducible apply Same.ite | split | dsimp only
    | with_reducible
      refine Same.upd ?_ (.inr rfl) (.inr rfl) (.inr rfl) (.inr rfl) (.inr rfl) (.inr rfl) (.inr rfl) (.inr rfl)
        (.inr rfl) (.inr rfl) (.inr rfl) (.inr rfl) (.inr rfl) (.inr rfl) (.inr rfl) (.inr rfl) (.inr rfl) (.inr rfl)
        (.inr rfl) (.inr rfl) (.inr rfl) (.inr rfl)

theorem implausibleEvent_same {pm : Nat} {z : State} {c : Fin 16} {k : Fin 4} {s : State} (hm : covers pm 975)
    (hz : Same pm z s) :
    Same pm z (implausibleEvent c k s) := by
  have h1 : covers pm 1 := hm.le rfl
  have h2 : covers pm 2 := hm.le rfl
  have h640 : covers pm 640 := hm.le rfl
  have h974 : covers pm 974 := hm.le rfl
  unfold implausibleEvent
  repeat' first
    | with_reducible assumption | with_reducible apply updCh_same h2 | with_reducible apply queueEvent_same h640
    | with_reducible apply addCause_same h2 | with_reducible apply legConvFault_same h974
    | with_reducible apply accusedLeg_same h1 | with_reducible apply Same.ite | split | dsimp only
    | with_reducible
      refine Same.upd ?_ (.inr rfl) (.inr rfl) (.inr rfl) (.inr rfl) (.inr rfl) (.inr rfl) (.inr rfl) (.inr rfl)
        (.inr rfl) (.inr rfl) (.inr rfl) (.inr rfl) (.inr rfl) (.inr rfl) (.inr rfl) (.inr rfl) (.inr rfl) (.inr rfl)
        (.inr rfl) (.inr rfl) (.inr rfl) (.inr rfl)

theorem execScTrip_same {leg : Fin 32} {hard : Bool} {milliamps : Int} {s : State} {t : State}
    (hz : execScTrip leg hard milliamps s = .next t) : Same 974 s t := by
  have hm : covers 974 974 := rfl
  have h974 : covers 974 974 := hm.le rfl
  unfold execScTrip at hz
  obtain rfl := Host.Outcome.next.inj hz
  clear hz
  have hz := Same.refl 974 s
  repeat' first
    | with_reducible assumption | with_reducible apply scTrip_same h974 | with_reducible apply Same.ite
    | with_reducible apply Same.iteFst | with_reducible intro _ _ _ | split | dsimp only

theorem execScGroup_same {group : Fin 4} {hard : Bool} {tripped turnedOn : BitVec 8} {s : State} {t : State}
    (hz : execScGroup group hard tripped turnedOn s = .next t) : Same 974 s t := by
  have hm : covers 974 974 := rfl
  have h974 : covers 974 974 := hm.le rfl
  unfold execScGroup at hz
  obtain rfl := Host.Outcome.next.inj hz
  clear hz
  have hz := Same.refl 974 s
  repeat' first
    | with_reducible assumption | with_reducible apply scGroupTrip_same h974 | with_reducible apply Same.ite
    | with_reducible apply Same.iteFst | with_reducible intro _ _ _ | split | dsimp only

theorem execRestartDecayTimeout_same {group : Fin 4} {above : BitVec 8} {s : State} {t : State}
    (hz : execRestartDecayTimeout group above s = .next t) : Same 974 s t := by
  have hm : covers 974 974 := rfl
  have h974 : covers 974 974 := hm.le rfl
  unfold execRestartDecayTimeout at hz
  obtain rfl := Host.Outcome.next.inj hz
  clear hz
  have hz := Same.refl 974 s
  repeat' first
    | with_reducible assumption | with_reducible apply restartDecay_same h974 | with_reducible apply Same.ite
    | with_reducible apply Same.iteFst | with_reducible intro _ _ _ | split | dsimp only

theorem execRestartHoldoffEnd_same {group : Fin 4} {failStep : Vector Nat 8} {s : State} {t : State}
    (hz : execRestartHoldoffEnd group failStep s = .next t) : Same 974 s t := by
  have hm : covers 974 974 := rfl
  have h974 : covers 974 974 := hm.le rfl
  unfold execRestartHoldoffEnd at hz
  obtain rfl := Host.Outcome.next.inj hz
  clear hz
  have hz := Same.refl 974 s
  repeat' first
    | with_reducible assumption | with_reducible apply restartHoldoff_same h974 | with_reducible apply Same.ite
    | with_reducible apply Same.iteFst | with_reducible intro _ _ _ | split | dsimp only

theorem execBootstrapUv_same {trip : BootTrip} {s : State} {t : State}
    (hz : execBootstrapUv trip s = .next t) : Same 974 s t := by
  have hm : covers 974 974 := rfl
  have h974 : covers 974 974 := hm.le rfl
  unfold execBootstrapUv at hz
  obtain rfl := Host.Outcome.next.inj hz
  clear hz
  have hz := Same.refl 974 s
  repeat' first
    | with_reducible assumption | with_reducible apply bootstrapTrip_same h974 | with_reducible apply Same.ite
    | with_reducible apply Same.iteFst | with_reducible intro _ _ _ | split | dsimp only

theorem execBootstrapDlimLift_same {leg : Fin 32} {s : State} {t : State}
    (hz : execBootstrapDlimLift leg s = .next t) : Same 4 s t := by
  have hm : covers 4 4 := rfl
  have h4 : covers 4 4 := hm.le rfl
  unfold execBootstrapDlimLift at hz
  obtain rfl := Host.Outcome.next.inj hz
  clear hz
  have hz := Same.refl 4 s
  repeat' first
    | with_reducible assumption | with_reducible apply bootstrapLift_same h4 | with_reducible apply Same.ite
    | with_reducible apply Same.iteFst | with_reducible intro _ _ _ | split | dsimp only

theorem execBootstrapRefresh_same {leg : Fin 32} {s : State} {t : State}
    (hz : execBootstrapRefresh leg s = .next t) : Same 4 s t := by
  have hm : covers 4 4 := rfl
  have h4 : covers 4 4 := hm.le rfl
  unfold execBootstrapRefresh at hz
  obtain rfl := Host.Outcome.next.inj hz
  clear hz
  have hz := Same.refl 4 s
  repeat' first
    | with_reducible assumption | with_reducible apply bootstrapStretch_same h4 | with_reducible apply Same.ite
    | with_reducible apply Same.iteFst | with_reducible intro _ _ _ | split | dsimp only

theorem execInterlock_same {leg : Fin 32} {s : State} {t : State}
    (hz : execInterlock leg s = .next t) : Same 644 s t := by
  have hm : covers 644 644 := rfl
  have h644 : covers 644 644 := hm.le rfl
  unfold execInterlock at hz
  obtain rfl := Host.Outcome.next.inj hz
  clear hz
  have hz := Same.refl 644 s
  repeat' first
    | with_reducible assumption | with_reducible apply interlockHit_same h644 | with_reducible apply Same.ite
    | with_reducible apply Same.iteFst | with_reducible intro _ _ _ | split | dsimp only

theorem execLoopSat_same {ch : Fin 16} {s : State} {t : State} (hz : execLoopSat ch s = .next t) : Same 642 s t := by
  have hm : covers 642 642 := rfl
  have h642 : covers 642 642 := hm.le rfl
  unfold execLoopSat at hz
  obtain rfl := Host.Outcome.next.inj hz
  clear hz
  have hz := Same.refl 642 s
  repeat' first
    | with_reducible assumption | with_reducible apply loopSatEvent_same h642 | with_reducible apply Same.ite
    | with_reducible apply Same.iteFst | with_reducible intro _ _ _ | split | dsimp only

theorem execImplausible_same {ch : Fin 16} {check : Fin 4} {s : State} {t : State}
    (hz : execImplausible ch check s = .next t) : Same 975 s t := by
  have hm : covers 975 975 := rfl
  have h975 : covers 975 975 := hm.le rfl
  unfold execImplausible at hz
  obtain rfl := Host.Outcome.next.inj hz
  clear hz
  have hz := Same.refl 975 s
  repeat' first
    | with_reducible assumption | with_reducible apply implausibleEvent_same h975 | with_reducible apply Same.ite
    | with_reducible apply Same.iteFst | with_reducible intro _ _ _ | split | dsimp only

end Sys2Proof.Safety
end

