-- ==== Sys2Proof/Laws/SameSafetyEvents.lean ====
section
/-! SUPPORT. The parts of the state that the operations of Machine/SafetyEvents.lean leave alone. -/
namespace Sys2Proof.Safety

open Sys2Proof.Machine

set_option simprocs false

theorem discProgress_same {pm : Nat} {z : State} {s : State} {i : Fin 4} (hm : covers pm 2048) (hz : Same pm z s) :
    Same pm z (discProgress s i) := by
  have b11 : pm.testBit 11 = true := hm.bit rfl
  unfold discProgress
  repeat' first
    | with_reducible assumption | with_reducible apply Same.ite | split | dsimp only
    | with_reducible
      refine Same.upd ?_ (.inr rfl) (.inr rfl) (.inr rfl) (.inr rfl) (.inr rfl) (.inr rfl) (.inr rfl) (.inr rfl)
        (.inr rfl) (.inr rfl) (.inr rfl) (.inl b11) (.inr rfl) (.inr rfl) (.inr rfl) (.inr rfl) (.inr rfl) (.inr rfl)
        (.inr rfl) (.inr rfl) (.inr rfl) (.inr rfl)

theorem stopInput_same {pm : Nat} {z : State} {i : Fin 4} {chanB level : Bool} {s : State} (hm : covers pm 282623)
    (hz : Same pm z s) :
    Same pm z (stopInput i chanB level s) := by
  have h2048 : covers pm 2048 := hm.le rfl
  have h282623 : covers pm 282623 := hm.le rfl
  have b11 : pm.testBit 11 = true := hm.bit rfl
  unfold stopInput
  repeat' first
    | with_reducible assumption | with_reducible apply demand_same h282623
    | with_reducible apply discProgress_same h2048 | with_reducible apply Same.ite | split | dsimp only
    | with_reducible
      refine Same.upd ?_ (.inr rfl) (.inr rfl) (.inr rfl) (.inr rfl) (.inr rfl) (.inr rfl) (.inr rfl) (.inr rfl)
        (.inr rfl) (.inr rfl) (.inr rfl) (.inl b11) (.inr rfl) (.inr rfl) (.inr rfl) (.inr rfl) (.inr rfl) (.inr rfl)
        (.inr rfl) (.inr rfl) (.inr rfl) (.inr rfl)

theorem storeLatch_same {pm : Nat} {z : State} {s : State} (hm : covers pm 1024) (hz : Same pm z s) :
    Same pm z (storeLatch s) := by
  have b10 : pm.testBit 10 = true := hm.bit rfl
  unfold storeLatch
  repeat' first
    | with_reducible assumption | with_reducible apply Same.ite | split | dsimp only
    | with_reducible
      refine Same.upd ?_ (.inr rfl) (.inr rfl) (.inr rfl) (.inr rfl) (.inr rfl) (.inr rfl) (.inr rfl) (.inr rfl)
        (.inr rfl) (.inr rfl) (.inl b10) (.inr rfl) (.inr rfl) (.inr rfl) (.inr rfl) (.inr rfl) (.inr rfl) (.inr rfl)
        (.inr rfl) (.inr rfl) (.inr rfl) (.inr rfl)

theorem discrepancy_same {pm : Nat} {z : State} {i : Fin 4} {s : State} (hm : covers pm 282623) (hz : Same pm z s) :
    Same pm z (discrepancy i s) := by
  have h640 : covers pm 640 := hm.le rfl
  have h282623 : covers pm 282623 := hm.le rfl
  have b11 : pm.testBit 11 = true := hm.bit rfl
  unfold discrepancy
  repeat' first
    | with_reducible assumption | with_reducible apply queueEvent_same h640 | with_reducible apply demand_same h282623
    | with_reducible apply Same.ite | split | dsimp only
    | with_reducible
      refine Same.upd ?_ (.inr rfl) (.inr rfl) (.inr rfl) (.inr rfl) (.inr rfl) (.inr rfl) (.inr rfl) (.inr rfl)
        (.inr rfl) (.inr rfl) (.inr rfl) (.inl b11) (.inr rfl) (.inr rfl) (.inr rfl) (.inr rfl) (.inr rfl) (.inr rfl)
        (.inr rfl) (.inr rfl) (.inr rfl) (.inr rfl)

theorem cat1Expiry_same {pm : Nat} {z : State} {s : State} (hm : covers pm 3022) (hz : Same pm z s) :
    Same pm z (cat1Expiry s) := by
  have h3022 : covers pm 3022 := hm.le rfl
  unfold cat1Expiry
  repeat' first
    | with_reducible assumption | with_reducible apply category0_same h3022 | with_reducible apply Same.ite | split
    | dsimp only

theorem standstillLost_same {pm : Nat} {z : State} {c : Fin 16} {milliamps : Nat} {s : State} (hm : covers pm 3071)
    (hz : Same pm z s) :
    Same pm z (standstillLost c milliamps s) := by
  have h640 : covers pm 640 := hm.le rfl
  have h953 : covers pm 953 := hm.le rfl
  have h3022 : covers pm 3022 := hm.le rfl
  unfold standstillLost
  repeat' first
    | with_reducible assumption | with_reducible apply queueEvent_same h640
    | with_reducible apply abortStaged_same h953 | with_reducible apply escalate_same h3022
    | with_reducible apply Same.ite | split | dsimp only

theorem outputFail_same {pm : Nat} {z : State} {s : State} {o : Fin 2} {switch : Nat} (hm : covers pm 282623)
    (hz : Same pm z s) :
    Same pm z (outputFail s o switch) := by
  have h640 : covers pm 640 := hm.le rfl
  have h2048 : covers pm 2048 := hm.le rfl
  have h282623 : covers pm 282623 := hm.le rfl
  unfold outputFail
  repeat' first
    | with_reducible assumption | with_reducible apply queueEvent_same h640
    | with_reducible apply setOutputs_same h2048 | with_reducible apply demand_same h282623 | split | dsimp only

theorem offPulse_same {pm : Nat} {z : State} {o : Fin 2} {pass : Bool} {s : State} (hm : covers pm 282623)
    (hz : Same pm z s) :
    Same pm z (offPulse o pass s) := by
  have h282623 : covers pm 282623 := hm.le rfl
  have b11 : pm.testBit 11 = true := hm.bit rfl
  unfold offPulse
  repeat' first
    | with_reducible assumption | with_reducible apply outputFail_same h282623 | with_reducible apply Same.ite | split
    | dsimp only
    | with_reducible
      refine Same.upd ?_ (.inr rfl) (.inr rfl) (.inr rfl) (.inr rfl) (.inr rfl) (.inr rfl) (.inr rfl) (.inr rfl)
        (.inr rfl) (.inr rfl) (.inr rfl) (.inl b11) (.inr rfl) (.inr rfl) (.inr rfl) (.inr rfl) (.inr rfl) (.inr rfl)
        (.inr rfl) (.inr rfl) (.inr rfl) (.inr rfl)

theorem overload_same {pm : Nat} {z : State} {o : Fin 2} {s : State} (hm : covers pm 282623) (hz : Same pm z s) :
    Same pm z (overload o s) := by
  have h640 : covers pm 640 := hm.le rfl
  have h2048 : covers pm 2048 := hm.le rfl
  have h282623 : covers pm 282623 := hm.le rfl
  have b11 : pm.testBit 11 = true := hm.bit rfl
  unfold overload
  repeat' first
    | with_reducible assumption | with_reducible apply queueEvent_same h640
    | with_reducible apply setOutputs_same h2048 | with_reducible apply demand_same h282623
    | with_reducible apply Same.ite | split | dsimp only
    | with_reducible
      refine Same.upd ?_ (.inr rfl) (.inr rfl) (.inr rfl) (.inr rfl) (.inr rfl) (.inr rfl) (.inr rfl) (.inr rfl)
        (.inr rfl) (.inr rfl) (.inr rfl) (.inl b11) (.inr rfl) (.inr rfl) (.inr rfl) (.inr rfl) (.inr rfl) (.inr rfl)
        (.inr rfl) (.inr rfl) (.inr rfl) (.inr rfl)

theorem feedbackFault_same {pm : Nat} {z : State} {o : Fin 2} {s : State} (hm : covers pm 282623) (hz : Same pm z s) :
    Same pm z (feedbackFault o s) := by
  have h640 : covers pm 640 := hm.le rfl
  have h282623 : covers pm 282623 := hm.le rfl
  have b11 : pm.testBit 11 = true := hm.bit rfl
  unfold feedbackFault
  repeat' first
    | with_reducible assumption | with_reducible apply queueEvent_same h640 | with_reducible apply demand_same h282623
    | with_reducible apply Same.ite | split | dsimp only
    | with_reducible
      refine Same.upd ?_ (.inr rfl) (.inr rfl) (.inr rfl) (.inr rfl) (.inr rfl) (.inr rfl) (.inr rfl) (.inr rfl)
        (.inr rfl) (.inr rfl) (.inr rfl) (.inl b11) (.inr rfl) (.inr rfl) (.inr rfl) (.inr rfl) (.inr rfl) (.inr rfl)
        (.inr rfl) (.inr rfl) (.inr rfl) (.inr rfl)

theorem feedbackChange_same {pm : Nat} {z : State} {o : Fin 2} {level : Bool} {s : State} (hm : covers pm 2048)
    (hz : Same pm z s) :
    Same pm z (feedbackChange o level s) := by
  have h2048 : covers pm 2048 := hm.le rfl
  have b11 : pm.testBit 11 = true := hm.bit rfl
  unfold feedbackChange
  repeat' first
    | with_reducible assumption | with_reducible apply setOutputs_same h2048
    | with_reducible apply refreshOutputs_same h2048 | split | dsimp only
    | with_reducible
      refine Same.upd ?_ (.inr rfl) (.inr rfl) (.inr rfl) (.inr rfl) (.inr rfl) (.inr rfl) (.inr rfl) (.inr rfl)
        (.inr rfl) (.inr rfl) (.inr rfl) (.inl b11) (.inr rfl) (.inr rfl) (.inr rfl) (.inr rfl) (.inr rfl) (.inr rfl)
        (.inr rfl) (.inr rfl) (.inr rfl) (.inr rfl)

theorem vsoLow_same {pm : Nat} {z : State} {s : State} (hm : covers pm 806911) (hz : Same pm z s) :
    Same pm z (vsoLow s) := by
  have h282623 : covers pm 282623 := hm.le rfl
  have b11 : pm.testBit 11 = true := hm.bit rfl
  have b19 : pm.testBit 19 = true := hm.bit rfl
  unfold vsoLow
  repeat' first
    | with_reducible assumption | (with_reducible apply Same.foldl; rotate_left; intro _ _ _)
    | with_reducible apply outputFail_same h282623 | split | dsimp only
    | with_reducible
      refine Same.upd ?_ (.inr rfl) (.inr rfl) (.inr rfl) (.inr rfl) (.inr rfl) (.inr rfl) (.inr rfl) (.inr rfl)
        (.inr rfl) (.inr rfl) (.inr rfl) (.inl b11) (.inr rfl) (.inr rfl) (.inr rfl) (.inr rfl) (.inr rfl) (.inr rfl)
        (.inr rfl) (.inl b19) (.inr rfl) (.inr rfl)

theorem cpTripped_same {pm : Nat} {z : State} {c : Fin 16} {k : CpKind} {s : State} (hm : covers pm 974)
    (hz : Same pm z s) :
    Same pm z (cpTripped c k s) := by
  have h974 : covers pm 974 := hm.le rfl
  have b9 : pm.testBit 9 = true := hm.bit rfl
  unfold cpTripped
  repeat' first
    | with_reducible assumption | with_reducible apply protectionTrip_same h974 | with_reducible apply Same.ite
    | split | dsimp only
    | with_reducible
      refine Same.upd ?_ (.inr rfl) (.inr rfl) (.inr rfl) (.inr rfl) (.inr rfl) (.inr rfl) (.inr rfl) (.inr rfl)
        (.inr rfl) (.inl b9) (.inr rfl) (.inr rfl) (.inr rfl) (.inr rfl) (.inr rfl) (.inr rfl) (.inr rfl) (.inr rfl)
        (.inr rfl) (.inr rfl) (.inr rfl) (.inr rfl)

theorem cpTests_same {pm : Nat} {z : State} {failed : Mask} {s : State} (hm : covers pm 3022) (hz : Same pm z s) :
    Same pm z (cpTests failed s) := by
  have h974 : covers pm 974 := hm.le rfl
  have b9 : pm.testBit 9 = true := hm.bit rfl
  have b11 : pm.testBit 11 = true := hm.bit rfl
  unfold cpTests
  repeat' first
    | with_reducible assumption | (with_reducible apply Same.foldl; rotate_left; intro _ _ _)
    | with_reducible apply protectionTrip_same h974 | with_reducible apply Same.ite | split | dsimp only
    | with_reducible
      refine Same.upd ?_ (.inr rfl) (.inr rfl) (.inr rfl) (.inr rfl) (.inr rfl) (.inr rfl) (.inr rfl) (.inr rfl)
        (.inr rfl) (.inl b9) (.inr rfl) (.inl b11) (.inr rfl) (.inr rfl) (.inr rfl) (.inr rfl) (.inr rfl) (.inr rfl)
        (.inr rfl) (.inr rfl) (.inr rfl) (.inr rfl)

theorem refClockLost_same {pm : Nat} {z : State} {s : State} (hm : covers pm 282623) (hz : Same pm z s) :
    Same pm z (refClockLost s) := by
  have h282623 : covers pm 282623 := hm.le rfl
  have b11 : pm.testBit 11 = true := hm.bit rfl
  unfold refClockLost
  repeat' first
    | with_reducible assumption | with_reducible apply demand_same h282623 | with_reducible apply Same.ite | split
    | dsimp only
    | with_reducible
      refine Same.upd ?_ (.inr rfl) (.inr rfl) (.inr rfl) (.inr rfl) (.inr rfl) (.inr rfl) (.inr rfl) (.inr rfl)
        (.inr rfl) (.inr rfl) (.inr rfl) (.inl b11) (.inr rfl) (.inr rfl) (.inr rfl) (.inr rfl) (.inr rfl) (.inr rfl)
        (.inr rfl) (.inr rfl) (.inr rfl) (.inr rfl)

theorem safetyOscFailed_same {pm : Nat} {z : State} {s : State} (hm : covers pm 282623) (hz : Same pm z s) :
    Same pm z (safetyOscFailed s) := by
  have h282623 : covers pm 282623 := hm.le rfl
  have b11 : pm.testBit 11 = true := hm.bit rfl
  unfold safetyOscFailed
  repeat' first
    | with_reducible assumption | with_reducible apply demand_same h282623 | with_reducible apply Same.ite | split
    | dsimp only
    | with_reducible
      refine Same.upd ?_ (.inr rfl) (.inr rfl) (.inr rfl) (.inr rfl) (.inr rfl) (.inr rfl) (.inr rfl) (.inr rfl)
        (.inr rfl) (.inr rfl) (.inr rfl) (.inl b11) (.inr rfl) (.inr rfl) (.inr rfl) (.inr rfl) (.inr rfl) (.inr rfl)
        (.inr rfl) (.inr rfl) (.inr rfl) (.inr rfl)

theorem clockGood_same {pm : Nat} {z : State} {oscillator : Bool} {s : State} (hm : covers pm 2048) (hz : Same pm z s) :
    Same pm z (clockGood oscillator s) := by
  have b11 : pm.testBit 11 = true := hm.bit rfl
  unfold clockGood
  repeat' first
    | with_reducible assumption | with_reducible apply Same.ite | split | dsimp only
    | with_reducible
      refine Same.upd ?_ (.inr rfl) (.inr rfl) (.inr rfl) (.inr rfl) (.inr rfl) (.inr rfl) (.inr rfl) (.inr rfl)
        (.inr rfl) (.inr rfl) (.inr rfl) (.inl b11) (.inr rfl) (.inr rfl) (.inr rfl) (.inr rfl) (.inr rfl) (.inr rfl)
        (.inr rfl) (.inr rfl) (.inr rfl) (.inr rfl)

theorem gateDisableFailed_same {pm : Nat} {z : State} {g : Fin 4} {s : State} (hm : covers pm 282623)
    (hz : Same pm z s) :
    Same pm z (gateDisableFailed g s) := by
  have h8 : covers pm 8 := hm.le rfl
  have h282623 : covers pm 282623 := hm.le rfl
  have b11 : pm.testBit 11 = true := hm.bit rfl
  unfold gateDisableFailed
  repeat' first
    | with_reducible assumption | with_reducible apply updGrp_same h8 | with_reducible apply demand_same h282623
    | with_reducible apply Same.ite | split | dsimp only
    | with_reducible
      refine Same.upd ?_ (.inr rfl) (.inr rfl) (.inr rfl) (.inr rfl) (.inr rfl) (.inr rfl) (.inr rfl) (.inr rfl)
        (.inr rfl) (.inr rfl) (.inr rfl) (.inl b11) (.inr rfl) (.inr rfl) (.inr rfl) (.inr rfl) (.inr rfl) (.inr rfl)
        (.inr rfl) (.inr rfl) (.inr rfl) (.inr rfl)

theorem safetyDiverged_same {pm : Nat} {z : State} {s : State} (hm : covers pm 3022) (hz : Same pm z s) :
    Same pm z (safetyDiverged s) := by
  have h3022 : covers pm 3022 := hm.le rfl
  have b11 : pm.testBit 11 = true := hm.bit rfl
  unfold safetyDiverged
  repeat' first
    | with_reducible assumption | with_reducible apply escalate_same h3022 | with_reducible apply Same.ite | split
    | dsimp only
    | with_reducible
      refine Same.upd ?_ (.inr rfl) (.inr rfl) (.inr rfl) (.inr rfl) (.inr rfl) (.inr rfl) (.inr rfl) (.inr rfl)
        (.inr rfl) (.inr rfl) (.inr rfl) (.inl b11) (.inr rfl) (.inr rfl) (.inr rfl) (.inr rfl) (.inr rfl) (.inr rfl)
        (.inr rfl) (.inr rfl) (.inr rfl) (.inr rfl)

theorem safetyRestarted_same {pm : Nat} {z : State} {micros : Nat} {s : State} (hm : covers pm 2688)
    (hz : Same pm z s) :
    Same pm z (safetyRestarted micros s) := by
  have h640 : covers pm 640 := hm.le rfl
  have b11 : pm.testBit 11 = true := hm.bit rfl
  unfold safetyRestarted
  repeat' first
    | with_reducible assumption | with_reducible apply queueEvent_same h640 | with_reducible apply Same.ite | split
    | dsimp only
    | with_reducible
      refine Same.upd ?_ (.inr rfl) (.inr rfl) (.inr rfl) (.inr rfl) (.inr rfl) (.inr rfl) (.inr rfl) (.inr rfl)
        (.inr rfl) (.inr rfl) (.inr rfl) (.inl b11) (.inr rfl) (.inr rfl) (.inr rfl) (.inr rfl) (.inr rfl) (.inr rfl)
        (.inr rfl) (.inr rfl) (.inr rfl) (.inr rfl)

theorem sessionExpires_same {pm : Nat} {z : State} {s : State} (hm : covers pm 3713) (hz : Same pm z s) :
    Same pm z (sessionExpires s) := by
  have h1 : covers pm 1 := hm.le rfl
  have h3713 : covers pm 3713 := hm.le rfl
  unfold sessionExpires
  repeat' first
    | with_reducible assumption | with_reducible apply timePasses_same h1
    | with_reducible apply closeSession_same h3713 | with_reducible apply Same.ite | split | dsimp only

theorem unlockSlot_same {pm : Nat} {z : State} {m : Fin 4} {s : State} (hm : covers pm 2049) (hz : Same pm z s) :
    Same pm z (unlockSlot m s) := by
  have h1 : covers pm 1 := hm.le rfl
  have b11 : pm.testBit 11 = true := hm.bit rfl
  unfold unlockSlot
  repeat' first
    | with_reducible assumption | with_reducible apply timePasses_same h1 | with_reducible apply Same.ite | split
    | dsimp only
    | with_reducible
      refine Same.upd ?_ (.inr rfl) (.inr rfl) (.inr rfl) (.inr rfl) (.inr rfl) (.inr rfl) (.inr rfl) (.inr rfl)
        (.inr rfl) (.inr rfl) (.inr rfl) (.inl b11) (.inr rfl) (.inr rfl) (.inr rfl) (.inr rfl) (.inr rfl) (.inr rfl)
        (.inr rfl) (.inr rfl) (.inr rfl) (.inr rfl)

theorem execStopInputChange_same {input : Fin 4} {chanB level : Bool} {s : State} {t : State}
    (hz : execStopInputChange input chanB level s = .next t) : Same 282623 s t := by
  have hm : covers 282623 282623 := rfl
  have h282623 : covers 282623 282623 := hm.le rfl
  unfold execStopInputChange at hz
  obtain rfl := Host.Outcome.next.inj hz
  clear hz
  have hz := Same.refl 282623 s
  repeat' first
    | with_reducible assumption | with_reducible apply stopInput_same h282623 | with_reducible apply Same.ite
    | with_reducible apply Same.iteFst | with_reducible intro _ _ _ | split | dsimp only

theorem execSafeLatchStore_same {s : State} {t : State} (hz : execSafeLatchStore s = .next t) : Same 1024 s t := by
  have hm : covers 1024 1024 := rfl
  have h1024 : covers 1024 1024 := hm.le rfl
  unfold execSafeLatchStore at hz
  obtain rfl := Host.Outcome.next.inj hz
  clear hz
  have hz := Same.refl 1024 s
  repeat' first
    | with_reducible assumption | with_reducible apply storeLatch_same h1024 | with_reducible apply Same.ite
    | with_reducible apply Same.iteFst | with_reducible intro _ _ _ | split | dsimp only

theorem execDiscrep_same {input : Fin 4} {s : State} {t : State}
    (hz : execDiscrep input s = .next t) : Same 282623 s t := by
  have hm : covers 282623 282623 := rfl
  have h282623 : covers 282623 282623 := hm.le rfl
  unfold execDiscrep at hz
  obtain rfl := Host.Outcome.next.inj hz
  clear hz
  have hz := Same.refl 282623 s
  repeat' first
    | with_reducible assumption | with_reducible apply discrepancy_same h282623 | with_reducible apply Same.ite
    | with_reducible apply Same.iteFst | with_reducible intro _ _ _ | split | dsimp only

theorem execCat1TimerExpiry_same {s : State} {t : State} (hz : execCat1TimerExpiry s = .next t) : Same 3022 s t := by
  have hm : covers 3022 3022 := rfl
  have h3022 : covers 3022 3022 := hm.le rfl
  unfold execCat1TimerExpiry at hz
  obtain rfl := Host.Outcome.next.inj hz
  clear hz
  have hz := Same.refl 3022 s
  repeat' first
    | with_reducible assumption | with_reducible apply cat1Expiry_same h3022 | with_reducible apply Same.ite
    | with_reducible apply Same.iteFst | with_reducible intro _ _ _ | split | dsimp only

theorem execSafeEscalate_same {ch : Fin 16} {milliamps : Nat} {s : State} {t : State}
    (hz : execSafeEscalate ch milliamps s = .next t) : Same 3071 s t := by
  have hm : covers 3071 3071 := rfl
  have h3071 : covers 3071 3071 := hm.le rfl
  unfold execSafeEscalate at hz
  obtain rfl := Host.Outcome.next.inj hz
  clear hz
  have hz := Same.refl 3071 s
  repeat' first
    | with_reducible assumption | with_reducible apply standstillLost_same h3071 | with_reducible apply Same.ite
    | with_reducible apply Same.iteFst | with_reducible intro _ _ _ | split | dsimp only

theorem execOffPulseTest_same {out : Fin 2} {pass : Bool} {s : State} {t : State}
    (hz : execOffPulseTest out pass s = .next t) : Same 282623 s t := by
  have hm : covers 282623 282623 := rfl
  have h282623 : covers 282623 282623 := hm.le rfl
  unfold execOffPulseTest at hz
  obtain rfl := Host.Outcome.next.inj hz
  clear hz
  have hz := Same.refl 282623 s
  repeat' first
    | with_reducible assumption | with_reducible apply offPulse_same h282623 | with_reducible apply Same.ite
    | with_reducible apply Same.iteFst | with_reducible intro _ _ _ | split | dsimp only

theorem execSoOverload_same {out : Fin 2} {s : State} {t : State}
    (hz : execSoOverload out s = .next t) : Same 282623 s t := by
  have hm : covers 282623 282623 := rfl
  have h282623 : covers 282623 282623 := hm.le rfl
  unfold execSoOverload at hz
  obtain rfl := Host.Outcome.next.inj hz
  clear hz
  have hz := Same.refl 282623 s
  repeat' first
    | with_reducible assumption | with_reducible apply overload_same h282623 | with_reducible apply Same.ite
    | with_reducible apply Same.iteFst | with_reducible intro _ _ _ | split | dsimp only

theorem execSofbFault_same {out : Fin 2} {s : State} {t : State}
    (hz : execSofbFault out s = .next t) : Same 282623 s t := by
  have hm : covers 282623 282623 := rfl
  have h282623 : covers 282623 282623 := hm.le rfl
  unfold execSofbFault at hz
  obtain rfl := Host.Outcome.next.inj hz
  clear hz
  have hz := Same.refl 282623 s
  repeat' first
    | with_reducible assumption | with_reducible apply feedbackFault_same h282623 | with_reducible apply Same.ite
    | with_reducible apply Same.iteFst | with_reducible intro _ _ _ | split | dsimp only

theorem execSofbChange_same {out : Fin 2} {level : Bool} {s : State} {t : State}
    (hz : execSofbChange out level s = .next t) : Same 2048 s t := by
  have hm : covers 2048 2048 := rfl
  have h2048 : covers 2048 2048 := hm.le rfl
  unfold execSofbChange at hz
  obtain rfl := Host.Outcome.next.inj hz
  clear hz
  have hz := Same.refl 2048 s
  repeat' first
    | with_reducible assumption | with_reducible apply feedbackChange_same h2048 | with_reducible apply Same.ite
    | with_reducible apply Same.iteFst | with_reducible intro _ _ _ | split | dsimp only

theorem execVsoUndervoltage_same {s : State} {t : State} (hz : execVsoUndervoltage s = .next t) : Same 806911 s t := by
  have hm : covers 806911 806911 := rfl
  have h806911 : covers 806911 806911 := hm.le rfl
  unfold execVsoUndervoltage at hz
  obtain rfl := Host.Outcome.next.inj hz
  clear hz
  have hz := Same.refl 806911 s
  repeat' first
    | with_reducible assumption | with_reducible apply vsoLow_same h806911 | with_reducible apply Same.ite
    | with_reducible apply Same.iteFst | with_reducible intro _ _ _ | split | dsimp only

theorem execCpTrip_same {ch : Fin 16} {kind : CpKind} {s : State} {t : State}
    (hz : execCpTrip ch kind s = .next t) : Same 974 s t := by
  have hm : covers 974 974 := rfl
  have h974 : covers 974 974 := hm.le rfl
  unfold execCpTrip at hz
  obtain rfl := Host.Outcome.next.inj hz
  clear hz
  have hz := Same.refl 974 s
  repeat' first
    | with_reducible assumption | with_reducible apply cpTripped_same h974 | with_reducible apply Same.ite
    | with_reducible apply Same.iteFst | with_reducible intro _ _ _ | split | dsimp only

theorem execCpDiag_same {failed : Mask} {s : State} {t : State}
    (hz : execCpDiag failed s = .next t) : Same 3022 s t := by
  have hm : covers 3022 3022 := rfl
  have h3022 : covers 3022 3022 := hm.le rfl
  unfold execCpDiag at hz
  obtain rfl := Host.Outcome.next.inj hz
  clear hz
  have hz := Same.refl 3022 s
  repeat' first
    | with_reducible assumption | with_reducible apply cpTests_same h3022 | with_reducible apply Same.ite
    | with_reducible apply Same.iteFst | with_reducible intro _ _ _ | split | dsimp only

theorem execRefClockLoss_same {s : State} {t : State} (hz : execRefClockLoss s = .next t) : Same 282623 s t := by
  have hm : covers 282623 282623 := rfl
  have h282623 : covers 282623 282623 := hm.le rfl
  unfold execRefClockLoss at hz
  obtain rfl := Host.Outcome.next.inj hz
  clear hz
  have hz := Same.refl 282623 s
  repeat' first
    | with_reducible assumption | with_reducible apply refClockLost_same h282623 | with_reducible apply Same.ite
    | with_reducible apply Same.iteFst | with_reducible intro _ _ _ | split | dsimp only

theorem execSafetyOscFail_same {s : State} {t : State} (hz : execSafetyOscFail s = .next t) : Same 282623 s t := by
  have hm : covers 282623 282623 := rfl
  have h282623 : covers 282623 282623 := hm.le rfl
  unfold execSafetyOscFail at hz
  obtain rfl := Host.Outcome.next.inj hz
  clear hz
  have hz := Same.refl 282623 s
  repeat' first
    | with_reducible assumption | with_reducible apply safetyOscFailed_same h282623 | with_reducible apply Same.ite
    | with_reducible apply Same.iteFst | with_reducible intro _ _ _ | split | dsimp only

theorem execClockRecovered_same {oscillator : Bool} {s : State} {t : State}
    (hz : execClockRecovered oscillator s = .next t) : Same 2048 s t := by
  have hm : covers 2048 2048 := rfl
  have h2048 : covers 2048 2048 := hm.le rfl
  unfold execClockRecovered at hz
  obtain rfl := Host.Outcome.next.inj hz
  clear hz
  have hz := Same.refl 2048 s
  repeat' first
    | with_reducible assumption | with_reducible apply clockGood_same h2048 | with_reducible apply Same.ite
    | with_reducible apply Same.iteFst | with_reducible intro _ _ _ | split | dsimp only

theorem execGateDisableFault_same {group : Fin 4} {s : State} {t : State}
    (hz : execGateDisableFault group s = .next t) : Same 282623 s t := by
  have hm : covers 282623 282623 := rfl
  have h282623 : covers 282623 282623 := hm.le rfl
  unfold execGateDisableFault at hz
  obtain rfl := Host.Outcome.next.inj hz
  clear hz
  have hz := Same.refl 282623 s
  repeat' first
    | with_reducible assumption | with_reducible apply gateDisableFailed_same h282623 | with_reducible apply Same.ite
    | with_reducible apply Same.iteFst | with_reducible intro _ _ _ | split | dsimp only

theorem execSafetyCoreDivergence_same {s : State} {t : State}
    (hz : execSafetyCoreDivergence s = .next t) : Same 3022 s t := by
  have hm : covers 3022 3022 := rfl
  have h3022 : covers 3022 3022 := hm.le rfl
  unfold execSafetyCoreDivergence at hz
  obtain rfl := Host.Outcome.next.inj hz
  clear hz
  have hz := Same.refl 3022 s
  repeat' first
    | with_reducible assumption | with_reducible apply safetyDiverged_same h3022 | with_reducible apply Same.ite
    | with_reducible apply Same.iteFst | with_reducible intro _ _ _ | split | dsimp only

theorem execSafeCoreRestart_same {micros : Nat} {s : State} {t : State}
    (hz : execSafeCoreRestart micros s = .next t) : Same 2688 s t := by
  have hm : covers 2688 2688 := rfl
  have h2688 : covers 2688 2688 := hm.le rfl
  unfold execSafeCoreRestart at hz
  obtain rfl := Host.Outcome.next.inj hz
  clear hz
  have hz := Same.refl 2688 s
  repeat' first
    | with_reducible assumption | with_reducible apply safetyRestarted_same h2688 | with_reducible apply Same.ite
    | with_reducible apply Same.iteFst | with_reducible intro _ _ _ | split | dsimp only

theorem execSessionTimeout_same {s : State} {t : State} (hz : execSessionTimeout s = .next t) : Same 3713 s t := by
  have hm : covers 3713 3713 := rfl
  have h3713 : covers 3713 3713 := hm.le rfl
  unfold execSessionTimeout at hz
  obtain rfl := Host.Outcome.next.inj hz
  clear hz
  have hz := Same.refl 3713 s
  repeat' first
    | with_reducible assumption | with_reducible apply sessionExpires_same h3713 | with_reducible apply Same.ite
    | with_reducible apply Same.iteFst | with_reducible intro _ _ _ | split | dsimp only

theorem execSlotUnlock_same {slot : Fin 4} {s : State} {t : State}
    (hz : execSlotUnlock slot s = .next t) : Same 2049 s t := by
  have hm : covers 2049 2049 := rfl
  have h2049 : covers 2049 2049 := hm.le rfl
  unfold execSlotUnlock at hz
  obtain rfl := Host.Outcome.next.inj hz
  clear hz
  have hz := Same.refl 2049 s
  repeat' first
    | with_reducible assumption | with_reducible apply unlockSlot_same h2049 | with_reducible apply Same.ite
    | with_reducible apply Same.iteFst | with_reducible intro _ _ _ | split | dsimp only

end Sys2Proof.Safety
end

