-- ==== Sys2Proof/Laws/SameSafetySession.lean ====
section
/-! SUPPORT. The parts of the state that the operations of Machine/SafetySession.lean leave alone. -/
namespace Sys2Proof.Safety

open Sys2Proof.Machine

set_option simprocs false

theorem drawEntropy_same {pm : Nat} {z : State} {s : State} (hm : covers pm 2048) (hz : Same pm z s) :
    Same pm z (drawEntropy s).2 := by
  have b11 : pm.testBit 11 = true := hm.bit rfl
  unfold drawEntropy
  repeat' first
    | with_reducible assumption | split | dsimp only
    | with_reducible
      refine Same.upd ?_ (.inr rfl) (.inr rfl) (.inr rfl) (.inr rfl) (.inr rfl) (.inr rfl) (.inr rfl) (.inr rfl)
        (.inr rfl) (.inr rfl) (.inr rfl) (.inl b11) (.inr rfl) (.inr rfl) (.inr rfl) (.inr rfl) (.inr rfl) (.inr rfl)
        (.inr rfl) (.inr rfl) (.inr rfl) (.inr rfl)

theorem sessionHeard_same {pm : Nat} {z : State} {s : State} (hm : covers pm 2049) (hz : Same pm z s) :
    Same pm z (sessionHeard s) := by
  have h2049 : covers pm 2049 := hm.le rfl
  unfold sessionHeard
  repeat' first
    | with_reducible assumption | with_reducible apply touchSession_same h2049 | with_reducible apply Same.ite | split
    | dsimp only

theorem sessionDenied_same {pm : Nat} {z : State} {s : State} (_hm : covers pm 0) (hz : Same pm z s) :
    Same pm z (sessionDenied s).1 := by
  unfold sessionDenied
  repeat' first
    | with_reducible assumption | split | dsimp only

theorem hello_same {pm : Nat} {z : State} {slot : Byte} {s : State} (hm : covers pm 2049) (hz : Same pm z s) :
    Same pm z (hello slot s).1 := by
  have h0 : covers pm 0 := hm.le rfl
  have h1 : covers pm 1 := hm.le rfl
  have h2048 : covers pm 2048 := hm.le rfl
  have b11 : pm.testBit 11 = true := hm.bit rfl
  unfold hello
  repeat' first
    | with_reducible assumption | with_reducible apply timePasses_same h1
    | with_reducible apply drawEntropy_same h2048 | with_reducible apply sessionDenied_same h0
    | with_reducible apply Same.ite | with_reducible apply Same.iteFst | split | dsimp only
    | with_reducible
      refine Same.upd ?_ (.inr rfl) (.inr rfl) (.inr rfl) (.inr rfl) (.inr rfl) (.inr rfl) (.inr rfl) (.inr rfl)
        (.inr rfl) (.inr rfl) (.inr rfl) (.inl b11) (.inr rfl) (.inr rfl) (.inr rfl) (.inr rfl) (.inr rfl) (.inr rfl)
        (.inr rfl) (.inr rfl) (.inr rfl) (.inr rfl)

theorem loginFail_same {pm : Nat} {z : State} {s : State} {m : Fin 4} (hm : covers pm 3713) (hz : Same pm z s) :
    Same pm z (loginFail s m) := by
  have h640 : covers pm 640 := hm.le rfl
  have h1025 : covers pm 1025 := hm.le rfl
  have b11 : pm.testBit 11 = true := hm.bit rfl
  unfold loginFail
  repeat' first
    | with_reducible assumption | with_reducible apply queueEvent_same h640
    | with_reducible apply logChange_same h1025 | with_reducible apply Same.ite | split | dsimp only
    | with_reducible
      refine Same.upd ?_ (.inr rfl) (.inr rfl) (.inr rfl) (.inr rfl) (.inr rfl) (.inr rfl) (.inr rfl) (.inr rfl)
        (.inr rfl) (.inr rfl) (.inr rfl) (.inl b11) (.inr rfl) (.inr rfl) (.inr rfl) (.inr rfl) (.inr rfl) (.inr rfl)
        (.inr rfl) (.inr rfl) (.inr rfl) (.inr rfl)

theorem openSession_same {pm : Nat} {z : State} {s : State} {m : Fin 4} {nonce : BitVec 128} (hm : covers pm 3713)
    (hz : Same pm z s) :
    Same pm z (openSession s m nonce) := by
  have h640 : covers pm 640 := hm.le rfl
  have h1025 : covers pm 1025 := hm.le rfl
  have h2049 : covers pm 2049 := hm.le rfl
  have b11 : pm.testBit 11 = true := hm.bit rfl
  unfold openSession
  repeat' first
    | with_reducible assumption | with_reducible apply queueEvent_same h640
    | with_reducible apply logChange_same h1025 | with_reducible apply touchSession_same h2049
    | with_reducible apply Same.ite | split | dsimp only
    | with_reducible
      refine Same.upd ?_ (.inr rfl) (.inr rfl) (.inr rfl) (.inr rfl) (.inr rfl) (.inr rfl) (.inr rfl) (.inr rfl)
        (.inr rfl) (.inr rfl) (.inr rfl) (.inl b11) (.inr rfl) (.inr rfl) (.inr rfl) (.inr rfl) (.inr rfl) (.inr rfl)
        (.inr rfl) (.inr rfl) (.inr rfl) (.inr rfl)

theorem login_same {pm : Nat} {z : State} {slot : Byte} {proof : List Byte} {s : State} (hm : covers pm 3713)
    (hz : Same pm z s) :
    Same pm z (login slot proof s).1 := by
  have h0 : covers pm 0 := hm.le rfl
  have h1 : covers pm 1 := hm.le rfl
  have h3713 : covers pm 3713 := hm.le rfl
  have b11 : pm.testBit 11 = true := hm.bit rfl
  unfold login
  repeat' first
    | with_reducible assumption | with_reducible apply timePasses_same h1 | with_reducible apply sessionDenied_same h0
    | with_reducible apply loginFail_same h3713 | with_reducible apply openSession_same h3713
    | with_reducible apply Same.ite | with_reducible apply Same.iteFst | split | dsimp only
    | with_reducible
      refine Same.upd ?_ (.inr rfl) (.inr rfl) (.inr rfl) (.inr rfl) (.inr rfl) (.inr rfl) (.inr rfl) (.inr rfl)
        (.inr rfl) (.inr rfl) (.inr rfl) (.inl b11) (.inr rfl) (.inr rfl) (.inr rfl) (.inr rfl) (.inr rfl) (.inr rfl)
        (.inr rfl) (.inr rfl) (.inr rfl) (.inr rfl)

theorem logout_same {pm : Nat} {z : State} {s : State} (hm : covers pm 3713) (hz : Same pm z s) :
    Same pm z (logout s).1 := by
  have h0 : covers pm 0 := hm.le rfl
  have h3713 : covers pm 3713 := hm.le rfl
  unfold logout
  repeat' first
    | with_reducible assumption | with_reducible apply closeSession_same h3713
    | with_reducible apply sessionDenied_same h0 | with_reducible apply Same.ite | with_reducible apply Same.iteFst
    | split | dsimp only

theorem safeCommitBody_same {pm : Nat} {z : State} {r : Request} {s : State} (hm : covers pm 264192)
    (hz : Same pm z s) :
    Same pm z (safeCommitBody r s).1 := by
  have h0 : covers pm 0 := hm.le rfl
  have b11 : pm.testBit 11 = true := hm.bit rfl
  have b18 : pm.testBit 18 = true := hm.bit rfl
  unfold safeCommitBody
  repeat' first
    | with_reducible assumption | with_reducible apply sessionDenied_same h0 | with_reducible apply Same.ite
    | with_reducible apply Same.iteFst | split | dsimp only
    | with_reducible
      refine Same.upd ?_ (.inr rfl) (.inr rfl) (.inr rfl) (.inr rfl) (.inr rfl) (.inr rfl) (.inr rfl) (.inr rfl)
        (.inr rfl) (.inr rfl) (.inr rfl) (.inl b11) (.inr rfl) (.inr rfl) (.inr rfl) (.inr rfl) (.inr rfl) (.inr rfl)
        (.inl b18) (.inr rfl) (.inr rfl) (.inr rfl)

theorem safeCommitEnd_same {pm : Nat} {z : State} {ok : Bool} {s : State} (hm : covers pm 282623) (hz : Same pm z s) :
    Same pm z (safeCommitEnd ok s) := by
  have h256 : covers pm 256 := hm.le rfl
  have h640 : covers pm 640 := hm.le rfl
  have h641 : covers pm 641 := hm.le rfl
  have h1025 : covers pm 1025 := hm.le rfl
  have h282623 : covers pm 282623 := hm.le rfl
  have b10 : pm.testBit 10 = true := hm.bit rfl
  have b11 : pm.testBit 11 = true := hm.bit rfl
  have b18 : pm.testBit 18 = true := hm.bit rfl
  unfold safeCommitEnd
  repeat' first
    | with_reducible assumption | (with_reducible apply Same.foldl; rotate_left; intro _ _ _)
    | with_reducible apply queueEvent_same h640 | with_reducible apply reply_same h256
    | with_reducible apply logChange_same h1025 | with_reducible apply nvmFail_same h641
    | with_reducible apply applySafeCfg_same h282623 | with_reducible apply Same.ite | split | dsimp only
    | with_reducible
      refine Same.upd ?_ (.inr rfl) (.inr rfl) (.inr rfl) (.inr rfl) (.inr rfl) (.inr rfl) (.inr rfl) (.inr rfl)
        (.inr rfl) (.inr rfl) (.inl b10) (.inl b11) (.inr rfl) (.inr rfl) (.inr rfl) (.inr rfl) (.inr rfl) (.inr rfl)
        (.inl b18) (.inr rfl) (.inr rfl) (.inr rfl)

theorem setSlot_same {pm : Nat} {z : State} {s : State} {m : Fin 4} {x : Slot} (hm : covers pm 1024)
    (hz : Same pm z s) :
    Same pm z (setSlot s m x) := by
  have b10 : pm.testBit 10 = true := hm.bit rfl
  unfold setSlot
  repeat' first
    | with_reducible assumption | split | dsimp only
    | with_reducible
      refine Same.upd ?_ (.inr rfl) (.inr rfl) (.inr rfl) (.inr rfl) (.inr rfl) (.inr rfl) (.inr rfl) (.inr rfl)
        (.inr rfl) (.inr rfl) (.inl b10) (.inr rfl) (.inr rfl) (.inr rfl) (.inr rfl) (.inr rfl) (.inr rfl) (.inr rfl)
        (.inr rfl) (.inr rfl) (.inr rfl) (.inr rfl)

theorem passwd_same {pm : Nat} {z : State} {slot len : Byte} {masked : List Byte} {s : State} (hm : covers pm 3073)
    (hz : Same pm z s) :
    Same pm z (passwd slot len masked s).1 := by
  have h1024 : covers pm 1024 := hm.le rfl
  have h1025 : covers pm 1025 := hm.le rfl
  have h2048 : covers pm 2048 := hm.le rfl
  unfold passwd
  repeat' first
    | with_reducible assumption | with_reducible apply logChange_same h1025
    | with_reducible apply drawEntropy_same h2048 | with_reducible apply setSlot_same h1024
    | with_reducible apply Same.ite | with_reducible apply Same.iteFst | split | dsimp only
    | with_reducible
      refine Same.upd ?_ (.inr rfl) (.inr rfl) (.inr rfl) (.inr rfl) (.inr rfl) (.inr rfl) (.inr rfl) (.inr rfl)
        (.inr rfl) (.inr rfl) (.inr rfl) (.inr rfl) (.inr rfl) (.inr rfl) (.inr rfl) (.inr rfl) (.inr rfl) (.inr rfl)
        (.inr rfl) (.inr rfl) (.inr rfl) (.inr rfl)

theorem changeLogRead_same {pm : Nat} {z : State} {first : Word} {count : Byte} {s : State} (hm : covers pm 0)
    (hz : Same pm z s) :
    Same pm z (changeLogRead first count s).1 := by
  have h0 : covers pm 0 := hm.le rfl
  unfold changeLogRead
  repeat' first
    | with_reducible assumption | with_reducible apply sessionDenied_same h0 | with_reducible apply Same.ite
    | with_reducible apply Same.iteFst | split | dsimp only

theorem safeAckBody_same {pm : Nat} {z : State} {flags : Byte} {mask : Mask} {r : Request} {s : State}
    (hm : covers pm 32) (hz : Same pm z s) :
    Same pm z (safeAckBody flags mask r s).1 := by
  have h0 : covers pm 0 := hm.le rfl
  have h32 : covers pm 32 := hm.le rfl
  unfold safeAckBody
  repeat' first
    | with_reducible assumption | with_reducible apply stage_same h32 | with_reducible apply sessionDenied_same h0
    | with_reducible apply Same.ite | with_reducible apply Same.iteFst | split | dsimp only

theorem safeKeyBody_same {pm : Nat} {z : State} {masked : List Byte} {s : State} (hm : covers pm 1025)
    (hz : Same pm z s) :
    Same pm z (safeKeyBody masked s).1 := by
  have h0 : covers pm 0 := hm.le rfl
  have h1025 : covers pm 1025 := hm.le rfl
  have b10 : pm.testBit 10 = true := hm.bit rfl
  unfold safeKeyBody
  repeat' first
    | with_reducible assumption | with_reducible apply logChange_same h1025
    | with_reducible apply sessionDenied_same h0 | with_reducible apply Same.ite | with_reducible apply Same.iteFst
    | split | dsimp only
    | with_reducible
      refine Same.upd ?_ (.inr rfl) (.inr rfl) (.inr rfl) (.inr rfl) (.inr rfl) (.inr rfl) (.inr rfl) (.inr rfl)
        (.inr rfl) (.inr rfl) (.inl b10) (.inr rfl) (.inr rfl) (.inr rfl) (.inr rfl) (.inr rfl) (.inr rfl) (.inr rfl)
        (.inr rfl) (.inr rfl) (.inr rfl) (.inr rfl)

theorem execSafeHello_same {slot : Byte} {s : State} {t : State}
    (hz : execSafeHello slot s = .next t) : Same 2305 s t := by
  have hm : covers 2305 2305 := rfl
  have h256 : covers 2305 256 := hm.le rfl
  have h2049 : covers 2305 2049 := hm.le rfl
  unfold execSafeHello at hz
  obtain rfl := Host.Outcome.next.inj hz
  clear hz
  have hz := Same.refl 2305 s
  repeat' first
    | with_reducible assumption | with_reducible apply hostCommand_same h256
    | with_reducible apply sessionHeard_same h2049 | with_reducible apply hello_same h2049
    | with_reducible apply Same.ite | with_reducible apply Same.iteFst | with_reducible intro _ _ _ | split
    | dsimp only

theorem execSafeLogin_same {slot : Byte} {proof : List Byte} {s : State} {t : State}
    (hz : execSafeLogin slot proof s = .next t) : Same 3969 s t := by
  have hm : covers 3969 3969 := rfl
  have h256 : covers 3969 256 := hm.le rfl
  have h2049 : covers 3969 2049 := hm.le rfl
  have h3713 : covers 3969 3713 := hm.le rfl
  unfold execSafeLogin at hz
  obtain rfl := Host.Outcome.next.inj hz
  clear hz
  have hz := Same.refl 3969 s
  repeat' first
    | with_reducible assumption | with_reducible apply hostCommand_same h256
    | with_reducible apply sessionHeard_same h2049 | with_reducible apply login_same h3713
    | with_reducible apply Same.ite | with_reducible apply Same.iteFst | with_reducible intro _ _ _ | split
    | dsimp only

theorem execSafeLogout_same {s : State} {t : State} (hz : execSafeLogout s = .next t) : Same 3969 s t := by
  have hm : covers 3969 3969 := rfl
  have h256 : covers 3969 256 := hm.le rfl
  have h2049 : covers 3969 2049 := hm.le rfl
  have h3713 : covers 3969 3713 := hm.le rfl
  unfold execSafeLogout at hz
  obtain rfl := Host.Outcome.next.inj hz
  clear hz
  have hz := Same.refl 3969 s
  repeat' first
    | with_reducible assumption | with_reducible apply hostCommand_same h256
    | with_reducible apply sessionHeard_same h2049 | with_reducible apply logout_same h3713
    | with_reducible apply Same.ite | with_reducible apply Same.iteFst | with_reducible intro _ _ _ | split
    | dsimp only

theorem execSafeCommit_same {s : State} {t : State} (hz : execSafeCommit s = .next t) : Same 264449 s t := by
  have hm : covers 264449 264449 := rfl
  have h256 : covers 264449 256 := hm.le rfl
  have h2049 : covers 264449 2049 := hm.le rfl
  have h264192 : covers 264449 264192 := hm.le rfl
  unfold execSafeCommit at hz
  obtain rfl := Host.Outcome.next.inj hz
  clear hz
  have hz := Same.refl 264449 s
  repeat' first
    | with_reducible assumption | with_reducible apply hostCommand_same h256
    | with_reducible apply sessionHeard_same h2049 | with_reducible apply safeCommitBody_same h264192
    | with_reducible apply Same.ite | with_reducible apply Same.iteFst | with_reducible intro _ _ _ | split
    | dsimp only

theorem execSafeCommitDone_same {ok : Bool} {s : State} {t : State}
    (hz : execSafeCommitDone ok s = .next t) : Same 282623 s t := by
  have hm : covers 282623 282623 := rfl
  have h282623 : covers 282623 282623 := hm.le rfl
  unfold execSafeCommitDone at hz
  obtain rfl := Host.Outcome.next.inj hz
  clear hz
  have hz := Same.refl 282623 s
  repeat' first
    | with_reducible assumption | with_reducible apply safeCommitEnd_same h282623 | with_reducible apply Same.ite
    | with_reducible apply Same.iteFst | with_reducible intro _ _ _ | split | dsimp only

theorem execSafePasswd_same {slot len : Byte} {masked : List Byte} {s : State} {t : State}
    (hz : execSafePasswd slot len masked s = .next t) : Same 3329 s t := by
  have hm : covers 3329 3329 := rfl
  have h256 : covers 3329 256 := hm.le rfl
  have h2049 : covers 3329 2049 := hm.le rfl
  have h3073 : covers 3329 3073 := hm.le rfl
  unfold execSafePasswd at hz
  obtain rfl := Host.Outcome.next.inj hz
  clear hz
  have hz := Same.refl 3329 s
  repeat' first
    | with_reducible assumption | with_reducible apply hostCommand_same h256
    | with_reducible apply sessionHeard_same h2049 | with_reducible apply passwd_same h3073
    | with_reducible apply Same.ite | with_reducible apply Same.iteFst | with_reducible intro _ _ _ | split
    | dsimp only

theorem execSafeLogread_same {first : Word} {count : Byte} {s : State} {t : State}
    (hz : execSafeLogread first count s = .next t) : Same 2305 s t := by
  have hm : covers 2305 2305 := rfl
  have h0 : covers 2305 0 := hm.le rfl
  have h256 : covers 2305 256 := hm.le rfl
  have h2049 : covers 2305 2049 := hm.le rfl
  unfold execSafeLogread at hz
  obtain rfl := Host.Outcome.next.inj hz
  clear hz
  have hz := Same.refl 2305 s
  repeat' first
    | with_reducible assumption | with_reducible apply hostCommand_same h256
    | with_reducible apply sessionHeard_same h2049 | with_reducible apply changeLogRead_same h0
    | with_reducible apply Same.ite | with_reducible apply Same.iteFst | with_reducible intro _ _ _ | split
    | dsimp only

theorem execSafeAck_same {flags : Byte} {mask : Mask} {s : State} {t : State}
    (hz : execSafeAck flags mask s = .next t) : Same 2337 s t := by
  have hm : covers 2337 2337 := rfl
  have h32 : covers 2337 32 := hm.le rfl
  have h256 : covers 2337 256 := hm.le rfl
  have h2049 : covers 2337 2049 := hm.le rfl
  unfold execSafeAck at hz
  obtain rfl := Host.Outcome.next.inj hz
  clear hz
  have hz := Same.refl 2337 s
  repeat' first
    | with_reducible assumption | with_reducible apply hostCommand_same h256
    | with_reducible apply sessionHeard_same h2049 | with_reducible apply safeAckBody_same h32
    | with_reducible apply Same.ite | with_reducible apply Same.iteFst | with_reducible intro _ _ _ | split
    | dsimp only

theorem execSafeKey_same {masked : List Byte} {s : State} {t : State}
    (hz : execSafeKey masked s = .next t) : Same 3329 s t := by
  have hm : covers 3329 3329 := rfl
  have h256 : covers 3329 256 := hm.le rfl
  have h1025 : covers 3329 1025 := hm.le rfl
  have h2049 : covers 3329 2049 := hm.le rfl
  unfold execSafeKey at hz
  obtain rfl := Host.Outcome.next.inj hz
  clear hz
  have hz := Same.refl 3329 s
  repeat' first
    | with_reducible assumption | with_reducible apply hostCommand_same h256
    | with_reducible apply sessionHeard_same h2049 | with_reducible apply safeKeyBody_same h1025
    | with_reducible apply Same.ite | with_reducible apply Same.iteFst | with_reducible intro _ _ _ | split
    | dsimp only

end Sys2Proof.Safety
end

