-- ==== Sys2Proof/Laws/SameChannelEvents.lean ====
section
/-! SUPPORT. The parts of the state that the operations of Machine/ChannelEvents.lean leave alone. -/
namespace Sys2Proof.Safety

open Sys2Proof.Machine

set_option simprocs false

theorem passMember_same {pm : Nat} {z : State} {s : State} {x : Fin 16 × CheckMeas} (hm : covers pm 642)
    (hz : Same pm z s) :
    Same pm z (passMember s x) := by
  have h2 : covers pm 2 := hm.le rfl
  have h640 : covers pm 640 := hm.le rfl
  have h642 : covers pm 642 := hm.le rfl
  unfold passMember
  repeat' first
    | with_reducible assumption | with_reducible apply updCh_same h2 | with_reducible apply moveChannel_same h642
    | with_reducible apply checkDoneEvent_same h640 | split | dsimp only
    | with_reducible
      refine Same.upd ?_ (.inr rfl) (.inr rfl) (.inr rfl) (.inr rfl) (.inr rfl) (.inr rfl) (.inr rfl) (.inr rfl)
        (.inr rfl) (.inr rfl) (.inr rfl) (.inr rfl) (.inr rfl) (.inr rfl) (.inr rfl) (.inr rfl) (.inr rfl) (.inr rfl)
        (.inr rfl) (.inr rfl) (.inr rfl) (.inr rfl)

theorem noCellMember_same {pm : Nat} {z : State} {s : State} {x : Fin 16 × CheckMeas} (hm : covers pm 642)
    (hz : Same pm z s) :
    Same pm z (noCellMember s x) := by
  have h2 : covers pm 2 := hm.le rfl
  have h640 : covers pm 640 := hm.le rfl
  have h642 : covers pm 642 := hm.le rfl
  unfold noCellMember
  repeat' first
    | with_reducible assumption | with_reducible apply updCh_same h2 | with_reducible apply moveChannel_same h642
    | with_reducible apply checkDoneEvent_same h640 | split | dsimp only
    | with_reducible
      refine Same.upd ?_ (.inr rfl) (.inr rfl) (.inr rfl) (.inr rfl) (.inr rfl) (.inr rfl) (.inr rfl) (.inr rfl)
        (.inr rfl) (.inr rfl) (.inr rfl) (.inr rfl) (.inr rfl) (.inr rfl) (.inr rfl) (.inr rfl) (.inr rfl) (.inr rfl)
        (.inr rfl) (.inr rfl) (.inr rfl) (.inr rfl)

theorem failMembers_same {pm : Nat} {z : State} {s : State} {l : List (Fin 16 × CheckMeas)} {f : List (Fin 16 × Nat)}
    (hm : covers pm 974) (hz : Same pm z s) :
    Same pm z (failMembers s l f) := by
  have h2 : covers pm 2 := hm.le rfl
  have h640 : covers pm 640 := hm.le rfl
  have h974 : covers pm 974 := hm.le rfl
  unfold failMembers
  repeat' first
    | with_reducible assumption | (with_reducible apply Same.foldl; rotate_left; intro _ _ _)
    | with_reducible apply updCh_same h2 | with_reducible apply faultChannel_same h974
    | with_reducible apply checkDoneEvent_same h640 | with_reducible apply Same.ite | split | dsimp only
    | with_reducible
      refine Same.upd ?_ (.inr rfl) (.inr rfl) (.inr rfl) (.inr rfl) (.inr rfl) (.inr rfl) (.inr rfl) (.inr rfl)
        (.inr rfl) (.inr rfl) (.inr rfl) (.inr rfl) (.inr rfl) (.inr rfl) (.inr rfl) (.inr rfl) (.inr rfl) (.inr rfl)
        (.inr rfl) (.inr rfl) (.inr rfl) (.inr rfl)

theorem pauseAfterCheck_same {pm : Nat} {z : State} {s : State} {c : Fin 16} (hm : covers pm 66) (hz : Same pm z s) :
    Same pm z (pauseAfterCheck s c) := by
  have h2 : covers pm 2 := hm.le rfl
  have h66 : covers pm 66 := hm.le rfl
  unfold pauseAfterCheck
  repeat' first
    | with_reducible assumption | with_reducible apply updProg_same h2 | with_reducible apply formRecord_same h66
    | with_reducible apply Same.ite | split | dsimp only
    | with_reducible
      refine Same.upd ?_ (.inr rfl) (.inr rfl) (.inr rfl) (.inr rfl) (.inr rfl) (.inr rfl) (.inr rfl) (.inr rfl)
        (.inr rfl) (.inr rfl) (.inr rfl) (.inr rfl) (.inr rfl) (.inr rfl) (.inr rfl) (.inr rfl) (.inr rfl) (.inr rfl)
        (.inr rfl) (.inr rfl) (.inr rfl) (.inr rfl)

theorem checkEnds_same {pm : Nat} {z : State} {c : Fin 16} {meas : List CheckMeas} {s : State} (hm : covers pm 974)
    (hz : Same pm z s) :
    Same pm z (checkEnds c meas s) := by
  have h66 : covers pm 66 := hm.le rfl
  have h642 : covers pm 642 := hm.le rfl
  have h706 : covers pm 706 := hm.le rfl
  have h974 : covers pm 974 := hm.le rfl
  unfold checkEnds
  repeat' first
    | with_reducible assumption | (with_reducible apply Same.foldl; rotate_left; intro _ _ _)
    | with_reducible apply abortProgram_same h706 | with_reducible apply passMember_same h642
    | with_reducible apply noCellMember_same h642 | with_reducible apply failMembers_same h974
    | with_reducible apply pauseAfterCheck_same h66 | with_reducible apply Same.ite | split | dsimp only
    | with_reducible
      refine Same.upd ?_ (.inr rfl) (.inr rfl) (.inr rfl) (.inr rfl) (.inr rfl) (.inr rfl) (.inr rfl) (.inr rfl)
        (.inr rfl) (.inr rfl) (.inr rfl) (.inr rfl) (.inr rfl) (.inr rfl) (.inr rfl) (.inr rfl) (.inr rfl) (.inr rfl)
        (.inr rfl) (.inr rfl) (.inr rfl) (.inr rfl)

theorem shortCheck_same {pm : Nat} {z : State} {c : Fin 16} {s : State} (hm : covers pm 974) (hz : Same pm z s) :
    Same pm z (shortCheck c s) := by
  have h2 : covers pm 2 := hm.le rfl
  have h974 : covers pm 974 := hm.le rfl
  unfold shortCheck
  repeat' first
    | with_reducible assumption | with_reducible apply updCh_same h2 | with_reducible apply faultGang_same h974
    | with_reducible apply Same.ite | split | dsimp only
    | with_reducible
      refine Same.upd ?_ (.inr rfl) (.inr rfl) (.inr rfl) (.inr rfl) (.inr rfl) (.inr rfl) (.inr rfl) (.inr rfl)
        (.inr rfl) (.inr rfl) (.inr rfl) (.inr rfl) (.inr rfl) (.inr rfl) (.inr rfl) (.inr rfl) (.inr rfl) (.inr rfl)
        (.inr rfl) (.inr rfl) (.inr rfl) (.inr rfl)

theorem foldEntry_same {pm : Nat} {z : State} {s : State} {c : Fin 16} (hm : covers pm 642) (hz : Same pm z s) :
    Same pm z (foldEntry s c) := by
  have h2 : covers pm 2 := hm.le rfl
  have h640 : covers pm 640 := hm.le rfl
  unfold foldEntry
  repeat' first
    | with_reducible assumption | with_reducible apply updCh_same h2 | with_reducible apply queueOnce_same h640
    | split | dsimp only
    | with_reducible
      refine Same.upd ?_ (.inr rfl) (.inr rfl) (.inr rfl) (.inr rfl) (.inr rfl) (.inr rfl) (.inr rfl) (.inr rfl)
        (.inr rfl) (.inr rfl) (.inr rfl) (.inr rfl) (.inr rfl) (.inr rfl) (.inr rfl) (.inr rfl) (.inr rfl) (.inr rfl)
        (.inr rfl) (.inr rfl) (.inr rfl) (.inr rfl)

theorem foldUpdate_same {pm : Nat} {z : State} {c : Fin 16} {tdPs : Nat} {s : State} (hm : covers pm 642)
    (hz : Same pm z s) :
    Same pm z (foldUpdate c tdPs s) := by
  have h2 : covers pm 2 := hm.le rfl
  have h642 : covers pm 642 := hm.le rfl
  unfold foldUpdate
  repeat' first
    | with_reducible assumption | with_reducible apply updCh_same h2 | with_reducible apply foldEntry_same h642
    | with_reducible apply Same.ite | split | dsimp only
    | with_reducible
      refine Same.upd ?_ (.inr rfl) (.inr rfl) (.inr rfl) (.inr rfl) (.inr rfl) (.inr rfl) (.inr rfl) (.inr rfl)
        (.inr rfl) (.inr rfl) (.inr rfl) (.inr rfl) (.inr rfl) (.inr rfl) (.inr rfl) (.inr rfl) (.inr rfl) (.inr rfl)
        (.inr rfl) (.inr rfl) (.inr rfl) (.inr rfl)

theorem burstStart_same {pm : Nat} {z : State} {s : State} {c : Fin 16} (hm : covers pm 642) (hz : Same pm z s) :
    Same pm z (burstStart s c) := by
  have h2 : covers pm 2 := hm.le rfl
  have h640 : covers pm 640 := hm.le rfl
  unfold burstStart
  repeat' first
    | with_reducible assumption | with_reducible apply updCh_same h2 | with_reducible apply queueEvent_same h640
    | split | dsimp only
    | with_reducible
      refine Same.upd ?_ (.inr rfl) (.inr rfl) (.inr rfl) (.inr rfl) (.inr rfl) (.inr rfl) (.inr rfl) (.inr rfl)
        (.inr rfl) (.inr rfl) (.inr rfl) (.inr rfl) (.inr rfl) (.inr rfl) (.inr rfl) (.inr rfl) (.inr rfl) (.inr rfl)
        (.inr rfl) (.inr rfl) (.inr rfl) (.inr rfl)

theorem burstEntry_same {pm : Nat} {z : State} {c : Fin 16} {tdPs : Nat} {s : State} (hm : covers pm 642)
    (hz : Same pm z s) :
    Same pm z (burstEntry c tdPs s) := by
  have h642 : covers pm 642 := hm.le rfl
  unfold burstEntry
  repeat' first
    | with_reducible assumption | with_reducible apply burstStart_same h642 | with_reducible apply Same.ite | split
    | dsimp only

theorem burstLeave_same {pm : Nat} {z : State} {c : Fin 16} {s : State} (hm : covers pm 642) (hz : Same pm z s) :
    Same pm z (burstLeave c s) := by
  have h2 : covers pm 2 := hm.le rfl
  have h640 : covers pm 640 := hm.le rfl
  have h642 : covers pm 642 := hm.le rfl
  unfold burstLeave
  repeat' first
    | with_reducible assumption | with_reducible apply updCh_same h2 | with_reducible apply queueEvent_same h640
    | with_reducible apply foldEntry_same h642 | with_reducible apply Same.ite | split | dsimp only
    | with_reducible
      refine Same.upd ?_ (.inr rfl) (.inr rfl) (.inr rfl) (.inr rfl) (.inr rfl) (.inr rfl) (.inr rfl) (.inr rfl)
        (.inr rfl) (.inr rfl) (.inr rfl) (.inr rfl) (.inr rfl) (.inr rfl) (.inr rfl) (.inr rfl) (.inr rfl) (.inr rfl)
        (.inr rfl) (.inr rfl) (.inr rfl) (.inr rfl)

theorem legImbalanced_same {pm : Nat} {z : State} {c : Fin 16} {positive : Bool} {s : State} (hm : covers pm 642)
    (hz : Same pm z s) :
    Same pm z (legImbalanced c positive s) := by
  have h2 : covers pm 2 := hm.le rfl
  have h640 : covers pm 640 := hm.le rfl
  unfold legImbalanced
  repeat' first
    | with_reducible assumption | with_reducible apply updCh_same h2 | with_reducible apply queueEvent_same h640
    | with_reducible apply Same.ite | split | dsimp only
    | with_reducible
      refine Same.upd ?_ (.inr rfl) (.inr rfl) (.inr rfl) (.inr rfl) (.inr rfl) (.inr rfl) (.inr rfl) (.inr rfl)
        (.inr rfl) (.inr rfl) (.inr rfl) (.inr rfl) (.inr rfl) (.inr rfl) (.inr rfl) (.inr rfl) (.inr rfl) (.inr rfl)
        (.inr rfl) (.inr rfl) (.inr rfl) (.inr rfl)

theorem orderlyGatesOff_same {pm : Nat} {z : State} {c : Fin 16} {s : State} (hm : covers pm 643) (hz : Same pm z s) :
    Same pm z (orderlyGatesOff c s) := by
  have h1 : covers pm 1 := hm.le rfl
  have h642 : covers pm 642 := hm.le rfl
  unfold orderlyGatesOff
  repeat' first
    | with_reducible assumption | with_reducible apply openChannel_same h642
    | with_reducible apply sequenceEnds_same h1 | split | dsimp only
    | with_reducible
      refine Same.upd ?_ (.inr rfl) (.inr rfl) (.inr rfl) (.inr rfl) (.inr rfl) (.inr rfl) (.inr rfl) (.inr rfl)
        (.inr rfl) (.inr rfl) (.inr rfl) (.inr rfl) (.inr rfl) (.inr rfl) (.inr rfl) (.inr rfl) (.inr rfl) (.inr rfl)
        (.inr rfl) (.inr rfl) (.inr rfl) (.inr rfl)

theorem disconnectOpens_same {pm : Nat} {z : State} {c : Fin 16} {s : State} (hm : covers pm 3) (hz : Same pm z s) :
    Same pm z (disconnectOpens c s) := by
  have h1 : covers pm 1 := hm.le rfl
  have h2 : covers pm 2 := hm.le rfl
  unfold disconnectOpens
  repeat' first
    | with_reducible assumption | with_reducible apply updCh_same h2 | with_reducible apply sequenceEnds_same h1
    | split | dsimp only
    | with_reducible
      refine Same.upd ?_ (.inr rfl) (.inr rfl) (.inr rfl) (.inr rfl) (.inr rfl) (.inr rfl) (.inr rfl) (.inr rfl)
        (.inr rfl) (.inr rfl) (.inr rfl) (.inr rfl) (.inr rfl) (.inr rfl) (.inr rfl) (.inr rfl) (.inr rfl) (.inr rfl)
        (.inr rfl) (.inr rfl) (.inr rfl) (.inr rfl)

theorem execCheckDone_same {ch : Fin 16} {meas : List CheckMeas} {s : State} {t : State}
    (hz : execCheckDone ch meas s = .next t) : Same 974 s t := by
  have hm : covers 974 974 := rfl
  have h974 : covers 974 974 := hm.le rfl
  unfold execCheckDone at hz
  obtain rfl := Host.Outcome.next.inj hz
  clear hz
  have hz := Same.refl 974 s
  repeat' first
    | with_reducible assumption | with_reducible apply checkEnds_same h974 | with_reducible apply Same.ite
    | with_reducible apply Same.iteFst | with_reducible intro _ _ _ | split | dsimp only

theorem execShortCheckExpiry_same {ch : Fin 16} {s : State} {t : State}
    (hz : execShortCheckExpiry ch s = .next t) : Same 974 s t := by
  have hm : covers 974 974 := rfl
  have h974 : covers 974 974 := hm.le rfl
  unfold execShortCheckExpiry at hz
  obtain rfl := Host.Outcome.next.inj hz
  clear hz
  have hz := Same.refl 974 s
  repeat' first
    | with_reducible assumption | with_reducible apply shortCheck_same h974 | with_reducible apply Same.ite
    | with_reducible apply Same.iteFst | with_reducible intro _ _ _ | split | dsimp only

theorem execFoldbackUpdate_same {ch : Fin 16} {tdPs : Nat} {s : State} {t : State}
    (hz : execFoldbackUpdate ch tdPs s = .next t) : Same 642 s t := by
  have hm : covers 642 642 := rfl
  have h642 : covers 642 642 := hm.le rfl
  unfold execFoldbackUpdate at hz
  obtain rfl := Host.Outcome.next.inj hz
  clear hz
  have hz := Same.refl 642 s
  repeat' first
    | with_reducible assumption | with_reducible apply foldUpdate_same h642 | with_reducible apply Same.ite
    | with_reducible apply Same.iteFst | with_reducible intro _ _ _ | split | dsimp only

theorem execBurstEnter_same {ch : Fin 16} {tdPs : Nat} {s : State} {t : State}
    (hz : execBurstEnter ch tdPs s = .next t) : Same 642 s t := by
  have hm : covers 642 642 := rfl
  have h642 : covers 642 642 := hm.le rfl
  unfold execBurstEnter at hz
  obtain rfl := Host.Outcome.next.inj hz
  clear hz
  have hz := Same.refl 642 s
  repeat' first
    | with_reducible assumption | with_reducible apply burstEntry_same h642 | with_reducible apply Same.ite
    | with_reducible apply Same.iteFst | with_reducible intro _ _ _ | split | dsimp only

theorem execBurstExit_same {ch : Fin 16} {s : State} {t : State}
    (hz : execBurstExit ch s = .next t) : Same 642 s t := by
  have hm : covers 642 642 := rfl
  have h642 : covers 642 642 := hm.le rfl
  unfold execBurstExit at hz
  obtain rfl := Host.Outcome.next.inj hz
  clear hz
  have hz := Same.refl 642 s
  repeat' first
    | with_reducible assumption | with_reducible apply burstLeave_same h642 | with_reducible apply Same.ite
    | with_reducible apply Same.iteFst | with_reducible intro _ _ _ | split | dsimp only

theorem execLegImbalance_same {ch : Fin 16} {positive : Bool} {s : State} {t : State}
    (hz : execLegImbalance ch positive s = .next t) : Same 642 s t := by
  have hm : covers 642 642 := rfl
  have h642 : covers 642 642 := hm.le rfl
  unfold execLegImbalance at hz
  obtain rfl := Host.Outcome.next.inj hz
  clear hz
  have hz := Same.refl 642 s
  repeat' first
    | with_reducible assumption | with_reducible apply legImbalanced_same h642 | with_reducible apply Same.ite
    | with_reducible apply Same.iteFst | with_reducible intro _ _ _ | split | dsimp only

theorem execOrderlyStopGatesOff_same {ch : Fin 16} {s : State} {t : State}
    (hz : execOrderlyStopGatesOff ch s = .next t) : Same 643 s t := by
  have hm : covers 643 643 := rfl
  have h643 : covers 643 643 := hm.le rfl
  unfold execOrderlyStopGatesOff at hz
  obtain rfl := Host.Outcome.next.inj hz
  clear hz
  have hz := Same.refl 643 s
  repeat' first
    | with_reducible assumption | with_reducible apply orderlyGatesOff_same h643 | with_reducible apply Same.ite
    | with_reducible apply Same.iteFst | with_reducible intro _ _ _ | split | dsimp only

theorem execDisconnectOpen_same {ch : Fin 16} {s : State} {t : State}
    (hz : execDisconnectOpen ch s = .next t) : Same 3 s t := by
  have hm : covers 3 3 := rfl
  have h3 : covers 3 3 := hm.le rfl
  unfold execDisconnectOpen at hz
  obtain rfl := Host.Outcome.next.inj hz
  clear hz
  have hz := Same.refl 3 s
  repeat' first
    | with_reducible assumption | with_reducible apply disconnectOpens_same h3 | with_reducible apply Same.ite
    | with_reducible apply Same.iteFst | with_reducible intro _ _ _ | split | dsimp only

end Sys2Proof.Safety
end

