-- ==== Sys2Proof/Laws/SameChannelCommands.lean ====
section
/-! SUPPORT. The parts of the state that the operations of Machine/ChannelCommands.lean leave alone. -/
namespace Sys2Proof.Safety

open Sys2Proof.Machine

set_option simprocs false

theorem maskCommand_same {pm : Nat} {z : State} {m : Mask} {f : State → Fin 16 → Byte} {change : Change} {r : Request}
    {s : State} (hm : covers pm 32) (h : Same pm z s) : Same pm z (maskCommand m f change r s).1 := by
  unfold maskCommand
  split
  · exact h
  · split
    · exact h
    · exact stage_same hm h

theorem setpointBody_same {pm : Nat} {z : State} {ch sel : Byte} {iset vset iramp vramp : Word} {r : Request}
    {s : State} (hm : covers pm 34) (hz : Same pm z s) :
    Same pm z (setpointBody ch sel iset vset iramp vramp r s).1 := by
  have h2 : covers pm 2 := hm.le rfl
  have h32 : covers pm 32 := hm.le rfl
  unfold setpointBody
  repeat' first
    | with_reducible assumption | with_reducible apply updCh_same h2 | with_reducible apply stage_same h32
    | with_reducible apply Same.ite | with_reducible apply Same.iteFst | split | dsimp only
    | with_reducible
      refine Same.upd ?_ (.inr rfl) (.inr rfl) (.inr rfl) (.inr rfl) (.inr rfl) (.inr rfl) (.inr rfl) (.inr rfl)
        (.inr rfl) (.inr rfl) (.inr rfl) (.inr rfl) (.inr rfl) (.inr rfl) (.inr rfl) (.inr rfl) (.inr rfl) (.inr rfl)
        (.inr rfl) (.inr rfl) (.inr rfl) (.inr rfl)

theorem handBody_same {pm : Nat} {z : State} {m : Mask} {enter : Byte} {r : Request} {s : State} (hm : covers pm 32)
    (hz : Same pm z s) :
    Same pm z (handBody m enter r s).1 := by
  have h32 : covers pm 32 := hm.le rfl
  unfold handBody
  repeat' first
    | with_reducible assumption | with_reducible apply maskCommand_same h32 | with_reducible apply Same.ite
    | with_reducible apply Same.iteFst | split | dsimp only

theorem startBody_same {pm : Nat} {z : State} {m : Mask} {r : Request} {s : State} (hm : covers pm 672)
    (hz : Same pm z s) :
    Same pm z (startBody m r s).1 := by
  have h32 : covers pm 32 := hm.le rfl
  have h640 : covers pm 640 := hm.le rfl
  unfold startBody
  repeat' first
    | with_reducible assumption | (with_reducible apply Same.foldl; rotate_left; intro _ _ _)
    | with_reducible apply queueEvent_same h640 | with_reducible apply maskCommand_same h32 | split | dsimp only

theorem execChArm_same {mask : Mask} {s : State} {t : State} (hz : execChArm mask s = .next t) : Same 288 s t := by
  have hm : covers 288 288 := rfl
  have h32 : covers 288 32 := hm.le rfl
  have h256 : covers 288 256 := hm.le rfl
  unfold execChArm at hz
  obtain rfl := Host.Outcome.next.inj hz
  clear hz
  have hz := Same.refl 288 s
  repeat' first
    | with_reducible assumption | with_reducible apply hostCommand_same h256
    | with_reducible apply maskCommand_same h32 | with_reducible apply Same.ite | with_reducible apply Same.iteFst
    | with_reducible intro _ _ _ | split | dsimp only

theorem execChStop_same {mask : Mask} {s : State} {t : State} (hz : execChStop mask s = .next t) : Same 288 s t := by
  have hm : covers 288 288 := rfl
  have h32 : covers 288 32 := hm.le rfl
  have h256 : covers 288 256 := hm.le rfl
  unfold execChStop at hz
  obtain rfl := Host.Outcome.next.inj hz
  clear hz
  have hz := Same.refl 288 s
  repeat' first
    | with_reducible assumption | with_reducible apply hostCommand_same h256
    | with_reducible apply maskCommand_same h32 | with_reducible apply Same.ite | with_reducible apply Same.iteFst
    | with_reducible intro _ _ _ | split | dsimp only

theorem execChHold_same {mask : Mask} {s : State} {t : State} (hz : execChHold mask s = .next t) : Same 288 s t := by
  have hm : covers 288 288 := rfl
  have h32 : covers 288 32 := hm.le rfl
  have h256 : covers 288 256 := hm.le rfl
  unfold execChHold at hz
  obtain rfl := Host.Outcome.next.inj hz
  clear hz
  have hz := Same.refl 288 s
  repeat' first
    | with_reducible assumption | with_reducible apply hostCommand_same h256
    | with_reducible apply maskCommand_same h32 | with_reducible apply Same.ite | with_reducible apply Same.iteFst
    | with_reducible intro _ _ _ | split | dsimp only

theorem execChResume_same {mask : Mask} {s : State} {t : State}
    (hz : execChResume mask s = .next t) : Same 288 s t := by
  have hm : covers 288 288 := rfl
  have h32 : covers 288 32 := hm.le rfl
  have h256 : covers 288 256 := hm.le rfl
  unfold execChResume at hz
  obtain rfl := Host.Outcome.next.inj hz
  clear hz
  have hz := Same.refl 288 s
  repeat' first
    | with_reducible assumption | with_reducible apply hostCommand_same h256
    | with_reducible apply maskCommand_same h32 | with_reducible apply Same.ite | with_reducible apply Same.iteFst
    | with_reducible intro _ _ _ | split | dsimp only

theorem execChClear_same {mask : Mask} {s : State} {t : State} (hz : execChClear mask s = .next t) : Same 288 s t := by
  have hm : covers 288 288 := rfl
  have h32 : covers 288 32 := hm.le rfl
  have h256 : covers 288 256 := hm.le rfl
  unfold execChClear at hz
  obtain rfl := Host.Outcome.next.inj hz
  clear hz
  have hz := Same.refl 288 s
  repeat' first
    | with_reducible assumption | with_reducible apply hostCommand_same h256
    | with_reducible apply maskCommand_same h32 | with_reducible apply Same.ite | with_reducible apply Same.iteFst
    | with_reducible intro _ _ _ | split | dsimp only

theorem execChHand_same {mask : Mask} {enter : Byte} {s : State} {t : State}
    (hz : execChHand mask enter s = .next t) : Same 288 s t := by
  have hm : covers 288 288 := rfl
  have h32 : covers 288 32 := hm.le rfl
  have h256 : covers 288 256 := hm.le rfl
  unfold execChHand at hz
  obtain rfl := Host.Outcome.next.inj hz
  clear hz
  have hz := Same.refl 288 s
  repeat' first
    | with_reducible assumption | with_reducible apply hostCommand_same h256 | with_reducible apply handBody_same h32
    | with_reducible apply Same.ite | with_reducible apply Same.iteFst | with_reducible intro _ _ _ | split
    | dsimp only

theorem execChSetpoint_same {ch sel : Byte} {iset vset iramp vramp : Word} {s : State} {t : State}
    (hz : execChSetpoint ch sel iset vset iramp vramp s = .next t) : Same 290 s t := by
  have hm : covers 290 290 := rfl
  have h34 : covers 290 34 := hm.le rfl
  have h256 : covers 290 256 := hm.le rfl
  unfold execChSetpoint at hz
  obtain rfl := Host.Outcome.next.inj hz
  clear hz
  have hz := Same.refl 290 s
  repeat' first
    | with_reducible assumption | with_reducible apply hostCommand_same h256
    | with_reducible apply setpointBody_same h34 | with_reducible apply Same.ite | with_reducible apply Same.iteFst
    | with_reducible intro _ _ _ | split | dsimp only

theorem execProgStart_same {mask : Mask} {s : State} {t : State}
    (hz : execProgStart mask s = .next t) : Same 928 s t := by
  have hm : covers 928 928 := rfl
  have h256 : covers 928 256 := hm.le rfl
  have h672 : covers 928 672 := hm.le rfl
  unfold execProgStart at hz
  obtain rfl := Host.Outcome.next.inj hz
  clear hz
  have hz := Same.refl 928 s
  repeat' first
    | with_reducible assumption | with_reducible apply hostCommand_same h256
    | with_reducible apply startBody_same h672 | with_reducible apply Same.ite | with_reducible apply Same.iteFst
    | with_reducible intro _ _ _ | split | dsimp only

theorem execProgAbort_same {mask : Mask} {s : State} {t : State}
    (hz : execProgAbort mask s = .next t) : Same 288 s t := by
  have hm : covers 288 288 := rfl
  have h32 : covers 288 32 := hm.le rfl
  have h256 : covers 288 256 := hm.le rfl
  unfold execProgAbort at hz
  obtain rfl := Host.Outcome.next.inj hz
  clear hz
  have hz := Same.refl 288 s
  repeat' first
    | with_reducible assumption | with_reducible apply hostCommand_same h256
    | with_reducible apply maskCommand_same h32 | with_reducible apply Same.ite | with_reducible apply Same.iteFst
    | with_reducible intro _ _ _ | split | dsimp only

end Sys2Proof.Safety
end

