-- ==== Sys2Proof/Laws/SameBook.lean ====
section
/-! SUPPORT. The parts of the state that the operations of Machine/Book.lean leave alone. -/
namespace Sys2Proof.Safety

open Sys2Proof.Machine

set_option simprocs false

theorem bookHdrBody_same {pm : Nat} {z : State} {h : List Byte} {s : State} (hm : covers pm 262144) (hz : Same pm z s) :
    Same pm z (bookHdrBody h s).1 := by
  have b18 : pm.testBit 18 = true := hm.bit rfl
  unfold bookHdrBody
  repeat' first
    | with_reducible assumption | with_reducible apply Same.ite | with_reducible apply Same.iteFst | split
    | dsimp only
    | with_reducible
      refine Same.upd ?_ (.inr rfl) (.inr rfl) (.inr rfl) (.inr rfl) (.inr rfl) (.inr rfl) (.inr rfl) (.inr rfl)
        (.inr rfl) (.inr rfl) (.inr rfl) (.inr rfl) (.inr rfl) (.inr rfl) (.inr rfl) (.inr rfl) (.inr rfl) (.inr rfl)
        (.inl b18) (.inr rfl) (.inr rfl) (.inr rfl)

theorem bookStepsBody_same {pm : Nat} {z : State} {first count : Byte} {recs : List Byte} {s : State}
    (hm : covers pm 262144) (hz : Same pm z s) :
    Same pm z (bookStepsBody first count recs s).1 := by
  have b18 : pm.testBit 18 = true := hm.bit rfl
  unfold bookStepsBody
  repeat' first
    | with_reducible assumption | with_reducible apply Same.ite | with_reducible apply Same.iteFst | split
    | dsimp only
    | with_reducible
      refine Same.upd ?_ (.inr rfl) (.inr rfl) (.inr rfl) (.inr rfl) (.inr rfl) (.inr rfl) (.inr rfl) (.inr rfl)
        (.inr rfl) (.inr rfl) (.inr rfl) (.inr rfl) (.inr rfl) (.inr rfl) (.inr rfl) (.inr rfl) (.inr rfl) (.inr rfl)
        (.inl b18) (.inr rfl) (.inr rfl) (.inr rfl)

theorem bookCommitBody_same {pm : Nat} {z : State} {slot : Byte} {r : Request} {s : State} (hm : covers pm 262144)
    (hz : Same pm z s) :
    Same pm z (bookCommitBody slot r s).1 := by
  have b18 : pm.testBit 18 = true := hm.bit rfl
  unfold bookCommitBody
  repeat' first
    | with_reducible assumption | with_reducible apply Same.ite | with_reducible apply Same.iteFst | split
    | dsimp only
    | with_reducible
      refine Same.upd ?_ (.inr rfl) (.inr rfl) (.inr rfl) (.inr rfl) (.inr rfl) (.inr rfl) (.inr rfl) (.inr rfl)
        (.inr rfl) (.inr rfl) (.inr rfl) (.inr rfl) (.inr rfl) (.inr rfl) (.inr rfl) (.inr rfl) (.inr rfl) (.inr rfl)
        (.inl b18) (.inr rfl) (.inr rfl) (.inr rfl)

theorem bookCommitEnd_same {pm : Nat} {z : State} {ok : Bool} {s : State} (hm : covers pm 264065) (hz : Same pm z s) :
    Same pm z (bookCommitEnd ok s) := by
  have h641 : covers pm 641 := hm.le rfl
  have h262400 : covers pm 262400 := hm.le rfl
  have b10 : pm.testBit 10 = true := hm.bit rfl
  have b18 : pm.testBit 18 = true := hm.bit rfl
  unfold bookCommitEnd
  repeat' first
    | with_reducible assumption | with_reducible apply replyOp_same h262400 | with_reducible apply nvmFail_same h641
    | with_reducible apply Same.ite | split | dsimp only
    | with_reducible
      refine Same.upd ?_ (.inr rfl) (.inr rfl) (.inr rfl) (.inr rfl) (.inr rfl) (.inr rfl) (.inr rfl) (.inr rfl)
        (.inr rfl) (.inr rfl) (.inl b10) (.inr rfl) (.inr rfl) (.inr rfl) (.inr rfl) (.inr rfl) (.inr rfl) (.inr rfl)
        (.inl b18) (.inr rfl) (.inr rfl) (.inr rfl)

theorem bookReadBody_same {pm : Nat} {z : State} {slot first count : Byte} {s : State} (_hm : covers pm 0)
    (hz : Same pm z s) :
    Same pm z (bookReadBody slot first count s).1 := by
  unfold bookReadBody
  repeat' first
    | with_reducible assumption | with_reducible apply Same.ite | with_reducible apply Same.iteFst | split
    | dsimp only
    | with_reducible
      refine Same.upd ?_ (.inr rfl) (.inr rfl) (.inr rfl) (.inr rfl) (.inr rfl) (.inr rfl) (.inr rfl) (.inr rfl)
        (.inr rfl) (.inr rfl) (.inr rfl) (.inr rfl) (.inr rfl) (.inr rfl) (.inr rfl) (.inr rfl) (.inr rfl) (.inr rfl)
        (.inr rfl) (.inr rfl) (.inr rfl) (.inr rfl)

theorem execBookDir_same {s : State} {t : State} (hz : execBookDir s = .next t) : Same 256 s t := by
  have hm : covers 256 256 := rfl
  have h256 : covers 256 256 := hm.le rfl
  unfold execBookDir at hz
  obtain rfl := Host.Outcome.next.inj hz
  clear hz
  have hz := Same.refl 256 s
  repeat' first
    | with_reducible assumption | with_reducible apply hostCommand_same h256 | with_reducible apply Same.ite
    | with_reducible apply Same.iteFst | with_reducible intro _ _ _ | split | dsimp only

theorem execBookHdr_same {header : List Byte} {s : State} {t : State}
    (hz : execBookHdr header s = .next t) : Same 262400 s t := by
  have hm : covers 262400 262400 := rfl
  have h256 : covers 262400 256 := hm.le rfl
  have h262144 : covers 262400 262144 := hm.le rfl
  unfold execBookHdr at hz
  obtain rfl := Host.Outcome.next.inj hz
  clear hz
  have hz := Same.refl 262400 s
  repeat' first
    | with_reducible assumption | with_reducible apply hostCommand_same h256
    | with_reducible apply bookHdrBody_same h262144 | with_reducible apply Same.ite | with_reducible apply Same.iteFst
    | with_reducible intro _ _ _ | split | dsimp only

theorem execBookSteps_same {first count : Byte} {records : List Byte} {s : State} {t : State}
    (hz : execBookSteps first count records s = .next t) : Same 262400 s t := by
  have hm : covers 262400 262400 := rfl
  have h256 : covers 262400 256 := hm.le rfl
  have h262144 : covers 262400 262144 := hm.le rfl
  unfold execBookSteps at hz
  obtain rfl := Host.Outcome.next.inj hz
  clear hz
  have hz := Same.refl 262400 s
  repeat' first
    | with_reducible assumption | with_reducible apply hostCommand_same h256
    | with_reducible apply bookStepsBody_same h262144 | with_reducible apply Same.ite
    | with_reducible apply Same.iteFst | with_reducible intro _ _ _ | split | dsimp only

theorem execBookCommit_same {slot : Byte} {s : State} {t : State}
    (hz : execBookCommit slot s = .next t) : Same 262400 s t := by
  have hm : covers 262400 262400 := rfl
  have h256 : covers 262400 256 := hm.le rfl
  have h262144 : covers 262400 262144 := hm.le rfl
  unfold execBookCommit at hz
  obtain rfl := Host.Outcome.next.inj hz
  clear hz
  have hz := Same.refl 262400 s
  repeat' first
    | with_reducible assumption | with_reducible apply hostCommand_same h256
    | with_reducible apply bookCommitBody_same h262144 | with_reducible apply Same.ite
    | with_reducible apply Same.iteFst | with_reducible intro _ _ _ | split | dsimp only

theorem execBookCommitDone_same {ok : Bool} {s : State} {t : State}
    (hz : execBookCommitDone ok s = .next t) : Same 264065 s t := by
  have hm : covers 264065 264065 := rfl
  have h264065 : covers 264065 264065 := hm.le rfl
  unfold execBookCommitDone at hz
  obtain rfl := Host.Outcome.next.inj hz
  clear hz
  have hz := Same.refl 264065 s
  repeat' first
    | with_reducible assumption | with_reducible apply bookCommitEnd_same h264065 | with_reducible apply Same.ite
    | with_reducible apply Same.iteFst | with_reducible intro _ _ _ | split | dsimp only

theorem execBookRead_same {slot first count : Byte} {s : State} {t : State}
    (hz : execBookRead slot first count s = .next t) : Same 256 s t := by
  have hm : covers 256 256 := rfl
  have h0 : covers 256 0 := hm.le rfl
  have h256 : covers 256 256 := hm.le rfl
  unfold execBookRead at hz
  obtain rfl := Host.Outcome.next.inj hz
  clear hz
  have hz := Same.refl 256 s
  repeat' first
    | with_reducible assumption | with_reducible apply hostCommand_same h256
    | with_reducible apply bookReadBody_same h0 | with_reducible apply Same.ite | with_reducible apply Same.iteFst
    | with_reducible intro _ _ _ | split | dsimp only

end Sys2Proof.Safety
end

