-- ==== Sys2Proof/Laws/SameLogs.lean ====
section
/-! SUPPORT. The parts of the state that the operations of Machine/Logs.lean leave alone. -/
namespace Sys2Proof.Safety

open Sys2Proof.Machine

set_option simprocs false

theorem logReadBody_same {pm : Nat} {z : State} {b count : Byte} {first : Word} {s : State} (_hm : covers pm 0)
    (hz : Same pm z s) :
    Same pm z (logReadBody b count first s).1 := by
  unfold logReadBody
  repeat' first
    | with_reducible assumption | with_reducible apply Same.ite | with_reducible apply Same.iteFst | split
    | dsimp only
    | with_reducible
      refine Same.upd ?_ (.inr rfl) (.inr rfl) (.inr rfl) (.inr rfl) (.inr rfl) (.inr rfl) (.inr rfl) (.inr rfl)
        (.inr rfl) (.inr rfl) (.inr rfl) (.inr rfl) (.inr rfl) (.inr rfl) (.inr rfl) (.inr rfl) (.inr rfl) (.inr rfl)
        (.inr rfl) (.inr rfl) (.inr rfl) (.inr rfl)

theorem withStatus_same {pm : Nat} {z : State} {r : State × Byte} (_hm : covers pm 0) (hz : Same pm z r.1) :
    Same pm z (withStatus r).1 := hz

theorem logAckBody_same {pm : Nat} {z : State} {b : Byte} {seq : Word} {s : State} (hm : covers pm 2)
    (hz : Same pm z s) : Same pm z (logAckBody b seq s).1 := by
  unfold logAckBody
  split
  · exact hz
  · exact withStatus_same (hm.le rfl) (setLogAck_same hm hz)

theorem logMarkBody_same {pm : Nat} {z : State} {b : Byte} {data : List Byte} {r : Request} {s : State}
    (hm : covers pm 32) (hz : Same pm z s) :
    Same pm z (logMarkBody b data r s).1 := by
  have h32 : covers pm 32 := hm.le rfl
  unfold logMarkBody
  repeat' first
    | with_reducible assumption | with_reducible apply stage_same h32 | with_reducible apply Same.ite
    | with_reducible apply Same.iteFst | split | dsimp only
    | with_reducible
      refine Same.upd ?_ (.inr rfl) (.inr rfl) (.inr rfl) (.inr rfl) (.inr rfl) (.inr rfl) (.inr rfl) (.inr rfl)
        (.inr rfl) (.inr rfl) (.inr rfl) (.inr rfl) (.inr rfl) (.inr rfl) (.inr rfl) (.inr rfl) (.inr rfl) (.inr rfl)
        (.inr rfl) (.inr rfl) (.inr rfl) (.inr rfl)

theorem gradeReadBody_same {pm : Nat} {z : State} {b age : Byte} {s : State} (_hm : covers pm 0) (hz : Same pm z s) :
    Same pm z (gradeReadBody b age s).1 := by
  unfold gradeReadBody
  repeat' first
    | with_reducible assumption | with_reducible apply Same.ite | with_reducible apply Same.iteFst | split
    | dsimp only
    | with_reducible
      refine Same.upd ?_ (.inr rfl) (.inr rfl) (.inr rfl) (.inr rfl) (.inr rfl) (.inr rfl) (.inr rfl) (.inr rfl)
        (.inr rfl) (.inr rfl) (.inr rfl) (.inr rfl) (.inr rfl) (.inr rfl) (.inr rfl) (.inr rfl) (.inr rfl) (.inr rfl)
        (.inr rfl) (.inr rfl) (.inr rfl) (.inr rfl)

theorem histReadBody_same {pm : Nat} {z : State} {b : Byte} {first count : BitVec 16} {s : State} (_hm : covers pm 0)
    (hz : Same pm z s) :
    Same pm z (histReadBody b first count s).1 := by
  unfold histReadBody
  repeat' first
    | with_reducible assumption | with_reducible apply Same.ite | with_reducible apply Same.iteFst | split
    | dsimp only

theorem markRead_same {pm : Nat} {z : State} {s : State} {l : List Ev} (hm : covers pm 128) (hz : Same pm z s) :
    Same pm z (markRead s l) := by
  have b7 : pm.testBit 7 = true := hm.bit rfl
  unfold markRead
  repeat' first
    | with_reducible assumption | with_reducible apply Same.ite | split | dsimp only
    | with_reducible
      refine Same.upd ?_ (.inr rfl) (.inr rfl) (.inr rfl) (.inr rfl) (.inr rfl) (.inr rfl) (.inr rfl) (.inl b7)
        (.inr rfl) (.inr rfl) (.inr rfl) (.inr rfl) (.inr rfl) (.inr rfl) (.inr rfl) (.inr rfl) (.inr rfl) (.inr rfl)
        (.inr rfl) (.inr rfl) (.inr rfl) (.inr rfl)

theorem evtReadBody_same {pm : Nat} {z : State} {first : Word} {count : Byte} {s : State} (hm : covers pm 128)
    (hz : Same pm z s) :
    Same pm z (evtReadBody first count s).1 := by
  have h128 : covers pm 128 := hm.le rfl
  unfold evtReadBody
  repeat' first
    | with_reducible assumption | with_reducible apply markRead_same h128 | with_reducible apply Same.ite
    | with_reducible apply Same.iteFst | split | dsimp only
    | with_reducible
      refine Same.upd ?_ (.inr rfl) (.inr rfl) (.inr rfl) (.inr rfl) (.inr rfl) (.inr rfl) (.inr rfl) (.inr rfl)
        (.inr rfl) (.inr rfl) (.inr rfl) (.inr rfl) (.inr rfl) (.inr rfl) (.inr rfl) (.inr rfl) (.inr rfl) (.inr rfl)
        (.inr rfl) (.inr rfl) (.inr rfl) (.inr rfl)

theorem evtAckBody_same {pm : Nat} {z : State} {seq : Word} {s : State} (hm : covers pm 128) (hz : Same pm z s) :
    Same pm z (evtAckBody seq s).1 := by
  have b7 : pm.testBit 7 = true := hm.bit rfl
  unfold evtAckBody
  repeat' first
    | with_reducible assumption | with_reducible apply Same.ite | with_reducible apply Same.iteFst | split
    | dsimp only
    | with_reducible
      refine Same.upd ?_ (.inr rfl) (.inr rfl) (.inr rfl) (.inr rfl) (.inr rfl) (.inr rfl) (.inr rfl) (.inl b7)
        (.inr rfl) (.inr rfl) (.inr rfl) (.inr rfl) (.inr rfl) (.inr rfl) (.inr rfl) (.inr rfl) (.inr rfl) (.inr rfl)
        (.inr rfl) (.inr rfl) (.inr rfl) (.inr rfl)

theorem evtStatusBody_same {pm : Nat} {z : State} {s : State} (hm : covers pm 1) (hz : Same pm z s) :
    Same pm z (evtStatusBody s).1 := by
  have h1 : covers pm 1 := hm.le rfl
  unfold evtStatusBody
  repeat' first
    | with_reducible assumption | with_reducible apply drawFree_same h1 | split | dsimp only
    | with_reducible
      refine Same.upd ?_ (.inr rfl) (.inr rfl) (.inr rfl) (.inr rfl) (.inr rfl) (.inr rfl) (.inr rfl) (.inr rfl)
        (.inr rfl) (.inr rfl) (.inr rfl) (.inr rfl) (.inr rfl) (.inr rfl) (.inr rfl) (.inr rfl) (.inr rfl) (.inr rfl)
        (.inr rfl) (.inr rfl) (.inr rfl) (.inr rfl)

theorem execLogRead_same {ch count : Byte} {first : Word} {s : State} {t : State}
    (hz : execLogRead ch count first s = .next t) : Same 256 s t := by
  have hm : covers 256 256 := rfl
  have h0 : covers 256 0 := hm.le rfl
  have h256 : covers 256 256 := hm.le rfl
  unfold execLogRead at hz
  obtain rfl := Host.Outcome.next.inj hz
  clear hz
  have hz := Same.refl 256 s
  repeat' first
    | with_reducible assumption | with_reducible apply hostCommand_same h256
    | with_reducible apply logReadBody_same h0 | with_reducible apply Same.ite | with_reducible apply Same.iteFst
    | with_reducible intro _ _ _ | split | dsimp only

theorem execLogAck_same {ch : Byte} {seq : Word} {s : State} {t : State}
    (hz : execLogAck ch seq s = .next t) : Same 258 s t := by
  have hm : covers 258 258 := rfl
  have h2 : covers 258 2 := hm.le rfl
  have h256 : covers 258 256 := hm.le rfl
  unfold execLogAck at hz
  obtain rfl := Host.Outcome.next.inj hz
  clear hz
  have hz := Same.refl 258 s
  repeat' first
    | with_reducible assumption | with_reducible apply hostCommand_same h256 | with_reducible apply logAckBody_same h2
    | with_reducible apply Same.ite | with_reducible apply Same.iteFst | with_reducible intro _ _ _ | split
    | dsimp only

theorem execLogMark_same {ch : Byte} {data : List Byte} {s : State} {t : State}
    (hz : execLogMark ch data s = .next t) : Same 288 s t := by
  have hm : covers 288 288 := rfl
  have h32 : covers 288 32 := hm.le rfl
  have h256 : covers 288 256 := hm.le rfl
  unfold execLogMark at hz
  obtain rfl := Host.Outcome.next.inj hz
  clear hz
  have hz := Same.refl 288 s
  repeat' first
    | with_reducible assumption | with_reducible apply hostCommand_same h256
    | with_reducible apply logMarkBody_same h32 | with_reducible apply Same.ite | with_reducible apply Same.iteFst
    | with_reducible intro _ _ _ | split | dsimp only

theorem execGradeRead_same {ch age : Byte} {s : State} {t : State}
    (hz : execGradeRead ch age s = .next t) : Same 256 s t := by
  have hm : covers 256 256 := rfl
  have h0 : covers 256 0 := hm.le rfl
  have h256 : covers 256 256 := hm.le rfl
  unfold execGradeRead at hz
  obtain rfl := Host.Outcome.next.inj hz
  clear hz
  have hz := Same.refl 256 s
  repeat' first
    | with_reducible assumption | with_reducible apply hostCommand_same h256
    | with_reducible apply gradeReadBody_same h0 | with_reducible apply Same.ite | with_reducible apply Same.iteFst
    | with_reducible intro _ _ _ | split | dsimp only

theorem execHistRead_same {ch : Byte} {first count : BitVec 16} {s : State} {t : State}
    (hz : execHistRead ch first count s = .next t) : Same 256 s t := by
  have hm : covers 256 256 := rfl
  have h0 : covers 256 0 := hm.le rfl
  have h256 : covers 256 256 := hm.le rfl
  unfold execHistRead at hz
  obtain rfl := Host.Outcome.next.inj hz
  clear hz
  have hz := Same.refl 256 s
  repeat' first
    | with_reducible assumption | with_reducible apply hostCommand_same h256
    | with_reducible apply histReadBody_same h0 | with_reducible apply Same.ite | with_reducible apply Same.iteFst
    | with_reducible intro _ _ _ | split | dsimp only

theorem execEvtRead_same {first : Word} {count : Byte} {s : State} {t : State}
    (hz : execEvtRead first count s = .next t) : Same 384 s t := by
  have hm : covers 384 384 := rfl
  have h128 : covers 384 128 := hm.le rfl
  have h256 : covers 384 256 := hm.le rfl
  unfold execEvtRead at hz
  obtain rfl := Host.Outcome.next.inj hz
  clear hz
  have hz := Same.refl 384 s
  repeat' first
    | with_reducible assumption | with_reducible apply hostCommand_same h256
    | with_reducible apply evtReadBody_same h128 | with_reducible apply Same.ite | with_reducible apply Same.iteFst
    | with_reducible intro _ _ _ | split | dsimp only

theorem execEvtAck_same {seq : Word} {s : State} {t : State} (hz : execEvtAck seq s = .next t) : Same 384 s t := by
  have hm : covers 384 384 := rfl
  have h128 : covers 384 128 := hm.le rfl
  have h256 : covers 384 256 := hm.le rfl
  unfold execEvtAck at hz
  obtain rfl := Host.Outcome.next.inj hz
  clear hz
  have hz := Same.refl 384 s
  repeat' first
    | with_reducible assumption | with_reducible apply hostCommand_same h256
    | with_reducible apply evtAckBody_same h128 | with_reducible apply Same.ite | with_reducible apply Same.iteFst
    | with_reducible intro _ _ _ | split | dsimp only

theorem execEvtStatus_same {s : State} {t : State} (hz : execEvtStatus s = .next t) : Same 257 s t := by
  have hm : covers 257 257 := rfl
  have h1 : covers 257 1 := hm.le rfl
  have h256 : covers 257 256 := hm.le rfl
  unfold execEvtStatus at hz
  obtain rfl := Host.Outcome.next.inj hz
  clear hz
  have hz := Same.refl 257 s
  repeat' first
    | with_reducible assumption | with_reducible apply hostCommand_same h256
    | with_reducible apply evtStatusBody_same h1 | with_reducible apply Same.ite | with_reducible apply Same.iteFst
    | with_reducible intro _ _ _ | split | dsimp only

end Sys2Proof.Safety
end

