-- ==== Sys2Proof/Laws/SameEngines.lean ====
section
/-! SUPPORT. The parts of the state that the operations of Machine/Engines.lean leave alone. -/
namespace Sys2Proof.Safety

open Sys2Proof.Machine

set_option simprocs false

theorem lockstepMismatch_same {pm : Nat} {z : State} {k : Fin 5} {s : State} (hm : covers pm 263167)
    (hz : Same pm z s) :
    Same pm z (lockstepMismatch k s) := by
  have h16 : covers pm 16 := hm.le rfl
  have h263057 : covers pm 263057 := hm.le rfl
  have h263167 : covers pm 263167 := hm.le rfl
  unfold lockstepMismatch
  repeat' first
    | with_reducible assumption | with_reducible apply updCe_same h16 | with_reducible apply abandonBist_same h263057
    | with_reducible apply engineFails_same h263167 | with_reducible apply Same.ite | split | dsimp only
    | with_reducible
      refine Same.upd ?_ (.inr rfl) (.inr rfl) (.inr rfl) (.inr rfl) (.inr rfl) (.inr rfl) (.inr rfl) (.inr rfl)
        (.inr rfl) (.inr rfl) (.inr rfl) (.inr rfl) (.inr rfl) (.inr rfl) (.inr rfl) (.inr rfl) (.inr rfl) (.inr rfl)
        (.inr rfl) (.inr rfl) (.inr rfl) (.inr rfl)

theorem pllLost_same {pm : Nat} {z : State} {i : Fin 14} {s : State} (hm : covers pm 304127) (hz : Same pm z s) :
    Same pm z (pllLost i s) := by
  have h640 : covers pm 640 := hm.le rfl
  have h40960 : covers pm 40960 := hm.le rfl
  have h263057 : covers pm 263057 := hm.le rfl
  have h263167 : covers pm 263167 := hm.le rfl
  have b0 : pm.testBit 0 = true := hm.bit rfl
  unfold pllLost
  repeat' first
    | with_reducible assumption | with_reducible apply queueEvent_same h640
    | with_reducible apply abandonBist_same h263057 | with_reducible apply engineFails_same h263167
    | with_reducible apply cutFrames_same h40960 | with_reducible apply Same.ite | split | dsimp only
    | with_reducible
      refine Same.upd ?_ (.inl b0) (.inr rfl) (.inr rfl) (.inr rfl) (.inr rfl) (.inr rfl) (.inr rfl) (.inr rfl)
        (.inr rfl) (.inr rfl) (.inr rfl) (.inr rfl) (.inr rfl) (.inr rfl) (.inr rfl) (.inr rfl) (.inr rfl) (.inr rfl)
        (.inr rfl) (.inr rfl) (.inr rfl) (.inr rfl)

theorem restartDma_same {pm : Nat} {z : State} {s : State} (hm : covers pm 98304) (hz : Same pm z s) :
    Same pm z (restartDma s) := by
  have h65536 : covers pm 65536 := hm.le rfl
  have b15 : pm.testBit 15 = true := hm.bit rfl
  have b16 : pm.testBit 16 = true := hm.bit rfl
  unfold restartDma
  repeat' first
    | with_reducible assumption | (with_reducible apply Same.foldl; rotate_left; intro _ _ _)
    | with_reducible apply takeShadow_same h65536 | split | dsimp only
    | with_reducible
      refine Same.upd ?_ (.inr rfl) (.inr rfl) (.inr rfl) (.inr rfl) (.inr rfl) (.inr rfl) (.inr rfl) (.inr rfl)
        (.inr rfl) (.inr rfl) (.inr rfl) (.inr rfl) (.inr rfl) (.inr rfl) (.inr rfl) (.inl b15) (.inl b16) (.inr rfl)
        (.inr rfl) (.inr rfl) (.inr rfl) (.inr rfl)

theorem islandRestarted_same {pm : Nat} {z : State} {i : Fin 14} {s : State} (hm : covers pm 98817) (hz : Same pm z s) :
    Same pm z (islandRestarted i s) := by
  have h98304 : covers pm 98304 := hm.le rfl
  have b0 : pm.testBit 0 = true := hm.bit rfl
  have b9 : pm.testBit 9 = true := hm.bit rfl
  unfold islandRestarted
  repeat' first
    | with_reducible assumption | with_reducible apply restartDma_same h98304 | with_reducible apply Same.ite | split
    | dsimp only
    | with_reducible
      refine Same.upd ?_ (.inl b0) (.inr rfl) (.inr rfl) (.inr rfl) (.inr rfl) (.inr rfl) (.inr rfl) (.inr rfl)
        (.inr rfl) (.inl b9) (.inr rfl) (.inr rfl) (.inr rfl) (.inr rfl) (.inr rfl) (.inr rfl) (.inr rfl) (.inr rfl)
        (.inr rfl) (.inr rfl) (.inr rfl) (.inr rfl)

theorem replayDone_same {pm : Nat} {z : State} {g : Fin 4} {s : State} (hm : covers pm 970) (hz : Same pm z s) :
    Same pm z (replayDone g s) := by
  have h8 : covers pm 8 := hm.le rfl
  have h962 : covers pm 962 := hm.le rfl
  unfold replayDone
  repeat' first
    | with_reducible assumption | with_reducible apply updGrp_same h8 | with_reducible apply holdGroup_same h962
    | with_reducible apply Same.ite | split | dsimp only
    | with_reducible
      refine Same.upd ?_ (.inr rfl) (.inr rfl) (.inr rfl) (.inr rfl) (.inr rfl) (.inr rfl) (.inr rfl) (.inr rfl)
        (.inr rfl) (.inr rfl) (.inr rfl) (.inr rfl) (.inr rfl) (.inr rfl) (.inr rfl) (.inr rfl) (.inr rfl) (.inr rfl)
        (.inr rfl) (.inr rfl) (.inr rfl) (.inr rfl)

theorem sequencerDiverges_same {pm : Nat} {z : State} {s : State} (hm : covers pm 963) (hz : Same pm z s) :
    Same pm z (sequencerDiverges s) := by
  have h962 : covers pm 962 := hm.le rfl
  have b0 : pm.testBit 0 = true := hm.bit rfl
  have b9 : pm.testBit 9 = true := hm.bit rfl
  unfold sequencerDiverges
  repeat' first
    | with_reducible assumption | with_reducible apply holdRecovering_same h962 | with_reducible apply Same.ite
    | split | dsimp only
    | with_reducible
      refine Same.upd ?_ (.inl b0) (.inr rfl) (.inr rfl) (.inr rfl) (.inr rfl) (.inr rfl) (.inr rfl) (.inr rfl)
        (.inr rfl) (.inl b9) (.inr rfl) (.inr rfl) (.inr rfl) (.inr rfl) (.inr rfl) (.inr rfl) (.inr rfl) (.inr rfl)
        (.inr rfl) (.inr rfl) (.inr rfl) (.inr rfl)

theorem sequencerRecovered_same {pm : Nat} {z : State} {epochs : Nat} {s : State} (hm : covers pm 641)
    (hz : Same pm z s) :
    Same pm z (sequencerRecovered epochs s) := by
  have h640 : covers pm 640 := hm.le rfl
  have b0 : pm.testBit 0 = true := hm.bit rfl
  unfold sequencerRecovered
  repeat' first
    | with_reducible assumption | with_reducible apply queueEvent_same h640 | with_reducible apply Same.ite | split
    | dsimp only
    | with_reducible
      refine Same.upd ?_ (.inl b0) (.inr rfl) (.inr rfl) (.inr rfl) (.inr rfl) (.inr rfl) (.inr rfl) (.inr rfl)
        (.inr rfl) (.inr rfl) (.inr rfl) (.inr rfl) (.inr rfl) (.inr rfl) (.inr rfl) (.inr rfl) (.inr rfl) (.inr rfl)
        (.inr rfl) (.inr rfl) (.inr rfl) (.inr rfl)

theorem plannedCastling_same {pm : Nat} {z : State} {crcOk ackInTime : Bool} {s : State} (hm : covers pm 263097)
    (hz : Same pm z s) :
    Same pm z (plannedCastling crcOk ackInTime s) := by
  have h697 : covers pm 697 := hm.le rfl
  have h263097 : covers pm 263097 := hm.le rfl
  unfold plannedCastling
  repeat' first
    | with_reducible assumption | with_reducible apply abortCastle_same h697
    | with_reducible apply stageCastle_same h263097 | with_reducible apply Same.ite | split | dsimp only
    | with_reducible
      refine Same.upd ?_ (.inr rfl) (.inr rfl) (.inr rfl) (.inr rfl) (.inr rfl) (.inr rfl) (.inr rfl) (.inr rfl)
        (.inr rfl) (.inr rfl) (.inr rfl) (.inr rfl) (.inr rfl) (.inr rfl) (.inr rfl) (.inr rfl) (.inr rfl) (.inr rfl)
        (.inr rfl) (.inr rfl) (.inr rfl) (.inr rfl)

theorem startBist_same {pm : Nat} {z : State} {s : State} (hm : covers pm 262160) (hz : Same pm z s) :
    Same pm z (startBist s) := by
  have h16 : covers pm 16 := hm.le rfl
  have b18 : pm.testBit 18 = true := hm.bit rfl
  unfold startBist
  repeat' first
    | with_reducible assumption | with_reducible apply updCe_same h16 | split | dsimp only
    | with_reducible
      refine Same.upd ?_ (.inr rfl) (.inr rfl) (.inr rfl) (.inr rfl) (.inr rfl) (.inr rfl) (.inr rfl) (.inr rfl)
        (.inr rfl) (.inr rfl) (.inr rfl) (.inr rfl) (.inr rfl) (.inr rfl) (.inr rfl) (.inr rfl) (.inr rfl) (.inr rfl)
        (.inl b18) (.inr rfl) (.inr rfl) (.inr rfl)

theorem bistDone_same {pm : Nat} {z : State} {k : Fin 5} {sigMatch stateOk : Bool} {patterns : Nat} {s : State}
    (hm : covers pm 264121) (hz : Same pm z s) :
    Same pm z (bistDone k sigMatch stateOk patterns s) := by
  have h16 : covers pm 16 := hm.le rfl
  have h256 : covers pm 256 := hm.le rfl
  have h640 : covers pm 640 := hm.le rfl
  have h1681 : covers pm 1681 := hm.le rfl
  have h262144 : covers pm 262144 := hm.le rfl
  have h263097 : covers pm 263097 := hm.le rfl
  have b18 : pm.testBit 18 = true := hm.bit rfl
  unfold bistDone
  repeat' first
    | with_reducible assumption | with_reducible apply updCe_same h16 | with_reducible apply reply_same h256
    | with_reducible apply recordTest_same h262144 | with_reducible apply testDone_same h640
    | with_reducible apply adoptGroup_same h263097 | with_reducible apply retireCe_same h1681
    | with_reducible apply Same.ite | split | dsimp only
    | with_reducible
      refine Same.upd ?_ (.inr rfl) (.inr rfl) (.inr rfl) (.inr rfl) (.inr rfl) (.inr rfl) (.inr rfl) (.inr rfl)
        (.inr rfl) (.inr rfl) (.inr rfl) (.inr rfl) (.inr rfl) (.inr rfl) (.inr rfl) (.inr rfl) (.inr rfl) (.inr rfl)
        (.inl b18) (.inr rfl) (.inr rfl) (.inr rfl)

theorem routeLost_same {pm : Nat} {z : State} {s : State} {src dst : Fin 14} (hm : covers pm 962) (hz : Same pm z s) :
    Same pm z (routeLost s src dst) := by
  have h962 : covers pm 962 := hm.le rfl
  unfold routeLost
  repeat' first
    | with_reducible assumption | (with_reducible apply Same.foldl; rotate_left; intro _ _ _)
    | with_reducible apply holdGroup_same h962 | split | dsimp only

theorem crossbar_same {pm : Nat} {z : State} {src dst : Fin 14} {planeB : Bool} {attempts : List
    (List Byte × BitVec 16)} {s : State} (hm : covers pm 962) (hz : Same pm z s) :
    Same pm z (crossbar src dst planeB attempts s) := by
  have h640 : covers pm 640 := hm.le rfl
  have h962 : covers pm 962 := hm.le rfl
  have b9 : pm.testBit 9 = true := hm.bit rfl
  unfold crossbar
  repeat' first
    | with_reducible assumption | with_reducible apply queueEvent_same h640
    | with_reducible apply queueRated_same h640 | with_reducible apply routeLost_same h962
    | with_reducible apply Same.ite | split | dsimp only
    | with_reducible
      refine Same.upd ?_ (.inr rfl) (.inr rfl) (.inr rfl) (.inr rfl) (.inr rfl) (.inr rfl) (.inr rfl) (.inr rfl)
        (.inr rfl) (.inl b9) (.inr rfl) (.inr rfl) (.inr rfl) (.inr rfl) (.inr rfl) (.inr rfl) (.inr rfl) (.inr rfl)
        (.inr rfl) (.inr rfl) (.inr rfl) (.inr rfl)

theorem currentRef_same {pm : Nat} {z : State} {iref : Word} {leg tag : Byte} {s : State} (hm : covers pm 652)
    (hz : Same pm z s) :
    Same pm z (currentRef iref leg tag s) := by
  have h4 : covers pm 4 := hm.le rfl
  have h8 : covers pm 8 := hm.le rfl
  have h640 : covers pm 640 := hm.le rfl
  unfold currentRef
  repeat' first
    | with_reducible assumption | with_reducible apply updLeg_same h4 | with_reducible apply updGrp_same h8
    | with_reducible apply queueOnce_same h640 | with_reducible apply Same.ite | split | dsimp only
    | with_reducible
      refine Same.upd ?_ (.inr rfl) (.inr rfl) (.inr rfl) (.inr rfl) (.inr rfl) (.inr rfl) (.inr rfl) (.inr rfl)
        (.inr rfl) (.inr rfl) (.inr rfl) (.inr rfl) (.inr rfl) (.inr rfl) (.inr rfl) (.inr rfl) (.inr rfl) (.inr rfl)
        (.inr rfl) (.inr rfl) (.inr rfl) (.inr rfl)

theorem execCeLockstepMismatch_same {ce : Fin 5} {s : State} {t : State}
    (hz : execCeLockstepMismatch ce s = .next t) : Same 263167 s t := by
  have hm : covers 263167 263167 := rfl
  have h263167 : covers 263167 263167 := hm.le rfl
  unfold execCeLockstepMismatch at hz
  obtain rfl := Host.Outcome.next.inj hz
  clear hz
  have hz := Same.refl 263167 s
  repeat' first
    | with_reducible assumption | with_reducible apply lockstepMismatch_same h263167 | with_reducible apply Same.ite
    | with_reducible apply Same.iteFst | with_reducible intro _ _ _ | split | dsimp only

theorem execPllLoss_same {island : Fin 14} {s : State} {t : State}
    (hz : execPllLoss island s = .next t) : Same 304127 s t := by
  have hm : covers 304127 304127 := rfl
  have h304127 : covers 304127 304127 := hm.le rfl
  unfold execPllLoss at hz
  obtain rfl := Host.Outcome.next.inj hz
  clear hz
  have hz := Same.refl 304127 s
  repeat' first
    | with_reducible assumption | with_reducible apply pllLost_same h304127 | with_reducible apply Same.ite
    | with_reducible apply Same.iteFst | with_reducible intro _ _ _ | split | dsimp only

theorem execIslandRestartDone_same {island : Fin 14} {s : State} {t : State}
    (hz : execIslandRestartDone island s = .next t) : Same 98817 s t := by
  have hm : covers 98817 98817 := rfl
  have h98817 : covers 98817 98817 := hm.le rfl
  unfold execIslandRestartDone at hz
  obtain rfl := Host.Outcome.next.inj hz
  clear hz
  have hz := Same.refl 98817 s
  repeat' first
    | with_reducible assumption | with_reducible apply islandRestarted_same h98817 | with_reducible apply Same.ite
    | with_reducible apply Same.iteFst | with_reducible intro _ _ _ | split | dsimp only

theorem execCastleReplayDone_same {group : Fin 4} {s : State} {t : State}
    (hz : execCastleReplayDone group s = .next t) : Same 970 s t := by
  have hm : covers 970 970 := rfl
  have h970 : covers 970 970 := hm.le rfl
  unfold execCastleReplayDone at hz
  obtain rfl := Host.Outcome.next.inj hz
  clear hz
  have hz := Same.refl 970 s
  repeat' first
    | with_reducible assumption | with_reducible apply replayDone_same h970 | with_reducible apply Same.ite
    | with_reducible apply Same.iteFst | with_reducible intro _ _ _ | split | dsimp only

theorem execSequencerMismatch_same {s : State} {t : State} (hz : execSequencerMismatch s = .next t) : Same 963 s t := by
  have hm : covers 963 963 := rfl
  have h963 : covers 963 963 := hm.le rfl
  unfold execSequencerMismatch at hz
  obtain rfl := Host.Outcome.next.inj hz
  clear hz
  have hz := Same.refl 963 s
  repeat' first
    | with_reducible assumption | with_reducible apply sequencerDiverges_same h963 | with_reducible apply Same.ite
    | with_reducible apply Same.iteFst | with_reducible intro _ _ _ | split | dsimp only

theorem execSeqRecover_same {epochs : Nat} {s : State} {t : State}
    (hz : execSeqRecover epochs s = .next t) : Same 641 s t := by
  have hm : covers 641 641 := rfl
  have h641 : covers 641 641 := hm.le rfl
  unfold execSeqRecover at hz
  obtain rfl := Host.Outcome.next.inj hz
  clear hz
  have hz := Same.refl 641 s
  repeat' first
    | with_reducible assumption | with_reducible apply sequencerRecovered_same h641 | with_reducible apply Same.ite
    | with_reducible apply Same.iteFst | with_reducible intro _ _ _ | split | dsimp only

theorem execPlannedCastlingDue_same {crcOk ackInTime : Bool} {s : State} {t : State}
    (hz : execPlannedCastlingDue crcOk ackInTime s = .next t) : Same 263097 s t := by
  have hm : covers 263097 263097 := rfl
  have h263097 : covers 263097 263097 := hm.le rfl
  unfold execPlannedCastlingDue at hz
  obtain rfl := Host.Outcome.next.inj hz
  clear hz
  have hz := Same.refl 263097 s
  repeat' first
    | with_reducible assumption | with_reducible apply plannedCastling_same h263097 | with_reducible apply Same.ite
    | with_reducible apply Same.iteFst | with_reducible intro _ _ _ | split | dsimp only

theorem execSpareBistDue_same {s : State} {t : State} (hz : execSpareBistDue s = .next t) : Same 262160 s t := by
  have hm : covers 262160 262160 := rfl
  have h262160 : covers 262160 262160 := hm.le rfl
  unfold execSpareBistDue at hz
  obtain rfl := Host.Outcome.next.inj hz
  clear hz
  have hz := Same.refl 262160 s
  repeat' first
    | with_reducible assumption | with_reducible apply startBist_same h262160 | with_reducible apply Same.ite
    | with_reducible apply Same.iteFst | with_reducible intro _ _ _ | split | dsimp only

theorem execSpareBistDone_same {ce : Fin 5} {sigMatch stateOk : Bool} {patterns : Nat} {s : State} {t : State}
    (hz : execSpareBistDone ce sigMatch stateOk patterns s = .next t) : Same 264121 s t := by
  have hm : covers 264121 264121 := rfl
  have h264121 : covers 264121 264121 := hm.le rfl
  unfold execSpareBistDone at hz
  obtain rfl := Host.Outcome.next.inj hz
  clear hz
  have hz := Same.refl 264121 s
  repeat' first
    | with_reducible assumption | with_reducible apply bistDone_same h264121 | with_reducible apply Same.ite
    | with_reducible apply Same.iteFst | with_reducible intro _ _ _ | split | dsimp only

theorem execCrossbarTransfer_same {src dst : Fin 14} {planeB : Bool} {attempts : List (List Byte × BitVec 16)}
    {s : State} {t : State} (hz : execCrossbarTransfer src dst planeB attempts s = .next t) : Same 962 s t := by
  have hm : covers 962 962 := rfl
  have h962 : covers 962 962 := hm.le rfl
  unfold execCrossbarTransfer at hz
  obtain rfl := Host.Outcome.next.inj hz
  clear hz
  have hz := Same.refl 962 s
  repeat' first
    | with_reducible assumption | with_reducible apply crossbar_same h962 | with_reducible apply Same.ite
    | with_reducible apply Same.iteFst | with_reducible intro _ _ _ | split | dsimp only

theorem execCurrentReference_same {iref : Word} {leg tag : Byte} {_epoch : BitVec 16} {s : State} {t : State}
    (hz : execCurrentReference iref leg tag _epoch s = .next t) : Same 652 s t := by
  have hm : covers 652 652 := rfl
  have h652 : covers 652 652 := hm.le rfl
  unfold execCurrentReference at hz
  obtain rfl := Host.Outcome.next.inj hz
  clear hz
  have hz := Same.refl 652 s
  repeat' first
    | with_reducible assumption | with_reducible apply currentRef_same h652 | with_reducible apply Same.ite
    | with_reducible apply Same.iteFst | with_reducible intro _ _ _ | split | dsimp only

end Sys2Proof.Safety
end

