-- ==== Sys2Proof/Laws/SameCalibration.lean ====
section
/-! SUPPORT. The parts of the state that the operations of Machine/Calibration.lean leave alone. -/
namespace Sys2Proof.Safety

open Sys2Proof.Machine

set_option simprocs false

theorem discardCal_same {pm : Nat} {z : State} {s : State} (hm : covers pm 17024) (hz : Same pm z s) :
    Same pm z (discardCal s) := by
  have h640 : covers pm 640 := hm.le rfl
  have b14 : pm.testBit 14 = true := hm.bit rfl
  unfold discardCal
  repeat' first
    | with_reducible assumption | (with_reducible apply Same.foldl; rotate_left; intro _ _ _)
    | with_reducible apply queueEvent_same h640 | with_reducible apply Same.ite | split | dsimp only
    | with_reducible
      refine Same.upd ?_ (.inr rfl) (.inr rfl) (.inr rfl) (.inr rfl) (.inr rfl) (.inr rfl) (.inr rfl) (.inr rfl)
        (.inr rfl) (.inr rfl) (.inr rfl) (.inr rfl) (.inr rfl) (.inr rfl) (.inl b14) (.inr rfl) (.inr rfl) (.inr rfl)
        (.inr rfl) (.inr rfl) (.inr rfl) (.inr rfl)

theorem enterHold_same {pm : Nat} {z : State} {s : State} {cause : Nat} (hm : covers pm 17024) (hz : Same pm z s) :
    Same pm z (enterHold s cause) := by
  have h640 : covers pm 640 := hm.le rfl
  have h17024 : covers pm 17024 := hm.le rfl
  have b14 : pm.testBit 14 = true := hm.bit rfl
  unfold enterHold
  repeat' first
    | with_reducible assumption | with_reducible apply queueEvent_same h640
    | with_reducible apply discardCal_same h17024 | with_reducible apply Same.ite | split | dsimp only
    | with_reducible
      refine Same.upd ?_ (.inr rfl) (.inr rfl) (.inr rfl) (.inr rfl) (.inr rfl) (.inr rfl) (.inr rfl) (.inr rfl)
        (.inr rfl) (.inr rfl) (.inr rfl) (.inr rfl) (.inr rfl) (.inr rfl) (.inl b14) (.inr rfl) (.inr rfl) (.inr rfl)
        (.inr rfl) (.inr rfl) (.inr rfl) (.inr rfl)

theorem leaveHold_same {pm : Nat} {z : State} {s : State} (hm : covers pm 17024) (hz : Same pm z s) :
    Same pm z (leaveHold s) := by
  have h640 : covers pm 640 := hm.le rfl
  have b14 : pm.testBit 14 = true := hm.bit rfl
  unfold leaveHold
  repeat' first
    | with_reducible assumption | with_reducible apply queueEvent_same h640 | with_reducible apply Same.ite | split
    | dsimp only
    | with_reducible
      refine Same.upd ?_ (.inr rfl) (.inr rfl) (.inr rfl) (.inr rfl) (.inr rfl) (.inr rfl) (.inr rfl) (.inr rfl)
        (.inr rfl) (.inr rfl) (.inr rfl) (.inr rfl) (.inr rfl) (.inr rfl) (.inl b14) (.inr rfl) (.inr rfl) (.inr rfl)
        (.inr rfl) (.inr rfl) (.inr rfl) (.inr rfl)

theorem holdExpired_same {pm : Nat} {z : State} {lateNs : Nat} {reading : Int} {s : State} (hm : covers pm 17024)
    (hz : Same pm z s) :
    Same pm z (holdExpired lateNs reading s) := by
  have h640 : covers pm 640 := hm.le rfl
  have b14 : pm.testBit 14 = true := hm.bit rfl
  unfold holdExpired
  repeat' first
    | with_reducible assumption | with_reducible apply queueEvent_same h640 | with_reducible apply Same.ite | split
    | dsimp only
    | with_reducible
      refine Same.upd ?_ (.inr rfl) (.inr rfl) (.inr rfl) (.inr rfl) (.inr rfl) (.inr rfl) (.inr rfl) (.inr rfl)
        (.inr rfl) (.inr rfl) (.inr rfl) (.inr rfl) (.inr rfl) (.inr rfl) (.inl b14) (.inr rfl) (.inr rfl) (.inr rfl)
        (.inr rfl) (.inr rfl) (.inr rfl) (.inr rfl)

theorem excludeRef_same {pm : Nat} {z : State} {s : State} {r : Fin 3} {dev : Int} (hm : covers pm 17024)
    (hz : Same pm z s) :
    Same pm z (excludeRef s r dev) := by
  have h640 : covers pm 640 := hm.le rfl
  have h17024 : covers pm 17024 := hm.le rfl
  have b14 : pm.testBit 14 = true := hm.bit rfl
  unfold excludeRef
  repeat' first
    | with_reducible assumption | with_reducible apply queueEvent_same h640
    | with_reducible apply discardCal_same h17024 | with_reducible apply Same.ite | split | dsimp only
    | with_reducible
      refine Same.upd ?_ (.inr rfl) (.inr rfl) (.inr rfl) (.inr rfl) (.inr rfl) (.inr rfl) (.inr rfl) (.inr rfl)
        (.inr rfl) (.inr rfl) (.inr rfl) (.inr rfl) (.inr rfl) (.inr rfl) (.inl b14) (.inr rfl) (.inr rfl) (.inr rfl)
        (.inr rfl) (.inr rfl) (.inr rfl) (.inr rfl)

theorem voteHold_same {pm : Nat} {z : State} {s : State} {cause code : Nat} {payload : List Byte}
    (hm : covers pm 17024) (hz : Same pm z s) :
    Same pm z (voteHold s cause code payload) := by
  have h640 : covers pm 640 := hm.le rfl
  have h17024 : covers pm 17024 := hm.le rfl
  have b14 : pm.testBit 14 = true := hm.bit rfl
  unfold voteHold
  repeat' first
    | with_reducible assumption | with_reducible apply queueEvent_same h640
    | with_reducible apply enterHold_same h17024 | with_reducible apply Same.ite | split | dsimp only
    | with_reducible
      refine Same.upd ?_ (.inr rfl) (.inr rfl) (.inr rfl) (.inr rfl) (.inr rfl) (.inr rfl) (.inr rfl) (.inr rfl)
        (.inr rfl) (.inr rfl) (.inr rfl) (.inr rfl) (.inr rfl) (.inr rfl) (.inl b14) (.inr rfl) (.inr rfl) (.inr rfl)
        (.inr rfl) (.inr rfl) (.inr rfl) (.inr rfl)

theorem refCheck_same {pm : Nat} {z : State} {s : State} {ab xRaw : Int} (hm : covers pm 17024) (hz : Same pm z s) :
    Same pm z (refCheck s ab xRaw) := by
  have h17024 : covers pm 17024 := hm.le rfl
  have b14 : pm.testBit 14 = true := hm.bit rfl
  unfold refCheck
  repeat' first
    | with_reducible assumption | with_reducible apply leaveHold_same h17024
    | with_reducible apply excludeRef_same h17024 | with_reducible apply voteHold_same h17024
    | with_reducible apply Same.ite | split | dsimp only
    | with_reducible
      refine Same.upd ?_ (.inr rfl) (.inr rfl) (.inr rfl) (.inr rfl) (.inr rfl) (.inr rfl) (.inr rfl) (.inr rfl)
        (.inr rfl) (.inr rfl) (.inr rfl) (.inr rfl) (.inr rfl) (.inr rfl) (.inl b14) (.inr rfl) (.inr rfl) (.inr rfl)
        (.inr rfl) (.inr rfl) (.inr rfl) (.inr rfl)

theorem refMonitor_same {pm : Nat} {z : State} {a b x : Int} {s : State} (hm : covers pm 17024) (hz : Same pm z s) :
    Same pm z (refMonitor a b x s) := by
  have h17024 : covers pm 17024 := hm.le rfl
  unfold refMonitor
  repeat' first
    | with_reducible assumption | with_reducible apply excludeRef_same h17024 | with_reducible apply Same.ite | split
    | dsimp only

theorem setCoef_same {pm : Nat} {z : State} {s : State} {u : Fin 36} {row : Vector Coef 4} (hm : covers pm 16384)
    (hz : Same pm z s) :
    Same pm z (setCoef s u row) := by
  have b14 : pm.testBit 14 = true := hm.bit rfl
  unfold setCoef
  repeat' first
    | with_reducible assumption | split | dsimp only
    | with_reducible
      refine Same.upd ?_ (.inr rfl) (.inr rfl) (.inr rfl) (.inr rfl) (.inr rfl) (.inr rfl) (.inr rfl) (.inr rfl)
        (.inr rfl) (.inr rfl) (.inr rfl) (.inr rfl) (.inr rfl) (.inr rfl) (.inl b14) (.inr rfl) (.inr rfl) (.inr rfl)
        (.inr rfl) (.inr rfl) (.inr rfl) (.inr rfl)

theorem checkSpares_same {pm : Nat} {z : State} {s : State} (hm : covers pm 17024) (hz : Same pm z s) :
    Same pm z (checkSpares s) := by
  have h640 : covers pm 640 := hm.le rfl
  have h17024 : covers pm 17024 := hm.le rfl
  unfold checkSpares
  repeat' first
    | with_reducible assumption | with_reducible apply queueEvent_same h640
    | with_reducible apply enterHold_same h17024 | with_reducible apply Same.ite | split | dsimp only

theorem tellRetired_same {pm : Nat} {z : State} {s : State} {j : Fin 4} {cause : Nat} (hm : covers pm 18048)
    (hz : Same pm z s) :
    Same pm z (tellRetired s j cause) := by
  have h640 : covers pm 640 := hm.le rfl
  have h17024 : covers pm 17024 := hm.le rfl
  have b10 : pm.testBit 10 = true := hm.bit rfl
  unfold tellRetired
  repeat' first
    | with_reducible assumption | with_reducible apply queueEvent_same h640
    | with_reducible apply checkSpares_same h17024 | split | dsimp only
    | with_reducible
      refine Same.upd ?_ (.inr rfl) (.inr rfl) (.inr rfl) (.inr rfl) (.inr rfl) (.inr rfl) (.inr rfl) (.inr rfl)
        (.inr rfl) (.inr rfl) (.inl b10) (.inr rfl) (.inr rfl) (.inr rfl) (.inr rfl) (.inr rfl) (.inr rfl) (.inr rfl)
        (.inr rfl) (.inr rfl) (.inr rfl) (.inr rfl)

theorem setWork_same {pm : Nat} {z : State} {s : State} {j : Fin 4} {w : Option LaneWork} (hm : covers pm 16384)
    (hz : Same pm z s) :
    Same pm z (setWork s j w) := by
  have b14 : pm.testBit 14 = true := hm.bit rfl
  unfold setWork
  repeat' first
    | with_reducible assumption | split | dsimp only
    | with_reducible
      refine Same.upd ?_ (.inr rfl) (.inr rfl) (.inr rfl) (.inr rfl) (.inr rfl) (.inr rfl) (.inr rfl) (.inr rfl)
        (.inr rfl) (.inr rfl) (.inr rfl) (.inr rfl) (.inr rfl) (.inr rfl) (.inl b14) (.inr rfl) (.inr rfl) (.inr rfl)
        (.inr rfl) (.inr rfl) (.inr rfl) (.inr rfl)

theorem setLane_same {pm : Nat} {z : State} {s : State} {j : Fin 4} {l : Lane} (hm : covers pm 16384)
    (hz : Same pm z s) :
    Same pm z (setLane s j l) := by
  have b14 : pm.testBit 14 = true := hm.bit rfl
  unfold setLane
  repeat' first
    | with_reducible assumption | split | dsimp only
    | with_reducible
      refine Same.upd ?_ (.inr rfl) (.inr rfl) (.inr rfl) (.inr rfl) (.inr rfl) (.inr rfl) (.inr rfl) (.inr rfl)
        (.inr rfl) (.inr rfl) (.inr rfl) (.inr rfl) (.inr rfl) (.inr rfl) (.inl b14) (.inr rfl) (.inr rfl) (.inr rfl)
        (.inr rfl) (.inr rfl) (.inr rfl) (.inr rfl)

theorem retireLane_same {pm : Nat} {z : State} {s : State} {j : Fin 4} {cause : Nat} (hm : covers pm 18048)
    (hz : Same pm z s) :
    Same pm z (retireLane s j cause) := by
  have h16384 : covers pm 16384 := hm.le rfl
  have h18048 : covers pm 18048 := hm.le rfl
  unfold retireLane
  repeat' first
    | with_reducible assumption | with_reducible apply tellRetired_same h18048
    | with_reducible apply setWork_same h16384 | with_reducible apply setLane_same h16384 | split | dsimp only

theorem putAside_same {pm : Nat} {z : State} {s : State} {q : Fin 32} (hm : covers pm 16384) (hz : Same pm z s) :
    Same pm z (putAside s q) := by
  have b14 : pm.testBit 14 = true := hm.bit rfl
  unfold putAside
  repeat' first
    | with_reducible assumption | with_reducible apply Same.ite | split | dsimp only
    | with_reducible
      refine Same.upd ?_ (.inr rfl) (.inr rfl) (.inr rfl) (.inr rfl) (.inr rfl) (.inr rfl) (.inr rfl) (.inr rfl)
        (.inr rfl) (.inr rfl) (.inr rfl) (.inr rfl) (.inr rfl) (.inr rfl) (.inl b14) (.inr rfl) (.inr rfl) (.inr rfl)
        (.inr rfl) (.inr rfl) (.inr rfl) (.inr rfl)

theorem takePosition_same {pm : Nat} {z : State} {n : Nat} {s : State} (hm : covers pm 16384) (hz : Same pm z s) :
    Same pm z (takePosition n s).2 := by
  have b14 : pm.testBit 14 = true := hm.bit rfl
  have hu : ∀ {u : State} (x : Meas), Same pm z u → Same pm z { u with meas := x } := fun x hu =>
    Same.upd hu (.inr rfl) (.inr rfl) (.inr rfl) (.inr rfl) (.inr rfl) (.inr rfl) (.inr rfl) (.inr rfl) (.inr rfl) (.inr rfl)
      (.inr rfl) (.inr rfl) (.inr rfl) (.inr rfl) (.inl b14) (.inr rfl) (.inr rfl) (.inr rfl) (.inr rfl) (.inr rfl)
      (.inr rfl) (.inr rfl)
  induction n generalizing s with
  | zero => exact hz
  | succ n ih =>
    unfold takePosition
    split
    · exact hu _ hz
    · dsimp only
      split
      · exact ih (hu _ hz)
      · split
        · exact ih (putAside_same (hm.le rfl) (hu _ hz))
        · exact hu _ hz

theorem startTry_same {pm : Nat} {z : State} {s : State} {j : Fin 4} {tries : List LaneSlot} (hm : covers pm 18048)
    (hz : Same pm z s) :
    Same pm z (startTry s j tries) := by
  have h16384 : covers pm 16384 := hm.le rfl
  have h18048 : covers pm 18048 := hm.le rfl
  unfold startTry
  repeat' first
    | with_reducible assumption | with_reducible apply setCoef_same h16384 | with_reducible apply setWork_same h16384
    | with_reducible apply retireLane_same h18048 | with_reducible apply takePosition_same h16384 | split | dsimp only
    | with_reducible
      refine Same.upd ?_ (.inr rfl) (.inr rfl) (.inr rfl) (.inr rfl) (.inr rfl) (.inr rfl) (.inr rfl) (.inr rfl)
        (.inr rfl) (.inr rfl) (.inr rfl) (.inr rfl) (.inr rfl) (.inr rfl) (.inr rfl) (.inr rfl) (.inr rfl) (.inr rfl)
        (.inr rfl) (.inr rfl) (.inr rfl) (.inr rfl)

theorem startLane_same {pm : Nat} {z : State} {m : SlotMeas} {s : State} {j : Fin 4} (hm : covers pm 18048)
    (hz : Same pm z s) :
    Same pm z (startLane m s j) := by
  have h18048 : covers pm 18048 := hm.le rfl
  unfold startLane
  repeat' first
    | with_reducible assumption | with_reducible apply startTry_same h18048 | with_reducible apply Same.ite | split
    | dsimp only

theorem endRotation_same {pm : Nat} {z : State} {s : State} (hm : covers pm 16384) (hz : Same pm z s) :
    Same pm z (endRotation s) := by
  have b14 : pm.testBit 14 = true := hm.bit rfl
  unfold endRotation
  repeat' first
    | with_reducible assumption | split | dsimp only
    | with_reducible
      refine Same.upd ?_ (.inr rfl) (.inr rfl) (.inr rfl) (.inr rfl) (.inr rfl) (.inr rfl) (.inr rfl) (.inr rfl)
        (.inr rfl) (.inr rfl) (.inr rfl) (.inr rfl) (.inr rfl) (.inr rfl) (.inl b14) (.inr rfl) (.inr rfl) (.inr rfl)
        (.inr rfl) (.inr rfl) (.inr rfl) (.inr rfl)

theorem slotRefs_same {pm : Nat} {z : State} {m : SlotMeas} {s : State} (hm : covers pm 17024) (hz : Same pm z s) :
    Same pm z (slotRefs m s) := by
  have h17024 : covers pm 17024 := hm.le rfl
  unfold slotRefs
  repeat' first
    | with_reducible assumption | (with_reducible apply Same.foldl; rotate_left; intro _ _ _)
    | with_reducible apply refCheck_same h17024 | with_reducible apply Same.ite | split | dsimp only

theorem slotStart_same {pm : Nat} {z : State} {m : SlotMeas} {s : State} (hm : covers pm 280192) (hz : Same pm z s) :
    Same pm z (slotStart m s) := by
  have h16384 : covers pm 16384 := hm.le rfl
  have h17024 : covers pm 17024 := hm.le rfl
  have h18048 : covers pm 18048 := hm.le rfl
  have b14 : pm.testBit 14 = true := hm.bit rfl
  have b18 : pm.testBit 18 = true := hm.bit rfl
  unfold slotStart
  repeat' first
    | with_reducible assumption | (with_reducible apply Same.foldl; rotate_left; intro _ _ _)
    | with_reducible apply startLane_same h18048 | with_reducible apply endRotation_same h16384
    | with_reducible apply slotRefs_same h17024 | with_reducible apply Same.ite | split | dsimp only
    | with_reducible
      refine Same.upd ?_ (.inr rfl) (.inr rfl) (.inr rfl) (.inr rfl) (.inr rfl) (.inr rfl) (.inr rfl) (.inr rfl)
        (.inr rfl) (.inr rfl) (.inr rfl) (.inr rfl) (.inr rfl) (.inr rfl) (.inl b14) (.inr rfl) (.inr rfl) (.inr rfl)
        (.inl b18) (.inr rfl) (.inr rfl) (.inr rfl)

theorem execCalSlotStart_same {m : SlotMeas} {s : State} {t : State}
    (hz : execCalSlotStart m s = .next t) : Same 280192 s t := by
  have hm : covers 280192 280192 := rfl
  have h280192 : covers 280192 280192 := hm.le rfl
  unfold execCalSlotStart at hz
  obtain rfl := Host.Outcome.next.inj hz
  clear hz
  have hz := Same.refl 280192 s
  repeat' first
    | with_reducible assumption | with_reducible apply slotStart_same h280192 | with_reducible apply Same.ite
    | with_reducible apply Same.iteFst | with_reducible intro _ _ _ | split | dsimp only

theorem execRefMonitor_same {a b x : Int} {s : State} {t : State}
    (hz : execRefMonitor a b x s = .next t) : Same 17024 s t := by
  have hm : covers 17024 17024 := rfl
  have h17024 : covers 17024 17024 := hm.le rfl
  unfold execRefMonitor at hz
  obtain rfl := Host.Outcome.next.inj hz
  clear hz
  have hz := Same.refl 17024 s
  repeat' first
    | with_reducible assumption | with_reducible apply refMonitor_same h17024 | with_reducible apply Same.ite
    | with_reducible apply Same.iteFst | with_reducible intro _ _ _ | split | dsimp only

theorem execCalHoldExpired_same {lateNs : Nat} {reading : Int} {s : State} {t : State}
    (hz : execCalHoldExpired lateNs reading s = .next t) : Same 17024 s t := by
  have hm : covers 17024 17024 := rfl
  have h17024 : covers 17024 17024 := hm.le rfl
  unfold execCalHoldExpired at hz
  obtain rfl := Host.Outcome.next.inj hz
  clear hz
  have hz := Same.refl 17024 s
  repeat' first
    | with_reducible assumption | with_reducible apply holdExpired_same h17024 | with_reducible apply Same.ite
    | with_reducible apply Same.iteFst | with_reducible intro _ _ _ | split | dsimp only

end Sys2Proof.Safety
end

