-- ==== Sys2Proof/Laws/SameMeasurement.lean ====
section
/-! SUPPORT. The parts of the state that the operations of Machine/Measurement.lean leave alone. -/
namespace Sys2Proof.Safety

open Sys2Proof.Machine

set_option simprocs false

theorem endLoopCycle_same {pm : Nat} {z : State} {s : State} (hm : covers pm 279168) (hz : Same pm z s) :
    Same pm z (endLoopCycle s) := by
  have h640 : covers pm 640 := hm.le rfl
  have h262144 : covers pm 262144 := hm.le rfl
  have b14 : pm.testBit 14 = true := hm.bit rfl
  have b18 : pm.testBit 18 = true := hm.bit rfl
  unfold endLoopCycle
  repeat' first
    | with_reducible assumption | with_reducible apply recordTest_same h262144
    | with_reducible apply testDone_same h640 | with_reducible apply Same.ite | split | dsimp only
    | with_reducible
      refine Same.upd ?_ (.inr rfl) (.inr rfl) (.inr rfl) (.inr rfl) (.inr rfl) (.inr rfl) (.inr rfl) (.inr rfl)
        (.inr rfl) (.inr rfl) (.inr rfl) (.inr rfl) (.inr rfl) (.inr rfl) (.inl b14) (.inr rfl) (.inr rfl) (.inr rfl)
        (.inl b18) (.inr rfl) (.inr rfl) (.inr rfl)

theorem nextLoopLeg_same {pm : Nat} {z : State} {s : State} (hm : covers pm 279168) (hz : Same pm z s) :
    Same pm z (nextLoopLeg s) := by
  have h279168 : covers pm 279168 := hm.le rfl
  have b14 : pm.testBit 14 = true := hm.bit rfl
  unfold nextLoopLeg
  repeat' first
    | with_reducible assumption | with_reducible apply endLoopCycle_same h279168 | with_reducible apply Same.ite
    | split | dsimp only
    | with_reducible
      refine Same.upd ?_ (.inr rfl) (.inr rfl) (.inr rfl) (.inr rfl) (.inr rfl) (.inr rfl) (.inr rfl) (.inr rfl)
        (.inr rfl) (.inr rfl) (.inr rfl) (.inr rfl) (.inr rfl) (.inr rfl) (.inl b14) (.inr rfl) (.inr rfl) (.inr rfl)
        (.inr rfl) (.inr rfl) (.inr rfl) (.inr rfl)

theorem takeLoopSlot_same {pm : Nat} {z : State} {s : State} (hm : covers pm 16384) (hz : Same pm z s) :
    Same pm z (takeLoopSlot s) := by
  have b14 : pm.testBit 14 = true := hm.bit rfl
  unfold takeLoopSlot
  repeat' first
    | with_reducible assumption | split | dsimp only
    | with_reducible
      refine Same.upd ?_ (.inr rfl) (.inr rfl) (.inr rfl) (.inr rfl) (.inr rfl) (.inr rfl) (.inr rfl) (.inr rfl)
        (.inr rfl) (.inr rfl) (.inr rfl) (.inr rfl) (.inr rfl) (.inr rfl) (.inl b14) (.inr rfl) (.inr rfl) (.inr rfl)
        (.inr rfl) (.inr rfl) (.inr rfl) (.inr rfl)

theorem loopback_same {pm : Nat} {z : State} {plus minus : Int} {s : State} (hm : covers pm 279502) (hz : Same pm z s) :
    Same pm z (loopback plus minus s) := by
  have h4 : covers pm 4 := hm.le rfl
  have h974 : covers pm 974 := hm.le rfl
  have h16384 : covers pm 16384 := hm.le rfl
  have h279168 : covers pm 279168 := hm.le rfl
  have b14 : pm.testBit 14 = true := hm.bit rfl
  have b18 : pm.testBit 18 = true := hm.bit rfl
  unfold loopback
  repeat' first
    | with_reducible assumption | with_reducible apply updLeg_same h4 | with_reducible apply legConvFault_same h974
    | with_reducible apply nextLoopLeg_same h279168 | with_reducible apply takeLoopSlot_same h16384
    | with_reducible apply Same.ite | split | dsimp only
    | with_reducible
      refine Same.upd ?_ (.inr rfl) (.inr rfl) (.inr rfl) (.inr rfl) (.inr rfl) (.inr rfl) (.inr rfl) (.inr rfl)
        (.inr rfl) (.inr rfl) (.inr rfl) (.inr rfl) (.inr rfl) (.inr rfl) (.inl b14) (.inr rfl) (.inr rfl) (.inr rfl)
        (.inl b18) (.inr rfl) (.inr rfl) (.inr rfl)

theorem legOffset_same {pm : Nat} {z : State} {l : Fin 32} {offset : Int} {s : State} (hm : covers pm 4)
    (hz : Same pm z s) :
    Same pm z (legOffset l offset s) := by
  have h4 : covers pm 4 := hm.le rfl
  unfold legOffset
  repeat' first
    | with_reducible assumption | with_reducible apply updLeg_same h4 | with_reducible apply Same.ite | split
    | dsimp only
    | with_reducible
      refine Same.upd ?_ (.inr rfl) (.inr rfl) (.inr rfl) (.inr rfl) (.inr rfl) (.inr rfl) (.inr rfl) (.inr rfl)
        (.inr rfl) (.inr rfl) (.inr rfl) (.inr rfl) (.inr rfl) (.inr rfl) (.inr rfl) (.inr rfl) (.inr rfl) (.inr rfl)
        (.inr rfl) (.inr rfl) (.inr rfl) (.inr rfl)

theorem overRangeLink_same {pm : Nat} {z : State} {s : State} {conv : Nat} (hm : covers pm 641) (hz : Same pm z s) :
    Same pm z (overRangeLink s conv) := by
  have h1 : covers pm 1 := hm.le rfl
  have h640 : covers pm 640 := hm.le rfl
  unfold overRangeLink
  repeat' first
    | with_reducible assumption | with_reducible apply queueRated_same h640 | with_reducible apply drawFree_same h1
    | split | dsimp only

theorem pulseDone_same {pm : Nat} {z : State} {c : Fin 16} {raw : PulseMeas} {s : State} (hm : covers pm 322)
    (hz : Same pm z s) :
    Same pm z (pulseDone c raw s) := by
  have h2 : covers pm 2 := hm.le rfl
  have h66 : covers pm 66 := hm.le rfl
  have h256 : covers pm 256 := hm.le rfl
  unfold pulseDone
  repeat' first
    | with_reducible assumption | with_reducible apply updCh_same h2 | with_reducible apply updProg_same h2
    | with_reducible apply reply_same h256 | with_reducible apply formRecord_same h66 | with_reducible apply Same.ite
    | split | dsimp only
    | with_reducible
      refine Same.upd ?_ (.inr rfl) (.inr rfl) (.inr rfl) (.inr rfl) (.inr rfl) (.inr rfl) (.inr rfl) (.inr rfl)
        (.inr rfl) (.inr rfl) (.inr rfl) (.inr rfl) (.inr rfl) (.inr rfl) (.inr rfl) (.inr rfl) (.inr rfl) (.inr rfl)
        (.inr rfl) (.inr rfl) (.inr rfl) (.inr rfl)

theorem impedance_same {pm : Nat} {z : State} {s : State} {c : Fin 16} {m n : Nat} {e : EisMeas} (hm : covers pm 1)
    (hz : Same pm z s) :
    Same pm z (impedance s c m n e).2 := by
  have h1 : covers pm 1 := hm.le rfl
  unfold impedance
  repeat' first
    | with_reducible assumption | with_reducible apply drawFree_same h1 | with_reducible apply Same.ite
    | with_reducible apply Same.iteSnd | split | dsimp only

theorem eisReport_same {pm : Nat} {z : State} {c : Fin 16} {m n : Nat} {e : EisMeas} {s : State} (hm : covers pm 323)
    (hz : Same pm z s) :
    Same pm z (eisReport c m n e s) := by
  have h1 : covers pm 1 := hm.le rfl
  have h2 : covers pm 2 := hm.le rfl
  have h66 : covers pm 66 := hm.le rfl
  have h256 : covers pm 256 := hm.le rfl
  unfold eisReport
  repeat' first
    | with_reducible assumption | with_reducible apply updCh_same h2 | with_reducible apply updProg_same h2
    | with_reducible apply reply_same h256 | with_reducible apply drawFree_same h1
    | with_reducible apply formRecord_same h66 | with_reducible apply decideEnd_same h2
    | with_reducible apply impedance_same h1 | with_reducible apply Same.ite | split | dsimp only
    | with_reducible
      refine Same.upd ?_ (.inr rfl) (.inr rfl) (.inr rfl) (.inr rfl) (.inr rfl) (.inr rfl) (.inr rfl) (.inr rfl)
        (.inr rfl) (.inr rfl) (.inr rfl) (.inr rfl) (.inr rfl) (.inr rfl) (.inr rfl) (.inr rfl) (.inr rfl) (.inr rfl)
        (.inr rfl) (.inr rfl) (.inr rfl) (.inr rfl)

theorem eisDone_same {pm : Nat} {z : State} {c : Fin 16} {raw : EisMeas} {s : State} (hm : covers pm 323)
    (hz : Same pm z s) :
    Same pm z (eisDone c raw s) := by
  have h323 : covers pm 323 := hm.le rfl
  unfold eisDone
  repeat' first
    | with_reducible assumption | with_reducible apply eisReport_same h323 | with_reducible apply Same.ite | split
    | dsimp only
    | with_reducible
      refine Same.upd ?_ (.inr rfl) (.inr rfl) (.inr rfl) (.inr rfl) (.inr rfl) (.inr rfl) (.inr rfl) (.inr rfl)
        (.inr rfl) (.inr rfl) (.inr rfl) (.inr rfl) (.inr rfl) (.inr rfl) (.inr rfl) (.inr rfl) (.inr rfl) (.inr rfl)
        (.inr rfl) (.inr rfl) (.inr rfl) (.inr rfl)

theorem measPulseBody_same {pm : Nat} {z : State} {b : Byte} {i1 dur : Word} {r : Request} {s : State}
    (hm : covers pm 32) (hz : Same pm z s) :
    Same pm z (measPulseBody b i1 dur r s).1 := by
  have h32 : covers pm 32 := hm.le rfl
  unfold measPulseBody
  repeat' first
    | with_reducible assumption | with_reducible apply stage_same h32 | with_reducible apply Same.ite
    | with_reducible apply Same.iteFst | split | dsimp only
    | with_reducible
      refine Same.upd ?_ (.inr rfl) (.inr rfl) (.inr rfl) (.inr rfl) (.inr rfl) (.inr rfl) (.inr rfl) (.inr rfl)
        (.inr rfl) (.inr rfl) (.inr rfl) (.inr rfl) (.inr rfl) (.inr rfl) (.inr rfl) (.inr rfl) (.inr rfl) (.inr rfl)
        (.inr rfl) (.inr rfl) (.inr rfl) (.inr rfl)

theorem measEisBody_same {pm : Nat} {z : State} {b m : Byte} {freq amp : Word} {r : Request} {s : State}
    (hm : covers pm 2) (hz : Same pm z s) :
    Same pm z (measEisBody b m freq amp r s).1 := by
  have h2 : covers pm 2 := hm.le rfl
  unfold measEisBody
  repeat' first
    | with_reducible assumption | with_reducible apply updCh_same h2 | with_reducible apply Same.ite
    | with_reducible apply Same.iteFst | split | dsimp only
    | with_reducible
      refine Same.upd ?_ (.inr rfl) (.inr rfl) (.inr rfl) (.inr rfl) (.inr rfl) (.inr rfl) (.inr rfl) (.inr rfl)
        (.inr rfl) (.inr rfl) (.inr rfl) (.inr rfl) (.inr rfl) (.inr rfl) (.inr rfl) (.inr rfl) (.inr rfl) (.inr rfl)
        (.inr rfl) (.inr rfl) (.inr rfl) (.inr rfl)

theorem calRotationBody_same {pm : Nat} {z : State} {s : State} (_hm : covers pm 0) (hz : Same pm z s) :
    Same pm z (calRotationBody s).1 := by
  unfold calRotationBody
  repeat' first
    | with_reducible assumption | with_reducible apply Same.ite | with_reducible apply Same.iteFst | split
    | dsimp only

theorem calTrimBody_same {pm : Nat} {z : State} {kind limit : Nat} {arg : Byte} {value : Word} {r : Request}
    {s : State} (hm : covers pm 262144) (hz : Same pm z s) :
    Same pm z (calTrimBody kind limit arg value r s).1 := by
  have b18 : pm.testBit 18 = true := hm.bit rfl
  unfold calTrimBody
  repeat' first
    | with_reducible assumption | with_reducible apply Same.ite | with_reducible apply Same.iteFst | split
    | dsimp only
    | with_reducible
      refine Same.upd ?_ (.inr rfl) (.inr rfl) (.inr rfl) (.inr rfl) (.inr rfl) (.inr rfl) (.inr rfl) (.inr rfl)
        (.inr rfl) (.inr rfl) (.inr rfl) (.inr rfl) (.inr rfl) (.inr rfl) (.inr rfl) (.inr rfl) (.inr rfl) (.inr rfl)
        (.inl b18) (.inr rfl) (.inr rfl) (.inr rfl)

theorem calTrimEnd_same {pm : Nat} {z : State} {ok : Bool} {deviation : Int} {s : State} (hm : covers pm 264065)
    (hz : Same pm z s) :
    Same pm z (calTrimEnd ok deviation s) := by
  have h1 : covers pm 1 := hm.le rfl
  have h641 : covers pm 641 := hm.le rfl
  have h262400 : covers pm 262400 := hm.le rfl
  have b10 : pm.testBit 10 = true := hm.bit rfl
  have b18 : pm.testBit 18 = true := hm.bit rfl
  unfold calTrimEnd
  repeat' first
    | with_reducible assumption | with_reducible apply replyOp_same h262400 | with_reducible apply drawFree_same h1
    | with_reducible apply nvmFail_same h641 | with_reducible apply Same.ite | split | dsimp only
    | with_reducible
      refine Same.upd ?_ (.inr rfl) (.inr rfl) (.inr rfl) (.inr rfl) (.inr rfl) (.inr rfl) (.inr rfl) (.inr rfl)
        (.inr rfl) (.inr rfl) (.inl b10) (.inr rfl) (.inr rfl) (.inr rfl) (.inr rfl) (.inr rfl) (.inr rfl) (.inr rfl)
        (.inl b18) (.inr rfl) (.inr rfl) (.inr rfl)

theorem execLoopbackCheck_same {plus minus : Int} {s : State} {t : State}
    (hz : execLoopbackCheck plus minus s = .next t) : Same 279502 s t := by
  have hm : covers 279502 279502 := rfl
  have h279502 : covers 279502 279502 := hm.le rfl
  unfold execLoopbackCheck at hz
  obtain rfl := Host.Outcome.next.inj hz
  clear hz
  have hz := Same.refl 279502 s
  repeat' first
    | with_reducible assumption | with_reducible apply loopback_same h279502 | with_reducible apply Same.ite
    | with_reducible apply Same.iteFst | with_reducible intro _ _ _ | split | dsimp only

theorem execLegOffsetMeasure_same {leg : Fin 32} {offset : Int} {s : State} {t : State}
    (hz : execLegOffsetMeasure leg offset s = .next t) : Same 4 s t := by
  have hm : covers 4 4 := rfl
  have h4 : covers 4 4 := hm.le rfl
  unfold execLegOffsetMeasure at hz
  obtain rfl := Host.Outcome.next.inj hz
  clear hz
  have hz := Same.refl 4 s
  repeat' first
    | with_reducible assumption | with_reducible apply legOffset_same h4 | with_reducible apply Same.ite
    | with_reducible apply Same.iteFst | with_reducible intro _ _ _ | split | dsimp only

theorem execPulseEvalDone_same {ch : Fin 16} {m : PulseMeas} {s : State} {t : State}
    (hz : execPulseEvalDone ch m s = .next t) : Same 322 s t := by
  have hm : covers 322 322 := rfl
  have h322 : covers 322 322 := hm.le rfl
  unfold execPulseEvalDone at hz
  obtain rfl := Host.Outcome.next.inj hz
  clear hz
  have hz := Same.refl 322 s
  repeat' first
    | with_reducible assumption | with_reducible apply pulseDone_same h322 | with_reducible apply Same.ite
    | with_reducible apply Same.iteFst | with_reducible intro _ _ _ | split | dsimp only

theorem execEisPointDone_same {ch : Fin 16} {m : EisMeas} {s : State} {t : State}
    (hz : execEisPointDone ch m s = .next t) : Same 323 s t := by
  have hm : covers 323 323 := rfl
  have h323 : covers 323 323 := hm.le rfl
  unfold execEisPointDone at hz
  obtain rfl := Host.Outcome.next.inj hz
  clear hz
  have hz := Same.refl 323 s
  repeat' first
    | with_reducible assumption | with_reducible apply eisDone_same h323 | with_reducible apply Same.ite
    | with_reducible apply Same.iteFst | with_reducible intro _ _ _ | split | dsimp only

theorem execMeasPulse_same {ch : Byte} {i1 dur : Word} {s : State} {t : State}
    (hz : execMeasPulse ch i1 dur s = .next t) : Same 288 s t := by
  have hm : covers 288 288 := rfl
  have h32 : covers 288 32 := hm.le rfl
  have h256 : covers 288 256 := hm.le rfl
  unfold execMeasPulse at hz
  obtain rfl := Host.Outcome.next.inj hz
  clear hz
  have hz := Same.refl 288 s
  repeat' first
    | with_reducible assumption | with_reducible apply hostCommand_same h256
    | with_reducible apply measPulseBody_same h32 | with_reducible apply Same.ite | with_reducible apply Same.iteFst
    | with_reducible intro _ _ _ | split | dsimp only

theorem execMeasEis_same {ch m : Byte} {freq amp : Word} {s : State} {t : State}
    (hz : execMeasEis ch m freq amp s = .next t) : Same 258 s t := by
  have hm : covers 258 258 := rfl
  have h2 : covers 258 2 := hm.le rfl
  have h256 : covers 258 256 := hm.le rfl
  unfold execMeasEis at hz
  obtain rfl := Host.Outcome.next.inj hz
  clear hz
  have hz := Same.refl 258 s
  repeat' first
    | with_reducible assumption | with_reducible apply hostCommand_same h256
    | with_reducible apply measEisBody_same h2 | with_reducible apply Same.ite | with_reducible apply Same.iteFst
    | with_reducible intro _ _ _ | split | dsimp only

theorem execCalRequestRotation_same {s : State} {t : State}
    (hz : execCalRequestRotation s = .next t) : Same 256 s t := by
  have hm : covers 256 256 := rfl
  have h0 : covers 256 0 := hm.le rfl
  have h256 : covers 256 256 := hm.le rfl
  unfold execCalRequestRotation at hz
  obtain rfl := Host.Outcome.next.inj hz
  clear hz
  have hz := Same.refl 256 s
  repeat' first
    | with_reducible assumption | with_reducible apply hostCommand_same h256
    | with_reducible apply calRotationBody_same h0 | with_reducible apply Same.ite | with_reducible apply Same.iteFst
    | with_reducible intro _ _ _ | split | dsimp only

theorem execCalRequestRefTrim_same {arg : Byte} {value : Word} {s : State} {t : State}
    (hz : execCalRequestRefTrim arg value s = .next t) : Same 262400 s t := by
  have hm : covers 262400 262400 := rfl
  have h256 : covers 262400 256 := hm.le rfl
  have h262144 : covers 262400 262144 := hm.le rfl
  unfold execCalRequestRefTrim at hz
  obtain rfl := Host.Outcome.next.inj hz
  clear hz
  have hz := Same.refl 262400 s
  repeat' first
    | with_reducible assumption | with_reducible apply hostCommand_same h256
    | with_reducible apply calTrimBody_same h262144 | with_reducible apply Same.ite | with_reducible apply Same.iteFst
    | with_reducible intro _ _ _ | split | dsimp only

theorem execCalRequestFactory_same {arg : Byte} {value : Word} {s : State} {t : State}
    (hz : execCalRequestFactory arg value s = .next t) : Same 262400 s t := by
  have hm : covers 262400 262400 := rfl
  have h256 : covers 262400 256 := hm.le rfl
  have h262144 : covers 262400 262144 := hm.le rfl
  unfold execCalRequestFactory at hz
  obtain rfl := Host.Outcome.next.inj hz
  clear hz
  have hz := Same.refl 262400 s
  repeat' first
    | with_reducible assumption | with_reducible apply hostCommand_same h256
    | with_reducible apply calTrimBody_same h262144 | with_reducible apply Same.ite | with_reducible apply Same.iteFst
    | with_reducible intro _ _ _ | split | dsimp only

theorem execCalTrimDone_same {ok : Bool} {deviation : Int} {s : State} {t : State}
    (hz : execCalTrimDone ok deviation s = .next t) : Same 264065 s t := by
  have hm : covers 264065 264065 := rfl
  have h264065 : covers 264065 264065 := hm.le rfl
  unfold execCalTrimDone at hz
  obtain rfl := Host.Outcome.next.inj hz
  clear hz
  have hz := Same.refl 264065 s
  repeat' first
    | with_reducible assumption | with_reducible apply calTrimEnd_same h264065 | with_reducible apply Same.ite
    | with_reducible apply Same.iteFst | with_reducible intro _ _ _ | split | dsimp only

end Sys2Proof.Safety
end

