-- ==== Sys2Proof/Laws/SameFormation.lean ====
section
/-! SUPPORT. The parts of the state that the operations of Machine/Formation.lean leave alone. -/
namespace Sys2Proof.Safety

open Sys2Proof.Machine

set_option simprocs false

theorem flagFalls_same {pm : Nat} {z : State} {c : Fin 16} {s : State} (hm : covers pm 2) (hz : Same pm z s) :
    Same pm z (flagFalls c s) := by
  have h2 : covers pm 2 := hm.le rfl
  unfold flagFalls
  repeat' first
    | with_reducible assumption | with_reducible apply decideEnd_same h2 | with_reducible apply Same.ite | split
    | dsimp only

theorem chargeCaps_same {pm : Nat} {z : State} {c : Fin 16} {s : State} (hm : covers pm 2) (hz : Same pm z s) :
    Same pm z (chargeCaps c s) := by
  have h2 : covers pm 2 := hm.le rfl
  unfold chargeCaps
  repeat' first
    | with_reducible assumption | with_reducible apply decideEnd_same h2 | with_reducible apply Same.ite | split
    | dsimp only

theorem periodicRecord_same {pm : Nat} {z : State} {c : Fin 16} {s : State} (hm : covers pm 66) (hz : Same pm z s) :
    Same pm z (periodicRecord c s) := by
  have h2 : covers pm 2 := hm.le rfl
  have h66 : covers pm 66 := hm.le rfl
  unfold periodicRecord
  repeat' first
    | with_reducible assumption | with_reducible apply updProg_same h2 | with_reducible apply formRecordAt_same h66
    | with_reducible apply Same.ite | split | dsimp only
    | with_reducible
      refine Same.upd ?_ (.inr rfl) (.inr rfl) (.inr rfl) (.inr rfl) (.inr rfl) (.inr rfl) (.inr rfl) (.inr rfl)
        (.inr rfl) (.inr rfl) (.inr rfl) (.inr rfl) (.inr rfl) (.inr rfl) (.inr rfl) (.inr rfl) (.inr rfl) (.inr rfl)
        (.inr rfl) (.inr rfl) (.inr rfl) (.inr rfl)

theorem orFree_same {pm : Nat} {z : State} {x : Option Int} {s : State} (hm : covers pm 1) (hz : Same pm z s) :
    Same pm z (orFree x s).2 := by
  have h1 : covers pm 1 := hm.le rfl
  unfold orFree
  repeat' first
    | with_reducible assumption | with_reducible apply drawFree_same h1 | split | dsimp only
    | with_reducible
      refine Same.upd ?_ (.inr rfl) (.inr rfl) (.inr rfl) (.inr rfl) (.inr rfl) (.inr rfl) (.inr rfl) (.inr rfl)
        (.inr rfl) (.inr rfl) (.inr rfl) (.inr rfl) (.inr rfl) (.inr rfl) (.inr rfl) (.inr rfl) (.inr rfl) (.inr rfl)
        (.inr rfl) (.inr rfl) (.inr rfl) (.inr rfl)

theorem ocvRecord_same {pm : Nat} {z : State} {c : Fin 16} {s : State} (hm : covers pm 67) (hz : Same pm z s) :
    Same pm z (ocvRecord c s) := by
  have h1 : covers pm 1 := hm.le rfl
  have h2 : covers pm 2 := hm.le rfl
  have h66 : covers pm 66 := hm.le rfl
  unfold ocvRecord
  repeat' first
    | with_reducible assumption | with_reducible apply updProg_same h2 | with_reducible apply formRecord_same h66
    | with_reducible apply orFree_same h1 | with_reducible apply Same.ite | split | dsimp only
    | with_reducible
      refine Same.upd ?_ (.inr rfl) (.inr rfl) (.inr rfl) (.inr rfl) (.inr rfl) (.inr rfl) (.inr rfl) (.inr rfl)
        (.inr rfl) (.inr rfl) (.inr rfl) (.inr rfl) (.inr rfl) (.inr rfl) (.inr rfl) (.inr rfl) (.inr rfl) (.inr rfl)
        (.inr rfl) (.inr rfl) (.inr rfl) (.inr rfl)

theorem reduceEnds_same {pm : Nat} {z : State} {c : Fin 16} {s : State} (hm : covers pm 642) (hz : Same pm z s) :
    Same pm z (reduceEnds c s) := by
  have h2 : covers pm 2 := hm.le rfl
  have h640 : covers pm 640 := hm.le rfl
  unfold reduceEnds
  repeat' first
    | with_reducible assumption | with_reducible apply updProg_same h2 | with_reducible apply queueEvent_same h640
    | with_reducible apply setStepTargets_same h2 | with_reducible apply Same.ite | split | dsimp only
    | with_reducible
      refine Same.upd ?_ (.inr rfl) (.inr rfl) (.inr rfl) (.inr rfl) (.inr rfl) (.inr rfl) (.inr rfl) (.inr rfl)
        (.inr rfl) (.inr rfl) (.inr rfl) (.inr rfl) (.inr rfl) (.inr rfl) (.inr rfl) (.inr rfl) (.inr rfl) (.inr rfl)
        (.inr rfl) (.inr rfl) (.inr rfl) (.inr rfl)

theorem reduceBegins_same {pm : Nat} {z : State} {s : State} {c : Fin 16} (hm : covers pm 642) (hz : Same pm z s) :
    Same pm z (reduceBegins s c) := by
  have h2 : covers pm 2 := hm.le rfl
  have h640 : covers pm 640 := hm.le rfl
  unfold reduceBegins
  repeat' first
    | with_reducible assumption | with_reducible apply updProg_same h2 | with_reducible apply queueEvent_same h640
    | with_reducible apply setStepTargets_same h2 | with_reducible apply Same.ite | split | dsimp only
    | with_reducible
      refine Same.upd ?_ (.inr rfl) (.inr rfl) (.inr rfl) (.inr rfl) (.inr rfl) (.inr rfl) (.inr rfl) (.inr rfl)
        (.inr rfl) (.inr rfl) (.inr rfl) (.inr rfl) (.inr rfl) (.inr rfl) (.inr rfl) (.inr rfl) (.inr rfl) (.inr rfl)
        (.inr rfl) (.inr rfl) (.inr rfl) (.inr rfl)

theorem tempwinEnds_same {pm : Nat} {z : State} {c : Fin 16} {s : State} (hm : covers pm 2) (hz : Same pm z s) :
    Same pm z (tempwinEnds c s) := by
  have h2 : covers pm 2 := hm.le rfl
  unfold tempwinEnds
  repeat' first
    | with_reducible assumption | with_reducible apply updProg_same h2 | with_reducible apply clearCauses_same h2
    | with_reducible apply Same.ite | split | dsimp only
    | with_reducible
      refine Same.upd ?_ (.inr rfl) (.inr rfl) (.inr rfl) (.inr rfl) (.inr rfl) (.inr rfl) (.inr rfl) (.inr rfl)
        (.inr rfl) (.inr rfl) (.inr rfl) (.inr rfl) (.inr rfl) (.inr rfl) (.inr rfl) (.inr rfl) (.inr rfl) (.inr rfl)
        (.inr rfl) (.inr rfl) (.inr rfl) (.inr rfl)

theorem tempRefresh_same {pm : Nat} {z : State} {s : State} {c : Fin 16} (hm : covers pm 642) (hz : Same pm z s) :
    Same pm z (tempRefresh s c) := by
  have h2 : covers pm 2 := hm.le rfl
  have h642 : covers pm 642 := hm.le rfl
  unfold tempRefresh
  repeat' first
    | with_reducible assumption | (with_reducible apply Same.foldl; rotate_left; intro _ _ _)
    | with_reducible apply updProg_same h2 | with_reducible apply decideEnd_same h2
    | with_reducible apply addCause_same h2 | with_reducible apply reduceBegins_same h642
    | with_reducible apply Same.ite | split | dsimp only
    | with_reducible
      refine Same.upd ?_ (.inr rfl) (.inr rfl) (.inr rfl) (.inr rfl) (.inr rfl) (.inr rfl) (.inr rfl) (.inr rfl)
        (.inr rfl) (.inr rfl) (.inr rfl) (.inr rfl) (.inr rfl) (.inr rfl) (.inr rfl) (.inr rfl) (.inr rfl) (.inr rfl)
        (.inr rfl) (.inr rfl) (.inr rfl) (.inr rfl)

theorem execFlagFall_same {ch : Fin 16} {s : State} {t : State} (hz : execFlagFall ch s = .next t) : Same 2 s t := by
  have hm : covers 2 2 := rfl
  have h2 : covers 2 2 := hm.le rfl
  unfold execFlagFall at hz
  obtain rfl := Host.Outcome.next.inj hz
  clear hz
  have hz := Same.refl 2 s
  repeat' first
    | with_reducible assumption | with_reducible apply flagFalls_same h2 | with_reducible apply Same.ite
    | with_reducible apply Same.iteFst | with_reducible intro _ _ _ | split | dsimp only

theorem execChargeCap_same {ch : Fin 16} {s : State} {t : State} (hz : execChargeCap ch s = .next t) : Same 2 s t := by
  have hm : covers 2 2 := rfl
  have h2 : covers 2 2 := hm.le rfl
  unfold execChargeCap at hz
  obtain rfl := Host.Outcome.next.inj hz
  clear hz
  have hz := Same.refl 2 s
  repeat' first
    | with_reducible assumption | with_reducible apply chargeCaps_same h2 | with_reducible apply Same.ite
    | with_reducible apply Same.iteFst | with_reducible intro _ _ _ | split | dsimp only

theorem execPeriodicRecord_same {ch : Fin 16} {s : State} {t : State}
    (hz : execPeriodicRecord ch s = .next t) : Same 66 s t := by
  have hm : covers 66 66 := rfl
  have h66 : covers 66 66 := hm.le rfl
  unfold execPeriodicRecord at hz
  obtain rfl := Host.Outcome.next.inj hz
  clear hz
  have hz := Same.refl 66 s
  repeat' first
    | with_reducible assumption | with_reducible apply periodicRecord_same h66 | with_reducible apply Same.ite
    | with_reducible apply Same.iteFst | with_reducible intro _ _ _ | split | dsimp only

theorem execOcvRecord_same {ch : Fin 16} {a b c : Unit} {s : State} {t : State} (hz : execOcvRecord ch a b c s = .next t) : Same 67 s t := by
  have hm : covers 67 67 := rfl
  have h67 : covers 67 67 := hm.le rfl
  unfold execOcvRecord at hz
  obtain rfl := Host.Outcome.next.inj hz
  clear hz
  have hz := Same.refl 67 s
  repeat' first
    | with_reducible assumption | with_reducible apply ocvRecord_same h67 | with_reducible apply Same.ite
    | with_reducible apply Same.iteFst | with_reducible intro _ _ _ | split | dsimp only

theorem execTempReduce_same {ch : Fin 16} {s : State} {t : State}
    (hz : execTempReduce ch s = .next t) : Same 642 s t := by
  have hm : covers 642 642 := rfl
  have h642 : covers 642 642 := hm.le rfl
  unfold execTempReduce at hz
  obtain rfl := Host.Outcome.next.inj hz
  clear hz
  have hz := Same.refl 642 s
  repeat' first
    | with_reducible assumption | with_reducible apply reduceEnds_same h642 | with_reducible apply Same.ite
    | with_reducible apply Same.iteFst | with_reducible intro _ _ _ | split | dsimp only

theorem execTempwinClear_same {ch : Fin 16} {s : State} {t : State}
    (hz : execTempwinClear ch s = .next t) : Same 2 s t := by
  have hm : covers 2 2 := rfl
  have h2 : covers 2 2 := hm.le rfl
  unfold execTempwinClear at hz
  obtain rfl := Host.Outcome.next.inj hz
  clear hz
  have hz := Same.refl 2 s
  repeat' first
    | with_reducible assumption | with_reducible apply tempwinEnds_same h2 | with_reducible apply Same.ite
    | with_reducible apply Same.iteFst | with_reducible intro _ _ _ | split | dsimp only

end Sys2Proof.Safety
end

