-- ==== Sys2Proof/Laws/SameThermal.lean ====
section
/-! SUPPORT. The parts of the state that the operations of Machine/Thermal.lean leave alone. -/
namespace Sys2Proof.Safety

open Sys2Proof.Machine

set_option simprocs false

theorem updDie_same {pm : Nat} {z : State} {s : State} {k : Fin 20} {f : Die → Die} (hm : covers pm 4096)
    (hz : Same pm z s) :
    Same pm z (State.updDie s k f) := by
  have b12 : pm.testBit 12 = true := hm.bit rfl
  unfold State.updDie
  repeat' first
    | with_reducible assumption | split | dsimp only
    | with_reducible
      refine Same.upd ?_ (.inr rfl) (.inr rfl) (.inr rfl) (.inr rfl) (.inr rfl) (.inr rfl) (.inr rfl) (.inr rfl)
        (.inr rfl) (.inr rfl) (.inr rfl) (.inr rfl) (.inl b12) (.inr rfl) (.inr rfl) (.inr rfl) (.inr rfl) (.inr rfl)
        (.inr rfl) (.inr rfl) (.inr rfl) (.inr rfl)

theorem breakDie_same {pm : Nat} {z : State} {s : State} {k : Fin 20} {cause : Nat} (hm : covers pm 4736)
    (hz : Same pm z s) :
    Same pm z (breakDie s k cause) := by
  have h640 : covers pm 640 := hm.le rfl
  have h4096 : covers pm 4096 := hm.le rfl
  unfold breakDie
  repeat' first
    | with_reducible assumption | with_reducible apply queueEvent_same h640 | with_reducible apply updDie_same h4096
    | split | dsimp only
    | with_reducible
      refine Same.upd ?_ (.inr rfl) (.inr rfl) (.inr rfl) (.inr rfl) (.inr rfl) (.inr rfl) (.inr rfl) (.inr rfl)
        (.inr rfl) (.inr rfl) (.inr rfl) (.inr rfl) (.inr rfl) (.inr rfl) (.inr rfl) (.inr rfl) (.inr rfl) (.inr rfl)
        (.inr rfl) (.inr rfl) (.inr rfl) (.inr rfl)

theorem judgeDie_same {pm : Nat} {z : State} {s : State} {k : Fin 20} {v : DieConv} (hm : covers pm 4736)
    (hz : Same pm z s) :
    Same pm z (judgeDie s k v) := by
  have h4096 : covers pm 4096 := hm.le rfl
  have h4736 : covers pm 4736 := hm.le rfl
  unfold judgeDie
  repeat' first
    | with_reducible assumption | with_reducible apply updDie_same h4096 | with_reducible apply breakDie_same h4736
    | with_reducible apply Same.ite | split | dsimp only
    | with_reducible
      refine Same.upd ?_ (.inr rfl) (.inr rfl) (.inr rfl) (.inr rfl) (.inr rfl) (.inr rfl) (.inr rfl) (.inr rfl)
        (.inr rfl) (.inr rfl) (.inr rfl) (.inr rfl) (.inr rfl) (.inr rfl) (.inr rfl) (.inr rfl) (.inr rfl) (.inr rfl)
        (.inr rfl) (.inr rfl) (.inr rfl) (.inr rfl)

theorem lonelyDie_same {pm : Nat} {z : State} {s : State} {k : Fin 20} (hm : covers pm 4736) (hz : Same pm z s) :
    Same pm z (lonelyDie s k) := by
  have h4736 : covers pm 4736 := hm.le rfl
  unfold lonelyDie
  repeat' first
    | with_reducible assumption | with_reducible apply breakDie_same h4736 | with_reducible apply Same.ite | split
    | dsimp only

theorem checkDies_same {pm : Nat} {z : State} {s : State} (hm : covers pm 4736) (hz : Same pm z s) :
    Same pm z (checkDies s) := by
  have h4736 : covers pm 4736 := hm.le rfl
  have b12 : pm.testBit 12 = true := hm.bit rfl
  unfold checkDies
  repeat' first
    | with_reducible assumption | (with_reducible apply Same.foldl; rotate_left; intro _ _ _)
    | with_reducible apply breakDie_same h4736 | with_reducible apply Same.ite | split | dsimp only
    | with_reducible
      refine Same.upd ?_ (.inr rfl) (.inr rfl) (.inr rfl) (.inr rfl) (.inr rfl) (.inr rfl) (.inr rfl) (.inr rfl)
        (.inr rfl) (.inr rfl) (.inr rfl) (.inr rfl) (.inl b12) (.inr rfl) (.inr rfl) (.inr rfl) (.inr rfl) (.inr rfl)
        (.inr rfl) (.inr rfl) (.inr rfl) (.inr rfl)

theorem fastStep_same {pm : Nat} {z : State} {s : State} {k : Fin 20} {x : Int} (hm : covers pm 4096)
    (hz : Same pm z s) :
    Same pm z (fastStep s k x) := by
  have h4096 : covers pm 4096 := hm.le rfl
  unfold fastStep
  repeat' first
    | with_reducible assumption | with_reducible apply updDie_same h4096 | with_reducible apply Same.ite | split
    | dsimp only
    | with_reducible
      refine Same.upd ?_ (.inr rfl) (.inr rfl) (.inr rfl) (.inr rfl) (.inr rfl) (.inr rfl) (.inr rfl) (.inr rfl)
        (.inr rfl) (.inr rfl) (.inr rfl) (.inr rfl) (.inr rfl) (.inr rfl) (.inr rfl) (.inr rfl) (.inr rfl) (.inr rfl)
        (.inr rfl) (.inr rfl) (.inr rfl) (.inr rfl)

theorem coolStep_same {pm : Nat} {z : State} {s : State} {k : Fin 20} {x : Int} (hm : covers pm 4096)
    (hz : Same pm z s) :
    Same pm z (coolStep s k x) := by
  have h4096 : covers pm 4096 := hm.le rfl
  unfold coolStep
  repeat' first
    | with_reducible assumption | with_reducible apply updDie_same h4096 | with_reducible apply Same.ite | split
    | dsimp only
    | with_reducible
      refine Same.upd ?_ (.inr rfl) (.inr rfl) (.inr rfl) (.inr rfl) (.inr rfl) (.inr rfl) (.inr rfl) (.inr rfl)
        (.inr rfl) (.inr rfl) (.inr rfl) (.inr rfl) (.inr rfl) (.inr rfl) (.inr rfl) (.inr rfl) (.inr rfl) (.inr rfl)
        (.inr rfl) (.inr rfl) (.inr rfl) (.inr rfl)

theorem warnStep_same {pm : Nat} {z : State} {s : State} {k : Fin 20} {x : Int} (hm : covers pm 4736)
    (hz : Same pm z s) :
    Same pm z (warnStep s k x) := by
  have h640 : covers pm 640 := hm.le rfl
  have h4096 : covers pm 4096 := hm.le rfl
  have b12 : pm.testBit 12 = true := hm.bit rfl
  unfold warnStep
  repeat' first
    | with_reducible assumption | with_reducible apply queueEvent_same h640 | with_reducible apply updDie_same h4096
    | with_reducible apply Same.ite | split | dsimp only
    | with_reducible
      refine Same.upd ?_ (.inr rfl) (.inr rfl) (.inr rfl) (.inr rfl) (.inr rfl) (.inr rfl) (.inr rfl) (.inr rfl)
        (.inr rfl) (.inr rfl) (.inr rfl) (.inr rfl) (.inl b12) (.inr rfl) (.inr rfl) (.inr rfl) (.inr rfl) (.inr rfl)
        (.inr rfl) (.inr rfl) (.inr rfl) (.inr rfl)

theorem throttleStep_same {pm : Nat} {z : State} {s : State} {k : Fin 20} {x : Int} (hm : covers pm 4736)
    (hz : Same pm z s) :
    Same pm z (throttleStep s k x) := by
  have h640 : covers pm 640 := hm.le rfl
  have h4096 : covers pm 4096 := hm.le rfl
  have b12 : pm.testBit 12 = true := hm.bit rfl
  unfold throttleStep
  repeat' first
    | with_reducible assumption | with_reducible apply queueEvent_same h640 | with_reducible apply updDie_same h4096
    | with_reducible apply Same.ite | split | dsimp only
    | with_reducible
      refine Same.upd ?_ (.inr rfl) (.inr rfl) (.inr rfl) (.inr rfl) (.inr rfl) (.inr rfl) (.inr rfl) (.inr rfl)
        (.inr rfl) (.inr rfl) (.inr rfl) (.inr rfl) (.inl b12) (.inr rfl) (.inr rfl) (.inr rfl) (.inr rfl) (.inr rfl)
        (.inr rfl) (.inr rfl) (.inr rfl) (.inr rfl)

theorem cycleStep_same {pm : Nat} {z : State} {s : State} {k : Fin 20} {x : Int} (hm : covers pm 5120)
    (hz : Same pm z s) :
    Same pm z (cycleStep s k x) := by
  have h4096 : covers pm 4096 := hm.le rfl
  have b10 : pm.testBit 10 = true := hm.bit rfl
  unfold cycleStep
  repeat' first
    | with_reducible assumption | with_reducible apply updDie_same h4096 | with_reducible apply Same.ite | split
    | dsimp only
    | with_reducible
      refine Same.upd ?_ (.inr rfl) (.inr rfl) (.inr rfl) (.inr rfl) (.inr rfl) (.inr rfl) (.inr rfl) (.inr rfl)
        (.inr rfl) (.inr rfl) (.inl b10) (.inr rfl) (.inr rfl) (.inr rfl) (.inr rfl) (.inr rfl) (.inr rfl) (.inr rfl)
        (.inr rfl) (.inr rfl) (.inr rfl) (.inr rfl)

theorem handHot_same {pm : Nat} {z : State} {s : State} {k : Fin 20} {c : Fin 5} {u : State}
    (hu : handHot s k c = some u) (hm : covers pm 267193) (hz : Same pm z s) : Same pm z u := by
  unfold handHot at hu
  split at hu
  · rename_i g _
    have ht : Same pm z (if (s.grp[g]).castle = none then hotCastle s c else s) :=
      Same.ite (hotCastle_same (hm.le rfl) hz) hz
    dsimp only at hu
    generalize (if (s.grp[g]).castle = none then hotCastle s c else s) = t at hu ht
    split at hu
    · obtain rfl := Option.some.inj hu
      exact updDie_same (hm.le rfl) ht
    · cases hu
  · cases hu

theorem stopZoneWork_same {pm : Nat} {z : State} {s : State} {k : Fin 20} (hm : covers pm 267193) (hz : Same pm z s) :
    Same pm z (stopZoneWork s k) := by
  unfold stopZoneWork
  dsimp only
  split
  · rename_i h
    cases hu : handHot s k ⟨k.val, h⟩ with
    | none => exact updDie_same (hm.le rfl) hz
    | some u => exact handHot_same hu (hm.le rfl) hz
  · exact updDie_same (hm.le rfl) hz

theorem beginStop_same {pm : Nat} {z : State} {s : State} {k : Fin 20} (hm : covers pm 267193) (hz : Same pm z s) :
    Same pm z (beginStop s k) := by
  have h640 : covers pm 640 := hm.le rfl
  have h4096 : covers pm 4096 := hm.le rfl
  have h267193 : covers pm 267193 := hm.le rfl
  have b12 : pm.testBit 12 = true := hm.bit rfl
  unfold beginStop
  repeat' first
    | with_reducible assumption | with_reducible apply queueEvent_same h640 | with_reducible apply updDie_same h4096
    | with_reducible apply stopZoneWork_same h267193 | split | dsimp only
    | with_reducible
      refine Same.upd ?_ (.inr rfl) (.inr rfl) (.inr rfl) (.inr rfl) (.inr rfl) (.inr rfl) (.inr rfl) (.inr rfl)
        (.inr rfl) (.inr rfl) (.inr rfl) (.inr rfl) (.inl b12) (.inr rfl) (.inr rfl) (.inr rfl) (.inr rfl) (.inr rfl)
        (.inr rfl) (.inr rfl) (.inr rfl) (.inr rfl)

theorem stopStep_same {pm : Nat} {z : State} {s : State} {k : Fin 20} {x : Int} (hm : covers pm 267193)
    (hz : Same pm z s) :
    Same pm z (stopStep s k x) := by
  have h4096 : covers pm 4096 := hm.le rfl
  have h263057 : covers pm 263057 := hm.le rfl
  have h267193 : covers pm 267193 := hm.le rfl
  unfold stopStep
  repeat' first
    | with_reducible assumption | with_reducible apply abandonBist_same h263057
    | with_reducible apply updDie_same h4096 | with_reducible apply stopZoneWork_same h267193
    | with_reducible apply beginStop_same h267193 | with_reducible apply Same.ite | split | dsimp only
    | with_reducible
      refine Same.upd ?_ (.inr rfl) (.inr rfl) (.inr rfl) (.inr rfl) (.inr rfl) (.inr rfl) (.inr rfl) (.inr rfl)
        (.inr rfl) (.inr rfl) (.inr rfl) (.inr rfl) (.inr rfl) (.inr rfl) (.inr rfl) (.inr rfl) (.inr rfl) (.inr rfl)
        (.inr rfl) (.inr rfl) (.inr rfl) (.inr rfl)

theorem takeThermCfg_same {pm : Nat} {z : State} {s : State} (hm : covers pm 4096) (hz : Same pm z s) :
    Same pm z (takeThermCfg s) := by
  have b12 : pm.testBit 12 = true := hm.bit rfl
  unfold takeThermCfg
  repeat' first
    | with_reducible assumption | split | dsimp only
    | with_reducible
      refine Same.upd ?_ (.inr rfl) (.inr rfl) (.inr rfl) (.inr rfl) (.inr rfl) (.inr rfl) (.inr rfl) (.inr rfl)
        (.inr rfl) (.inr rfl) (.inr rfl) (.inr rfl) (.inl b12) (.inr rfl) (.inr rfl) (.inr rfl) (.inr rfl) (.inr rfl)
        (.inr rfl) (.inr rfl) (.inr rfl) (.inr rfl)

theorem actOnReading_same {pm : Nat} {z : State} {s : State} {k : Fin 20} {x : Int} (hm : covers pm 792505)
    (hz : Same pm z s) :
    Same pm z (actOnReading s k x) := by
  have h4096 : covers pm 4096 := hm.le rfl
  have h4736 : covers pm 4736 := hm.le rfl
  have h5120 : covers pm 5120 := hm.le rfl
  have h263097 : covers pm 263097 := hm.le rfl
  have h267193 : covers pm 267193 := hm.le rfl
  have b19 : pm.testBit 19 = true := hm.bit rfl
  unfold actOnReading
  repeat' first
    | with_reducible assumption | with_reducible apply hotCastle_same h263097
    | with_reducible apply fastStep_same h4096 | with_reducible apply coolStep_same h4096
    | with_reducible apply warnStep_same h4736 | with_reducible apply throttleStep_same h4736
    | with_reducible apply cycleStep_same h5120 | with_reducible apply stopStep_same h267193
    | with_reducible apply Same.ite | split | dsimp only
    | with_reducible
      refine Same.upd ?_ (.inr rfl) (.inr rfl) (.inr rfl) (.inr rfl) (.inr rfl) (.inr rfl) (.inr rfl) (.inr rfl)
        (.inr rfl) (.inr rfl) (.inr rfl) (.inr rfl) (.inr rfl) (.inr rfl) (.inr rfl) (.inr rfl) (.inr rfl) (.inr rfl)
        (.inr rfl) (.inl b19) (.inr rfl) (.inr rfl)

theorem evalDie_same {pm : Nat} {z : State} {s : State} {k : Fin 20} {v : DieConv} (hm : covers pm 792505)
    (hz : Same pm z s) :
    Same pm z (evalDie s k v) := by
  have h4096 : covers pm 4096 := hm.le rfl
  have h4736 : covers pm 4736 := hm.le rfl
  have h792505 : covers pm 792505 := hm.le rfl
  unfold evalDie
  repeat' first
    | with_reducible assumption | with_reducible apply updDie_same h4096 | with_reducible apply judgeDie_same h4736
    | with_reducible apply lonelyDie_same h4736 | with_reducible apply takeThermCfg_same h4096
    | with_reducible apply actOnReading_same h792505 | with_reducible apply Same.ite | split | dsimp only
    | with_reducible
      refine Same.upd ?_ (.inr rfl) (.inr rfl) (.inr rfl) (.inr rfl) (.inr rfl) (.inr rfl) (.inr rfl) (.inr rfl)
        (.inr rfl) (.inr rfl) (.inr rfl) (.inr rfl) (.inr rfl) (.inr rfl) (.inr rfl) (.inr rfl) (.inr rfl) (.inr rfl)
        (.inr rfl) (.inr rfl) (.inr rfl) (.inr rfl)

theorem firstEvals_same {pm : Nat} {z : State} {s : State} (hm : covers pm 792505) (hz : Same pm z s) :
    Same pm z (firstEvals s) := by
  have h4736 : covers pm 4736 := hm.le rfl
  have h792505 : covers pm 792505 := hm.le rfl
  unfold firstEvals
  repeat' first
    | with_reducible assumption | (with_reducible apply Same.foldl; rotate_left; intro _ _ _)
    | with_reducible apply checkDies_same h4736 | with_reducible apply evalDie_same h792505
    | with_reducible apply Same.ite | split | dsimp only
    | with_reducible
      refine Same.upd ?_ (.inr rfl) (.inr rfl) (.inr rfl) (.inr rfl) (.inr rfl) (.inr rfl) (.inr rfl) (.inr rfl)
        (.inr rfl) (.inr rfl) (.inr rfl) (.inr rfl) (.inr rfl) (.inr rfl) (.inr rfl) (.inr rfl) (.inr rfl) (.inr rfl)
        (.inr rfl) (.inr rfl) (.inr rfl) (.inr rfl)

theorem thermEval_same {pm : Nat} {z : State} {k : Fin 20} {v : DieConv} {s : State} (hm : covers pm 792505)
    (hz : Same pm z s) :
    Same pm z (thermEval k v s) := by
  have h792505 : covers pm 792505 := hm.le rfl
  have b12 : pm.testBit 12 = true := hm.bit rfl
  unfold thermEval
  repeat' first
    | with_reducible assumption | with_reducible apply evalDie_same h792505
    | with_reducible apply firstEvals_same h792505 | with_reducible apply Same.ite | split | dsimp only
    | with_reducible
      refine Same.upd ?_ (.inr rfl) (.inr rfl) (.inr rfl) (.inr rfl) (.inr rfl) (.inr rfl) (.inr rfl) (.inr rfl)
        (.inr rfl) (.inr rfl) (.inr rfl) (.inr rfl) (.inl b12) (.inr rfl) (.inr rfl) (.inr rfl) (.inr rfl) (.inr rfl)
        (.inr rfl) (.inr rfl) (.inr rfl) (.inr rfl)

theorem stopEnds_same {pm : Nat} {z : State} {k : Fin 20} {s : State} (hm : covers pm 4736) (hz : Same pm z s) :
    Same pm z (stopEnds k s) := by
  have h640 : covers pm 640 := hm.le rfl
  have h4096 : covers pm 4096 := hm.le rfl
  unfold stopEnds
  repeat' first
    | with_reducible assumption | with_reducible apply queueEvent_same h640 | with_reducible apply updDie_same h4096
    | with_reducible apply Same.ite | split | dsimp only
    | with_reducible
      refine Same.upd ?_ (.inr rfl) (.inr rfl) (.inr rfl) (.inr rfl) (.inr rfl) (.inr rfl) (.inr rfl) (.inr rfl)
        (.inr rfl) (.inr rfl) (.inr rfl) (.inr rfl) (.inr rfl) (.inr rfl) (.inr rfl) (.inr rfl) (.inr rfl) (.inr rfl)
        (.inr rfl) (.inr rfl) (.inr rfl) (.inr rfl)

theorem latchTrips_same {pm : Nat} {z : State} {k : Fin 20} {s : State} (hm : covers pm 789859) (hz : Same pm z s) :
    Same pm z (latchTrips k s) := by
  have h265571 : covers pm 265571 := hm.le rfl
  have b10 : pm.testBit 10 = true := hm.bit rfl
  have b19 : pm.testBit 19 = true := hm.bit rfl
  unfold latchTrips
  repeat' first
    | with_reducible assumption | with_reducible apply holdIslands_same h265571 | with_reducible apply Same.ite
    | split | dsimp only
    | with_reducible
      refine Same.upd ?_ (.inr rfl) (.inr rfl) (.inr rfl) (.inr rfl) (.inr rfl) (.inr rfl) (.inr rfl) (.inr rfl)
        (.inr rfl) (.inr rfl) (.inl b10) (.inr rfl) (.inr rfl) (.inr rfl) (.inr rfl) (.inr rfl) (.inr rfl) (.inr rfl)
        (.inr rfl) (.inl b19) (.inr rfl) (.inr rfl)

theorem updInp_same {pm : Nat} {z : State} {s : State} {i : Fin 24} {f : Therm → Therm} (hm : covers pm 4096)
    (hz : Same pm z s) :
    Same pm z (State.updInp s i f) := by
  have b12 : pm.testBit 12 = true := hm.bit rfl
  unfold State.updInp
  repeat' first
    | with_reducible assumption | split | dsimp only
    | with_reducible
      refine Same.upd ?_ (.inr rfl) (.inr rfl) (.inr rfl) (.inr rfl) (.inr rfl) (.inr rfl) (.inr rfl) (.inr rfl)
        (.inr rfl) (.inr rfl) (.inr rfl) (.inr rfl) (.inl b12) (.inr rfl) (.inr rfl) (.inr rfl) (.inr rfl) (.inr rfl)
        (.inr rfl) (.inr rfl) (.inr rfl) (.inr rfl)

theorem inputEvent_same {pm : Nat} {z : State} {s : State} {i : Fin 24} {kind entry : Nat} (hm : covers pm 640)
    (hz : Same pm z s) :
    Same pm z (inputEvent s i kind entry) := by
  have h640 : covers pm 640 := hm.le rfl
  unfold inputEvent
  repeat' first
    | with_reducible assumption | with_reducible apply queueEvent_same h640 | split | dsimp only

theorem brokenStep_same {pm : Nat} {z : State} {s : State} {i : Fin 24} {x ns : Nat} (hm : covers pm 4736)
    (hz : Same pm z s) :
    Same pm z (brokenStep s i x ns) := by
  have h640 : covers pm 640 := hm.le rfl
  have h4096 : covers pm 4096 := hm.le rfl
  unfold brokenStep
  repeat' first
    | with_reducible assumption | with_reducible apply updInp_same h4096 | with_reducible apply inputEvent_same h640
    | with_reducible apply Same.ite | split | dsimp only
    | with_reducible
      refine Same.upd ?_ (.inr rfl) (.inr rfl) (.inr rfl) (.inr rfl) (.inr rfl) (.inr rfl) (.inr rfl) (.inr rfl)
        (.inr rfl) (.inr rfl) (.inr rfl) (.inr rfl) (.inr rfl) (.inr rfl) (.inr rfl) (.inr rfl) (.inr rfl) (.inr rfl)
        (.inr rfl) (.inr rfl) (.inr rfl) (.inr rfl)

theorem otCheck_same {pm : Nat} {z : State} {s : State} {c : Fin 16} (hm : covers pm 5070) (hz : Same pm z s) :
    Same pm z (otCheck s c) := by
  have h974 : covers pm 974 := hm.le rfl
  have h4096 : covers pm 4096 := hm.le rfl
  unfold otCheck
  repeat' first
    | with_reducible assumption | with_reducible apply cpTripped_same h974 | with_reducible apply updInp_same h4096
    | with_reducible apply Same.ite | split | dsimp only
    | with_reducible
      refine Same.upd ?_ (.inr rfl) (.inr rfl) (.inr rfl) (.inr rfl) (.inr rfl) (.inr rfl) (.inr rfl) (.inr rfl)
        (.inr rfl) (.inr rfl) (.inr rfl) (.inr rfl) (.inr rfl) (.inr rfl) (.inr rfl) (.inr rfl) (.inr rfl) (.inr rfl)
        (.inr rfl) (.inr rfl) (.inr rfl) (.inr rfl)

theorem refreshVolt_same {pm : Nat} {z : State} {s : State} {i : Fin 24} {x : Nat} (hm : covers pm 4737)
    (hz : Same pm z s) :
    Same pm z (refreshVolt s i x) := by
  have h641 : covers pm 641 := hm.le rfl
  have h4096 : covers pm 4096 := hm.le rfl
  unfold refreshVolt
  repeat' first
    | with_reducible assumption | with_reducible apply overRangeLink_same h641
    | with_reducible apply updInp_same h4096 | with_reducible apply Same.ite | split | dsimp only
    | with_reducible
      refine Same.upd ?_ (.inr rfl) (.inr rfl) (.inr rfl) (.inr rfl) (.inr rfl) (.inr rfl) (.inr rfl) (.inr rfl)
        (.inr rfl) (.inr rfl) (.inr rfl) (.inr rfl) (.inr rfl) (.inr rfl) (.inr rfl) (.inr rfl) (.inr rfl) (.inr rfl)
        (.inr rfl) (.inr rfl) (.inr rfl) (.inr rfl)

theorem refreshNtc_same {pm : Nat} {z : State} {s : State} {i : Fin 24} {x ns : Nat} (hm : covers pm 5071)
    (hz : Same pm z s) :
    Same pm z (refreshNtc s i x ns) := by
  have h1 : covers pm 1 := hm.le rfl
  have h642 : covers pm 642 := hm.le rfl
  have h4096 : covers pm 4096 := hm.le rfl
  have h4736 : covers pm 4736 := hm.le rfl
  have h5070 : covers pm 5070 := hm.le rfl
  unfold refreshNtc
  repeat' first
    | with_reducible assumption | with_reducible apply drawFree_same h1 | with_reducible apply tempRefresh_same h642
    | with_reducible apply updInp_same h4096 | with_reducible apply brokenStep_same h4736
    | with_reducible apply otCheck_same h5070 | with_reducible apply Same.ite | split | dsimp only
    | with_reducible
      refine Same.upd ?_ (.inr rfl) (.inr rfl) (.inr rfl) (.inr rfl) (.inr rfl) (.inr rfl) (.inr rfl) (.inr rfl)
        (.inr rfl) (.inr rfl) (.inr rfl) (.inr rfl) (.inr rfl) (.inr rfl) (.inr rfl) (.inr rfl) (.inr rfl) (.inr rfl)
        (.inr rfl) (.inr rfl) (.inr rfl) (.inr rfl)

theorem refreshInput_same {pm : Nat} {z : State} {i : Fin 24} {x : Nat} {s : State} (hm : covers pm 5071)
    (hz : Same pm z s) :
    Same pm z (refreshInput i x s) := by
  have h4096 : covers pm 4096 := hm.le rfl
  have h4737 : covers pm 4737 := hm.le rfl
  have h5071 : covers pm 5071 := hm.le rfl
  unfold refreshInput
  repeat' first
    | with_reducible assumption | with_reducible apply updInp_same h4096 | with_reducible apply refreshVolt_same h4737
    | with_reducible apply refreshNtc_same h5071 | with_reducible apply Same.ite | split | dsimp only
    | with_reducible
      refine Same.upd ?_ (.inr rfl) (.inr rfl) (.inr rfl) (.inr rfl) (.inr rfl) (.inr rfl) (.inr rfl) (.inr rfl)
        (.inr rfl) (.inr rfl) (.inr rfl) (.inr rfl) (.inr rfl) (.inr rfl) (.inr rfl) (.inr rfl) (.inr rfl) (.inr rfl)
        (.inr rfl) (.inr rfl) (.inr rfl) (.inr rfl)

theorem execThermEvaluation_same {sensor : Fin 20} {conv : DieConv} {s : State} {t : State}
    (hz : execThermEvaluation sensor conv s = .next t) : Same 792505 s t := by
  have hm : covers 792505 792505 := rfl
  have h792505 : covers 792505 792505 := hm.le rfl
  unfold execThermEvaluation at hz
  obtain rfl := Host.Outcome.next.inj hz
  clear hz
  have hz := Same.refl 792505 s
  repeat' first
    | with_reducible assumption | with_reducible apply thermEval_same h792505 | with_reducible apply Same.ite
    | with_reducible apply Same.iteFst | with_reducible intro _ _ _ | split | dsimp only

theorem execThermStopEnd_same {sensor : Fin 20} {s : State} {t : State}
    (hz : execThermStopEnd sensor s = .next t) : Same 4736 s t := by
  have hm : covers 4736 4736 := rfl
  have h4736 : covers 4736 4736 := hm.le rfl
  unfold execThermStopEnd at hz
  obtain rfl := Host.Outcome.next.inj hz
  clear hz
  have hz := Same.refl 4736 s
  repeat' first
    | with_reducible assumption | with_reducible apply stopEnds_same h4736 | with_reducible apply Same.ite
    | with_reducible apply Same.iteFst | with_reducible intro _ _ _ | split | dsimp only

theorem execThermLatch_same {sensor : Fin 20} {s : State} {t : State}
    (hz : execThermLatch sensor s = .next t) : Same 789859 s t := by
  have hm : covers 789859 789859 := rfl
  have h789859 : covers 789859 789859 := hm.le rfl
  unfold execThermLatch at hz
  obtain rfl := Host.Outcome.next.inj hz
  clear hz
  have hz := Same.refl 789859 s
  repeat' first
    | with_reducible assumption | with_reducible apply latchTrips_same h789859 | with_reducible apply Same.ite
    | with_reducible apply Same.iteFst | with_reducible intro _ _ _ | split | dsimp only

theorem execThRefresh_same {input : Fin 24} {x : Nat} {s : State} {t : State}
    (hz : execThRefresh input x s = .next t) : Same 5071 s t := by
  have hm : covers 5071 5071 := rfl
  have h5071 : covers 5071 5071 := hm.le rfl
  unfold execThRefresh at hz
  obtain rfl := Host.Outcome.next.inj hz
  clear hz
  have hz := Same.refl 5071 s
  repeat' first
    | with_reducible assumption | with_reducible apply refreshInput_same h5071 | with_reducible apply Same.ite
    | with_reducible apply Same.iteFst | with_reducible intro _ _ _ | split | dsimp only

end Sys2Proof.Safety
end

