-- ==== Sys2Proof/Laws/SameLink.lean ====
section
/-! SUPPORT. The parts of the state that the operations of Machine/Link.lean leave alone. -/
namespace Sys2Proof.Safety

open Sys2Proof.Machine

set_option simprocs false

theorem decideLink_same {pm : Nat} {z : State} {s : State} {dest : LinkSt} {row wait : Nat} (hm : covers pm 8192)
    (hz : Same pm z s) :
    Same pm z (decideLink s dest row wait) := by
  have b13 : pm.testBit 13 = true := hm.bit rfl
  unfold decideLink
  repeat' first
    | with_reducible assumption | with_reducible apply Same.ite | split | dsimp only
    | with_reducible
      refine Same.upd ?_ (.inr rfl) (.inr rfl) (.inr rfl) (.inr rfl) (.inr rfl) (.inr rfl) (.inr rfl) (.inr rfl)
        (.inr rfl) (.inr rfl) (.inr rfl) (.inr rfl) (.inr rfl) (.inl b13) (.inr rfl) (.inr rfl) (.inr rfl) (.inr rfl)
        (.inr rfl) (.inr rfl) (.inr rfl) (.inr rfl)

theorem sourceRows_same {pm : Nat} {z : State} {s : State} {wait : Nat} (hm : covers pm 8192) (hz : Same pm z s) :
    Same pm z (sourceRows s wait) := by
  have h8192 : covers pm 8192 := hm.le rfl
  unfold sourceRows
  repeat' first
    | with_reducible assumption | with_reducible apply decideLink_same h8192 | with_reducible apply Same.ite | split
    | dsimp only

theorem startQual_same {pm : Nat} {z : State} {s : State} (hm : covers pm 8192) (hz : Same pm z s) :
    Same pm z (startQual s) := by
  have b13 : pm.testBit 13 = true := hm.bit rfl
  unfold startQual
  repeat' first
    | with_reducible assumption | split | dsimp only
    | with_reducible
      refine Same.upd ?_ (.inr rfl) (.inr rfl) (.inr rfl) (.inr rfl) (.inr rfl) (.inr rfl) (.inr rfl) (.inr rfl)
        (.inr rfl) (.inr rfl) (.inr rfl) (.inr rfl) (.inr rfl) (.inl b13) (.inr rfl) (.inr rfl) (.inr rfl) (.inr rfl)
        (.inr rfl) (.inr rfl) (.inr rfl) (.inr rfl)

theorem backupFault_same {pm : Nat} {z : State} {s : State} (hm : covers pm 8832) (hz : Same pm z s) :
    Same pm z (backupFault s) := by
  have h640 : covers pm 640 := hm.le rfl
  have b13 : pm.testBit 13 = true := hm.bit rfl
  unfold backupFault
  repeat' first
    | with_reducible assumption | with_reducible apply queueEvent_same h640 | with_reducible apply Same.ite | split
    | dsimp only
    | with_reducible
      refine Same.upd ?_ (.inr rfl) (.inr rfl) (.inr rfl) (.inr rfl) (.inr rfl) (.inr rfl) (.inr rfl) (.inr rfl)
        (.inr rfl) (.inr rfl) (.inr rfl) (.inr rfl) (.inr rfl) (.inl b13) (.inr rfl) (.inr rfl) (.inr rfl) (.inr rfl)
        (.inr rfl) (.inr rfl) (.inr rfl) (.inr rfl)

theorem staleEnd_same {pm : Nat} {z : State} {s : State} (hm : covers pm 8832) (hz : Same pm z s) :
    Same pm z (staleEnd s) := by
  have h640 : covers pm 640 := hm.le rfl
  have b13 : pm.testBit 13 = true := hm.bit rfl
  unfold staleEnd
  repeat' first
    | with_reducible assumption | with_reducible apply queueEvent_same h640 | with_reducible apply Same.ite | split
    | dsimp only
    | with_reducible
      refine Same.upd ?_ (.inr rfl) (.inr rfl) (.inr rfl) (.inr rfl) (.inr rfl) (.inr rfl) (.inr rfl) (.inr rfl)
        (.inr rfl) (.inr rfl) (.inr rfl) (.inr rfl) (.inr rfl) (.inl b13) (.inr rfl) (.inr rfl) (.inr rfl) (.inr rfl)
        (.inr rfl) (.inr rfl) (.inr rfl) (.inr rfl)

theorem releasePaused_same {pm : Nat} {z : State} {s : State} (hm : covers pm 8834) (hz : Same pm z s) :
    Same pm z (releasePaused s) := by
  have h2 : covers pm 2 := hm.le rfl
  have h8832 : covers pm 8832 := hm.le rfl
  have b13 : pm.testBit 13 = true := hm.bit rfl
  unfold releasePaused
  repeat' first
    | with_reducible assumption | with_reducible apply clearCauses_same h2 | with_reducible apply staleEnd_same h8832
    | with_reducible apply Same.ite | split | dsimp only
    | with_reducible
      refine Same.upd ?_ (.inr rfl) (.inr rfl) (.inr rfl) (.inr rfl) (.inr rfl) (.inr rfl) (.inr rfl) (.inr rfl)
        (.inr rfl) (.inr rfl) (.inr rfl) (.inr rfl) (.inr rfl) (.inl b13) (.inr rfl) (.inr rfl) (.inr rfl) (.inr rfl)
        (.inr rfl) (.inr rfl) (.inr rfl) (.inr rfl)

theorem tickDecisions_same {pm : Nat} {z : State} {s : State} (hm : covers pm 8192) (hz : Same pm z s) :
    Same pm z (tickDecisions s) := by
  have h8192 : covers pm 8192 := hm.le rfl
  unfold tickDecisions
  repeat' first
    | with_reducible assumption | with_reducible apply decideLink_same h8192 | with_reducible apply Same.ite | split
    | dsimp only
    | with_reducible
      refine Same.upd ?_ (.inr rfl) (.inr rfl) (.inr rfl) (.inr rfl) (.inr rfl) (.inr rfl) (.inr rfl) (.inr rfl)
        (.inr rfl) (.inr rfl) (.inr rfl) (.inr rfl) (.inr rfl) (.inr rfl) (.inr rfl) (.inr rfl) (.inr rfl) (.inr rfl)
        (.inr rfl) (.inr rfl) (.inr rfl) (.inr rfl)

theorem linkTick_same {pm : Nat} {z : State} {s : State} (hm : covers pm 2138755) (hz : Same pm z s) :
    Same pm z (linkTick s) := by
  have h8192 : covers pm 8192 := hm.le rfl
  have h8834 : covers pm 8834 := hm.le rfl
  have h2129921 : covers pm 2129921 := hm.le rfl
  have b1 : pm.testBit 1 = true := hm.bit rfl
  have b13 : pm.testBit 13 = true := hm.bit rfl
  unfold linkTick
  repeat' first
    | with_reducible assumption | with_reducible apply offerMessage_same h2129921
    | with_reducible apply releasePaused_same h8834 | with_reducible apply tickDecisions_same h8192
    | with_reducible apply Same.ite | split | dsimp only
    | with_reducible
      refine Same.upd ?_ (.inr rfl) (.inl b1) (.inr rfl) (.inr rfl) (.inr rfl) (.inr rfl) (.inr rfl) (.inr rfl)
        (.inr rfl) (.inr rfl) (.inr rfl) (.inr rfl) (.inr rfl) (.inl b13) (.inr rfl) (.inr rfl) (.inr rfl) (.inr rfl)
        (.inr rfl) (.inr rfl) (.inr rfl) (.inr rfl)

theorem sourceLost_same {pm : Nat} {z : State} {s : State} (hm : covers pm 8192) (hz : Same pm z s) :
    Same pm z (sourceLost s) := by
  have h8192 : covers pm 8192 := hm.le rfl
  have b13 : pm.testBit 13 = true := hm.bit rfl
  unfold sourceLost
  repeat' first
    | with_reducible assumption | with_reducible apply decideLink_same h8192
    | with_reducible apply sourceRows_same h8192 | with_reducible apply Same.ite | split | dsimp only
    | with_reducible
      refine Same.upd ?_ (.inr rfl) (.inr rfl) (.inr rfl) (.inr rfl) (.inr rfl) (.inr rfl) (.inr rfl) (.inr rfl)
        (.inr rfl) (.inr rfl) (.inr rfl) (.inr rfl) (.inr rfl) (.inl b13) (.inr rfl) (.inr rfl) (.inr rfl) (.inr rfl)
        (.inr rfl) (.inr rfl) (.inr rfl) (.inr rfl)

theorem srcokEdge_same {pm : Nat} {z : State} {level : Bool} {s : State} (hm : covers pm 8833) (hz : Same pm z s) :
    Same pm z (srcokEdge level s) := by
  have h640 : covers pm 640 := hm.le rfl
  have h8192 : covers pm 8192 := hm.le rfl
  have b0 : pm.testBit 0 = true := hm.bit rfl
  have b13 : pm.testBit 13 = true := hm.bit rfl
  unfold srcokEdge
  repeat' first
    | with_reducible assumption | with_reducible apply queueRated_same h640
    | with_reducible apply startQual_same h8192 | with_reducible apply Same.ite | split | dsimp only
    | with_reducible
      refine Same.upd ?_ (.inl b0) (.inr rfl) (.inr rfl) (.inr rfl) (.inr rfl) (.inr rfl) (.inr rfl) (.inr rfl)
        (.inr rfl) (.inr rfl) (.inr rfl) (.inr rfl) (.inr rfl) (.inl b13) (.inr rfl) (.inr rfl) (.inr rfl) (.inr rfl)
        (.inr rfl) (.inr rfl) (.inr rfl) (.inr rfl)

theorem bkokEdge_same {pm : Nat} {z : State} {level : Bool} {s : State} (hm : covers pm 8832) (hz : Same pm z s) :
    Same pm z (bkokEdge level s) := by
  have h8192 : covers pm 8192 := hm.le rfl
  have h8832 : covers pm 8832 := hm.le rfl
  have b13 : pm.testBit 13 = true := hm.bit rfl
  unfold bkokEdge
  repeat' first
    | with_reducible assumption | with_reducible apply decideLink_same h8192
    | with_reducible apply backupFault_same h8832 | with_reducible apply Same.ite | split | dsimp only
    | with_reducible
      refine Same.upd ?_ (.inr rfl) (.inr rfl) (.inr rfl) (.inr rfl) (.inr rfl) (.inr rfl) (.inr rfl) (.inr rfl)
        (.inr rfl) (.inr rfl) (.inr rfl) (.inr rfl) (.inr rfl) (.inl b13) (.inr rfl) (.inr rfl) (.inr rfl) (.inr rfl)
        (.inr rfl) (.inr rfl) (.inr rfl) (.inr rfl)

theorem handoverTimeout_same {pm : Nat} {z : State} {s : State} (hm : covers pm 8832) (hz : Same pm z s) :
    Same pm z (handoverTimeout s) := by
  have h640 : covers pm 640 := hm.le rfl
  have h8192 : covers pm 8192 := hm.le rfl
  unfold handoverTimeout
  repeat' first
    | with_reducible assumption | with_reducible apply queueEvent_same h640
    | with_reducible apply decideLink_same h8192 | with_reducible apply Same.ite | split | dsimp only
    | with_reducible
      refine Same.upd ?_ (.inr rfl) (.inr rfl) (.inr rfl) (.inr rfl) (.inr rfl) (.inr rfl) (.inr rfl) (.inr rfl)
        (.inr rfl) (.inr rfl) (.inr rfl) (.inr rfl) (.inr rfl) (.inr rfl) (.inr rfl) (.inr rfl) (.inr rfl) (.inr rfl)
        (.inr rfl) (.inr rfl) (.inr rfl) (.inr rfl)

theorem returnQualified_same {pm : Nat} {z : State} {s : State} (hm : covers pm 8192) (hz : Same pm z s) :
    Same pm z (returnQualified s) := by
  have h8192 : covers pm 8192 := hm.le rfl
  unfold returnQualified
  repeat' first
    | with_reducible assumption | with_reducible apply decideLink_same h8192 | with_reducible apply Same.ite | split
    | dsimp only
    | with_reducible
      refine Same.upd ?_ (.inr rfl) (.inr rfl) (.inr rfl) (.inr rfl) (.inr rfl) (.inr rfl) (.inr rfl) (.inr rfl)
        (.inr rfl) (.inr rfl) (.inr rfl) (.inr rfl) (.inr rfl) (.inr rfl) (.inr rfl) (.inr rfl) (.inr rfl) (.inr rfl)
        (.inr rfl) (.inr rfl) (.inr rfl) (.inr rfl)

theorem backupLost_same {pm : Nat} {z : State} {s : State} (hm : covers pm 8192) (hz : Same pm z s) :
    Same pm z (backupLost s) := by
  have h8192 : covers pm 8192 := hm.le rfl
  unfold backupLost
  repeat' first
    | with_reducible assumption | with_reducible apply decideLink_same h8192 | with_reducible apply Same.ite | split
    | dsimp only

theorem formingToLost_same {pm : Nat} {z : State} {s : State} (hm : covers pm 8192) (hz : Same pm z s) :
    Same pm z (formingToLost s) := by
  have h8192 : covers pm 8192 := hm.le rfl
  unfold formingToLost
  repeat' first
    | with_reducible assumption | with_reducible apply decideLink_same h8192 | with_reducible apply Same.ite | split
    | dsimp only

theorem updPeer_same {pm : Nat} {z : State} {s : State} {n : Fin 16} {f : Peer → Peer} (hm : covers pm 8192)
    (hz : Same pm z s) :
    Same pm z (State.updPeer s n f) := by
  have b13 : pm.testBit 13 = true := hm.bit rfl
  unfold State.updPeer
  repeat' first
    | with_reducible assumption | split | dsimp only
    | with_reducible
      refine Same.upd ?_ (.inr rfl) (.inr rfl) (.inr rfl) (.inr rfl) (.inr rfl) (.inr rfl) (.inr rfl) (.inr rfl)
        (.inr rfl) (.inr rfl) (.inr rfl) (.inr rfl) (.inr rfl) (.inl b13) (.inr rfl) (.inr rfl) (.inr rfl) (.inr rfl)
        (.inr rfl) (.inr rfl) (.inr rfl) (.inr rfl)

theorem budgetReceived_same {pm : Nat} {z : State} {m : BudgetMsg} {s : State} (hm : covers pm 41600)
    (hz : Same pm z s) :
    Same pm z (budgetReceived m s) := by
  have h640 : covers pm 640 := hm.le rfl
  have h8192 : covers pm 8192 := hm.le rfl
  have h32768 : covers pm 32768 := hm.le rfl
  unfold budgetReceived
  repeat' first
    | with_reducible assumption | with_reducible apply queueEvent_same h640
    | with_reducible apply queueRated_same h640 | with_reducible apply keepMessage_same h32768
    | with_reducible apply updPeer_same h8192 | with_reducible apply Same.ite | split | dsimp only

theorem peerLost_same {pm : Nat} {z : State} {n : Fin 16} {s : State} (hm : covers pm 8832) (hz : Same pm z s) :
    Same pm z (peerLost n s) := by
  have h640 : covers pm 640 := hm.le rfl
  have h8192 : covers pm 8192 := hm.le rfl
  unfold peerLost
  repeat' first
    | with_reducible assumption | with_reducible apply queueEvent_same h640 | with_reducible apply updPeer_same h8192
    | with_reducible apply Same.ite | split | dsimp only
    | with_reducible
      refine Same.upd ?_ (.inr rfl) (.inr rfl) (.inr rfl) (.inr rfl) (.inr rfl) (.inr rfl) (.inr rfl) (.inr rfl)
        (.inr rfl) (.inr rfl) (.inr rfl) (.inr rfl) (.inr rfl) (.inr rfl) (.inr rfl) (.inr rfl) (.inr rfl) (.inr rfl)
        (.inr rfl) (.inr rfl) (.inr rfl) (.inr rfl)

theorem peerDemandDrop_same {pm : Nat} {z : State} {n : Fin 16} {s : State} (hm : covers pm 8192) (hz : Same pm z s) :
    Same pm z (peerDemandDrop n s) := by
  have h8192 : covers pm 8192 := hm.le rfl
  unfold peerDemandDrop
  repeat' first
    | with_reducible assumption | with_reducible apply updPeer_same h8192 | with_reducible apply Same.ite | split
    | dsimp only
    | with_reducible
      refine Same.upd ?_ (.inr rfl) (.inr rfl) (.inr rfl) (.inr rfl) (.inr rfl) (.inr rfl) (.inr rfl) (.inr rfl)
        (.inr rfl) (.inr rfl) (.inr rfl) (.inr rfl) (.inr rfl) (.inr rfl) (.inr rfl) (.inr rfl) (.inr rfl) (.inr rfl)
        (.inr rfl) (.inr rfl) (.inr rfl) (.inr rfl)

theorem execLinkTick_same {s : State} {t : State} (hz : execLinkTick s = .next t) : Same 2138755 s t := by
  have hm : covers 2138755 2138755 := rfl
  have h2138755 : covers 2138755 2138755 := hm.le rfl
  unfold execLinkTick at hz
  obtain rfl := Host.Outcome.next.inj hz
  clear hz
  have hz := Same.refl 2138755 s
  repeat' first
    | with_reducible assumption | with_reducible apply linkTick_same h2138755 | with_reducible apply Same.ite
    | with_reducible apply Same.iteFst | with_reducible intro _ _ _ | split | dsimp only

theorem execBudgetMessage_same {m : BudgetMsg} {s : State} {t : State}
    (hz : execBudgetMessage m s = .next t) : Same 41600 s t := by
  have hm : covers 41600 41600 := rfl
  have h41600 : covers 41600 41600 := hm.le rfl
  unfold execBudgetMessage at hz
  obtain rfl := Host.Outcome.next.inj hz
  clear hz
  have hz := Same.refl 41600 s
  repeat' first
    | with_reducible assumption | with_reducible apply budgetReceived_same h41600 | with_reducible apply Same.ite
    | with_reducible apply Same.iteFst | with_reducible intro _ _ _ | split | dsimp only

theorem execPeerLost_same {node : Fin 16} {s : State} {t : State}
    (hz : execPeerLost node s = .next t) : Same 8832 s t := by
  have hm : covers 8832 8832 := rfl
  have h8832 : covers 8832 8832 := hm.le rfl
  unfold execPeerLost at hz
  obtain rfl := Host.Outcome.next.inj hz
  clear hz
  have hz := Same.refl 8832 s
  repeat' first
    | with_reducible assumption | with_reducible apply peerLost_same h8832 | with_reducible apply Same.ite
    | with_reducible apply Same.iteFst | with_reducible intro _ _ _ | split | dsimp only

theorem execPeerDemandDrop_same {node : Fin 16} {s : State} {t : State}
    (hz : execPeerDemandDrop node s = .next t) : Same 8192 s t := by
  have hm : covers 8192 8192 := rfl
  have h8192 : covers 8192 8192 := hm.le rfl
  unfold execPeerDemandDrop at hz
  obtain rfl := Host.Outcome.next.inj hz
  clear hz
  have hz := Same.refl 8192 s
  repeat' first
    | with_reducible assumption | with_reducible apply peerDemandDrop_same h8192 | with_reducible apply Same.ite
    | with_reducible apply Same.iteFst | with_reducible intro _ _ _ | split | dsimp only

theorem execSrcokChange_same {level : Bool} {s : State} {t : State}
    (hz : execSrcokChange level s = .next t) : Same 8833 s t := by
  have hm : covers 8833 8833 := rfl
  have h8833 : covers 8833 8833 := hm.le rfl
  unfold execSrcokChange at hz
  obtain rfl := Host.Outcome.next.inj hz
  clear hz
  have hz := Same.refl 8833 s
  repeat' first
    | with_reducible assumption | with_reducible apply srcokEdge_same h8833 | with_reducible apply Same.ite
    | with_reducible apply Same.iteFst | with_reducible intro _ _ _ | split | dsimp only

theorem execSourceLoss_same {s : State} {t : State} (hz : execSourceLoss s = .next t) : Same 8192 s t := by
  have hm : covers 8192 8192 := rfl
  have h8192 : covers 8192 8192 := hm.le rfl
  unfold execSourceLoss at hz
  obtain rfl := Host.Outcome.next.inj hz
  clear hz
  have hz := Same.refl 8192 s
  repeat' first
    | with_reducible assumption | with_reducible apply sourceLost_same h8192 | with_reducible apply Same.ite
    | with_reducible apply Same.iteFst | with_reducible intro _ _ _ | split | dsimp only

theorem execBkokChange_same {level : Bool} {s : State} {t : State}
    (hz : execBkokChange level s = .next t) : Same 8832 s t := by
  have hm : covers 8832 8832 := rfl
  have h8832 : covers 8832 8832 := hm.le rfl
  unfold execBkokChange at hz
  obtain rfl := Host.Outcome.next.inj hz
  clear hz
  have hz := Same.refl 8832 s
  repeat' first
    | with_reducible assumption | with_reducible apply bkokEdge_same h8832 | with_reducible apply Same.ite
    | with_reducible apply Same.iteFst | with_reducible intro _ _ _ | split | dsimp only

theorem execHandoverTimeout_same {s : State} {t : State} (hz : execHandoverTimeout s = .next t) : Same 8832 s t := by
  have hm : covers 8832 8832 := rfl
  have h8832 : covers 8832 8832 := hm.le rfl
  unfold execHandoverTimeout at hz
  obtain rfl := Host.Outcome.next.inj hz
  clear hz
  have hz := Same.refl 8832 s
  repeat' first
    | with_reducible assumption | with_reducible apply handoverTimeout_same h8832 | with_reducible apply Same.ite
    | with_reducible apply Same.iteFst | with_reducible intro _ _ _ | split | dsimp only

theorem execReturnQualified_same {s : State} {t : State} (hz : execReturnQualified s = .next t) : Same 8192 s t := by
  have hm : covers 8192 8192 := rfl
  have h8192 : covers 8192 8192 := hm.le rfl
  unfold execReturnQualified at hz
  obtain rfl := Host.Outcome.next.inj hz
  clear hz
  have hz := Same.refl 8192 s
  repeat' first
    | with_reducible assumption | with_reducible apply returnQualified_same h8192 | with_reducible apply Same.ite
    | with_reducible apply Same.iteFst | with_reducible intro _ _ _ | split | dsimp only

theorem execBackupLost_same {s : State} {t : State} (hz : execBackupLost s = .next t) : Same 8192 s t := by
  have hm : covers 8192 8192 := rfl
  have h8192 : covers 8192 8192 := hm.le rfl
  unfold execBackupLost at hz
  obtain rfl := Host.Outcome.next.inj hz
  clear hz
  have hz := Same.refl 8192 s
  repeat' first
    | with_reducible assumption | with_reducible apply backupLost_same h8192 | with_reducible apply Same.ite
    | with_reducible apply Same.iteFst | with_reducible intro _ _ _ | split | dsimp only

theorem execFormingToLost_same {s : State} {t : State} (hz : execFormingToLost s = .next t) : Same 8192 s t := by
  have hm : covers 8192 8192 := rfl
  have h8192 : covers 8192 8192 := hm.le rfl
  unfold execFormingToLost at hz
  obtain rfl := Host.Outcome.next.inj hz
  clear hz
  have hz := Same.refl 8192 s
  repeat' first
    | with_reducible assumption | with_reducible apply formingToLost_same h8192 | with_reducible apply Same.ite
    | with_reducible apply Same.iteFst | with_reducible intro _ _ _ | split | dsimp only

end Sys2Proof.Safety
end

