-- ==== Sys2Proof/Laws/SameSupplies.lean ====
section
/-! SUPPORT. The parts of the state that the operations of Machine/Supplies.lean leave alone. -/
namespace Sys2Proof.Safety

open Sys2Proof.Machine

set_option simprocs false

theorem auxStop_same {pm : Nat} {z : State} {s : State} {kind vgd : Nat} (hm : covers pm 789859) (hz : Same pm z s) :
    Same pm z (auxStop s kind vgd) := by
  have h265571 : covers pm 265571 := hm.le rfl
  have b10 : pm.testBit 10 = true := hm.bit rfl
  have b19 : pm.testBit 19 = true := hm.bit rfl
  unfold auxStop
  repeat' first
    | with_reducible assumption | with_reducible apply holdIslands_same h265571 | split | dsimp only
    | with_reducible
      refine Same.upd ?_ (.inr rfl) (.inr rfl) (.inr rfl) (.inr rfl) (.inr rfl) (.inr rfl) (.inr rfl) (.inr rfl)
        (.inr rfl) (.inr rfl) (.inl b10) (.inr rfl) (.inr rfl) (.inr rfl) (.inr rfl) (.inr rfl) (.inr rfl) (.inr rfl)
        (.inr rfl) (.inl b19) (.inr rfl) (.inr rfl)

theorem latchPhase_same {pm : Nat} {z : State} {s : State} {p : Fin 2} {cause : Nat} (hm : covers pm 790499)
    (hz : Same pm z s) :
    Same pm z (latchPhase s p cause) := by
  have h1 : covers pm 1 := hm.le rfl
  have h640 : covers pm 640 := hm.le rfl
  have h789859 : covers pm 789859 := hm.le rfl
  have b9 : pm.testBit 9 = true := hm.bit rfl
  have b19 : pm.testBit 19 = true := hm.bit rfl
  unfold latchPhase
  repeat' first
    | with_reducible assumption | with_reducible apply queueEvent_same h640 | with_reducible apply drawFree_same h1
    | with_reducible apply auxStop_same h789859 | with_reducible apply Same.ite | split | dsimp only
    | with_reducible
      refine Same.upd ?_ (.inr rfl) (.inr rfl) (.inr rfl) (.inr rfl) (.inr rfl) (.inr rfl) (.inr rfl) (.inr rfl)
        (.inr rfl) (.inl b9) (.inr rfl) (.inr rfl) (.inr rfl) (.inr rfl) (.inr rfl) (.inr rfl) (.inr rfl) (.inr rfl)
        (.inr rfl) (.inl b19) (.inr rfl) (.inr rfl)

theorem phaseOvercurrent_same {pm : Nat} {z : State} {p : Fin 2} {s : State} (hm : covers pm 790499)
    (hz : Same pm z s) :
    Same pm z (phaseOvercurrent p s) := by
  have h790499 : covers pm 790499 := hm.le rfl
  unfold phaseOvercurrent
  repeat' first
    | with_reducible assumption | with_reducible apply latchPhase_same h790499 | split | dsimp only

theorem countLimit_same {pm : Nat} {z : State} {s : State} (hm : covers pm 524288) (hz : Same pm z s) :
    Same pm z (countLimit s) := by
  have b19 : pm.testBit 19 = true := hm.bit rfl
  unfold countLimit
  repeat' first
    | with_reducible assumption | split | dsimp only
    | with_reducible
      refine Same.upd ?_ (.inr rfl) (.inr rfl) (.inr rfl) (.inr rfl) (.inr rfl) (.inr rfl) (.inr rfl) (.inr rfl)
        (.inr rfl) (.inr rfl) (.inr rfl) (.inr rfl) (.inr rfl) (.inr rfl) (.inr rfl) (.inr rfl) (.inr rfl) (.inr rfl)
        (.inr rfl) (.inl b19) (.inr rfl) (.inr rfl)

theorem limitPersists_same {pm : Nat} {z : State} {p : Fin 2} {s : State} (hm : covers pm 790499) (hz : Same pm z s) :
    Same pm z (limitPersists p s) := by
  have h524288 : covers pm 524288 := hm.le rfl
  have h790499 : covers pm 790499 := hm.le rfl
  unfold limitPersists
  repeat' first
    | with_reducible assumption | with_reducible apply latchPhase_same h790499
    | with_reducible apply countLimit_same h524288 | with_reducible apply Same.ite | split | dsimp only

theorem softStartLimit_same {pm : Nat} {z : State} {p : Fin 2} {s : State} (hm : covers pm 790499) (hz : Same pm z s) :
    Same pm z (softStartLimit p s) := by
  have h524288 : covers pm 524288 := hm.le rfl
  have h790499 : covers pm 790499 := hm.le rfl
  unfold softStartLimit
  repeat' first
    | with_reducible assumption | with_reducible apply latchPhase_same h790499
    | with_reducible apply countLimit_same h524288 | with_reducible apply Same.ite | split | dsimp only

theorem imbalance_same {pm : Nat} {z : State} {positive : Bool} {s : State} (hm : covers pm 524928) (hz : Same pm z s) :
    Same pm z (imbalance positive s) := by
  have h640 : covers pm 640 := hm.le rfl
  have b19 : pm.testBit 19 = true := hm.bit rfl
  unfold imbalance
  repeat' first
    | with_reducible assumption | with_reducible apply queueEvent_same h640 | with_reducible apply Same.ite | split
    | dsimp only
    | with_reducible
      refine Same.upd ?_ (.inr rfl) (.inr rfl) (.inr rfl) (.inr rfl) (.inr rfl) (.inr rfl) (.inr rfl) (.inr rfl)
        (.inr rfl) (.inr rfl) (.inr rfl) (.inr rfl) (.inr rfl) (.inr rfl) (.inr rfl) (.inr rfl) (.inr rfl) (.inr rfl)
        (.inr rfl) (.inl b19) (.inr rfl) (.inr rfl)

theorem imbalanceEnds_same {pm : Nat} {z : State} {s : State} (hm : covers pm 524289) (hz : Same pm z s) :
    Same pm z (imbalanceEnds s) := by
  have h1 : covers pm 1 := hm.le rfl
  have b19 : pm.testBit 19 = true := hm.bit rfl
  unfold imbalanceEnds
  repeat' first
    | with_reducible assumption | with_reducible apply drawFree_same h1 | with_reducible apply Same.ite | split
    | dsimp only
    | with_reducible
      refine Same.upd ?_ (.inr rfl) (.inr rfl) (.inr rfl) (.inr rfl) (.inr rfl) (.inr rfl) (.inr rfl) (.inr rfl)
        (.inr rfl) (.inr rfl) (.inr rfl) (.inr rfl) (.inr rfl) (.inr rfl) (.inr rfl) (.inr rfl) (.inr rfl) (.inr rfl)
        (.inr rfl) (.inl b19) (.inr rfl) (.inr rfl)

theorem brakeStarts_same {pm : Nat} {z : State} {s : State} (hm : covers pm 524288) (hz : Same pm z s) :
    Same pm z (brakeStarts s) := by
  have b19 : pm.testBit 19 = true := hm.bit rfl
  unfold brakeStarts
  repeat' first
    | with_reducible assumption | with_reducible apply Same.ite | split | dsimp only
    | with_reducible
      refine Same.upd ?_ (.inr rfl) (.inr rfl) (.inr rfl) (.inr rfl) (.inr rfl) (.inr rfl) (.inr rfl) (.inr rfl)
        (.inr rfl) (.inr rfl) (.inr rfl) (.inr rfl) (.inr rfl) (.inr rfl) (.inr rfl) (.inr rfl) (.inr rfl) (.inr rfl)
        (.inr rfl) (.inl b19) (.inr rfl) (.inr rfl)

theorem brakeEnds_same {pm : Nat} {z : State} {s : State} (hm : covers pm 524288) (hz : Same pm z s) :
    Same pm z (brakeEnds s) := by
  have b19 : pm.testBit 19 = true := hm.bit rfl
  unfold brakeEnds
  repeat' first
    | with_reducible assumption | split | dsimp only
    | with_reducible
      refine Same.upd ?_ (.inr rfl) (.inr rfl) (.inr rfl) (.inr rfl) (.inr rfl) (.inr rfl) (.inr rfl) (.inr rfl)
        (.inr rfl) (.inr rfl) (.inr rfl) (.inr rfl) (.inr rfl) (.inr rfl) (.inr rfl) (.inr rfl) (.inr rfl) (.inr rfl)
        (.inr rfl) (.inl b19) (.inr rfl) (.inr rfl)

theorem vgdOver_same {pm : Nat} {z : State} {millivolts : Nat} {s : State} (hm : covers pm 790371) (hz : Same pm z s) :
    Same pm z (vgdOver millivolts s) := by
  have h789859 : covers pm 789859 := hm.le rfl
  have b9 : pm.testBit 9 = true := hm.bit rfl
  unfold vgdOver
  repeat' first
    | with_reducible assumption | with_reducible apply auxStop_same h789859 | with_reducible apply Same.ite | split
    | dsimp only
    | with_reducible
      refine Same.upd ?_ (.inr rfl) (.inr rfl) (.inr rfl) (.inr rfl) (.inr rfl) (.inr rfl) (.inr rfl) (.inr rfl)
        (.inr rfl) (.inl b9) (.inr rfl) (.inr rfl) (.inr rfl) (.inr rfl) (.inr rfl) (.inr rfl) (.inr rfl) (.inr rfl)
        (.inr rfl) (.inr rfl) (.inr rfl) (.inr rfl)

theorem supplyShutdown_same {pm : Nat} {z : State} {s : State} (hm : covers pm 789859) (hz : Same pm z s) :
    Same pm z (supplyShutdown s) := by
  have h265571 : covers pm 265571 := hm.le rfl
  have b19 : pm.testBit 19 = true := hm.bit rfl
  unfold supplyShutdown
  repeat' first
    | with_reducible assumption | with_reducible apply holdIslands_same h265571 | with_reducible apply Same.ite
    | split | dsimp only
    | with_reducible
      refine Same.upd ?_ (.inr rfl) (.inr rfl) (.inr rfl) (.inr rfl) (.inr rfl) (.inr rfl) (.inr rfl) (.inr rfl)
        (.inr rfl) (.inr rfl) (.inr rfl) (.inr rfl) (.inr rfl) (.inr rfl) (.inr rfl) (.inr rfl) (.inr rfl) (.inr rfl)
        (.inr rfl) (.inl b19) (.inr rfl) (.inr rfl)

theorem vsoGood_same {pm : Nat} {z : State} {s : State} (hm : covers pm 526336) (hz : Same pm z s) :
    Same pm z (vsoGood s) := by
  have h2048 : covers pm 2048 := hm.le rfl
  have b19 : pm.testBit 19 = true := hm.bit rfl
  unfold vsoGood
  repeat' first
    | with_reducible assumption | with_reducible apply refreshOutputs_same h2048 | split | dsimp only
    | with_reducible
      refine Same.upd ?_ (.inr rfl) (.inr rfl) (.inr rfl) (.inr rfl) (.inr rfl) (.inr rfl) (.inr rfl) (.inr rfl)
        (.inr rfl) (.inr rfl) (.inr rfl) (.inr rfl) (.inr rfl) (.inr rfl) (.inr rfl) (.inr rfl) (.inr rfl) (.inr rfl)
        (.inr rfl) (.inl b19) (.inr rfl) (.inr rfl)

theorem vioEdge_same {pm : Nat} {z : State} {up : Bool} {s : State} (hm : covers pm 256) (hz : Same pm z s) :
    Same pm z (vioEdge up s) := by
  have b8 : pm.testBit 8 = true := hm.bit rfl
  unfold vioEdge
  repeat' first
    | with_reducible assumption | split | dsimp only
    | with_reducible
      refine Same.upd ?_ (.inr rfl) (.inr rfl) (.inr rfl) (.inr rfl) (.inr rfl) (.inr rfl) (.inr rfl) (.inr rfl)
        (.inl b8) (.inr rfl) (.inr rfl) (.inr rfl) (.inr rfl) (.inr rfl) (.inr rfl) (.inr rfl) (.inr rfl) (.inr rfl)
        (.inr rfl) (.inr rfl) (.inr rfl) (.inr rfl)

theorem modeEdge_same {pm : Nat} {z : State} {buck : Bool} {s : State} (hm : covers pm 524288) (hz : Same pm z s) :
    Same pm z (modeEdge buck s) := by
  have b19 : pm.testBit 19 = true := hm.bit rfl
  unfold modeEdge
  repeat' first
    | with_reducible assumption | with_reducible apply Same.ite | split | dsimp only
    | with_reducible
      refine Same.upd ?_ (.inr rfl) (.inr rfl) (.inr rfl) (.inr rfl) (.inr rfl) (.inr rfl) (.inr rfl) (.inr rfl)
        (.inr rfl) (.inr rfl) (.inr rfl) (.inr rfl) (.inr rfl) (.inr rfl) (.inr rfl) (.inr rfl) (.inr rfl) (.inr rfl)
        (.inr rfl) (.inl b19) (.inr rfl) (.inr rfl)

theorem alwaysOnResets_same {pm : Nat} {z : State} {s : State} (hm : covers pm 790371) (hz : Same pm z s) :
    Same pm z (alwaysOnResets s) := by
  have h265571 : covers pm 265571 := hm.le rfl
  have b1 : pm.testBit 1 = true := hm.bit rfl
  have b9 : pm.testBit 9 = true := hm.bit rfl
  have b19 : pm.testBit 19 = true := hm.bit rfl
  unfold alwaysOnResets
  repeat' first
    | with_reducible assumption | with_reducible apply holdIslands_same h265571 | split | dsimp only
    | with_reducible
      refine Same.upd ?_ (.inr rfl) (.inl b1) (.inr rfl) (.inr rfl) (.inr rfl) (.inr rfl) (.inr rfl) (.inr rfl)
        (.inr rfl) (.inl b9) (.inr rfl) (.inr rfl) (.inr rfl) (.inr rfl) (.inr rfl) (.inr rfl) (.inr rfl) (.inr rfl)
        (.inr rfl) (.inl b19) (.inr rfl) (.inr rfl)

theorem execAuxPhaseOvercurrent_same {phase : Fin 2} {s : State} {t : State}
    (hz : execAuxPhaseOvercurrent phase s = .next t) : Same 790499 s t := by
  have hm : covers 790499 790499 := rfl
  have h790499 : covers 790499 790499 := hm.le rfl
  unfold execAuxPhaseOvercurrent at hz
  obtain rfl := Host.Outcome.next.inj hz
  clear hz
  have hz := Same.refl 790499 s
  repeat' first
    | with_reducible assumption | with_reducible apply phaseOvercurrent_same h790499 | with_reducible apply Same.ite
    | with_reducible apply Same.iteFst | with_reducible intro _ _ _ | split | dsimp only

theorem execAuxLimitPersist_same {phase : Fin 2} {s : State} {t : State}
    (hz : execAuxLimitPersist phase s = .next t) : Same 790499 s t := by
  have hm : covers 790499 790499 := rfl
  have h790499 : covers 790499 790499 := hm.le rfl
  unfold execAuxLimitPersist at hz
  obtain rfl := Host.Outcome.next.inj hz
  clear hz
  have hz := Same.refl 790499 s
  repeat' first
    | with_reducible assumption | with_reducible apply limitPersists_same h790499 | with_reducible apply Same.ite
    | with_reducible apply Same.iteFst | with_reducible intro _ _ _ | split | dsimp only

theorem execAuxSoftstartLimit_same {phase : Fin 2} {s : State} {t : State}
    (hz : execAuxSoftstartLimit phase s = .next t) : Same 790499 s t := by
  have hm : covers 790499 790499 := rfl
  have h790499 : covers 790499 790499 := hm.le rfl
  unfold execAuxSoftstartLimit at hz
  obtain rfl := Host.Outcome.next.inj hz
  clear hz
  have hz := Same.refl 790499 s
  repeat' first
    | with_reducible assumption | with_reducible apply softStartLimit_same h790499 | with_reducible apply Same.ite
    | with_reducible apply Same.iteFst | with_reducible intro _ _ _ | split | dsimp only

theorem execAuxImbalance_same {positive : Bool} {s : State} {t : State}
    (hz : execAuxImbalance positive s = .next t) : Same 524928 s t := by
  have hm : covers 524928 524928 := rfl
  have h524928 : covers 524928 524928 := hm.le rfl
  unfold execAuxImbalance at hz
  obtain rfl := Host.Outcome.next.inj hz
  clear hz
  have hz := Same.refl 524928 s
  repeat' first
    | with_reducible assumption | with_reducible apply imbalance_same h524928 | with_reducible apply Same.ite
    | with_reducible apply Same.iteFst | with_reducible intro _ _ _ | split | dsimp only

theorem execAuxBrake_same {s : State} {t : State} (hz : execAuxBrake s = .next t) : Same 524288 s t := by
  have hm : covers 524288 524288 := rfl
  have h524288 : covers 524288 524288 := hm.le rfl
  unfold execAuxBrake at hz
  obtain rfl := Host.Outcome.next.inj hz
  clear hz
  have hz := Same.refl 524288 s
  repeat' first
    | with_reducible assumption | with_reducible apply brakeStarts_same h524288 | with_reducible apply Same.ite
    | with_reducible apply Same.iteFst | with_reducible intro _ _ _ | split | dsimp only

theorem execAuxBrakeEnd_same {s : State} {t : State} (hz : execAuxBrakeEnd s = .next t) : Same 524288 s t := by
  have hm : covers 524288 524288 := rfl
  have h524288 : covers 524288 524288 := hm.le rfl
  unfold execAuxBrakeEnd at hz
  obtain rfl := Host.Outcome.next.inj hz
  clear hz
  have hz := Same.refl 524288 s
  repeat' first
    | with_reducible assumption | with_reducible apply brakeEnds_same h524288 | with_reducible apply Same.ite
    | with_reducible apply Same.iteFst | with_reducible intro _ _ _ | split | dsimp only

theorem execAuxVgdOv_same {millivolts : Nat} {s : State} {t : State}
    (hz : execAuxVgdOv millivolts s = .next t) : Same 790371 s t := by
  have hm : covers 790371 790371 := rfl
  have h790371 : covers 790371 790371 := hm.le rfl
  unfold execAuxVgdOv at hz
  obtain rfl := Host.Outcome.next.inj hz
  clear hz
  have hz := Same.refl 790371 s
  repeat' first
    | with_reducible assumption | with_reducible apply vgdOver_same h790371 | with_reducible apply Same.ite
    | with_reducible apply Same.iteFst | with_reducible intro _ _ _ | split | dsimp only

theorem execSupplyLoss_same {s : State} {t : State} (hz : execSupplyLoss s = .next t) : Same 789859 s t := by
  have hm : covers 789859 789859 := rfl
  have h789859 : covers 789859 789859 := hm.le rfl
  unfold execSupplyLoss at hz
  obtain rfl := Host.Outcome.next.inj hz
  clear hz
  have hz := Same.refl 789859 s
  repeat' first
    | with_reducible assumption | with_reducible apply supplyShutdown_same h789859 | with_reducible apply Same.ite
    | with_reducible apply Same.iteFst | with_reducible intro _ _ _ | split | dsimp only

theorem execRailFault_same {s : State} {t : State} (hz : execRailFault s = .next t) : Same 789859 s t := by
  have hm : covers 789859 789859 := rfl
  have h789859 : covers 789859 789859 := hm.le rfl
  unfold execRailFault at hz
  obtain rfl := Host.Outcome.next.inj hz
  clear hz
  have hz := Same.refl 789859 s
  repeat' first
    | with_reducible assumption | with_reducible apply supplyShutdown_same h789859 | with_reducible apply Same.ite
    | with_reducible apply Same.iteFst | with_reducible intro _ _ _ | split | dsimp only

theorem execVsouvClear_same {s : State} {t : State} (hz : execVsouvClear s = .next t) : Same 526336 s t := by
  have hm : covers 526336 526336 := rfl
  have h526336 : covers 526336 526336 := hm.le rfl
  unfold execVsouvClear at hz
  obtain rfl := Host.Outcome.next.inj hz
  clear hz
  have hz := Same.refl 526336 s
  repeat' first
    | with_reducible assumption | with_reducible apply vsoGood_same h526336 | with_reducible apply Same.ite
    | with_reducible apply Same.iteFst | with_reducible intro _ _ _ | split | dsimp only

theorem execVioChange_same {up : Bool} {s : State} {t : State} (hz : execVioChange up s = .next t) : Same 256 s t := by
  have hm : covers 256 256 := rfl
  have h256 : covers 256 256 := hm.le rfl
  unfold execVioChange at hz
  obtain rfl := Host.Outcome.next.inj hz
  clear hz
  have hz := Same.refl 256 s
  repeat' first
    | with_reducible assumption | with_reducible apply vioEdge_same h256 | with_reducible apply Same.ite
    | with_reducible apply Same.iteFst | with_reducible intro _ _ _ | split | dsimp only

theorem execAuxImbalanceClear_same {s : State} {t : State}
    (hz : execAuxImbalanceClear s = .next t) : Same 524289 s t := by
  have hm : covers 524289 524289 := rfl
  have h524289 : covers 524289 524289 := hm.le rfl
  unfold execAuxImbalanceClear at hz
  obtain rfl := Host.Outcome.next.inj hz
  clear hz
  have hz := Same.refl 524289 s
  repeat' first
    | with_reducible assumption | with_reducible apply imbalanceEnds_same h524289 | with_reducible apply Same.ite
    | with_reducible apply Same.iteFst | with_reducible intro _ _ _ | split | dsimp only

theorem execAuxModeChange_same {buck : Bool} {s : State} {t : State}
    (hz : execAuxModeChange buck s = .next t) : Same 524288 s t := by
  have hm : covers 524288 524288 := rfl
  have h524288 : covers 524288 524288 := hm.le rfl
  unfold execAuxModeChange at hz
  obtain rfl := Host.Outcome.next.inj hz
  clear hz
  have hz := Same.refl 524288 s
  repeat' first
    | with_reducible assumption | with_reducible apply modeEdge_same h524288 | with_reducible apply Same.ite
    | with_reducible apply Same.iteFst | with_reducible intro _ _ _ | split | dsimp only

theorem execAlwaysOnReset_same {s : State} {t : State} (hz : execAlwaysOnReset s = .next t) : Same 790371 s t := by
  have hm : covers 790371 790371 := rfl
  have h790371 : covers 790371 790371 := hm.le rfl
  unfold execAlwaysOnReset at hz
  obtain rfl := Host.Outcome.next.inj hz
  clear hz
  have hz := Same.refl 790371 s
  repeat' first
    | with_reducible assumption | with_reducible apply alwaysOnResets_same h790371 | with_reducible apply Same.ite
    | with_reducible apply Same.iteFst | with_reducible intro _ _ _ | split | dsimp only

end Sys2Proof.Safety
end

