-- ==== Sys2Proof/Laws/SameFlags.lean ====
section
/-! SUPPORT. The parts of the state that the operations of Machine/Flags.lean leave alone. -/
namespace Sys2Proof.Safety

open Sys2Proof.Machine

set_option simprocs false

theorem deadTime_same {pm : Nat} {z : State} {s : State} {l : Fin 32} {code : Nat} (hm : covers pm 1)
    (hz : Same pm z s) :
    Same pm z (deadTime s l code).2 := by
  have h1 : covers pm 1 := hm.le rfl
  unfold deadTime
  repeat' first
    | with_reducible assumption | with_reducible apply drawFree_same h1 | with_reducible apply Same.ite
    | with_reducible apply Same.iteSnd | split | dsimp only

theorem legStat_same {pm : Nat} {z : State} {s : State} {l : Fin 32} (hm : covers pm 1) (hz : Same pm z s) :
    Same pm z (legStat s l).2 := by
  have h1 : covers pm 1 := hm.le rfl
  unfold legStat
  repeat' first
    | with_reducible assumption | with_reducible apply drawFree_same h1 | with_reducible apply deadTime_same h1
    | split | dsimp only

end Sys2Proof.Safety
end

