-- ==== Sys2Proof/Laws/SameRackbus.lean ====
section
/-! SUPPORT. The parts of the state that the operations of Machine/Rackbus.lean leave alone. -/
namespace Sys2Proof.Safety

open Sys2Proof.Machine

set_option simprocs false

theorem confine_same {pm : Nat} {z : State} {s : State} (hm : covers pm 33408) (hz : Same pm z s) :
    Same pm z (confine s) := by
  have h640 : covers pm 640 := hm.le rfl
  have b15 : pm.testBit 15 = true := hm.bit rfl
  unfold confine
  repeat' first
    | with_reducible assumption | with_reducible apply queueEvent_same h640 | with_reducible apply Same.ite | split
    | dsimp only
    | with_reducible
      refine Same.upd ?_ (.inr rfl) (.inr rfl) (.inr rfl) (.inr rfl) (.inr rfl) (.inr rfl) (.inr rfl) (.inr rfl)
        (.inr rfl) (.inr rfl) (.inr rfl) (.inr rfl) (.inr rfl) (.inr rfl) (.inr rfl) (.inl b15) (.inr rfl) (.inr rfl)
        (.inr rfl) (.inr rfl) (.inr rfl) (.inr rfl)

theorem countError_same {pm : Nat} {z : State} {kind : CanErr} {s : State} (hm : covers pm 32768) (hz : Same pm z s) :
    Same pm z (countError kind s) := by
  have b15 : pm.testBit 15 = true := hm.bit rfl
  unfold countError
  repeat' first
    | with_reducible assumption | with_reducible apply Same.ite | split | dsimp only
    | with_reducible
      refine Same.upd ?_ (.inr rfl) (.inr rfl) (.inr rfl) (.inr rfl) (.inr rfl) (.inr rfl) (.inr rfl) (.inr rfl)
        (.inr rfl) (.inr rfl) (.inr rfl) (.inr rfl) (.inr rfl) (.inr rfl) (.inr rfl) (.inl b15) (.inr rfl) (.inr rfl)
        (.inr rfl) (.inr rfl) (.inr rfl) (.inr rfl)

theorem frameFails_same {pm : Nat} {z : State} {s : State} {b : Fin 16} (hm : covers pm 32768) (hz : Same pm z s) :
    Same pm z (frameFails s b) := by
  have h32768 : covers pm 32768 := hm.le rfl
  unfold frameFails
  repeat' first
    | with_reducible assumption | with_reducible apply updTx_same h32768 | with_reducible apply failBuffer_same h32768
    | with_reducible apply countReplaced_same h32768 | with_reducible apply Same.ite | split | dsimp only
    | with_reducible
      refine Same.upd ?_ (.inr rfl) (.inr rfl) (.inr rfl) (.inr rfl) (.inr rfl) (.inr rfl) (.inr rfl) (.inr rfl)
        (.inr rfl) (.inr rfl) (.inr rfl) (.inr rfl) (.inr rfl) (.inr rfl) (.inr rfl) (.inr rfl) (.inr rfl) (.inr rfl)
        (.inr rfl) (.inr rfl) (.inr rfl) (.inr rfl)

theorem lostArbitration_same {pm : Nat} {z : State} {s : State} (hm : covers pm 32769) (hz : Same pm z s) :
    Same pm z (lostArbitration s) := by
  have h32768 : covers pm 32768 := hm.le rfl
  have h32769 : covers pm 32769 := hm.le rfl
  unfold lostArbitration
  repeat' first
    | with_reducible assumption | with_reducible apply markStarted_same h32769
    | with_reducible apply endTransmission_same h32768 | with_reducible apply frameFails_same h32768
    | with_reducible apply Same.ite | split | dsimp only
    | with_reducible
      refine Same.upd ?_ (.inr rfl) (.inr rfl) (.inr rfl) (.inr rfl) (.inr rfl) (.inr rfl) (.inr rfl) (.inr rfl)
        (.inr rfl) (.inr rfl) (.inr rfl) (.inr rfl) (.inr rfl) (.inr rfl) (.inr rfl) (.inr rfl) (.inr rfl) (.inr rfl)
        (.inr rfl) (.inr rfl) (.inr rfl) (.inr rfl)

theorem delayUpTo_same {pm : Nat} {z : State} {s : State} {most : Nat} (hm : covers pm 32769) (hz : Same pm z s) :
    Same pm z (delayUpTo s most) := by
  have h1 : covers pm 1 := hm.le rfl
  have b15 : pm.testBit 15 = true := hm.bit rfl
  unfold delayUpTo
  repeat' first
    | with_reducible assumption | with_reducible apply drawFree_same h1 | split | dsimp only
    | with_reducible
      refine Same.upd ?_ (.inr rfl) (.inr rfl) (.inr rfl) (.inr rfl) (.inr rfl) (.inr rfl) (.inr rfl) (.inr rfl)
        (.inr rfl) (.inr rfl) (.inr rfl) (.inr rfl) (.inr rfl) (.inr rfl) (.inr rfl) (.inl b15) (.inr rfl) (.inr rfl)
        (.inr rfl) (.inr rfl) (.inr rfl) (.inr rfl)

theorem measureDelay_same {pm : Nat} {z : State} {s : State} {e : List Byte} (hm : covers pm 32769) (hz : Same pm z s) :
    Same pm z (measureDelay s e) := by
  have h32769 : covers pm 32769 := hm.le rfl
  unfold measureDelay
  repeat' first
    | with_reducible assumption | with_reducible apply delayUpTo_same h32769 | with_reducible apply Same.ite | split
    | dsimp only

theorem delayOnError_same {pm : Nat} {z : State} {kind : CanErr} {s : State} {e : List Byte} (hm : covers pm 32769)
    (hz : Same pm z s) :
    Same pm z (delayOnError kind s e) := by
  have h1 : covers pm 1 := hm.le rfl
  have h32769 : covers pm 32769 := hm.le rfl
  unfold delayOnError
  repeat' first
    | with_reducible assumption | with_reducible apply drawFree_same h1 | with_reducible apply delayUpTo_same h32769
    | with_reducible apply measureDelay_same h32769 | with_reducible apply Same.ite | split | dsimp only
    | with_reducible
      refine Same.upd ?_ (.inr rfl) (.inr rfl) (.inr rfl) (.inr rfl) (.inr rfl) (.inr rfl) (.inr rfl) (.inr rfl)
        (.inr rfl) (.inr rfl) (.inr rfl) (.inr rfl) (.inr rfl) (.inr rfl) (.inr rfl) (.inr rfl) (.inr rfl) (.inr rfl)
        (.inr rfl) (.inr rfl) (.inr rfl) (.inr rfl)

theorem busError_same {pm : Nat} {z : State} {kind : CanErr} {b : Option (Fin 16)} {s : State} (hm : covers pm 33409)
    (hz : Same pm z s) :
    Same pm z (busError kind b s) := by
  have h32768 : covers pm 32768 := hm.le rfl
  have h32769 : covers pm 32769 := hm.le rfl
  have h33408 : covers pm 33408 := hm.le rfl
  unfold busError
  repeat' first
    | with_reducible assumption | with_reducible apply endTransmission_same h32768
    | with_reducible apply confine_same h33408 | with_reducible apply countError_same h32768
    | with_reducible apply frameFails_same h32768 | with_reducible apply lostArbitration_same h32769
    | with_reducible apply delayOnError_same h32769 | with_reducible apply Same.ite | split | dsimp only
    | with_reducible
      refine Same.upd ?_ (.inr rfl) (.inr rfl) (.inr rfl) (.inr rfl) (.inr rfl) (.inr rfl) (.inr rfl) (.inr rfl)
        (.inr rfl) (.inr rfl) (.inr rfl) (.inr rfl) (.inr rfl) (.inr rfl) (.inr rfl) (.inr rfl) (.inr rfl) (.inr rfl)
        (.inr rfl) (.inr rfl) (.inr rfl) (.inr rfl)

theorem busRecovered_same {pm : Nat} {z : State} {ms : Nat} {s : State} (hm : covers pm 33408) (hz : Same pm z s) :
    Same pm z (busRecovered ms s) := by
  have h640 : covers pm 640 := hm.le rfl
  have b15 : pm.testBit 15 = true := hm.bit rfl
  unfold busRecovered
  repeat' first
    | with_reducible assumption | with_reducible apply queueEvent_same h640 | with_reducible apply Same.ite | split
    | dsimp only
    | with_reducible
      refine Same.upd ?_ (.inr rfl) (.inr rfl) (.inr rfl) (.inr rfl) (.inr rfl) (.inr rfl) (.inr rfl) (.inr rfl)
        (.inr rfl) (.inr rfl) (.inr rfl) (.inr rfl) (.inr rfl) (.inr rfl) (.inr rfl) (.inl b15) (.inr rfl) (.inr rfl)
        (.inr rfl) (.inr rfl) (.inr rfl) (.inr rfl)

theorem busJoin_same {pm : Nat} {z : State} {s : State} (hm : covers pm 32768) (hz : Same pm z s) :
    Same pm z (busJoin s) := by
  have b15 : pm.testBit 15 = true := hm.bit rfl
  unfold busJoin
  repeat' first
    | with_reducible assumption | with_reducible apply Same.ite | split | dsimp only
    | with_reducible
      refine Same.upd ?_ (.inr rfl) (.inr rfl) (.inr rfl) (.inr rfl) (.inr rfl) (.inr rfl) (.inr rfl) (.inr rfl)
        (.inr rfl) (.inr rfl) (.inr rfl) (.inr rfl) (.inr rfl) (.inr rfl) (.inr rfl) (.inl b15) (.inr rfl) (.inr rfl)
        (.inr rfl) (.inr rfl) (.inr rfl) (.inr rfl)

theorem receiveSuccess_same {pm : Nat} {z : State} {s : State} (hm : covers pm 33409) (hz : Same pm z s) :
    Same pm z (receiveSuccess s) := by
  have h1 : covers pm 1 := hm.le rfl
  have h33408 : covers pm 33408 := hm.le rfl
  have b15 : pm.testBit 15 = true := hm.bit rfl
  unfold receiveSuccess
  repeat' first
    | with_reducible assumption | with_reducible apply drawFree_same h1 | with_reducible apply confine_same h33408
    | with_reducible apply Same.ite | split | dsimp only
    | with_reducible
      refine Same.upd ?_ (.inr rfl) (.inr rfl) (.inr rfl) (.inr rfl) (.inr rfl) (.inr rfl) (.inr rfl) (.inr rfl)
        (.inr rfl) (.inr rfl) (.inr rfl) (.inr rfl) (.inr rfl) (.inr rfl) (.inr rfl) (.inl b15) (.inr rfl) (.inr rfl)
        (.inr rfl) (.inr rfl) (.inr rfl) (.inr rfl)

theorem stepTbase_same {pm : Nat} {z : State} {s : State} {o : Int} (hm : covers pm 33409) (hz : Same pm z s) :
    Same pm z (stepTbase s o) := by
  have h640 : covers pm 640 := hm.le rfl
  have b0 : pm.testBit 0 = true := hm.bit rfl
  have b15 : pm.testBit 15 = true := hm.bit rfl
  unfold stepTbase
  repeat' first
    | with_reducible assumption | with_reducible apply queueEvent_same h640 | split | dsimp only
    | with_reducible
      refine Same.upd ?_ (.inl b0) (.inr rfl) (.inr rfl) (.inr rfl) (.inr rfl) (.inr rfl) (.inr rfl) (.inr rfl)
        (.inr rfl) (.inr rfl) (.inr rfl) (.inr rfl) (.inr rfl) (.inr rfl) (.inr rfl) (.inl b15) (.inr rfl) (.inr rfl)
        (.inr rfl) (.inr rfl) (.inr rfl) (.inr rfl)

theorem applyOffset_same {pm : Nat} {z : State} {s : State} {o : Int} (hm : covers pm 33409) (hz : Same pm z s) :
    Same pm z (applyOffset s o) := by
  have h33409 : covers pm 33409 := hm.le rfl
  have b15 : pm.testBit 15 = true := hm.bit rfl
  unfold applyOffset
  repeat' first
    | with_reducible assumption | with_reducible apply stepTbase_same h33409 | with_reducible apply Same.ite | split
    | dsimp only
    | with_reducible
      refine Same.upd ?_ (.inr rfl) (.inr rfl) (.inr rfl) (.inr rfl) (.inr rfl) (.inr rfl) (.inr rfl) (.inr rfl)
        (.inr rfl) (.inr rfl) (.inr rfl) (.inr rfl) (.inr rfl) (.inr rfl) (.inr rfl) (.inl b15) (.inr rfl) (.inr rfl)
        (.inr rfl) (.inr rfl) (.inr rfl) (.inr rfl)

theorem followReference_same {pm : Nat} {z : State} {s : State} {id n m sof : Nat} (hm : covers pm 33409)
    (hz : Same pm z s) :
    Same pm z (followReference s id n m sof) := by
  have h33409 : covers pm 33409 := hm.le rfl
  have b15 : pm.testBit 15 = true := hm.bit rfl
  unfold followReference
  repeat' first
    | with_reducible assumption | with_reducible apply applyOffset_same h33409 | with_reducible apply Same.ite | split
    | dsimp only
    | with_reducible
      refine Same.upd ?_ (.inr rfl) (.inr rfl) (.inr rfl) (.inr rfl) (.inr rfl) (.inr rfl) (.inr rfl) (.inr rfl)
        (.inr rfl) (.inr rfl) (.inr rfl) (.inr rfl) (.inr rfl) (.inr rfl) (.inr rfl) (.inl b15) (.inr rfl) (.inr rfl)
        (.inr rfl) (.inr rfl) (.inr rfl) (.inr rfl)

theorem timeReference_same {pm : Nat} {z : State} {f : CanFrame} {s : State} (hm : covers pm 33409) (hz : Same pm z s) :
    Same pm z (timeReference f s) := by
  have h640 : covers pm 640 := hm.le rfl
  have h32768 : covers pm 32768 := hm.le rfl
  have h33409 : covers pm 33409 := hm.le rfl
  have b15 : pm.testBit 15 = true := hm.bit rfl
  unfold timeReference
  repeat' first
    | with_reducible assumption | with_reducible apply queueEvent_same h640
    | with_reducible apply keepMessage_same h32768 | with_reducible apply followReference_same h33409
    | with_reducible apply Same.ite | split | dsimp only
    | with_reducible
      refine Same.upd ?_ (.inr rfl) (.inr rfl) (.inr rfl) (.inr rfl) (.inr rfl) (.inr rfl) (.inr rfl) (.inr rfl)
        (.inr rfl) (.inr rfl) (.inr rfl) (.inr rfl) (.inr rfl) (.inr rfl) (.inr rfl) (.inl b15) (.inr rfl) (.inr rfl)
        (.inr rfl) (.inr rfl) (.inr rfl) (.inr rfl)

theorem deviceMessage_same {pm : Nat} {z : State} {f : CanFrame} {s : State} (hm : covers pm 41601) (hz : Same pm z s) :
    Same pm z (deviceMessage f s) := by
  have h33409 : covers pm 33409 := hm.le rfl
  have h41600 : covers pm 41600 := hm.le rfl
  unfold deviceMessage
  repeat' first
    | with_reducible assumption | with_reducible apply budgetReceived_same h41600
    | with_reducible apply timeReference_same h33409 | split | dsimp only
    | with_reducible
      refine Same.upd ?_ (.inr rfl) (.inr rfl) (.inr rfl) (.inr rfl) (.inr rfl) (.inr rfl) (.inr rfl) (.inr rfl)
        (.inr rfl) (.inr rfl) (.inr rfl) (.inr rfl) (.inr rfl) (.inr rfl) (.inr rfl) (.inr rfl) (.inr rfl) (.inr rfl)
        (.inr rfl) (.inr rfl) (.inr rfl) (.inr rfl)

theorem receivePath_same {pm : Nat} {z : State} {f : CanFrame} {s : State} (hm : covers pm 2138753) (hz : Same pm z s) :
    Same pm z (receivePath f s) := by
  have h41601 : covers pm 41601 := hm.le rfl
  have h2130560 : covers pm 2130560 := hm.le rfl
  have b15 : pm.testBit 15 = true := hm.bit rfl
  unfold receivePath
  repeat' first
    | with_reducible assumption | with_reducible apply filterFrame_same h2130560
    | with_reducible apply deviceMessage_same h41601 | with_reducible apply Same.ite | split | dsimp only
    | with_reducible
      refine Same.upd ?_ (.inr rfl) (.inr rfl) (.inr rfl) (.inr rfl) (.inr rfl) (.inr rfl) (.inr rfl) (.inr rfl)
        (.inr rfl) (.inr rfl) (.inr rfl) (.inr rfl) (.inr rfl) (.inr rfl) (.inr rfl) (.inl b15) (.inr rfl) (.inr rfl)
        (.inr rfl) (.inr rfl) (.inr rfl) (.inr rfl)

theorem frameReceived_same {pm : Nat} {z : State} {f : CanFrame} {s : State} (hm : covers pm 2138753)
    (hz : Same pm z s) :
    Same pm z (frameReceived f s) := by
  have h32769 : covers pm 32769 := hm.le rfl
  have h33409 : covers pm 33409 := hm.le rfl
  have h2138753 : covers pm 2138753 := hm.le rfl
  unfold frameReceived
  repeat' first
    | with_reducible assumption | with_reducible apply lostArbitration_same h32769
    | with_reducible apply receiveSuccess_same h33409 | with_reducible apply receivePath_same h2138753
    | with_reducible apply Same.ite | split | dsimp only

theorem latchSent_same {pm : Nat} {z : State} {b : Fin 16} {e : List Byte} {sof : Nat} {s : State}
    (hm : covers pm 32768) (hz : Same pm z s) :
    Same pm z (latchSent b e sof s) := by
  have h32768 : covers pm 32768 := hm.le rfl
  have b15 : pm.testBit 15 = true := hm.bit rfl
  unfold latchSent
  repeat' first
    | with_reducible assumption | with_reducible apply updTx_same h32768 | with_reducible apply Same.ite | split
    | dsimp only
    | with_reducible
      refine Same.upd ?_ (.inr rfl) (.inr rfl) (.inr rfl) (.inr rfl) (.inr rfl) (.inr rfl) (.inr rfl) (.inr rfl)
        (.inr rfl) (.inr rfl) (.inr rfl) (.inr rfl) (.inr rfl) (.inr rfl) (.inr rfl) (.inl b15) (.inr rfl) (.inr rfl)
        (.inr rfl) (.inr rfl) (.inr rfl) (.inr rfl)

theorem loopBack_same {pm : Nat} {z : State} {f : CanFrame} {s : State} (hm : covers pm 2138753) (hz : Same pm z s) :
    Same pm z (loopBack f s) := by
  have h2138753 : covers pm 2138753 := hm.le rfl
  unfold loopBack
  repeat' first
    | with_reducible assumption | with_reducible apply receivePath_same h2138753 | with_reducible apply Same.ite
    | split | dsimp only

theorem frameSent_same {pm : Nat} {z : State} {b : Fin 16} {sof : Nat} {s : State} (hm : covers pm 2138753)
    (hz : Same pm z s) :
    Same pm z (frameSent b sof s) := by
  have h32768 : covers pm 32768 := hm.le rfl
  have h32769 : covers pm 32769 := hm.le rfl
  have h33408 : covers pm 33408 := hm.le rfl
  have h2138753 : covers pm 2138753 := hm.le rfl
  have b15 : pm.testBit 15 = true := hm.bit rfl
  unfold frameSent
  repeat' first
    | with_reducible assumption | with_reducible apply updTx_same h32768
    | with_reducible apply endTransmission_same h32768 | with_reducible apply confine_same h33408
    | with_reducible apply measureDelay_same h32769 | with_reducible apply latchSent_same h32768
    | with_reducible apply loopBack_same h2138753 | with_reducible apply Same.ite | split | dsimp only
    | with_reducible
      refine Same.upd ?_ (.inr rfl) (.inr rfl) (.inr rfl) (.inr rfl) (.inr rfl) (.inr rfl) (.inr rfl) (.inr rfl)
        (.inr rfl) (.inr rfl) (.inr rfl) (.inr rfl) (.inr rfl) (.inr rfl) (.inr rfl) (.inl b15) (.inr rfl) (.inr rfl)
        (.inr rfl) (.inr rfl) (.inr rfl) (.inr rfl)

theorem sendReference_same {pm : Nat} {z : State} {s : State} (hm : covers pm 2129921) (hz : Same pm z s) :
    Same pm z (sendReference s) := by
  have h1 : covers pm 1 := hm.le rfl
  have h2129921 : covers pm 2129921 := hm.le rfl
  have b15 : pm.testBit 15 = true := hm.bit rfl
  unfold sendReference
  repeat' first
    | with_reducible assumption | with_reducible apply drawFree_same h1
    | with_reducible apply offerMessage_same h2129921 | with_reducible apply Same.ite | split | dsimp only
    | with_reducible
      refine Same.upd ?_ (.inr rfl) (.inr rfl) (.inr rfl) (.inr rfl) (.inr rfl) (.inr rfl) (.inr rfl) (.inr rfl)
        (.inr rfl) (.inr rfl) (.inr rfl) (.inr rfl) (.inr rfl) (.inr rfl) (.inr rfl) (.inl b15) (.inr rfl) (.inr rfl)
        (.inr rfl) (.inr rfl) (.inr rfl) (.inr rfl)

theorem referenceLost_same {pm : Nat} {z : State} {s : State} (hm : covers pm 33409) (hz : Same pm z s) :
    Same pm z (referenceLost s) := by
  have h1 : covers pm 1 := hm.le rfl
  have h640 : covers pm 640 := hm.le rfl
  have b15 : pm.testBit 15 = true := hm.bit rfl
  unfold referenceLost
  repeat' first
    | with_reducible assumption | with_reducible apply queueEvent_same h640 | with_reducible apply drawFree_same h1
    | with_reducible apply Same.ite | split | dsimp only
    | with_reducible
      refine Same.upd ?_ (.inr rfl) (.inr rfl) (.inr rfl) (.inr rfl) (.inr rfl) (.inr rfl) (.inr rfl) (.inr rfl)
        (.inr rfl) (.inr rfl) (.inr rfl) (.inr rfl) (.inr rfl) (.inr rfl) (.inr rfl) (.inl b15) (.inr rfl) (.inr rfl)
        (.inr rfl) (.inr rfl) (.inr rfl) (.inr rfl)

theorem takeRole_same {pm : Nat} {z : State} {s : State} (hm : covers pm 33408) (hz : Same pm z s) :
    Same pm z (takeRole s) := by
  have h640 : covers pm 640 := hm.le rfl
  have b15 : pm.testBit 15 = true := hm.bit rfl
  unfold takeRole
  repeat' first
    | with_reducible assumption | with_reducible apply queueEvent_same h640 | with_reducible apply Same.ite | split
    | dsimp only
    | with_reducible
      refine Same.upd ?_ (.inr rfl) (.inr rfl) (.inr rfl) (.inr rfl) (.inr rfl) (.inr rfl) (.inr rfl) (.inr rfl)
        (.inr rfl) (.inr rfl) (.inr rfl) (.inr rfl) (.inr rfl) (.inr rfl) (.inr rfl) (.inl b15) (.inr rfl) (.inr rfl)
        (.inr rfl) (.inr rfl) (.inr rfl) (.inr rfl)

theorem formStatus_same {pm : Nat} {z : State} {s : State} (hm : covers pm 2129921) (hz : Same pm z s) :
    Same pm z (formStatus s) := by
  have h2129921 : covers pm 2129921 := hm.le rfl
  have b15 : pm.testBit 15 = true := hm.bit rfl
  unfold formStatus
  repeat' first
    | with_reducible assumption | with_reducible apply offerMessage_same h2129921 | with_reducible apply Same.ite
    | split | dsimp only
    | with_reducible
      refine Same.upd ?_ (.inr rfl) (.inr rfl) (.inr rfl) (.inr rfl) (.inr rfl) (.inr rfl) (.inr rfl) (.inr rfl)
        (.inr rfl) (.inr rfl) (.inr rfl) (.inr rfl) (.inr rfl) (.inr rfl) (.inr rfl) (.inl b15) (.inr rfl) (.inr rfl)
        (.inr rfl) (.inr rfl) (.inr rfl) (.inr rfl)

theorem execCanBusJoin_same {s : State} {t : State} (hz : execCanBusJoin s = .next t) : Same 32768 s t := by
  have hm : covers 32768 32768 := rfl
  have h32768 : covers 32768 32768 := hm.le rfl
  unfold execCanBusJoin at hz
  obtain rfl := Host.Outcome.next.inj hz
  clear hz
  have hz := Same.refl 32768 s
  repeat' first
    | with_reducible assumption | with_reducible apply busJoin_same h32768 | with_reducible apply Same.ite
    | with_reducible apply Same.iteFst | with_reducible intro _ _ _ | split | dsimp only

theorem execCanFrameReceived_same {frame : CanFrame} {s : State} {t : State}
    (hz : execCanFrameReceived frame s = .next t) : Same 2138753 s t := by
  have hm : covers 2138753 2138753 := rfl
  have h2138753 : covers 2138753 2138753 := hm.le rfl
  unfold execCanFrameReceived at hz
  obtain rfl := Host.Outcome.next.inj hz
  clear hz
  have hz := Same.refl 2138753 s
  repeat' first
    | with_reducible assumption | with_reducible apply frameReceived_same h2138753 | with_reducible apply Same.ite
    | with_reducible apply Same.iteFst | with_reducible intro _ _ _ | split | dsimp only

theorem execCanFrameSent_same {buffer : Fin 16} {sof : Nat} {s : State} {t : State}
    (hz : execCanFrameSent buffer sof s = .next t) : Same 2138753 s t := by
  have hm : covers 2138753 2138753 := rfl
  have h2138753 : covers 2138753 2138753 := hm.le rfl
  unfold execCanFrameSent at hz
  obtain rfl := Host.Outcome.next.inj hz
  clear hz
  have hz := Same.refl 2138753 s
  repeat' first
    | with_reducible assumption | with_reducible apply frameSent_same h2138753 | with_reducible apply Same.ite
    | with_reducible apply Same.iteFst | with_reducible intro _ _ _ | split | dsimp only

theorem execCanBusError_same {kind : CanErr} {transmitting : Option (Fin 16)} {s : State} {t : State}
    (hz : execCanBusError kind transmitting s = .next t) : Same 33409 s t := by
  have hm : covers 33409 33409 := rfl
  have h33409 : covers 33409 33409 := hm.le rfl
  unfold execCanBusError at hz
  obtain rfl := Host.Outcome.next.inj hz
  clear hz
  have hz := Same.refl 33409 s
  repeat' first
    | with_reducible assumption | with_reducible apply busError_same h33409 | with_reducible apply Same.ite
    | with_reducible apply Same.iteFst | with_reducible intro _ _ _ | split | dsimp only

theorem execCanRecovered_same {ms : Nat} {s : State} {t : State}
    (hz : execCanRecovered ms s = .next t) : Same 33408 s t := by
  have hm : covers 33408 33408 := rfl
  have h33408 : covers 33408 33408 := hm.le rfl
  unfold execCanRecovered at hz
  obtain rfl := Host.Outcome.next.inj hz
  clear hz
  have hz := Same.refl 33408 s
  repeat' first
    | with_reducible assumption | with_reducible apply busRecovered_same h33408 | with_reducible apply Same.ite
    | with_reducible apply Same.iteFst | with_reducible intro _ _ _ | split | dsimp only

theorem execTimeReferenceSend_same {s : State} {t : State}
    (hz : execTimeReferenceSend s = .next t) : Same 2129921 s t := by
  have hm : covers 2129921 2129921 := rfl
  have h2129921 : covers 2129921 2129921 := hm.le rfl
  unfold execTimeReferenceSend at hz
  obtain rfl := Host.Outcome.next.inj hz
  clear hz
  have hz := Same.refl 2129921 s
  repeat' first
    | with_reducible assumption | with_reducible apply sendReference_same h2129921 | with_reducible apply Same.ite
    | with_reducible apply Same.iteFst | with_reducible intro _ _ _ | split | dsimp only

theorem execTimeReferenceMessage_same {frame : CanFrame} {s : State} {t : State}
    (hz : execTimeReferenceMessage frame s = .next t) : Same 33409 s t := by
  have hm : covers 33409 33409 := rfl
  have h33409 : covers 33409 33409 := hm.le rfl
  unfold execTimeReferenceMessage at hz
  obtain rfl := Host.Outcome.next.inj hz
  clear hz
  have hz := Same.refl 33409 s
  repeat' first
    | with_reducible assumption | with_reducible apply timeReference_same h33409 | with_reducible apply Same.ite
    | with_reducible apply Same.iteFst | with_reducible intro _ _ _ | split | dsimp only

theorem execCanTimeLost_same {s : State} {t : State} (hz : execCanTimeLost s = .next t) : Same 33409 s t := by
  have hm : covers 33409 33409 := rfl
  have h33409 : covers 33409 33409 := hm.le rfl
  unfold execCanTimeLost at hz
  obtain rfl := Host.Outcome.next.inj hz
  clear hz
  have hz := Same.refl 33409 s
  repeat' first
    | with_reducible assumption | with_reducible apply referenceLost_same h33409 | with_reducible apply Same.ite
    | with_reducible apply Same.iteFst | with_reducible intro _ _ _ | split | dsimp only

theorem execCanTimeRole_same {s : State} {t : State} (hz : execCanTimeRole s = .next t) : Same 33408 s t := by
  have hm : covers 33408 33408 := rfl
  have h33408 : covers 33408 33408 := hm.le rfl
  unfold execCanTimeRole at hz
  obtain rfl := Host.Outcome.next.inj hz
  clear hz
  have hz := Same.refl 33408 s
  repeat' first
    | with_reducible assumption | with_reducible apply takeRole_same h33408 | with_reducible apply Same.ite
    | with_reducible apply Same.iteFst | with_reducible intro _ _ _ | split | dsimp only

theorem execStatusMessage_same {s : State} {t : State} (hz : execStatusMessage s = .next t) : Same 2129921 s t := by
  have hm : covers 2129921 2129921 := rfl
  have h2129921 : covers 2129921 2129921 := hm.le rfl
  unfold execStatusMessage at hz
  obtain rfl := Host.Outcome.next.inj hz
  clear hz
  have hz := Same.refl 2129921 s
  repeat' first
    | with_reducible assumption | with_reducible apply formStatus_same h2129921 | with_reducible apply Same.ite
    | with_reducible apply Same.iteFst | with_reducible intro _ _ _ | split | dsimp only

end Sys2Proof.Safety
end

