-- ==== Sys2Proof/Laws/SameSram.lean ====
section
/-! SUPPORT. The parts of the state that the operations of Machine/Sram.lean leave alone. -/
namespace Sys2Proof.Safety

open Sys2Proof.Machine

set_option simprocs false

theorem windowWrite_same {pm : Nat} {z : State} {s : State} {a : Nat} {l : List Byte} (hm : covers pm 2097152)
    (hz : Same pm z s) :
    Same pm z (windowWrite s a l) := by
  have b21 : pm.testBit 21 = true := hm.bit rfl
  unfold windowWrite
  repeat' first
    | with_reducible assumption | split | dsimp only
    | with_reducible
      refine Same.upd ?_ (.inr rfl) (.inr rfl) (.inr rfl) (.inr rfl) (.inr rfl) (.inr rfl) (.inr rfl) (.inr rfl)
        (.inr rfl) (.inr rfl) (.inr rfl) (.inr rfl) (.inr rfl) (.inr rfl) (.inr rfl) (.inr rfl) (.inr rfl) (.inr rfl)
        (.inr rfl) (.inr rfl) (.inr rfl) (.inl b21)

end Sys2Proof.Safety
end

