-- ==== Sys2Proof/Laws/SameDma.lean ====
section
/-! SUPPORT. The parts of the state that the operations of Machine/Dma.lean leave alone. -/
namespace Sys2Proof.Safety

open Sys2Proof.Machine

set_option simprocs false

theorem skipRecords_same {pm : Nat} {z : State} {s : State} {n : Fin 8} (hm : covers pm 65536) (hz : Same pm z s) :
    Same pm z (skipRecords s n) := by
  have h65536 : covers pm 65536 := hm.le rfl
  unfold skipRecords
  repeat' first
    | with_reducible assumption | with_reducible apply updDma_same h65536 | with_reducible apply Same.ite | split
    | dsimp only
    | with_reducible
      refine Same.upd ?_ (.inr rfl) (.inr rfl) (.inr rfl) (.inr rfl) (.inr rfl) (.inr rfl) (.inr rfl) (.inr rfl)
        (.inr rfl) (.inr rfl) (.inr rfl) (.inr rfl) (.inr rfl) (.inr rfl) (.inr rfl) (.inr rfl) (.inr rfl) (.inr rfl)
        (.inr rfl) (.inr rfl) (.inr rfl) (.inr rfl)

theorem endList_same {pm : Nat} {z : State} {s : State} {n : Fin 8} (hm : covers pm 65536) (hz : Same pm z s) :
    Same pm z (endList s n) := by
  have h65536 : covers pm 65536 := hm.le rfl
  unfold endList
  repeat' first
    | with_reducible assumption | with_reducible apply updDma_same h65536
    | with_reducible apply takeShadow_same h65536 | split | dsimp only
    | with_reducible
      refine Same.upd ?_ (.inr rfl) (.inr rfl) (.inr rfl) (.inr rfl) (.inr rfl) (.inr rfl) (.inr rfl) (.inr rfl)
        (.inr rfl) (.inr rfl) (.inr rfl) (.inr rfl) (.inr rfl) (.inr rfl) (.inr rfl) (.inr rfl) (.inr rfl) (.inr rfl)
        (.inr rfl) (.inr rfl) (.inr rfl) (.inr rfl)

theorem descBad_same {pm : Nat} {z : State} {s : State} {n : Fin 8} {a : Word} (hm : covers pm 640) (hz : Same pm z s) :
    Same pm z (descBad s n a) := by
  have h640 : covers pm 640 := hm.le rfl
  unfold descBad
  repeat' first
    | with_reducible assumption | with_reducible apply queueEvent_same h640 | split | dsimp only

theorem unfetchable_same {pm : Nat} {z : State} {s : State} {n : Fin 8} (hm : covers pm 66176) (hz : Same pm z s) :
    Same pm z (unfetchable s n) := by
  have h640 : covers pm 640 := hm.le rfl
  have h65536 : covers pm 65536 := hm.le rfl
  unfold unfetchable
  repeat' first
    | with_reducible assumption | with_reducible apply updDma_same h65536 | with_reducible apply endList_same h65536
    | with_reducible apply descBad_same h640 | split | dsimp only
    | with_reducible
      refine Same.upd ?_ (.inr rfl) (.inr rfl) (.inr rfl) (.inr rfl) (.inr rfl) (.inr rfl) (.inr rfl) (.inr rfl)
        (.inr rfl) (.inr rfl) (.inr rfl) (.inr rfl) (.inr rfl) (.inr rfl) (.inr rfl) (.inr rfl) (.inr rfl) (.inr rfl)
        (.inr rfl) (.inr rfl) (.inr rfl) (.inr rfl)

theorem writeStatus_same {pm : Nat} {z : State} {s : State} {n : Fin 8} {result : Nat} (hm : covers pm 2097152)
    (hz : Same pm z s) :
    Same pm z (writeStatus s n result) := by
  have h2097152 : covers pm 2097152 := hm.le rfl
  unfold writeStatus
  repeat' first
    | with_reducible assumption | with_reducible apply windowWrite_same h2097152 | split | dsimp only

theorem countDescriptor_same {pm : Nat} {z : State} {s : State} {n : Fin 8} {result : Nat} (hm : covers pm 66176)
    (hz : Same pm z s) :
    Same pm z (countDescriptor s n result) := by
  have h640 : covers pm 640 := hm.le rfl
  have h65536 : covers pm 65536 := hm.le rfl
  unfold countDescriptor
  repeat' first
    | with_reducible assumption | with_reducible apply updDma_same h65536 | with_reducible apply descBad_same h640
    | with_reducible apply Same.ite | split | dsimp only
    | with_reducible
      refine Same.upd ?_ (.inr rfl) (.inr rfl) (.inr rfl) (.inr rfl) (.inr rfl) (.inr rfl) (.inr rfl) (.inr rfl)
        (.inr rfl) (.inr rfl) (.inr rfl) (.inr rfl) (.inr rfl) (.inr rfl) (.inr rfl) (.inr rfl) (.inr rfl) (.inr rfl)
        (.inr rfl) (.inr rfl) (.inr rfl) (.inr rfl)

theorem descriptorDone_same {pm : Nat} {z : State} {n : Fin 8} {s : State} (hm : covers pm 2163328) (hz : Same pm z s) :
    Same pm z (descriptorDone n s) := by
  have h65536 : covers pm 65536 := hm.le rfl
  have h66176 : covers pm 66176 := hm.le rfl
  have h2097152 : covers pm 2097152 := hm.le rfl
  unfold descriptorDone
  repeat' first
    | with_reducible assumption | with_reducible apply updDma_same h65536 | with_reducible apply endList_same h65536
    | with_reducible apply writeStatus_same h2097152 | with_reducible apply countDescriptor_same h66176
    | with_reducible apply Same.ite | split | dsimp only
    | with_reducible
      refine Same.upd ?_ (.inr rfl) (.inr rfl) (.inr rfl) (.inr rfl) (.inr rfl) (.inr rfl) (.inr rfl) (.inr rfl)
        (.inr rfl) (.inr rfl) (.inr rfl) (.inr rfl) (.inr rfl) (.inr rfl) (.inr rfl) (.inr rfl) (.inr rfl) (.inr rfl)
        (.inr rfl) (.inr rfl) (.inr rfl) (.inr rfl)

theorem moveBytes_same {pm : Nat} {z : State} {s : State} {n : Fin 8} {x : List Byte} {src : List Byte} {want : Nat}
    (hm : covers pm 2162688) (hz : Same pm z s) :
    Same pm z (moveBytes s n x src want) := by
  have h65536 : covers pm 65536 := hm.le rfl
  have h2097152 : covers pm 2097152 := hm.le rfl
  unfold moveBytes
  repeat' first
    | with_reducible assumption | with_reducible apply updDma_same h65536
    | with_reducible apply windowWrite_same h2097152 | with_reducible apply Same.ite | split | dsimp only
    | with_reducible
      refine Same.upd ?_ (.inr rfl) (.inr rfl) (.inr rfl) (.inr rfl) (.inr rfl) (.inr rfl) (.inr rfl) (.inr rfl)
        (.inr rfl) (.inr rfl) (.inr rfl) (.inr rfl) (.inr rfl) (.inr rfl) (.inr rfl) (.inr rfl) (.inr rfl) (.inr rfl)
        (.inr rfl) (.inr rfl) (.inr rfl) (.inr rfl)

theorem registerWrite_same {pm : Nat} {z : State} {s : State} {n : Fin 8} {x : List Byte} (hm : covers pm 98305)
    (hz : Same pm z s) :
    Same pm z (registerWrite s n x) := by
  have h32768 : covers pm 32768 := hm.le rfl
  have h32769 : covers pm 32769 := hm.le rfl
  have h65536 : covers pm 65536 := hm.le rfl
  unfold registerWrite
  repeat' first
    | with_reducible assumption | with_reducible apply updDma_same h65536 | with_reducible apply canTxAdd_same h32769
    | with_reducible apply canRxAck_same h32768 | with_reducible apply Same.ite | split | dsimp only
    | with_reducible
      refine Same.upd ?_ (.inr rfl) (.inr rfl) (.inr rfl) (.inr rfl) (.inr rfl) (.inr rfl) (.inr rfl) (.inr rfl)
        (.inr rfl) (.inr rfl) (.inr rfl) (.inr rfl) (.inr rfl) (.inr rfl) (.inr rfl) (.inr rfl) (.inr rfl) (.inr rfl)
        (.inr rfl) (.inr rfl) (.inr rfl) (.inr rfl)

theorem unpacedBurst_same {pm : Nat} {z : State} {s : State} {n : Fin 8} {x : List Byte} (hm : covers pm 2195457)
    (hz : Same pm z s) :
    Same pm z (unpacedBurst s n x) := by
  have h98305 : covers pm 98305 := hm.le rfl
  have h2162688 : covers pm 2162688 := hm.le rfl
  unfold unpacedBurst
  repeat' first
    | with_reducible assumption | with_reducible apply moveBytes_same h2162688
    | with_reducible apply registerWrite_same h98305 | with_reducible apply Same.ite | split | dsimp only

theorem ringBurst_same {pm : Nat} {z : State} {s : State} {n : Fin 8} {x : List Byte} {c : Fin 16}
    (hm : covers pm 2162688) (hz : Same pm z s) :
    Same pm z (ringBurst s n x c) := by
  have h65536 : covers pm 65536 := hm.le rfl
  have h2162688 : covers pm 2162688 := hm.le rfl
  unfold ringBurst
  repeat' first
    | with_reducible assumption | with_reducible apply updDma_same h65536
    | with_reducible apply moveBytes_same h2162688 | split | dsimp only
    | with_reducible
      refine Same.upd ?_ (.inr rfl) (.inr rfl) (.inr rfl) (.inr rfl) (.inr rfl) (.inr rfl) (.inr rfl) (.inr rfl)
        (.inr rfl) (.inr rfl) (.inr rfl) (.inr rfl) (.inr rfl) (.inr rfl) (.inr rfl) (.inr rfl) (.inr rfl) (.inr rfl)
        (.inr rfl) (.inr rfl) (.inr rfl) (.inr rfl)

theorem releaseLate_same {pm : Nat} {z : State} {s : State} {f : Fin 2} (hm : covers pm 32768) (hz : Same pm z s) :
    Same pm z (releaseLate s f) := by
  have h32768 : covers pm 32768 := hm.le rfl
  unfold releaseLate
  repeat' first
    | with_reducible assumption | with_reducible apply updFifo_same h32768
    | with_reducible apply releaseFifo_same h32768 | split | dsimp only
    | with_reducible
      refine Same.upd ?_ (.inr rfl) (.inr rfl) (.inr rfl) (.inr rfl) (.inr rfl) (.inr rfl) (.inr rfl) (.inr rfl)
        (.inr rfl) (.inr rfl) (.inr rfl) (.inr rfl) (.inr rfl) (.inr rfl) (.inr rfl) (.inr rfl) (.inr rfl) (.inr rfl)
        (.inr rfl) (.inr rfl) (.inr rfl) (.inr rfl)

theorem fifoBurst_same {pm : Nat} {z : State} {s : State} {n : Fin 8} {x : List Byte} {f : Fin 2}
    (hm : covers pm 2195456) (hz : Same pm z s) :
    Same pm z (fifoBurst s n x f) := by
  have h32768 : covers pm 32768 := hm.le rfl
  have h2162688 : covers pm 2162688 := hm.le rfl
  unfold fifoBurst
  repeat' first
    | with_reducible assumption | with_reducible apply updFifo_same h32768
    | with_reducible apply releaseFifo_same h32768 | with_reducible apply moveBytes_same h2162688
    | with_reducible apply releaseLate_same h32768 | with_reducible apply Same.ite | split | dsimp only
    | with_reducible
      refine Same.upd ?_ (.inr rfl) (.inr rfl) (.inr rfl) (.inr rfl) (.inr rfl) (.inr rfl) (.inr rfl) (.inr rfl)
        (.inr rfl) (.inr rfl) (.inr rfl) (.inr rfl) (.inr rfl) (.inr rfl) (.inr rfl) (.inr rfl) (.inr rfl) (.inr rfl)
        (.inr rfl) (.inr rfl) (.inr rfl) (.inr rfl)

theorem burstOf_same {pm : Nat} {z : State} {s : State} {n : Fin 8} {x : List Byte} (hm : covers pm 2195457)
    (hz : Same pm z s) :
    Same pm z (burstOf s n x) := by
  have h2162688 : covers pm 2162688 := hm.le rfl
  have h2195456 : covers pm 2195456 := hm.le rfl
  have h2195457 : covers pm 2195457 := hm.le rfl
  unfold burstOf
  repeat' first
    | with_reducible assumption | with_reducible apply unpacedBurst_same h2195457
    | with_reducible apply ringBurst_same h2162688 | with_reducible apply fifoBurst_same h2195456
    | with_reducible apply Same.ite | split | dsimp only
    | with_reducible
      refine Same.upd ?_ (.inr rfl) (.inr rfl) (.inr rfl) (.inr rfl) (.inr rfl) (.inr rfl) (.inr rfl) (.inr rfl)
        (.inr rfl) (.inr rfl) (.inr rfl) (.inr rfl) (.inr rfl) (.inr rfl) (.inr rfl) (.inr rfl) (.inr rfl) (.inr rfl)
        (.inr rfl) (.inr rfl) (.inr rfl) (.inr rfl)

theorem serveChannel_same {pm : Nat} {z : State} {s : State} {n : Fin 8} (hm : covers pm 2327169) (hz : Same pm z s) :
    Same pm z (serveChannel s n) := by
  have h65536 : covers pm 65536 := hm.le rfl
  have h66176 : covers pm 66176 := hm.le rfl
  have h2195457 : covers pm 2195457 := hm.le rfl
  have b17 : pm.testBit 17 = true := hm.bit rfl
  unfold serveChannel
  repeat' first
    | with_reducible assumption | with_reducible apply updDma_same h65536
    | with_reducible apply skipRecords_same h65536 | with_reducible apply unfetchable_same h66176
    | with_reducible apply burstOf_same h2195457 | with_reducible apply Same.ite | split | dsimp only
    | with_reducible
      refine Same.upd ?_ (.inr rfl) (.inr rfl) (.inr rfl) (.inr rfl) (.inr rfl) (.inr rfl) (.inr rfl) (.inr rfl)
        (.inr rfl) (.inr rfl) (.inr rfl) (.inr rfl) (.inr rfl) (.inr rfl) (.inr rfl) (.inr rfl) (.inr rfl) (.inl b17)
        (.inr rfl) (.inr rfl) (.inr rfl) (.inr rfl)

theorem dmaBurst_same {pm : Nat} {z : State} {s : State} (hm : covers pm 2327169) (hz : Same pm z s) :
    Same pm z (dmaBurst s) := by
  have h2327169 : covers pm 2327169 := hm.le rfl
  unfold dmaBurst
  repeat' first
    | with_reducible assumption | with_reducible apply serveChannel_same h2327169 | with_reducible apply Same.ite
    | split | dsimp only
    | with_reducible
      refine Same.upd ?_ (.inr rfl) (.inr rfl) (.inr rfl) (.inr rfl) (.inr rfl) (.inr rfl) (.inr rfl) (.inr rfl)
        (.inr rfl) (.inr rfl) (.inr rfl) (.inr rfl) (.inr rfl) (.inr rfl) (.inr rfl) (.inr rfl) (.inr rfl) (.inr rfl)
        (.inr rfl) (.inr rfl) (.inr rfl) (.inr rfl)

theorem execDmaBurst_same {s : State} {t : State} (hz : execDmaBurst s = .next t) : Same 2327169 s t := by
  have hm : covers 2327169 2327169 := rfl
  have h2327169 : covers 2327169 2327169 := hm.le rfl
  unfold execDmaBurst at hz
  obtain rfl := Host.Outcome.next.inj hz
  clear hz
  have hz := Same.refl 2327169 s
  repeat' first
    | with_reducible assumption | with_reducible apply dmaBurst_same h2327169 | with_reducible apply Same.ite
    | with_reducible apply Same.iteFst | with_reducible intro _ _ _ | split | dsimp only

theorem execDmaDescriptorDone_same {n : Fin 8} {s : State} {t : State}
    (hz : execDmaDescriptorDone n s = .next t) : Same 2163328 s t := by
  have hm : covers 2163328 2163328 := rfl
  have h2163328 : covers 2163328 2163328 := hm.le rfl
  unfold execDmaDescriptorDone at hz
  obtain rfl := Host.Outcome.next.inj hz
  clear hz
  have hz := Same.refl 2163328 s
  repeat' first
    | with_reducible assumption | with_reducible apply descriptorDone_same h2163328 | with_reducible apply Same.ite
    | with_reducible apply Same.iteFst | with_reducible intro _ _ _ | split | dsimp only

end Sys2Proof.Safety
end

