-- ==== Sys2Proof/Laws/SameOperands.lean ====
section
/-! SUPPORT. The parts of the state that the operations of Machine/Operands.lean leave alone. -/
namespace Sys2Proof.Safety

open Sys2Proof.Machine

set_option simprocs false

theorem captureSys_same {pm : Nat} {z : State} {s : State} {o : Nat} (hm : covers pm 257) (hz : Same pm z s) :
    Same pm z (captureSys s o) := by
  have b0 : pm.testBit 0 = true := hm.bit rfl
  have b8 : pm.testBit 8 = true := hm.bit rfl
  unfold captureSys
  repeat' first
    | with_reducible assumption | split | dsimp only
    | with_reducible
      refine Same.upd ?_ (.inl b0) (.inr rfl) (.inr rfl) (.inr rfl) (.inr rfl) (.inr rfl) (.inr rfl) (.inr rfl)
        (.inl b8) (.inr rfl) (.inr rfl) (.inr rfl) (.inr rfl) (.inr rfl) (.inr rfl) (.inr rfl) (.inr rfl) (.inr rfl)
        (.inr rfl) (.inr rfl) (.inr rfl) (.inr rfl)

theorem captureMeas_same {pm : Nat} {z : State} {s : State} {o : Nat} (hm : covers pm 2) (hz : Same pm z s) :
    Same pm z (captureMeas s o) := by
  have h2 : covers pm 2 := hm.le rfl
  unfold captureMeas
  repeat' first
    | with_reducible assumption | with_reducible apply updCh_same h2 | with_reducible apply Same.ite | split
    | dsimp only
    | with_reducible
      refine Same.upd ?_ (.inr rfl) (.inr rfl) (.inr rfl) (.inr rfl) (.inr rfl) (.inr rfl) (.inr rfl) (.inr rfl)
        (.inr rfl) (.inr rfl) (.inr rfl) (.inr rfl) (.inr rfl) (.inr rfl) (.inr rfl) (.inr rfl) (.inr rfl) (.inr rfl)
        (.inr rfl) (.inr rfl) (.inr rfl) (.inr rfl)

theorem drawHalf_same {pm : Nat} {z : State} {s : State} (hm : covers pm 1) (hz : Same pm z s) :
    Same pm z (drawHalf s).2 := by
  have h1 : covers pm 1 := hm.le rfl
  unfold drawHalf
  repeat' first
    | with_reducible assumption | with_reducible apply drawFree_same h1 | split | dsimp only

theorem drawPeak_same {pm : Nat} {z : State} {s : State} {old : Nat × Nat} (hm : covers pm 1) (hz : Same pm z s) :
    Same pm z (drawPeak s old).2 := by
  have h1 : covers pm 1 := hm.le rfl
  unfold drawPeak
  repeat' first
    | with_reducible assumption | with_reducible apply drawHalf_same h1 | split | dsimp only

theorem measureAux_same {pm : Nat} {z : State} {s : State} {o : Nat} (hm : covers pm 524289) (hz : Same pm z s) :
    Same pm z (measureAux s o) := by
  have h1 : covers pm 1 := hm.le rfl
  have b19 : pm.testBit 19 = true := hm.bit rfl
  unfold measureAux
  repeat' first
    | with_reducible assumption | with_reducible apply drawFree_same h1 | with_reducible apply drawHalf_same h1
    | with_reducible apply drawPeak_same h1 | with_reducible apply Same.ite | split | dsimp only
    | with_reducible
      refine Same.upd ?_ (.inr rfl) (.inr rfl) (.inr rfl) (.inr rfl) (.inr rfl) (.inr rfl) (.inr rfl) (.inr rfl)
        (.inr rfl) (.inr rfl) (.inr rfl) (.inr rfl) (.inr rfl) (.inr rfl) (.inr rfl) (.inr rfl) (.inr rfl) (.inr rfl)
        (.inr rfl) (.inl b19) (.inr rfl) (.inr rfl)

theorem readPlace_same {pm : Nat} {z : State} {s : State} {p : Place} (hm : covers pm 786691) (hz : Same pm z s) :
    Same pm z (readPlace s p).2 := by
  have h1 : covers pm 1 := hm.le rfl
  have h2 : covers pm 2 := hm.le rfl
  have h257 : covers pm 257 := hm.le rfl
  have h262145 : covers pm 262145 := hm.le rfl
  have h524289 : covers pm 524289 := hm.le rfl
  unfold readPlace
  repeat' first
    | with_reducible assumption | with_reducible apply updCh_same h2 | with_reducible apply pageRuns_same h262145
    | with_reducible apply legStat_same h1 | with_reducible apply captureSys_same h257
    | with_reducible apply captureMeas_same h2 | with_reducible apply measureAux_same h524289
    | with_reducible apply Same.ite | with_reducible apply Same.iteSnd | split | dsimp only
    | with_reducible
      refine Same.upd ?_ (.inr rfl) (.inr rfl) (.inr rfl) (.inr rfl) (.inr rfl) (.inr rfl) (.inr rfl) (.inr rfl)
        (.inr rfl) (.inr rfl) (.inr rfl) (.inr rfl) (.inr rfl) (.inr rfl) (.inr rfl) (.inr rfl) (.inr rfl) (.inr rfl)
        (.inr rfl) (.inr rfl) (.inr rfl) (.inr rfl)

theorem readReg_same {pm : Nat} {z s : State} {a : Word} {r : Word × State} (hr : readReg s a = some r)
    (hm : covers pm 786691) (hz : Same pm z s) : Same pm z r.2 := by
  unfold readReg at hr
  cases hp : placeOf a with
  | none => rw [hp] at hr; cases hr
  | some p =>
    rw [hp] at hr
    obtain rfl := Option.some.inj hr
    exact readPlace_same hm hz

theorem readBlock_same {pm : Nat} {z : State} {n : Nat} {s : State} {a : Word} {r : List Byte × State}
    (hr : readBlock s a n = some r) (hm : covers pm 786691) (hz : Same pm z s) : Same pm z r.2 := by
  induction n generalizing s a r with
  | zero =>
    obtain rfl := Option.some.inj hr
    exact hz
  | succ n ih =>
    unfold readBlock at hr
    split at hr
    · cases hr
    · rename_i q hq
      split at hr
      · cases hr
      · rename_i p hp
        obtain rfl := Option.some.inj hr
        have hk := ih hp (readReg_same hq hm hz)
        exact hk

end Sys2Proof.Safety
end

