-- ==== Sys2Proof/Laws/SameMemoryEvents.lean ====
section
/-! SUPPORT. The parts of the state that the operations of Machine/MemoryEvents.lean leave alone. -/
namespace Sys2Proof.Safety

open Sys2Proof.Machine

set_option simprocs false

theorem eccUncorr_same {pm : Nat} {z : State} {s : State} {w : Nat} (hm : covers pm 640) (hz : Same pm z s) :
    Same pm z (eccUncorr s w) := by
  have h640 : covers pm 640 := hm.le rfl
  unfold eccUncorr
  repeat' first
    | with_reducible assumption | with_reducible apply queueEvent_same h640 | split | dsimp only

theorem damageRing_same {pm : Nat} {z : State} {s : State} {c : Fin 16} {o w : Nat} (hm : covers pm 642)
    (hz : Same pm z s) :
    Same pm z (damageRing s c o w) := by
  have h2 : covers pm 2 := hm.le rfl
  have h640 : covers pm 640 := hm.le rfl
  unfold damageRing
  repeat' first
    | with_reducible assumption | with_reducible apply updCh_same h2 | with_reducible apply queueEvent_same h640
    | with_reducible apply eccUncorr_same h640 | with_reducible apply Same.ite | split | dsimp only
    | with_reducible
      refine Same.upd ?_ (.inr rfl) (.inr rfl) (.inr rfl) (.inr rfl) (.inr rfl) (.inr rfl) (.inr rfl) (.inr rfl)
        (.inr rfl) (.inr rfl) (.inr rfl) (.inr rfl) (.inr rfl) (.inr rfl) (.inr rfl) (.inr rfl) (.inr rfl) (.inr rfl)
        (.inr rfl) (.inr rfl) (.inr rfl) (.inr rfl)

theorem reloadCopy_same {pm : Nat} {z : State} {s : State} {c : Fin 16} {w : Nat} (hm : covers pm 962)
    (hz : Same pm z s) :
    Same pm z (reloadCopy s c w) := by
  have h2 : covers pm 2 := hm.le rfl
  have h640 : covers pm 640 := hm.le rfl
  have h962 : covers pm 962 := hm.le rfl
  unfold reloadCopy
  repeat' first
    | with_reducible assumption | with_reducible apply updProg_same h2 | with_reducible apply queueEvent_same h640
    | with_reducible apply addCause_same h2 | with_reducible apply holdNow_same h962
    | with_reducible apply eccUncorr_same h640 | with_reducible apply Same.ite | split | dsimp only
    | with_reducible
      refine Same.upd ?_ (.inr rfl) (.inr rfl) (.inr rfl) (.inr rfl) (.inr rfl) (.inr rfl) (.inr rfl) (.inr rfl)
        (.inr rfl) (.inr rfl) (.inr rfl) (.inr rfl) (.inr rfl) (.inr rfl) (.inr rfl) (.inr rfl) (.inr rfl) (.inr rfl)
        (.inr rfl) (.inr rfl) (.inr rfl) (.inr rfl)

theorem damageCheckpoint_same {pm : Nat} {z : State} {s : State} {i : Nat} (hm : covers pm 657) (hz : Same pm z s) :
    Same pm z (damageCheckpoint s i) := by
  have h16 : covers pm 16 := hm.le rfl
  have h640 : covers pm 640 := hm.le rfl
  have b0 : pm.testBit 0 = true := hm.bit rfl
  have b9 : pm.testBit 9 = true := hm.bit rfl
  unfold damageCheckpoint
  repeat' first
    | with_reducible assumption | with_reducible apply updCe_same h16 | with_reducible apply queueEvent_same h640
    | with_reducible apply Same.ite | split | dsimp only
    | with_reducible
      refine Same.upd ?_ (.inl b0) (.inr rfl) (.inr rfl) (.inr rfl) (.inr rfl) (.inr rfl) (.inr rfl) (.inr rfl)
        (.inr rfl) (.inl b9) (.inr rfl) (.inr rfl) (.inr rfl) (.inr rfl) (.inr rfl) (.inr rfl) (.inr rfl) (.inr rfl)
        (.inr rfl) (.inr rfl) (.inr rfl) (.inr rfl)

theorem damageLog_same {pm : Nat} {z : State} {s : State} {n i : Nat} (hm : covers pm 1) (hz : Same pm z s) :
    Same pm z (damageLog s n i) := by
  have b0 : pm.testBit 0 = true := hm.bit rfl
  unfold damageLog
  repeat' first
    | with_reducible assumption | with_reducible apply Same.ite | split | dsimp only
    | with_reducible
      refine Same.upd ?_ (.inl b0) (.inr rfl) (.inr rfl) (.inr rfl) (.inr rfl) (.inr rfl) (.inr rfl) (.inr rfl)
        (.inr rfl) (.inr rfl) (.inr rfl) (.inr rfl) (.inr rfl) (.inr rfl) (.inr rfl) (.inr rfl) (.inr rfl) (.inr rfl)
        (.inr rfl) (.inr rfl) (.inr rfl) (.inr rfl)

theorem damageIsland_same {pm : Nat} {z : State} {s : State} {w : Nat} (hm : covers pm 657) (hz : Same pm z s) :
    Same pm z (damageIsland s w) := by
  have h1 : covers pm 1 := hm.le rfl
  have h640 : covers pm 640 := hm.le rfl
  have h657 : covers pm 657 := hm.le rfl
  unfold damageIsland
  repeat' first
    | with_reducible assumption | with_reducible apply drawFree_same h1 | with_reducible apply eccUncorr_same h640
    | with_reducible apply damageCheckpoint_same h657 | with_reducible apply damageLog_same h1 | split | dsimp only
    | with_reducible
      refine Same.upd ?_ (.inr rfl) (.inr rfl) (.inr rfl) (.inr rfl) (.inr rfl) (.inr rfl) (.inr rfl) (.inr rfl)
        (.inr rfl) (.inr rfl) (.inr rfl) (.inr rfl) (.inr rfl) (.inr rfl) (.inr rfl) (.inr rfl) (.inr rfl) (.inr rfl)
        (.inr rfl) (.inr rfl) (.inr rfl) (.inr rfl)

theorem damageWord_same {pm : Nat} {z : State} {s : State} {w : Nat} (hm : covers pm 2098131) (hz : Same pm z s) :
    Same pm z (damageWord s w) := by
  have h2 : covers pm 2 := hm.le rfl
  have h640 : covers pm 640 := hm.le rfl
  have h642 : covers pm 642 := hm.le rfl
  have h657 : covers pm 657 := hm.le rfl
  have h962 : covers pm 962 := hm.le rfl
  have h2097152 : covers pm 2097152 := hm.le rfl
  have b7 : pm.testBit 7 = true := hm.bit rfl
  unfold damageWord
  repeat' first
    | with_reducible assumption | with_reducible apply updCh_same h2 | with_reducible apply windowWrite_same h2097152
    | with_reducible apply eccUncorr_same h640 | with_reducible apply damageRing_same h642
    | with_reducible apply reloadCopy_same h962 | with_reducible apply damageIsland_same h657
    | with_reducible apply Same.ite | split | dsimp only
    | with_reducible
      refine Same.upd ?_ (.inr rfl) (.inr rfl) (.inr rfl) (.inr rfl) (.inr rfl) (.inr rfl) (.inr rfl) (.inl b7)
        (.inr rfl) (.inr rfl) (.inr rfl) (.inr rfl) (.inr rfl) (.inr rfl) (.inr rfl) (.inr rfl) (.inr rfl) (.inr rfl)
        (.inr rfl) (.inr rfl) (.inr rfl) (.inr rfl)

theorem dmaMeets_same {pm : Nat} {z : State} {s : State} {n : Fin 8} {w : Nat} (hm : covers pm 2163328)
    (hz : Same pm z s) :
    Same pm z (dmaMeets s n w) := by
  have h65536 : covers pm 65536 := hm.le rfl
  have h66176 : covers pm 66176 := hm.le rfl
  have h2162688 : covers pm 2162688 := hm.le rfl
  unfold dmaMeets
  repeat' first
    | with_reducible assumption | with_reducible apply updDma_same h65536
    | with_reducible apply unfetchable_same h66176 | with_reducible apply moveBytes_same h2162688
    | with_reducible apply Same.ite | split | dsimp only
    | with_reducible
      refine Same.upd ?_ (.inr rfl) (.inr rfl) (.inr rfl) (.inr rfl) (.inr rfl) (.inr rfl) (.inr rfl) (.inr rfl)
        (.inr rfl) (.inr rfl) (.inr rfl) (.inr rfl) (.inr rfl) (.inr rfl) (.inr rfl) (.inr rfl) (.inr rfl) (.inr rfl)
        (.inr rfl) (.inr rfl) (.inr rfl) (.inr rfl)

theorem dmaMayMeet_same {pm : Nat} {z : State} {s : State} {w : Nat} (hm : covers pm 2163329) (hz : Same pm z s) :
    Same pm z (dmaMayMeet s w) := by
  have h1 : covers pm 1 := hm.le rfl
  have h2163328 : covers pm 2163328 := hm.le rfl
  unfold dmaMayMeet
  repeat' first
    | with_reducible assumption | with_reducible apply drawFree_same h1 | with_reducible apply dmaMeets_same h2163328
    | with_reducible apply Same.ite | split | dsimp only
    | with_reducible
      refine Same.upd ?_ (.inr rfl) (.inr rfl) (.inr rfl) (.inr rfl) (.inr rfl) (.inr rfl) (.inr rfl) (.inr rfl)
        (.inr rfl) (.inr rfl) (.inr rfl) (.inr rfl) (.inr rfl) (.inr rfl) (.inr rfl) (.inr rfl) (.inr rfl) (.inr rfl)
        (.inr rfl) (.inr rfl) (.inr rfl) (.inr rfl)

theorem startCopy_same {pm : Nat} {z : State} {s : State} {row : Nat} (hm : covers pm 262144) (hz : Same pm z s) :
    Same pm z (startCopy s row) := by
  have b18 : pm.testBit 18 = true := hm.bit rfl
  unfold startCopy
  repeat' first
    | with_reducible assumption | with_reducible apply Same.ite | split | dsimp only
    | with_reducible
      refine Same.upd ?_ (.inr rfl) (.inr rfl) (.inr rfl) (.inr rfl) (.inr rfl) (.inr rfl) (.inr rfl) (.inr rfl)
        (.inr rfl) (.inr rfl) (.inr rfl) (.inr rfl) (.inr rfl) (.inr rfl) (.inr rfl) (.inr rfl) (.inr rfl) (.inr rfl)
        (.inl b18) (.inr rfl) (.inr rfl) (.inr rfl)

theorem countRow_same {pm : Nat} {z : State} {s : State} {row : Nat} (hm : covers pm 262144) (hz : Same pm z s) :
    Same pm z (countRow s row) := by
  have h262144 : covers pm 262144 := hm.le rfl
  have b18 : pm.testBit 18 = true := hm.bit rfl
  unfold countRow
  repeat' first
    | with_reducible assumption | with_reducible apply startCopy_same h262144 | with_reducible apply Same.ite | split
    | dsimp only
    | with_reducible
      refine Same.upd ?_ (.inr rfl) (.inr rfl) (.inr rfl) (.inr rfl) (.inr rfl) (.inr rfl) (.inr rfl) (.inr rfl)
        (.inr rfl) (.inr rfl) (.inr rfl) (.inr rfl) (.inr rfl) (.inr rfl) (.inr rfl) (.inr rfl) (.inr rfl) (.inr rfl)
        (.inl b18) (.inr rfl) (.inr rfl) (.inr rfl)

theorem eccError_same {pm : Nat} {z : State} {addr : Word} {double : Bool} {s : State} (hm : covers pm 2425811)
    (hz : Same pm z s) :
    Same pm z (eccError addr double s) := by
  have h640 : covers pm 640 := hm.le rfl
  have h262144 : covers pm 262144 := hm.le rfl
  have h2098131 : covers pm 2098131 := hm.le rfl
  have h2163329 : covers pm 2163329 := hm.le rfl
  have b18 : pm.testBit 18 = true := hm.bit rfl
  unfold eccError
  repeat' first
    | with_reducible assumption | with_reducible apply queueRated_same h640
    | with_reducible apply damageWord_same h2098131 | with_reducible apply dmaMayMeet_same h2163329
    | with_reducible apply startCopy_same h262144 | with_reducible apply countRow_same h262144
    | with_reducible apply Same.ite | split | dsimp only
    | with_reducible
      refine Same.upd ?_ (.inr rfl) (.inr rfl) (.inr rfl) (.inr rfl) (.inr rfl) (.inr rfl) (.inr rfl) (.inr rfl)
        (.inr rfl) (.inr rfl) (.inr rfl) (.inr rfl) (.inr rfl) (.inr rfl) (.inr rfl) (.inr rfl) (.inr rfl) (.inr rfl)
        (.inl b18) (.inr rfl) (.inr rfl) (.inr rfl)

theorem rowRepaired_same {pm : Nat} {z : State} {row : Fin 2048} {s : State} (hm : covers pm 262784)
    (hz : Same pm z s) :
    Same pm z (rowRepaired row s) := by
  have h640 : covers pm 640 := hm.le rfl
  have b18 : pm.testBit 18 = true := hm.bit rfl
  unfold rowRepaired
  repeat' first
    | with_reducible assumption | with_reducible apply queueEvent_same h640 | with_reducible apply Same.ite | split
    | dsimp only
    | with_reducible
      refine Same.upd ?_ (.inr rfl) (.inr rfl) (.inr rfl) (.inr rfl) (.inr rfl) (.inr rfl) (.inr rfl) (.inr rfl)
        (.inr rfl) (.inr rfl) (.inr rfl) (.inr rfl) (.inr rfl) (.inr rfl) (.inr rfl) (.inr rfl) (.inr rfl) (.inr rfl)
        (.inl b18) (.inr rfl) (.inr rfl) (.inr rfl)

theorem refreshDue_same {pm : Nat} {z : State} {s : State} (hm : covers pm 262784) (hz : Same pm z s) :
    Same pm z (refreshDue s) := by
  have h640 : covers pm 640 := hm.le rfl
  have b18 : pm.testBit 18 = true := hm.bit rfl
  unfold refreshDue
  repeat' first
    | with_reducible assumption | with_reducible apply queueEvent_same h640 | with_reducible apply Same.ite | split
    | dsimp only
    | with_reducible
      refine Same.upd ?_ (.inr rfl) (.inr rfl) (.inr rfl) (.inr rfl) (.inr rfl) (.inr rfl) (.inr rfl) (.inr rfl)
        (.inr rfl) (.inr rfl) (.inr rfl) (.inr rfl) (.inr rfl) (.inr rfl) (.inr rfl) (.inr rfl) (.inr rfl) (.inr rfl)
        (.inl b18) (.inr rfl) (.inr rfl) (.inr rfl)

theorem pageDone_same {pm : Nat} {z : State} {ok : Bool} {s : State} (hm : covers pm 263808) (hz : Same pm z s) :
    Same pm z (pageDone ok s) := by
  have h640 : covers pm 640 := hm.le rfl
  have b10 : pm.testBit 10 = true := hm.bit rfl
  have b18 : pm.testBit 18 = true := hm.bit rfl
  unfold pageDone
  repeat' first
    | with_reducible assumption | with_reducible apply queueEvent_same h640 | with_reducible apply Same.ite | split
    | dsimp only
    | with_reducible
      refine Same.upd ?_ (.inr rfl) (.inr rfl) (.inr rfl) (.inr rfl) (.inr rfl) (.inr rfl) (.inr rfl) (.inr rfl)
        (.inr rfl) (.inr rfl) (.inl b10) (.inr rfl) (.inr rfl) (.inr rfl) (.inr rfl) (.inr rfl) (.inr rfl) (.inr rfl)
        (.inl b18) (.inr rfl) (.inr rfl) (.inr rfl)

theorem refreshPage_same {pm : Nat} {z : State} {ok : Bool} {s : State} (hm : covers pm 263808) (hz : Same pm z s) :
    Same pm z (refreshPage ok s) := by
  have h640 : covers pm 640 := hm.le rfl
  have h263808 : covers pm 263808 := hm.le rfl
  have b10 : pm.testBit 10 = true := hm.bit rfl
  have b18 : pm.testBit 18 = true := hm.bit rfl
  unfold refreshPage
  repeat' first
    | with_reducible assumption | with_reducible apply queueEvent_same h640
    | with_reducible apply pageDone_same h263808 | with_reducible apply Same.ite | split | dsimp only
    | with_reducible
      refine Same.upd ?_ (.inr rfl) (.inr rfl) (.inr rfl) (.inr rfl) (.inr rfl) (.inr rfl) (.inr rfl) (.inr rfl)
        (.inr rfl) (.inr rfl) (.inl b10) (.inr rfl) (.inr rfl) (.inr rfl) (.inr rfl) (.inr rfl) (.inr rfl) (.inr rfl)
        (.inl b18) (.inr rfl) (.inr rfl) (.inr rfl)

theorem execSramEccError_same {addr : Word} {double : Bool} {s : State} {t : State}
    (hz : execSramEccError addr double s = .next t) : Same 2425811 s t := by
  have hm : covers 2425811 2425811 := rfl
  have h2425811 : covers 2425811 2425811 := hm.le rfl
  unfold execSramEccError at hz
  obtain rfl := Host.Outcome.next.inj hz
  clear hz
  have hz := Same.refl 2425811 s
  repeat' first
    | with_reducible assumption | with_reducible apply eccError_same h2425811 | with_reducible apply Same.ite
    | with_reducible apply Same.iteFst | with_reducible intro _ _ _ | split | dsimp only

theorem execRowRepairDone_same {row : Fin 2048} {s : State} {t : State}
    (hz : execRowRepairDone row s = .next t) : Same 262784 s t := by
  have hm : covers 262784 262784 := rfl
  have h262784 : covers 262784 262784 := hm.le rfl
  unfold execRowRepairDone at hz
  obtain rfl := Host.Outcome.next.inj hz
  clear hz
  have hz := Same.refl 262784 s
  repeat' first
    | with_reducible assumption | with_reducible apply rowRepaired_same h262784 | with_reducible apply Same.ite
    | with_reducible apply Same.iteFst | with_reducible intro _ _ _ | split | dsimp only

theorem execNvmRefreshDue_same {s : State} {t : State} (hz : execNvmRefreshDue s = .next t) : Same 262784 s t := by
  have hm : covers 262784 262784 := rfl
  have h262784 : covers 262784 262784 := hm.le rfl
  unfold execNvmRefreshDue at hz
  obtain rfl := Host.Outcome.next.inj hz
  clear hz
  have hz := Same.refl 262784 s
  repeat' first
    | with_reducible assumption | with_reducible apply refreshDue_same h262784 | with_reducible apply Same.ite
    | with_reducible apply Same.iteFst | with_reducible intro _ _ _ | split | dsimp only

theorem execNvmRefreshPage_same {ok : Bool} {s : State} {t : State}
    (hz : execNvmRefreshPage ok s = .next t) : Same 263808 s t := by
  have hm : covers 263808 263808 := rfl
  have h263808 : covers 263808 263808 := hm.le rfl
  unfold execNvmRefreshPage at hz
  obtain rfl := Host.Outcome.next.inj hz
  clear hz
  have hz := Same.refl 263808 s
  repeat' first
    | with_reducible assumption | with_reducible apply refreshPage_same h263808 | with_reducible apply Same.ite
    | with_reducible apply Same.iteFst | with_reducible intro _ _ _ | split | dsimp only

end Sys2Proof.Safety
end

