-- ==== Sys2Proof/Laws/SameBootOps.lean ====
section
/-! SUPPORT. The parts of the state that the operations of Machine/BootOps.lean leave alone. -/
namespace Sys2Proof.Safety

open Sys2Proof.Machine

set_option simprocs false

theorem resetStuck_same {pm : Nat} {z : State} {s : State} (hm : covers pm 512) (hz : Same pm z s) :
    Same pm z (resetStuck s) := by
  have b9 : pm.testBit 9 = true := hm.bit rfl
  unfold resetStuck
  repeat' first
    | with_reducible assumption | with_reducible apply Same.ite | split | dsimp only
    | with_reducible
      refine Same.upd ?_ (.inr rfl) (.inr rfl) (.inr rfl) (.inr rfl) (.inr rfl) (.inr rfl) (.inr rfl) (.inr rfl)
        (.inr rfl) (.inl b9) (.inr rfl) (.inr rfl) (.inr rfl) (.inr rfl) (.inr rfl) (.inr rfl) (.inr rfl) (.inr rfl)
        (.inr rfl) (.inr rfl) (.inr rfl) (.inr rfl)

theorem execRstStuck_same {s : State} {t : State} (hz : execRstStuck s = .next t) : Same 512 s t := by
  have hm : covers 512 512 := rfl
  have h512 : covers 512 512 := hm.le rfl
  unfold execRstStuck at hz
  obtain rfl := Host.Outcome.next.inj hz
  clear hz
  have hz := Same.refl 512 s
  repeat' first
    | with_reducible assumption | with_reducible apply resetStuck_same h512 | with_reducible apply Same.ite
    | with_reducible apply Same.iteFst | with_reducible intro _ _ _ | split | dsimp only

end Sys2Proof.Safety
end

