-- ==== Sys2Proof/Laws/SameHostPort.lean ====
section
/-! SUPPORT. The parts of the state that the operations of Machine/HostPort.lean leave alone. -/
namespace Sys2Proof.Safety

open Sys2Proof.Machine

set_option simprocs false

theorem updPort_same {pm : Nat} {z : State} {s : State} {f : HostPort → HostPort} (hm : covers pm 256)
    (hz : Same pm z s) :
    Same pm z (State.updPort s f) := by
  have b8 : pm.testBit 8 = true := hm.bit rfl
  unfold State.updPort
  repeat' first
    | with_reducible assumption | split | dsimp only
    | with_reducible
      refine Same.upd ?_ (.inr rfl) (.inr rfl) (.inr rfl) (.inr rfl) (.inr rfl) (.inr rfl) (.inr rfl) (.inr rfl)
        (.inl b8) (.inr rfl) (.inr rfl) (.inr rfl) (.inr rfl) (.inr rfl) (.inr rfl) (.inr rfl) (.inr rfl) (.inr rfl)
        (.inr rfl) (.inr rfl) (.inr rfl) (.inr rfl)

theorem beginFrame_same {pm : Nat} {z : State} {s : State} (hm : covers pm 256) (hz : Same pm z s) :
    Same pm z (beginFrame s) := by
  have h256 : covers pm 256 := hm.le rfl
  unfold beginFrame
  repeat' first
    | with_reducible assumption | with_reducible apply updPort_same h256 | split | dsimp only
    | with_reducible
      refine Same.upd ?_ (.inr rfl) (.inr rfl) (.inr rfl) (.inr rfl) (.inr rfl) (.inr rfl) (.inr rfl) (.inr rfl)
        (.inr rfl) (.inr rfl) (.inr rfl) (.inr rfl) (.inr rfl) (.inr rfl) (.inr rfl) (.inr rfl) (.inr rfl) (.inr rfl)
        (.inr rfl) (.inr rfl) (.inr rfl) (.inr rfl)

theorem rereadReply_same {pm : Nat} {z : State} {clocked : Nat} {s : State} (hm : covers pm 256) (hz : Same pm z s) :
    Same pm z (rereadReply clocked s) := by
  have h256 : covers pm 256 := hm.le rfl
  unfold rereadReply
  repeat' first
    | with_reducible assumption | with_reducible apply updPort_same h256 | with_reducible apply beginFrame_same h256
    | with_reducible apply Same.ite | split | dsimp only

theorem acceptFrame_same {pm : Nat} {z : State} {s : State} {b : List Byte} (hm : covers pm 256) (hz : Same pm z s) :
    Same pm z (acceptFrame s b) := by
  have h256 : covers pm 256 := hm.le rfl
  unfold acceptFrame
  repeat' first
    | with_reducible assumption | with_reducible apply acceptUnder_same h256 | with_reducible apply updPort_same h256
    | with_reducible apply Same.ite | split | dsimp only
    | with_reducible
      refine Same.upd ?_ (.inr rfl) (.inr rfl) (.inr rfl) (.inr rfl) (.inr rfl) (.inr rfl) (.inr rfl) (.inr rfl)
        (.inr rfl) (.inr rfl) (.inr rfl) (.inr rfl) (.inr rfl) (.inr rfl) (.inr rfl) (.inr rfl) (.inr rfl) (.inr rfl)
        (.inr rfl) (.inr rfl) (.inr rfl) (.inr rfl)

theorem countCrce_same {pm : Nat} {z : State} {s : State} (hm : covers pm 256) (hz : Same pm z s) :
    Same pm z (countCrce s) := by
  have h256 : covers pm 256 := hm.le rfl
  unfold countCrce
  repeat' first
    | with_reducible assumption | with_reducible apply updPort_same h256 | split | dsimp only
    | with_reducible
      refine Same.upd ?_ (.inr rfl) (.inr rfl) (.inr rfl) (.inr rfl) (.inr rfl) (.inr rfl) (.inr rfl) (.inr rfl)
        (.inr rfl) (.inr rfl) (.inr rfl) (.inr rfl) (.inr rfl) (.inr rfl) (.inr rfl) (.inr rfl) (.inr rfl) (.inr rfl)
        (.inr rfl) (.inr rfl) (.inr rfl) (.inr rfl)

theorem answerRepeat_same {pm : Nat} {z : State} {s : State} {x : Replay} (hm : covers pm 256) (hz : Same pm z s) :
    Same pm z (answerRepeat s x) := by
  have h256 : covers pm 256 := hm.le rfl
  unfold answerRepeat
  repeat' first
    | with_reducible assumption | with_reducible apply enqueueReply_same h256 | with_reducible apply reply_same h256
    | with_reducible apply updPort_same h256 | split | dsimp only
    | with_reducible
      refine Same.upd ?_ (.inr rfl) (.inr rfl) (.inr rfl) (.inr rfl) (.inr rfl) (.inr rfl) (.inr rfl) (.inr rfl)
        (.inr rfl) (.inr rfl) (.inr rfl) (.inr rfl) (.inr rfl) (.inr rfl) (.inr rfl) (.inr rfl) (.inr rfl) (.inr rfl)
        (.inr rfl) (.inr rfl) (.inr rfl) (.inr rfl)

theorem checkFrame_same {pm : Nat} {z : State} {b : List Byte} {partialByte : Bool} {s : State} (hm : covers pm 256)
    (hz : Same pm z s) :
    Same pm z (checkFrame b partialByte s) := by
  have h256 : covers pm 256 := hm.le rfl
  unfold checkFrame
  repeat' first
    | with_reducible assumption | with_reducible apply dropReply_same h256
    | with_reducible apply refuseFrame_same h256 | with_reducible apply updPort_same h256
    | with_reducible apply acceptFrame_same h256 | with_reducible apply countCrce_same h256
    | with_reducible apply answerRepeat_same h256 | with_reducible apply Same.ite | split | dsimp only
    | with_reducible
      refine Same.upd ?_ (.inr rfl) (.inr rfl) (.inr rfl) (.inr rfl) (.inr rfl) (.inr rfl) (.inr rfl) (.inr rfl)
        (.inr rfl) (.inr rfl) (.inr rfl) (.inr rfl) (.inr rfl) (.inr rfl) (.inr rfl) (.inr rfl) (.inr rfl) (.inr rfl)
        (.inr rfl) (.inr rfl) (.inr rfl) (.inr rfl)

theorem requestFrame_same {pm : Nat} {z : State} {b : List Byte} {partialByte : Bool} {s : State} (hm : covers pm 256)
    (hz : Same pm z s) :
    Same pm z (requestFrame b partialByte s) := by
  have h256 : covers pm 256 := hm.le rfl
  unfold requestFrame
  repeat' first
    | with_reducible assumption | with_reducible apply beginFrame_same h256
    | with_reducible apply checkFrame_same h256 | with_reducible apply Same.ite | split | dsimp only

theorem blink_same {pm : Nat} {z : State} {s : State} (hm : covers pm 256) (hz : Same pm z s) :
    Same pm z (blink s) := by
  have h256 : covers pm 256 := hm.le rfl
  unfold blink
  repeat' first
    | with_reducible assumption | with_reducible apply updPort_same h256 | with_reducible apply Same.ite | split
    | dsimp only
    | with_reducible
      refine Same.upd ?_ (.inr rfl) (.inr rfl) (.inr rfl) (.inr rfl) (.inr rfl) (.inr rfl) (.inr rfl) (.inr rfl)
        (.inr rfl) (.inr rfl) (.inr rfl) (.inr rfl) (.inr rfl) (.inr rfl) (.inr rfl) (.inr rfl) (.inr rfl) (.inr rfl)
        (.inr rfl) (.inr rfl) (.inr rfl) (.inr rfl)

theorem execRequestFrame_same {bytes : List Byte} {partialByte : Bool} {s : State} {t : State}
    (hz : execRequestFrame bytes partialByte s = .next t) : Same 256 s t := by
  have hm : covers 256 256 := rfl
  have h256 : covers 256 256 := hm.le rfl
  unfold execRequestFrame at hz
  obtain rfl := Host.Outcome.next.inj hz
  clear hz
  have hz := Same.refl 256 s
  repeat' first
    | with_reducible assumption | with_reducible apply requestFrame_same h256 | with_reducible apply Same.ite
    | with_reducible apply Same.iteFst | with_reducible intro _ _ _ | split | dsimp only

theorem execReread_same {clocked : Nat} {s : State} {t : State}
    (hz : execReread clocked s = .next t) : Same 256 s t := by
  have hm : covers 256 256 := rfl
  have h256 : covers 256 256 := hm.le rfl
  unfold execReread at hz
  obtain rfl := Host.Outcome.next.inj hz
  clear hz
  have hz := Same.refl 256 s
  repeat' first
    | with_reducible assumption | with_reducible apply rereadReply_same h256 | with_reducible apply Same.ite
    | with_reducible apply Same.iteFst | with_reducible intro _ _ _ | split | dsimp only

theorem execAttentionBlink_same {s : State} {t : State} (hz : execAttentionBlink s = .next t) : Same 256 s t := by
  have hm : covers 256 256 := rfl
  have h256 : covers 256 256 := hm.le rfl
  unfold execAttentionBlink at hz
  obtain rfl := Host.Outcome.next.inj hz
  clear hz
  have hz := Same.refl 256 s
  repeat' first
    | with_reducible assumption | with_reducible apply blink_same h256 | with_reducible apply Same.ite
    | with_reducible apply Same.iteFst | with_reducible intro _ _ _ | split | dsimp only

end Sys2Proof.Safety
end

