-- ==== Sys2Proof/Laws/SameSelfTest.lean ====
section
/-! SUPPORT. The parts of the state that the operations of Machine/SelfTest.lean leave alone. -/
namespace Sys2Proof.Safety

open Sys2Proof.Machine

set_option simprocs false

theorem runDestructive_same {pm : Nat} {z : State} {k : Fin 6} {arg : Byte} {s : State} (hm : covers pm 1)
    (hz : Same pm z s) :
    Same pm z (runDestructive k arg s).1 := by
  have h1 : covers pm 1 := hm.le rfl
  unfold runDestructive
  repeat' first
    | with_reducible assumption | with_reducible apply makeDue_same h1 | with_reducible apply Same.ite
    | with_reducible apply Same.iteFst | split | dsimp only

theorem runSpareBist_same {pm : Nat} {z : State} {arg : Byte} {r : Request} {s : State} (hm : covers pm 262160)
    (hz : Same pm z s) :
    Same pm z (runSpareBist arg r s).1 := by
  have h262160 : covers pm 262160 := hm.le rfl
  have b18 : pm.testBit 18 = true := hm.bit rfl
  unfold runSpareBist
  repeat' first
    | with_reducible assumption | with_reducible apply startBist_same h262160 | with_reducible apply Same.ite
    | with_reducible apply Same.iteFst | split | dsimp only
    | with_reducible
      refine Same.upd ?_ (.inr rfl) (.inr rfl) (.inr rfl) (.inr rfl) (.inr rfl) (.inr rfl) (.inr rfl) (.inr rfl)
        (.inr rfl) (.inr rfl) (.inr rfl) (.inr rfl) (.inr rfl) (.inr rfl) (.inr rfl) (.inr rfl) (.inr rfl) (.inr rfl)
        (.inl b18) (.inr rfl) (.inr rfl) (.inr rfl)

theorem runLoopback_same {pm : Nat} {z : State} {arg : Byte} {s : State} (_hm : covers pm 0) (hz : Same pm z s) :
    Same pm z (runLoopback arg s).1 := by
  unfold runLoopback
  repeat' first
    | with_reducible assumption | with_reducible apply Same.ite | with_reducible apply Same.iteFst | split
    | dsimp only

theorem runScrub_same {pm : Nat} {z : State} {arg : Byte} {s : State} (_hm : covers pm 0) (hz : Same pm z s) :
    Same pm z (runScrub arg s).1 := by
  unfold runScrub
  repeat' first
    | with_reducible assumption | with_reducible apply Same.ite | with_reducible apply Same.iteFst | split
    | dsimp only

theorem runLegTest_same {pm : Nat} {z : State} {arg : Byte} {r : Request} {s : State} (hm : covers pm 262144)
    (hz : Same pm z s) :
    Same pm z (runLegTest arg r s).1 := by
  have b18 : pm.testBit 18 = true := hm.bit rfl
  unfold runLegTest
  repeat' first
    | with_reducible assumption | with_reducible apply Same.ite | with_reducible apply Same.iteFst | split
    | dsimp only
    | with_reducible
      refine Same.upd ?_ (.inr rfl) (.inr rfl) (.inr rfl) (.inr rfl) (.inr rfl) (.inr rfl) (.inr rfl) (.inr rfl)
        (.inr rfl) (.inr rfl) (.inr rfl) (.inr rfl) (.inr rfl) (.inr rfl) (.inr rfl) (.inr rfl) (.inr rfl) (.inr rfl)
        (.inl b18) (.inr rfl) (.inr rfl) (.inr rfl)

theorem legTestEnds_same {pm : Nat} {z : State} {failLegs : BitVec 8} {groupOk : Bool} {checks : Nat} {s : State}
    (hm : covers pm 264069) (hz : Same pm z s) :
    Same pm z (legTestEnds failLegs groupOk checks s) := by
  have h256 : covers pm 256 := hm.le rfl
  have h640 : covers pm 640 := hm.le rfl
  have h1025 : covers pm 1025 := hm.le rfl
  have h262144 : covers pm 262144 := hm.le rfl
  have b2 : pm.testBit 2 = true := hm.bit rfl
  have b18 : pm.testBit 18 = true := hm.bit rfl
  unfold legTestEnds
  repeat' first
    | with_reducible assumption | (with_reducible apply Same.foldl; rotate_left; intro _ _ _)
    | with_reducible apply reply_same h256 | with_reducible apply testPulses_same h1025
    | with_reducible apply recordTest_same h262144 | with_reducible apply testDone_same h640
    | with_reducible apply Same.ite | split | dsimp only
    | with_reducible
      refine Same.upd ?_ (.inr rfl) (.inr rfl) (.inl b2) (.inr rfl) (.inr rfl) (.inr rfl) (.inr rfl) (.inr rfl)
        (.inr rfl) (.inr rfl) (.inr rfl) (.inr rfl) (.inr rfl) (.inr rfl) (.inr rfl) (.inr rfl) (.inr rfl) (.inr rfl)
        (.inl b18) (.inr rfl) (.inr rfl) (.inr rfl)

theorem testResultBody_same {pm : Nat} {z : State} {test : Byte} {s : State} (_hm : covers pm 0) (hz : Same pm z s) :
    Same pm z (testResultBody test s).1 := by
  unfold testResultBody
  repeat' first
    | with_reducible assumption | with_reducible apply Same.ite | with_reducible apply Same.iteFst | split
    | dsimp only

theorem scanBody_same {pm : Nat} {z : State} {confirm : Word} {s : State} (hm : covers pm 1665) (hz : Same pm z s) :
    Same pm z (scanBody confirm s).1 := by
  have h1 : covers pm 1 := hm.le rfl
  have h640 : covers pm 640 := hm.le rfl
  have h1025 : covers pm 1025 := hm.le rfl
  have b10 : pm.testBit 10 = true := hm.bit rfl
  unfold scanBody
  repeat' first
    | with_reducible assumption | with_reducible apply queueEvent_same h640 | with_reducible apply makeDue_same h1
    | with_reducible apply logChange_same h1025 | with_reducible apply Same.ite | with_reducible apply Same.iteFst
    | split | dsimp only
    | with_reducible
      refine Same.upd ?_ (.inr rfl) (.inr rfl) (.inr rfl) (.inr rfl) (.inr rfl) (.inr rfl) (.inr rfl) (.inr rfl)
        (.inr rfl) (.inr rfl) (.inl b10) (.inr rfl) (.inr rfl) (.inr rfl) (.inr rfl) (.inr rfl) (.inr rfl) (.inr rfl)
        (.inr rfl) (.inr rfl) (.inr rfl) (.inr rfl)

theorem fuseBody_same {pm : Nat} {z : State} {r : Request} {s : State} (hm : covers pm 262144) (hz : Same pm z s) :
    Same pm z (fuseBody r s).1 := by
  have b18 : pm.testBit 18 = true := hm.bit rfl
  unfold fuseBody
  repeat' first
    | with_reducible assumption | with_reducible apply Same.ite | with_reducible apply Same.iteFst | split
    | dsimp only
    | with_reducible
      refine Same.upd ?_ (.inr rfl) (.inr rfl) (.inr rfl) (.inr rfl) (.inr rfl) (.inr rfl) (.inr rfl) (.inr rfl)
        (.inr rfl) (.inr rfl) (.inr rfl) (.inr rfl) (.inr rfl) (.inr rfl) (.inr rfl) (.inr rfl) (.inr rfl) (.inr rfl)
        (.inl b18) (.inr rfl) (.inr rfl) (.inr rfl)

theorem fuseEnds_same {pm : Nat} {z : State} {rows : Nat} {ok : Bool} {s : State} (hm : covers pm 264064)
    (hz : Same pm z s) :
    Same pm z (fuseEnds rows ok s) := by
  have h640 : covers pm 640 := hm.le rfl
  have h1024 : covers pm 1024 := hm.le rfl
  have h262400 : covers pm 262400 := hm.le rfl
  have h263168 : covers pm 263168 := hm.le rfl
  have b18 : pm.testBit 18 = true := hm.bit rfl
  unfold fuseEnds
  repeat' first
    | with_reducible assumption | with_reducible apply queueEvent_same h640
    | with_reducible apply replyOp_same h262400 | with_reducible apply fuseRows_same h263168
    | with_reducible apply spoilEntry_same h1024 | with_reducible apply Same.ite | split | dsimp only
    | with_reducible
      refine Same.upd ?_ (.inr rfl) (.inr rfl) (.inr rfl) (.inr rfl) (.inr rfl) (.inr rfl) (.inr rfl) (.inr rfl)
        (.inr rfl) (.inr rfl) (.inr rfl) (.inr rfl) (.inr rfl) (.inr rfl) (.inr rfl) (.inr rfl) (.inr rfl) (.inr rfl)
        (.inl b18) (.inr rfl) (.inr rfl) (.inr rfl)

theorem hourPassed_same {pm : Nat} {z : State} {s : State} (hm : covers pm 1024) (hz : Same pm z s) :
    Same pm z (hourPassed s) := by
  have b10 : pm.testBit 10 = true := hm.bit rfl
  unfold hourPassed
  repeat' first
    | with_reducible assumption | with_reducible apply Same.ite | split | dsimp only
    | with_reducible
      refine Same.upd ?_ (.inr rfl) (.inr rfl) (.inr rfl) (.inr rfl) (.inr rfl) (.inr rfl) (.inr rfl) (.inr rfl)
        (.inr rfl) (.inr rfl) (.inl b10) (.inr rfl) (.inr rfl) (.inr rfl) (.inr rfl) (.inr rfl) (.inr rfl) (.inr rfl)
        (.inr rfl) (.inr rfl) (.inr rfl) (.inr rfl)

theorem minutePassed_same {pm : Nat} {z : State} {hottest : Int} {s : State} (hm : covers pm 1024) (hz : Same pm z s) :
    Same pm z (minutePassed hottest s) := by
  have b10 : pm.testBit 10 = true := hm.bit rfl
  unfold minutePassed
  repeat' first
    | with_reducible assumption | with_reducible apply Same.ite | split | dsimp only
    | with_reducible
      refine Same.upd ?_ (.inr rfl) (.inr rfl) (.inr rfl) (.inr rfl) (.inr rfl) (.inr rfl) (.inr rfl) (.inr rfl)
        (.inr rfl) (.inr rfl) (.inl b10) (.inr rfl) (.inr rfl) (.inr rfl) (.inr rfl) (.inr rfl) (.inr rfl) (.inr rfl)
        (.inr rfl) (.inr rfl) (.inr rfl) (.inr rfl)

theorem execTestRunMemoryBist_same {arg : Byte} {s : State} {t : State}
    (hz : execTestRunMemoryBist arg s = .next t) : Same 257 s t := by
  have hm : covers 257 257 := rfl
  have h1 : covers 257 1 := hm.le rfl
  have h256 : covers 257 256 := hm.le rfl
  unfold execTestRunMemoryBist at hz
  obtain rfl := Host.Outcome.next.inj hz
  clear hz
  have hz := Same.refl 257 s
  repeat' first
    | with_reducible assumption | with_reducible apply hostCommand_same h256
    | with_reducible apply runDestructive_same h1 | with_reducible apply Same.ite | with_reducible apply Same.iteFst
    | with_reducible intro _ _ _ | split | dsimp only

theorem execTestRunSpareBist_same {arg : Byte} {s : State} {t : State}
    (hz : execTestRunSpareBist arg s = .next t) : Same 262416 s t := by
  have hm : covers 262416 262416 := rfl
  have h256 : covers 262416 256 := hm.le rfl
  have h262160 : covers 262416 262160 := hm.le rfl
  unfold execTestRunSpareBist at hz
  obtain rfl := Host.Outcome.next.inj hz
  clear hz
  have hz := Same.refl 262416 s
  repeat' first
    | with_reducible assumption | with_reducible apply hostCommand_same h256
    | with_reducible apply runSpareBist_same h262160 | with_reducible apply Same.ite
    | with_reducible apply Same.iteFst | with_reducible intro _ _ _ | split | dsimp only

theorem execTestRunLogicBist_same {arg : Byte} {s : State} {t : State}
    (hz : execTestRunLogicBist arg s = .next t) : Same 257 s t := by
  have hm : covers 257 257 := rfl
  have h1 : covers 257 1 := hm.le rfl
  have h256 : covers 257 256 := hm.le rfl
  unfold execTestRunLogicBist at hz
  obtain rfl := Host.Outcome.next.inj hz
  clear hz
  have hz := Same.refl 257 s
  repeat' first
    | with_reducible assumption | with_reducible apply hostCommand_same h256
    | with_reducible apply runDestructive_same h1 | with_reducible apply Same.ite | with_reducible apply Same.iteFst
    | with_reducible intro _ _ _ | split | dsimp only

theorem execTestRunLoopback_same {arg : Byte} {s : State} {t : State}
    (hz : execTestRunLoopback arg s = .next t) : Same 256 s t := by
  have hm : covers 256 256 := rfl
  have h0 : covers 256 0 := hm.le rfl
  have h256 : covers 256 256 := hm.le rfl
  unfold execTestRunLoopback at hz
  obtain rfl := Host.Outcome.next.inj hz
  clear hz
  have hz := Same.refl 256 s
  repeat' first
    | with_reducible assumption | with_reducible apply hostCommand_same h256
    | with_reducible apply runLoopback_same h0 | with_reducible apply Same.ite | with_reducible apply Same.iteFst
    | with_reducible intro _ _ _ | split | dsimp only

theorem execTestRunScrub_same {arg : Byte} {s : State} {t : State}
    (hz : execTestRunScrub arg s = .next t) : Same 256 s t := by
  have hm : covers 256 256 := rfl
  have h0 : covers 256 0 := hm.le rfl
  have h256 : covers 256 256 := hm.le rfl
  unfold execTestRunScrub at hz
  obtain rfl := Host.Outcome.next.inj hz
  clear hz
  have hz := Same.refl 256 s
  repeat' first
    | with_reducible assumption | with_reducible apply hostCommand_same h256 | with_reducible apply runScrub_same h0
    | with_reducible apply Same.ite | with_reducible apply Same.iteFst | with_reducible intro _ _ _ | split
    | dsimp only

theorem execTestRunLegTest_same {arg : Byte} {s : State} {t : State}
    (hz : execTestRunLegTest arg s = .next t) : Same 262400 s t := by
  have hm : covers 262400 262400 := rfl
  have h256 : covers 262400 256 := hm.le rfl
  have h262144 : covers 262400 262144 := hm.le rfl
  unfold execTestRunLegTest at hz
  obtain rfl := Host.Outcome.next.inj hz
  clear hz
  have hz := Same.refl 262400 s
  repeat' first
    | with_reducible assumption | with_reducible apply hostCommand_same h256
    | with_reducible apply runLegTest_same h262144 | with_reducible apply Same.ite | with_reducible apply Same.iteFst
    | with_reducible intro _ _ _ | split | dsimp only

theorem execLegTestDone_same {failLegs : BitVec 8} {groupOk : Bool} {checks : Nat} {s : State} {t : State}
    (hz : execLegTestDone failLegs groupOk checks s = .next t) : Same 264069 s t := by
  have hm : covers 264069 264069 := rfl
  have h264069 : covers 264069 264069 := hm.le rfl
  unfold execLegTestDone at hz
  obtain rfl := Host.Outcome.next.inj hz
  clear hz
  have hz := Same.refl 264069 s
  repeat' first
    | with_reducible assumption | with_reducible apply legTestEnds_same h264069 | with_reducible apply Same.ite
    | with_reducible apply Same.iteFst | with_reducible intro _ _ _ | split | dsimp only

theorem execTestResult_same {test : Byte} {s : State} {t : State}
    (hz : execTestResult test s = .next t) : Same 256 s t := by
  have hm : covers 256 256 := rfl
  have h0 : covers 256 0 := hm.le rfl
  have h256 : covers 256 256 := hm.le rfl
  unfold execTestResult at hz
  obtain rfl := Host.Outcome.next.inj hz
  clear hz
  have hz := Same.refl 256 s
  repeat' first
    | with_reducible assumption | with_reducible apply hostCommand_same h256
    | with_reducible apply testResultBody_same h0 | with_reducible apply Same.ite | with_reducible apply Same.iteFst
    | with_reducible intro _ _ _ | split | dsimp only

theorem execScanRequest_same {confirm : Word} {s : State} {t : State}
    (hz : execScanRequest confirm s = .next t) : Same 1921 s t := by
  have hm : covers 1921 1921 := rfl
  have h256 : covers 1921 256 := hm.le rfl
  have h1665 : covers 1921 1665 := hm.le rfl
  unfold execScanRequest at hz
  obtain rfl := Host.Outcome.next.inj hz
  clear hz
  have hz := Same.refl 1921 s
  repeat' first
    | with_reducible assumption | with_reducible apply hostCommand_same h256
    | with_reducible apply scanBody_same h1665 | with_reducible apply Same.ite | with_reducible apply Same.iteFst
    | with_reducible intro _ _ _ | split | dsimp only

theorem execFuseRepair_same {s : State} {t : State} (hz : execFuseRepair s = .next t) : Same 262400 s t := by
  have hm : covers 262400 262400 := rfl
  have h256 : covers 262400 256 := hm.le rfl
  have h262144 : covers 262400 262144 := hm.le rfl
  unfold execFuseRepair at hz
  obtain rfl := Host.Outcome.next.inj hz
  clear hz
  have hz := Same.refl 262400 s
  repeat' first
    | with_reducible assumption | with_reducible apply hostCommand_same h256
    | with_reducible apply fuseBody_same h262144 | with_reducible apply Same.ite | with_reducible apply Same.iteFst
    | with_reducible intro _ _ _ | split | dsimp only

theorem execFuseRepairDone_same {rows : Nat} {ok : Bool} {s : State} {t : State}
    (hz : execFuseRepairDone rows ok s = .next t) : Same 264064 s t := by
  have hm : covers 264064 264064 := rfl
  have h264064 : covers 264064 264064 := hm.le rfl
  unfold execFuseRepairDone at hz
  obtain rfl := Host.Outcome.next.inj hz
  clear hz
  have hz := Same.refl 264064 s
  repeat' first
    | with_reducible assumption | with_reducible apply fuseEnds_same h264064 | with_reducible apply Same.ite
    | with_reducible apply Same.iteFst | with_reducible intro _ _ _ | split | dsimp only

theorem execLifeRead_same {s : State} {t : State} (hz : execLifeRead s = .next t) : Same 256 s t := by
  have hm : covers 256 256 := rfl
  have h256 : covers 256 256 := hm.le rfl
  unfold execLifeRead at hz
  obtain rfl := Host.Outcome.next.inj hz
  clear hz
  have hz := Same.refl 256 s
  repeat' first
    | with_reducible assumption | with_reducible apply hostCommand_same h256 | with_reducible apply Same.ite
    | with_reducible apply Same.iteFst | with_reducible intro _ _ _ | split | dsimp only

theorem execLifetimeHour_same {s : State} {t : State} (hz : execLifetimeHour s = .next t) : Same 1024 s t := by
  have hm : covers 1024 1024 := rfl
  have h1024 : covers 1024 1024 := hm.le rfl
  unfold execLifetimeHour at hz
  obtain rfl := Host.Outcome.next.inj hz
  clear hz
  have hz := Same.refl 1024 s
  repeat' first
    | with_reducible assumption | with_reducible apply hourPassed_same h1024 | with_reducible apply Same.ite
    | with_reducible apply Same.iteFst | with_reducible intro _ _ _ | split | dsimp only

theorem execEqhMinute_same {hottest : Int} {s : State} {t : State}
    (hz : execEqhMinute hottest s = .next t) : Same 1024 s t := by
  have hm : covers 1024 1024 := rfl
  have h1024 : covers 1024 1024 := hm.le rfl
  unfold execEqhMinute at hz
  obtain rfl := Host.Outcome.next.inj hz
  clear hz
  have hz := Same.refl 1024 s
  repeat' first
    | with_reducible assumption | with_reducible apply minutePassed_same h1024 | with_reducible apply Same.ite
    | with_reducible apply Same.iteFst | with_reducible intro _ _ _ | split | dsimp only

end Sys2Proof.Safety
end

