-- ==== Sys2Proof/Laws/SameModes.lean ====
section
/-! SUPPORT. The parts of the state that the operations of Machine/Modes.lean leave alone. -/
namespace Sys2Proof.Safety

open Sys2Proof.Machine

set_option simprocs false

theorem memoryRefuses_same {pm : Nat} {z : State} {s : State} {target : Mode} (hm : covers pm 262145)
    (hz : Same pm z s) :
    Same pm z (memoryRefuses s target).2 := by
  have h262145 : covers pm 262145 := hm.le rfl
  unfold memoryRefuses
  repeat' first
    | with_reducible assumption | with_reducible apply pageRuns_same h262145 | with_reducible apply Same.ite
    | with_reducible apply Same.iteSnd | split | dsimp only

theorem islandRefuses_same {pm : Nat} {z : State} {s : State} {i : Fin 14} {target : Mode} {discard : Bool}
    (hm : covers pm 262145) (hz : Same pm z s) :
    Same pm z (islandRefuses s i target discard).2 := by
  have h1 : covers pm 1 := hm.le rfl
  have h262145 : covers pm 262145 := hm.le rfl
  unfold islandRefuses
  repeat' first
    | with_reducible assumption | with_reducible apply drawFree_same h1
    | with_reducible apply memoryRefuses_same h262145 | with_reducible apply Same.ite
    | with_reducible apply Same.iteSnd | split | dsimp only
    | with_reducible
      refine Same.upd ?_ (.inr rfl) (.inr rfl) (.inr rfl) (.inr rfl) (.inr rfl) (.inr rfl) (.inr rfl) (.inr rfl)
        (.inr rfl) (.inr rfl) (.inr rfl) (.inr rfl) (.inr rfl) (.inr rfl) (.inr rfl) (.inr rfl) (.inr rfl) (.inr rfl)
        (.inr rfl) (.inr rfl) (.inr rfl) (.inr rfl)

theorem refuseMode_same {pm : Nat} {z : State} {s : State} {target : Mode} {x : Staged} {refusers : BitVec 14}
    (hm : covers pm 929) (hz : Same pm z s) :
    Same pm z (refuseMode s target x refusers) := by
  have h256 : covers pm 256 := hm.le rfl
  have h640 : covers pm 640 := hm.le rfl
  have b0 : pm.testBit 0 = true := hm.bit rfl
  have b5 : pm.testBit 5 = true := hm.bit rfl
  unfold refuseMode
  repeat' first
    | with_reducible assumption | with_reducible apply queueEvent_same h640 | with_reducible apply reply_same h256
    | split | dsimp only
    | with_reducible
      refine Same.upd ?_ (.inl b0) (.inr rfl) (.inr rfl) (.inr rfl) (.inr rfl) (.inl b5) (.inr rfl) (.inr rfl)
        (.inr rfl) (.inr rfl) (.inr rfl) (.inr rfl) (.inr rfl) (.inr rfl) (.inr rfl) (.inr rfl) (.inr rfl) (.inr rfl)
        (.inr rfl) (.inr rfl) (.inr rfl) (.inr rfl)

theorem settleRefusal_same {pm : Nat} {z : State} {s : State} (hm : covers pm 929) (hz : Same pm z s) :
    Same pm z (settleRefusal s) := by
  have h929 : covers pm 929 := hm.le rfl
  unfold settleRefusal
  repeat' first
    | with_reducible assumption | with_reducible apply refuseMode_same h929 | with_reducible apply Same.ite | split
    | dsimp only
    | with_reducible
      refine Same.upd ?_ (.inr rfl) (.inr rfl) (.inr rfl) (.inr rfl) (.inr rfl) (.inr rfl) (.inr rfl) (.inr rfl)
        (.inr rfl) (.inr rfl) (.inr rfl) (.inr rfl) (.inr rfl) (.inr rfl) (.inr rfl) (.inr rfl) (.inr rfl) (.inr rfl)
        (.inr rfl) (.inr rfl) (.inr rfl) (.inr rfl)

theorem stagingAnswer_same {pm : Nat} {z : State} {i : Fin 14} {s : State} (hm : covers pm 263073) (hz : Same pm z s) :
    Same pm z (stagingAnswer i s) := by
  have h929 : covers pm 929 := hm.le rfl
  have h262145 : covers pm 262145 := hm.le rfl
  have b5 : pm.testBit 5 = true := hm.bit rfl
  unfold stagingAnswer
  repeat' first
    | with_reducible assumption | with_reducible apply islandRefuses_same h262145
    | with_reducible apply settleRefusal_same h929 | split | dsimp only
    | with_reducible
      refine Same.upd ?_ (.inr rfl) (.inr rfl) (.inr rfl) (.inr rfl) (.inr rfl) (.inl b5) (.inr rfl) (.inr rfl)
        (.inr rfl) (.inr rfl) (.inr rfl) (.inr rfl) (.inr rfl) (.inr rfl) (.inr rfl) (.inr rfl) (.inr rfl) (.inr rfl)
        (.inr rfl) (.inr rfl) (.inr rfl) (.inr rfl)

theorem dropWaiting_same {pm : Nat} {z : State} {s : State} (hm : covers pm 32) (hz : Same pm z s) :
    Same pm z (dropWaiting s) := by
  have b5 : pm.testBit 5 = true := hm.bit rfl
  unfold dropWaiting
  repeat' first
    | with_reducible assumption | split | dsimp only
    | with_reducible
      refine Same.upd ?_ (.inr rfl) (.inr rfl) (.inr rfl) (.inr rfl) (.inr rfl) (.inl b5) (.inr rfl) (.inr rfl)
        (.inr rfl) (.inr rfl) (.inr rfl) (.inr rfl) (.inr rfl) (.inr rfl) (.inr rfl) (.inr rfl) (.inr rfl) (.inr rfl)
        (.inr rfl) (.inr rfl) (.inr rfl) (.inr rfl)

theorem restaged_same {pm : Nat} {z : State} {s : State} {g : Fin 4} (hm : covers pm 994) (hz : Same pm z s) :
    Same pm z (restaged s g) := by
  have h32 : covers pm 32 := hm.le rfl
  have h962 : covers pm 962 := hm.le rfl
  unfold restaged
  repeat' first
    | with_reducible assumption | with_reducible apply unstageCastle_same h32
    | with_reducible apply holdGroup_same h962 | with_reducible apply restageCastle_same h32 | split | dsimp only

theorem stagingTimeout_same {pm : Nat} {z : State} {s : State} (hm : covers pm 17403) (hz : Same pm z s) :
    Same pm z (stagingTimeout s) := by
  have h32 : covers pm 32 := hm.le rfl
  have h256 : covers pm 256 := hm.le rfl
  have h697 : covers pm 697 := hm.le rfl
  have h929 : covers pm 929 := hm.le rfl
  have h994 : covers pm 994 := hm.le rfl
  have h16416 : covers pm 16416 := hm.le rfl
  have b0 : pm.testBit 0 = true := hm.bit rfl
  unfold stagingTimeout
  repeat' first
    | with_reducible assumption | with_reducible apply reply_same h256 | with_reducible apply abortCastle_same h697
    | with_reducible apply dropSlot_same h16416 | with_reducible apply refuseMode_same h929
    | with_reducible apply dropWaiting_same h32 | with_reducible apply restaged_same h994
    | with_reducible apply Same.ite | split | dsimp only
    | with_reducible
      refine Same.upd ?_ (.inl b0) (.inr rfl) (.inr rfl) (.inr rfl) (.inr rfl) (.inr rfl) (.inr rfl) (.inr rfl)
        (.inr rfl) (.inr rfl) (.inr rfl) (.inr rfl) (.inr rfl) (.inr rfl) (.inr rfl) (.inr rfl) (.inr rfl) (.inr rfl)
        (.inr rfl) (.inr rfl) (.inr rfl) (.inr rfl)

theorem softResetBody_same {pm : Nat} {z : State} {confirm : Word} {s : State} (hm : covers pm 262145)
    (hz : Same pm z s) :
    Same pm z (softResetBody confirm s).1 := by
  have h1 : covers pm 1 := hm.le rfl
  have h262145 : covers pm 262145 := hm.le rfl
  unfold softResetBody
  repeat' first
    | with_reducible assumption | with_reducible apply makeDue_same h1 | with_reducible apply pageRuns_same h262145
    | with_reducible apply Same.ite | with_reducible apply Same.iteFst | split | dsimp only

theorem wakeBody_same {pm : Nat} {z : State} {s : State} (hm : covers pm 1) (hz : Same pm z s) :
    Same pm z (wakeBody s).1 := by
  have h1 : covers pm 1 := hm.le rfl
  unfold wakeBody
  repeat' first
    | with_reducible assumption | with_reducible apply makeDue_same h1 | split | dsimp only

theorem execSoftReset_same {confirm : Word} {s : State} {t : State}
    (hz : execSoftReset confirm s = .next t) : Same 262401 s t := by
  have hm : covers 262401 262401 := rfl
  have h256 : covers 262401 256 := hm.le rfl
  have h262145 : covers 262401 262145 := hm.le rfl
  unfold execSoftReset at hz
  obtain rfl := Host.Outcome.next.inj hz
  clear hz
  have hz := Same.refl 262401 s
  repeat' first
    | with_reducible assumption | with_reducible apply hostCommand_same h256
    | with_reducible apply softResetBody_same h262145 | with_reducible apply Same.ite
    | with_reducible apply Same.iteFst | with_reducible intro _ _ _ | split | dsimp only

theorem execWakeCommand_same {s : State} {t : State} (hz : execWakeCommand s = .next t) : Same 257 s t := by
  have hm : covers 257 257 := rfl
  have h1 : covers 257 1 := hm.le rfl
  have h256 : covers 257 256 := hm.le rfl
  unfold execWakeCommand at hz
  obtain rfl := Host.Outcome.next.inj hz
  clear hz
  have hz := Same.refl 257 s
  repeat' first
    | with_reducible assumption | with_reducible apply hostCommand_same h256 | with_reducible apply wakeBody_same h1
    | with_reducible apply Same.ite | with_reducible apply Same.iteFst | with_reducible intro _ _ _ | split
    | dsimp only

theorem execStagingAnswer_same {island : Fin 14} {s : State} {t : State}
    (hz : execStagingAnswer island s = .next t) : Same 263073 s t := by
  have hm : covers 263073 263073 := rfl
  have h263073 : covers 263073 263073 := hm.le rfl
  unfold execStagingAnswer at hz
  obtain rfl := Host.Outcome.next.inj hz
  clear hz
  have hz := Same.refl 263073 s
  repeat' first
    | with_reducible assumption | with_reducible apply stagingAnswer_same h263073 | with_reducible apply Same.ite
    | with_reducible apply Same.iteFst | with_reducible intro _ _ _ | split | dsimp only

theorem execStagingTimeout_same {s : State} {t : State} (hz : execStagingTimeout s = .next t) : Same 17403 s t := by
  have hm : covers 17403 17403 := rfl
  have h17403 : covers 17403 17403 := hm.le rfl
  unfold execStagingTimeout at hz
  obtain rfl := Host.Outcome.next.inj hz
  clear hz
  have hz := Same.refl 17403 s
  repeat' first
    | with_reducible assumption | with_reducible apply stagingTimeout_same h17403 | with_reducible apply Same.ite
    | with_reducible apply Same.iteFst | with_reducible intro _ _ _ | split | dsimp only

end Sys2Proof.Safety
end

