-- ==== Sys2Proof/Laws/SameSystemCommands.lean ====
section
/-! SUPPORT. The parts of the state that the operations of Machine/SystemCommands.lean leave alone. -/
namespace Sys2Proof.Safety

open Sys2Proof.Machine

set_option simprocs false

theorem cfgSaveBody_same {pm : Nat} {z : State} {r : Request} {s : State} (hm : covers pm 786691) (hz : Same pm z s) :
    Same pm z (cfgSaveBody r s).1 := by
  have b18 : pm.testBit 18 = true := hm.bit rfl
  unfold cfgSaveBody
  repeat' first
    | with_reducible assumption | with_reducible apply Same.ite | with_reducible apply Same.iteFst | split
    | dsimp only
    | with_reducible
      refine Same.upd ?_ (.inr rfl) (.inr rfl) (.inr rfl) (.inr rfl) (.inr rfl) (.inr rfl) (.inr rfl) (.inr rfl)
        (.inr rfl) (.inr rfl) (.inr rfl) (.inr rfl) (.inr rfl) (.inr rfl) (.inr rfl) (.inr rfl) (.inr rfl) (.inr rfl)
        (.inl b18) (.inr rfl) (.inr rfl) (.inr rfl)

theorem cfgSaveEnds_same {pm : Nat} {z : State} {ok : Bool} {s : State} (hm : covers pm 264065) (hz : Same pm z s) :
    Same pm z (cfgSaveEnds ok s) := by
  have h641 : covers pm 641 := hm.le rfl
  have h262400 : covers pm 262400 := hm.le rfl
  have b10 : pm.testBit 10 = true := hm.bit rfl
  have b18 : pm.testBit 18 = true := hm.bit rfl
  unfold cfgSaveEnds
  repeat' first
    | with_reducible assumption | with_reducible apply replyOp_same h262400 | with_reducible apply nvmFail_same h641
    | with_reducible apply Same.ite | split | dsimp only
    | with_reducible
      refine Same.upd ?_ (.inr rfl) (.inr rfl) (.inr rfl) (.inr rfl) (.inr rfl) (.inr rfl) (.inr rfl) (.inr rfl)
        (.inr rfl) (.inr rfl) (.inl b10) (.inr rfl) (.inr rfl) (.inr rfl) (.inr rfl) (.inr rfl) (.inr rfl) (.inr rfl)
        (.inl b18) (.inr rfl) (.inr rfl) (.inr rfl)

theorem chStatusBody_same {pm : Nat} {z : State} {ch : Byte} {s : State} (_hm : covers pm 0) (hz : Same pm z s) :
    Same pm z (chStatusBody ch s).1 := by
  unfold chStatusBody
  repeat' first
    | with_reducible assumption | with_reducible apply Same.ite | with_reducible apply Same.iteFst | split
    | dsimp only
    | with_reducible
      refine Same.upd ?_ (.inr rfl) (.inr rfl) (.inr rfl) (.inr rfl) (.inr rfl) (.inr rfl) (.inr rfl) (.inr rfl)
        (.inr rfl) (.inr rfl) (.inr rfl) (.inr rfl) (.inr rfl) (.inr rfl) (.inr rfl) (.inr rfl) (.inr rfl) (.inr rfl)
        (.inr rfl) (.inr rfl) (.inr rfl) (.inr rfl)

theorem execIdentify_same {s : State} {t : State} (hz : execIdentify s = .next t) : Same 256 s t := by
  have hm : covers 256 256 := rfl
  have h256 : covers 256 256 := hm.le rfl
  unfold execIdentify at hz
  obtain rfl := Host.Outcome.next.inj hz
  clear hz
  have hz := Same.refl 256 s
  repeat' first
    | with_reducible assumption | with_reducible apply hostCommand_same h256 | with_reducible apply Same.ite
    | with_reducible apply Same.iteFst | with_reducible intro _ _ _ | split | dsimp only

theorem execStatus_same {s : State} {t : State} (hz : execStatus s = .next t) : Same 256 s t := by
  have hm : covers 256 256 := rfl
  have h256 : covers 256 256 := hm.le rfl
  unfold execStatus at hz
  obtain rfl := Host.Outcome.next.inj hz
  clear hz
  have hz := Same.refl 256 s
  repeat' first
    | with_reducible assumption | with_reducible apply hostCommand_same h256 | with_reducible apply Same.ite
    | with_reducible apply Same.iteFst | with_reducible intro _ _ _ | split | dsimp only

theorem execCfgSave_same {s : State} {t : State} (hz : execCfgSave s = .next t) : Same 786691 s t := by
  have hm : covers 786691 786691 := rfl
  have h256 : covers 786691 256 := hm.le rfl
  have h786691 : covers 786691 786691 := hm.le rfl
  unfold execCfgSave at hz
  obtain rfl := Host.Outcome.next.inj hz
  clear hz
  have hz := Same.refl 786691 s
  repeat' first
    | with_reducible assumption | with_reducible apply hostCommand_same h256
    | with_reducible apply cfgSaveBody_same h786691 | with_reducible apply Same.ite | with_reducible apply Same.iteFst
    | with_reducible intro _ _ _ | split | dsimp only

theorem execCfgSaveDone_same {ok : Bool} {s : State} {t : State}
    (hz : execCfgSaveDone ok s = .next t) : Same 264065 s t := by
  have hm : covers 264065 264065 := rfl
  have h264065 : covers 264065 264065 := hm.le rfl
  unfold execCfgSaveDone at hz
  obtain rfl := Host.Outcome.next.inj hz
  clear hz
  have hz := Same.refl 264065 s
  repeat' first
    | with_reducible assumption | with_reducible apply cfgSaveEnds_same h264065 | with_reducible apply Same.ite
    | with_reducible apply Same.iteFst | with_reducible intro _ _ _ | split | dsimp only

theorem execTimeRead_same {s : State} {t : State} (hz : execTimeRead s = .next t) : Same 256 s t := by
  have hm : covers 256 256 := rfl
  have h256 : covers 256 256 := hm.le rfl
  unfold execTimeRead at hz
  obtain rfl := Host.Outcome.next.inj hz
  clear hz
  have hz := Same.refl 256 s
  repeat' first
    | with_reducible assumption | with_reducible apply hostCommand_same h256 | with_reducible apply Same.ite
    | with_reducible apply Same.iteFst | with_reducible intro _ _ _ | split | dsimp only

theorem execEcho_same {data : List Byte} {s : State} {t : State} (hz : execEcho data s = .next t) : Same 256 s t := by
  have hm : covers 256 256 := rfl
  have h256 : covers 256 256 := hm.le rfl
  unfold execEcho at hz
  obtain rfl := Host.Outcome.next.inj hz
  clear hz
  have hz := Same.refl 256 s
  repeat' first
    | with_reducible assumption | with_reducible apply hostCommand_same h256 | with_reducible apply Same.ite
    | with_reducible apply Same.iteFst | with_reducible intro _ _ _ | split | dsimp only

theorem execChStatus_same {ch : Byte} {s : State} {t : State} (hz : execChStatus ch s = .next t) : Same 256 s t := by
  have hm : covers 256 256 := rfl
  have h0 : covers 256 0 := hm.le rfl
  have h256 : covers 256 256 := hm.le rfl
  unfold execChStatus at hz
  obtain rfl := Host.Outcome.next.inj hz
  clear hz
  have hz := Same.refl 256 s
  repeat' first
    | with_reducible assumption | with_reducible apply hostCommand_same h256
    | with_reducible apply chStatusBody_same h0 | with_reducible apply Same.ite | with_reducible apply Same.iteFst
    | with_reducible intro _ _ _ | split | dsimp only

theorem execLinkStatus_same {s : State} {t : State} (hz : execLinkStatus s = .next t) : Same 256 s t := by
  have hm : covers 256 256 := rfl
  have h256 : covers 256 256 := hm.le rfl
  unfold execLinkStatus at hz
  obtain rfl := Host.Outcome.next.inj hz
  clear hz
  have hz := Same.refl 256 s
  repeat' first
    | with_reducible assumption | with_reducible apply hostCommand_same h256 | with_reducible apply Same.ite
    | with_reducible apply Same.iteFst | with_reducible intro _ _ _ | split | dsimp only

end Sys2Proof.Safety
end

