-- ==== Sys2Proof/Laws/SameRegisterCommands.lean ====
section
/-! SUPPORT. The parts of the state that the operations of Machine/RegisterCommands.lean leave alone. -/
namespace Sys2Proof.Safety

open Sys2Proof.Machine

set_option simprocs false

theorem readBody_same {pm : Nat} {z : State} {a : Word} {s : State} (hm : covers pm 786691) (hz : Same pm z s) :
    Same pm z (readBody a s).1 := by
  unfold readBody
  split
  · exact hz
  · dsimp only
    split
    · rename_i hr
      exact readReg_same hr hm (timePasses_same (hm.le rfl) hz)
    · exact timePasses_same (hm.le rfl) hz

theorem blockBody_same {pm : Nat} {z : State} {a : Word} {count : BitVec 16} {s : State} (hm : covers pm 786691)
    (hz : Same pm z s) : Same pm z (blockBody a count s).1 := by
  unfold blockBody
  dsimp only
  split
  · exact hz
  · split
    · rename_i hr
      exact readBlock_same hr hm (timePasses_same (hm.le rfl) hz)
    · exact timePasses_same (hm.le rfl) hz

theorem execRegRead_same {addr : Word} {s : State} {t : State}
    (hz : execRegRead addr s = .next t) : Same 786691 s t := by
  have hm : covers 786691 786691 := rfl
  have h256 : covers 786691 256 := hm.le rfl
  have h786691 : covers 786691 786691 := hm.le rfl
  unfold execRegRead at hz
  obtain rfl := Host.Outcome.next.inj hz
  clear hz
  have hz := Same.refl 786691 s
  repeat' first
    | with_reducible assumption | with_reducible apply hostCommand_same h256
    | with_reducible apply readBody_same h786691 | with_reducible apply Same.ite | with_reducible apply Same.iteFst
    | with_reducible intro _ _ _ | split | dsimp only

theorem execCaptureRead_same {addr : Word} {s : State} {t : State}
    (hz : execCaptureRead addr s = .next t) : Same 786691 s t := by
  have hm : covers 786691 786691 := rfl
  have h256 : covers 786691 256 := hm.le rfl
  have h786691 : covers 786691 786691 := hm.le rfl
  unfold execCaptureRead at hz
  obtain rfl := Host.Outcome.next.inj hz
  clear hz
  have hz := Same.refl 786691 s
  repeat' first
    | with_reducible assumption | with_reducible apply hostCommand_same h256
    | with_reducible apply readBody_same h786691 | with_reducible apply Same.ite | with_reducible apply Same.iteFst
    | with_reducible intro _ _ _ | split | dsimp only

theorem execRegReadBlock_same {addr : Word} {count : BitVec 16} {s : State} {t : State}
    (hz : execRegReadBlock addr count s = .next t) : Same 786691 s t := by
  have hm : covers 786691 786691 := rfl
  have h256 : covers 786691 256 := hm.le rfl
  have h786691 : covers 786691 786691 := hm.le rfl
  unfold execRegReadBlock at hz
  obtain rfl := Host.Outcome.next.inj hz
  clear hz
  have hz := Same.refl 786691 s
  repeat' first
    | with_reducible assumption | with_reducible apply hostCommand_same h256
    | with_reducible apply blockBody_same h786691 | with_reducible apply Same.ite | with_reducible apply Same.iteFst
    | with_reducible intro _ _ _ | split | dsimp only

end Sys2Proof.Safety
end

