-- ==== Sys2Proof/Tests/Slice0.lean ====
section
/-! SUPPORT. Tests: ill-formed commands, words written out from Command set, small single steps, and for each statement with
hypotheses a state and operands that meet them. -/
namespace Sys2Proof.Tests
open Sys2Proof Sys2Proof.Machine Sys2Proof.Safety

/-! ### Ill-formed commands -/

theorem test_ill_echo : (Instr.echo (List.replicate 4097 0)).wellFormed = false := by decide +kernel
theorem test_ill_regWriteMulti : (Instr.regWriteMulti []).wellFormed = false := by decide
theorem test_ill_bookHdr : (Instr.bookHdr [0]).wellFormed = false := by decide
theorem test_ill_bookSteps : (Instr.bookSteps 0 0 []).wellFormed = false := by decide
theorem test_ill_bookSteps_length : (Instr.bookSteps 0 1 [0]).wellFormed = false := by decide
theorem test_ill_logMark : (Instr.logMark 0 []).wellFormed = false := by decide
theorem test_ill_safeLogin : (Instr.safeLogin 0 [0]).wellFormed = false := by decide
theorem test_ill_safePasswd : (Instr.safePasswd 0 0 [0]).wellFormed = false := by decide
theorem test_ill_safeKey : (Instr.safeKey [0]).wellFormed = false := by decide
theorem test_ill_checkDone : (Instr.checkDone 0 []).wellFormed = false := by decide
theorem test_ill_crossbarTransfer : (Instr.crossbarTransfer 0 1 false []).wellFormed = false := by decide
theorem test_ill_currentReference : (Instr.currentReference 0 32 0 0).wellFormed = false := by decide
theorem test_ill_thRefresh : (Instr.thRefresh 0 157287).wellFormed = false := by decide

/-! ### States -/

/-- A device that runs in a mode, with nothing else changed since reset. -/
def running (m : Mode) : State :=
  { State.reset with sys := { State.reset.sys with phase := .running, mode := m, running := true, bootStep := 13 } }

/-- Whether the port serves a command. -/
def servedB (i : Instr) (s : State) : Bool :=
  match modeLetter s with
  | some l => itsTurn i s && (servedModes (req i s).opc).contains l
  | none => false

theorem served_of {i : Instr} {s : State} (h : servedB i s = true) : Served i s := by
  unfold servedB at h
  cases hl : modeLetter s with
  | none => simp [hl] at h
  | some l =>
    simp only [hl, Bool.and_eq_true] at h
    exact ⟨h.1, l, hl, h.2⟩

/-! ### The hypotheses of the statements can be met -/

theorem test_emptyQueue_due : ∃ s : State, s.pending = [] ∧ s.sys.due ≠ .none :=
  ⟨{ State.reset with sys := { State.reset.sys with due := .wake } }, by decide, by decide⟩

/-- A request that waits. -/
def asked : State :=
  { running .idle with port := { State.reset.port with waiting := [{ tag := 1, opc := 0x20, payload := [1, 0, 0, 0] }] } }

theorem test_emptyQueue_request : asked.pending = [] ∧ asked.sys.due = .none ∧ modeLetter asked ≠ none ∧
    asked.port.waiting = { tag := 1, opc := 0x20, payload := [1, 0, 0, 0] } :: [] ∧
    decodeRequest 0x20 [1, 0, 0, 0] = .ok (.chArm 1) := by decide

theorem test_emptyQueue_idle : (running .idle).pending = [] ∧ (running .idle).sys.due = .none ∧
    (running .idle).port.waiting = [] ∧ bootRuns (running .idle) = false := by decide

theorem test_stepKeeps : ∃ s t, Inv s ∧ step s = .next t :=
  ⟨{ State.reset with pending := [.identify] }, _, ⟨by decide, by decide, by decide, by decide⟩, rfl⟩

theorem test_frames : ∃ s t, exec (.regWrite 0x103F0000 7) s = .next t := ⟨running .idle, _, rfl⟩

theorem test_roundTrip : (Instr.setMode 6 1).wellFormed = true ∧ encodeRequest (.setMode 6 1) = some (0x02, [6, 1, 0, 0]) := by
  decide

theorem test_fieldRow : ∃ f, fieldWriteOf (.gangWrite 3 4) = some f ∧ (f.value : Word) &&& f.mask = f.value :=
  ⟨_, rfl, by decide⟩

/-- A port that waits for another request, with requests outstanding. -/
def waitsFor (n : Nat) (replies : Nat) : State := { asked with port := { asked.port with
  outstanding := List.replicate n 9, replies := List.replicate replies (Reply.mk false 0 0 0 0 []) } }

theorem test_turns : itsTurn (.echo []) (running .idle) = true ∧ itsTurn (.chArm 1) asked = true ∧
    (itsTurn .identify (waitsFor 8 0) = false ∧ 8 ≤ (waitsFor 8 0).port.outstanding.length) ∧
    (itsTurn .identify (waitsFor 7 4) = false ∧ (waitsFor 7 4).port.outstanding.length < 8 ∧ placesTaken (waitsFor 7 4) < 12) ∧
    (itsTurn .identify (waitsFor 7 5) = false ∧ (waitsFor 7 5).port.outstanding.length < 8 ∧ 12 ≤ placesTaken (waitsFor 7 5)) := by
  decide

theorem test_refused : modeLetter (running .idle) = some .i ∧
    (servedModes (req (.scanRequest 0) (running .idle)).opc).contains .i = false := by decide

/-- A port with a full reply queue. -/
def fullPort : HostPort :=
  { State.reset.port with replies := List.replicate 12 (Reply.mk true 0 0 0 0 []) }

theorem test_replyQueues : State.reset.port.replies.length < 12 ∧ 12 ≤ fullPort.replies.length ∧
    placesTaken State.reset < 12 ∧ 12 ≤ placesTaken { State.reset with port := fullPort } := by decide

theorem test_statusReads :
    Served .identify (running .idle) ∧ Served .status (running .idle) ∧ Served .timeRead (running .idle) ∧
    (15 : Byte).toNat < 16 ∧ Served (.chStatus 15) (running .idle) ∧ Served .linkStatus (running .idle) ∧
    (5 : Byte).toNat < 6 ∧ Served (.testResult 5) (running .idle) ∧ Served .lifeRead (running .idle) := by
  and_intros <;> first | decide | exact served_of (by decide)

theorem test_echo_longest : (List.replicate 4096 (0 : Byte)).length ≤ 4096 ∧
    Served (.echo (List.replicate 4096 0)) (running .idle) :=
  ⟨Nat.le_of_eq List.length_replicate, served_of (by decide +kernel)⟩

/-- A recipe of n steps of zeros. -/
def recipe (n : Byte) : Recipe :=
  { header := n :: List.replicate 31 0, steps := List.replicate n.toNat (List.replicate 64 0) }

/-- A running device whose last slot of the book holds 128 steps. -/
def booked : State := { running .idle with nvm := { State.reset.nvm with book := State.reset.nvm.book.set 31 (recipe 128) } }

theorem test_bookReads : Served .bookDir booked ∧ (31 : Byte).toNat < 32 ∧ 1 ≤ (63 : Byte).toNat ∧ (63 : Byte).toNat ≤ 63 ∧
    (65 : Byte).toNat + (63 : Byte).toNat ≤ hdrNstep (booked.nvm.book[31]).header ∧ Served (.bookRead 31 65 63) booked := by
  and_intros <;> first | decide | exact served_of (by decide)

theorem test_histRead : (15 : Byte).toNat < 16 ∧ 1 ≤ (1024 : BitVec 16).toNat ∧ (1024 : BitVec 16).toNat ≤ 1024 ∧
    (1026 : BitVec 16).toNat ≤ 2049 ∧ (1026 : BitVec 16).toNat + (1024 : BitVec 16).toNat ≤ 2050 ∧
    Served (.histRead 15 1026 1024) (running .idle) := by
  and_intros <;> first | decide | exact served_of (by decide)

/-- A channel with a full ring and eight grade records. -/
def logged : State := (running .idle).updCh 15 fun ch =>
  { ch with logSeq := 6144, logAck := 0, grades := List.replicate 8 [] }

theorem test_logReads : isFollower logged 15 = false ∧ 1 ≤ (127 : Byte).toNat ∧ (127 : Byte).toNat ≤ 127 ∧
    ((6143 : Word).toNat + 2 ^ 32 - (logged.ch[15]).logAck) % 2 ^ 32 < ringUsed logged.ch[15] ∧
    Served (.logRead 15 127 6143) logged ∧ (7 : Byte).toNat ≤ 7 ∧ (logged.ch[15]).grades[(7 : Byte).toNat]? = some [] ∧
    Served (.gradeRead 15 7) logged ∧
    ((logged.ch[15]).logSeq + 2 ^ 32 - (0 : Word).toNat) % 2 ^ 32 ≤ ringSize ∧ Served (.logAck 15 0) logged ∧
    Served (.logackWrite 15 0) logged := by
  and_intros <;> first | decide | exact served_of (by decide)

theorem test_changeLog : ∃ s : State, 1 ≤ (7 : Byte).toNat ∧ (7 : Byte).toNat ≤ 7 ∧
    (0 : Word).toNat + (7 : Byte).toNat ≤ s.nvm.logSeq ∧ s.safe.defaultSess = false ∧ Served (.safeLogread 0 7) s :=
  ⟨{ running .idle with nvm := { State.reset.nvm with logSeq := 7 } }, by decide, by decide, by decide, by decide, served_of (by decide)⟩

/-- An event queue with one read event. -/
def eventful : State := { running .idle with evq := { State.reset.evq with
  queue := [{ seq := 5, code := 0x0201, len := 1, payload := [3], tbase := 0, read := true }], returned := some 5 } }

theorem test_eventCommands : 1 ≤ (127 : Byte).toNat ∧ (127 : Byte).toNat ≤ 127 ∧ (eventsFrom eventful 5).isSome = true ∧
    eventsFrom eventful 0xFFFFFFFF = some [] ∧ Served (.evtRead 5 127) eventful ∧ eventful.evq.returned = some 5 ∧
    seqLe (5 : Word).toNat 5 = true ∧ Served (.evtAck 5) eventful ∧ eventful.evq.queue ≠ [] ∧ Served .evtStatus eventful := by
  and_intros <;> first | decide | exact served_of (by decide)

theorem test_modeCommands : (running .idle).sys.phase = .running ∧ (3 : Byte).toNat < 4 ∧
    Mode.ofCode? (3 : Byte).toNat = some .form ∧ Mode.form ≠ (running .idle).sys.mode ∧
    (reachable (running .idle).sys.mode).contains .form = true ∧ modePending (running .idle) = false ∧
    Served (.setMode 3 3) (running .idle) ∧ Mode.ofCode? (2 : Byte).toNat = some (running .idle).sys.mode ∧
    Served (.setMode 2 3) (running .idle) ∧
    ((running .idle).sys.mode = .idle →
      allI 16 (fun c => ((running .idle).ch[c]).st == .off || ((running .idle).ch[c]).st == .fault) = true) ∧
    nvmBusy (running .idle) = false ∧ Served (.softReset 0xA5A55A5A) (running .idle) ∧ Served .cfgSave (running .idle) := by
  and_intros <;> first | decide | exact served_of (by decide)

/-- The device in DORMANT. -/
def dormant : State := { running .dormant with sys := { (running .dormant).sys with phase := .dormant } }

theorem test_dormantCommands : dormant.sys.phase = .dormant ∧ (1 : Byte).getLsbD 0 = true ∧ Served (.setMode 6 1) dormant ∧
    Served .wakeCommand dormant ∧ ¬ ((3 : Byte) = 6 ∧ (0 : Byte).getLsbD 0 = true) ∧ Served (.setMode 3 0) dormant := by
  and_intros <;> first | decide | exact served_of (by decide)

/-- A mode change that every island but the engines has acknowledged. -/
def changing : State := { running .idle with staged :=
  [{ change := .mode .form false false false 0, opc := 0x02, tag := some 9, islands := 0x3FFF, waiting := 0x1F, refused := 0, failed := [] }] }

/-- CH_STOP that waits for the sequencer. -/
def stopping : State := { running .form with staged :=
  [{ change := .stop 1, opc := 0x21, tag := some 9, islands := 0x80, waiting := 0x80, refused := 0, failed := [] }] }

theorem test_setModeAnswers : Mode.ofCode? (5 : Byte).toNat = some .service ∧
    (reachable (running .idle).sys.mode).contains .service = false ∧ Served (.setMode 5 0) (running .idle) ∧
    (reachable changing.sys.mode).contains .form = true ∧ modePending changing = true ∧ Served (.setMode 3 0) changing := by
  and_intros <;> first | decide | exact served_of (by decide)

theorem test_staging : (∃ x, firstWaiting stopping (fun w => w.getLsbD (7 : Fin 14).val) = some x ∧ x.change.isMode = false) ∧
    (∃ x, firstWaiting stopping (fun w => w != 0) = some x ∧ x.tag = some 9 ∧ x.change.mask? = some 1) ∧
    (∃ x, firstWaiting changing (fun w => w.getLsbD (0 : Fin 14).val) = some x ∧
      x.change = .mode .form false false false 0 ∧ (islandRefuses changing 0 .form false).1 = false) ∧
    (∃ x, firstWaiting changing (fun w => w != 0) = some x ∧ x.change = .mode .form false false false 0) :=
  ⟨⟨_, rfl, by decide⟩, ⟨_, rfl, by decide, by decide⟩, ⟨_, rfl, by decide, by decide⟩, ⟨_, rfl, by decide⟩⟩

/-- A mode change to DORMANT while a fuse repair runs, with some islands still to answer and some that refused. -/
def refreshingNvm (waiting refused : BitVec 14) : State := { running .idle with
  isl := { State.reset.isl with nvmOp := .fuse, opTag := some 4 }
  staged := [{ change := .mode .dormant false false false 0, opc := 0x02, tag := some 9, islands := 0x3FFF, waiting := waiting
               refused := refused, failed := [] }] }

theorem test_staging_refused : (∃ x, firstWaiting (refreshingNvm 0x1000 0) (fun w => w.getLsbD (12 : Fin 14).val) = some x ∧
    x.change = .mode .dormant false false false 0 ∧ (islandRefuses (refreshingNvm 0x1000 0) 12 .dormant false).1 = true) ∧
    (∃ x, (refreshingNvm 0 0x1080).staged.find? (fun y => y.change.isMode) = some x ∧ x.waiting = 0 ∧ x.refused ≠ 0) ∧
    (∃ x, (refreshingNvm 1 0x1080).staged.find? (fun y => y.change.isMode) = some x ∧ x.waiting ≠ 0) :=
  ⟨⟨_, rfl, by decide, by decide⟩, ⟨_, rfl, by decide, by decide⟩, ⟨_, rfl, by decide⟩⟩

/-- A castling or the slot of a lane waits for its islands. -/
def silent (ch : Change) (castle : Option Castle) (owner : Option (Fin 5)) : State :=
  { (running .form).updGrp 2 (fun g => { g with owner := owner, castle := castle }) with staged :=
    [{ change := ch, opc := 0, tag := none, islands := 0x90, waiting := 0x80, refused := 0, failed := [] }] }

theorem test_staging_silent : (∃ x, firstWaiting (silent (.lane 3) none none) (fun w => w != 0) = some x ∧ x.change = .lane 3) ∧
    (∃ x, firstWaiting (silent (.castle 2) none none) (fun w => w != 0) = some x ∧ x.change = .castle 2) ∧
    recoversGroup (silent (.castle 2) none none) 2 = false ∧ recoversGroup (silent (.castle 2) (some { fromCe := some 3, toCe := 4, planned := false, began := false, ready := false, skipped := 0, waited := false }) none) 2 = true :=
  ⟨⟨_, rfl, rfl⟩, ⟨_, rfl, rfl⟩, by decide, by decide⟩

/-- A device with an NVM operation under way. -/
def storing (op : NvmOp) : State := { running .idle with
  isl := { State.reset.isl with nvmOp := op, opTag := some 4 }, safe := { State.reset.safe with commitTag := some 5 } }

theorem test_nvmOperations : (storing (.cfgSave ⟨[], [], 0⟩)).isl.nvmOp = .cfgSave ⟨[], [], 0⟩ ∧
    (storing (.book 31 (recipe 1))).isl.nvmOp = .book 31 (recipe 1) ∧
    (storing (.safe State.reset.safe.act)).isl.nvmOp = .safe State.reset.safe.act ∧
    (storing (.safe State.reset.safe.act)).safe.commitTag = some 5 ∧
    (storing (.safe State.reset.safe.act)).sys.phase = .running := ⟨rfl, rfl, rfl, by decide, by decide⟩

/-- The header of an empty recipe, staged. -/
def authored (n : Byte) : State :=
  { running .configure with isl := { State.reset.isl with stageHdr := n :: List.replicate 31 0 } }

theorem test_bookCommands : (List.replicate 32 (0 : Byte)).length = 32 ∧ bookBusy (authored 0) = false ∧
    Served (.bookHdr (List.replicate 32 0)) (authored 0) ∧ 1 ≤ (1 : Byte).toNat ∧ (1 : Byte).toNat ≤ 63 ∧
    (List.replicate 64 (0 : Byte)).length = 64 * (1 : Byte).toNat ∧ (127 : Byte).toNat + (1 : Byte).toNat ≤ 128 ∧
    Served (.bookSteps 127 1 (List.replicate 64 0)) (authored 0) ∧ (31 : Byte).toNat < 32 ∧ nvmBusy (authored 0) = false ∧
    recipeFault (stagedRecipe (authored 0)) = none ∧ Served (.bookCommit 31) (authored 0) ∧
    (recipeFault (stagedRecipe (authored 129))).isSome = true ∧ Served (.bookCommit 31) (authored 129) := by
  and_intros <;> first | decide | exact served_of (by decide)

theorem test_registerAccess : placeOf 0x100 = some (.sys 0x100) ∧ (running .idle).sys.phase ≠ .dormant ∧
    Served (.regRead 0x100) (running .idle) ∧ Served (.captureRead 0x104) (running .idle) ∧
    ((dormant.sys.phase = .dormant → (0xFC : Word).toNat < 0x100)) ∧ placeOf 0xFC = some (.sys 0xFC) ∧
    Served (.regRead 0xFC) dormant ∧ Served (.regWrite 0x100 0) (running .idle) ∧
    (readBlock (taken (.regReadBlock 0xC 2) (running .idle)) 0xC 2).isSome = true ∧
    Served (.regReadBlock 0xC 2) (running .idle) ∧ 1 ≤ [((0x103F0000 : Word), (1 : Word))].length ∧
    [((0x103F0000 : Word), (1 : Word))].length ≤ 256 ∧ Served (.regWriteMulti [(0x103F0000, 1)]) (running .idle) := by
  and_intros <;> first | decide | exact served_of (by decide)

theorem test_writePairs : (writeReg (running .idle) 0x103F0000 1).2 = stOk ∧ (writeReg (running .idle) 2 1).2 ≠ stOk := by decide

theorem test_addresses : placeOf 0xCFFFE = none ∧ (0xCFFFE : Word).toNat % 4 ≠ 0 ∧ 0x10400000 ≤ (0x10400000 : Word).toNat ∧
    0xD0000 ≤ (0xD0000 : Word).toNat ∧ (0xFFFFFFC : Word).toNat < 0x10000000 ∧ placeOf 0xCFFFC = some (.aux 0xFFFC) ∧
    0x10000000 ≤ (0x10000000 : Word).toNat ∧ (0x103EFFFC : Word).toNat < 0x103F0000 ∧
    0x103F0000 ≤ (0x103F0000 : Word).toNat ∧ (0x103FFFFC : Word).toNat < 0x10400000 ∧ Memory.wf State.reset.mem = true := by
  decide

/-- A recipe whose header carries its CRC. -/
def sealed : Recipe := { recipe 1 with header := sealHeader (recipe 1).header 1 (recipe 1).steps }

/-- The conditions of the one-register rows. -/
theorem test_fieldWrites : (running .configure).sys.mode = .configure ∧ Served (.foutWrite 3) (running .configure) ∧
    (4 : BitVec 3).toNat ≤ 4 ∧ (4 : BitVec 3) ≠ ((running .idle).grp[3]).gang ∧ groupOff (running .idle) 3 = true ∧
    Served (.gangWrite 3 4) (running .idle) ∧ isFollower booked 15 = false ∧ (booked.ch[15]).st = .off ∧
    bindingOk booked 0x7F011F = true ∧ Served (.progBindWrite 15 0x7F011F) booked ∧
    Served (.coefAccess 15 (some 7)) (running .idle) ∧ (running .idle).sys.phase ≠ .dormant ∧
    Served (.coefAccess 15 none) (running .idle) ∧ Served (.freezeWrite 15 0xF) (running .idle) ∧
    Served (.accClearWrite 15) (running .idle) ∧ Served .bkclrWrite (running .idle) ∧ 60 ≤ (60 : BitVec 16).toNat ∧
    Served (.castlePeriodWrite 60) (running .idle) ∧ Served (.quadWrite true) (running .idle) ∧
    (running .service).sys.mode = .service ∧ (0x3F0000 : Word).getLsbD 21 = true ∧
    Served (.testUnretireWrite 0x3F0000) (running .service) ∧ bits (0x0000001F : Word) 0 5 ≠ 0 ∧
    bits (0x0000001F : Word) 16 5 = 0 ∧ Served (.testUnretireWrite 0x1F) (running .service) ∧
    Served .auxpsPkclrWrite (running .idle) := by
  and_intros <;> first | decide | exact served_of (by decide)

/-- A running channel in FORM or DIRECT whose targets follow the host. -/
def handed (m : Mode) : State := (running m).updCh 15 fun ch => { ch with st := .run, src := .hand }

theorem test_setpointWrites : setpointFits .iset 320000000 ∧ setpointFits .vset 5500000 ∧ setpointFits .iramp 1000000 ∧
    setpointFits .vramp 10000000 ∧ ¬ setpointFits .iset 320000001 ∧ ¬ setpointFits .vset 5500001 ∧
    ¬ setpointFits .iramp 1000001 ∧ ¬ setpointFits .vramp 10000001 := by
  and_intros <;> simp only [setpointFits] <;> decide

theorem test_setpointSources : followsHost (running .form) 15 = false ∧ followsHost (handed .form) 15 = true ∧
    Served (.setpointWrite 15 .iset 320000000) (running .form) ∧ Served (.setpointWrite 15 .iset 320000000) (handed .form) := by
  and_intros <;> first | decide | exact served_of (by decide)

theorem test_maskAllOrNothing : ∃ f : State → Fin 16 → Byte, ∃ c : Fin 16, (0xFFFC : Mask).getLsbD c.val = true ∧
    f State.reset c ≠ stOk ∧ (∀ d : Fin 16, d < c → (0xFFFC : Mask).getLsbD d.val = true → f State.reset d = stOk) ∧
    (0xFFFF : Mask) ≠ 0 ∧ ∃ g : State → Fin 16 → Byte, ∀ c : Fin 16, (0xFFFF : Mask).getLsbD c.val = true → g State.reset c = stOk :=
  ⟨fun _ c => if c = 15 then stBadParam else stOk, 15, by decide, by decide, by decide, by decide, fun _ _ => stOk, by decide⟩

/-- Every channel in one state with one program state, bound to a recipe of the book. -/
def channelsIn (st : ChState) (p : PState) : State :=
  { running .form with
    ch := vmapI State.reset.ch fun _ ch => { ch with st := st, progReg := 0x11F, prog := { ch.prog with pstate := p } }
    nvm := { State.reset.nvm with book := State.reset.nvm.book.set 31 sealed } }

theorem test_maskLeaders : (0xFFFF : Mask) ≠ 0 ∧
    (∀ c : Fin 16, (0xFFFF : Mask).getLsbD c.val = true → isFollower (channelsIn .off .ready) c = false) ∧
    (∀ c : Fin 16, (0xFFFF : Mask).getLsbD c.val = true → startBlocked (channelsIn .off .ready) c = false ∧
      ((channelsIn .off .ready).ch[c]).st ≠ .fault) ∧ Served (.chArm 0xFFFF) (channelsIn .off .ready) ∧
    Served (.chStop 0xFFFF) (channelsIn .off .ready) ∧
    ((channelsIn .off .ready).ch[15]).prog.causes.contains hcMeas = false ∧
    Served (.chResume 0xFFFF) (channelsIn .off .ready) ∧ Served (.chClear 0xFFFF) (channelsIn .off .ready) ∧
    Served (.progAbort 0xFFFF) (channelsIn .off .ready) := by
  and_intros <;> first | decide | exact served_of (by decide)

theorem test_maskHold :
    (∀ c : Fin 16, (0xFFFF : Mask).getLsbD c.val = true → isFollower (channelsIn .run .run) c = false) ∧
    (∀ c : Fin 16, (0xFFFF : Mask).getLsbD c.val = true →
      ((channelsIn .run .run).ch[c]).st = .run ∨ ((channelsIn .run .run).ch[c]).st = .hold) ∧
    Served (.chHold 0xFFFF) (channelsIn .run .run) ∧
    (∀ c : Fin 16, (0xFFFF : Mask).getLsbD c.val = true → ((channelsIn .run .run).ch[c]).bound = true ∧
      (((channelsIn .run .run).ch[c]).prog.pstate = .run ∨ ((channelsIn .run .run).ch[c]).prog.pstate = .hold)) ∧
    Served (.chHand 0xFFFF 1) (channelsIn .run .run) := by
  and_intros <;> first | decide | exact served_of (by decide)

theorem test_maskHandLeave :
    (∀ c : Fin 16, (0xFFFF : Mask).getLsbD c.val = true → isFollower (channelsIn .run .hand) c = false) ∧
    (∀ c : Fin 16, (0xFFFF : Mask).getLsbD c.val = true → ((channelsIn .run .hand).ch[c]).bound = true ∧
      ((channelsIn .run .hand).ch[c]).prog.pstate = .hand) ∧ Served (.chHand 0xFFFF 0) (channelsIn .run .hand) := by
  and_intros <;> first | decide | exact served_of (by decide)

theorem test_maskStart : isFollower (channelsIn .off .ready) 15 = false ∧ ((channelsIn .off .ready).ch[15]).bound = true ∧
    ((channelsIn .off .ready).ch[15]).st = .off ∧ startBlocked (channelsIn .off .ready) 15 = false ∧
    hdrNstep ((channelsIn .off .ready).nvm.book[((channelsIn .off .ready).ch[15]).recipeSlot]).header ≠ 0 ∧
    Served (.progStart 0x8000) (channelsIn .off .ready) := by
  and_intros <;> first | decide | exact served_of (by decide)

theorem leWord_wordBytes (w : Word) : leWord (wordBytes w) = w := by
  apply BitVec.eq_of_toNat_eq
  simp only [leWord, wordBytes, toLE, leNat, BitVec.toNat_ofNat]
  have := w.isLt
  omega

theorem intact_of (b : List Byte) (h : b.length = 28) (steps : List (List Byte)) :
    recipeIntact { header := b ++ wordBytes (crc32c (b ++ steps.flatten)), steps := steps } = true := by
  have h4 : ∀ w : Word, (wordBytes w).take 4 = wordBytes w := fun w => by simp [wordBytes, toLE]
  simp only [recipeIntact, recipeCrc, slice]
  rw [List.drop_left' h, List.take_left' h, h4, leWord_wordBytes]
  exact beq_self_eq_true _

theorem test_maskStart_intact : recipeIntact sealed = true := intact_of _ (by decide) _

theorem test_maskStart_slot :
    (channelsIn .off .ready).nvm.book[((channelsIn .off .ready).ch[15]).recipeSlot] = sealed := rfl

theorem test_setpointCommand : (15 : Byte).toNat < 16 ∧ 1 ≤ (15 : Byte).toNat ∧ (15 : Byte).toNat < 16 ∧
    isFollower (handed .form) 15 = false ∧ (320000000 : Word).toInt.natAbs ≤ 320000000 ∧ (5500000 : Word).toNat ≤ 5500000 ∧
    (1000000 : Word).toNat ≤ 1000000 ∧ (10000000 : Word).toNat ≤ 10000000 ∧
    Served (.chSetpoint 15 15 320000000 5500000 1000000 10000000) (running .form) ∧ followsHost (running .form) 15 = false ∧
    Served (.chSetpoint 15 15 320000000 5500000 1000000 10000000) (handed .form) ∧ followsHost (handed .form) 15 = true ∧
    Served (.chSetpoint 15 15 320000000 5500000 1000000 10000000) (handed .safe) ∧ followsHost (handed .safe) 15 = true ∧
    (handed .form).sys.mode ≠ .safe ∧ (handed .safe).sys.mode = .safe := by
  and_intros <;> first | decide | exact served_of (by decide)

theorem test_transitions : 1 ≤ 1 ∧ 9 ≤ 9 ∧ ((handed .form).ch[15]).st ≠ .off ∧ ((handed .form).ch[15]).st ≠ .fault ∧
    (14 : Fin 16) ≠ 15 := by decide

/-- One channel as a function of the reset channel, in FORM. -/
def chan (f : Chan → Chan) : State := (running .form).updCh 3 f

/-- What CHECK measures on a good cell. -/
def goodCheck : CheckMeas :=
  { vs := 3300000000, dP := 100000000, dN := -100000000, vf := 0, noCurrent := false, o0 := 30000, o1 := 380000, i1 := 100000 }

theorem test_checkEnds : ∃ s : State, (members s 3).length = [goodCheck].length ∧
    (∀ d ∈ members s 3, (s.ch[d]).checking = true ∧ (s.ch[d]).opening = .none) ∧
    (0 ≤ goodCheck.vs ∧ -100000000 ≤ goodCheck.dN ∧ goodCheck.dP ≤ 100000000 ∧
      (500000000 < goodCheck.vs → 20000000 ≤ (goodCheck.vf - goodCheck.vs).natAbs)) ∧
    (∀ x ∈ List.zip (members s 3) [goodCheck], contactFail s x.1 x.2 = false) ∧
    (0 ≤ goodCheck.vs ∧ { goodCheck with dN := -100000001 }.dN < -100000000 ∧
      100000000 < { goodCheck with dP := 100000001 }.dP) ∧
    checkOutcome s (List.zip (members s 3) [{ goodCheck with vs := -50000001 }]) = .fail [(3, 1)] :=
  ⟨chan fun ch => { ch with st := .check, checking := true }, by decide, by decide, by decide, by decide, by decide, by decide⟩

theorem test_shortCheck : ∃ s : State, (s.ch[(3 : Fin 16)]).short = some ⟨0, 0⟩ ∧ (0 : Int) + 20000 < 20001 ∧
    (s.ch[(3 : Fin 16)]).vS ≤ 0 + 20000 ∧
    (bits (s.ch[(3 : Fin 16)]).chkcfg 8 8 : Int) * 100000 * 2 ^ 32 ≤ (s.ch[(3 : Fin 16)]).q - 0 :=
  ⟨chan fun ch => { ch with short := some ⟨0, 0⟩, vS := 20000, q := 20 * 100000 * 2 ^ 32 },
    by decide, by decide, by decide, by decide⟩

theorem test_foldback : ∃ s t : State, (s.ch[(3 : Fin 16)]).gates = true ∧ (s.ch[(3 : Fin 16)]).burst = false ∧
    foldNext (s.ch[(3 : Fin 16)]).feff (bits (s.ch[(3 : Fin 16)]).fswF 0 9) 69999 < bits (s.ch[(3 : Fin 16)]).fswF 0 9 ∧
    (s.ch[(3 : Fin 16)]).fold = false ∧ (t.ch[(3 : Fin 16)]).fold = true ∧
    bits (s.ch[(3 : Fin 16)]).fswF 0 9 ≤ foldNext (s.ch[(3 : Fin 16)]).feff (bits (s.ch[(3 : Fin 16)]).fswF 0 9) 70000 :=
  ⟨chan fun ch => { ch with st := .run, gates := true, feff := 200 },
    chan fun ch => { ch with st := .run, gates := true, feff := 200, fold := true },
    by decide, by decide, by decide, by decide, by decide, by decide⟩

theorem test_burst : ∃ s t : State, (s.ch[(3 : Fin 16)]).st = .run ∧ (s.ch[(3 : Fin 16)]).gates = true ∧
    (s.ch[(3 : Fin 16)]).burst = false ∧ (s.ch[(3 : Fin 16)]).neg = false ∧ (s.ch[(3 : Fin 16)]).feff = 40 ∧ 59999 < 60000 ∧
    (t.ch[(3 : Fin 16)]).burst = true ∧ 10 ≤ (t.ch[(3 : Fin 16)]).burstAbove ∧ (t.ch[(3 : Fin 16)]).gates = false ∧
    ((chan fun ch => { ch with burst := true, burstAbove := 10, gates := true }).ch[(3 : Fin 16)]).gates = true :=
  ⟨chan fun ch => { ch with st := .run, gates := true, feff := 40 }, chan fun ch => { ch with burst := true, burstAbove := 10 },
    by decide, by decide, by decide, by decide, by decide, by decide, by decide, by decide, by decide, by decide⟩

theorem test_imbalance : ∃ s : State, (s.ch[(3 : Fin 16)]).gates = true ∧ (s.ch[(3 : Fin 16)]).cfg.getLsbD 2 = true ∧
    (s.ch[(3 : Fin 16)]).burst = false ∧ (runningLegs s 3).length = 2 :=
  ⟨chan fun ch => { ch with gates := true }, by decide, by decide, by decide, by decide⟩

theorem test_openings : ∀ o ∈ [Opening.orderly, .ramp, .gatesOff, .forced],
    ((chan fun ch => { ch with opening := o }).ch[(3 : Fin 16)]).opening = o := by decide

/-- One leg as a function of the reset leg, with the gates of its channel on. -/
def legOf (f : Leg → Leg) : State := ((running .form).updCh 1 fun ch => { ch with st := .run, gates := true }).updLeg 3 f

theorem test_trips_off : switching (running .form).ch[chanOfLeg 3] = false ∧ comparatorsWork (running .form) = true := by decide

theorem test_trips : switching (legOf id).ch[chanOfLeg 3] = true ∧ recentSuspect (legOf id) 3 = false ∧
    recentSuspect (legOf fun l => { l with lastSuspect := some 0 }) 3 = true ∧
    (chansOf 0).any (fun c => switching (legOf id).ch[c]) = true ∧ identifiedLegs 0 0 = 0 ∧
    (∀ i : Fin 8, (0xFF : BitVec 8).getLsbD i.val = true → recentSuspect (legOf id) (groupLeg 0 i) = false) ∧
    identifiedLegs 0x80 3 = 0x80 := by decide

/-- A restart interval of group 3. -/
def tripped : State := (running .form).updGrp 3 fun g =>
  { g with restart := some { legs := 0xFF, suspect := 1, probed := 0, probing := false } }

theorem test_restart : (tripped.grp[3]).restart = some { legs := 0xFF, suspect := 1, probed := 0, probing := false } ∧
    (0xFF : BitVec 8).getLsbD (7 : Fin 8).val = true := by decide

theorem test_bootstrap : ((legOf id).ch[chanOfLeg 3]).gates = true ∧ ((legOf id).leg[3]).restart = false ∧
    ((legOf id).leg[3]).parked = false ∧ ((legOf fun l => { l with buvRun := 1 }).leg[3]).buvRun < 2 ∧
    2 ≤ ((legOf fun l => { l with buvRun := 2 }).leg[3]).buvRun := by decide

theorem test_supervision : ∃ s : State, 10 ≤ (s.ch[(3 : Fin 16)]).satRun ∧ (s.ch[(3 : Fin 16)]).isat = false ∧
    leaderOf s 3 = 3 ∧ (s.ch[(3 : Fin 16)]).st = .run ∧
    bits (s.ch[(3 : Fin 16)]).supcfg 8 8 ≤ (s.ch[(3 : Fin 16)]).sup[(1 : Fin 4)] ∧
    (s.ch[(3 : Fin 16)]).implc.getLsbD (implBit 1) = false :=
  ⟨chan fun ch => { ch with st := .run, satRun := 10, sup := Vector.replicate 4 20 },
    by decide, by decide, by decide, by decide, by decide, by decide⟩

/-- A device with an island down. -/
def islandLost (i : Nat) : State :=
  { running .form with sys := { (running .form).sys with islDown := putBit 0 i true, recovering := true } }

theorem test_islands : epochsRun (running .form) = true ∧ ((running .form).ce[4]).role ≠ .retired ∧
    (∀ i : Fin 14, islandDown (running .form) i.val = false) ∧ (5 : Fin 14) ∈ [(5 : Fin 14), 6, 7, 12] ∧
    (9 : Fin 14) ∈ [(9 : Fin 14), 11] ∧ (0 : Fin 14).val < 5 ∧ (13 : Fin 14) ≠ 11 ∧ islandDown (islandLost 13) 13 = true ∧
    islandDown (islandLost 11) 11 = true ∧ (islandLost 11).sys.recovering = true := by decide

/-- A castling of group 3 that waits for its commit. -/
def castling : State := (running .form).updGrp 3 fun g =>
  { g with castle := some { fromCe := some 3, toCe := 4, planned := true, began := true, ready := true, skipped := 0, waited := false } }

/-- Planned castling is due, and the spare has passed its logic BIST. -/
def castleDue : State :=
  State.updCe { running .form with sys := { (running .form).sys with castlePen := true, castlePeriod := 60, castleNs := 60000000000 } } 4
    fun c => { c with bist := 1 }

theorem test_castling : castlingDue castleDue = true ∧ hotWaits castleDue = false ∧ longestOwner castleDue = some 0 ∧ receiver castleDue = some 4 ∧
    ownedGroup castleDue 0 = some 0 ∧ (castleDue.grp[0]).restart = none ∧ (castleDue.ce[4]).role = .spare ∧
    (castleDue.ce[4]).bist = 1 ∧ (castleDue.ce[4]).bistAt ≤ castleDue.sys.tbase ∧ epochsRun castleDue = true ∧
    islandDown castleDue 4 = false ∧ (∀ h : Fin 4, (castleDue.grp[h]).castle = none) ∧
    (∀ j : Fin 5, j < 4 → (castleDue.ce[j]).role ≠ .spare ∨ islandDown castleDue j.val = true) ∧
    (castling.grp[3]).castle = some { fromCe := some 3, toCe := 4, planned := true, began := true, ready := true, skipped := 0, waited := false } ∧
    (some (3 : Fin 5)) ≠ some 4 := by decide

theorem test_spareBist : ∃ s : State, (s.ce[(4 : Fin 5)]).role = .bist ∧ bistPaused s 4 = false ∧ s.isl.spareTag = none ∧
    (s.ce[(4 : Fin 5)]).qualified = true :=
  ⟨(running .form).updCe 4 fun c => { c with role := .bist, qualified := true }, by decide, by decide, by decide, by decide⟩

/-- CRC-16 with polynomial 0x1021 and initial value 0xFFFF of the digits 1 to 9: the check value of that CRC. -/
theorem test_crc16 : crc16 [0x31, 0x32, 0x33, 0x34, 0x35, 0x36, 0x37, 0x38, 0x39] = 0x29B1 := by
  decide +kernel

theorem test_crossbar : crc16 ([0x31] : List Byte) ≠ 0 ∧ 4 ≤ (List.replicate 4 (([0x31] : List Byte), (0 : BitVec 16))).length ∧
    (∀ y ∈ (List.replicate 4 (([0x31] : List Byte), (0 : BitVec 16))).take 4, crc16 y.1 ≠ y.2) ∧
    failedPlane (running .form) 0 13 = none ∧
    failedPlane { running .form with sticky := { State.reset.sticky with routes := [(0, 13, true)] } } 0 13 = some true := by
  decide

theorem test_references : (31 : Byte).toNat = (31 : Fin 32).val ∧
    (0x60 : Byte).toNat = groupTag (running .form).grp[groupOfLeg 31] ∧ ((running .form).leg[31]).parked = false ∧
    ((running .form).leg[31]).restart = false ∧
    (0x61 : Byte).toNat ≠ groupTag (running .form).grp[groupOfLeg 31] := by decide

theorem test_reference_held : ∃ s t : State, (s.leg[(31 : Fin 32)]).restart = true ∧ (s.leg[(31 : Fin 32)]).parked = false ∧
    (t.leg[(31 : Fin 32)]).parked = true ∧ (0x60 : Byte).toNat = groupTag s.grp[groupOfLeg 31] ∧
    (0x60 : Byte).toNat = groupTag t.grp[groupOfLeg 31] :=
  ⟨(running .form).updLeg 31 fun l => { l with restart := true },
    (running .form).updLeg 31 fun l => { l with park := { l.park with test := true } },
    by decide, by decide, by decide, by decide, by decide⟩

/-! Measurement -/

theorem test_measurementCommands : 110 ≤ (110 : Word).toNat ∧ (60000 : Word).toNat ≤ 60000 ∧ measServed (handed .form) 15 = true ∧
    measBusy (handed .form) 15 = false ∧ Served (.measPulse 15 100 110) (handed .form) ∧ 10 ≤ (10 : Word).toNat ∧
    (5000000 : Word).toNat ≤ 5000000 ∧ 1000 ≤ (1000 : Word).toNat ∧ ((80000000 : Word).toNat : Int) ≤ iMax (handed .form) 15 ∧
    Served (.measEis 15 15 5000000 80000000) (handed .form) ∧ (running .form).sys.mode ≠ .service ∧
    freeLanes (running .form) ≠ 0 ∧ Served .calRequestRotation (running .form) ∧ nvmBusy (running .service) = false ∧
    (1 : Byte).toNat ≤ 1 ∧ Served (.calRequestRefTrim 1 0) (running .service) ∧ (31 : Byte).toNat ≤ 31 ∧
    Served (.calRequestFactory 31 0) (running .service) ∧ leadOf? (running .form) 15 = some 15 ∧
    (List.replicate 12 (0 : Byte)).length = 12 ∧ ringUsed (running .form).ch[15] < ringSize ∧
    Served (.logMark 15 (List.replicate 12 0)) (running .form) := by
  and_intros <;> first | decide | exact served_of (by decide)

theorem test_trimEnds : (storing (.calTrim 1 0 5)).isl.nvmOp = .calTrim 1 0 5 ∧
    (storing (.calTrim 2 31 5)).isl.nvmOp = .calTrim 2 31 5 := ⟨rfl, rfl⟩

/-- A device with the rotation at a slot and the external reference enabled or not. -/
def rotating (slot : Nat) (x : Bool) : State := { running .form with meas := { State.reset.meas with
  slot := slot, refcfg := if x then 0x10000 else 0, hold := 1, lanes := Vector.replicate 4 { st := 0, pos := 0 } } }

theorem test_rotation : rotationRuns (rotating 1 false) = true ∧ 0 < (rotating 1 false).meas.slot ∧
    (rotating 1 false).meas.slot < rotationSlots (rotating 1 false) ∧
    rotationSlots (rotating 8 false) ≤ (rotating 8 false).meas.slot ∧ rotationRuns (rotating 8 false) = true := by decide

theorem test_voting : measPowered (rotating 1 false) = true ∧
    (10000 : Int).natAbs ≤ 10000 ∧ (rotating 1 false).meas.refcfg.getLsbD 16 = false ∧ 10000 < (-10001 : Int).natAbs ∧
    inVote (rotating 1 false) 0 = true ∧ inVote (rotating 1 false) 1 = true ∧ inVote (rotating 1 true) 2 = true ∧
    (rotating 1 true).meas.refcfg.getLsbD 16 = true ∧
    10000 < ((10001 : Int) - sbits (rotating 1 true).meas.refcfg 0 16).natAbs := by decide

/-- A calibration hold of 168 hours. -/
def heldLong : State := { rotating 1 false with sys := { (running .form).sys with tbase := 604800000000000 } }

/-- A calibration hold whose mean temperature has moved by 10.01 K. -/
def heldWarm : State := { rotating 1 false with meas := { (rotating 1 false).meas with holdTemp := 2500 } }

theorem test_holdExpires : heldLong.meas.hold ≠ 0 ∧ heldLong.meas.holdx = false ∧
    168 ≤ (heldLong.sys.tbase + 0 - heldLong.meas.holdAt) / 3600000000000 ∧ heldWarm.meas.hold ≠ 0 ∧
    heldWarm.meas.holdx = false ∧ 1000 < ((3501 : Int) - heldWarm.meas.holdTemp).natAbs := by decide

theorem test_loopback : (running .form).sys.running = true ∧ (running .form).isl.dacf = false ∧
    (running .form).meas.legSlotAt ≤ (running .form).sys.tbase ∧
    ((running .form).leg[(running .form).meas.legIdx]).restart = false ∧ (795000 : Int).natAbs ≤ 795000 ∧
    795000 < (-795001 : Int).natAbs ∧ ((running .form).leg[(running .form).meas.legIdx]).park.conv = false := by decide

theorem test_legOffset : legSwitching (running .form) 31 = false ∧
    ((running .form).ch[chanOfLeg 31]).iP.natAbs < 10000 := by decide

/-- What a pulse and an impedance point measure. -/
def pulse : PulseMeas := { prec := [{ tb := 0, v := 0, vsh := 0, vOld := 0, vshOld := 0 }], wide := [] }
def point : EisMeas := { wide := [{ tb := 0, v := 0, vsh := 0, vOld := 0, vshOld := 0 }] }

/-- A channel whose pulse has been staged for a host command or a program. -/
def pulsing (m : HostMeas) : State := chan fun ch => { ch with st := .run, pulseArmed := some (0, 0), hostMeas := m }

theorem test_pulseResults : ((pulsing (.pulse 5 (some 1))).ch[(3 : Fin 16)]).pulseArmed = some (0, 0) ∧
    ((pulsing (.pulse 5 (some 1))).ch[(3 : Fin 16)]).hostMeas = .pulse 5 (some 1) ∧
    ((pulsing (.pulseEnd 1)).ch[(3 : Fin 16)]).hostMeas = .pulseEnd 1 ∧
    ((pulsing .none).ch[(3 : Fin 16)]).hostMeas = .none ∧
    stFlag ((pulsing .none).ch[(3 : Fin 16)]).prog.cur 3 = false := by decide

/-- A program in an EIS step, whose excitation has run since TBASE 0. -/
def eisRun : State := chan fun ch => { ch with st := .run, hostMeas := .none, excAt := some 0, prog := { ch.prog with
  pstate := .run, started := true, recipe := { header := 1 :: List.replicate 31 0, steps := [[9, 0, 0, 0, 0, 0, 0, 0, 0, 0, 0, 0, 0, 0, 0, 0, 0, 0, 0, 0, 0, 0, 0, 0] ++ List.replicate 40 0] } } }

/-- A window whose samples have all been taken is complete. -/
theorem test_eisWindow (m n at' : Nat) : eisSamples (List.replicate n { tb := at' + settling m n + 1, v := 0, vsh := 0, vOld := 0, vshOld := 0 })
    at' m n = some (List.replicate n { tb := at' + settling m n + 1, v := 0, vsh := 0, vOld := 0, vshOld := 0 }) := by
  simp [eisSamples]

theorem test_eisWindow_open : ((chan id).ch[(3 : Fin 16)]).excAt = none ∧ (eisRun.ch[(3 : Fin 16)]).excAt = some 0 ∧
    eisSamples point.wide 0 1 64000 = none := by decide

theorem test_eisResults : eisRuns eisRun.ch[3] = true ∧ (eisRun.ch[(3 : Fin 16)]).hostMeas = .none ∧
    ((chan fun ch => { ch with hostMeas := .eis 1 16 1000 5 }).ch[(3 : Fin 16)]).hostMeas = .eis 1 16 1000 5 := by decide

/-! Formation -/

/-- A charge step of TMAX 10 s and a cap of 1 mAh, a record every 10 ms, with the time, the charge and the record interval
just reached. -/
def atEnd (type : Byte) : State := chan fun ch => { ch with st := .run, prog := { ch.prog with
  pstate := .run, started := true, stepNs := 10000000000, samples := 0, charge := -(1000 * 2 ^ 32), perNs := 10000000
  recipe := { header := 1 :: List.replicate 31 0
              steps := [[type, 0, 1] ++ List.replicate 21 0 ++ [10, 0, 0] ++ List.replicate 1 0 ++ [1] ++ List.replicate 35 0] } } }

theorem test_stepEnds : stepRuns (atEnd 1).ch[3] = true ∧ 0 < stTmax ((atEnd 1).ch[3]).prog.cur ∧
    timerEnds ((atEnd 1).ch[3]).prog = true ∧ capReached ((atEnd 1).ch[3]).prog = true ∧
    ((atEnd 1).ch[3]).prog.pend = none ∧ 0 < stLogNs ((atEnd 1).ch[3]).prog.cur ∧
    stLogNs ((atEnd 1).ch[3]).prog.cur ≤ ((atEnd 1).ch[3]).prog.perNs := by decide

/-- A later end of the same boundary gives way, and an earlier one stays. -/
theorem test_endsInOrder : ∃ s : State, ∃ x, (s.ch[(3 : Fin 16)]).prog.pend = some x ∧
    (2 < x.wait ∨ (2 = x.wait ∧ 5 < x.rank)) ∧ (1 < x.wait ∨ (1 = x.wait ∧ 6 < x.rank)) ∧
    ¬(2 < x.wait ∨ (2 = x.wait ∧ 6 < x.rank)) :=
  ⟨(atEnd 1).updProg 3 fun p => { p with pend := some { reason := 0x11, next := 0xFD, wait := 2, rank := 6 } },
    _, rfl, by decide, by decide, by decide⟩

theorem test_ocv : stepRuns (atEnd 0x0A).ch[3] = true ∧ stType ((atEnd 0x0A).ch[3]).prog.cur = 0x0A ∧
    ((atEnd 0x0A).ch[3]).prog.eisIndex = 0 ∧
    (stIt ((atEnd 0x0A).ch[3]).prog.cur).toNat * 1000000000 ≤ ((atEnd 0x0A).ch[3]).prog.stepNs := by decide

/-- A recipe whose window is 0 to 40 degrees with its suspend bounds, and a cell at 25 degrees, reduced or suspended. -/
def tempered : State :=
  State.updInp (chan fun ch => { ch with prog := { ch.prog with
    pstate := .run, tred := true, causes := [hcTempwin]
    recipe := { header := [1, 0, 0, 0, 0, 0, 0xA0, 0x0F, 0, 0, 0xA0, 0x0F] ++ List.replicate 20 0, steps := [List.replicate 64 0] } } })
    3 fun t => { t with temp := 2500, filt := 2500, broken := false }

theorem test_temperature : (tempered.ch[(3 : Fin 16)]).prog.tred = true ∧ (tempered.ch[(3 : Fin 16)]).prog.pstate.active = true ∧
    cellBroken tempered 3 = false ∧
    cellWithin tempered 3 (hdrBound (tempered.ch[(3 : Fin 16)]).prog.recipe.header 0)
      (hdrBound (tempered.ch[(3 : Fin 16)]).prog.recipe.header 1) 100 = true ∧
    (tempered.ch[(3 : Fin 16)]).prog.causes.contains hcTempwin = true ∧
    cellWithin tempered 3 (hdrBound (tempered.ch[(3 : Fin 16)]).prog.recipe.header 2)
      (hdrBound (tempered.ch[(3 : Fin 16)]).prog.recipe.header 3) 200 = true := by decide

/-! Thermal and link -/

/-- A device whose boot-time check of the die sensors has ended. -/
def checkedDies : State := { running .form with therm := { State.reset.therm with checked := true } }

/-- The conversions of an evaluation, all at one temperature. -/
def conv (x : Int) : DieConv := { mean := x, last := x, low := x, high := x }

/-- A device in BOOT that waits for the conversions of one sensor. -/
def checkingDies : State := { running .form with therm := { State.reset.therm with
  boot := (Vector.replicate 20 (some (conv 2500))).set 19 none } }

theorem test_dieEvaluation : thermRuns checkedDies = true ∧ checkedDies.therm.checked = true ∧
    1 ≤ ((checkedDies.updDie 5 fun d => { d with hot := 1 }).therm.die[5]).hot ∧
    thermRuns (running .form) = true ∧ (running .form).therm.checked = false ∧
    (∃ j : Fin 20, j ≠ 19 ∧ (running .form).therm.boot[j] = none) ∧ checkingDies.therm.checked = false ∧
    (∀ j : Fin 20, j ≠ 19 → checkingDies.therm.boot[j] ≠ none) ∧ convOutside (conv 17501) = true := by decide

theorem test_thermLatch : (running .form).sys.phase ≠ .unpowered ∧ (running .form).sys.phase ≠ .stopped ∧
    (running .form).nvm.thLatched = false := by decide

theorem test_inputs : thermRuns (running .form) = true ∧ voltageInput (running .form) 15 = false ∧
    (∀ i : Fin 8, voltageInput { running .form with therm := { State.reset.therm with
      auxcfgF := State.reset.therm.auxcfgF.set 7 0x80000000 } } ⟨16 + i.val, by omega⟩ = decide (i = 7)) := by decide

/-- A link state with its conditions. -/
def linked (st : LinkSt) (f : Link → Link) : State :=
  { running .form with link := f { State.reset.link with st := st, pend := none, bkf := false } }

theorem test_linkSource : linkRuns (linked .source id) = true ∧ (linked .source id).link.pend = none ∧
    (linked .source id).link.st = .source ∧
    backupUsable (linked .source fun l => { l with act := { l.act with cfg := 1 } }) = true ∧
    backupUsable (linked .source fun l => { l with act := { l.act with cfg := 2 }, gc := 1 }) = false ∧
    formingOk (linked .source fun l => { l with act := { l.act with cfg := 2 }, gc := 1 }) = true ∧
    backupUsable (linked .source fun l => { l with act := { l.act with cfg := 0 } }) = false ∧
    formingOk (linked .source fun l => { l with act := { l.act with cfg := 0 } }) = false := by decide

theorem test_linkOthers : (linked .lost fun l => { l with act := { l.act with cfg := 1 } }).link.st = .lost ∧
    backupUsable (linked .lost fun l => { l with act := { l.act with cfg := 1 } }) = true ∧
    (linked .handover id).link.st = .handover ∧ (linked .ret id).link.st = .ret ∧
    (linked .backup fun l => { l with qual := true }).link.st = .backup ∧
    (linked .backup fun l => { l with qual := true }).link.qual = true ∧
    (linked .forming fun l => { l with qual := true, zeroTicks := 10 }).link.st = .forming ∧
    10 ≤ (linked .forming fun l => { l with qual := true, zeroTicks := 10 }).link.zeroTicks := by decide

theorem test_linkTick : tickDue (linked .source id) = true := by decide

/-- A rack-bus node with the budget service, following its own link. -/
def noded : State :=
  { linked .backup (fun l => { l with act := { l.act with node := 0x1FF0F }, reg := { l.reg with node := 0x1FF0F } }) with
    can := { State.reset.can with ctl := 1, joined := true } }

/-- A budget message of node n. -/
def budget (n : BitVec 4) : BudgetMsg :=
  { fmt := 1, state := 0, code := 0, node := n, lnk := 0xF, tseq := 0, d := 1, gc := 1, gm := 1, ttick := 0 }

theorem test_budgetMessages : linkRuns noded = true ∧ budgetService noded = true ∧ nodeLnk noded = 0xF ∧ nodeId noded = 15 ∧
    (budget 15).lnk.toNat = nodeLnk noded ∧ (15 : Fin 16).val = nodeId noded ∧ (0 : Fin 16).val ≠ nodeId noded ∧
    (noded.link.peers[0]).present = false ∧ (noded.link.peers[0]).told = false ∧
    (budget 0).code.toNat ≠ { noded.link with code := 5 }.code ∧
    ((noded.updPeer 0 fun p => { p with present := true }).link.peers[0]).present = true := by decide

theorem test_sourceReturns : qualifies (linked .backup id).link.st = true ∧
    linkVoltageOk (linked .backup fun l => { l with qual := false, vlink := 102300 }) = true ∧
    (linked .backup fun l => { l with qual := false }).link.qual = false ∧ qualifies (linked .source id).link.st = false := by
  decide

/-! Safety -/

theorem test_demand : (running .form).sys.phase = .running ∧ (running .form).sys.mode ≠ .dormant ∧
    (running .form).sys.mode ≠ .safe ∧ (running .form).safe.restarting = false ∧ 2 ≤ 2 := by decide

/-- A safety island with all inputs enabled, in the state of the argument. -/
def guarded (f : Safety → Safety) : State := { running .form with safe := f { State.reset.safe with
  act := { State.reset.safe.act with incfg := Vector.replicate 4 5, socfg := 0xFFFFFFFF }, raw := 0xFF, filt := 0xFF, soOn := 3, sofb := 0 } }

theorem test_demandSources : inputDemands (guarded id) 3 = false ∧
    inputDemands (guarded fun x => { x with raw := 0x7F, filt := 0x7F }) 3 = true ∧ inputEnabled (guarded id) 3 = true ∧
    (guarded fun x => { x with filt := 0x7F }).safe.filt.getLsbD (2 * 3)
      ≠ (guarded fun x => { x with filt := 0x7F }).safe.filt.getLsbD (2 * 3 + 1) ∧
    (guarded id).safe.disc.getLsbD 3 = false ∧ (guarded id).safe.soOn.getLsbD 1 = true ∧
    (guarded id).safe.restarting = false ∧ feedbackEnabled (guarded id) 1 = true ∧
    feedbackMatches (guarded fun x => { x with sofb := 3 }) 1 = false ∧ (guarded id).safe.refl = false ∧
    (guarded id).safe.rcf = false ∧ (guarded id).safe.gdis = false := by decide

/-- The device in SAFE of a category. -/
def inSafe (f : Safety → Safety) : State :=
  { guarded (fun x => f { x with filt := 0x7F, raw := 0x7F }) with sys := { (running .safe).sys with safeFrom := .form } }

theorem test_safetyEvents : (inSafe fun x => { x with timer := true }).safe.timer = true ∧
    (inSafe fun x => { x with cat := 2, standstill := true }).sys.mode = .safe ∧
    (inSafe fun x => { x with cat := 2, standstill := true }).safe.cat = 2 ∧
    (inSafe fun x => { x with cat := 2, standstill := true }).safe.standstill = true ∧
    ((chan fun ch => { ch with dsw := true }).ch[(3 : Fin 16)]).dsw = true ∧ safetyRuns (running .form) = true ∧
    demandActive (inSafe fun x => { x with cat := 1 }) = true ∧ (inSafe fun x => { x with cat := 1 }).safe.cat ≠ 0 ∧
    (inSafe fun x => { x with restarting := true }).safe.restarting = true ∧
    safetyRuns (inSafe fun x => { x with cat := 1 }) = true := by decide

/-- A session without a command and a slot locked for 60 s, at the time of the argument. -/
def waited (tb : Nat) : State := { running .configure with
  sys := { (running .configure).sys with tbase := tb }
  safe := { State.reset.safe with sessOpen := true, locked := 8, lockAt := State.reset.safe.lockAt.set 3 5 } }

theorem test_safetyTimers : (waited 1000000000000).safe.sessOpen = true ∧
    (waited 1000000000000).safe.lastCmd + bits (waited 1000000000000).safe.act.gcfg 8 8 * 60000000000
      ≤ (timePasses (waited 1000000000000)).sys.tbase ∧
    (waited 60000000005).safe.locked.getLsbD 3 = true ∧
    (waited 60000000005).safe.lockAt[(3 : Fin 4)] + 60000000000 ≤ (timePasses (waited 60000000005)).sys.tbase := by decide

theorem test_latchStore : ∃ s : State, s.sticky.safeLatch = true ∧ s.safe.act.gcfg.getLsbD 0 = true :=
  ⟨{ inSafe (fun x => { x with act := { x.act with gcfg := 1 } }) with sticky := { State.reset.sticky with safeLatch := true } },
    by decide, by decide⟩

/-- A session of a slot in CONFIGURE. -/
def session (slot : Fin 4) (dflt : Bool) (f : Safety → Safety) : State := { running .configure with safe := f { State.reset.safe with
  sessOpen := true, slot := slot, defaultSess := dflt
  sess := { State.reset.safe.act with incfg := Vector.replicate 4 1, cpv := Vector.replicate 16 0x012C00C8 } } }

theorem test_login : slotOf? 3 = some 3 ∧ slotOf? 0 = some 0 ∧ Served (.safeHello 0) (running .configure) ∧
    (running .configure).safe.locked.getLsbD 0 = false ∧ (running .configure).safe.sessOpen = false ∧
    (running .configure).safe.defaultSess = false ∧ (session 0 true id).safe.defaultSess = true ∧
    Served (.safeHello 0) (session 0 true id) ∧ Served (.safeLogin 0 (List.replicate 32 0)) (session 0 true id) ∧
    Served .safeLogout (session 0 true id) ∧
    (List.replicate 32 (0 : Byte)).length = 32 ∧ Served (.safeLogin 0 (List.replicate 32 0)) (running .configure) ∧
    (0 : Nat) ≤ 0 + 60000000000 ∧ proofMatches (running .configure) 0 7 (List.replicate 32 0) = true ∧
    proofMatches (running .configure) 0 7 (List.replicate 32 1) = false := by
  and_intros <;> first | decide | exact served_of (by decide)

theorem test_login_nonce : ∃ s : State, s.safe.nonce = some 7 ∧ s.sys.tbase ≤ s.safe.nonceAt + 60000000000 ∧
    s.safe.sessOpen = false ∧ proofMatches s 0 7 (List.replicate 32 0) = true ∧ s.safe.locked.getLsbD 0 = false :=
  ⟨{ running .configure with sys := { (running .configure).sys with tbase := 60000000000 }
                             safe := { State.reset.safe with nonce := some 7 } },
    by decide, by decide, by decide, by decide, by decide⟩

theorem test_sessionCommands : Served .safeLogout (session 0 false id) ∧ Served .safeCommit (session 0 false id) ∧
    (session 0 false id).safe.sessOpen = true ∧ (session 0 false id).safe.defaultSess = false ∧
    badUv (session 0 false id).safe.sess = none ∧ sessionDirty (session 0 false id) = true ∧ nvmBusy (session 0 false id) = false ∧
    (session 0 false id).safe.slot = 0 ∧ maySetPassword (session 0 false id) 3 false = true ∧
    maySetPassword (session 0 false id) 3 true = true ∧ (3 : Fin 4) ≠ 0 ∧
    Served (.safeKey (List.replicate 32 0)) (session 0 false id) := by
  and_intros <;> first | decide | exact served_of (by decide)

theorem sha256_length (l : List Byte) : (sha256 l).length = 32 := by simp [sha256]

theorem xorBytes_cancel : ∀ (p m : List Byte), p.length ≤ m.length → xorBytes (xorBytes p m) m = p
  | [], m, _ => by simp [xorBytes]
  | a :: p, [], h => by simp at h
  | a :: p, b :: m, h => by
    have ih := xorBytes_cancel p m (by simpa using h)
    simp only [xorBytes, List.zipWith_cons_cons] at ih ⊢
    rw [ih, BitVec.xor_assoc, BitVec.xor_self, BitVec.xor_zero]

/-- A masked password of 20 characters, and masked zeros, in the session of slot 0. -/
theorem test_passwords : ∃ x y : List Byte, x.length = 20 ∧ y.length = 20 ∧
    passwordOf 20 (xorBytes x ((sessionMask (session 0 false id) 0x50).take 20)) = some (List.replicate 20 0x41) ∧
    (xorBytes y ((sessionMask (session 0 false id) 0x50).take 20)).any (· != 0) = false := by
  have hl : ((sessionMask (session 0 false id) 0x50).take 20).length = 20 := by
    simp [sessionMask, sha256_length]
  refine ⟨xorBytes (List.replicate 20 0x41) ((sessionMask (session 0 false id) 0x50).take 20),
    xorBytes (List.replicate 20 0) ((sessionMask (session 0 false id) 0x50).take 20), ?_, ?_, ?_, ?_⟩
  · simp only [xorBytes, List.length_zipWith, hl, List.length_replicate]; decide
  · simp only [xorBytes, List.length_zipWith, hl, List.length_replicate]; decide
  · rw [xorBytes_cancel _ _ (Nat.le_of_eq (by rw [hl, List.length_replicate]))]; decide
  · rw [xorBytes_cancel _ _ (Nat.le_of_eq (by rw [hl, List.length_replicate]))]; decide

theorem test_passwordCommands : Served (.safePasswd 3 20 (List.replicate 20 0)) (session 0 false id) ∧
    Served (.safePasswd 3 0 (List.replicate 20 0)) (session 0 false id) ∧ (20 : Byte) ≠ 0 := by
  and_intros <;> first | decide | exact served_of (by decide)

/-- SAFE after every demand has ended. -/
def healthy : State := { running .safe with
  sys := { (running .safe).sys with safeFrom := .form }
  safe := { State.reset.safe with raw := 0xFF, filt := 0xFF } }

theorem test_acknowledge : Served (.safeAck 1 0) healthy ∧ ackUnmet healthy = 0 ∧ latchesStay healthy 0 = 0 ∧
    modePending healthy = false ∧ Served (.safeAck 0 0x8000) healthy ∧ latchesStay healthy 0x8000 = 0 ∧
    ackUnmet (running .form) ≠ 0 ∧ Served (.safeAck 1 0) (running .form) := by
  and_intros <;> first | decide | exact served_of (by decide)

/-! Resets, boot and supplies -/

theorem test_resets : BootCause.soft ≠ .powerOn ∧ BootCause.pin ≠ .powerOn ∧ BootCause.soft ≠ .pin := by decide

/-- A lane without errors, at the points 0 V, 2.5 V and 5.0 V of a VM, and 0 mV and 75 mV of an IM (R141). -/
def goodLane (u : Fin 36) : CalPoints :=
  if u.val < 32 && u.val % 2 == 1 then { y0 := 0, y1 := -750000000, y2 := 750000000, gB := 0, gC := 0 }
  else { y0 := 0, y1 := 416666667, y2 := 833333333, gB := 0, gC := 0 }

/-- Everything that BOOT finds is in order. -/
def goodBoot : BootInput :=
  { ms := 300, badRows := [], badSpares := [], ceFail := 0, cal := Vector.ofFn goodLane, refAb := 0, refX := 0, legFail := 0
    gdisFail := 0, inputs := 0xFF, cfgCrcOk := true, safeCrcOk := true, srcok := true, bkok := false, dacDev := 0 }

/-- BOOT at a step, with the aux converter running or not. -/
def booting (step aux : Nat) (low : Bool) : State := { State.reset with
  sys := { State.reset.sys with phase := .booting, bootStep := step, rstLow := low }
  aux := { State.reset.aux with state := aux } }

theorem test_bootEvents : (booting 2 0 false).sys.due = .none ∧ (booting 2 0 false).sys.rstLow = false ∧
    (booting 2 0 true).sys.rstLow = true ∧ (booting 4 0 false).sys.phase = .booting ∧ (booting 4 0 false).sys.bootStep = 4 ∧
    auxRuns (booting 4 0 false) = false ∧ bothLatched (booting 4 0 false) = false ∧ bootRuns (booting 4 1 false) = true ∧ resetHeeded (running .form) = true ∧
    (running .form).sys.phase ≠ .resetHeld ∧ ¬ ((running .form).sys.phase = .booting ∧ (running .form).sys.bootStep = 2) := by
  decide

theorem test_bootFinds :
    (bootFindings 0 goodBoot (advanceTime (goodBoot.ms * 1000000) (booting 4 1 false))).2.1 = 0 ∧
    (bootFindings 0 goodBoot (advanceTime (goodBoot.ms * 1000000) (booting 4 1 false))).1.staged = [] := by decide +kernel

theorem test_bootRepairs : (repairSram (firstEvals (loadSafety (bootInputs goodBoot (advanceTime (goodBoot.ms * 1000000)
    (booting 4 1 false))) goodBoot.safeCrcOk)) goodBoot.badRows goodBoot.badSpares).2 = true := by decide +kernel

/-- A phase of the device, with the LWAKE enable. -/
def inPhase (p : Phase) : State := { State.reset with sys := { State.reset.sys with phase := p, lwake := true, rstLow := true } }

theorem test_phases : (inPhase .resetHeld).sys.due = .none ∧ (inPhase .resetHeld).sys.phase = .resetHeld ∧
    (inPhase .resetHeld).sys.rstLow = true ∧ (inPhase .park).sys.phase = .park ∧ (inPhase .park).sys.lwake = true := by decide

/-- A running device with its aux converter in a state. -/
def supplied (f : Aux → Aux) (off : BitVec 2) : State := { running .form with
  aux := f { State.reset.aux with state := 2 }, sticky := { State.reset.sticky with phaseOff := off } }

theorem test_supplies : auxRuns (supplied id 0) = true ∧ phaseLatched (supplied id 0) 1 = false ∧
    bothLatched { supplied id 0 with sticky := { State.reset.sticky with phaseOff := putBit 0 1 true } } = false ∧
    phaseLatched (supplied id 1) 1 = false ∧
    bothLatched { supplied id 0 with sticky := { State.reset.sticky with phaseOff := putBit 1 1 true } } = true ∧
    (supplied id 0).aux.state = 2 ∧ (supplied (fun a => { a with state := 1 }) 0).aux.state = 1 ∧
    (supplied id 0).sticky.phaseOff = 0 ∧ (supplied id 0).aux.imb = false ∧ (supplied id 0).aux.brake = false ∧
    (supplied (fun a => { a with imb := true }) 0).aux.imb = true ∧ supplyWatched (supplied id 0) = true := by decide

/-! Self-test -/

theorem test_testCommands : Served (.testRunMemoryBist 0) (running .service) ∧ Served (.testRunLogicBist 0) (running .service) ∧
    inService (running .service) = true ∧ Served (.testRunSpareBist 0) (running .form) ∧
    (running .form).isl.running.getLsbD 1 = false ∧ (startBist (running .form)).isl.running.getLsbD 1 = true ∧
    Served (.testRunLoopback 0) (running .form) ∧ Served (.testRunScrub 0) (running .form) ∧ (3 : Byte).toNat < 4 ∧
    (running .service).isl.testTag = none ∧ Served (.testRunLegTest 3) (running .service) ∧
    Served (.scanRequest 0x5A5AA5A5) { session 0 false id with sys := (running .service).sys } ∧
    Served .fuseRepair (running .service) ∧ nvmBusy (running .service) = false ∧ (storing .fuse).isl.nvmOp = .fuse ∧
    (running .form).sys.phase ≠ .unpowered ∧
    Served (.testRunSpareBist 0) { running .form with isl := { State.reset.isl with running := 2 } } ∧
    ({ running .form with isl := { State.reset.isl with running := 2 } } : State).isl.running.getLsbD 1 = true := by
  and_intros <;> first | decide | exact served_of (by decide)

theorem test_testEnds : ∃ s t : State, s.isl.testTag = some 1 ∧ t.isl.serviceTest = some 0 :=
  ⟨{ running .service with isl := { State.reset.isl with testTag := some 1 } },
    { running .service with isl := { State.reset.isl with serviceTest := some 0 } }, by decide, by decide⟩

/-! Host port -/

/-- A packet with its CRC. -/
def packet (b : List Byte) : List Byte := b ++ wordBytes (crc32c b)

/-- An ECHO request without data, as R292 lays it out: SOF, LEN, TAG, OPC, FLAGS and two reserved bytes. -/
def echo : List Byte := [0xB7, 0, 0, 7, 0x07, 0, 0, 0]

/-- CRC-32C of the digits 1 to 9: the check value of that CRC. -/
theorem test_crc32c : crc32c [0x31, 0x32, 0x33, 0x34, 0x35, 0x36, 0x37, 0x38, 0x39] = 0xE3069283 := by decide +kernel

theorem test_frames_short : portServes (running .idle) = true ∧ ([0x00] : List Byte) ≠ [] ∧
    byteAt [0x00] 0 ≠ 0xB7 ∧ byteAt [0x00] 0 ≠ 0x3C ∧ byteAt [0x00] 0 ≠ 0x3D ∧ byteAt echo 0 = 0xB7 ∧
    lengthOk (running .idle) echo false = false ∧ lengthOk (running .idle) (echo ++ [0, 0, 0, 0]) true = false ∧
    lengthOk (running .idle) (echo ++ [0, 0, 0, 0]) false = true := by decide

theorem test_frames_crc : crc32c (frameBody (echo ++ [0, 0, 0, 0])) ≠ frameCrc (echo ++ [0, 0, 0, 0]) ∧
    crc32c (frameBody (packet echo)) = frameCrc (packet echo) ∧ lengthOk (running .idle) (packet echo) false = true ∧
    reservedOk (packet echo) = true ∧ reservedOk (packet [0xB7, 0, 0, 7, 0x07, 2, 0, 0]) = false ∧
    repeatOf (running .idle) (packet echo) = none ∧ opcodeDefined (byteAt (packet echo) 4) = true ∧
    authOk (running .idle) (packet echo) = true ∧ (running .idle).port.outstanding.length < 8 ∧
    opcodeDefined (byteAt (packet [0xB7, 0, 0, 7, 0xFF, 0, 0, 0]) 4) = false ∧ lowRate dormant = true ∧
    (servedModes 0x10).contains .m = true ∧ (servedModes 0x07).contains .m = false ∧
    authOk (running .idle) (packet [0xB7, 0, 0, 7, 0x07, 1, 0, 0]) = false := by decide +kernel

theorem test_frames_repeat : ∃ s x, repeatOf s (echo ++ [1, 0, 0, 0]) = some x ∧ 8 ≤ s.port.outstanding.length :=
  ⟨{ running .idle with port := { State.reset.port with
      replay := [{ tag := 7, id := 263, crc := 1, reply := none }], outstanding := List.replicate 8 0 } }, _, rfl, by decide⟩

theorem test_frames_places : ∃ s t : State, placesTaken s < replyPlaces ∧ replyPlaces ≤ placesTaken t ∧
    t.port.outstanding.length < 8 ∧ portServes t = true :=
  ⟨running .idle, { running .idle with port := fullPort }, by decide, by decide, by decide, by decide⟩

theorem test_replyReads : ∃ s : State, portServes s = true ∧
    s.port.replies = (Reply.mk true 1 0 0 0 []) :: [] ∧ s.sys.due = .none ∧ (running .idle).port.replies = [] ∧
    portServes (running .idle) = true ∧ (replyPacket (Reply.mk true 1 0 0 0 []) 0).length ≤ 12 ∧
    11 < (replyPacket (Reply.mk true 1 0 0 0 []) 0).length :=
  ⟨{ running .idle with port := { State.reset.port with replies := [Reply.mk true 1 0 0 0 []] } },
    by decide, rfl, by decide, by decide, by decide, by decide, by decide⟩

theorem test_replyGone : (running .idle).sys.due = .none ∧
    (makeDue (running .idle) .soft).sys.due ≠ .none ∧ (makeDue (running .idle) .soft).sys.dueLeft ≤ 1 ∧
    1 < (makeDue { running .idle with port := fullPort } .soft).sys.dueLeft ∧ portServes (booting 8 1 false) = false := by decide

theorem test_attention_busy : asked.port.waiting ≠ [] ∧ (running .idle).port.waiting = [] ∧
    ({ asked.port with blinkDue := true } : HostPort).blinkDue = true := by decide

theorem test_attention : ∃ s : State, portServes s = true ∧ s.sys.phase ≠ .dormant ∧ s.port.hcfg.getLsbD 1 = true ∧
    0 < unreadCount s :=
  ⟨{ running .idle with port := { State.reset.port with hcfg := 2 }
                        evq := { State.reset.evq with queue := [Ev.mk 0 0x0201 0 [] 0 false] } },
    by decide, by decide, by decide, by decide⟩

/-! Epoch boundaries -/

theorem test_boundaries : epochsRun (running .form) = true ∧ (running .form).sys.due = .none ∧
    (running .form).evq.lostSince = 0 ∧ (running .form).evq.queue.length + (running .form).evq.bootPend.length
      + (running .form).evq.pend.length ≤ evqRoom := by decide

theorem test_boundaries_due : ∃ s t : State, epochsRun s = true ∧ s.sys.due ≠ .none ∧
    s.sys.dueNs + epochNs s < 1000000 ∧ t.sys.due ≠ .none ∧ 1000000 ≤ t.sys.dueNs + epochNs t ∧ epochsRun t = true :=
  ⟨{ running .idle with sys := { (running .idle).sys with due := .soft } },
    { running .idle with sys := { (running .idle).sys with due := .soft, dueNs := 999999 } },
    by decide, by decide, by decide, by decide, by decide, by decide⟩

theorem test_boundaries_recovering : (islandLost 11).sys.recovering = true ∧ (running .form).sys.recovering = false := by decide

theorem test_events_full : ∃ s : State, s.evq.queue.length = evqRoom :=
  ⟨{ running .form with evq := { State.reset.evq with queue := List.replicate evqRoom (Ev.mk 0 0x0201 0 [] 0 false) } },
    List.length_replicate⟩

/-! Rack bus, DMA and memory -/

/-- A rack-bus controller that has joined, as a function of the reset controller. -/
def bus (f : Can → Can) : State := { running .idle with can := f { State.reset.can with ctl := 1, joined := true } }

theorem test_canWrites : Served (.canEnableWrite 1) (running .idle) ∧ bits (1 : Word) 1 2 ≠ 3 ∧
    (1 : Word).getLsbD 0 = canOn (bus id) ∧ canOn (running .idle) = false ∧ (0 : Word).getLsbD 0 = false ∧ canOn (bus id) = true ∧
    (running .idle).sys.running = true ∧
    Served (.canEnableWrite 0) (bus id) ∧ Served (.canTxaddWrite 0x8001) (bus id) ∧ ((0x8001 : Word).truncate 16 : Mask) ≠ 0 ∧
    (∀ b : Fin 16, (0x8001 : Word).getLsbD b.val = true → heldBuffer (bus id) b = false) ∧
    Served (.canTxcancelWrite 0x8001) (bus id) := by
  and_intros <;> first | decide | exact served_of (by decide)

/-- A buffer that is pending. -/
def sending (cancel : Bool) (next : List (List Byte)) : State := bus fun x =>
  { x with tx := x.tx.set 15 { pend := true, cancel := cancel, elem := List.replicate 80 0, next := next } }

/-- The buffer whose frame is known to be on the bus. -/
def onBus (s : State) : State := { s with can := { s.can with inTx := some 15 } }

theorem test_canBuffers : ((sending false []).can.tx[(15 : Fin 16)]).pend = true ∧ (sending false []).can.inTx ≠ some 15 ∧
    (onBus (sending true [])).can.inTx = some 15 ∧ ((sending true []).can.tx[(15 : Fin 16)]).cancel = true ∧
    ((sending true []).can.tx[(15 : Fin 16)]).next = [] ∧ ((sending false []).can.tx[(15 : Fin 16)]).cancel = false ∧
    elemOneShot ((sending false []).can.tx[(15 : Fin 16)]).elem = false ∧ canSends (sending false []) = true ∧
    topBuffer (sending false []) = some 15 ∧ mayComplete (sending false []) 15 = true ∧ topBuffer (bus id) = none ∧
    mayComplete (sending false []) 0 = false ∧ mayComplete (onBus (sending true [])) 15 = true ∧ canMode (sending false []) ≠ 2 := by
  decide

theorem test_loopBack : ∃ s : State, canSends s = true ∧ canMode s = 2 ∧ mayComplete s 15 = true ∧ (15 : Fin 16) ≠ 13 ∧
    measuresDelay s (s.can.tx[(15 : Fin 16)]).elem = false ∧ (s.can.tx[(15 : Fin 16)]).next = [] :=
  ⟨{ sending false [] with can := { (sending false []).can with ctl := 5 } }, by decide, by decide, by decide, by decide,
    by decide, by decide⟩

/-- A full second receive FIFO, which channel 7 of the DMA serves or not. -/
def received (paced : Bool) : State := { bus fun x => { x with rxf := x.rxf.set 1 { (x.rxf[(1 : Fin 2)]) with fill := 32 } } with
  dma := if paced then State.reset.dma.set 7 { State.reset.dma[7] with
    ctl := 1, active := true, areq := 0x112, desc := some (List.replicate 8 0 ++ [80, 0, 0, 0, 4] ++ List.replicate 19 0) }
  else State.reset.dma }

theorem test_canReceive : Served (.canRxackWrite 1 32) (received false) ∧ 1 ≤ bits (32 : Word) 0 6 ∧
    ((received false).can.rxf[(1 : Fin 2)]).late + bits (32 : Word) 0 6 ≤ ((received false).can.rxf[(1 : Fin 2)]).fill ∧
    readsFifo (received false) 1 = false ∧ Served (.canRxackWrite 1 32) (received true) ∧
    ((received true).can.rxf[(1 : Fin 2)]).late + bits (32 : Word) 0 6 ≤ ((received true).can.rxf[(1 : Fin 2)]).fill ∧
    readsFifo (received true) 1 = true := by
  and_intros <;> first | decide | exact served_of (by decide)

theorem test_canStates : canOn (bus id) = true ∧ (bus id).can.est ≠ 2 ∧ (bus fun x => { x with est := 2 }).can.est = 2 ∧
    canActive (bus id) = true ∧ canOn (bus fun x => { x with est := 2 }) = true ∧
    128 * 11 * nominalBit (bus fun x => { x with est := 2 }) < (1000 + 1) * 80000 := by decide

/-- A data frame. -/
def frame (id : BitVec 29) (data : List Byte) : CanFrame :=
  { id := id, xtd := false, fdf := true, brs := false, esi := false, rtr := false, dlc := 0, data := data, sof := 0 }

/-- A controller with one filter, the last, for standard identifier 0x123 into FIFO 1. -/
def filtered (fill : Nat) : State := bus fun x => { x with
  fltid := x.fltid.set 63 0x80000123, fltmsk := x.fltmsk.set 63 0x400007FF
  rxf := x.rxf.set 1 { (x.rxf[(1 : Fin 2)]) with fill := fill } }

theorem test_canFilters : filterMatches (filtered 31) (frame 0x123 []) 63 = true ∧
    (∀ j : Fin 64, j < 63 → filterMatches (filtered 31) (frame 0x123 []) j = false) ∧
    bits ((filtered 31).can.fltmsk[(63 : Fin 64)]) 30 2 = (1 : Fin 2).val ∧ ((filtered 31).can.rxf[(1 : Fin 2)]).fill < 32 ∧
    32 ≤ ((filtered 32).can.rxf[(1 : Fin 2)]).fill ∧ canActive (filtered 31) = true ∧ canMode (filtered 31) ≠ 2 ∧ (frame 0x123 []).rtr = false ∧
    { frame 0x123 [] with rtr := true }.rtr = true := by decide

/-- The network time service, as a function of the controller. -/
def timed (f : Can → Can) : State := bus fun x => f { x with tcfg := 0x640002 }

/-- That service when TBASE has reached the argument. -/
def timedAt (tb : Nat) (f : Can → Can) : State := { timed f with sys := { (running .idle).sys with tbase := tb } }

theorem test_canTime : timeService (timed fun x => { x with role := true, newMaster := true }) = true ∧
    canActive (timed id) = true ∧ messageKind (timed id) (frame 0x012 (1 :: List.replicate 11 0)) = some 0 ∧
    byteAt (1 :: List.replicate 11 0) 0 = 1 ∧ (timed id).can.role = false ∧ (timed id).can.master = none ∧
    (timed fun x => { x with master := some 0x012, latchL := some (255, 5) }).can.master
      = some ((frame 0x012 []).id.toNat % 2 ^ 11) ∧
    (255 + 1) % 256 = (byteAt (1 :: List.replicate 11 (0 : Byte)) 1).toNat ∧
    leNat (slice (1 :: List.replicate 11 (0 : Byte)) 4 8) ≠ 2 ^ 64 - 1 ∧
    (timed fun x => { x with demoted := true }).can.demoted = true ∧
    statusService (bus fun x => { x with msgcfg := 0x20000000 }) = true := by decide

theorem test_canTimers : timeService (timedAt 1000000000 fun x => { x with role := true, newMaster := true }) = true ∧
    (timedAt 1000000000 id).can.sendAt < periodsPassed (timedAt 1000000000 id) ∧
    (timedAt 1000000000 fun x => { x with role := true, newMaster := false, prevM := some (255, 9), seqOut := 0 }).can.prevM
      = some (((255 : Nat), (9 : Nat)).1, ((255 : Nat), (9 : Nat)).2) ∧
    (timedAt 4000000000 fun x => { x with master := some 0x012 }).can.master = some 0x012 ∧
    (timedAt 4000000000 id).can.lostTold = false ∧ (timedAt 4000000000 id).can.role = false ∧
    timeService (timedAt 4000000000 id) = true ∧
    (timedAt 4000000000 id).can.refAt + 4 * timePeriod (timedAt 4000000000 id) ≤ (timedAt 4000000000 id).sys.tbase ∧
    (timedAt 19000000000 fun x => { x with demoted := true }).can.demoted = true ∧
    (timedAt 19000000000 id).can.refAt + (4 + nodeId (timedAt 19000000000 id)) * timePeriod (timedAt 19000000000 id)
      ≤ (timedAt 19000000000 id).sys.tbase ∧
    (timedAt 100000000 id).can.statusAt + 100000000 ≤ (timedAt 100000000 id).sys.tbase := by decide

/-- A DMA channel with a shadow set or an active list. -/
def dmaWith (f : Dma → Dma) : State := { running .idle with dma := State.reset.dma.set 7 (f State.reset.dma[7]) }

theorem test_dma : Served (.dmaShvWrite 7 1) (running .idle) ∧
    ((dmaWith fun d => { d with shv := true, ctl := 1 }).dma[(7 : Fin 8)]).shv = true ∧
    ((dmaWith fun d => { d with shv := true, ctl := 1 }).dma[(7 : Fin 8)]).ctl.getLsbD 0 = true ∧
    ((dmaWith fun d => { d with shv := true, ctl := 1 }).dma[(7 : Fin 8)]).active = false ∧
    Served (.dmaAbort 7) (running .idle) ∧ Served (.dmaDisable 7) (running .idle) ∧ dmaRuns (running .idle) = true ∧
    nextChannel (running .idle) = none ∧
    nextChannel (dmaWith fun d => { d with ctl := 1, active := true, adesc := 0x103F0000 }) = some 7 ∧
    descAddrOk (0x103FEFE0 : Word).toNat = true ∧ descAddrOk (0x103FF000 : Word).toNat = false ∧
    ((dmaWith fun d => { d with adesc := 0x103FF000 }).dma[(7 : Fin 8)]).desc = none ∧ dsLen (memReadList (running .idle).mem 0x103FEFE0 32) = 0 := by
  and_intros <;> first | decide | exact served_of (by decide)

theorem test_dmaDone : ∃ s t : State, ∃ x y : List Byte, dmaRuns s = true ∧ (s.dma[(7 : Fin 8)]).desc = some x ∧
    (s.dma[(7 : Fin 8)]).active = true ∧ (s.dma[(7 : Fin 8)]).result ≠ 0 ∧ dsCtl x 0 = true ∧
    (t.dma[(7 : Fin 8)]).desc = some y ∧ dsCtl y 0 = false :=
  ⟨dmaWith fun d => { d with ctl := 1, active := true, desc := some (List.replicate 12 0 ++ [1] ++ List.replicate 19 0), result := 1 },
    dmaWith fun d => { d with ctl := 1, active := true, desc := some (List.replicate 32 0), result := 1 },
    _, _, by decide, rfl, by decide, by decide, by decide, rfl, by decide⟩

theorem test_memory : sramRead (running .idle) = true ∧ inSram 0x10000000 = true ∧ inSram 0x103FFFF8 = true ∧
    inSram 0x10400000 = false ∧ regionOf 0x103F0000 = .window ∧ regionOf 0x103FFFF8 = .window ∧
    regionOf 0x1002FFE0 = .ring 0 0x2FFE0 ∧ Memory.wf State.reset.mem = true ∧ refreshRuns (running .idle) = true ∧
    (running .idle).isl.refreshing = false ∧ nvmBusy (running .idle) = false ∧ 4 ≤ freePages (running .idle) := by decide

theorem test_memory_rows : ∃ s : State, s.isl.copying.find? (fun r => r.1 == (2047 : Fin 2048).val) = some (2047, 0) ∧
    sramRead s = true ∧ s.isl.refreshing = true ∧ s.isl.pagen + 1 < refreshTotal ∧ refreshTotal ≤ 83 + 1 :=
  ⟨{ running .idle with isl := { State.reset.isl with copying := [(2047, 0)], refreshing := true, pagen := 82 } },
    by decide, by decide, by decide, by decide, by decide⟩

theorem test_memory_ring : ∃ s : State, ∃ r, recordAt (s.ch[(0 : Fin 16)]) (0x2FFE0 / 32) = some r :=
  ⟨(running .idle).updCh 0 fun ch => { ch with ring := [{ seq := 6143, bytes := List.replicate 32 0 }] }, _, rfl⟩

/-! Further clauses -/

theorem test_openings_start : ∃ s t : State, (s.ch[(3 : Fin 16)]).dsw = true ∧ (s.ch[(3 : Fin 16)]).gates = true ∧
    (t.ch[(3 : Fin 16)]).dsw = true ∧ (t.ch[(3 : Fin 16)]).gates = false :=
  ⟨chan fun ch => { ch with dsw := true, gates := true }, chan fun ch => { ch with dsw := true }, by decide, by decide,
    by decide, by decide⟩

/-- A die sensor of a gate-driver zone that has been at 140 degrees once. -/
def hotDie : State := checkedDies.updDie 5 fun d => { d with hot := 1, broken := false }

theorem test_dieEvaluation_stop : thermRuns hotDie = true ∧ (hotDie.therm.die[5]).hot = 1 ∧ hotDie.therm.checked = true ∧
    usedReading (lonelyDie (judgeDie { hotDie with therm := { hotDie.therm with cfgF := hotDie.therm.cfg } } 5 (conv 14000)) 5) 5 14000
      = 14000 := by decide +kernel

theorem test_inputs_temperature : (thermistor (inputCfg (running .form) 15).1 (inputCfg (running .form) 15).2 32768).isSome = true ∧
    thermistor (inputCfg (running .form) 15).1 (inputCfg (running .form) 15).2 0 = none ∧
    voltageInput (running .form) 23 = false ∧
    (thermistor (inputCfg (running .form) 23).1 (inputCfg (running .form) 23).2 32768).isSome = true := by decide +kernel

theorem test_peers : ∃ s t : State, linkRuns s = true ∧ budgetService s = true ∧ (budget 0).lnk.toNat = nodeLnk s ∧
    (0 : Fin 16).val ≠ nodeId s ∧ (s.link.peers[(0 : Fin 16)]).present = true ∧ (budget 0).code.toNat = s.link.code ∧
    linkRuns t = true ∧ budgetService t = true ∧ (budget 0).lnk.toNat = nodeLnk t ∧ (0 : Fin 16).val ≠ nodeId t ∧
    (t.link.peers[(0 : Fin 16)]).present = false ∧ (t.link.peers[(0 : Fin 16)]).told = false ∧
    (budget 0).code.toNat ≠ t.link.code :=
  ⟨({ noded with link := { noded.link with code := 0 } }).updPeer 0 fun p => { p with present := true },
    { noded with link := { noded.link with code := 5 } },
    by decide, by decide, by decide, by decide, by decide, by decide, by decide, by decide, by decide, by decide, by decide,
    by decide, by decide⟩

theorem test_qualification : ∃ s : State, linkRuns s = true ∧ qualifies s.link.st = true ∧ s.link.qual = true :=
  ⟨linked .backup fun l => { l with qual := true }, by decide, by decide, by decide⟩


/-! Engines and rows of one register -/

/-- Words of the measurement island in which nothing flows. -/
def quiet : EpochWords :=
  { ch := Vector.replicate 16 { vs16 := 0, vsh := 0, cov := 0, vsOld := 0, vshOld := 0, covOld := 0, vf := 0, prec := [] }
    leg := Vector.replicate 32 0, vlink := 100000, link := Vector.replicate 4 0, ckptOk := 0x1F, release := Vector.replicate 5 0 }

/-- A device whose input logs of the last epoch are damaged. -/
def lostLogs : State :=
  { running .form with sys := { (running .form).sys with inlog := [{ epoch := 1, words := quiet, damaged := 0x3FFF }] } }

/-- An unplanned castling of group 3, with its input logs intact or damaged. -/
def fleeing (s : State) : State := s.updGrp 3 fun g =>
  { g with castle := some { fromCe := some 3, toCe := 4, planned := false, began := false, ready := false, skipped := 0, waited := false } }

theorem test_recoveries : recoveringGroups (running .form) = [] ∧ logDamaged (running .form) 7 = false ∧
    recoveringGroups (fleeing (running .form)) = [3] ∧ logDamaged lostLogs 7 = true ∧
    ((fleeing lostLogs).grp[(3 : Fin 4)]).castle
      = some { fromCe := some 3, toCe := 4, planned := false, began := false, ready := false, skipped := 0, waited := false } ∧
    logDamaged (fleeing (running .form)) (3 : Fin 5).val = false ∧ logDamaged (fleeing lostLogs) (3 : Fin 5).val = true := by
  decide

theorem test_nothingRecovers : ∃ s : State, epochsRun s = true ∧ s.sys.recovering = true ∧
    ∀ g : Fin 4, (s.grp[g]).castle = none ∧ (s.grp[g]).owner ≠ none :=
  ⟨islandLost 11, by decide, by decide, by decide⟩

theorem test_reference_alone : (((running .form).updCh 15 fun ch => { ch with opening := .orderly }).ch[chanOfLeg 31]).rampsAlone
      = true ∧ ((running .form).ch[chanOfLeg 31]).rampsAlone = false := by decide

/-- A device in CONFIGURE that has staged five channels of group 3 for one gang. -/
def ganging : State := { running .configure with staged :=
  [{ change := .gang 3 4, opc := 0x11, tag := none, islands := 0x88, waiting := 0x88, refused := 0, failed := [] }] }

theorem test_gangAhead : (4 : BitVec 3) ≠ gangAhead (running .configure) 3 ∧ groupOff (running .configure) 3 = true ∧
    (fieldWriteOf (.gangWrite 3 4)).isSome = true ∧ Served (.gangWrite 3 4) (running .configure) ∧
    (4 : BitVec 3) = gangAhead ganging 3 ∧ groupOff ganging 3 = true ∧ Served (.gangWrite 3 4) ganging ∧
    (12 : Fin 16).val = 4 * (3 : Fin 4).val := by
  and_intros <;> first | decide | exact served_of (by decide)

/-- The book of an intact recipe, in FORM. -/
def bookedForm : State := { booked with sys := (running .form).sys }

theorem test_bindings : (booked.sys.mode ≠ .form ∨ (booked.ch[15]).bound = (0x7F011F : Word).getLsbD 8) ∧
    bookedForm.sys.mode = .form ∧ (bookedForm.ch[15]).bound ≠ (0x7F011F : Word).getLsbD 8 ∧ isFollower bookedForm 15 = false ∧
    (bookedForm.ch[15]).st = .off ∧ bindingOk bookedForm 0x7F011F = true ∧ Served (.progBindWrite 15 0x7F011F) bookedForm ∧
    (bookedForm.ch[15]).bound = (0 : Word).getLsbD 8 ∧ bindingOk bookedForm 0 = true ∧
    Served (.progBindWrite 15 0) bookedForm := by
  and_intros <;> first | decide | exact served_of (by decide)

theorem test_rowsOfOneRegister : (fieldWriteOf (.freezeWrite 15 0xF)).isSome = true ∧
    (fieldWriteOf (.castlePeriodWrite 60)).isSome = true ∧ (fieldWriteOf (.quadWrite true)).isSome = true ∧
    (fieldWriteOf (.dmaAbort 7)).isSome = true ∧ (fieldWriteOf (.dmaDisable 7)).isSome = true ∧
    written (.dmaAbort 7) { addr := 0xA01C0, mask := 0x2, value := 0x2 } (running .idle) = 2 := by decide

theorem test_softReset : storeBusy (running .idle) = false ∧ (pageRuns (taken (.softReset 0xA5A55A5A) (running .idle))).1 = false ∧
    (pageRuns (taken (.softReset 0xA5A55A5A)
      { running .idle with isl := { State.reset.isl with refreshing := true, pageOp := true } })).1 = true := by decide

/-! Safety, boot and test access -/

/-- A mode change that every island has acknowledged. -/
def applying (m : Mode) : State := { running .form with staged :=
  [{ change := .mode m false false false 0, opc := 0x02, tag := some 9, islands := 0x3FFF, waiting := 0, refused := 0, failed := [] }] }

theorem test_demand_committed : dormantCommitted (applying .dormant) = true ∧ committedMode (running .form) = none ∧
    dormantCommitted (applying .idle) = false ∧ dormantCommitted (running .form) = false ∧
    (applyCommitted (running .form)).sys.mode ≠ .safe ∧ (applyCommitted (running .form)).safe.restarting = false ∧
    (applyCommitted (applying .idle)).sys.mode = .idle ∧ (applyCommitted (applying .idle)).safe.restarting = false := by
  decide +kernel

theorem test_pins : (booting 2 0 true).sys.phase ≠ .resetHeld ∧ (booting 2 0 true).sys.rstLow = true ∧
    (inPhase .resetHeld).sys.phase = .resetHeld ∧ (booting 2 0 true).sys.phase = .booting ∧ (booting 2 0 true).sys.bootStep = 2 ∧
    resetHeeded { State.reset with sys := { State.reset.sys with phase := .stopped } } = false ∧
    dormant.sys.phase = .dormant ∧ (applying .dormant).sys.phase = .running ∧ dormantCommitted (applying .dormant) = true ∧
    (running .form).sys.phase ≠ .dormant ∧ (running .form).sys.phase ≠ .park ∧
    ¬ ((running .form).sys.phase = .running ∧ dormantCommitted (running .form) = true) ∧ (running .form).sys.due = .none := by
  decide

theorem test_protection : ∃ s : State, ∀ k ∈ [CpKind.ov, .uv, .oc, .ot], cpActive s 3 k = true :=
  ⟨{ (chan fun ch => { ch with dsw := true }) with safe := { State.reset.safe with
      act := { State.reset.safe.act with cpv := Vector.replicate 16 0x11940001, cpi := Vector.replicate 16 0x800 } } },
    by decide⟩

theorem test_divergence : demandActive (inSafe fun x => { x with cat := 2 }) = true ∧
    (inSafe fun x => { x with cat := 2 }).safe.cat ≠ 0 ∧ (inSafe fun x => { x with cat := 2 }).sys.mode = .safe ∧
    (running .form).sys.mode ≠ .safe := by decide

theorem test_bootstrap_periods : (1 : Nat) ≤ 1 ∧ ¬ 2 ≤ 1 ∧
    3 ≤ ((legOf fun l => { l with buvRun := 2 }).leg[(3 : Fin 32)]).buvRun + 1 ∧
    switching (legOf id).ch[chanOfLeg 3] = true ∧ ((legOf id).leg[(3 : Fin 32)]).buvRun + 1 < 3 := by decide

theorem test_linkWake : ∃ s : State, s.sys.due = .none ∧ s.sys.phase = .park ∧ s.sys.lwake = true ∧ s.sys.srcRise = true ∧
    s.sys.wakeVlost ≤ 95000 ∧ s.sys.wakeTret ≤ 1000 :=
  ⟨{ inPhase .park with sys := { (inPhase .park).sys with srcRise := true, wakeVlost := 95000, wakeTret := 1000 } },
    by decide, by decide, by decide, by decide, by decide, by decide⟩

theorem test_srcok_off : linkRuns (inPhase .park) = false ∧ qualifies (linked .source id).link.st = false := by decide

theorem test_stopEnds_cold : ∃ s : State, (s.therm.die[(19 : Fin 20)]).stop = true ∧
    (s.therm.die[(19 : Fin 20)]).coolAt = some 5 ∧ 5 + 10000000000 ≤ s.sys.tbase ∧ (s.therm.die[(19 : Fin 20)]).broken = false :=
  ⟨{ (running .form).updDie 19 (fun d => { d with stop := true, coolAt := some 5, broken := false }) with
      sys := { (running .form).sys with tbase := 10000000005 } }, by decide, by decide, by decide, by decide⟩

theorem test_testAccess : ∃ (s : State) (r : Reply), portServes s = true ∧ s.port.replies = [r] ∧ s.sys.due = .scan ∧ s.sys.dueLeft ≤ 1 ∧
    (replyPacket r 0).length ≤ 12 :=
  ⟨{ running .service with port := { State.reset.port with replies := [Reply.mk true 1 0 0 0x92 []] }
                           sys := { (running .service).sys with due := .scan } }, _, by decide, rfl, by decide, by decide, by decide⟩

theorem test_tap : ({ held := true, ir := 0 } : Tap).held = true ∧ State.reset.tap.held = true ∧
    ({ held := false, ir := 0x02 } : Tap).selected = some (.identity 0xB1632A5F) ∧
    ({ held := false, ir := 0xFF } : Tap).selected = some (.bypass 1) := by decide

/-! DMA and the refresh -/

theorem test_dmaStops : ((dmaWith fun d => { d with ctl := 1, active := true }).dma[(7 : Fin 8)]).active = true ∧
    ((dmaWith fun d => { d with ctl := 1, active := true }).dma[(7 : Fin 8)]).shv = false := by decide

/-- A descriptor at the start of the host window, given by its length, byte 12 and last byte. -/
def descriptor (len ctl last : Byte) (areq : Word) : State := { dmaWith (fun d => { d with adesc := 0x103F0000, areq := areq }) with
  mem := memWriteList [] 0x103F0000 (List.replicate 8 0 ++ [len, 0, 0, 0] ++ [ctl, 0, 0, 0] ++ List.replicate 15 0 ++ [last]) }

theorem test_dmaBad :
    (let x := memReadList (descriptor 0 0 0 0).mem 0x103F0000 32
     dsLen x = 0 ∧ ((descriptor 0 0 0 0).dma[(7 : Fin 8)]).desc = none ∧
       descAddrOk ((descriptor 0 0 0 0).dma[(7 : Fin 8)]).adesc.toNat = true) ∧
    (slice (memReadList (descriptor 32 0 1 0).mem 0x103F0000 32) 28 4).any (· != 0) = true ∧
    8 ≤ leNat (slice (memReadList (descriptor 32 8 0 0).mem 0x103F0000 32) 12 4) ∧
    (let x := memReadList (descriptor 32 4 0 0).mem 0x103F0000 32
     dsCtl x 2 = true ∧ reqSrc (descriptor 32 4 0 0).dma[(7 : Fin 8)] = 0) ∧
    (let x := memReadList (descriptor 33 4 0 1).mem 0x103F0000 32
     dsCtl x 2 = true ∧ dsLen x % 32 ≠ 0) := by decide

theorem test_dmaLate : ∃ s t : State, 0 < (s.can.rxf[(1 : Fin 2)]).late ∧ (t.can.rxf[(1 : Fin 2)]).late = 0 :=
  ⟨bus fun x => { x with rxf := x.rxf.set 1 { (x.rxf[(1 : Fin 2)]) with fill := 2, late := 1 } }, bus id, by decide, by decide⟩

/-- A refresh with its page operation, or with the spacing of 10 s over. -/
def refreshed (op : Bool) (pages : Nat) : State := { running .idle with
  sys := { (running .idle).sys with tbase := 10000000000 }
  isl := { State.reset.isl with refreshing := true, pageOp := op, pagen := pages } }

theorem test_refresh : refreshRuns (refreshed true 0) = true ∧ (refreshed true 0).isl.refreshing = true ∧
    (refreshed true 0).isl.pageOp = true ∧ (refreshed true 0).isl.pagen + 1 < refreshTotal ∧ 4 ≤ freePages (refreshed true 0) ∧
    freePages { refreshed true 0 with nvm := { State.reset.nvm with reloc := 44 } } < 4 ∧
    nvmBusy (refreshed false refreshTotal) = false ∧
    (refreshed false refreshTotal).isl.pageAt ≤ (refreshed false refreshTotal).sys.tbase ∧
    refreshTotal ≤ (refreshed false refreshTotal).isl.pagen + 1 ∧ refreshRuns (refreshed false refreshTotal) = true := by decide

theorem test_refreshDue : ∃ s : State, refreshRuns s = true ∧ s.isl.refreshing = false ∧
    8760 * (s.nvm.life.refreshes + 1) ≤ s.nvm.life.hours :=
  ⟨{ running .idle with nvm := { State.reset.nvm with life := { State.reset.nvm.life with hours := 8760 } } },
    by decide, by decide, by decide⟩
/-! ### Words and steps that the spec writes out -/

/-- The request of the worked exchange of Host port. -/
theorem test_exchange_request : packet [0xb7, 0x04, 0x00, 0x2a, 0x10, 0x00, 0x00, 0x00, 0x10, 0x00, 0x00, 0x00]
    = [0xb7, 0x04, 0x00, 0x2a, 0x10, 0x00, 0x00, 0x00, 0x10, 0x00, 0x00, 0x00, 0x47, 0xb4, 0xf9, 0xdb] := by decide +kernel

/-- Its payload is the address of SYS_MODE. -/
theorem test_exchange_decode : decodeRequest 0x10 [0x10, 0x00, 0x00, 0x00] = .ok (.regRead 0x10) := by decide

/-- FORM entered from IDLE reads as 0x0000_2003. -/
theorem test_exchange_value : (readReg { running .form with sys := { (running .form).sys with prev := .idle } } 0x10).map (·.1)
    = some 0x2003 := by decide

/-- The reply of the worked exchange of Host port. -/
theorem test_exchange_reply : replyPacket { own := true, tag := 0x2a, status := stOk, evt := 2, opc := 0x10, payload := [0x03, 0x20, 0, 0] } 0
    = [0x7b, 0x04, 0x00, 0x2a, 0x00, 0x02, 0x10, 0x00, 0x03, 0x20, 0x00, 0x00, 0x28, 0x30, 0xcb, 0xc3] := by decide +kernel

/-- The device of the worked exchange of Command set: FORM, CH2 in FAULT, one unread event, CH_ARM of G0 under TAG 0x40. -/
def arming : State := { (running .form).updCh 2 (fun ch => { ch with st := .fault }) with
  evq := { State.reset.evq with queue := [Ev.mk 0 0x0201 0 [] 0 false] }
  port := { State.reset.port with waiting := [{ tag := 0x40, opc := 0x20, payload := [0x0f, 0, 0, 0] }] } }

/-- The reply of that exchange: FAULT_ACTIVE, with result 0x40 for CH2. -/
theorem test_arming_reply : (match exec (.chArm 0x000F) arming with
      | .next t => t.port.replies.map fun r => (r.tag, r.status, r.evt, r.opc, r.payload)
      | _ => [])
    = [((0x40 : Byte), (0x40 : Byte), (1 : Byte), (0x20 : Byte), [0, 0, 0x40, 0] ++ List.replicate 12 (0xFF : Byte))] := by decide

/-- Nothing is staged. -/
theorem test_arming_staged : (match exec (.chArm 0x000F) arming with | .next t => t.staged | _ => arming.staged) = [] := by decide

/-- The event entry of that exchange. -/
theorem test_event_bytes : eventBytes { seq := 0x157, code := 0x0201, len := 3, payload := [2, 5, 0], tbase := 1000000000000, read := false }
    = [0x57, 0x01, 0x00, 0x00, 0x01, 0x02, 0x03, 0x00, 0x00, 0x10, 0xa5, 0xd4, 0xe8, 0x00, 0x00, 0x00,
       0x02, 0x05, 0x00, 0x00, 0x00, 0x00, 0x00, 0x00, 0x00, 0x00, 0x00, 0x00, 0x00, 0x00, 0x00, 0x00] := by decide

/-- The tag of group 3 after BOOT, owned by CE3 with generation 0 (R19). -/
theorem test_ownership_tag : groupTag (running .form).grp[3] = 0x60 := by decide

/-- A write to the host window lies low byte first (R3). -/
theorem test_sram_bytes : (match exec (.regWrite 0x103F0004 0x11223344) (running .idle) with
      | .next t => t.mem.map fun c => (c.1, c.2)
      | _ => [])
    = [(0x103F0004, 0x44), (0x103F0005, 0x33), (0x103F0006, 0x22), (0x103F0007, 0x11)] := by decide

/-- Writing 0 there empties the list again. -/
theorem test_sram_zero : (match exec (.regWrite 0x103F0004 0) { running .idle with mem := memWriteList [] 0x103F0004 [1, 2, 3, 4] } with
      | .next t => t.mem
      | _ => [(0, 0)]) = [] := by decide

/-- SET_MODE from IDLE to SERVICE is refused with WRONG_MODE (R208). -/
theorem test_setMode_refused : (match exec (.setMode 5 0) (running .idle) with
      | .next t => t.port.replies.map (·.status)
      | _ => []) = [stWrongMode] := by decide

/-- The step takes the command at the front. -/
theorem test_step_front : (match step { running .idle with pending := [.vioChange false, .vioChange true] } with
      | .next t => (t.pending, t.port.vio)
      | _ => ([], true)) = ([.vioChange true], false) := by decide

/-- DT8 at 125.00 degrees with FAST reads 0x0001_30D4 (Thermal management). -/
theorem test_dt8 : (readReg ((running .form).updDie 8 fun d => { d with reading := 12500, fast := true, broken := false, warn := false, level := 0, stop := false })
    0x90120).map (·.1) = some 0x130D4 := by decide

/-- A lost 25 MHz reference is a demand in category 0: every channel that was live is OFF (R235, R250). -/
theorem test_refClock : (match exec .refClockLoss (handed .form) with
      | .next t => (t.sys.mode, (t.ch[(15 : Fin 16)]).st, t.safe.cat)
      | _ => (.boot, .run, 0)) = (.safe, .off, 0) := by decide +kernel

/-- A leg trip forces the reference to zero and holds the accepted one (R91). -/
theorem test_scTrip : (match exec (.scTrip 3 false 100) (legOf fun l => { l with iref := 500 }) with
      | .next t => ((t.leg[(3 : Fin 32)]).iref, (t.leg[(3 : Fin 32)]).held, (t.leg[(3 : Fin 32)]).restart)
      | _ => (0, 0, false)) = (0, 500, true) := by decide

/-- A reference word with another tag counts as stale (R19). -/
theorem test_stale : (match exec (.currentReference 5 31 0x61 0) (running .form) with
      | .next t => ((t.leg[(31 : Fin 32)]).iref, (t.grp[(3 : Fin 4)]).stale)
      | _ => (1, 0)) = (0, 1) := by decide

/-- A received standard frame is stored in the FIFO of its filter (R347, R348). -/
theorem test_canReceived : (match exec (.canFrameReceived (frame 0x123 [])) (filtered 31) with
      | .next t => ((t.can.rxf[(1 : Fin 2)]).fill, (t.can.rxf[(0 : Fin 2)]).fill)
      | _ => (0, 0)) = (32, 0) := by decide

/-- SHA-256 of "abc", the example of FIPS 180-4. -/
theorem test_sha256_abc : (sha256 [0x61, 0x62, 0x63]).take 4 = [0xBA, 0x78, 0x16, 0xBF] := by decide +kernel

end Sys2Proof.Tests
end

/-! Requests that the port serves, and SET_MODE (O17). -/
namespace Sys2Proof.Safety

open Sys2Proof.Machine

/-! ### A served request -/

@[simp] theorem taken_sys (i : Instr) (s : State) : (taken i s).sys = s.sys :=
  (takeRequest_same (pm := 256) rfl (.refl 256 s)).sys.resolve_left (by decide)

@[simp] theorem taken_staged (i : Instr) (s : State) : (taken i s).staged = s.staged :=
  (takeRequest_same (pm := 256) rfl (.refl 256 s)).staged.resolve_left (by decide)

@[simp] theorem modePending_taken (i : Instr) (s : State) : modePending (taken i s) = modePending s := by
  simp only [modePending, taken_staged]

@[simp] theorem replied_staged (i : Instr) (s u : State) (status : Byte) (payload : List Byte) :
    (replied i s u status payload).staged = u.staged := by
  simp only [replied, reply_staged]

/-- A served command whose own meaning answers at once gets that answer as its reply (R296, R311, R312). -/
theorem hostCommand_replies {i : Instr} {s u : State} {body : Request → State → State × Completion} {status : Byte}
    {payload : List Byte} (h : Served i s) (hb : body (req i s) (taken i s) = (u, .now status payload)) :
    hostCommand i true s body = replied i s u status payload := by
  obtain ⟨hturn, l, hl, hserved⟩ := h
  unfold req at hserved hb
  unfold taken at hb
  simp only [hostCommand, hl, hturn, hserved, hb, replied, req, Bool.true_eq_false, if_false]

/-! ### SET_MODE -/

/-- While the device runs, SET_MODE answers for the mode in force, an unreachable mode and a pending mode change in this
order, and stages the change otherwise (R208, R316). -/
theorem setModeBody_running {s : State} {b f : Byte} {t : Mode} (r : Request) (hphase : s.sys.phase = .running)
    (hf : f.toNat < 4) (ht : Mode.ofCode? b.toNat = some t) :
    setModeBody b f r s =
      if t = s.sys.mode then (s, .status stOk)
      else if (reachable s.sys.mode).contains t = false then (s, .status stWrongMode)
      else if modePending s then (s, .status stBusyRetry)
      else (stage s (.mode t (f.getLsbD 0) (f.getLsbD 1) false 0) r.opc (some r.tag) (allIslands s), .later) := by
  have hbits : ¬ 4 ≤ f.toNat := Nat.not_le.mpr hf
  simp only [setModeBody, hphase, hbits, ht, reduceCtorEq, false_and, if_false]

/-- In DORMANT, SET_MODE to anything but DORMANT with PARK answers WRONG_MODE (R316). -/
theorem setModeBody_dormant_refuses {s : State} {b f : Byte} (r : Request) (hphase : s.sys.phase = .dormant)
    (hpark : ¬ (b = 6 ∧ f.getLsbD 0 = true)) : setModeBody b f r s = (s, .status stWrongMode) :=
  if_pos ⟨hphase, hpark⟩

/-- A served SET_MODE whose meaning answers at once gets that answer as its reply. -/
theorem exec_setMode_replies {s u : State} {b f status : Byte} (h : Served (.setMode b f) s)
    (hb : setModeBody b f (req (.setMode b f) s) (taken (.setMode b f) s) = (u, .status status)) :
    exec (.setMode b f) s = .next (replied (.setMode b f) s u status []) :=
  congrArg Host.Outcome.next (hostCommand_replies h hb)

/-- Settles O17: by the order of SET_MODE's checks on the state that taking its request leaves, which has the phase, the
mode and the staged changes of the state before. -/
theorem setModeAnswers : Obligations.SetModeAnswers := by
  intro s b f t hf ht hserved
  have hrunning (hphase : s.sys.phase = .running) := setModeBody_running (s := taken (.setMode b f) s)
    (req (.setMode b f) s) (by rw [taken_sys, hphase]) hf ht
  simp only [taken_sys, modePending_taken] at hrunning
  refine ⟨?unreachable, ?inForce, ?pending, ?dormant, ?replyStages, taken_staged _ s⟩
  case unreachable =>
    intro hphase hne hreach
    exact exec_setMode_replies hserved (by rw [hrunning hphase, if_neg hne, if_pos hreach])
  case inForce =>
    intro hphase heq
    exact exec_setMode_replies hserved (by rw [hrunning hphase, if_pos heq])
  case pending =>
    intro hphase hne hreach hpend
    have hreach' : ¬ (reachable s.sys.mode).contains t = false := by simp only [hreach, Bool.true_eq_false, not_false_eq_true]
    exact exec_setMode_replies hserved (by rw [hrunning hphase, if_neg hne, if_neg hreach', if_pos hpend])
  case dormant =>
    intro hphase hpark
    exact exec_setMode_replies hserved
      (setModeBody_dormant_refuses _ (by rw [taken_sys, hphase]) hpark)
  case replyStages =>
    exact replied_staged _ s

end Sys2Proof.Safety

/-! The checks of a request frame (O54). -/
namespace Sys2Proof.Safety

open Sys2Proof.Machine

/-! ### Refusals before acceptance -/

/-- A reply is queued behind the others or counted as dropped (R296). -/
theorem enqueueReply_queues_or_drops (s : State) (r : Reply) :
    enqueueReply s r = { s with port := { s.port with replies := s.port.replies ++ [r] } } ∨ enqueueReply s r = dropReply s := by
  by_cases hroom : (if r.own then s.port.replies.length else placesTaken s) < replyPlaces
  · exact .inl (if_pos hroom)
  · exact .inr (if_neg hroom)

theorem enqueueReply_keeps_replay (s : State) (r : Reply) : (enqueueReply s r).port.replay = s.port.replay := by
  obtain hqueued | hdropped := enqueueReply_queues_or_drops s r
  · rw [hqueued]
  · rw [hdropped, dropReply]

theorem enqueueReply_keeps_hcnt (s : State) (r : Reply) : (enqueueReply s r).port.hcnt = s.port.hcnt := by
  obtain hqueued | hdropped := enqueueReply_queues_or_drops s r
  · rw [hqueued]
  · rw [hdropped, dropReply]

/-- A reply that answers no outstanding request goes to the end of the queue if a place is left (R296). -/
theorem enqueueReply_replies_of_place {s : State} {r : Reply} (hown : r.own = false) (hplace : placesTaken s < replyPlaces) :
    (enqueueReply s r).port.replies = s.port.replies ++ [r] := by
  have hroom : (if r.own then s.port.replies.length else placesTaken s) < replyPlaces := by
    rwa [hown, if_neg Bool.false_ne_true]
  rw [enqueueReply, if_pos hroom]

/-- A refusal is a reply with the status given and an empty payload; it is not stored for replay, and the authentication
counter stays (R299). -/
theorem refuseFrame_spec (v : State) (tag opc st : Byte) : (refuseFrame v tag opc st).port.replay = v.port.replay ∧
    (refuseFrame v tag opc st).port.hcnt = v.port.hcnt ∧ (placesTaken v < replyPlaces → ∃ r,
      (refuseFrame v tag opc st).port.replies = v.port.replies ++ [r] ∧ r.tag = tag ∧ r.status = st ∧ r.payload = []) :=
  ⟨enqueueReply_keeps_replay v _, enqueueReply_keeps_hcnt v _, fun hplace =>
    ⟨_, enqueueReply_replies_of_place rfl hplace, rfl, rfl, rfl⟩⟩

/-! ### The checks in their order -/

/-- Checks 6 to 9 of R299, which a well-formed frame meets that is not a repeat. -/
def checkAdmission (s : State) (b : List Byte) : State :=
  if opcodeDefined (byteAt b 4) = false then refuseFrame s (byteAt b 3) (byteAt b 4) stBadOpcode
  else if lowRate s && !(servedModes (byteAt b 4)).contains .m then refuseFrame s (byteAt b 3) (byteAt b 4) stWrongMode
  else if authOk s b = false then
    refuseFrame (s.updPort fun p => { p with authf := satInc 8 p.authf }) (byteAt b 3) (byteAt b 4) stAuthFail
  else if 8 ≤ s.port.outstanding.length then refuseFrame s (byteAt b 3) (byteAt b 4) stBusyRetry
  else if replyPlaces ≤ placesTaken s then dropReply s
  else acceptFrame s b

section Checks

variable {s : State} {b : List Byte} {part : Bool}

/-- While the port serves, a frame that is no reply read and no reread goes through the checks (R291, R297, R299). -/
theorem exec_requestFrame_checks (hserves : portServes s = true) (hb : b ≠ []) (hread : byteAt b 0 ≠ 0x3C)
    (hreread : byteAt b 0 ≠ 0x3D) :
    exec (.requestFrame b part) s = .next (checkFrame b part (beginFrame s)) := by
  have hheard : ¬ (portServes s = false ∨ b = [] ∨ byteAt b 0 = 0x3C ∨ byteAt b 0 = 0x3D) := by
    simp only [hserves, hb, hread, hreread, Bool.true_eq_false, or_self, not_false_eq_true]
  exact congrArg Host.Outcome.next (if_neg hheard)

/-- Check 1: the first byte. -/
theorem checkFrame_of_badFirstByte (hsof : byteAt b 0 ≠ 0xB7) :
    checkFrame b part s = s.updPort fun p => { p with badfr := satInc 8 p.badfr } :=
  if_pos hsof

/-- Check 2: the length. -/
theorem checkFrame_of_badLength (hsof : byteAt b 0 = 0xB7) (hlen : lengthOk s b part = false) :
    checkFrame b part s = refuseFrame (countCrce s) (byteAt b 3) (byteAt b 4) stBadLen := by
  rw [checkFrame, if_neg (not_not_intro hsof), if_pos hlen]

section

variable (hsof : byteAt b 0 = 0xB7) (hlen : lengthOk s b part = true)
include hsof hlen

/-- Check 3: the CRC. -/
theorem checkFrame_of_badCrc (hcrc : crc32c (frameBody b) ≠ frameCrc b) :
    checkFrame b part s = refuseFrame (countCrce s) (byteAt b 3) (byteAt b 4) stBadCrc := by
  rw [checkFrame, if_neg (not_not_intro hsof), if_neg (ne_false_of_eq_true hlen), if_pos hcrc]

variable (hcrc : crc32c (frameBody b) = frameCrc b)
include hcrc

/-- Check 4: the reserved bits. -/
theorem checkFrame_of_badReserved (hres : reservedOk b = false) :
    checkFrame b part s = refuseFrame s (byteAt b 3) (byteAt b 4) stBadParam := by
  rw [checkFrame, if_neg (not_not_intro hsof), if_neg (ne_false_of_eq_true hlen), if_neg (not_not_intro hcrc), if_pos hres]

variable (hres : reservedOk b = true)
include hres

/-- Check 5: a repeat is answered from the replay store (R300). -/
theorem checkFrame_of_repeat {x : Replay} (hrep : repeatOf s b = some x) : checkFrame b part s = answerRepeat s x := by
  simp only [checkFrame, hsof, hlen, hcrc, hres, hrep, ne_eq, not_true_eq_false, Bool.true_eq_false, if_false]

/-- A well-formed frame that is not a repeat goes on to checks 6 to 9. -/
theorem checkFrame_of_new (hnew : repeatOf s b = none) : checkFrame b part s = checkAdmission s b := by
  simp only [checkFrame, checkAdmission, hsof, hlen, hcrc, hres, hnew, ne_eq, not_true_eq_false, Bool.true_eq_false, if_false]

end

/-- Check 6: the opcode. -/
theorem checkAdmission_of_undefined (hopc : opcodeDefined (byteAt b 4) = false) :
    checkAdmission s b = refuseFrame s (byteAt b 3) (byteAt b 4) stBadOpcode :=
  if_pos hopc

/-- An opcode that the low-rate port serves, where that port is the one that serves, is not refused for the mode. -/
theorem not_unservedLowRate (hmode : lowRate s = true → (servedModes (byteAt b 4)).contains .m = true) :
    ¬ (lowRate s && !(servedModes (byteAt b 4)).contains .m) = true := by
  cases hlow : lowRate s with
  | false => exact Bool.false_ne_true
  | true => rw [hmode hlow]; exact Bool.false_ne_true

section

variable (hopc : opcodeDefined (byteAt b 4) = true)
include hopc

/-- The low-rate port refuses the opcodes that it does not serve (R224, R306). -/
theorem checkAdmission_of_unservedLowRate (hlow : lowRate s = true) (hm : (servedModes (byteAt b 4)).contains .m = false) :
    checkAdmission s b = refuseFrame s (byteAt b 3) (byteAt b 4) stWrongMode := by
  rw [checkAdmission, if_neg (ne_false_of_eq_true hopc), if_pos (by rw [hlow, hm]; rfl)]

variable (hmode : lowRate s = true → (servedModes (byteAt b 4)).contains .m = true)
include hmode

/-- Check 7: the trailer. -/
theorem checkAdmission_of_badAuth (hauth : authOk s b = false) : checkAdmission s b =
    refuseFrame (s.updPort fun p => { p with authf := satInc 8 p.authf }) (byteAt b 3) (byteAt b 4) stAuthFail := by
  rw [checkAdmission, if_neg (ne_false_of_eq_true hopc), if_neg (not_unservedLowRate hmode), if_pos hauth]

variable (hauth : authOk s b = true)
include hauth

/-- Check 8: the requests that are outstanding. -/
theorem checkAdmission_of_busy (hbusy : 8 ≤ s.port.outstanding.length) :
    checkAdmission s b = refuseFrame s (byteAt b 3) (byteAt b 4) stBusyRetry := by
  rw [checkAdmission, if_neg (ne_false_of_eq_true hopc), if_neg (not_unservedLowRate hmode), if_neg (ne_false_of_eq_true hauth),
    if_pos hbusy]

/-- Check 9: the frame is accepted where its reply has a place. -/
theorem checkAdmission_accepts (hfree : s.port.outstanding.length < 8) (hplace : placesTaken s < replyPlaces) :
    checkAdmission s b = acceptFrame s b := by
  rw [checkAdmission, if_neg (ne_false_of_eq_true hopc), if_neg (not_unservedLowRate hmode), if_neg (ne_false_of_eq_true hauth),
    if_neg (Nat.not_le.mpr hfree), if_neg (Nat.not_le.mpr hplace)]

end

end Checks

/-- Settles O54: one lemma per check of R299, in the order of the table. -/
theorem frameChecks : Obligations.FrameChecks := by
  rintro s u b part hserves hb rfl
  have hchecks (hsof : byteAt b 0 = 0xB7) :
      exec (.requestFrame b part) s = .next (checkFrame b part (beginFrame s)) :=
    exec_requestFrame_checks hserves hb (by rw [hsof]; decide) (by rw [hsof]; decide)
  refine ⟨?firstByte, refuseFrame_spec, ?length, fun hsof hlen => ⟨?crc, fun hcrc => ⟨?reserved, fun hres =>
    ⟨?repeats, fun hnew => ?admission⟩⟩⟩⟩
  case firstByte =>
    intro hsof hread hreread
    rw [exec_requestFrame_checks hserves hb hread hreread, checkFrame_of_badFirstByte hsof]
  case length =>
    intro hsof hlen
    rw [hchecks hsof, checkFrame_of_badLength hsof hlen]
  case crc =>
    intro hcrc
    rw [hchecks hsof, checkFrame_of_badCrc hsof hlen hcrc]
  case reserved =>
    intro hres
    rw [hchecks hsof, checkFrame_of_badReserved hsof hlen hcrc hres]
  case repeats =>
    intro x hrep
    refine ⟨?_, fun r hr => ?_⟩
    · rw [hchecks hsof, checkFrame_of_repeat hsof hlen hcrc hres hrep]
    · rw [answerRepeat, hr]
  case admission =>
    rw [hchecks hsof, checkFrame_of_new hsof hlen hcrc hres hnew]
    refine ⟨?opcode, ?lowRate, fun hopc hmode => ⟨?auth, fun hauth => ⟨?busy, ?accepted⟩⟩⟩
    case opcode => exact fun hopc => congrArg _ (checkAdmission_of_undefined hopc)
    case lowRate => exact fun hopc hlow hm => congrArg _ (checkAdmission_of_unservedLowRate hopc hlow hm)
    case auth => exact fun hauth => congrArg _ (checkAdmission_of_badAuth hopc hmode hauth)
    case busy => exact fun hbusy => congrArg _ (checkAdmission_of_busy hopc hmode hauth hbusy)
    case accepted =>
      exact fun hfree hplace => ⟨congrArg _ (checkAdmission_accepts hopc hmode hauth hfree hplace), rfl, _, rfl, rfl⟩

end Sys2Proof.Safety

/-! The pairs of REG_WRITE_MULTI (O22). -/
namespace Sys2Proof.Safety

open Sys2Proof.Machine

theorem lengthIn_eq_true {α : Type} {lo hi : Nat} {l : List α} (hlo : lo ≤ l.length) (hhi : l.length ≤ hi) :
    lengthIn lo hi l = true :=
  decide_eq_true ⟨hlo, hhi⟩

/-! ### A series of pairs -/

@[simp] theorem writePairs_nil (s : State) (n : Nat) : writePairs s [] n = (s, n, stOk) := rfl

section

variable {s : State} {p : Word × Word}

/-- A pair that gives OK stays applied and is counted, and the series goes on behind it (R320). -/
theorem writePairs_cons_of_ok (h : (writeReg s p.1 p.2).2 = stOk) (r : List (Word × Word)) (n : Nat) :
    writePairs s (p :: r) n = writePairs (writeReg s p.1 p.2).1 r (n + 1) :=
  if_pos h

/-- A pair that gives another status ends the series with that status, and is not counted (R320). -/
theorem writePairs_cons_of_not_ok (h : (writeReg s p.1 p.2).2 ≠ stOk) (r : List (Word × Word)) (n : Nat) :
    writePairs s (p :: r) n = ((writeReg s p.1 p.2).1, n, (writeReg s p.1 p.2).2) :=
  if_neg h

end

/-! ### REG_WRITE_MULTI -/

/-- A served REG_WRITE_MULTI of 1 to 256 pairs writes them on the state that taking its request leaves, and replies with
the status of the series and with DONE (R320). -/
theorem exec_regWriteMulti_replies {s : State} {ps : List (Word × Word)} {w : State × Nat × Byte}
    (hmin : 1 ≤ ps.length) (hmax : ps.length ≤ 256) (hserved : Served (.regWriteMulti ps) s)
    (hw : w = writePairs (taken (.regWriteMulti ps) s) ps 0) :
    exec (.regWriteMulti ps) s =
      .next (replied (.regWriteMulti ps) s w.1 w.2.2 (toLE 2 w.2.1 ++ [w.2.2, 0])) := by
  have hbody : multiBody ps (taken (.regWriteMulti ps) s) = (w.1, .now w.2.2 (toLE 2 w.2.1 ++ [w.2.2, 0])) := by
    rw [hw, multiBody]
  calc exec (.regWriteMulti ps) s
      = .next (hostCommand (.regWriteMulti ps) (lengthIn 1 256 ps) s fun _ s => multiBody ps s) := rfl
    _ = .next (replied (.regWriteMulti ps) s w.1 w.2.2 (toLE 2 w.2.1 ++ [w.2.2, 0])) := by
      rw [lengthIn_eq_true hmin hmax, hostCommand_replies hserved hbody]

/-- Settles O22: by the first pair of a series, and by the reply of the command on the state that taking its request
leaves. -/
theorem writePairsInOrder : Obligations.WritePairsInOrder := fun s _p r n =>
  ⟨writePairs_nil s n, fun hok => writePairs_cons_of_ok hok r n, fun hfail => writePairs_cons_of_not_ok hfail r n,
    fun _ps _w hmin hmax hserved hw => exec_regWriteMulti_replies hmin hmax hserved hw⟩

end Sys2Proof.Safety

/-! One step: what every command keeps and leaves alone (O1, O3 to O7). -/
namespace Sys2Proof.Safety

open Sys2Proof.Machine

/-! ### Every command -/

/-- What every command keeps: the queue of waiting commands, each part of the invariant, and the blown fuses. -/
theorem exec_keeps {i : Instr} {s t : State} (h : exec i s = .next t) : Keeps s t := by
  cases i with
  | identify => exact execIdentify_keeps h
  | status => exact execStatus_keeps h
  | setMode => exact execSetMode_keeps h
  | softReset => exact execSoftReset_keeps h
  | wakeCommand => exact execWakeCommand_keeps h
  | cfgSave => exact execCfgSave_keeps h
  | cfgSaveDone => exact execCfgSaveDone_keeps h
  | timeRead => exact execTimeRead_keeps h
  | echo => exact execEcho_keeps h
  | regRead => exact execRegRead_keeps h
  | captureRead => exact execCaptureRead_keeps h
  | regWrite => exact execRegWrite_keeps h
  | regReadBlock => exact execRegReadBlock_keeps h
  | regWriteMulti => exact execRegWriteMulti_keeps h
  | foutWrite => exact execFoutWrite_keeps h
  | gangWrite => exact execGangWrite_keeps h
  | progBindWrite => exact execProgBindWrite_keeps h
  | coefAccess => exact execCoefAccess_keeps h
  | freezeWrite => exact execFreezeWrite_keeps h
  | setpointWrite => exact execSetpointWrite_keeps h
  | accClearWrite => exact execAccClearWrite_keeps h
  | logackWrite => exact execLogackWrite_keeps h
  | bkclrWrite => exact execBkclrWrite_keeps h
  | castlePeriodWrite => exact execCastlePeriodWrite_keeps h
  | quadWrite => exact execQuadWrite_keeps h
  | testUnretireWrite => exact execTestUnretireWrite_keeps h
  | auxpsPkclrWrite => exact execAuxpsPkclrWrite_keeps h
  | chArm => exact execChArm_keeps h
  | chStop => exact execChStop_keeps h
  | chHold => exact execChHold_keeps h
  | chResume => exact execChResume_keeps h
  | chClear => exact execChClear_keeps h
  | chHand => exact execChHand_keeps h
  | chSetpoint => exact execChSetpoint_keeps h
  | progStart => exact execProgStart_keeps h
  | progAbort => exact execProgAbort_keeps h
  | chStatus => exact execChStatus_keeps h
  | bookDir => exact execBookDir_keeps h
  | bookHdr => exact execBookHdr_keeps h
  | bookSteps => exact execBookSteps_keeps h
  | bookCommit => exact execBookCommit_keeps h
  | bookCommitDone => exact execBookCommitDone_keeps h
  | bookRead => exact execBookRead_keeps h
  | calRequestRotation => exact execCalRequestRotation_keeps h
  | calRequestRefTrim => exact execCalRequestRefTrim_keeps h
  | calRequestFactory => exact execCalRequestFactory_keeps h
  | calTrimDone => exact execCalTrimDone_keeps h
  | measPulse => exact execMeasPulse_keeps h
  | measEis => exact execMeasEis_keeps h
  | histRead => exact execHistRead_keeps h
  | logRead => exact execLogRead_keeps h
  | logAck => exact execLogAck_keeps h
  | logMark => exact execLogMark_keeps h
  | gradeRead => exact execGradeRead_keeps h
  | linkStatus => exact execLinkStatus_keeps h
  | safeHello => exact execSafeHello_keeps h
  | safeLogin => exact execSafeLogin_keeps h
  | safeLogout => exact execSafeLogout_keeps h
  | safeCommit => exact execSafeCommit_keeps h
  | safeCommitDone => exact execSafeCommitDone_keeps h
  | safePasswd => exact execSafePasswd_keeps h
  | safeLogread => exact execSafeLogread_keeps h
  | safeAck => exact execSafeAck_keeps h
  | safeKey => exact execSafeKey_keeps h
  | testRunMemoryBist => exact execTestRunMemoryBist_keeps h
  | testRunSpareBist => exact execTestRunSpareBist_keeps h
  | testRunLogicBist => exact execTestRunLogicBist_keeps h
  | testRunLoopback => exact execTestRunLoopback_keeps h
  | testRunScrub => exact execTestRunScrub_keeps h
  | testRunLegTest => exact execTestRunLegTest_keeps h
  | legTestDone => exact execLegTestDone_keeps h
  | serviceTestDone => exact execServiceTestDone_keeps h
  | testResult => exact execTestResult_keeps h
  | scanRequest => exact execScanRequest_keeps h
  | fuseRepair => exact execFuseRepair_keeps h
  | fuseRepairDone => exact execFuseRepairDone_keeps h
  | lifeRead => exact execLifeRead_keeps h
  | evtRead => exact execEvtRead_keeps h
  | evtAck => exact execEvtAck_keeps h
  | evtStatus => exact execEvtStatus_keeps h
  | requestFrame => exact execRequestFrame_keeps h
  | replyRead => exact execReplyRead_keeps h
  | reread => exact execReread_keeps h
  | attentionBlink => exact execAttentionBlink_keeps h
  | epochBoundary => exact execEpochBoundary_keeps h
  | stagingAnswer => exact execStagingAnswer_keeps h
  | stagingTimeout => exact execStagingTimeout_keeps h
  | crossbarTransfer => exact execCrossbarTransfer_keeps h
  | currentReference _ _ _ e => exact execCurrentReference_keeps e h
  | pllLoss => exact execPllLoss_keeps h
  | islandRestartDone => exact execIslandRestartDone_keeps h
  | ceLockstepMismatch => exact execCeLockstepMismatch_keeps h
  | castleReplayDone => exact execCastleReplayDone_keeps h
  | sequencerMismatch => exact execSequencerMismatch_keeps h
  | seqRecover => exact execSeqRecover_keeps h
  | plannedCastlingDue => exact execPlannedCastlingDue_keeps h
  | spareBistDue => exact execSpareBistDue_keeps h
  | spareBistDone => exact execSpareBistDone_keeps h
  | checkDone => exact execCheckDone_keeps h
  | shortCheckExpiry => exact execShortCheckExpiry_keeps h
  | foldbackUpdate => exact execFoldbackUpdate_keeps h
  | burstEnter => exact execBurstEnter_keeps h
  | burstExit => exact execBurstExit_keeps h
  | legImbalance => exact execLegImbalance_keeps h
  | orderlyStopGatesOff => exact execOrderlyStopGatesOff_keeps h
  | disconnectOpen => exact execDisconnectOpen_keeps h
  | scTrip => exact execScTrip_keeps h
  | scGroup => exact execScGroup_keeps h
  | restartDecayTimeout => exact execRestartDecayTimeout_keeps h
  | restartHoldoffEnd => exact execRestartHoldoffEnd_keeps h
  | bootstrapUv => exact execBootstrapUv_keeps h
  | bootstrapDlimLift => exact execBootstrapDlimLift_keeps h
  | bootstrapRefresh => exact execBootstrapRefresh_keeps h
  | interlock => exact execInterlock_keeps h
  | loopSat => exact execLoopSat_keeps h
  | implausible => exact execImplausible_keeps h
  | calSlotStart => exact execCalSlotStart_keeps h
  | refMonitor => exact execRefMonitor_keeps h
  | calHoldExpired => exact execCalHoldExpired_keeps h
  | loopbackCheck => exact execLoopbackCheck_keeps h
  | legOffsetMeasure => exact execLegOffsetMeasure_keeps h
  | pulseEvalDone => exact execPulseEvalDone_keeps h
  | eisPointDone => exact execEisPointDone_keeps h
  | flagFall => exact execFlagFall_keeps h
  | chargeCap => exact execChargeCap_keeps h
  | periodicRecord => exact execPeriodicRecord_keeps h
  | ocvRecord => exact execOcvRecord_keeps (a := ()) (b := ()) (c := ()) h
  | tempReduce => exact execTempReduce_keeps h
  | tempwinClear => exact execTempwinClear_keeps h
  | linkTick => exact execLinkTick_keeps h
  | budgetMessage => exact execBudgetMessage_keeps h
  | peerLost => exact execPeerLost_keeps h
  | peerDemandDrop => exact execPeerDemandDrop_keeps h
  | srcokChange => exact execSrcokChange_keeps h
  | sourceLoss => exact execSourceLoss_keeps h
  | bkokChange => exact execBkokChange_keeps h
  | handoverTimeout => exact execHandoverTimeout_keeps h
  | returnQualified => exact execReturnQualified_keeps h
  | backupLost => exact execBackupLost_keeps h
  | formingToLost => exact execFormingToLost_keeps h
  | powerOnReset => exact execPowerOnReset_keeps h
  | auxSoftStart => exact execAuxSoftStart_keeps h
  | bootDone => exact execBootDone_keeps h
  | bootHalt => exact execBootHalt_keeps h
  | pinReset => exact execPinReset_keeps h
  | rstNRelease => exact execRstNRelease_keeps h
  | rstStuck => exact execRstStuck_keeps h
  | wake => exact execWake_keeps h
  | linkWake => exact execLinkWake_keeps h
  | stopInputChange => exact execStopInputChange_keeps h
  | safeLatchStore => exact execSafeLatchStore_keeps h
  | discrep => exact execDiscrep_keeps h
  | cat1TimerExpiry => exact execCat1TimerExpiry_keeps h
  | safeEscalate => exact execSafeEscalate_keeps h
  | offPulseTest => exact execOffPulseTest_keeps h
  | soOverload => exact execSoOverload_keeps h
  | sofbFault => exact execSofbFault_keeps h
  | cpTrip => exact execCpTrip_keeps h
  | cpDiag => exact execCpDiag_keeps h
  | refClockLoss => exact execRefClockLoss_keeps h
  | safetyOscFail => exact execSafetyOscFail_keeps h
  | clockRecovered => exact execClockRecovered_keeps h
  | gateDisableFault => exact execGateDisableFault_keeps h
  | safetyCoreDivergence => exact execSafetyCoreDivergence_keeps h
  | safeCoreRestart => exact execSafeCoreRestart_keeps h
  | sessionTimeout => exact execSessionTimeout_keeps h
  | slotUnlock => exact execSlotUnlock_keeps h
  | vsoUndervoltage => exact execVsoUndervoltage_keeps h
  | thermEvaluation => exact execThermEvaluation_keeps h
  | thermStopEnd => exact execThermStopEnd_keeps h
  | thermLatch => exact execThermLatch_keeps h
  | thRefresh => exact execThRefresh_keeps h
  | canBusJoin => exact execCanBusJoin_keeps h
  | canEnableWrite => exact execCanEnableWrite_keeps h
  | canTxaddWrite => exact execCanTxaddWrite_keeps h
  | canTxcancelWrite => exact execCanTxcancelWrite_keeps h
  | canRxackWrite => exact execCanRxackWrite_keeps h
  | canFrameReceived => exact execCanFrameReceived_keeps h
  | canFrameSent => exact execCanFrameSent_keeps h
  | canBusError => exact execCanBusError_keeps h
  | canRecovered => exact execCanRecovered_keeps h
  | timeReferenceSend => exact execTimeReferenceSend_keeps h
  | timeReferenceMessage => exact execTimeReferenceMessage_keeps h
  | canTimeLost => exact execCanTimeLost_keeps h
  | canTimeRole => exact execCanTimeRole_keeps h
  | statusMessage => exact execStatusMessage_keeps h
  | dmaShvWrite => exact execDmaShvWrite_keeps h
  | dmaAbort => exact execDmaAbort_keeps h
  | dmaDisable => exact execDmaDisable_keeps h
  | dmaBurst => exact execDmaBurst_keeps h
  | dmaDescriptorDone => exact execDmaDescriptorDone_keeps h
  | sramEccError => exact execSramEccError_keeps h
  | rowRepairDone => exact execRowRepairDone_keeps h
  | nvmRefreshDue => exact execNvmRefreshDue_keeps h
  | nvmRefreshPage => exact execNvmRefreshPage_keeps h
  | lifetimeHour => exact execLifetimeHour_keeps h
  | eqhMinute => exact execEqhMinute_keeps h
  | auxPhaseOvercurrent => exact execAuxPhaseOvercurrent_keeps h
  | auxLimitPersist => exact execAuxLimitPersist_keeps h
  | auxSoftstartLimit => exact execAuxSoftstartLimit_keeps h
  | auxImbalance => exact execAuxImbalance_keeps h
  | auxBrake => exact execAuxBrake_keeps h
  | auxBrakeEnd => exact execAuxBrakeEnd_keeps h
  | auxVgdOv => exact execAuxVgdOv_keeps h
  | supplyLoss => exact execSupplyLoss_keeps h
  | railFault => exact execRailFault_keeps h
  | sofbChange => exact execSofbChange_keeps h
  | vsouvClear => exact execVsouvClear_keeps h
  | vioChange => exact execVioChange_keeps h
  | auxImbalanceClear => exact execAuxImbalanceClear_keeps h
  | auxModeChange => exact execAuxModeChange_keeps h
  | alwaysOnReset => exact execAlwaysOnReset_keeps h

/-- The frame of every command, by the mask of parts that its meaning leaves alone (R313). -/
theorem exec_frame {i : Instr} {s t : State} (h : exec i s = .next t) : Frame (changes i) s t := by
  cases i with
  | identify => exact frame_of (execIdentify_same h) rfl
  | status => exact frame_of (execStatus_same h) rfl
  | softReset => exact frame_of (execSoftReset_same h) rfl
  | wakeCommand => exact frame_of (execWakeCommand_same h) rfl
  | cfgSave => exact frame_of (execCfgSave_same h) rfl
  | cfgSaveDone => exact frame_of (execCfgSaveDone_same h) rfl
  | timeRead => exact frame_of (execTimeRead_same h) rfl
  | echo => exact frame_of (execEcho_same h) rfl
  | regRead => exact frame_of (execRegRead_same h) rfl
  | captureRead => exact frame_of (execCaptureRead_same h) rfl
  | regReadBlock => exact frame_of (execRegReadBlock_same h) rfl
  | chArm => exact frame_of (execChArm_same h) rfl
  | chStop => exact frame_of (execChStop_same h) rfl
  | chHold => exact frame_of (execChHold_same h) rfl
  | chResume => exact frame_of (execChResume_same h) rfl
  | chClear => exact frame_of (execChClear_same h) rfl
  | chHand => exact frame_of (execChHand_same h) rfl
  | chSetpoint => exact frame_of (execChSetpoint_same h) rfl
  | progStart => exact frame_of (execProgStart_same h) rfl
  | progAbort => exact frame_of (execProgAbort_same h) rfl
  | chStatus => exact frame_of (execChStatus_same h) rfl
  | bookDir => exact frame_of (execBookDir_same h) rfl
  | bookHdr => exact frame_of (execBookHdr_same h) rfl
  | bookSteps => exact frame_of (execBookSteps_same h) rfl
  | bookCommit => exact frame_of (execBookCommit_same h) rfl
  | bookCommitDone => exact frame_of (execBookCommitDone_same h) rfl
  | bookRead => exact frame_of (execBookRead_same h) rfl
  | calRequestRotation => exact frame_of (execCalRequestRotation_same h) rfl
  | calRequestRefTrim => exact frame_of (execCalRequestRefTrim_same h) rfl
  | calRequestFactory => exact frame_of (execCalRequestFactory_same h) rfl
  | calTrimDone => exact frame_of (execCalTrimDone_same h) rfl
  | measPulse => exact frame_of (execMeasPulse_same h) rfl
  | measEis => exact frame_of (execMeasEis_same h) rfl
  | histRead => exact frame_of (execHistRead_same h) rfl
  | logRead => exact frame_of (execLogRead_same h) rfl
  | logAck => exact frame_of (execLogAck_same h) rfl
  | logMark => exact frame_of (execLogMark_same h) rfl
  | gradeRead => exact frame_of (execGradeRead_same h) rfl
  | linkStatus => exact frame_of (execLinkStatus_same h) rfl
  | safeHello => exact frame_of (execSafeHello_same h) rfl
  | safeLogin => exact frame_of (execSafeLogin_same h) rfl
  | safeLogout => exact frame_of (execSafeLogout_same h) rfl
  | safeCommit => exact frame_of (execSafeCommit_same h) rfl
  | safeCommitDone => exact frame_of (execSafeCommitDone_same h) rfl
  | safePasswd => exact frame_of (execSafePasswd_same h) rfl
  | safeLogread => exact frame_of (execSafeLogread_same h) rfl
  | safeAck => exact frame_of (execSafeAck_same h) rfl
  | safeKey => exact frame_of (execSafeKey_same h) rfl
  | testRunMemoryBist => exact frame_of (execTestRunMemoryBist_same h) rfl
  | testRunSpareBist => exact frame_of (execTestRunSpareBist_same h) rfl
  | testRunLogicBist => exact frame_of (execTestRunLogicBist_same h) rfl
  | testRunLoopback => exact frame_of (execTestRunLoopback_same h) rfl
  | testRunScrub => exact frame_of (execTestRunScrub_same h) rfl
  | testRunLegTest => exact frame_of (execTestRunLegTest_same h) rfl
  | legTestDone => exact frame_of (execLegTestDone_same h) rfl
  | testResult => exact frame_of (execTestResult_same h) rfl
  | scanRequest => exact frame_of (execScanRequest_same h) rfl
  | fuseRepair => exact frame_of (execFuseRepair_same h) rfl
  | fuseRepairDone => exact frame_of (execFuseRepairDone_same h) rfl
  | lifeRead => exact frame_of (execLifeRead_same h) rfl
  | evtRead => exact frame_of (execEvtRead_same h) rfl
  | evtAck => exact frame_of (execEvtAck_same h) rfl
  | evtStatus => exact frame_of (execEvtStatus_same h) rfl
  | requestFrame => exact frame_of (execRequestFrame_same h) rfl
  | reread => exact frame_of (execReread_same h) rfl
  | attentionBlink => exact frame_of (execAttentionBlink_same h) rfl
  | stagingAnswer => exact frame_of (execStagingAnswer_same h) rfl
  | stagingTimeout => exact frame_of (execStagingTimeout_same h) rfl
  | crossbarTransfer => exact frame_of (execCrossbarTransfer_same h) rfl
  | currentReference _ _ _ e => exact frame_of (execCurrentReference_same (_epoch := e) h) rfl
  | pllLoss => exact frame_of (execPllLoss_same h) rfl
  | islandRestartDone => exact frame_of (execIslandRestartDone_same h) rfl
  | ceLockstepMismatch => exact frame_of (execCeLockstepMismatch_same h) rfl
  | castleReplayDone => exact frame_of (execCastleReplayDone_same h) rfl
  | sequencerMismatch => exact frame_of (execSequencerMismatch_same h) rfl
  | seqRecover => exact frame_of (execSeqRecover_same h) rfl
  | plannedCastlingDue => exact frame_of (execPlannedCastlingDue_same h) rfl
  | spareBistDue => exact frame_of (execSpareBistDue_same h) rfl
  | spareBistDone => exact frame_of (execSpareBistDone_same h) rfl
  | checkDone => exact frame_of (execCheckDone_same h) rfl
  | shortCheckExpiry => exact frame_of (execShortCheckExpiry_same h) rfl
  | foldbackUpdate => exact frame_of (execFoldbackUpdate_same h) rfl
  | burstEnter => exact frame_of (execBurstEnter_same h) rfl
  | burstExit => exact frame_of (execBurstExit_same h) rfl
  | legImbalance => exact frame_of (execLegImbalance_same h) rfl
  | orderlyStopGatesOff => exact frame_of (execOrderlyStopGatesOff_same h) rfl
  | disconnectOpen => exact frame_of (execDisconnectOpen_same h) rfl
  | scTrip => exact frame_of (execScTrip_same h) rfl
  | scGroup => exact frame_of (execScGroup_same h) rfl
  | restartDecayTimeout => exact frame_of (execRestartDecayTimeout_same h) rfl
  | restartHoldoffEnd => exact frame_of (execRestartHoldoffEnd_same h) rfl
  | bootstrapUv => exact frame_of (execBootstrapUv_same h) rfl
  | bootstrapDlimLift => exact frame_of (execBootstrapDlimLift_same h) rfl
  | bootstrapRefresh => exact frame_of (execBootstrapRefresh_same h) rfl
  | interlock => exact frame_of (execInterlock_same h) rfl
  | loopSat => exact frame_of (execLoopSat_same h) rfl
  | implausible => exact frame_of (execImplausible_same h) rfl
  | calSlotStart => exact frame_of (execCalSlotStart_same h) rfl
  | refMonitor => exact frame_of (execRefMonitor_same h) rfl
  | calHoldExpired => exact frame_of (execCalHoldExpired_same h) rfl
  | loopbackCheck => exact frame_of (execLoopbackCheck_same h) rfl
  | legOffsetMeasure => exact frame_of (execLegOffsetMeasure_same h) rfl
  | pulseEvalDone => exact frame_of (execPulseEvalDone_same h) rfl
  | eisPointDone => exact frame_of (execEisPointDone_same h) rfl
  | flagFall => exact frame_of (execFlagFall_same h) rfl
  | chargeCap => exact frame_of (execChargeCap_same h) rfl
  | periodicRecord => exact frame_of (execPeriodicRecord_same h) rfl
  | ocvRecord => exact frame_of (execOcvRecord_same (a := ()) (b := ()) (c := ()) h) rfl
  | tempReduce => exact frame_of (execTempReduce_same h) rfl
  | tempwinClear => exact frame_of (execTempwinClear_same h) rfl
  | linkTick => exact frame_of (execLinkTick_same h) rfl
  | budgetMessage => exact frame_of (execBudgetMessage_same h) rfl
  | peerLost => exact frame_of (execPeerLost_same h) rfl
  | peerDemandDrop => exact frame_of (execPeerDemandDrop_same h) rfl
  | srcokChange => exact frame_of (execSrcokChange_same h) rfl
  | sourceLoss => exact frame_of (execSourceLoss_same h) rfl
  | bkokChange => exact frame_of (execBkokChange_same h) rfl
  | handoverTimeout => exact frame_of (execHandoverTimeout_same h) rfl
  | returnQualified => exact frame_of (execReturnQualified_same h) rfl
  | backupLost => exact frame_of (execBackupLost_same h) rfl
  | formingToLost => exact frame_of (execFormingToLost_same h) rfl
  | rstStuck => exact frame_of (execRstStuck_same h) rfl
  | stopInputChange => exact frame_of (execStopInputChange_same h) rfl
  | safeLatchStore => exact frame_of (execSafeLatchStore_same h) rfl
  | discrep => exact frame_of (execDiscrep_same h) rfl
  | cat1TimerExpiry => exact frame_of (execCat1TimerExpiry_same h) rfl
  | safeEscalate => exact frame_of (execSafeEscalate_same h) rfl
  | offPulseTest => exact frame_of (execOffPulseTest_same h) rfl
  | soOverload => exact frame_of (execSoOverload_same h) rfl
  | sofbFault => exact frame_of (execSofbFault_same h) rfl
  | cpTrip => exact frame_of (execCpTrip_same h) rfl
  | cpDiag => exact frame_of (execCpDiag_same h) rfl
  | refClockLoss => exact frame_of (execRefClockLoss_same h) rfl
  | safetyOscFail => exact frame_of (execSafetyOscFail_same h) rfl
  | clockRecovered => exact frame_of (execClockRecovered_same h) rfl
  | gateDisableFault => exact frame_of (execGateDisableFault_same h) rfl
  | safetyCoreDivergence => exact frame_of (execSafetyCoreDivergence_same h) rfl
  | safeCoreRestart => exact frame_of (execSafeCoreRestart_same h) rfl
  | sessionTimeout => exact frame_of (execSessionTimeout_same h) rfl
  | slotUnlock => exact frame_of (execSlotUnlock_same h) rfl
  | vsoUndervoltage => exact frame_of (execVsoUndervoltage_same h) rfl
  | thermEvaluation => exact frame_of (execThermEvaluation_same h) rfl
  | thermStopEnd => exact frame_of (execThermStopEnd_same h) rfl
  | thermLatch => exact frame_of (execThermLatch_same h) rfl
  | thRefresh => exact frame_of (execThRefresh_same h) rfl
  | canBusJoin => exact frame_of (execCanBusJoin_same h) rfl
  | canFrameReceived => exact frame_of (execCanFrameReceived_same h) rfl
  | canFrameSent => exact frame_of (execCanFrameSent_same h) rfl
  | canBusError => exact frame_of (execCanBusError_same h) rfl
  | canRecovered => exact frame_of (execCanRecovered_same h) rfl
  | timeReferenceSend => exact frame_of (execTimeReferenceSend_same h) rfl
  | timeReferenceMessage => exact frame_of (execTimeReferenceMessage_same h) rfl
  | canTimeLost => exact frame_of (execCanTimeLost_same h) rfl
  | canTimeRole => exact frame_of (execCanTimeRole_same h) rfl
  | statusMessage => exact frame_of (execStatusMessage_same h) rfl
  | dmaBurst => exact frame_of (execDmaBurst_same h) rfl
  | dmaDescriptorDone => exact frame_of (execDmaDescriptorDone_same h) rfl
  | sramEccError => exact frame_of (execSramEccError_same h) rfl
  | rowRepairDone => exact frame_of (execRowRepairDone_same h) rfl
  | nvmRefreshDue => exact frame_of (execNvmRefreshDue_same h) rfl
  | nvmRefreshPage => exact frame_of (execNvmRefreshPage_same h) rfl
  | lifetimeHour => exact frame_of (execLifetimeHour_same h) rfl
  | eqhMinute => exact frame_of (execEqhMinute_same h) rfl
  | auxPhaseOvercurrent => exact frame_of (execAuxPhaseOvercurrent_same h) rfl
  | auxLimitPersist => exact frame_of (execAuxLimitPersist_same h) rfl
  | auxSoftstartLimit => exact frame_of (execAuxSoftstartLimit_same h) rfl
  | auxImbalance => exact frame_of (execAuxImbalance_same h) rfl
  | auxBrake => exact frame_of (execAuxBrake_same h) rfl
  | auxBrakeEnd => exact frame_of (execAuxBrakeEnd_same h) rfl
  | auxVgdOv => exact frame_of (execAuxVgdOv_same h) rfl
  | supplyLoss => exact frame_of (execSupplyLoss_same h) rfl
  | railFault => exact frame_of (execRailFault_same h) rfl
  | sofbChange => exact frame_of (execSofbChange_same h) rfl
  | vsouvClear => exact frame_of (execVsouvClear_same h) rfl
  | vioChange => exact frame_of (execVioChange_same h) rfl
  | auxImbalanceClear => exact frame_of (execAuxImbalanceClear_same h) rfl
  | auxModeChange => exact frame_of (execAuxModeChange_same h) rfl
  | alwaysOnReset => exact frame_of (execAlwaysOnReset_same h) rfl
  | _ => exact frame_all s t

/-! ### Steps -/

/-- The oldest accepted request runs its command or is refused, and keeps what commands keep. -/
theorem interpret_keeps {r : Request} {s t : State} (h : interpret r s = .next t) : Keeps s t := by
  unfold interpret at h
  split at h
  · exact exec_keeps h
  · exact Host.Outcome.next.inj h ▸ refuseRequest_keeps (.refl s)
  · exact Host.Outcome.next.inj h ▸ refuseRequest_keeps (.refl s)

/-- What the block does of its own keeps what commands keep. -/
theorem idle_keeps {s t : State} (h : idle s = .next t) : Keeps s t := by
  unfold idle at h
  split at h
  · exact Host.Outcome.next.inj h ▸ settleDue_keeps (.refl s)
  · split at h
    · exact interpret_keeps h
    · exact Host.Outcome.next.inj h ▸ bootAdvance_keeps (.refl s)

/-- The invariant speaks of no waiting command. -/
theorem inv_dropPending {s : State} (i : Inv s) (rest : List Instr) : Inv { s with pending := rest } :=
  ⟨i.memory, i.replies, i.events, i.fuses⟩

/-- Settles O5: each command, and what the block does of its own on an empty queue, keeps every part of the invariant. -/
theorem stepKeepsInvariant : Obligations.StepKeepsInvariant := by
  intro s t hinv hstep
  unfold step at hstep
  split at hstep
  · exact (exec_keeps hstep).inv (inv_dropPending hinv _)
  · exact (idle_keeps hstep).inv hinv

/-- Settles O6. -/
theorem commandsKeepQueueAndFuses : Obligations.CommandsKeepQueueAndFuses := fun _ _ _ h =>
  ⟨(exec_keeps h).pending, (exec_keeps h).fuses⟩

/-- Settles O7: the frame of the cells gives that of the bytes read. -/
theorem commandFrames : Obligations.CommandFrames := fun _ _ _ h =>
  ⟨exec_frame h, fun hmem a => by rw [(exec_frame h).mem hmem]⟩

/-- Settles O1. -/
theorem stepRunsFront : Obligations.StepRunsFront := fun _ _ _ => rfl

/-- Settles O3: the meaning of every command is a next state by its form. -/
theorem everyCommandCompletes : Obligations.EveryCommandCompletes := by
  intro i s
  cases i with
  | coefAccess c write => cases write <;> exact ⟨_, rfl⟩
  | _ => exact ⟨_, rfl⟩

/-- Settles O4. -/
theorem invariantAtReset : Obligations.InvariantAtReset := by
  refine ⟨⟨by decide, by decide, by decide, by decide⟩, rfl, rfl, rfl, rfl, rfl, rfl, rfl, rfl, rfl, rfl, fun c => ?_⟩
  have hreset : State.reset.ch[c] = Chan.reset := by simp [State.reset]
  rw [hreset]
  exact ⟨rfl, rfl, rfl⟩

end Sys2Proof.Safety

/-! Requests of the host port as bytes (O8). -/
namespace Sys2Proof.Safety

open Sys2Proof.Machine

/-! ### Little-endian bytes -/

@[simp] theorem toLE_length (n v : Nat) : (toLE n v).length = n := by
  induction n generalizing v with
  | zero => rfl
  | succ n ih => exact congrArg (· + 1) (ih _)

/-- The n low bytes of a number spell it modulo 256^n (R3). -/
theorem leNat_toLE (n v : Nat) : leNat (toLE n v) = v % 256 ^ n := by
  induction n generalizing v with
  | zero => rw [toLE, leNat, Nat.pow_zero, Nat.mod_one]
  | succ n ih =>
    calc leNat (toLE (n + 1) v) = v % 256 + 256 * (v / 256 % 256 ^ n) := by rw [toLE, leNat, ih, BitVec.toNat_ofNat]
      _ = v % 256 ^ (n + 1) := by rw [Nat.pow_succ', Nat.mod_mul]

theorem wordBytes_length (w : Word) : (wordBytes w).length = 4 := toLE_length 4 _

theorem leWord_wordBytes (w : Word) : leWord (wordBytes w) = w := by
  rw [leWord, wordBytes, leNat_toLE, Nat.mod_eq_of_lt (by exact w.isLt), BitVec.ofNat_toNat, BitVec.setWidth_eq]

/-- The mask of its two bytes. -/
theorem ofNat_leNat_maskBytes (m : Mask) : BitVec.ofNat 16 (leNat (maskBytes m)) = m := by
  rw [maskBytes, leNat_toLE, Nat.mod_eq_of_lt (by exact m.isLt), BitVec.ofNat_toNat, BitVec.setWidth_eq]

/-- Both arguments of a constructor come back from their bytes. -/
theorem eq_of_args {α β γ : Type} (f : α → β → γ) {a a' : α} {b b' : β} (ha : a = a') (hb : b = b') : f a b = f a' b' := by
  rw [ha, hb]

/-- The pairs of a REG_WRITE_MULTI come back from their bytes (R320). -/
theorem pairsAt_bytes (ps : List (Word × Word)) :
    pairsAt ps.length (ps.flatMap fun p => wordBytes p.1 ++ wordBytes p.2) = ps := by
  induction ps with
  | nil => rfl
  | cons p ps ih => exact eq_of_args (· :: ·) (eq_of_args (·, ·) (leWord_wordBytes p.1) (leWord_wordBytes p.2)) ih

theorem pairs_length (ps : List (Word × Word)) :
    (ps.flatMap fun p => wordBytes p.1 ++ wordBytes p.2).length = 8 * ps.length := by
  induction ps with
  | nil => rfl
  | cons p ps ih =>
    rw [List.flatMap_cons, List.length_append, ih, List.length_append, wordBytes_length, wordBytes_length, List.length_cons]
    omega

/-! ### Layouts of variable length -/

theorem lengthIn_iff {α : Type} {lo hi : Nat} {l : List α} : lengthIn lo hi l = true ↔ lo ≤ l.length ∧ l.length ≤ hi :=
  decide_eq_true_iff

theorem lengthIn_self {α : Type} {n : Nat} {l : List α} (h : lengthIn n n l = true) : l.length = n :=
  Nat.le_antisymm (lengthIn_iff.mp h).2 (lengthIn_iff.mp h).1

theorem decode_echo {d : List Byte} (h : d.length ≤ 4096) : decodeRequest 0x07 d = .ok (.echo d) :=
  if_pos h

theorem decode_regWriteMulti {ps : List (Word × Word)} (hmin : 1 ≤ ps.length) (hmax : ps.length ≤ 256) :
    decodeRequest 0x13 (toLE 2 ps.length ++ [0, 0] ++ ps.flatMap fun p => wordBytes p.1 ++ wordBytes p.2) =
      .ok (.regWriteMulti ps) := by
  have hpairs := pairsAt_bytes ps
  have hlen := pairs_length ps
  generalize (ps.flatMap fun p => wordBytes p.1 ++ wordBytes p.2) = bytes at hpairs hlen ⊢
  have hcount : (halfAt (toLE 2 ps.length ++ [0, 0] ++ bytes) 0).toNat = ps.length := by
    change (BitVec.ofNat 16 (leNat (toLE 2 ps.length))).toNat = ps.length
    rw [leNat_toLE, BitVec.toNat_ofNat]
    omega
  have hrange : ¬ (ps.length < 1 ∨ 256 < ps.length) := by omega
  have hfixed : fixedLayout (4 + 8 * ps.length) [2, 3] (toLE 2 ps.length ++ [0, 0] ++ bytes)
      (.regWriteMulti (pairsAt ps.length bytes)) = .ok (.regWriteMulti ps) := by
    rw [hpairs]
    exact (if_neg (not_not_intro (by simp [hlen]; omega))).trans (if_neg (by simp [byteAt, toLE]))
  change (if (halfAt (toLE 2 ps.length ++ [0, 0] ++ bytes) 0).toNat < 1 ∨ _ then _ else fixedLayout _ _ _
    (.regWriteMulti (pairsAt _ bytes))) = _
  rw [hcount, if_neg hrange, hfixed]

theorem decode_bookSteps {f n : Byte} {r : List Byte} (hmin : 1 ≤ n.toNat) (hmax : n.toNat ≤ 63)
    (hlen : r.length = 64 * n.toNat) : decodeRequest 0x42 ([f, n, 0, 0] ++ r) = .ok (.bookSteps f n r) := by
  have hrange : ¬ (n.toNat < 1 ∨ 63 < n.toNat) := by omega
  have hlength : ([f, n, 0, 0] ++ r).length = 4 + 64 * n.toNat := by
    simp [hlen]
    omega
  exact (if_neg hrange).trans (if_neg (not_not_intro hlength))

theorem decode_bookHdr {h : List Byte} (hlen : h.length = 32) : decodeRequest 0x41 h = .ok (.bookHdr h) := by
  simp [decodeRequest, decodeStore, fixedLayout, hlen]

theorem decode_logMark {c : Byte} {d : List Byte} (hlen : d.length = 12) :
    decodeRequest 0x62 ([c, 0, 0, 0] ++ d) = .ok (.logMark c d) := by
  simp [decodeRequest, decodeStore, fixedLayout, byteAt, hlen]

theorem decode_safeLogin {sl : Byte} {p : List Byte} (hlen : p.length = 32) :
    decodeRequest 0x81 (sl :: p) = .ok (.safeLogin sl p) := by
  simp [decodeRequest, decodeSafety, fixedLayout, byteAt, hlen]

theorem decode_safePasswd {sl n : Byte} {m : List Byte} (hlen : m.length = 20) :
    decodeRequest 0x84 (sl :: n :: m) = .ok (.safePasswd sl n m) := by
  simp [decodeRequest, decodeSafety, fixedLayout, byteAt, hlen]

theorem decode_safeKey {k : List Byte} (hlen : k.length = 32) : decodeRequest 0x87 k = .ok (.safeKey k) := by
  simp [decodeRequest, decodeSafety, fixedLayout, hlen]

/-! ### The round trip -/

/-- Settles O8: the layouts of variable length by their lemmas, those of fixed length by the bytes of their words. -/
theorem requestRoundTrip : Obligations.RequestRoundTrip := by
  intro i opc p hwf henc
  cases i
  case coefAccess c write =>
    cases write with
    | some v => cases henc
    | none =>
      cases henc
      exact congrArg (Decoded.ok <| .regRead ·) (leWord_wordBytes (chBase c + 0x13C))
  all_goals cases henc
  case echo => exact decode_echo (lengthIn_iff.mp hwf).2
  case regWriteMulti ps => exact decode_regWriteMulti (lengthIn_iff.mp hwf).1 (lengthIn_iff.mp hwf).2
  case bookSteps f n r =>
    simp only [Instr.wellFormed, Bool.and_eq_true, decide_eq_true_eq] at hwf
    exact decode_bookSteps hwf.1.1 hwf.1.2 hwf.2
  case bookHdr => exact decode_bookHdr (lengthIn_self hwf)
  case logMark c d => exact decode_logMark (lengthIn_self hwf)
  case safeLogin sl p => exact decode_safeLogin (lengthIn_self hwf)
  case safePasswd sl n m => exact decode_safePasswd (lengthIn_self hwf)
  case safeKey => exact decode_safeKey (lengthIn_self hwf)
  case chSetpoint c sel i v ir vr =>
    have hfields (i' v' ir' vr' : Word) (hi : i' = i) (hv : v' = v) (hir : ir' = ir) (hvr : vr' = vr) :
        Decoded.ok (.chSetpoint c sel i' v' ir' vr') = .ok (.chSetpoint c sel i v ir vr) := by rw [hi, hv, hir, hvr]
    exact hfields _ _ _ _ (leWord_wordBytes i) (leWord_wordBytes v) (leWord_wordBytes ir) (leWord_wordBytes vr)
  case softReset w => exact congrArg (Decoded.ok <| .softReset ·) (leWord_wordBytes w)
  case regRead a => exact congrArg (Decoded.ok <| .regRead ·) (leWord_wordBytes a)
  case captureRead a => exact congrArg (Decoded.ok <| .regRead ·) (leWord_wordBytes a)
  case regWrite a v => exact eq_of_args (Decoded.ok <| .regWrite · ·) (leWord_wordBytes a) (leWord_wordBytes v)
  case regReadBlock a n => exact eq_of_args (Decoded.ok <| .regReadBlock · ·) (leWord_wordBytes a) (ofNat_leNat_maskBytes n)
  case chArm m => exact congrArg (Decoded.ok <| .chArm ·) (ofNat_leNat_maskBytes m)
  case chStop m => exact congrArg (Decoded.ok <| .chStop ·) (ofNat_leNat_maskBytes m)
  case chHold m => exact congrArg (Decoded.ok <| .chHold ·) (ofNat_leNat_maskBytes m)
  case chResume m => exact congrArg (Decoded.ok <| .chResume ·) (ofNat_leNat_maskBytes m)
  case chClear m => exact congrArg (Decoded.ok <| .chClear ·) (ofNat_leNat_maskBytes m)
  case chHand m e => exact congrArg (Decoded.ok <| .chHand · e) (ofNat_leNat_maskBytes m)
  case progStart m => exact congrArg (Decoded.ok <| .progStart ·) (ofNat_leNat_maskBytes m)
  case progAbort m => exact congrArg (Decoded.ok <| .progAbort ·) (ofNat_leNat_maskBytes m)
  case calRequestRefTrim a v => exact congrArg (Decoded.ok <| .calRequestRefTrim a ·) (leWord_wordBytes v)
  case calRequestFactory a v => exact congrArg (Decoded.ok <| .calRequestFactory a ·) (leWord_wordBytes v)
  case measPulse c i d => exact eq_of_args (Decoded.ok <| .measPulse c · ·) (leWord_wordBytes i) (leWord_wordBytes d)
  case measEis c m f a => exact eq_of_args (Decoded.ok <| .measEis c m · ·) (leWord_wordBytes f) (leWord_wordBytes a)
  case histRead c f n => exact eq_of_args (Decoded.ok <| .histRead c · ·) (ofNat_leNat_maskBytes f) (ofNat_leNat_maskBytes n)
  case logRead c n f => exact congrArg (Decoded.ok <| .logRead c n ·) (leWord_wordBytes f)
  case logAck c q => exact congrArg (Decoded.ok <| .logAck c ·) (leWord_wordBytes q)
  case safeLogread f n => exact congrArg (Decoded.ok <| .safeLogread · n) (leWord_wordBytes f)
  case safeAck f m => exact congrArg (Decoded.ok <| .safeAck f ·) (ofNat_leNat_maskBytes m)
  case scanRequest w => exact congrArg (Decoded.ok <| .scanRequest ·) (leWord_wordBytes w)
  case evtRead f n => exact congrArg (Decoded.ok <| .evtRead · n) (leWord_wordBytes f)
  case evtAck q => exact congrArg (Decoded.ok <| .evtAck ·) (leWord_wordBytes q)
  all_goals rfl

end Sys2Proof.Safety

/-! Host commands: refusals, replies and the rows of one register write (O9 to O12). -/
namespace Sys2Proof.Safety

open Sys2Proof.Machine

/-! ### Requests refused, and commands that complete later -/

section

variable {i : Instr} {s : State} {l : Letter} {body : Request → State → State × Completion}

/-- A host command out of its turn comes to the port as a request (R296). -/
theorem hostCommand_queues {lenOk : Bool} (hl : modeLetter s = some l) (hturn : itsTurn i s = false) :
    hostCommand i lenOk s body = queueRow i s := by
  simp only [hostCommand, hl, hturn, if_true]

/-- The length is checked first (R311). -/
theorem hostCommand_badLen (hl : modeLetter s = some l) (hturn : itsTurn i s = true) :
    hostCommand i false s body = replied i s (taken i s) stBadLen [] := by
  simp only [hostCommand, hl, hturn, Bool.true_eq_false, if_false, if_true]
  rfl

/-- The mode is checked after the length (R311). -/
theorem hostCommand_wrongMode (hl : modeLetter s = some l) (hturn : itsTurn i s = true)
    (hmode : (servedModes (req i s).opc).contains l = false) :
    hostCommand i true s body = replied i s (taken i s) stWrongMode [] := by
  unfold req at hmode
  simp only [hostCommand, hl, hturn, hmode, Bool.true_eq_false, if_false, if_true]
  rfl

/-- A served command whose own meaning leaves its reply for later leaves the state of its meaning (R312). -/
theorem hostCommand_later {u : State} (h : Served i s) (hb : body (req i s) (taken i s) = (u, .later)) :
    hostCommand i true s body = u := by
  obtain ⟨hturn, l, hl, hserved⟩ := h
  unfold req at hserved hb
  unfold taken at hb
  simp only [hostCommand, hl, hturn, hserved, hb, Bool.true_eq_false, if_false]

end

/-- With a place for its reply a request that is not refused is accepted and waits (R296). -/
theorem queueRow_accepts {i : Instr} {s : State} (hout : s.port.outstanding.length < 8) (hplace : placesTaken s < replyPlaces) :
    queueRow i s = { admitRow i s with port := { (admitRow i s).port with waiting := s.port.waiting ++ [rowRequest i s] } } := by
  simp only [queueRow, Nat.not_le.mpr hout, Nat.not_le.mpr hplace, if_false]
  rfl

/-- The TAG of a request's identity. -/
theorem nextId_tag (s : State) (t : Byte) : (nextId s t).tag = t := by
  apply BitVec.eq_of_toNat_eq
  have := t.isLt
  simp only [nextId, ReqId.tag, BitVec.toNat_ofNat]
  omega

/-- Settles O11: by the order of the checks of a host command. -/
theorem requestsRefused : Obligations.RequestsRefused := by
  intro i lenOk s l body hl
  refine ⟨fun hturn hlen => ?length, fun hturn hlen hmode => ?mode, fun hturn hbusy => ?busy,
    fun hturn hout hplace => ?waits, fun hturn hout hplace => ?dropped⟩
  case length => rw [hlen, hostCommand_badLen hl hturn]
  case mode => rw [hlen, hostCommand_wrongMode hl hturn hmode]
  case busy =>
    rw [hostCommand_queues hl hturn, queueRow, if_pos hbusy]
    exact congrArg (refuseFrame s · _ _) (nextId_tag s _)
  case waits =>
    rw [hostCommand_queues hl hturn, queueRow_accepts hout hplace]
    exact ⟨_, rfl, rfl, rfl, rfl, rfl⟩
  case dropped =>
    rw [hostCommand_queues hl hturn, queueRow, if_neg (Nat.not_le.mpr hout), if_pos (by exact hplace)]
    rfl

/-! ### The reply queue -/

/-- A refusal that finds every place taken is counted as dropped (R296). -/
theorem refuseFrame_drops {s : State} {t opc st : Byte} (hplace : replyPlaces ≤ placesTaken s) :
    refuseFrame s t opc st = dropReply s :=
  if_neg (Nat.not_lt.mpr hplace)

/-- The reply of an outstanding request goes to the end of the queue if a place is left (R293, R296). -/
theorem enqueueReply_own {s : State} {r : Reply} (hown : r.own = true) (hroom : s.port.replies.length < replyPlaces) :
    enqueueReply s r = { s with port := { s.port with replies := s.port.replies ++ [r] } } := by
  rw [enqueueReply, hown, if_pos rfl, if_pos hroom]

theorem enqueueReply_own_full {s : State} {r : Reply} (hown : r.own = true) (hfull : replyPlaces ≤ s.port.replies.length) :
    enqueueReply s r = dropReply s := by
  rw [enqueueReply, hown, if_pos rfl, if_neg (Nat.not_lt.mpr hfull)]

/-- A reply changes the host port only (R293). -/
theorem reply_port_only (s : State) (tag : ReqId) (opc st : Byte) (p : List Byte) :
    reply s tag opc st p = { s with port := (reply s tag opc st p).port } := by
  unfold reply
  dsimp only
  obtain hqueued | hdropped := enqueueReply_queues_or_drops _ _
  · rw [hqueued]
  · rw [hdropped, dropReply]

/-- Settles O12. -/
theorem replyQueues : Obligations.ReplyQueues := by
  intro s tag t8 opc st p
  refine ⟨fun hplace => enqueueReply_replies_of_place rfl hplace, fun hplace => refuseFrame_drops hplace,
    _, reply_port_only s tag opc st p, rfl, fun hroom => ?queued, fun hfull => ?dropped⟩
  case queued =>
    rw [reply, enqueueReply_own rfl (by exact hroom)]
    exact ⟨rfl, rfl⟩
  case dropped =>
    rw [reply, enqueueReply_own_full rfl (by exact hfull)]
    exact ⟨rfl, rfl⟩

/-! ### Rows of one register write -/

section

variable {i : Instr} {f : FieldWrite}

theorem and_allOnes32 (v : Word) : v &&& 0xFFFFFFFF = v := BitVec.and_allOnes (x := v)

/-- A field's value lies in its mask. -/
theorem fieldWriteOf_value (hf : fieldWriteOf i = some f) : f.value &&& f.mask = f.value := by
  cases i
  case coefAccess c write =>
    cases write with
    | none => cases hf
    | some v => cases hf; exact and_allOnes32 v
  all_goals cases hf
  case foutWrite fout => revert fout; decide
  case gangWrite g n =>
    change n.zeroExtend 32 <<< 4 &&& 0x70 = n.zeroExtend 32 <<< 4
    revert n
    decide
  case freezeWrite c z =>
    change z.zeroExtend 32 &&& 0xF = z.zeroExtend 32
    revert z
    decide
  case castlePeriodWrite p =>
    apply BitVec.eq_of_toNat_eq
    have hp : p.toNat % 2 ^ 32 = p.toNat := Nat.mod_eq_of_lt (Nat.lt_trans p.isLt (by decide))
    have hmask : p.toNat &&& (2 ^ 16 - 1) = p.toNat := by rw [Nat.and_two_pow_sub_one_eq_mod, Nat.mod_eq_of_lt p.isLt]
    rw [BitVec.toNat_and, BitVec.toNat_setWidth, hp]
    exact hmask
  case quadWrite q => revert q; decide
  case dmaAbort => exact (by decide : (2 : Word) &&& 2 = 2)
  case dmaDisable => exact (by decide : (0 : Word) &&& 1 = 0)
  all_goals exact and_allOnes32 _

/-- A field replaced by a value has that value. -/
theorem maskWrite_and (mask w v : Word) : maskWrite mask w v &&& mask = v &&& mask := by
  ext k hk
  simp only [maskWrite, BitVec.getElem_and, BitVec.getElem_or, BitVec.getElem_not]
  cases mask[k] <;> simp

theorem written_field (hf : fieldWriteOf i = some f) (s : State) : written i f s &&& f.mask = f.value := by
  unfold written fieldValue
  split
  · rename_i hrequest
    exact hrequest.2
  · rw [maskWrite_and, fieldWriteOf_value hf]

/-- A REG_WRITE with the row's value in the row's field is one that the row stands for (R318). -/
theorem requestIs_field (hf : fieldWriteOf i = some f) {v : Word} (hv : v &&& f.mask = f.value) :
    requestIs i 0x11 (wordBytes f.addr ++ wordBytes v) = true := by
  have hdecode : decodeRequest 0x11 (wordBytes f.addr ++ wordBytes v) = .ok (.regWrite f.addr v) :=
    requestRoundTrip (.regWrite f.addr v) _ _ rfl rfl
  unfold requestIs
  rw [hdecode, hf]
  simp [hv]

theorem exec_fieldWrite (hf : fieldWriteOf i = some f) (s : State) : exec i s = .next (fieldWrite i s) := by
  cases i
  case coefAccess c write =>
    cases write with
    | none => cases hf
    | some v => rfl
  all_goals cases hf
  all_goals rfl

/-- A served row of one register write completes as the REG_WRITE of the word that it writes (R318). -/
theorem exec_field_replies {s : State} (hf : fieldWriteOf i = some f) (h : Served i s) :
    exec i s = .next (replied i s (writeReg (taken i s) f.addr (written i f s)).1
      (writeReg (taken i s) f.addr (written i f s)).2 []) := by
  rw [exec_fieldWrite hf, fieldWrite, hf]
  exact congrArg _ (hostCommand_replies h rfl)

end

/-- Settles O9. -/
theorem fieldRowRequests : Obligations.FieldRowRequests := fun _ _ _ s hf =>
  ⟨requestIs_field hf, written_field hf s, exec_field_replies hf⟩

/-- Settles O10, by running the decoder on the words. -/
theorem requestWords : Obligations.RequestWords := by
  unfold Obligations.RequestWords
  decide

end Sys2Proof.Safety

/-! Addresses and the bytes that a register write reaches (O23). -/
namespace Sys2Proof.Safety

open Sys2Proof.Machine

/-! ### Bytes written -/

/-- A list of bytes written leaves every byte outside it as it was. -/
theorem memRead_memWriteList_outside {l : List Byte} {m : List Host.Cell} {a b : Nat} (w : Memory.wf m = true)
    (h : b < a ∨ a + l.length ≤ b) : memRead (memWriteList m a l) b = memRead m b := by
  induction l generalizing m a with
  | nil => rfl
  | cons x r ih =>
    rw [List.length_cons] at h
    rw [memWriteList, ih (memWrite_wf w) (by omega), memRead_memWrite_other w (by omega)]

/-- A list of bytes written reads back byte by byte. -/
theorem memRead_memWriteList_inside {l : List Byte} {m : List Host.Cell} {a k : Nat} (w : Memory.wf m = true)
    (h : k < l.length) : memRead (memWriteList m a l) (a + k) = l[k] := by
  induction l generalizing m a k with
  | nil => exact absurd h (Nat.not_lt_zero k)
  | cons x r ih =>
    cases k with
    | zero => rw [memWriteList, memRead_memWriteList_outside (memWrite_wf w) (by omega), Nat.add_zero, memRead_memWrite_same w]; rfl
    | succ k =>
      have hk : k < r.length := Nat.lt_of_succ_lt_succ h
      rw [memWriteList, show a + (k + 1) = a + 1 + k by omega, ih (memWrite_wf w) hk]
      rfl

theorem toLE_getElem {n v k : Nat} (h : k < (toLE n v).length) : (toLE n v)[k] = BitVec.ofNat 8 (v / 256 ^ k) := by
  induction n generalizing v k with
  | zero => exact absurd h (Nat.not_lt_zero k)
  | succ n ih =>
    cases k with
    | zero => simp [toLE]
    | succ k => simp only [toLE, List.getElem_cons_succ, ih, Nat.pow_succ', Nat.div_div_eq_div_mul]

/-! ### Places -/

section

variable {a : Word}

theorem placeOf_unaligned (h : a.toNat % 4 ≠ 0) : placeOf a = none := if_pos h

/-- An aligned address of the SRAM is its place (R360). -/
theorem placeOf_sram (h4 : a.toNat % 4 = 0) (hlo : 0x10000000 ≤ a.toNat) (hhi : a.toNat < 0x10400000) :
    placeOf a = some (.sram a.toNat) :=
  (if_neg (not_not_intro h4)).trans (if_pos (decide_eq_true ⟨hlo, hhi⟩))

/-- Above the blocks of the table and outside the SRAM there is no place (R319). -/
theorem placeOf_above (h : 0xD0000 ≤ a.toNat) (hs : inSram a.toNat = false) : placeOf a = none := by
  by_cases h4 : a.toNat % 4 = 0
  · have hblock : 13 ≤ a.toNat / 0x10000 := by omega
    unfold placeOf
    simp only [h4, hs, ne_eq, not_true_eq_false, Bool.false_eq_true, if_false]
    split <;> first | rfl | omega
  · exact placeOf_unaligned h4

theorem readReg_of_none {s : State} (h : placeOf a = none) : readReg s a = none := by rw [readReg, h]; rfl

theorem writeReg_of_none {s : State} {v : Word} (h : placeOf a = none) : writeReg s a v = (s, stBadAddr) := by
  rw [writeReg, h]

theorem writeReg_of_place {s : State} {v : Word} {p : Place} (h : placeOf a = some p) : writeReg s a v = writePlace s p v := by
  rw [writeReg, h]

end

/-- Settles O23: by the place of an address, and by the bytes of a word in the memory. -/
theorem addressRules : Obligations.AddressRules := by
  intro s a v
  refine ⟨fun h => ⟨readReg_of_none h, writeReg_of_none h⟩, placeOf_unaligned, fun h => ?above, fun hlo hhi => ?between,
    placeOf_sram, fun h4 hlo hhi => ?below, fun h4 hlo hhi hwf => ?window⟩
  case above => exact placeOf_above (by omega) (decide_eq_false fun hin => absurd hin.2 (Nat.not_lt.mpr h))
  case between => exact placeOf_above hlo (decide_eq_false fun hin => absurd hin.1 (Nat.not_le.mpr hhi))
  case below =>
    rw [writeReg_of_place (placeOf_sram h4 hlo (by omega))]
    exact if_neg (by simp [inWindow]; omega)
  case window =>
    refine ⟨memWriteList s.mem a.toNat (wordBytes v), ?_, fun k hk => ?_, fun b hb => ?_⟩
    · rw [writeReg_of_place (placeOf_sram h4 (by omega) hhi)]
      exact if_pos (decide_eq_true ⟨hlo, hhi⟩)
    · have hlen : k < (wordBytes v).length := by rwa [wordBytes_length]
      rw [memRead_memWriteList_inside hwf hlen]
      exact toLE_getElem hlen
    · exact memRead_memWriteList_outside hwf (by rwa [wordBytes_length])

end Sys2Proof.Safety

/-! The channel-mask commands (O27, O28). -/
namespace Sys2Proof.Safety

open Sys2Proof.Machine

/-! ### The state that taking a request leaves -/

/-- Taking a request changes the host port only (R296). -/
theorem taken_port_only (i : Instr) (s : State) : ∃ p, taken i s = { s with port := p } := by
  unfold taken takeRequest
  split
  · exact ⟨_, rfl⟩
  · exact ⟨_, rfl⟩

/-! ### All or nothing (R313) -/

section

variable {s : State} {m : Mask} {f : State → Fin 16 → Byte} {x : Change} {r : Request}

theorem channels_getElem? (d : Fin 16) : channels[d.val]? = some d := by
  rw [channels, List.getElem?_eq_getElem (by simp)]
  simp

theorem resultBytes_length (m : Mask) (f : Fin 16 → Byte) : (resultBytes m f).length = 16 := by simp [resultBytes, channels]

theorem resultBytes_getElem? (m : Mask) (f : Fin 16 → Byte) (d : Fin 16) :
    (resultBytes m f)[d.val]? = some (if m.getLsbD d.val then f d else 0xFF) := by
  rw [resultBytes, List.getElem?_map, channels_getElem?, Option.map_some]

theorem mask_ne_zero {c : Fin 16} (h : m.getLsbD c.val = true) : m ≠ 0 := by
  rintro rfl
  simp at h

/-- The lowest-numbered selected channel that refuses. -/
theorem firstRefusal_eq_some {f : Fin 16 → Byte} {c : Fin 16} (hc : m.getLsbD c.val = true) (hst : f c ≠ stOk)
    (hmin : ∀ d : Fin 16, d < c → m.getLsbD d.val = true → f d = stOk) : firstRefusal m f = some (f c) := by
  have hfind : channels.find? (fun c => m.getLsbD c.val && f c != stOk) = some c := by
    rw [List.find?_eq_some_iff_getElem]
    refine ⟨by rw [hc, Bool.true_and]; exact bne_iff_ne.mpr hst, c.val, by rw [channels, List.length_finRange]; exact c.isLt,
      List.getElem_finRange _, fun k hk => ?_⟩
    have hd : channels[k]'(by rw [channels, List.length_finRange]; omega) = ⟨k, by omega⟩ := List.getElem_finRange _
    rw [hd]
    cases hsel : m.getLsbD k with
    | false => rfl
    | true => rw [hmin ⟨k, by omega⟩ hk hsel]; rfl
  rw [firstRefusal, hfind, Option.map_some]

theorem firstRefusal_eq_none {f : Fin 16 → Byte} (hok : ∀ c : Fin 16, m.getLsbD c.val = true → f c = stOk) :
    firstRefusal m f = none := by
  have hfind : channels.find? (fun c => m.getLsbD c.val && f c != stOk) = none := by
    rw [List.find?_eq_none]
    intro c _
    cases hsel : m.getLsbD c.val with
    | false => simp
    | true => simp [hok c hsel]
  rw [firstRefusal, hfind, Option.map_none]

/-- A selected channel that refuses ends the command with its status and the results of all selected ones. -/
theorem maskCommand_refuses {c : Fin 16} (hc : m.getLsbD c.val = true) (hst : f s c ≠ stOk)
    (hmin : ∀ d : Fin 16, d < c → m.getLsbD d.val = true → f s d = stOk) :
    maskCommand m f x r s = (s, .now (f s c) (resultBytes m (f s))) := by
  rw [maskCommand, if_neg (mask_ne_zero hc), firstRefusal_eq_some hc hst hmin]

/-- A command that no selected channel refuses is staged. -/
theorem maskCommand_stages (hm : m ≠ 0) (hok : ∀ c : Fin 16, m.getLsbD c.val = true → f s c = stOk) :
    maskCommand m f x r s = (stage s x r.opc (some r.tag) (maskIslands s m), .later) := by
  rw [maskCommand, if_neg hm, firstRefusal_eq_none hok]

end

/-- Settles O27. -/
theorem maskCommandsAllOrNothing : Obligations.MaskCommandsAllOrNothing := fun _ m f _ _ =>
  ⟨if_pos rfl,
    fun _ hc hst hmin => ⟨_, maskCommand_refuses hc hst hmin, resultBytes_length m (f _), resultBytes_getElem? m (f _)⟩,
    fun hm hok => ⟨maskCommand_stages hm hok, _, rfl, rfl⟩⟩

/-! ### Each mask command (R321) -/

section

variable {s : State} {c : Fin 16} (hlead : isFollower s c = false)
include hlead

theorem armResult_ok (h : startBlocked s c = false ∧ (s.ch[c]).st ≠ .fault) : armResult s c = stOk := by
  simp only [armResult, hlead, h.1, h.2, Bool.false_eq_true, or_self, if_false]

theorem plainResult_ok : plainResult s c = stOk := by
  simp [plainResult, hlead]

theorem holdResult_ok (h : (s.ch[c]).st = .run ∨ (s.ch[c]).st = .hold) : holdResult s c = stOk := by
  simp only [holdResult, hlead, h, if_true, Bool.false_eq_true, if_false]

theorem resumeResult_ok (h : startBlocked s c = false ∧ ((s.ch[c]).prog.causes.contains hcMeas = true → measInvalid s c = false)) :
    resumeResult s c = stOk := by
  have hmeas : ((s.ch[c]).prog.causes.contains hcMeas && measInvalid s c) = false := by
    cases hcause : (s.ch[c]).prog.causes.contains hcMeas with
    | false => rfl
    | true => rw [h.2 hcause]; rfl
  simp only [resumeResult, hlead, h.1, hmeas, Bool.false_eq_true, if_false]

theorem handResult_enter_ok (h : (s.ch[c]).bound = true ∧ ((s.ch[c]).prog.pstate = .run ∨ (s.ch[c]).prog.pstate = .hold)) :
    handResult true s c = stOk := by
  simp only [handResult, hlead, h.1, h.2, Bool.false_eq_true, Bool.true_eq_false, or_self, if_false, if_true]

theorem handResult_leave_ok (h : (s.ch[c]).bound = true ∧ (s.ch[c]).prog.pstate = .hand) : handResult false s c = stOk := by
  simp only [handResult, hlead, h.1, h.2, Bool.false_eq_true, Bool.true_eq_false, or_self, if_false, if_true]

theorem startResult_ok (h : (s.ch[c]).bound = true ∧ (s.ch[c]).st = .off ∧ startBlocked s c = false ∧
    recipeIntact s.nvm.book[(s.ch[c]).recipeSlot] = true ∧ hdrNstep (s.nvm.book[(s.ch[c]).recipeSlot]).header ≠ 0) :
    startResult s c = stOk := by
  obtain ⟨hbound, hoff, hfree, hintact, hsteps⟩ := h
  simp only [startResult, hlead, hbound, hoff, hfree, hintact, hsteps, Bool.false_eq_true, Bool.true_eq_false, ne_eq,
    not_true_eq_false, or_self, if_false]

end

/-- A served mask command that no selected channel refuses stages its change and leaves the rest (R313). -/
theorem hostCommand_mask {i : Instr} {s : State} {m : Mask} {f : State → Fin 16 → Byte} {x : Change} (h : Served i s) (hm : m ≠ 0)
    (hok : ∀ p c, m.getLsbD c.val = true → f { s with port := p } c = stOk) :
    hostCommand i true s (maskCommand m f x) = staged i s (taken i s) x (maskIslands s m) := by
  obtain ⟨p, hp⟩ := taken_port_only i s
  refine hostCommand_later h ?_
  rw [hp, maskCommand_stages hm (hok p)]
  rfl

/-- A start whose selected recipes are all intact reports none (R163). -/
theorem startBody_intact {s : State} {m : Mask} {r : Request}
    (h : ∀ c : Fin 16, m.getLsbD c.val = true → recipeIntact s.nvm.book[(s.ch[c]).recipeSlot] = true) :
    startBody m r s = maskCommand m startResult (.start m) r s := by
  have hbad : (channels.filter fun c =>
      m.getLsbD c.val && (s.ch[c]).bound && hdrNstep (s.nvm.book[(s.ch[c]).recipeSlot]).header != 0
        && !recipeIntact (s.nvm.book[(s.ch[c]).recipeSlot]) && !isFollower s c && (s.ch[c]).st == .off) = [] := by
    rw [List.filter_eq_nil_iff]
    intro c _
    cases hsel : m.getLsbD c.val with
    | false => simp
    | true => simp only [h c hsel, Bool.not_true, Bool.and_false, Bool.false_and, Bool.false_eq_true, not_false_eq_true]
  rw [startBody, hbad]
  rfl

/-- Settles O28: for each command, no selected channel refuses. -/
theorem maskCommandsComplete : Obligations.MaskCommandsComplete := by
  intro s m hm hlead
  refine ⟨fun h hs => ?arm, fun hs => ?stop, fun h hs => ?hold, fun h hs => ?resume, fun hs => ?clear, fun hs => ?abort,
    fun h hs => ?start, fun h hs => ?enter, fun h hs => ?leave⟩
  case arm => exact congrArg _ (hostCommand_mask hs hm fun _ c hc => armResult_ok (hlead c hc) (h c hc))
  case stop => exact congrArg _ (hostCommand_mask hs hm fun _ c hc => plainResult_ok (hlead c hc))
  case hold => exact congrArg _ (hostCommand_mask hs hm fun _ c hc => holdResult_ok (hlead c hc) (h c hc))
  case resume => exact congrArg _ (hostCommand_mask hs hm fun _ c hc => resumeResult_ok (hlead c hc) (h c hc))
  case clear => exact congrArg _ (hostCommand_mask hs hm fun _ c hc => plainResult_ok (hlead c hc))
  case abort => exact congrArg _ (hostCommand_mask hs hm fun _ c hc => plainResult_ok (hlead c hc))
  case enter => exact congrArg _ (hostCommand_mask hs hm fun _ c hc => handResult_enter_ok (hlead c hc) (h c hc))
  case leave => exact congrArg _ (hostCommand_mask hs hm fun _ c hc => handResult_leave_ok (hlead c hc) (h c hc))
  case start =>
    obtain ⟨p, hp⟩ := taken_port_only (.progStart m) s
    refine congrArg _ (hostCommand_later hs ?_)
    rw [hp]
    exact (startBody_intact (s := { s with port := p }) fun c hc =>
        let ⟨_, _, _, hintact, _⟩ := h c hc
        hintact).trans
      (maskCommand_stages hm fun c hc => startResult_ok (hlead c hc) (h c hc))

end Sys2Proof.Safety

/-! Rows of one register: places of the address map, and the setpoint commands (O26, O29). -/
namespace Sys2Proof.Safety

open Sys2Proof.Machine

/-! ### Rows that write a whole register -/

section

variable {i : Instr} {s u : State} {a v : Word} {st : Byte}

theorem written_whole (hf : fieldWriteOf i = some (.whole a v)) (s : State) : written i (.whole a v) s = v :=
  (and_allOnes32 _).symm.trans (written_field hf s)

/-- A served row that writes a whole register completes as the REG_WRITE of its value (R318). -/
theorem exec_whole_replies (hf : fieldWriteOf i = some (.whole a v)) (h : Served i s) (hw : writeReg (taken i s) a v = (u, st)) :
    exec i s = .next (replied i s u st []) := by
  rw [exec_field_replies hf h, written_whole hf]
  change Host.Outcome.next (replied i s (writeReg (taken i s) a v).1 (writeReg (taken i s) a v).2 []) = _
  rw [hw]

end

/-! ### Places of the blocks (R4) -/

section

variable {a : Word} {o : Nat}

/-- The block of an aligned address below the SRAM, and its offset there. -/
theorem block_of {b : Nat} (ha : a.toNat = 0x10000 * b + o) (ho : o < 0x10000) (h4 : o % 4 = 0) (hb : b < 13) :
    a.toNat % 4 = 0 ∧ inSram a.toNat = false ∧ a.toNat % 0x10000 = o ∧ a.toNat / 0x10000 = b := by
  refine ⟨by omega, decide_eq_false fun hin => ?_, by omega, by omega⟩
  have hbase : 0x10000000 ≤ a.toNat := hin.1
  omega

theorem placeOf_ch {c : Fin 16} (ha : a.toNat = 0x10000 + 0x400 * c.val + o) (ho : o < 0x400) (h4 : o % 4 = 0) :
    placeOf a = some (.ch c o) := by
  obtain ⟨halign, hsram, hoff, hblock⟩ :=
    block_of (a := a) (b := 1) (o := 0x400 * c.val + o) (by omega) (by omega) (by omega) (by decide)
  have hin : 0x400 * c.val + o < 0x4000 := by omega
  have hinst : (0x400 * c.val + o) / 0x400 % 16 = c.val := by omega
  have hreg : (0x400 * c.val + o) % 0x400 = o := by omega
  simp only [placeOf, halign, hsram, hoff, hblock, hin, hinst, hreg, ne_eq, not_true_eq_false, Bool.false_eq_true, if_false,
    if_true]

/-- The address of a register of a CH block. -/
theorem chBase_add_toNat (c : Fin 16) (ho : o < 0x400) : (chBase c + BitVec.ofNat 32 o).toNat = 0x10000 + 0x400 * c.val + o := by
  simp only [chBase, BitVec.toNat_add, BitVec.toNat_ofNat]
  omega

theorem placeOf_chReg (c : Fin 16) (ho : o < 0x400) (h4 : o % 4 = 0) : placeOf (chBase c + BitVec.ofNat 32 o) = some (.ch c o) :=
  placeOf_ch (chBase_add_toNat c ho) ho h4

end

/-! ### Setpoint registers (R123) -/

/-- The offset of a host setpoint register in its CH block. -/
def setpointOffset (r : SetpointReg) : Nat :=
  match r with
  | .iset => 0x104
  | .vset => 0x108
  | .iramp => 0x10C
  | .vramp => 0x110

/-- SETPOINT_WRITE writes its register whole. -/
theorem fieldWriteOf_setpoint (c : Fin 16) (r : SetpointReg) (v : Word) :
    fieldWriteOf (.setpointWrite c r v) = some (.whole (chBase c + BitVec.ofNat 32 (setpointOffset r)) v) := by
  cases r <;> rfl

theorem writeReg_setpoint (s : State) (c : Fin 16) (r : SetpointReg) (v : Word) :
    writeReg s (chBase c + BitVec.ofNat 32 (setpointOffset r)) v = writeSetpoint s c r v := by
  have hplace : placeOf (chBase c + BitVec.ofNat 32 (setpointOffset r)) = some (.ch c (setpointOffset r)) :=
    placeOf_chReg c (by cases r <;> decide) (by cases r <;> rfl)
  rw [writeReg_of_place hplace]
  cases r <;> rfl

/-- The range check of a setpoint register's write. -/
theorem setpointInRange_word (r : SetpointReg) (v : Word) :
    setpointInRange (setpointSel r) (setpointWord r v) (setpointWord r v) (setpointWord r v) (setpointWord r v) = true ↔
      setpointFits r v := by
  cases r
  case iset =>
    simp [setpointInRange, setpointSel, setpointWord, setpointFits]
    exact decide_eq_true_iff
  all_goals simp [setpointInRange, setpointSel, setpointWord, setpointFits]

theorem setRegs_setpoint (ch : Chan) (r : SetpointReg) (w : Word) : ch.setRegs (setpointSel r) w w w w = setpointStored r w ch := by
  cases r <;> rfl

/-- What the write of a setpoint register does. -/
theorem writeSetpoint_eq (s : State) (c : Fin 16) (r : SetpointReg) (v : Word) :
    writeSetpoint s c r v =
      if setpointInRange (setpointSel r) (setpointWord r v) (setpointWord r v) (setpointWord r v) (setpointWord r v) = false then
        (s, stBadParam)
      else if followsHost s c then
        (stage s (.setpoint c (setpointSel r) (setpointWord r v) (setpointWord r v) (setpointWord r v) (setpointWord r v)) 0x11 none
          (channelIslands s [c]), stOk)
      else (s.updCh c (setpointStored r (setpointWord r v)), stOk) := by
  cases r <;> rfl

/-- Settles O26. -/
theorem setpointWriteCompletes : Obligations.SetpointWriteCompletes := by
  rintro s c r v w rfl hs
  obtain ⟨p, hp⟩ := taken_port_only (.setpointWrite c r v) s
  have hfits := setpointInRange_word r v
  have hwrite (u : State) (st : Byte) (hu : writeSetpoint { s with port := p } c r v = (u, st)) :
      exec (.setpointWrite c r v) s = .next (replied (.setpointWrite c r v) s u st []) :=
    exec_whole_replies (fieldWriteOf_setpoint c r v) hs (by rw [hp, writeReg_setpoint, hu])
  rw [hp]
  refine ⟨fun hfit hfollow => ?stored, fun hfit hfollow => ?staged, fun hfit => ?refused⟩
  case stored =>
    refine hwrite _ _ ((writeSetpoint_eq _ c r v).trans ?_)
    rw [if_neg (ne_false_of_eq_true (hfits.mpr hfit))]
    exact if_neg (ne_true_of_eq_false hfollow)
  case staged =>
    refine hwrite _ _ ((writeSetpoint_eq _ c r v).trans ?_)
    rw [if_neg (ne_false_of_eq_true (hfits.mpr hfit))]
    exact if_pos hfollow
  case refused =>
    refine hwrite _ _ ((writeSetpoint_eq _ c r v).trans (if_pos ?_))
    exact Bool.eq_false_iff.mpr fun hrange => hfit (hfits.mp hrange)

/-! ### CH_SETPOINT (R322) -/

/-- The fields of a selection in the low four bits of a byte. -/
theorem setRegs_truncate (ch : Chan) (sel : Byte) (i v ir vr : Word) :
    ch.setRegs (sel.truncate 4) i v ir vr = { ch with
      iset := if sel.getLsbD 0 then i else ch.iset
      vset := if sel.getLsbD 1 then v else ch.vset
      iramp := if sel.getLsbD 2 then ir else ch.iramp
      vramp := if sel.getLsbD 3 then vr else ch.vramp } := by
  simp [Chan.setRegs]

theorem setpointInRange_truncate {sel : Byte} {i v ir vr : Word} (hi : sel.getLsbD 0 = true → i.toInt.natAbs ≤ 320000000)
    (hv : sel.getLsbD 1 = true → v.toNat ≤ 5500000) (hir : sel.getLsbD 2 = true → ir.toNat ≤ 1000000)
    (hvr : sel.getLsbD 3 = true → vr.toNat ≤ 10000000) : setpointInRange (sel.truncate 4) i v ir vr = true := by
  have himp {b : Bool} {q : Prop} [Decidable q] (h : b = true → q) : (!b || decide q) = true := by
    cases b with
    | false => rfl
    | true => exact decide_eq_true (h rfl)
  have hbit (k : Nat) (hk : k < 4) : (sel.truncate 4).getLsbD k = sel.getLsbD k := by
    rw [BitVec.truncate, BitVec.getLsbD_setWidth, decide_eq_true hk, Bool.true_and]
  rw [setpointInRange, hbit 0 (by decide), hbit 1 (by decide), hbit 2 (by decide), hbit 3 (by decide), himp hi, himp hv,
    himp hir, himp hvr]
  rfl

/-- CH_SETPOINT of a leader, with a selection and values in range, by source and mode. -/
theorem setpointBody_ok {s : State} {b sel : Byte} {i v ir vr : Word} (r : Request) (h : b.toNat < 16) (hmin : 1 ≤ sel.toNat)
    (hmax : sel.toNat < 16) (hlead : isFollower s ⟨b.toNat, h⟩ = false)
    (hrange : setpointInRange (sel.truncate 4) i v ir vr = true) :
    setpointBody b sel i v ir vr r s =
      if followsHost s ⟨b.toNat, h⟩ then
        if s.sys.mode = .safe then
          (stage (s.updCh ⟨b.toNat, h⟩ fun x => x.setRegs (sel.truncate 4) i v ir vr)
            (.setpoint ⟨b.toNat, h⟩ (sel.truncate 4) i v ir vr) r.opc none (channelIslands s [⟨b.toNat, h⟩]), .status stOk)
        else (stage s (.setpoint ⟨b.toNat, h⟩ (sel.truncate 4) i v ir vr) r.opc (some r.tag)
          (channelIslands s [⟨b.toNat, h⟩]), .later)
      else (s.updCh ⟨b.toNat, h⟩ fun x => x.setRegs (sel.truncate 4) i v ir vr, .status stOk) := by
  have hsel : sel ≠ 0 := by
    rintro rfl
    exact absurd hmin (by decide)
  have hok : ¬ (sel = 0 ∨ 16 ≤ sel.toNat ∨ isFollower s ⟨b.toNat, h⟩ = true ∨
      setpointInRange (sel.truncate 4) i v ir vr = false) := by
    simp only [hsel, Nat.not_le.mpr hmax, hlead, hrange, Bool.false_eq_true, Bool.true_eq_false, or_self, not_false_eq_true]
  simp only [setpointBody, chanOf?, h, dif_pos, hok, if_false]

/-- Settles O29. -/
theorem setpointCommandCompletes : Obligations.SetpointCommandCompletes := by
  intro s b sel i v ir vr h hmin hmax hlead hi hv hir hvr hs
  obtain ⟨p, hp⟩ := taken_port_only (.chSetpoint b sel i v ir vr) s
  have hbody := setpointBody_ok (s := { s with port := p }) (req (.chSetpoint b sel i v ir vr) s) h hmin hmax hlead
    (setpointInRange_truncate hi hv hir hvr)
  rw [hp]
  simp only [← setRegs_truncate]
  refine ⟨fun hfollow => ?stored, fun hfollow hsafe => ?staged, fun hfollow hsafe => ?inSafe⟩
  case stored =>
    refine congrArg _ (hostCommand_replies hs ?_)
    rw [hp, hbody]
    exact if_neg (ne_true_of_eq_false hfollow)
  case staged =>
    refine congrArg _ (hostCommand_later hs ?_)
    rw [hp, hbody]
    exact (if_pos hfollow).trans (if_neg hsafe)
  case inSafe =>
    refine congrArg _ (hostCommand_replies hs ?_)
    rw [hp, hbody]
    exact (if_pos hfollow).trans (if_pos hsafe)

end Sys2Proof.Safety

/-! The transitions of one channel (O30). -/
namespace Sys2Proof.Safety

open Sys2Proof.Machine

/-! ### One element of an indexed update -/

theorem vmod_eq_self {α : Type} {n : Nat} {v : Vector α n} {i : Fin n} {f : α → α} (h : f v[i] = v[i]) : vmod v i f = v := by
  ext k hk
  by_cases hik : i.val = k
  · subst hik
    simpa using h
  · simp [vmod, hik]

theorem vmod_vmod {α : Type} {n : Nat} (v : Vector α n) (i : Fin n) (f g : α → α) :
    vmod (vmod v i f) i g = vmod v i (g ∘ f) := by
  simp [vmod]

theorem ch_updCh_self (s : State) (c : Fin 16) (f : Chan → Chan) : (s.updCh c f).ch[c] = f s.ch[c] := vmod_same s.ch c f

theorem ch_updCh_other (s : State) {c d : Fin 16} (f : Chan → Chan) (h : d ≠ c) : (s.updCh c f).ch[d] = s.ch[d] :=
  vmod_other s.ch f h.symm

theorem ch_updProg_self (s : State) (c : Fin 16) (f : Prog → Prog) :
    (s.updProg c f).ch[c] = { s.ch[c] with prog := f (s.ch[c]).prog } := ch_updCh_self s c _

theorem ch_updProg_other (s : State) {c d : Fin 16} (f : Prog → Prog) (h : d ≠ c) : (s.updProg c f).ch[d] = s.ch[d] :=
  ch_updCh_other s _ h

/-! ### The power path of a channel -/

/-- The power path: state, disconnect, gates, opening, burst trickle, CHECK, short check and recorded fault. -/
structure PowerPath where
  st : ChState
  dsw : Bool
  gates : Bool
  opening : Opening
  burst : Bool
  checking : Bool
  short : Option ShortCheck
  fcode : BitVec 8
  faultReg : BitVec 9

/-- The power path of a channel. -/
def pathOf (ch : Chan) : PowerPath :=
  ⟨ch.st, ch.dsw, ch.gates, ch.opening, ch.burst, ch.checking, ch.short, ch.fcode, ch.faultReg⟩

/-- An update of a channel that leaves its power path leaves that of every channel. -/
theorem path_updCh {s : State} {c : Fin 16} {f : Chan → Chan} (h : pathOf (f s.ch[c]) = pathOf s.ch[c]) (d : Fin 16) :
    pathOf (s.updCh c f).ch[d] = pathOf s.ch[d] := by
  by_cases hd : d = c
  · rw [hd, ch_updCh_self, h]
  · rw [ch_updCh_other s f hd]

/-! ### Host measurements and programs leave the power path -/

section

variable (s : State) (c : Fin 16)

theorem abortMeas_path (d : Fin 16) : pathOf (abortMeas s c).ch[d] = pathOf s.ch[d] := by
  unfold abortMeas
  split
  case h_1 => rfl
  case h_2 => exact (congrArg (pathOf ·[d]) (reply_ch ..)).trans (path_updCh rfl d)
  case h_3 =>
    split
    · exact (congrArg (pathOf ·[d]) (reply_ch ..)).trans (path_updCh rfl d)
    · exact path_updCh rfl d
  case h_4 => exact (congrArg (pathOf ·[d]) (reply_ch ..)).trans (path_updCh rfl d)

theorem abortMeas_other {d : Fin 16} (h : d ≠ c) : (abortMeas s c).ch[d] = s.ch[d] := by
  unfold abortMeas
  split
  case h_1 => rfl
  case h_2 => exact (congrArg (·[d]) (reply_ch ..)).trans (ch_updCh_other s _ h)
  case h_3 =>
    split
    · exact (congrArg (·[d]) (reply_ch ..)).trans (ch_updCh_other s _ h)
    · exact ch_updCh_other s _ h
  case h_4 => exact (congrArg (·[d]) (reply_ch ..)).trans (ch_updCh_other s _ h)

/-- An update of one channel that leaves its power path. -/
def OffPath (c : Fin 16) (s t : State) : Prop := ∃ f : Chan → Chan, t.ch = vmod s.ch c f ∧ ∀ ch, pathOf (f ch) = pathOf ch

theorem OffPath.path {s t : State} {c : Fin 16} (h : OffPath c s t) (d : Fin 16) : pathOf t.ch[d] = pathOf s.ch[d] := by
  obtain ⟨f, hf, hpath⟩ := h
  rw [hf]
  exact path_updCh (s := s) (hpath _) d

theorem OffPath.other {s t : State} {c d : Fin 16} (h : OffPath c s t) (hd : d ≠ c) : t.ch[d] = s.ch[d] := by
  obtain ⟨f, hf, -⟩ := h
  rw [hf]
  exact ch_updCh_other s f hd

theorem OffPath.refl (c : Fin 16) (s : State) : OffPath c s s := ⟨id, (vmod_eq_self rfl).symm, fun _ => rfl⟩

theorem OffPath.trans {s t u : State} {c : Fin 16} (h : OffPath c s t) (k : OffPath c t u) : OffPath c s u := by
  obtain ⟨f, hf, hfpath⟩ := h
  obtain ⟨g, hg, hgpath⟩ := k
  exact ⟨g ∘ f, by rw [hg, hf, vmod_vmod], fun ch => (hgpath _).trans (hfpath ch)⟩

theorem OffPath.of_ch {s t : State} {c : Fin 16} (h : t.ch = s.ch) : OffPath c s t :=
  ⟨id, h.trans (vmod_eq_self rfl).symm, fun _ => rfl⟩

theorem OffPath.updCh (s : State) (c : Fin 16) {f : Chan → Chan} (h : ∀ ch, pathOf (f ch) = pathOf ch) : OffPath c s (s.updCh c f) :=
  ⟨f, rfl, h⟩

theorem OffPath.updProg (s : State) (c : Fin 16) (f : Prog → Prog) : OffPath c s (s.updProg c f) := .updCh s c fun _ => rfl

theorem OffPath.formRecord {s t : State} {c : Fin 16} (h : OffPath c s t) (d : Fin 16) (type flags : Nat)
    (payload : List Byte) : OffPath c s (formRecord t d type flags payload) := h

theorem OffPath.queueEvent {s t : State} {c : Fin 16} (h : OffPath c s t) (code : Nat) (params : List Byte) :
    OffPath c s (queueEvent t code params) := h.trans (.of_ch (queueEvent_ch ..))

theorem endProgram_offPath (reason : Nat) (incomplete : Bool) : OffPath c s (endProgram s c reason incomplete) := by
  unfold endProgram
  dsimp only
  exact .trans (.queueEvent (.queueEvent (.formRecord (.formRecord (.updProg s c _) ..) ..) ..) ..)
    (.updCh _ c fun _ => rfl)

theorem abortProgram_offPath (reason : Nat) : OffPath c s (abortProgram s c reason) := by
  unfold abortProgram
  split
  · exact endProgram_offPath (formEndRecords s c reason 0xFE) c reason true
  · exact .refl c s

end

/-! ### Moves and openings -/

section

variable (s : State) (c : Fin 16)

theorem leaveRestart_ch : (leaveRestart s c).ch = s.ch := rfl

theorem moveChannel_ch (n : ChState) : (moveChannel s c n).ch = vmod s.ch c fun ch => { ch with st := n } := by
  unfold moveChannel
  dsimp only
  split
  case isTrue h => exact (vmod_eq_self (by rw [← h])).symm
  case isFalse => exact queueEvent_ch ..

theorem openChannel_ch (f : Chan → Chan) : (openChannel s c f).ch = vmod s.ch c f := by
  unfold openChannel
  dsimp only
  split
  · exact queueEvent_ch ..
  · rfl

theorem sequenceEnds_ch : (sequenceEnds s c).ch = s.ch := rfl

/-- Forced opening is one update of the channel, after its host measurement has ended. -/
theorem forceOffChannel_ch : (forceOffChannel s c).ch =
    vmod (abortMeas s c).ch c fun ch => { ({ ch with st := .off } : Chan).forceOpen with checking := false } := by
  simp only [forceOffChannel, State.updCh_ch, openChannel_ch, moveChannel_ch, leaveRestart_ch, vmod_vmod]
  rfl

/-- Orderly opening is one update of the channel, after its host measurement has ended. -/
theorem offChannel_ch : (offChannel s c).ch =
    vmod (abortMeas s c).ch c fun ch => { ({ ch with st := .off } : Chan).orderlyOpen with checking := false } := by
  simp only [offChannel, State.updCh_ch, openChannel_ch, moveChannel_ch, leaveRestart_ch, vmod_vmod]
  rfl

theorem forceOffChannel_self : (forceOffChannel s c).ch[c] =
    { ({ (abortMeas s c).ch[c] with st := .off } : Chan).forceOpen with checking := false } := by
  rw [forceOffChannel_ch, vmod_same]

theorem offChannel_self : (offChannel s c).ch[c] =
    { ({ (abortMeas s c).ch[c] with st := .off } : Chan).orderlyOpen with checking := false } := by
  rw [offChannel_ch, vmod_same]

variable {d : Fin 16} (h : d ≠ c)
include h

theorem forceOffChannel_other : (forceOffChannel s c).ch[d] = s.ch[d] := by
  rw [forceOffChannel_ch, vmod_other _ _ h.symm, abortMeas_other s c h]

theorem offChannel_other : (offChannel s c).ch[d] = s.ch[d] := by
  rw [offChannel_ch, vmod_other _ _ h.symm, abortMeas_other s c h]

theorem moveChannel_other (n : ChState) : (moveChannel s c n).ch[d] = s.ch[d] := by
  rw [moveChannel_ch, vmod_other _ _ h.symm]

theorem runChannel_other : (runChannel s c).ch[d] = s.ch[d] := by
  rw [runChannel, ch_updCh_other _ _ h, sequenceEnds_ch, moveChannel_other s c h]

end

/-! ### Forced and orderly opening of a channel (R68) -/

/-- Forced opening: the gates go off at once, the disconnect follows. -/
theorem forceOffChannel_path (s : State) (c : Fin 16) : ((forceOffChannel s c).ch[c]).st = .off ∧
    ((forceOffChannel s c).ch[c]).gates = false ∧
    ((forceOffChannel s c).ch[c]).opening = (if (s.ch[c]).dsw then .forced else .none) ∧
    ((forceOffChannel s c).ch[c]).dsw = (s.ch[c]).dsw := by
  have hdsw : ((abortMeas s c).ch[c]).dsw = (s.ch[c]).dsw := congrArg PowerPath.dsw (abortMeas_path s c c)
  rw [forceOffChannel_self, ← hdsw]
  exact ⟨rfl, rfl, rfl, rfl⟩

section

variable {ch : Chan}

theorem orderlyOpen_st (ch : Chan) : ch.orderlyOpen.st = ch.st := by
  unfold Chan.orderlyOpen
  dsimp only
  split
  · rfl
  · split
    · split <;> rfl
    · rfl

theorem orderlyOpen_dsw (ch : Chan) : ch.orderlyOpen.dsw = ch.dsw := by
  unfold Chan.orderlyOpen
  dsimp only
  split
  · rfl
  · split
    · split <;> rfl
    · rfl

/-- With the disconnect open nothing has to open. -/
theorem orderlyOpen_of_open (h : ch.dsw = false) : ch.orderlyOpen.gates = false ∧ ch.orderlyOpen.opening = .none := by
  rw [Chan.orderlyOpen, if_pos h]
  exact ⟨rfl, rfl⟩

/-- A closed disconnect whose opening starts. -/
theorem orderlyOpen_starts (hdsw : ch.dsw = true) (hopen : ch.opening = .none ∨ ch.opening = .ramp) :
    ch.orderlyOpen.gates = (ch.gates && !ch.burst) ∧
    ch.orderlyOpen.opening = (if ch.gates || ch.checking then .orderly else .gatesOff) := by
  rw [Chan.orderlyOpen, if_neg (ne_false_of_eq_true hdsw), if_pos hopen]
  refine ⟨?_, rfl⟩
  cases ch.burst <;> simp [Chan.gatesOff]

/-- An opening that runs goes on. -/
theorem orderlyOpen_goes_on (hdsw : ch.dsw = true) (hnone : ch.opening ≠ .none) (hramp : ch.opening ≠ .ramp) :
    ch.orderlyOpen.opening = ch.opening := by
  rw [Chan.orderlyOpen, if_neg (ne_false_of_eq_true hdsw), if_neg (not_or.mpr ⟨hnone, hramp⟩)]

end

/-- Orderly opening, by the disconnect and by the opening that runs. -/
theorem offChannel_path (s : State) (c : Fin 16) :
    ((offChannel s c).ch[c]).st = .off ∧ ((offChannel s c).ch[c]).dsw = (s.ch[c]).dsw ∧
      ((s.ch[c]).dsw = true → (s.ch[c]).opening = .none ∨ (s.ch[c]).opening = .ramp →
        ((offChannel s c).ch[c]).gates = ((s.ch[c]).gates && !(s.ch[c]).burst) ∧
        ((offChannel s c).ch[c]).opening = (if (s.ch[c]).gates || (s.ch[c]).checking then .orderly else .gatesOff)) ∧
      ((s.ch[c]).dsw = true → (s.ch[c]).opening ≠ .none → (s.ch[c]).opening ≠ .ramp →
        ((offChannel s c).ch[c]).opening = (s.ch[c]).opening) ∧
      ((s.ch[c]).dsw = false → ((offChannel s c).ch[c]).gates = false ∧ ((offChannel s c).ch[c]).opening = .none) := by
  have hpath := abortMeas_path s c c
  have hdsw : ((abortMeas s c).ch[c]).dsw = (s.ch[c]).dsw := congrArg PowerPath.dsw hpath
  have hopening : ((abortMeas s c).ch[c]).opening = (s.ch[c]).opening := congrArg PowerPath.opening hpath
  have hgates : ((abortMeas s c).ch[c]).gates = (s.ch[c]).gates := congrArg PowerPath.gates hpath
  have hburst : ((abortMeas s c).ch[c]).burst = (s.ch[c]).burst := congrArg PowerPath.burst hpath
  have hcheck : ((abortMeas s c).ch[c]).checking = (s.ch[c]).checking := congrArg PowerPath.checking hpath
  rw [offChannel_self, ← hdsw, ← hopening, ← hgates, ← hburst, ← hcheck]
  generalize (abortMeas s c).ch[c] = ch
  exact ⟨orderlyOpen_st { ch with st := .off }, orderlyOpen_dsw { ch with st := .off },
    orderlyOpen_starts (ch := { ch with st := .off }), orderlyOpen_goes_on (ch := { ch with st := .off }),
    orderlyOpen_of_open (ch := { ch with st := .off })⟩

/-! ### FAULT (R66, R72) -/

theorem getLsbD_putBit_true {n : Nat} (m : BitVec n) {i : Nat} (h : i < n) : (putBit m i true).getLsbD i = true := by
  have hbit : (bitOf n i).getLsbD i = true := by
    rw [bitOf, BitVec.getLsbD_ofNat, Nat.testBit_two_pow_self, decide_eq_true h, Bool.true_and]
  rw [putBit, if_pos rfl, BitVec.getLsbD_or, hbit, Bool.or_true]

/-- A live channel enters FAULT with its cause and bit, its gates off and its short check ended. -/
theorem faultChannel_path {s : State} {c : Fin 16} {cause : Nat} (hmin : 1 ≤ cause) (hmax : cause ≤ 9) (hoff : (s.ch[c]).st ≠ .off)
    (hfault : (s.ch[c]).st ≠ .fault) :
    ((faultChannel s c cause).ch[c]).st = .fault ∧ ((faultChannel s c cause).ch[c]).gates = false ∧
      ((faultChannel s c cause).ch[c]).fcode = BitVec.ofNat 8 cause ∧
      ((faultChannel s c cause).ch[c]).faultReg.getLsbD (cause - 1) = true ∧
      ((faultChannel s c cause).ch[c]).short = none := by
  have hlive : ¬ ((s.ch[c]).st = .off ∨ (s.ch[c]).st = .fault) := not_or.mpr ⟨hoff, hfault⟩
  rw [faultChannel, if_neg hlive]
  dsimp only
  generalize hu : queueEvent (State.updCh _ c _) _ _ = u
  have hprog := (abortProgram_offPath u c (faultReason cause)).path c
  generalize (abortProgram u c (faultReason cause)).ch[c] = ch at hprog ⊢
  have hst : ch.st = (u.ch[c]).st := congrArg PowerPath.st hprog
  have hgates : ch.gates = (u.ch[c]).gates := congrArg PowerPath.gates hprog
  have hcode : ch.fcode = (u.ch[c]).fcode := congrArg PowerPath.fcode hprog
  have hreg : ch.faultReg = (u.ch[c]).faultReg := congrArg PowerPath.faultReg hprog
  have hshort : ch.short = (u.ch[c]).short := congrArg PowerPath.short hprog
  rw [hst, hgates, hcode, hreg, hshort, ← hu, queueEvent_ch, ch_updCh_self, openChannel_ch, vmod_same, moveChannel_ch, vmod_same]
  exact ⟨rfl, rfl, rfl, getLsbD_putBit_true _ (by omega), rfl⟩

/-- Settles O30. -/
theorem channelTransitions : Obligations.ChannelTransitions := fun s c =>
  ⟨forceOffChannel_path s c, offChannel_path s c, fun _ hmin hmax hoff hfault => faultChannel_path hmin hmax hoff hfault,
    fun _ n h => ⟨forceOffChannel_other s c h, offChannel_other s c h, moveChannel_other s c h n, runChannel_other s c h⟩⟩

end Sys2Proof.Safety

/-! Events of the power channels: CHECK, the short check, foldback, burst trickle, the balance trim and the ends of an
opening (O31). -/
namespace Sys2Proof.Safety
open Sys2Proof.Machine

/-! ### CHECK (R66, R70) -/

section

variable {s : State}

/-- Every step of CHECK passes every member. -/
theorem checkOutcome_pass {l : List (Fin 16 × CheckMeas)}
    (hl : ∀ x ∈ l, 0 ≤ x.2.vs ∧ -100000000 ≤ x.2.dN ∧ x.2.dP ≤ 100000000 ∧ (500000000 < x.2.vs → 20000000 ≤ (x.2.vf - x.2.vs).natAbs))
    (hcontact : ∀ x ∈ l, contactFail s x.1 x.2 = false) (hne : l ≠ []) : checkOutcome s l = .pass := by
  have hpol : l.filter (fun x => polarityFail x.2) = [] :=
    List.filter_eq_nil_iff.mpr fun x hx => by have := (hl x hx).1; simp [polarityFail]; omega
  have hopen (x) (hx : x ∈ l) : (checkOpenP x.2 || checkOpenN x.2) = false := by
    obtain ⟨-, hN, hP, -⟩ := hl x hx
    simp [checkOpenP, checkOpenN]
    omega
  have hall : ¬ (l.all fun x => checkOpenP x.2 && checkOpenN x.2) = true := by
    obtain ⟨x, hx⟩ := List.exists_mem_of_ne_nil l hne
    intro h
    have hboth := List.all_eq_true.mp h x hx
    have hnone := hopen x hx
    simp_all
  have hopn : l.filter (fun x => checkOpenP x.2 || checkOpenN x.2) = [] :=
    List.filter_eq_nil_iff.mpr fun x hx => ne_true_of_eq_false (hopen x hx)
  have hdis : l.filter (fun x => disconnectFail x.2) = [] :=
    List.filter_eq_nil_iff.mpr fun x hx => by
      have := (hl x hx).2.2.2
      simp [disconnectFail, checkCompares]
      omega
  have hfind : (l.find? fun x => contactFail s x.1 x.2) = none :=
    List.find?_eq_none.mpr fun x hx => ne_true_of_eq_false (hcontact x hx)
  simp only [checkOutcome, hpol, hall, hopn, hdis, hfind, ne_eq, not_true_eq_false, if_false, Bool.false_eq_true]

/-- Both sense leads of every member are open. -/
theorem checkOutcome_noCell {l : List (Fin 16 × CheckMeas)}
    (hl : ∀ x ∈ l, 0 ≤ x.2.vs ∧ x.2.dN < -100000000 ∧ 100000000 < x.2.dP) : checkOutcome s l = .noCell := by
  have hpol : l.filter (fun x => polarityFail x.2) = [] :=
    List.filter_eq_nil_iff.mpr fun x hx => by have := (hl x hx).1; simp [polarityFail]; omega
  have hall : (l.all fun x => checkOpenP x.2 && checkOpenN x.2) = true :=
    List.all_eq_true.mpr fun x hx => by
      obtain ⟨-, hN, hP⟩ := hl x hx
      simp [checkOpenP, checkOpenN, hN, hP]
  simp only [checkOutcome, hpol, hall, ne_eq, not_true_eq_false, if_false, if_true]

variable {c : Fin 16} {m : List CheckMeas}

/-- A CHECK of all members of the gang ends with its outcome. -/
theorem checkEnds_outcome (hlen : (members s c).length = m.length)
    (hms : ∀ d ∈ members s c, (s.ch[d]).checking = true ∧ (s.ch[d]).opening = .none) :
    checkEnds c m s = match checkOutcome s (List.zip (members s c) m) with
      | .pass => pauseAfterCheck ((List.zip (members s c) m).foldl passMember s) (leaderOf s c)
      | .noCell => (List.zip (members s c) m).foldl noCellMember (abortProgram s (leaderOf s c) 0x21)
      | .fail f => failMembers s (List.zip (members s c) m) f := by
  have hready : ¬ ((members s c).any fun d => !(s.ch[d]).checking || (s.ch[d]).opening != .none) = true := by
    rw [Bool.not_eq_true, List.any_eq_false]
    intro d hd
    obtain ⟨hcheck, hopening⟩ := hms d hd
    rw [hcheck, hopening]
    decide
  rw [checkEnds]
  exact if_neg (not_or.mpr ⟨not_not_intro hlen, hready⟩)

theorem zip_measurements {P : CheckMeas → Prop} {l : List (Fin 16)} (h : ∀ x ∈ m, P x) :
    ∀ x ∈ List.zip l m, P x.2 := fun _ hx => h _ (List.of_mem_zip hx).2

theorem mem_members (s : State) (c : Fin 16) : c ∈ members s c :=
  List.mem_filter.mpr ⟨List.mem_finRange c, beq_self_eq_true _⟩

theorem zip_members_ne_nil (hlen : (members s c).length = m.length) : List.zip (members s c) m ≠ [] := by
  have hpos : 0 < (members s c).length := List.length_pos_of_mem (mem_members s c)
  exact List.ne_nil_of_length_pos (by rw [List.length_zip]; omega)

end

/-! ### The short check (R71) -/

section

variable {s : State} {c : Fin 16} {x : ShortCheck}

theorem shortCheck_risen (h : (s.ch[c]).short = some x) (hv : x.vs + 20000 < (s.ch[c]).vS) :
    shortCheck c s = s.updCh c fun ch => { ch with short := none } := by
  rw [shortCheck, h]
  exact if_pos hv

theorem shortCheck_charged (h : (s.ch[c]).short = some x) (hv : (s.ch[c]).vS ≤ x.vs + 20000)
    (hq : (bits (s.ch[c]).chkcfg 8 8 : Int) * 100000 * 2 ^ 32 ≤ (s.ch[c]).q - x.q) : shortCheck c s = faultGang s c 5 := by
  rw [shortCheck, h]
  exact (if_neg (by omega)).trans (if_pos hq)

/-! ### Foldback and burst trickle (R57, R58) -/

theorem foldUpdate_below {td : Nat} (hgates : (s.ch[c]).gates = true) (hburst : (s.ch[c]).burst = false)
    (h : foldNext (s.ch[c]).feff (bits (s.ch[c]).fswF 0 9) td < bits (s.ch[c]).fswF 0 9) :
    foldUpdate c td s =
      let t := s.updCh c fun ch => { ch with feff := foldNext (s.ch[c]).feff (bits (s.ch[c]).fswF 0 9) td }
      if (s.ch[c]).fold then t else foldEntry t c := by
  rw [foldUpdate, hgates, hburst]
  exact if_pos h

theorem foldUpdate_full {td : Nat} (hgates : (s.ch[c]).gates = true) (hburst : (s.ch[c]).burst = false)
    (h : bits (s.ch[c]).fswF 0 9 ≤ foldNext (s.ch[c]).feff (bits (s.ch[c]).fswF 0 9) td) :
    foldUpdate c td s =
      (s.updCh c fun ch => { ch with feff := foldNext (s.ch[c]).feff (bits (s.ch[c]).fswF 0 9) td }).updCh c
        fun ch => { ch with fold := false } := by
  rw [foldUpdate, hgates, hburst]
  exact if_neg (Nat.not_lt.mpr h)

theorem burstEntry_start {td : Nat} (hrun : (s.ch[c]).st = .run) (hgates : (s.ch[c]).gates = true) (hburst : (s.ch[c]).burst = false)
    (hneg : (s.ch[c]).neg = false) (hfloor : (s.ch[c]).feff = 40) (h : td < 60000) : burstEntry c td s = burstStart s c :=
  if_pos ⟨hrun, hgates, hburst, hneg, hfloor, h⟩

/-- An update of a channel depends on its value at that channel alone. -/
theorem updCh_congr {f g : Chan → Chan} (h : f s.ch[c] = g s.ch[c]) : s.updCh c f = s.updCh c g :=
  congrArg (fun v => { s with ch := v }) (by rw [vmod, vmod, h])

theorem burstLeave_regulates (hburst : (s.ch[c]).burst = true) (h : 10 ≤ (s.ch[c]).burstAbove) (hgates : (s.ch[c]).gates = true) :
    burstLeave c s = foldEntry (queueEvent
      (s.updCh c fun ch => { ch with burst := false, feff := 40, burstAbove := 0 }) 0x0206 (p1 c.val)) c := by
  simp only [burstLeave, if_pos (And.intro hburst h), if_pos hgates]
  exact congrArg (fun t => foldEntry (queueEvent t 0x0206 (p1 c.val)) c)
    (updCh_congr (congrArg (fun x => { s.ch[c] with burst := false, feff := x, burstAbove := 0 }) (if_pos hgates)))

theorem burstLeave_gatesOff (hburst : (s.ch[c]).burst = true) (h : 10 ≤ (s.ch[c]).burstAbove) (hgates : (s.ch[c]).gates = false) :
    burstLeave c s = queueEvent
      (s.updCh c fun ch => { ch with burst := false, feff := 0, burstAbove := 0 }) 0x0206 (p1 c.val) := by
  have hoff := ne_true_of_eq_false hgates
  simp only [burstLeave, if_pos (And.intro hburst h), if_neg hoff]
  exact congrArg (queueEvent · 0x0206 (p1 c.val))
    (updCh_congr (congrArg (fun x => { s.ch[c] with burst := false, feff := x, burstAbove := 0 }) (if_neg hoff)))

/-! ### The balance trim and the ends of an opening (R53, R54, R68) -/

theorem legImbalanced_limit (hgates : (s.ch[c]).gates = true) (hcfg : (s.ch[c]).cfg.getLsbD 2 = true)
    (hburst : (s.ch[c]).burst = false) (hlegs : (runningLegs s c).length = 2) (pos : Bool) :
    legImbalanced c pos s =
      let t := s.updCh c fun ch => { ch with trim := if pos then 300 else -300, imbal := true, imbalEpochs := 0 }
      if (s.ch[c]).imbal then t else queueEvent t 0x0207 (p1 c.val ++ p4 (if pos then 300 else -300)) :=
  if_pos ⟨hgates, hcfg, hburst, hlegs⟩

/-- Switching the gates off in an opening ends burst trickle, and tells it. -/
theorem openChannel_gatesOff (o : Opening) :
    openChannel s c (fun ch => { ch.gatesOff with opening := o }) =
      let u := s.updCh c fun ch => { ch.gatesOff with opening := o }
      if (s.ch[c]).burst = true then queueEvent u 0x0206 (p1 c.val) else u := by
  have hoff : ((s.updCh c fun ch => { ch.gatesOff with opening := o }).ch[c]).burst = false := by
    rw [ch_updCh_self]
    rfl
  rw [openChannel, hoff, Bool.not_false, Bool.and_true]

theorem orderlyGatesOff_orderly (h : (s.ch[c]).opening = .orderly) :
    orderlyGatesOff c s = openChannel s c fun ch => { ch.gatesOff with opening := .gatesOff } := by
  rw [orderlyGatesOff, h]

theorem orderlyGatesOff_ramp (h : (s.ch[c]).opening = .ramp) :
    orderlyGatesOff c s = sequenceEnds (openChannel s c fun ch => { ch.gatesOff with opening := .none }) c := by
  rw [orderlyGatesOff, h]

theorem disconnectOpens_end (h : (s.ch[c]).opening = .gatesOff ∨ (s.ch[c]).opening = .forced) :
    disconnectOpens c s = sequenceEnds (s.updCh c fun ch => { ch with opening := .none, dsw := false }) c := by
  obtain h | h := h
  · rw [disconnectOpens, h]
  · rw [disconnectOpens, h]

end

/-- Settles O31: each event in the situation that its rule names. -/
theorem channelEventsComplete : Obligations.ChannelEventsComplete := by
  intro s c
  refine ⟨fun m hlen hms hm hcontact => ?_, fun m hlen hms hm => ?_, fun m f hlen hms hout => ?_, fun x hx => ⟨?_, ?_⟩,
    fun td f hgates hburst hf => ⟨?_, ?_, ?_⟩, ?_, fun hburst h => ⟨?_, ?_⟩, ?_, ?_, ?_⟩
  · refine congrArg _ ((checkEnds_outcome hlen hms).trans ?_)
    rw [checkOutcome_pass (zip_measurements hm) hcontact (zip_members_ne_nil hlen)]
  · refine congrArg _ ((checkEnds_outcome hlen hms).trans ?_)
    rw [checkOutcome_noCell (zip_measurements hm)]
  · refine congrArg _ ((checkEnds_outcome hlen hms).trans ?_)
    rw [hout]
  · exact fun hv => congrArg _ (shortCheck_risen hx hv)
  · exact fun hv hq => congrArg _ (shortCheck_charged hx hv hq)
  · subst hf
    exact fun h hfold => congrArg _ ((foldUpdate_below hgates hburst h).trans (if_pos hfold))
  · subst hf
    exact fun h hfold => congrArg _ ((foldUpdate_below hgates hburst h).trans (if_neg (ne_true_of_eq_false hfold)))
  · subst hf
    exact fun h => congrArg _ (foldUpdate_full hgates hburst h)
  · exact fun td hrun hgates hburst hneg hfloor h => congrArg _ (burstEntry_start hrun hgates hburst hneg hfloor h)
  · exact fun hgates => congrArg _ (burstLeave_regulates hburst h hgates)
  · exact fun hgates => congrArg _ (burstLeave_gatesOff hburst h hgates)
  · rintro pos hgates hcfg hburst hlegs t rfl
    exact congrArg _ (legImbalanced_limit hgates hcfg hburst hlegs pos)
  · rintro o u rfl v rfl
    refine ⟨?_, ?_⟩
    · rintro h rfl
      exact congrArg _ ((orderlyGatesOff_orderly h).trans (openChannel_gatesOff _))
    · rintro h rfl
      exact congrArg _ ((orderlyGatesOff_ramp h).trans (congrArg (sequenceEnds · c) (openChannel_gatesOff _)))
  · exact fun h => congrArg _ (disconnectOpens_end h)

end Sys2Proof.Safety

/-! Short-circuit trips, the restart interval, the bootstrap supply and the interlock (O32, O33). -/
namespace Sys2Proof.Safety
open Sys2Proof.Machine

/-! ### Trips and the restart interval (R86 to R93) -/

section

variable {s : State}

/-- A leg that switches, or whose comparators work, takes a trip. -/
theorem scTrip_taken {l : Fin 32} (h : switching s.ch[chanOfLeg l] = true ∨ comparatorsWork s = true) (hard : Bool) (mA : Int) :
    scTrip l hard mA s =
      let t := queueEvent (s.updLeg l fun x =>
        { x.flagEvt (if hard then 4 else 3) with tkind := if hard then 2 else 1, scn := satInc 8 x.scn })
        0x0302 (p1 l.val ++ p1 (if hard then 2 else 1) ++ p4 mA)
      if recentSuspect s l then stageFault t [chanOfLeg l]
      else joinRestart t (groupOf (chanOfLeg l)) (legMask (members t (chanOfLeg l))) (bitOf 8 (legIndex l).val) := by
  have hon : ¬ (!(switching s.ch[chanOfLeg l] || comparatorsWork s)) = true := by
    rw [(Bool.or_eq_true ..).mpr h]
    exact Bool.false_ne_true
  exact if_neg hon

/-- A group whose switches or comparators are on takes a group trip. -/
theorem scGroupTrip_taken {g : Fin 4} (h : (chansOf g).any (fun c => switching s.ch[c]) = true ∨ comparatorsWork s = true)
    (hard : Bool) (tripped on : BitVec 8) :
    scGroupTrip g hard tripped on s =
      let ident := identifiedLegs tripped on
      let suspect := if ident = 0 then 0xFF else ident
      stageFault (joinRestart (queueEvent
        ((bitList suspect).foldl (fun s i => s.updLeg (groupLeg g i) fun x =>
          { x.flagEvt (if hard then 6 else 5) with tkind := if hard then 4 else 3, scn := satInc 8 x.scn }) s)
        0x0303 (p1 g.val ++ p1 (if hard then 4 else 3)
          ++ p1 (match (bitList ident).head? with | some i => (groupLeg g i).val | none => 0xFF))) g 0xFF suspect)
        (((bitList suspect).filter fun i => recentSuspect s (groupLeg g i)).map fun i => chanOfLeg (groupLeg g i)) := by
  have hon : ¬ (!(((chansOf g).any fun c => switching s.ch[c]) || comparatorsWork s)) = true := by
    rw [(Bool.or_eq_true ..).mpr h]
    exact Bool.false_ne_true
  exact if_neg hon

theorem restartDecay_some {g : Fin 4} {r : Restart} (h : (s.grp[g]).restart = some r) (above : BitVec 8) :
    restartDecay g above s = probeFail s ((bitList (above &&& r.legs)).map (groupLeg g)) 3 := by
  rw [restartDecay, h]

theorem restartHoldoff_probes {g : Fin 4} {r : Restart} (h : (s.grp[g]).restart = some r) (hp : r.probing = false)
    (f : Vector Nat 8) :
    restartHoldoff g f s = ((List.finRange 8).foldl (probeLeg g f) s).updGrp g fun gr =>
      { gr with restart := gr.restart.map fun r => { r with suspect := 0, probing := true } } := by
  rw [restartHoldoff, h]
  exact if_neg (ne_true_of_eq_false hp)

end

/-- Settles O32: by the equation of each event in its situation. -/
theorem tripsComplete : Obligations.TripsComplete := by
  intro s
  refine ⟨?_, ?_, ?_, fun ls => rfl, ?_⟩
  · rintro l hard mA t hon rfl
    exact ⟨fun h => congrArg _ ((scTrip_taken hon hard mA).trans (if_neg (ne_true_of_eq_false h))),
      fun h => congrArg _ ((scTrip_taken hon hard mA).trans (if_pos h))⟩
  · rintro g hard tripped on ident suspect hon rfl rfl
    exact congrArg _ (scGroupTrip_taken hon hard tripped on)
  · exact fun g above r h => congrArg _ (restartDecay_some h above)
  · exact fun g f r h hp => congrArg Host.Outcome.next (restartHoldoff_probes h hp f)

/-! ### Bootstrap supply, interlock and supervision (R82 to R85, R94, R104, R115, R117) -/

theorem queueOnce_leg (s : State) (code idx : Nat) (p : List Byte) : (queueOnce s code idx p).leg = s.leg :=
  (queueOnce_same (pm := 640) rfl (.refl 640 s)).leg.resolve_left (by decide)

section

variable {s : State} {l : Fin 32}

theorem leg_updLeg_self (f : Leg → Leg) : (s.updLeg l f).leg[l] = f s.leg[l] := vmod_same ..

theorem updLeg_congr {f g : Leg → Leg} (h : f s.leg[l] = g s.leg[l]) : s.updLeg l f = s.updLeg l g :=
  congrArg (fun v => { s with leg := v }) (by rw [vmod, vmod, h])

/-- A trip during a two-step turn-off of its leg is ignored. -/
theorem bootstrapTrip_softOff (n : Nat) : bootstrapTrip l true n s = s := rfl

/-- A bootstrap trip flags the leg, limits its duty and is told. -/
def bootstrapTold (s : State) (l : Fin 32) (run : Nat) : State :=
  let u := queueOnce (s.updLeg l fun x => { x.flagEvt 1 with buv := true, dlim := true, buvRun := run }) 0x0304 l.val (p1 l.val)
  if (s.leg[l]).dlim then u else queueEvent u 0x0305 (p1 l.val)

theorem bootstrapTold_buvRun (run : Nat) : ((bootstrapTold s l run).leg[l]).buvRun = run := by
  have hleg : (bootstrapTold s l run).leg = (s.updLeg l fun x => { x.flagEvt 1 with buv := true, dlim := true, buvRun := run }).leg := by
    unfold bootstrapTold
    dsimp only
    split
    · exact queueOnce_leg ..
    · rw [queueEvent_leg, queueOnce_leg]
  rw [hleg, leg_updLeg_self]

/-- A trip of a leg that switches; the third in succession parks the leg. -/
theorem bootstrapTrip_taken (hon : switching s.ch[chanOfLeg l] = true) (hpark : (s.leg[l]).parked = false) (n : Nat) :
    bootstrapTrip l false n s =
      let t := bootstrapTold s l (nextRun (s.leg[l]).buvRun n)
      if 3 ≤ nextRun (s.leg[l]).buvRun n then bootstrapPark t l else t := by
  have hact : ¬ (false || !(switching s.ch[chanOfLeg l]) || (s.leg[l]).parked) = true := by
    rw [hon, hpark]
    exact Bool.false_ne_true
  have htold : bootstrapTold s l (nextRun (s.leg[l]).buvRun n) =
      let u := queueOnce (s.updLeg l fun x =>
        { x.flagEvt 1 with buv := true, dlim := true, buvRun := nextRun x.buvRun n }) 0x0304 l.val (p1 l.val)
      if !(s.leg[l]).dlim then queueEvent u 0x0305 (p1 l.val) else u := by
    rw [updLeg_congr (f := fun x => { x.flagEvt 1 with buv := true, dlim := true, buvRun := nextRun x.buvRun n })
      (g := fun x => { x.flagEvt 1 with buv := true, dlim := true, buvRun := nextRun (s.leg[l]).buvRun n }) rfl]
    unfold bootstrapTold
    cases (s.leg[l]).dlim <;> rfl
  have hrun := bootstrapTold_buvRun (s := s) (l := l) (nextRun (s.leg[l]).buvRun n)
  rw [bootstrapTrip, if_neg hact]
  dsimp only at htold ⊢
  rw [← htold, hrun]

theorem bootstrapStretch_refresh (hgates : (s.ch[chanOfLeg l]).gates = true) (hrestart : (s.leg[l]).restart = false)
    (hpark : (s.leg[l]).parked = false) : bootstrapStretch l s = s.updLeg l fun x => { x with stretch := true } := by
  rw [bootstrapStretch, hgates, hrestart, hpark]
  rfl

theorem interlockHit_counts (s : State) (l : Fin 32) : interlockHit l s =
    queueOnce (s.updLeg l fun x => { x.flagEvt 0 with ilk := satInc 16 x.ilk }) 0x0307 l.val
      (p1 l.val ++ p4 (satInc 16 (s.leg[l]).ilk)) := by
  rw [interlockHit]
  dsimp only
  rw [leg_updLeg_self]

theorem fin_eq_or_ne {n : Nat} (a b : Fin n) : a = b ∨ a ≠ b := Decidable.em _

/-- An update of a channel leaves what it keeps of every channel. -/
theorem ch_updCh_keeps {α : Type} (π : Chan → α) {f : Chan → Chan} (hf : ∀ ch, π (f ch) = π ch) (c d : Fin 16) :
    π (s.updCh c f).ch[d] = π s.ch[d] := by
  obtain rfl | hne := fin_eq_or_ne d c
  · rw [ch_updCh_self, hf]
  · rw [ch_updCh_other s f hne]

variable {c : Fin 16}

theorem loopSatEvent_bound (h : 10 ≤ (s.ch[c]).satRun) (hnew : (s.ch[c]).isat = false) :
    loopSatEvent c s = queueEvent (s.updCh c fun ch => { ch with isat := true }) 0x020B (p1 c.val) := if_pos ⟨h, hnew⟩

/-- A check of a channel in RUN that has failed long enough, and that its leader does not show yet. -/
theorem implausibleEvent_new {k : Fin 4} (hrun : (s.ch[c]).st = .run)
    (hsup : bits (s.ch[leaderOf s c]).supcfg 8 8 ≤ (s.ch[c]).sup[k])
    (himpl : (s.ch[leaderOf s c]).implc.getLsbD (implBit k) = false) :
    implausibleEvent c k s =
      let u := addCause (queueEvent
        (s.updCh (leaderOf s c) fun ch => { ch with impl := true, implc := putBit ch.implc (implBit k) true })
        0x020A (p1 c.val ++ p1 k.val ++ p4 ((s.ch[c]).res[k]))) (leaderOf s c) hcImplausible
      if k = 1 then legConvFault (accusedLeg u c).2 (accusedLeg u c).1 else u := by
  have hnew : ¬ ((s.ch[c]).st ≠ .run ∨ (s.ch[c]).sup[k] < bits (s.ch[leaderOf s c]).supcfg 8 8 ∨
      (s.ch[leaderOf s c]).implc.getLsbD (implBit k) = true) :=
    not_or.mpr ⟨not_not_intro hrun, not_or.mpr ⟨Nat.not_lt.mpr hsup, ne_true_of_eq_false himpl⟩⟩
  have hres := ch_updCh_keeps (s := s) (·.res)
    (f := fun ch => { ch with impl := true, implc := putBit ch.implc (implBit k) true }) (fun _ => rfl) (leaderOf s c) c
  rw [implausibleEvent]
  dsimp only at hres ⊢
  rw [if_neg hnew, hres]

end

/-- Settles O33: by the equation of each event in its situation. -/
theorem legSupervisionCompletes : Obligations.LegSupervisionCompletes := by
  intro s l c
  refine ⟨?_, rfl, ?_, ?_, ?_, ?_⟩
  · intro soft n hon hpark
    refine ⟨?_, ?_⟩
    · rintro rfl
      exact congrArg _ (bootstrapTrip_softOff (l := l) n)
    · rintro r u t rfl rfl rfl rfl
      exact ⟨fun h => congrArg _ ((bootstrapTrip_taken hon hpark n).trans (if_neg (Nat.not_le.mpr h))),
        fun h => congrArg _ ((bootstrapTrip_taken hon hpark n).trans (if_pos h))⟩
  · exact fun hgates hrestart hpark => congrArg _ (bootstrapStretch_refresh hgates hrestart hpark)
  · exact congrArg _ (interlockHit_counts s l)
  · exact fun h hnew => congrArg _ (loopSatEvent_bound h hnew)
  · rintro k d u rfl hrun hsup himpl rfl
    exact congrArg Host.Outcome.next (implausibleEvent_new hrun hsup himpl)

end Sys2Proof.Safety

/-! Faults of engines and islands (O34). -/
namespace Sys2Proof.Safety
open Sys2Proof.Machine

/-! ### Faults of engines and islands (R14, R38, R39, R41, R120, R362) -/

section

variable {s : State}

theorem lockstepMismatch_counts {k : Fin 5} (hrun : epochsRun s = true) (hrole : (s.ce[k]).role ≠ .retired)
    (hup : islandDown s k.val = false) :
    lockstepMismatch k s = engineFails (abandonBist (s.updCe k fun c => { c with mism := satInc 8 c.mism }) k) k := by
  have hworks : ¬ (!epochsRun s || (s.ce[k]).role == .retired || islandDown s k.val) = true := by
    rw [hrun, hup, beq_false_of_ne hrole]
    decide
  exact if_neg hworks

/-- The island restarts from its checkpoint. -/
def restartsIsland (s : State) (i : Fin 14) : State :=
  { s with sys := { s.sys with islDown := putBit s.sys.islDown i.val true } }

/-- The loss of the PLL of an island that is up. -/
theorem pllLost_up {i : Fin 14} (hrun : epochsRun s = true) (hpll : hasPll i = true) (hup : islandDown s i.val = false) :
    pllLost i s =
      if hasStandby i then queueEvent s 0x0104 (p1 i.val ++ p1 1)
      else if h : i.val < 5 then
        engineFails (abandonBist (queueEvent (restartsIsland s i) 0x0104
          (p1 i.val ++ p1 (if (s.ce[(⟨i.val, h⟩ : Fin 5)]).role == .owner then 3 else 2))) ⟨i.val, h⟩) ⟨i.val, h⟩
      else queueEvent (if i = 10 then cutFrames (restartsIsland s i) else restartsIsland s i) 0x0104 (p1 i.val ++ p1 2) := by
  have hworks : ¬ (!epochsRun s || !hasPll i || islandDown s i.val) = true := by
    rw [hrun, hpll, hup]
    decide
  exact if_neg hworks

theorem pllLost_standby {i : Fin 14} (hrun : epochsRun s = true) (hi : i ∈ [5, 6, 7, 12]) (hup : islandDown s i.val = false) :
    pllLost i s = queueEvent s 0x0104 (p1 i.val ++ p1 1) := by
  have hkind : hasPll i = true ∧ hasStandby i = true := by
    clear hup
    revert i
    decide
  exact (pllLost_up hrun hkind.1 hup).trans (if_pos hkind.2)

theorem pllLost_engine {i : Fin 14} (hrun : epochsRun s = true) (h : i.val < 5) (hup : islandDown s i.val = false) :
    pllLost i s = engineFails (abandonBist (queueEvent (restartsIsland s i) 0x0104
      (p1 i.val ++ p1 (if (s.ce[(⟨i.val, h⟩ : Fin 5)]).role = .owner then 3 else 2))) ⟨i.val, h⟩) ⟨i.val, h⟩ := by
  have hkind : hasPll i = true ∧ hasStandby i = false := by
    clear hup
    revert i
    decide
  rw [pllLost_up hrun hkind.1 hup, if_neg (ne_true_of_eq_false hkind.2), dif_pos h]
  simp only [beq_iff_eq]

theorem pllLost_restart {i : Fin 14} (hrun : epochsRun s = true) (hi : i ∈ [9, 10, 11]) (hup : islandDown s i.val = false) :
    pllLost i s =
      queueEvent (if i = 10 then cutFrames (restartsIsland s i) else restartsIsland s i) 0x0104 (p1 i.val ++ p1 2) := by
  have hkind : hasPll i = true ∧ hasStandby i = false ∧ ¬ i.val < 5 := by
    clear hup
    revert i
    decide
  obtain ⟨hpll, hstandby, hce⟩ := hkind
  rw [pllLost_up hrun hpll hup, if_neg (ne_true_of_eq_false hstandby), dif_neg hce]

theorem sequencerDiverges_counts (hrun : epochsRun s = true) :
    sequencerDiverges s =
      let t := { s with sys := { s.sys with recovering := true }, sticky := { s.sticky with seqr := satInc 8 s.sticky.seqr } }
      if recoveringGroups s ≠ [] ∨ logDamaged s 7 = true then (recoveringGroups t).foldl holdGroup t else t := by
  have hsecond : (!(recoveringGroups s).isEmpty || logDamaged s 7) = true ↔
      recoveringGroups s ≠ [] ∨ logDamaged s 7 = true := by
    rw [Bool.or_eq_true, Bool.not_eq_true', List.isEmpty_eq_false_iff]
  rw [sequencerDiverges, if_pos hrun]
  dsimp only
  exact ite_congr (propext hsecond) (fun _ => rfl) (fun _ => rfl)

theorem pllLost_rackbus (hrun : epochsRun s = true) (hup : islandDown s 10 = false) :
    pllLost 10 s = queueEvent (cutFrames (restartsIsland s 10)) 0x0104 (p1 10 ++ p1 2) :=
  (pllLost_restart hrun (i := 10) (by decide) hup).trans
    (congrArg (queueEvent · 0x0104 (p1 10 ++ p1 2)) (if_pos rfl))

/-- An island that restarts counts; the DMA island goes back to its checkpoint. -/
theorem islandRestarted_counts {i : Fin 14} (hdown : islandDown s i.val = true) :
    islandRestarted i s =
      let t := { s with sys := { s.sys with islDown := putBit s.sys.islDown i.val false }
                        sticky := { s.sticky with islr := satInc 8 s.sticky.islr } }
      if i = 11 then restartDma t else t := if_pos hdown

theorem replayDone_ready {g : Fin 4} {x : Castle} (hx : (s.grp[g]).castle = some x)
    (h : x.planned = true ∨ ∀ k, x.fromCe = some k → logDamaged s k.val = false) :
    replayDone g s = s.updGrp g fun gr => { gr with castle := gr.castle.map fun y => { y with ready := true } } := by
  rw [replayDone, hx]
  dsimp only
  cases hk : x.fromCe with
  | none => rfl
  | some k =>
    refine if_neg ?_
    obtain hp | hlog := h
    · rw [hp]
      exact Bool.false_ne_true
    · rw [hlog k hk, Bool.and_false]
      exact Bool.false_ne_true

theorem replayDone_damaged {g : Fin 4} {x : Castle} {k : Fin 5} (hx : (s.grp[g]).castle = some x) (hp : x.planned = false)
    (hk : x.fromCe = some k) (hlog : logDamaged s k.val = true) :
    replayDone g s =
      holdGroup (s.updGrp g fun gr => { gr with castle := gr.castle.map fun y => { y with ready := true } }) g := by
  rw [replayDone, hx]
  dsimp only
  rw [hk, hp]
  exact if_pos hlog

theorem sequencerRecovered_told (h : s.sys.recovering = true) (n : Nat) :
    sequencerRecovered n s = queueEvent { s with sys := { s.sys with recovering := false } } 0x0103 (p4 n) := if_pos h

end

/-- Settles O34: each event in the situation of its rule. -/
theorem islandEventsComplete : Obligations.IslandEventsComplete := by
  intro s
  refine ⟨fun hrun => ⟨?_, ?_, ?_, ?_, ?_, ?_⟩, ?_, ?_, ?_, ?_⟩
  · exact fun k hrole hup => congrArg Host.Outcome.next (lockstepMismatch_counts hrun hrole hup)
  · exact fun i hi hup => congrArg Host.Outcome.next (pllLost_standby hrun hi hup)
  · rintro i h d hup rfl
    exact congrArg Host.Outcome.next (pllLost_engine hrun h hup)
  · intro i hi hup
    have hmem : i ∈ [9, 10, 11] ∧ i ≠ 10 := by
      clear hup
      revert i
      decide
    exact congrArg Host.Outcome.next ((pllLost_restart hrun hmem.1 hup).trans
      (congrArg (queueEvent · 0x0104 (p1 i.val ++ p1 2)) (if_neg hmem.2)))
  · exact fun hup => congrArg Host.Outcome.next (pllLost_rackbus hrun hup)
  · rintro t rfl
    exact ⟨fun hnone hlog => congrArg Host.Outcome.next ((sequencerDiverges_counts hrun).trans
        (if_neg (not_or.mpr ⟨not_not_intro hnone, ne_true_of_eq_false hlog⟩))),
      fun h => congrArg Host.Outcome.next ((sequencerDiverges_counts hrun).trans (if_pos h))⟩
  · exact fun i hi hdown => congrArg Host.Outcome.next ((islandRestarted_counts hdown).trans (if_neg hi))
  · exact fun hdown => congrArg Host.Outcome.next ((islandRestarted_counts (i := 11) hdown).trans (if_pos rfl))
  · rintro g x t hx rfl
    exact ⟨fun h => congrArg Host.Outcome.next (replayDone_ready hx h), fun k hp hk hlog => congrArg Host.Outcome.next (replayDone_damaged hx hp hk hlog)⟩
  · exact fun n h => congrArg Host.Outcome.next (sequencerRecovered_told h n)

end Sys2Proof.Safety

/-! Castling, the crossbar and the reference words (O35 to O37). -/
namespace Sys2Proof.Safety
open Sys2Proof.Machine

/-! ### Castling and the logic BIST of the spare (R40, R119, R121, R394, R395) -/

section

variable {s : State} {k r : Fin 5} {g : Fin 4}

/-- A due planned castling moves the group of the chosen engine; a checkpoint mismatch or a late ACK aborts it. -/
theorem plannedCastling_starts (crcOk ackInTime : Bool) (hdue : castlingDue s = true) (hhot : hotWaits s = false)
    (hfrom : longestOwner s = some k) (hto : receiver s = some r) (hgroup : ownedGroup s k = some g)
    (hrestart : (s.grp[g]).restart = none) (hrole : (s.ce[r]).role = .spare) (hbist : (s.ce[r]).bist = 1)
    (hidle : ∀ h : Fin 4, (s.grp[h]).castle = none) :
    plannedCastling crcOk ackInTime s =
      if crcOk = true ∧ ackInTime = true then stageCastle s g (some k) r true true true 0
      else abortCastle (stageCastle s g (some k) r true true true 0) g (if crcOk then 2 else 1) := by
  have hstart : ¬ (castlingDue s = false ∨ hotWaits s = true) := by
    rw [hdue, hhot]
    decide
  have hany : (List.finRange 4).any (fun h => (s.grp[h]).castle != none) = false :=
    List.any_eq_false.mpr fun h _ => by rw [hidle h]; decide
  have hfree : ¬ ((s.grp[g]).restart ≠ none ∨ (s.ce[r]).role = .bist ∨ (s.ce[r]).bist ≠ 1 ∨
      (List.finRange 4).any (fun h => (s.grp[h]).castle != none) = true) := by
    rw [hrestart, hrole, hbist, hany]
    decide
  rw [plannedCastling, if_neg hstart, hfrom, hto]
  dsimp only
  rw [hgroup]
  dsimp only
  rw [if_neg hfree]
  cases crcOk <;> cases ackInTime <;> rfl

/-- The run starts on the first engine without a group whose island is up. -/
theorem startBist_first (hrole : (s.ce[k]).role = .spare) (hup : islandDown s k.val = false)
    (hfirst : ∀ j : Fin 5, j < k → (s.ce[j]).role ≠ .spare ∨ islandDown s j.val = true) :
    startBist s = { (s.updCe k fun c => { c with role := .bist }) with
      isl := { s.isl with running := putBit s.isl.running 1 true, spareEnds := s.sys.tbase + bistTime s k } } := by
  have hfind : ((List.finRange 5).find? fun j => (s.ce[j]).role == .spare && !islandDown s j.val) = some k := by
    refine List.find?_eq_some_iff_getElem.mpr ⟨?_, k.val, by simp, by simp, fun j hj => ?_⟩
    · rw [hrole, hup]
      rfl
    · rw [List.getElem_finRange, Fin.cast_mk]
      obtain hother | hdown := hfirst ⟨j, by omega⟩ hj
      · rw [beq_false_of_ne hother]
        rfl
      · rw [hdown, Bool.not_true, Bool.and_false]
        rfl
  rw [startBist, hfind]
  rfl

theorem bistDue_spare (hrun : epochsRun s = true) (hrole : (s.ce[k]).role = .spare) (hat : (s.ce[k]).bistAt ≤ s.sys.tbase) :
    bistDue s = true := by
  rw [bistDue, hrun, Bool.true_and, List.any_eq_true]
  refine ⟨k, List.mem_finRange k, ?_⟩
  rw [hrole, decide_eq_true hat]
  rfl

theorem ce_updCe_self (f : Ce → Ce) : (s.updCe k f).ce[k] = f s.ce[k] := vmod_same ..

theorem updCe_congr {f f' : Ce → Ce} (h : f s.ce[k] = f' s.ce[k]) : s.updCe k f = s.updCe k f' :=
  congrArg (fun v => { s with ce := v }) (by rw [vmod, vmod, h])

theorem bistResult_cases (sigMatch stateOk : Bool) (n : Nat) :
    bistResult sigMatch stateOk n = 1 ∨ bistResult sigMatch stateOk n = 2 ∨ bistResult sigMatch stateOk n = 3 := by
  unfold bistResult
  split
  · exact .inr (.inl rfl)
  · split
    · exact .inr (.inr rfl)
    · split
      · exact .inl rfl
      · exact .inr (.inl rfl)

/-- The end of a run that no command asked for, of an engine that has passed before. -/
theorem bistDone_periodic (sigMatch stateOk : Bool) (n : Nat) (hrole : (s.ce[k]).role = .bist) (hrun : bistPaused s k = false)
    (hasked : s.isl.spareTag = none) (hqual : (s.ce[k]).qualified = true) :
    bistDone k sigMatch stateOk n s =
      let res := bistResult sigMatch stateOk n
      let t := recordTest (s.updCe k fun c => { c with
        role := .spare, bist := res, qualified := true, btimeNs := if res = 1 then 0 else c.btimeNs,
        bistAt := s.sys.tbase + 60000000000 }) 1 0 res n bistPatterns
      if res = 1 then adoptGroup t else if res = 2 then retireCe (testDone t 1 2) k else testDone t 1 3 := by
  have hends : ¬ ((s.ce[k]).role ≠ .bist ∨ bistPaused s k = true) := by
    rw [hrole, hrun]
    decide
  have hcases := bistResult_cases sigMatch stateOk n
  rw [bistDone, if_neg hends]
  dsimp only
  generalize bistResult sigMatch stateOk n = res at hcases ⊢
  have hupd := updCe_congr (s := s) (k := k)
    (f := fun c => { c with role := .spare, bist := res, qualified := c.qualified || res == 1,
                            btimeNs := if res = 1 then 0 else c.btimeNs, bistAt := nextBist s (c.qualified || res == 1) res })
    (f' := fun c => { c with role := .spare, bist := res, qualified := true,
                             btimeNs := if res = 1 then 0 else c.btimeNs, bistAt := s.sys.tbase + 60000000000 })
    (by rw [hqual]; rfl)
  rw [hupd]
  generalize ht : recordTest _ 1 0 res n bistPatterns = t
  have htag : t.isl.spareTag = none := by rw [← ht]; exact hasked
  rw [htag, hqual]
  obtain rfl | rfl | rfl := hcases <;> rfl

/-- The engines and groups at the commit of a castling: the receiver takes the group, the former owner is the engine
without one. -/
def castled (s : State) (g : Fin 4) (x : Castle) : State :=
  let t := ((unstageCastle s g).updGrp g fun gr =>
    { gr with castle := none, owner := some x.toCe, gen := gr.gen + 1, skips := 0 }).updCe x.toCe
      fun c => { c with role := .owner, group := g, cin := satInc 16 c.cin }
  match x.fromCe with
  | some k => t.updCe k fun c => { c with role := .spare, bistAt := 0, cout := satInc 16 c.cout }
  | none => t

/-- What follows in the commit, its period, events and counter, leaves engines and groups. -/
theorem commitCastle_roles {x : Castle} (hx : (s.grp[g]).castle = some x) :
    (commitCastle s g).grp = (castled s g x).grp ∧ (commitCastle s g).ce = (castled s g x).ce := by
  have hperiod (u : State) : (if x.began then { u with sys := { u.sys with castleNs := 0 } } else u).grp = u.grp ∧
      (if x.began then { u with sys := { u.sys with castleNs := 0 } } else u).ce = u.ce := by
    split <;> exact ⟨rfl, rfl⟩
  rw [commitCastle, hx]
  dsimp only
  split
  · rw [queueEvent_grp, queueEvent_ce]
    exact hperiod (castled s g x)
  · rw [queueEvent_grp, queueEvent_ce]
    exact hperiod (castled s g x)

theorem castled_grp (x : Castle) : (castled s g x).grp = vmod s.grp g fun gr =>
    { gr with castle := none, owner := some x.toCe, gen := gr.gen + 1, skips := 0 } := by
  unfold castled
  cases x.fromCe <;> rfl

theorem castled_ce {x : Castle} (hne : x.fromCe ≠ some x.toCe) :
    (castled s g x).ce[x.toCe] = { s.ce[x.toCe] with role := .owner, group := g, cin := satInc 16 (s.ce[x.toCe]).cin } := by
  unfold castled
  dsimp only
  split
  case h_1 k hk =>
    have hother : k ≠ x.toCe := fun h => hne (by rw [hk, h])
    exact (vmod_other _ _ hother).trans (vmod_same ..)
  case h_2 => exact vmod_same ..

end

/-- Settles O35: the start of a planned castling, the run of the spare's BIST, and the roles at a commit. -/
theorem castlingCompletes : Obligations.CastlingCompletes := by
  intro s k r g
  refine ⟨?_, ?_, ?_, fun x hx => ⟨?_, fun hne => ?_⟩⟩
  · exact fun crcOk ackInTime hdue hhot hfrom hto hgroup hrestart hrole hbist hidle => congrArg Host.Outcome.next
      (plannedCastling_starts crcOk ackInTime hdue hhot hfrom hto hgroup hrestart hrole hbist hidle)
  · exact fun hrun hrole hat hup hfirst => congrArg Host.Outcome.next
      ((if_pos (bistDue_spare hrun hrole hat)).trans (startBist_first hrole hup hfirst))
  · rintro sigMatch stateOk n res t hrole hrun hasked hqual rfl rfl
    exact congrArg Host.Outcome.next (bistDone_periodic sigMatch stateOk n hrole hrun hasked hqual)
  · rw [(commitCastle_roles hx).1, castled_grp, vmod_same]
  · rw [(commitCastle_roles hx).2, castled_ce hne]

/-! ### The crossbar and the reference words (R15, R19, R20, R41, R211, R237) -/

theorem failedAttempts_all {l : List (List Byte × BitVec 16)} (h : ∀ y ∈ l, crc16 y.1 ≠ y.2) : failedAttempts l = l.length := by
  induction l with
  | nil => rfl
  | cons y l ih =>
    rw [failedAttempts, if_neg (h y List.mem_cons_self), ih fun z hz => h z (List.mem_cons_of_mem y hz), List.length_cons,
      Nat.add_comm]

section

variable {s : State} {src dst : Fin 14} {a : List (List Byte × BitVec 16)}

theorem crossbar_succeeds {x : List Byte × BitVec 16} (planeB : Bool) (h : crc16 x.1 = x.2) :
    crossbar src dst planeB (x :: a) s =
      { s with sticky := { s.sticky with xbarRetry := satNat 16 (s.sticky.xbarRetry + 0) } } := by
  have hn : failedAttempts ((x :: a).take 4) = 0 := if_pos h
  rw [crossbar]
  dsimp only
  rw [hn]
  rfl

/-- The fourth failure gives up the plane of the route, or the route. -/
theorem crossbar_fails (planeB : Bool) (hlen : 4 ≤ a.length) (h : ∀ y ∈ a.take 4, crc16 y.1 ≠ y.2) :
    crossbar src dst planeB a s =
      let t := queueRated { s with sticky := { s.sticky with xbarRetry := satNat 16 (s.sticky.xbarRetry + 3) } } 0x0105
        (src.val * 14 + dst.val) 1000000000 (p1 src.val ++ p1 dst.val)
      match failedPlane t src dst with
      | some _ => routeLost t src dst
      | none => queueEvent { t with sticky := { t.sticky with xbarFail := satInc 8 t.sticky.xbarFail,
                                                              routes := (src.val, dst.val, planeB) :: t.sticky.routes } }
          0x0101 (p1 src.val ++ p1 dst.val ++ p1 (b2n planeB)) := by
  have hfour : (a.take 4).length = 4 := by rw [List.length_take]; omega
  have hn : failedAttempts (a.take 4) = 4 := by rw [failedAttempts_all h, hfour]
  rw [crossbar]
  dsimp only
  rw [hn, hfour]
  rfl

end

/-- Settles O36: by the number of failed attempts. -/
theorem crossbarTransfers : Obligations.CrossbarTransfers := by
  rintro s t src dst planeB a x
  refine ⟨fun h => congrArg Host.Outcome.next (crossbar_succeeds planeB h), ?_⟩
  rintro hlen hfail rfl
  refine ⟨fun hnone => congrArg Host.Outcome.next ((crossbar_fails planeB hlen hfail).trans ?_),
    fun p hp => congrArg Host.Outcome.next ((crossbar_fails planeB hlen hfail).trans ?_)⟩
  · dsimp only
    rw [hnone]
  · dsimp only
    rw [hp]

theorem queueOnce_grp (s : State) (code idx : Nat) (p : List Byte) : (queueOnce s code idx p).grp = s.grp :=
  (queueOnce_same (pm := 640) rfl (.refl 640 s)).grp.resolve_left (by decide)

section

variable {s : State} {iref : Word} {l : Fin 32} {tag : Byte}

/-- A reference of a leg is accepted under the tag of its group, and counted as stale under another. -/
theorem currentRef_leg {leg : Byte} (hleg : leg.toNat = l.val) :
    currentRef iref leg tag s =
      if tag.toNat = groupTag s.grp[groupOfLeg l] then
        if (s.ch[chanOfLeg l]).rampsAlone then s
        else s.updLeg l fun x => { x.accept iref.toInt with last := (x.accept iref.toInt).iref }
      else
        let t := s.updGrp (groupOfLeg l) fun gr => { gr with stale := satInc 8 gr.stale }
        queueOnce t 0x0301 (groupOfLeg l).val (p1 (groupOfLeg l).val ++ [tag] ++ p1 (groupTag t.grp[groupOfLeg l])) := by
  have hlt : leg.toNat < 32 := by omega
  obtain rfl : l = ⟨leg.toNat, hlt⟩ := Fin.ext hleg.symm
  exact dif_pos hlt

end

/-- Settles O37: by the tag, and by the state of the leg. -/
theorem referenceWords : Obligations.ReferenceWords := by
  intro s iref l leg tag e hleg
  have haccept (htag : tag.toNat = groupTag s.grp[groupOfLeg l]) (halone : (s.ch[chanOfLeg l]).rampsAlone = false) :
      currentRef iref leg tag s = s.updLeg l fun x => { x.accept iref.toInt with last := (x.accept iref.toInt).iref } :=
    (currentRef_leg hleg).trans ((if_pos htag).trans (if_neg (ne_true_of_eq_false halone)))
  refine ⟨fun htag halone => ?_, fun htag halone => ⟨fun hpark hrestart => ?_, fun hpark hrestart => ?_, fun hpark => ?_⟩,
    fun htag => ?_⟩
  · exact congrArg Host.Outcome.next ((currentRef_leg hleg).trans ((if_pos htag).trans (if_pos halone)))
  · refine congrArg Host.Outcome.next ((haccept htag halone).trans (updLeg_congr ?_))
    rw [Leg.accept, hpark, hrestart]
    rfl
  · refine congrArg Host.Outcome.next ((haccept htag halone).trans (updLeg_congr ?_))
    rw [Leg.accept, hpark, hrestart]
    rfl
  · refine congrArg Host.Outcome.next ((haccept htag halone).trans (updLeg_congr ?_))
    rw [Leg.accept, hpark]
    rfl
  · refine ⟨_, congrArg Host.Outcome.next ((currentRef_leg hleg).trans (if_neg htag)), ?_, ?_, ?_, ?_⟩
    · exact queueOnce_leg ..
    · rw [queueOnce_grp, State.updGrp_grp, vmod_same]
    · rw [queueOnce_grp, State.updGrp_grp, vmod_same]
    · rw [queueOnce_grp, State.updGrp_grp, vmod_same]

end Sys2Proof.Safety

/-! The measurement commands (O38). -/
namespace Sys2Proof.Safety
open Sys2Proof.Machine

/-! ### Served commands whose body does not look at the port -/

section

variable {i : Instr} {s : State} {body : Request → State → State × Completion}

/-- A served command that replies at once, whatever the host port holds. -/
theorem hostCommand_now_port {status : Byte} {payload : List Byte} (h : Served i s) (g : State → State)
    (hb : ∀ p, body (req i s) { s with port := p } = (g { s with port := p }, .now status payload)) :
    hostCommand i true s body = replied i s (g (taken i s)) status payload := by
  obtain ⟨p, hp⟩ := taken_port_only i s
  exact hostCommand_replies h (by rw [hp, hb p])

/-- A served command that replies later, whatever the host port holds. -/
theorem hostCommand_later_port (h : Served i s) (g : State → State)
    (hb : ∀ p, body (req i s) { s with port := p } = (g { s with port := p }, .later)) :
    hostCommand i true s body = g (taken i s) := by
  obtain ⟨p, hp⟩ := taken_port_only i s
  exact hostCommand_later h (by rw [hp, hb p])

end

/-! ### Measurement and calibration commands (R148, R326 to R328) -/

section

variable {s : State} {b : Byte} {hb : b.toNat < 16}

theorem chanOf?_lt (hb : b.toNat < 16) : chanOf? b = some ⟨b.toNat, hb⟩ := dif_pos hb

theorem measPulseBody_stages {i1 dur : Word} {r : Request} (hmin : 110 ≤ dur.toNat) (hmax : dur.toNat ≤ 60000)
    (hserved : measServed s ⟨b.toNat, hb⟩ = true) (hfree : measBusy s ⟨b.toNat, hb⟩ = false) :
    measPulseBody b i1 dur r s = (stage s (.pulse ⟨b.toNat, hb⟩ i1.toInt (dur.toNat * 1000000)) r.opc (some r.tag)
      (channelIslands s [⟨b.toNat, hb⟩]), .later) := by
  have hdur : ¬ (dur.toNat < 110 ∨ 60000 < dur.toNat) := by omega
  rw [measPulseBody, chanOf?_lt hb]
  dsimp only
  rw [if_neg hdur, hserved, hfree]
  rfl

theorem measEisBody_starts {m : Byte} {f a : Word} {r : Request} (hm : m.toNat ≤ 15) (hf : 10 ≤ f.toNat)
    (hf' : f.toNat ≤ 5000000) (ha : 1000 ≤ a.toNat) (hmax : (a.toNat : Int) ≤ iMax s ⟨b.toNat, hb⟩)
    (hserved : measServed s ⟨b.toNat, hb⟩ = true) (hfree : measBusy s ⟨b.toNat, hb⟩ = false) :
    measEisBody b m f a r s = (s.updCh ⟨b.toNat, hb⟩ fun ch =>
      { ch with hostMeas := .eis r.tag (m.toNat + 1) f.toNat a.toNat, dds := 0, excAt := none, excClamp := false },
      .later) := by
  have hrange : ¬ (15 < m.toNat ∨ f.toNat < 10 ∨ 5000000 < f.toNat ∨ a.toNat < 1000 ∨
      iMax s ⟨b.toNat, hb⟩ < (a.toNat : Int)) := by omega
  rw [measEisBody, chanOf?_lt hb]
  dsimp only
  rw [if_neg hrange, hserved, hfree]
  rfl

theorem calRotationBody_deferred (hmode : s.sys.mode ≠ .service) (hfree : freeLanes s ≠ 0) :
    calRotationBody s = (s, .now stDeferred (toLE 8 (s.meas.rotAt + rotationSlots s * 2000000000))) := by
  rw [calRotationBody, if_neg hmode, if_neg hfree]

theorem calTrimBody_starts {kind limit : Nat} {a : Byte} {v : Word} {r : Request} (hmode : s.sys.mode = .service)
    (hfree : nvmBusy s = false) (ha : a.toNat ≤ limit) :
    calTrimBody kind limit a v r s =
      ({ s with isl := { s.isl with nvmOp := .calTrim kind a.toNat v, opTag := some r.tag } }, .later) := by
  rw [calTrimBody, if_neg (not_not_intro hmode), if_neg (Nat.not_lt.mpr ha), hfree]
  rfl

/-- A ring takes a record where it has a place, or where its oldest one may go. -/
theorem ringFull_false {ch : Chan} (h : ringUsed ch < ringSize ∨ ch.logF = true) : ringFull ch = false := by
  unfold ringFull
  obtain h | h := h
  · rw [decide_eq_false (Nat.not_le.mpr h), Bool.false_and]
  · rw [h, Bool.not_true, Bool.and_false]

theorem logMarkBody_stages {d : List Byte} {c : Fin 16} {r : Request} (hlead : leadOf? s b = some c)
    (hroom : ringUsed s.ch[c] < ringSize ∨ (s.ch[c]).logF = true) :
    logMarkBody b d r s = (stage s (.mark c d) r.opc (some r.tag) (islandBit 7), .later) := by
  rw [logMarkBody, hlead]
  exact if_neg (ne_true_of_eq_false (ringFull_false hroom))

end

section

variable {s : State} {k a : Nat} {v : Word} (hop : s.isl.nvmOp = .calTrim k a v) (d : Int)
include hop

theorem calTrimEnd_fails : calTrimEnd false d s =
    replyOp (nvmFail { s with isl := { s.isl with nvmOp := .none } } 1) 0x50 stNvmError [] := by
  rw [calTrimEnd, hop]
  rfl

/-- A reference trim takes its value and answers the deviation. -/
theorem calTrimEnd_reference (hk : k = 1) : calTrimEnd true d s = replyOp { s with
    isl := { s.isl with nvmOp := .none }
    nvm := { s.nvm with refTrim := if a = 0 then s.nvm.refTrim.set 0 v.toNat else s.nvm.refTrim.set 1 v.toNat } }
    0x50 stOk (p4 d) := by
  subst hk
  rw [calTrimEnd, hop]
  rfl

/-- The trim of a position takes three free coefficients. -/
theorem calTrimEnd_position (hk : k = 2) : ∃ (o g x : Int) (t : State),
    calTrimEnd true d s = replyOp t 0x50 stOk [] ∧
    t.nvm = { s.nvm with posTrim := (a, o, g, x) :: s.nvm.posTrim.filter fun y => y.1 != a } ∧
    t.isl = { s.isl with nvmOp := .none } := by
  subst hk
  rw [calTrimEnd, hop]
  exact ⟨_, _, _, _, rfl, rfl, rfl⟩

end

/-- Settles O38: each command passes its checks, on the state that taking its request leaves. -/
theorem measurementCommandsComplete : Obligations.MeasurementCommandsComplete := by
  intro s b h
  refine ⟨?_, ?_, ?_, fun a v hmode hfree => ⟨?_, ?_⟩, fun k a v d hop => ⟨?_, ?_, ?_⟩, ?_⟩
  · exact fun i1 dur hmin hmax hserved hfree hs => congrArg Host.Outcome.next (hostCommand_later_port hs
      (fun u => staged (.measPulse b i1 dur) s u (.pulse ⟨b.toNat, h⟩ i1.toInt (dur.toNat * 1000000))
        (channelIslands s [⟨b.toNat, h⟩]))
      fun p => measPulseBody_stages (s := { s with port := p }) hmin hmax hserved hfree)
  · exact fun m f a hm hf hf' ha hmax hserved hfree hs => congrArg Host.Outcome.next (hostCommand_later_port hs
      (fun u => u.updCh ⟨b.toNat, h⟩ fun ch =>
        { ch with hostMeas := .eis (req (.measEis b m f a) s).tag (m.toNat + 1) f.toNat a.toNat, dds := 0
                  excAt := none, excClamp := false })
      fun p => measEisBody_starts (s := { s with port := p }) hm hf hf' ha hmax hserved hfree)
  · exact fun hmode hfree hs => congrArg Host.Outcome.next (hostCommand_now_port hs id
      fun p => calRotationBody_deferred (s := { s with port := p }) hmode hfree)
  · exact fun ha hs => congrArg Host.Outcome.next (hostCommand_later_port hs
      (fun u => { u with isl := { s.isl with
        nvmOp := .calTrim 1 a.toNat v, opTag := some (req (.calRequestRefTrim a v) s).tag } })
      fun p => calTrimBody_starts (s := { s with port := p }) hmode hfree ha)
  · exact fun ha hs => congrArg Host.Outcome.next (hostCommand_later_port hs
      (fun u => { u with isl := { s.isl with
        nvmOp := .calTrim 2 a.toNat v, opTag := some (req (.calRequestFactory a v) s).tag } })
      fun p => calTrimBody_starts (s := { s with port := p }) hmode hfree ha)
  · exact congrArg Host.Outcome.next (calTrimEnd_fails hop d)
  · intro hk
    obtain ⟨o, g, x, t, hend, hnvm, hisl⟩ := calTrimEnd_position hop d hk
    exact ⟨o, g, x, t, congrArg Host.Outcome.next hend, hnvm, hisl⟩
  · exact fun hk => congrArg Host.Outcome.next (calTrimEnd_reference hop d hk)
  · intro d c hlead hlen hroom hs
    refine congrArg Host.Outcome.next ?_
    rw [lengthIn_eq_true (Nat.le_of_eq hlen.symm) (Nat.le_of_eq hlen)]
    exact hostCommand_later_port hs (fun u => staged (.logMark b d) s u (.mark c d) (islandBit 7))
      fun p => logMarkBody_stages (s := { s with port := p }) hlead hroom

end Sys2Proof.Safety

/-! The calibration and the references (O39). -/
namespace Sys2Proof.Safety
open Sys2Proof.Machine

/-! ### Slots and references (R134, R135, R137, R146) -/

section

variable {s : State}

/-- A slot of a rotation that has not ended. -/
theorem slotStart_next (m : SlotMeas) (hrun : rotationRuns s = true) (hfirst : 0 < s.meas.slot) (hslot : s.meas.slot < rotationSlots s) :
    slotStart m s = (List.finRange 4).foldl (startLane m)
      (slotRefs m { s with meas := { s.meas with slot := s.meas.slot + 1 } }) := by
  have hnot : ¬ s.meas.slot + 1 = 1 := by omega
  rw [slotStart, if_neg (ne_false_of_eq_true hrun)]
  dsimp only
  rw [if_neg (Nat.not_le.mpr hslot), if_neg hnot]

/-- The first slot of the next rotation. -/
theorem slotStart_wraps (m : SlotMeas) (hrun : rotationRuns s = true) (hslot : rotationSlots s ≤ s.meas.slot) :
    slotStart m s = (List.finRange 4).foldl (startLane m) (slotRefs m
      { endRotation s with meas := { (endRotation s).meas with slot := 1 }
                           isl := { (endRotation s).isl with dacf := decide (20 < m.dacDev) } }) := by
  rw [slotStart, if_neg (ne_false_of_eq_true hrun), if_pos hslot]
  rfl

/-- The part of the bandgap monitor that looks at one reference. -/
def checkRef (s : State) (r : Fin 3) (d : Int) : State := if inVote s r ∧ 10000 < d.natAbs then excludeRef s r d else s

theorem refMonitor_checks (a b x : Int) (hpower : measPowered s = true) : refMonitor a b x s =
    let t := checkRef (checkRef s 0 a) 1 b
    if t.meas.refcfg.getLsbD 16 then checkRef t 2 (x - sbits t.meas.refcfg 0 16) else t :=
  if_neg (ne_false_of_eq_true hpower)

variable {r : Fin 3} {d : Int}

theorem checkRef_near (h : d.natAbs ≤ 10000) : checkRef s r d = s := if_neg fun hout => absurd hout.2 (by omega)

theorem checkRef_far (hvote : inVote s r = true) (h : 10000 < d.natAbs) : checkRef s r d = excludeRef s r d :=
  if_pos ⟨hvote, h⟩

/-- What every step of a fold keeps, the fold keeps. -/
theorem foldl_keeps {α β γ : Type} (π : α → γ) {f : α → β → α} (h : ∀ a b, π (f a b) = π a) (l : List β) (a : α) :
    π (l.foldl f a) = π a := by
  induction l generalizing a with
  | nil => rfl
  | cons b l ih => exact (ih _).trans (h a b)

theorem discardCal_refcfg (s : State) : (discardCal s).meas.refcfg = s.meas.refcfg := by
  refine foldl_keeps (·.meas.refcfg) (fun u j => ?_) (List.finRange 4) s
  dsimp only
  split
  · split
    · rw [queueEvent_meas]
    · rfl
  · rfl

/-- The exclusion of a reference leaves the fitted references. -/
theorem excludeRef_refcfg (s : State) (r : Fin 3) (d : Int) : (excludeRef s r d).meas.refcfg = s.meas.refcfg := by
  unfold excludeRef
  split
  · rfl
  · rw [discardCal_refcfg, queueEvent_meas]

end

/-! ### Loop-back and offsets of the leg converters (R131, R396) -/

section

variable {s : State}

/-- A check in the slot that is due: the leg counts its failures in succession, and the second one parks it. -/
theorem loopback_checks (p m : Int) (hrun : s.sys.running = true) (hslot : s.meas.legSlotAt ≤ s.sys.tbase) (hdac : s.isl.dacf = false)
    (hrestart : (s.leg[s.meas.legIdx]).restart = false) {ok : Bool}
    (hok : (decide (p.natAbs ≤ 795000) && decide (m.natAbs ≤ 795000)) = ok) :
    loopback p m s =
      let l := s.meas.legIdx
      let t := State.updLeg { s with isl := { s.isl with legLb := putBit s.isl.legLb l.val !ok }
                                     meas := { s.meas with legDone := s.meas.legDone + 1, legBad := s.meas.legBad + b2n !ok
                                                           legSlotAt := s.meas.legSlotAt + 312500000 } } l
        fun x => { x with lbFail := if ok then 0 else x.lbFail + 1 }
      nextLoopLeg (if 2 ≤ (t.leg[l]).lbFail ∧ (t.leg[l]).park.conv = false then legConvFault t l else t) := by
  have hdue : ¬ (s.sys.running = false ∨ s.sys.tbase < s.meas.legSlotAt) :=
    not_or.mpr ⟨ne_false_of_eq_true hrun, Nat.not_lt.mpr hslot⟩
  subst hok
  exact (if_neg hdue).trans ((if_neg (ne_true_of_eq_false hdac)).trans (if_neg (ne_true_of_eq_false hrestart)))

theorem legOffset_off {l : Fin 32} (o : Int) (hoff : legSwitching s l = false) (hzero : (s.ch[chanOfLeg l]).iP.natAbs < 10000) :
    legOffset l o s = s.updLeg l fun x => { x with offset := o } := by
  rw [legOffset, hoff, decide_eq_true hzero]
  rfl

end

/-- Settles O39: each input in the situation of its rule. -/
theorem calibrationEventsComplete : Obligations.CalibrationEventsComplete := by
  intro s
  refine ⟨?_, ?_, fun a b x hpower => ⟨?_, ?_, ?_, ?_⟩, ?_, ?_, ?_⟩
  · exact fun m hrun hfirst hslot => congrArg Host.Outcome.next (slotStart_next m hrun hfirst hslot)
  · rintro m t hrun hslot rfl
    exact congrArg Host.Outcome.next (slotStart_wraps m hrun hslot)
  · intro ha hb hx
    refine congrArg Host.Outcome.next ((refMonitor_checks a b x hpower).trans ?_)
    dsimp only
    rw [checkRef_near ha, checkRef_near hb, hx]
    rfl
  · intro ha hvote hb hx
    refine congrArg Host.Outcome.next ((refMonitor_checks a b x hpower).trans ?_)
    dsimp only
    rw [checkRef_far hvote ha, checkRef_near hb, excludeRef_refcfg, hx]
    rfl
  · intro ha hb hvote hx
    refine congrArg Host.Outcome.next ((refMonitor_checks a b x hpower).trans ?_)
    dsimp only
    rw [checkRef_near ha, checkRef_far hvote hb, excludeRef_refcfg, hx]
    rfl
  · intro ha hb hvote hx hfar
    refine congrArg Host.Outcome.next ((refMonitor_checks a b x hpower).trans ?_)
    dsimp only
    rw [checkRef_near ha, checkRef_near hb, if_pos hx, checkRef_far hvote hfar]
  · rintro late x h d rfl rfl hhold hx hfar
    exact congrArg Host.Outcome.next (if_pos ⟨hhold, hx, hfar⟩)
  · rintro p m l t hrun hdac rfl hslot hrestart
    refine ⟨fun hp hm => ?_, fun hbad hconv ht => ?_⟩
    · have hok : (decide (p.natAbs ≤ 795000) && decide (m.natAbs ≤ 795000)) = true := by
        rw [decide_eq_true hp, decide_eq_true hm]; rfl
      refine congrArg Host.Outcome.next ((loopback_checks p m hrun hslot hdac hrestart hok).trans ?_)
      dsimp only
      rw [leg_updLeg_self]
      rfl
    · have hok : (decide (p.natAbs ≤ 795000) && decide (m.natAbs ≤ 795000)) = false := by
        rw [Bool.and_eq_false_iff, decide_eq_false_iff_not, decide_eq_false_iff_not]
        omega
      subst ht
      refine congrArg Host.Outcome.next ((loopback_checks p m hrun hslot hdac hrestart hok).trans (congrArg nextLoopLeg ?_))
      dsimp only
      rw [leg_updLeg_self]
      by_cases hzero : (s.leg[s.meas.legIdx]).lbFail = 0
      · exact (if_neg fun h => absurd (show 2 ≤ (s.leg[s.meas.legIdx]).lbFail + 1 from h.1) (by omega)).trans (if_pos hzero).symm
      · exact (if_pos ⟨show 2 ≤ (s.leg[s.meas.legIdx]).lbFail + 1 by omega, hconv⟩).trans (if_neg hzero).symm
  · exact fun l o hoff hzero => congrArg Host.Outcome.next (legOffset_off o hoff hzero)

end Sys2Proof.Safety

/-! Pulse and impedance results (O40). -/
namespace Sys2Proof.Safety
open Sys2Proof.Machine

/-! ### Pulse results (R139, R145, R154) -/

section

variable {s : State} {c : Fin 16}

/-- The samples of a pulse, corrected and blended. -/
def pulseSamples (s : State) (c : Fin 16) (raw : PulseMeas) : PulseMeas :=
  { prec := raw.prec.map (formSample s c), wide := raw.wide.map (formSample s c) }

/-- The time t_0 of a pulse that was armed at a TBASE. -/
def pulseZero (s : State) (c : Fin 16) (i1 : Int) (at' : Nat) (m : PulseMeas) : Option Nat :=
  (windowMean m.prec (at' - 10000000) at').bind fun pre => pulseStart s c i1 pre m

/-- The state in which the pulse of a channel has been evaluated. -/
def pulseEvaluated (s : State) (c : Fin 16) (t0 : Option Nat) : State :=
  s.updCh c fun ch => { ch with pulseArmed := none, pulseT0 := t0.getD ch.pulseT0 }

/-- The record of a program's pulse, and its grade. -/
def pulseRecord (t : State) (c : Fin 16) (t0 : Option Nat) (l : List (Option Int)) : State :=
  (formRecord t c 5 (measFlags t (pulseBlend t c t0) false (measInvalid t c) false) (l.flatMap rdcBytes)).updProg c fun p =>
    let g := if pulseBlend t c t0 then p.grade.flag 3 else p.grade
    { p with grade := { g with rdc10 := if stFlag p.cur 3 && (l.drop 1).head?.join.isSome then (l.drop 1).head?.join else g.rdc10 } }

/-- An armed pulse goes to the host command that waits for it, or into a record. -/
theorem pulseDone_armed (raw : PulseMeas) {i1 : Int} {at' : Nat} (harm : (s.ch[c]).pulseArmed = some (i1, at')) :
    pulseDone c raw s =
      let m := pulseSamples s c raw
      let t0 := pulseZero s c i1 at' m
      let l := pulsePoints s c at' t0 m
      let t := pulseEvaluated s c t0
      match (s.ch[c]).hostMeas with
      | .pulse d (some tag) =>
        reply (t.updCh c fun ch => { ch with hostMeas := .pulse d none }) tag 0x51 stOk (l.flatMap rdcBytes)
      | .pulseEnd tag => reply (t.updCh c fun ch => { ch with hostMeas := .none }) tag 0x51 stOk (l.flatMap rdcBytes)
      | _ => pulseRecord t c t0 l := by
  have hkept (t0 : Option Nat) : ((pulseEvaluated s c t0).ch[c]).hostMeas = (s.ch[c]).hostMeas :=
    ch_updCh_keeps (·.hostMeas) (f := fun ch => { ch with pulseArmed := none, pulseT0 := t0.getD ch.pulseT0 })
      (fun _ => rfl) c c
  unfold pulseEvaluated at hkept
  rw [pulseDone, harm]
  dsimp only
  rw [hkept]
  rfl

end

/-! ### Impedance results (R156, R180, R181) -/

section

variable {s : State} {c : Fin 16} {raw : EisMeas} {w : Nat × Nat}

/-- The end of an impedance window, by its periods and samples. -/
theorem eisDone_window (hw : w = eisWindow (eisPoint s.ch[c]).1 (eisPoint s.ch[c]).2) :
    eisDone c raw s =
      match (s.ch[c]).excAt with
      | none => s
      | some t =>
        match eisSamples raw.wide t w.1 w.2 with
        | none => s
        | some l => if eisActive s.ch[c] then eisReport c w.1 w.2 { wide := l.map (formSample s c) } s else s := by
  rw [eisDone]
  cases hpair : eisWindow _ _ with | mk m n
  obtain rfl : w = (m, n) := hw.trans hpair
  rfl

/-- A window that has not run to its end reports nothing. -/
theorem eisDone_waits (hw : w = eisWindow (eisPoint s.ch[c]).1 (eisPoint s.ch[c]).2)
    (h : (s.ch[c]).excAt = none ∨ ∃ t0, (s.ch[c]).excAt = some t0 ∧ eisSamples raw.wide t0 w.1 w.2 = none) :
    eisDone c raw s = s := by
  rw [eisDone_window hw]
  obtain hnone | ⟨t0, hat, hl⟩ := h
  · rw [hnone]
  · rw [hat]
    dsimp only
    rw [hl]

/-- A window that has ended reports its corrected samples. -/
theorem eisDone_reports {t0 : Nat} {l : List Sample} (hw : w = eisWindow (eisPoint s.ch[c]).1 (eisPoint s.ch[c]).2)
    (hat : (s.ch[c]).excAt = some t0) (hl : eisSamples raw.wide t0 w.1 w.2 = some l) (hactive : eisActive s.ch[c] = true) :
    eisDone c raw s = eisReport c w.1 w.2 { wide := l.map (formSample s c) } s := by
  rw [eisDone_window hw, hat]
  dsimp only
  rw [hl]
  exact if_pos hactive

theorem eisActive_host {ch : Chan} {tag : ReqId} {n f a : Nat} (h : ch.hostMeas = .eis tag n f a) : eisActive ch = true := by
  rw [eisActive, h]
  rfl

theorem eisActive_program {ch : Chan} (h : eisRuns ch = true) : eisActive ch = true := by
  rw [eisActive, h, Bool.or_true]

end

/-- Settles O40: the result of an armed pulse and of an ended window, by whom it is for. -/
theorem measurementResultsComplete : Obligations.MeasurementResultsComplete := by
  intro s t c
  refine ⟨?pulse, ?eis, fun raw w hw h => congrArg Host.Outcome.next (eisDone_waits hw h)⟩
  case pulse =>
    rintro raw m i1 at' t0 bytes blend r10 harm rfl rfl rfl rfl rfl rfl
    refine ⟨fun d tag hhost => ?_, fun tag hhost => ?_, fun hhost => ?_⟩
    all_goals
      refine congrArg Host.Outcome.next ((pulseDone_armed raw harm).trans ?_)
      rw [hhost]
      rfl
  case eis =>
    rintro raw m w z l t0 lo d blend clamp hw hat hl rfl rfl rfl rfl rfl rfl
    refine ⟨fun tag n f a hhost => ?_, fun u fl hhost hruns hu hfl ht => ?_⟩
    · refine congrArg Host.Outcome.next ((eisDone_reports hw hat hl (eisActive_host hhost)).trans ?_)
      rw [eisReport]
      dsimp only
      rw [hhost] <;> rfl
    · refine congrArg Host.Outcome.next ((eisDone_reports hw hat hl (eisActive_program hruns)).trans ?_)
      subst ht hfl hu
      rw [eisReport]
      dsimp only
      rw [hhost] <;> rfl

end Sys2Proof.Safety

/-! Step ends, records and temperature windows of the formation service (O41). -/
namespace Sys2Proof.Safety
open Sys2Proof.Machine

section

variable {s : State} {c : Fin 16}

theorem updProg_congr {f g : Prog → Prog} (h : f (s.ch[c]).prog = g (s.ch[c]).prog) : s.updProg c f = s.updProg c g :=
  updCh_congr (congrArg (fun p => { s.ch[c] with prog := p }) h)

/-! ### Step ends (R171, R174, R175) -/

theorem flagFalls_ends (hrun : stepRuns s.ch[c] = true) (htmax : 0 < stTmax (s.ch[c]).prog.cur)
    (hend : timerEnds (s.ch[c]).prog = true) :
    flagFalls c s = if (s.ch[c]).prog.mostlyDerated then decideEnd s c 6 1 0x11 (stDnext (s.ch[c]).prog.cur)
      else decideEnd s c 6 1 0x10 (stSnext (s.ch[c]).prog.cur) := if_pos ⟨hrun, htmax, hend⟩

theorem chargeCaps_ends (hrun : stepRuns s.ch[c] = true) (hcap : capReached (s.ch[c]).prog = true) :
    chargeCaps c s = decideEnd s c 5 2 4 (stSnext (s.ch[c]).prog.cur) := if_pos ⟨hrun, hcap⟩

variable {rank wait reason next : Nat}

/-- An end that takes effect earlier, or first in the order of one boundary, is decided. -/
theorem decideEnd_pend (h : (s.ch[c]).prog.pend = none ∨
      ∃ x, (s.ch[c]).prog.pend = some x ∧ (wait < x.wait ∨ (wait = x.wait ∧ rank < x.rank))) :
    ((decideEnd s c rank wait reason next).ch[c]).prog.pend =
      some { reason := reason, next := next, wait := wait, rank := rank } := by
  rw [decideEnd, ch_updProg_self]
  obtain hnone | ⟨x, hx, hfirst⟩ := h
  · dsimp only
    rw [hnone]
  · dsimp only
    rw [hx]
    dsimp only
    rw [if_pos hfirst]

/-- An end decided before stands otherwise. -/
theorem decideEnd_later {x : StepEnd} (hx : (s.ch[c]).prog.pend = some x)
    (h : ¬(wait < x.wait ∨ (wait = x.wait ∧ rank < x.rank))) :
    ((decideEnd s c rank wait reason next).ch[c]).prog.pend = some x := by
  rw [decideEnd, ch_updProg_self]
  dsimp only
  rw [hx]
  dsimp only
  rw [if_neg h]
  exact hx

/-! ### Records (R182, R185) -/

/-- The periodic record of an interval that has ended starts its sums afresh. -/
theorem periodicRecord_ends (hrun : stepRuns s.ch[c] = true) (hlog : 0 < stLogNs (s.ch[c]).prog.cur)
    (hend : stLogNs (s.ch[c]).prog.cur ≤ (s.ch[c]).prog.perNs) :
    periodicRecord c s =
      (formRecordAt s c 4 (measFlags s (s.ch[c]).prog.perBlend false ((s.ch[c]).prog.perBad || (s.ch[c]).prog.perInv)
          (s.ch[c]).prog.perDer)
        (p4 (meanOf (s.ch[c]).prog.sumV (s.ch[c]).prog.sumN) ++ p4 (meanOf (s.ch[c]).prog.sumI (s.ch[c]).prog.sumN)
          ++ (if (s.ch[c]).prog.perBad then toLE 2 0x8000
              else toLEInt 2 (satInt 16 (divRound (meanOf (s.ch[c]).prog.sumT (s.ch[c]).prog.sumTn) 10)))
          ++ p1 (s.ch[c]).prog.step ++ p1 (s.ch[c]).win.val)).updProg c fun p =>
        { p with
          sumV := 0, sumI := 0, sumN := 0, sumT := 0, sumTn := 0, perBad := false, perInv := false, perBlend := false
          perDer := false, perNs := p.perNs - stLogNs p.cur } :=
  (if_pos ⟨hrun, hlog, hend⟩).trans (updProg_congr rfl)

theorem ocvRecord_fits {fit : List (Int × Int)} {slope mean dT : Int × State} (hrun : stepRuns s.ch[c] = true)
    (htype : stType (s.ch[c]).prog.cur = 0x0A) (hnew : (s.ch[c]).prog.eisIndex = 0)
    (htime : (stIt (s.ch[c]).prog.cur).toNat * 1000000000 ≤ (s.ch[c]).prog.stepNs)
    (hfit : fit = (s.ch[c]).prog.ocvMeans.take (stPtN (s.ch[c]).prog.cur)) (hslope : slope = orFree (ocvSlope fit) s)
    (hmean : mean = orFree (ocvMean (s.ch[c]).prog.ocvMeans) slope.2)
    (hdT : dT = orFree (fit.getLast?.map fun x => measTemp s - x.2) mean.2) :
    ocvRecord c s =
      (formRecord dT.2 c 8 (measFlags s (s.ch[c]).prog.stepBlend false (measInvalid s c) false)
        (p4 slope.1 ++ p4 mean.1 ++ toLE 2 (satNat 16 (stPtN (s.ch[c]).prog.cur / 60)) ++ toLEInt 2 (satInt 16 dT.1))).updProg c
        fun q => { q with
          eisIndex := 1
          grade := { (if q.stepBlend then q.grade.flag 3 else q.grade) with
            drift := if stFlag (s.ch[c]).prog.cur 3 then some (sat32 slope.1)
                     else (if q.stepBlend then q.grade.flag 3 else q.grade).drift } } := by
  subst hfit hslope hmean hdT
  exact if_pos ⟨hrun, htype, hnew, htime⟩

/-! ### Temperature windows (R173) -/

theorem reduceEnds_leaves (hred : (s.ch[c]).prog.tred = true) (hactive : (s.ch[c]).prog.pstate.active = true)
    (hbroken : cellBroken s c = false)
    (hin : cellWithin s c (hdrBound (s.ch[c]).prog.recipe.header 0) (hdrBound (s.ch[c]).prog.recipe.header 1) 100 = true) :
    reduceEnds c s =
      let t := queueEvent (s.updProg c fun q => { q with tred := false }) 0x0215 (p1 c.val ++ p1 0)
      if (s.ch[c]).prog.pstate = .hand then t else setStepTargets t c :=
  if_pos ⟨hred, hactive, by rw [hbroken]; rfl, hin⟩

theorem tempwinEnds_clears (hcause : (s.ch[c]).prog.causes.contains hcTempwin = true) (hbroken : cellBroken s c = false)
    (hin : cellWithin s c (hdrBound (s.ch[c]).prog.recipe.header 2) (hdrBound (s.ch[c]).prog.recipe.header 3) 200 = true) :
    tempwinEnds c s = (clearCauses s c [hcTempwin]).updProg c fun q => { q with suspend := 0 } :=
  if_pos ⟨hcause, by rw [hbroken]; rfl, hin⟩

end

/-- Settles O41: each event under the condition that its rule names. -/
theorem formationEventsComplete : Obligations.FormationEventsComplete := by
  rintro s c p rfl
  refine ⟨?_, ?_, fun rank wait reason next => decideEnd_pend, fun rank wait reason next x => decideEnd_later, ?_, ?_,
    fun x u => rfl, ?_, ?_⟩
  · exact fun hrun htmax hend => congrArg Host.Outcome.next (flagFalls_ends hrun htmax hend)
  · exact fun hrun hcap => congrArg Host.Outcome.next (chargeCaps_ends hrun hcap)
  · exact fun hrun hlog hend => congrArg Host.Outcome.next (periodicRecord_ends hrun hlog hend)
  · exact fun fit slope mean dT hrun htype hnew htime hfit hslope hmean hdT =>
      congrArg Host.Outcome.next (ocvRecord_fits hrun htype hnew htime hfit hslope hmean hdT)
  · rintro t hred hactive hbroken hin rfl
    exact congrArg Host.Outcome.next (reduceEnds_leaves hred hactive hbroken hin)
  · exact fun hcause hbroken hin => congrArg Host.Outcome.next (tempwinEnds_clears hcause hbroken hin)

end Sys2Proof.Safety

/-! The evaluation of a die sensor (O42). -/
namespace Sys2Proof.Safety
open Sys2Proof.Machine

theorem abandonBist_therm (s : State) (k : Fin 5) : (abandonBist s k).therm = s.therm :=
  (abandonBist_same (pm := 263057) rfl (.refl 263057 s)).therm.resolve_left (by decide)

theorem hotCastle_therm (s : State) (k : Fin 5) : (hotCastle s k).therm = s.therm :=
  (hotCastle_same (pm := 263097) rfl (.refl 263097 s)).therm.resolve_left (by decide)

theorem die_queueEvent (s : State) (k : Fin 20) (code : Nat) (p : List Byte) :
    (queueEvent s code p).therm.die[k] = s.therm.die[k] := by rw [queueEvent_therm]

theorem die_updDie_self (s : State) (k : Fin 20) (f : Die → Die) : (s.updDie k f).therm.die[k] = f s.therm.die[k] :=
  vmod_same s.therm.die k f

/-! ### Steps that keep a part of a sensor -/

/-- A step keeps a part of a sensor, and the thresholds in force. -/
def KeepsDie {α : Type} (π : Die → α) (k : Fin 20) (s t : State) : Prop :=
  π t.therm.die[k] = π s.therm.die[k] ∧ t.therm.cfgF = s.therm.cfgF

section

variable {α : Type} {π : Die → α} {k : Fin 20} {s t u : State}

theorem KeepsDie.refl (π : Die → α) (k : Fin 20) (s : State) : KeepsDie π k s s := ⟨rfl, rfl⟩

theorem KeepsDie.trans (h : KeepsDie π k s t) (g : KeepsDie π k t u) : KeepsDie π k s u :=
  ⟨g.1.trans h.1, g.2.trans h.2⟩

theorem KeepsDie.of_therm (h : t.therm = s.therm) : KeepsDie π k s t := ⟨by rw [h], by rw [h]⟩

theorem KeepsDie.updDie {f : Die → Die} (h : KeepsDie π k s t) (hf : ∀ d, π (f d) = π d := by exact fun _ => rfl) :
    KeepsDie π k s (t.updDie k f) :=
  ⟨(congrArg π (die_updDie_self t k f)).trans ((hf _).trans h.1), h.2⟩

/-- A change of another part of the state. -/
theorem KeepsDie.of_eq (h : KeepsDie π k s t) (hdie : u.therm.die = t.therm.die) (hcfg : u.therm.cfgF = t.therm.cfgF) :
    KeepsDie π k s u := ⟨by rw [hdie, h.1], hcfg.trans h.2⟩

theorem KeepsDie.queueEvent (h : KeepsDie π k s t) (code : Nat) (p : List Byte) : KeepsDie π k s (queueEvent t code p) :=
  h.trans (.of_therm (queueEvent_therm ..))

theorem KeepsDie.ite {p : Prop} [Decidable p] (ht : KeepsDie π k s t) (hu : KeepsDie π k s u) :
    KeepsDie π k s (if p then t else u) := by
  split
  · exact ht
  · exact hu

end

section

variable (s : State) (k : Fin 20)

/-- Judging a sensor leaves what its evaluations have made of it. -/
theorem breakDie_die (cause : Nat) : KeepsDie (fun d => (d.level, d.warn, d.hot, d.stop)) k s (breakDie s k cause) := by
  unfold breakDie
  exact .queueEvent (.updDie (.refl _ k s)) ..

theorem judgeDie_die (v : DieConv) : KeepsDie (fun d => (d.level, d.warn, d.hot, d.stop)) k s (judgeDie s k v) := by
  unfold judgeDie
  dsimp only
  exact .ite (.refl _ k s) (.ite (breakDie_die s k 1) (.ite (.refl _ k s)
    (.ite (breakDie_die s k 2) (.updDie (.refl _ k s)))))

theorem lonelyDie_die : KeepsDie (fun d => (d.level, d.warn, d.hot, d.stop)) k s (lonelyDie s k) := by
  unfold lonelyDie
  exact .ite (breakDie_die s k 3) (.refl _ k s)

variable (x : Int)

theorem warnStep_die : KeepsDie (fun d => (d.reading, d.broken, d.level, d.hot, d.stop)) k s (warnStep s k x) := by
  unfold warnStep
  dsimp only
  refine .ite (.queueEvent ?_ ..) ?_
  · exact .of_eq (t := s.updDie k fun d => { d with warn := true }) (.updDie (.refl _ k s)) rfl rfl
  · exact (.ite (.queueEvent (.updDie (.refl _ k s)) ..) (.refl _ k s))

theorem throttleStep_die : KeepsDie (fun d => (d.reading, d.broken, d.warn, d.hot, d.stop)) k s (throttleStep s k x) := by
  unfold throttleStep
  dsimp only
  refine .ite (.refl _ k s) (.queueEvent (.ite ?_ (.updDie (.refl _ k s))) ..)
  exact .of_eq (t := s.updDie k fun d => { d with level := nextLevel (s.therm.die[k]).level x (throtAt s) })
    (.updDie (.refl _ k s)) rfl rfl

theorem fastStep_die :
    KeepsDie (fun d => (d.reading, d.broken, d.level, d.warn, d.hot, d.stop)) k s (fastStep s k x) := by
  unfold fastStep
  refine .ite (.updDie (.refl _ k s)) (.updDie (.refl _ k s) fun d => ?_)
  split
  · split
    · rfl
    · rfl
  · rfl

theorem cycleStep_die :
    KeepsDie (fun d => (d.reading, d.broken, d.level, d.warn, d.hot, d.stop)) k s (cycleStep s k x) := by
  unfold cycleStep
  dsimp only
  exact .ite (.of_eq (t := s.updDie k _) (.updDie (.refl _ k s)) rfl rfl) (.updDie (.refl _ k s))

theorem coolStep_die :
    KeepsDie (fun d => (d.reading, d.broken, d.level, d.warn, d.hot, d.stop)) k s (coolStep s k x) := by
  unfold coolStep
  exact .updDie (.refl _ k s)

/-- A hot engine that is left out keeps its sensor. -/
theorem handHot_die {c : Fin 5} {t : State} (h : handHot s k c = some t) :
    KeepsDie (fun d => (d.reading, d.broken, d.level, d.warn, d.stop)) k s t := by
  unfold handHot at h
  split at h
  case h_1 g _ =>
    dsimp only at h
    generalize hu : (if (s.grp[g]).castle = none then hotCastle s c else s) = u at h
    have hkept : KeepsDie (fun d => (d.reading, d.broken, d.level, d.warn, d.stop)) k s u := by
      rw [← hu]
      exact .ite (.of_therm (hotCastle_therm ..)) (.refl _ k s)
    split at h
    · cases h
      exact hkept.updDie
    · cases h
  case h_2 => cases h

/-- What the work of a stop leaves of its sensor. -/
theorem stopZoneWork_die :
    KeepsDie (fun d => (d.reading, d.broken, d.level, d.warn, d.stop)) k s (stopZoneWork s k) := by
  unfold stopZoneWork
  dsimp only
  split
  case isFalse => exact .updDie (.refl _ k s)
  case isTrue h =>
    cases hhand : handHot s k ⟨k.val, h⟩ with
    | none => exact .updDie (.refl _ k s)
    | some t => exact handHot_die s k hhand

/-- The stop of a zone begins. -/
theorem beginStop_die : KeepsDie (fun d => (d.reading, d.broken, d.level, d.warn)) k s (beginStop s k) ∧
    ((beginStop s k).therm.die[k]).stop = true := by
  unfold beginStop
  dsimp only
  generalize hu : queueEvent _ _ _ = u
  have hdie : u.therm.die = vmod s.therm.die k fun d => { d with stop := true } := by
    rw [← hu, queueEvent_therm]
    rfl
  have hcfg : u.therm.cfgF = s.therm.cfgF := by
    rw [← hu, queueEvent_therm]
    rfl
  have hstop : (u.therm.die[k]).stop = true := by rw [hdie, vmod_same]
  have hbegun : KeepsDie (fun d => (d.reading, d.broken, d.level, d.warn)) k s u :=
    .of_eq (t := s.updDie k fun d => { d with stop := true }) (.updDie (.refl _ k s)) hdie hcfg
  have hwork := stopZoneWork_die u k
  exact ⟨hbegun.trans ⟨congrArg (fun y => (y.1, y.2.1, y.2.2.1, y.2.2.2.1)) hwork.1, hwork.2⟩,
    (congrArg (fun y => y.2.2.2.2) hwork.1).trans hstop⟩

/-- The second evaluation in succession at or above 140 degrees: a zone that stops already goes on. -/
theorem hotZone_die (s' : State) (h : KeepsDie (fun d => (d.reading, d.broken, d.level, d.warn)) k s s') :
    let t := if (s'.therm.die[k]).stop = false then beginStop s' k else if stranded s' k then stopZoneWork s' k else s'
    KeepsDie (fun d => (d.reading, d.broken, d.level, d.warn)) k s t ∧ (t.therm.die[k]).stop = true := by
  dsimp only
  split
  case isTrue => exact ⟨h.trans (beginStop_die s' k).1, (beginStop_die s' k).2⟩
  case isFalse hstop =>
    have hon : (s'.therm.die[k]).stop = true := eq_true_of_ne_false hstop
    have hwork := stopZoneWork_die s' k
    split
    · exact ⟨h.trans ⟨congrArg (fun y => (y.1, y.2.1, y.2.2.1, y.2.2.2.1)) hwork.1, hwork.2⟩,
        (congrArg (fun y => y.2.2.2.2) hwork.1).trans hon⟩
    · exact ⟨h, hon⟩

/-- The evaluations in succession at or above 140 degrees. -/
theorem stopStep_die : KeepsDie (fun d => (d.reading, d.broken, d.level, d.warn)) k s (stopStep s k x) ∧
    (14000 ≤ x → 1 ≤ (s.therm.die[k]).hot → ((stopStep s k x).therm.die[k]).stop = true) := by
  unfold stopStep
  by_cases hcool : x < 14000
  · rw [if_pos hcool]
    exact ⟨(.updDie (.refl _ k s)), fun hx => absurd hx (by omega)⟩
  · rw [if_neg hcool]
    dsimp only
    have hcount : KeepsDie (fun d => (d.reading, d.broken, d.level, d.warn)) k s
        (s.updDie k fun d => { d with hot := (s.therm.die[k]).hot + 1 }) := (.updDie (.refl _ k s))
    by_cases hfirst : (s.therm.die[k]).hot + 1 < 2
    · rw [if_pos hfirst]
      exact ⟨hcount, fun _ hhot => absurd hhot (by omega)⟩
    · rw [if_neg hfirst]
      have hzone (v : State) (hv : v.therm = (s.updDie k fun d => { d with hot := (s.therm.die[k]).hot + 1 }).therm) :=
        hotZone_die s k v (hcount.trans (.of_therm hv))
      split
      case isTrue h =>
        have hall := hzone _ (abandonBist_therm (s.updDie k fun d => { d with hot := (s.therm.die[k]).hot + 1 }) ⟨k.val, h⟩)
        exact ⟨hall.1, fun _ _ => hall.2⟩
      case isFalse =>
        have hall := hzone _ rfl
        exact ⟨hall.1, fun _ _ => hall.2⟩

/-- The warning after a reading: entered at WARN, left 5 K below it. -/
theorem warnStep_warn : ((warnStep s k x).therm.die[k]).warn =
    if (s.therm.die[k]).warn = true then decide (warnAt s - 500 ≤ x) else decide (warnAt s ≤ x) := by
  unfold warnStep
  dsimp only
  split
  case isTrue h =>
    rw [die_queueEvent, if_neg (ne_true_of_eq_false h.1), decide_eq_true h.2]
    exact congrArg Die.warn (die_updDie_self ..)
  case isFalse hentry =>
    split
    case isTrue h =>
      rw [die_queueEvent, if_pos h.1, decide_eq_false (by omega)]
      exact congrArg Die.warn (die_updDie_self ..)
    case isFalse hexit =>
      by_cases hwarn : (s.therm.die[k]).warn = true
      · rw [if_pos hwarn, hwarn, decide_eq_true (by simp only [hwarn, true_and] at hexit; omega)]
      · have hoff := eq_false_of_ne_true hwarn
        rw [if_neg hwarn, hoff, decide_eq_false (fun h => hentry ⟨hoff, h⟩)]

/-- The throttle level after a reading. -/
theorem throttleStep_level : ((throttleStep s k x).therm.die[k]).level = nextLevel (s.therm.die[k]).level x (throtAt s) := by
  unfold throttleStep
  dsimp only
  split
  case isTrue h => exact h.symm
  case isFalse =>
    rw [die_queueEvent]
    split
    · exact congrArg Die.level (die_updDie_self ..)
    · exact congrArg Die.level (die_updDie_self ..)

end

/-! ### One evaluation (R274, R276, R279, R280, R284) -/

theorem KeepsDie.part {α β : Type} {π : Die → α} {k : Fin 20} {s t : State} (h : KeepsDie π k s t) (g : α → β) :
    KeepsDie (fun d => g (π d)) k s t := ⟨congrArg g h.1, h.2⟩

section

variable (s : State) (k : Fin 20) (x : Int)

/-- The state in which the thresholds have acted on a reading. -/
def thresholdsActed (s : State) (k : Fin 20) (x : Int) : State :=
  throttleStep (warnStep (if k = 17 then
      { s with aux := { s.aux with temp := (if s.aux.temp.1 < x then x else s.aux.temp.1, s.aux.temp.2) } }
    else s) k x) k x

theorem thresholdsActed_die :
    KeepsDie (fun d => (d.reading, d.broken, d.hot, d.stop)) k s (thresholdsActed s k x) ∧
    ((thresholdsActed s k x).therm.die[k]).level = nextLevel (s.therm.die[k]).level x (throtAt s) ∧
    ((thresholdsActed s k x).therm.die[k]).warn =
      if (s.therm.die[k]).warn = true then decide (warnAt s - 500 ≤ x) else decide (warnAt s ≤ x) := by
  unfold thresholdsActed
  generalize hu : (if k = 17 then { s with aux := _ } else s) = u
  have htherm : u.therm = s.therm := by
    rw [← hu]
    split <;> rfl
  have hsame : KeepsDie (fun d => d) k s u := .of_therm htherm
  have hwarn := warnStep_die u k x
  have hthrottle := throttleStep_die (warnStep u k x) k x
  refine ⟨(hsame.part fun d => (d.reading, d.broken, d.hot, d.stop)).trans ((hwarn.part
    fun y => (y.1, y.2.1, y.2.2.2.1, y.2.2.2.2)).trans (hthrottle.part fun y => (y.1, y.2.1, y.2.2.2.1, y.2.2.2.2))), ?_, ?_⟩
  · have hlevel : ((warnStep u k x).therm.die[k]).level = (s.therm.die[k]).level :=
      (congrArg (fun y => y.2.2.1) hwarn.1).trans (congrArg Die.level hsame.1)
    rw [throttleStep_level, hlevel, throtAt, hwarn.2, hsame.2]
    rfl
  · have hkept : ((throttleStep (warnStep u k x) k x).therm.die[k]).warn = ((warnStep u k x).therm.die[k]).warn :=
      congrArg (fun y => y.2.2.1) hthrottle.1
    have hdie : u.therm.die[k] = s.therm.die[k] := hsame.1
    rw [hkept, warnStep_warn, hdie, warnAt, hsame.2]
    rfl

/-- The group of an engine at throttle level 2 goes to the spare. -/
def hotActed (s : State) (k : Fin 20) : State :=
  if h : k.val < 5 then
    if (s.therm.die[k]).level = 2 then hotCastle s ⟨k.val, h⟩ else s
  else s

theorem hotActed_therm : (hotActed s k).therm = s.therm := by
  unfold hotActed
  split
  · split
    · exact hotCastle_therm ..
    · rfl
  · rfl

/-- What acts on a reading after the thresholds. -/
theorem actOnReading_die : KeepsDie (fun d => (d.reading, d.broken, d.level, d.warn)) k (thresholdsActed s k x) (actOnReading s k x) ∧
    (14000 ≤ x → 1 ≤ (s.therm.die[k]).hot → ((actOnReading s k x).therm.die[k]).stop = true) := by
  have hfast := fastStep_die (thresholdsActed s k x) k x
  have hcycle := cycleStep_die (fastStep (thresholdsActed s k x) k x) k x
  have hcool := coolStep_die (cycleStep (fastStep (thresholdsActed s k x) k x) k x) k x
  have hbefore := hfast.trans (hcycle.trans hcool)
  obtain ⟨hstop, hhot⟩ := stopStep_die (coolStep (cycleStep (fastStep (thresholdsActed s k x) k x) k x) k x) k x
  have hcount : ((coolStep (cycleStep (fastStep (thresholdsActed s k x) k x) k x) k x).therm.die[k]).hot = (s.therm.die[k]).hot :=
    (congrArg (fun y => y.2.2.2.2.1) hbefore.1).trans (congrArg (fun y => y.2.2.1) (thresholdsActed_die s k x).1.1)
  rw [hcount] at hhot
  have hall := (hbefore.part fun y => (y.1, y.2.1, y.2.2.1, y.2.2.2.1)).trans hstop
  have hact : (actOnReading s k x).therm =
      (stopStep (coolStep (cycleStep (fastStep (thresholdsActed s k x) k x) k x) k x) k x).therm := hotActed_therm _ k
  exact ⟨hall.trans (.of_therm hact), by rw [hact]; exact hhot⟩

/-- One evaluation of a sensor: its reading, its warning and level, and its stop. -/
theorem evalDie_die (v : DieConv) {u : State} (hu : u = lonelyDie (judgeDie (takeThermCfg s) k v) k)
    (hx : x = usedReading u k v.mean) :
    ((evalDie s k v).therm.die[k]).reading = x ∧ (((evalDie s k v).therm.die[k]).broken = false → x = v.mean) ∧
    ((evalDie s k v).therm.die[k]).level = nextLevel (s.therm.die[k]).level x (bits s.therm.cfg 8 8 * 100) ∧
    ((evalDie s k v).therm.die[k]).warn = (if (s.therm.die[k]).warn = true then
        decide ((bits s.therm.cfg 0 8 : Int) * 100 - 500 ≤ x) else decide ((bits s.therm.cfg 0 8 : Int) * 100 ≤ x)) ∧
    (14000 ≤ x → 1 ≤ (s.therm.die[k]).hot → ((evalDie s k v).therm.die[k]).stop = true) := by
  let f : Die → Die := fun d => { d with reading := x, word := if d.broken then x else v.last, stamp := u.sys.epoch.toNat }
  have heval : evalDie s k v = actOnReading (u.updDie k f) k x := by
    subst hx hu
    rfl
  have hjudged : KeepsDie (fun d => (d.level, d.warn, d.hot, d.stop)) k (takeThermCfg s) u := by
    rw [hu]
    exact (judgeDie_die _ k v).trans (lonelyDie_die _ k)
  have hw : (u.updDie k f).therm.die[k] = f u.therm.die[k] := die_updDie_self u k f
  obtain ⟨hacted, hstop⟩ := actOnReading_die (u.updDie k f) k x
  obtain ⟨hkept, hlevel, hwarn⟩ := thresholdsActed_die (u.updDie k f) k x
  have hreading := (congrArg (fun y => y.1) hacted.1).trans (congrArg (fun y => y.1) hkept.1)
  have hbroken := (congrArg (fun y => y.2.1) hacted.1).trans (congrArg (fun y => y.2.1) hkept.1)
  have hlevel' := (congrArg (fun y => y.2.2.1) hacted.1).trans hlevel
  have hwarn' := (congrArg (fun y => y.2.2.2) hacted.1).trans hwarn
  dsimp only at hreading hbroken hlevel' hwarn'
  rw [hw] at hreading hbroken hlevel' hwarn' hstop
  have holdLevel : (u.therm.die[k]).level = (s.therm.die[k]).level := congrArg (fun y => y.1) hjudged.1
  have holdWarn : (u.therm.die[k]).warn = (s.therm.die[k]).warn := congrArg (fun y => y.2.1) hjudged.1
  have holdHot : (u.therm.die[k]).hot = (s.therm.die[k]).hot := congrArg (fun y => y.2.2.1) hjudged.1
  have hcfg : (u.updDie k f).therm.cfgF = s.therm.cfg := hjudged.2
  rw [heval]
  refine ⟨hreading, fun hsound => ?_, ?_, ?_, fun h14 hhot => hstop h14 (by rw [← holdHot] at hhot; exact hhot)⟩
  · rw [hbroken] at hsound
    rw [hx, usedReading]
    exact if_pos hsound
  · rw [hlevel', ← holdLevel, throtAt, hcfg]
  · rw [hwarn', ← holdWarn, warnAt, hcfg]

end

/-! ### The boot-time check (R285) -/

theorem bootBroken_outside {l : Vector (Option DieConv) 20} {k : Fin 20} {v : DieConv} (h : convOutside v = true) :
    bootBroken (l.set k.val (some v) k.isLt) k = some 1 := by
  have hk : (l.set k.val (some v) k.isLt)[k] = some v := Vector.getElem_set_self ..
  rw [bootBroken, hk]
  exact if_pos h

theorem all_isSome_set {l : Vector (Option DieConv) 20} {k : Fin 20} {v : DieConv} :
    (l.set k.val (some v) k.isLt).all (·.isSome) = true ↔ ∀ j : Fin 20, j ≠ k → l[j] ≠ none := by
  rw [Vector.all_eq_true]
  refine ⟨fun h j hj => ?_, fun h i hi => ?_⟩
  · have hset := h j.val j.isLt
    rw [Vector.getElem_set_ne _ _ (fun heq => hj (Fin.ext heq.symm))] at hset
    exact Option.isSome_iff_ne_none.mp hset
  · by_cases hik : k.val = i
    · subst hik
      rw [Vector.getElem_set_self]
      rfl
    · rw [Vector.getElem_set_ne _ _ hik]
      exact Option.isSome_iff_ne_none.mpr (h ⟨i, hi⟩ fun heq => hik (congrArg Fin.val heq).symm)

/-- The conversions before the end of the check count for it; those of the last sensor end it. -/
theorem thermEval_boot {s : State} {k : Fin 20} (v : DieConv) (hrun : thermRuns s = true) (hcheck : s.therm.checked = false) :
    thermEval k v s =
      let u := { s with therm := { s.therm with boot := s.therm.boot.set k.val (some v) k.isLt } }
      if u.therm.boot.all (·.isSome) then firstEvals u else u := by
  rw [thermEval, hrun, hcheck]
  rfl

theorem thermEval_checked {s : State} {k : Fin 20} (v : DieConv) (hrun : thermRuns s = true) (hcheck : s.therm.checked = true) :
    thermEval k v s = evalDie s k v := by
  rw [thermEval, hrun, hcheck]
  rfl

/-- Settles O42: an evaluation after the check by the thresholds, one before it by the sensors still missing. -/
theorem dieEvaluation : Obligations.DieEvaluation := by
  intro s u k v x hrun
  refine ⟨fun hcheck hu hx => ?_, fun hcheck hu => ⟨?_, ?_⟩, bootBroken_outside⟩
  · exact ⟨_, congrArg Host.Outcome.next (thermEval_checked v hrun hcheck), evalDie_die s k x v hu hx⟩
  · rintro ⟨j, hj, hnone⟩
    subst hu
    exact congrArg Host.Outcome.next ((thermEval_boot v hrun hcheck).trans
      (if_neg fun hall => all_isSome_set.mp hall j hj hnone))
  · intro hall
    subst hu
    exact congrArg Host.Outcome.next ((thermEval_boot v hrun hcheck).trans (if_pos (all_isSome_set.mpr hall)))

end Sys2Proof.Safety

/-! The end of an orderly stop, the hardware latch and the temperature inputs (O43). -/
namespace Sys2Proof.Safety
open Sys2Proof.Machine

section

variable {s : State}

/-- A zone that has been below WARN for 10 s ends its stop. -/
theorem stopEnds_cool {k : Fin 20} {t0 : Nat} (hstop : (s.therm.die[k]).stop = true) (hcool : (s.therm.die[k]).coolAt = some t0)
    (hlong : t0 + 10000000000 ≤ s.sys.tbase) (hread : k.val < 17 ∨ (s.therm.die[k]).broken = false) :
    stopEnds k s =
      queueEvent (s.updDie k fun d => { d with stop := false, stopDue := false }) 0x0703 (p1 k.val ++ p1 0) := by
  have hsensor : (privileged k && (s.therm.die[k]).broken) = false := by
    obtain hlow | hsound := hread
    · rw [privileged, decide_eq_false (Nat.not_le.mpr hlow), Bool.false_and]
    · rw [hsound, Bool.and_false]
  rw [stopEnds, hcool]
  refine if_pos ?_
  rw [hstop, hsensor]
  exact (congrArg (true && · && !false) (decide_eq_true hlong)).trans rfl

theorem latchTrips_new {k : Fin 20} (hpower : s.sys.phase ≠ .unpowered) (hnew : latchHolds s = false) :
    latchTrips k s =
      let t := holdIslands s .stopped
      { t with
        nvm := { t.nvm with thLatched := true, thSensor := k, thTold := false }
        aux := { t.aux with state := 0, mode := 0, brake := false, imb := false, trim := 0 } } :=
  if_neg (not_or.mpr ⟨hpower, ne_true_of_eq_false hnew⟩)

variable {i : Fin 24}

/-- A refresh of an input stamps it, and takes its voltage or its temperature. -/
theorem refreshInput_runs (x : Nat) (hrun : thermRuns s = true) :
    refreshInput i x s =
      let u := s.updInp i fun t => { t with lastNs := s.sys.tbase, stamp := s.sys.epoch.toNat }
      if voltageInput s i then refreshVolt u i x else refreshNtc u i x (s.sys.tbase - (s.therm.inp[i]).lastNs) :=
  if_neg (ne_false_of_eq_true hrun)

theorem refreshVolt_within {x : Nat} (h : x ≤ 65536) :
    refreshVolt s i x = s.updInp i fun t => { t with
      uv := (divRound (x * 2500000 : Nat) 65536).toNat, volt := true, ovr := false, broken := false, outRun := 0 } := by
  rw [refreshVolt, decide_eq_false (Nat.not_lt.mpr h), Nat.min_eq_left h]
  rfl

theorem refreshVolt_beyond {x : Nat} (h : 65536 < x) :
    refreshVolt s i x = overRangeLink (s.updInp i fun t => { t with
      uv := 2500000, volt := true, ovr := true, broken := false, outRun := 0 }) (0x68 + i.val) := by
  have huv : (divRound (65536 * 2500000 : Nat) 65536).toNat = 2500000 := by decide
  rw [refreshVolt, decide_eq_true h, Nat.min_eq_right (Nat.le_of_lt h), huv]
  rfl

/-- A refresh of an NTC input: of a channel input it serves OT, its windows and conditions too. -/
theorem refreshNtc_takes {x ns : Nat} {d : Int × State} {v : State}
    (hd : d = match thermistor (inputCfg s i).1 (inputCfg s i).2 x with
      | some temp => (temp, s)
      | none => ((drawFree s).1 % 2147483648, (drawFree s).2))
    (hv : v = (brokenStep d.2 i x ns).updInp i fun t => { t with
      temp := d.1, volt := false, ovr := false, filt := if t.broken then t.filt else filterOver t.filt d.1 ns }) :
    refreshNtc s i x ns = if h : i.val < 16 then tempRefresh (otCheck v ⟨i.val, h⟩) ⟨i.val, h⟩ else v := by
  subst hd hv
  rfl

end

/-- Settles O43: each event in its situation, and a refresh by the kind of its input. -/
theorem thermalEventsComplete : Obligations.ThermalEventsComplete := by
  intro s k i x
  refine ⟨?_, ?_, fun hrun u v ns d hns hu => ⟨fun hvolt => ⟨fun hin => ?_, fun hout => ?_⟩,
    fun hntc hd hv => ⟨fun haux => ?_, fun h => ?_⟩⟩⟩
  · exact fun t0 hstop hcool hlong hread => congrArg Host.Outcome.next (stopEnds_cool hstop hcool hlong hread)
  · rintro t hpower hnew rfl
    exact congrArg Host.Outcome.next (latchTrips_new hpower hnew)
  · subst hu
    exact congrArg Host.Outcome.next ((refreshInput_runs x hrun).trans ((if_pos hvolt).trans (refreshVolt_within hin)))
  · subst hu
    exact congrArg Host.Outcome.next ((refreshInput_runs x hrun).trans ((if_pos hvolt).trans (refreshVolt_beyond hout)))
  · subst hns hu
    exact congrArg Host.Outcome.next ((refreshInput_runs x hrun).trans ((if_neg (ne_true_of_eq_false hntc)).trans
      ((refreshNtc_takes hd hv).trans (dif_neg (Nat.not_lt.mpr haux)))))
  · subst hns hu
    exact congrArg Host.Outcome.next ((refreshInput_runs x hrun).trans ((if_neg (ne_true_of_eq_false hntc)).trans
      ((refreshNtc_takes hd hv).trans (dif_pos h))))

end Sys2Proof.Safety

/-! The decisions of the link state machine (O44). -/
namespace Sys2Proof.Safety
open Sys2Proof.Machine

section

variable {s : State}

theorem decideLink_open (h : s.link.pend = none) (dest : LinkSt) (row wait : Nat) :
    decideLink s dest row wait = { s with link := { s.link with pend := some (dest, row, wait) } } := if_pos h

/-- Rows 1 to 3. -/
theorem sourceRows_open (h : s.link.pend = none) (wait : Nat) : sourceRows s wait = { s with link := { s.link with pend := some (
    if backupUsable s then (.handover, 1, wait) else if formingOk s then (.forming, 2, wait) else (.lost, 3, wait)) } } := by
  unfold sourceRows
  rw [decideLink_open h, decideLink_open h, decideLink_open h]
  split
  · rfl
  · split <;> rfl

variable (hrun : linkRuns s = true)
include hrun

/-- The loss of the source in SOURCE. -/
theorem sourceLost_source (hst : s.link.st = .source) :
    sourceLost s = sourceRows { s with link := { s.link with lost := true } } 2 := by
  refine (if_pos hrun).trans ?_
  dsimp only
  rw [hst]

/-- The loss of the source in FORMING or LOST, with a backup. -/
theorem sourceLost_without (hst : s.link.st = .forming ∨ s.link.st = .lost) (hbackup : backupUsable s = true) :
    sourceLost s = decideLink { s with link := { s.link with lost := true } } .handover 12 2 := by
  refine (if_pos hrun).trans ?_
  obtain hst | hst := hst
  · dsimp only
    rw [hst]
    exact if_pos hbackup
  · dsimp only
    rw [hst]
    exact if_pos hbackup

theorem bkokEdge_handover (hst : s.link.st = .handover) :
    bkokEdge true s = decideLink { s with link := { s.link with bkok := true } } .backup 4 2 := by
  refine (if_pos hrun).trans ?_
  dsimp only
  rw [hst]

theorem bkokEdge_ret (hst : s.link.st = .ret) :
    bkokEdge false s = decideLink { s with link := { s.link with bkok := false } } .source 8 2 := by
  refine (if_pos hrun).trans ?_
  dsimp only
  rw [hst]

theorem handoverTimeout_handover (hst : s.link.st = .handover) (hpend : s.link.pend = none) :
    handoverTimeout s = decideLink s (formingOrLost s) 5 2 := by
  refine (if_pos ⟨hrun, hpend⟩).trans ?_
  rw [hst]

theorem handoverTimeout_ret (hst : s.link.st = .ret) (hpend : s.link.pend = none) :
    handoverTimeout s = decideLink (queueEvent s 0x0506 (p1 2)) .source 8 2 := by
  refine (if_pos ⟨hrun, hpend⟩).trans ?_
  rw [hst]

theorem returnQualified_backup (hst : s.link.st = .backup) (hqual : s.link.qual = true) :
    returnQualified s = decideLink s .ret 6 2 := by
  refine (if_pos ⟨hrun, hqual⟩).trans ?_
  rw [hst]

theorem returnQualified_without (hst : s.link.st = .forming ∨ s.link.st = .lost) (hqual : s.link.qual = true) :
    returnQualified s = decideLink s .source 9 2 := by
  refine (if_pos ⟨hrun, hqual⟩).trans ?_
  obtain hst | hst := hst <;> rw [hst]

end

/-- Settles O44: each row in the state that it leaves. -/
theorem linkDecisions : Obligations.LinkDecisions := by
  rintro s hrun hpend decide' rfl
  refine ⟨?_, fun hst => ⟨?_, ?_⟩, fun hst => ⟨?_, ?_⟩, fun hst => ⟨?_, fun hqual => ?_⟩, fun hst hqual => ?_,
    fun hst hzero => ?_⟩
  · rintro t rfl
    have hrows (hst : s.link.st = .source) := (sourceLost_source hrun hst).trans
      (sourceRows_open (s := { s with link := { s.link with lost := true } }) hpend 2)
    refine ⟨fun hst hbackup => ?_, fun hst hbackup hforming => ?_, fun hst hbackup hforming => ?_, fun hst hbackup => ?_⟩
    · exact congrArg Host.Outcome.next ((hrows hst).trans
        (congrArg (fun p => { s with link := { s.link with lost := true, pend := some p } }) (if_pos hbackup)))
    · exact congrArg Host.Outcome.next ((hrows hst).trans
        (congrArg (fun p => { s with link := { s.link with lost := true, pend := some p } })
          ((if_neg (ne_true_of_eq_false hbackup)).trans (if_pos hforming))))
    · exact congrArg Host.Outcome.next ((hrows hst).trans
        (congrArg (fun p => { s with link := { s.link with lost := true, pend := some p } })
          ((if_neg (ne_true_of_eq_false hbackup)).trans (if_neg (ne_true_of_eq_false hforming)))))
    · exact congrArg Host.Outcome.next ((sourceLost_without hrun hst hbackup).trans (if_pos hpend))
  · exact congrArg Host.Outcome.next ((bkokEdge_handover hrun hst).trans (if_pos hpend))
  · exact congrArg Host.Outcome.next ((handoverTimeout_handover hrun hst hpend).trans (decideLink_open hpend ..))
  · exact congrArg Host.Outcome.next ((bkokEdge_ret hrun hst).trans (if_pos hpend))
  · exact congrArg Host.Outcome.next (handoverTimeout_ret hrun hst hpend)
  · exact congrArg Host.Outcome.next ((if_pos ⟨hrun, hst⟩).trans (decideLink_open hpend ..))
  · exact congrArg Host.Outcome.next ((returnQualified_backup hrun hst hqual).trans (decideLink_open hpend ..))
  · exact congrArg Host.Outcome.next ((returnQualified_without hrun hst hqual).trans (decideLink_open hpend ..))
  · exact congrArg Host.Outcome.next ((if_pos ⟨hrun, hst, hzero⟩).trans (decideLink_open hpend ..))

end Sys2Proof.Safety

/-! Ticks, peers and return qualification of the link power manager (O45). -/
namespace Sys2Proof.Safety
open Sys2Proof.Machine

theorem offerMessage_link (s : State) (b : Fin 16) (elem : List Byte) : (offerMessage s b elem).link = s.link :=
  (offerMessage_same (pm := 2129921) rfl (.refl 2129921 s)).link.resolve_left (by decide)

/-! ### Ticks (R190 to R193) -/

/-- The configuration, sums and state of the link power manager at a tick. -/
def tickView (l : Link) : LinkRegs × Nat × Option (Vector Nat 16) × Nat × Nat × Nat × LinkSt :=
  (l.act, l.tick, l.alPend, l.d, l.gc, l.gm, l.st)

section

variable (s : State)

theorem decideLink_tickView (dest : LinkSt) (row wait : Nat) :
    tickView (decideLink s dest row wait).link = tickView s.link := by
  unfold decideLink
  split <;> rfl

theorem tickDecisions_tickView : tickView (tickDecisions s).link = tickView s.link := by
  unfold tickDecisions
  split
  · split
    · exact decideLink_tickView ..
    · rfl
  · split
    · exact decideLink_tickView ..
    · split
      · exact decideLink_tickView ..
      · rfl
  · rfl

theorem staleEnd_tickView : tickView (staleEnd s).link = tickView s.link := by
  unfold staleEnd
  dsimp only
  split
  · rw [queueEvent_link]
    rfl
  · rfl

theorem releasePaused_tickView : tickView (releasePaused s).link = tickView s.link := by
  unfold releasePaused
  dsimp only
  split
  · exact staleEnd_tickView _
  · split
    · exact staleEnd_tickView _
    · exact staleEnd_tickView _

theorem ite_link {p : Prop} [Decidable p] {t u : State} (h : t.link = u.link) : (if p then t else u).link = u.link := by
  split
  · exact h
  · rfl

/-- The state in which a tick has taken the configuration, the limits and the claims. -/
def tickStarted (s : State) : State :=
  let u := { s with link := { s.link with
    act := s.link.reg, bkf := s.link.bkf && !s.link.bkclr, bkclr := false, tick := s.link.tick + 1
    tickAt := s.sys.epoch.toNat + 1, vTick := s.link.vlink } }
  { u with link := { u.link with lim := sourceLimits u } }

variable {s}

/-- A tick takes the configuration and the claims, and forms its sums. -/
theorem linkTick_tickView (hdue : tickDue s = true) {v : State} (hv : v = tickStarted s) :
    tickView (linkTick s).link =
      (s.link.reg, s.link.tick + 1, some (Vector.ofFn (claimOf v)),
        (ownTotals v (Vector.ofFn (claimOf v))).1 + (peerTotals v).1,
        (ownTotals v (Vector.ofFn (claimOf v))).2.1 + (peerTotals v).2.1,
        (ownTotals v (Vector.ofFn (claimOf v))).2.2 + (peerTotals v).2.2, s.link.st) := by
  subst hv
  rw [linkTick, if_pos hdue]
  refine (releasePaused_tickView _).trans ((tickDecisions_tickView _).trans ?_)
  exact congrArg tickView (ite_link (offerMessage_link ..))

end

/-! ### Peers and source levels (R198, R200, R226) -/

section

variable {s : State} {n : Fin 16}

theorem budgetReceived_runs {m : BudgetMsg} (hrun : linkRuns s = true) (hserv : budgetService s = true) (hfmt : m.fmt = 1)
    (hlnk : m.lnk.toNat = nodeLnk s) (hnode : m.node.toNat = n.val) :
    budgetReceived m s =
      if n.val = nodeId s then queueRated s 0x050B 0 10000000000 (p1 n.val)
      else
        let t := if (s.link.peers[n]).present then keepMessage s else queueEvent (keepMessage s) 0x0509 (p1 n.val)
        let other := m.code.toNat != t.link.code
        let t := if other && !(s.link.peers[n]).told then queueEvent t 0x050C (p1 n.val ++ p1 m.code.toNat) else t
        t.updPeer n fun p =>
          { present := true, code := m.code.toNat, d := m.d.toNat, gc := m.gc.toNat, gm := m.gm.toNat,
            told := p.told || other } := by
  have hmine : ¬ (linkRuns s = false ∨ budgetService s = false ∨ m.fmt ≠ 1 ∨ m.lnk.toNat ≠ nodeLnk s) := by
    simp [hrun, hserv, hfmt, hlnk]
  obtain rfl : (⟨m.node.toNat, m.node.isLt⟩ : Fin 16) = n := Fin.ext hnode
  exact if_neg hmine

theorem updPeer_congr {f g : Peer → Peer} (h : f s.link.peers[n] = g s.link.peers[n]) : s.updPeer n f = s.updPeer n g :=
  congrArg (fun v => { s with link := { s.link with peers := v } }) (by rw [vmod, vmod, h])

theorem peerDemandDrop_absent (h : (s.link.peers[n]).present = false) :
    peerDemandDrop n s = s.updPeer n fun p => { p with d := 0 } :=
  updPeer_congr (if_neg (ne_true_of_eq_false h))

/-- An edge of SRCOK in a state in which return qualification runs. -/
theorem srcokEdge_qualifies (hrun : linkRuns s = true) (hst : qualifies s.link.st = true) (level : Bool) :
    srcokEdge level s =
      let t := { s with link := { s.link with srcok := level }
                        sys := { s.sys with srcRise := s.sys.phase == .park && level && (s.sys.srcRise || !s.link.srcok) } }
      if level then
        if s.link.qual || !linkVoltageOk s then t else startQual t
      else if s.link.qual then
        queueRated { t with link := { t.link with qual := false } } 0x0507 0 1000000000
          (p4 ((s.sys.tbase - s.link.qualAt) / 1000000 : Nat))
      else t :=
  if_neg (not_or.mpr ⟨ne_false_of_eq_true hrun, ne_false_of_eq_true hst⟩)

/-- A device whose link states run is not in PARK. -/
theorem notPark_of_linkRuns (hrun : linkRuns s = true) : (s.sys.phase == .park) = false := by
  rw [linkRuns, Bool.and_eq_true, beq_iff_eq] at hrun
  rw [hrun.1]
  rfl

end

/-- Settles O45: the sums of a tick, and each input in the situation of its rule. -/
theorem linkEventsComplete : Obligations.LinkEventsComplete := by
  intro s u v n
  refine ⟨fun hdue hu hv => ?tick, fun m hrun hserv hfmt hlnk hnode => ⟨fun hself => ?own, fun hother hpresent hcode => ?known,
    fun hother hpresent htold hcode => ?new⟩, fun hpresent => ?lost, fun habsent => ?drop,
    fun hrun hst => ⟨fun hqual hvolt => ?rise, fun hqual => ?fall⟩, fun b hout => ?level⟩
  case tick =>
    have hview := linkTick_tickView hdue (hv.trans (by rw [hu]; rfl))
    exact ⟨_, rfl, congrArg (·.1) hview, congrArg (·.2.1) hview, congrArg (·.2.2.1) hview, congrArg (·.2.2.2.1) hview,
      congrArg (·.2.2.2.2.1) hview, congrArg (·.2.2.2.2.2.1) hview, congrArg (·.2.2.2.2.2.2) hview⟩
  case own =>
    exact congrArg Host.Outcome.next ((budgetReceived_runs hrun hserv hfmt hlnk hnode).trans (if_pos hself))
  case known =>
    refine congrArg Host.Outcome.next ((budgetReceived_runs hrun hserv hfmt hlnk hnode).trans ((if_neg hother).trans ?_))
    dsimp only
    rw [if_pos hpresent]
    have hsame : (m.code.toNat != (keepMessage s).link.code) = false := by
      rw [hcode]
      exact bne_self_eq_false _
    rw [hsame]
    exact updPeer_congr (congrArg (Peer.mk _ _ _ _ _) (Bool.or_false _))
  case new =>
    refine congrArg Host.Outcome.next ((budgetReceived_runs hrun hserv hfmt hlnk hnode).trans ((if_neg hother).trans ?_))
    dsimp only
    have hdiff : (m.code.toNat != (queueEvent (keepMessage s) 0x0509 (p1 n.val)).link.code) = true := by
      rw [queueEvent_link]
      exact bne_iff_ne.mpr hcode
    rw [if_neg (ne_true_of_eq_false hpresent), hdiff, htold]
    exact updPeer_congr (congrArg (Peer.mk _ _ _ _ _) (Bool.or_true _))
  case lost => exact congrArg Host.Outcome.next (if_pos hpresent)
  case drop => exact congrArg Host.Outcome.next (peerDemandDrop_absent habsent)
  case rise =>
    refine congrArg Host.Outcome.next ((srcokEdge_qualifies hrun hst true).trans ?_)
    rw [hqual, hvolt, notPark_of_linkRuns hrun]
    rfl
  case fall =>
    refine congrArg Host.Outcome.next ((srcokEdge_qualifies hrun hst false).trans ?_)
    rw [hqual, notPark_of_linkRuns hrun]
    rfl
  case level => exact congrArg Host.Outcome.next (if_pos hout)

end Sys2Proof.Safety

/-! The events of the safety island (O47, O48). -/
namespace Sys2Proof.Safety
open Sys2Proof.Machine

/-! ### Where a demand comes from (R231 to R235, R241 to R243, R251, R412) -/

section

variable {s : State}

/-- A stop input that leaves its healthy state demands in its category. -/
theorem stopInput_demands (i : Fin 4) (b level : Bool) : stopInput i b level s =
    let t := discProgress { s with safe := { s.safe with
      raw := putBit s.safe.raw (inputBit i b) level, filt := putBit s.safe.filt (inputBit i b) level } } i
    if inputDemands t i = true ∧ inputDemands s i = false then demand t i.val (bits t.safe.act.incfg[i] 2 2) else t :=
  ite_congr (propext (by rw [Bool.and_eq_true, Bool.not_eq_true'])) (fun _ => rfl) (fun _ => rfl)

theorem discrepancy_latches {i : Fin 4} (hon : inputEnabled s i = true)
    (hdiff : s.safe.filt.getLsbD (2 * i.val) ≠ s.safe.filt.getLsbD (2 * i.val + 1)) (hnew : s.safe.disc.getLsbD i.val = false)
    (hrun : safetyRuns s = true) :
    discrepancy i s = demand (queueEvent { s with safe := { s.safe with
      disc := putBit s.safe.disc i.val true, bothLow := putBit s.safe.bothLow i.val false } } 0x0602 (p1 i.val)) 4 0 := by
  refine if_pos ?_
  rw [hon, bne_iff_ne.mpr hdiff, hnew, hrun]
  rfl

/-- A test pulse alternates the switch under test; a failure is one of that switch. -/
theorem offPulse_on {o : Fin 2} (hon : s.safe.soOn.getLsbD o.val = true) (hwork : s.safe.restarting = false) (pass : Bool) :
    offPulse o pass s =
      let t := { s with safe := { s.safe with soSwitch := putBit s.safe.soSwitch o.val !s.safe.soSwitch.getLsbD o.val } }
      if pass then t
      else outputFail { t with safe := { t.safe with soTest := putBit s.safe.soTest o.val true } } o
        (1 + b2n (s.safe.soSwitch.getLsbD o.val)) := by
  refine if_pos ?_
  rw [hon, hwork]
  rfl

theorem feedbackFault_latches {o : Fin 2} (hon : feedbackEnabled s o = true) (hbad : feedbackMatches s o = false) :
    feedbackFault o s = demand (queueEvent { s with safe := { s.safe with sofbF := putBit s.safe.sofbF o.val true } } 0x0605
      (p1 o.val ++ p1 (b2n (s.safe.sofb.getLsbD o.val)))) 6 0 := by
  refine if_pos ?_
  rw [hon, hbad]
  rfl

end

/-- Settles O47: each source in the situation in which it demands. -/
theorem demandSources : Obligations.DemandSources := by
  intro s t i g o b level
  refine ⟨?_, ?_, ?_, ?_, ?_, rfl, ?_, ?_, ?_⟩
  · rintro rfl
    refine ⟨fun hno => ?_, fun hnow hbefore => ?_⟩
    · refine congrArg Host.Outcome.next ((stopInput_demands i b level).trans (if_neg fun hboth => ?_))
      obtain hnow | hbefore := hno
      · exact Bool.false_ne_true (hnow.symm.trans hboth.1)
      · exact Bool.false_ne_true (hboth.2.symm.trans hbefore)
    · exact congrArg Host.Outcome.next ((stopInput_demands i b level).trans (if_pos ⟨hnow, hbefore⟩))
  · exact fun hon hdiff hnew hrun => congrArg Host.Outcome.next (discrepancy_latches hon hdiff hnew hrun)
  · rintro hon hwork rfl
    exact ⟨congrArg Host.Outcome.next (offPulse_on hon hwork true), congrArg Host.Outcome.next (offPulse_on hon hwork false)⟩
  · exact fun hon => congrArg Host.Outcome.next (if_pos hon)
  · exact fun hon hbad => congrArg Host.Outcome.next (feedbackFault_latches hon hbad)
  · exact fun hgood => congrArg Host.Outcome.next (if_neg (ne_true_of_eq_false hgood))
  · exact fun hgood => congrArg Host.Outcome.next (if_neg (ne_true_of_eq_false hgood))
  · rintro hgood rfl
    exact congrArg Host.Outcome.next (if_neg (ne_true_of_eq_false hgood))

/-! ### The other events (R230, R237, R238, R243, R244, R247 to R251, R255, R261, R412) -/

theorem timePasses_safe (s : State) : (timePasses s).safe = s.safe :=
  (timePasses_same (pm := 1) rfl (.refl 1 s)).safe.resolve_left (by decide)

theorem logChange_safe (s : State) (slot kind param : Nat) (old new : Word) (commit : Nat) :
    (logChange s slot kind param old new commit).safe = s.safe :=
  (logChange_same (pm := 1025) rfl (.refl 1025 s)).safe.resolve_left (by decide)

section

variable {s : State}

theorem sessionExpires_closes (hopen : s.safe.sessOpen = true)
    (hlate : s.safe.lastCmd + bits s.safe.act.gcfg 8 8 * 60000000000 ≤ (timePasses s).sys.tbase) :
    sessionExpires s =
      let t := queueEvent (logChange (timePasses s) s.safe.slot.val 10 0 0 0 0) 0x060A (p1 s.safe.slot.val ++ p1 2)
      { t with safe := { t.safe with sessOpen := false, defaultSess := false, sess := s.safe.act, slot := 0 } } := by
  rw [sessionExpires]
  dsimp only
  rw [timePasses_safe, if_pos hlate, closeSession, timePasses_safe, if_pos hopen]
  dsimp only
  rw [logChange_safe, timePasses_safe]
  generalize hq : queueEvent _ _ _ = q
  have hact : q.safe.act = s.safe.act := by rw [← hq, queueEvent_safe, logChange_safe, timePasses_safe]
  exact congrArg (fun a => { q with safe := { q.safe with sessOpen := false, defaultSess := false, sess := a, slot := 0 } }) hact

theorem unlockSlot_unlocks {m : Fin 4} (hlocked : s.safe.locked.getLsbD m.val = true)
    (hlate : s.safe.lockAt[m] + 60000000000 ≤ (timePasses s).sys.tbase) :
    unlockSlot m s = { timePasses s with safe := { s.safe with
      locked := putBit s.safe.locked m.val false, fails := s.safe.fails.set m.val 0 m.isLt } } := by
  rw [unlockSlot]
  dsimp only
  rw [timePasses_safe]
  exact if_pos ⟨hlocked, hlate⟩

theorem storeLatch_stores (hlatch : s.sticky.safeLatch = true) (hcfg : s.safe.act.gcfg.getLsbD 0 = true) :
    storeLatch s = { s with nvm := { s.nvm with latCopy := true } } := by
  refine if_pos ?_
  rw [hlatch, hcfg]
  rfl

/-- The restart of the safety island. -/
theorem safetyDiverged_runs (hrun : safetyRuns s = true) : safetyDiverged s =
    let t := { s with safe := { s.safe with restarting := true } }
    if s.sys.mode = .safe ∧ (demandActive s = true ∨ s.safe.cat = 2) ∧ s.safe.cat ≠ 0 then escalate t else t :=
  if_neg (ne_false_of_eq_true hrun)

end

/-- Settles O48: each event in the situation of its rule. -/
theorem safetyEventsComplete : Obligations.SafetyEventsComplete := by
  intro s t u c o m
  refine ⟨?_, ?_, ?_, ?_, rfl, rfl, ?_, ?_, ?_, ?_, ?_, fun level => rfl, rfl⟩
  · exact fun htimer => congrArg Host.Outcome.next (if_pos htimer)
  · exact fun mA hmode hcat hstill hmA => congrArg Host.Outcome.next (if_pos ⟨hmode, hcat, hstill, hmA⟩)
  · exact fun k hactive => congrArg Host.Outcome.next (if_pos hactive)
  · exact fun f hrun => congrArg Host.Outcome.next (if_neg (ne_false_of_eq_true hrun))
  · rintro hrun rfl
    exact ⟨fun hmode hdemand hcat =>
        congrArg Host.Outcome.next ((safetyDiverged_runs hrun).trans (if_pos ⟨hmode, hdemand, hcat⟩)),
      fun hmode => congrArg Host.Outcome.next ((safetyDiverged_runs hrun).trans (if_neg fun h => hmode h.1))⟩
  · exact fun us hrestart => congrArg Host.Outcome.next (if_pos hrestart)
  · rintro hopen rfl hlate rfl
    exact congrArg Host.Outcome.next (sessionExpires_closes hopen hlate)
  · rintro hlocked rfl hlate
    exact congrArg Host.Outcome.next (unlockSlot_unlocks hlocked hlate)
  · exact fun hlatch hcfg => congrArg Host.Outcome.next (storeLatch_stores hlatch hcfg)

end Sys2Proof.Safety

/-! The commands of the safety session (O49). -/
namespace Sys2Proof.Safety
open Sys2Proof.Machine

/-! ### What a session command finds (R261) -/

/-- Outside the epochs TBASE moves, and nothing else but the free values that it draws. -/
theorem timePasses_only (s : State) : ∃ tb fr d,
    timePasses s = { s with sys := { s.sys with tbase := tb, tbaseFrac := fr, freeDraws := d } } := by
  unfold timePasses
  split
  · exact ⟨_, _, _, rfl⟩
  · exact ⟨_, _, _, rfl⟩

/-- A session command restarts the timeout, where a session is open. -/
theorem sessionHeard_only (s : State) : ∃ tb fr d l, sessionHeard s =
    { s with sys := { s.sys with tbase := tb, tbaseFrac := fr, freeDraws := d }, safe := { s.safe with lastCmd := l } } := by
  unfold sessionHeard
  split
  · obtain ⟨tb, fr, d, h⟩ := timePasses_only s
    exact ⟨tb, fr, d, tb, by rw [touchSession, h]⟩
  · exact ⟨_, _, _, _, rfl⟩

/-- What a session command finds, once its request has been taken. -/
theorem heardTaken_only (i : Instr) (s : State) : ∃ p tb fr d l, sessionHeard (taken i s) =
    { s with port := p, sys := { s.sys with tbase := tb, tbaseFrac := fr, freeDraws := d }
             safe := { s.safe with lastCmd := l } } := by
  obtain ⟨p, hp⟩ := taken_port_only i s
  obtain ⟨tb, fr, d, l, h⟩ := sessionHeard_only (taken i s)
  exact ⟨p, tb, fr, d, l, by rw [h, hp]⟩

theorem sessionHeard_closed {s : State} (h : s.safe.sessOpen = false) : sessionHeard s = s :=
  if_neg (ne_true_of_eq_false h)

theorem sessionHeard_open {s : State} (h : s.safe.sessOpen = true) : sessionHeard s = touchSession s := if_pos h

/-! ### The bodies of the commands (R246, R255 to R260, R329, R330) -/

section

variable {s : State} {b : Byte} {m : Fin 4} (hslot : slotOf? b = some m)
include hslot

theorem hello_draws (hdef : s.safe.defaultSess = false) (hlock : s.safe.locked.getLsbD m.val = false)
    (hopen : s.safe.sessOpen = false) (hset : m = 0 ∨ (s.nvm.slots[m]).hash ≠ none) :
    hello b s =
      let d := drawEntropy (timePasses s)
      ({ d.2 with safe := { d.2.safe with nonce := some d.1, nonceAt := (timePasses s).sys.tbase } }, .now stOk
        (nonceBytes (if (s.nvm.slots[m]).hash = none then 0 else (s.nvm.slots[m]).salt) ++ nonceBytes d.1)) := by
  have hhas : ¬ (m ≠ 0 ∧ (s.nvm.slots[m]).hash = none) := fun h => hset.elim h.1 fun hne => hne h.2
  rw [hello, hslot]
  dsimp only
  rw [hdef, hlock, hopen, if_neg hhas]
  rfl

theorem hello_denied (hdef : s.safe.defaultSess = true) : hello b s = (s, .status stSafetyDenied) := by
  rw [hello, hslot]
  exact if_pos hdef

/-- A login with a nonce that still serves, by its proof. -/
theorem login_proves {p : List Byte} {n : BitVec 128} (hdef : s.safe.defaultSess = false)
    (hlock : s.safe.locked.getLsbD m.val = false) (hopen : s.safe.sessOpen = false) (hnonce : s.safe.nonce = some n)
    (htime : (timePasses s).sys.tbase ≤ (timePasses s).safe.nonceAt + 60000000000) :
    login b p s =
      let v := { timePasses s with safe := { (timePasses s).safe with nonce := none } }
      if proofMatches (timePasses s) m n p then (openSession v m n, .status stOk) else (loginFail v m, .status stAuthFail) := by
  rw [login, hslot]
  dsimp only
  rw [if_neg (ne_true_of_eq_false hdef), if_neg (ne_true_of_eq_false hlock), if_neg (ne_true_of_eq_false hopen), hnonce]
  dsimp only
  rw [if_neg (Nat.not_lt.mpr htime)]

theorem login_denied {p : List Byte} (hdef : s.safe.defaultSess = true) : login b p s = (s, .status stSafetyDenied) := by
  rw [login, hslot]
  exact if_pos hdef

theorem passwd_sets {len : Byte} {x plain p : List Byte} (hopen : s.safe.sessOpen = true)
    (hplain : plain = xorBytes x ((sessionMask s 0x50).take 20)) (hlen : len ≠ 0) (hmay : maySetPassword s m false = true)
    (hp : passwordOf len.toNat plain = some p) :
    passwd b len x s = (logChange (setSlot (drawEntropy s).2 m
      { salt := (drawEntropy s).1, hash := some (hashOf (sha256 (nonceBytes (drawEntropy s).1 ++ p))) })
      s.safe.slot.val 2 m.val 0 0 0, .status stOk) := by
  rw [passwd, hopen, hslot]
  dsimp only
  rw [decide_eq_false hlen, hmay, ← hplain, hp]
  rfl

theorem passwd_clears {len : Byte} {x plain : List Byte} (hopen : s.safe.sessOpen = true)
    (hplain : plain = xorBytes x ((sessionMask s 0x50).take 20)) (hlen : len = 0) (hmay : maySetPassword s m true = true)
    (hm : m ≠ 0) (hzero : plain.any (· != 0) = false) :
    passwd b len x s = (logChange (setSlot s m Slot.empty) s.safe.slot.val 3 m.val 0 0 0, .status stOk) := by
  have hclear : ¬ (m = 0 ∨ plain.any (· != 0) = true) := not_or.mpr ⟨hm, ne_true_of_eq_false hzero⟩
  rw [passwd, hopen, hslot]
  dsimp only
  rw [decide_eq_true hlen, hmay, ← hplain]
  exact if_neg hclear

end

section

variable {s : State}

theorem safeCommitBody_starts {r : Request} (hopen : s.safe.sessOpen = true) (hdef : s.safe.defaultSess = false)
    (huv : badUv s.safe.sess = none) (hdirty : sessionDirty s = true) (hfree : nvmBusy s = false) :
    safeCommitBody r s = ({ s with isl := { s.isl with nvmOp := .safe s.safe.sess }
                                   safe := { s.safe with commitTag := some r.tag } }, .later) := by
  rw [safeCommitBody, hopen, hdef, huv]
  dsimp only
  rw [hdirty, hfree]
  rfl

variable {f : Byte} {k : Mask} {r : Request} (hdef : s.safe.defaultSess = false)
include hdef

theorem safeAckBody_stages (hf : f = 1) (hmet : ackUnmet s = 0) (hstay : latchesStay s k = 0) (hfree : modePending s = false) :
    safeAckBody f k r s = (stage s (.mode (if s.sys.safeFrom = .service then .boot else s.sys.safeFrom) false false true k)
      r.opc (some r.tag) (allIslands s), .later) := by
  subst hf
  simp [safeAckBody, hdef, hmet, hstay, hfree]

theorem safeAckBody_clears (hf : f = 0) (hk : k ≠ 0) (hstay : latchesStay s k = 0) :
    safeAckBody f k r s = (stage s (.clearLatch k) r.opc (some r.tag) (islandBit 8), .later) := by
  subst hf
  have hsel : ¬ k = 0#16 := hk
  simp [safeAckBody, hdef, hsel, hstay]

theorem safeAckBody_unmet (hf : f = 1) (hunmet : ackUnmet s ≠ 0) :
    safeAckBody f k r s = (s, .now stSafetyDenied (ackPayload (ackUnmet s) (latchesStay s k))) := by
  subst hf
  simp [safeAckBody, hdef, hunmet]

theorem safeKeyBody_stores {x key : List Byte} (hopen : s.safe.sessOpen = true) (hzero : s.safe.slot = 0)
    (hkey : key = xorBytes x (sessionMask s 0x4B)) :
    safeKeyBody x s = (if key.all (· == 0) = true
      then logChange { s with nvm := { s.nvm with key := none } } 0 3 0xFF 0 0 0
      else logChange { s with nvm := { s.nvm with key := some (hashOf key) } } 0 2 0xFF 0 0 0, .status stOk) := by
  have hin : ¬ (s.safe.sessOpen = false ∨ s.safe.slot ≠ 0 ∨ s.safe.defaultSess = true) := by
    rw [hopen, hzero, hdef]
    decide
  rw [safeKeyBody, if_neg hin, ← hkey]
  dsimp only
  split <;> rfl

end

/-! ### The commands in their turn -/

theorem taken_safe (i : Instr) (s : State) : (taken i s).safe = s.safe := takeRequest_safe ..

theorem taken_nvm (i : Instr) (s : State) : (taken i s).nvm = s.nvm := takeRequest_nvm ..

theorem proofMatches_later (i : Instr) (s : State) (m : Fin 4) (n : BitVec 128) (p : List Byte) :
    proofMatches (timePasses (taken i s)) m n p = proofMatches s m n p := by
  obtain ⟨q, hq⟩ := taken_port_only i s
  obtain ⟨tb, fr, d, h⟩ := timePasses_only (taken i s)
  rw [h, hq]
  rfl

section

variable {s : State} {b : Byte} {m : Fin 4} (hslot : slotOf? b = some m)
include hslot

theorem exec_safeHello (h : Served (.safeHello b) s) (hlock : s.safe.locked.getLsbD m.val = false)
    (hopen : s.safe.sessOpen = false) (hdef : s.safe.defaultSess = false) (hset : m = 0 ∨ (s.nvm.slots[m]).hash ≠ none) :
    exec (.safeHello b) s =
      let u := timePasses (taken (.safeHello b) s)
      .next (replied (.safeHello b) s { (drawEntropy u).2 with
          safe := { (drawEntropy u).2.safe with nonce := some (drawEntropy u).1, nonceAt := u.sys.tbase } } stOk
        (nonceBytes (if (s.nvm.slots[m]).hash = none then 0 else (s.nvm.slots[m]).salt) ++ nonceBytes (drawEntropy u).1)) := by
  rw [← taken_safe (.safeHello b)] at hlock hopen hdef
  rw [← taken_nvm (.safeHello b)] at hset
  refine congrArg Host.Outcome.next (hostCommand_replies h ?_)
  rw [sessionHeard_closed hopen, hello_draws hslot hdef hlock hopen hset, taken_nvm]

theorem exec_safeLogin {p : List Byte} {n : BitVec 128} (hp : p.length = 32) (h : Served (.safeLogin b p) s)
    (hlock : s.safe.locked.getLsbD m.val = false) (hopen : s.safe.sessOpen = false) (hdef : s.safe.defaultSess = false)
    (hnonce : s.safe.nonce = some n) (htime : (timePasses (taken (.safeLogin b p) s)).sys.tbase ≤ s.safe.nonceAt + 60000000000) :
    let u := timePasses (taken (.safeLogin b p) s)
    let v := { u with safe := { u.safe with nonce := none } }
    (proofMatches s m n p = true → exec (.safeLogin b p) s = .next (replied (.safeLogin b p) s (openSession v m n) stOk [])) ∧
    (proofMatches s m n p = false → exec (.safeLogin b p) s = .next (replied (.safeLogin b p) s (loginFail v m) stAuthFail [])) := by
  rw [← taken_safe (.safeLogin b p)] at hlock hopen hdef hnonce htime
  have hlogin := login_proves (p := p) hslot hdef hlock hopen hnonce (by rw [timePasses_safe]; exact htime)
  have hexec {w : State} {st : Byte} (hb : login b p (taken (.safeLogin b p) s) = (w, .status st)) :
      exec (.safeLogin b p) s = .next (replied (.safeLogin b p) s w st []) := by
    refine congrArg Host.Outcome.next ?_
    rw [lengthIn_eq_true (Nat.le_of_eq hp.symm) (Nat.le_of_eq hp)]
    exact hostCommand_replies h ((congrArg (login b p) (sessionHeard_closed hopen)).trans hb)
  rw [proofMatches_later] at hlogin
  exact ⟨fun hmatch => hexec (hlogin.trans (if_pos hmatch)),
    fun hmatch => hexec (hlogin.trans (if_neg (ne_true_of_eq_false hmatch)))⟩

/-- In the session of slot 0 without a password the commands of a session are denied. -/
theorem exec_session_denied {i : Instr} {p : List Byte} (hi : i = .safeHello b ∨ i = .safeLogin b p ∨ i = .safeLogout)
    (hp : p.length = 32) (h : Served i s) (hdef : s.safe.defaultSess = true) :
    exec i s = .next (replied i s (sessionHeard (taken i s)) stSafetyDenied []) := by
  obtain ⟨q, tb, fr, d, l, hu⟩ := heardTaken_only i s
  have hdef' : (sessionHeard (taken i s)).safe.defaultSess = true := by rw [hu]; exact hdef
  obtain rfl | rfl | rfl := hi
  · exact congrArg Host.Outcome.next (hostCommand_replies h (hello_denied hslot hdef'))
  · refine congrArg Host.Outcome.next ?_
    rw [lengthIn_eq_true (Nat.le_of_eq hp.symm) (Nat.le_of_eq hp)]
    exact hostCommand_replies h (login_denied hslot hdef')
  · exact congrArg Host.Outcome.next (hostCommand_replies h (if_pos hdef'))

end

/-- Settles O49: each command on the state that hearing it in its turn leaves. -/
theorem sessionCommandsComplete : Obligations.SessionCommandsComplete := by
  intro s u b m hslot
  refine ⟨?hello, ?login, ?logout, fun i p hi hp h hdef => exec_session_denied hslot hi hp h hdef, ?commit, ?passwd, ?ack, ?key⟩
  case hello =>
    rintro i rfl rfl h hlock hopen hdef hset
    exact exec_safeHello hslot h hlock hopen hdef hset
  case login =>
    rintro p n v i rfl hp h hlock hopen hdef hnonce rfl htime rfl
    exact exec_safeLogin hslot hp h hlock hopen hdef hnonce htime
  case logout =>
    intro h hdef
    obtain ⟨q, tb, fr, d, l, hu⟩ := heardTaken_only .safeLogout s
    have hdef' : (sessionHeard (taken .safeLogout s)).safe.defaultSess = false := by rw [hu]; exact hdef
    exact congrArg Host.Outcome.next (hostCommand_replies h (if_neg (ne_true_of_eq_false hdef')))
  case commit =>
    intro h hopen hdef huv hdirty hfree hu
    obtain ⟨q, tb, fr, d, l, hheard⟩ := heardTaken_only .safeCommit s
    have htouch : sessionHeard (taken .safeCommit s) = u :=
      (sessionHeard_open (by rw [taken_safe]; exact hopen)).trans hu.symm
    rw [htouch] at hheard
    have hsess : u.safe.sess = s.safe.sess := by rw [hheard]
    refine congrArg Host.Outcome.next ((hostCommand_later h ?_).trans rfl)
    rw [htouch, ← hsess]
    exact safeCommitBody_starts (by rw [hheard]; exact hopen) (by rw [hheard]; exact hdef) (by rw [hheard]; exact huv)
      (by rw [hheard]; exact hdirty) (by rw [hheard]; exact hfree)
  case passwd =>
    rintro len x plain p i rfl hx h hopen hu hplain
    obtain ⟨q, tb, fr, d, l, hheard⟩ := heardTaken_only (.safePasswd b len x) s
    have htouch : sessionHeard (taken (.safePasswd b len x) s) = u :=
      (sessionHeard_open (by rw [taken_safe]; exact hopen)).trans hu.symm
    rw [htouch] at hheard
    have hplain' : plain = xorBytes x ((sessionMask u 0x50).take 20) := by rw [hheard]; exact hplain
    have hslot' : u.safe.slot = s.safe.slot := by rw [hheard]
    have hexec {w : State} {st : Byte} (hb : passwd b len x u = (w, .status st)) :
        exec (.safePasswd b len x) s = .next (replied (.safePasswd b len x) s w st []) := by
      refine congrArg Host.Outcome.next ?_
      rw [lengthIn_eq_true (Nat.le_of_eq hx.symm) (Nat.le_of_eq hx)]
      exact hostCommand_replies h ((congrArg (passwd b len x) htouch).trans hb)
    rw [← hslot']
    exact ⟨fun hlen hmay hp => hexec (passwd_sets hslot (by rw [hheard]; exact hopen) hplain' hlen (by rw [hheard]; exact hmay) hp),
      fun hlen hmay hm hzero =>
        hexec (passwd_clears hslot (by rw [hheard]; exact hopen) hplain' hlen (by rw [hheard]; exact hmay) hm hzero)⟩
  case ack =>
    rintro f k i rfl h hf hdef rfl
    obtain ⟨q, tb, fr, d, l, hheard⟩ := heardTaken_only (.safeAck f k) s
    have hdef' : (sessionHeard (taken (.safeAck f k) s)).safe.defaultSess = false := by rw [hheard]; exact hdef
    have hfrom : (sessionHeard (taken (.safeAck f k) s)).sys.safeFrom = s.sys.safeFrom := by rw [hheard]
    have hislands : allIslands (sessionHeard (taken (.safeAck f k) s)) = allIslands s := by rw [hheard]; rfl
    refine ⟨fun hdev hmet hstay hfree => ?_, fun hdev hk hstay => ?_, fun hdev hunmet => ?_⟩
    · refine congrArg Host.Outcome.next ((hostCommand_later h
        (safeAckBody_stages (s := sessionHeard (taken (.safeAck f k) s)) hdef' hdev hmet hstay ?_)).trans ?_)
      · rw [hheard]
        exact hfree
      · rw [hfrom, hislands]
        rfl
    · exact congrArg Host.Outcome.next (hostCommand_later h (safeAckBody_clears hdef' hdev hk hstay))
    · exact congrArg Host.Outcome.next (hostCommand_replies h (safeAckBody_unmet hdef' hdev hunmet))
  case key =>
    rintro x key i rfl hx h hopen hzero hdef hu hkey
    obtain ⟨q, tb, fr, d, l, hheard⟩ := heardTaken_only (.safeKey x) s
    have htouch : sessionHeard (taken (.safeKey x) s) = u :=
      (sessionHeard_open (by rw [taken_safe]; exact hopen)).trans hu.symm
    rw [htouch] at hheard
    refine congrArg Host.Outcome.next ?_
    rw [lengthIn_eq_true (Nat.le_of_eq hx.symm) (Nat.le_of_eq hx)]
    refine hostCommand_replies h ((congrArg (safeKeyBody x) htouch).trans ?_)
    exact safeKeyBody_stores (by rw [hheard]; exact hdef) (by rw [hheard]; exact hopen) (by rw [hheard]; exact hzero)
      (by rw [hheard]; exact hkey)

end Sys2Proof.Safety

/-! What a reset keeps, and the commands that start BOOT (O50). -/
namespace Sys2Proof.Safety
open Sys2Proof.Machine

/-- An entry of the image of a vector. -/
theorem vmap_getElem {α β : Type} {n : Nat} (v : Vector α n) (f : α → β) (i : Fin n) : (vmap v f)[i] = f v[i] :=
  Vector.getElem_ofFn i.isLt

/-- An entry of the image of a vector with the index. -/
theorem vmapI_getElem {α β : Type} {n : Nat} (v : Vector α n) (f : Fin n → α → β) (i : Fin n) :
    (vmapI v f)[i] = f i v[i] :=
  Vector.getElem_ofFn i.isLt

section
variable {s : State} {cause : BootCause} {n ohm : Nat}

/-- Over every BOOT that is not a power-on reset the sticky records stand (R44). -/
theorem restart_sticky_kept (h : cause ≠ .powerOn) : (restart s cause n).sticky = s.sticky := by
  cases cause
  case powerOn => exact absurd rfl h
  all_goals rfl

theorem restart_nvm_kept (h : cause ≠ .powerOn) : (restart s cause n).nvm = s.nvm := by
  cases cause
  case powerOn => exact absurd rfl h
  all_goals rfl

theorem restart_ch (c : Fin 16) : (restart s cause n).ch[c] = keptChan (cause == .powerOn) s.ch[c] :=
  vmap_getElem s.ch (keptChan (cause == .powerOn)) c

/-- A channel of a BOOT that is not a power-on reset. -/
theorem restart_ch_kept (h : cause ≠ .powerOn) (c : Fin 16) :
    (restart s cause n).ch[c] = keptChan false s.ch[c] := by
  rw [restart_ch]
  cases cause
  case powerOn => exact absurd rfl h
  all_goals rfl

theorem restart_tbase_runs (h : cause ≠ .powerOn) (hp : cause ≠ .pin) :
    (restart s cause n).sys.tbase = s.sys.tbase := by
  cases cause
  case powerOn => exact absurd rfl h
  case pin => exact absurd rfl hp
  all_goals rfl

/-- The operation that a reset lets run on is that of a soft reset alone (R462). -/
theorem cutStore_unless (s : State) (cause : BootCause) : (if cause == .soft && storeBusy s then s else cutStore s)
    = if cause = .soft ∧ storeBusy s = true then s else cutStore s := by
  cases cause <;> cases storeBusy s <;> rfl

/-- No session was open: BOOT starts without an event. -/
theorem bootFrom_none (h : none = if s.safe.sessOpen then some s.safe.slot else s.sys.closed) :
    bootFrom s cause n = drawNonce
      (restart (closeSession (if cause = .soft ∧ storeBusy s = true then s else cutStore s) 4) cause n) := by
  unfold bootFrom
  dsimp only
  rw [← h, cutStore_unless]

/-- The session of slot `k` is told as closed after the BOOT (R261). -/
theorem bootFrom_some {k : Fin 4} (h : some k = if s.safe.sessOpen then some s.safe.slot else s.sys.closed) :
    bootFrom s cause n = drawNonce (queueEvent
      (restart (closeSession (if cause = .soft ∧ storeBusy s = true then s else cutStore s) 4) cause n)
      0x060A (p1 k.val ++ p1 4)) := by
  unfold bootFrom
  dsimp only
  rw [← h, cutStore_unless]

theorem powerOn_held (h : s.sys.rstLow = true) : powerOn ohm s = bootFrom s .powerOn 2 := if_pos h

theorem powerOn_free (h : s.sys.rstLow = false) :
    powerOn ohm s = readSrcid { bootFrom s .powerOn 2 with sys := { (bootFrom s .powerOn 2).sys with bootStep := 4 } } ohm :=
  if_neg (ne_true_of_eq_false h)

theorem settleDue_none (h : s.sys.due = .none) : settleDue s = s := by unfold settleDue; rw [h]

theorem resetReleased_held (h : s.sys.phase = .resetHeld) :
    resetReleased ohm s = readSrcid (bootFrom { s with sys := { s.sys with rstLow := false } } .pin 4) ohm := by
  unfold resetReleased
  dsimp only
  rw [h]
  rfl

/-- WAKE in DORMANT or PARK starts BOOT (R225). -/
theorem wakeRises_low (h : (settleDue s).sys.phase = .dormant ∨ (settleDue s).sys.phase = .park) :
    wakeRises ohm s
      = wakeBoot { settleDue s with sys := { (settleDue s).sys with wakeHigh := true } } 1 ohm := if_pos h

end

/-- Settles O50: what a reset keeps is read off `restart` cause by cause; the commands lead to `bootFrom`. -/
theorem resetKeepsRecords : Obligations.ResetKeepsRecords := by
  intro s cause n ohm c
  refine ⟨fun h => ?_, ?_, rfl, rfl, rfl, rfl, rfl, rfl, rfl, rfl, fun t m hm ht => ?_, fun h => ?_, fun h => ?_,
    fun hd h => ?_, fun src t ht => ?_⟩
  · have hc := restart_ch_kept (s := s) (n := n) h c
    refine ⟨restart_sticky_kept h, restart_nvm_kept h, ?_, ?_, ?_, ?_, restart_tbase_runs h, ?_⟩
    · exact (congrArg Chan.q hc :)
    · exact (congrArg Chan.e hc :)
    · exact (congrArg Chan.logSeq hc :)
    · exact (congrArg Chan.rseq hc :)
    · rintro rfl
      rfl
  · rintro rfl
    have hc := restart_ch (s := s) (cause := .powerOn) (n := n) c
    exact ⟨rfl, (congrArg Chan.q hc :), (congrArg Chan.e hc :), rfl, rfl⟩
  · subst ht
    constructor
    · rintro rfl
      exact bootFrom_none hm
    · rintro k rfl
      exact bootFrom_some hm
  · exact congrArg Host.Outcome.next (powerOn_held h)
  · exact congrArg Host.Outcome.next (resetReleased_held h)
  · have hs := settleDue_none hd
    have hw := wakeRises_low (s := s) (ohm := ohm) (Or.inl (by rw [hs]; exact h))
    rw [hs] at hw
    exact congrArg Host.Outcome.next hw
  · subst ht
    rfl

end Sys2Proof.Safety

/-! The sticky records and the device-wide registers through the operations of a demand: an event moves only its
sequence number, so the marks that BOOT reports and the SAFE latch stand (O46, O51, O56). -/
namespace Sys2Proof.Safety
open Sys2Proof.Machine

/-- The sticky records but for the sequence number of the events. -/
def noSeq (k : Sticky) : Sticky := { k with evSeq := 0 }

section
variable {s : State}

@[simp] theorem noSeq_commitEvent (d : EvDraft) : noSeq (commitEvent s d).sticky = noSeq s.sticky := by
  unfold commitEvent
  split <;> rfl

@[simp] theorem noSeq_queueEvent (code : Nat) (p : List Byte) :
    noSeq (queueEvent s code p).sticky = noSeq s.sticky := by
  unfold queueEvent
  split
  · rfl
  · split
    · exact noSeq_commitEvent _
    · rfl

theorem noSeq_foldl {β : Type} {f : State → β → State} (h : ∀ t b, noSeq (f t b).sticky = noSeq t.sticky) (l : List β)
    (s : State) : noSeq (l.foldl f s).sticky = noSeq s.sticky := foldl_keeps (fun s : State => noSeq s.sticky) h l s

theorem sticky_foldl {β : Type} {f : State → β → State} (h : ∀ t b, (f t b).sticky = t.sticky) (l : List β)
    (s : State) : (l.foldl f s).sticky = s.sticky := foldl_keeps (fun s : State => s.sticky) h l s

/-! ### What leaves the sticky records -/

theorem formRecord_sticky (c : Fin 16) (type rf : Nat) (p : List Byte) : (formRecord s c type rf p).sticky = s.sticky :=
  (formRecord_same (pm := 66) rfl (.refl 66 s)).sticky.resolve_left (by decide)

theorem formEndRecords_sticky (c : Fin 16) (r b : Nat) : (formEndRecords s c r b).sticky = s.sticky :=
  (formEndRecords_same (pm := 66) rfl (.refl 66 s)).sticky.resolve_left (by decide)

theorem abortMeas_sticky (c : Fin 16) : (abortMeas s c).sticky = s.sticky :=
  (abortMeas_same (pm := 258) rfl (.refl 258 s)).sticky.resolve_left (by decide)

theorem leaveRestart_sticky (c : Fin 16) : (leaveRestart s c).sticky = s.sticky :=
  (leaveRestart_same (pm := 12) rfl (.refl 12 s)).sticky.resolve_left (by decide)

theorem setStepTargets_sticky (c : Fin 16) : (setStepTargets s c).sticky = s.sticky :=
  (setStepTargets_same (pm := 2) rfl (.refl 2 s)).sticky.resolve_left (by decide)

theorem abandonSlot_sticky : (abandonSlot s).sticky = s.sticky :=
  (abandonSlot_same (pm := 16416) rfl (.refl 16416 s)).sticky.resolve_left (by decide)

theorem logChange_sticky (slot kind par : Nat) (o n : Word) (k : Nat) :
    (logChange s slot kind par o n k).sticky = s.sticky :=
  (logChange_same (pm := 1025) rfl (.refl 1025 s)).sticky.resolve_left (by decide)

theorem restageCastle_sticky (g : Fin 4) : (restageCastle s g).sticky = s.sticky :=
  (restageCastle_same (pm := 32) rfl (.refl 32 s)).sticky.resolve_left (by decide)

theorem restageLane_sticky (old : List Staged) (j : Fin 4) : (restageLane old s j).sticky = s.sticky :=
  (restageLane_same (pm := 32) rfl (.refl 32 s)).sticky.resolve_left (by decide)

theorem dropCastle_sticky (g : Fin 4) : (dropCastle s g).sticky = s.sticky := by
  unfold dropCastle unstageCastle
  split
  · rfl
  · simp only [State.updCe_sticky, State.updGrp_sticky]

/-! ### Channels and programs -/

theorem noSeq_endProgram (c : Fin 16) (r : Nat) (b : Bool) : noSeq (endProgram s c r b).sticky = noSeq s.sticky := by
  simp only [endProgram, State.updCh_sticky, State.updProg_sticky, noSeq_queueEvent, formRecord_sticky]

theorem noSeq_abortProgram (c : Fin 16) (r : Nat) : noSeq (abortProgram s c r).sticky = noSeq s.sticky := by
  unfold abortProgram
  split
  · rw [noSeq_endProgram, formEndRecords_sticky]
  · rfl

theorem noSeq_openChannel (c : Fin 16) (f : Chan → Chan) : noSeq (openChannel s c f).sticky = noSeq s.sticky := by
  unfold openChannel
  dsimp only
  split
  · rw [noSeq_queueEvent, State.updCh_sticky]
  · rw [State.updCh_sticky]

theorem noSeq_moveChannel (c : Fin 16) (n : ChState) : noSeq (moveChannel s c n).sticky = noSeq s.sticky := by
  unfold moveChannel
  dsimp only
  split
  · rfl
  · rw [noSeq_queueEvent, State.updCh_sticky]

theorem noSeq_offChannel (c : Fin 16) : noSeq (offChannel s c).sticky = noSeq s.sticky := by
  simp only [offChannel, State.updCh_sticky, noSeq_openChannel, noSeq_moveChannel, leaveRestart_sticky, abortMeas_sticky]

theorem noSeq_forceOffChannel (c : Fin 16) : noSeq (forceOffChannel s c).sticky = noSeq s.sticky := by
  simp only [forceOffChannel, State.updCh_sticky, noSeq_openChannel, noSeq_moveChannel, leaveRestart_sticky,
    abortMeas_sticky]

theorem noSeq_holdProgram (c : Fin 16) (k : Nat) : noSeq (holdProgram s c k).sticky = noSeq s.sticky := by
  unfold holdProgram
  split
  · dsimp only
    rw [State.updProg_sticky, noSeq_queueEvent, formRecord_sticky]
    split
    all_goals split
    all_goals simp only [State.updProg_sticky, formEndRecords_sticky]
  · rfl

theorem noSeq_holdChannel (c : Fin 16) : noSeq (holdChannel s c).sticky = noSeq s.sticky := by
  unfold holdChannel
  split
  · rw [State.updCh_sticky, noSeq_moveChannel, abortMeas_sticky]
  · rfl

theorem noSeq_holdNow (c : Fin 16) (k : Nat) : noSeq (holdNow s c k).sticky = noSeq s.sticky := by
  unfold holdNow
  refine (noSeq_foldl (fun _ _ => noSeq_holdChannel _) _ _).trans ?_
  rw [noSeq_holdProgram, addCause, State.updProg_sticky]

theorem noSeq_holdGroup (g : Fin 4) : noSeq (holdGroup s g).sticky = noSeq s.sticky := by
  refine noSeq_foldl (fun t c => ?_) _ _
  split
  · exact noSeq_holdNow c _
  · rfl

theorem noSeq_changeSource (c : Fin 16) (n : Src) : noSeq (changeSource s c n).sticky = noSeq s.sticky := by
  unfold changeSource
  dsimp only
  split
  · rfl
  · rw [noSeq_queueEvent, State.updCh_sticky, abortMeas_sticky]

/-! ### The categories -/

theorem noSeq_category0Channel (c : Fin 16) : noSeq (category0Channel s c).sticky = noSeq s.sticky := by
  unfold category0Channel
  split
  · rw [noSeq_forceOffChannel, safetyEnd, noSeq_abortProgram]
  · split
    · exact noSeq_openChannel c _
    · rfl

theorem noSeq_category0 : noSeq (category0 s).sticky = noSeq s.sticky := by
  unfold category0 setOutputs
  dsimp only
  refine (noSeq_foldl (fun t g => ?_) _ _).trans (noSeq_foldl (fun _ _ => noSeq_category0Channel _) _ _)
  rw [State.updGrp_sticky]

theorem noSeq_category1Channel (c : Fin 16) : noSeq (category1Channel s c).sticky = noSeq s.sticky := by
  unfold category1Channel
  split
  · rw [noSeq_offChannel, safetyEnd, noSeq_abortProgram]
  · rfl

theorem noSeq_category1 : noSeq (category1 s).sticky = noSeq s.sticky := by
  unfold category1
  dsimp only
  exact noSeq_foldl (fun _ _ => noSeq_category1Channel _) _ _

theorem noSeq_category2Channel (c : Fin 16) : noSeq (category2Channel s c).sticky = noSeq s.sticky := by
  unfold category2Channel
  split
  · rw [noSeq_offChannel, noSeq_abortProgram]
  · rw [noSeq_offChannel, noSeq_abortProgram]
  · refine (noSeq_foldl (fun t d => ?_) _ _).trans ?_
    · rw [State.updCh_sticky]
    · rw [noSeq_holdNow, leaveRestart_sticky]
  · rw [addCause, State.updProg_sticky, leaveRestart_sticky]
  · rfl

theorem noSeq_category2 : noSeq (category2 s).sticky = noSeq s.sticky := by
  unfold category2
  dsimp only
  exact noSeq_foldl (fun _ _ => noSeq_category2Channel _) _ _

theorem noSeq_categoryActions (cat : Nat) : noSeq (categoryActions s cat).sticky = noSeq s.sticky := by
  unfold categoryActions
  split
  · exact noSeq_category0
  · exact noSeq_category1
  · exact noSeq_category2

/-! ### A mode change -/

theorem noSeq_pauseProgram (c : Fin 16) : noSeq (pauseProgram s c).sticky = noSeq s.sticky := by
  unfold pauseProgram
  dsimp only
  split
  · split
    · split
      · rw [setStepTargets_sticky, noSeq_changeSource, State.updProg_sticky, formRecord_sticky]
      · rw [noSeq_changeSource, State.updProg_sticky, formRecord_sticky]
    · rw [State.updProg_sticky, formRecord_sticky]
  · rfl

theorem noSeq_disarmChannel (c : Fin 16) : noSeq (disarmChannel s c).sticky = noSeq s.sticky := by
  unfold disarmChannel
  rw [noSeq_openChannel, noSeq_moveChannel, abortMeas_sticky]

theorem noSeq_idleChannel (x : Staged) (c : Fin 16) : noSeq (idleChannel s x c).sticky = noSeq s.sticky := by
  unfold idleChannel
  dsimp only
  refine (noSeq_foldl (fun t d => ?_) _ _).trans ?_
  · split
    · exact noSeq_disarmChannel d
    · exact noSeq_offChannel d
  · split
    · exact noSeq_pauseProgram c
    · rfl

theorem noSeq_channelAction (old new : Mode) (x : Staged) (c : Fin 16) :
    noSeq (channelAction old new x s c).sticky = noSeq s.sticky := by
  unfold channelAction
  extract_lets st moves sleeps
  split
  · rfl
  split
  · exact noSeq_idleChannel x c
  split
  · refine noSeq_foldl (fun t d => ?_) _ _
    split
    · exact noSeq_offChannel d
    · rfl
  · rfl

theorem noSeq_takeSource (old new : Mode) (c : Fin 16) : noSeq (takeSource old new s c).sticky = noSeq s.sticky := by
  unfold takeSource
  dsimp only
  split
  · rw [State.updCh_sticky]
  · exact noSeq_changeSource c _

theorem noSeq_partialGroup (target : Mode) (x : Staged) (g : Fin 4) :
    noSeq (partialGroup target x s g).sticky = noSeq s.sticky := by
  unfold partialGroup
  split
  · rfl
  · rw [noSeq_holdGroup, noSeq_queueEvent]

theorem noSeq_channelActions (x : Staged) (target : Mode) :
    noSeq (channelActions s x target).sticky = noSeq s.sticky := by
  unfold channelActions
  dsimp only
  calc noSeq _ = noSeq _ := noSeq_foldl (fun _ _ => noSeq_partialGroup _ _ _) _ _
    _ = noSeq _ := noSeq_foldl (fun _ _ => noSeq_takeSource _ _ _) _ _
    _ = noSeq _ := noSeq_foldl (fun _ _ => noSeq_channelAction _ _ _ _) _ _
    _ = _ := congrArg noSeq (sticky_foldl (fun _ _ => leaveRestart_sticky _) _ _)

theorem noSeq_closeSession (r : Nat) : noSeq (closeSession s r).sticky = noSeq s.sticky := by
  unfold closeSession
  split
  · dsimp only
    rw [noSeq_queueEvent, logChange_sticky]
  · rfl

theorem noSeq_changeMode (x : Staged) (target : Mode) : noSeq (changeMode s x target).sticky = noSeq s.sticky := by
  unfold changeMode refreshOutputs setOutputs
  dsimp only
  split
  · rw [abandonSlot_sticky, noSeq_channelActions, noSeq_queueEvent]
  · rw [noSeq_closeSession, noSeq_channelActions, noSeq_queueEvent]

/-- A committed mode change that is no acknowledged reset leaves the latch and the marks (R213). -/
theorem noSeq_applyCommitted : noSeq (applyCommitted s).sticky = noSeq s.sticky := by
  unfold applyCommitted
  split
  · rename_i x target _
    unfold applyMode
    dsimp only
    rw [if_pos rfl]
    split
    · rw [reply_sticky, noSeq_changeMode]
    · exact noSeq_changeMode x target
  · rfl

/-! ### What a demand aborts -/

theorem noSeq_abortOne (x : Staged) : noSeq (abortOne s x).sticky = noSeq s.sticky := by
  unfold abortOne
  split
  · split
    · split
      · rw [reply_sticky]
      · rfl
    · dsimp only
      split
      · rw [reply_sticky, noSeq_queueEvent]
      · rw [noSeq_queueEvent]
  · split
    · rw [reply_sticky]
    · rfl

theorem noSeq_abortCastle (g : Fin 4) (r : Nat) : noSeq (abortCastle s g r).sticky = noSeq s.sticky := by
  unfold abortCastle
  split
  · split
    · dsimp only
      rw [noSeq_queueEvent, dropCastle_sticky]
    · rfl
  · rfl

theorem noSeq_abortPlanned (r : Nat) : noSeq (abortPlanned s r).sticky = noSeq s.sticky :=
  noSeq_foldl (fun _ _ => noSeq_abortCastle _ _) _ _

theorem noSeq_abortStaged : noSeq (abortStaged s).sticky = noSeq s.sticky := by
  unfold abortStaged
  extract_lets old u
  rw [sticky_foldl (fun _ _ => restageLane_sticky _ _), sticky_foldl (fun _ _ => restageCastle_sticky _)]
  exact (noSeq_abortPlanned _).trans (noSeq_foldl (fun _ _ => noSeq_abortOne _) _ _)

theorem noSeq_abortLegTest : noSeq (abortLegTest s).sticky = noSeq s.sticky := by
  unfold abortLegTest
  split
  · rfl
  · dsimp only
    rw [reply_sticky, testDone, noSeq_queueEvent, recordTest, drawFree_sticky]

end
end Sys2Proof.Safety

/-! ### The device-wide registers of a demand and of a mode change -/
namespace Sys2Proof.Safety
open Sys2Proof.Machine

/-- The device-wide registers but for the clock, the free values, and what an abort leaves of refusals, of a wake and of
the pace of a castling. -/
def steady (y : Sys) : Sys :=
  { y with tbase := 0, tbaseFrac := 0, freeDraws := 0, refusers := 0, wakePend := none, castleNs := 0 }

/-- The steady registers but for the modes and the sequences that a mode change starts. -/
def underModes (y : Sys) : Sys := { steady y with mode := .boot, prev := .boot, safeFrom := .boot, setl := 0 }

theorem underModes_of_steady {x y : Sys} (h : steady x = steady y) : underModes x = underModes y :=
  congrArg (fun z : Sys => { z with mode := .boot, prev := .boot, safeFrom := .boot, setl := 0 }) h

section
variable {s : State}

theorem steady_timePasses : steady (timePasses s).sys = steady s.sys := by
  unfold timePasses
  split
  · rfl
  · rfl

theorem steady_logChange (slot kind par : Nat) (o n : Word) (k : Nat) :
    steady (logChange s slot kind par o n k).sys = steady s.sys := by
  refine Eq.trans (congrArg steady ?_) steady_timePasses
  simp only [logChange]

theorem steady_closeSession (r : Nat) : steady (closeSession s r).sys = steady s.sys := by
  unfold closeSession
  split
  · dsimp only
    rw [queueEvent_sys, steady_logChange]
  · rfl

/-- The acknowledged change leaves the registers under the modes (R212). -/
theorem underModes_changeMode (x : Staged) (target : Mode) :
    underModes (changeMode s x target).sys = underModes s.sys := by
  have ha : ∀ u : State, (channelActions u x target).sys = u.sys := fun u =>
    (channelActions_same (pm := 974) rfl (.refl 974 u)).sys.resolve_left (by decide)
  have hb : ∀ u : State, (abandonSlot u).sys = u.sys := fun u =>
    (abandonSlot_same (pm := 16416) rfl (.refl 16416 u)).sys.resolve_left (by decide)
  unfold changeMode refreshOutputs setOutputs
  dsimp only
  split
  · rw [hb, ha, queueEvent_sys]
    rfl
  · refine (underModes_of_steady (steady_closeSession 3)).trans ?_
    rw [ha, queueEvent_sys]
    rfl

theorem underModes_applyCommitted : underModes (applyCommitted s).sys = underModes s.sys := by
  unfold applyCommitted
  split
  · rename_i x target _
    unfold applyMode
    dsimp only
    rw [if_pos rfl]
    split
    · rw [reply_sys, underModes_changeMode]
    · exact underModes_changeMode x target
  · rfl

theorem steady_foldl {β : Type} {f : State → β → State} (h : ∀ t b, steady (f t b).sys = steady t.sys) (l : List β)
    (s : State) : steady (l.foldl f s).sys = steady s.sys := foldl_keeps (fun s : State => steady s.sys) h l s

theorem steady_abortOne (x : Staged) : steady (abortOne s x).sys = steady s.sys := by
  unfold abortOne
  split
  · split
    · split
      · rw [reply_sys]
      · rfl
    · dsimp only
      split
      · rw [reply_sys, queueEvent_sys]
        rfl
      · rw [queueEvent_sys]
        rfl
  · split
    · rw [reply_sys]
    · rfl

theorem dropCastle_sys (g : Fin 4) : (dropCastle s g).sys = s.sys :=
  (dropCastle_same (pm := 56) rfl (.refl 56 s)).sys.resolve_left (by decide)

theorem steady_abortCastle (g : Fin 4) (r : Nat) : steady (abortCastle s g r).sys = steady s.sys := by
  unfold abortCastle
  split
  · split
    · dsimp only
      rw [queueEvent_sys, dropCastle_sys]
      rfl
    · rfl
  · rfl

theorem steady_abortPlanned (r : Nat) : steady (abortPlanned s r).sys = steady s.sys :=
  steady_foldl (fun _ _ => steady_abortCastle _ _) _ _

theorem restageCastle_sys (g : Fin 4) : (restageCastle s g).sys = s.sys :=
  (restageCastle_same (pm := 32) rfl (.refl 32 s)).sys.resolve_left (by decide)

theorem restageLane_sys (old : List Staged) (j : Fin 4) : (restageLane old s j).sys = s.sys :=
  (restageLane_same (pm := 32) rfl (.refl 32 s)).sys.resolve_left (by decide)

theorem steady_abortStaged : steady (abortStaged s).sys = steady s.sys := by
  unfold abortStaged
  extract_lets old u
  refine (steady_foldl (fun _ _ => congrArg steady (restageLane_sys _ _)) _ _).trans ?_
  refine (steady_foldl (fun _ _ => congrArg steady (restageCastle_sys _)) _ _).trans ?_
  exact (steady_abortPlanned 5).trans (steady_foldl (fun _ _ => steady_abortOne _) _ _)

theorem steady_abortLegTest : steady (abortLegTest s).sys = steady s.sys := by
  unfold abortLegTest
  split
  · rfl
  · dsimp only
    rw [reply_sys, testDone, queueEvent_sys, recordTest]
    rfl

theorem categoryActions_sys (cat : Nat) : (categoryActions s cat).sys = s.sys := by
  unfold categoryActions
  split
  · exact (category0_same (pm := 3022) rfl (.refl 3022 s)).sys.resolve_left (by decide)
  · exact (category1_same (pm := 3022) rfl (.refl 3022 s)).sys.resolve_left (by decide)
  · exact (category2_same (pm := 3022) rfl (.refl 3022 s)).sys.resolve_left (by decide)

theorem categoryActions_staged (cat : Nat) : (categoryActions s cat).staged = s.staged := by
  unfold categoryActions
  split
  · exact (category0_same (pm := 3022) rfl (.refl 3022 s)).staged.resolve_left (by decide)
  · exact (category1_same (pm := 3022) rfl (.refl 3022 s)).staged.resolve_left (by decide)
  · exact (category2_same (pm := 3022) rfl (.refl 3022 s)).staged.resolve_left (by decide)

/-! ### What is staged after an abort (R122, R149) -/

/-- Only the changes of lanes and of castlings are staged, and no island has answered. -/
def Restaged (s : State) : Prop :=
  ∀ x ∈ s.staged, ((∃ j, x.change = .lane j) ∨ ∃ g, x.change = .castle g) ∧ x.waiting = x.islands

theorem Restaged.of_sublist {t : State} (h : Restaged s) (ht : t.staged.Sublist s.staged) : Restaged t :=
  fun x hx => h x (ht.subset hx)

theorem Restaged.of_eq {t : State} (h : Restaged s) (ht : t.staged = s.staged) : Restaged t := by
  unfold Restaged
  rw [ht]
  exact h

theorem Restaged.stage (h : Restaged s) {c : Change} (hc : (∃ j, c = .lane j) ∨ ∃ g, c = .castle g) (opc : Byte)
    (tag : Option ReqId) (m : BitVec 14) : Restaged (stage s c opc tag m) := by
  intro x hx
  rcases List.mem_append.mp hx with hx | hx
  · exact h x hx
  · rw [List.mem_singleton] at hx
    subst hx
    exact ⟨hc, rfl⟩

theorem Restaged.foldl {β : Type} {f : State → β → State} (hf : ∀ t b, Restaged t → Restaged (f t b)) (l : List β)
    (h : Restaged s) : Restaged (l.foldl f s) := by
  induction l generalizing s with
  | nil => exact h
  | cons b l ih => exact ih (hf s b h)

theorem abortOne_staged (x : Staged) : (abortOne s x).staged = s.staged := by
  unfold abortOne
  split
  · split
    · split
      · rw [reply_staged]
      · rfl
    · dsimp only
      split
      · rw [reply_staged, queueEvent_staged]
      · rw [queueEvent_staged]
  · split
    · rw [reply_staged]
    · rfl

theorem dropCastle_staged_sublist (g : Fin 4) : (dropCastle s g).staged.Sublist s.staged := by
  unfold dropCastle
  split
  · exact List.Sublist.refl _
  · dsimp only
    rw [State.updCe_staged, State.updGrp_staged]
    exact List.filter_sublist

theorem abortCastle_staged_sublist (g : Fin 4) (r : Nat) : (abortCastle s g r).staged.Sublist s.staged := by
  unfold abortCastle
  split
  · split
    · dsimp only
      rw [queueEvent_staged]
      exact dropCastle_staged_sublist g
    · exact List.Sublist.refl _
  · exact List.Sublist.refl _

theorem Restaged.restageCastle (h : Restaged s) (g : Fin 4) : Restaged (restageCastle s g) := by
  unfold Machine.restageCastle
  split
  · split
    · exact h
    · exact h.stage (.inr ⟨g, rfl⟩) _ _ _
  · exact h

theorem Restaged.restageLane (h : Restaged s) (old : List Staged) (j : Fin 4) : Restaged (restageLane old s j) := by
  unfold Machine.restageLane
  split
  · exact h.stage (.inl ⟨j, rfl⟩) _ _ _
  · exact h

theorem foldl_abortOne_none (l : List Staged) (h : s.staged = []) : (l.foldl abortOne s).staged = [] :=
  (foldl_keeps (fun s : State => s.staged) (fun _ _ => abortOne_staged _) l s).trans h

/-- Every staged change is aborted, and no planned castling stands. -/
def abortAll (s : State) : State :=
  abortPlanned (s.staged.foldl abortOne { s with staged := [], sys := { s.sys with wakePend := none } }) 5

theorem abortStaged_eq : abortStaged s
    = (List.finRange 4).foldl (restageLane s.staged) ((List.finRange 4).foldl restageCastle (abortAll s)) := rfl

theorem abortAll_restaged : Restaged (abortAll s) := by
  have hn := foldl_abortOne_none (s := { s with staged := [], sys := { s.sys with wakePend := none } }) s.staged rfl
  have h0 : Restaged (s.staged.foldl abortOne { s with staged := [], sys := { s.sys with wakePend := none } }) := by
    intro x hx
    rw [hn] at hx
    exact absurd hx List.not_mem_nil
  exact h0.foldl (fun t g ht => ht.of_sublist (abortCastle_staged_sublist g 5)) _

theorem abortStaged_restaged : Restaged (abortStaged s) := by
  rw [abortStaged_eq]
  exact (abortAll_restaged.foldl (fun t g ht => ht.restageCastle g) _).foldl (fun t j ht => ht.restageLane _ j) _

theorem abortLegTest_staged : (abortLegTest s).staged = s.staged :=
  (abortLegTest_same (pm := 263041) rfl (.refl 263041 s)).staged.resolve_left (by decide)

/-- What an abort leaves staged holds no committed mode change. -/
theorem Restaged.committedMode (h : Restaged s) : committedMode s = none := by
  unfold Machine.committedMode
  split
  · rfl
  · refine List.findSome?_eq_none_iff.mpr fun x hx => ?_
    obtain ⟨hc | hc, -⟩ := h x hx
    · obtain ⟨j, hj⟩ := hc
      rw [hj]
    · obtain ⟨g, hg⟩ := hc
      rw [hg]

theorem applyCommitted_none (h : Machine.committedMode s = none) : applyCommitted s = s := by
  unfold applyCommitted
  rw [h]

end
end Sys2Proof.Safety

/-! ### The actions of a category on every channel (R236 to R239) -/
namespace Sys2Proof.Safety
open Sys2Proof.Machine

/-- A fold that meets `e` turns `A` into `B`: what precedes `e` keeps `A`, `e` itself gives `B`, and all keep `B`. -/
theorem foldl_settles {α β : Type} {A B : α → Prop} {f : α → β → α} {e : β} (hA : ∀ a b, b ≠ e → A a → A (f a b))
    (he : ∀ a, A a → B (f a e)) (hB : ∀ a b, B a → B (f a b)) [DecidableEq β] {l : List β} (hl : e ∈ l) {a : α} (h : A a) :
    B (l.foldl f a) := by
  have hkeep : ∀ (l : List β) (a : α), B a → B (l.foldl f a) := by
    intro l
    induction l with
    | nil => exact fun _ h => h
    | cons b l ih => exact fun a h => ih _ (hB a b h)
  induction l generalizing a with
  | nil => exact absurd hl List.not_mem_nil
  | cons b l ih =>
    by_cases hb : b = e
    · exact hkeep l _ (hb ▸ he a h)
    · exact ih ((List.mem_cons.mp hl).resolve_left fun h => hb h.symm) (hA a b hb h)

section
variable {s : State} {c d : Fin 16}

theorem mem_channels (c : Fin 16) : c ∈ channels := List.mem_finRange c

theorem openChannel_self (s : State) (c : Fin 16) (f : Chan → Chan) : (openChannel s c f).ch[c] = f s.ch[c] := by
  rw [openChannel_ch, vmod_same]

theorem openChannel_other (h : d ≠ c) (f : Chan → Chan) : (openChannel s c f).ch[d] = s.ch[d] := by
  rw [openChannel_ch, vmod_other _ _ h.symm]

/-! ### Category 0 -/

theorem category0Channel_other (h : d ≠ c) : (category0Channel s c).ch[d] = s.ch[d] := by
  unfold category0Channel
  split
  · rw [forceOffChannel_other _ c h, safetyEnd, (abortProgram_offPath s c _).other h]
  · split
    · exact openChannel_other h _
    · rfl

/-- The channel is off with its gates, and its disconnect opens by force. -/
def ForcedOff (ch : Chan) : Prop :=
  ch.st = .off ∧ ch.gates = false ∧ ch.opening = if ch.dsw then .forced else .none

theorem category0Channel_live (h : (s.ch[c]).st.live = true) : ForcedOff (category0Channel s c).ch[c] := by
  unfold category0Channel
  rw [if_pos h]
  obtain ⟨hst, hgates, hopening, hdsw⟩ := forceOffChannel_path (safetyEnd s c) c
  exact ⟨hst, hgates, hopening.trans (by rw [hdsw])⟩

theorem category0Channel_forcedOff (h : ForcedOff s.ch[d]) (c : Fin 16) : ForcedOff (category0Channel s c).ch[d] := by
  obtain rfl | hd := fin_eq_or_ne d c
  · obtain ⟨hst, hgates, hopening⟩ := h
    unfold category0Channel
    rw [if_neg (by rw [hst]; decide)]
    split
    · change ForcedOff (openChannel s d Chan.forceOpen).ch[d]
      rw [openChannel_self]
      exact ⟨hst, rfl, rfl⟩
    · exact ⟨hst, hgates, hopening⟩
  · rw [category0Channel_other hd]
    exact h

/-- After its turn no channel is live. -/
theorem category0Channel_dead : ((category0Channel s c).ch[c]).st.live = false := by
  by_cases h : (s.ch[c]).st.live = true
  · rw [(category0Channel_live h).1]
    rfl
  · unfold category0Channel
    rw [if_neg h]
    split
    · change ((openChannel s c Chan.forceOpen).ch[c]).st.live = false
      rw [openChannel_self]
      exact eq_false_of_ne_true h
    · exact eq_false_of_ne_true h

theorem category0Channel_keeps_dead (h : (s.ch[d]).st.live = false) (c : Fin 16) :
    ((category0Channel s c).ch[d]).st.live = false := by
  obtain rfl | hd := fin_eq_or_ne d c
  · exact category0Channel_dead
  · rw [category0Channel_other hd]
    exact h

theorem category0_ch : (category0 s).ch = (channels.foldl category0Channel s).ch := by
  simp only [category0, setOutputs]
  exact foldl_keeps (fun s : State => s.ch) (fun t g => State.updGrp_ch t g _) _ _

/-- Category 0 opens every live channel by force (R236). -/
theorem category0_live (h : (s.ch[c]).st.live = true) : ForcedOff (category0 s).ch[c] := by
  rw [category0_ch]
  exact foldl_settles (A := fun t : State => (t.ch[c]).st.live = true) (B := fun t : State => ForcedOff t.ch[c])
    (fun t b hb h => by rw [category0Channel_other hb.symm]; exact h) (fun t h => category0Channel_live h)
    (fun t b h => category0Channel_forcedOff h b) (mem_channels c) h

theorem category0_dead (c : Fin 16) : ((category0 s).ch[c]).st.live = false := by
  rw [category0_ch]
  exact foldl_settles (A := fun _ : State => True) (B := fun t : State => (t.ch[c]).st.live = false)
    (fun _ _ _ h => h) (fun _ _ => category0Channel_dead) (fun t b h => category0Channel_keeps_dead h b)
    (mem_channels c) trivial

theorem category0Channel_safe (c : Fin 16) : (category0Channel s c).safe = s.safe :=
  (category0Channel_same (pm := 974) rfl (.refl 974 s)).safe.resolve_left (by decide)

/-- The safe outputs are off, and neither the timer nor the standstill monitor runs. -/
theorem category0_safe : ∃ f, (category0 s).safe = { s.safe with timer := false, standstill := false, soOn := 0, sofbF := f } := by
  have hgrp (l : List (Fin 4)) (t : State) :
      (l.foldl (fun s g => s.updGrp g fun gr => { gr with gateDis := true }) t).safe = t.safe :=
    foldl_keeps (fun s : State => s.safe) (fun t g => State.updGrp_safe t g _) l t
  simp only [category0, setOutputs]
  rw [hgrp, foldl_keeps (fun s : State => s.safe) (fun t c => category0Channel_safe c)]
  exact ⟨_, rfl⟩

/-- Every gate-disable line is asserted. -/
theorem category0_gateDis (g : Fin 4) : ((category0 s).grp[g]).gateDis = true := by
  unfold category0 setOutputs
  dsimp only
  refine foldl_settles (A := fun _ : State => True) (B := fun t : State => (t.grp[g]).gateDis = true)
    (fun _ _ _ h => h) (fun t _ => ?_) (fun t b h => ?_) (List.mem_finRange g) trivial
  · exact congrArg Group.gateDis (vmod_same t.grp g _)
  · obtain rfl | hb := fin_eq_or_ne g b
    · exact congrArg Group.gateDis (vmod_same t.grp g _)
    · exact (congrArg Group.gateDis (vmod_other t.grp _ hb.symm)).trans h

/-! ### Category 1 -/

theorem category1Channel_other (h : d ≠ c) : (category1Channel s c).ch[d] = s.ch[d] := by
  unfold category1Channel
  split
  · rw [offChannel_other _ c h, safetyEnd, (abortProgram_offPath s c _).other h]
  · rfl

theorem category1Channel_live (h : (s.ch[c]).st.live = true) : ((category1Channel s c).ch[c]).st = .off := by
  unfold category1Channel
  rw [if_pos h]
  exact (offChannel_path _ c).1

theorem category1Channel_off (h : (s.ch[d]).st = .off) (c : Fin 16) : ((category1Channel s c).ch[d]).st = .off := by
  obtain rfl | hd := fin_eq_or_ne d c
  · unfold category1Channel
    rw [if_neg (by rw [h]; decide)]
    exact h
  · rw [category1Channel_other hd]
    exact h

theorem category1Channel_dead : ((category1Channel s c).ch[c]).st.live = false := by
  by_cases h : (s.ch[c]).st.live = true
  · rw [category1Channel_live h]
    rfl
  · unfold category1Channel
    rw [if_neg h]
    exact eq_false_of_ne_true h

theorem category1Channel_keeps_dead (h : (s.ch[d]).st.live = false) (c : Fin 16) :
    ((category1Channel s c).ch[d]).st.live = false := by
  obtain rfl | hd := fin_eq_or_ne d c
  · exact category1Channel_dead
  · rw [category1Channel_other hd]
    exact h

theorem category1_ch : (category1 s).ch = (channels.foldl category1Channel s).ch := by simp only [category1]

/-- Category 1 opens every live channel in order (R237). -/
theorem category1_live (h : (s.ch[c]).st.live = true) : ((category1 s).ch[c]).st = .off := by
  rw [category1_ch]
  exact foldl_settles (A := fun t : State => (t.ch[c]).st.live = true) (B := fun t : State => (t.ch[c]).st = .off)
    (fun t b hb h => by rw [category1Channel_other hb.symm]; exact h) (fun t h => category1Channel_live h)
    (fun t b h => category1Channel_off h b) (mem_channels c) h

theorem category1_dead (c : Fin 16) : ((category1 s).ch[c]).st.live = false := by
  rw [category1_ch]
  exact foldl_settles (A := fun _ : State => True) (B := fun t : State => (t.ch[c]).st.live = false)
    (fun _ _ _ h => h) (fun _ _ => category1Channel_dead) (fun t b h => category1Channel_keeps_dead h b)
    (mem_channels c) trivial

theorem category1Channel_safe (c : Fin 16) : (category1Channel s c).safe = s.safe :=
  (category1Channel_same (pm := 974) rfl (.refl 974 s)).safe.resolve_left (by decide)

theorem category1_safe : (category1 s).safe = { s.safe with timer := true, standstill := false } := by
  unfold category1
  dsimp only
  rw [foldl_keeps (fun s : State => s.safe) (fun t c => category1Channel_safe c)]

/-! ### Category 2 -/

/-- The state of a channel that does not run is kept by a hold of other channels. -/
theorem holdChannel_st (h : (s.ch[d]).st ≠ .run) (c : Fin 16) : ((holdChannel s c).ch[d]).st = (s.ch[d]).st := by
  unfold holdChannel
  split
  case isTrue hc =>
    have hd : d ≠ c := fun e => h (e ▸ hc)
    rw [ch_updCh_other _ _ hd, moveChannel_other _ _ hd, abortMeas_other _ _ hd]
  case isFalse => rfl

theorem holdProgram_offPath (s : State) (c : Fin 16) (k : Nat) : OffPath c s (holdProgram s c k) := by
  unfold holdProgram
  split
  · dsimp only
    refine .trans (.queueEvent (.formRecord ?_ ..) ..) (.updProg _ c _)
    split
    all_goals split
    · exact OffPath.updProg _ c _
    · exact .refl c s
    · exact OffPath.updProg _ c _
    · exact .refl c s
  · exact .refl c s

theorem addCause_offPath (s : State) (c : Fin 16) (k : Nat) : OffPath c s (addCause s c k) := .updProg s c _

/-- A hold moves running channels only. -/
theorem holdNow_st (h : (s.ch[d]).st ≠ .run) (c : Fin 16) (k : Nat) : ((holdNow s c k).ch[d]).st = (s.ch[d]).st := by
  have hfold : ∀ (l : List (Fin 16)) (t : State), (t.ch[d]).st = (s.ch[d]).st →
      ((l.foldl holdChannel t).ch[d]).st = (s.ch[d]).st := by
    intro l
    induction l with
    | nil => exact fun _ ht => ht
    | cons b l ih => exact fun t ht => ih _ ((holdChannel_st (ht ▸ h) b).trans ht)
  refine hfold _ _ ?_
  exact congrArg PowerPath.st (((addCause_offPath s _ k).trans (holdProgram_offPath _ _ k)).path d)

theorem category2Channel_check (h : (s.ch[c]).st = .check ∨ (s.ch[c]).st = .armed) :
    ((category2Channel s c).ch[c]).st = .off := by
  unfold category2Channel
  obtain h | h := h
  · rw [h]
    exact (offChannel_path _ c).1
  · rw [h]
    exact (offChannel_path _ c).1

/-- A channel that does not run keeps its state at the turn of another. -/
theorem category2Channel_st (h : (s.ch[d]).st ≠ .run) (hd : d ≠ c) :
    ((category2Channel s c).ch[d]).st = (s.ch[d]).st := by
  have hoff (r : Nat) : ((offChannel (abortProgram s c r) c).ch[d]).st = (s.ch[d]).st := by
    rw [offChannel_other _ c hd, (abortProgram_offPath s c r).other hd]
  unfold category2Channel
  split
  · exact hoff _
  · exact hoff _
  · refine (foldl_keeps (fun t : State => (t.ch[d]).st) (fun t e => ?_) _ _).trans ?_
    · exact ch_updCh_keeps Chan.st (f := fun ch => { ch with slow := ch.gates }) (fun _ => rfl) e d
    · exact holdNow_st (s := leaveRestart s c) h c _
  · exact congrArg PowerPath.st ((addCause_offPath (leaveRestart s c) _ _).path d)
  · rfl

theorem category2Channel_off (h : (s.ch[d]).st = .off) (c : Fin 16) : ((category2Channel s c).ch[d]).st = .off := by
  obtain rfl | hd := fin_eq_or_ne d c
  · unfold category2Channel
    rw [h]
    exact h
  · rw [category2Channel_st (by rw [h]; decide) hd]
    exact h

theorem category2_ch : (category2 s).ch = (channels.foldl category2Channel s).ch := by simp only [category2]

/-- Category 2 ends CHECK and ARMED (R239). -/
theorem category2_check (h : (s.ch[c]).st = .check ∨ (s.ch[c]).st = .armed) : ((category2 s).ch[c]).st = .off := by
  rw [category2_ch]
  refine foldl_settles (A := fun t : State => (t.ch[c]).st = .check ∨ (t.ch[c]).st = .armed)
    (B := fun t : State => (t.ch[c]).st = .off) (fun t b hb h => ?_) (fun t h => category2Channel_check h)
    (fun t b h => category2Channel_off h b) (mem_channels c) h
  rw [category2Channel_st (by rcases h with h | h <;> rw [h] <;> decide) hb.symm]
  exact h

theorem category2Channel_safe (c : Fin 16) : (category2Channel s c).safe = s.safe :=
  (category2Channel_same (pm := 974) rfl (.refl 974 s)).safe.resolve_left (by decide)

theorem category2_safe : (category2 s).safe = { s.safe with standstill := true } := by
  unfold category2
  dsimp only
  rw [foldl_keeps (fun s : State => s.safe) (fun t c => category2Channel_safe c)]

end

/-! ### A new demand (R207 row 16, R235) -/

section
variable {s : State} {cause cat : Nat}

/-- SAFE entered with the cause and the category of a new demand. -/
def demandEntered (u : State) (cause cat : Nat) : State :=
  queueEvent { enterSafe u with safe := { (enterSafe u).safe with
    cause := putBit 0 cause true, cat := BitVec.ofNat 2 cat } } 0x0601 (p1 cause ++ p1 cat)

/-- What a new demand leaves before the actions of its category. -/
def demandAborted (u : State) (cause cat : Nat) : State := abortLegTest (abortStaged (demandEntered u cause cat))

theorem demand_committed (h : dormantCommitted s = true) : demand s cause cat = s := if_pos (.inr (.inr h))

/-- A new demand enters SAFE, aborts what is staged and acts. -/
theorem demand_new (hphase : s.sys.phase = .running) (hmode : s.sys.mode ≠ .dormant)
    (hdorm : dormantCommitted s = false) (hsafe : (applyCommitted s).sys.mode ≠ .safe)
    (hrestart : (applyCommitted s).safe.restarting = false) (hcat : cat ≤ 2) :
    demand s cause cat = categoryActions (demandAborted (applyCommitted s) cause cat) cat := by
  have hgo : ¬ (s.sys.phase ≠ .running ∨ s.sys.mode = .dormant ∨ dormantCommitted s = true) :=
    not_or.mpr ⟨not_not_intro hphase, not_or.mpr ⟨hmode, ne_true_of_eq_false hdorm⟩⟩
  unfold demand
  rw [if_neg hgo]
  dsimp only
  rw [if_neg hsafe, hrestart, if_neg (by decide : ¬ (false = true))]
  have hnow : (enterSafe (applyCommitted s)).safe.cat.toNat = 3 := rfl
  have hmin : min 3 cat = cat := by omega
  rw [hnow, hmin, if_pos (by omega : cat ≤ 3)]
  rfl

/-- The actions leave the recorded cause and category. -/
theorem categoryActions_cause (s : State) (cat : Nat) : (categoryActions s cat).safe.cat = s.safe.cat ∧
    (categoryActions s cat).safe.cause = s.safe.cause := by
  unfold categoryActions
  split
  · obtain ⟨f, hf⟩ := category0_safe (s := s)
    rw [hf]
    exact ⟨rfl, rfl⟩
  · rw [category1_safe]
    exact ⟨rfl, rfl⟩
  · rw [category2_safe]
    exact ⟨rfl, rfl⟩

variable {u : State}

theorem abortStaged_safe : (abortStaged s).safe = s.safe :=
  (abortStaged_same (pm := 953) rfl (.refl 953 s)).safe.resolve_left (by decide)

theorem abortStaged_ch : (abortStaged s).ch = s.ch :=
  (abortStaged_same (pm := 953) rfl (.refl 953 s)).ch.resolve_left (by decide)

theorem abortLegTest_safe : (abortLegTest s).safe = s.safe :=
  (abortLegTest_same (pm := 263041) rfl (.refl 263041 s)).safe.resolve_left (by decide)

theorem abortLegTest_ch : (abortLegTest s).ch = s.ch :=
  (abortLegTest_same (pm := 263041) rfl (.refl 263041 s)).ch.resolve_left (by decide)

theorem demandAborted_safe : (demandAborted u cause cat).safe = { u.safe with
    cause := putBit 0 cause true, cat := BitVec.ofNat 2 cat } := by
  rw [demandAborted, abortLegTest_safe, abortStaged_safe, demandEntered, queueEvent_safe]
  rfl

theorem demandAborted_ch : (demandAborted u cause cat).ch = u.ch := by
  rw [demandAborted, abortLegTest_ch, abortStaged_ch, demandEntered, queueEvent_ch]
  rfl

theorem steady_demandAborted : steady (demandAborted u cause cat).sys =
    steady { u.sys with mode := .safe, safeFrom := u.sys.mode, prev := u.sys.mode } := by
  rw [demandAborted, steady_abortLegTest, steady_abortStaged, demandEntered, queueEvent_sys]
  rfl

theorem noSeq_demandAborted : noSeq (demandAborted u cause cat).sticky = noSeq { u.sticky with safeLatch := true } := by
  rw [demandAborted, noSeq_abortLegTest, noSeq_abortStaged, demandEntered, noSeq_queueEvent]
  rfl

theorem demandAborted_restaged : Restaged (demandAborted u cause cat) :=
  abortStaged_restaged.of_eq abortLegTest_staged

end

/-- Settles O46: a new demand is `demand_new`; what its abort leaves is `demandAborted`, on which the category acts. -/
theorem demandActs : Obligations.DemandActs := by
  intro s t u cause cat
  refine ⟨demand_committed, applyCommitted_none, ?_⟩
  rintro hphase hmode hdorm rfl hsafe hrestart hcat rfl
  rw [demand_new hphase hmode hdorm hsafe hrestart hcat]
  generalize applyCommitted s = u
  have hsys : steady (categoryActions (demandAborted u cause cat) cat).sys = _ :=
    (congrArg steady (categoryActions_sys cat)).trans steady_demandAborted
  have hsticky := (noSeq_categoryActions (s := demandAborted u cause cat) cat).trans noSeq_demandAborted
  have hch (c : Fin 16) : (demandAborted u cause cat).ch[c] = u.ch[c] := by rw [demandAborted_ch]
  have hstaged : Restaged (categoryActions (demandAborted u cause cat) cat) :=
    demandAborted_restaged.of_eq (categoryActions_staged cat)
  have hs := demandAborted_safe (u := u) (cause := cause) (cat := cat)
  have hlt : (BitVec.ofNat 2 cat).toNat = cat := by
    rw [BitVec.toNat_ofNat]
    exact Nat.mod_eq_of_lt (by omega)
  obtain ⟨hc, hcause⟩ := categoryActions_cause (demandAborted u cause cat) cat
  refine ⟨congrArg Sys.mode hsys, congrArg Sys.safeFrom hsys, congrArg Sticky.safeLatch hsticky, ?_, ?_, hstaged, ?_, ?_, ?_⟩
  · rw [hc, hs]
    exact hlt
  · rw [hcause, hs]
  · rintro rfl
    obtain ⟨f, hf⟩ := category0_safe (s := demandAborted u cause 0)
    refine ⟨congrArg Safety.soOn hf, congrArg Safety.timer hf, category0_gateDis, fun c => ⟨category0_dead c, fun h => ?_⟩⟩
    exact category0_live (by rw [hch]; exact h)
  · rintro rfl
    have hf := category1_safe (s := demandAborted u cause 1)
    refine ⟨congrArg Safety.timer hf, (congrArg Safety.soOn hf).trans (by rw [hs]), fun c => ⟨category1_dead c, fun h => ?_⟩⟩
    exact category1_live (by rw [hch]; exact h)
  · rintro rfl
    have hf := category2_safe (s := demandAborted u cause 2)
    refine ⟨congrArg Safety.standstill hf, (congrArg Safety.soOn hf).trans (by rw [hs]), fun c h => ?_⟩
    exact category2_check (by rw [hch]; exact h)

end Sys2Proof.Safety

/-! The start and the end of BOOT, the reset pin and the wakes (O51). -/
namespace Sys2Proof.Safety
open Sys2Proof.Machine

/-! ### Everything off (R221) -/

section
variable {s : State} {c : Fin 16} {ph : Phase}

/-- The gates of a channel are off, and a disconnect that is closed opens by force. -/
def GatesForced (dsw : Bool) (ch : Chan) : Prop :=
  ch.dsw = dsw ∧ ch.gates = false ∧ ch.opening = if dsw then .forced else .none

theorem forceOpen_gatesForced (ch : Chan) : GatesForced ch.dsw { ch.forceOpen with checking := false } := ⟨rfl, rfl, rfl⟩

theorem everythingOff_ch : (everythingOff s).ch =
    (channels.foldl (fun s c => s.updCh c fun ch => { ch.forceOpen with checking := false }) s).ch := by
  simp only [everythingOff, setOutputs]

theorem everythingOff_forced (c : Fin 16) : GatesForced (s.ch[c]).dsw (everythingOff s).ch[c] := by
  rw [everythingOff_ch]
  refine foldl_settles (A := fun t : State => t.ch[c] = s.ch[c]) (B := fun t : State => GatesForced (s.ch[c]).dsw t.ch[c])
    (fun t b hb h => ?_) (fun t h => ?_) (fun t b h => ?_) (mem_channels c) rfl
  · exact (ch_updCh_other t _ hb.symm).trans h
  · have hf := forceOpen_gatesForced t.ch[c]
    rw [ch_updCh_self]
    rw [h] at hf ⊢
    exact hf
  · obtain rfl | hb := fin_eq_or_ne c b
    · have hf := forceOpen_gatesForced t.ch[c]
      rw [ch_updCh_self]
      rw [h.1] at hf
      exact hf
    · rw [ch_updCh_other t _ hb]
      exact h

theorem everythingOff_safe : ∃ f, (everythingOff s).safe =
    { s.safe with timer := false, standstill := false, soOn := 0, sofbF := f } := by
  have hch (l : List (Fin 16)) (t : State) :
      (l.foldl (fun s c => s.updCh c fun ch => { ch.forceOpen with checking := false }) t).safe = t.safe :=
    foldl_keeps (fun s : State => s.safe) (fun t c => State.updCh_safe t c _) l t
  simp only [everythingOff, setOutputs]
  rw [hch]
  exact ⟨_, rfl⟩

theorem everythingOff_sys : (everythingOff s).sys = s.sys :=
  (everythingOff_same (pm := 2050) rfl (.refl 2050 s)).sys.resolve_left (by decide)

theorem fuseRows_sys (n : Nat) : (fuseRows s n).sys = s.sys :=
  (fuseRows_same (pm := 263168) rfl (.refl 263168 s)).sys.resolve_left (by decide)

theorem spoilEntry_sys : (spoilEntry s).sys = s.sys :=
  (spoilEntry_same (pm := 1024) rfl (.refl 1024 s)).sys.resolve_left (by decide)

/-- A cut operation draws free values, and touches none of the other registers. -/
theorem steady_cutStore : steady (cutStore s).sys = steady s.sys := by
  unfold cutStore
  split
  · dsimp only
    split
    · rw [spoilEntry_sys]
      exact congrArg (fun y => steady { y with freeDraws := y.freeDraws + 1 }) (fuseRows_sys (s := (drawFree s).2) _)
    · exact congrArg (fun y => steady { y with freeDraws := y.freeDraws + 1 }) (fuseRows_sys (s := (drawFree s).2) _)
  · rfl
  · rfl

theorem holdIslands_ch : (holdIslands s ph).ch = (everythingOff s).ch :=
  (cutStore_same (pm := 263169) rfl (.refl 263169 (everythingOff s))).ch.resolve_left (by decide)

theorem holdIslands_safe : (holdIslands s ph).safe = (everythingOff s).safe :=
  (cutStore_same (pm := 263169) rfl (.refl 263169 (everythingOff s))).safe.resolve_left (by decide)

theorem holdIslands_sticky : (holdIslands s ph).sticky = s.sticky :=
  (holdIslands_same (pm := 265571) rfl (.refl 265571 s)).sticky.resolve_left (by decide)

/-- Everything off opens every disconnect by force, with the gates off. -/
theorem holdIslands_forced (c : Fin 16) : GatesForced (s.ch[c]).dsw (holdIslands s ph).ch[c] := by
  rw [holdIslands_ch]
  exact everythingOff_forced c

theorem holdIslands_soOn : (holdIslands s ph).safe.soOn = 0 := by
  obtain ⟨f, hf⟩ := everythingOff_safe (s := s)
  rw [holdIslands_safe, hf]

/-- The islands are held: the registers stand but for the phase and what is due. -/
theorem steady_holdIslands : steady (holdIslands s ph).sys =
    steady { s.sys with phase := ph, running := false, setl := 0, due := .none, dueNs := 0 } :=
  congrArg (fun y : Sys => { y with phase := ph, running := false, setl := 0, due := .none, dueNs := 0 })
    ((steady_cutStore (s := everythingOff s)).trans (congrArg steady everythingOff_sys))

end

/-! ### The reset pin (R221, R222) -/

section
variable {s u : State} {ohm : Nat}

/-- Closing a session leaves the channels. -/
theorem closeSession_ch (r : Nat) : (closeSession s r).ch = s.ch :=
  (closeSession_same (pm := 3713) rfl (.refl 3713 s)).ch.resolve_left (by decide)

/-- RST_N low has no further effect in these phases. -/
theorem pinResets_ignored (hu : u = settleDue s)
    (h : resetHeeded u = false ∨ u.sys.phase = .resetHeld ∨ (u.sys.phase = .booting ∧ u.sys.bootStep = 2)) :
    pinResets s = { u with sys := { u.sys with rstLow := true } } := by
  subst hu
  refine if_pos ?_
  have hheed : ∀ y : State, resetHeeded { y with sys := { y.sys with rstLow := true } } = resetHeeded y := fun _ => rfl
  rw [hheed]
  rcases h with h | h | ⟨h, h2⟩
  · rw [h]
    rfl
  · simp [h]
  · simp [h, h2]

/-- The islands held in reset with the session closed (R221, R261). -/
def pinHeld (u : State) : State := holdIslands (closeSession { u with sys := { u.sys with rstLow := true } } 4) .resetHeld

theorem pinResets_holds (hu : u = settleDue s) (hheed : resetHeeded u = true) (hheld : u.sys.phase ≠ .resetHeld)
    (hboot : ¬ (u.sys.phase = .booting ∧ u.sys.bootStep = 2)) :
    pinResets s = { pinHeld u with
      sys := { (pinHeld u).sys with closed := if u.safe.sessOpen then some u.safe.slot else (pinHeld u).sys.closed }
      aux := (pinHeld u).aux.stop
      sticky := { (pinHeld u).sticky with pinn := satInc 8 (pinHeld u).sticky.pinn } } := by
  subst hu
  refine if_neg ?_
  have hheed' : resetHeeded { settleDue s with sys := { (settleDue s).sys with rstLow := true } } = true := hheed
  rw [hheed']
  simpa [hheld] using hboot

theorem steady_pinHeld : steady (pinHeld u).sys = steady { u.sys with
    rstLow := true, phase := .resetHeld, running := false, setl := 0, due := .none, dueNs := 0 } := by
  rw [pinHeld, steady_holdIslands]
  exact congrArg (fun y : Sys => { y with phase := .resetHeld, running := false, setl := 0, due := .none, dueNs := 0 })
    (steady_closeSession (s := { u with sys := { u.sys with rstLow := true } }) 4)

theorem pinHeld_pinn : (pinHeld u).sticky.pinn = u.sticky.pinn := by
  rw [pinHeld, holdIslands_sticky]
  exact (congrArg Sticky.pinn (noSeq_closeSession (s := { u with sys := { u.sys with rstLow := true } }) 4) :)

theorem pinHeld_forced (c : Fin 16) : GatesForced (u.ch[c]).dsw (pinHeld u).ch[c] := by
  have h := holdIslands_forced (s := closeSession { u with sys := { u.sys with rstLow := true } } 4) (ph := .resetHeld) c
  rw [closeSession_ch] at h
  exact h

/-! ### RST_N released, and stuck -/

theorem resetReleased_step2 (h : s.sys.phase = .booting) (h2 : s.sys.bootStep = 2) :
    resetReleased ohm s = readSrcid (drawNonce { s with sys := { s.sys with rstLow := false, bootStep := 4 } }) ohm := by
  unfold resetReleased
  dsimp only
  rw [h]
  exact if_pos h2

theorem resetReleased_idle (h : s.sys.phase ≠ .resetHeld) (h2 : ¬ (s.sys.phase = .booting ∧ s.sys.bootStep = 2)) :
    resetReleased ohm s = { s with sys := { s.sys with rstLow := false } } := by
  unfold resetReleased
  dsimp only
  split
  case h_1 hp => exact absurd hp h
  case h_2 hp => exact if_neg fun hs => h2 ⟨hp, hs⟩
  case h_3 => rfl

theorem resetStuck_low (hlow : s.sys.rstLow = true)
    (h : s.sys.phase = .resetHeld ∨ (s.sys.phase = .booting ∧ s.sys.bootStep = 2)) :
    resetStuck s = { s with sticky := { s.sticky with stuck := true, stuckTold := false } } := by
  refine if_pos ?_
  rcases h with h | ⟨h, h2⟩
  · simp [hlow, h]
  · simp [hlow, h, h2]

/-! ### The wakes (R225, R226) -/

theorem wakeRises_running (h : (settleDue s).sys.phase = .running) (hd : dormantCommitted (settleDue s) = true) :
    wakeRises ohm s = { settleDue s with sys := { (settleDue s).sys with wakeHigh := true, wakePend := some ohm } } := by
  have hlow : ¬ ((settleDue s).sys.phase = .dormant ∨ (settleDue s).sys.phase = .park) := by
    rw [h]
    decide
  exact (if_neg hlow).trans (if_pos ⟨h, hd⟩)

theorem wakeRises_ignored (hd : (settleDue s).sys.phase ≠ .dormant) (hp : (settleDue s).sys.phase ≠ .park)
    (hr : ¬ ((settleDue s).sys.phase = .running ∧ dormantCommitted (settleDue s) = true)) :
    wakeRises ohm s = { settleDue s with sys := { (settleDue s).sys with wakeHigh := true } } :=
  (if_neg (not_or.mpr ⟨hd, hp⟩)).trans (if_neg hr)

theorem linkWakes_park {mV ms : Nat} (h : (settleDue s).sys.phase = .park) (hl : (settleDue s).sys.lwake = true)
    (hr : (settleDue s).sys.srcRise = true) (hv : (settleDue s).sys.wakeVlost ≤ mV) (ht : (settleDue s).sys.wakeTret ≤ ms) :
    linkWakes ⟨ohm, mV, ms⟩ s = wakeBoot (settleDue s) 3 ohm := if_pos ⟨h, hl, hr, hv, ht⟩

/-! ### The aux converter starts (R416) -/

theorem softStart_starts {mV : Nat} (h : u.sys.phase = .booting) (h4 : u.sys.bootStep = 4) (hv : 9000 ≤ mV)
    (hoff : auxRuns u = false) (hl : bothLatched u = false) :
    softStart mV u = { clearPeaks u with aux := { (clearPeaks u).aux with state := 1, mode := if 11500 < mV then 1 else 2 } } :=
  if_pos ⟨h, h4, hv, hoff, hl⟩

end

/-! ### BOOT halts (R217) -/

section
variable {s : State} {b : BootInput}

theorem foldl_commitEvent_sys (l : List EvDraft) (s : State) : (l.foldl commitEvent s).sys = s.sys :=
  foldl_keeps (fun s : State => s.sys) (fun t d => commitEvent_sys t d) l s

/-- A halt enters the halted BOOT with its code. -/
theorem haltAt_halted (code : Nat) (own : List EvDraft) (s : State) :
    (haltAt code own s).sys.phase = .halted ∧ (haltAt code own s).sys.hcode = code := by
  unfold haltAt
  split
  case isTrue h =>
    subst h
    exact ⟨rfl, rfl⟩
  case isFalse h =>
    dsimp only
    rw [foldl_commitEvent_sys]
    exact ⟨rfl, rfl⟩

theorem haltAt_four (own : List EvDraft) (s : State) : (haltAt 4 own s).sticky.haltKept = 4 := by
  rw [haltAt, if_pos rfl]

theorem bootFindings_four : (bootFindings 4 b s).2.1 = 4 := by
  unfold bootFindings
  rw [if_pos rfl]

/-- Where the SRAM cannot be repaired, the halt is code 1. -/
theorem bootFindings_sram {k : Nat} (hk : k ≠ 4) (h : k = 1 ∨
    (repairSram (firstEvals (loadSafety (bootInputs b s) b.safeCrcOk)) b.badRows b.badSpares).2 = false) :
    (bootFindings k b s).2.1 = 1 := by
  unfold bootFindings
  dsimp only
  rw [if_neg hk, if_pos h]

theorem bootFindings_code {k : Fin 6} (h0 : k ≠ 0)
    (h : k = 1 ∨ k = 4 ∨
      (repairSram (firstEvals (loadSafety (bootInputs b s) b.safeCrcOk)) b.badRows b.badSpares).2 = true) :
    (bootFindings k.val b s).2.1 = k.val := by
  by_cases h1 : k = 1
  · subst h1
    exact bootFindings_sram (by decide) (.inl rfl)
  by_cases h4 : k = 4
  · subst h4
    exact bootFindings_four
  have hv := (h.resolve_left h1).resolve_left h4
  have hval1 : k.val ≠ 1 := fun e => h1 (Fin.ext e)
  have hval4 : k.val ≠ 4 := fun e => h4 (Fin.ext e)
  have hval0 : k.val ≠ 0 := fun e => h0 (Fin.ext e)
  have hlt := k.isLt
  generalize k.val = n at *
  unfold bootFindings
  dsimp only
  rw [if_neg hval4, if_neg (not_or.mpr ⟨hval1, ne_false_of_eq_true hv⟩)]
  by_cases h2 : n = 2
  · rw [if_pos h2, h2]
  by_cases h3 : n = 3
  · rw [if_neg h2, if_pos h3, h3]
  have h5 : n = 5 := by omega
  rw [if_neg h2, if_neg h3, if_pos (.inl h5), h5]

theorem bootHalts_halts {k : Nat} (hk : k ≠ 0) (h : bootRuns s = true) :
    bootHalts k b s = haltAt (bootFindings k b (advanceTime (b.ms * 1000000) s)).2.1
      (bootFindings k b (advanceTime (b.ms * 1000000) s)).2.2 (bootFindings k b (advanceTime (b.ms * 1000000) s)).1 :=
  if_neg (not_or.mpr ⟨ne_false_of_eq_true h, hk⟩)

end

/-! ### The first epoch (R215) -/

section
variable {s : State} {b : BootInput}

theorem canStart_sys : (canStart s).sys = s.sys := by
  unfold canStart startTime
  dsimp only
  split <;> split <;> rfl

theorem canStart_staged : (canStart s).staged = s.staged := by
  unfold canStart startTime
  dsimp only
  split <;> split <;> rfl

theorem canStart_safe : (canStart s).safe = s.safe := by
  unfold canStart startTime
  dsimp only
  split <;> split <;> rfl

theorem canStart_sticky : (canStart s).sticky = s.sticky := by
  unfold canStart startTime
  dsimp only
  split <;> split <;> rfl

/-- What the records of a ring leave: the registers, what is staged, the safety island and the marks. -/
structure Marks (s t : State) : Prop where
  sys : t.sys = s.sys
  staged : t.staged = s.staged
  safe : t.safe = s.safe
  sticky : noSeq t.sticky = noSeq s.sticky

theorem Marks.refl (s : State) : Marks s s := ⟨rfl, rfl, rfl, rfl⟩

theorem Marks.trans {t u : State} (h : Marks s t) (k : Marks t u) : Marks s u :=
  ⟨k.sys.trans h.sys, k.staged.trans h.staged, k.safe.trans h.safe, k.sticky.trans h.sticky⟩

theorem Marks.updCh {t : State} (h : Marks s t) (c : Fin 16) (f : Chan → Chan) : Marks s (t.updCh c f) :=
  ⟨h.sys, h.staged, h.safe, h.sticky⟩

theorem Marks.queueEvent {t : State} (h : Marks s t) (code : Nat) (p : List Byte) : Marks s (queueEvent t code p) :=
  h.trans ⟨queueEvent_sys .., queueEvent_staged .., queueEvent_safe .., noSeq_queueEvent code p⟩

theorem writeRecord_marks (s : State) (d : RecDraft) : Marks s (writeRecord s d) := by
  have hr := Marks.refl s
  unfold writeRecord
  dsimp only
  split
  · exact hr.updCh _ _
  · split
    · exact hr.updCh _ _
    · split
      · split
        · exact (((hr.updCh _ _).updCh _ _).updCh _ _).queueEvent _ _
        · exact (hr.updCh _ _).updCh _ _
      · split
        · exact ((hr.updCh _ _).updCh _ _).queueEvent _ _
        · exact hr.updCh _ _

theorem markRing_marks (s : State) (c : Fin 16) : Marks s (markRing s c) :=
  ((Marks.refl s).updCh c _).trans (writeRecord_marks _ _)

theorem markRings_marks (l : List (Fin 16)) (s : State) : Marks s (l.foldl markRing s) := by
  induction l generalizing s with
  | nil => exact .refl s
  | cons c l ih => exact (markRing_marks s c).trans (ih _)

theorem canStart_marks (s : State) : Marks s (canStart s) :=
  ⟨canStart_sys, canStart_staged, canStart_safe, congrArg noSeq canStart_sticky⟩

theorem zeroCounts_marks (s : State) : Marks s (zeroCounts s) := by
  constructor
  all_goals simp only [zeroCounts]

theorem setLink_marks (s : State) : Marks s (setLink s) := ⟨rfl, rfl, rfl, rfl⟩

/-- The device as its first epoch starts. -/
def firstEpoch (s : State) : State :=
  { s with sys := { s.sys with epoch := 0, running := true, phase := .running, bootStep := 13 }
           meas := { s.meas with rotAt := s.sys.tbase, legSlotAt := s.sys.tbase }
           isl := { s.isl with running := putBit (putBit s.isl.running 3 true) 4 true, scrubLeft := scrubCost s }
           ch := vmap s.ch Chan.opened }

/-- After the first epoch has started, the registers and the marks stand. -/
theorem startEpochs_marks (s : State) : Marks (firstEpoch s) (startEpochs s) := by
  have h : Marks (firstEpoch s) (setLink (channels.foldl markRing (zeroCounts (firstEpoch s)))) :=
    ((zeroCounts_marks _).trans (markRings_marks channels _)).trans (setLink_marks _)
  unfold startEpochs
  dsimp only
  split
  · exact h.trans (canStart_marks _)
  · exact h

end
end Sys2Proof.Safety

/-! ### The demands that BOOT finds, and its end (O51) -/
namespace Sys2Proof.Safety
open Sys2Proof.Machine

/-- The sticky records but for the sequence number and the SAFE latch. -/
def noLatch (k : Sticky) : Sticky := { noSeq k with safeLatch := false }

theorem noLatch_of_noSeq {k l : Sticky} (h : noSeq k = noSeq l) : noLatch k = noLatch l :=
  congrArg (fun x : Sticky => { x with safeLatch := false }) h

section
variable {s t u : State} {cause cat : Nat}

/-- A demand that acts leaves SAFE in force, its latch set, and nothing staged but what is staged again. -/
theorem demand_acts (h : ¬ (s.sys.phase ≠ .running ∨ s.sys.mode = .dormant ∨ dormantCommitted s = true)) :
    (demand s cause cat).sys.mode = .safe ∧ underModes (demand s cause cat).sys = underModes (applyCommitted s).sys ∧
    noLatch (demand s cause cat).sticky = noLatch (applyCommitted s).sticky ∧ Restaged (demand s cause cat) := by
  unfold demand
  rw [if_neg h]
  dsimp only
  generalize applyCommitted s = u
  generalize (if u.safe.restarting = true then 0 else cat) = k
  have hv : (if u.sys.mode = .safe then u else enterSafe u).sys.mode = .safe ∧
      underModes (if u.sys.mode = .safe then u else enterSafe u).sys = underModes u.sys ∧
      noLatch (if u.sys.mode = .safe then u else enterSafe u).sticky = noLatch u.sticky := by
    split
    case isTrue hs => exact ⟨hs, rfl, rfl⟩
    case isFalse => exact ⟨rfl, rfl, rfl⟩
  generalize (if u.sys.mode = .safe then u else enterSafe u) = v at hv ⊢
  obtain ⟨hmode, hsys, hsticky⟩ := hv
  generalize hw : ({ v with safe := _ } : State) = w
  have hwsys : w.sys = v.sys := by rw [← hw]
  have hwsticky : w.sticky = v.sticky := by rw [← hw]
  have hsteady : steady (abortLegTest (abortStaged (queueEvent w 0x0601 (p1 cause ++ p1 k)))).sys = steady v.sys := by
    rw [steady_abortLegTest, steady_abortStaged, queueEvent_sys, hwsys]
  have hnoSeq : noSeq (abortLegTest (abortStaged (queueEvent w 0x0601 (p1 cause ++ p1 k)))).sticky = noSeq v.sticky := by
    rw [noSeq_abortLegTest, noSeq_abortStaged, noSeq_queueEvent, hwsticky]
  have hstaged : Restaged (abortLegTest (abortStaged (queueEvent w 0x0601 (p1 cause ++ p1 k)))) :=
    abortStaged_restaged.of_eq abortLegTest_staged
  generalize abortLegTest (abortStaged (queueEvent w 0x0601 (p1 cause ++ p1 k))) = x at hsteady hnoSeq hstaged ⊢
  have hxmode : x.sys.mode = .safe := (congrArg Sys.mode hsteady).trans hmode
  split
  · rw [categoryActions_sys]
    exact ⟨hxmode, (underModes_of_steady hsteady).trans hsys,
      (noLatch_of_noSeq ((noSeq_categoryActions k).trans hnoSeq)).trans hsticky,
      hstaged.of_eq (categoryActions_staged k)⟩
  · exact ⟨hxmode, (underModes_of_steady hsteady).trans hsys, (noLatch_of_noSeq hnoSeq).trans hsticky, hstaged⟩

/-- Whatever a demand does, the registers under the modes and the marks of BOOT stand. -/
def Underneath (s t : State) : Prop := underModes t.sys = underModes s.sys ∧ noLatch t.sticky = noLatch s.sticky

theorem Underneath.refl (s : State) : Underneath s s := ⟨rfl, rfl⟩

theorem Underneath.trans (h : Underneath s t) (k : Underneath t u) : Underneath s u := ⟨k.1.trans h.1, k.2.trans h.2⟩

theorem demand_underneath (s : State) (cause cat : Nat) : Underneath s (demand s cause cat) := by
  by_cases h : s.sys.phase ≠ .running ∨ s.sys.mode = .dormant ∨ dormantCommitted s = true
  · rw [demand, if_pos h]
    exact .refl s
  · obtain ⟨-, hsys, hsticky, -⟩ := demand_acts (cause := cause) (cat := cat) h
    exact ⟨hsys.trans underModes_applyCommitted, hsticky.trans (noLatch_of_noSeq noSeq_applyCommitted)⟩

/-- The device serves demands, and no mode change is committed. -/
structure Serves (s : State) : Prop where
  phase : s.sys.phase = .running
  mode : s.sys.mode ≠ .dormant
  committed : committedMode s = none

theorem demand_serves (h : Serves s) : Serves (demand s cause cat) ∧ (demand s cause cat).sys.mode = .safe := by
  have hdorm : dormantCommitted s = false := by
    unfold dormantCommitted
    rw [h.committed]
  have hgo : ¬ (s.sys.phase ≠ .running ∨ s.sys.mode = .dormant ∨ dormantCommitted s = true) :=
    not_or.mpr ⟨not_not_intro h.phase, not_or.mpr ⟨h.mode, ne_true_of_eq_false hdorm⟩⟩
  obtain ⟨hmode, hsys, -, hstaged⟩ := demand_acts (cause := cause) (cat := cat) hgo
  rw [applyCommitted_none h.committed] at hsys
  have hphase : (demand s cause cat).sys.phase = s.sys.phase := (congrArg Sys.phase hsys :)
  exact ⟨⟨hphase.trans h.phase, by rw [hmode]; decide, hstaged.committedMode⟩, hmode⟩

/-- The demand of a source that is active. -/
def demandIf (p : Bool) (s : State) (cause cat : Nat) : State := if p then demand s cause cat else s

/-- From `s` to `t` a demand has come, exactly where `P` holds. -/
structure Demanded (P : Prop) (s t : State) : Prop where
  serves : Serves t
  safe : P → t.sys.mode = .safe
  calm : ¬ P → t.sys.mode = s.sys.mode

theorem Demanded.none (h : Serves s) : Demanded False s s := ⟨h, fun hf => hf.elim, fun _ => rfl⟩

theorem Demanded.andIf {P : Prop} (h : Demanded P s t) (p : Bool) (cause cat : Nat) :
    Demanded (P ∨ p = true) s (demandIf p t cause cat) := by
  unfold demandIf
  split
  case isTrue hp =>
    obtain ⟨hserves, hmode⟩ := demand_serves (cause := cause) (cat := cat) h.serves
    exact ⟨hserves, fun _ => hmode, fun hn => absurd (.inr hp) hn⟩
  case isFalse hp => exact ⟨h.serves, fun ho => h.safe (ho.resolve_right hp), fun hn => h.calm fun hP => hn (.inl hP)⟩

theorem Demanded.iff {P Q : Prop} (h : Demanded P s t) (hpq : P ↔ Q) : Demanded Q s t :=
  ⟨h.serves, fun hq => h.safe (hpq.mpr hq), fun hn => h.calm fun hP => hn (hpq.mp hP)⟩

/-- The demands of the stop inputs, in order. -/
def demandInputs (a : State) (l : List (Fin 4)) (s : State) : State :=
  l.foldl (fun s i => demandIf (inputDemands a i) s i.val (bits a.safe.act.incfg[i] 2 2)) s

theorem Demanded.inputs {P : Prop} (a : State) (l : List (Fin 4)) (h : Demanded P s t) :
    Demanded (P ∨ ∃ i ∈ l, inputDemands a i = true) s (demandInputs a l t) := by
  induction l generalizing P t with
  | nil => exact h.iff (by simp)
  | cons i l ih => exact (ih (h.andIf (inputDemands a i) i.val _)).iff (by simp [or_assoc])

/-- The demands of BOOT in the order of their cause bits (R251). -/
theorem bootDemands_eq (a : State) : bootDemands a =
    demandIf a.safe.gdis (demandIf a.safe.cfgBad (demandIf a.safe.rcf (demandIf a.safe.refl
      (demandIf (a.safe.sofbF != 0) (demandIf (a.safe.disc != 0) (demandInputs a (List.finRange 4) a) 4 0) 6 0) 7 0) 8 0)
      9 0) 10 0 := rfl

/-- A demand is active as BOOT ends. -/
def BootDemand (a : State) : Prop :=
  (∃ i : Fin 4, inputDemands a i = true) ∨ a.safe.disc ≠ 0 ∨ a.safe.sofbF ≠ 0 ∨ a.safe.refl = true ∨
    a.safe.rcf = true ∨ a.safe.cfgBad = true ∨ a.safe.gdis = true

theorem bootDemands_demanded (h : Serves s) : Demanded (BootDemand s) s (bootDemands s) := by
  rw [bootDemands_eq]
  refine Demanded.iff (((((((Demanded.inputs s _ (.none h)).andIf _ 4 0).andIf _ 6 0).andIf _ 7 0).andIf _ 8 0).andIf _ 9 0).andIf
    _ 10 0) ?_
  simp [BootDemand, or_assoc]

theorem demandIf_underneath (p : Bool) (s : State) (cause cat : Nat) : Underneath s (demandIf p s cause cat) := by
  unfold demandIf
  split
  · exact demand_underneath s cause cat
  · exact .refl s

theorem demandInputs_underneath (a : State) (l : List (Fin 4)) (s : State) : Underneath s (demandInputs a l s) := by
  induction l generalizing s with
  | nil => exact .refl s
  | cons i l ih => exact (demandIf_underneath _ s _ _).trans (ih _)

theorem bootDemands_underneath (s : State) : Underneath s (bootDemands s) := by
  rw [bootDemands_eq]
  exact ((((((demandInputs_underneath s _ s).trans (demandIf_underneath ..)).trans (demandIf_underneath ..)).trans
    (demandIf_underneath ..)).trans (demandIf_underneath ..)).trans (demandIf_underneath ..)).trans
    (demandIf_underneath ..)

/-! ### The mode that BOOT enters (R207) -/

theorem refreshOutputs_sys : (refreshOutputs s).sys = s.sys :=
  (refreshOutputs_same (pm := 2048) rfl (.refl 2048 s)).sys.resolve_left (by decide)

theorem refreshOutputs_sticky : (refreshOutputs s).sticky = s.sticky :=
  (refreshOutputs_same (pm := 2048) rfl (.refl 2048 s)).sticky.resolve_left (by decide)

/-- The state in the mode that rows 2 and 3 give. -/
def inNaturalMode (s : State) : State := { s with sys := { s.sys with mode := naturalMode s } }

/-- A latch restored enters SAFE where no demand has, and is a cause of its own (R263). -/
def latchActs (latch : Bool) (m : Mode) (s : State) : State :=
  let s := if s.sys.mode ≠ .safe ∧ latch then
      { s with sys := { s.sys with mode := .safe, safeFrom := m }, safe := { s.safe with cause := 0, cat := 3 } }
    else s
  if latch then { s with safe := { s.safe with cause := putBit s.safe.cause 11 true } } else s

theorem latchActs_sys (latch : Bool) (m : Mode) (s : State) : (latchActs latch m s).sys =
    if s.sys.mode ≠ .safe ∧ latch = true then { s.sys with mode := .safe, safeFrom := m } else s.sys := by
  unfold latchActs
  split <;> split <;> rfl

theorem latchActs_sticky (latch : Bool) (m : Mode) (s : State) : (latchActs latch m s).sticky = s.sticky := by
  unfold latchActs
  split <;> split <;> rfl

/-- The mode that BOOT enters, before the outputs switch. -/
def modeEntered (s : State) : State :=
  latchActs s.sticky.safeLatch (naturalMode s) (bootDemands (inNaturalMode s))

theorem enterFromBoot_eq (s : State) : enterFromBoot s =
    refreshOutputs { modeEntered s with sys := { (modeEntered s).sys with prev := .boot } } := rfl

/-- The registers once the demands and a latch restored have acted. -/
theorem enterFromBoot_sys (s : State) : (enterFromBoot s).sys = { (modeEntered s).sys with prev := .boot } := by
  rw [enterFromBoot_eq, refreshOutputs_sys]

theorem modeEntered_underneath (s : State) : Underneath s (modeEntered s) := by
  have h : Underneath s (bootDemands (inNaturalMode s)) := bootDemands_underneath (inNaturalMode s)
  constructor
  · rw [modeEntered, latchActs_sys]
    split
    · exact h.1
    · exact h.1
  · rw [modeEntered, latchActs_sticky]
    exact h.2

theorem enterFromBoot_underneath (s : State) : Underneath s (enterFromBoot s) := by
  constructor
  · rw [enterFromBoot_sys]
    exact (modeEntered_underneath s).1
  · rw [enterFromBoot_eq, refreshOutputs_sticky]
    exact (modeEntered_underneath s).2

theorem enterFromBoot_prev (s : State) : (enterFromBoot s).sys.prev = .boot := by
  rw [enterFromBoot_sys]

theorem naturalMode_eq (s : State) : naturalMode s =
    if s.sys.cfgdef = true ∨ s.sys.bootcfg.getLsbD 0 = false then .configure else .idle := by
  unfold naturalMode
  cases s.sys.cfgdef <;> cases s.sys.bootcfg.getLsbD 0 <;> rfl

/-- With nothing staged, SAFE is entered by a demand or by the latch, and otherwise the mode of rows 2 and 3. -/
theorem enterFromBoot_mode (hphase : s.sys.phase = .running) (hstaged : s.staged = []) :
    (BootDemand s ∨ s.sticky.safeLatch = true → (enterFromBoot s).sys.mode = .safe) ∧
    (¬ (BootDemand s ∨ s.sticky.safeLatch = true) → (enterFromBoot s).sys.mode = naturalMode s) := by
  have hserves : Serves (inNaturalMode s) := by
    refine ⟨hphase, ?_, ?_⟩
    · change naturalMode s ≠ .dormant
      rw [naturalMode_eq]
      split <;> decide
    · unfold committedMode
      rw [show (inNaturalMode s).staged = [] from hstaged]
      split <;> rfl
  have hd := bootDemands_demanded hserves
  have hiff : BootDemand (inNaturalMode s) ↔ BootDemand s := Iff.rfl
  rw [enterFromBoot_sys]
  dsimp only
  rw [modeEntered, latchActs_sys]
  by_cases hB : BootDemand s
  · have hsafe := hd.safe (hiff.mpr hB)
    rw [if_neg (fun h => h.1 hsafe)]
    exact ⟨fun _ => hsafe, fun h => absurd (.inl hB) h⟩
  · have hcalm : (bootDemands (inNaturalMode s)).sys.mode = naturalMode s := hd.calm fun h => hB (hiff.mp h)
    have hne : (bootDemands (inNaturalMode s)).sys.mode ≠ .safe := by
      rw [hcalm, naturalMode_eq]
      split <;> decide
    by_cases hl : s.sticky.safeLatch = true
    · rw [if_pos ⟨hne, hl⟩]
      exact ⟨fun _ => rfl, fun h => absurd (.inr hl) h⟩
    · rw [if_neg (fun h => hl h.2)]
      exact ⟨fun h => absurd h (not_or.mpr ⟨hB, hl⟩), fun _ => hcalm⟩

/-! ### The end of BOOT -/

theorem recordsTold_sys : (recordsTold s).sys = s.sys := by
  unfold recordsTold
  dsimp only
  split
  · rfl
  · rfl

theorem recordsTold_evq : (recordsTold s).evq = s.evq := by
  unfold recordsTold
  dsimp only
  split
  · rfl
  · rfl

theorem stickyEvents_congr (h : noLatch t.sticky = noLatch s.sticky) : stickyEvents t = stickyEvents s := by
  have hstuck : t.sticky.stuck = s.sticky.stuck := (congrArg Sticky.stuck h :)
  have htold : t.sticky.stuckTold = s.sticky.stuckTold := (congrArg Sticky.stuckTold h :)
  have hkept : t.sticky.haltKept = s.sticky.haltKept := (congrArg Sticky.haltKept h :)
  unfold stickyEvents
  rw [hstuck, htold, hkept]

/-- The device as its epochs have started, with the mode in force. -/
def bootEntered (b : BootInput) (s : State) : State :=
  enterFromBoot (startEpochs { s with sys := { s.sys with tboot := b.ms }, evq := { s.evq with bootPend := [] } })

/-- The device at the end of BOOT, with the events that come first. -/
def bootEnded (b : BootInput) (s : State) (own : List EvDraft) : State :=
  let e := bootEntered b s
  takeSnap (firstEvents { e with evq := { e.evq with bootPend := s.evq.bootPend } }
    (own ++ [{ code := 0x0140, payload := p1 e.sys.cause.code ++ p1 e.sys.mode.code ++ p4 b.ms }]))

theorem bootEnds_enters {b : BootInput} (h : bootRuns s = true)
    (hf : (bootFindings 0 b (advanceTime (b.ms * 1000000) s)).2.1 = 0) :
    bootEnds b s = bootEnded b (bootFindings 0 b (advanceTime (b.ms * 1000000) s)).1
      (bootFindings 0 b (advanceTime (b.ms * 1000000) s)).2.2 :=
  (if_neg (ne_false_of_eq_true h)).trans (if_neg (not_not_intro hf))

variable {b : BootInput} {own : List EvDraft}

/-- The epochs start beneath the mode. -/
theorem bootEntered_underneath (b : BootInput) (s : State) : Underneath (firstEpoch { s with
    sys := { s.sys with tboot := b.ms }, evq := { s.evq with bootPend := [] } }) (bootEntered b s) := by
  have h := startEpochs_marks { s with sys := { s.sys with tboot := b.ms }, evq := { s.evq with bootPend := [] } }
  exact .trans ⟨congrArg underModes h.sys, noLatch_of_noSeq h.sticky⟩ (enterFromBoot_underneath _)

theorem bootEntered_mode (hstaged : s.staged = []) :
    (BootDemand s ∨ s.sticky.safeLatch = true → (bootEntered b s).sys.mode = .safe) ∧
    (¬ (BootDemand s ∨ s.sticky.safeLatch = true) → (bootEntered b s).sys.mode =
      if s.sys.cfgdef = true ∨ s.sys.bootcfg.getLsbD 0 = false then .configure else .idle) := by
  have h := startEpochs_marks { s with sys := { s.sys with tboot := b.ms }, evq := { s.evq with bootPend := [] } }
  unfold bootEntered
  generalize startEpochs _ = e at h ⊢
  have hsafe : e.safe = s.safe := h.safe
  have hinput (i : Fin 4) : inputDemands e i = inputDemands s i := by
    unfold inputDemands inputEnabled inputHealthy
    rw [hsafe]
  have hdemand : BootDemand e ↔ BootDemand s := by
    unfold BootDemand
    simp only [hinput, hsafe]
  have hlatch : e.sticky.safeLatch = s.sticky.safeLatch := (congrArg Sticky.safeLatch h.sticky :)
  have hcfg : e.sys.cfgdef = s.sys.cfgdef := (congrArg Sys.cfgdef h.sys :)
  have hboot : e.sys.bootcfg = s.sys.bootcfg := (congrArg Sys.bootcfg h.sys :)
  have hmode := enterFromBoot_mode (congrArg Sys.phase h.sys) (h.staged.trans hstaged)
  rw [hdemand, hlatch, naturalMode_eq, hcfg, hboot] at hmode
  exact hmode

theorem bootEnded_sys : (bootEnded b s own).sys = (bootEntered b s).sys := recordsTold_sys

theorem bootEnded_bootPend : ∃ r, (bootEnded b s own).evq.bootPend = stickyEvents s ++ own ++
    [{ code := 0x0140, payload := p1 s.sys.cause.code ++ p1 (bootEntered b s).sys.mode.code ++ p4 b.ms }] ++ r := by
  obtain ⟨hsys, hsticky⟩ := bootEntered_underneath b s
  have hcause : (bootEntered b s).sys.cause = s.sys.cause := (congrArg Sys.cause hsys :)
  have hev : stickyEvents (bootEntered b s) = stickyEvents s := stickyEvents_congr (s := s) hsticky
  refine ⟨keptEvents (bootEntered b s) ++ s.evq.bootPend, ?_⟩
  refine (congrArg EvQ.bootPend recordsTold_evq).trans ?_
  rw [← hcause, ← hev]
  simp only [List.append_assoc]
  rfl

end

/-- Settles O51: BOOT_DONE by what the demands of BOOT leave (`bootEntered`), the other commands by their branches. -/
theorem bootEventsComplete : Obligations.BootEventsComplete := by
  rintro s u ohm rfl
  refine ⟨settleDue_none, ?_, ?_, ?_, ?_, ?_, ?_, ?_, ?_, ?_, ?_, ?_⟩
  · rintro h t rfl
    exact congrArg Host.Outcome.next (powerOn_free h)
  · intro h
    exact congrArg Host.Outcome.next (powerOn_held h)
  · intro mV h h4 hv hoff hl
    exact congrArg Host.Outcome.next (softStart_starts h h4 hv hoff hl)
  · rintro b f hruns rfl hf
    have hex : exec (.bootDone b) s = .next _ := congrArg Host.Outcome.next (bootEnds_enters hruns hf)
    generalize bootFindings 0 b (advanceTime (b.ms * 1000000) (settleDue s)) = f at hex hf
    obtain ⟨hsys, -⟩ := bootEntered_underneath b f.1
    have hprev : (bootEntered b f.1).sys.prev = .boot := enterFromBoot_prev _
    refine ⟨_, hex, ?_⟩
    rw [bootEnded_sys]
    refine ⟨(congrArg Sys.phase hsys :), (congrArg Sys.epoch hsys :), (congrArg Sys.running hsys :),
      (congrArg Sys.bootStep hsys :), (congrArg Sys.tboot hsys :), hprev, fun hstaged => ?_, bootEnded_bootPend⟩
    obtain ⟨hsafe, hcalm⟩ := bootEntered_mode (b := b) hstaged
    simp only [BootDemand, or_assoc] at hsafe hcalm
    split
    case isTrue h => exact hsafe h
    case isFalse h => exact hcalm h
  · rintro k b f v hk hruns rfl rfl
    have hex : exec (.bootHalt ⟨k, b⟩) s = .next _ :=
      congrArg Host.Outcome.next (bootHalts_halts (b := b) (fun e : k.val = 0 => hk (Fin.ext e)) hruns)
    obtain ⟨hphase, hcode⟩ := haltAt_halted (bootFindings k.val b (advanceTime (b.ms * 1000000) (settleDue s))).2.1
      (bootFindings k.val b (advanceTime (b.ms * 1000000) (settleDue s))).2.2
      (bootFindings k.val b (advanceTime (b.ms * 1000000) (settleDue s))).1
    refine ⟨_, hex, rfl, hphase, hcode, bootFindings_code hk, fun h4 hv => ?_, ?_⟩
    · exact bootFindings_sram (fun e : k.val = 4 => h4 (Fin.ext e)) (.inr hv)
    · rintro rfl
      have h4 := bootFindings_four (b := b) (s := advanceTime (b.ms * 1000000) (settleDue s))
      rw [show ((4 : Fin 6).val) = 4 from rfl, h4]
      exact haltAt_four _ _
  · intro hheed hheld hboot
    have hsys := steady_pinHeld (u := settleDue s)
    refine ⟨_, congrArg Host.Outcome.next (pinResets_holds rfl hheed hheld hboot), (congrArg Sys.phase hsys :),
      (congrArg Sys.running hsys :), (congrArg Sys.rstLow hsys :), congrArg (satInc 8) pinHeld_pinn, holdIslands_soOn (ph := .resetHeld), rfl,
      ?_, fun c => (pinHeld_forced c).2⟩
    exact congrArg (fun x => if (settleDue s).safe.sessOpen then some (settleDue s).safe.slot else x)
      (congrArg Sys.closed hsys :)
  · intro h
    exact congrArg Host.Outcome.next (pinResets_ignored rfl h)
  · rintro t rfl
    refine ⟨fun h => ?_, fun h h2 => ?_, fun h h2 => ?_⟩
    · exact congrArg Host.Outcome.next (resetReleased_held h)
    · exact congrArg Host.Outcome.next (resetReleased_step2 h h2)
    · exact congrArg Host.Outcome.next (resetReleased_idle h h2)
  · intro hlow h
    exact congrArg Host.Outcome.next (resetStuck_low hlow h)
  · rintro t rfl
    refine ⟨fun h => ?_, fun h hd => ?_, fun hd hp hr => ?_⟩
    · exact congrArg Host.Outcome.next (wakeRises_low h)
    · exact congrArg Host.Outcome.next (wakeRises_running h hd)
    · exact congrArg Host.Outcome.next (wakeRises_ignored hd hp hr)
  · intro mV ms h hl hr hv ht
    exact congrArg Host.Outcome.next (linkWakes_park h hl hr hv ht)

end Sys2Proof.Safety

/-! The supplies (O52). -/
namespace Sys2Proof.Safety
open Sys2Proof.Machine

section
variable {s t : State} {p : Fin 2}

/-! ### The phases of the aux converter (R415 to R418) -/

/-- A phase that is latched off while the other one works (R417). -/
theorem latchPhase_latches {cause : Nat} (hruns : auxRuns s = true) (hp : phaseLatched s p = false)
    (ht : t = { s with sticky := { s.sticky with phaseOff := putBit s.sticky.phaseOff p.val true }
                       aux := { s.aux with trim := 0, imb := false } }) :
    latchPhase s p cause = if bothLatched (queueEvent t 0x0B01 (p1 p.val ++ p1 cause)) then
        auxStop (drawFree (queueEvent t 0x0B01 (p1 p.val ++ p1 cause))).2 2
          ((drawFree (queueEvent t 0x0B01 (p1 p.val ++ p1 cause))).1 % 65536).toNat
      else queueEvent t 0x0B01 (p1 p.val ++ p1 cause) := by
  subst ht
  exact if_neg (not_or.mpr ⟨ne_false_of_eq_true hruns, ne_true_of_eq_false hp⟩)

/-- An event leaves the latches of the phases. -/
theorem bothLatched_queueEvent (code : Nat) (params : List Byte) :
    bothLatched (queueEvent s code params) = bothLatched s := by
  have h : (queueEvent s code params).sticky.phaseOff = s.sticky.phaseOff :=
    (congrArg Sticky.phaseOff (noSeq_queueEvent (s := s) code params) :)
  unfold bothLatched
  rw [h]

/-- A stop of the converter holds the islands, with its record (R418, R421). -/
theorem auxStop_stopped (kind vgd : Nat) : (auxStop s kind vgd).sys.phase = .stopped ∧
    (auxStop s kind vgd).nvm.stopValid = true ∧ (auxStop s kind vgd).nvm.stopKind = kind ∧
    ∀ c : Fin 16, ((auxStop s kind vgd).ch[c]).gates = false :=
  ⟨rfl, rfl, rfl, fun c => (holdIslands_forced (s := s) (ph := .stopped) c).2.1⟩

theorem limitPersists_regulating (h : s.aux.state = 2) (hp : phaseLatched s p = false) :
    limitPersists p s = latchPhase (countLimit s) p 1 := if_pos ⟨h, hp⟩

theorem softStartLimit_starting (h : s.aux.state = 1) (hp : phaseLatched s p = false) :
    softStartLimit p s = latchPhase (countLimit s) p 2 := if_pos ⟨h, hp⟩

/-- The trim reaches its limit with both phases at work (R415). -/
theorem imbalance_begins {positive : Bool} (hruns : auxRuns s = true) (hoff : s.sticky.phaseOff = 0)
    (hi : s.aux.imb = false) : imbalance positive s = queueEvent { s with aux := { s.aux with
        imb := true, trim := if positive then 500 else -500, imbn := satInc 8 s.aux.imbn } } 0x0B04
        (p4 (if positive then 500 else -500)) :=
  if_neg (not_or.mpr ⟨ne_false_of_eq_true hruns, not_or.mpr ⟨not_not_intro hoff, ne_true_of_eq_false hi⟩⟩)

theorem imbalanceEnds_of_imb (h : s.aux.imb = true) : imbalanceEnds s =
    { (drawFree s).2 with aux := { (drawFree s).2.aux with imb := false, trim := (drawFree s).1 % 999 - 499 } } :=
  if_pos h

theorem brakeStarts_brakes (hruns : auxRuns s = true) (hb : s.aux.brake = false) :
    brakeStarts s = { s with aux := { s.aux with brake := true, braken := satInc 16 s.aux.braken } } := by
  refine if_pos ?_
  rw [hruns, hb]
  rfl

theorem vgdOver_stops {mV : Nat} (hruns : auxRuns s = true) (ht : t = auxStop s 1 mV) :
    vgdOver mV s = { t with sticky := { t.sticky with vgdLatch := true } } := by
  subst ht
  exact if_pos hruns

theorem modeEdge_moves {buck : Bool} (hruns : auxRuns s = true) :
    modeEdge buck s = { s with aux := { s.aux with mode := if buck then 1 else 2 } } := if_pos hruns

/-! ### Supply loss (R426) -/

theorem supplyShutdown_shuts (hw : supplyWatched s = true) (ht : t = holdIslands s .shutdown) :
    supplyShutdown s = { t with aux := { t.aux with state := 0, mode := 0, brake := false, imb := false, trim := 0 } } := by
  subst ht
  exact if_pos hw

theorem railsWatched_true (hw : supplyWatched s = true) (hruns : auxRuns s = true) : railsWatched s = true := by
  unfold railsWatched
  rw [hw, hruns]
  rfl

theorem alwaysOnResets_ch (c : Fin 16) : ((alwaysOnResets s).ch[c]).dsw = false ∧
    ((alwaysOnResets s).ch[c]).gates = false := by
  have h : (alwaysOnResets s).ch
      = vmap (holdIslands s .unpowered).ch fun ch => { ch with dsw := false, opening := .none } := by
    simp only [alwaysOnResets]
  rw [h, vmap_getElem]
  exact ⟨rfl, (holdIslands_forced (s := s) (ph := .unpowered) c).2.1⟩

end

/-- Settles O52. -/
theorem supplyEventsComplete : Obligations.SupplyEventsComplete := by
  intro s p t u
  refine ⟨fun hruns hp ht => ⟨fun hb => ?_, fun hb => ?_⟩, ?_, ?_, ?_, ?_, rfl, ?_, ?_, ?_, fun _ => rfl, ?_⟩
  · refine congrArg Host.Outcome.next ((latchPhase_latches hruns hp ht).trans (if_neg ?_))
    rw [bothLatched_queueEvent, hb]
    decide
  · have hx : phaseOvercurrent p s = _ := (latchPhase_latches (cause := 1) hruns hp ht).trans (if_pos (by
      rw [bothLatched_queueEvent, hb]))
    obtain ⟨hphase, hvalid, hkind, hgates⟩ := auxStop_stopped (s := (drawFree (queueEvent t 0x0B01 (p1 p.val ++ p1 1))).2) 2
      ((drawFree (queueEvent t 0x0B01 (p1 p.val ++ p1 1))).1 % 65536).toNat
    exact ⟨_, congrArg Host.Outcome.next hx, hphase, hvalid, hkind, hgates⟩
  · rintro hp rfl
    refine ⟨fun h => ?_, fun h => ?_⟩
    · exact congrArg Host.Outcome.next (limitPersists_regulating h hp)
    · exact congrArg Host.Outcome.next (softStartLimit_starting h hp)
  · intro positive hruns hoff hi
    exact congrArg Host.Outcome.next (imbalance_begins hruns hoff hi)
  · intro h
    refine ⟨_, congrArg Host.Outcome.next (imbalanceEnds_of_imb h), rfl, ?_⟩
    have hlow := Int.emod_nonneg (drawFree s).1 (by decide : (999 : Int) ≠ 0)
    have hhigh := Int.emod_lt_of_pos (drawFree s).1 (by decide : (0 : Int) < 999)
    dsimp only
    omega
  · intro hruns hb
    exact congrArg Host.Outcome.next (brakeStarts_brakes hruns hb)
  · intro mV hruns ht
    exact congrArg Host.Outcome.next (vgdOver_stops hruns ht)
  · intro buck hruns
    exact congrArg Host.Outcome.next (modeEdge_moves hruns)
  · intro i hi hw hr ht
    simp only [List.mem_cons, List.not_mem_nil, or_false] at hi
    obtain rfl | rfl := hi
    · exact congrArg Host.Outcome.next (supplyShutdown_shuts hw ht)
    · exact congrArg Host.Outcome.next
        ((if_pos (railsWatched_true hw (hr rfl))).trans (supplyShutdown_shuts hw ht))
  · exact ⟨_, rfl, rfl, rfl, rfl, alwaysOnResets_ch⟩

end Sys2Proof.Safety

/-! The reads of status, of the stores and of the event queue (O13, O14, O15). -/
namespace Sys2Proof.Safety
open Sys2Proof.Machine

section
variable {s : State} {i : Instr}

/-- A served command that only reads: its reply, whatever the host port holds. -/
theorem hostCommand_reads {body : Request → State → State × Completion} {status : Byte} {payload : List Byte}
    (h : Served i s) (hb : ∀ p, body (req i s) { s with port := p } = ({ s with port := p }, .now status payload)) :
    hostCommand i true s body = replied i s (taken i s) status payload := hostCommand_now_port h id hb

/-! ### Status (R315) -/

/-- DORMANT powers the islands down, and the sequencer has not started in BOOT (R315). -/
theorem statusBytes_eq (s : State) : statusBytes s = wordBytes (sysMode s)
    ++ (if s.sys.phase = .dormant then List.replicate 20 0
        else wordBytes (safeStat s) ++ wordBytes (thermStat s) ++
          (if s.sys.phase = .booting ∨ s.sys.phase = .halted then List.replicate 12 0
           else wordBytes (linkState s) ++ stateNibbles s))
    ++ toLE 2 (unreadCount s) ++ toLE 2 s.evq.queue.length := by
  have hn : (stateNibbles s).length = 8 := by simp [stateNibbles]
  unfold statusBytes sequencerRuns
  dsimp only
  rw [wordBytes_length, wordBytes_length, wordBytes_length, hn]
  cases s.sys.phase
  case dormant => simp [List.replicate]
  case booting => simp [List.replicate]
  case halted => simp [List.replicate]
  all_goals simp

theorem chStatusBody_leader {b : Byte} (h : b.toNat < 16) (hl : isFollower s ⟨b.toNat, h⟩ = false) :
    chStatusBody b s = (s, .now stOk ((s.ch[b.toNat]).snap.flatMap wordBytes)) := by
  unfold chStatusBody
  rw [chanOf?_lt h]
  exact if_neg (ne_true_of_eq_false hl)

theorem chStatusBody_follower {b : Byte} (h : b.toNat < 16) (hl : isFollower s ⟨b.toNat, h⟩ = true) :
    chStatusBody b s = (s, .status stBadParam) := by
  unfold chStatusBody
  rw [chanOf?_lt h]
  exact if_pos hl

end

/-- Settles O13. -/
theorem statusReadsComplete : Obligations.StatusReadsComplete := by
  intro s
  refine ⟨fun h => ?_, fun h => ?_, fun h => ?_, fun d hd h => ?_, fun b hb h => ⟨fun hl => ?_, fun hl => ?_⟩, fun h => ?_,
    fun b hb h => ?_, fun h => ?_⟩
  · exact congrArg Host.Outcome.next (hostCommand_reads h fun _ => rfl)
  · refine congrArg Host.Outcome.next (hostCommand_reads h fun p => ?_)
    rw [statusBytes_eq]
    rfl
  · exact congrArg Host.Outcome.next (hostCommand_reads h fun _ => rfl)
  · have hlen := lengthIn_eq_true (Nat.zero_le _) hd
    refine congrArg Host.Outcome.next ?_
    rw [hlen]
    exact hostCommand_reads h fun _ => rfl
  · exact congrArg Host.Outcome.next (hostCommand_reads h fun p => chStatusBody_leader (s := { s with port := p }) hb hl)
  · exact congrArg Host.Outcome.next (hostCommand_reads h fun p => chStatusBody_follower (s := { s with port := p }) hb hl)
  · exact congrArg Host.Outcome.next (hostCommand_reads h fun _ => rfl)
  · exact congrArg Host.Outcome.next (hostCommand_reads h fun _ => dif_pos hb)
  · exact congrArg Host.Outcome.next (hostCommand_reads h fun _ => rfl)

/-! ### The stores (R183, R186, R256, R324, R328) -/

section
variable {s : State} {b : Byte}

theorem leadOf?_leader (h : b.toNat < 16) (hl : isFollower s ⟨b.toNat, h⟩ = false) :
    leadOf? s b = some ⟨b.toNat, h⟩ := (dif_pos h).trans (if_neg (ne_true_of_eq_false hl))

theorem bookReadBody_reads {k first n : Byte} (h : k.toNat < 32) (hmin : 1 ≤ n.toNat) (hmax : n.toNat ≤ 63)
    (hend : first.toNat + n.toNat ≤ hdrNstep (s.nvm.book[k.toNat]).header) :
    bookReadBody k first n s =
      (s, .now stOk (((s.nvm.book[k.toNat]).steps.drop first.toNat).take n.toNat).flatten) := by
  unfold bookReadBody
  rw [show bookSlot? k = some ⟨k.toNat, h⟩ from dif_pos h]
  exact if_neg (not_or.mpr ⟨by omega, not_or.mpr ⟨by omega, Nat.not_lt.mpr hend⟩⟩)

theorem histReadBody_reads {f n : BitVec 16} (h : b.toNat < 16) (hmin : 1 ≤ n.toNat) (hmax : n.toNat ≤ 1024)
    (hfirst : f.toNat ≤ 2049) (hend : f.toNat + n.toNat ≤ 2050) :
    histReadBody b f n s =
      (s, .now stOk ((List.range n.toNat).flatMap fun k => toLE 4 (histWord (s.ch[b.toNat]).hist (f.toNat + k)))) :=
  (dif_pos h).trans (if_neg (not_or.mpr ⟨by omega, not_or.mpr ⟨by omega, not_or.mpr ⟨by omega, by omega⟩⟩⟩))

/-- A record of the ring that is there, with those after it (R328). -/
theorem logReadBody_reads {n : Byte} {first : Word} (h : b.toNat < 16) (hl : isFollower s ⟨b.toNat, h⟩ = false)
    (hmin : 1 ≤ n.toNat) (hmax : n.toNat ≤ 127)
    (hoff : (first.toNat + 2 ^ 32 - (s.ch[b.toNat]).logAck) % 2 ^ 32 < ringUsed s.ch[b.toNat]) :
    logReadBody b n first s = (s, .now stOk
      (p1 (min n.toNat (ringUsed s.ch[b.toNat] - (first.toNat + 2 ^ 32 - (s.ch[b.toNat]).logAck) % 2 ^ 32)) ++ [0, 0, 0]
          ++ ringRead s.ch[b.toNat] first.toNat
            (min n.toNat (ringUsed s.ch[b.toNat] - (first.toNat + 2 ^ 32 - (s.ch[b.toNat]).logAck) % 2 ^ 32)))) := by
  have hn : n ≠ 0 := by
    rintro rfl
    exact absurd hmin (by decide)
  unfold logReadBody
  rw [leadOf?_leader h hl]
  exact if_neg (not_or.mpr ⟨hn, not_or.mpr ⟨Nat.not_lt.mpr hmax, Nat.not_le.mpr hoff⟩⟩)

theorem gradeReadBody_reads {age : Byte} {g : List Byte} (h : b.toNat < 16) (hl : isFollower s ⟨b.toNat, h⟩ = false)
    (hage : age.toNat ≤ 7) (hg : (s.ch[b.toNat]).grades[age.toNat]? = some g) :
    gradeReadBody b age s = (s, .now stOk g) := by
  unfold gradeReadBody
  rw [leadOf?_leader h hl]
  dsimp only
  rw [if_neg (Nat.not_lt.mpr hage)]
  exact (congrArg (fun o => match o with
    | some g => (s, Completion.now stOk g)
    | none => (s, .status stBadParam)) hg :)

/-- A session command finds the change log as it stands. -/
theorem changeLogRead_reads {i : Instr} {first : Word} {n : Byte} (hmin : 1 ≤ n.toNat) (hmax : n.toNat ≤ 7)
    (hend : first.toNat + n.toNat ≤ s.nvm.logSeq) (hs : s.safe.defaultSess = false) :
    changeLogRead first n (sessionHeard (taken i s)) = (sessionHeard (taken i s), .now stOk
        ((List.range n.toNat).flatMap fun k => changeAt s (first.toNat + k))) := by
  obtain ⟨p, tb, fr, d, l, h⟩ := heardTaken_only i s
  rw [h]
  exact (if_neg (not_or.mpr ⟨by omega, not_or.mpr ⟨by omega, Nat.not_lt.mpr hend⟩⟩)).trans
    (if_neg (ne_true_of_eq_false hs))

/-! ### The event queue (R336, R337) -/

theorem evtReadBody_reads {first : Word} {n : Byte} {l : List Ev} (hmin : 1 ≤ n.toNat) (hmax : n.toNat ≤ 127)
    (hl : eventsFrom s first = some l) : evtReadBody first n s = (markRead s (l.take n.toNat),
      .now stOk (p1 (l.take n.toNat).length ++ [0, 0, 0] ++ (l.take n.toNat).flatMap eventBytes)) := by
  have hn : n ≠ 0 := by
    rintro rfl
    exact absurd hmin (by decide)
  unfold evtReadBody
  rw [if_neg (not_or.mpr ⟨hn, Nat.not_lt.mpr hmax⟩), hl]

theorem evtAckBody_releases {seq : Word} {r : Nat} (hr : s.evq.returned = some r) (hle : seqLe seq.toNat r = true) :
    evtAckBody seq s = ({ s with evq := { s.evq with queue := s.evq.queue.filter fun e => !seqLe e.seq seq.toNat } },
      .status stOk) := by
  unfold evtAckBody
  rw [hr]
  exact if_pos hle

theorem evtStatusBody_counts {e : Ev} {rest : List Ev} (hq : s.evq.queue = e :: rest) :
    evtStatusBody s = (s, .now stOk
      (wordBytes (evqWord s) ++ toLE 4 s.sticky.evSeq ++ toLE 4 s.evq.lostTotal ++ toLE 4 e.seq)) := by
  unfold evtStatusBody
  dsimp only
  rw [hq]

theorem setLogAck_moves {c : Fin 16} {v : Word} (h : ((s.ch[c]).logSeq + 2 ^ 32 - v.toNat) % 2 ^ 32 ≤ ringSize) :
    setLogAck s c v = (s.updCh c fun ch => { ch with
      logAck := v.toNat
      nearFull := ch.nearFull && decide (4096 ≤ (ch.logSeq + 2 ^ 32 - v.toNat) % 2 ^ 32) }, stOk) := by
  refine (if_neg (Nat.not_lt.mpr h)).trans ?_
  exact congrArg (·, stOk) (updCh_congr rfl)

theorem logAckBody_moves {v : Word} (h : b.toNat < 16) (hl : isFollower s ⟨b.toNat, h⟩ = false)
    (hv : ((s.ch[b.toNat]).logSeq + 2 ^ 32 - v.toNat) % 2 ^ 32 ≤ ringSize) :
    logAckBody b v s = (s.updCh ⟨b.toNat, h⟩ fun ch => { ch with
      logAck := v.toNat
      nearFull := ch.nearFull && decide (4096 ≤ (ch.logSeq + 2 ^ 32 - v.toNat) % 2 ^ 32) }, .status stOk) := by
  unfold logAckBody
  rw [leadOf?_leader h hl]
  exact congrArg withStatus (setLogAck_moves (c := ⟨b.toNat, h⟩) hv)

end

/-- Settles O14. -/
theorem storeReadsComplete : Obligations.StoreReadsComplete := by
  intro s
  refine ⟨fun h => ?_, fun k first n hk hmin hmax hend h => ?_, fun b f n hb hmin hmax hf hend h => ?_,
    fun b n first hb hl hmin hmax hoff h => ?_, fun b age hb g hl hage hg h => ?_,
    fun first n hmin hmax hend hs h => ?_⟩
  · exact congrArg Host.Outcome.next (hostCommand_reads h fun _ => rfl)
  · exact congrArg Host.Outcome.next
      (hostCommand_reads h fun p => bookReadBody_reads (s := { s with port := p }) hk hmin hmax hend)
  · exact congrArg Host.Outcome.next
      (hostCommand_reads h fun p => histReadBody_reads (s := { s with port := p }) hb hmin hmax hf hend)
  · exact congrArg Host.Outcome.next
      (hostCommand_reads h fun p => logReadBody_reads (s := { s with port := p }) hb hl hmin hmax hoff)
  · exact congrArg Host.Outcome.next
      (hostCommand_reads h fun p => gradeReadBody_reads (s := { s with port := p }) hb hl hage hg)
  · exact congrArg Host.Outcome.next (hostCommand_replies h (changeLogRead_reads hmin hmax hend hs))

/-- Settles O15. -/
theorem queueCommandsComplete : Obligations.QueueCommandsComplete := by
  intro s
  refine ⟨fun first n l hmin hmax hl h => ?_, fun seq r hr hle h => ?_, fun e rest hq h => ?_, fun b v hb hl hv h => ?_⟩
  · exact congrArg Host.Outcome.next (hostCommand_now_port h (markRead · (l.take n.toNat))
      fun p => evtReadBody_reads (s := { s with port := p }) hmin hmax hl)
  · have hev := hostCommand_now_port h (body := fun _ s => evtAckBody seq s)
      (fun t => { t with evq := { t.evq with queue := t.evq.queue.filter fun e => !seqLe e.seq seq.toNat } })
      fun p => evtAckBody_releases (s := { s with port := p }) hr hle
    dsimp only at hev
    rw [show (taken (.evtAck seq) s).evq = s.evq from takeRequest_evq ..] at hev
    exact congrArg Host.Outcome.next hev
  · exact congrArg Host.Outcome.next (hostCommand_reads h fun p => evtStatusBody_counts (s := { s with port := p }) hq)
  · exact congrArg Host.Outcome.next (hostCommand_now_port h (fun t => t.updCh ⟨b.toNat, hb⟩ _)
      fun p => logAckBody_moves (s := { s with port := p }) hb hl hv)

end Sys2Proof.Safety

/-! Modes, staging, NVM operations and the book (O16, O18, O19, O20). -/
namespace Sys2Proof.Safety
open Sys2Proof.Machine

/-! ### SET_MODE, SOFT_RESET and CFG_SAVE (R208, R306, R316, R317) -/

section
variable {s : State} {b f : Byte} {t : Mode} {r : Request}

theorem setModeBody_stages (hphase : s.sys.phase = .running) (hf : f.toNat < 4) (ht : Mode.ofCode? b.toNat = some t)
    (hne : t ≠ s.sys.mode) (hr : (reachable s.sys.mode).contains t = true) (hp : modePending s = false) :
    setModeBody b f r s
      = (stage s (.mode t (f.getLsbD 0) (f.getLsbD 1) false 0) r.opc (some r.tag) (allIslands s), .later) := by
  rw [setModeBody_running r hphase hf ht, if_neg hne, if_neg (ne_false_of_eq_true hr), if_neg (ne_true_of_eq_false hp)]

theorem setModeBody_inForce (hphase : s.sys.phase = .running) (hf : f.toNat < 4)
    (ht : Mode.ofCode? b.toNat = some s.sys.mode) : setModeBody b f r s = (s, .status stOk) := by
  rw [setModeBody_running r hphase hf ht, if_pos rfl]

theorem setModeBody_parks (hphase : s.sys.phase = .dormant) (hf : f.toNat < 4) (hpark : f.getLsbD 0 = true) :
    setModeBody 6 f r s = (makeDue s .park, .status stOk) := by
  unfold setModeBody
  dsimp only
  rw [if_neg (fun h => h.2 ⟨rfl, hpark⟩), if_neg (Nat.not_le.mpr hf)]
  exact if_pos hphase

/-- SOFT_RESET with its confirmation, with no operation in the way but perhaps a page of the refresh. -/
theorem softResetBody_confirmed
    (hidle : s.sys.mode = .idle → allI 16 (fun c => (s.ch[c]).st == .off || (s.ch[c]).st == .fault) = true)
    (hm : modePending s = false) (hb : storeBusy s = false) : softResetBody 0xA5A55A5A s =
      if (pageRuns s).1 then ((pageRuns s).2, .status stBusyRetry) else (makeDue (pageRuns s).2 .soft, .status stOk) := by
  have hchan : ¬ (s.sys.phase = .running ∧ s.sys.mode = .idle ∧
      anyI 16 (fun c => (s.ch[c]).st != .off && (s.ch[c]).st != .fault) = true) := by
    rintro ⟨-, hmode, hany⟩
    obtain ⟨c, -, hc⟩ := List.any_eq_true.mp hany
    have hall := List.all_eq_true.mp (hidle hmode) c (List.mem_finRange c)
    simp only [Bool.and_eq_true, bne_iff_ne, ne_eq, Bool.or_eq_true, beq_iff_eq] at hc hall
    exact hall.elim hc.1 hc.2
  unfold softResetBody
  rw [if_neg (not_not_intro rfl), if_neg hchan, if_neg (not_or.mpr ⟨ne_true_of_eq_false hm, ne_true_of_eq_false hb⟩)]

theorem cfgSaveBody_starts (hb : nvmBusy s = false) : cfgSaveBody r s =
    ({ s with isl := { s.isl with nvmOp := .cfgSave (takeConfig s), opTag := some r.tag } }, .later) :=
  if_neg (ne_true_of_eq_false hb)

end

/-- Settles O16. -/
theorem modeCommandsComplete : Obligations.ModeCommandsComplete := by
  intro s
  refine ⟨fun b f t hphase hf ht hne hr hp h => ?_, fun b f hphase hf ht h => ?_, fun f hphase hf hpark h => ?_,
    fun hidle hm hb h u hu => ?_, fun h => ?_, fun d => ⟨rfl, rfl, rfl⟩, fun hb h => ?_⟩
  · exact congrArg Host.Outcome.next (hostCommand_later_port h
      (fun v => staged (.setMode b f) s v (.mode t (f.getLsbD 0) (f.getLsbD 1) false 0) (allIslands s))
      fun p => setModeBody_stages (s := { s with port := p }) hphase hf ht hne hr hp)
  · exact congrArg Host.Outcome.next
      (hostCommand_reads h fun p => setModeBody_inForce (s := { s with port := p }) hphase hf ht)
  · exact congrArg Host.Outcome.next (hostCommand_now_port h (makeDue · .park)
      fun p => setModeBody_parks (s := { s with port := p }) hphase hf hpark)
  · subst hu
    obtain ⟨p, hp⟩ := taken_port_only (.softReset 0xA5A55A5A) s
    have hbody := softResetBody_confirmed (s := taken (.softReset 0xA5A55A5A) s) (by rw [hp]; exact hidle)
      (by rw [hp]; exact hm) (by rw [hp]; exact hb)
    refine ⟨fun hu => ?_, fun hu => ?_⟩
    · exact congrArg Host.Outcome.next (hostCommand_replies h (hbody.trans (if_neg (ne_true_of_eq_false hu))))
    · exact congrArg Host.Outcome.next (hostCommand_replies h (hbody.trans (if_pos hu)))
  · exact congrArg Host.Outcome.next (hostCommand_now_port h (makeDue · .wake) fun _ => rfl)
  · have hisl : (taken .cfgSave s).isl = s.isl := takeRequest_isl ..
    refine congrArg Host.Outcome.next ((hostCommand_later h (cfgSaveBody_starts ?_)).trans ?_)
    · unfold nvmBusy
      rw [hisl]
      exact hb
    · rw [hisl]

/-! ### The answers to a staged change (R24, R25, R121, R209) -/

section
variable {s : State} {x : Staged} {i : Fin 14} {target : Mode} {park discard fromSafe : Bool} {m : Mask}

theorem isMode_eq_false {c : Change} (h : c.isMode = false) (target : Mode) (park discard fromSafe : Bool) (m : Mask) :
    c ≠ .mode target park discard fromSafe m := by
  rintro rfl
  exact Bool.noConfusion (h : true = false)

theorem stagingAnswer_other (h : firstWaiting s (fun w => w.getLsbD i.val) = some x) (hx : x.change.isMode = false) :
    stagingAnswer i s = { s with staged := answerOldest i.val false s.staged } := by
  unfold stagingAnswer
  rw [h]
  dsimp only
  split
  case h_1 hc => exact (isMode_eq_false hx _ _ _ _ _ hc).elim
  case h_2 => rfl

theorem stagingAnswer_mode (h : firstWaiting s (fun w => w.getLsbD i.val) = some x)
    (hx : x.change = .mode target park discard fromSafe m) : stagingAnswer i s =
      settleRefusal { (islandRefuses s i target discard).2 with
        staged := answerOldest i.val (islandRefuses s i target discard).1 (islandRefuses s i target discard).2.staged } := by
  unfold stagingAnswer
  rw [h]
  dsimp only
  rw [hx]

theorem settleRefusal_eq (h : s.staged.find? (fun y => y.change.isMode) = some x)
    (hx : x.change = .mode target park discard fromSafe m) :
    settleRefusal s = if x.waiting = 0 ∧ x.refused ≠ 0 then refuseMode s target x x.refused else s := by
  unfold settleRefusal
  rw [h]
  dsimp only
  rw [hx]

theorem stagingTimeout_mode (h : firstWaiting s (fun w => w != 0) = some x)
    (hx : x.change = .mode target park discard fromSafe m) :
    stagingTimeout s = refuseMode s target x (x.waiting ||| x.refused) := by
  unfold stagingTimeout
  rw [h]
  dsimp only
  rw [hx]

/-- The islands that have not answered are noted as refusers (R25). -/
def refusersNoted (s : State) (x : Staged) : State := { s with sys := { s.sys with refusers := x.waiting ||| x.refused } }

theorem stagingTimeout_castle {g : Fin 4} (h : firstWaiting s (fun w => w != 0) = some x) (hx : x.change = .castle g) :
    stagingTimeout s =
      if recoversGroup (refusersNoted s x) g then restaged (refusersNoted s x) g else abortCastle (refusersNoted s x) g 2 := by
  unfold stagingTimeout
  rw [h]
  dsimp only
  rw [hx]
  rfl

theorem stagingTimeout_lane {k : Fin 4} (h : firstWaiting s (fun w => w != 0) = some x) (hx : x.change = .lane k) :
    stagingTimeout s = dropSlot (refusersNoted s x) k := by
  unfold stagingTimeout
  rw [h]
  dsimp only
  rw [hx]
  rfl

/-- A channel-mask command that an island never answers completes with ABORTED for its channels. -/
theorem stagingTimeout_mask {tag : ReqId} {k : Mask} (h : firstWaiting s (fun w => w != 0) = some x)
    (htag : x.tag = some tag) (hk : x.change.mask? = some k) :
    stagingTimeout s = reply { refusersNoted s x with staged := eraseFirst (fun y => y.waiting != 0) s.staged }
      tag x.opc stAborted (maskResults k stAborted) := by
  unfold stagingTimeout
  rw [h]
  dsimp only
  split
  case h_1 hc =>
    rw [hc] at hk
    exact absurd hk (by simp [Change.mask?])
  case h_2 =>
    split
    case h_1 hc =>
      rw [hc] at hk
      exact absurd hk (by simp [Change.mask?])
    case h_2 hc =>
      rw [hc] at hk
      exact absurd hk (by simp [Change.mask?])
    case h_3 =>
      rw [htag]
      dsimp only
      rw [hk]
      rfl

end

/-- Settles O18. -/
theorem stagingCompletes : Obligations.StagingCompletes := by
  intro s x i target park discard fromSafe m
  refine ⟨fun h hx => ?_, fun h hx => ?_, fun h hx => ⟨fun hw hr => ?_, fun hn => ?_⟩, fun h hx => ?_, ?_⟩
  · exact congrArg Host.Outcome.next (stagingAnswer_other h hx)
  · exact congrArg Host.Outcome.next (stagingAnswer_mode h hx)
  · exact (settleRefusal_eq h hx).trans (if_pos ⟨hw, hr⟩)
  · exact (settleRefusal_eq h hx).trans (if_neg fun ⟨hw, hr⟩ => hn.elim (· hw) hr)
  · exact congrArg Host.Outcome.next (stagingTimeout_mode h hx)
  · rintro u rfl h
    refine ⟨fun tag k _ htag hk => ?_, fun g hx hr => ?_, fun g hx hr => ?_, fun k hx => ?_⟩
    · exact congrArg Host.Outcome.next (stagingTimeout_mask h htag hk)
    · exact congrArg Host.Outcome.next ((stagingTimeout_castle h hx).trans (if_neg (ne_true_of_eq_false hr)))
    · exact congrArg Host.Outcome.next ((stagingTimeout_castle h hx).trans (if_pos hr))
    · exact congrArg Host.Outcome.next (stagingTimeout_lane h hx)

/-! ### The ends of NVM operations (R162, R216, R259) -/

section
variable {s : State}

theorem cfgSaveEnds_ok {x : SavedCfg} (h : s.isl.nvmOp = .cfgSave x) : cfgSaveEnds true s = replyOp
    { s with isl := { s.isl with nvmOp := .none }, nvm := { s.nvm with config := some x } } 0x05 stOk (wordBytes x.crc) := by
  unfold cfgSaveEnds
  rw [h]
  exact if_pos rfl

theorem cfgSaveEnds_fails {x : SavedCfg} (h : s.isl.nvmOp = .cfgSave x) : cfgSaveEnds false s = replyOp
    (nvmFail { s with isl := { s.isl with nvmOp := .none } } 1) 0x05 stNvmError [] := by
  unfold cfgSaveEnds
  rw [h]
  exact if_neg (by decide)

theorem bookCommitEnd_ok {k : Fin 32} {x : Recipe} (h : s.isl.nvmOp = .book k x) : bookCommitEnd true s = replyOp
    { s with isl := { s.isl with nvmOp := .none }
             nvm := { s.nvm with book := s.nvm.book.set k.val x k.isLt
                                 version := s.nvm.version.set k.val (hdrVersion x.header) k.isLt } }
    0x43 stOk (toLE 2 (hdrVersion x.header) ++ [0, 0] ++ slice x.header 28 4) := by
  unfold bookCommitEnd
  rw [h]
  exact if_pos rfl

theorem bookCommitEnd_fails {k : Fin 32} {x : Recipe} (h : s.isl.nvmOp = .book k x) : bookCommitEnd false s = replyOp
    (nvmFail { s with isl := { s.isl with nvmOp := .none } } 0) 0x43 stNvmError [] := by
  unfold bookCommitEnd
  rw [h]
  exact if_neg (by decide)

theorem safeCommitEnd_fails {x : SafeCfg} {tag : ReqId} (h : s.isl.nvmOp = .safe x) (ht : s.safe.commitTag = some tag) :
    safeCommitEnd false s = reply
      (nvmFail { s with isl := { s.isl with nvmOp := .none }, safe := { s.safe with commitTag := none } } 2)
      tag 0x83 stNvmError [] := by
  unfold safeCommitEnd
  rw [h]
  dsimp only
  rw [if_neg (by decide), ht]

/-- What the change-log entries of a commit leave of NVM, of the safety island, of the memory island and of the phase. -/
structure Logged (s t : State) : Prop where
  commits : t.nvm.commits = s.nvm.commits
  safe : t.safe = s.safe
  isl : t.isl = s.isl
  phase : t.sys.phase = s.sys.phase

theorem logChange_logged (s : State) (slot kind par : Nat) (o n : Word) (k : Nat) :
    Logged s (logChange s slot kind par o n k) := by
  refine ⟨?_, logChange_safe .., ?_, ?_⟩
  · have h : (timePasses s).nvm = s.nvm :=
      (timePasses_same (pm := 1) rfl (.refl 1 s)).nvm.resolve_left (by decide)
    simp only [logChange, h]
  · exact (logChange_same (pm := 1025) rfl (.refl 1025 s)).isl.resolve_left (by decide)
  · exact (congrArg Sys.phase (steady_logChange (s := s) slot kind par o n k) :)

/-- The entries of a commit, one for each register that changed. -/
def logCommit (n : Nat) (l : List (Nat × Word × Word)) (s : State) : State :=
  l.foldl (fun s x => logChange s (sessionSlot s) 1 x.1 x.2.1 x.2.2 n) s

theorem logCommit_logged (n : Nat) (l : List (Nat × Word × Word)) (s : State) : Logged s (logCommit n l s) := by
  induction l generalizing s with
  | nil => exact ⟨rfl, rfl, rfl, rfl⟩
  | cons x l ih =>
    obtain ⟨hc, hs, hi, hp⟩ := logChange_logged s (sessionSlot s) 1 x.1 x.2.1 x.2.2 n
    obtain ⟨kc, ks, ki, kp⟩ := ih (logChange s (sessionSlot s) 1 x.1 x.2.1 x.2.2 n)
    exact ⟨kc.trans hc, ks.trans hs, ki.trans hi, kp.trans hp⟩

/-- The commit before its entries are written. -/
def commitOver (s : State) : State :=
  { s with isl := { s.isl with nvmOp := .none }, safe := { s.safe with commitTag := none } }

/-- A verified commit stands in NVM and applies at the next boundary (R259). -/
theorem safeCommitEnd_ok {x : SafeCfg} {tag : ReqId} (h : s.isl.nvmOp = .safe x) (ht : s.safe.commitTag = some tag)
    (hphase : s.sys.phase = .running) : (safeCommitEnd true s).nvm.safe = some x ∧
      (safeCommitEnd true s).nvm.commits = s.nvm.commits + 1 ∧ (safeCommitEnd true s).safe.applyAt = true ∧
      (safeCommitEnd true s).safe.act = s.safe.act ∧ (safeCommitEnd true s).isl.nvmOp = .none := by
  have hu := logCommit_logged s.nvm.commits (changedRegs s.safe.act x) (commitOver s)
  have heq : safeCommitEnd true s =
      let u := logCommit s.nvm.commits (changedRegs s.safe.act x) (commitOver s)
      let v := queueEvent { u with nvm := { u.nvm with safe := some x, commits := s.nvm.commits + 1 }
                                   safe := { u.safe with applyAt := true } } 0x060C (p4 s.nvm.commits ++ wordBytes x.crc)
      reply (if v.sys.phase = .halted then applySafeCfg v else v) tag 0x83 stOk
        (wordBytes x.crc ++ toLE 4 s.nvm.logSeq ++ toLE 2 (changedRegs s.safe.act x).length) := by
    unfold safeCommitEnd
    rw [h]
    dsimp only
    rw [if_pos rfl, ht]
    rfl
  rw [heq]
  generalize logCommit s.nvm.commits (changedRegs s.safe.act x) (commitOver s) = u at hu
  obtain ⟨-, hsafe, hisl, hup⟩ := hu
  have hnh : ¬ u.sys.phase = .halted := by
    rw [hup]
    change ¬ s.sys.phase = .halted
    rw [hphase]
    decide
  dsimp only
  rw [queueEvent_sys, if_neg hnh, reply_nvm, reply_safe, reply_isl, queueEvent_nvm, queueEvent_safe, queueEvent_isl]
  exact ⟨rfl, rfl, rfl, (congrArg Safety.act hsafe :), (congrArg MemIsl.nvmOp hisl :)⟩

end

/-- Settles O19. -/
theorem nvmOperationsEnd : Obligations.NvmOperationsEnd := by
  intro s
  refine ⟨fun x h => ⟨?_, ?_⟩, fun k x h => ⟨?_, ?_⟩, fun x tag h ht => ⟨?_, fun hphase => ⟨_, rfl, safeCommitEnd_ok h ht hphase⟩⟩⟩
  · exact congrArg Host.Outcome.next (cfgSaveEnds_ok h)
  · exact congrArg Host.Outcome.next (cfgSaveEnds_fails h)
  · exact congrArg Host.Outcome.next (bookCommitEnd_ok h)
  · exact congrArg Host.Outcome.next (bookCommitEnd_fails h)
  · exact congrArg Host.Outcome.next (safeCommitEnd_fails h ht)

/-! ### The recipe book (R160, R161, R324, R325) -/

section
variable {s : State}

theorem bookHdrBody_stores {h : List Byte} (hb : bookBusy s = false) :
    bookHdrBody h s = ({ s with isl := { s.isl with stageHdr := h } }, .status stOk) := if_neg (ne_true_of_eq_false hb)

theorem bookStepsBody_stores {f n : Byte} {r : List Byte} (hmin : 1 ≤ n.toNat) (hend : f.toNat + n.toNat ≤ 128)
    (hb : bookBusy s = false) : bookStepsBody f n r s = ({ s with isl := { s.isl with
      stageSteps := vmapI s.isl.stageSteps fun i x =>
        if f.toNat ≤ i.val ∧ i.val < f.toNat + n.toNat then (records64 n.toNat r).getD (i.val - f.toNat) [] else x } },
      .status stOk) :=
  (if_neg (not_or.mpr ⟨by omega, Nat.not_lt.mpr hend⟩)).trans (if_neg (ne_true_of_eq_false hb))

theorem bookCommitBody_starts {b : Byte} {r : Request} (h : b.toNat < 32) (hb : nvmBusy s = false)
    (hf : recipeFault (stagedRecipe s) = none) : bookCommitBody b r s = ({ s with isl := { s.isl with
      nvmOp := .book ⟨b.toNat, h⟩ { stagedRecipe s with
        header := sealHeader (stagedRecipe s).header ((s.nvm.version[b.toNat] + 1) % 2 ^ 16) (stagedRecipe s).steps }
      opTag := some r.tag } }, .later) := by
  unfold bookCommitBody
  rw [show bookSlot? b = some ⟨b.toNat, h⟩ from dif_pos h]
  dsimp only
  rw [if_neg (ne_true_of_eq_false hb), hf]
  exact rfl

theorem bookCommitBody_refuses {b : Byte} {r : Request} {f : Nat × Nat} (h : b.toNat < 32) (hb : nvmBusy s = false)
    (hf : recipeFault (stagedRecipe s) = some f) :
    bookCommitBody b r s = (s, .now stBadParam (p1 f.1 ++ p1 f.2)) := by
  unfold bookCommitBody
  rw [show bookSlot? b = some ⟨b.toNat, h⟩ from dif_pos h]
  dsimp only
  rw [if_neg (ne_true_of_eq_false hb), hf]

end

/-- Settles O20. -/
theorem bookCommandsComplete : Obligations.BookCommandsComplete := by
  intro s
  refine ⟨fun l hl hb h => ?_, fun f n r hmin hmax hr hend hb h => ?_, fun b hb x hx hbusy hf h => ?_,
    fun b f hb hbusy hf h => ?_⟩
  · have hlen : lengthIn 32 32 l = true := lengthIn_eq_true (Nat.le_of_eq hl.symm) (Nat.le_of_eq hl)
    have hev := hostCommand_now_port h (body := fun _ s => bookHdrBody l s)
      (fun t => { t with isl := { t.isl with stageHdr := l } }) fun p => bookHdrBody_stores (s := { s with port := p }) hb
    rw [show (taken (.bookHdr l) s).isl = s.isl from takeRequest_isl ..] at hev
    refine congrArg Host.Outcome.next ?_
    rw [hlen]
    exact hev
  · have hlen : (Instr.bookSteps f n r).wellFormed = true := by
      simp [Instr.wellFormed, hmin, hmax, hr]
    have hev := hostCommand_now_port h (body := fun _ s => bookStepsBody f n r s)
      (fun t => { t with isl := { t.isl with stageSteps := vmapI t.isl.stageSteps fun i x =>
        if f.toNat ≤ i.val ∧ i.val < f.toNat + n.toNat then (records64 n.toNat r).getD (i.val - f.toNat) [] else x } })
      fun p => bookStepsBody_stores (s := { s with port := p }) hmin hend hb
    rw [show (taken (.bookSteps f n r) s).isl = s.isl from takeRequest_isl ..] at hev
    refine congrArg Host.Outcome.next ?_
    rw [hlen]
    exact hev
  · subst hx
    have hev := hostCommand_later_port h (body := bookCommitBody b)
      (fun t => { t with isl := { t.isl with
        nvmOp := .book ⟨b.toNat, hb⟩ { stagedRecipe s with
          header := sealHeader (stagedRecipe s).header ((s.nvm.version[b.toNat] + 1) % 2 ^ 16) (stagedRecipe s).steps }
        opTag := some (req (.bookCommit b) s).tag } })
      fun p => bookCommitBody_starts (s := { s with port := p }) hb hbusy hf
    rw [show (taken (.bookCommit b) s).isl = s.isl from takeRequest_isl ..] at hev
    exact congrArg Host.Outcome.next hev
  · exact congrArg Host.Outcome.next
      (hostCommand_reads h fun p => bookCommitBody_refuses (s := { s with port := p }) hb hbusy hf)

end Sys2Proof.Safety

/-! Register access, captures, and the rows of one register (O21, O24, O25). -/
namespace Sys2Proof.Safety
open Sys2Proof.Machine

/-! ### Reads (R318, R319) -/

section
variable {s : State} {a : Word} {p : Place}

theorem readReg_of_place (h : placeOf a = some p) : readReg s a = some (readPlace s p) := by
  rw [readReg, h]
  exact rfl

/-- A read of a register that is there, on a port that reaches it. -/
theorem readBody_reads (hlow : s.sys.phase = .dormant → a.toNat < 0x100) (h : placeOf a = some p) :
    readBody a s = ((readPlace (timePasses s) p).2, .now stOk (wordBytes (readPlace (timePasses s) p).1)) := by
  have hrate : ¬ (lowRate s && !lowRateAddr a) = true := by
    unfold lowRate lowRateAddr
    by_cases hd : s.sys.phase = .dormant
    · simp [hlow hd]
    · simp [hd]
  unfold readBody
  rw [if_neg hrate]
  dsimp only
  rw [readReg_of_place h]

theorem blockBody_reads {n : BitVec 16} {r : List Byte × State} (hmin : 1 ≤ n.toNat) (hmax : n.toNat ≤ 1024)
    (h : readBlock (timePasses s) a n.toNat = some r) : blockBody a n s = (r.2, .now stOk r.1) := by
  unfold blockBody
  dsimp only
  rw [if_neg (not_or.mpr ⟨by omega, by omega⟩), h]

end

/-- Settles O21. -/
theorem registerAccessCompletes : Obligations.RegisterAccessCompletes := by
  intro s
  refine ⟨fun a p hlow hp h => ?_, fun a p hlow hp h => ?_, fun a v h => ?_, fun a n r hmin hmax hr h => ?_,
    fun ps hmin hmax h => ?_⟩
  · exact congrArg Host.Outcome.next (hostCommand_replies h (readBody_reads (by rw [taken_sys]; exact hlow) hp))
  · exact congrArg Host.Outcome.next (hostCommand_replies h (readBody_reads (by rw [taken_sys]; exact hlow) hp))
  · exact congrArg Host.Outcome.next (hostCommand_replies h rfl)
  · exact congrArg Host.Outcome.next (hostCommand_replies h (blockBody_reads hmin hmax hr))
  · exact exec_regWriteMulti_replies hmin hmax h rfl

/-! ### Captures (R18, R32, R153) -/

section
variable {s : State} {a : Word} {o : Nat}

theorem placeOf_meas (ha : a.toNat = 0x30000 + o) (ho : o < 0x10000) (h4 : o % 4 = 0) : placeOf a = some (.meas o) := by
  obtain ⟨halign, hsram, hoff, hblock⟩ := block_of (a := a) (b := 3) (o := o) (by omega) ho h4 (by decide)
  simp only [placeOf, halign, hsram, hoff, hblock, ne_eq, not_true_eq_false, Bool.false_eq_true, if_false]

/-- The place of a register of one channel in the MEAS block. -/
theorem placeOf_measCh (c : Fin 16) {k : Nat} (hk : k < 0x40) (h4 : k % 4 = 0) :
    placeOf (BitVec.ofNat 32 (0x30100 + k + 0x40 * c.val)) = some (.meas (0x100 + k + 0x40 * c.val)) := by
  refine placeOf_meas ?_ (by omega) (by omega)
  rw [BitVec.toNat_ofNat]
  omega

/-- What a read of an offset of one channel in the MEAS block captures. -/
def measCaptured (k : Nat) (ch : Chan) : Chan :=
  match k with
  | 0x10 => { ch with capI := ch.userI, capSeq := ch.userSeq - 1 }
  | 0x1C => { ch with capQ := ch.qC, capE := ch.eC }
  | _ => ch

theorem captureMeas_channel (c : Fin 16) {k : Nat} (hk : k < 0x40) :
    captureMeas s (0x100 + k + 0x40 * c.val) = s.updCh c (measCaptured k) := by
  have hin : 0x100 ≤ 0x100 + k + 0x40 * c.val ∧ 0x100 + k + 0x40 * c.val < 0x500 := by omega
  have hidx : (0x100 + k + 0x40 * c.val - 0x100) / 0x40 % 16 = c.val := by omega
  have hoff : (0x100 + k + 0x40 * c.val - 0x100) % 0x40 = k := by omega
  unfold captureMeas
  rw [if_pos hin]
  simp only [hidx, hoff]
  rfl

end

/-- Settles O24. -/
theorem capturesHold : Obligations.CapturesHold := by
  intro s
  refine ⟨readReg_of_place (p := .sys 0x104) rfl, readReg_of_place (p := .sys 0x110) rfl,
    readReg_of_place (p := .sys 0x164) rfl, fun c => ?_, fun c => ?_⟩
  · have hplace := placeOf_measCh c (k := 0x1C) (by decide) (by decide)
    exact ⟨_, _, readReg_of_place hplace, captureMeas_channel c (k := 0x1C) (by decide)⟩
  · have hplace := placeOf_measCh c (k := 0x10) (by decide) (by decide)
    exact ⟨_, _, readReg_of_place hplace, captureMeas_channel c (k := 0x10) (by decide)⟩

/-! ### Fields of a written word -/

/-- A field of a word at bit `lo`, from the word under the mask of the field. -/
theorem bits_of_field {w : Word} {len : Nat} {x : BitVec len} {lo : Nat} (h : ∀ k, k < len → w.getLsbD (lo + k) = x.getLsbD k) :
    bits w lo len = x.toNat := by
  have hx : w.extractLsb' lo len = x := by
    apply BitVec.eq_of_getLsbD_eq
    intro k hk
    rw [BitVec.getLsbD_extractLsb', decide_eq_true hk, Bool.true_and, h k hk]
  rw [← hx, BitVec.extractLsb'_toNat, Nat.shiftRight_eq_div_pow]
  rfl

/-- A bit of a word under a mask that has it. -/
theorem getLsbD_of_masked {w m v : Word} (h : w &&& m = v) {k : Nat} (hk : m.getLsbD k = true) :
    w.getLsbD k = v.getLsbD k := by
  rw [← h, BitVec.getLsbD_and, hk, Bool.and_true]

/-- GANG of a word that has it in its field. -/
theorem bits_gang {w : Word} {n : BitVec 3} (h : w &&& 0x70 = n.zeroExtend 32 <<< 4) : bits w 4 3 = n.toNat := by
  refine bits_of_field fun k hk => ?_
  have hmask : (0x70 : Word).getLsbD (4 + k) = true := by
    revert k
    decide
  have hfield : ∀ n : BitVec 3, ∀ k < 3, (n.zeroExtend 32 <<< 4 : Word).getLsbD (4 + k) = n.getLsbD k := by decide
  rw [getLsbD_of_masked h hmask, hfield n k hk]

/-- The low field of a word that has a value there. -/
theorem truncate_of_masked {w : Word} {n : Nat} {x : BitVec n} (hn : n ≤ 32) (h : w &&& BitVec.ofNat 32 (2 ^ n - 1) = x.zeroExtend 32) :
    w.truncate n = x := by
  apply BitVec.eq_of_getLsbD_eq
  intro k hk
  have hmask : (BitVec.ofNat 32 (2 ^ n - 1)).getLsbD k = true := by
    rw [BitVec.getLsbD_ofNat, Nat.testBit_two_pow_sub_one, decide_eq_true hk, decide_eq_true (by omega : k < 32)]
    rfl
  rw [BitVec.truncate, BitVec.getLsbD_setWidth, decide_eq_true hk, Bool.true_and, getLsbD_of_masked h hmask]
  rw [BitVec.zeroExtend, BitVec.getLsbD_setWidth, decide_eq_true (by omega : k < 32), Bool.true_and]

/-! ### The writes of the rows (R63, R75, R105, R110 to R112, R121, R123, R176, R402) -/

section
variable {s : State} {c : Fin 16} {g : Fin 4} {v : Word}

/-- A write to an offset of a CH block. -/
theorem writeReg_ch (s : State) (c : Fin 16) {o : Nat} (v : Word) (ho : o < 0x400) (h4 : o % 4 = 0) :
    writeReg s (chBase c + BitVec.ofNat 32 o) v = writeCh s c o v := writeReg_of_place (placeOf_chReg c ho h4)

theorem groupOf_first (h : c.val = 4 * g.val) : groupOf c = g := by
  refine Fin.ext ?_
  change c.val / 4 = g.val
  omega

theorem isOff_of_groupOff (h : groupOff s g = true) (hc : groupOf c = g) : isOff s c = true := by
  refine List.all_eq_true.mp h c (List.mem_filter.mpr ⟨mem_channels c, ?_⟩)
  rw [hc]
  exact beq_self_eq_true g

/-- A new GANG value is staged. -/
theorem writeCfg_gang (hc : c.val = 4 * g.val) (hg : groupOff s g = true) {n : BitVec 3} (hb : bits v 4 3 = n.toNat)
    (hmode : s.sys.mode = .configure ∨ s.sys.mode = .idle) (hn : n.toNat ≤ 4) (hne : n ≠ gangAhead s g) :
    writeCfg s c v = (stage (s.updCh c fun ch => { ch with cfg := v &&& 0x7 }) (.gang g n) 0x11 none
      (channelIslands s (chansOf g)), stOk) := by
  have hgroup := groupOf_first hc
  have hchange : gangChanges s c v = true := by
    unfold gangChanges
    rw [hgroup, hb, Bool.and_eq_true, beq_iff_eq, bne_iff_ne]
    exact ⟨by omega, fun h => hne (BitVec.eq_of_toNat_eq h)⟩
  have hidle : inIdle s = true := by
    unfold inIdle
    rcases hmode with h | h <;> rw [h] <;> rfl
  have hoff := isOff_of_groupOff hg hgroup
  have hval : BitVec.ofNat 3 n.toNat = n := by rw [BitVec.ofNat_toNat, BitVec.setWidth_eq]
  unfold writeCfg checked
  rw [hchange, hgroup, hidle, hoff, hg, hb, decide_eq_true hn]
  exact congrArg (fun x => (stage (s.updCh c fun ch => { ch with cfg := v &&& 0x7 }) (.gang g x) 0x11 none
    (channelIslands (s.updCh c fun ch => { ch with cfg := v &&& 0x7 }) (chansOf g)), stOk)) hval

/-- GANG written as it is: the other fields only. -/
theorem writeCfg_same (hc : c.val = 4 * g.val) (hg : groupOff s g = true) (hb : bits v 4 3 = (gangAhead s g).toNat) :
    writeCfg s c v = (s.updCh c fun ch => { ch with cfg := v &&& 0x7 }, stOk) := by
  have hgroup := groupOf_first hc
  have hchange : gangChanges s c v = false := by
    unfold gangChanges
    rw [hgroup, hb]
    simp
  unfold writeCfg checked
  rw [hchange, isOff_of_groupOff hg hgroup]
  rfl

/-- A binding that is acceptable, on a channel in OFF (R176). -/
theorem writeProg_binds (hf : isFollower s c = false) (hoff : (s.ch[c]).st = .off) (hb : bindingOk s v = true) {t : State}
    (ht : t = s.updCh c fun ch => { ch with
      progReg := v &&& 0x7F011F, prog := { ch.prog with pstate := if v.getLsbD 8 then .ready else .unbound } }) :
    writeProg s c v = (if s.sys.mode == .form && (s.ch[c]).bound != v.getLsbD 8 then
      stage t (.source c) 0x11 none (channelIslands t [c]) else t, stOk) := by
  subst ht
  have hoff' : isOff s c = true := by
    unfold isOff
    rw [hoff]
    rfl
  unfold writeProg
  rw [if_neg (ne_true_of_eq_false hf), if_neg (ne_false_of_eq_true hoff'), if_neg (ne_false_of_eq_true hb)]

/-- CASTLE_PERIOD in its range (R121). -/
theorem writeCastle_sets {p : BitVec 16} (hp : v.truncate 16 = p) (hb : bits v 0 16 = p.toNat) (hmin : 60 ≤ p.toNat) :
    writeCastle s v = ({ s with sys := { s.sys with
      castlePen := v.getLsbD 16, castlePeriod := p, castleNs := 0 } }, stOk) := by
  subst hp
  refine if_pos (decide_eq_true ?_)
  rw [hb]
  exact ⟨hmin, Nat.le_of_lt_succ (v.truncate 16).isLt⟩

theorem unretire_clears (hmode : s.sys.mode = .service) (hany : bits v 0 5 ≠ 0 ∨ bits v 8 4 ≠ 0 ∨ v.getLsbD 21 = true)
    (hpos : v.getLsbD 21 = true ∨ bits v 16 5 = 0) : unretire s v = ({ s with nvm := { s.nvm with
        ceRetired := s.nvm.ceRetired &&& ~~~(BitVec.ofNat 5 (bits v 0 5))
        laneRetired := s.nvm.laneRetired &&& ~~~(BitVec.ofNat 4 (bits v 8 4))
        convRetired := if v.getLsbD 21 then putBit s.nvm.convRetired (bits v 16 5) false else s.nvm.convRetired } }, stOk) := by
  have hrange : ((bits v 0 5 != 0 || bits v 8 4 != 0 || v.getLsbD 21) && (v.getLsbD 21 || bits v 16 5 == 0)) = true := by
    rw [Bool.and_eq_true, Bool.or_eq_true, Bool.or_eq_true, Bool.or_eq_true, bne_iff_ne, bne_iff_ne, beq_iff_eq]
    exact ⟨or_assoc.mpr hany, hpos⟩
  unfold unretire checked
  dsimp only
  rw [hrange, hmode]
  rfl

theorem writeEpcfg_sets {f : BitVec 2} (hmode : s.sys.mode = .configure) (hf : v.truncate 2 = f) :
    writeEpcfg s v = ({ s with sys := { s.sys with fout := f } }, stOk) := by
  subst hf
  unfold writeEpcfg checked inConfigure
  rw [hmode]
  rfl

/-- A read of CHn_COEF (R112). -/
theorem coefRead (s : State) (c : Fin 16) (i : Instr) : readPlace (timePasses (taken i s)) (.ch c 0x13C) =
    (coefAt s.ch[c], (timePasses (taken i s)).updCh c fun ch => { ch with lsel := advanceSel ch.lsel }) := by
  obtain ⟨p, hp⟩ := taken_port_only i s
  obtain ⟨tb, fr, d, ht⟩ := timePasses_only (taken i s)
  have hch : (timePasses (taken i s)).ch = s.ch := by rw [ht, hp]
  exact congrArg (fun l : Vector Chan 16 =>
    (coefAt l[c], (timePasses (taken i s)).updCh c fun ch => { ch with lsel := advanceSel ch.lsel })) hch

end

/-- A row of one register write completes as its write. -/
theorem exec_row_replies {i : Instr} {s u : State} {f : FieldWrite} {st : Byte} (hf : fieldWriteOf i = some f) (h : Served i s)
    (hw : writeReg (taken i s) f.addr (written i f s) = (u, st)) : exec i s = .next (replied i s u st []) := by
  rw [exec_field_replies hf h, hw]

/-! ### The rows, each complete -/

section
variable (s : State)

theorem foutWrite_completes (f : BitVec 2) (hmode : s.sys.mode = .configure) (h : Served (.foutWrite f) s) :
    exec (.foutWrite f) s = .next (replied (.foutWrite f) s
      { taken (.foutWrite f) s with sys := { s.sys with fout := f } } stOk []) := by
  have hf : fieldWriteOf (.foutWrite f) = some { addr := 0x100, mask := 0x3, value := f.zeroExtend 32 } := rfl
  obtain ⟨p, hp⟩ := taken_port_only (.foutWrite f) s
  refine exec_row_replies hf h ?_
  rw [hp]
  exact (writeReg_of_place (a := 0x100) (p := .sys 0x100) rfl).trans
    (writeEpcfg_sets hmode (truncate_of_masked (n := 2) (by decide) (written_field hf s)))

theorem gangWrite_writes (g : Fin 4) (n : BitVec 3) {f : FieldWrite} {c : Fin 16} (hf : fieldWriteOf (.gangWrite g n) = some f)
    (hc : c.val = 4 * g.val) (u : State) (w : Word) : writeReg u f.addr w = writeCfg u c w := by
  cases hf
  have h0 := writeReg_ch u c (o := 0) w (by decide) rfl
  rw [BitVec.add_zero] at h0
  exact (congrArg (fun d => writeReg u (chBase d) w) (Fin.ext hc.symm)).trans h0

theorem gangWrite_field (g : Fin 4) (n : BitVec 3) {f : FieldWrite} (hf : fieldWriteOf (.gangWrite g n) = some f) :
    bits (written (.gangWrite g n) f s) 4 3 = n.toNat := by
  cases hf
  exact bits_gang (written_field rfl s)

theorem progBindWrite_writes (c : Fin 16) (v : Word) (hf : isFollower s c = false) (hoff : (s.ch[c]).st = .off)
    (hb : bindingOk s v = true) (h : Served (.progBindWrite c v) s) {t : State}
    (ht : t = (taken (.progBindWrite c v) s).updCh c fun ch => { ch with
      progReg := v &&& 0x7F011F, prog := { ch.prog with pstate := if v.getLsbD 8 then .ready else .unbound } }) :
    exec (.progBindWrite c v) s = .next (replied (.progBindWrite c v) s
      (if s.sys.mode == .form && (s.ch[c]).bound != v.getLsbD 8 then
        stage t (.source c) 0x11 none (channelIslands t [c]) else t) stOk []) := by
  obtain ⟨p, hp⟩ := taken_port_only (.progBindWrite c v) s
  have hrow : fieldWriteOf (.progBindWrite c v) = some (.whole (chBase c + BitVec.ofNat 32 0x180) v) := rfl
  have hw := (writeReg_ch (taken (.progBindWrite c v) s) c (o := 0x180) v (by decide) rfl).trans
    (writeProg_binds (s := taken (.progBindWrite c v) s) (by rw [hp]; exact hf) (by rw [hp]; exact hoff)
      (by rw [hp]; exact hb) ht)
  have hsys : (taken (.progBindWrite c v) s).sys.mode = s.sys.mode := by rw [taken_sys]
  have hbound : ((taken (.progBindWrite c v) s).ch[c]).bound = (s.ch[c]).bound := by rw [hp]
  rw [hsys, hbound] at hw
  exact exec_whole_replies hrow h hw

theorem coefAccess_writes (c : Fin 16) (v : Word) (h : Served (.coefAccess c (some v)) s) :
    exec (.coefAccess c (some v)) s = .next (replied (.coefAccess c (some v)) s
      (writeCoef (taken (.coefAccess c (some v)) s) c v).1 stOk []) := by
  have hrow : fieldWriteOf (.coefAccess c (some v)) = some (.whole (chBase c + BitVec.ofNat 32 0x13C) v) := rfl
  exact exec_whole_replies hrow h (writeReg_ch _ c (o := 0x13C) v (by decide) rfl)

theorem coefAccess_reads (c : Fin 16) (hphase : s.sys.phase ≠ .dormant) (h : Served (.coefAccess c none) s) :
    exec (.coefAccess c none) s = .next (replied (.coefAccess c none) s
      ((timePasses (taken (.coefAccess c none) s)).updCh c fun ch => { ch with lsel := advanceSel ch.lsel }) stOk
      (wordBytes (coefAt s.ch[c]))) := by
  have hplace : placeOf (chBase c + BitVec.ofNat 32 0x13C) = some (.ch c 0x13C) := placeOf_chReg c (by decide) rfl
  have hbody := readBody_reads (s := taken (.coefAccess c none) s)
    (fun hd => absurd (taken_sys (.coefAccess c none) s ▸ hd) hphase) hplace
  rw [coefRead] at hbody
  exact congrArg Host.Outcome.next (hostCommand_replies h hbody)

theorem freezeWrite_writes (c : Fin 16) (z : BitVec 4) {f : FieldWrite} (hf : fieldWriteOf (.freezeWrite c z) = some f)
    (h : Served (.freezeWrite c z) s) : (written (.freezeWrite c z) f s).truncate 4 = z ∧
      exec (.freezeWrite c z) s = .next (replied (.freezeWrite c z) s ((taken (.freezeWrite c z) s).updCh c fun ch =>
        { ch with ctl := written (.freezeWrite c z) f s &&& 0x70F }) stOk []) := by
  refine ⟨?_, exec_row_replies hf h ?_⟩
  · cases hf
    exact truncate_of_masked (n := 4) (by decide) (written_field rfl s)
  · cases hf
    exact writeReg_ch _ c (o := 0x100) _ (by decide) rfl

theorem writeMeas_clear (u : State) (c : Fin 16) :
    writeMeas u (0x100 + 0x2C + 0x40 * c.val) 1 = (u.updCh c fun ch => { ch with aclr := true }, stOk) := by
  have hin : 0x100 ≤ 0x100 + 0x2C + 0x40 * c.val ∧ 0x100 + 0x2C + 0x40 * c.val < 0x500 := by omega
  have hidx : (0x100 + 0x2C + 0x40 * c.val - 0x100) / 0x40 % 16 = c.val := by omega
  have hoff : (0x100 + 0x2C + 0x40 * c.val - 0x100) % 0x40 = 0x2C := by omega
  refine (if_pos hin).trans ?_
  simp only [hidx, hoff]
  rfl

theorem accClearWrite_clears (c : Fin 16) (h : Served (.accClearWrite c) s) :
    exec (.accClearWrite c) s = .next (replied (.accClearWrite c) s
      ((taken (.accClearWrite c) s).updCh c fun ch => { ch with aclr := true }) stOk []) := by
  have haddr : 0x3012C + 0x40 * c.val = 0x30100 + 0x2C + 0x40 * c.val := by omega
  have hrow : fieldWriteOf (.accClearWrite c) = some (.whole (BitVec.ofNat 32 (0x30100 + 0x2C + 0x40 * c.val)) 1) := by
    rw [← haddr]
    exact rfl
  have hplace := placeOf_measCh c (k := 0x2C) (by decide) (by decide)
  exact exec_whole_replies hrow h ((writeReg_of_place hplace).trans (writeMeas_clear _ c))

/-- The write of CHn_LOGACK. The offset is a variable: the kernel does not get through its literal among the others. -/
theorem writeCh_logack (u : State) (c : Fin 16) (v : Word) {o : Nat} (h : o = 0x1A4) : writeCh u c o v = setLogAck u c v := by
  unfold writeCh
  rw [if_neg (by omega), if_neg (by omega)]
  unfold writeChProgram
  split
  case h_3 => rfl
  case h_12 hne _ _ _ _ _ _ _ _ => exact (hne h).elim
  all_goals omega

theorem logackWrite_moves (c : Fin 16) (v : Word) (hv : ((s.ch[c]).logSeq + 2 ^ 32 - v.toNat) % 2 ^ 32 ≤ ringSize)
    (h : Served (.logackWrite c v) s) : exec (.logackWrite c v) s = .next (replied (.logackWrite c v) s
      ((taken (.logackWrite c v) s).updCh c fun ch => { ch with
        logAck := v.toNat
        nearFull := ch.nearFull && decide (4096 ≤ (ch.logSeq + 2 ^ 32 - v.toNat) % 2 ^ 32) }) stOk []) := by
  have hrow : fieldWriteOf (.logackWrite c v) = some (.whole (chBase c + BitVec.ofNat 32 0x1A4) v) := rfl
  have hch : (taken (.logackWrite c v) s).ch = s.ch := takeRequest_ch ..
  refine exec_whole_replies hrow h ?_
  rw [writeReg_ch _ c (o := 0x1A4) v (by decide) rfl, writeCh_logack _ c v rfl]
  refine setLogAck_moves ?_
  rw [hch]
  exact hv

theorem bkclrWrite_clears (h : Served .bkclrWrite s) : exec .bkclrWrite s = .next (replied .bkclrWrite s
    { taken .bkclrWrite s with link := { s.link with bkclr := true } } stOk []) := by
  obtain ⟨p, hp⟩ := taken_port_only .bkclrWrite s
  rw [hp]
  refine exec_whole_replies (a := 0x50024) (v := 1) rfl h ?_
  rw [hp]
  exact writeReg_of_place (p := .link 0x24) rfl

theorem castlePeriodWrite_sets (p : BitVec 16) {f : FieldWrite} (hf : fieldWriteOf (.castlePeriodWrite p) = some f)
    (hmin : 60 ≤ p.toNat) (h : Served (.castlePeriodWrite p) s) :
    exec (.castlePeriodWrite p) s = .next (replied (.castlePeriodWrite p) s
      { taken (.castlePeriodWrite p) s with sys := { s.sys with
        castlePen := (written (.castlePeriodWrite p) f s).getLsbD 16, castlePeriod := p, castleNs := 0 } } stOk []) := by
  obtain ⟨q, hq⟩ := taken_port_only (.castlePeriodWrite p) s
  have htrunc : (written (.castlePeriodWrite p) f s).truncate 16 = p := by
    cases hf
    exact truncate_of_masked (n := 16) (by decide) (written_field rfl s)
  have hbits : bits (written (.castlePeriodWrite p) f s) 0 16 = p.toNat := by
    refine Eq.trans ?_ (congrArg BitVec.toNat htrunc)
    rw [bits, Nat.pow_zero, Nat.div_one, BitVec.truncate, BitVec.toNat_setWidth]
  refine exec_row_replies hf h ?_
  have haddr : f.addr = 0x140 := by
    cases hf
    rfl
  rw [haddr, hq]
  exact (writeReg_of_place (a := 0x140) (p := .sys 0x140) rfl).trans
    (writeCastle_sets (s := { s with port := q }) htrunc hbits hmin)

theorem quadWrite_sets (q : Bool) {f : FieldWrite} (hf : fieldWriteOf (.quadWrite q) = some f) (h : Served (.quadWrite q) s) :
    (written (.quadWrite q) f s).getLsbD 0 = q ∧ exec (.quadWrite q) s = .next (replied (.quadWrite q) s
      { taken (.quadWrite q) s with port := { (taken (.quadWrite q) s).port with
        hcfg := written (.quadWrite q) f s &&& 0x3 } } stOk []) := by
  refine ⟨?_, exec_row_replies hf h ?_⟩
  · cases hf
    have hbit : ∀ q : Bool, (if q then 1 else 0 : Word).getLsbD 0 = q := by decide
    have hmask : (1 : Word).getLsbD 0 = true := by decide
    exact (getLsbD_of_masked (written_field (i := .quadWrite q) rfl s) (k := 0) hmask).trans (hbit q)
  · have haddr : f.addr = 0x150 := by
      cases hf
      rfl
    rw [haddr]
    exact writeReg_of_place (a := 0x150) (p := .sys 0x150) rfl

theorem testUnretireWrite_clears (v : Word) (hmode : s.sys.mode = .service)
    (hany : bits v 0 5 ≠ 0 ∨ bits v 8 4 ≠ 0 ∨ v.getLsbD 21 = true) (hpos : v.getLsbD 21 = true ∨ bits v 16 5 = 0)
    (h : Served (.testUnretireWrite v) s) : exec (.testUnretireWrite v) s = .next (replied (.testUnretireWrite v) s
      (unretire (taken (.testUnretireWrite v) s) v).1 stOk []) := by
  have hw := unretire_clears (s := taken (.testUnretireWrite v) s) (by rw [taken_sys]; exact hmode) hany hpos
  refine exec_whole_replies (a := 0xA003C) rfl h ((writeReg_of_place (p := .test 0x3C) rfl).trans ?_)
  exact hw.trans (congrArg (·, stOk) (congrArg Prod.fst hw).symm)

theorem auxpsPkclrWrite_clears (h : Served .auxpsPkclrWrite s) :
    exec .auxpsPkclrWrite s = .next (replied .auxpsPkclrWrite s (clearPeaks (taken .auxpsPkclrWrite s)) stOk []) :=
  exec_whole_replies (a := 0xC0028) (v := 1) rfl h (writeReg_of_place (p := .aux 0x28) rfl)

end

/-- Settles O25. -/
theorem fieldWritesComplete : Obligations.FieldWritesComplete := by
  intro s
  refine ⟨foutWrite_completes s, ?gang, ?bind, coefAccess_writes s, coefAccess_reads s, ?freeze, accClearWrite_clears s,
    logackWrite_moves s, bkclrWrite_clears s, ?castle, ?quad, ?unretire, auxpsPkclrWrite_clears s⟩
  case gang =>
    rintro g n i f c t rfl hf hc h hg rfl
    obtain ⟨p, hp⟩ := taken_port_only (.gangWrite g n) s
    have hb := gangWrite_field s g n hf
    have hw := gangWrite_writes g n hf hc (taken (.gangWrite g n) s) (written (.gangWrite g n) f s)
    refine ⟨fun hmode hn hne => ?_, fun hn => ?_⟩
    · refine exec_row_replies hf h (hw.trans ?_)
      rw [hp]
      exact writeCfg_gang (s := { s with port := p }) hc hg hb hmode hn hne
    · refine exec_row_replies hf h (hw.trans ?_)
      rw [hp]
      exact writeCfg_same (s := { s with port := p }) hc hg (hb.trans (congrArg BitVec.toNat hn))
  case bind =>
    rintro c v i t rfl hf hoff hb h ht
    have hw := progBindWrite_writes s c v hf hoff hb h ht
    refine ⟨fun hn => hw.trans ?_, fun hmode hne => hw.trans ?_⟩
    · rw [if_neg]
      rw [Bool.and_eq_true, beq_iff_eq, bne_iff_ne]
      exact fun hm => hn.elim (· hm.1) hm.2
    · rw [if_pos]
      rw [Bool.and_eq_true, beq_iff_eq, bne_iff_ne]
      exact ⟨hmode, hne⟩
  case freeze =>
    rintro c z i f rfl hf h
    exact freezeWrite_writes s c z hf h
  case castle =>
    rintro p i f rfl hf hmin h
    exact castlePeriodWrite_sets s p hf hmin h
  case quad =>
    rintro q i f rfl hf h
    exact quadWrite_sets s q hf h
  case unretire =>
    intro v hmode hany hpos h
    have hw := unretire_clears (s := taken (.testUnretireWrite v) s) (by rw [taken_sys]; exact hmode) hany hpos
    have hex := testUnretireWrite_clears s v hmode hany hpos h
    rw [hw, taken_nvm] at hex
    exact hex

end Sys2Proof.Safety

/-! Reply reads, rereads and blinks (O55). -/
namespace Sys2Proof.Safety
open Sys2Proof.Machine

/-! ### Replies and rereads (R291, R293, R295, R307) -/

section
variable {s : State} {n : Nat}

theorem readReply_empty (hp : portServes s = true) (hq : s.port.replies = []) :
    readReply n s = (beginFrame s).updPort (driveBytes (clockOut (nullPacket (beginFrame s)) n)) := by
  have hq' : (beginFrame s).port.replies = [] := hq
  unfold readReply
  rw [if_neg (ne_false_of_eq_true hp)]
  dsimp only
  rw [hq']

/-- The oldest reply is clocked out; only one that has been read to its end leaves the queue. -/
theorem readReply_oldest {r : Reply} {rest : List Reply} (hp : portServes s = true) (hq : s.port.replies = r :: rest) :
    readReply n s =
      let l := replyPacket r rest.length
      let v := (beginFrame s).updPort (driveBytes (clockOut l n))
      if n < l.length then v else replyGone (v.updPort fun p => { p with
        replies := rest, lastRead := l, outstanding := if r.own then dropTag r.tag p.outstanding else p.outstanding }) := by
  have hq' : (beginFrame s).port.replies = r :: rest := hq
  unfold readReply
  rw [if_neg (ne_false_of_eq_true hp)]
  dsimp only
  rw [hq']

theorem rereadReply_served (hp : portServes s = true) : rereadReply n s = (beginFrame s).updPort
    (driveBytes (clockOut (if s.port.lastRead = [] then nullPacket (beginFrame s) else s.port.lastRead) n)) :=
  if_neg (ne_false_of_eq_true hp)

/-! ### What was due after a reply (R220, R306, R332, R401) -/

theorem replyGone_settles (h : s.sys.due ≠ .none) (hl : s.sys.dueLeft ≤ 1) : replyGone s = settleDue s := by
  rw [replyGone, if_neg h, if_pos hl]

theorem replyGone_waits (h : s.sys.due ≠ .none) (hl : 1 < s.sys.dueLeft) :
    replyGone s = { s with sys := { s.sys with dueLeft := s.sys.dueLeft - 1 } } := by
  rw [replyGone, if_neg h, if_neg (Nat.not_le.mpr hl)]

/-! ### Attention blinks (R298) -/

theorem blink_due (hp : portServes s = true) (hd : s.sys.phase ≠ .dormant) (hb : s.port.hcfg.getLsbD 1 = true)
    (hu : 0 < unreadCount s) : blink s =
      if hrdy s then s.updPort fun p => { p with blinks := p.blinks + 1 } else s.updPort fun p => { p with blinkDue := true } := by
  refine if_pos ?_
  rw [hp, lowRate, beq_eq_false_iff_ne.mpr hd, hb, decide_eq_true hu]
  rfl

theorem hrdy_eq (hp : portServes s = true) : hrdy s = s.port.waiting.isEmpty := by
  rw [hrdy, hp, Bool.true_and]

/-- A blink that fell due in the busy period is sent when the last waiting request is taken. -/
theorem takeOldest_blinks {r : Request} (hw : s.port.waiting = [r]) (hb : s.port.blinkDue = true) :
    (takeOldest s).port.blinks = s.port.blinks + 1 := by
  unfold takeOldest
  dsimp only
  rw [hw, hb]
  rfl

end

/-! ### A request without a place for its reply (R296, R300) -/

section
variable {s : State} {b : List Byte}

theorem checkAdmission_drops (hopc : opcodeDefined (byteAt b 4) = true)
    (hmode : lowRate s = true → (servedModes (byteAt b 4)).contains .m = true) (hauth : authOk s b = true)
    (hfree : s.port.outstanding.length < 8) (hplace : replyPlaces ≤ placesTaken s) : checkAdmission s b = dropReply s := by
  rw [checkAdmission, if_neg (ne_false_of_eq_true hopc), if_neg (not_unservedLowRate hmode), if_neg (ne_false_of_eq_true hauth),
    if_neg (Nat.not_le.mpr hfree), if_pos hplace]

theorem answerRepeat_running {x : Replay} (h : x.reply = none) : answerRepeat s x = s := by
  rw [answerRepeat, h]

/-- A frame that begins with the mark of a request goes through the checks (R291, R299). -/
theorem exec_request_checks {part : Bool} (hp : portServes s = true) (hsof : byteAt b 0 = 0xB7) :
    exec (.requestFrame b part) s = .next (checkFrame b part (beginFrame s)) :=
  exec_requestFrame_checks hp (by rintro rfl; exact absurd hsof (by decide)) (by rw [hsof]; decide) (by rw [hsof]; decide)

/-- A port that does not serve hears nothing. -/
theorem exec_portDeaf {n : Nat} {part : Bool} {i : Instr} (hp : portServes s = false)
    (hi : i ∈ [.replyRead n, .reread n, .requestFrame b part, .attentionBlink]) : exec i s = .next s := by
  simp only [List.mem_cons, List.not_mem_nil, or_false] at hi
  obtain rfl | rfl | rfl | rfl := hi
  · exact congrArg Host.Outcome.next (if_pos hp)
  · exact congrArg Host.Outcome.next (if_pos hp)
  · exact congrArg Host.Outcome.next (if_pos (.inl hp))
  · refine congrArg Host.Outcome.next (if_neg ?_)
    rw [hp]
    exact Bool.false_ne_true

end

/-! ### The bytes on the lanes (R289) -/

theorem byteLanes_one (b : Byte) : (byteLanes false b).length = 8 ∧
    ∀ k (h : k < (byteLanes false b).length), ((byteLanes false b)[k]).on = 2 ∧
      ((byteLanes false b)[k]).level = if b.getLsbD (7 - k) then 2 else 0 := by
  have hmap : byteLanes false b =
      (List.range 8).map fun i => { on := 0x2, level := if b.getLsbD (7 - i) then 0x2 else 0x0 } := rfl
  rw [hmap]
  refine ⟨by rw [List.length_map, List.length_range], fun k h => ?_⟩
  rw [List.getElem_map, List.getElem_range]
  exact ⟨rfl, rfl⟩

/-- Settles O55. -/
theorem replyReadsComplete : Obligations.ReplyReadsComplete := by
  rintro s u v n rfl
  refine ⟨fun hp => ⟨fun hq => ?_, ?_, ?_, fun hd hb hu => ⟨fun hw => ?_, fun hw => ⟨?_, fun r hr hdue => ?_⟩⟩,
    fun b hsof hlen hcrc hres => ⟨fun hnew hopc hmode hauth hfree hplace => ?_, fun x hrep hx => ?_⟩⟩,
    fun hp b part i hi => exec_portDeaf hp hi, fun h => if_pos h, replyGone_settles, replyGone_waits,
    fun p l => ⟨rfl, rfl⟩, fun b => ⟨rfl, byteLanes_one b⟩⟩
  · exact congrArg Host.Outcome.next (readReply_empty hp hq)
  · rintro r rest l hq rfl rfl
    exact ⟨fun hn => congrArg Host.Outcome.next ((readReply_oldest hp hq).trans (if_pos hn)),
      fun hn => congrArg Host.Outcome.next ((readReply_oldest hp hq).trans (if_neg (Nat.not_lt.mpr hn)))⟩
  · exact congrArg Host.Outcome.next (rereadReply_served hp)
  · refine congrArg Host.Outcome.next ((blink_due hp hd hb hu).trans (if_pos ?_))
    rw [hrdy_eq hp, hw]
    rfl
  · refine congrArg Host.Outcome.next ((blink_due hp hd hb hu).trans (if_neg ?_))
    rw [hrdy_eq hp, List.isEmpty_iff]
    exact hw
  · exact takeOldest_blinks hr hdue
  · rw [exec_request_checks hp hsof, checkFrame_of_new hsof hlen hcrc hres hnew,
      checkAdmission_drops hopc hmode hauth hfree hplace]
  · rw [exec_request_checks hp hsof, checkFrame_of_repeat hsof hlen hcrc hres hrep, answerRepeat_running hx]

end Sys2Proof.Safety

/-! Tests, scan access, fuse repair and lifetime (O53). -/
namespace Sys2Proof.Safety
open Sys2Proof.Machine

/-! ### TEST_RUN (R331, R400, R401) -/

section
variable {s : State} {r : Request}

theorem runDestructive_due {k : Fin 6} (h : inService s = true) :
    runDestructive k 0 s = (makeDue s (.test k), .now stOk (resultPayload 0)) := by
  rw [runDestructive, if_neg (ne_false_of_eq_true h), if_neg (not_not_intro rfl)]

theorem settleDue_test {k : Fin 6} (h : s.sys.due = .test k) : settleDue s = { s with
    sys := { s.sys with due := .none }
    isl := { s.isl with serviceTest := some k.val, running := putBit s.isl.running k.val true } } := by
  unfold settleDue
  rw [h]

theorem runSpareBist_inProgress (h : s.isl.running.getLsbD 1 = true) :
    runSpareBist 0 r s = (s, deferredUntil s.isl.spareEnds) := by
  rw [runSpareBist, if_neg (not_not_intro rfl), if_pos h]

theorem runSpareBist_starts (h : s.isl.running.getLsbD 1 = false) (hu : (startBist s).isl.running.getLsbD 1 = true) :
    runSpareBist 0 r s =
      ({ startBist s with isl := { (startBist s).isl with spareTag := some r.tag } }, .later) := by
  rw [runSpareBist, if_neg (not_not_intro rfl), if_neg (ne_true_of_eq_false h)]
  exact if_pos hu

theorem runLegTest_starts {a : Byte} (ha : a.toNat < 4) (h : inService s = true) (ht : s.isl.testTag = none) :
    runLegTest a r s = ({ s with isl := { s.isl with
      testTag := some r.tag, testArg := a.toNat, running := putBit s.isl.running 5 true } }, .later) := by
  rw [runLegTest, if_neg (ne_false_of_eq_true h), if_neg (Nat.not_le.mpr ha), if_neg (not_not_intro ht)]

/-! ### The ends of the runs (R388, R398, R401) -/

theorem legTestEnds_waited {f : BitVec 8} {ok : Bool} {n : Nat} {tag : ReqId} (h : s.isl.testTag = some tag) :
    legTestEnds f ok n s =
      let bad (l : Fin 32) : Bool := l.val / 8 == s.isl.testArg && f.getLsbD (l.val % 8)
      let r := runResult (f == 0 && ok) n legChecks
      let v := ((List.finRange 32).filter fun l => l.val / 8 == s.isl.testArg).foldl testPulses s
      let u := { v with
        isl := { v.isl with testTag := none, legF := v.isl.legF ||| maskOf 32 bad }
        leg := vmapI v.leg fun l x => if bad l then { x with park := { x.park with test := true } } else x }
      reply (testDone (recordTest u 5 s.isl.testArg r n legChecks) 5 r) tag 0x90 stOk (resultPayload r) := by
  unfold legTestEnds
  rw [h]

theorem serviceTestEnds_boots {m : Bool} {n k : Nat} {rows : List Nat} (h : s.isl.serviceTest = some k) :
    serviceTestEnds m n rows s = softBoot { s with sticky := { s.sticky with
      bistResult := some (k, runResult m n (serviceCount k), n)
      bistRows := if k = 0 then rows else s.sticky.bistRows } } := by
  unfold serviceTestEnds
  rw [h]

/-! ### Scan access (R332, R403) -/

theorem scanBody_confirmed (ho : s.safe.sessOpen = true) (hs : s.safe.slot = 0) (hd : s.safe.defaultSess = false) :
    scanBody 0x5A5AA5A5 s = (makeDue (queueEvent (logChange { s with nvm := clearSecrets s.nvm } 0 8 0 0 0 0) 0x0A03 [])
      .scan, .status stOk) := by
  rw [scanBody, if_neg (not_or.mpr ⟨ne_false_of_eq_true ho, not_or.mpr ⟨not_not_intro hs, ne_true_of_eq_false hd⟩⟩),
    if_neg (not_not_intro rfl)]

/-- A change-log entry leaves the key and the passwords. -/
theorem logChange_secrets (s : State) (slot kind par : Nat) (o n : Word) (k : Nat) :
    (logChange s slot kind par o n k).nvm.key = s.nvm.key ∧ (logChange s slot kind par o n k).nvm.slots = s.nvm.slots := by
  have h : (timePasses s).nvm = s.nvm := (timePasses_same (pm := 1) rfl (.refl 1 s)).nvm.resolve_left (by decide)
  simp only [logChange, h, and_self]

theorem clearSecrets_slots (n : Nvm) (m : Fin 4) : ((clearSecrets n).slots[m]).hash = none :=
  congrArg Slot.hash (Vector.getElem_replicate (a := Slot.empty) m.isLt)

/-- Everything off leaves the states of the channels. -/
theorem holdIslands_st {ph : Phase} (c : Fin 16) : ((holdIslands s ph).ch[c]).st = (s.ch[c]).st := by
  rw [holdIslands_ch, everythingOff_ch]
  refine foldl_keeps (fun t : State => (t.ch[c]).st) (fun t d => ?_) channels s
  refine ch_updCh_keeps Chan.st (fun ch => ?_) d c
  rfl

theorem holdIslands_link {ph : Phase} : (holdIslands s ph).link = s.link :=
  (holdIslands_same (pm := 265571) rfl (.refl 265571 s)).link.resolve_left (by decide)

theorem settleDue_scan (h : s.sys.due = .scan) : settleDue s = enterTestAccess s := by
  unfold settleDue
  rw [h]

/-- The last reply before scan access has been read. -/
theorem replyGone_scan (h : s.sys.due = .scan) (hl : s.sys.dueLeft ≤ 1) : replyGone s = enterTestAccess s :=
  (replyGone_settles (by rw [h]; decide) hl).trans (settleDue_scan h)

/-- Test access: everything off, and the TAP free with IDCODE selected. -/
theorem enterTestAccess_frees : (enterTestAccess s).sys.phase = .testAccess ∧
    (enterTestAccess s).tap.selected = some (.identity 0xB1632A5F) ∧ (enterTestAccess s).safe.soOn = 0 ∧
    (enterTestAccess s).link.bken = s.link.bken ∧
    ∀ c : Fin 16, ((enterTestAccess s).ch[c]).gates = false ∧ ((enterTestAccess s).ch[c]).st = (s.ch[c]).st := by
  refine ⟨rfl, rfl, holdIslands_soOn (ph := .testAccess),
    congrArg Link.bken (holdIslands_link (ph := .testAccess)), fun c => ⟨?_, holdIslands_st (ph := .testAccess) c⟩⟩
  obtain ⟨-, hg, -⟩ := holdIslands_forced (s := s) (ph := .testAccess) c
  exact hg

/-! ### Fuse repair (R391) -/

theorem fuseBody_starts (h : nvmBusy s = false) :
    fuseBody r s = ({ s with isl := { s.isl with nvmOp := .fuse, opTag := some r.tag } }, .later) :=
  if_neg (ne_true_of_eq_false h)

theorem fuseEnds_blown (h : s.isl.nvmOp = .fuse) : fuseEnds 0 true s =
    let u := fuseRows s (softRepairs s).length
    let n : Nat := u.nvm.fuses.length - s.nvm.fuses.length
    replyOp (queueEvent { u with isl := { u.isl with nvmOp := .none } } 0x0A02 (p4 n)) 0x93 stOk (toLE 2 n ++ [0, 0]) :=
  if_pos h

theorem fuseEnds_failed {k : Nat} (h : s.isl.nvmOp = .fuse) : fuseEnds k false s =
    let u := fuseRows s k
    let v := spoilEntry u
    let n : Nat := u.nvm.fuses.length - s.nvm.fuses.length
    replyOp (queueEvent { v with isl := { v.isl with nvmOp := .none } } 0x0A02 (p4 n)) 0x93 stNvmError [] :=
  if_pos h

/-! ### Lifetime (R405, R406) -/

theorem hourPassed_powered (h : s.sys.phase ≠ .unpowered) : ∃ x, hourPassed s = x ∧
    x.nvm.life.hours = satInc 32 s.nvm.life.hours ∧ (x.nvm.life.hours % 8 = 0 → x.nvm.lifeNvm = x.nvm.life) := by
  refine ⟨_, if_neg h, rfl, fun h8 => ?_⟩
  exact if_pos h8

theorem minutePassed_powered {m : Int} (h : s.sys.phase ≠ .unpowered) : ∃ x, minutePassed m s = x ∧
    x.nvm.life.eqhMinutes * fxOne + x.nvm.life.eqhFrac
      = s.nvm.life.eqhMinutes * fxOne + s.nvm.life.eqhFrac + accelFactor m := by
  refine ⟨_, if_neg h, ?_⟩
  dsimp only
  generalize accelFactor m = a, fxOne = k
  rw [Nat.add_mul, Nat.add_assoc, Nat.div_add_mod', Nat.add_assoc]

end

/-! ### The TAP (R403, R404) -/

theorem tapInstr_data (c : Byte) : (tapInstr c).data =
    if c = 0x00 ∨ c = 0x01 then .boundary else if c = 0x02 then .identity 0xB1632A5F
    else if c = 0x10 then .instrument 64 else .bypass 1 := by
  unfold tapInstr
  split
  case h_1 h => obtain rfl : c = 0x00 := BitVec.eq_of_toNat_eq h; rfl
  case h_2 h => obtain rfl : c = 0x01 := BitVec.eq_of_toNat_eq h; rfl
  case h_3 h => obtain rfl : c = 0x02 := BitVec.eq_of_toNat_eq h; rfl
  case h_4 h => obtain rfl : c = 0x10 := BitVec.eq_of_toNat_eq h; rfl
  case h_5 h0 h1 h2 h10 =>
    rw [if_neg (not_or.mpr ⟨by rintro rfl; exact h0 rfl, by rintro rfl; exact h1 rfl⟩),
      if_neg (by rintro rfl; exact h2 rfl), if_neg (by rintro rfl; exact h10 rfl)]
    rfl

theorem tap_held {t : Tap} (h : t.held = true) : t.selected = none ∧ ∀ c, (t.load c).selected = none := by
  have hs : t.selected = none := if_pos h
  refine ⟨hs, fun c => ?_⟩
  rw [Tap.load, if_pos h]
  exact hs

theorem tap_free {t : Tap} (h : t.held = false) (c : Byte) :
    (t.load c).selected = some (tapInstr c).data ∧ t.resets.selected = some (.identity 0xB1632A5F) := by
  refine ⟨?_, if_neg (ne_true_of_eq_false h)⟩
  rw [Tap.load, if_neg (ne_true_of_eq_false h)]
  exact if_neg (ne_true_of_eq_false h)

/-- Settles O53. -/
theorem selfTestCompletes : Obligations.SelfTestCompletes := by
  intro s u v
  refine ⟨?_, fun h hr => ?_, ?_, fun h => ?_, ?_, fun a ha hs ht h => ?_, ?_, fun m n k rows hk => ?_,
    fun h ho hslot hd => ?_, fun h hb => ?_, ?_, ?_, fun hp => ?_, fun m hp => ?_, fun t => tap_held,
    fun t c ht => ⟨?_, (tap_free ht c).2⟩, fun r n hp hq hdue hleft hn => ?_⟩
  · rintro i k (⟨rfl, rfl⟩ | ⟨rfl, rfl⟩) h hs
    · exact ⟨congrArg Host.Outcome.next (hostCommand_now_port h (makeDue · (.test 0))
        fun p => runDestructive_due (s := { s with port := p }) hs), fun x => settleDue_test⟩
    · exact ⟨congrArg Host.Outcome.next (hostCommand_now_port h (makeDue · (.test 2))
        fun p => runDestructive_due (s := { s with port := p }) hs), fun x => settleDue_test⟩
  · exact congrArg Host.Outcome.next
      (hostCommand_reads h fun p => runSpareBist_inProgress (s := { s with port := p }) hr)
  · rintro h hr rfl hu
    refine congrArg Host.Outcome.next (hostCommand_later h (runSpareBist_starts ?_ hu))
    rw [taken, takeRequest_isl]
    exact hr
  · exact congrArg Host.Outcome.next (hostCommand_reads h fun _ => rfl)
  · rintro x h rfl
    exact congrArg Host.Outcome.next (hostCommand_reads h fun _ => rfl)
  · exact congrArg Host.Outcome.next (hostCommand_later_port h
      (fun v => { v with isl := { s.isl with
        testTag := some (req (.testRunLegTest a) s).tag, testArg := a.toNat, running := putBit s.isl.running 5 true } })
      fun p => runLegTest_starts (s := { s with port := p }) ha hs ht)
  · rintro f ok n r tag bad ht rfl rfl rfl rfl
    exact congrArg Host.Outcome.next (legTestEnds_waited ht)
  · exact congrArg Host.Outcome.next (serviceTestEnds_boots hk)
  · have hbody := scanBody_confirmed (s := taken (.scanRequest 0x5A5AA5A5) s) (by rw [taken_safe]; exact ho)
      (by rw [taken_safe]; exact hslot) (by rw [taken_safe]; exact hd)
    refine ⟨_, congrArg Host.Outcome.next (hostCommand_replies h hbody), ?_, ?_, fun m => ?_⟩
    · rw [replied, reply_sys]
      rfl
    · rw [replied, reply_nvm]
      unfold makeDue
      rw [queueEvent_nvm, (logChange_secrets ..).1]
      rfl
    · rw [replied, reply_nvm]
      unfold makeDue
      rw [queueEvent_nvm, (logChange_secrets ..).2]
      exact clearSecrets_slots _ m
  · exact congrArg Host.Outcome.next (hostCommand_later_port h
      (fun v => { v with isl := { s.isl with nvmOp := .fuse, opTag := some (req .fuseRepair s).tag } })
      fun p => fuseBody_starts (s := { s with port := p }) hb)
  · rintro hop rfl
    exact congrArg Host.Outcome.next (fuseEnds_blown hop)
  · rintro k hop rfl rfl
    exact congrArg Host.Outcome.next (fuseEnds_failed hop)
  · obtain ⟨x, hx, hh⟩ := hourPassed_powered hp
    exact ⟨x, congrArg Host.Outcome.next hx, hh⟩
  · obtain ⟨x, hx, hh⟩ := minutePassed_powered (m := m) hp
    exact ⟨x, congrArg Host.Outcome.next hx, hh⟩
  · rw [(tap_free ht c).1, tapInstr_data]
  · have hread := (readReply_oldest (n := n) hp hq).trans (if_neg (Nat.not_lt.mpr hn))
    exact ⟨_, congrArg Host.Outcome.next (hread.trans (replyGone_scan hdue hleft)), enterTestAccess_frees⟩

end Sys2Proof.Safety

/-! The boundary of the epochs and the event queue (O56). -/
namespace Sys2Proof.Safety
open Sys2Proof.Machine

/-! ### What is due after a reply (R22, R306) -/

section
variable {s : State} {w : EpochWords}

theorem boundary_running (h : epochsRun s = true) : boundary w s =
    let t := if s.sys.due = .none then 0 else s.sys.dueNs + epochNs s
    if 1000000 ≤ t then settleDue { s with sys := { s.sys with dueNs := 0 } }
    else runBoundary w (epochNs s) { s with sys := { s.sys with dueNs := t } } :=
  if_neg (ne_false_of_eq_true h)

theorem boundary_nothingDue (h : epochsRun s = true) (hd : s.sys.due = .none) :
    boundary w s = runBoundary w (epochNs s) { s with sys := { s.sys with dueNs := 0 } } := by
  rw [boundary_running h, if_pos hd]
  exact if_neg (by decide)

theorem boundary_waits (h : epochsRun s = true) (hd : s.sys.due ≠ .none) (hn : s.sys.dueNs + epochNs s < 1000000) :
    boundary w s = runBoundary w (epochNs s) { s with sys := { s.sys with dueNs := s.sys.dueNs + epochNs s } } := by
  rw [boundary_running h, if_neg hd]
  exact if_neg (Nat.not_le.mpr hn)

theorem boundary_settles (h : epochsRun s = true) (hd : s.sys.due ≠ .none) (hn : 1000000 ≤ s.sys.dueNs + epochNs s) :
    boundary w s = settleDue { s with sys := { s.sys with dueNs := 0 } } := by
  rw [boundary_running h, if_neg hd]
  exact if_pos hn

/-! ### A sequencer that recovers (R31, R37, R40) -/

/-- A group that no castling takes over misses no reference. -/
theorem castleWait_idle {g : Fin 4} (hc : (s.grp[g]).castle = none) (ho : (s.grp[g]).owner ≠ none) : castleWait s g = s := by
  have hgrp : vmod s.grp g (fun gr => match gr.castle with
      | some x => if x.planned then gr else { gr with castle := some { x with skipped := x.skipped + 1, waited := true } }
      | none => if gr.owner = none then { gr with skips := gr.skips + 1 } else gr) = s.grp :=
    vmod_eq_self (by rw [hc]; exact if_neg ho)
  exact congrArg (fun v => { s with grp := v }) hgrp

/-- A fold whose steps change nothing. -/
theorem foldl_fixed {α β : Type} {f : α → β → α} {a : α} (h : ∀ b, f a b = a) (l : List β) : l.foldl f a = a := by
  induction l with
  | nil => rfl
  | cons b l ih => rw [List.foldl_cons, h b, ih]

theorem commitAll_recovering (h : s.sys.recovering = true) : commitAll s = (List.finRange 4).foldl castleWait s := if_pos h

/-! ### Events become visible (R335, R336) -/

/-- The sequence number of the k-th event from the one with number n. -/
def seqFrom (n k : Nat) : Nat := if k = 0 then n else (n + k) % 2 ^ 32

theorem seqFrom_succ (n k : Nat) : seqFrom ((n + 1) % 2 ^ 32) k = seqFrom n (k + 1) := by
  unfold seqFrom
  rw [if_neg (Nat.succ_ne_zero k)]
  split <;> omega

/-- The entry of an event in the queue. -/
def eventEntry (tbase seq : Nat) (d : EvDraft) : Ev :=
  { seq := seq, code := d.code, len := d.payload.length, payload := d.payload, tbase := tbase, read := false }

/-- Events that find a place follow those that wait, with consecutive numbers. -/
theorem foldl_commitEvent_queue (l : List EvDraft) (s : State) (h : s.evq.queue.length + l.length ≤ evqRoom) :
    (l.foldl commitEvent s).evq = { s.evq with
      queue := s.evq.queue ++ l.mapIdx fun k d => eventEntry s.sys.tbase (seqFrom s.sticky.evSeq k) d } := by
  induction l generalizing s with
  | nil => rw [List.foldl_nil, List.mapIdx_nil, List.append_nil]
  | cons d l ih =>
    have hroom : s.evq.queue.length < evqRoom := by rw [List.length_cons] at h; omega
    have hd : commitEvent s d = { s with
        evq := { s.evq with queue := s.evq.queue ++ [eventEntry s.sys.tbase s.sticky.evSeq d] }
        sticky := { s.sticky with evSeq := (s.sticky.evSeq + 1) % 2 ^ 32 } } := if_pos hroom
    rw [List.foldl_cons, ih (commitEvent s d) (by
      rw [hd]
      rw [List.length_cons] at h
      simp only [List.length_append, List.length_singleton]
      omega), hd, List.mapIdx_cons]
    simp only [seqFrom_succ, List.append_assoc, List.singleton_append]
    exact rfl

theorem flushEvents_waits (h : s.sys.recovering = true) : flushEvents s = s := if_pos h

theorem flushEvents_noneLost (h : s.sys.recovering = false) (hl : s.evq.lostSince = 0) : flushEvents s =
    (s.evq.bootPend ++ s.evq.pend).foldl commitEvent { s with evq := { s.evq with bootPend := [], pend := [] } } := by
  have hnone : ¬ (0 < s.evq.lostSince ∧ s.evq.queue.length < evqRoom) := fun h => absurd h.1 (by rw [hl]; decide)
  unfold flushEvents
  rw [if_neg (ne_true_of_eq_false h)]
  dsimp only
  rw [if_neg hnone]

theorem commitEvent_lost {d : EvDraft} (h : s.evq.queue.length = evqRoom) : commitEvent s d =
    { s with evq := { s.evq with lostTotal := satInc 16 s.evq.lostTotal, lostSince := s.evq.lostSince + 1 } } :=
  if_neg (Nat.not_lt.mpr (Nat.le_of_eq h.symm))

end

/-- Settles O56. -/
theorem epochBoundaries : Obligations.EpochBoundaries := by
  intro s w h
  refine ⟨fun hd => congrArg Host.Outcome.next (boundary_nothingDue h hd),
    fun hd hn => congrArg Host.Outcome.next (boundary_waits h hd hn),
    fun hd hn => congrArg Host.Outcome.next (boundary_settles h hd hn), rfl,
    fun hr => ⟨commitAll_recovering hr, fun hg => ?_⟩, flushEvents_waits, fun hr hl hroom => ?_, fun d hq => ?_⟩
  · rw [commitAll_recovering hr]
    exact foldl_fixed (fun g => castleWait_idle (hg g).1 (hg g).2) _
  · rw [flushEvents_noneLost hr hl, foldl_commitEvent_queue _ _ (by
      rw [List.length_append]
      exact Nat.add_assoc .. ▸ hroom)]
    exact ⟨rfl, rfl, rfl⟩
  · rw [commitEvent_lost hq]
    exact ⟨rfl, rfl, rfl⟩

end Sys2Proof.Safety

/-! The controller of the rack bus (O57). -/
namespace Sys2Proof.Safety
open Sys2Proof.Machine

/-! ### The register writes (R344, R346, R348, R358) -/

section
variable {s : State} {v : Word}

theorem mem_bitList {n : Nat} {m : BitVec n} {i : Fin n} (h : i ∈ bitList m) : m.getLsbD i.val = true :=
  (List.mem_filter.mp h).2

theorem canOn_ctl (h : v.getLsbD 0 = true → s.sys.running = true) :
    canOn { s with can := { s.can with ctl := maskWrite 0x7 s.can.ctl v } } = v.getLsbD 0 := by
  have hbit : (maskWrite 0x7 s.can.ctl v).getLsbD 0 = v.getLsbD 0 :=
    (getLsbD_of_masked (maskWrite_and 0x7 s.can.ctl v) (by decide)).trans
      ((BitVec.getLsbD_and ..).trans (Bool.and_true _))
  unfold canOn
  rw [hbit]
  cases hv : v.getLsbD 0
  case false => exact Bool.false_and _
  case true => exact (Bool.true_and _).trans (h hv)

theorem canOn_running (h : canOn s = true) : s.sys.running = true := by
  unfold canOn at h
  exact (Bool.and_eq_true_iff.mp h).2

/-- A write of CAN_CTL that is permitted: the controller is switched where EN changes it. -/
theorem canCtlWrite_permitted (hm : s.sys.mode = .configure ∨ s.sys.mode = .idle ∨ s.sys.mode = .service)
    (hv : bits v 1 2 ≠ 3) : canCtlWrite s v =
      let t := { s with can := { s.can with ctl := maskWrite 0x7 s.can.ctl v } }
      (if canOn t = canOn s then t else if canOn s then canStop t else canStart t, stOk) := by
  have hmode : ¬ (s.sys.mode ≠ .configure ∧ s.sys.mode ≠ .idle ∧ s.sys.mode ≠ .service) :=
    fun ⟨hc, hi, hs⟩ => hm.elim hc fun h => h.elim hi hs
  unfold canCtlWrite
  rw [if_neg hmode, if_neg hv]

section
variable {t : State} (ht : t = { taken (.canEnableWrite v) s with can := { s.can with ctl := maskWrite 0x7 s.can.ctl v } })
include ht

theorem exec_canEnable (h : Served (.canEnableWrite v) s)
    (hm : s.sys.mode = .configure ∨ s.sys.mode = .idle ∨ s.sys.mode = .service) (hv : bits v 1 2 ≠ 3) :
    exec (.canEnableWrite v) s = .next (replied (.canEnableWrite v) s
      (if canOn t = canOn s then t else if canOn s then canStop t else canStart t) stOk []) := by
  subst ht
  obtain ⟨p, hp⟩ := taken_port_only (.canEnableWrite v) s
  refine exec_whole_replies rfl h ?_
  rw [hp]
  exact canCtlWrite_permitted (s := { s with port := p }) hm hv

theorem canOn_enabled (h : v.getLsbD 0 = true → s.sys.running = true) : canOn t = v.getLsbD 0 := by
  subst ht
  obtain ⟨p, hp⟩ := taken_port_only (.canEnableWrite v) s
  rw [hp]
  exact canOn_ctl (s := { s with port := p }) h

end

theorem canTxAdd_named (hm : (v.truncate 16 : Mask) ≠ 0) (hon : canOn s = true)
    (hb : ∀ b : Fin 16, v.getLsbD b.val = true → heldBuffer s b = false) :
    canTxAdd s v = ((bitList (v.truncate 16 : Mask)).foldl requestBuffer (markStarted s), stOk) := by
  have hany : ¬ (bitList (v.truncate 16 : Mask)).any (heldBuffer s) = true := by
    rw [List.any_eq_true]
    rintro ⟨b, hmem, hheld⟩
    have hbit : v.getLsbD b.val = true := by
      have h := mem_bitList hmem
      rw [BitVec.truncate, BitVec.getLsbD_setWidth, decide_eq_true b.isLt, Bool.true_and] at h
      exact h
    exact ne_true_of_eq_false (hb b hbit) hheld
  unfold canTxAdd
  dsimp only
  rw [if_neg hm, if_neg (not_or.mpr ⟨ne_false_of_eq_true hon, hany⟩)]

theorem writeReg_rxAck (s : State) (v : Word) :
    ∀ f : Fin 2, writeReg s (BitVec.ofNat 32 (0x7002C + 4 * f.val)) v = hostRxAck s f v
  | 0 => rfl
  | 1 => rfl

section
variable {f : Fin 2} (hmin : 1 ≤ bits v 0 6) (hmax : (s.can.rxf[f]).late + bits v 0 6 ≤ (s.can.rxf[f]).fill)
include hmin hmax

theorem hostRxAck_inRange : ¬ (bits v 0 6 = 0 ∨ (s.can.rxf[f]).fill < (s.can.rxf[f]).late + bits v 0 6) :=
  not_or.mpr ⟨by omega, Nat.not_lt.mpr hmax⟩

theorem hostRxAck_releases (hr : readsFifo s f = false) : hostRxAck s f v = (releaseFifo s f (bits v 0 6), stOk) := by
  unfold hostRxAck
  dsimp only
  rw [if_neg (hostRxAck_inRange hmin hmax), if_neg (ne_true_of_eq_false hr)]

/-- Within a burst that reads the FIFO the release waits for its end. -/
theorem hostRxAck_inBurst (hr : readsFifo s f = true) :
    hostRxAck s f v = ((drawFree s).2.updFifo f fun x => { x with late := x.late + bits v 0 6 }, stOk) ∨
    ((s.can.rxf[f]).late = 0 ∧ hostRxAck s f v = (releaseFifo (drawFree s).2 f (bits v 0 6), stOk)) := by
  have hread : hostRxAck s f v = if (drawFree s).1 % 2 = 1 ∨ 0 < (s.can.rxf[f]).late then
      ((drawFree s).2.updFifo f fun x => { x with late := x.late + bits v 0 6 }, stOk)
      else (releaseFifo (drawFree s).2 f (bits v 0 6), stOk) := by
    unfold hostRxAck
    dsimp only
    rw [if_neg (hostRxAck_inRange hmin hmax), if_pos hr]
  rw [hread]
  split
  case isTrue => exact .inl rfl
  case isFalse h => exact .inr ⟨by omega, rfl⟩

end

/-- What the DMA engine reads, whatever the host port holds. -/
theorem readsFifo_port (p : HostPort) (f : Fin 2) : readsFifo { s with port := p } f = readsFifo s f := rfl

/-! ### The start of a frame (R345) -/

theorem markStarted_unchanged (h : s.can.inTx ≠ none ∨ topBuffer s = none ∨ canSends s = false) : markStarted s = s := by
  unfold markStarted
  split
  case h_1 b hin htop =>
    refine if_neg (ne_true_of_eq_false ?_)
    obtain h | h | h := h
    · exact absurd hin h
    · exact absurd (htop.symm.trans h) (Option.some_ne_none b)
    · exact h
  case h_2 => rfl

theorem markStarted_draws {b : Fin 16} (hin : s.can.inTx = none) (htop : topBuffer s = some b) (hs : canSends s = true) :
    markStarted s = { (drawFree s).2 with
      can := { (drawFree s).2.can with inTx := if (drawFree s).1 % 2 = 1 then some b else none } } := by
  unfold markStarted
  rw [hin, htop]
  exact if_pos hs

/-! ### Buffers (R345, R346) -/

section
variable {b : Fin 16}

theorem cancelBuffer_waiting (hp : (s.can.tx[b]).pend = true) (h : s.can.inTx ≠ some b) :
    cancelBuffer s b = failBuffer s b := by
  rw [cancelBuffer, if_pos hp, if_neg h]

theorem cancelBuffer_onBus (hp : (s.can.tx[b]).pend = true) (h : s.can.inTx = some b) :
    cancelBuffer s b = s.updTx b fun x => { x with cancel := true } := by
  rw [cancelBuffer, if_pos hp, if_pos h]

theorem frameFails_alone (hn : (s.can.tx[b]).next = []) : frameFails s b =
    if (s.can.tx[b]).cancel || elemOneShot (s.can.tx[b]).elem then failBuffer s b else s := by
  unfold frameFails
  dsimp only
  rw [hn]

theorem frameFails_cancelled (hc : (s.can.tx[b]).cancel = true) (hn : (s.can.tx[b]).next = []) :
    frameFails s b = failBuffer s b := by
  rw [frameFails_alone hn, hc]
  exact if_pos rfl

theorem frameFails_retried (hc : (s.can.tx[b]).cancel = false) (ho : elemOneShot (s.can.tx[b]).elem = false)
    (hn : (s.can.tx[b]).next = []) : frameFails s b = s := by
  rw [frameFails_alone hn, hc, ho]
  exact if_neg Bool.false_ne_true

theorem lostArbitration_onBus (hin : s.can.inTx = some b) (hp : (s.can.tx[b]).pend = true) :
    lostArbitration s = endTransmission (frameFails s b) := by
  have hmark : markStarted s = s := markStarted_unchanged (.inl (by rw [hin]; exact Option.some_ne_none b))
  unfold lostArbitration
  dsimp only
  rw [hmark, hin]
  exact congrArg endTransmission (if_pos hp)

end

/-! ### Joining, errors and recovery (R343, R349, R351) -/

theorem busJoin_joins (hon : canOn s = true) (he : s.can.est ≠ 2) :
    busJoin s = { s with can := { s.can with joined := true } } := if_pos ⟨hon, he⟩

theorem busRecovered_recovers {ms : Nat} (he : s.can.est = 2) (hon : canOn s = true)
    (ht : 128 * 11 * nominalBit s < (ms + 1) * 80000) : busRecovered ms s = queueEvent { s with can := { s.can with
      est := 0, tecN := 0, recN := 0, recov := false, joined := true } } 0x0803 (p4 ms) :=
  if_pos ⟨he, hon, decide_eq_true ht⟩

theorem busError_active {k : CanErr} {b : Option (Fin 16)} (h : canActive s = true) : busError k b s =
    confine (countError k (match b with
      | some b => if mayComplete s b then endTransmission (frameFails (delayOnError k s (s.can.tx[b]).elem) b) else s
      | none => lostArbitration s)) := by
  unfold busError
  cases b with
  | none => exact if_pos h
  | some b => exact if_pos h

end

/-- Settles O57. -/
theorem canControllerCompletes : Obligations.CanControllerCompletes := by
  intro s v
  refine ⟨?_, ?_, ?_, ⟨markStarted_unchanged, fun b hin htop hs => ?_⟩,
    fun b hp => ⟨cancelBuffer_waiting hp, cancelBuffer_onBus hp, frameFails_cancelled, frameFails_retried⟩, ?_,
    fun hon he => congrArg Host.Outcome.next (busJoin_joins hon he),
    fun ms he hon ht => congrArg Host.Outcome.next (busRecovered_recovers he hon ht),
    fun k t h => ⟨congrArg Host.Outcome.next (busError_active h), ?_, fun b hb => ?_⟩, ?_⟩
  · rintro i t rfl h hm hv ht
    have hexec := exec_canEnable ht h hm hv
    have hnow := canOn_enabled (s := s) ht
    refine ⟨fun hsame => ?_, fun hon hoff hrun => ?_, fun hoff hon => ?_⟩
    · rwa [hnow fun hon => canOn_running (hsame.symm.trans hon), if_pos hsame] at hexec
    · rwa [hnow fun _ => hrun, hon, hoff, if_neg (by decide), if_neg (by decide)] at hexec
    · rwa [hnow fun hon => absurd (hoff.symm.trans hon) (by decide), hon, hoff, if_neg (by decide), if_pos rfl] at hexec
  · rintro i rfl h hm hon hb
    obtain ⟨p, hp⟩ := taken_port_only (.canTxaddWrite v) s
    refine exec_whole_replies rfl h ?_
    rw [hp]
    exact canTxAdd_named (s := { s with port := p }) hm hon hb
  · rintro i rfl h
    exact exec_whole_replies rfl h rfl
  · refine ⟨_, ?_, markStarted_draws hin htop hs⟩
    rw [markStarted_draws hin htop hs]
    dsimp only
    split
    · exact .inr rfl
    · exact .inl rfl
  · rintro f i t rfl h hmin hmax rfl
    obtain ⟨p, hp⟩ := taken_port_only (.canRxackWrite f v) s
    have hwrite := writeReg_rxAck { s with port := p } v f
    have hexec (u : State) (hu : hostRxAck { s with port := p } f v = (u, stOk)) :
        exec (.canRxackWrite f v) s = .next (replied (.canRxackWrite f v) s u stOk []) := by
      refine exec_whole_replies rfl h ?_
      rw [hp]
      exact hwrite.trans hu
    rw [hp]
    refine ⟨fun hr => hexec _ (hostRxAck_releases (s := { s with port := p }) hmin hmax hr), fun hr => ?_⟩
    exact (hostRxAck_inBurst (s := { s with port := p }) hmin hmax hr).imp (hexec _) fun hlate => ⟨hlate.1, hexec _ hlate.2⟩
  · rintro b hb rfl
    refine congrArg Host.Outcome.next ((busError_active h).trans (congrArg (fun x => confine (countError k x)) ?_))
    exact if_pos hb
  · refine congrArg Host.Outcome.next ((busError_active h).trans (congrArg (fun x => confine (countError k x)) ?_))
    exact if_neg (ne_true_of_eq_false hb)
  · rintro b t hin hp rfl
    exact lostArbitration_onBus hin hp

end Sys2Proof.Safety

/-! The DMA channels (O59). -/
namespace Sys2Proof.Safety
open Sys2Proof.Machine

/-! ### One channel -/

section
variable {s : State} {n : Fin 8} {v : Word}

theorem dma_updDma_self (s : State) (n : Fin 8) (f : Dma → Dma) : (s.updDma n f).dma[n] = f s.dma[n] := vmod_same ..

theorem queueEvent_channel (s : State) (code : Nat) (p : List Byte) : (queueEvent s code p).dma[n] = s.dma[n] := by
  rw [queueEvent_dma]

theorem takeShadow_taken (hv : (s.dma[n]).shv = true) (he : (s.dma[n]).ctl.getLsbD 0 = true)
    (ha : (s.dma[n]).active = false) : takeShadow s n = s.updDma n fun d =>
      { d.flagEvt 2 with
        adesc := d.sdesc, areq := d.sreq, arseq := if d.srseq = 0xFFFFFFFF then d.arseq else d.srseq, shv := false,
        active := true, desc := none, moved := 0, result := 0, ck := { d.ck with took := true } } := by
  refine if_pos ?_
  rw [hv, he, ha]
  rfl

theorem takeShadow_invalid (hv : (s.dma[n]).shv = false) : takeShadow s n = s := by
  refine if_neg ?_
  rw [hv]
  exact Bool.false_ne_true

/-- A list that ends with no valid shadow leaves the channel idle. -/
theorem endList_idle (hv : (s.dma[n]).shv = false) :
    (endList s n).dma[n] = { s.dma[n] with active := false, desc := none, moved := 0, result := 0 } := by
  rw [endList, takeShadow_invalid (by rw [dma_updDma_self]; exact hv), dma_updDma_self]

/-- What the count of an ended descriptor leaves of its channel: the validity of the shadow. -/
theorem countDescriptor_shv (r : Nat) : ((countDescriptor s n r).dma[n]).shv = (s.dma[n]).shv := by
  unfold countDescriptor descBad
  dsimp only
  split
  · rw [dma_updDma_self]
  · split
    · rw [dma_updDma_self]
    · split
      · rw [dma_updDma_self, dma_updDma_self]
      · rw [queueEvent_channel, dma_updDma_self, dma_updDma_self, dma_updDma_self]
        rfl

/-- A stopped list ends: without a valid shadow the channel is idle. -/
theorem stopList_idle (ha : (s.dma[n]).active = true) (hv : (s.dma[n]).shv = false) :
    ((stopList s n).dma[n]).active = false ∧ ((stopList s n).dma[n]).desc = none := by
  have hend (t : State) (ht : (t.dma[n]).shv = false) :
      ((endList (t.updDma n fun d => d.flagEvt 3) n).dma[n]).active = false ∧
      ((endList (t.updDma n fun d => d.flagEvt 3) n).dma[n]).desc = none := by
    rw [endList_idle (by rw [dma_updDma_self]; exact ht)]
    exact ⟨rfl, rfl⟩
  unfold stopList
  dsimp only
  rw [if_neg (ne_false_of_eq_true ha)]
  split
  · exact hend _ ((countDescriptor_shv _).trans hv)
  · split
    · exact hend _ ((countDescriptor_shv _).trans hv)
    · exact hend _ hv

/-! ### The register writes (R380 to R382) -/

theorem placeOf_dma {a : Word} {o : Nat} (ha : a.toNat = 0x80000 + 0x40 * n.val + o) (ho : o < 0x40) (h4 : o % 4 = 0) :
    placeOf a = some (.dma n o) := by
  obtain ⟨halign, hsram, hoff, hblock⟩ :=
    block_of (a := a) (b := 8) (o := 0x40 * n.val + o) (by omega) (by omega) (by omega) (by decide)
  have hin : 0x40 * n.val + o < 0x200 := by omega
  have hinst : (0x40 * n.val + o) / 0x40 % 8 = n.val := by omega
  have hreg : (0x40 * n.val + o) % 0x40 = o := by omega
  simp only [placeOf, halign, hsram, hoff, hblock, hin, hinst, hreg, ne_eq, not_true_eq_false, Bool.false_eq_true,
    if_false, if_true]

theorem writeReg_dmaShv (s : State) (n : Fin 8) (v : Word) :
    writeReg s (BitVec.ofNat 32 (0x80024 + 0x40 * n.val)) v = dmaShvWrite s n v :=
  writeReg_of_place (p := .dma n 0x24) (placeOf_dma (by rw [BitVec.toNat_ofNat]; omega) (by decide) (by decide))

theorem writeReg_dmaCtl (s : State) (n : Fin 8) (v : Word) :
    writeReg s (BitVec.ofNat 32 (0x80000 + 0x40 * n.val)) v = dmaCtlWrite s n v :=
  writeReg_of_place (p := .dma n 0) (placeOf_dma (by rw [BitVec.toNat_ofNat]; omega) (by decide) (by decide))

theorem dmaCtlWrite_stops (h : v.getLsbD 1 = true ∨ v.getLsbD 0 = false) : dmaCtlWrite s n v =
    (takeShadow (stopList (s.updDma n fun d => { d with ctl := maskWrite 0x31 d.ctl v }) n) n, stOk) := by
  unfold dmaCtlWrite
  dsimp only
  rw [if_pos]
  obtain h | h := h
  · rw [h, Bool.true_or]
  · rw [h, Bool.not_false, Bool.or_true]

theorem dmaAbort_bit {w : Word} (h : w &&& 0x2 = 0x2) : w.getLsbD 1 = true :=
  (getLsbD_of_masked h (k := 1) (by decide)).trans (by decide)

theorem dmaDisable_bit {w : Word} (h : w &&& 0x1 = 0) : w.getLsbD 0 = false :=
  (getLsbD_of_masked h (k := 0) (by decide)).trans (by decide)

/-! ### Bursts (R369, R372, R373, R378) -/

theorem dmaBurst_serves (hr : dmaRuns s = true) (hn : nextChannel s = some n) : dmaBurst s = serveChannel s n := by
  unfold dmaBurst
  rw [if_pos hr, hn]

theorem dmaBurst_idle (hr : dmaRuns s = true) (hn : nextChannel s = none) : dmaBurst s = s := by
  unfold dmaBurst
  rw [if_pos hr, hn]

theorem badDescriptor_of {d : Dma} {x : List Byte}
    (h : dsLen x = 0 ∨ 4194304 < dsLen x ∨ (slice x 28 4).any (· != 0) = true ∨ 8 ≤ leNat (slice x 12 4) ∨
      (dsCtl x 2 = true ∧ (reqSrc d = 0 ∨ dsLen x % (if 17 ≤ reqSrc d ∧ reqSrc d ≤ 18 then 80 else 32) ≠ 0))) :
    badDescriptor d x = true := by
  have hfifo : (reqSrc d = 17 ∨ reqSrc d = 18) ↔ (17 ≤ reqSrc d ∧ reqSrc d ≤ 18) := by omega
  unfold badDescriptor
  simp only [hfifo, Bool.or_eq_true, Bool.and_eq_true, decide_eq_true_eq, beq_iff_eq, bne_iff_ne, ne_eq]
  obtain h | h | h | h | h := h
  · exact .inl (.inl (.inl (.inl h)))
  · exact .inl (.inl (.inl (.inr h)))
  · exact .inl (.inr h)
  · exact .inl (.inl (.inr h))
  · exact .inr h

/-- A bad descriptor is fetched, and moves nothing. -/
theorem serveChannel_bad {x : List Byte} (hd : (s.dma[n]).desc = none) (ha : descAddrOk (s.dma[n]).adesc.toNat = true)
    (hx : x = memReadList s.mem (s.dma[n]).adesc.toNat 32) (hb : badDescriptor s.dma[n] x = true) :
    serveChannel s n = (({ s with dmaLast := n }).updDma n fun d =>
      { d with desc := some x, ran := d.adesc, moved := 0, result := 0 }).updDma n fun d => { d with result := 6 } := by
  subst hx
  unfold serveChannel
  dsimp only
  rw [hd]
  dsimp only
  rw [if_neg (ne_false_of_eq_true ha)]
  exact if_pos hb

theorem serveChannel_unfetchable (hd : (s.dma[n]).desc = none) (ha : descAddrOk (s.dma[n]).adesc.toNat = false) :
    serveChannel s n = unfetchable { s with dmaLast := n } n := by
  unfold serveChannel
  dsimp only
  rw [hd]
  exact if_pos ha

theorem unfetchable_ends (hv : (s.dma[n]).shv = false) : ((unfetchable s n).dma[n]).adesc = (s.dma[n]).ran ∧
    ((unfetchable s n).dma[n]).lbad = (s.dma[n]).adesc ∧ ((unfetchable s n).dma[n]).active = false := by
  have hbad : (descBad (s.updDma n fun d => { d.flagEvt 4 with lbad := (s.dma[n]).adesc, adesc := d.ran }) n
      (s.dma[n]).adesc).dma[n] = { (s.dma[n]).flagEvt 4 with lbad := (s.dma[n]).adesc, adesc := (s.dma[n]).ran } :=
    (queueEvent_channel ..).trans (dma_updDma_self ..)
  unfold unfetchable
  dsimp only
  rw [endList_idle (by rw [hbad]; exact hv), hbad]
  exact ⟨rfl, rfl, rfl⟩

theorem fifo_updFifo_self (s : State) (f : Fin 2) (g : RxFifo → RxFifo) : (s.updFifo f g).can.rxf[f] = g s.can.rxf[f] :=
  vmod_same ..

theorem releaseLate_fifo (s : State) (f : Fin 2) :
    ((releaseLate s f).can.rxf[f]).fill = (s.can.rxf[f]).fill - (s.can.rxf[f]).late ∧
    ((releaseLate s f).can.rxf[f]).late = 0 := by
  rw [releaseLate, fifo_updFifo_self, releaseFifo, fifo_updFifo_self]
  exact ⟨rfl, rfl⟩

theorem fifoBurst_late {t : State} {x : List Byte} {f : Fin 2}
    (ht : t = moveBytes s n x (memReadList s.mem (rxElement f (s.can.rxf[f]).get) elementSize) elementSize)
    (hl : 0 < (t.can.rxf[f]).late) : fifoBurst s n x f = releaseLate t f := by
  subst ht
  exact if_pos hl

theorem fifoBurst_releases {t : State} {x : List Byte} {f : Fin 2}
    (ht : t = moveBytes s n x (memReadList s.mem (rxElement f (s.can.rxf[f]).get) elementSize) elementSize)
    (hl : (t.can.rxf[f]).late = 0) : ((fifoBurst s n x f).can.rxf[f]).fill = (t.can.rxf[f]).fill - 1 := by
  subst ht
  rw [fifoBurst, if_neg (Nat.not_lt.mpr (Nat.le_of_eq hl)), fifo_updFifo_self, releaseFifo, fifo_updFifo_self]

/-! ### The end of a descriptor (R371, R373) -/

theorem descriptorDone_ended {x : List Byte} (hd : (s.dma[n]).desc = some x) (ha : (s.dma[n]).active = true)
    (hr : (s.dma[n]).result ≠ 0) : descriptorDone n s =
      let t := countDescriptor (writeStatus s n (s.dma[n]).result) n (s.dma[n]).result
      if dsCtl x 0 then endList (t.updDma n fun d => d.flagEvt 0) n
      else t.updDma n fun d => { d with adesc := BitVec.ofNat 32 (dsNext x), desc := none, moved := 0, result := 0 } := by
  unfold descriptorDone
  dsimp only
  rw [hd]
  exact if_neg (not_or.mpr ⟨ne_false_of_eq_true ha, hr⟩)

theorem exec_dmaDescriptorDone (h : dmaRuns s = true) :
    exec (.dmaDescriptorDone n) s = .next (descriptorDone n s) := congrArg Host.Outcome.next (if_pos h)

end

/-- Settles O59. -/
theorem dmaCompletes : Obligations.DmaCompletes := by
  intro s t n
  refine ⟨?_, fun hv he ha => ?_, ?_, stopList_idle, fun hr => ⟨fun hn => ?_, fun hn => ?_⟩, fun x hd ha hx hb => ?_,
    fun hd ha => ⟨serveChannel_unfetchable hd ha, unfetchable_ends⟩,
    fun x f ht => ⟨fun hl => ⟨fifoBurst_late ht hl, releaseLate_fifo t f⟩, fifoBurst_releases ht⟩,
    fun x hr hd ha hres ht => ?_⟩
  · rintro v i rfl h
    exact exec_whole_replies rfl h (writeReg_dmaShv ..)
  · rw [takeShadow_taken hv he ha, dma_updDma_self]
    exact ⟨rfl, rfl, rfl, rfl⟩
  · rintro i f v (rfl | rfl) hf rfl h
    · have hbit : (written (.dmaAbort n) f s).getLsbD 1 = true := by
        have hfield := written_field hf s
        obtain rfl := Option.some.inj hf
        exact dmaAbort_bit hfield
      refine ⟨fun _ => hbit, fun hi => (Instr.noConfusion hi), exec_row_replies hf h ?_⟩
      obtain rfl := Option.some.inj hf
      exact (writeReg_dmaCtl ..).trans (dmaCtlWrite_stops (.inl hbit))
    · have hbit : (written (.dmaDisable n) f s).getLsbD 0 = false := by
        have hfield := written_field hf s
        obtain rfl := Option.some.inj hf
        exact dmaDisable_bit hfield
      refine ⟨fun hi => (Instr.noConfusion hi), fun _ => hbit, exec_row_replies hf h ?_⟩
      obtain rfl := Option.some.inj hf
      exact (writeReg_dmaCtl ..).trans (dmaCtlWrite_stops (.inr hbit))
  · exact congrArg Host.Outcome.next (dmaBurst_serves hr hn)
  · exact congrArg Host.Outcome.next (dmaBurst_idle hr hn)
  · rw [serveChannel_bad hd ha hx (badDescriptor_of hb), dma_updDma_self, dma_updDma_self]
    exact ⟨rfl, rfl, rfl⟩
  · rw [exec_dmaDescriptorDone hr, descriptorDone_ended hd ha hres, ht]
    exact ⟨fun hlast => congrArg Host.Outcome.next (if_pos hlast),
      fun hlast => congrArg Host.Outcome.next (if_neg (ne_true_of_eq_false hlast))⟩

end Sys2Proof.Safety

/-! ECC errors, row repair and the refresh of the NVM (O60). -/
namespace Sys2Proof.Safety
open Sys2Proof.Machine

section
variable {s : State} {a : Word} {w : Nat}

/-! ### ECC errors (R362, R364) -/

theorem eccError_corrected (hr : sramRead s = true) (hin : inSram (a.toNat / 8 * 8) = true) : eccError a false s =
    countRow (queueRated { s with isl := { s.isl with corr := satInc 16 s.isl.corr } } 0x0901 0 1000000000
      (p4u (a.toNat / 8 * 8) ++ p4 (satInc 16 s.isl.corr))) (rowOf (a.toNat / 8 * 8)) := by
  unfold eccError
  dsimp only
  rw [if_neg (not_or.mpr ⟨ne_false_of_eq_true hr, ne_false_of_eq_true hin⟩)]
  exact if_neg Bool.false_ne_true

theorem eccError_uncorrectable (hr : sramRead s = true) (hin : inSram (a.toNat / 8 * 8) = true) : eccError a true s =
    startCopy (damageWord (dmaMayMeet { s with isl := { s.isl with
      uncorr := satInc 8 s.isl.uncorr, eccaddr := BitVec.ofNat 32 (a.toNat / 8 * 8) } } (a.toNat / 8 * 8))
      (a.toNat / 8 * 8)) (rowOf (a.toNat / 8 * 8)) := by
  unfold eccError
  dsimp only
  rw [if_neg (not_or.mpr ⟨ne_false_of_eq_true hr, ne_false_of_eq_true hin⟩)]
  exact if_pos rfl

/-- An uncorrectable word of the host window reads as zero. -/
theorem damageWord_window_mem (h : regionOf w = .window) :
    (damageWord s w).mem = memWriteList s.mem w (List.replicate 8 0) := by
  unfold damageWord
  rw [h]
  exact queueEvent_mem ..

theorem memRead_damageWord_inside (h : regionOf w = .window) (hw : Memory.wf s.mem = true) {k : Nat} (hk : k < 8) :
    memRead (damageWord s w).mem (w + k) = 0 := by
  rw [damageWord_window_mem h, memRead_memWriteList_inside hw (by rw [List.length_replicate]; exact hk),
    List.getElem_replicate]

theorem memRead_damageWord_outside (h : regionOf w = .window) (hw : Memory.wf s.mem = true) {b : Nat}
    (hb : b < w ∨ w + 8 ≤ b) : memRead (damageWord s w).mem b = memRead s.mem b := by
  rw [damageWord_window_mem h, memRead_memWriteList_outside hw (by rw [List.length_replicate]; exact hb)]

theorem damageWord_ring {c : Fin 16} {o : Nat} {r : LogRec} (h : regionOf w = .ring c o)
    (hr : recordAt s.ch[c] (o / 32) = some r) : damageWord s w = queueEvent (s.updCh c fun ch => { ch with
      ring := ch.ring.map fun x => if x.seq = r.seq then damageRecord x (o % 32) else x }) 0x0907 (p1 c.val ++ p4u r.seq) := by
  unfold damageWord
  rw [h]
  dsimp only
  unfold damageRing
  rw [hr]

theorem rowRepaired_switches {row : Fin 2048} {k : Nat}
    (hc : s.isl.copying.find? (fun r => r.1 == row.val) = some (row.val, k)) (hr : sramRead s = true) :
    rowRepaired row s = queueEvent { s with isl := { s.isl with
      copying := s.isl.copying.filter fun x => x.1 != row.val
      rows := s.isl.rows ++ [{ row := row.val, spare := k, fused := false, run := true }] } } 0x0908 (p4 k) := by
  unfold rowRepaired
  rw [hc]
  exact if_pos hr

/-! ### The refresh of the NVM (R367, R368) -/

theorem refreshDue_starts (hr : refreshRuns s = true) (hf : s.isl.refreshing = false)
    (ho : 8760 * (s.nvm.life.refreshes + 1) ≤ s.nvm.life.hours) : refreshDue s = queueEvent { s with isl := { s.isl with
      refreshing := true, pagen := 0, pageBad := 0, pageOp := !nvmBusy s, pageAt := s.sys.tbase } } 0x0905 (p1 0 ++ p4 0) := by
  have howed : refreshOwed s = true := decide_eq_true ho
  refine if_pos ?_
  rw [hr, hf, howed]
  rfl

/-- The earliest start of the page after the one that ends. -/
def nextPageAt (s : State) : Nat :=
  (if s.isl.pageOp then s.isl.pageAt else max s.isl.pageAt (s.sys.tbase - pageTime)) + pageSpacing

theorem pageDone_more {ok : Bool} (h : s.isl.pagen + 1 < refreshTotal) : pageDone ok s = { s with isl := { s.isl with
    pagen := s.isl.pagen + 1, pageBad := s.isl.pageBad + b2n (!ok), pageOp := false, pageAt := nextPageAt s } } :=
  if_neg (Nat.not_le.mpr h)

theorem pageDone_last (h : refreshTotal ≤ s.isl.pagen + 1) : pageDone true s = queueEvent { s with
    isl := { s.isl with refreshing := false, pagen := 0, pageBad := 0, pageOp := false, pageAt := nextPageAt s }
    nvm := { s.nvm with life := { s.nvm.life with refreshes := satInc 32 s.nvm.life.refreshes } } } 0x0905
    (p1 1 ++ p4 (refreshTotal - s.isl.pageBad : Nat)) := if_pos h

section
variable (hr : refreshRuns s = true) (hf : s.isl.refreshing = true)
  (ho : s.isl.pageOp = true ∨ (nvmBusy s = false ∧ s.isl.pageAt ≤ s.sys.tbase))
include hr hf ho

theorem refreshPage_mayRun : ¬ (!refreshRuns s || !pageMayRun s) = true := by
  have hrun : pageMayRun s = true := by
    unfold pageMayRun
    obtain hop | ⟨hb, ht⟩ := ho
    · rw [hf, hop]
      rfl
    · rw [hf, hb, decide_eq_true ht, Bool.not_false, Bool.and_true, Bool.or_true]
      rfl
  rw [hr, hrun]
  exact Bool.false_ne_true

theorem refreshPage_rewritten : refreshPage true s = pageDone true s := by
  rw [refreshPage, if_neg (refreshPage_mayRun hr hf ho)]
  exact if_pos rfl

/-- A page that fails is relocated while the refresh space has room. -/
theorem refreshPage_failed {y : State} (hy : y = queueEvent s 0x0906 (p1 3 ++ p1 2)) : refreshPage false s =
    if freePages { y with isl := { y.isl with pageOp := true } } < 4 then pageDone false y
    else pageDone true { y with nvm := { y.nvm with reloc := y.nvm.reloc + 1 } } := by
  subst hy
  rw [refreshPage, if_neg (refreshPage_mayRun hr hf ho)]
  exact if_neg Bool.false_ne_true

end

/-- The event of a failed page leaves when the next one may start. -/
theorem nextPageAt_queueEvent (code : Nat) (p : List Byte) : nextPageAt (queueEvent s code p) = nextPageAt s := by
  unfold nextPageAt
  rw [queueEvent_isl, queueEvent_sys]

end

/-- Settles O60. -/
theorem memoryEventsComplete : Obligations.MemoryEventsComplete := by
  rintro s u a w rfl
  refine ⟨fun hr hin => congrArg Host.Outcome.next (eccError_corrected hr hin), ?_,
    fun h hw => ⟨fun k => memRead_damageWord_inside h hw, fun b => memRead_damageWord_outside h hw⟩,
    fun c o r => damageWord_ring, fun row k hc hr => congrArg Host.Outcome.next (rowRepaired_switches hc hr),
    fun hr => ⟨fun hf ho => congrArg Host.Outcome.next (refreshDue_starts hr hf ho), ?_⟩⟩
  · rintro hr hin rfl
    exact congrArg Host.Outcome.next (eccError_uncorrectable hr hin)
  · rintro x hf ho rfl
    refine ⟨fun hmore => ?_, fun hlast => ?_, fun y hmore hy => ?_⟩
    · exact congrArg Host.Outcome.next ((refreshPage_rewritten hr hf ho).trans (pageDone_more hmore))
    · exact congrArg Host.Outcome.next ((refreshPage_rewritten hr hf ho).trans (pageDone_last hlast))
    · have hpage := refreshPage_failed hr hf ho hy
      have hisl : y.isl = s.isl := by rw [hy, queueEvent_isl]
      have hat : nextPageAt y = nextPageAt s := by rw [hy, nextPageAt_queueEvent]
      have hmore' : y.isl.pagen + 1 < refreshTotal := by rw [hisl]; exact hmore
      refine ⟨fun hfree => ?_, fun hfree => ?_⟩
      · refine congrArg Host.Outcome.next (hpage.trans ((if_neg (Nat.not_lt.mpr hfree)).trans
          ((pageDone_more (s := { y with nvm := { y.nvm with reloc := y.nvm.reloc + 1 } }) hmore').trans ?_)))
        change { y with
          nvm := { y.nvm with reloc := y.nvm.reloc + 1 }
          isl := { y.isl with pagen := y.isl.pagen + 1, pageOp := false, pageAt := nextPageAt y } } = _
        rw [hat, hisl]
        rfl
      · refine congrArg Host.Outcome.next (hpage.trans ((if_pos hfree).trans ((pageDone_more hmore').trans ?_)))
        rw [hat, hisl]
        rfl

end Sys2Proof.Safety
